-- ==== Sys2Proof/Word.lean ====
section
/-!
DEFINITION. The words of the AZ216: register widths (Table ISA-1), lines of 64 bytes, and the
numbers that name cores, dies and quadrants (R10, R11, R30).
-/

namespace Sys2Proof

/-- A general register, a control register, an address (Table ISA-1). -/
abbrev Word := BitVec 64

/-- A 32-bit register or instruction word. -/
abbrev Word32 := BitVec 32

/-- One byte of memory. -/
abbrev Byte := BitVec 8

/-- A 64 B line, or a vector register (Table ISA-1). -/
abbrev Line := BitVec 512

/-- A logical core, LC000 to LC215 (R30). -/
abbrev LC := Fin 216

/-- A compute die, C0 to C11 (R10). -/
abbrev Die := Fin 12

/-- A quadrant, Q0 to Q3 (R11). -/
abbrev Quad := Fin 4

/-- A core slot of a die, s00 to s19. -/
abbrev Slot := Fin 20

/-- A 12-bit station ID (R28). -/
abbrev Station := BitVec 12

/-- The number of a g or v register in an encoding (R90). -/
abbrev Reg := BitVec 5

/-- The number of a predicate register. -/
abbrev PReg := BitVec 3

/-- Compute die Cn belongs to quadrant floor(n/3) (R11). -/
def Die.quad (d : Die) : Quad := ⟨d.val / 3, by omega⟩

end Sys2Proof
end

