-- ==== Sys2Proof/Packet.lean ====
section
/-!
DEFINITION. The messages of the packet fabric: commands (Tables COH-1 and FAB-3), the header fields
(Table FAB-2) and the data flit; control-plane frames (Table FAB-5); the operands that commands of
the Shepherd, the host and the pins carry.
-/

namespace Sys2Proof

/-- A command of the packet fabric (Tables COH-1 and FAB-3). -/
inductive MsgKind where
  | rdShared | rdUnique | rdOnce | wrUnique | upgrade | evict | writeBack | atomicAtHome | cmo
  | snpShared | snpInval | snpOnce
  | ansGone | ansShared | ansKeep | ansGoneData | ansSharedData | ansKeepData
  | grantS | grantE | readData | homeDone | atomicOld | homeRefuse | homePoison
  | evictDone | grantSeen
  | scrRd | scrWr | devRd | devWr | hostRd | hostWr
  | ncData | ncAck | ncErr | ncPoison
  | intMsg | intAck | tlbBcast | tlbAck | roleGone
  /-- a code that neither table lists (R180, R234) -/
  | other (code : BitVec 8)
  deriving DecidableEq, Repr

/-- The command code of the header's CMD field (Tables COH-1 and FAB-3). -/
def MsgKind.code : MsgKind → Nat
  | .rdShared => 0x01 | .rdUnique => 0x02 | .rdOnce => 0x03 | .wrUnique => 0x04
  | .upgrade => 0x05 | .evict => 0x06 | .writeBack => 0x07 | .atomicAtHome => 0x08 | .cmo => 0x09
  | .snpShared => 0x10 | .snpInval => 0x11 | .snpOnce => 0x12
  | .ansGone => 0x18 | .ansShared => 0x19 | .ansKeep => 0x1A
  | .ansGoneData => 0x1B | .ansSharedData => 0x1C | .ansKeepData => 0x1D
  | .grantS => 0x20 | .grantE => 0x21 | .readData => 0x22 | .homeDone => 0x23
  | .atomicOld => 0x24 | .homeRefuse => 0x25 | .homePoison => 0x26
  | .evictDone => 0x27 | .grantSeen => 0x28
  | .scrRd => 0x30 | .scrWr => 0x31 | .devRd => 0x32 | .devWr => 0x33
  | .hostRd => 0x34 | .hostWr => 0x35
  | .ncData => 0x38 | .ncAck => 0x39 | .ncErr => 0x3A | .ncPoison => 0x3B
  | .intMsg => 0x40 | .intAck => 0x41 | .tlbBcast => 0x42 | .tlbAck => 0x43 | .roleGone => 0x44
  | .other c => c.toNat

/-- The answer class of Table FAB-3, checked against the role epoch (R247). -/
def MsgKind.isAnswer : MsgKind → Bool
  | .ansGone | .ansShared | .ansKeep | .ansGoneData | .ansSharedData | .ansKeepData
  | .grantS | .grantE | .readData | .homeDone | .atomicOld | .homeRefuse | .homePoison
  | .evictDone | .ncData | .ncAck | .ncErr | .ncPoison | .intAck | .tlbAck => true
  | _ => false

/-- What a router, bridge, crossbar or station finds as it checks the words of one flit (R230, R233): the
station whose registers count it, whether it is the data flit, the words with a single-bit error, and the
uncorrectable words with their syndromes. -/
structure FlitCheck where
  st   : Station
  data : Bool
  ce   : List (Fin 8) := []
  ue   : List (Fin 8 × BitVec 8) := []
  deriving DecidableEq, Repr

/-- A Prism port: the port of a die, or the hub port facing it. -/
structure PortId where
  die : Die
  hub : Bool
  deriving DecidableEq, Repr

/-- A message: the header of Table FAB-2 and its data flit. `bytes` is how many bytes a DevRd or
HostRd asks for (R235), `lvl` and `lc` the level and the number of the core behind a register access (R131, R159),
`asid` word 3 of a TlbBcast, whose register operand stands in `bmask` (R234), `hi` whether it went
on REQ-HI, `dies` the dies behind the locked skips that a HomeDone counts (R164), and `checks` what the
checks of its flits find on its way, an operand of the command that delivers it, `cross` the receiving ports of
the Prism links that it has still to pass. -/
structure Msg where
  kind   : MsgKind
  dest   : Station
  src    : Station
  txid   : BitVec 14 := 0
  tclass : BitVec 4 := 0
  prio   : BitVec 2 := 0
  s      : Bool := false
  pid    : BitVec 8 := 0
  fetch  : Bool := false
  epoch  : BitVec 6 := 0
  addr   : BitVec 48 := 0
  bmask  : BitVec 64 := 0
  data   : Option Line := none
  poisoned : Bool := false
  hi     : Bool := false
  bytes  : Nat := 8
  lvl    : BitVec 2 := 0
  lc     : BitVec 8 := 0xFF
  asid   : BitVec 16 := 0
  dies   : BitVec 12 := 0
  checks : List FlitCheck := []
  cross  : List PortId := []
  deriving DecidableEq, Repr

/-- A message as its sender sends it: a poisoned data flit has zero payload (R233). -/
def Msg.sealed (m : Msg) : Msg := if m.poisoned then { m with data := some 0 } else m

/-- A message as it was sent, without what the checks on its way found. -/
def Msg.bare (m : Msg) : Msg := { m with checks := [] }

/-- Who makes an access to a register: level, world, partition ID, and its logical core (0xFF for an
agent that is no core). -/
structure Accessor where
  lvl   : BitVec 2
  world : Bool
  pid   : BitVec 8
  lc    : BitVec 8 := 0xFF
  deriving DecidableEq, Repr

/-- A word of interrupt bits: sources 32k to 32k + 31 of a die, or the private sources of a core
(Tables INT-3, INT-9). -/
inductive IntWord where
  | shared (die : Die) (k : Fin 32)
  | priv (lc : LC)
  deriving DecidableEq, Repr

/-- The end of an I2C transfer (R522). -/
structure I2cResult where
  data  : List Byte
  nack  : Bool
  arbLost : Bool
  timeout : Bool
  deriving DecidableEq, Repr

/-- A regulated unit (R288). -/
inductive RegUnit where
  | core (lc : LC)
  | ce (c : Fin 4)
  | fold
  | func (f : Fin 1025)
  deriving DecidableEq, Repr

/-- What a home measured of a traffic class in a window that held requests of it (R297): the mean latency in ns. -/
structure Measure where
  q     : Quad
  cls   : BitVec 4
  mean  : Nat
  deriving DecidableEq, Repr

/-- What the check bits of a line read from a stack show (R216 to R218): beats with a single-bit error and
the bit of the 72 in error, and uncorrectable beats with their syndromes. -/
structure BeatErrs where
  single : List (Fin 8 × Fin 72) := []
  ue     : List (Fin 8 × BitVec 8) := []
  deriving DecidableEq, Repr

/-- An error that the checks of a core and of its die's arrays find (R139, R152, R158, R424, R425). -/
inductive ArrayErr where
  /-- a register file or L1D word corrected -/
  | corrected
  /-- an uncorrectable error at a check inside the core -/
  | check
  /-- L1I parity of a line -/
  | l1i (line : BitVec 42)
  /-- parity of an entry of the ITLB, the DTLB or the L2 TLB -/
  | itlb (i : Nat) | dtlb (i : Nat) | l2tlb (i : Nat)
  /-- data of a die-cache sub-block, corrected or not -/
  | dc (line : BitVec 42) (ue : Bool)
  /-- the tag or the lock bit of a way of a set, not corrected -/
  | tag (set : BitVec 13) (w : Fin 16)
  /-- an 8 B word of scratch by physical address / 8, corrected or not -/
  | scratch (word : BitVec 45) (ue : Bool)
  deriving DecidableEq, Repr

/-- A queue of the Fold. -/
abbrev Qid := BitVec 20

/-- An error that a home finds in its arrays (R158, R179): an entry of a die's duplicate tags by set and way,
or data of an MSC line; corrected or not; or one that the Fold finds in its context cache. -/
inductive HomeErr where
  | dt (q : Quad) (die : Die) (set : BitVec 13) (w : Fin 16) (ue : Bool)
  | msc (line : BitVec 42) (ue : Bool)
  /-- an uncorrectable error in a context that the Fold caches (R363) -/
  | ctx (qid : Qid)
  deriving DecidableEq, Repr

/-- The end of a window of a core: its time, and what the checks of the core and its die found in it (R48, R424). -/
structure ArrayWindow where
  t     : Word
  found : List ArrayErr := []
  deriving DecidableEq, Repr

/-- What a measurement window of the homes gave: latencies, and what their checks found in it (R158, R298). -/
structure HomeWindow where
  meas  : List Measure := []
  found : List HomeErr := []
  deriving DecidableEq, Repr

/-- The start of a regulator's window: the unit and the time (R291). -/
structure RegWindow where
  unit : RegUnit
  t    : Word
  deriving DecidableEq, Repr

/-- The end of a zero fill after Keep: of a bank of a stack or, with none, of the stack (R214). -/
structure KeepFill where
  q    : Quad
  bank : Option (Fin 16) := none
  deriving DecidableEq, Repr

/-- The data of a sideband word and its parity bit, as they arrive (R281). -/
structure SbBits where
  data : Word32
  par  : Bool
  deriving DecidableEq, Repr

/-- A sideband word without data: its direction and its parity bit, as it arrives (R281, R284). -/
structure SbBare where
  toHub : Bool
  par   : Bool
  deriving DecidableEq, Repr

/-- What befalls a frame on its way over a link (R265 to R272): symbols that arrive at another level than they were
driven with, by wavelength and place in the frame, and what the transmitting port finds as it checks the flits of
a message that it takes up (R268). -/
structure EdlFrame where
  hits   : List (Fin 36 × Fin 16 × Fin 4) := []
  checks : List FlitCheck := []
  deriving DecidableEq, Repr

/-- A LINKCTL unit (Table PRISM-4): credits by channel, ACK_SEQ, NAK, lane signal, lane and wavelength. -/
structure LinkCtl where
  cred   : List Nat := []
  ackSeq : BitVec 12 := 0
  nak    : Bool := false
  lsw    : BitVec 4 := 0
  lane   : BitVec 5 := 0
  wl     : BitVec 6 := 0
  deriving DecidableEq, Repr

/-- A lane signal in a LINKCTL unit: logical lane and wavelength (R276, R279). -/
structure LaneWord where
  lane : Fin 32
  wl   : Fin 36
  deriving DecidableEq, Repr

/-- A control-plane frame (Table FAB-5). `ringA` says on which ring the copy travels. -/
structure Frame where
  op     : BitVec 4
  status : BitVec 4 := 0
  dup    : Bool := false
  seq    : BitVec 16 := 0
  addr   : Word32 := 0
  data   : Word32 := 0
  crc    : Word32 := 0
  ringA  : Bool := true
  deriving DecidableEq, Repr

/-- A frame whose copies have not all come back, and the last station that a broken ring still reached (R253). -/
structure LateFrame where
  frame : Frame
  last  : Station
  deriving DecidableEq, Repr

/-- An audit: its time, and a quantity of invariants 1 to 6 that has leaked, its number less 1 and the station
concerned (R437, Table SAFE-11). -/
structure AuditRound where
  t    : Word
  fail : Option (Fin 6 × Station) := none
  deriving DecidableEq, Repr

/-- A function of the host endpoint: 0 is the PF, 1 to 1,024 the VFs (R337). -/
abbrev Func := Fin 1025

/-- A unit of the Mirror link (Table MIR-2): code 0 HB, 1 LINE, 2 CKPT, 3 END, 4 BASE_END, 5 ACK; its
epoch; address, line and poison mark of a LINE; the other words: role + 2 * state, running epoch, last
acknowledged epoch and digest of an HB, logical core, PID and record of a CKPT, the two counts of an
END. -/
structure MirUnit where
  code  : BitVec 8
  epoch : BitVec 64 := 0
  addr  : BitVec 48 := 0
  data  : List Word := []
  line  : Line := 0
  pois  : Bool := false
  deriving DecidableEq, Repr

/-- What a cold boot meets (R18, R483): whether the Shepherd's and the M firmware images of slots A and B verify as the
flash came from the factory, and how many repair rows SRAM BIST applies in each die cache and each MSC. -/
structure BootInput where
  okA : Bool
  okB : Bool
  dcRows  : List Nat := []
  mscRows : List Nat := []
  mA : Bool := true
  mB : Bool := true
  deriving DecidableEq, Repr

/-- A transaction that reaches port A from the host (Table PCIE-4): whether it writes; the function of
a configuration request; tag; address or configuration offset; bytes asked for; data with a byte
mask; completion status; EP; and what a Message is: 0 power management or error, 1 Vendor_Defined
Type 0, 2 Vendor_Defined Type 1. -/
structure Tlp where
  write : Bool
  fn    : Func
  tag   : BitVec 10 := 0
  addr  : BitVec 64 := 0
  bytes : Nat := 4
  be    : Nat := 15
  data  : List Byte := []
  status : BitVec 3 := 0
  ep    : Bool := false
  msg   : BitVec 2 := 0
  deriving DecidableEq, Repr

/-- The mailboxes of the Shepherd (R389). -/
inductive MbId where
  | h | m
  deriving DecidableEq, Repr

/-- Where a command packet comes from. -/
inductive Chan where
  | mb (id : MbId) (ch : Fin 2)
  | admin
  deriving DecidableEq, Repr

/-- A command packet of the Shepherd (R389, R394, Table CMD-3): channel; world and partition of its
issuer, as the Shepherd writes them; the header; inline parameters P0, P1 ...; and for the admin queue
what its parameter buffer holds in host memory. -/
structure ShepReq where
  chan   : Chan
  world  : Bool
  pid    : BitVec 8
  op     : BitVec 16
  length : BitVec 16
  seq    : Word32
  flags  : BitVec 8 := 0
  bufLen : Word32 := 0
  pbuf   : Word := 0
  rbuf   : Word := 0
  params : List Word32 := []
  host   : List Byte := []
  deriving DecidableEq, Repr

end Sys2Proof
end

