-- ==== Sys2Proof/Syntax.lean ====
section
/-!
DEFINITION. The commands of the AZ216: one constructor for each row of the opcode table. A core
instruction names its logical core and its fields (R90); an event names what it happens to and
what it brings.
-/

namespace Sys2Proof

/-- A command. -/
inductive Instr where
  /-- ADDI: adds the sign-extended immediate to ga and writes the result to gd (R96). -/
  | addi (lc : LC) (rd ra : Reg) (imm : BitVec 16)
  /-- ANDI: ANDs ga with the zero-extended immediate (R96). -/
  | andi (lc : LC) (rd ra : Reg) (imm : BitVec 16)
  /-- ORI: ORs ga with the zero-extended immediate (R96). -/
  | ori (lc : LC) (rd ra : Reg) (imm : BitVec 16)
  /-- XORI: XORs ga with the zero-extended immediate (R96). -/
  | xori (lc : LC) (rd ra : Reg) (imm : BitVec 16)
  /-- SLTI: writes 1 if ga is less than the sign-extended immediate (signed), else 0 (R96). -/
  | slti (lc : LC) (rd ra : Reg) (imm : BitVec 16)
  /-- SLTIU: writes 1 if ga is less than the sign-extended immediate (unsigned), else 0 (R96). -/
  | sltiu (lc : LC) (rd ra : Reg) (imm : BitVec 16)
  /-- SLLI: shifts ga left by an immediate amount (R96). -/
  | slli (lc : LC) (rd ra : Reg) (n : BitVec 6)
  /-- SRLI: shifts ga right logically by an immediate amount (R96). -/
  | srli (lc : LC) (rd ra : Reg) (n : BitVec 6)
  /-- SRAI: shifts ga right arithmetically by an immediate amount (R96). -/
  | srai (lc : LC) (rd ra : Reg) (n : BitVec 6)
  /-- KSET: writes the sign-extended 16-bit immediate to gd (R96). -/
  | kset (lc : LC) (rd : Reg) (imm : BitVec 16)
  /-- KSETU: writes the zero-extended 16-bit immediate to gd (R96). -/
  | ksetu (lc : LC) (rd : Reg) (imm : BitVec 16)
  /-- KAPP: shifts gd left by 16 and appends the immediate (R96). -/
  | kapp (lc : LC) (rd : Reg) (imm : BitVec 16)
  /-- ADD: adds ga and gb modulo 2^64 (R96). -/
  | add (lc : LC) (rd ra rb : Reg)
  /-- SUB: subtracts gb from ga modulo 2^64 (R96). -/
  | sub (lc : LC) (rd ra rb : Reg)
  /-- AND: bitwise AND of ga and gb (R96). -/
  | and (lc : LC) (rd ra rb : Reg)
  /-- OR: bitwise OR of ga and gb (R96). -/
  | or (lc : LC) (rd ra rb : Reg)
  /-- XOR: bitwise XOR of ga and gb (R96). -/
  | xor (lc : LC) (rd ra rb : Reg)
  /-- SLL: shifts ga left by gb (R96). -/
  | sll (lc : LC) (rd ra rb : Reg)
  /-- SRL: shifts ga right logically by gb (R96). -/
  | srl (lc : LC) (rd ra rb : Reg)
  /-- SRA: shifts ga right arithmetically by gb (R96). -/
  | sra (lc : LC) (rd ra rb : Reg)
  /-- SLT: writes 1 if ga is less than gb (signed) (R96). -/
  | slt (lc : LC) (rd ra rb : Reg)
  /-- SLTU: writes 1 if ga is less than gb (unsigned) (R96). -/
  | sltu (lc : LC) (rd ra rb : Reg)
  /-- MIN: signed minimum of ga and gb (R96). -/
  | min (lc : LC) (rd ra rb : Reg)
  /-- MAX: signed maximum of ga and gb (R96). -/
  | max (lc : LC) (rd ra rb : Reg)
  /-- MINU: unsigned minimum of ga and gb (R96). -/
  | minu (lc : LC) (rd ra rb : Reg)
  /-- MAXU: unsigned maximum of ga and gb (R96). -/
  | maxu (lc : LC) (rd ra rb : Reg)
  /-- ADDW: 32-bit add, result sign-extended (R96). -/
  | addw (lc : LC) (rd ra rb : Reg)
  /-- SUBW: 32-bit subtract, result sign-extended (R96). -/
  | subw (lc : LC) (rd ra rb : Reg)
  /-- SLLW: 32-bit left shift, result sign-extended (R96). -/
  | sllw (lc : LC) (rd ra rb : Reg)
  /-- SRLW: 32-bit logical right shift, result sign-extended (R96). -/
  | srlw (lc : LC) (rd ra rb : Reg)
  /-- SRAW: 32-bit arithmetic right shift, result sign-extended (R96). -/
  | sraw (lc : LC) (rd ra rb : Reg)
  /-- CLZ: counts leading zeros of ga (R96). -/
  | clz (lc : LC) (rd ra : Reg)
  /-- CTZ: counts trailing zeros of ga (R96). -/
  | ctz (lc : LC) (rd ra : Reg)
  /-- POPC: counts set bits of ga (R96). -/
  | popc (lc : LC) (rd ra : Reg)
  /-- MUL: low 64 bits of ga times gb (R96). -/
  | mul (lc : LC) (rd ra rb : Reg)
  /-- MULH: high 64 bits of the signed product (R96). -/
  | mulh (lc : LC) (rd ra rb : Reg)
  /-- MULHU: high 64 bits of the unsigned product (R96). -/
  | mulhu (lc : LC) (rd ra rb : Reg)
  /-- MULW: 32-bit multiply, result sign-extended (R96). -/
  | mulw (lc : LC) (rd ra rb : Reg)
  /-- DIV: 64-bit signed division with defined results for zero divisor and overflow (R97). -/
  | div (lc : LC) (rd ra rb : Reg)
  /-- DIVU: 64-bit unsigned division (R97). -/
  | divu (lc : LC) (rd ra rb : Reg)
  /-- REM: 64-bit signed remainder (R97). -/
  | rem (lc : LC) (rd ra rb : Reg)
  /-- REMU: 64-bit unsigned remainder (R97). -/
  | remu (lc : LC) (rd ra rb : Reg)
  /-- DIVW: 32-bit signed division (R97). -/
  | divw (lc : LC) (rd ra rb : Reg)
  /-- DIVUW: 32-bit unsigned division (R97). -/
  | divuw (lc : LC) (rd ra rb : Reg)
  /-- REMW: 32-bit signed remainder (R97). -/
  | remw (lc : LC) (rd ra rb : Reg)
  /-- REMUW: 32-bit unsigned remainder (R97). -/
  | remuw (lc : LC) (rd ra rb : Reg)
  /-- ILLEGAL_ENCODING: an undefined or malformed instruction word raises ILLEGAL (R91). -/
  | illegalEncoding (lc : LC) (w : Word32)
  /-- LB: loads a sign-extended byte (R99). -/
  | lb (lc : LC) (rd ra : Reg) (imm : BitVec 16)
  /-- LH: loads a sign-extended halfword, split if it crosses a line (R99). -/
  | lh (lc : LC) (rd ra : Reg) (imm : BitVec 16)
  /-- LW: loads a sign-extended word (R99). -/
  | lw (lc : LC) (rd ra : Reg) (imm : BitVec 16)
  /-- LD: loads a doubleword (R99). -/
  | ld (lc : LC) (rd ra : Reg) (imm : BitVec 16)
  /-- LBU: loads a zero-extended byte (R99). -/
  | lbu (lc : LC) (rd ra : Reg) (imm : BitVec 16)
  /-- LHU: loads a zero-extended halfword (R99). -/
  | lhu (lc : LC) (rd ra : Reg) (imm : BitVec 16)
  /-- LWU: loads a zero-extended word (R99). -/
  | lwu (lc : LC) (rd ra : Reg) (imm : BitVec 16)
  /-- SB: stores a byte into the store buffer (R99). -/
  | sb (lc : LC) (rs ra : Reg) (imm : BitVec 16)
  /-- SH: stores a halfword into the store buffer (R99). -/
  | sh (lc : LC) (rs ra : Reg) (imm : BitVec 16)
  /-- SW: stores a word into the store buffer (R99). -/
  | sw (lc : LC) (rs ra : Reg) (imm : BitVec 16)
  /-- SD: stores a doubleword into the store buffer (R99). -/
  | sd (lc : LC) (rs ra : Reg) (imm : BitVec 16)
  /-- STORE_DRAIN: the oldest store-buffer entry is performed at L1D, scratch or the target (R49). -/
  | storeDrain (lc : LC)
  /-- STORE_BUS: at the boundary after a failed drain, raises STORE_BUS to the fixed target level (R70). -/
  | storeBus (lc : LC)
  /-- SCRATCH_LOAD_RETURN: an outstanding own-die scratch load returns its data to the register (R100). -/
  | scratchLoadReturn (lc : LC)
  /-- BEQ: branches if ga equals gb (R98). -/
  | beq (lc : LC) (ra rb : Reg) (off : BitVec 16)
  /-- BNE: branches if ga differs from gb (R98). -/
  | bne (lc : LC) (ra rb : Reg) (off : BitVec 16)
  /-- BLT: branches if ga is less than gb, signed (R98). -/
  | blt (lc : LC) (ra rb : Reg) (off : BitVec 16)
  /-- BGE: branches if ga is not less than gb, signed (R98). -/
  | bge (lc : LC) (ra rb : Reg) (off : BitVec 16)
  /-- BLTU: branches if ga is less than gb, unsigned (R98). -/
  | bltu (lc : LC) (ra rb : Reg) (off : BitVec 16)
  /-- BGEU: branches if ga is not less than gb, unsigned (R98). -/
  | bgeu (lc : LC) (ra rb : Reg) (off : BitVec 16)
  /-- J: jumps PC-relative (R98). -/
  | j (lc : LC) (off : BitVec 26)
  /-- JAL: jumps PC-relative and links in g31 (R98). -/
  | jal (lc : LC) (off : BitVec 26)
  /-- JALR: jumps to a register target and links in gd (R98). -/
  | jalr (lc : LC) (rd ra : Reg) (imm : BitVec 16)
  /-- VADD: vector integer add (R104). -/
  | vadd (lc : LC) (vd va vb : Reg) (m : Option PReg) (et : BitVec 2)
  /-- VSUB: vector integer subtract (R104). -/
  | vsub (lc : LC) (vd va vb : Reg) (m : Option PReg) (et : BitVec 2)
  /-- VAND: 512-bit bitwise AND (R104). -/
  | vand (lc : LC) (vd va vb : Reg)
  /-- VOR: 512-bit bitwise OR (R104). -/
  | vor (lc : LC) (vd va vb : Reg)
  /-- VXOR: 512-bit bitwise XOR (R104). -/
  | vxor (lc : LC) (vd va vb : Reg)
  /-- VMIN: vector signed minimum (R104). -/
  | vmin (lc : LC) (vd va vb : Reg) (m : Option PReg) (et : BitVec 2)
  /-- VMAX: vector signed maximum (R104). -/
  | vmax (lc : LC) (vd va vb : Reg) (m : Option PReg) (et : BitVec 2)
  /-- VSLL: vector shift left (R104). -/
  | vsll (lc : LC) (vd va vb : Reg) (m : Option PReg) (et : BitVec 2)
  /-- VSRL: vector logical shift right (R104). -/
  | vsrl (lc : LC) (vd va vb : Reg) (m : Option PReg) (et : BitVec 2)
  /-- VSRA: vector arithmetic shift right (R104). -/
  | vsra (lc : LC) (vd va vb : Reg) (m : Option PReg) (et : BitVec 2)
  /-- VCMPEQ: vector equality compare into a predicate (R104). -/
  | vcmpeq (lc : LC) (pd : PReg) (va vb : Reg) (m : Option PReg) (et : BitVec 2)
  /-- VCMPLT: vector signed less-than compare into a predicate (R104). -/
  | vcmplt (lc : LC) (pd : PReg) (va vb : Reg) (m : Option PReg) (et : BitVec 2)
  /-- VFADD: vector floating-point add (R106). -/
  | vfadd (lc : LC) (vd va vb : Reg) (m : Option PReg) (et : BitVec 2)
  /-- VFSUB: vector floating-point subtract (R106). -/
  | vfsub (lc : LC) (vd va vb : Reg) (m : Option PReg) (et : BitVec 2)
  /-- VFMUL: vector floating-point multiply (R106). -/
  | vfmul (lc : LC) (vd va vb : Reg) (m : Option PReg) (et : BitVec 2)
  /-- VFMA: vector fused multiply-add with one rounding (R106). -/
  | vfma (lc : LC) (vd va vb : Reg) (m : Option PReg) (et : BitVec 2)
  /-- VFDIV: vector floating-point divide (R106). -/
  | vfdiv (lc : LC) (vd va vb : Reg) (m : Option PReg) (et : BitVec 2)
  /-- VFSQRT: vector floating-point square root (R106). -/
  | vfsqrt (lc : LC) (vd va : Reg) (m : Option PReg) (et : BitVec 2)
  /-- VFMIN: vector IEEE 754 minimum (R104). -/
  | vfmin (lc : LC) (vd va vb : Reg) (m : Option PReg) (et : BitVec 2)
  /-- VFMAX: vector IEEE 754 maximum (R104). -/
  | vfmax (lc : LC) (vd va vb : Reg) (m : Option PReg) (et : BitVec 2)
  /-- VFCMPLT: signalling floating-point less-than compare into a predicate (R104). -/
  | vfcmplt (lc : LC) (pd : PReg) (va vb : Reg) (m : Option PReg) (et : BitVec 2)
  /-- VFCMPEQ: quiet floating-point equality compare into a predicate (R104). -/
  | vfcmpeq (lc : LC) (pd : PReg) (va vb : Reg) (m : Option PReg) (et : BitVec 2)
  /-- VRSUM: fixed-tree floating-point sum into element 0 (R106). -/
  | vrsum (lc : LC) (vd va : Reg) (m : Option PReg) (et : BitVec 2)
  /-- VCVT_F32_TO_F64: converts fp32 elements 0-7 to fp64 (R104). -/
  | vcvtF32ToF64 (lc : LC) (vd va : Reg)
  /-- VCVT_F64_TO_F32: converts fp64 elements to fp32 (R104). -/
  | vcvtF64ToF32 (lc : LC) (vd va : Reg)
  /-- VCVT_F32_TO_BF16: converts fp32 elements to bf16 under RM (R104). -/
  | vcvtF32ToBf16 (lc : LC) (vd va : Reg)
  /-- VCVT_BF16_TO_F32: converts bf16 elements to fp32 (R104). -/
  | vcvtBf16ToF32 (lc : LC) (vd va : Reg)
  /-- VCVT_I32_TO_F32: converts int32 elements to fp32 (R104). -/
  | vcvtI32ToF32 (lc : LC) (vd va : Reg)
  /-- VCVT_F32_TO_I32: converts fp32 elements to int32 with saturation (R104). -/
  | vcvtF32ToI32 (lc : LC) (vd va : Reg)
  /-- VDOT2_BF16: bf16 pair dot product accumulated into fp32 lanes (R106). -/
  | vdot2Bf16 (lc : LC) (vd va vb : Reg) (m : Option PReg)
  /-- VDOT4_I8: signed int8 four-way dot product into int32 lanes (R104). -/
  | vdot4I8 (lc : LC) (vd va vb : Reg) (m : Option PReg)
  /-- VDOT4_U8S8: unsigned-by-signed int8 dot product into int32 lanes (R104). -/
  | vdot4U8s8 (lc : LC) (vd va vb : Reg) (m : Option PReg)
  /-- VLD: loads one aligned 64 B line into a vector register (R107). -/
  | vld (lc : LC) (vd ra : Reg) (imm : BitVec 16)
  /-- VST: stores a vector register as one full-line store-buffer entry (R107). -/
  | vst (lc : LC) (vs ra : Reg) (imm : BitVec 16)
  /-- VMOVG: moves a 64-bit vector element to a g register (R108). -/
  | vmovg (lc : LC) (rd va : Reg) (k : BitVec 3)
  /-- VMOVV: moves a g register into a 64-bit vector element (R108). -/
  | vmovv (lc : LC) (vd ra : Reg) (k : BitVec 3)
  /-- VBCAST: broadcasts a g register into every vector element (R108). -/
  | vbcast (lc : LC) (vd ra : Reg) (et : BitVec 2)
  /-- PAND: predicate AND (R108). -/
  | pand (lc : LC) (pd pa pb : PReg)
  /-- POR: predicate OR (R108). -/
  | por (lc : LC) (pd pa pb : PReg)
  /-- PXOR: predicate XOR (R108). -/
  | pxor (lc : LC) (pd pa pb : PReg)
  /-- PNOT: predicate complement (R108). -/
  | pnot (lc : LC) (pd pa : PReg)
  /-- PSET: sets a predicate from a g register (R108). -/
  | pset (lc : LC) (pd : PReg) (ra : Reg)
  /-- PGET: reads a predicate into a g register (R108). -/
  | pget (lc : LC) (rd : Reg) (pa : PReg)
  /-- VECTOR_START: V starts the next queued vector instruction when free (R102). -/
  | vectorStart (lc : LC)
  /-- AADD: far atomic add performed at the home (R109). -/
  | aadd (lc : LC) (rd ra rb : Reg)
  /-- ASWP: far atomic swap (R109). -/
  | aswp (lc : LC) (rd ra rb : Reg)
  /-- ACAS: far atomic compare-and-swap (R109). -/
  | acas (lc : LC) (rd ra rb : Reg)
  /-- AMIN: far atomic signed minimum (R109). -/
  | amin (lc : LC) (rd ra rb : Reg)
  /-- AMAX: far atomic signed maximum (R109). -/
  | amax (lc : LC) (rd ra rb : Reg)
  /-- AMINU: far atomic unsigned minimum (R109). -/
  | aminu (lc : LC) (rd ra rb : Reg)
  /-- AMAXU: far atomic unsigned maximum (R109). -/
  | amaxu (lc : LC) (rd ra rb : Reg)
  /-- CRR: reads a control register into gd (R86). -/
  | crr (lc : LC) (rd : Reg) (cr : BitVec 12)
  /-- CRW: writes a control register and refetches (R112). -/
  | crw (lc : LC) (cr : BitVec 12) (ra : Reg)
  /-- KCALL: calls into K (R64). -/
  | kcall (lc : LC) (nn : BitVec 8)
  /-- HCALL: calls into H (R64). -/
  | hcall (lc : LC) (nn : BitVec 8)
  /-- MCALL: calls into M (R64). -/
  | mcall (lc : LC) (nn : BitVec 8)
  /-- BREAK: raises BREAK at the own level (R64). -/
  | brk (lc : LC) (nn : BitVec 8)
  /-- ERET: returns from an exception by restoring the frame, or tail-chains (R71). -/
  | eret (lc : LC)
  /-- WAIT: stops handshakes until a takeable interrupt or STORE_BUS (R84). -/
  | wait (lc : LC)
  /-- WAIT_WAKE: A core in WAIT restarts within 200 ns of a wake event (R84). -/
  | waitWake (lc : LC)
  /-- FENCE_SL: holds later loads until older stores drain (R54). -/
  | fenceSl (lc : LC)
  /-- FENCE_ALL: holds later loads and stores until all older accesses complete (R54). -/
  | fenceAll (lc : LC)
  /-- IFENCE: applies pending L1I invalidations, drains and refetches (R42). -/
  | ifence (lc : LC)
  /-- TLBL: walks and locks a translation (R78). -/
  | tlbl (lc : LC) (rd ra : Reg) (kindI : Bool)
  /-- TLBU: unlocks a translation (R79). -/
  | tlbu (lc : LC) (ra : Reg) (kindI : Bool)
  /-- TLBI_VA: invalidates local TLB entries matching a VA (R79). -/
  | tlbiVa (lc : LC) (ra : Reg)
  /-- TLBI_ASID: invalidates local entries of the current ASID (R79). -/
  | tlbiAsid (lc : LC)
  /-- TLBI_PID: invalidates local entries of a partition (R79). -/
  | tlbiPid (lc : LC) (ra : Reg)
  /-- TLBI_ALL: invalidates all local entries of both worlds (R79). -/
  | tlbiAll (lc : LC)
  /-- TLBI_B_VA: broadcast TLBI.VA to every core of the partition (R79). -/
  | tlbiBVa (lc : LC) (ra : Reg)
  /-- TLBI_B_ASID: broadcast TLBI.ASID (R79). -/
  | tlbiBAsid (lc : LC)
  /-- TLBI_B_PID: broadcast TLBI.PID (R79). -/
  | tlbiBPid (lc : LC) (ra : Reg)
  /-- TLBI_B_ALL: broadcast TLBI.ALL (R79). -/
  | tlbiBAll (lc : LC)
  /-- DCL_C: cleans a line throughout the coherent domain (R113). -/
  | dclC (lc : LC) (ra : Reg)
  /-- DCL_I: invalidates every copy of a line (R113). -/
  | dclI (lc : LC) (ra : Reg)
  /-- DCL_CI: cleans then invalidates every copy of a line (R113). -/
  | dclCi (lc : LC) (ra : Reg)
  /-- DCL_Z: stores 64 zero bytes as one full-line entry (R113). -/
  | dclZ (lc : LC) (ra : Reg)
  /-- DPF: prefetch hint into L1D without walking or faulting (R113). -/
  | dpf (lc : LC) (ra : Reg)
  /-- ICL_I: invalidates a line in this core's L1I (R113). -/
  | iclI (lc : LC) (ra : Reg)
  /-- L1I_INVALIDATION_APPLY: the core applies a delivered L1I invalidation at a later unfixed time (R42). -/
  | l1iInvalidationApply (lc : LC)
  /-- ACCT_CLEAR: CORE_ACCT_CTL.CLEAR zeroes the six accounting counters (R47). -/
  | acctClear (lc : LC)
  /-- BEAT_RATE_WINDOW: at each 10 us boundary CORE_BEAT_RATE takes the window's beat count (R48). -/
  | beatRateWindow (die : Die) (slot : Slot) (win : ArrayWindow)
  /-- INTERRUPT_ENTRY: the interface takes the selected takeable source at an instruction boundary (R119). -/
  | interruptEntry (lc : LC)
  /-- INT_OFFER: A distributor's offer of a pending source reaches the target core interface (R129). -/
  | intOffer (die : Die) (src : BitVec 10)
  /-- DEADLINE: TB_NOW reaching CII_DEADLINE asserts the DEADLINE source (R116). -/
  | deadline (lc : LC) (t : Word)
  /-- SGI: A CII_SGI write sends SGI N to a logical core, checked at the target (R137). -/
  | sgi (lc : LC) (w : Word32)
  /-- EOI: A CII_EOI write pops the running-priority stack if the ID matches (R123). -/
  | eoi (lc : LC) (w : Word32)
  /-- INTD_MSG: A store to INTD_MSG raises a message source if the owner check passes (R127). -/
  | intdMsg (die : Die) (w : Word32) (who : Accessor)
  /-- ENABLE_SET: A write of 1s through an ENABLE_SET alias enables only those sources (R132). -/
  | enableSet (iw : IntWord) (bits : Word32) (who : Accessor)
  /-- ENABLE_CLR: A write of 1s through an ENABLE_CLR alias disables sources and withdraws offers (R134). -/
  | enableClr (iw : IntWord) (bits : Word32) (who : Accessor)
  /-- PEND_SET: A write through a PEND_SET alias makes edge sources pending (R133). -/
  | pendSet (iw : IntWord) (bits : Word32) (who : Accessor)
  /-- PEND_CLR: A write through a PEND_CLR alias clears edge sources' pending bits (R133). -/
  | pendClr (iw : IntWord) (bits : Word32) (who : Accessor)
  /-- INTD_TARGET_WRITE: retargets a shared source, completing once offers are dropped or entered (R134). -/
  | intdTargetWrite (die : Die) (src : BitVec 10) (w : Word32) (who : Accessor)
  /-- GPIO_PIN_CHANGE: A sampled GPIO level change asserts its source or a wake (R522). -/
  | gpioPinChange (pin : Fin 32) (level : Bool)
  /-- UART_RX: A received UART byte enters the receive FIFO (R522). -/
  | uartRx (u : Fin 2) (b : Byte) (frameErr : Bool)
  /-- UART_DATA_WRITE: queues a byte for transmission or sets TXOVR (R522). -/
  | uartDataWrite (u : Fin 2) (b : Byte) (who : Accessor)
  /-- UART_DATA_READ: takes the oldest received byte from the FIFO (R522). -/
  | uartDataRead (u : Fin 2) (who : Accessor)
  /-- I2C_GO: I2C_CMD with GO starts a controller transfer (R522). -/
  | i2cGo (u : Fin 2) (w : Word32) (who : Accessor)
  /-- I2C_DONE: an I2C transfer ends and DONE is set (R522). -/
  | i2cDone (u : Fin 2) (r : I2cResult)
  /-- RME_CLAIM_REQ: claims the range engine if it has no holder (R159). -/
  | rmeClaimReq (die : Die) (who : Accessor)
  /-- RME_CLAIM_REL: releases the range engine, aborting from M (R159). -/
  | rmeClaimRel (die : Die) (who : Accessor)
  /-- CLEAN: range-engine CLEAN launched over a range (R162). -/
  | rmeClean (die : Die) (w : Word32) (who : Accessor)
  /-- INVAL: range-engine INVAL launched over a range (R163). -/
  | rmeInval (die : Die) (w : Word32) (who : Accessor)
  /-- CLEAN_INVAL: range-engine CLEAN_INVAL launched over a range (R163). -/
  | rmeCleanInval (die : Die) (w : Word32) (who : Accessor)
  /-- ZERO: range-engine ZERO launched over a range (R162). -/
  | rmeZero (die : Die) (w : Word32) (who : Accessor)
  /-- LOCK: range-engine LOCK launched over a range (R147). -/
  | rmeLock (die : Die) (w : Word32) (who : Accessor)
  /-- UNLOCK: range-engine UNLOCK launched over a range (R147). -/
  | rmeUnlock (die : Die) (w : Word32) (who : Accessor)
  /-- PREFETCH: range-engine PREFETCH launched over a range (R162). -/
  | rmePrefetch (die : Die) (w : Word32) (who : Accessor)
  /-- RME_LINE_STEP: the engine applies the running command to one line indivisibly (R165). -/
  | rmeLineStep (die : Die)
  /-- RME_COMPLETE: all effects complete; BUSY clears, DONE sets and RME_DONE may assert (R166). -/
  | rmeComplete (die : Die)
  /-- RME_ABORT: stops the command after the line in progress (R166). -/
  | rmeAbort (die : Die) (who : Accessor)
  /-- RD_SHARED: home receives RdShared and grants S or E (R183). -/
  | rdShared (msg : Msg)
  /-- RD_UNIQUE: home receives RdUnique, invalidates others and grants E (R183). -/
  | rdUnique (msg : Msg)
  /-- RD_ONCE: home receives RdOnce and returns ReadData (R183). -/
  | rdOnce (msg : Msg)
  /-- WR_UNIQUE: home receives WrUnique and merges masked bytes into the line (R183). -/
  | wrUnique (msg : Msg)
  /-- UPGRADE: home receives Upgrade, serving it as RdUnique if overtaken (R190). -/
  | upgrade (msg : Msg)
  /-- EVICT: home receives Evict, applying, holding or dropping it as stale (R188). -/
  | evict (msg : Msg)
  /-- WRITE_BACK: home receives WriteBack, writing the MSC unless stale (R188). -/
  | writeBack (msg : Msg)
  /-- ATOMIC_AT_HOME: home performs a far atomic on the line indivisibly (R183). -/
  | atomicAtHome (msg : Msg)
  /-- CMO_CLEAN: home performs a CLEAN CMO on a line (R183). -/
  | cmoClean (msg : Msg)
  /-- CMO_INVAL: home performs an INVAL CMO on a line (R183). -/
  | cmoInval (msg : Msg)
  /-- CMO_CLEAN_INVAL: home performs a CLEAN_INVAL CMO on a line (R183). -/
  | cmoCleanInval (msg : Msg)
  /-- CMO_ZERO: home writes the line with zeros and invalidates holders (R183). -/
  | cmoZero (msg : Msg)
  /-- SNP_SHARED: A die answers SnpShared and downgrades to S (R182). -/
  | snpShared (msg : Msg)
  /-- SNP_INVAL: A die answers SnpInval by origin and lock state (R182). -/
  | snpInval (msg : Msg)
  /-- SNP_ONCE: A die answers SnpOnce, keeping its copy (R182). -/
  | snpOnce (msg : Msg)
  /-- ANS_GONE: home receives AnsGone, marking a crossing eviction stale if flagged (R188). -/
  | ansGone (msg : Msg)
  /-- ANS_SHARED: home receives AnsShared (R183). -/
  | ansShared (msg : Msg)
  /-- ANS_KEEP: home receives AnsKeep, counting any locked skip (R183). -/
  | ansKeep (msg : Msg)
  /-- ANS_GONE_DATA: home receives AnsGoneData and writes the data into the MSC (R188). -/
  | ansGoneData (msg : Msg)
  /-- ANS_SHARED_DATA: home receives AnsSharedData and writes it into the MSC (R183). -/
  | ansSharedData (msg : Msg)
  /-- ANS_KEEP_DATA: home receives AnsKeepData and writes it into the MSC (R183). -/
  | ansKeepData (msg : Msg)
  /-- GRANT_S: die installs a sub-block in S and sends GrantSeen (R177). -/
  | grantS (msg : Msg)
  /-- GRANT_E: die installs a sub-block in E and sends GrantSeen (R190). -/
  | grantE (msg : Msg)
  /-- READ_DATA: requester receives ReadData for RdOnce (R183). -/
  | readData (msg : Msg)
  /-- HOME_DONE: requester receives HomeDone for a completion without data (R183). -/
  | homeDone (msg : Msg)
  /-- ATOMIC_OLD: core receives the old value of a far atomic (R109). -/
  | atomicOld (msg : Msg)
  /-- HOME_REFUSE: requester receives a Pasture refusal as a bus error (R184). -/
  | homeRefuse (msg : Msg)
  /-- HOME_POISON: requester receives poisoned data as the error of its kind (R185). -/
  | homePoison (msg : Msg)
  /-- EVICT_DONE: die frees an eviction-buffer sub-block, and the entry when all are done (R187). -/
  | evictDone (msg : Msg)
  /-- GRANT_SEEN: home ends the entry and activates the next queued entry (R183). -/
  | grantSeen (msg : Msg)
  /-- SNOOP_TIMEOUT: A 20 us snoop or grant timer expires and the home starts CDS (R194). -/
  | snoopTimeout (q : Quad) (entry : Nat) (die : Option Die)
  /-- SCR_RD: A die-cache bank serves a remote scratch read (R152). -/
  | scrRd (msg : Msg)
  /-- SCR_WR: A die-cache bank performs a remote scratch write (R152). -/
  | scrWr (msg : Msg)
  /-- DEV_RD: A device station serves a register read (R235). -/
  | devRd (msg : Msg)
  /-- DEV_WR: A device station performs a register write by BMASK (R235). -/
  | devWr (msg : Msg)
  /-- HOST_RD: port A turns a host-window read into an MRd (R344). -/
  | hostRd (msg : Msg)
  /-- HOST_WR: port A turns a host-window write into an MWr (R346). -/
  | hostWr (msg : Msg)
  /-- NC_DATA: requester receives read data, dropping it if its epoch is stale (R247). -/
  | ncData (msg : Msg)
  /-- NC_ACK: requester receives the acknowledgement of a performed write (R234). -/
  | ncAck (msg : Msg)
  /-- NC_ERR: requester receives a bus error (R234). -/
  | ncErr (msg : Msg)
  /-- NC_POISON: requester receives a poisoned-data answer (R234). -/
  | ncPoison (msg : Msg)
  /-- INT_MSG: A distributor receives an interrupt message and sets pending if owned (R127). -/
  | intMsg (msg : Msg)
  /-- INT_ACK: sender receives the acknowledgement of an interrupt message (R127). -/
  | intAck (msg : Msg)
  /-- TLB_BCAST: A die performs a broadcast TLB operation on its cores (R234). -/
  | tlbBcast (msg : Msg)
  /-- TLB_ACK: the issuing bank receives one die's acknowledgement of a broadcast (R79). -/
  | tlbAck (msg : Msg)
  /-- ROLE_GONE: receiver of RoleGone ends a waiting grant entry or counts it (R248). -/
  | roleGone (msg : Msg)
  /-- REG_WINDOW_START: A regulator window starts, repays USED and admits held requests (R291). -/
  | regWindowStart (win : RegWindow)
  /-- MEAS_WINDOW_END: A measurement window ends and escalation levels are recomputed (R298). -/
  | measWindowEnd (t : Word) (win : HomeWindow)
  /-- GUARANTEE_RECOMPUTE: the Shepherd recomputes effective guarantees after a deliverable change (R302). -/
  | guaranteeRecompute
  /-- MC_FILL_REQUEST: MCq queues a read, or forwards it under FORWARD mode (R202). -/
  | mcFillRequest (q : Quad) (line : BitVec 42) (prio : BitVec 2)
  /-- MC_WRITE_REQUEST: MCq queues or merges a full-line write (R205). -/
  | mcWriteRequest (q : Quad) (line : BitVec 42) (data : Line) (pois classed : Bool)
  /-- MC_READ_ISSUE: A PC issues its next read by the priority order (R203). -/
  | mcReadIssue (q : Quad) (pc : Fin 16)
  /-- MC_WRITE_ISSUE: A PC issues a write in or out of a drain (R204). -/
  | mcWriteIssue (q : Quad) (pc : Fin 16)
  /-- MC_READ_DATA: data read from the stack is checked and handled by error class (R220). -/
  | mcReadData (q : Quad) (pc : Fin 16) (err : BeatErrs)
  /-- REFRESH_DUE: A refresh falls due and is issued, postponed or forced (R211). -/
  | refreshDue (q : Quad) (pc : Fin 16)
  /-- SELF_REFRESH_ENTRY: an idle PC repays its debt and enters self-refresh (R212). -/
  | selfRefreshEntry (q : Quad) (pc : Fin 16)
  /-- TEMP_READOUT: MCq reads the stack temperature and sets or clears HOT (R210). -/
  | tempReadout (q : Quad) (temp : BitVec 8)
  /-- SCRUB_EARN: A scrubber earns one owed read, waking the PC at 64 (R222). -/
  | scrubEarn (q : Quad) (pc : Fin 16)
  /-- SCRUB_READ: A scrubber issues an owed read in an idle cycle (R224). -/
  | scrubRead (q : Quad) (pc : Fin 16)
  /-- LAP_OVERDUE: the running lap passes LAP_LIMIT_H and OVERDUE is set (R223). -/
  | lapOverdue (q : Quad) (t : Word)
  /-- STACK_SELF_REFRESH: the Shepherd commands a whole stack into self-refresh (R213). -/
  | stackSelfRefresh (q : Quad)
  /-- STACK_SELF_REFRESH_EXIT: the commanded self-refresh is withdrawn (R213). -/
  | stackSelfRefreshExit (q : Quad)
  /-- KEEP_ENTRY: MCq enters Keep with per-bank refresh of masked banks (R214). -/
  | keepEntry (q : Quad)
  /-- KEEP_EXIT: MCq leaves Keep and starts zero-filling unretained banks (R214). -/
  | keepExit (q : Quad)
  /-- KEEP_FILL_DONE: the zero fill completes and KEEP_FILL clears (R214). -/
  | keepFillDone (fill : KeepFill)
  /-- LASER_SAMPLE: the hub samples line powers and flags WEAK or FAIL, switching on FAIL (R261). -/
  | laserSample (t : Word) (laser : Fin 2) (powers : List Nat)
  /-- SWITCH: LSR_CTL.SWITCH starts a cross-fade to the other laser (R263). -/
  | laserSwitchGo
  /-- XFADE_END: A cross-fade ends and the old laser is powered off (R263). -/
  | xfadeEnd
  /-- STANDBY_NOMINAL: A newly lit standby laser reaches nominal power and monitoring resumes (R262). -/
  | standbyNominal
  /-- FRAME_RECEIVE: A receiver checks an EDL frame's CRC, delivering units or entering retry-wait (R271). -/
  | frameReceive (port : PortId) (f : EdlFrame)
  /-- NAK_REPEAT: no good frame within 1 us of a NAK; the NAK is sent again (R271). -/
  | nakRepeat (port : PortId)
  /-- LINKCTL: A LINKCTL unit returns credits and acknowledges or NAKs frames (R269). -/
  | linkctl (port : PortId) (w : LinkCtl)
  /-- LSW_DUP_REQ: the transmitter starts driving a spare with a copy of a lane (R276). -/
  | lswDupReq (port : PortId) (w : LaneWord)
  /-- LSW_READY: the transmitter marks the switch of a lane (R276). -/
  | lswReady (port : PortId) (w : LaneWord)
  /-- LSW_SWITCH: the receiver reads the lane from the spare from the next frame (R276). -/
  | lswSwitch (port : PortId) (w : LaneWord)
  /-- LSW_NARROW: the die transmitter switches its direction to narrow (R279). -/
  | lswNarrow (port : PortId) (w : LaneWord)
  /-- LSW_WIDE: the link direction returns to wide operation (R279). -/
  | lswWide (port : PortId) (w : LaneWord)
  /-- LANE_LOCK: the receiver locks on the spare wavelength and sends READY (R276). -/
  | laneLock (port : PortId) (wl : Fin 36)
  /-- LANE_DOWN: A receiver declares a lane down and starts a swap (R274). -/
  | laneDown (port : PortId) (lane : Fin 32) (cause : BitVec 3)
  /-- LINK_LOST: A direction is lost beyond its spares; port enters LOST and CDS follows (R278). -/
  | linkLost (port : PortId)
  /-- NARROW: A write of PRISM_CTL.NARROW takes a link narrow or wide (R279). -/
  | narrow (die : Die) (on : Bool)
  /-- SITE_BRING_UP: the hub brings up a site over the sideband and trains the link (R284). -/
  | siteBringUp (die : Die)
  /-- HELLO: the hub receives the die's HELLO and exchanges capabilities (R282). -/
  | hello (die : Die) (w : SbBits)
  /-- HELLO_TIMEOUT: no HELLO within 10 us; the site is fenced (R283). -/
  | helloTimeout (die : Die)
  /-- CAP0: capability word 0 received (R282). -/
  | cap0 (die : Die) (toHub : Bool) (w : SbBits)
  /-- CAP1: capability word 1 received (R282). -/
  | cap1 (die : Die) (toHub : Bool) (w : SbBits)
  /-- CAP2: capability word 2 received (R282). -/
  | cap2 (die : Die) (toHub : Bool) (w : SbBits)
  /-- CAP3: capability word 3 received (R282). -/
  | cap3 (die : Die) (toHub : Bool) (w : SbBits)
  /-- RESULT: negotiated RESULT received and echoed, or compared (R283). -/
  | result (die : Die) (toHub : Bool) (w : SbBits)
  /-- REFUSE: the die receives REFUSE naming the failed rule (R283). -/
  | refuse (die : Die) (w : SbBits)
  /-- TRAINING_END: the 1 ms PRBS count ends and training words are sent (R284). -/
  | trainingEnd (die : Die) (toHub : Bool) (counts : List Nat)
  /-- TRAIN_LO: training result for wavelengths 0-31 received (R284). -/
  | trainLo (die : Die) (toHub : Bool) (w : SbBits)
  /-- TRAIN_HI: training result for wavelengths 32-35 received; lanes mapped (R284). -/
  | trainHi (die : Die) (toHub : Bool) (w : SbBits)
  /-- LINK_READY: LINK_READY received; the port reads UP or NARROW (R284). -/
  | linkReady (die : Die) (w : SbBare)
  /-- SIDEBAND_RESEND: A sideband word without reply is resent after 10 us (R281). -/
  | sidebandResend (die : Die)
  /-- READ: A station acts on a control-plane READ frame in SEQ order (R252). -/
  | ringRead (f : Frame)
  /-- WRITE: A station acts on a control-plane WRITE, loading a shadow if armed (R408). -/
  | ringWrite (f : Frame)
  /-- READ_REPLY: the Shepherd receives a read reply (R252). -/
  | readReply (f : Frame)
  /-- WRITE_REPLY: the Shepherd receives a write reply (R252). -/
  | writeReply (f : Frame)
  /-- COMMIT_ARM: A station is armed for a commit number (R408). -/
  | commitArm (f : Frame)
  /-- COMMIT_FIRE: injection points hold and armed stations prepare to switch (R407). -/
  | commitFire (f : Frame)
  /-- COMMIT_RESUME: injection points end the commit hold (R407). -/
  | commitResume (f : Frame)
  /-- COMMIT_DISARM: armed stations discard their shadows (R408). -/
  | commitDisarm (f : Frame)
  /-- QUIESCENT_SWITCH: an armed station reaches its quiescent boundary, makes shadows live and acknowledges (R407). -/
  | quiescentSwitch (st : Station)
  /-- COMMIT_DRAIN_END: drain phases end and the commit sequence proceeds to ARM (R407). -/
  | commitDrainEnd
  /-- COMMIT_ACK_TIMEOUT: an acknowledgement is missing 20 us after FIRE; CDS is ordered (R410). -/
  | commitAckTimeout
  /-- SNAPSHOT: A SNAPSHOT frame announces the next snapshot instant (R496). -/
  | snapshot (f : Frame)
  /-- SNAPSHOT_INSTANT: stations latch their counter groups at the snapshot instant (R496). -/
  | snapshotInstant (t : Word)
  /-- SNAPSHOT_GATHER: the Shepherd gathers one latched group (R497). -/
  | snapshotGather (group : BitVec 8) (st : Station)
  /-- REPORT_SLOT: A station replaces an empty slot with a REPORT (R254). -/
  | reportSlot (f : Frame)
  /-- REPORT: the collector takes a fault report, reads the slot and updates the log (R420). -/
  | report (f : Frame)
  /-- CP_FRAME_TIMEOUT: A frame copy fails to return in 4 us; ring marked broken or frame resent (R253). -/
  | cpFrameTimeout (f : LateFrame) (backA backB : Bool)
  /-- AUDIT_LATCH: every station latches audit counters and the Shepherd checks invariants (R437). -/
  | auditLatch (a : AuditRound)
  /-- REFL_SLOT: A reflection slot starts: windows open and replays begin (R430). -/
  | reflSlot (t : Word)
  /-- WINDOW_END: A reflection window ends at its beat, log or sector limit (R427). -/
  | windowEnd (lc : LC) (why : BitVec 2)
  /-- REPLAY_CLOSE: A replay closes and signatures are compared; verdict on confirmation (R431). -/
  | replayClose (die : Die) (slot : Slot) (sig : Word) (icount : Word32)
  /-- SAFE_N: SAFE_N held low for 1 us starts CDS (R441). -/
  | safeN (level : Bool)
  /-- HEARTBEAT_TOGGLE: HEARTBEAT toggles at each 100 us if health conditions hold (R442). -/
  | heartbeatToggle (t : Word)
  /-- LOCKSTEP_MISMATCH: the Shepherd pair disagrees; hardware stops the domain and reboots the pair (R443). -/
  | lockstepMismatch
  /-- DOMAIN_RESTART: after CDS and SAFE_N high, the coherent domain restarts under the store (R484). -/
  | domainRestart
  /-- HB: A mirror heartbeat unit is received and pairing judged (R447). -/
  | hb (u : MirUnit)
  /-- HB_SEND: each device sends HB at each 50 us (R457). -/
  | hbSend (t : Word)
  /-- HB_MISS: A 50 us period passes without HB; at 20 the partner is lost (R459). -/
  | hbMiss (t : Word)
  /-- PARTNER_FAILURE: MIRROR_FAULT_N low for 1 us announces the partner's failure (R458). -/
  | partnerFailure
  /-- MIRROR_LINK_DOWN: the Mirror link makes no progress for 10 us (R448). -/
  | mirrorLinkDown
  /-- CUT: the primary cuts an epoch: halts, snoops E lines, switches and checkpoints (R450). -/
  | cut (t : Word)
  /-- EPOCH_SHIP: the Mirror port ships an epoch's checkpoints and pages, then END (R453). -/
  | epochShip
  /-- LINE: the secondary stages a mirrored line (R454). -/
  | mirLine (u : MirUnit)
  /-- CKPT: the secondary stages a core checkpoint (R454). -/
  | ckpt (u : MirUnit)
  /-- END: the secondary applies a complete epoch and sends ACK (R454). -/
  | mirEnd (u : MirUnit)
  /-- BASE_END: the secondary closes a base copy (R460). -/
  | baseEnd (u : MirUnit)
  /-- ACK: the primary records the acknowledged epoch and releases held completions (R456). -/
  | mirAck (u : MirUnit)
  /-- SHED_ENGAGE: A rail crossing engages a shed stage and all lower ones (R466). -/
  | shedEngage (stage : Fin 6) (rail : Fin 8) (mv : Nat) (t : Word)
  /-- SHED5_DELAY: shed-4 held for 1 ms engages Shed-5 (R466). -/
  | shed5Delay (t : Word)
  /-- SHED_LIFT: A stage lifts after its rails hold for 2 ms, undoing its actions (R467). -/
  | shedLift (stage : Fin 6) (t : Word)
  /-- SUPPLY_RESET: A rail below its Reset threshold causes a cold reset (R469). -/
  | supplyReset (rail : Fin 8) (mv : Nat)
  /-- VAUX_LOSS: VAUX loss resets the always-on island and all else (R485). -/
  | vauxLoss
  /-- POR_N: POR_N release starts the cold boot sequence (R483). -/
  | porN (b : BootInput)
  /-- WAKE: A wake event exits P2 or P3 (R476). -/
  | wake (ev : BitVec 4)
  /-- THERMTRIP: A sensor at 120 C drives THERMTRIP_N low (R524). -/
  | thermtrip (temp : BitVec 8)
  /-- PMBUS_POLL: the Shepherd reads each regulator every 1 ms (R465). -/
  | pmbusPoll (readings : List Nat)
  /-- PMB_ALERT: PMB_ALERT_N low makes the Shepherd read STATUS_WORD and log records (R521). -/
  | pmbAlert (status : List (BitVec 16))
  /-- STORE_WRITE: the committed-configuration store is written to boot flash (R482). -/
  | storeWrite
  /-- PARTITION_RESET: halts and resets a partition's cores and sources (R478). -/
  | partitionReset (pid : BitVec 8)
  /-- SCNT_ALARM: secure time reaches ST_ALARM and the alarm source is raised (R334). -/
  | scntAlarm
  /-- CERT_EXPIRY: secure time passes a certificate's expiry and its session closes (R336). -/
  | certExpiry (world : Bool)
  /-- CONFIG_REQUEST: port A serves an inbound configuration request (R343). -/
  | configRequest (t : Tlp)
  /-- MEMORY_READ: port A disposes of an inbound memory read (R343). -/
  | memoryRead (t : Tlp)
  /-- MEMORY_WRITE: port A disposes of an inbound posted memory write (R348). -/
  | memoryWrite (t : Tlp)
  /-- MESSAGE_TLP: port A handles an inbound Message TLP (R343). -/
  | messageTlp (t : Tlp)
  /-- COMPLETION: port A receives a host completion for an outbound read (R346). -/
  | completion (t : Tlp)
  /-- COMPLETION_TIMEOUT: an outbound read receives no completion within CTO_MS (R346). -/
  | completionTimeout (tag : BitVec 10)
  /-- DL_DOWN: DL_Active is lost and port A freezes (R351). -/
  | dlDown
  /-- HOT_RESET: hot Reset resets the link and configuration space, keeping the freeze (R354). -/
  | hotReset
  /-- PERST_N: PERST_N resets port A and the Fold's host-facing state (R354). -/
  | perstN (level : Bool)
  /-- FLR: initiate Function Level Reset resets a function's queue group (R376). -/
  | flr (fn : Func)
  /-- RELEASE: A RELEASE write ends the freeze if conditions hold (R352). -/
  | release
  /-- SQ_TAIL_DOORBELL: host rings an SQ tail doorbell (R367). -/
  | sqTailDoorbell (fn : Func) (k : BitVec 14) (v : Word32)
  /-- CQ_HEAD_DOORBELL: host rings a CQ head doorbell (R367). -/
  | cqHeadDoorbell (fn : Func) (k : BitVec 14) (v : Word32)
  /-- AQ_CFG_WRITE: AQ_CFG write; ENABLE falling resets the admin queue (R380). -/
  | aqCfgWrite (w : Word32)
  /-- WORK_HEAD: FOLD_DEVBELL WORK_HEAD updates WR_HEAD after checks (R369). -/
  | workHead (w : Word) (who : Accessor)
  /-- DCR_TAIL: FOLD_DEVBELL DCR_TAIL updates DCR_TAIL after checks (R369). -/
  | dcrTail (w : Word) (who : Accessor)
  /-- SQ_FETCH: the Fold fetches an SQ slot of a queue with work (R370). -/
  | sqFetch (qid : Qid)
  /-- DCR_READ: the Fold reads a DCR slot and checks its GEN (R370). -/
  | dcrRead (qid : Qid)
  /-- CQ_WRITE: the Fold writes a completion to the host CQ (R370). -/
  | cqWrite (qid : Qid)
  /-- FOLD_CTXP_READ: context port READ operation (R388). -/
  | foldCtxpRead (w : Word32)
  /-- FOLD_CTXP_CONFIG: context port CONFIG operation (R388). -/
  | foldCtxpConfig (w : Word32)
  /-- FOLD_CTXP_CREATE: context port CREATE operation (R388). -/
  | foldCtxpCreate (w : Word32)
  /-- FOLD_CTXP_DELETE: context port DELETE operation (R388). -/
  | foldCtxpDelete (w : Word32)
  /-- FOLD_CTXP_RESET: context port RESET operation (R388). -/
  | foldCtxpReset (w : Word32)
  /-- FOLD_CTXP_ENABLE: context port ENABLE operation (R388). -/
  | foldCtxpEnable (w : Word32)
  /-- FOLD_CTXP_RESTORE: context port RESTORE operation (R388). -/
  | foldCtxpRestore (w : Word32)
  /-- LOG_SWAP: FOLD_LOG_CTL.SWAP makes the other dirty-log buffer active (R383). -/
  | logSwap (fn : Func)
  /-- LOG_SWAP_DONE: old buffer written back; SWAP_BUSY clears and LOG_CNT resets (R383). -/
  | logSwapDone (fn : Func)
  /-- MB_CLAIM_REQ: claims a mailbox channel (R391). -/
  | mbClaimReq (mb : MbId) (ch : Fin 2) (who : Accessor)
  /-- MB_CLAIM_REL: releases a mailbox channel (R391). -/
  | mbClaimRel (mb : MbId) (ch : Fin 2) (who : Accessor)
  /-- MB_GO: submits the packet in MB_CMD to the Shepherd (R392). -/
  | mbGo (mb : MbId) (ch : Fin 2) (irq : Bool) (who : Accessor)
  /-- ADMIN_SQ_DOORBELL: host rings the admin SQ tail doorbell (R380). -/
  | adminSqDoorbell (v : Word32)
  /-- ADMIN_CQ_DOORBELL: host rings the admin CQ head doorbell (R380). -/
  | adminCqDoorbell (v : Word32)
  /-- INFO_VERSION: returns firmware, boot and die generation information (R399). -/
  | infoVersion (r : ShepReq)
  /-- INFO_SLOTS: returns every die's slot inventory from one instant (R399). -/
  | infoSlots (r : ShepReq)
  /-- INFO_CORE_MAP: returns the logical-to-physical core map (R399). -/
  | infoCoreMap (r : ShepReq)
  /-- INFO_DISTANCE: returns the distance table (R34). -/
  | infoDistance (r : ShepReq)
  /-- EVENT_READ: removes and returns records from the issuer's world event queue (R400). -/
  | eventRead (r : ShepReq)
  /-- INFO_PARTS: returns the state of every partition ID (R399). -/
  | infoParts (r : ShepReq)
  /-- STAGE_OPEN: opens a stage for the issuer's world (R402). -/
  | stageOpen (r : ShepReq)
  /-- STAGE_SET: adds entries to the open stage (R403). -/
  | stageSet (r : ShepReq)
  /-- STAGE_CHECK: tests the stage against the committed configuration (R405). -/
  | stageCheck (r : ShepReq)
  /-- STAGE_COMMIT: runs the commit sequence for the open stage (R407). -/
  | stageCommit (r : ShepReq)
  /-- STAGE_ABORT: discards the open stage (R413). -/
  | stageAbort (r : ShepReq)
  /-- STAGE_IDLE_ABORT: A stage untouched for 10 s is aborted (R413). -/
  | stageIdleAbort (world : Bool) (t : Word)
  /-- STAGE_STATUS: reports the state of a world's stage (R399). -/
  | stageStatus (r : ShepReq)
  /-- PART_CREATE: creates a partition in a world (R312). -/
  | partCreate (r : ShepReq)
  /-- PART_DELETE: deletes a partition not named by a valid Pasture (R312). -/
  | partDelete (r : ShepReq)
  /-- PART_IMAGE_LOAD: verifies and copies a partition image to its target (R415). -/
  | partImageLoad (r : ShepReq)
  /-- PART_START: starts a partition on a logical core (R399). -/
  | partStart (r : ShepReq)
  /-- PART_STOP: stops a partition (R399). -/
  | partStop (r : ShepReq)
  /-- PART_RESET: resets a partition and leaves it stopped (R478). -/
  | partReset (r : ShepReq)
  /-- UNIT_RELEASE: commits the release of an assignable unit, resetting it and incrementing its epoch (R324). -/
  | unitRelease (r : ShepReq)
  /-- UNIT_ASSIGN: commits the assignment of a released unit (R324). -/
  | unitAssign (r : ShepReq)
  /-- QUEUE_CREATE: creates a queue context (R364). -/
  | queueCreate (r : ShepReq)
  /-- QUEUE_CONFIG: reconfigures a disabled queue (R364). -/
  | queueConfig (r : ShepReq)
  /-- QUEUE_DELETE: deletes a queue, keeping GEN (R364). -/
  | queueDelete (r : ShepReq)
  /-- QUEUE_RESET: resets a queue and increments its GEN (R375). -/
  | queueReset (r : ShepReq)
  /-- QUEUE_ENABLE: enables host-side service of a queue (R364). -/
  | queueEnable (r : ShepReq)
  /-- QUEUE_SAVE: returns a quiesced queue's context and GGEN (R385). -/
  | queueSave (r : ShepReq)
  /-- QUEUE_RESTORE: writes a saved context into a target queue (R386). -/
  | queueRestore (r : ShepReq)
  /-- GROUP_PAUSE: stops fetches for a queue group (R385). -/
  | groupPause (r : ShepReq)
  /-- GROUP_RESUME: resumes fetches for a queue group (R399). -/
  | groupResume (r : ShepReq)
  /-- DIRTY_LOG_START: zeroes the buffers and commits dirty logging for a VF (R384). -/
  | dirtyLogStart (r : ShepReq)
  /-- DIRTY_LOG_SWAP: swaps dirty-log buffers and returns the old count (R384). -/
  | dirtyLogSwap (r : ShepReq)
  /-- DIRTY_LOG_STOP: commits the end of dirty logging for a VF (R384). -/
  | dirtyLogStop (r : ShepReq)
  /-- POWER_DOMAIN: powers a domain on or off, or stops or starts its clock (R471). -/
  | powerDomain (r : ShepReq)
  /-- POWER_STATE: moves the device to P1, P2 or P3 (R473). -/
  | powerState (r : ShepReq)
  /-- POWER_STATUS: returns every domain's power state (R472). -/
  | powerStatus (r : ShepReq)
  /-- FAULT_READ: returns fault records by index (R421). -/
  | faultRead (r : ShepReq)
  /-- FAULT_ACK: acknowledges a fault record (R421). -/
  | faultAck (r : ShepReq)
  /-- DOMAIN_STOP: M orders coherent domain stop with cause 5 (R438). -/
  | domainStop (r : ShepReq)
  /-- COVERAGE_READ: returns reflection coverage per die (R432). -/
  | coverageRead (r : ShepReq)
  /-- MIRROR_STATUS: returns the mirror role, state and epochs (R446). -/
  | mirrorStatus (r : ShepReq)
  /-- MIRROR_ROLE: sets the mirror role, moving ALONE to SOLE (R447). -/
  | mirrorRole (r : ShepReq)
  /-- MIRROR_RESYNC: starts a base copy to the partner (R460). -/
  | mirrorResync (r : ShepReq)
  /-- CORE_SWAP: swaps a logical core live to a reserve slot (R434). -/
  | coreSwap (r : ShepReq)
  /-- WL_SWAP: commits a wavelength swap on a Prism lane (R275). -/
  | wlSwap (r : ShepReq)
  /-- LASER_SWITCH: commands a switch to the other laser (R263). -/
  | laserSwitch (r : ShepReq)
  /-- CERT_LOAD: verifies a debug certificate and opens a session (R510). -/
  | certLoad (r : ShepReq)
  /-- CERT_CLOSE: closes the world's debug session (R510). -/
  | certClose (r : ShepReq)
  /-- CERT_STATUS: returns the world's session and scope (R510). -/
  | certStatus (r : ShepReq)
  /-- SET_SECURE_TIME: M sets ST_OFFSET, never backwards (R333). -/
  | setSecureTime (r : ShepReq)
  /-- IMAGE_WRITE: writes image bytes into a flash slot (R399). -/
  | imageWrite (r : ShepReq)
  /-- IMAGE_VERIFY: verifies the image in a slot (R330). -/
  | imageVerify (r : ShepReq)
  /-- IMAGE_ACTIVATE: marks a slot active in the boot flash (R417). -/
  | imageActivate (r : ShepReq)
  /-- IMAGE_CONFIRM: raises a rollback counter to an SVN (R416). -/
  | imageConfirm (r : ShepReq)
  /-- FW_SWITCH: loads Shepherd firmware into the standby bank for a switch (R417). -/
  | fwSwitch (r : ShepReq)
  /-- SWITCH_GAP: after an audit, the firmware switch gap opens and the new firmware takes over (R417). -/
  | switchGap
  /-- SNAP_CONFIG: sets the world's requested snapshot period (R496). -/
  | snapConfig (r : ShepReq)
  /-- SNAP_READ: returns held dump records of a counter group (R499). -/
  | snapRead (r : ShepReq)
  /-- CP_READ: reads control-plane words for the issuer (R399). -/
  | cpRead (r : ShepReq)
  /-- CP_WRITE: writes a control-plane word, leaving RWL fields unchanged (R399). -/
  | cpWrite (r : ShepReq)
  /-- BAD_OPCODE: A command with an unknown opcode is refused (R399). -/
  | badOpcode (r : ShepReq)
  /-- PMU_CLEAR: PMU_CTL.CLEAR zeroes the counters and PMU_OVF (R493). -/
  | pmuClear (lc : LC)
  /-- COUNTER_LO_READ: A read of a counter's LO word latches its HI word (R494). -/
  | counterLoRead (a : Word32)
  /-- PEAK_CLEAR: A CLR write sets a PEAK field to the current use (R197). -/
  | peakClear (a : Word32)
  /-- RAIL_MIN_CLEAR: PWR_RAIL CLR resets MIN_MV (R487). -/
  | railMinClear (rail : Fin 8)
  /-- LP_CLEAR: clears a Loupe's counters and trace and releases its slices (R505). -/
  | lpClear (k : Fin 44)
  /-- TRACE_EN: arms a Loupe trace, taking free slices or setting NOSPACE (R503). -/
  | traceEn (k : Fin 44) (on : Bool)
  /-- TRACE_DATA_READ: reading a trace word advances RPTR (R505). -/
  | traceDataRead (k : Fin 44)
  /-- EXTEST: selects EXTEST; boundary cells drive every signal ball (R507). -/
  | extest (cells : List Bool)
  /-- SAMPLE_PRELOAD: selects SAMPLE/PRELOAD (R506). -/
  | samplePreload (cells : List Bool)
  /-- IDCODE: selects IDCODE (R506). -/
  | idcode
  /-- IJTAG_ACCESS: selects the IEEE 1687 network under a session (R508). -/
  | ijtagAccess (world : Bool)
  /-- BYPASS: selects BYPASS (R506). -/
  | bypass
  /-- STATUS: core debug STATUS of a logical core (R511). -/
  | dbgStatus (world : Bool) (lc : LC)
  /-- HALT: core debug HALT at the next boundary (R512). -/
  | dbgHalt (world : Bool) (lc : LC)
  /-- RESUME: core debug RESUME (R512). -/
  | dbgResume (world : Bool) (lc : LC)
  /-- STEP: lets one instruction leave W or one entry happen (R512). -/
  | dbgStep (world : Bool) (lc : LC)
  /-- RDREG: reads a register of a halted core (R512). -/
  | dbgRdreg (world : Bool) (lc : LC) (reg : BitVec 16)
  /-- WRREG: writes a register of a halted core (R512). -/
  | dbgWrreg (world : Bool) (lc : LC) (reg : BitVec 16) (data : Word)
  /-- SETADDR: sets the debug memory address (R512). -/
  | dbgSetaddr (world : Bool) (lc : LC) (a : Word)
  /-- RDMEM: performs an 8 B load as the halted core would (R512). -/
  | dbgRdmem (world : Bool) (lc : LC)
  /-- WRMEM: performs an 8 B store as the halted core would (R512). -/
  | dbgWrmem (world : Bool) (lc : LC) (data : Word)
  /-- REGISTER_WRITE: A write to a register without a row of its own acts per field type (R8). -/
  | registerWrite (a : Word32) (v : Word32)
  /-- DL_UP: the PCIe link trains and DL_Active becomes 1, which a freeze release then requires (R352). -/
  | dlUp
  /-- MIRROR_LINK_UP: the Mirror link comes up and heartbeats start, so pairing can form (R447). -/
  | mirrorLinkUp
  /-- VAUX_POWER_UP: VAUX rises: the always-on island restarts, SCNT counts from 0 and boot may begin (R483). -/
  | vauxPowerUp
  /-- SUPPLY_RESET_RELEASE: after a supply reset, every rail is again above its Shed-1 threshold and cold boot starts (R483). -/
  | supplyResetRelease (b : BootInput)
  /-- RTR_BW_WINDOW_END: at each RTR_BWCFG window boundary a router stores the flits of the completed window in RTR_BW (R494). -/
  | rtrBwWindowEnd (st : Station) (t : Word)
  /-- CORE_BIST_DONE: the 2 ms core BIST of a slot ends, and on failure the logical core is swapped to a reserve (R433). -/
  | coreBistDone (die : Die) (slot : Slot) (pass : Bool)
  /-- CORE_DEBUG: the TAP instruction CORE_DEBUG is selected, opening the core debug register under a session (R506). -/
  | coreDebug (world : Bool)
  /-- UART_TX_DONE: A UART finishes shifting out a byte, TXFREE advances and TXIE may assert the source (R522). -/
  | uartTxDone (u : Fin 2)
  /-- UNIT_RELEASE_DELAY: A UNIT_RELEASE held for the 100 us since the unit's last epoch increment may now commit (R325). -/
  | unitReleaseDelay (unit : BitVec 32) (t : Word)
  deriving DecidableEq, Repr

end Sys2Proof
end

