-- ==== Sys2Proof/Decode.lean ====
section
/-!
DEFINITION. Commands from table words. No row of the opcode table gives its command any bits, so no
word spells a command.
-/

namespace Sys2Proof

/-- The command that a word of the opcode table spells: none, since no row has bits. -/
def decodeTableWord (_nbits _w : Nat) : Option Instr := none

end Sys2Proof
end

