-- ==== Sys2Proof/Machine/Bits.lean ====
section
/-!
DEFINITION. Bit fields, byte order and saturating counts. Little-endian byte order (R89), bit
ranges written [hi:lo] as the register tables write them.
-/

namespace Sys2Proof.Machine

/-- Field of `w` bits at bit `lo`, as a number. -/
def field {n : Nat} (v : BitVec n) (lo w : Nat) : Nat := (v.extractLsb' lo w).toNat

/-- Bit `i` of a register. -/
def bit {n : Nat} (v : BitVec n) (i : Nat) : Bool := v.getLsbD i

/-- `v` with the field of `w` bits at `lo` replaced by the low `w` bits of `x`. -/
def setField {n : Nat} (v : BitVec n) (lo w x : Nat) : BitVec n :=
  let m := BitVec.ofNat n ((2 ^ w - 1) <<< lo)
  (v &&& ~~~m) ||| (BitVec.ofNat n ((x % 2 ^ w) <<< lo))

/-- `v` with bit `i` set to `b`. -/
def setBit {n : Nat} (v : BitVec n) (i : Nat) (b : Bool) : BitVec n := setField v i 1 b.toNat

/-- A Boolean as a register field. -/
def b2n (b : Bool) : Nat := if b then 1 else 0

/-- A count that stops at its largest value. -/
def satAdd (top x n : Nat) : Nat := if x + n ≤ top then x + n else top

/-- Little-endian bytes as a number (R89). -/
def bytesToNat : List Byte → Nat
  | [] => 0
  | b :: t => b.toNat + 256 * bytesToNat t

/-- The `n` little-endian bytes of a number. -/
def natToBytes : Nat → Nat → List Byte
  | 0, _ => []
  | n + 1, x => BitVec.ofNat 8 x :: natToBytes n (x / 256)

/-- Byte `i` of a line. -/
def Line.byte (l : Line) (i : Nat) : Byte := l.extractLsb' (8 * i) 8

/-- The `n` bytes of a line from offset `o`, as a number. -/
def Line.bytes (l : Line) (o n : Nat) : Nat := (l.toNat >>> (8 * o)) % 2 ^ (8 * n)

/-- The bit mask of a byte mask: bit `i` of `m` governs byte `i` of a line (R181). -/
def maskOf : Nat → Nat → Nat
  | 0, _ => 0
  | n + 1, m => (if m % 2 = 1 then 255 else 0) + 256 * maskOf n (m / 2)

/-- The bytes of `new` that the byte mask selects, the others from `old` (R181). -/
def Line.merge (old new : Line) (m : BitVec 64) : Line :=
  let k := BitVec.ofNat 512 (maskOf 64 m.toNat)
  (old &&& ~~~k) ||| (new &&& k)

/-- The byte mask of `n` bytes from offset `o` of a line. -/
def byteMask (o n : Nat) : BitVec 64 := BitVec.ofNat 64 ((2 ^ n - 1) <<< o)

/-- A line holding `v` at byte offset `o`. -/
def Line.place (o : Nat) (v : Nat) : Line := BitVec.ofNat 512 (v <<< (8 * o))

/-- The line number of an address: address bits [47:6]. -/
def lineOf (a : Nat) : Nat := a / 64

/-- Signed value of a number taken as `w` bits. -/
def signed (w x : Nat) : Int := (BitVec.ofNat w x).toInt

/-- Bits of `m` that are set, counted over `n` bits. -/
def popcount : Nat → Nat → Nat
  | 0, _ => 0
  | n + 1, x => x % 2 + popcount n (x / 2)

/-- Zeros from bit 0 upward before the first set bit, at most `n`. -/
def trailingZeros : Nat → Nat → Nat
  | 0, _ => 0
  | n + 1, x => if x % 2 = 1 then 0 else 1 + trailingZeros n (x / 2)

/-- The lowest index below `n` at which `p` holds. -/
def firstIdx (n : Nat) (p : Nat → Bool) : Option Nat := (List.range n).find? p

end Sys2Proof.Machine
end

