-- ==== Sys2Proof/Machine/Alu.lean ====
section
/-!
DEFINITION. What each integer instruction computes (Tables ISA-8 and ISA-9, R96, R97), the branch
conditions (Table ISA-10) and the far-atomic operations (Table ISA-16).
-/

namespace Sys2Proof.Machine

/-- The result of a 32-bit form: bits [31:0], sign-extended (R96). -/
def wform (x : BitVec 32) : Word := x.signExtend 64

/-- Bits [31:0] of an operand. -/
def lo32 (x : Word) : BitVec 32 := x.truncate 32

/-- Shift amount: bits [5:0] of the operand (R96). -/
def sh6 (x : Word) : Nat := x.toNat % 64

/-- Shift amount of a W form: bits [4:0] (R96). -/
def sh5 (x : Word) : Nat := x.toNat % 32

/-- A comparison result, 1 or 0 (R96). -/
def ofBool (b : Bool) : Word := if b then 1 else 0

/-- High 64 bits of the signed product. -/
def mulh (a b : Word) : Word := BitVec.ofInt 64 (a.toInt * b.toInt / 2 ^ 64)

/-- High 64 bits of the unsigned product. -/
def mulhu (a b : Word) : Word := BitVec.ofNat 64 (a.toNat * b.toNat / 2 ^ 64)

/-- Signed quotient; all ones for division by zero; the dividend for the most negative value
divided by -1 (R97). -/
def divS {n : Nat} (a b : BitVec n) : BitVec n :=
  if b = 0 then BitVec.allOnes n else BitVec.ofInt n (a.toInt.tdiv b.toInt)

/-- Signed remainder; the dividend for division by zero (R97). -/
def remS {n : Nat} (a b : BitVec n) : BitVec n :=
  if b = 0 then a else BitVec.ofInt n (a.toInt.tmod b.toInt)

/-- Unsigned quotient; all ones for division by zero (R97). -/
def divU {n : Nat} (a b : BitVec n) : BitVec n :=
  if b = 0 then BitVec.allOnes n else BitVec.ofNat n (a.toNat / b.toNat)

/-- Unsigned remainder; the dividend for division by zero (R97). -/
def remU {n : Nat} (a b : BitVec n) : BitVec n :=
  if b = 0 then a else BitVec.ofNat n (a.toNat % b.toNat)

/-- Leading zeros, 0 to 64. -/
def clz (a : Word) : Word :=
  BitVec.ofNat 64 (if a = 0 then 64 else 63 - Nat.log2 a.toNat)

/-- Trailing zeros, 0 to 64. -/
def ctz (a : Word) : Word := BitVec.ofNat 64 (trailingZeros 64 a.toNat)

/-- Set bits. -/
def popc (a : Word) : Word := BitVec.ofNat 64 (popcount 64 a.toNat)

/-- Signed or unsigned minimum and maximum. -/
def minS (a b : Word) : Word := if a.slt b then a else b
/-- Signed maximum. -/
def maxS (a b : Word) : Word := if a.slt b then b else a
/-- Unsigned minimum. -/
def minU (a b : Word) : Word := if a.ult b then a else b
/-- Unsigned maximum. -/
def maxU (a b : Word) : Word := if a.ult b then b else a

/-- The operation of a far atomic, coded as address bits [2:0] of AtomicAtHome (Table COH-2). -/
inductive AtomicOp where
  | add | swap | cas | min | max | minu | maxu
  deriving DecidableEq, Repr

/-- The code of Table COH-2. -/
def AtomicOp.code : AtomicOp → Nat
  | .add => 0 | .swap => 1 | .cas => 2 | .min => 3 | .max => 4 | .minu => 5 | .maxu => 6

/-- The operation a code names. -/
def AtomicOp.ofCode : Nat → Option AtomicOp
  | 0 => some .add | 1 => some .swap | 2 => some .cas | 3 => some .min | 4 => some .max
  | 5 => some .minu | 6 => some .maxu | _ => none

/-- The new value of Table ISA-16 from the old value, gb, and for ACAS the expected value. -/
def atomicNew (op : AtomicOp) (old b expect : Word) : Word :=
  match op with
  | .add => old + b
  | .swap => b
  | .cas => if old = expect then b else old
  | .min => minS old b
  | .max => maxS old b
  | .minu => minU old b
  | .maxu => maxU old b

end Sys2Proof.Machine
end

