-- ==== Sys2Proof/Config.lean ====
section
/-!
DEFINITION. What one part fixes and what the manual leaves open: free values, which nothing in Lean
can evaluate. Each is applied to a counter that the machine advances at every use, or to the
operands it depends on.
-/

namespace Sys2Proof.Config

/-- Beats that a wait measured in reference time takes (R115, R83): the n-th such wait. -/
opaque freeBeats : Nat → Nat

/-- A value of `w` bits that the manual leaves open: the n-th such value. -/
opaque freeBits : Nat → (w : Nat) → BitVec w

/-- How a report of a corrected beat lays out PC, bank, row, beat and bit in its detail words, DETAIL0 below
DETAIL1 (R217). -/
opaque correctedDetail (pc bank row beat bit : Nat) : BitVec 96

/-- SHA-384 of a byte string, as twelve big-endian words (R329, R330). -/
opaque sha384 : List Byte → List Word32

/-- Whether an ECDSA P-384 signature verifies: public key, signed bytes, signature (R330, R335). -/
opaque ecdsaVerify : List Byte → List Byte → List Byte → Bool

end Sys2Proof.Config
end

