-- ==== Sys2Proof/Machine/SMap.lean ====
section
/-!
DEFINITION. Sparse maps from Nat keys: the one form in which memory, register files and tables
are held. Keys rise strictly and no entry equals what an unlisted key reads as, so equal maps
are equal data.
-/

namespace Sys2Proof.Machine

/-- Key and value pairs; an unlisted key reads as the map's default. -/
abbrev SMap (α : Type) := List (Nat × α)

/-- What key `k` holds; `d` where it is not listed. -/
def SMap.get {α : Type} (d : α) : SMap α → Nat → α
  | [], _ => d
  | e :: t, k => if e.1 = k then e.2 else SMap.get d t k

/-- The map without key `k`. -/
def SMap.erase {α : Type} : SMap α → Nat → SMap α
  | [], _ => []
  | e :: t, k => if e.1 = k then SMap.erase t k else e :: SMap.erase t k

/-- Enters `v` at `k`, in its place among rising keys. -/
def SMap.insert {α : Type} : SMap α → Nat → α → SMap α
  | [], k, v => [(k, v)]
  | e :: t, k, v =>
    if e.1 < k then e :: SMap.insert t k v else (k, v) :: SMap.erase (e :: t) k

/-- Writes `v` at `k`; writing the default removes the entry. -/
def SMap.set {α : Type} [DecidableEq α] (d : α) (m : SMap α) (k : Nat) (v : α) : SMap α :=
  if v = d then SMap.erase m k else SMap.insert m k v

/-- The canonical form: keys rise strictly and no entry holds the default. -/
def SMap.wf {α : Type} [DecidableEq α] (d : α) : SMap α → Bool
  | [] => true
  | e :: t => e.2 ≠ d && t.all (fun f => e.1 < f.1) && SMap.wf d t

/-- The keys of the entries whose value passes a test. -/
def SMap.keysWhere {α : Type} (m : SMap α) (p : Nat → α → Bool) : List Nat :=
  (m.filter fun e => p e.1 e.2).map (·.1)

end Sys2Proof.Machine
end

