-- ==== Sys2Proof/Machine/HubTypes.lean ====
section
/-!
DEFINITION. The state of the hub's units: serial units and GPIO, Loupes and the trace SRAM, snapshots,
test access and debug sessions.
-/

namespace Sys2Proof.Machine

/-- A UART (Table PKG-10): the two FIFOs, the status flags and UART_CTL. -/
structure Uart where
  tx    : List Byte := []
  rx    : List Byte := []
  txovr : Bool := false
  rxovr : Bool := false
  frame : Bool := false
  ctl   : BitVec 19 := 0x21E
  deriving DecidableEq, Repr

/-- An I2C controller (Table PKG-10): I2C_CTL, the command in progress, status flags, I2C_BUF. -/
structure I2c where
  ctl    : BitVec 14 := 0x9C3
  cmd    : BitVec 13 := 0
  busy   : Bool := false
  done   : Bool := false
  nack   : Bool := false
  arb    : Bool := false
  badlen : Bool := false
  buf    : List Byte := List.replicate 16 0
  deriving DecidableEq, Repr

/-- A GPIO (Table PKG-10): the sampled pin level and OUT, OE, POL, PULL. -/
structure Gpio where
  pin  : Bool := false
  out  : Bool := false
  oe   : Bool := false
  pol  : Bool := false
  pull : BitVec 2 := 2
  deriving DecidableEq, Repr

/-- What a Loupe holds beside its registers (R503, R504): the slices of trace SRAM it holds, from
LP_TRACE_STATUS.FIRST on, matches since arming, and whether the next entry carries GAP. -/
structure Loupe where
  slices : Nat := 0
  num    : Nat := 0
  gap    : Bool := false
  deriving DecidableEq, Repr

/-- A counter group latched at a station (R496 to R500): group, station, snapshot number, instant,
commit number, the words, whether a secure-world partition ran, whether the station's domain was
off, and skips before it. -/
structure SnapRec where
  group  : Nat
  st     : BitVec 12
  num    : Nat
  time   : Word
  cnum   : Word32
  words  : List Word
  secure : Bool
  off    : Bool
  drops  : Nat
  deriving DecidableEq, Repr

/-- The snapshot engine (R496 to R499): requested periods by world, the announced instant in us, the
number of snapshots since the last domain restart, latches that wait, the group being gathered,
skips by group * 4096 + station, gathered records, and the last snapshot that each world has been
given of each group (by world * 256 + group). -/
structure Snap where
  period : SMap Nat := []
  next   : Option (BitVec 32) := none
  num    : Nat := 0
  latch  : List SnapRec := []
  cur    : Option (Nat × Nat) := none
  drops  : SMap Nat := []
  recs   : List SnapRec := []
  given  : SMap Nat := []
  deriving DecidableEq, Repr

/-- An open debug session (R510): number, scope, PID limit, expiry. -/
structure Session where
  num    : Word32
  scope  : BitVec 4
  pid    : Option (BitVec 8)
  expiry : Word
  deriving DecidableEq, Repr

/-- Test access (R506 to R512): the selected instruction and the world whose session opened it, boundary
cells, sessions by world, the last session number, cores halted by a session, memory addresses by core, a
debug store that drains (its core, and the failed drains before it), and the captured result. -/
structure Tap where
  instr    : BitVec 8 := 2
  world    : Bool := false
  cells    : List Bool := []
  sessions : SMap (Option Session) := []
  lastNum  : Word32 := 0
  halted   : List (Bool × LC) := []
  addr     : SMap Word := []
  store    : Option (LC × Nat) := none
  result   : BitVec 3 := 0
  data     : Word := 0
  deriving DecidableEq, Repr

end Sys2Proof.Machine
end

