-- ==== Sys2Proof/Machine/SoftFloat.lean ====
section
/-!
DEFINITION. Floating-point results of the vector pipe (R106): IEEE 754-2019 binary64, binary32 and
bf16, computed exactly on integers and rounded once, with the flags of Table ISA-4.
-/

namespace Sys2Proof.Machine

/-- A binary format: exponent bits and fraction bits. -/
structure Fmt where
  ebits : Nat
  mbits : Nat
  deriving DecidableEq, Repr

/-- binary64 (R106). -/
def f64 : Fmt := ⟨11, 52⟩
/-- binary32 (R106). -/
def f32 : Fmt := ⟨8, 23⟩
/-- bf16 (R106): 8 exponent bits, 7 fraction bits. -/
def bf16 : Fmt := ⟨8, 7⟩

/-- Width of the format in bits. -/
def Fmt.width (f : Fmt) : Nat := 1 + f.ebits + f.mbits
/-- The exponent bias. -/
def Fmt.bias (f : Fmt) : Nat := 2 ^ (f.ebits - 1) - 1
/-- The exponent field of infinities and NaNs. -/
def Fmt.emax (f : Fmt) : Nat := 2 ^ f.ebits - 1
/-- The exponent of the smallest normal magnitude. -/
def Fmt.emin (f : Fmt) : Int := 1 - (f.bias : Int)

/-- The flags an operation sets, bits [5:0] of cr.vflags (Table ISA-4). -/
abbrev VFlags := BitVec 6

/-- Invalid operation. -/
def flagNV : VFlags := 1
/-- Division of a finite non-zero value by zero. -/
def flagDZ : VFlags := 2
/-- Overflow. -/
def flagOF : VFlags := 4
/-- Tiny inexact result. -/
def flagUF : VFlags := 8
/-- Inexact result. -/
def flagNX : VFlags := 16
/-- Saturated conversion to integer. -/
def flagSAT : VFlags := 32

/-- The rounding and flush controls of cr.vctl (Table ISA-5). -/
structure VCtl where
  rm  : BitVec 2
  ftz : Bool
  deriving DecidableEq, Repr

/-- cr.vctl as the controls of Table ISA-5. -/
def VCtl.of (c : Word) : VCtl := ⟨c.extractLsb' 0 2, bit c 2⟩

/-- A value: NaN, infinity, or sign, integer significand and power of two. -/
inductive FVal where
  | nan (signalling : Bool)
  | inf (neg : Bool)
  | fin (neg : Bool) (m : Nat) (e : Int)
  deriving DecidableEq, Repr

/-- The value a bit pattern stands for; a subnormal input is flushed under FTZ (Table ISA-5). -/
def FVal.unpack (f : Fmt) (c : VCtl) (x : Nat) : FVal :=
  let m := x % 2 ^ f.mbits
  let e := (x / 2 ^ f.mbits) % 2 ^ f.ebits
  let s := (x / 2 ^ (f.ebits + f.mbits)) % 2 = 1
  if e = f.emax then
    if m = 0 then .inf s else .nan (m < 2 ^ (f.mbits - 1))
  else if e = 0 then
    if c.ftz then .fin s 0 0 else .fin s m (f.emin - (f.mbits : Int))
  else .fin s (m + 2 ^ f.mbits) ((e : Int) - f.bias - f.mbits)

/-- Sign bit in place. -/
def Fmt.sign (f : Fmt) (s : Bool) : Nat := b2n s * 2 ^ (f.ebits + f.mbits)
/-- The infinity of a sign. -/
def Fmt.infBits (f : Fmt) (s : Bool) : Nat := f.sign s + f.emax * 2 ^ f.mbits
/-- The largest finite magnitude of a sign. -/
def Fmt.maxBits (f : Fmt) (s : Bool) : Nat := f.sign s + f.emax * 2 ^ f.mbits - 1
/-- The canonical quiet NaN (R106). -/
def Fmt.nanBits (f : Fmt) : Nat := f.emax * 2 ^ f.mbits + 2 ^ (f.mbits - 1)

/-- Drops the low `k` bits of `m` under a rounding mode; also says whether they were not all 0. -/
def roundShift (rm : BitVec 2) (s : Bool) (m : Nat) (k : Int) : Nat × Bool :=
  if k ≤ 0 then (m <<< k.natAbs, false)
  else
    let n := k.natAbs
    let q := m >>> n
    let r := m % 2 ^ n
    let half := 2 ^ (n - 1)
    let up : Bool :=
      if rm = 0 then r > half || (r == half && q % 2 == 1)
      else if rm = 1 then false
      else if rm = 2 then s && r != 0
      else !s && r != 0
    (if up then q + 1 else q, r != 0)

/-- Rounds `(-1)^s * m * 2^e` to the format: tininess after rounding as if the exponent were
unbounded, tiny results flushed under FTZ, overflow by rounding mode (R106, Tables ISA-4, ISA-5). -/
def roundPack (f : Fmt) (c : VCtl) (s : Bool) (m : Nat) (e : Int) : Nat × VFlags :=
  if m = 0 then (f.sign s, 0)
  else
    let p := f.mbits + 1
    let k : Int := (Nat.log2 m : Int) + 1 - p
    let (q0, ix) := roundShift c.rm s m k
    let carry := q0 == 2 ^ p
    let q := if carry then 2 ^ (p - 1) else q0
    let ex : Int := e + k + (p - 1 : Nat) + (if carry then 1 else 0)
    if ex < f.emin then
      if c.ftz then (f.sign s, flagUF ||| flagNX)
      else
        let (t, ixt) := roundShift c.rm s m (f.emin - f.mbits - e)
        (f.sign s + t, if ixt then flagUF ||| flagNX else 0)
    else if ex > f.bias then
      let toInf : Bool := if c.rm = 0 then true else if c.rm = 1 then false
        else if c.rm = 2 then s else !s
      (if toInf then f.infBits s else f.maxBits s, flagOF ||| flagNX)
    else
      (f.sign s + (ex + f.bias).toNat * 2 ^ f.mbits + (q - 2 ^ f.mbits), if ix then flagNX else 0)

/-- The canonical NaN, with NV where an operand was signalling. -/
def Fmt.nanOf (f : Fmt) (sig : Bool) : Nat × VFlags := (f.nanBits, if sig then flagNV else 0)

/-- The canonical NaN of an invalid operation. -/
def Fmt.invalid (f : Fmt) : Nat × VFlags := (f.nanBits, flagNV)

/-- Whether a value is a NaN. -/
def FVal.isNan : FVal → Bool
  | .nan _ => true
  | _ => false

/-- Whether a value is a signalling NaN. -/
def FVal.isSig : FVal → Bool
  | .nan sg => sg
  | _ => false

/-- The value with its sign reversed. -/
def FVal.neg : FVal → FVal
  | .nan sg => .nan sg
  | .inf s => .inf (!s)
  | .fin s m e => .fin (!s) m e

/-- A finite addend as a signed integer at power `e0`. -/
def scaled (e0 : Int) (s : Bool) (m : Nat) (e : Int) : Int :=
  let v : Int := (m <<< (e - e0).toNat : Nat)
  if s then -v else v

/-- The least power of two among finite addends that are not zero. -/
def minExp : List FVal → Option Int
  | [] => none
  | .fin _ m e :: t =>
    if m = 0 then minExp t else
      match minExp t with
      | none => some e
      | some e' => some (min e e')
  | _ :: t => minExp t

/-- The exact sum of finite addends at power `e0`. -/
def sumAt (e0 : Int) : List FVal → Int
  | [] => 0
  | .fin s m e :: t => (if m = 0 then 0 else scaled e0 s m e) + sumAt e0 t
  | _ :: t => sumAt e0 t

/-- Whether every addend is a zero of sign `s`. -/
def allZero (s : Bool) (l : List FVal) : Bool :=
  l.all fun v => match v with
    | .fin s' m _ => m == 0 && s' == s
    | _ => false

/-- Whether some addend is the infinity of sign `s`. -/
def hasInf (s : Bool) (l : List FVal) : Bool := l.any fun v => v == .inf s

/-- The sum of addends, rounded once: NaN operands, opposite infinities, and the sign of an exact
zero as R106 gives them. -/
def fsum (f : Fmt) (c : VCtl) (l : List FVal) : Nat × VFlags :=
  if l.any FVal.isNan then f.nanOf (l.any FVal.isSig)
  else if hasInf false l && hasInf true l then f.invalid
  else if hasInf false l then (f.infBits false, 0)
  else if hasInf true l then (f.infBits true, 0)
  else
    let e0 := (minExp l).getD 0
    let t := sumAt e0 l
    if t = 0 then
      (f.sign (if allZero true l then true else if allZero false l then false else c.rm == 2), 0)
    else roundPack f c (t < 0) t.natAbs e0

/-- The exact product of two values; none for zero times infinity. -/
def fprod : FVal → FVal → Option FVal
  | .nan a, .nan b => some (.nan (a || b))
  | .nan a, _ => some (.nan a)
  | _, .nan b => some (.nan b)
  | .inf a, .inf b => some (.inf (xor a b))
  | .inf a, .fin b m _ => if m = 0 then none else some (.inf (xor a b))
  | .fin a m _, .inf b => if m = 0 then none else some (.inf (xor a b))
  | .fin a m e, .fin b n g => some (.fin (xor a b) (m * n) (e + g))

/-- VFADD (R104, R106). -/
def fadd (f : Fmt) (c : VCtl) (a b : Nat) : Nat × VFlags :=
  fsum f c [.unpack f c a, .unpack f c b]

/-- VFSUB. -/
def fsub (f : Fmt) (c : VCtl) (a b : Nat) : Nat × VFlags :=
  fsum f c [.unpack f c a, (FVal.unpack f c b).neg]

/-- VFMUL: the product rounded once. -/
def fmul (f : Fmt) (c : VCtl) (a b : Nat) : Nat × VFlags :=
  match fprod (.unpack f c a) (.unpack f c b) with
  | none => f.invalid
  | some (.nan sg) => f.nanOf sg
  | some (.inf s) => (f.infBits s, 0)
  | some (.fin s m e) => roundPack f c s m e

/-- A sum of products and one addend, rounded once; a product of zero and infinity is invalid
whatever the others hold (R106). -/
def fdot (f : Fmt) (c : VCtl) (acc : FVal) (ps : List (FVal × FVal)) : Nat × VFlags :=
  let prods := ps.map fun p => fprod p.1 p.2
  if prods.any Option.isNone then f.invalid
  else fsum f c (acc :: prods.filterMap id)

/-- VFMA: a times b plus d, one rounding. -/
def ffma (f : Fmt) (c : VCtl) (a b d : Nat) : Nat × VFlags :=
  fdot f c (.unpack f c d) [(.unpack f c a, .unpack f c b)]

/-- VFDIV. -/
def fdiv (f : Fmt) (c : VCtl) (a b : Nat) : Nat × VFlags :=
  match FVal.unpack f c a, FVal.unpack f c b with
  | .nan x, .nan y => f.nanOf (x || y)
  | .nan x, _ => f.nanOf x
  | _, .nan y => f.nanOf y
  | .inf _, .inf _ => f.invalid
  | .inf s, .fin t _ _ => (f.infBits (xor s t), 0)
  | .fin s _ _, .inf t => (f.sign (xor s t), 0)
  | .fin s m e, .fin t n g =>
    if n = 0 then
      if m = 0 then f.invalid else (f.infBits (xor s t), flagDZ)
    else if m = 0 then (f.sign (xor s t), 0)
    else
      let k := f.mbits + 4 + Nat.log2 n + 1
      let num := m <<< k
      let q := num / n
      let st := if num % n = 0 then 0 else 1
      roundPack f c (xor s t) (2 * q + st) (e - g - k - 1)

/-- Integer square root, one result bit per step from bit `i - 1` down. -/
def isqrtFrom (n : Nat) : Nat → Nat → Nat
  | 0, r => r
  | i + 1, r =>
    let r' := r + 2 ^ i
    if r' * r' ≤ n then isqrtFrom n i r' else isqrtFrom n i r

/-- VFSQRT. -/
def fsqrt (f : Fmt) (c : VCtl) (a : Nat) : Nat × VFlags :=
  match FVal.unpack f c a with
  | .nan sg => f.nanOf sg
  | .inf s => if s then f.invalid else (f.infBits false, 0)
  | .fin s m e =>
    if m = 0 then (f.sign s, 0)
    else if s then f.invalid
    else
      let k0 := 2 * (f.mbits + 4)
      let k := if (e - k0) % 2 = 0 then k0 else k0 + 1
      let n := m <<< k
      let r := isqrtFrom n (Nat.log2 n / 2 + 1) 0
      let st := if r * r = n then 0 else 1
      roundPack f c false (2 * r + st) ((e - k) / 2 - 1)

/-- Whether finite or infinite `a` lies below `b`, zeros of either sign equal. -/
def FVal.lt : FVal → FVal → Bool
  | .nan _, _ => false
  | _, .nan _ => false
  | .inf a, .inf b => a && !b
  | .inf a, .fin _ _ _ => a
  | .fin _ _ _, .inf b => !b
  | .fin a m e, .fin b n g =>
    let e0 := min e g
    (if m = 0 then 0 else scaled e0 a m e) < (if n = 0 then 0 else scaled e0 b n g)

/-- Sign of a value that is not a NaN. -/
def FVal.negative : FVal → Bool
  | .nan _ => false
  | .inf s => s
  | .fin s _ _ => s

/-- The bits of an operand as the operation reads it: a subnormal is a zero under FTZ. -/
def flushBits (f : Fmt) (c : VCtl) (x : Nat) : Nat :=
  match FVal.unpack f c x with
  | .fin s 0 _ => f.sign s
  | _ => x

/-- VFMIN and VFMAX: IEEE 754 minimum and maximum, in which -0 lies below +0 and a NaN operand
gives the canonical NaN. -/
def fminmax (f : Fmt) (c : VCtl) (isMax : Bool) (a b : Nat) : Nat × VFlags :=
  let x := FVal.unpack f c a
  let y := FVal.unpack f c b
  if x.isNan || y.isNan then f.nanOf (x.isSig || y.isSig)
  else
    let less := x.lt y || (!y.lt x && x.negative && !y.negative)
    (flushBits f c (if less != isMax then a else b), 0)

/-- VFCMPLT, a signalling comparison (Table ISA-12). -/
def fcmplt (f : Fmt) (c : VCtl) (a b : Nat) : Bool × VFlags :=
  let x := FVal.unpack f c a
  let y := FVal.unpack f c b
  (x.lt y, if x.isNan || y.isNan then flagNV else 0)

/-- VFCMPEQ, a quiet comparison (Table ISA-12). -/
def fcmpeq (f : Fmt) (c : VCtl) (a b : Nat) : Bool × VFlags :=
  let x := FVal.unpack f c a
  let y := FVal.unpack f c b
  (!x.isNan && !y.isNan && !x.lt y && !y.lt x, if x.isSig || y.isSig then flagNV else 0)

/-- A conversion between formats under the rounding mode (Table ISA-13). -/
def fconv (f g : Fmt) (c : VCtl) (a : Nat) : Nat × VFlags :=
  match FVal.unpack f c a with
  | .nan sg => g.nanOf sg
  | .inf s => (g.infBits s, 0)
  | .fin s m e => roundPack g c s m e

/-- int32 to fp32 (Table ISA-13). -/
def i32ToF32 (c : VCtl) (x : Nat) : Nat × VFlags :=
  let v := signed 32 x
  roundPack f32 c (v < 0) v.natAbs 0

/-- fp32 to int32: rounded under RM, saturating with SAT and NV (Table ISA-13). -/
def f32ToI32 (c : VCtl) (x : Nat) : Nat × VFlags :=
  match FVal.unpack f32 c x with
  | .nan _ => (0, flagSAT ||| flagNV)
  | .inf s => (if s then 2 ^ 31 else 2 ^ 31 - 1, flagSAT ||| flagNV)
  | .fin s m e =>
    let (q, ix) := roundShift c.rm s m (-e)
    if s then
      if q > 2 ^ 31 then (2 ^ 31, flagSAT ||| flagNV)
      else ((2 ^ 32 - q) % 2 ^ 32, if ix then flagNX else 0)
    else if q ≥ 2 ^ 31 then (2 ^ 31 - 1, flagSAT ||| flagNV)
    else (q, if ix then flagNX else 0)

/-- One level of the tree sum of VRSUM: adjacent pairs, each addition rounded (R106). -/
def sumPairs (f : Fmt) (c : VCtl) : List Nat → List Nat × VFlags
  | a :: b :: t =>
    let (x, fl) := fadd f c a b
    let (r, fl') := sumPairs f c t
    (x :: r, fl ||| fl')
  | l => (l, 0)

/-- VRSUM over `n` levels of the fixed tree (R106). -/
def treeSum (f : Fmt) (c : VCtl) : Nat → List Nat → Nat × VFlags
  | 0, l => (l.headD 0, 0)
  | n + 1, l =>
    let (r, fl) := sumPairs f c l
    let (x, fl') := treeSum f c n r
    (x, fl ||| fl')

end Sys2Proof.Machine
end

