-- ==== Sys2Proof/Machine/Flags.lean ====
section
/-!
DEFINITION. The one flag register of the core, cr.vflags: the sticky bits of Table ISA-4 and how a
vector instruction accumulates them (R37, R88, R105, R106).
-/

namespace Sys2Proof.Machine

/-- Flags of the elements or lanes that the mask leaves in the operation; masked elements raise no
flag (R105). -/
def joinFlags : List VFlags → VFlags
  | [] => 0
  | x :: t => x ||| joinFlags t

/-- cr.vflags after a vector instruction sets `x`: the bits are sticky (Table ISA-4). -/
def orFlags (vflags : Word) (x : VFlags) : Word := vflags ||| x.zeroExtend 64

/-- The bits of cr.vflags that a CRW may write: the six RW fields of Table ISA-4. -/
def vflagsMask : Word := 0x3F

end Sys2Proof.Machine
end

