-- ==== Sys2Proof/Machine/CoreTypes.lean ====
section
/-!
DEFINITION. The state of one logical core (R35 to R138): registers, store buffer, scoreboard beats,
TLBs, L1 tags, accounting counters, performance monitor and interrupt interface.
-/

namespace Sys2Proof.Machine

/-- The memory type of an access after R74, in order of restriction. -/
inductive MemType where
  | cacheable | uncached | device
  deriving DecidableEq, Repr

/-- What a physical address names (Table MAP-1). -/
inductive Target where
  | hbm | scratch | regs | host | unmapped
  deriving DecidableEq, Repr

/-- One entry of the store buffer (R49): a scalar store of up to 8 B or a full line, with the level,
world and partition it was issued under. -/
structure SbEntry where
  pa     : Word
  bytes  : Nat
  data   : Line
  mtype  : MemType
  level  : BitVec 2
  s      : Bool
  pid    : BitVec 8
  tclass : BitVec 4
  sent   : Bool := false
  va     : Word := 0
  waited : Bool := false
  deriving DecidableEq, Repr

/-- A vector instruction dispatched to V and not yet started (R102): the beat it starts, the
registers it reads (v0 to v31 as 0 to 31, p0 to p7 as 32 to 39, g0 to g31 as 64 to 95), and what it
writes then; an instruction that writes nothing when V starts it names g0. -/
structure VEntry where
  start : Nat
  reads : List Nat
  dest  : Nat
  value : Line
  flags : VFlags
  deriving DecidableEq, Repr

/-- An own-die scratch load in flight (R100, R101): the beats at which it is performed at the array
and returns, and what the return writes (v0 to v31 as 0 to 31, g0 to g31 as 64 to 95). -/
structure ScrLoad where
  performed : Nat
  returns   : Nat
  dest  : Nat
  value : Line
  deriving DecidableEq, Repr

/-- A drain that ends at a beat the core may not have reached yet (R49, R50, Table CORE-3): the bytes
of its entry, the beat, whether its cost was fixed, whether the entry was of device memory, and
whether it is older than the last FENCE.SL. -/
structure Drained where
  pa     : Nat
  bytes  : Nat
  finish : Nat
  fixed  : Bool
  dev    : Bool
  old    : Bool
  deriving DecidableEq, Repr

/-- The scoreboard as beats (R44, R92): the beat at which the next instruction reaches S, the beat
each register is ready, V's occupancy, completion and queue, scratch loads in flight, the beat of
the last drain, and the drains that end later than the core's own beat, oldest first. -/
structure Beats where
  next   : Nat := 0
  gReady : SMap Nat := []
  vReady : SMap Nat := []
  pReady : SMap Nat := []
  vFree  : Nat := 0
  vDone  : Nat := 0
  vq     : List VEntry := []
  scr    : List ScrLoad := []
  drain  : Nat := 0
  past   : List Drained := []
  deriving DecidableEq, Repr

/-- A combined translation (R77). `size` is 12, 21 or 30; `s1on`, `s2on` are the stage enables in
force when it was made. -/
structure TlbEntry where
  va     : BitVec 48
  pa     : BitVec 48
  size   : Nat
  world  : Bool
  pid    : BitVec 8
  asid   : BitVec 16
  global : Bool
  s1on   : Bool
  s2on   : Bool
  r      : Bool
  w      : Bool
  x      : Bool
  u      : Bool
  s2r    : Bool
  s2w    : Bool
  s2x    : Bool
  mtype  : MemType
  ns     : Bool
  s1lvl  : Nat
  s2lvl  : Nat
  ipa    : BitVec 48
  deriving DecidableEq, Repr

/-- A way of the L2 TLB with its locks of kinds I and D (R78). -/
structure L2Way where
  e     : TlbEntry
  lockI : Bool := false
  lockD : Bool := false
  deriving DecidableEq, Repr

/-- An entry of the ITLB or DTLB, with its pin and its last use. -/
structure L1TlbWay where
  e    : TlbEntry
  pin  : Bool := false
  used : Nat := 0
  deriving DecidableEq, Repr

/-- The TLBs of a core (R77): ITLB and DTLB by entry number, L2 TLB by set * 8 + way, the
pseudo-LRU bits by set, and a use counter. -/
structure Tlbs where
  itlb : SMap (Option L1TlbWay) := []
  dtlb : SMap (Option L1TlbWay) := []
  l2   : SMap (Option L2Way) := []
  plru : SMap Nat := []
  tick : Nat := 0
  deriving DecidableEq, Repr

/-- A synchronous exception: code, CAUSE fields, TVAL and TIPA (Tables CORE-13, CORE-14), and the
stall beats that its instruction met before it, by cause (R45). `next` tells that epc names the next
instruction. -/
structure Exc where
  code   : Nat
  flevel : Nat := 0
  fkind  : Nat := 0
  second : Bool := false
  tval   : Word := 0
  tipa   : Nat := 0
  next   : Bool := false
  sb     : Nat := 0
  l1     : Nat := 0
  walk   : Nat := 0
  deriving DecidableEq, Repr

/-- MESI states; DT arrays use I, S and E (R144, R176). -/
inductive CState where
  | i | s | e | m
  deriving DecidableEq, Repr

/-- A line of L1I or L1D (Table CACHE-1) with its world mark (R311). -/
structure L1Line where
  line  : Nat
  st    : CState
  world : Bool
  deriving DecidableEq, Repr

/-- An L1 cache: lines by set * 4 + way, pseudo-LRU bits by set (R139). -/
structure L1 where
  ways : SMap (Option L1Line) := []
  plru : SMap Nat := []
  deriving DecidableEq, Repr

/-- What an access in M waits for, and what its completion does. -/
inductive AccKind where
  /-- a scalar load: bytes, sign extension, destination -/
  | load (bytes : Nat) (sext : Bool) (rd : Reg)
  /-- VLD -/
  | vload (vd : Reg)
  /-- a line for a fetch or a table walk of the instruction at the pc, which then starts again;
  the flag tells a walk -/
  | line (walk : Bool) (l : Nat)
  /-- nothing of its own: it waits until a request or an eviction of its die is answered, and starts again;
  the flag tells a walk (R146, R186, R189) -/
  | wait (walk : Bool)
  /-- a far atomic: operation code and destination -/
  | atomic (op : Nat) (rd : Reg)
  /-- DCL.C, DCL.I or DCL.CI -/
  | cmo
  /-- ERET's read of the frame -/
  | eret
  /-- a broadcast TLB invalidation: acknowledgements still awaited -/
  | bcast (left : Nat)
  deriving DecidableEq, Repr

/-- What an answer brought for a line: its data and poison mark, or a bus error. -/
inductive Ans where
  | data (d : Line) (pois : Bool)
  | bus
  deriving DecidableEq, Repr

/-- One line that an access touches, after translation: physical address of its first byte, bytes,
memory type, world of the request, and its virtual address. -/
structure Part where
  va    : Word
  pa    : Nat
  bytes : Nat
  mtype : MemType
  s     : Bool
  deriving DecidableEq, Repr

/-- An access held in M (R93): its parts in address order, what answers have brought for them, the
beat at which the instruction left S, and the stall beats so far by cause. -/
structure Access where
  kind   : AccKind
  parts  : List Part
  got    : List Ans := []
  leave  : Nat
  sbm    : Nat := 0
  l1     : Nat := 0
  walk   : Nat := 0
  deriving DecidableEq, Repr

/-- Why a core does not run although it was started (R425, R466, R473, R512, R450 and others). -/
inductive Halt where
  | check | shed3 | cut | power | debug | swap | stackLimit | partition | cds
  deriving DecidableEq, Repr

/-- A private source's configuration, CII_PCFG_i (Table INT-12). -/
structure PCfg where
  prio  : BitVec 8
  lvl   : BitVec 2
  world : Bool
  deriving DecidableEq, Repr

/-- Reset value of CII_PCFG_i, i other than 10 (Table INT-12). -/
def PCfg.reset : PCfg := ⟨0xFF, 1, false⟩

/-- One entry of the running-priority stack (R122, R123): priority, source ID, and the die of a
shared source. -/
structure RunPri where
  prio : BitVec 8
  id   : Nat
  die  : Option Die
  deriving DecidableEq, Repr

/-- The core interrupt interface (Tables INT-9 to INT-12). `offers` are the shared sources that
distributors have offered (R129, R134). -/
structure Cii where
  stack    : List RunPri := []
  eoiErr   : Bool := false
  sgiDrop  : Bool := false
  deadline : Word := 0
  pend     : BitVec 32 := 0
  en       : BitVec 32 := 0x400
  act      : BitVec 32 := 0
  pcfg     : SMap PCfg := [(10, ⟨0xFF, 3, true⟩)]
  offers   : List (Die × Nat) := []
  deriving DecidableEq, Repr

/-- The performance monitor (Table OBS-2): PMU_CTL.EN, overflow, interrupt enable, event selection
and counters. -/
structure Pmu where
  en    : Bool := false
  ovf   : BitVec 8 := 0
  irqen : BitVec 8 := 0
  evsel : SMap (BitVec 17) := []
  cnt   : SMap (BitVec 48) := []
  deriving DecidableEq, Repr

/-- The six accounting counters and their control (Tables CORE-5, CORE-6). -/
structure Acct where
  elapsed : Word := 0
  ibeats  : Word := 0
  stallSb : Word := 0
  stallL1 : Word := 0
  stallPfq : Word := 0
  stallWalk : Word := 0
  freeze  : Bool := false
  deriving DecidableEq, Repr

/-- A drain that failed and has not yet been raised (R70): address and issuing level. -/
structure BusErr where
  addr  : Word
  level : BitVec 2
  deriving DecidableEq, Repr

/-- Whether a logical core runs (R399 PART_START, R435). -/
inductive RunState where
  | stopped | started | lost
  deriving DecidableEq, Repr

/-- A record of the reflection log (Table SAFE-6): kind 1 CKPT, 2 LOAD, 3 VLOAD, 4 ASYNC, 5 CLOSE; its
length in 16 B units; ICOUNT; its words. -/
structure LogRec where
  kind   : BitVec 4
  len    : Nat
  icount : Nat
  data   : List Word
  deriving DecidableEq, Repr

/-- An open reflection window (R426 to R429): its slot number, the instructions retired and SIG so far, the
elapsed beats at its checkpoint, the log, and the sectors that its fetches touched. -/
structure Win where
  slotNo : Nat
  icount : Nat := 0
  sig    : BitVec 64 := 0
  beats0 : Nat
  recs   : List LogRec := []
  sectors : List Nat := []
  deriving DecidableEq, Repr

/-- One logical core. `step` lets a core halted by debug do one thing (R512), `win` is its open reflection
window. `got` holds lines that answers brought for the fetch and the walks of the
instruction at the pc, `pfq` the words from the pc on that stand in the prefetch queue since a
store passed M, each with the fault held with it (R40, R530), `fence` the store-buffer entries older
than the last FENCE.SL. -/
structure Core where
  run    : RunState := .stopped
  halts  : List Halt := []
  inWait : Bool := false
  g      : SMap Word := []
  v      : SMap Line := []
  p      : SMap Word := []
  pc     : Word := 0
  status : Word := 7
  vbar   : SMap Word := []
  xsp    : SMap Word := []
  xlim   : SMap Word := []
  s1base : Word := 0
  s2base : Word := 0
  part   : Word := 0
  tclass : Word := 0
  vflags : Word := 0
  vctl   : Word := 0
  sb     : List SbEntry := []
  sbErr  : List BusErr := []
  access : Option Access := none
  got    : SMap (Option Ans) := []
  pfq    : List (Option Exc) := []
  fence  : Nat := 0
  beats  : Beats := {}
  tlbs   : Tlbs := {}
  tlbSkipped  : BitVec 16 := 0
  tlbSkipFlag : Bool := false
  l1i    : L1 := {}
  l1d    : L1 := {}
  l1iPend : List Nat := []
  acct   : Acct := {}
  cii    : Cii := {}
  pmu    : Pmu := {}
  step   : Bool := false
  win    : Option Win := none
  deriving DecidableEq, Repr

end Sys2Proof.Machine
end

