-- ==== Sys2Proof/Machine/MemTypes.lean ====
section
/-!
DEFINITION. The state of a compute die's storage and engines, of the homes and of the memory
controllers (chapters on caches, coherence, interrupts and HBM).
-/

namespace Sys2Proof.Machine

/-- A 64 B sub-block of a die-cache sector: coherence state, data, poison, world mark, and which
slots hold it in L1D and L1I (R141, R143, R311). -/
structure Sub where
  st    : CState := .i
  data  : Line := 0
  pois  : Bool := false
  world : Bool := false
  l1d   : BitVec 20 := 0
  l1i   : BitVec 20 := 0
  deriving DecidableEq, Repr

/-- A die-cache way: sector number PA[47:8] if a tag is held, lock bit, four sub-blocks, and
whether an open reflection window keeps it (R143, R147, R427). -/
structure Sector where
  tag  : Option Nat := none
  lock : Bool := false
  kept : Bool := false
  subs : SMap Sub := []
  deriving DecidableEq, Repr

/-- A sub-block in an eviction-buffer entry, until its EvictDone (R187). -/
structure EvSub where
  data  : Line
  pois  : Bool
  dirty : Bool
  world : Bool
  deriving DecidableEq, Repr

/-- One of the 32 entries of a die's eviction buffer (R198). -/
structure EvEntry where
  sector : Nat
  subs   : SMap (Option EvSub)
  deriving DecidableEq, Repr

/-- A shared interrupt source at a distributor (R117, Tables INT-5 to INT-7). A level source's line is its
unit's (State.hubLevel). -/
structure IntSrc where
  en    : Bool := false
  pend  : Bool := false
  act   : Bool := false
  prio  : BitVec 8 := 0xFF
  lc    : BitVec 8 := 0xFF
  lvl   : BitVec 2 := 1
  world : Bool := false
  level : Bool := false
  deriving DecidableEq, Repr

/-- An interrupt distributor (Table INT-3). -/
structure Intd where
  en       : Bool := false
  dropCnt  : BitVec 16 := 0
  dropFlag : Bool := false
  srcs     : SMap IntSrc := []
  deriving DecidableEq, Repr

/-- The holder of a range engine, RME_HOLDER (Table CACHE-10). -/
structure RmeHolder where
  lc    : LC
  pid   : BitVec 8
  lvl   : BitVec 2
  world : Bool
  deriving DecidableEq, Repr

/-- A range-maintenance engine (Tables CACHE-10 to CACHE-14): the running command with the identity it runs
under and its progress, the dies whose skip of a sector is counted, and the sector last counted as not
locked. -/
structure Rme where
  holder  : Option RmeHolder := none
  run     : Option RmeHolder := none
  base    : BitVec 64 := 0
  limit   : BitVec 64 := 0
  busy    : Bool := false
  done    : Bool := false
  err     : BitVec 3 := 0
  skipFlag : Bool := false
  lockFlag : Bool := false
  walk    : Bool := false
  op      : BitVec 4 := 0
  force   : Bool := false
  scope   : Bool := false
  own     : Bool := false
  irq     : Bool := false
  tclass  : BitVec 4 := 0
  skipped : BitVec 32 := 0
  lockfail : BitVec 32 := 0
  next    : BitVec 48 := 0
  skips   : SMap (BitVec 12) := []
  lastFail : Option Nat := none
  deriving DecidableEq, Repr

/-- The storage and engines of one compute die. Sectors by set * 16 + way; eviction-buffer entries
by number; whether a drain runs, the ways closed for a way-mode change and the LOCK_LIMIT it brings (R151). -/
structure DieSt where
  secs   : SMap Sector := []
  plru   : SMap Nat := []
  evb    : SMap (Option EvEntry) := []
  evPeak : BitVec 6 := 0
  intd   : Intd := {}
  rme    : Rme := {}
  drain  : Bool := false
  closed : BitVec 16 := 0
  lockMax : Option Nat := none
  deriving DecidableEq, Repr

/-- A line of an MSC (R155). -/
structure MscLine where
  line  : Nat
  dirty : Bool
  data  : Line
  pois  : Bool
  deriving DecidableEq, Repr

/-- A memory-side cache: lines by set * 16 + way. -/
structure Msc where
  ways : SMap (Option MscLine) := []
  plru : SMap Nat := []
  deriving DecidableEq, Repr

/-- A duplicate-tag way (R176): sector number and the state I, S or E of its four sub-blocks. -/
structure DtSec where
  tag : Option Nat := none
  st  : SMap CState := []
  deriving DecidableEq, Repr

/-- How far an entry of a pending table has come. -/
inductive Phase where
  /-- waits behind the active entry for its line (R173) -/
  | queued
  /-- waits for snoop answers from these dies (Tables COH-5 to COH-13) -/
  | snoop (left : List Die)
  /-- waits for a fill from MCq -/
  | fill
  /-- has its data and waits until the forward table has room (R452) -/
  | forward
  /-- waits for GrantSeen -/
  | grant
  deriving DecidableEq, Repr

/-- An entry of a home's pending table (R172, R173): the request; which dies the duplicate tags named
as holders; what the snooped dies keep; data that a snoop answer or a fill brought; locked skips;
and whether an Upgrade is served as a RdUnique (R190). -/
structure PEntry where
  idx    : Nat
  msg    : Msg
  phase  : Phase := .queued
  holders : List (Die × CState) := []
  after  : List (Die × CState) := []
  data   : Option Line := none
  pois   : Bool := false
  skips  : BitVec 12 := 0
  conv   : Bool := false
  deriving DecidableEq, Repr

/-- A write that a home or its MSC has on the way to the controller: line, data, poison mark, and
whether it is already classed (R156, R219). -/
structure WrOut where
  line  : Nat
  data  : Line
  pois  : Bool
  classed : Bool
  deriving DecidableEq, Repr

/-- A home agent: pending table in order of entry; evictions held unapplied, each with its entry, and
evictions marked stale that have not arrived (R188); the highest use of the table; the MSC; writes
on the way to the controller; the E list (R451); and the bytes moved for each class in the measurement window
(R299). -/
structure Home where
  table  : List PEntry := []
  held   : List Msg := []
  stale  : List (Die × BitVec 14) := []
  peak   : Nat := 0
  msc    : Msc := {}
  wout   : List WrOut := []
  eList  : List Nat := []
  moved  : SMap Nat := []
  deriving DecidableEq, Repr

/-- A read in a PC's queue (R202): line, priority, how often younger reads passed it, whether it is
a scrub read, and whether it waits on a write under DRAIN (R208). -/
structure McRead where
  line  : Nat
  prio  : BitVec 2
  passed : Nat := 0
  scrub : Bool := false
  waits : Bool := false
  deriving DecidableEq, Repr

/-- A write in a PC's queue: line, data, poison mark, whether already classed, whether it is the
scrubber's, and whether a read depends on it (R205, R208, R224). -/
structure McWrite where
  line  : Nat
  data  : Line
  pois  : Bool := false
  scrub : Bool := false
  dep   : Bool := false
  deriving DecidableEq, Repr

/-- A pseudo-channel: queues, issued reads, write drain, open row per bank, refresh debt, idle
self-refresh and whether a scrub woke it from there, scrub reads owed, and the scrub position (R202 to
R224). -/
structure Pc where
  reads  : List McRead := []
  issued : List McRead := []
  writes : List McWrite := []
  drain  : Bool := false
  rows   : SMap (Option Nat) := []
  debt   : Nat := 0
  makeUp : Option Word := none
  selfRef : Bool := false
  scrubWake : Bool := false
  owed   : Nat := 0
  pos    : Nat := 0
  deriving DecidableEq, Repr

/-- A memory controller (R201 to R225): commanded self-refresh; Keep with the masks taken at entry;
banks that wait for the zero fill; the running lap's start, the time it has paused, and since when
it pauses. -/
structure Mc where
  pcs    : SMap Pc := []
  cmdSr  : Bool := false
  keep   : Bool := false
  keepMask : SMap (BitVec 16) := []
  filling : SMap (BitVec 16) := []
  lapStart : Word := 0
  paused : Word := 0
  pausedAt : Option Word := none
  deriving DecidableEq, Repr

/-- Whose request a transaction is, and what its answer continues. -/
inductive Purpose where
  /-- a load, VLD or ERET of a core -/
  | access (lc : LC)
  /-- the drain of a core's oldest store-buffer entry -/
  | drain (lc : LC)
  /-- DPF, or a command whose answer nobody waits for -/
  | prefetch (lc : LC)
  /-- the range engine of a die -/
  | engine (d : Die)
  /-- the eviction buffer -/
  | evict
  /-- a request of a core that has been reset since: its answer only frees it (R237) -/
  | voided
  /-- an interrupt message of a station -/
  | interrupt
  /-- an interrupt message of a Fold queue group -/
  | notice (group : Nat)
  /-- a unit of the hub, by a tag of its own -/
  | unit (tag : Nat)
  deriving DecidableEq, Repr

/-- A transaction whose answer has not arrived (R174, R175, R247): the request, the die-cache way
chosen, the die that asks, and the purpose. -/
structure Req where
  msg   : Msg
  way   : Nat := 0
  die   : Option Die := none
  purpose : Purpose
  deriving DecidableEq, Repr

/-- The Mirror pair (R446 to R460): pages logged, by parity * 2^26 + page number; the epoch being
shipped; lines handed over ahead of their page; units on the way out; the halt of the running cut, and a cut that
fell due in a commit sequence; what the partner last reported; lines of a base copy received, and its epoch; and
what the secondary has received. -/
structure Mirror where
  pages   : SMap Bool := []
  shipping : Option (BitVec 32) := none
  base    : Bool := false
  fwd     : List Nat := []
  out     : List MirUnit := []
  cutFrom : Option Word := none
  cutDue  : Bool := false
  partner : Option MirUnit := none
  baseGot : Nat := 0
  baseEp  : BitVec 64 := 0
  staged  : SMap (List MirUnit) := []
  ckpts   : List MirUnit := []
  deriving DecidableEq, Repr

/-- A word of the electrical sideband on its way (R281): die, whether it goes to the hub, TYPE and
DATA. -/
structure SbWord where
  die   : Die
  toHub : Bool
  ty    : BitVec 4
  data  : BitVec 32
  deriving DecidableEq, Repr

/-- A swap that a receiving port runs or that waits (R275 to R277): lane, spare, whether a lane went
down, and whether the receiver has locked on the spare. -/
structure Swap where
  lane   : Nat
  spare  : Nat
  down   : Bool
  locked : Bool := false
  deriving DecidableEq, Repr

/-- A frame in a retry buffer (R270): its sequence number, body, whether it was sent wide, and how often it has been
replayed. -/
structure TxFrame where
  seq   : Nat
  body  : List Byte
  wide  : Bool
  replays : Nat := 0
  deriving DecidableEq, Repr

/-- The copy of a frame that failed (R271): its bits, the wavelength that carried each lane, and the width. -/
structure KeptFrame where
  bits : BitVec 512
  wls  : List Nat
  wide : Bool
  deriving DecidableEq, Repr

/-- A second wavelength that a transmitter drives for a lane (Table PRISM-5 steps 2 to 6): the spare, or the old one
once the lane has moved; and the frame in which the SWITCH unit ended. -/
structure Dup where
  lane  : Nat
  wl    : Nat
  moved : Bool := false
  last  : Option Nat := none
  deriving DecidableEq, Repr

/-- One end of a Prism link (R265 to R284). As receiver: the frame expected, unit bytes not yet complete, the copy of
a failed frame, good frames since the last acknowledgement, LINKCTL units and lane signals that have arrived, its
swap and those that wait, narrow, a change under way (true to narrow), lanes 16 to 31 locked in it, and too few
wavelengths left to go wide. As transmitter: the next frame, the retry buffer, frames to send again, LINKCTL units
to send, bytes of the unit being sent and that unit if it is a LINKCTL, messages on the link, credits by channel,
the doubled lane, narrow, and PRBS on lanes 16 to 31. At a hub port a change of PRISM_CTL.NARROW that waits. Error
windows by wavelength (start and the times at which they filled), and what training found. -/
structure Port where
  rxSeq  : Nat := 0
  rx     : List Byte := []
  kept   : Option KeptFrame := none
  since  : Nat := 0
  ctl    : List LinkCtl := []
  sigs   : List LinkCtl := []
  swap   : Option Swap := none
  waitSwap : List (Nat × Bool) := []
  narrow : Bool := false
  change : Option Bool := none
  locks  : List Nat := []
  stuck  : Bool := false
  txSeq  : Nat := 0
  buf    : List TxFrame := []
  replay : List Nat := []
  out    : List LinkCtl := []
  stream : List Byte := []
  cur    : Option LinkCtl := none
  flight : List Msg := []
  credits : List Nat := [4, 4, 4, 4, 4, 4]
  dup    : Option Dup := none
  txNarrow : Bool := false
  prbs   : Bool := false
  want   : Option Bool := none
  berStart : SMap Word := []
  fills  : SMap (List Word) := []
  hello  : Bool := false
  caps   : Nat := 0
  good   : Option (BitVec 36) := none
  peerLo : Option (BitVec 32) := none
  peerHi : Option (BitVec 32) := none
  deriving DecidableEq, Repr

/-- An event record of the Shepherd's queues (Table CMD-6). -/
structure EventRec where
  code : BitVec 16
  subj : BitVec 8 := 0
  dropped : BitVec 8 := 0
  arg  : Word32 := 0
  time : Word := 0
  data : List Byte := []
  deriving DecidableEq, Repr

end Sys2Proof.Machine
end

