-- ==== Sys2Proof/Machine/PcieTypes.lean ====
section
/-!
DEFINITION. The state of PCIe port A (R337 to R357): configuration space, MSI-X, inbound and outbound
transactions; and of the Fold (R358 to R388): cached contexts, requests in flight, the hold buffer, the
admin queue and the dirty-page log.
-/

namespace Sys2Proof.Machine

/-- What port A sends to the host. -/
inductive HostKind where
  | memRead | memWrite | msix | completion | error (sev : BitVec 2)
  deriving DecidableEq, Repr

/-- A TLP that port A has sent: function, tag, address, bytes asked for or data, completion status,
EP, and the station and class it carries for. -/
structure HostTlp where
  kind   : HostKind
  fn     : Func
  tag    : BitVec 10 := 0
  addr   : BitVec 64 := 0
  bytes  : Nat := 0
  data   : List Byte := []
  status : BitVec 3 := 0
  ep     : Bool := false
  src    : Station := 0x011
  tclass : BitVec 4 := 0
  deriving DecidableEq, Repr

/-- An inbound request that waits its turn (R347, R348): a line of an aperture write, a write to or a
read of BAR0, or an aperture read. A read without a tag is no longer answered to the host. -/
inductive InOp where
  | line (fn : Func) (pa : Nat) (mask : BitVec 64) (data : Line)
  | bar0Write (fn : Func) (off : Nat) (data : List Byte) (be : Nat)
  | bar0Read (fn : Func) (off bytes : Nat) (tag : Option (BitVec 10))
  | read (fn : Func) (pa bytes : Nat) (tag : Option (BitVec 10))
  deriving DecidableEq, Repr

/-- An aperture read in progress: function, tag (none where the host gets no answer any more), physical address,
bytes, its lines with the TXID each waits for, and what each brought (none a refusal; data with poison mark). -/
structure InRead where
  fn    : Func
  tag   : Option (BitVec 10)
  pa    : Nat
  bytes : Nat
  left  : List (BitVec 14 × Nat)
  got   : List (Nat × Option (Line × Bool)) := []
  deriving DecidableEq, Repr

/-- An outbound read that waits for the host: tag, function and the HostRd. -/
structure OutRead where
  tag : BitVec 10
  fn  : Func
  msg : Msg
  deriving DecidableEq, Repr

/-- Port A beside its control-plane registers. Configuration words by function * 1024 + word, MSI-X
table words by (function * 2048 + vector) * 4 + word, pending bits by function * 2048 + vector.
`posted` holds the TXIDs of aperture writes at the homes. -/
structure Pcie where
  cfg    : SMap Word32 := []
  msix   : SMap Word32 := []
  pba    : SMap Bool := []
  inq    : List InOp := []
  posted : List (BitVec 14) := []
  reads  : List InRead := []
  outs   : List OutRead := []
  sent   : List HostTlp := []
  deriving DecidableEq, Repr

/-- What a request of the Fold is for. -/
inductive FoldKind where
  | fetch | work | dcr | cq
  deriving DecidableEq, Repr

/-- A request of the Fold in flight: queue, group, kind, ring slot, the queue's GEN, and whether a
reset voided it (R375). -/
structure FoldOp where
  qid  : Qid
  grp  : Nat
  kind : FoldKind
  slot : Nat
  gen  : BitVec 8
  void : Bool := false
  /-- answered NcErr because port A is frozen (R379) -/
  cut  : Bool := false
  /-- its answer, sunk but not yet acted on -/
  got  : Option Msg := none
  deriving DecidableEq, Repr

/-- A completion on its way to the host's CQ: the DCR entry, the mirror epoch in which the Fold read
it, whether it is still held (R370), and whether a freeze turned its write away, so that it is written again after
release (R379). -/
structure FoldEntry where
  qid   : Qid
  entry : BitVec 128
  epoch : Nat
  held  : Bool
  again : Bool := false
  deriving DecidableEq, Repr

/-- A cached context (R363): the 64 B line, whether it has changed, and its last use. -/
structure CtxWay where
  ctx   : Line
  dirty : Bool := false
  used  : Nat := 0
  deriving DecidableEq, Repr

/-- A cached line of the dirty-page log (R382). -/
structure LogWay where
  fn    : Nat
  line  : Nat
  data  : Line
  deriving DecidableEq, Repr

/-- The admin queue (R380, Table FOLD-9): registers and indices. -/
structure AdminQ where
  sqBase : Word := 0
  cqBase : Word := 0
  cfg    : BitVec 27 := 8
  ready  : Bool := false
  error  : Bool := false
  gen    : BitVec 8 := 0
  sqHead : Nat := 0
  sqTail : Nat := 0
  cqTail : Nat := 0
  cqHead : Nat := 0
  phase  : Bool := true
  lastSeq : Word32 := 0
  done   : Bool := false
  deriving DecidableEq, Repr

/-- The Fold beside its control-plane registers: context cache by QID, requests by TXID, completions
in DCR order, SQ fetches to repeat after a freeze (R379), log lines from least to most recently used,
and the old buffer's count and overflow kept for DIRTY_LOG_SWAP. -/
structure Fold where
  cache : SMap (Option CtxWay) := []
  tick  : Nat := 0
  ops   : SMap (Option FoldOp) := []
  ready : List FoldEntry := []
  retry : List FoldOp := []
  aq    : AdminQ := {}
  log   : List LogWay := []
  oldCnt : SMap Nat := []
  deriving DecidableEq, Repr

end Sys2Proof.Machine
end

