-- ==== Sys2Proof/Machine/Regs.lean ====
section
/-!
DEFINITION. Stations and the registers that the control plane reaches: every register table of the
manual as fields with their types and reset values (R8, R28, R29, R255).
-/

namespace Sys2Proof.Machine

/-- Register field types (Table SCOPE-4). -/
inductive RType where
  | rw | ro | w1c | w1s | wo | rwl
  deriving DecidableEq, Repr

/-- A field of a 32-bit register: low bit, width, type, reset value, and whether it survives a
domain restart (type ST). -/
structure RegField where
  lo    : Nat
  w     : Nat
  ty    : RType
  reset : Nat := 0
  st    : Bool := false
  deriving DecidableEq, Repr

/-- A read-only field. -/
def ro (lo w : Nat) (r : Nat := 0) : RegField := ⟨lo, w, .ro, r, false⟩
/-- A read-write field. -/
def rw (lo w : Nat) (r : Nat := 0) : RegField := ⟨lo, w, .rw, r, false⟩
/-- A field that changes only by STAGE_COMMIT. -/
def rwl (lo w : Nat) (r : Nat := 0) : RegField := ⟨lo, w, .rwl, r, false⟩
/-- A field that a write of 1 clears. -/
def w1c (lo : Nat) (w : Nat := 1) : RegField := ⟨lo, w, .w1c, 0, false⟩
/-- A field whose write triggers an action. -/
def wo (lo w : Nat) : RegField := ⟨lo, w, .wo, 0, false⟩
/-- A read-only field that survives a domain restart. -/
def stro (lo w : Nat) : RegField := ⟨lo, w, .ro, 0, true⟩
/-- A write-one-to-clear field that survives a domain restart. -/
def stw1c (lo w : Nat) : RegField := ⟨lo, w, .w1c, 0, true⟩
/-- A read-write field that survives a domain restart. -/
def strw (lo w : Nat) (r : Nat := 0) : RegField := ⟨lo, w, .rw, r, true⟩

/-- The fields of one register. -/
abbrev RegDesc := List RegField

/-- A saturating count in [15:0] with its W1C flag at [16] (Tables CACHE-15, COH-17, FAB-6). -/
def count16 : RegDesc := [ro 0 16, w1c 16]

/-- Reset value of a register. -/
def RegDesc.reset : RegDesc → Nat
  | [] => 0
  | f :: t => (f.reset % 2 ^ f.w) <<< f.lo + RegDesc.reset t

/-! Stations (Table MAP-5). -/

/-- Site code of a die: 0x1 to 0xC. -/
def siteOf (d : Die) : Nat := d.val + 1
/-- Station of unit `u` of die `d`. -/
def dieStation (d : Die) (u : Nat) : Station := BitVec.ofNat 12 (siteOf d * 256 + u)
/-- The core slot's station. -/
def slotStation (d : Die) (sl : Nat) : Station := dieStation d sl
/-- Die-cache bank `b`. -/
def bankStation (d : Die) (b : Nat) : Station := dieStation d (0x20 + b % 16)
/-- The interrupt distributor. -/
def intdStation (d : Die) : Station := dieStation d 0x30
/-- The die's Prism port. -/
def diePortStation (d : Die) : Station := dieStation d 0x31
/-- The die control station. -/
def dcsStation (d : Die) : Station := dieStation d 0x3F
/-- Home agent of a quadrant. -/
def homeStation (q : Quad) : Station := BitVec.ofNat 12 q.val
/-- Memory controller of a quadrant. -/
def mcStation (q : Quad) : Station := BitVec.ofNat 12 (8 + q.val)
/-- The Fold. -/
def foldStation : Station := 0x010
/-- PCIe port A. -/
def portAStation : Station := 0x011
/-- The Mirror port. -/
def mirrorStation : Station := 0x012
/-- Copy engine `c`. -/
def ceStation (c : Nat) : Station := BitVec.ofNat 12 (0x14 + c)
/-- The Shepherd. -/
def shepStation : Station := 0x020
/-- Loupe `k`. -/
def loupeStation (k : Nat) : Station := BitVec.ofNat 12 (0x30 + k)
/-- Hub Prism port `n`. -/
def hubPortStation (n : Nat) : Station := BitVec.ofNat 12 (0x60 + n)
/-- Mesh router at column `x`, row `y`. -/
def routerStation (x y : Nat) : Station := BitVec.ofNat 12 (0x80 + 7 * y + x)

/-- The die of a station on a compute die. -/
def dieOfStation (st : Station) : Option Die :=
  let site := st.toNat / 256
  if h : 1 ≤ site ∧ site ≤ 12 then some ⟨site - 1, by omega⟩ else none

/-- The unit code of a station. -/
def unitOf (st : Station) : Nat := st.toNat % 256

/-- What kind of unit a station is (Table MAP-5). -/
inductive UnitKind where
  | slot (k : Nat) | bank (k : Nat) | intd | diePort | dcs
  | home (q : Nat) | mc (q : Nat) | fold | portA | mirror | ce (c : Nat) | shepherd
  | loupe (k : Nat) | hubPort (n : Nat) | router (k : Nat)
  deriving DecidableEq, Repr

/-- The unit at a station; none for an unassigned station (Table MAP-5). -/
def unitKind (st : Station) : Option UnitKind :=
  let site := st.toNat / 256
  let u := st.toNat % 256
  if 1 ≤ site && site ≤ 12 then
    if u < 0x14 then some (.slot u)
    else if 0x20 ≤ u && u < 0x30 then some (.bank (u - 0x20))
    else if u = 0x30 then some .intd
    else if u = 0x31 then some .diePort
    else if u = 0x3F then some .dcs
    else none
  else if site = 0 then
    if u < 4 then some (.home u)
    else if 8 ≤ u && u < 12 then some (.mc (u - 8))
    else if u = 0x10 then some .fold
    else if u = 0x11 then some .portA
    else if u = 0x12 then some .mirror
    else if 0x14 ≤ u && u < 0x18 then some (.ce (u - 0x14))
    else if u = 0x20 then some .shepherd
    else if 0x30 ≤ u && u < 0x5C then some (.loupe (u - 0x30))
    else if 0x60 ≤ u && u < 0x6C then some (.hubPort (u - 0x60))
    else if 0x80 ≤ u && u < 0x9C then some (.router (u - 0x80))
    else none
  else none

/-- The control-plane address of an offset within a station (R29). -/
def cpAddr (st : Station) (off : Nat) : Nat := st.toNat * 2 ^ 20 + off

/-! Register tables by unit. -/

/-- Common station registers (Table FAB-6). -/
def commonRegs (st : Nat) : List (Nat × RegDesc) := [
  (0xFF000, [ro 0 12 st]),
  (0xFF004, [rwl 0 6]),
  (0xFF008, count16),
  (0xFF00C, [ro 0 16, ro 16 16]),
  (0xFF010, [w1c 0, w1c 1, w1c 2, w1c 3, ro 16 16]),
  (0xFF014, [ro 0 16])]

/-- Words of a Pasture checker with `n` regions and its status registers (Tables WLD-4, WLD-5). -/
def pastureReg (n off : Nat) : Option RegDesc :=
  if 0x1000 ≤ off && off < 0x1000 + 16 * n then
    match off % 16 with
    | 0 => some [rwl 0 1, rwl 1 1, rwl 2 1, rwl 3 1, rwl 4 2, rwl 6 1, rwl 7 1, rwl 8 1, rwl 12 4]
    | 4 => some [rwl 0 32]
    | 8 => some [rwl 0 32]
    | 12 => some [rwl 0 32]
    | _ => none
  else if off = 0x1800 then some [ro 0 6 n]
  else if off = 0x1804 then some count16
  else if off = 0x1808 then some [ro 0 32]
  else if off = 0x180C then some [ro 0 12, ro 12 8, ro 20 1, ro 21 2, ro 23 1, w1c 24]
  else none

/-- The owner record of an assignable unit (Table WLD-7); `ep` where it holds the role epoch. -/
def ownerReg (ep : Bool) : RegDesc :=
  [rwl 0 8, rwl 8 1, rwl 9 1 1, rwl 10 1, if ep then rwl 12 6 else ro 12 6]

/-- Registers of a die control station (Tables DIES-6 to DIES-10, CACHE-15, COH-18, FAB-8). -/
def dcsRegs : List (Nat × RegDesc) := [
  (0x040, [ro 0 20]),
  (0x044, [ro 0 32]),
  (0x048, [ro 0 8]),
  (0x04C, [ro 0 5, ro 8 5, ro 16 5]),
  (0x100, [rwl 0 12, rwl 12 1 1]),
  (0x104, [ro 0 3 4, ro 3 1]),
  (0x108, [ro 0 16]),
  (0x10C, count16),
  (0x110, count16),
  (0x114, [ro 0 8]),
  (0x118, count16),
  (0x120, [ro 0 6, ro 8 6, wo 16 1]),
  (0x130, [rwl 0 20])]

/-- Home agent and MSC registers (Tables COH-17 and CACHE-16). -/
def homeRegs : List (Nat × RegDesc) := [
  (0x000, [ro 0 1]),
  (0x004, [ro 0 13, ro 16 9]),
  (0x008, [ro 0 13, wo 16 1]),
  (0x00C, [rwl 0 13 0x100]),
  (0x010, count16),
  (0x014, count16),
  (0x020, [stro 0 4, stro 4 12, stro 16 14]),
  (0x024, [stro 6 26]),
  (0x028, [stro 0 16]),
  (0x02C, [stro 0 24]),
  (0x800, [rwl 0 16]),
  (0x804, [ro 0 16 0x4000, ro 16 5 0x10]),
  (0x808, [ro 0 6])]

/-- Memory controller registers (Table HBM-6). -/
def mcRegs : List (Nat × RegDesc) := [
  (0x000, [rwl 0 1, rwl 8 6 0x30, rwl 16 6 0x10]),
  (0x004, [ro 0 1, ro 1 1, ro 8 8]),
  (0x008, [ro 0 32]),
  (0x00C, [rwl 0 4 8, rwl 4 1 1, rwl 16 10 0x00A]),
  (0x010, count16),
  (0x080, [rwl 0 1 1, rwl 4 12 0x0C8, rwl 16 8 0x18]),
  (0x084, [ro 0 25, ro 31 1]),
  (0x088, [stro 0 32]), (0x08C, [stro 0 32]),
  (0x090, [ro 0 32]), (0x094, [ro 0 32]),
  (0x0A0, [w1c 0, w1c 1, w1c 2, w1c 3, w1c 4, w1c 5, w1c 6]),
  (0x0A4, [ro 0 32]),
  (0x0A8, [stro 0 16, ro 16 16]),
  (0x0B0, [stw1c 0 1, stro 6 26]),
  (0x0B4, [stro 0 16, stro 16 2, stro 18 1, stro 20 3, stro 24 8]),
  (0x0C0, [ro 0 32]),
  (0x0C4, [ro 0 32])]

/-- A keep mask of a memory controller (Table HBM-6). -/
def mcKeepReg (off : Nat) : Option RegDesc :=
  if 0x040 ≤ off && off < 0x080 && off % 4 = 0 then some [rwl 0 16 0xFFFF] else none

/-- Router registers (Table FAB-7). -/
def routerRegs : List (Nat × RegDesc) := [
  (0x000, [rwl 0 8 0x40]),
  (0x004, [ro 0 1, rwl 1 12]),
  (0x008, [ro 0 6 0x3F, ro 6 6 0x3F, ro 12 6 0x3F, ro 18 6 0x3F, ro 24 6 0x3F]),
  (0x0F0, [rwl 0 10 0x063])]

/-- Router counters (Table OBS-3). -/
def routerCount (off : Nat) : Option RegDesc :=
  if 0x100 ≤ off && off < 0x160 then
    if off % 8 = 0 then some [ro 0 32] else if off % 8 = 4 then some [ro 0 16] else none
  else if 0x200 ≤ off && off < 0x230 && off % 4 = 0 then some [ro 0 32]
  else none

/-- Registers of Loupe `k` (Table OBS-7). -/
def loupeRegs (k : Nat) : List (Nat × RegDesc) := [
  (0x00, [rw 0 1, rw 1 1, wo 2 1, rw 3 1]),
  (0x04, [rw 0 3, rw 3 1, if 28 ≤ k && k < 32 then rw 4 5 else ro 4 5]),
  (0x08, [rw 0 8, rw 8 8 0xFF, rw 16 6 0x3F]),
  (0x0C, [rw 0 16 0xFFFF, rw 16 1, rw 17 1, rw 18 1, rw 19 8, rw 27 1]),
  (0x10, [rw 0 12, rw 16 12]), (0x14, [rw 0 12, rw 16 12]),
  (0x18, [rw 6 26]), (0x1C, [rw 0 16]), (0x20, [rw 6 26]), (0x24, [rw 0 16]),
  (0x28, [rw 0 4 1, rw 4 1]),
  (0x2C, [ro 0 1, ro 1 1, w1c 2, ro 3 1, ro 4 4, ro 8 15]),
  (0x30, [rw 0 16]),
  (0x38, [ro 0 32]), (0x3C, [ro 0 32]),
  (0x40, [ro 0 32]), (0x44, [ro 0 16]), (0x48, [ro 0 32]), (0x4C, [ro 0 16])]

/-- INTD_OWNER_i at 0x2000 + 4i, i = 32 to 1,023 (Table INT-8). -/
def intdOwnerReg (off : Nat) : Option RegDesc :=
  if 0x2080 ≤ off && off < 0x3000 && off % 4 = 0 then
    some [rwl 0 8, rwl 8 1, rwl 9 1 1, rwl 10 1]
  else none

/-- Partition class registers of a die (Table REG-5). -/
def pclassReg (off : Nat) : Option RegDesc :=
  if 0x400 ≤ off && off < 0x800 && off % 4 = 0 then some [rwl 0 16 0xFFFF, rwl 16 4]
  else if off = 0x800 then some count16
  else none

/-- REG_RCFG (Table REG-4). -/
def rcfgReg : RegDesc := [rwl 0 18, rwl 18 10 0x063, rwl 28 4]
/-- REG_RSTAT (Table REG-4). -/
def rstatReg : RegDesc := [ro 0 18, w1c 18]

/-- A regulator pair in an array of `n` at `base` (Tables REG-1, REG-4). -/
def regulatorReg (base n off : Nat) : Option RegDesc :=
  if base ≤ off && off < base + 8 * n then
    if (off - base) % 8 = 0 then some rcfgReg
    else if (off - base) % 8 = 4 then some rstatReg
    else none
  else none

/-- The regulation block at the Shepherd (Table REG-6). -/
def regBlock (off : Nat) : Option RegDesc :=
  let o := off - 0x60000
  if off < 0x60000 || 0x61000 ≤ off || off % 4 ≠ 0 then none
  else if o = 0 then some [rwl 0 10 0x00A]
  else if 0x10 ≤ o && o < 0x20 then some [ro 0 12 0xFD7, ro 12 3]
  else if o = 0x20 then some [ro 0 4, ro 4 4]
  else if 0x100 ≤ o && o < 0x140 then some [rwl 0 4, rwl 4 1, rwl 5 1, rwl 6 2, rwl 16 16]
  else if 0x200 ≤ o && o < 0x300 then some [rwl 0 12]
  else if 0x300 ≤ o && o < 0x400 then some [ro 0 12]
  else if 0x400 ≤ o && o < 0x500 then some [ro 0 16, ro 16 2, ro 18 1]
  else none

/-- Fuse registers at the Shepherd, 0x30000 onward (R332). -/
def fuseReg (off : Nat) : Option RegDesc :=
  let o := off - 0x30000
  if off < 0x30000 || off % 4 ≠ 0 then none
  else if o < 0xF0 then some [ro 0 32]
  else if o = 0xF0 then some [ro 0 5]
  else if o < 0xFC then some [ro 0 32]
  else if 0x100 ≤ o && o < 0x118 then some [ro 0 32]
  else if o = 0x120 then some [ro 0 4]
  else none

/-- Fault classes that a unit reports (Table SAFE-4). -/
def classesOf : UnitKind → List Nat
  | .slot _ => [0x10, 0x11, 0x14]
  | .bank _ => [0x08, 0x09]
  | .home _ => [0x02, 0x0A, 0x0B, 0x0C, 0x0D, 0x30, 0x31]
  | .mc _ => [0x01, 0x02, 0x03]
  | .portA => [0x48]
  | .mirror => [0x50]
  | .diePort | .hubPort _ => [0x20, 0x21, 0x22]
  | .shepherd => [0x12, 0x13, 0x15, 0x23, 0x24, 0x28, 0x29, 0x38, 0x39, 0x3A, 0x40, 0x41, 0x42, 0x58]
  | _ => []

/-- A fault detail slot at 0xF8000 + 32 * CLASS (R255, Table SAFE-2). -/
def detailReg (k : UnitKind) (off : Nat) : Option RegDesc :=
  if 0xF8000 ≤ off && off < 0xFA000 && off % 4 = 0 then
    let c := (off - 0xF8000) / 32
    if c ∈ classesOf k ++ [0x18, 0x19, 0x1A, 0x1B] then
      if off % 32 = 0 then some [ro 0 12, ro 16 8, w1c 31] else some [ro 0 32]
    else none
  else none

/-- Register `off` among a table's rows. -/
def inTable (t : List (Nat × RegDesc)) (off : Nat) : Option RegDesc :=
  (t.find? fun r => r.1 = off).map (·.2)

/-- Power registers at the Shepherd (Table PWR-9). -/
def pwrRegs : List (Nat × RegDesc) := [
  (0x80000, [ro 0 3, ro 3 1, ro 8 5]),
  (0x80004, [ro 0 2, ro 2 3]),
  (0x80010, [ro 0 12, ro 12 12 0xFFF, wo 24 1]),
  (0x80014, [ro 0 12, ro 12 12 0xFFF, wo 24 1]),
  (0x80018, [ro 0 12, ro 12 12 0xFFF, wo 24 1]),
  (0x8001C, [ro 0 12, ro 12 12 0xFFF, wo 24 1]),
  (0x80020, [ro 0 12, ro 12 12 0xFFF, wo 24 1]),
  (0x80024, [ro 0 12, ro 12 12 0xFFF, wo 24 1]),
  (0x80030, [stro 0 16, stro 16 5]), (0x80034, [stro 0 32]),
  (0x80038, [stro 0 16, stw1c 16 1]),
  (0x80040, [rwl 0 32]),
  (0x80044, [rwl 0 1 1, rwl 1 1 1, rwl 2 1 1, rwl 3 1 1]),
  (0x80048, [rwl 0 10 0x3B6]),
  (0x8004C, [rwl 0 8]),
  (0x80050, [ro 0 1, ro 1 1]),
  (0x80060, [ro 0 32]), (0x80064, [ro 0 32]), (0x80068, [ro 0 32]), (0x8006C, [ro 0 32])]

/-- Mirror registers at the Mirror port (Table MIR-5). -/
def mirRegs (off : Nat) : Option RegDesc :=
  if off = 0x000 then some [rwl 0 1, rwl 1 1, rwl 2 1, rwl 3 1 1, rwl 8 14 0x3E8]
  else if off = 0x004 then some [ro 0 1, ro 1 3, ro 4 1, ro 5 5]
  else if off = 0x008 || off = 0x00C then some [ro 0 32]
  else if off = 0x010 then some [ro 0 16]
  else if off = 0x014 then some count16
  else if off = 0x018 then some [ro 0 17]
  else if off = 0x020 || off = 0x024 || off = 0x028 || off = 0x02C then some [rwl 0 12]
  else if off = 0x030 then some [rwl 29 3]
  else if off = 0x034 then some [rwl 0 9]
  else if 0x040 ≤ off && off < 0x060 then
    if off % 8 = 0 then some [rwl 20 12] else if off % 8 = 4 then some [rwl 0 4] else none
  else if 0x100 ≤ off && off < 0x500 && off % 4 = 0 then some [rwl 0 1]
  else none

/-- Prism port registers (Table PRISM-10) at a station; `n` is the site number, `hub` the hub end.
DESIGN CHOICE: this port's own capability words offer every class and 0x200 requests, which the
manual leaves to the part. -/
def prismReg (n : Nat) (hub : Bool) (off : Nat) : Option RegDesc :=
  if off = 0x000 then some [ro 0 3, ro 3 1, ro 4 1, ro 8 3, ro 16 16]
  else if off = 0x004 then some [ro 0 8, ro 8 1, ro 9 1, ro 10 1, ro 11 4, ro 16 16]
  else if off = 0x008 then some [ro 0 14]
  else if off = 0x00C then some [if hub then rw 0 1 else ro 0 1]
  else if off = 0x010 then some [ro 0 32 (0x102 + (if hub then 8 else 1) * 2 ^ 16 + n * 2 ^ 20)]
  else if off = 0x014 then some [ro 0 32 (36 + 3 * 2 ^ 6 + 0xFFFF * 2 ^ 8)]
  else if off = 0x018 then some [ro 0 32 0x200]
  else if off = 0x01C then some [ro 0 32 ((if hub then 0x0B01 else 0x0A01) + 2 ^ 16)]
  else if 0x020 ≤ off && off < 0x030 && off % 4 = 0 then some [ro 0 32]
  else if 0x040 ≤ off && off < 0x0C0 && off % 4 = 0 then some [ro 0 6 ((off - 0x040) / 4)]
  else if off = 0x0C0 || off = 0x0C4 then some [ro 0 32]
  else if off = 0x0C8 then some [ro 0 8]
  else if off = 0x0D0 then some [rwl 0 6 0x20, rwl 8 6 0x21, rwl 16 6 0x22, rwl 24 6 0x23]
  else if off = 0x0D4 then some [rwl 0 5, rwl 5 1]
  else if off = 0x0D8 then some [ro 0 5, ro 5 6, ro 11 6, ro 17 1, ro 24 8]
  else if 0x280 ≤ off && off < 0x300 && off % 4 = 0 then some [ro 0 6 ((off - 0x280) / 4)]
  else if off = 0x100 then some [rwl 0 16 0x10, rwl 16 16 0x64]
  else if off = 0x110 then some [ro 0 24, w1c 24]
  else if 0x180 ≤ off && off < 0x210 && off % 4 = 0 then some [ro 0 16, ro 16 8, w1c 24]
  else none

/-- Laser registers at the Shepherd (Table PRISM-11). -/
def laserRegs : List (Nat × RegDesc) := [
  (0x40000, [ro 0 1, ro 1 1 1, ro 2 1 1, ro 3 1, ro 8 8]),
  (0x40004, [rwl 0 1 1, wo 1 1]),
  (0x40010, [ro 0 32]), (0x40014, [ro 0 4]), (0x40018, [ro 0 32]), (0x4001C, [ro 0 4]),
  (0x40020, [ro 0 32]), (0x40024, [ro 0 4]), (0x40028, [ro 0 32]), (0x4002C, [ro 0 4])]

/-- Port A registers (Table PCIE-10). -/
def portARegs (off : Nat) : Option RegDesc :=
  if off = 0x000 then some [ro 0 1, ro 1 3, ro 4 5, ro 9 1]
  else if off = 0x004 then some [rwl 0 1, rwl 8 8 0x0A]
  else if off = 0x008 then some [rwl 0 32 0x00080000]
  else if off = 0x00C then some [stro 0 1, stro 1 3, stro 4 5, wo 9 1, w1c 10]
  else if off = 0x010 || off = 0x014 then some [ro 0 16, ro 16 16]
  else if off = 0x018 then some [rwl 12 20]
  else if off = 0x01C then some [rwl 0 32]
  else if 0x400 ≤ off && off < 0x800 && off % 4 = 0 then some [rwl 0 11, rwl 11 1]
  else if 0x20000 ≤ off && off < 0x20000 + 8 * 1025 then
    if off % 8 = 0 then some [rwl 0 1, rwl 26 6] else if off % 8 = 4 then some [rwl 0 9] else none
  else none

/-- Fold registers (Table FOLD-10). -/
def foldRegs (off : Nat) : Option RegDesc :=
  if off = 0x004 then some [ro 0 16, ro 16 13]
  else if off = 0x008 then some [rwl 26 6]
  else if off = 0x00C then some [rwl 0 16]
  else if off = 0x010 then some [ro 0 32]
  else if off = 0x014 || off = 0x018 then some [ro 0 16, ro 16 16]
  else if off = 0x01C then some [ro 0 20, ro 20 5, w1c 25]
  else if off = 0x020 then some [ro 0 15]
  else if 0x10000 ≤ off && off < 0x10000 + 8 * 1025 then
    if off % 8 = 0 then some [rwl 0 20, rwl 20 11] else if off % 8 = 4 then some [ro 0 32] else none
  else if 0x20000 ≤ off && off < 0x20000 + 4 * 1025 && off % 4 = 0 then some [ro 0 8, rw 8 1, ro 9 1]
  else if 0x40020 ≤ off && off < 0x40000 + 32 * 1025 then
    match off % 32 with
    | 0 => some [rwl 12 20]
    | 4 => some [rwl 0 16]
    | 8 => some [rwl 12 20]
    | 12 => some [rwl 0 16]
    | 16 => some [rwl 12 20]
    | 20 => some [rwl 0 32]
    | 24 => some [rwl 0 1, ro 1 1, wo 2 1, ro 3 1, w1c 4, rwl 8 5]
    | 28 => some [ro 0 32]
    | _ => none
  else if off = 0x60000 then some [wo 0 20, wo 20 4, ro 31 1]
  else if 0x60040 ≤ off && off < 0x60080 && off % 4 = 0 then some [rw 0 32]
  else none

/-- Threshold and window of a fault class at reset (Table SAFE-5); K is 0 for a class without one. -/
def wcDefault (c : Nat) : Nat × Nat :=
  if c = 0x01 || c = 0x08 || c = 0x0A || c = 0x0C || c = 0x10 then (4, 1000)
  else if c = 0x11 || c = 0x12 || c = 0x13 then (2, 1000)
  else if c = 0x18 then (64, 1000)
  else (0, 0)

/-- Fault collector registers at the Shepherd, 0x70000 onward (Table SAFE-15). -/
def fcRegs (off : Nat) : Option RegDesc :=
  let o := off - 0x70000
  if off < 0x70000 || 0x72000 ≤ off || off % 4 ≠ 0 then none
  else if o = 0x000 then some [ro 0 12, ro 12 1 1, ro 13 1, ro 14 1, ro 15 1]
  else if o = 0x004 then some [stro 0 32]
  else if o = 0x008 then some [stro 0 16, stw1c 16 1]
  else if o = 0x00C then some [ro 0 13, ro 16 16]
  else if o = 0x010 then some [ro 0 30, ro 30 1]
  else if 0x100 ≤ o && o < 0x500 then
    let w := wcDefault ((o - 0x100) / 4)
    some [rwl 0 8 w.1, rwl 16 16 w.2]
  else if 0x800 ≤ o && o < 0xC00 then some [rwl 0 2, rwl 2 1 1, rwl 4 16]
  else if 0x1000 ≤ o && o < 0x1030 then some [ro 0 5, ro 5 1]
  else if o = 0x1040 then some [rwl 0 4 0xB]
  else if o = 0x1044 then some [ro 0 16, ro 16 16]
  else none

/-- The registers of a unit on a site, apart from those common to every station. -/
def unitReg (site : Nat) (k : UnitKind) (off : Nat) : Option RegDesc :=
  match k with
  | .diePort => prismReg (site - 1) false off
  | .hubPort n => prismReg n true off
  | .dcs => inTable dcsRegs off <|> pastureReg 16 off <|> regulatorReg 0x200 20 off
      <|> pclassReg off
  | .home _ => inTable homeRegs off
  | .mc _ => inTable mcRegs off <|> mcKeepReg off <|> pastureReg 32 off
  | .intd => intdOwnerReg off
  | .router _ => inTable routerRegs off <|> routerCount off
  | .ce _ => (if off = 0x100 then some (ownerReg false) else none) <|> regulatorReg 0x200 1 off
      <|> pastureReg 8 off
  | .loupe k => inTable (loupeRegs k) off
      <|> (if off = 0x100 then some (ownerReg false) else none)
  | .portA => portARegs off <|> regulatorReg 0x10000 1025 off <|> pastureReg 16 off
  | .fold => foldRegs off <|> regulatorReg 0x200 1 off
      <|> (if 0x80000 ≤ off && off < 0x80000 + 4 * 1025 && off % 4 = 0 then some (ownerReg true)
           else none)
  | .mirror => mirRegs off
  | .shepherd => regBlock off <|> fuseReg off <|> inTable pwrRegs off <|> inTable laserRegs off
      <|> fcRegs off <|> (if 0x50000 ≤ off && off < 0x50000 + 4 * 37 && off % 4 = 0 then some (ownerReg true)
           else none)
  | _ => none

/-- The register at a control-plane address; none for an unassigned station or offset (R29). -/
def regDesc (a : Nat) : Option RegDesc :=
  let st := BitVec.ofNat 12 (a / 2 ^ 20)
  let off := a % 2 ^ 20
  match unitKind st with
  | none => none
  | some k => inTable (commonRegs st.toNat) off <|> detailReg k off <|> unitReg (st.toNat / 256) k off

/-- Reset value of the register at an address (R7). -/
def cpReset (a : Nat) : Word32 :=
  match regDesc a with
  | none => 0
  | some d => BitVec.ofNat 32 d.reset

end Sys2Proof.Machine
end

