-- ==== Sys2Proof/Machine/ShepTypes.lean ====
section
/-!
DEFINITION. The state of the Shepherd: mailboxes, stages and commit sequence, partitions, images, the
fault collector, reflection, power and reset.
-/

namespace Sys2Proof.Machine

/-! Command protocol (R389 to R417). -/

/-- The stored reply of a command (R397, Table CMD-4): status, DETAIL, inline reply data. -/
structure Reply where
  req    : ShepReq
  status : BitVec 8
  detail : Word
  data   : List Word32
  rlen   : Nat
  cnum   : Word32
  deriving DecidableEq, Repr

/-- A mailbox channel (Table CMD-2): holder, IRQ of the running command, BUSY, DONE, MB_LAST_SEQ,
MB_CMD and MB_REPLY as bytes, the packet a GO submitted, and whether the present holder has given a
GO. -/
structure Mbox where
  holder  : Option RmeHolder := none
  irq     : Bool := false
  busy    : Bool := false
  done    : Bool := false
  lastSeq : Word32 := 0
  cmd     : SMap Byte := []
  reply   : SMap Byte := []
  run     : Option ShepReq := none
  last    : Option Reply := none
  /-- the holder has submitted nothing yet: MB_REPLY still holds the reply of the holder before (R391) -/
  fresh   : Bool := false
  deriving DecidableEq, Repr

/-- An open stage (R402): the channel that opened it, the entries in order, the commit number it was
checked against, and when a command last reached it. -/
structure Stage where
  chan    : Chan
  entries : List (Nat × Word32) := []
  checked : Option Word32 := none
  last    : Word
  deriving DecidableEq, Repr

/-- What ends with a commit sequence, beside the reply (R412). -/
inductive CommitFor where
  /-- STAGE_COMMIT of a world's stage -/
  | stage (world : Bool)
  /-- UNIT_RELEASE, with ABANDONED -/
  | release (abandoned : Bool)
  /-- a live swap of a logical core to a place (die * 20 + slot) (R434) -/
  | swap (lc : LC) (new : Nat)
  /-- MIRROR_ROLE -/
  | mirRole (role : Bool)
  /-- the retirement of a slot (die * 20 + slot), with its logical core if one runs there (R17, R257, R435) -/
  | retire (place : Nat)
  /-- a set of another command, or of the Shepherd's own policy -/
  | other
  deriving DecidableEq, Repr

/-- A set of the Shepherd's own policy that waits for its turn (R412): a live swap of a logical core, the
retirement of a slot (die * 20 + slot), or entries. -/
inductive Due where
  | swap (lc : LC)
  | retire (place : Nat)
  | set (es : List (Nat × Word32))
  deriving DecidableEq, Repr

/-- A CP_READ or CP_WRITE under way (R252, R399): the command, whether it writes and what, whether secrets read
as 0, the word whose frame is next or out, its number, the words asked for, the SEQ of the frame that is out, and
the words read. -/
structure CpJob where
  req   : ShepReq
  write : Bool
  value : Word32 := 0
  mask  : Bool := false
  addr  : Nat
  idx   : Nat := 0
  words : Nat := 1
  seq   : Option (BitVec 16) := none
  got   : List Word32 := []
  deriving DecidableEq, Repr

/-- How far a commit sequence has come (Table CMD-11). -/
inductive CPhase where
  | drain | arm | fire | hold | disarm
  deriving DecidableEq, Repr

/-- The running commit sequence (R407): what it is for, the command that waits for it, its entries, its
phase, the stations it names, those armed, switched and acknowledged, entries not yet sent, WRITE frames
not yet answered (SEQ and address), shadows, when the drain began and ended, FIRE was sent and the hold
began, and the status with which a sequence that is given up ends. -/
structure Commit where
  what    : CommitFor
  req     : Option ShepReq
  entries : List (Nat × Word32)
  phase   : CPhase := .drain
  stations : List Station := []
  armed   : List Station := []
  switched : List Station := []
  acked   : List Station := []
  todo    : List (Nat × Word32) := []
  left    : List (BitVec 16 × Nat) := []
  shadows : SMap (Option Word32) := []
  drainAt : Word
  armAt   : Word := 0
  fireAt  : Word := 0
  holdAt  : Word := 0
  endStatus : Nat := 0
  deriving DecidableEq, Repr

/-- The last PART_START of a logical core (R478): level, entry PC, g1. -/
structure StartP where
  lvl : BitVec 2
  pc  : Word
  g1  : Word
  deriving DecidableEq, Repr

/-- A partition (R312, R399): world, state (0 created, 1 running, 2 stopped), and the version and SVN of
the image loaded last. -/
structure Part' where
  world : Bool
  st    : BitVec 2 := 0
  image : Option (Word32 × BitVec 8) := none
  deriving DecidableEq, Repr

/-- An image slot of the boot flash: its bytes. -/
abbrev Flash := SMap Byte

/-! Fault collector (R418 to R423). -/

/-- A fault record (Table SAFE-3). -/
structure FaultRec where
  cls     : BitVec 16
  source  : BitVec 16
  count   : Nat := 1
  sev     : Nat
  acked   : Bool := false
  cds     : Bool := false
  repaired : Bool := false
  tFirst  : Word
  tLast   : Word
  loc     : Word
  d0      : Word
  d1      : Word
  reporters : BitVec 52
  index   : Word32
  cnum    : Word32
  deriving DecidableEq, Repr

/-- A location-keyed window counter (R422, R423). -/
structure WinCnt where
  cls   : Nat
  key   : Nat
  count : Nat
  start : Word
  deriving DecidableEq, Repr

/-! Reflection (R426 to R431). -/

/-- A closed window whose replay is due or runs: its slot number, SIG, closing instruction count, its log,
and the sectors its fetches touched. -/
structure Closed where
  slotNo : Nat
  sig    : BitVec 64
  icount : Nat
  recs   : List LogRec
  sectors : List Nat
  deriving DecidableEq, Repr

/-- A replay: the target, the reserve that replays (die * 20 + slot), the slot it is due in, and for a
confirmation the first reserve with the SIG and the instruction count it found. -/
structure Replay where
  target : LC
  res    : Nat
  due    : Nat
  first  : Option (Nat × BitVec 64 × Nat) := none
  deriving DecidableEq, Repr

/-! Power (R463 to R487). -/

/-- A partition reset under way (R478): the partition, the command that asked for it, and the logical
cores to restart after it. -/
structure PReset where
  pid     : Nat
  req     : Option ShepReq
  restart : List LC
  deriving DecidableEq, Repr

/-- A dip (R468): when it started, the rail that crossed first, crossings, the lowest voltage, and the
stages touched. -/
structure Dip where
  start : Word
  rail  : Nat
  count : Nat
  minMv : Nat
  stages : BitVec 5
  deriving DecidableEq, Repr

/-- The Shepherd. `shadow`-free committed store by address; its flash copy; image bytes by
slot * 2 + type; the slot each type is active in and was booted from, with what the running images
state; partitions by PID; the partition each logical core
is assigned to and the parameters of its last start; when each role epoch last rose, by its register;
UNIT_RELEASE commands held for it, with their owner records (R325). -/
structure Shep where
  mbs     : SMap Mbox := []
  adminLast : Option Reply := none
  /-- channels of the commands submitted and not yet started, in the order of their GO writes or doorbells (R398) -/
  order   : List Chan := []
  stages  : SMap (Option Stage) := []
  commit  : Option Commit := none
  store   : SMap (Option Word32) := []
  cnum    : Word32 := 0
  flash   : SMap (Option Word32) := []
  flashCnum : Word32 := 0
  flashPlace : SMap (Option Nat) := []
  flashSlot : SMap (Option (BitVec 2)) := []
  flashMoves : SMap (BitVec 8) := []
  images  : SMap Flash := []
  active  : SMap Nat := []
  booted  : Option (Fin 2) := none
  mBooted : Option (Fin 2) := none
  fwVer   : Word32 := 0
  fwSvn   : BitVec 8 := 0
  mSvn    : BitVec 8 := 0
  standby : Option ShepReq := none
  standbySlot : Nat := 0
  auditDone : Bool := false
  parts   : SMap (Option Part') := []
  lcPart  : SMap (Option (BitVec 8)) := []
  lcMarks : SMap (Option Bool) := []
  starts  : SMap (Option StartP) := []
  mLc     : Option LC := none
  resets  : List PReset := []
  epochAt : SMap (Option Word) := []
  relWait : List (ShepReq × Nat) := []
  /-- control-plane rings: frames on their way, last SEQ sent to each station, broken rings A and B, resends
  of a frame by station, and the CP_READ and CP_WRITE commands under way -/
  frames  : List Frame := []
  seqs    : SMap (BitVec 16) := []
  ringA   : Bool := true
  ringB   : Bool := true
  resends : SMap Nat := []
  cpJobs  : List CpJob := []
  /-- the hold of R409 and what injection points hold -/
  hold    : Bool := false
  held    : List (Msg) := []
  /-- fault log in order of entry, window counters, CDS in progress with its cause and the station
  removed, stations held in reset, FAULT_OUT_N low, SAFE_N low, HEARTBEAT level and whether the pair
  agreed and the last audit passed -/
  log     : List FaultRec := []
  wcs     : List WinCnt := []
  cds     : Bool := false
  cause   : Nat := 0
  fenceDie : Option Die := none
  heldUnits : List Station := []
  dtUeAt  : SMap (Option Word) := []
  faultOut : Bool := true
  safeIn  : Bool := false
  heartbeat : Bool := false
  hbStop  : Bool := true
  mirFault : Bool := true
  bist    : List Nat := []
  needBist : List Nat := []
  /-- reflection: target lists by reserve, closed windows by logical core, replays, and targets due first -/
  lists   : SMap (List LC) := []
  closed  : SMap (Option Closed) := []
  replays : List Replay := []
  covered : SMap Bool := []
  first   : List (Nat × LC) := []
  /-- sets of the Shepherd's own policy that wait for their turn (R412, R433); commands answered when a domain
  restart ends, with their status -/
  due     : List Due := []
  owed    : List (ShepReq × Nat) := []
  /-- power: the dip in progress, when Shed-4 engaged, P1 by command, the POWER_STATE command of a sleep and
  the domain states before it, THERMTRIP_N low, whether reset is held, VAUX off, a wake event kept during
  entry (R476), links that went narrow for power, the last PMBus readings, and whether the flash copy of
  the store is older than the store -/
  dip     : Option Dip := none
  shed4At : Option Word := none
  quiet   : Bool := false
  sleepReq : Option ShepReq := none
  domsBefore : SMap Word32 := []
  thermtrip : Bool := false
  inReset : Bool := false
  vauxOff : Bool := false
  wakeKept : Bool := false
  narrowed : List Die := []
  pmbus : List Nat := []
  dirtyStore : Bool := false
  deriving DecidableEq, Repr

end Sys2Proof.Machine
end

