-- ==== Sys2Proof/Machine/State.lean ====
section
/-!
DEFINITION. The state of the AZ216, the reasons a command can stop, and the state after reset.
-/

namespace Sys2Proof.Machine

/-- Why the machine stops with a fault. No command of the AZ216 does: every error the manual
describes is an exception, an answer, a status code or a register bit. -/
inductive Fault where
  deriving DecidableEq, Repr

/-- Why a command has no outcome. -/
inductive Refusal where
  /-- Raised by an arm of exec whose command has no meaning yet; safe, since the machine stops. -/
  | notModelled (mnemonic : String)
  deriving DecidableEq, Repr

/-- The whole package. -/
structure State where
  /-- commands that wait, first in, first out -/
  pending : List Instr := []
  /-- the model's own count of free values used -/
  free  : Nat := 0
  /-- TB_NOW, ns (R27) -/
  tb    : Word := 0
  cores : SMap Core := []
  /-- HBM and scratch bytes by physical address -/
  mem   : SMap Byte := []
  /-- poisoned HBM lines, by line number (R218) -/
  poisLine : SMap Bool := []
  /-- poisoned scratch words, by physical address / 8 (Table CACHE-5) -/
  poisWord : SMap Bool := []
  dies  : SMap DieSt := []
  /-- duplicate tags by die * 2^17 + set * 16 + way (R176) -/
  dt    : SMap DtSec := []
  homes : SMap Home := []
  mcs   : SMap Mc := []
  mir   : Mirror := {}
  /-- Prism ports by die * 2, plus 1 at the hub -/
  ports : SMap Port := []
  /-- sideband words on their way, and the last word sent of each die and direction -/
  sideband : List SbWord := []
  sbLast : SMap (Option SbWord) := []
  /-- a laser lit anew has not reached nominal power (R262) -/
  laserWait : Bool := false
  /-- control-plane registers by address; an unlisted one holds its reset value -/
  cp    : SMap Word32 := []
  /-- messages on their way -/
  net   : List Msg := []
  /-- transactions whose answers are awaited -/
  reqs  : List Req := []
  /-- where each logical core runs, die * 20 + slot; none for a lost core (R30, R435) -/
  place : SMap (Option Nat) := []
  moves : SMap (BitVec 8) := []
  /-- the die on which a lost logical core last ran (Table MAP-3) -/
  lastDie : SMap Nat := []
  /-- DCS_FUSE_RESERVE by die (R15, R19) -/
  fuse  : SMap (BitVec 20) := []
  /-- slot states by die * 20 + slot (Table DIES-8) -/
  slotSt : SMap (Option (BitVec 2)) := []
  /-- CORE_BEAT_RATE by die * 20 + slot (Table CORE-7), beats at the window's start, and the window:
  0 the slot was reset in it, 1 the core was in WAIT, 2 neither (R48) -/
  beatRate : SMap Word := []
  beatBase : SMap Word := []
  beatSt : SMap Nat := []
  /-- the Shepherd's event queues, 0 normal and 1 secure (R400), and events discarded -/
  evq   : SMap (List EventRec) := []
  evDropped : SMap Nat := []
  /-- when each Pasture checker last queued PASTURE_DENY, by station (R319) -/
  denyAt : SMap (Option Word) := []
  /-- report frames on the control-plane rings (R254, R418) -/
  reports : List Frame := []
  /-- whether the report in a detail slot is of the CRITICAL class, by slot address -/
  slotCrit : SMap Bool := []
  /-- requests that a regulator holds, oldest first (R292) -/
  regHeld : List (RegUnit × Msg) := []
  /-- whether a shed stage of 2 or deeper is in force (R305), and the last class-0 grant in us -/
  shed2 : Bool := false
  reg0  : SMap Nat := []
  /-- serial units and GPIO (Table PKG-10) -/
  uarts : SMap Uart := []
  i2cs  : SMap I2c := []
  gpios : SMap Gpio := []
  /-- RTR_BYTES totals and flits of the running window by router * 12 + 2p + d (R494) -/
  rtrBytes : SMap (BitVec 48) := []
  rtrWin : SMap Nat := []
  /-- HI words latched by a read of the LO word, by its control-plane address (R494, R505) -/
  latchHi : SMap Word32 := []
  loupes : SMap Loupe := []
  /-- trace SRAM words by quadrant * 2^17 + word (R503) -/
  trace : SMap Word := []
  snap  : Snap := {}
  tap   : Tap := {}
  /-- ST_OFFSET, ST_STATUS.VALID, ST_ALARM, and TB_NOW at SCNT = 0 (R333, R334) -/
  stOffset : Word := 0
  stValid : Bool := false
  stAlarm : Word := 0
  /-- the alarm at ST_ALARM has been raised (R334) -/
  stAlarmed : Bool := false
  scntBase : Word := 0
  pcie : Pcie := {}
  fold : Fold := {}
  /-- AZ_DEV_STATE: READY, RESTARTING, IMAGE_ONLY (Table PCIE-9) -/
  devReady : Bool := false
  restarting : Bool := false
  imageOnly : Bool := false
  shep : Shep := {}
  deriving DecidableEq, Repr

/-- The machine right after reset: its registers at their reset values, held in reset until a boot (R483). -/
def State.reset : State := { shep := { inReset := true } }

end Sys2Proof.Machine
end

