-- ==== Sys2Proof/Machine/Ops.lean ====
section
/-!
DEFINITION. The named operations over the package: registers of a core, memory bytes, control-plane
registers, messages and transactions, regulators, interrupts, fault reports and events. Taking an
exception and returning from one stand in Trap.lean, beside the store buffer they use.
-/

namespace Sys2Proof.Machine

/-- What a command answers: every error is part of the next state. -/
abbrev Out := Host.Outcome State Fault Refusal

/-! Records of the state by number. -/

/-- A logical core. -/
def State.core (s : State) (lc : LC) : Core := SMap.get {} s.cores lc.val

/-- The state with a logical core replaced. -/
def State.setCore (s : State) (lc : LC) (c : Core) : State :=
  { s with cores := SMap.set {} s.cores lc.val c }

/-- The state with a logical core changed. -/
def State.modCore (s : State) (lc : LC) (f : Core → Core) : State := s.setCore lc (f (s.core lc))

/-- A compute die. -/
def State.die (s : State) (d : Die) : DieSt := SMap.get {} s.dies d.val

/-- The state with a die replaced. -/
def State.setDie (s : State) (d : Die) (x : DieSt) : State :=
  { s with dies := SMap.set {} s.dies d.val x }

/-- The state with a die changed. -/
def State.modDie (s : State) (d : Die) (f : DieSt → DieSt) : State := s.setDie d (f (s.die d))

/-- A home agent. -/
def State.home (s : State) (q : Quad) : Home := SMap.get {} s.homes q.val

/-- The state with a home replaced. -/
def State.setHome (s : State) (q : Quad) (x : Home) : State :=
  { s with homes := SMap.set {} s.homes q.val x }

/-- The state with a home changed. -/
def State.modHome (s : State) (q : Quad) (f : Home → Home) : State := s.setHome q (f (s.home q))

/-- A memory controller. -/
def State.mc (s : State) (q : Quad) : Mc := SMap.get {} s.mcs q.val

/-- The state with a memory controller replaced. -/
def State.setMc (s : State) (q : Quad) (x : Mc) : State :=
  { s with mcs := SMap.set {} s.mcs q.val x }

/-- The state with a memory controller changed. -/
def State.modMc (s : State) (q : Quad) (f : Mc → Mc) : State := s.setMc q (f (s.mc q))

/-! Registers of a core (Table ISA-1). g0 reads as 0 and discards writes. -/

/-- A general register. -/
def Core.getG (c : Core) (r : Reg) : Word := if r = 0 then 0 else SMap.get 0 c.g r.toNat

/-- A general register written; g0 discards the write. -/
def Core.setG (c : Core) (r : Reg) (x : Word) : Core :=
  if r = 0 then c else { c with g := SMap.set 0 c.g r.toNat x }

/-- A vector register. -/
def Core.getV (c : Core) (r : Reg) : Line := SMap.get 0 c.v r.toNat

/-- A vector register written. -/
def Core.setV (c : Core) (r : Reg) (x : Line) : Core := { c with v := SMap.set 0 c.v r.toNat x }

/-- A predicate register. -/
def Core.getP (c : Core) (r : PReg) : Word := SMap.get 0 c.p r.toNat

/-- A predicate register written. -/
def Core.setP (c : Core) (r : PReg) (x : Word) : Core := { c with p := SMap.set 0 c.p r.toNat x }

/-- cr.status.LVL: 0 U, 1 K, 2 H, 3 M (Table CORE-10). -/
def Core.level (c : Core) : Nat := field c.status 0 2

/-- cr.status.W: the secure world (Table CORE-11). -/
def Core.world (c : Core) : Bool := bit c.status 2

/-- cr.status.IE (Table CORE-11). -/
def Core.ie (c : Core) : Bool := bit c.status 3

/-- cr.part.PID (Table CORE-21). -/
def Core.pid (c : Core) : BitVec 8 := c.part.extractLsb' 0 8

/-- cr.s1base.ASID (Table CORE-19). -/
def Core.asid (c : Core) : BitVec 16 := c.s1base.extractLsb' 48 16

/-- Whether the core executes: started, not halted or let go by STEP for one instruction (R512), not in
WAIT, no access held in M. -/
def Core.ready (c : Core) : Bool :=
  c.run == .started && (c.halts.isEmpty || (c.halts == [.debug] && c.step)) && !c.inWait
    && c.access.isNone

/-- A core seen as the maker of a register access. -/
def Core.accessor (c : Core) (lc : LC) : Accessor :=
  ⟨c.status.extractLsb' 0 2, c.world, c.pid, BitVec.ofNat 8 lc.val⟩

/-! Where logical cores run (R30, R31, R435). -/

/-- DCS_FUSE_RESERVE of a die. DESIGN CHOICE: slots 3 and 16, since the pattern is free (R15). -/
def State.fuseOf (s : State) (d : Die) : BitVec 20 := SMap.get 0x10008 s.fuse d.val

/-- The `k`-th service slot of a die in ascending order (R30). -/
def serviceSlot (fuse : BitVec 20) (k : Nat) : Nat :=
  (((List.range 20).filter fun i => !fuse.getLsbD i)[k]?).getD 0

/-- Die and slot of a logical core, as die * 20 + slot; none for a lost core. -/
def State.placeOf (s : State) (lc : LC) : Option Nat :=
  let d : Die := ⟨lc.val / 18, by omega⟩
  SMap.get (some (d.val * 20 + serviceSlot (s.fuseOf d) (lc.val % 18))) s.place lc.val

/-- The die on which a logical core runs. -/
def State.dieOf (s : State) (lc : LC) : Option Die :=
  match s.placeOf lc with
  | none => none
  | some p => if h : p / 20 < 12 then some ⟨p / 20, h⟩ else none

/-- The slot in which a logical core runs. -/
def State.slotOf (s : State) (lc : LC) : Nat := ((s.placeOf lc).getD 0) % 20

/-- The state of a slot: 0 service, 1 reserve, 2 retired (Table DIES-8). -/
def State.slotState (s : State) (d : Die) (sl : Nat) : BitVec 2 :=
  (SMap.get none s.slotSt (d.val * 20 + sl)).getD (if (s.fuseOf d).getLsbD sl then 1 else 0)

/-- The logical core that runs in a slot. -/
def State.lcAt (s : State) (d : Die) (sl : Nat) : Option LC :=
  (List.finRange 216).find? fun lc => s.placeOf lc == some (d.val * 20 + sl)

/-- The logical cores that run on a die. -/
def State.lcsOf (s : State) (d : Die) : List LC :=
  (List.finRange 216).filter fun lc => s.dieOf lc == some d

/-! Free values. -/

/-- The next free value of `w` bits, and the state that has used it. -/
def State.takeFree (s : State) (w : Nat) : BitVec w × State :=
  (Config.freeBits s.free w, { s with free := s.free + 1 })

/-- The beats of a wait measured in reference time (R115), and the state that has used them. -/
def State.takeBeats (s : State) : Nat × State :=
  (Config.freeBeats s.free, { s with free := s.free + 1 })

/-! Control-plane registers, as stored (R8). -/

/-- A register's stored value. -/
def State.cpGet (s : State) (a : Nat) : Word32 := SMap.get (cpReset a) s.cp a

/-- A register's stored value replaced by the hardware. -/
def State.cpSet (s : State) (a : Nat) (v : Word32) : State :=
  { s with cp := SMap.set (cpReset a) s.cp a v }

/-- A field of a stored register. -/
def State.cpField (s : State) (a lo w : Nat) : Nat := field (s.cpGet a) lo w

/-- A field of a stored register replaced by the hardware. -/
def State.cpSetField (s : State) (a lo w x : Nat) : State :=
  s.cpSet a (setField (s.cpGet a) lo w x)

/-- A 64-bit register held as two words. -/
def State.cpGet64 (s : State) (a : Nat) : Word :=
  BitVec.ofNat 64 ((s.cpGet a).toNat + 2 ^ 32 * (s.cpGet (a + 4)).toNat)

/-- A 64-bit register replaced by the hardware. -/
def State.cpSet64 (s : State) (a : Nat) (v : Word) : State :=
  (s.cpSet a (v.truncate 32)).cpSet (a + 4) (BitVec.ofNat 32 (v.toNat / 2 ^ 32))

/-- A saturating 16-bit count in [15:0] with its flag in [16] advances by `n`. -/
def State.count16 (s : State) (a n : Nat) : State :=
  if n = 0 then s
  else (s.cpSetField a 0 16 (satAdd 0xFFFF (s.cpField a 0 16) n)).cpSetField a 16 1 1

/-- A saturating count of `w` bits at `lo` advances by `n`. -/
def State.countAt (s : State) (a lo w n : Nat) : State :=
  s.cpSetField a lo w (satAdd (2 ^ w - 1) (s.cpField a lo w) n)

/-- STN_EPOCH of a station (R245). -/
def State.epoch (s : State) (st : Station) : BitVec 6 :=
  BitVec.ofNat 6 (s.cpField (cpAddr st 0xFF004) 0 6)

/-- Reference time reaches `t`; it never runs backwards (R27). -/
def State.advance (s : State) (t : Word) : State := if s.tb < t then { s with tb := t } else s

/-! Memory bytes. -/

/-- One byte of HBM or scratch. An unlisted byte reads as 0. -/
def State.byte (s : State) (a : Nat) : Byte := SMap.get 0 s.mem a

/-- `n` bytes from address `a`, little-endian. -/
def readBytes (m : SMap Byte) : Nat → Nat → Nat
  | 0, _ => 0
  | n + 1, a => (SMap.get 0 m a).toNat + 256 * readBytes m n (a + 1)

/-- Bytes written from address `a` where the mask has a 1, lowest bit first. -/
def writeBytes (m : SMap Byte) : Nat → Nat → Nat → Nat → SMap Byte
  | 0, _, _, _ => m
  | n + 1, a, mask, v =>
    let m' := if mask % 2 = 1 then SMap.set 0 m a (BitVec.ofNat 8 v) else m
    writeBytes m' n (a + 1) (mask / 2) (v / 256)

/-- The stored line `l` (HBM cells or scratch). -/
def State.memLine (s : State) (l : Nat) : Line := BitVec.ofNat 512 (readBytes s.mem 64 (64 * l))

/-- The stored line `l` written under a byte mask. -/
def State.setMemLine (s : State) (l : Nat) (v : Line) (mask : BitVec 64) : State :=
  { s with mem := writeBytes s.mem 64 (64 * l) mask.toNat v.toNat }

/-- A byte mask of all ones. -/
def fullMask : BitVec 64 := BitVec.allOnes 64

/-! Address map (Tables MAP-1, MAP-2; R21, R24). -/

/-- What an address names (Table MAP-1). -/
def targetOf (a : Nat) : Target :=
  if a < 0x1000000000 then .hbm
  else if a < 0x1018000000 then .scratch
  else if a < 0xF000000000 then .unmapped
  else if a < 0xF100000000 then .regs
  else if a < 0x10000000000 then .unmapped
  else if a < 0x20000000000 then .host
  else .unmapped

/-- The quadrant that owns an HBM address (R21). -/
def quadOf (a : Nat) : Quad := ⟨(a / 2 ^ 34) % 4, by omega⟩

/-- The die whose scratch window holds an address (R24). -/
def scratchDie (a : Nat) : Die := ⟨((a - 0x1000000000) / 2 ^ 25) % 12, by omega⟩

/-- The die-cache way that a scratch offset selects (R24). -/
def scratchWay (a : Nat) : Nat := (a / 2 ^ 21) % 16

/-- Committed DC_WAY_MODE of a die: SCRATCH in [11:0], REFL in [12] (Table CACHE-15). -/
def State.wayMode (s : State) (d : Die) : Word32 := s.cpGet (cpAddr (dcsStation d) 0x100)

/-- Whether a scratch address reaches the array (R24). -/
def State.scratchOk (s : State) (a : Nat) : Bool :=
  scratchWay a < 12 && bit (s.wayMode (scratchDie a)) (scratchWay a)

/-! Fault reports and events (R400, R418, R419). -/

/-- The next free value of `w` bits where a value is not stated. -/
def State.orFree (s : State) (w : Nat) : Option Nat → BitVec w × State
  | some v => (BitVec.ofNat w v, s)
  | none => s.takeFree w

/-- A station reports a fault: the detail slot is filled and a REPORT sent, or MERGED advances while
the slot is full (R418, R419, Tables SAFE-1 and SAFE-2). Details whose layout is not given are free
values; `crit` tells the collector a CRITICAL class (R219). -/
def State.report (s : State) (st : Station) (cls : Nat) (source : Nat) (loc : Nat := 0)
    (d0 : Option Nat := none) (d1 : Option Nat := none) (crit : Bool := false) : State :=
  let a := cpAddr st (0xF8000 + 32 * cls)
  if s.cpField a 31 1 = 1 then s.countAt a 16 8 1
  else
    let (x0, s) := s.orFree 64 d0
    let (x1, s) := s.orFree 32 d1
    let s := s.cpSet a (BitVec.ofNat 32 (source % 4096 + 2 ^ 31))
    let s := s.cpSet64 (a + 4) (BitVec.ofNat 64 loc)
    let s := s.cpSet64 (a + 12) x0
    let s := s.cpSet (a + 20) x1
    let s := s.cpSet64 (a + 24) s.tb
    let w := BitVec.ofNat 32 (2 ^ 28 + st.toNat * 2 ^ 16 + cls * 2 ^ 8)
    { s with reports := s.reports ++ [{ op := 0xB, data := w }]
             slotCrit := SMap.set false s.slotCrit a crit }

/-- A logical core halts for a reason. -/
def State.halt (s : State) (lc : LC) (h : Halt) : State :=
  s.modCore lc fun c => if c.halts.contains h then c else { c with halts := c.halts ++ [h] }

/-- INTD_OWNER_i of a die (Table INT-8). -/
def State.intdOwner (s : State) (d : Die) (i : Nat) : Word32 :=
  s.cpGet (cpAddr (intdStation d) (0x2000 + 4 * i))

/-- Whether an injection point holds a message during a commit hold (R409). -/
def holdKind : MsgKind → Bool
  | .rdShared | .rdUnique | .rdOnce | .wrUnique | .upgrade | .atomicAtHome | .cmo
  | .scrRd | .scrWr | .devRd | .devWr | .hostRd | .hostWr | .intMsg | .tlbBcast => true
  | _ => false

/-- Whether a station is a core slot that its die's crossbar fences (R257). -/
def State.slotFenced (s : State) (st : Station) : Bool :=
  match dieOfStation st, unitKind st with
  | some d, some (.slot k) => bit (s.cpGet (cpAddr (dcsStation d) 0x130)) k
  | _, _ => false

/-- The receiving ports of the Prism links between two stations, in the order in which a message passes them
(R229). -/
def crossings (src dest : Station) : List PortId :=
  if dieOfStation src = dieOfStation dest then []
  else ((dieOfStation src).map fun d => (⟨d, true⟩ : PortId)).toList
    ++ ((dieOfStation dest).map fun d => (⟨d, false⟩ : PortId)).toList

/-- A message as it enters the fabric at its source. -/
def routed (m : Msg) : Msg := { m.sealed with cross := crossings m.src m.dest }

/-- A message is put on the fabric. -/
def State.put (s : State) (m : Msg) : State := { s with net := s.net ++ [routed m] }

/-- A message is put on the fabric, or held at its injection point during a commit hold (R409). A crossbar
accepts none from a fenced slot (R257). -/
def State.send (s : State) (m : Msg) : State :=
  if s.slotFenced m.src then s
  else if s.shep.hold && holdKind m.kind then
    { s with shep := { s.shep with held := s.shep.held ++ [m.sealed] } }
  else s.put m

/-- A free TXID below `n` at a station. -/
def State.freeTxid (s : State) (st : Station) (n : Nat) : Option Nat :=
  (List.range n).find? fun t =>
    !s.reqs.any fun r => r.msg.src == st && r.msg.txid == BitVec.ofNat 14 t

/-- An interrupt message goes out under a TXID and a buffer of its own, which its IntAck frees (R237, R246). -/
def State.sendInt (s : State) (m : Msg) (p : Purpose) : State :=
  let m := { m with kind := .intMsg, txid := BitVec.ofNat 14 ((s.freeTxid m.src 256).getD 255) }
  ({ s with reqs := s.reqs ++ [({ msg := m, purpose := p } : Req)] } : State).send m

/-- The role epoch of the unit behind a hub source at a station: the unit's own at the Shepherd
(R321, Table WLD-6), the station's elsewhere. -/
def State.hubEpoch (s : State) (st : Station) (i : Nat) : BitVec 6 :=
  let u := if i = 56 then some 36 else if 57 ≤ i && i ≤ 60 then some (i - 57)
    else if 64 ≤ i && i ≤ 95 then some (i - 60) else none
  match u with
  | some u => if st = shepStation then
      BitVec.ofNat 6 (s.cpField (cpAddr shepStation (0x50000 + 4 * u)) 12 6) else s.epoch st
  | none => s.epoch st

/-- A hub unit raises its source `i`: an interrupt message to the die that the source is assigned to
(R116, R127, R130). -/
def State.raiseHub (s : State) (st : Station) (i : Nat) : State :=
  match (List.finRange 12).find? fun d => bit (s.intdOwner d i) 10 with
  | none => s
  | some d => s.sendInt { kind := .intMsg, dest := intdStation d, src := st, s := true,
                          addr := BitVec.ofNat 48 i, epoch := s.hubEpoch st i } .interrupt

/-- An event enters a world's queue; a full queue discards it and counts it in the next record's
DROPPED. SHEP_NOTICE is raised for the world that INTD_OWNER_42 names (R400). -/
def State.event (s : State) (world : Bool) (e : EventRec) : State :=
  let k := b2n world
  let q := SMap.get [] s.evq k
  if q.length ≥ 256 then
    { s with evDropped := SMap.set 0 s.evDropped k (satAdd 255 (SMap.get 0 s.evDropped k) 1) }
  else
    let e := { e with time := s.tb, dropped := BitVec.ofNat 8 (SMap.get 0 s.evDropped k) }
    let s := { s with evq := SMap.set [] s.evq k (q ++ [e]),
                      evDropped := SMap.set 0 s.evDropped k 0 }
    match (List.finRange 12).find? fun d => bit (s.intdOwner d 42) 10 with
    | none => s
    | some d =>
      if bit (s.intdOwner d 42) 9 = world then s.raiseHub shepStation 42 else s

/-- An event for both worlds (Table CMD-7). -/
def State.eventBoth (s : State) (e : EventRec) : State := (s.event true e).event false e

/-! Shared interrupt sources (R117). -/

/-- Reset trigger of a shared source: UART and I2C sources are level sources (Table INT-1). -/
def IntSrc.reset (i : Nat) : IntSrc := { level := 57 ≤ i && i ≤ 60 }

/-- A shared source of a distributor. -/
def Intd.src (x : Intd) (i : Nat) : IntSrc := SMap.get (IntSrc.reset i) x.srcs i

/-- A distributor with a source changed. -/
def Intd.modSrc (x : Intd) (i : Nat) (f : IntSrc → IntSrc) : Intd :=
  { x with srcs := SMap.set (IntSrc.reset i) x.srcs i (f (x.src i)) }

/-- Whether a shared ID exists (Table INT-1). -/
def sharedId (i : Nat) : Bool :=
  (32 ≤ i && i ≤ 34) || (40 ≤ i && i ≤ 43) || (48 ≤ i && i ≤ 60) || (64 ≤ i && i ≤ 95)
    || (128 ≤ i && i < 1024)

/-- Whether an ID is a hub source (Table INT-1). -/
def hubId (i : Nat) : Bool := 40 ≤ i && i ≤ 95 && sharedId i

/-- A UART. -/
def State.uart (s : State) (u : Nat) : Uart := SMap.get {} s.uarts u

/-- The level of a UART's interrupt line: RXIE with bytes waiting, TXIE with eight entries free. -/
def Uart.line (x : Uart) : Bool :=
  (bit x.ctl 17 && !x.rx.isEmpty) || (bit x.ctl 18 && x.tx.length ≤ 8)

/-- An I2C controller. -/
def State.i2c (s : State) (i : Nat) : I2c := SMap.get {} s.i2cs i

/-- A GPIO. -/
def State.gpio (s : State) (g : Nat) : Gpio := SMap.get {} s.gpios g

/-- The line of a hub source that can be a level source: a UART's, an I2C controller's while DONE and IE
are 1, a GPIO's pin under POL (Tables INT-1 and PKG-10). -/
def State.hubLevel (s : State) (i : Nat) : Bool :=
  if i = 57 || i = 58 then (s.uart (i - 57)).line
  else if i = 59 || i = 60 then bit (s.i2c (i - 59)).ctl 13 && (s.i2c (i - 59)).done
  else if 64 ≤ i && i ≤ 95 then (s.gpio (i - 64)).pin != (s.gpio (i - 64)).pol
  else false

/-- Whether a shared source is pending on a die: an edge source once latched, a level source exactly while
its line is asserted, a hub source only on the die of its assignment (R116, R117). -/
def State.srcPending (s : State) (d : Die) (i : Nat) : Bool :=
  let r := (s.die d).intd.src i
  (!hubId i || bit (s.intdOwner d i) 10) && if r.level then s.hubLevel i else r.pend

/-- The state with a source of a die changed. -/
def State.modSrc (s : State) (d : Die) (i : Nat) (f : IntSrc → IntSrc) : State :=
  s.modDie d fun x => { x with intd := x.intd.modSrc i f }

/-- An assertion of an edge source of a die (R117). -/
def State.assertDie (s : State) (d : Die) (i : Nat) : State :=
  s.modSrc d i fun x => { x with pend := x.pend || !x.level }

/-! Messages and transactions. -/

/-- A message reaches its station and leaves the fabric. -/
def State.recv (s : State) (m : Msg) : State := { s with net := s.net.erase m.bare }

/-- The transaction that an answer closes (R174, R247). -/
def State.findReq (s : State) (m : Msg) : Option Req :=
  s.reqs.find? fun r => r.msg.src == m.dest && r.msg.txid == m.txid && r.msg.epoch == m.epoch

/-- A transaction ends and its TXID is free. -/
def State.endReq (s : State) (r : Req) : State := { s with reqs := s.reqs.erase r }

/-- The epoch that a station compares with an answer: its own, and for the Fold that of the queue
group that opened the transaction or sent the interrupt message (R245, R247). -/
def State.epochFor (s : State) (m : Msg) : BitVec 6 :=
  let group := fun (f : Nat) =>
    BitVec.ofNat 6 (s.cpField (cpAddr foldStation (0x80000 + 4 * (f % 2048))) 12 6)
  if m.dest = foldStation then
    match s.reqs.find? fun r => r.msg.src == m.dest && r.msg.txid == m.txid with
    | some { purpose := .unit f, .. } => group f
    | some { purpose := .notice f, .. } => group f
    | _ => s.epoch m.dest
  else if m.kind = .intAck then s.hubEpoch m.dest (m.addr.toNat % 1024)
  else s.epoch m.dest

/-- Whether an answer carries another epoch than its station's (R247). -/
def State.stale (s : State) (m : Msg) : Bool :=
  m.kind.isAnswer && m.epoch != s.epochFor m

/-- A stale answer is dropped: its TXID and buffer are freed, the drop is counted, RoleGone is sent
(R247, R248). -/
def State.dropStale (s : State) (m : Msg) : State :=
  let s := match s.findReq m with
    | some r => s.endReq r
    | none => s
  let s := if m.dest = foldStation then
      { s with fold := { s.fold with ops := SMap.set none s.fold.ops m.txid.toNat none } }
    else s
  let s := s.count16 (cpAddr m.dest 0xFF008) 1
  let s := s.countAt (cpAddr m.dest 0xFF00C) 0 16 1
  s.send { kind := .roleGone, dest := m.src, src := m.dest, txid := m.txid, epoch := m.epoch,
           addr := m.addr, prio := m.prio }

/-- An answer to a message: source and destination swap, TXID, EPOCH and PRIO are copied (R240,
R246). -/
def replyTo (m : Msg) (k : MsgKind) : Msg :=
  { kind := k, dest := m.src, src := m.dest, txid := m.txid, epoch := m.epoch, prio := m.prio,
    addr := m.addr, s := m.s, pid := m.pid }

/-! Performance monitor (R488, R489). -/

/-- PMU_EVSEL_i. -/
def Pmu.sel (p : Pmu) (i : Nat) : BitVec 17 := SMap.get 0 p.evsel i

/-- PMU_EVSEL_i.CHAIN, which only an odd counter has (Table OBS-2). -/
def Pmu.chained (p : Pmu) (i : Nat) : Bool := i % 2 = 1 && bit (p.sel i) 16

/-- A counter advances; an overflow goes to the chained neighbour or to PMU_OVF (R489). -/
def Pmu.bump (p : Pmu) (i n : Nat) : Pmu :=
  let x := (SMap.get 0 p.cnt i).toNat + n
  let p := { p with cnt := SMap.set 0 p.cnt i (BitVec.ofNat 48 x) }
  if x < 2 ^ 48 then p
  else if i % 2 = 0 && p.chained (i + 1) then
    let y := (SMap.get 0 p.cnt (i + 1)).toNat + 1
    let p := { p with cnt := SMap.set 0 p.cnt (i + 1) (BitVec.ofNat 48 y) }
    if y < 2 ^ 48 then p else { p with ovf := setBit p.ovf (i + 1) true }
  else { p with ovf := setBit p.ovf i true }

/-- An event occurs `n` times: each counter that selects it at the core's level and world counts it
(R488, R489). -/
def Core.count (c : Core) (ev n : Nat) : Core :=
  if n = 0 || !c.pmu.en then c
  else
    { c with pmu := (List.range 8).foldl (fun p i =>
        let e := p.sel i
        if field e 0 10 = ev && bit e (10 + c.level) && bit e (if c.world then 14 else 15)
            && !p.chained i then p.bump i n else p) c.pmu }

/-! Regulators (R288 to R294, R305). -/

/-- Control-plane address of a unit's REG_RCFG (Table REG-1); none for a lost core. -/
def State.regAddr (s : State) : RegUnit → Option Nat
  | .core lc => match s.dieOf lc with
    | none => none
    | some d => some (cpAddr (dcsStation d) (0x200 + 8 * s.slotOf lc))
  | .ce c => some (cpAddr (ceStation c.val) 0x200)
  | .fold => some (cpAddr foldStation 0x200)
  | .func f => some (cpAddr portAStation (0x10000 + 8 * f.val))

/-- Whether a message kind is charged to a regulator (R290). -/
def chargedKind : MsgKind → Bool
  | .rdShared | .rdUnique | .rdOnce | .wrUnique | .upgrade | .atomicAtHome | .cmo
  | .evict | .writeBack | .scrRd | .scrWr | .hostRd | .hostWr => true
  | _ => false

/-- The key under which a regulator's last class-0 admission is kept: it travels with a logical core
(R288, R305). -/
def reg0Key (u : RegUnit) (a : Nat) : Nat :=
  match u with
  | .core lc => lc.val
  | _ => a

/-- Whether a regulator admits a request of a class at once (R291, R305). -/
def State.admits (s : State) (u : RegUnit) (a cls : Nat) : Bool :=
  let budget := s.cpField a 0 18
  let used := s.cpField (a + 4) 0 18
  if s.shed2 && cls = 0 then
    if budget = 0 then SMap.get 0 s.reg0 (reg0Key u a) ≠ s.tb.toNat / 1000 + 1
    else used < budget / 4
  else budget = 0 || used < budget

/-- Whether a regulator holds a request that a new one must not pass (R292): of class 0 alone where shed stage 2
holds back only that class (R305). -/
def State.heldAhead (s : State) (u : RegUnit) (m : Msg) : Bool :=
  s.regHeld.any fun h => h.1 == u && (h.2.tclass ≠ 0 || m.tclass = 0)

/-- A request admitted by a regulator is charged and goes out. -/
def State.letThrough (s : State) (u : RegUnit) (a : Nat) (m : Msg) : State :=
  let s := s.countAt (a + 4) 0 18 1
  let s := if s.shed2 && m.tclass = 0 then
      { s with reg0 := SMap.set 0 s.reg0 (reg0Key u a) (s.tb.toNat / 1000 + 1) }
    else s
  s.send m

/-- A request is charged and goes out, or is held (R290 to R292, R305). -/
def State.inject (s : State) (u : RegUnit) (m : Msg) : State :=
  if !chargedKind m.kind then s.send m
  else
    match s.regAddr u with
    | none => s.send m
    | some a =>
      let never := m.kind == .evict || m.kind == .writeBack
      if never || (s.admits u a m.tclass.toNat && !s.heldAhead u m) then s.letThrough u a m
      else { s.cpSetField (a + 4) 18 1 1 with regHeld := s.regHeld ++ [(u, m)] }

/-- The beats for which a request of a core was held are counted (event 0x025 of Table OBS-1): how many beats
pass between two times the spec leaves open, a free value. -/
def State.heldBeats (s : State) (u : RegUnit) : State :=
  match u with
  | .core lc =>
    let (b, s) := s.takeBeats
    if (s.core lc).halts.contains .debug then s else s.modCore lc fun c => c.count 0x025 b
  | _ => s

/-- Held requests of a regulator are admitted in order while it admits them (R292); behind one of class 0 that shed
stage 2 holds back, those of other classes go on (R305). -/
def State.admitHeld (u : RegUnit) (a : Nat) : List (RegUnit × Msg) → State → State
  | [], s => s
  | (v, m) :: rest, s =>
    if v ≠ u then State.admitHeld u a rest s
    else if s.admits u a m.tclass.toNat then
      State.admitHeld u a rest ((({ s with regHeld := s.regHeld.erase (v, m) } : State).heldBeats u).letThrough u a m)
    else if s.shed2 && m.tclass = 0 then State.admitHeld u a rest s
    else s

/-- Held requests of every regulator go on where a change of its budget or of the shed stages admits them. -/
def State.admitAll (s : State) : State :=
  (s.regHeld.map (·.1)).eraseDups.foldl (fun s u => match s.regAddr u with
    | some a => State.admitHeld u a s.regHeld s
    | none => s) s

/-- REG_CLASS_t (Table REG-6). -/
def State.regClass (s : State) (t : Nat) : Word32 :=
  s.cpGet (cpAddr shepStation (0x60100 + 4 * t))

/-- The class that a partition's request carries on a die: the one asked for where the partition may use it,
else the partition's default (R294). -/
def State.classOf (s : State) (d : Die) (pid : BitVec 8) (want : BitVec 4) : BitVec 4 :=
  let r := s.cpGet (cpAddr (dcsStation d) (0x400 + 4 * pid.toNat))
  if bit r want.toNat then want else r.extractLsb' 16 4

/-- TCLASS of a core's request on a die (R294): cr.tclass where the partition may use it, else the
partition's default; the substitution is counted. -/
def State.classFor (s : State) (d : Die) (pid : BitVec 8) (want : BitVec 4) : BitVec 4 × State :=
  let r := s.cpGet (cpAddr (dcsStation d) (0x400 + 4 * pid.toNat))
  (s.classOf d pid want,
    if bit r want.toNat then s else s.count16 (cpAddr (dcsStation d) 0x800) 1)

/-- VC and PRIO of a request by its class (R240, R295). -/
def State.classed (s : State) (m : Msg) : Msg :=
  let c := s.regClass m.tclass.toNat
  { m with hi := bit c 5, prio := c.extractLsb' 6 2 }

/-! Pastures (R314 to R319). -/

/-- Region `r` of a checker as VALID, BASE, LIMIT, control word and PIDs (Table WLD-4). -/
def State.regionMatches (s : State) (st : Station) (r gran : Nat) : Bool :=
  let a := cpAddr st (0x1000 + 16 * r)
  s.cpField a 0 1 = 1 && (s.cpGet (a + 8)).toNat ≤ gran && gran ≤ (s.cpGet (a + 12)).toNat

/-- Permissions that a check can ask for (Table WLD-2). -/
inductive Perm where
  | r | w | x
  deriving DecidableEq, Repr

/-- Whether a region passes a world, a partition and a permission (R315). -/
def State.regionPasses (s : State) (st : Station) (r : Nat) (world : Bool) (pid : BitVec 8)
    (p : Perm) : Bool :=
  let a := cpAddr st (0x1000 + 16 * r)
  let c := s.cpGet a
  let ids := s.cpGet (a + 4)
  bit c (if world then 4 else 5)
    && (bit c 6 || (List.range 4).any fun i => bit c (12 + i) && ids.extractLsb' (8 * i) 8 == pid)
    && bit c (match p with | .r => 1 | .w => 2 | .x => 3)

/-- The first region of a checker that matches an address. -/
def State.regionAt (s : State) (st : Station) (n a : Nat) : Option Nat :=
  (List.range n).find? fun r => s.regionMatches st r (a / 4096)

/-- Whether a checker passes an access (R315): exactly one region matches and it passes. -/
def State.pasture (s : State) (st : Station) (n a : Nat) (world : Bool) (pid : BitVec 8)
    (p : Perm) : Bool :=
  ((List.range n).filter fun r => s.regionMatches st r (a / 4096)).length = 1 &&
  match s.regionAt st n a with
  | none => false
  | some r => s.regionPasses st r world pid p

/-- A refusal is counted, the first is logged, and an event is queued when the count leaves 0
(R319, Table WLD-5). -/
def State.pastureDeny (s : State) (st : Station) (n a : Nat) (world : Bool) (pid : BitVec 8)
    (p : Perm) (src : Station) : State :=
  let k := cpAddr st 0x1804
  let first := s.cpField k 0 16 = 0
  let s := s.count16 k 1
  let log := cpAddr st 0x180C
  let s := if s.cpField log 24 1 = 1 then s
    else
      let s := s.cpSet (cpAddr st 0x1808) (BitVec.ofNat 32 (a / 4096))
      s.cpSet log (BitVec.ofNat 32 (src.toNat + pid.toNat * 2 ^ 12 + b2n world * 2 ^ 20
        + (match p with | .r => 0 | .w => 1 | .x => 2) * 2 ^ 21
        + b2n (s.regionAt st n a).isNone * 2 ^ 23 + 2 ^ 24))
  let recent := match SMap.get none s.denyAt st.toNat with
    | some t => s.tb.toNat < t.toNat + 1000000
    | none => false
  if first && !recent then
    ({ s with denyAt := SMap.set none s.denyAt st.toNat (some s.tb) } : State).event true
      { code := 0x0010, arg := BitVec.ofNat 32 st.toNat }
  else s

/-- The regions of an HBM checker as the running commit leaves them (R318). -/
def State.regionsAfter (s : State) (st : Station) : State :=
  match s.shep.commit with
  | none => s
  | some c => (c.entries.filter fun e => e.1 / 2 ^ 20 = st.toNat && 0x1000 ≤ e.1 % 2 ^ 20
      && e.1 % 2 ^ 20 < 0x1200).foldl (fun s e => s.cpSet e.1 e.2) s

/-- Whether a request passes a checker: a home asks the regions of the committed configuration and, while a
commit runs, those it leaves too (R318). -/
def State.passes (s : State) (st : Station) (n a : Nat) (world : Bool) (pid : BitVec 8) (p : Perm) :
    Bool :=
  s.pasture st n a world pid p &&
    (targetOf a ≠ .hbm || n ≠ 32 || (s.regionsAfter st).pasture st n a world pid p)

/-- A check with its side effect: whether it passes, and the state with a refusal recorded. -/
def State.checkPasture (s : State) (st : Station) (n a : Nat) (world : Bool) (pid : BitVec 8)
    (p : Perm) (src : Station) : Bool × State :=
  if st = mirrorStation then (true, s)
  else if src = shepStation || src = mirrorStation then (true, s)
  else if s.passes st n a world pid p then (true, s)
  else (false, s.pastureDeny st n a world pid p src)

/-- Whether an attribute bit is set in the region that holds an address: 7 CRITICAL, 8 MIRROR
(R316). -/
def State.regionAttr (s : State) (st : Station) (n a i : Nat) : Bool :=
  match s.regionAt st n a with
  | none => false
  | some r => s.cpField (cpAddr st (0x1000 + 16 * r)) i 1 = 1

/-! Partitions (R312, R433, R466). -/

/-- World of an existing partition (R312). -/
def State.pidWorld (s : State) (p : Nat) : Option Bool := (SMap.get none s.shep.parts p).map (·.world)

/-- Partitions that a region names in slots that are in force. -/
def State.regionPids (s : State) (a : Nat) : List Nat :=
  let c := s.cpGet a
  let ids := s.cpGet (a + 4)
  (List.range 4).filterMap fun i => if bit c (12 + i) then some (field ids (8 * i) 8) else none

/-- Whether a critical region admits a partition with W (R433, R466). -/
def State.critical (s : State) (p : Nat) : Bool :=
  let at' := fun (st : Station) (r : Nat) =>
    let a := cpAddr st (0x1000 + 16 * r)
    let c := s.cpGet a
    bit c 0 && bit c 2 && bit c 7 &&
      ((s.regionPids a).contains p
        || (bit c 6 && (s.pidWorld p).any fun w => bit c (if w then 4 else 5)))
  (List.finRange 4).any (fun q => (List.range 32).any fun r => at' (mcStation q) r)
    || (List.finRange 12).any fun d => (List.range 16).any fun r => at' (dcsStation d) r

/-- Whether a logical core runs a non-critical partition (Table PWR-2). -/
def State.nonCritical (s : State) (lc : LC) : Bool :=
  match SMap.get none s.shep.lcPart lc.val with
  | some p => !s.critical p.toNat
  | none => false

/-- Whether V of a core accepts no dispatch: Shed-2 is in force and the core runs a non-critical
partition. -/
def State.vStopped (s : State) (lc : LC) : Bool :=
  s.cpField (cpAddr shepStation 0x80000) 9 1 = 1 && s.nonCritical lc

end Sys2Proof.Machine
end

