-- ==== Sys2Proof/Machine/Cache.lean ====
section
/-!
DEFINITION. The caches of a die: pseudo-LRU choice (R146), L1 lines (R139 to R142), die-cache
sectors (R143 to R148), the eviction buffer (R187, R189), and the requests that a bank sends.
-/

namespace Sys2Proof.Machine

/-! Pseudo-LRU trees. Node 1 is the root; node n has children 2n and 2n + 1; a bit of 0 points to
the lower half. -/

/-- The way that the walk from a node reaches among `2 ^ depth` ways from `base` (R146). -/
def plruPick (bits : Nat) (elig : Nat → Bool) : Nat → Nat → Nat → Nat
  | 0, _, base => base
  | d + 1, node, base =>
    let half := 2 ^ d
    let lo := (List.range half).any fun i => elig (base + i)
    let hi := (List.range half).any fun i => elig (base + half + i)
    if (!bits.testBit node && lo) || !hi then plruPick bits elig d (2 * node) base
    else plruPick bits elig d (2 * node + 1) (base + half)

/-- The bits after a hit or a fill of a way: every node on its path points away (R146). -/
def plruTouch (way : Nat) : Nat → Nat → Nat → Nat
  | 0, _, bits => bits
  | d + 1, node, bits =>
    let right := way / 2 ^ d % 2 = 1
    let cleared := if bits.testBit node then bits - 2 ^ node else bits
    let bits := if right then cleared else cleared + 2 ^ node
    plruTouch way d (2 * node + (if right then 1 else 0)) bits

/-! L1 lines. -/

/-- The way of an L1 that holds a line. -/
def L1.wayOf (x : L1) (line : Nat) : Option Nat :=
  (List.range 4).find? fun w =>
    match SMap.get none x.ways (line % 128 * 4 + w) with
    | some l => l.line == line
    | none => false

/-- The line an L1 holds. -/
def L1.find (x : L1) (line : Nat) : Option L1Line :=
  match x.wayOf line with
  | some w => SMap.get none x.ways (line % 128 * 4 + w)
  | none => none

/-- A hit points the tree away from the way. -/
def L1.touch (x : L1) (line w : Nat) : L1 :=
  let k := line % 128
  { x with plru := SMap.set 0 x.plru k (plruTouch w 2 1 (SMap.get 0 x.plru k)) }

/-- A line written into a way. -/
def L1.put (x : L1) (line w : Nat) (v : Option L1Line) : L1 :=
  { x with ways := SMap.set none x.ways (line % 128 * 4 + w) v }

/-- The way that a fill takes: an invalid way first, else by the tree (Table CACHE-1). -/
def L1.victim (x : L1) (line : Nat) : Nat :=
  let k := line % 128
  match (List.range 4).find? fun w => (SMap.get none x.ways (k * 4 + w)).isNone with
  | some w => w
  | none => plruPick (SMap.get 0 x.plru k) (fun _ => true) 2 1 0

/-- A line filled or changed in state, and the line it displaced. -/
def L1.fill (x : L1) (l : L1Line) : L1 × Option L1Line :=
  match x.wayOf l.line with
  | some w => ((x.put l.line w (some l)).touch l.line w, none)
  | none =>
    let w := x.victim l.line
    let old := SMap.get none x.ways (l.line % 128 * 4 + w)
    ((x.put l.line w (some l)).touch l.line w, old)

/-- An L1 without a line. -/
def L1.drop (x : L1) (line : Nat) : L1 :=
  match x.wayOf line with
  | some w => x.put line w none
  | none => x

/-! Die-cache sectors. The set of a line is PA[20:8], its sub-block PA[7:6] (Table CACHE-3). -/

/-- Set number of a line. -/
def dcSet (line : Nat) : Nat := line / 4 % 8192

/-- A way of a set. -/
def DieSt.sec (x : DieSt) (set w : Nat) : Sector := SMap.get {} x.secs (set * 16 + w)

/-- A way of a set replaced. -/
def DieSt.setSec (x : DieSt) (set w : Nat) (v : Sector) : DieSt :=
  { x with secs := SMap.set {} x.secs (set * 16 + w) v }

/-- The way whose tag is that of a line. -/
def DieSt.wayOf (x : DieSt) (line : Nat) : Option Nat :=
  (List.range 16).find? fun w => (x.sec (dcSet line) w).tag == some (line / 4)

/-- A sub-block of a sector. -/
def Sector.sub (x : Sector) (b : Nat) : Sub := SMap.get {} x.subs b

/-- A sub-block of a sector replaced. -/
def Sector.setSub (x : Sector) (b : Nat) (v : Sub) : Sector :=
  { x with subs := SMap.set {} x.subs b v }

/-- The sub-block of a line, invalid where no tag matches. -/
def DieSt.sub (x : DieSt) (line : Nat) : Sub :=
  match x.wayOf line with
  | some w => (x.sec (dcSet line) w).sub (line % 4)
  | none => {}

/-- The sub-block of a line changed, where a tag matches. -/
def DieSt.modSub (x : DieSt) (line : Nat) (f : Sub → Sub) : DieSt :=
  match x.wayOf line with
  | some w =>
    let se := x.sec (dcSet line) w
    x.setSec (dcSet line) w (se.setSub (line % 4) (f (se.sub (line % 4))))
  | none => x

/-- A hit or a fill points the set's tree away from a way (R146). -/
def DieSt.touch (x : DieSt) (line w : Nat) : DieSt :=
  let k := dcSet line
  { x with plru := SMap.set 0 x.plru k (plruTouch w 4 1 (SMap.get 0 x.plru k)) }

/-- A way that is neither a scratch way nor the log way (R146, R154). -/
def cacheableWay (mode : Word32) (w : Nat) : Bool :=
  if w < 12 then !bit mode w else w ≠ 15 || !bit mode 12

/-- LOCK_LIMIT of a way mode (R147). -/
def lockLimit (mode : Word32) : Nat :=
  min 4 (((List.range 16).filter (cacheableWay mode)).length - 1)

/-- Locked sectors of a set. -/
def DieSt.lockedIn (x : DieSt) (set : Nat) : Nat :=
  ((List.range 16).filter fun w => (x.sec set w).lock).length

/-- The slots marked in a holder record. -/
def slotsOf (m : BitVec 20) : List Nat := (List.range 20).filter fun i => m.getLsbD i

/-- A core's L1D copy of a line is dropped. -/
def State.dropL1d (s : State) (d : Die) (sl line : Nat) : State :=
  match s.lcAt d sl with
  | some lc => s.modCore lc fun c => { c with l1d := c.l1d.drop line }
  | none => s

/-- An L1I invalidation is delivered to a core; the core applies it later (R42, R141). -/
def State.deliverL1i (s : State) (d : Die) (sl line : Nat) : State :=
  match s.lcAt d sl with
  | some lc => s.modCore lc fun c => { c with l1iPend := c.l1iPend ++ [line] }
  | none => s

/-- Every L1 copy of a line on a die but those of slot `keep` is invalidated (R141). -/
def State.invalL1 (s : State) (d : Die) (line : Nat) (keep : Option Nat) : State :=
  let u := (s.die d).sub line
  let ds := (slotsOf u.l1d).filter fun i => some i ≠ keep
  let is := (slotsOf u.l1i).filter fun i => some i ≠ keep
  let s := ds.foldl (fun s i => s.dropL1d d i line) s
  let s := is.foldl (fun s i => s.deliverL1i d i line) s
  let mask : BitVec 20 := match keep with
    | some i => BitVec.ofNat 20 (2 ^ i)
    | none => 0
  s.modDie d fun x => x.modSub line fun u => { u with l1d := u.l1d &&& mask, l1i := u.l1i &&& mask }

/-- Every other core's writable L1D copy becomes shared (R140, R142). -/
def State.shareL1 (s : State) (d : Die) (line : Nat) (keep : Option Nat) : State :=
  let u := (s.die d).sub line
  ((slotsOf u.l1d).filter fun i => some i ≠ keep).foldl (fun s i =>
    match s.lcAt d i with
    | some lc => s.modCore lc fun c =>
        match c.l1d.wayOf line, c.l1d.find line with
        | some w, some l => { c with l1d := c.l1d.put line w (some { l with st := .s }) }
        | _, _ => c
    | none => s) s

/-- Whether another core of the die holds a line in L1D in E or M (Table CACHE-2). -/
def State.otherOwns (s : State) (d : Die) (line sl : Nat) : Bool :=
  (slotsOf ((s.die d).sub line).l1d).any fun i => i ≠ sl &&
    match s.lcAt d i with
    | some lc => match (s.core lc).l1d.find line with
      | some l => l.st == .e || l.st == .m
      | none => false
    | none => false

/-- A line enters a core's L1D; the line it displaces loses the core's holder bit. -/
def State.fillL1d (s : State) (d : Die) (lc : LC) (l : L1Line) : State :=
  let sl := s.slotOf lc
  let (x, old) := (s.core lc).l1d.fill l
  let s := s.modCore lc fun c => { c with l1d := x }
  let s := match old with
    | some o => s.modDie d fun x => x.modSub o.line fun u =>
        { u with l1d := u.l1d &&& ~~~(BitVec.ofNat 20 (2 ^ sl)) }
    | none => s
  s.modDie d fun x => x.modSub l.line fun u => { u with l1d := u.l1d ||| BitVec.ofNat 20 (2 ^ sl) }

/-- A line enters a core's L1I (R139). -/
def State.fillL1i (s : State) (d : Die) (lc : LC) (l : L1Line) : State :=
  let sl := s.slotOf lc
  let (x, old) := (s.core lc).l1i.fill l
  let s := s.modCore lc fun c => { c with l1i := x }
  let s := match old with
    | some o => s.modDie d fun x => x.modSub o.line fun u =>
        { u with l1i := u.l1i &&& ~~~(BitVec.ofNat 20 (2 ^ sl)) }
    | none => s
  s.modDie d fun x => x.modSub l.line fun u => { u with l1i := u.l1i ||| BitVec.ofNat 20 (2 ^ sl) }

/-- Home station of a line. -/
def homeOfLine (line : Nat) : Station := homeStation (quadOf (64 * line))

/-- The bank of a die that serves a line: PA[11:8]. -/
def bankOf (d : Die) (line : Nat) : Station := bankStation d (line / 4)

/-- Entry `e` of the eviction buffer is taken, and the peak follows the use (R198). -/
def DieSt.putEv (x : DieSt) (e : Nat) (v : EvEntry) : DieSt :=
  let evb := SMap.set none x.evb e (some v)
  { x with evb := evb, evPeak := BitVec.ofNat 6 (max x.evPeak.toNat evb.length) }

/-- A sub-block `y` of a line goes out from eviction-buffer entry `e`, as WriteBack where it is dirty and as
Evict elsewhere, with its world mark and PID 0, in the class `cls` of the request that it precedes on the
same virtual channel (R187, R189, R309). -/
def State.sendEvict (s : State) (d : Die) (line e : Nat) (y : EvSub) (u : RegUnit) (cls : BitVec 4)
    (p : Purpose) : State :=
  let m := s.classed { kind := if y.dirty then .writeBack else .evict, dest := homeOfLine line,
                       src := bankOf d line, txid := BitVec.ofNat 14 (0x3F80 + 4 * e + line % 4),
                       s := y.world, tclass := cls, epoch := s.epoch (bankOf d line),
                       addr := BitVec.ofNat 48 (line * 64),
                       data := if y.dirty then some y.data else none, poisoned := y.dirty && y.pois }
  ({ s with reqs := s.reqs ++ [({ msg := m, die := some d, purpose := p } : Req)] } : State).inject u m

/-- A sector leaves through eviction-buffer entry `e`: every L1 copy is invalidated, each valid
sub-block is kept in the entry and sent as WriteBack or Evict (R141, R146, R187, R309). -/
def State.evictSector (s : State) (d : Die) (set w e : Nat) (u : RegUnit) (cls : BitVec 4) : State :=
  let se := (s.die d).sec set w
  match se.tag with
  | none => s
  | some tag =>
    let bs := (List.range 4).filter fun b => (se.sub b).st != .i
    let old := fun (b : Nat) =>
      let y := se.sub b
      (⟨y.data, y.pois, y.st == .m, y.world⟩ : EvSub)
    let s := bs.foldl (fun s b => s.invalL1 d (tag * 4 + b) none) s
    let s := s.modDie d fun x =>
      (x.putEv e { sector := tag, subs := bs.foldl (fun m b => SMap.set none m b (some (old b))) [] }).setSec
        set w {}
    bs.foldl (fun s b => s.sendEvict d (tag * 4 + b) e (old b) u cls .evict) s

/-- What an allocation finds (R146). -/
inductive Alloc where
  /-- the way of the set that the sector has or will have -/
  | way (w : Nat) (s : State)
  /-- the eviction buffer is full, or every candidate awaits an answer: the access waits -/
  | full
  /-- no victim exists: the access goes to the home without allocation -/
  | noVictim

/-- A free entry of the eviction buffer. -/
def DieSt.freeEv (x : DieSt) : Option Nat :=
  (List.range 32).find? fun e => (SMap.get none x.evb e).isNone

/-- Whether an answer is awaited that will be installed in a way of a set: the way was chosen with the
request (R175, R177), so it is no victim until then. -/
def State.wayAwaited (s : State) (d : Die) (set w : Nat) : Bool :=
  s.reqs.any fun r => r.die == some d && dcSet (r.msg.addr.toNat / 64) == set && r.way == w &&
    (r.msg.kind == .rdShared || r.msg.kind == .rdUnique || r.msg.kind == .upgrade)

/-- The way chosen for a sector by a caching request that is outstanding: its tag is entered with the grant,
so a request that is refused or meets poison allocates nothing (R177, R185). -/
def State.awaitedWay (s : State) (d : Die) (sector : Nat) : Option Nat :=
  (s.reqs.find? fun r => r.die == some d && r.msg.addr.toNat / 256 == sector &&
    (r.msg.kind == .rdShared || r.msg.kind == .rdUnique || r.msg.kind == .upgrade)).map (·.way)

/-- The way of a line's sector, chosen where its tag is absent; a victim leaves in class `cls` (R146). A way
closed for a way-mode change counts as no cacheable way (R151). -/
def State.alloc (s : State) (d : Die) (line : Nat) (u : RegUnit) (cls : BitVec 4) : Alloc :=
  let x := s.die d
  let set := dcSet line
  let mode := s.wayMode d
  let usable := fun w => cacheableWay mode w && !x.closed.getLsbD w
  let free := fun w => usable w && !s.wayAwaited d set w
  match x.wayOf line <|> s.awaitedWay d (line / 4) with
  | some w => .way w s
  | none =>
    match (List.range 16).find? fun w => free w && (x.sec set w).tag.isNone with
    | some w => .way w s
    | none =>
      let open' := fun w => !(x.sec set w).lock && !(x.sec set w).kept
      let elig := fun w => free w && open' w
      if !(List.range 16).any fun w => usable w && open' w then .noVictim
      else if !(List.range 16).any elig then .full
      else
        let w := plruPick (SMap.get 0 x.plru set) elig 4 1 0
        let se := x.sec set w
        if (List.range 4).all fun b => (se.sub b).st == .i then .way w (s.setDie d (x.setSec set w {}))
        else match x.freeEv with
        | none => .full
        | some e => .way w (s.evictSector d set w e u cls)

/-- A request that a die-cache bank sends to a home or a station for a core's access, with the
class that its instruction asked for (R87, R174, R181, R294, R309); none where the bank has no free TXID. -/
def State.bankReq (s : State) (d : Die) (lc : LC) (m : Msg) (way : Nat) (p : Purpose) :
    Option State :=
  let line := m.addr.toNat / 64
  let st := bankOf d line
  match s.freeTxid st 32 with
  | none => none
  | some t =>
    let (cls, s) := s.classFor d m.pid m.tclass
    let m := s.classed { m with src := st, txid := BitVec.ofNat 14 t, tclass := cls,
                                epoch := s.epoch st }
    let s := { s with reqs := s.reqs ++ [({ msg := m, way := way, die := some d, purpose := p } : Req)] }
    some (s.inject (.core lc) m)

/-- Whether a request of a die for a sub-block is outstanding, with allocation or without (R186). -/
def State.lineBusy (s : State) (d : Die) (line : Nat) : Bool :=
  s.reqs.any fun r => r.die == some d && r.msg.addr.toNat / 64 == line &&
    (r.msg.kind == .rdShared || r.msg.kind == .rdUnique || r.msg.kind == .upgrade
      || r.msg.kind == .rdOnce || r.msg.kind == .wrUnique)

/-- Whether a line's sub-block waits in the eviction buffer (R189). -/
def DieSt.evicting (x : DieSt) (line : Nat) : Bool :=
  (List.range 32).any fun e =>
    match SMap.get none x.evb e with
    | some ev => ev.sector == line / 4 && (SMap.get none ev.subs (line % 4)).isSome
    | none => false

end Sys2Proof.Machine
end

