-- ==== Sys2Proof/Machine/Crc.lean ====
section
/-!
DEFINITION. The two checksums of the manual: CRC-32 of IEEE 802.3 (Tables FAB-5 and MIR-2) and CRC-64 of
ECMA-182 (R428).
-/

namespace Sys2Proof.Machine

/-- One bit of the reflected CRC-32. -/
def crc32Bit (c : BitVec 32) : BitVec 32 :=
  if c.getLsbD 0 then (c >>> 1) ^^^ 0xEDB88320 else c >>> 1

/-- One byte of the CRC-32. -/
def crc32Byte (c : BitVec 32) (b : Byte) : BitVec 32 :=
  (List.range 8).foldl (fun c _ => crc32Bit c) (c ^^^ b.zeroExtend 32)

/-- CRC-32 of a byte string. -/
def crc32 (l : List Byte) : BitVec 32 := ~~~(l.foldl crc32Byte 0xFFFFFFFF)

/-- One bit of the CRC-64. -/
def crc64Bit (c : BitVec 64) : BitVec 64 :=
  if c.getLsbD 63 then (c <<< 1) ^^^ 0x42F0E1EBA9EA3693 else c <<< 1

/-- One byte of the CRC-64. -/
def crc64Byte (c : BitVec 64) (b : Byte) : BitVec 64 :=
  (List.range 8).foldl (fun c _ => crc64Bit c) (c ^^^ (b.zeroExtend 64 <<< 56))

/-- CRC-64 of a byte string, from a running value. -/
def crc64 (c : BitVec 64) (l : List Byte) : BitVec 64 := l.foldl crc64Byte c

/-- The little-endian bytes of 32-bit words. -/
def bytesOf32 (l : List Word32) : List Byte := l.flatMap fun w => natToBytes 4 w.toNat

/-- The little-endian bytes of 64-bit words. -/
def bytesOf64 (l : List Word) : List Byte := l.flatMap fun w => natToBytes 8 w.toNat

/-- The 32-bit words of a byte string. -/
def words32 : Nat → List Byte → List Word32
  | 0, _ => []
  | n + 1, l => BitVec.ofNat 32 (bytesToNat (l.take 4)) :: words32 n (l.drop 4)

end Sys2Proof.Machine
end

