-- ==== Sys2Proof/Machine/Timing.lean ====
section
/-!
DEFINITION. Beats (R35, R44 to R46, R92, R93, R100 to R103): accounting, the beat at which an
instruction leaves S, V's queue, scratch loads in flight, and the results that reach registers.
-/

namespace Sys2Proof.Machine

/-- Beats counted in the accounting registers: instruction cost and stalls by cause; held while
FREEZE is 1 (R45, R46, Table CORE-6). -/
def Acct.charge (a : Acct) (ib sb l1 pfq walk : Nat) : Acct :=
  if a.freeze then a
  else { a with
    elapsed := a.elapsed + BitVec.ofNat 64 ib + BitVec.ofNat 64 sb + BitVec.ofNat 64 l1
      + BitVec.ofNat 64 pfq + BitVec.ofNat 64 walk
    ibeats := a.ibeats + BitVec.ofNat 64 ib
    stallSb := a.stallSb + BitVec.ofNat 64 sb
    stallL1 := a.stallL1 + BitVec.ofNat 64 l1
    stallPfq := a.stallPfq + BitVec.ofNat 64 pfq
    stallWalk := a.stallWalk + BitVec.ofNat 64 walk }

/-- Of the next `n` beats, those in which the store buffer is full (Table OBS-1): its entries and those
whose drain has not ended yet number eight. -/
def Core.sbFull (c : Core) (n : Nat) : Nat :=
  let ends := (c.beats.past.map (·.finish)).filter fun f => c.beats.next < f
  if 8 ≤ c.sb.length then n
  else if c.sb.length + ends.length < 8 then 0
  else min n ((ends[c.sb.length + ends.length - 8]?).getD c.beats.next - c.beats.next)

/-- Beats pass: they are counted, and the next instruction reaches S that much later. -/
def Core.charge (c : Core) (ib sb l1 pfq walk : Nat) : Core :=
  let n := ib + sb + l1 + pfq + walk
  let c := (((((((c.count 1 n).count 2 ib).count 4 sb).count 5 l1).count 6 pfq).count 7 walk).count
    0x024 (c.sbFull n))
  { c with acct := c.acct.charge ib sb l1 pfq walk
           beats := { c.beats with next := c.beats.next + ib + sb + l1 + pfq + walk } }

/-- Registers by one number: v0 to v31 as 0 to 31, p0 to p7 as 32 to 39, g0 to g31 as 64 to 95. -/
def vIdx (r : Reg) : Nat := r.toNat
/-- Number of a predicate register. -/
def pIdx (r : PReg) : Nat := 32 + r.toNat
/-- Number of a general register. -/
def gIdx (r : Reg) : Nat := 64 + r.toNat

/-- The beat at which a register is usable (R92). g0 has no scoreboard bit (R44). -/
def Beats.ready (b : Beats) (i : Nat) : Nat :=
  if i < 32 then SMap.get 0 b.vReady i
  else if i < 64 then SMap.get 0 b.pReady (i - 32)
  else if i = 64 then 0 else SMap.get 0 b.gReady (i - 64)

/-- A register becomes usable at a beat. -/
def Beats.setReady (b : Beats) (i t : Nat) : Beats :=
  if i < 32 then { b with vReady := SMap.set 0 b.vReady i t }
  else if i < 64 then { b with pReady := SMap.set 0 b.pReady (i - 32) t }
  else if i = 64 then b
  else { b with gReady := SMap.set 0 b.gReady (i - 64) t }

/-- A register by number written. -/
def Core.put (c : Core) (i : Nat) (x : Line) : Core :=
  if i < 32 then c.setV (BitVec.ofNat 5 i) x
  else if i < 64 then c.setP (BitVec.ofNat 3 (i - 32)) (x.truncate 64)
  else c.setG (BitVec.ofNat 5 (i - 64)) (x.truncate 64)

/-- A vector instruction that V starts writes its result and its flags (R88, R102). -/
def Core.vWrite (c : Core) (e : VEntry) : Core :=
  { c.put e.dest e.value with vflags := orFlags c.vflags e.flags }

/-- V starts its queued instructions up to a beat (R102). -/
def Core.vRun (c : Core) (t : Nat) : Core :=
  let (now, later) := (c.beats.vq).partition fun e => e.start ≤ t
  { now.foldl Core.vWrite c with beats := { c.beats with vq := later } }

/-- Scratch loads return up to a beat (R100). -/
def Core.scrRun (c : Core) (t : Nat) : Core :=
  let (now, later) := (c.beats.scr).partition fun e => e.returns ≤ t
  { now.foldl (fun c e => c.put e.dest e.value) c with beats := { c.beats with scr := later } }

/-- Everything older completes: V's queue and the scratch loads (R64). -/
def Core.settle (c : Core) : Core :=
  let c := { c.beats.vq.foldl Core.vWrite c with beats := { c.beats with vq := [] } }
  { c.beats.scr.foldl (fun c e => c.put e.dest e.value) c with beats := { c.beats with scr := [] } }

/-- What an instruction asks of S: registers read and written by number, whether it goes to V, and
whether it waits until V holds no instruction (R88). -/
structure Need where
  reads  : List Nat := []
  writes : List Nat := []
  vec    : Bool := false
  vIdle  : Bool := false
  deriving DecidableEq, Repr

/-- The beat at which an instruction leaves S, from the beat it reaches S (R38, R44, R92, R103). -/
def Beats.leave (b : Beats) (n : Need) : Nat :=
  let t := (n.reads ++ n.writes).foldl (fun t i => max t (b.ready i)) b.next
  let t := if n.vIdle then max t b.vDone else t
  let t := b.vq.foldl (fun t e =>
    if n.writes.any fun i => i < 64 && e.reads.contains i then max t e.start else t) t
  let waiting := b.vq.filter fun e => t < e.start
  if n.vec && 4 ≤ waiting.length then
    max t ((waiting[waiting.length - 4]?).elim 0 (·.start))
  else t

/-- The instruction leaves S at beat `t`: the wait is counted under SB, and what started or returned
by then is written. -/
def Core.toS (c : Core) (t : Nat) : Core :=
  ((c.charge 0 (t - c.beats.next) 0 0 0).vRun t).scrRun t

/-! Waits for drains (R45, R49, R50, Table CORE-3). -/

/-- Beats that what stands at beat `m` waits until drains have ended, oldest first: under the drains of
fixed cost, and under the others. -/
def waitDrains (m : Nat) : List Drained → Nat × Nat
  | [] => (0, 0)
  | d :: ds =>
    let w := d.finish - m
    let r := waitDrains (max m d.finish) ds
    if d.fixed then (w + r.1, r.2) else (r.1, w + r.2)

/-- The drains up to the youngest that passes a test: the store buffer drains in order (R49). -/
def Beats.upTo (b : Beats) (p : Drained → Bool) : List Drained :=
  (b.past.reverse.dropWhile fun d => !p d).reverse

/-- Beats in S until the store buffer has room for `n` entries (Table ISA-18): those of `past` that end
after beat `t` still hold theirs. -/
def Core.roomWait (c : Core) (t n : Nat) : Nat × Nat :=
  let l := c.beats.past.filter fun d => t < d.finish
  waitDrains t (l.take (c.sb.length + l.length + n - 8))

/-- Beats in M, under SB and under L1, of an access that waits `scr` beats for scratch loads (R101) and for
the drains up to the youngest that passes a test (R50, R54). Where both hold it, the drain's row of Table
CORE-3 counts if it comes first. -/
def Core.memWait (c : Core) (m scr : Nat) (p : Drained → Bool) : Nat × Nat :=
  let w := waitDrains m (c.beats.upTo p)
  (max (w.1 + w.2) scr - w.2, w.2)

/-- A record enters the reflection log of an open window (R426, R429). -/
def Core.logRec (c : Core) (kind len : Nat) (data : List Word) : Core :=
  match c.win with
  | none => c
  | some w =>
    let r : LogRec := ⟨BitVec.ofNat 4 kind, len, w.icount % 2 ^ 32, data⟩
    { c with win := some { w with recs := w.recs ++ [r] } }

/-- A store enters the signature of an open window: PA, size, and data zero-filled to a multiple of 16 B
(R428). -/
def Core.logStore (c : Core) (pa bytes : Nat) (data : Nat) : Core :=
  match c.win with
  | none => c
  | some w =>
    let n := if bytes ≤ 16 then 16 else bytes
    { c with win := some { w with
        sig := crc64 w.sig (natToBytes 8 pa ++ natToBytes 8 bytes ++ natToBytes n data) } }

/-- An instruction completes: its cost is counted, the pc moves, and what answers brought for its
fetch and walks is gone, as is its word in the prefetch queue (R36, R40, R46). -/
def Core.retire (c : Core) (pc' : Word) (cost : Nat) : Core :=
  let c := c.charge cost 0 0 0 0
  { c.count 3 1 with
    pc := pc', got := [], pfq := c.pfq.drop 1, step := false
    win := c.win.map fun w => { w with icount := w.icount + 1 } }

/-- A scalar result, usable `d` beats after leaving S at beat `t` (R92). -/
def Core.result (c : Core) (rd : Reg) (x : Word) (t d : Nat) : Core :=
  { c.setG rd x with beats := c.beats.setReady (gIdx rd) (t + d) }

/-- A predicate result of X. -/
def Core.resultP (c : Core) (pd : PReg) (x : Word) (t d : Nat) : Core :=
  { c.setP pd x with beats := c.beats.setReady (pIdx pd) (t + d) }

/-- An instruction dispatched to V at beat `t` with its occupancy and distance (R92, R102). Its
result is known here, since every source is usable at dispatch and none is overwritten before V
starts it (R44, R103). DEDUCED: for R88, V holds the instruction until it completes, that is until its
distance from its start has passed (log entry 18). -/
def Core.dispatch (c : Core) (t occ d : Nat) (reads : List Nat) (dest : Nat) (x : Line)
    (fl : VFlags) : Core :=
  let start := max t c.beats.vFree
  let b := c.beats.setReady dest (start + d)
  let b := { b with vFree := start + occ, vDone := max b.vDone (start + d) }
  let e : VEntry := ⟨start, reads, dest, x, fl⟩
  if start = t then { c.vWrite e with beats := b }
  else { c with beats := { b with vq := b.vq ++ [e] } }

/-- Words of the prefetch queue are discarded, with the faults held with them (R39, R530). -/
def Core.flush (c : Core) : Core := { c with pfq := [], got := [] }

/-- A taken branch: three beats, and one PFQ beat where the target is the last word of its 16 B
chunk (R39). -/
def Core.branch (c : Core) (target : Word) : Core :=
  (((c.retire target 3).count 0x10 1).charge 0 0 0 (if field target 2 2 = 3 then 1 else 0) 0).flush

end Sys2Proof.Machine
end

