-- ==== Sys2Proof/Machine/Cii.lean ====
section
/-!
DEFINITION. The core interrupt interface (R116 to R126, R131, R136, R137): selection, T_eff, what is
taken at a boundary, the running-priority stack, and its registers.
-/

namespace Sys2Proof.Machine

/-- A source that competes under R118: die of a shared source, ID, priority, target level and
world. -/
structure Cand where
  die   : Option Die
  id    : Nat
  prio  : Nat
  lvl   : Nat
  world : Bool
  deriving DecidableEq, Repr

/-- CII_PCFG_i. -/
def Cii.cfg (x : Cii) (i : Nat) : PCfg := SMap.get PCfg.reset x.pcfg i

/-- Pending bit of a private source but WORLD_CALL: DEADLINE and PMU_OVF are levels, the others are
latched (Table INT-1). -/
def State.privPending (s : State) (c : Core) (i : Nat) : Bool :=
  if i = 8 then c.cii.deadline ≠ 0 && c.cii.deadline.toNat ≤ s.tb.toNat
  else if i = 9 then c.pmu.ovf &&& c.pmu.irqen ≠ 0
  else if i < 12 && i ≠ 10 then bit c.cii.pend i
  else false

/-- A private source as a candidate. -/
def Cii.cand (x : Cii) (i : Nat) : Cand :=
  let f := x.cfg i
  ⟨none, i, f.prio.toNat, f.lvl.toNat, f.world⟩

/-- Private sources that are pending, enabled and not active; reserved ones never are (Table
INT-1). -/
def State.privCands (s : State) (c : Core) : List Cand :=
  ((List.range 12).filter fun i =>
    s.privPending c i && bit c.cii.en i && !bit c.cii.act i && (c.cii.cfg i).lvl ≠ 0).map c.cii.cand

/-- Whether a distributor's source is offered to a logical core: pending, enabled, not active, with
a target (R118, Tables INT-4, INT-7). DESIGN CHOICE: offers that stand at an interface are withdrawn as
soon as INTD_CTL.EN is cleared; the spec says only that EN lets the distributor make offers (log 131). -/
def State.offerable (s : State) (lc : LC) (d : Die) (i : Nat) : Bool :=
  let x := (s.die d).intd
  let r := x.src i
  x.en && s.srcPending d i && r.en && !r.act && r.lc.toNat = lc.val && r.lvl ≠ 0

/-- Shared sources whose offer stands at the interface: an offer is dropped as soon as its source is
no longer offerable (R134). -/
def State.sharedCands (s : State) (lc : LC) (c : Core) : List Cand :=
  (c.cii.offers.filter fun o => s.offerable lc o.1 o.2).map fun o =>
    let r := (s.die o.1).intd.src o.2
    ⟨some o.1, o.2, r.prio.toNat, r.lvl.toNat, r.world || r.lvl == 3⟩

/-- The more urgent of two candidates: lower priority value, then lower ID (R118). DESIGN CHOICE: of one ID
offered by two dies at one priority, the offer that reached the interface first (log 130). -/
def Cand.best (a b : Cand) : Cand :=
  if a.prio < b.prio || (a.prio = b.prio && a.id ≤ b.id) then a else b

/-- The most urgent candidate. -/
def selectCand : List Cand → Option Cand
  | [] => none
  | a :: t => match selectCand t with
    | none => some a
    | some b => some (a.best b)

/-- The running priority: 0x100 with an empty stack (R118). -/
def Cii.runPri (x : Cii) : Nat := match x.stack with
  | [] => 0x100
  | e :: _ => e.prio.toNat

/-- R120 step 2: whether a candidate is held for its world. -/
def Cand.held (k : Cand) (world : Bool) : Bool := k.lvl ≠ 3 && k.world != world

/-- T_eff of a candidate that is not held (R120). -/
def State.teff (s : State) (pid : BitVec 8) (k : Cand) : Nat :=
  if k.lvl = 3 then 3
  else match k.die with
    | none => k.lvl
    | some d =>
      let o := s.intdOwner d k.id
      if k.lvl = 1 && !bit o 8 && o.extractLsb' 0 8 != pid then 2 else k.lvl

/-- Every candidate but WORLD_CALL. -/
def State.cands (s : State) (lc : LC) (c : Core) : List Cand := s.privCands c ++ s.sharedCands lc c

/-- Whether WORLD_CALL is asserted in a world (R121): a held source beats the running priority. -/
def State.worldCall (s : State) (lc : LC) (c : Core) (world : Bool) : Bool :=
  (s.cands lc c).any fun k => k.held world && k.prio / 16 < c.cii.runPri / 16

/-- The candidates that may be taken in a world, WORLD_CALL among them (R120, R121). -/
def State.takeable (s : State) (lc : LC) (c : Core) (world : Bool) : List Cand :=
  let l := (s.cands lc c).filter fun k => !k.held world
  if s.worldCall lc c world && !bit c.cii.act 10 then l ++ [c.cii.cand 10] else l

/-- The source that would be taken at a boundary at a level, world and IE, with its T_eff
(R118, R119). -/
def State.takenAt (s : State) (lc : LC) (c : Core) (lvl : Nat) (world ie : Bool) :
    Option (Cand × Nat) :=
  match selectCand (s.takeable lc c world) with
  | none => none
  | some k =>
    let t := s.teff c.pid k
    if k.prio / 16 < c.cii.runPri / 16 && (lvl < t || (t = lvl && ie)) then some (k, t) else none

/-- The source taken at the core's next boundary (R119). -/
def State.due (s : State) (lc : LC) : Option (Cand × Nat) :=
  let c := s.core lc
  s.takenAt lc c c.level c.world c.ie

/-- R122: the source's priority and ID are pushed, it becomes active, and an edge source is no
longer pending. -/
def State.acknowledge (s : State) (lc : LC) (k : Cand) : State :=
  let push := fun (x : Cii) => { x with
    stack := ⟨BitVec.ofNat 8 k.prio, k.id, k.die⟩ :: x.stack
    offers := x.offers.filter fun o => !(some o.1 == k.die && o.2 = k.id) }
  match k.die with
  | none => s.modCore lc fun c =>
      let x := push c.cii
      { c with cii := { x with act := setBit x.act k.id true, pend := setBit x.pend k.id false } }
  | some d =>
    let s := s.modCore lc fun c => { c with cii := push c.cii }
    s.modSrc d k.id fun r => { r with act := true, pend := if r.level then r.pend else false }

/-- R123: a write of an ID to CII_EOI. -/
def State.eoi (s : State) (lc : LC) (id : Nat) : State :=
  let c := s.core lc
  match c.cii.stack with
  | e :: rest =>
    if e.id = id then
      let x := { c.cii with stack := rest }
      match e.die with
      | none => s.setCore lc { c with cii := { x with act := setBit x.act id false } }
      | some d => (s.setCore lc { c with cii := x }).modSrc d id fun r => { r with act := false }
    else s.setCore lc { c with cii := { c.cii with eoiErr := true } }
  | [] => s.setCore lc { c with cii := { c.cii with eoiErr := true } }

/-- R137: SGI `n` from a writer reaches the interface of a logical core. -/
def State.sgi (s : State) (lc : LC) (n : Nat) (w : Accessor) : State :=
  let c := s.core lc
  let f := c.cii.cfg n
  if w.lvl = 3 || (w.world = f.world && (w.lvl = 2 || w.pid = c.pid)) then
    s.setCore lc { c with cii := { c.cii with pend := setBit c.cii.pend n true } }
  else s.setCore lc { c with cii := { c.cii with sgiDrop := true } }

/-- R131: whether an access to a private source's bits applies. -/
def Cii.mayAccess (x : Cii) (i : Nat) (w : Accessor) : Bool :=
  w.lvl = 3 || ((x.cfg i).lvl ≤ w.lvl && w.world = (x.cfg i).world)

/-- The bits of a private-source word that an accessor may touch (R131). -/
def Cii.accessMask (x : Cii) (w : Accessor) : BitVec 32 :=
  (List.range 32).foldl (fun m i => if x.mayAccess i w then setBit m i true else m) 0

/-- The bits of sources 8 to 10, which a write of the pending word leaves alone (Table INT-11). -/
def levelBits : BitVec 32 := 0x700

/-- Bits of private sources that exist: 0 to 11 (Table INT-1). -/
def privBits : BitVec 32 := 0xFFF

/-- CII_PEN. -/
def State.privWord (s : State) (lc : LC) (c : Core) : BitVec 32 :=
  (List.range 12).foldl (fun m i =>
    if (if i = 10 then s.worldCall lc c c.world else s.privPending c i) then setBit m i true
    else m) 0

/-- A register of the interface read (Tables INT-9 to INT-12); none where unassigned. -/
def State.ciiRead (s : State) (lc : LC) (off : Nat) (w : Accessor) : Option Nat :=
  let c := s.core lc
  let x := c.cii
  let m := x.accessMask w
  if off = 0x2000 then
    some (x.runPri + x.stack.length * 2 ^ 16 + (x.stack.head?.elim 0 (·.id)) * 2 ^ 32)
  else if off = 0x2008 || off = 0x2020 then some 0
  else if off = 0x2010 then
    let l := s.cands lc c ++
      (if s.worldCall lc c c.world && !bit x.act 10 then [x.cand 10] else [])
    match selectCand l with
    | none => some 0
    | some k => some (k.id + k.prio * 2 ^ 16 + 2 ^ 24
        + (if k.held c.world then 0 else s.teff c.pid k) * 2 ^ 25)
  else if off = 0x2018 then some (b2n x.eoiErr + 2 * b2n x.sgiDrop)
  else if off = 0x2028 then some (if x.mayAccess 8 w then x.deadline.toNat else 0)
  else if off = 0x2030 || off = 0x2034 || off = 0x2038 then some (s.privWord lc c &&& m).toNat
  else if off = 0x2040 || off = 0x2044 || off = 0x2048 then some (x.en &&& m).toNat
  else if off = 0x2050 then some (x.act &&& m).toNat
  else if 0x2080 ≤ off && off < 0x2100 && off % 4 = 0 then
    let i := (off - 0x2080) / 4
    if x.mayAccess i w then
      let f := x.cfg i
      some (f.prio.toNat + f.lvl.toNat * 2 ^ 8 + b2n f.world * 2 ^ 10)
    else some 0
  else none

/-- The enable word after a write; bit 10 reads 1 and ignores writes (Table INT-11). -/
def Cii.setEn (x : Cii) (v : BitVec 32) : Cii := { x with en := (v &&& privBits) ||| 0x400 }

/-- `old` with the bits of `m` taken from `v` (R235). -/
def mergeBits (old v m : Nat) : Nat :=
  ((BitVec.ofNat 64 old &&& ~~~(BitVec.ofNat 64 m)) ||| (BitVec.ofNat 64 v &&& BitVec.ofNat 64 m)).toNat

/-- A register of the interface written with value `v` under bit mask `m`; bits outside the mask are
not written, and an action needs every byte of its field (R235). An SGI goes to the interface it
names (R137). -/
def State.ciiWrite (s : State) (lc : LC) (off v m : Nat) (w : Accessor) : State :=
  let c := s.core lc
  let x := c.cii
  let am := x.accessMask w
  let b : BitVec 32 := BitVec.ofNat 32 v &&& BitVec.ofNat 32 m
  let set := fun (y : Cii) => s.setCore lc { c with cii := y }
  let two := m % 2 ^ 16 = 2 ^ 16 - 1
  if off = 0x2008 then if two then s.eoi lc (v % 1024) else s
  else if off = 0x2018 then
    set { x with eoiErr := x.eoiErr && !bit b 0, sgiDrop := x.sgiDrop && !bit b 1 }
  else if off = 0x2020 then
    if h : two ∧ v % 256 < 216 then s.sgi ⟨v % 256, h.2⟩ (v / 256 % 8) w else s
  else if off = 0x2028 then
    if x.mayAccess 8 w then
      set { x with deadline := BitVec.ofNat 64 (mergeBits x.deadline.toNat v m) }
    else s
  else if off = 0x2034 then
    set { x with pend := x.pend ||| (b &&& am &&& privBits &&& ~~~levelBits) }
  else if off = 0x2038 then set { x with pend := x.pend &&& ~~~(b &&& am &&& ~~~levelBits) }
  else if off = 0x2040 then
    let am := am &&& BitVec.ofNat 32 m
    set (x.setEn ((x.en &&& ~~~am) ||| (b &&& am)))
  else if off = 0x2044 then set (x.setEn (x.en ||| (b &&& am)))
  else if off = 0x2048 then set (x.setEn (x.en &&& ~~~(b &&& am)))
  else if 0x2080 ≤ off && off < 0x2100 && off % 4 = 0 then
    let i := (off - 0x2080) / 4
    let f := x.cfg i
    if !x.mayAccess i w then s
    else
      let old := f.prio.toNat + f.lvl.toNat * 2 ^ 8 + b2n f.world * 2 ^ 10
      let v := mergeBits old v m
      let g : PCfg := { f with prio := BitVec.ofNat 8 v }
      let g := if w.lvl = 3 && i ≠ 10 then
          { g with lvl := BitVec.ofNat 2 (v / 2 ^ 8), world := v / 2 ^ 10 % 2 = 1 } else g
      set { x with pcfg := SMap.set PCfg.reset x.pcfg i g }
  else s

end Sys2Proof.Machine
end

