-- ==== Sys2Proof/Machine/CoreWindow.lean ====
section
/-!
DEFINITION. The core window (Table MAP-2): identity and accounting (Tables MAP-3, CORE-4 to CORE-8),
the performance monitor (Table OBS-2) and the interrupt interface, with the rights of R47, R136 and
R491.
-/

namespace Sys2Proof.Machine

/-- CORE_IDENT of a logical core (Table MAP-3). -/
def State.coreIdent (s : State) (lc : LC) : Nat :=
  let moves := (SMap.get 0 s.moves lc.val).toNat
  match s.placeOf lc with
  | some p => lc.val + (p % 20) * 2 ^ 8 + (p / 20 + 1) * 2 ^ 16 + (p / 20 / 3) * 2 ^ 20
      + moves * 2 ^ 24
  | none =>
    let d := SMap.get (lc.val / 18) s.lastDie lc.val
    lc.val + 0x1F * 2 ^ 8 + (d + 1) * 2 ^ 16 + (d / 3) * 2 ^ 20 + moves * 2 ^ 24

/-- Locked L2 TLB entries of a kind. -/
def Tlbs.locked (t : Tlbs) (kindI : Bool) : Nat :=
  (t.l2.filter fun e => match e.2 with
    | some w => if kindI then w.lockI else w.lockD
    | none => false).length

/-- A register of the core window as value and width in bytes (Tables CORE-4, OBS-2, INT-9). -/
def State.coreReg (s : State) (lc : LC) (off : Nat) (w : Accessor) : Option (Nat × Nat) :=
  let c := s.core lc
  let a := c.acct
  if off = 0x0000 then some (s.coreIdent lc, 4)
  else if off = 0x0008 then some (a.elapsed.toNat, 8)
  else if off = 0x0010 then some (a.ibeats.toNat, 8)
  else if off = 0x0018 then some (a.stallSb.toNat, 8)
  else if off = 0x0020 then some (a.stallL1.toNat, 8)
  else if off = 0x0028 then some (a.stallPfq.toNat, 8)
  else if off = 0x0030 then some (a.stallWalk.toNat, 8)
  else if off = 0x0038 then some (2 * b2n a.freeze, 8)
  else if off = 0x0040 then
    some ((match s.placeOf lc with
      | some p => (SMap.get 0 s.beatRate p).toNat
      | none => 0), 8)
  else if off = 0x0048 then
    some (c.tlbs.locked true + c.tlbs.locked false * 2 ^ 8 + c.tlbSkipped.toNat * 2 ^ 32
      + b2n c.tlbSkipFlag * 2 ^ 48, 8)
  else if off = 0x1000 then some (b2n c.pmu.en, 8)
  else if off = 0x1008 then some (c.pmu.ovf.toNat, 8)
  else if off = 0x1010 then some (c.pmu.irqen.toNat, 8)
  else if 0x1040 ≤ off && off < 0x1080 && off % 8 = 0 then
    some ((c.pmu.sel ((off - 0x1040) / 8)).toNat, 8)
  else if 0x1080 ≤ off && off < 0x10C0 && off % 8 = 0 then
    some ((SMap.get 0 c.pmu.cnt ((off - 0x1080) / 8)).toNat, 8)
  else (s.ciiRead lc off w).map fun v => (v, if off = 0x2000 || off = 0x2028 then 8 else 4)

/-- The six accounting counters at 0 (Table CORE-6). -/
def Acct.clear (a : Acct) : Acct := { freeze := a.freeze }

/-- The eight counters and PMU_OVF at 0 (Table OBS-2). -/
def Pmu.clear (p : Pmu) : Pmu := { p with ovf := 0, cnt := [] }

/-- PMU_EVSEL_i after a write by an accessor: a LVL bit above the writer's level is written as 0, SW
changes only from the secure world, CHAIN exists on odd counters (R491, Table OBS-2). -/
def evselWrite (old : BitVec 17) (i v : Nat) (w : Accessor) : BitVec 17 :=
  let x : BitVec 17 := BitVec.ofNat 17 v
  let x := (List.range 4).foldl (fun x k => if w.lvl.toNat < k then setBit x (10 + k) false else x) x
  let x := if w.world then x else setBit x 14 (bit old 14)
  if i % 2 = 1 then x else setBit x 16 false

/-- A register of the core window written with value `v` under bit mask `m`. -/
def State.coreRegWrite (s : State) (lc : LC) (off v m : Nat) (w : Accessor) : State :=
  let c := s.core lc
  let b : BitVec 64 := BitVec.ofNat 64 v &&& BitVec.ofNat 64 m
  if off = 0x0038 then
    let a := if bit b 0 then c.acct.clear else c.acct
    let a := if m % 4 / 2 = 1 then { a with freeze := bit b 1 } else a
    s.setCore lc { c with acct := a }
  else if off = 0x0048 then
    if bit b 48 then s.setCore lc { c with tlbSkipped := 0, tlbSkipFlag := false } else s
  else if off = 0x1000 then
    let p := if bit b 1 then c.pmu.clear else c.pmu
    let p := if m % 2 = 1 then { p with en := bit b 0 } else p
    s.setCore lc { c with pmu := p }
  else if off = 0x1008 then
    s.setCore lc { c with pmu := { c.pmu with ovf := c.pmu.ovf &&& ~~~(b.truncate 8) } }
  else if off = 0x1010 then
    if m % 256 = 255 then s.setCore lc { c with pmu := { c.pmu with irqen := b.truncate 8 } } else s
  else if 0x1040 ≤ off && off < 0x1080 && off % 8 = 0 then
    let i := (off - 0x1040) / 8
    let old := c.pmu.sel i
    let e := evselWrite old i (mergeBits old.toNat v m) w
    s.setCore lc { c with pmu := { c.pmu with evsel := SMap.set 0 c.pmu.evsel i e } }
  else if 0x1080 ≤ off && off < 0x10C0 && off % 8 = 0 then
    let i := (off - 0x1080) / 8
    let x := mergeBits (SMap.get 0 c.pmu.cnt i).toNat v m
    s.setCore lc { c with pmu := { c.pmu with cnt := SMap.set 0 c.pmu.cnt i (BitVec.ofNat 48 x) } }
  else if 0x2000 ≤ off then s.ciiWrite lc off v m w
  else s

/-- Whether an accessor may read or write a core window (R26, R47, R136, R491). `own` tells the
own-core window. -/
def State.windowRight (s : State) (lc : LC) (off : Nat) (w : Accessor) (own wr : Bool) : Bool :=
  if w.lvl = 0 then false
  else if own then true
  else if off = 0 then true
  else if 0x2000 ≤ off then w.lvl = 3
  else if wr then w.lvl = 3
  else w.lvl = 3 || (w.lvl = 2 && (s.core lc).world == w.world)

/-- The register that holds word `off` of a window: its offset, and whether the word is the high
half of 8 B. -/
def State.windowWord (s : State) (lc : LC) (off : Nat) (w : Accessor) : Option (Nat × Bool) :=
  match s.coreReg lc off w with
  | some _ => some (off, false)
  | none =>
    if off % 8 = 4 then
      match s.coreReg lc (off - 4) w with
      | some (_, 8) => some (off - 4, true)
      | _ => none
    else none

/-- One 32-bit word of a core window read; none is a bus error. -/
def State.windowRead (s : State) (lc : LC) (off : Nat) (w : Accessor) (own : Bool) :
    Option Word32 :=
  match s.windowWord lc off w with
  | none => none
  | some (r, hi) =>
    if s.windowRight lc r w own false then
      (s.coreReg lc r w).map fun v => BitVec.ofNat 32 (if hi then v.1 / 2 ^ 32 else v.1)
    else none

/-- One 32-bit word of a core window written under a byte mask; none is a bus error. -/
def State.windowWrite (s : State) (lc : LC) (off v : Nat) (m : BitVec 4) (w : Accessor)
    (own : Bool) : Option State :=
  match s.windowWord lc off w with
  | none => none
  | some (r, hi) =>
    if s.windowRight lc r w own true then
      let k := if hi then 2 ^ 32 else 1
      some (s.coreRegWrite lc r (v * k) (maskOf 4 m.toNat * k) w)
    else none

/-- The words that an access of `n` bytes at `off` touches. -/
def wordsOf (off n : Nat) : List Nat :=
  if n = 8 then [off / 4 * 4, off / 4 * 4 + 4] else [off / 4 * 4]

/-- An access of 1, 2, 4 or 8 B read word by word with `rd`; none is a bus error (R22, R235). -/
def readWords (rd : Nat → Option Word32) (off n : Nat) : Option Nat :=
  match rd (off / 4 * 4) with
  | none => none
  | some lo =>
    if n = 8 then
      match rd (off / 4 * 4 + 4) with
      | none => none
      | some hi => some (lo.toNat + 2 ^ 32 * hi.toNat)
    else some (lo.toNat / 2 ^ (8 * (off % 4)) % 2 ^ (8 * n))

/-- An access of 1, 2, 4 or 8 B written word by word with `wr`, the bytes that `bm` names; none is a bus error. -/
def writeWords (wr : State → Nat → Nat → BitVec 4 → Option State) (s : State) (off n v : Nat)
    (bm : Nat := 2 ^ n - 1) : Option State :=
  if n = 8 then
    match wr s (off / 4 * 4) (v % 2 ^ 32) (BitVec.ofNat 4 bm) with
    | none => none
    | some s' => wr s' (off / 4 * 4 + 4) (v / 2 ^ 32) (BitVec.ofNat 4 (bm / 16))
  else wr s (off / 4 * 4) (v * 2 ^ (8 * (off % 4)) % 2 ^ 32)
    (BitVec.ofNat 4 (bm * 2 ^ (off % 4)))

end Sys2Proof.Machine
end

