-- ==== Sys2Proof/Machine/Intd.lean ====
section
/-!
DEFINITION. The interrupt distributor (R116, R117, R127, R130 to R135) and the commands of interrupts
that act on it or on the core interfaces (R118 to R123, R137).
-/

namespace Sys2Proof.Machine

/-- The hub station that owns a hub source (Table INT-1, R321). -/
def hubOwner (i : Nat) : Station :=
  if 48 ≤ i && i ≤ 55 then ceStation ((i - 48) / 2) else shepStation

/-- Whether an accessor's access to a shared source's bits applies (R131). -/
def State.maySource (s : State) (d : Die) (i : Nat) (w : Accessor) : Bool :=
  let o := s.intdOwner d i
  w.lvl = 3 || (w.lvl ≠ 0 && w.world == bit o 9 && bit o 10 &&
    (w.lvl = 2 || bit o 8 || w.pid == o.extractLsb' 0 8))

/-- Sources of word `k` that an accessor may touch and that exist. -/
def State.sourceMask (s : State) (d : Die) (k : Nat) (w : Accessor) : BitVec 32 :=
  (List.range 32).foldl (fun m j =>
    if sharedId (32 * k + j) && s.maySource d (32 * k + j) w then setBit m j true else m) 0

/-- A bit of every source of word `k`. -/
def Intd.word (x : Intd) (k : Nat) (f : IntSrc → Bool) : BitVec 32 :=
  (List.range 32).foldl (fun m j => if f (x.src (32 * k + j)) then setBit m j true else m) 0

/-- The pending bits of word `k` of a die. -/
def State.pendWord (s : State) (d : Die) (k : Nat) : BitVec 32 :=
  (List.range 32).foldl (fun m j => if s.srcPending d (32 * k + j) then setBit m j true else m) 0

/-- A change of the sources of word `k` named by a mask. -/
def State.modSources (s : State) (d : Die) (k : Nat) (m : BitVec 32) (f : Nat → IntSrc → IntSrc) :
    State :=
  s.modDie d fun x => { x with intd := (List.range 32).foldl (fun y j =>
    if bit m j then y.modSrc (32 * k + j) (f j) else y) x.intd }

/-- Whether software may set a source pending: a hub source only on the die of its assignment
(R116, R133). -/
def State.canPend (s : State) (d : Die) (i : Nat) : Bool :=
  !hubId i || bit (s.intdOwner d i) 10

/-- Bits set through INTD_PEND_SET: edge sources only (R133). -/
def State.pendSet (s : State) (d : Die) (k : Nat) (b : BitVec 32) : State :=
  s.modSources d k b fun j r =>
    if r.level || !s.canPend d (32 * k + j) then r else { r with pend := true }

/-- Bits cleared through INTD_PEND_CLR: edge sources only (R133). -/
def State.pendClr (s : State) (d : Die) (k : Nat) (b : BitVec 32) : State :=
  s.modSources d k b fun _ r => if r.level then r else { r with pend := false }

/-- A message for source `i` on a die, from a station or a register write (R127): its pending bit is
set, or it is dropped and counted in INTD_DROP. -/
def State.intdMessage (s : State) (d : Die) (i : Nat) (world : Bool) (pid : BitVec 8)
    (src : Option Station) : State :=
  let o := s.intdOwner d i
  let owner := bit o 10 && world == bit o 9 && (bit o 8 || pid == o.extractLsb' 0 8)
  let hub := hubId i && bit o 10 && src == some (hubOwner i)
  if (128 ≤ i && i < 1024 && owner) || hub then s.assertDie d i
  else s.modDie d fun x => { x with intd := { x.intd with
    dropCnt := BitVec.ofNat 16 (satAdd 0xFFFF x.intd.dropCnt.toNat 1), dropFlag := true } }

/-- INTD_TARGET_i as read (Table INT-7). -/
def IntSrc.targetWord (r : IntSrc) : Nat :=
  r.lc.toNat + r.lvl.toNat * 2 ^ 8 + b2n (r.world || r.lvl == 3) * 2 ^ 10 + b2n r.level * 2 ^ 11

/-- INTD_TARGET_i written; LEVEL changes for a GPIO source only (Table INT-7). -/
def IntSrc.setTarget (r : IntSrc) (i v : Nat) : IntSrc :=
  { r with
    lc := BitVec.ofNat 8 v, lvl := BitVec.ofNat 2 (v / 2 ^ 8), world := v / 2 ^ 10 % 2 = 1
    level := if 64 ≤ i && i ≤ 95 then v / 2 ^ 11 % 2 = 1 else r.level }

/-- The value of a 32-bit word of the distributor (Tables INT-3 to INT-8); none is a bus error. -/
def State.intdRead (s : State) (d : Die) (off : Nat) (w : Accessor) : Option Word32 :=
  let x := (s.die d).intd
  let vec := fun (base : Nat) (f : IntSrc → Bool) =>
    let k := (off - base) / 4
    some (x.word k f &&& s.sourceMask d k w)
  let pend := fun (base : Nat) =>
    let k := (off - base) / 4
    some (s.pendWord d k &&& s.sourceMask d k w)
  if w.lvl = 0 then none
  else if off = 0 then some (BitVec.ofNat 32 (b2n x.en))
  else if off = 4 then some (BitVec.ofNat 32 (0x400 + siteOf d * 2 ^ 11))
  else if off = 8 then some 0
  else if off = 0xC then some (BitVec.ofNat 32 (x.dropCnt.toNat + b2n x.dropFlag * 2 ^ 16))
  else if off % 4 ≠ 0 then none
  else if 0x084 ≤ off && off < 0x100 then vec 0x080 (·.en)
  else if 0x104 ≤ off && off < 0x180 then vec 0x100 (·.en)
  else if 0x184 ≤ off && off < 0x200 then vec 0x180 (·.en)
  else if 0x204 ≤ off && off < 0x280 then pend 0x200
  else if 0x284 ≤ off && off < 0x300 then pend 0x280
  else if 0x304 ≤ off && off < 0x380 then pend 0x300
  else if 0x384 ≤ off && off < 0x400 then vec 0x380 (·.act)
  else if 0x420 ≤ off && off < 0x800 then
    let i := off - 0x400
    some (BitVec.ofNat 32 ((List.range 4).foldr (fun j n =>
      (if s.maySource d (i + j) w then (x.src (i + j)).prio.toNat else 0) + 256 * n) 0))
  else if 0x1080 ≤ off && off < 0x2000 then
    let i := (off - 0x1000) / 4
    some (if s.maySource d i w then BitVec.ofNat 32 (x.src i).targetWord else 0)
  else if 0x2080 ≤ off && off < 0x3000 then
    if 2 ≤ w.lvl.toNat then some (s.intdOwner d ((off - 0x2000) / 4)) else none
  else none

/-- A 32-bit word of the distributor written under a byte mask; none is a bus error. -/
def State.intdWrite (s : State) (d : Die) (off v : Nat) (m : BitVec 4) (w : Accessor) :
    Option State :=
  let bm := maskOf 4 m.toNat
  let b : BitVec 32 := BitVec.ofNat 32 v &&& BitVec.ofNat 32 bm
  let my := fun (base : Nat) => s.sourceMask d ((off - base) / 4) w
  if (s.intdRead d off w).isNone then none
  else if off = 0 then
    if w.lvl ≠ 3 then none
    else if m.getLsbD 0 then some (s.modDie d fun x => { x with intd := { x.intd with en := bit b 0 } })
    else some s
  else if off = 8 then
    if m.getLsbD 0 && m.getLsbD 1 then some (s.intdMessage d (v % 1024) w.world w.pid none)
    else some s
  else if off = 0xC then
    if bit b 16 then
      some (s.modDie d fun x => { x with intd := { x.intd with dropCnt := 0, dropFlag := false } })
    else some s
  else if 0x084 ≤ off && off < 0x100 then
    let k := (off - 0x080) / 4
    some (s.modSources d k (my 0x080 &&& BitVec.ofNat 32 bm) fun j r => { r with en := bit b j })
  else if 0x104 ≤ off && off < 0x180 then
    some (s.modSources d ((off - 0x100) / 4) (my 0x100 &&& b) fun _ r => { r with en := true })
  else if 0x184 ≤ off && off < 0x200 then
    some (s.modSources d ((off - 0x180) / 4) (my 0x180 &&& b) fun _ r => { r with en := false })
  else if 0x284 ≤ off && off < 0x300 then
    some (s.pendSet d ((off - 0x280) / 4) (my 0x280 &&& b))
  else if 0x304 ≤ off && off < 0x380 then
    some (s.pendClr d ((off - 0x300) / 4) (my 0x300 &&& b))
  else if 0x420 ≤ off && off < 0x800 then
    let i := off - 0x400
    some ((List.range 4).foldl (fun s j =>
      if m.getLsbD j && s.maySource d (i + j) w then
        s.modSrc d (i + j) fun r => { r with prio := BitVec.ofNat 8 (v / 2 ^ (8 * j)) }
      else s) s)
  else if 0x1080 ≤ off && off < 0x2000 then
    let i := (off - 0x1000) / 4
    if s.maySource d i w then
      some (s.modSrc d i fun r => r.setTarget i (mergeBits r.targetWord v bm))
    else some s
  else some s

/-! Commands. -/

/-- An interrupt is taken at the core's next boundary, if one is due (R119). -/
def State.takeInterrupt (s : State) (lc : LC) (enter : Asker → Cand → Nat → Option State)
    (k : Option Asker) : State :=
  match k, s.due lc with
  | some k, some (src, tgt) =>
    if (s.core lc).ready && (s.core lc).sbErr.isEmpty then (enter k src tgt).getD s else s
  | _, _ => s

/-- A distributor offers a source to the interface of its target logical core (R118, R129). -/
def execIntOffer (die : Die) (src : BitVec 10) (s : State) : Out :=
  let i := src.toNat
  let t := ((s.die die).intd.src i).lc.toNat
  if h : t < 216 then
    let lc : LC := ⟨t, h⟩
    if sharedId i && s.offerable lc die i && !((s.core lc).cii.offers.contains (die, i)) then
      .next (s.modCore lc fun c =>
        { c with cii := { c.cii with offers := c.cii.offers ++ [(die, i)] } })
    else .next s
  else .next s

/-- A core writes CII_SGI of its own window (R137); at U it is a bus error. -/
def execSgi (lc : LC) (w : Word32) (s : State) : Out :=
  let c := s.core lc
  if c.level = 0 then .next s
  else .next (s.ciiWrite lc 0x2020 w.toNat (2 ^ 32 - 1) (c.accessor lc))

/-- A write of an ID to CII_EOI of a core's own window (R123). -/
def execEoi (lc : LC) (w : Word32) (s : State) : Out :=
  let c := s.core lc
  if c.level = 0 then .next s
  else .next (s.ciiWrite lc 0x2008 w.toNat (2 ^ 32 - 1) (c.accessor lc))

/-- A store to INTD_MSG of a die (R127). -/
def execIntdMsg (die : Die) (w : Word32) (who : Accessor) (s : State) : Out :=
  .next ((s.intdWrite die 8 w.toNat 15 who).getD s)

/-- A write of an interrupt word: a distributor's, or that of a core interface through the core's
own window or, from M, its logical-core window (R132, R136). -/
def State.intWordWrite (s : State) (iw : IntWord) (shared priv : Nat) (bits : Word32)
    (who : Accessor) : State :=
  match iw with
  | .shared d k => (s.intdWrite d (shared + 4 * k.val) bits.toNat 15 who).getD s
  | .priv lc =>
    (s.windowWrite lc priv bits.toNat 15 who (who.lc.toNat = lc.val)).getD s

/-- INTD_ENABLE_SET_k or CII_EN_SET. -/
def execEnableSet (iw : IntWord) (bits : Word32) (who : Accessor) (s : State) : Out :=
  .next (s.intWordWrite iw 0x100 0x2044 bits who)
/-- INTD_ENABLE_CLR_k or CII_EN_CLR. -/
def execEnableClr (iw : IntWord) (bits : Word32) (who : Accessor) (s : State) : Out :=
  .next (s.intWordWrite iw 0x180 0x2048 bits who)
/-- INTD_PEND_SET_k or CII_PEN_SET. -/
def execPendSet (iw : IntWord) (bits : Word32) (who : Accessor) (s : State) : Out :=
  .next (s.intWordWrite iw 0x280 0x2034 bits who)
/-- INTD_PEND_CLR_k or CII_PEN_CLR. -/
def execPendClr (iw : IntWord) (bits : Word32) (who : Accessor) (s : State) : Out :=
  .next (s.intWordWrite iw 0x300 0x2038 bits who)

/-- INTD_TARGET_i written (R134, Table INT-7). -/
def execIntdTargetWrite (die : Die) (src : BitVec 10) (w : Word32) (who : Accessor) (s : State) :
    Out :=
  .next ((s.intdWrite die (0x1000 + 4 * src.toNat) w.toNat 15 who).getD s)

end Sys2Proof.Machine
end

