-- ==== Sys2Proof/Machine/Mmu.lean ====
section
/-!
DEFINITION. Translation (R72 to R81): the table formats, walks, the TLBs, and the access checks of
both stages. Lines of memory that a fetch or a walk reads pass through here too.
-/

namespace Sys2Proof.Machine

/-! Lines. -/

/-- What asks for a line: its logical core, die, slot and world bit S, and whether it is a fetch
(FETCH = 1). -/
structure Asker where
  lc    : LC
  die   : Die
  slot  : Nat
  s     : Bool
  fetch : Bool := false

/-- What a read of a line finds: data with poison mark and a fixed or free number of beats; a bus
error; a request sent, whose answer the core awaits; or a wait for something already under way. -/
inductive LineRead where
  | hit (d : Line) (pois : Bool) (beats : Nat) (s : State)
  | bus (s : State)
  | sent (s : State)
  | busy

/-- Poison marks of the words of a scratch line. -/
def State.scratchPois (s : State) (a bytes : Nat) : Bool :=
  (List.range (max 1 (bytes / 8) + 1)).any fun i =>
    let w := a / 8 + i
    w * 8 < a + bytes && SMap.get false s.poisWord w

/-- An access waits until a request or an eviction of its die is answered; a prefetch does not (R146, R186,
R189). -/
def State.waitDie (s : State) : Purpose → LineRead
  | .access lc => .sent (s.modCore lc fun c =>
      { c with access := some { kind := .wait false, parts := [], leave := c.beats.next } })
  | _ => .busy

/-- A core's access misses its die cache and is sent to a home (Table OBS-1). -/
def State.missed (s : State) (lc : LC) : State := s.modCore lc fun c => c.count 0x022 1

/-- A request for a line that is not served on the die: RdShared with allocation, or RdOnce without
(R146, R180, R186, R189, R311). -/
def State.askHome (s : State) (k : Asker) (line : Nat) (once : Bool) (p : Purpose) : LineRead :=
  let m : Msg := { kind := .rdOnce, dest := homeOfLine line, src := 0, s := k.s,
                   tclass := (s.core k.lc).tclass.extractLsb' 0 4, pid := (s.core k.lc).pid, fetch := k.fetch, addr := BitVec.ofNat 48 (line * 64) }
  let sendOnce := fun (s : State) => match s.bankReq k.die k.lc m 0 p with
    | some s => LineRead.sent s
    | none => s.waitDie p
  if s.lineBusy k.die line || (s.die k.die).evicting line then s.waitDie p
  else if once then sendOnce s
  else match s.alloc k.die line (.core k.lc) (s.classOf k.die m.pid m.tclass) with
    | .full => s.waitDie p
    | .noVictim => sendOnce ((s.count16 (cpAddr (dcsStation k.die) 0x118) 1).missed k.lc)
    | .way w s =>
      let m := { m with kind := .rdShared, addr := BitVec.ofNat 48 (line * 64 + w) }
      match s.bankReq k.die k.lc m w p with
      | some s => .sent (s.missed k.lc)
      | none => s.waitDie p

/-- A cacheable line of HBM read through the die cache (Tables CACHE-2, ISA-18): the hit cost is
`fixed` beats; copies that another core of the die may write are made shared first, in free
beats. -/
def State.readDc (s : State) (k : Asker) (line fixed : Nat) (p : Purpose) : LineRead :=
  let x := s.die k.die
  match x.wayOf line with
  | some w =>
    let u := (x.sec (dcSet line) w).sub (line % 4)
    if u.st = .i then s.askHome k line false p
    else if u.world != k.s then s.askHome k line true p
    else if s.otherOwns k.die line k.slot then
      let (b, s) := (s.shareL1 k.die line (some k.slot)).takeBeats
      .hit u.data u.pois b (s.modDie k.die fun x => x.touch line w)
    else .hit u.data u.pois fixed (s.modDie k.die fun x => x.touch line w)
  | none => s.askHome k line false p

/-- A message of a core's own station: scratch of another die, registers, host window. TXID 0 is an
access in M, TXID 1 a drain; while an answer to a core that was reset is still awaited there, the
lowest free one (R248). -/
def State.slotReq (s : State) (k : Asker) (kind : MsgKind) (dest : Station) (a bytes : Nat)
    (txid : Nat) (data : Option Line) (mask : BitVec 64) (lvl : BitVec 2) (pid : BitVec 8)
    (want : BitVec 4) (p : Purpose) : State :=
  let st := slotStation k.die k.slot
  let txid := if s.reqs.any fun r => r.msg.src == st && r.msg.txid == BitVec.ofNat 14 txid
    then (s.freeTxid st 64).getD txid else txid
  let (cls, s) := s.classFor k.die pid want
  let m := s.classed { kind := kind, dest := dest, src := st, txid := BitVec.ofNat 14 txid,
                       tclass := cls, s := k.s, pid := pid, fetch := k.fetch, epoch := s.epoch st,
                       addr := BitVec.ofNat 48 a, bmask := mask, data := data, bytes := bytes,
                       lvl := lvl, lc := BitVec.ofNat 8 k.lc.val }
  let s := { s with reqs := s.reqs ++ [({ msg := m, die := some k.die, purpose := p } : Req)] }
  s.inject (.core k.lc) m

/-- The die-cache bank that serves a scratch address on its die. -/
def scratchBank (a : Nat) : Station := bankStation (scratchDie a) (a / 256)

/-- A read of the scratch of another die (ScrRd). -/
def State.askScratch (s : State) (k : Asker) (a : Nat) (p : Purpose) : State :=
  let c := s.core k.lc
  let s := s.modCore k.lc fun c => c.count 0x026 1
  s.slotReq k .scrRd (scratchBank a) (a / 64 * 64) 64 0 none 0 (c.status.extractLsb' 0 2) c.pid
    (c.tclass.extractLsb' 0 4) p

/-- Own-die scratch read under its Pasture (R24, R152, R313): a refusal and an unconverted way are
bus errors. -/
def State.readScratch (s : State) (k : Asker) (a bytes : Nat) (perm : Perm) (fixed : Nat) :
    LineRead :=
  if !s.scratchOk a then .bus s
  else
    let (ok, s) := s.checkPasture (dcsStation k.die) 16 a k.s (s.core k.lc).pid perm
      (slotStation k.die k.slot)
    if ok then .hit (s.memLine (a / 64)) (s.scratchPois a bytes) fixed s else .bus s

/-- A line that answers brought for the fetch and walks of the instruction at the pc. -/
def LineRead.ofAns (s : State) : Ans → LineRead
  | .data d pois => .hit d pois 0 s
  | .bus => .bus s

/-! Tables (R73). -/

/-- Fields of a table entry (Table CORE-18). -/
structure Pte where
  oa : Nat
  r  : Bool
  w  : Bool
  x  : Bool
  u  : Bool
  g  : Bool
  mt : Nat
  ns : Bool

/-- What an entry at a level is. -/
inductive PteKind where
  | bad
  | table (oa : Nat)
  | leaf (e : Pte)

/-- log2 of the size that a leaf at a level maps. -/
def leafBits (lvl : Nat) : Nat := if lvl = 1 then 30 else if lvl = 2 then 21 else 12

/-- Decodes an entry (Table CORE-18). In table pointers only V, T and OA count. -/
def pteOf (lvl : Nat) (v : Word) : PteKind :=
  if !bit v 0 then .bad
  else if lvl < 3 && bit v 1 then .table (field v 12 36 * 4096)
  else if lvl = 0 || (lvl = 3 && !bit v 1) then .bad
  else
    let oa := field v 12 36 * 4096
    let e : Pte := ⟨oa, bit v 2, bit v 3, bit v 4, bit v 5, bit v 6, field v 7 2, bit v 9⟩
    if (e.w && !e.r) || e.mt = 3 || field v 10 2 ≠ 0 || bit v 63 || oa % 2 ^ leafBits lvl ≠ 0 then
      .bad
    else .leaf e

/-- Memory type of an MT code, in order of restriction. -/
def mtOf (mt : Nat) : MemType := if mt = 0 then .cacheable else if mt = 1 then .uncached else .device

/-- The more restrictive of two memory types (R74). -/
def MemType.max : MemType → MemType → MemType
  | .device, _ => .device
  | _, .device => .device
  | .uncached, _ => .uncached
  | _, .uncached => .uncached
  | _, _ => .cacheable

/-- Memory type that Table MAP-1 gives an address; the host window counts as device for R56, scratch
as normal cacheable (R74). -/
def attrOf (a : Nat) : MemType :=
  match targetOf a with
  | .regs => .device
  | .host => .device
  | _ => .cacheable

/-! Faults of a translation. -/

/-- The kind of an access (Table CORE-13). -/
inductive AccType where
  | fetch | load | store | atomic
  deriving DecidableEq, Repr

/-- Stage-1 fault code of an access kind. -/
def AccType.s1 : AccType → Nat
  | .fetch => 0x03 | .load => 0x04 | .store => 0x05 | .atomic => 0x04
/-- Stage-2 fault code of an access kind. -/
def AccType.s2 : AccType → Nat
  | .fetch => 0x06 | .load => 0x07 | .store => 0x08 | .atomic => 0x07

/-- Whether permissions satisfy an access. -/
def AccType.allowed (k : AccType) (r w x : Bool) : Bool :=
  match k with
  | .fetch => x
  | .load => r
  | .store => w
  | .atomic => r && w

/-- What a translation gives. -/
inductive Xlat where
  | ok (pa : Nat) (mt : MemType) (s : Bool) (walk : Nat) (st : State)
  | fault (e : Exc) (st : State)
  | sent (st : State)
  | busy

/-! Walks (R76). -/

/-- What a walk accumulates or ends in. -/
inductive Walk (α : Type) where
  | done (x : α) (walk : Nat) (st : State)
  | fault (e : Exc) (st : State)
  | sent (st : State)
  | busy

/-- A leaf found at a level. -/
structure Leaf where
  e   : Pte
  lvl : Nat

/-- The core waits for a line of its walk or fetch, or goes on waiting for its die. -/
def State.awaitLine (s : State) (lc : LC) (walk : Bool) (line : Nat) : State :=
  s.modCore lc fun c => { c with access := match c.access with
    | some { kind := .wait _, .. } => some { kind := .wait walk, parts := [], leave := c.beats.next }
    | _ => some { kind := .line walk line, parts := [], leave := c.beats.next } }

/-- An access that must wait for its die starts anew after the wait: the stall beats that it has met are
counted now. -/
def Core.restart (c : Core) (a : Access) (l1 : Nat) : Core := c.charge 0 a.sbm (a.l1 + l1) 0 a.walk

/-- Whether a core waits for its die. -/
def Core.waitsDie (c : Core) : Bool :=
  match c.access with
  | some { kind := .wait _, .. } => true
  | _ => false

/-- A walk read of 8 B at a physical address: normal cacheable memory through the die cache, 18
beats for a hit, 9 for own-die scratch (R76, R115). Tables are read, not fetched: FETCH is 0. -/
def State.walkRead (s : State) (k0 : Asker) (pa : Nat) : LineRead :=
  let line := pa / 64
  let k := { k0 with fetch := false }
  match SMap.get none (s.core k.lc).got line with
  | some a => LineRead.ofAns s a
  | none =>
    match targetOf pa with
    | .hbm =>
      match s.readDc k line 18 (.access k.lc) with
      | .sent s => .sent (s.awaitLine k.lc true line)
      | r => r
    | .scratch =>
      if scratchDie pa = k.die then s.readScratch k pa 8 .r 9
      else if 12 ≤ scratchWay pa then .bus s
      else .sent ((s.askScratch k pa (.access k.lc)).awaitLine k.lc true line)
    | _ => .bus s

/-- Bits of an input address that index a table at a level. -/
def tblIdx (a lvl : Nat) : Nat := a / 2 ^ (39 - 9 * lvl) % 512

/-- A stage-2 walk of an IPA from a level on; `n` levels remain. Faults carry the given code, TVAL
and SECOND, and the beats of the walk so far (R73, R76, R115). -/
def State.walk2 (s : State) (k : Asker) (ipa code : Nat) (e : Exc) :
    (n lvl base beats : Nat) → Walk Leaf
  | 0, _, _, _ => .fault e s
  | n + 1, lvl, base, beats =>
    let f := { e with code := code, flevel := lvl, tipa := ipa, walk := beats }
    let a := base + 8 * tblIdx ipa lvl
    match s.walkRead k a with
    | .busy => .busy
    | .sent s => .sent s
    | .bus s => .fault { f with fkind := 3 } s
    | .hit d pois b s =>
      let f := { f with walk := beats + b }
      if pois then .fault { f with fkind := 3 } s
      else match pteOf lvl (BitVec.ofNat 64 (Line.bytes d (a % 64) 8)) with
        | .bad => .fault f s
        | .leaf x => .done ⟨x, lvl⟩ (beats + b) s
        | .table oa => State.walk2 s k ipa code e n (lvl + 1) oa (beats + b)

/-- Output address of a leaf for an input address. -/
def Leaf.out (l : Leaf) (a : Nat) : Nat := l.e.oa + a % 2 ^ leafBits l.lvl

/-- Base address in cr.s1base or cr.s2base. -/
def tblBase (v : Word) : Nat := field v 12 36 * 4096

/-- The physical address of a stage-1 table entry: stage 2 translates its IPA where enabled, needs R
and normal cacheable memory (R76). Faults of stage 2 are LOAD_S2. -/
def State.tablePa (s : State) (k : Asker) (ipa lvl : Nat) (e : Exc) (beats : Nat) : Walk Nat :=
  let c := s.core k.lc
  if !bit c.s2base 0 then .done ipa beats s
  else
    let tbl := ipa / 4096 * 4096
    match s.walk2 k ipa 0x07 { e with tipa := tbl } 4 0 (tblBase c.s2base) beats with
    | .busy => .busy
    | .sent s => .sent s
    | .fault f s => .fault { f with tipa := tbl } s
    | .done l b s =>
      if !l.e.r then
        .fault { e with code := 0x07, flevel := l.lvl, fkind := 1, tipa := tbl, walk := b } s
      else if l.e.mt ≠ 0 then .fault { e with flevel := lvl, fkind := 3, walk := b } s
      else .done (l.out ipa) b s

/-- A stage-1 walk of a virtual address from a level on. -/
def State.walk1 (s : State) (k : Asker) (va : Nat) (e : Exc) :
    (n lvl base beats : Nat) → Walk Leaf
  | 0, _, _, _ => .fault e s
  | n + 1, lvl, base, beats =>
    match s.tablePa k (base + 8 * tblIdx va lvl) lvl e beats with
    | .busy => .busy
    | .sent s => .sent s
    | .fault f s => .fault f s
    | .done a beats s =>
      let f := { e with flevel := lvl, walk := beats }
      match s.walkRead k a with
      | .busy => .busy
      | .sent s => .sent s
      | .bus s => .fault { f with fkind := 3 } s
      | .hit d pois b s =>
        let f := { f with walk := beats + b }
        if pois then .fault { f with fkind := 3 } s
        else match pteOf lvl (BitVec.ofNat 64 (Line.bytes d (a % 64) 8)) with
          | .bad => .fault f s
          | .leaf x => .done ⟨x, lvl⟩ (beats + b) s
          | .table oa => State.walk1 s k va e n (lvl + 1) oa (beats + b)

/-! TLBs (R77, R78). -/

/-- Whether an entry matches an address under the core's tags. -/
def TlbEntry.hit (x : TlbEntry) (c : Core) (va : Nat) : Bool :=
  x.va.toNat / 2 ^ x.size = va / 2 ^ x.size && x.world == c.world && x.pid == c.pid
    && x.s1on == bit c.s1base 0 && x.s2on == bit c.s2base 0
    && (!x.s1on || x.global || x.asid == c.asid)

/-- The entry number of an ITLB or DTLB that matches. -/
def l1TlbFind (t : SMap (Option L1TlbWay)) (c : Core) (va : Nat) : Option Nat :=
  (t.find? fun e => match e.2 with
    | some w => w.e.hit c va
    | none => false).map (·.1)

/-- The L2 TLB key, set * 8 + way, of a match; every size is probed (R77). -/
def l2TlbFind (t : Tlbs) (c : Core) (va : Nat) : Option Nat :=
  [12, 21, 30].findSome? fun sz =>
    let set := va / 2 ^ sz % 128
    ((List.range 8).find? fun w => match SMap.get none t.l2 (set * 8 + w) with
      | some x => x.e.size = sz && x.e.hit c va
      | none => false).map fun w => set * 8 + w

/-- An entry put into an ITLB or DTLB: an invalid entry first, else the least recently used one that
is not pinned (R77). -/
def l1TlbFill (t : SMap (Option L1TlbWay)) (tick : Nat) (x : TlbEntry) (pin : Bool) :
    SMap (Option L1TlbWay) :=
  let get := fun i => SMap.get none t i
  match (List.range 32).find? fun i => (get i).isNone with
  | some i => SMap.set none t i (some ⟨x, pin, tick⟩)
  | none =>
    let cand := (List.range 32).filter fun i => match get i with
      | some w => !w.pin
      | none => false
    let used : Nat → Nat := fun i => match get i with
      | some w => w.used
      | none => 0
    match cand with
    | [] => t
    | a :: l => SMap.set none t (l.foldl (fun b i => if used i < used b then i else b) a)
        (some ⟨x, pin, tick⟩)

/-- The L2 TLB with an entry filled, and its key: an invalid way first, else by the set's tree among
unlocked ways (R77). -/
def Tlbs.fillL2 (t : Tlbs) (x : TlbEntry) : Tlbs × Nat :=
  let set := x.va.toNat / 2 ^ x.size % 128
  let get := fun w => SMap.get none t.l2 (set * 8 + w)
  let w := match (List.range 8).find? fun w => (get w).isNone with
    | some w => w
    | none => plruPick (SMap.get 0 t.plru set) (fun w => match get w with
        | some y => !y.lockI && !y.lockD
        | none => true) 3 1 0
  let pl := plruTouch w 3 1 (SMap.get 0 t.plru set)
  ({ t with l2 := SMap.set none t.l2 (set * 8 + w) (some ⟨x, false, false⟩)
            plru := SMap.set 0 t.plru set pl }, set * 8 + w)

/-- An entry used in the ITLB or DTLB becomes its most recently used. -/
def l1TlbUse (t : SMap (Option L1TlbWay)) (tick i : Nat) : SMap (Option L1TlbWay) :=
  match SMap.get none t i with
  | some w => SMap.set none t i (some { w with used := tick })
  | none => t

/-- ITLB or DTLB. -/
def Tlbs.l1 (t : Tlbs) (fetch : Bool) : SMap (Option L1TlbWay) := if fetch then t.itlb else t.dtlb

/-- ITLB or DTLB replaced; the use counter advances. -/
def Tlbs.setL1 (t : Tlbs) (fetch : Bool) (x : SMap (Option L1TlbWay)) : Tlbs :=
  if fetch then { t with itlb := x, tick := t.tick + 1 } else { t with dtlb := x, tick := t.tick + 1 }

/-- Whether a level may use a page by its stage-1 permissions (Table CORE-18). -/
def s1Allows (k : AccType) (lvl : Nat) (r w x u : Bool) : Bool :=
  k.allowed r w x && (if lvl = 0 then u else !(k == .fetch && u))

/-- The check of a combined entry for an access at a level (R73, R74); none passes. -/
def TlbEntry.check (x : TlbEntry) (k : AccType) (lvl : Nat) (e : Exc) (va : Nat) : Option Exc :=
  if x.s1on && !s1Allows k lvl x.r x.w x.x x.u then
    some { e with code := k.s1, flevel := x.s1lvl, fkind := 1 }
  else if x.s2on && !k.allowed x.s2r x.s2w x.s2x then
    some { e with code := k.s2, flevel := x.s2lvl, fkind := 1,
                  tipa := x.ipa.toNat + va % 2 ^ x.size }
  else none

/-- World bit of an access through an entry (R309). -/
def TlbEntry.world' (x : TlbEntry) (c : Core) : Bool := c.world && !x.ns

/-- Result of a translation through an entry. -/
def TlbEntry.give (x : TlbEntry) (c : Core) (va walk : Nat) (s : State) : Xlat :=
  let pa := x.pa.toNat + va % 2 ^ x.size
  .ok pa (x.mtype.max (attrOf pa)) (x.world' c) walk s

/-- Whether an access may use a page by its stage-1 permissions at one of some levels; no level asks
none. -/
def s1AllowsAt (k : AccType) (lvls : List Nat) (r w x u : Bool) : Bool :=
  lvls.isEmpty || lvls.any fun l => s1Allows k l r w x u

/-- A full walk of both stages (R73 to R77): the combined entry, before it enters a TLB. Permissions are
asked for an access at one of `lvls`, none where there is none. A walk is held like a load while stores
older than the last FENCE.SL wait to drain, so that it reads what they wrote (R81); that wait is its
own. -/
def State.walkBoth (s : State) (k : Asker) (acc : AccType) (lvls : List Nat) (va : Nat) (e : Exc) :
    Walk TlbEntry :=
  let c := s.core k.lc
  if 0 < c.fence then .busy
  else
  let held := waitDrains (c.beats.next + if acc = .fetch then 0 else 2) (c.beats.upTo (·.old))
  let b0 := held.1 + held.2
  let on1 := bit c.s1base 0
  let on2 := bit c.s2base 0
  let none1 : Leaf := ⟨⟨0, true, true, true, true, false, 0, false⟩, 0⟩
  let r1 : Walk Leaf :=
    if on1 then s.walk1 k va { e with code := acc.s1 } 4 0 (tblBase c.s1base) b0
    else .done none1 b0 s
  match r1 with
  | .busy => .busy
  | .sent s => .sent s
  | .fault f s => .fault f s
  | .done l1 b1 s =>
    if on1 && !s1AllowsAt acc lvls l1.e.r l1.e.w l1.e.x l1.e.u then
      .fault { e with code := acc.s1, flevel := l1.lvl, fkind := 1, walk := b1 } s
    else
      let ipa := if on1 then l1.out va else va
      let r2 : Walk Leaf :=
        if on2 then s.walk2 k ipa acc.s2 e 4 0 (tblBase c.s2base) b1 else .done none1 b1 s
      match r2 with
      | .busy => .busy
      | .sent s => .sent s
      | .fault f s => .fault f s
      | .done l2 b s =>
        if !lvls.isEmpty && on2 && !acc.allowed l2.e.r l2.e.w l2.e.x then
          .fault { e with code := acc.s2, flevel := l2.lvl, fkind := 1, tipa := ipa, walk := b } s
        else
          let sz1 := if on1 then leafBits l1.lvl else 48
          let sz2 := if on2 then leafBits l2.lvl else 48
          let sz := min sz1 sz2
          let pa := if on2 then l2.out ipa else ipa
          let low := fun (a : Nat) => BitVec.ofNat 48 (a / 2 ^ sz * 2 ^ sz)
          .done { va := low va, pa := low pa, size := sz, world := c.world, pid := c.pid,
                  asid := if on1 then c.asid else 0, global := on1 && l1.e.g, s1on := on1,
                  s2on := on2, r := l1.e.r, w := l1.e.w, x := l1.e.x, u := l1.e.u,
                  s2r := l2.e.r, s2w := l2.e.w, s2x := l2.e.x,
                  mtype := (mtOf l1.e.mt).max (mtOf l2.e.mt), ns := on1 && c.world && l1.e.ns,
                  s1lvl := l1.lvl, s2lvl := l2.lvl, ipa := low ipa } b s

/-- Translates an access of a core at a level (R72 to R77). Beats of TLB refills and walks are
counted under WALK, those of a walk that ends in a fault too. Without `check` no permission is asked (R113, ICL.I). -/
def State.translate (s : State) (k : Asker) (acc : AccType) (lvl : Nat) (va : Word)
    (second : Bool := false) (check : Bool := true) : Xlat :=
  let c := s.core k.lc
  let e : Exc := { code := acc.s1, second := second, tval := va }
  if 2 ≤ lvl then .ok (va.toNat % 2 ^ 64) (attrOf va.toNat) c.world 0 s
  else if field va 48 16 ≠ 0 then .fault { e with fkind := 2 } s
  else if !bit c.s1base 0 && !bit c.s2base 0 then .ok va.toNat (attrOf va.toNat) c.world 0 s
  else
    let fetch := acc == .fetch
    let t := c.tlbs
    let va := va.toNat
    let finish := fun (x : TlbEntry) (walk : Nat) (s : State) =>
      match (if check then x.check acc lvl e va else none) with
      | some f => Xlat.fault { f with walk := walk } s
      | none => x.give c va walk s
    match l1TlbFind (t.l1 fetch) c va with
    | some i =>
      match SMap.get none (t.l1 fetch) i with
      | some w => finish w.e 0 (s.modCore k.lc fun c =>
          { c with tlbs := t.setL1 fetch (l1TlbUse (t.l1 fetch) t.tick i) })
      | none => .busy
    | none =>
      match l2TlbFind t c va with
      | some key =>
        match SMap.get none t.l2 key with
        | some w =>
          let pl := plruTouch (key % 8) 3 1 (SMap.get 0 t.plru (key / 8))
          let t := { t with plru := SMap.set 0 t.plru (key / 8) pl }
          let pin := if fetch then w.lockI else w.lockD
          finish w.e 3 (s.modCore k.lc fun c =>
            { c with tlbs := t.setL1 fetch (l1TlbFill (t.l1 fetch) t.tick w.e pin) })
        | none => .busy
      | none =>
        let s := if c.got.isEmpty then s.modCore k.lc fun c => c.count 0x023 1 else s
        match s.walkBoth k acc (if check then [lvl] else []) va e with
        | .busy => .busy
        | .sent s => .sent s
        | .fault f s => .fault f s
        | .done x b s =>
          let t := (s.core k.lc).tlbs
          let (t, _) := t.fillL2 x
          x.give c va (b + 3) (s.modCore k.lc fun c =>
            { c with tlbs := t.setL1 fetch (l1TlbFill (t.l1 fetch) t.tick x false) })

end Sys2Proof.Machine
end

