-- ==== Sys2Proof/Machine/Trap.lean ====
section
/-!
DEFINITION. Taking an exception (R64 to R70), entering for an interrupt (R119, R122) and for
STORE_BUS, and the boundary at which they are taken.
-/

namespace Sys2Proof.Machine

/-- Entry of the store buffer for one line or one scalar store (R49). -/
def storeEntry (c : Core) (lvl : Nat) (p : Part) (data : Line) : SbEntry :=
  { pa := BitVec.ofNat 64 p.pa, bytes := p.bytes, data := data, mtype := p.mtype,
    level := BitVec.ofNat 2 lvl, s := p.s, pid := c.pid, tclass := c.tclass.extractLsb' 0 4,
    va := p.va }

/-- Free entries of the store buffer (R49). -/
def Core.sbRoom (c : Core) : Nat := 8 - c.sb.length

/-- What the exception entry writes into its frame (Table CORE-15). -/
def frameWords (c : Core) (epc cause tval : Word) (tipa : Nat) : List Word :=
  ((List.range 15).map fun i => c.getG (BitVec.ofNat 5 (i + 1)))
    ++ [epc, c.status, cause, tval, BitVec.ofNat 64 tipa, 0, 0, 0, 0]

/-- Eight words as a line. -/
def lineOfWords (ws : List Word) : Line :=
  BitVec.ofNat 512 (ws.foldr (fun w n => w.toNat + 2 ^ 64 * n) 0)

/-- The CAUSE word of a synchronous exception (Table CORE-14). -/
def Exc.cause (e : Exc) (anyway : Bool) : Word :=
  BitVec.ofNat 64 (e.code + e.flevel * 2 ^ 8 + e.fkind * 2 ^ 10 + b2n e.second * 2 ^ 12
    + b2n anyway * 2 ^ 13)

/-- What is entered: target level, offset, CAUSE, TVAL, TIPA, EPC, the interrupt source to
acknowledge, whether a failed drain is raised by it, its event of Table OBS-1, the cost of a trapping
instruction that counts apart from the entry and whether that instruction retires (Table ISA-17), and
the stall beats met before it. -/
structure Entry where
  tgt   : Nat
  off   : Nat
  cause : Word
  tval  : Word := 0
  tipa  : Nat := 0
  epc   : Word
  ack   : Option Cand := none
  bus   : Bool := false
  ev    : Nat
  cost  : Nat := 0
  done  : Bool := false
  sb    : Nat := 0
  l1    : Nat := 0
  walk  : Nat := 0

/-- The core stops: it retires nothing more and reports a core fault (R68). -/
def State.coreStop (s : State) (lc : LC) (loc : Word) : State :=
  let s := match s.placeOf lc with
    | some p => s.report (BitVec.ofNat 12 ((p / 20 + 1) * 256 + p % 20)) 0x14
        ((p / 20 + 1) * 256 + p % 20) lc.val (some loc.toNat)
    | none => s
  s.modCore lc fun c => { c with halts := c.halts ++ [.stackLimit], step := false }

/-- Translates the lines of a frame as stores of the level entered. -/
def State.frameLines (s : State) (k : Asker) (lvl : Nat) (acc : AccType) :
    List Word → Walk (List Part)
  | [] => .done [] 0 s
  | va :: rest =>
    match s.translate k acc lvl va with
    | .busy => .busy
    | .sent s => .sent s
    | .fault e s => .fault e s
    | .ok pa mt ws b s =>
      match State.frameLines s k lvl acc rest with
      | .done ps b' s => .done (⟨va, pa, 64, mt, ws⟩ :: ps) (b + b') s
      | .fault e s => .fault { e with walk := e.walk + b } s
      | .sent s => .sent s
      | .busy => .busy

/-- Beats that an exception entry waits before its frame is written: g1 to g15 are read when outstanding
loads have written them, and the frame's lines wait in M for the others (R44, R67, R101). -/
def Core.entryWait (c : Core) : Nat :=
  c.beats.scr.foldl (fun t e => max t (if 64 < e.dest && e.dest < 80 then e.returns else e.performed))
    c.beats.next - c.beats.next

/-- Entry once the frame address is known to lie within the limit (Table CORE-16); none where the
store buffer has no room, and the core waits. Beyond its 14 beats and those of a trapping instruction,
waits for room, for scratch loads and for the translation of the frame are stall beats (R67). -/
def State.enterFrame (s : State) (k : Asker) (e : Entry) (sp : Word) (scr : Nat) : Option State :=
  let lc := k.lc
  let c := s.core lc
  if c.sbRoom < 3 then none
  else
    let c0 := c
    let world := e.tgt = 3 || c.world
    -- the frame lies on the target level's stack: its lines are stores of that level and world
    let st := BitVec.ofNat 64 (e.tgt + 4 * b2n world)
    match (s.setCore lc { c with status := st }).frameLines k e.tgt .store [sp, sp + 64, sp + 128]
      with
    | .busy => none
    | .sent s => some (s.modCore lc fun c => { c with status := c0.status })
    | .fault _ s => some ((s.modCore lc fun c => { c with status := c0.status }).coreStop lc sp)
    | .done ps walk s =>
      let ws := frameWords c0 e.epc e.cause e.tval e.tipa
      let s := match e.ack with
        | some a => s.acknowledge lc a
        | none => s
      let s := s.modCore lc fun c =>
        let ents := (ps.zip [ws.take 8, (ws.drop 8).take 8, ws.drop 16]).map fun x =>
          storeEntry c e.tgt x.1 (lineOfWords x.2)
        let room := c.roomWait c.beats.next 3
        let c := (({ c with status := c0.status } : Core).charge (14 + e.cost)
          (e.sb + max room.1 (scr - room.2)) (e.l1 + room.2) 0 (e.walk + walk)).count e.ev 1
        let c := if e.done then c.count 3 1 else c
        let c := match e.ack with
          | some a => c.logRec 4 1 [BitVec.ofNat 64 (a.id * 256)]
          | none => if e.bus then c.logRec 4 1 [1] else c
        { c with
          sb := c.sb ++ ents
          xsp := SMap.set 0 c.xsp e.tgt sp
          status := st
          pc := (SMap.get 0 c.vbar e.tgt &&& ~~~0xFF#64) + BitVec.ofNat 64 e.off
          sbErr := if e.bus then c.sbErr.drop 1 else c.sbErr
          inWait := false, access := none, pfq := [], got := [], step := false }
      some s

/-- Exception entry (R67, R68): a frame that would lie below cr.xlim raises STACK_LIMIT to M
instead, and stops the core if the target was M. -/
def State.enter (s : State) (k : Asker) (e : Entry) : Option State :=
  let lc := k.lc
  let scr := (s.core lc).entryWait
  let s := s.modCore lc Core.settle
  let c := s.core lc
  let xsp := SMap.get 0 c.xsp e.tgt
  let sp := xsp - 192
  let ok := fun (lvl : Nat) =>
    192 ≤ (SMap.get 0 c.xsp lvl).toNat &&
      (SMap.get 0 c.xlim lvl).toNat ≤ (SMap.get 0 c.xsp lvl).toNat - 192
  if ok e.tgt then s.enterFrame k e sp scr
  else if e.tgt = 3 then some (s.coreStop lc sp)
  else if ok 3 then
    s.enterFrame k { e with tgt := 3, off := 0x100, cause := 0x14, tval := sp, tipa := 0, ack := none
                            ev := 0x016 } (SMap.get 0 c.xsp 3 - 192) scr
  else some (s.coreStop lc sp)

/-- The level a synchronous exception is routed to (Table CORE-13): the fixed level of the cause, or
"own"; never below the current level. -/
def routeOf (code lvl : Nat) : Nat :=
  let fixed :=
    if 0x03 ≤ code && code ≤ 0x05 then 1
    else if 0x06 ≤ code && code ≤ 0x08 then 2
    else if code = 0x10 then 1
    else if code = 0x11 then 2
    else if code = 0x12 then 3
    else 1
  max fixed lvl

/-- A synchronous exception is taken (R64, R69). `cost` is that of a trapping instruction, which retires
where epc names the next one (R46, Table ISA-17). -/
def State.raise (s : State) (k : Asker) (e : Exc) (cost : Nat := 0) : Option State :=
  let c := s.core k.lc
  let tgt := routeOf e.code c.level
  s.enter k
    { tgt := tgt, ev := 0x016, cost := cost, done := e.next, sb := e.sb, l1 := e.l1, walk := e.walk, off := if c.level < tgt then 0 else 0x40, cause := e.cause false, tval := e.tval,
      tipa := e.tipa, epc := if e.next then c.pc + 4 else c.pc }

/-- STORE_BUS is raised for the oldest failed drain (R70). -/
def State.raiseStoreBus (s : State) (k : Asker) (b : BusErr) : Option State :=
  let c := s.core k.lc
  let want := if b.level ≤ 1 then 1 else b.level.toNat
  let tgt := max want c.level
  let x : Exc := { code := 0x0C }
  s.enter k
    { ev := 0x016, bus := true, tgt := tgt, off := 0xC0, cause := x.cause (want < c.level), tval := b.addr, epc := c.pc }

/-- An interrupt is entered at its T_eff (R119, R122). -/
def State.enterInterrupt (s : State) (k : Asker) (src : Cand) (tgt : Nat) : Option State :=
  s.enter k
    { ev := 0x030, tgt := tgt, off := 0x80, cause := BitVec.ofNat 64 (2 ^ 63 + src.id),
      epc := (s.core k.lc).pc, ack := some src }

/-- A core as the maker of requests; none for a lost core. -/
def State.asker (s : State) (lc : LC) : Option Asker :=
  match s.dieOf lc with
  | none => none
  | some d => some ⟨lc, d, s.slotOf lc, (s.core lc).world, false⟩

/-- What is taken at the boundary before the next instruction, if anything: STORE_BUS first, then an
interrupt (R70, R119). -/
def State.boundary (s : State) (k : Asker) : Option (Option State) :=
  match (s.core k.lc).sbErr with
  | b :: _ => some (s.raiseStoreBus k b)
  | [] => match s.due k.lc with
    | some (src, tgt) => some (s.enterInterrupt k src tgt)
    | none => none

end Sys2Proof.Machine
end

