-- ==== Sys2Proof/Machine/Lsu.lean ====
section
/-!
DEFINITION. Fetch, loads and stores in M, and the drain of the store buffer (R39 to R42, R49 to R60,
R99 to R101, R107, R115).
-/

namespace Sys2Proof.Machine

/-! Register space (Table MAP-2, R235). -/

/-- The logical core whose window holds an address of the register space, and the offset in it. -/
def windowAt (a : Nat) : Option (LC × Nat) :=
  let o := a - 0xF001000000
  if h : 0xF001000000 ≤ a ∧ o / 0x10000 < 216 then some (⟨o / 0x10000, h.2⟩, o % 0x10000) else none

/-- Words of a die block that are assigned: the distributor's (Tables INT-3 to INT-8) and the range engine's
(Tables CACHE-8 to CACHE-14). -/
def dieWordAssigned (o : Nat) : Bool :=
  let rng := fun (a b : Nat) => a ≤ o && o < b
  o ≤ 0xC || rng 0x084 0x100 || rng 0x104 0x180 || rng 0x184 0x200 || rng 0x204 0x280 || rng 0x284 0x300
    || rng 0x304 0x380 || rng 0x384 0x400 || rng 0x420 0x800 || rng 0x1080 0x2000 || rng 0x2080 0x3000
    || rng 0x10000 0x1002C || rng 0x10030 0x1003C

/-- Words of the hub block that are assigned: mailboxes, time, Loupes, FOLD_DEVBELL, and the serial units with
the GPIO (Tables CMD-2, WLD-10, OBS-4, FOLD-4, PKG-10). -/
def hubWordAssigned (o : Nat) : Bool :=
  if o < 0x2000 then
    let k := o % 0x800
    k ≤ 0x10 || (0x100 ≤ k && k < 0x300) || (0x400 ≤ k && k < 0x600)
  else if 0x4000 ≤ o && o < 0x6C00 then (inTable (loupeRegs ((o - 0x4000) / 0x100)) (o % 0x100)).isSome
  else if 0x9000 ≤ o && o < 0x9080 then o % 0x40 ≤ 8
  else if 0x9100 ≤ o && o < 0x9180 then o % 0x40 ≤ 8 || (0x10 ≤ o % 0x40 && o % 0x40 < 0x20)
  else [0x2000, 0x2004, 0x2100, 0x2104, 0x2108, 0x2110, 0x2114, 0x8000, 0x8004].contains o
    || (0x9200 ≤ o && o < 0x9280)

/-- The station that serves an access of `n` bytes to the register space outside the own-core window; none
where a word of it is unassigned, so that no station receives it (R22, R235). -/
def State.devStation (s : State) (a n : Nat) (w : Accessor) : Option Station :=
  let o := a - 0xF000000000
  match windowAt a with
  | some (lc, off) =>
    if (wordsOf off n).all fun x => (s.windowWord lc x w).isSome then
      (s.placeOf lc).map fun p => BitVec.ofNat 12 ((p / 20 + 1) * 256 + p % 20)
    else none
  | none =>
    if 0x10000000 ≤ o && o < 0x10000000 + 12 * 0x100000 then
      let d := (o - 0x10000000) / 0x100000
      if h : d < 12 then
        if (wordsOf (o % 0x100000) n).all dieWordAssigned then some (intdStation ⟨d, h⟩) else none
      else none
    else if 0x20000000 ≤ o && o < 0x20010000 then
      if (wordsOf (o % 0x10000) n).all hubWordAssigned then some shepStation else none
    else none

/-- Whether an address lies in the own-core window. -/
def ownWindow (a : Nat) : Bool := 0xF000000000 ≤ a && a < 0xF000010000

/-! Fetch. -/

/-- What the fetch of the word at the pc gives. -/
inductive Fetch where
  | ok (s : State)
  | fault (e : Exc) (s : State)
  | sent (s : State)
  | busy

/-- Whether a store-buffer entry overlaps bytes of memory. -/
def SbEntry.overlaps (e : SbEntry) (a n : Nat) : Bool :=
  e.pa.toNat < a + n && a < e.pa.toNat + e.bytes

/-- A fetched sector is kept in the die cache while a reflection window is open (R427). -/
def State.keepSector (s : State) (k : Asker) (pa : Nat) : State :=
  match (s.core k.lc).win with
  | none => s
  | some w =>
    let sec := pa / 256
    if targetOf pa ≠ .hbm || w.sectors.contains sec then s
    else
      let s := s.modCore k.lc fun c => { c with win := some { w with sectors := w.sectors ++ [sec] } }
      s.modDie k.die fun x => match x.wayOf (pa / 64) with
        | some i => x.setSec (dcSet (pa / 64)) i { x.sec (dcSet (pa / 64)) i with kept := true }
        | none => x

/-- A fetch with the line that was read: poisoned words give IFETCH_BUS and install nothing (Table
CACHE-5); else the line may enter L1I. The wait is counted under L1 (R39). -/
def fetchLine (k : Asker) (line : Nat) (install : Bool) (e : Exc) : LineRead → Fetch
  | .busy => .busy
  | .sent s => .sent (s.awaitLine k.lc false line)
  | .bus s => .fault e s
  | .hit _ pois b s =>
    if pois then .fault { e with l1 := b } s
    else
      let s := s.modCore k.lc fun c => (c.count 0x021 1).charge 0 0 b 0 0
      let s := if install then s.fillL1i k.die k.lc ⟨line, .s, k.s⟩ else s
      .ok (s.keepSector k (line * 64))

/-- A word that L1I may hold reaches the prefetch queue (R39, R40, R95, R113, R146, R152, R180): what its
translation and its line wait for is counted under WALK and L1. A refill of a line that store-buffer
entries overlap first waits for them to drain, under PFQ. -/
def State.fetchWord (s : State) (k0 : Asker) (pc : Word) : Fetch :=
  let c := s.core k0.lc
  let k0 := { k0 with fetch := true }
  match s.translate k0 .fetch c.level pc with
  | .busy => .busy
  | .sent s => .sent s
  | .fault e s => .fault e s
  | .ok pa mt ws walk s =>
    let s := s.modCore k0.lc fun c => c.charge 0 0 0 0 walk
    let k := { k0 with s := ws }
    let line := pa / 64
    let e : Exc := { code := 0x0D, tval := pc }
    let cached := (targetOf pa == .hbm && mt == .cacheable)
      || (targetOf pa == .scratch && scratchDie pa == k.die)
    let l1hit := match c.l1i.wayOf line, c.l1i.find line with
      | some w, some l => if cached && l.world == ws then some w else none
      | _, _ => none
    match l1hit with
    | some w =>
      .ok ((s.modCore k.lc fun c => { c with l1i := c.l1i.touch line w }).keepSector k pa)
    | none =>
      if c.sb.any fun x => x.overlaps (line * 64) 64 then .busy
      else
        let b := c.beats.upTo fun d => d.pa < line * 64 + 64 && line * 64 < d.pa + d.bytes
        let w := waitDrains (s.core k.lc).beats.next b
        let s := s.modCore k.lc fun c => c.charge 0 0 0 (w.1 + w.2) 0
        match SMap.get none c.got line with
        | some a => fetchLine k line false e (LineRead.ofAns s a)
        | none =>
          match targetOf pa with
          | .hbm =>
            if mt = .cacheable then
              let r := if (c.l1i.wayOf line).isSome then s.askHome k line true (.access k.lc)
                else s.readDc k line 16 (.access k.lc)
              fetchLine k line true e r
            else fetchLine k line false e (s.askHome k line true (.access k.lc))
          | .scratch =>
            if scratchDie pa = k.die then
              fetchLine k line true e (s.readScratch k (line * 64) 64 .x 12)
            else if 12 ≤ scratchWay pa then .fault e s
            else .sent ((s.askScratch k pa (.access k.lc)).awaitLine k.lc false line)
          | .host =>
            .sent ((s.slotReq k .hostRd portAStation (line * 64) 64 0 none 0
              (c.status.extractLsb' 0 2) c.pid (c.tclass.extractLsb' 0 4)
              (.access k.lc)).awaitLine k.lc false line)
          | _ => .fault e s

/-- The word at the pc reaches F: one that stands in the prefetch queue is not fetched again, and a fault
held with it is taken now (R40, R530). -/
def State.fetch (s : State) (k : Asker) : Fetch :=
  match (s.core k.lc).pfq with
  | none :: _ => .ok s
  | some e :: _ => .fault e s
  | [] => s.fetchWord k (s.core k.lc).pc

/-- What completing the fill of the prefetch queue gives. -/
inductive Fill where
  | ok (q : List (Option Exc)) (s : State)
  | sent (s : State)
  | busy

/-- `n` more words enter the prefetch queue behind those of `q`, which follow `pc`; a fault is held with its
word, and no word after it is fetched (R40, R530). -/
def State.fillQueue (s : State) (k : Asker) (pc : Word) : Nat → List (Option Exc) → Fill
  | 0, q => .ok q s
  | n + 1, q =>
    if q.any (·.isSome) then .ok q s
    else match s.fetchWord k (pc + BitVec.ofNat 64 (4 * (q.length + 1))) with
      | .busy => .busy
      | .sent s => .sent s
      | .fault e s => .ok (q ++ [some e]) s
      | .ok s => State.fillQueue s k pc n (q ++ [none])

/-- As a store passes M, the queue completes its fill of PC+4 to PC+16: words of an older fill keep the value
they were fetched with (R40, R41, Table CORE-2). -/
def State.prefill (s : State) (k : Asker) : Fill :=
  let c := s.core k.lc
  let q := c.pfq.drop 1
  s.fillQueue k c.pc (4 - q.length) q

/-! Reads in M. -/

/-- Whether an access is one of device memory or the host window, which never takes data from the store
buffer and waits for every older store of that kind (R50). -/
def Part.device (p : Part) : Bool :=
  p.mtype == .device || targetOf p.pa == .regs || targetOf p.pa == .host

/-- One part of a load: what the store buffer supplies, or where the data lies (R50, Table ISA-18).
The flag tells an own-die scratch load that is sent to the array. -/
def State.readPart (s : State) (k0 : Asker) (p : Part) : LineRead × Bool :=
  let lc := k0.lc
  let c := s.core lc
  let k := { k0 with s := p.s }
  let line := p.pa / 64
  let tgt := targetOf p.pa
  if p.device && c.sb.any (fun e => e.mtype == .device) then (.busy, false)
  else match c.sb.reverse.find? fun e => e.overlaps p.pa p.bytes with
  | some e =>
    if e.pa.toNat ≤ p.pa && p.pa + p.bytes ≤ e.pa.toNat + e.bytes && e.mtype ≠ .device
        && !p.device then
      let x := Line.bytes e.data (e.pa.toNat % 64 + (p.pa - e.pa.toNat)) p.bytes
      (.hit (Line.place (p.pa % 64) x) false 0 s, false)
    else (.busy, false)
  | none =>
    match tgt with
    | .hbm =>
      if p.mtype = .cacheable then
        match c.l1d.wayOf line, c.l1d.find line with
        | some w, some l =>
          if l.world == p.s then
            (.hit ((s.die k.die).sub line).data ((s.die k.die).sub line).pois 0
              (s.modCore lc fun c => { c with l1d := c.l1d.touch line w }), false)
          else (s.askHome k line true (.access lc), false)
        | _, _ =>
          let s := s.modCore lc fun c => c.count 0x020 1
          match State.readDc s k line 16 (.access lc) with
          | .hit d pois b s => (.hit d pois b (s.fillL1d k.die lc ⟨line, .s, p.s⟩), false)
          | r => (r, false)
      else (s.askHome k line true (.access lc), false)
    | .scratch =>
      if scratchDie p.pa = k.die then (s.readScratch k p.pa p.bytes .r 0, true)
      else if 12 ≤ scratchWay p.pa then (.bus s, false)
      else (.sent (s.askScratch k p.pa (.access lc)), false)
    | .regs =>
      if p.bytes = 64 then (.bus s, false)
      else if ownWindow p.pa then
        let rd := fun off => s.windowRead lc off (c.accessor lc) true
        match readWords rd (p.pa % 0x10000) p.bytes with
        | some v => (.hit (Line.place (p.pa % 64) v) false 4 s, false)
        | none => (.bus s, false)
      else match s.devStation p.pa p.bytes (c.accessor lc) with
        | none => (.bus s, false)
        | some st =>
          (.sent (s.slotReq k .devRd st p.pa p.bytes 0 none 0 (c.status.extractLsb' 0 2) c.pid
            (c.tclass.extractLsb' 0 4) (.access lc)), false)
    | .host =>
      (.sent (s.slotReq k .hostRd portAStation p.pa p.bytes 0 none 0
        (c.status.extractLsb' 0 2) c.pid (c.tclass.extractLsb' 0 4) (.access lc)), false)
    | .unmapped => (.bus s, false)

/-- What the parts of an access gave: the value, stall beats under L1, and whether a part is an
own-die scratch load, carries poison, or met a bus error, and the number of the part that did. -/
structure Gather where
  val  : Nat := 0
  at'  : Nat := 0
  l1   : Nat := 0
  scr  : Bool := false
  pois : Bool := false
  bus  : Bool := false
  bad  : Nat := 0
  done : List Ans := []

/-- A part's answer taken into account. -/
def Gather.add (g : Gather) (p : Part) (a : Ans) (b : Nat) (scr : Bool) : Gather :=
  match a with
  | .bus => { g with bus := true, bad := g.done.length, l1 := g.l1 + b, done := g.done ++ [a] }
  | .data d pois =>
    { g with bad := if pois && !g.pois then g.done.length else g.bad, val := g.val + Line.bytes d (p.pa % 64) p.bytes * 2 ^ (8 * g.at'),
             at' := g.at' + p.bytes, l1 := g.l1 + b, scr := g.scr || scr, pois := g.pois || pois,
             done := g.done ++ [a] }

/-- Reading the parts of an access in order. -/
inductive Gathered where
  | all (g : Gather) (s : State)
  | sent (g : Gather) (s : State)
  | busy

/-- Reads the parts in address order, answers first (R59). -/
def State.gather (s : State) (k : Asker) : List Part → List Ans → Gather → Gathered
  | [], _, g => .all g s
  | p :: ps, a :: as, g =>
    let g := g.add p a 0 false
    if g.bus then .all g s else State.gather s k ps as g
  | p :: ps, [], g =>
    match s.readPart k p with
    | (.busy, _) => .busy
    | (.sent s, _) => .sent g s
    | (.bus s, _) => .all (g.add p .bus (if ownWindow p.pa then 4 else 0) false) s
    | (.hit d pois b s, scr) => State.gather s k ps [] (g.add p (.data d pois) b scr)

/-! Address halves and alignment (R55 to R57, R65). -/

/-- The outcome of translating the halves of an access. -/
inductive Halves where
  | ok (ps : List Part) (walk : Nat) (s : State)
  | fault (e : Exc) (s : State)
  | sent (s : State)
  | busy

/-- Translates a scalar access of `n` bytes, split where it crosses a line, with the ALIGN cases of
R56 in the order of R65. -/
def State.halves (s : State) (k : Asker) (acc : AccType) (va : Word) (n : Nat) : Halves :=
  let lvl := (s.core k.lc).level
  let o := va.toNat % 64
  let unaligned := va.toNat % n ≠ 0
  let n1 := if o + n ≤ 64 then n else 64 - o
  let isDev := fun (mt : MemType) (pa : Nat) => mt == .device || targetOf pa == .host
  match s.translate k acc lvl va with
  | .busy => .busy
  | .sent s => .sent s
  | .fault e s => .fault e s
  | .ok pa mt ws b s =>
    if unaligned && isDev mt pa then .fault { code := 0x09, tval := va, walk := b } s
    else
      let p : Part := ⟨va, pa, n1, mt, ws⟩
      if n1 = n then .ok [p] b s
      else
        let va2 := va + BitVec.ofNat 64 n1
        match s.translate k acc lvl va2 true with
        | .busy => .busy
        | .sent s => .sent s
        | .fault e s => .fault { e with walk := e.walk + b } s
        | .ok pa2 mt2 ws2 b2 s =>
          if isDev mt2 pa2 || mt2 ≠ mt then
            .fault { code := 0x09, tval := va2, second := true, walk := b + b2 } s
          else .ok [p, ⟨va2, pa2, n - n1, mt2, ws2⟩] (b + b2) s

/-- A line access by vector load or store: unaligned is ALIGN before any translation (R65). -/
def State.lineAccess (s : State) (k : Asker) (acc : AccType) (va : Word) : Halves :=
  if va.toNat % 64 ≠ 0 then .fault { code := 0x09, tval := va } s
  else match s.translate k acc (s.core k.lc).level va with
    | .busy => .busy
    | .sent s => .sent s
    | .fault e s => .fault e s
    | .ok pa mt ws b s => .ok [⟨va, pa, 64, mt, ws⟩] b s

/-! Waits in M for scratch loads (R101). -/

/-- Beats that an access other than an own-die scratch load waits in M from beat `m`. -/
def Core.mWait (c : Core) (m : Nat) : Nat :=
  c.beats.scr.foldl (fun t e => max t e.performed) m - m

/-- Beats that a scratch load waits in M: a fifth waits until the oldest returns. -/
def Core.mWaitScr (c : Core) (m : Nat) : Nat :=
  let out := (c.beats.scr.filter fun e => m < e.returns)
  if 4 ≤ out.length then max m ((out[out.length - 4]?).elim 0 (·.returns)) - m else 0

/-! Completion of a load. -/

/-- Sign or zero extension of a loaded value of `n` bytes. -/
def extend (n : Nat) (sext : Bool) (v : Nat) : Word :=
  if sext then BitVec.ofInt 64 (signed (8 * n) v) else BitVec.ofNat 64 v

/-- A load, VLD or other read whose data has come completes (R92, R93, R99, R100, R107). `leave` is
the beat it left S, the other counts its stalls in M. -/
def Core.loadDone (c : Core) (kind : AccKind) (split : Bool) (leave sbm l1 walk : Nat) (v : Nat)
    (scr : Bool) : Core :=
  let stalls := sbm + l1 + walk
  let c := c.charge 0 sbm l1 0 walk
  let extra := if split then 1 else 0
  let c := ((c.retire (c.pc + 4) (1 + extra)).count 0x011 1).count 0x013 extra
  let c := match kind with
    | .vload _ => c.logRec 3 5 (0 :: (List.range 8).map fun i => BitVec.ofNat 64 (v / 2 ^ (64 * i)))
    | _ => c.logRec 2 1 [BitVec.ofNat 64 v]
  match kind with
  | .load bytes sext rd =>
    let x := extend bytes sext v
    if scr then
      let r := leave + 9 + extra + stalls
      let b := c.beats.setReady (gIdx rd) r
      let e : ScrLoad := ⟨leave + 6 + extra + stalls, r, gIdx rd, x.zeroExtend 512⟩
      { c with beats := { b with scr := b.scr ++ [e] } }
    else c.result rd x leave (2 + extra + stalls)
  | .vload vd =>
    let c := c.count 0x014 1
    let start := max leave c.beats.vFree
    if scr then
      let r := start + 9 + stalls
      let b := c.beats.setReady (vIdx vd) r
      let e : ScrLoad := ⟨leave + 6 + stalls, r, vIdx vd, BitVec.ofNat 512 v⟩
      ({ c with beats := { b with scr := b.scr ++ [e] } } : Core).dispatch leave 1 (9 + stalls) [] 64 0 0
    else c.dispatch leave 1 (3 + stalls) [] (vIdx vd) (BitVec.ofNat 512 v) 0
  | _ => c

/-- The drains that a load of some parts waits for in M: those older than a FENCE.SL, those that its bytes
overlap only in part, and for a device access those of device stores (R50, R54). -/
def loadWaits (ps : List Part) (d : Drained) : Bool :=
  d.old || ps.any fun p =>
    (p.device && d.dev) || (p.pa < d.pa + d.bytes && d.pa < p.pa + p.bytes
      && !(d.pa ≤ p.pa && p.pa + p.bytes ≤ d.pa + d.bytes))

/-- A load in M, from the first attempt or as answers arrive: the parts are read in order; a bus
error or poisoned data is the exception of the access (R60, R64, R65). None where it waits; a load
that has to wait again after an answer starts anew. DESIGN CHOICE: a load of own-die scratch that
takes its data from the store buffer is no scratch load for R101 and waits in M for the outstanding
ones (log entry 19). -/
def State.loadStep (s : State) (k : Asker) (a : Access) : Option State :=
  let c := s.core k.lc
  match s.gather k a.parts a.got {} with
  | .busy => if a.got.isEmpty then none
    else some (s.setCore k.lc { c.restart a 0 with access := none })
  | .sent g s =>
    some (s.modCore k.lc fun c =>
      if c.waitsDie then c.restart a g.l1
      else { c with access := some { a with got := g.done, l1 := a.l1 + g.l1 } })
  | .all g s =>
    let s := s.modCore k.lc fun c => { c with access := none }
    let m := a.leave + 2 + a.walk
    let w := c.memWait m (if g.scr then c.mWaitScr m else c.mWait m) (loadWaits a.parts)
    let sbm := a.sbm + w.1
    let l1 := a.l1 + g.l1 + w.2
    let e : Exc := { code := 0x0A, second := g.bad = 1, tval := (a.parts[g.bad]?).elim 0 (·.va)
                     sb := sbm, l1 := l1, walk := a.walk }
    if g.bus then s.raise k e
    else if g.pois then s.raise k { e with code := 0x0B }
    else some (s.modCore k.lc fun c =>
      c.loadDone a.kind (a.parts.length = 2) a.leave sbm l1 a.walk g.val g.scr)

/-! Stores. -/

/-- The L1I lines that a store overlaps are invalid in the storing core's L1I from M (R40). -/
def State.storeL1i (s : State) (k : Asker) (line : Nat) : State :=
  match (s.core k.lc).l1i.find line with
  | none => s
  | some _ =>
    let s := s.modCore k.lc fun c => { c with l1i := c.l1i.drop line }
    s.modDie k.die fun x => x.modSub line fun u =>
      { u with l1i := u.l1i &&& ~~~(BitVec.ofNat 20 (2 ^ k.slot)) }

/-- A store passes M and leaves W: the fill of the prefetch queue is completed, then one entry per part
stands behind the older ones (R40, R49, R59); none where the buffer has no room or the fill has to
wait, and the instruction waits. `vs` is the register that VST reads when V starts it (R102, R103). -/
def State.storeDone (s : State) (k : Asker) (ps : List Part) (data : Nat) (t walk : Nat)
    (vs : Option Reg) : Option State :=
  if (s.core k.lc).sbRoom < ps.length then none
  else match s.prefill k with
  | .busy => none
  | .sent s => some s
  | .ok words s =>
    let c := s.core k.lc
    let n1 := ps.head?.elim 0 (·.bytes)
    let ents := ps.zipIdx.map fun x =>
      storeEntry c c.level x.1
        (Line.place (x.1.pa % 64) (data / 2 ^ (8 * (if x.2 = 0 then 0 else n1)) % 2 ^ (8 * x.1.bytes)))
    let extra := ps.length - 1
    let slot := c.roomWait t ps.length
    let sbm := c.mWait (t + slot.1 + slot.2 + 2 + walk)
    let s := s.modCore k.lc fun c =>
      let c := c.charge 0 (sbm + slot.1) slot.2 0 walk
      let c := ((c.retire (c.pc + 4) (1 + extra)).count 0x012 1).count 0x013 extra
      let c := match vs with
        | some r => (c.dispatch t 1 1 [vIdx r] 64 0 0).count 0x014 1
        | none => c
      let c := ents.foldl (fun c e => c.logStore e.pa.toNat e.bytes
        (Line.bytes e.data (e.pa.toNat % 64) e.bytes)) c
      { c with sb := c.sb ++ ents, pfq := words }
    some (ps.foldl (fun s p => s.storeL1i k (p.pa / 64)) s)

/-! Drains (R49, R70, R115, R152, R153). -/

/-- What the drain of an entry meets: performed at once in some beats, fixed or not; a bus error;
a request sent; or a wait. -/
inductive Drain where
  | done (beats : Nat) (fixed : Bool) (s : State)
  | bus (s : State)
  | sent (s : State)
  | busy

/-- Byte mask of an entry within its line. -/
def SbEntry.mask (e : SbEntry) : BitVec 64 :=
  if e.bytes = 64 then fullMask else byteMask (e.pa.toNat % 64) e.bytes

/-- Data merged into a sub-block held with write permission, which becomes dirty (R140, R192). -/
def State.writeSub (s : State) (d : Die) (line : Nat) (data : Line) (m : BitVec 64) : State :=
  s.modDie d fun x => x.modSub line fun u =>
    { u with st := .m, data := Line.merge u.data data m }

/-- One 8 B word of scratch written under its mask: a full word clears a poison mark, part of a
poisoned word changes nothing (R152). -/
def State.scratchWord (s : State) (w : Nat) (m : BitVec 8) (v : Nat) : State :=
  if m = 0 then s
  else if m = 255 then
    { s with mem := writeBytes s.mem 8 (8 * w) 255 v, poisWord := SMap.set false s.poisWord w false }
  else if SMap.get false s.poisWord w then s
  else { s with mem := writeBytes s.mem 8 (8 * w) m.toNat v }

/-- A scratch line written under a byte mask, word by word; every L1I copy on the die is
invalidated (R152, R153). -/
def State.scratchWrite (s : State) (line : Nat) (data : Line) (m : BitVec 64) : State :=
  let s := (List.range 8).foldl (fun s i =>
    s.scratchWord (line * 8 + i) (m.extractLsb' (8 * i) 8) (Line.bytes data (8 * i) 8)) s
  let d := scratchDie (line * 64)
  (s.lcsOf d).foldl (fun s lc =>
    match (s.core lc).l1i.find line with
    | some _ => s.modCore lc fun c => { c with l1iPend := c.l1iPend ++ [line] }
    | none => s) s

/-- A request of a drain to the home (R180, R186). -/
def State.drainAsk (s : State) (k : Asker) (e : SbEntry) (kind : MsgKind) (line way : Nat) :
    Drain :=
  let whole := kind == .wrUnique
  let m : Msg := { kind := kind, dest := homeOfLine line, src := 0, s := e.s, pid := e.pid,
                   tclass := e.tclass, addr := BitVec.ofNat 48 (line * 64 + way), bmask := if whole then e.mask else 0,
                   data := if whole then some e.data else none }
  match s.bankReq k.die k.lc m way (.drain k.lc) with
  | some s => .sent s
  | none => .busy

/-- A cacheable store drains (Tables CACHE-2, ISA-18; R186, R189, R311). -/
def State.drainHbm (s : State) (k : Asker) (e : SbEntry) : Drain :=
  let c := s.core k.lc
  let line := e.pa.toNat / 64
  let x := s.die k.die
  let own := match c.l1d.find line with
    | some l => (l.st == CState.e || l.st == CState.m) && l.world == e.s
    | none => false
  if e.mtype ≠ .cacheable then
    if s.lineBusy k.die line || x.evicting line then .busy else s.drainAsk k e .wrUnique line 0
  else if own then
    let s := s.modCore k.lc fun c => { c with l1d := (c.l1d.fill ⟨line, .m, e.s⟩).1 }
    .done 1 true (s.writeSub k.die line e.data e.mask)
  else
    let u : Sub := x.sub line
    let take := fun (s : State) =>
      (s.fillL1d k.die k.lc ⟨line, .m, e.s⟩).writeSub k.die line e.data e.mask
    match x.wayOf line with
    | some w =>
      if u.st ≠ .i && u.world != e.s then
        if s.lineBusy k.die line then .busy else s.drainAsk k e .wrUnique line 0
      else if u.st = .e || u.st = .m then
        let others := (slotsOf u.l1d ++ slotsOf u.l1i).any fun i => i ≠ k.slot
        let s := s.modDie k.die fun x => x.touch line w
        if others then
          let (b, s) := (s.invalL1 k.die line (some k.slot)).takeBeats
          .done (b + 1) false (take s)
        else .done 17 true (take s)
      else if s.lineBusy k.die line then .busy
      else if u.st = .s then s.drainAsk k e .upgrade line w
      else if x.evicting line then .busy
      else (s.missed k.lc).drainAsk k e .rdUnique line w
    | none =>
      if s.lineBusy k.die line || x.evicting line then .busy
      else match s.alloc k.die line (.core k.lc) (s.classOf k.die e.pid e.tclass) with
        | .full => .busy
        | .noVictim =>
          ((s.count16 (cpAddr (dcsStation k.die) 0x118) 1).missed k.lc).drainAsk k e .wrUnique line 0
        | .way w s => (s.missed k.lc).drainAsk k e .rdUnique line w

/-- A store performed at the own-core window; none is a bus error. -/
def State.windowStore (s : State) (lc : LC) (e : SbEntry) : Option State :=
  let w : Accessor := ⟨e.level, e.s, e.pid, BitVec.ofNat 8 lc.val⟩
  let o := e.pa.toNat % 0x10000
  writeWords (fun s off v m => s.windowWrite lc off v m w true) s o e.bytes
    (Line.bytes e.data (e.pa.toNat % 64) e.bytes)

/-- The drain of the oldest entry. -/
def State.drainOne (s : State) (k0 : Asker) (e : SbEntry) : Drain :=
  let k := { k0 with s := e.s }
  let a := e.pa.toNat
  let req := fun (kind : MsgKind) (st : Station) =>
    Drain.sent (s.slotReq k kind st a e.bytes 1 (some e.data) e.mask e.level e.pid e.tclass
      (.drain k.lc))
  match targetOf a with
  | .hbm => s.drainHbm k e
  | .scratch =>
    if scratchDie a ≠ k.die && scratchWay a < 12 then
      let s := s.modCore k.lc fun c => c.count 0x026 1
      Drain.sent (s.slotReq k .scrWr (scratchBank a) a e.bytes 1 (some e.data) e.mask e.level e.pid e.tclass
        (.drain k.lc))
    else if !s.scratchOk a then .bus s
    else
      let (ok, s) := s.checkPasture (dcsStation k.die) 16 a e.s e.pid .w
        (slotStation k.die k.slot)
      if ok then .done 3 true (s.scratchWrite (a / 64) e.data e.mask) else .bus s
  | .regs =>
    if e.bytes = 64 then .bus s
    else if ownWindow a then match s.windowStore k.lc e with
      | some s => .done 4 true s
      | none => .bus s
    else match s.devStation a e.bytes ⟨e.level, e.s, e.pid, BitVec.ofNat 8 k.lc.val⟩ with
      | some st => req .devWr st
      | none => .bus s
  | .host => req .hostWr portAStation
  | .unmapped => .bus s

/-- The oldest entry has drained in some beats, with success or with a bus error (R49, R70). DESIGN
CHOICE: STORE_BUS reports the virtual address of the store, since Table CORE-13 says "address" of it as
of ALIGN and LOAD_BUS (log entry 128). -/
def State.drained (s : State) (lc : LC) (beats : Nat) (fixed : Bool) (err : Bool) : State :=
  s.modCore lc fun c =>
    match c.sb with
    | [] => c
    | e :: rest =>
      let f := max c.beats.drain c.beats.next + beats
      let d : Drained := ⟨e.pa.toNat, e.bytes, f, fixed, e.mtype == .device, 0 < c.fence⟩
      let b := { c.beats with drain := f
                              past := c.beats.past.filter (fun d => c.beats.next < d.finish) ++ [d] }
      { c with sb := rest, beats := b, fence := c.fence - 1,
               sbErr := if err then c.sbErr ++ [⟨e.va, e.level⟩] else c.sbErr }

end Sys2Proof.Machine
end

