-- ==== Sys2Proof/Machine/PcieConfig.lean ====
section
/-!
DEFINITION. The configuration space of PCIe port A (R337 to R341, R350, R356), what it sends to the host, and its
correctable errors. The registers' places within each standard capability are those of the PCI Express Base
Specification (PRESUMED, log 56).
-/

namespace Sys2Proof.Machine

/-- Control-plane address of a port A register (Table PCIE-10). -/
def pcieAddr (off : Nat) : Nat := cpAddr portAStation off

/-- The state with port A changed. -/
def State.modPcie (s : State) (f : Pcie → Pcie) : State := { s with pcie := f s.pcie }

/-! Configuration space. A word is named by its byte offset. -/

/-- What a word of a function's configuration space reads after reset (Table PCIE-2). -/
def cfgReset (pf : Bool) (off : Nat) : Nat :=
  if off = 0x000 then (if pf then 0xA2161F7A else 0xFFFFFFFF)
  else if off = 0x004 then 0x00100000
  else if off = 0x008 then 0x12000011
  else if off = 0x010 then (if pf then 0x4 else 0)
  else if off = 0x018 then (if pf then 0xC else 0)
  else if off = 0x02C then 0x00011F7A
  else if off = 0x034 then 0x40
  else if off = 0x040 then 0x00035001
  else if off = 0x050 then (if pf then 0x07FF7011 else 0x003F7011)
  else if off = 0x054 then (if pf then 0x80000 else 0x2000)
  else if off = 0x058 then (if pf then 0x90000 else 0x3000)
  else if off = 0x070 then 0x00020010
  else if off = 0x074 then 0x10008022
  else if off = 0x078 then 0x00002000
  else if off = 0x07C then 0x00000905
  else if off = 0x094 then 0x00030000
  else if off = 0x09C then 0x0000003E
  else if off = 0x0A0 then 0x00000005
  else if off = 0x100 then 0x14820001
  else if off = 0x108 then 0x00400000
  else if off = 0x10C then 0x00462030
  else if off = 0x114 then 0x0000E000
  else if off = 0x118 then 0x000000A0
  else if off = 0x148 then (if pf then 0x15410003 else 0x0001000E)
  else if off = 0x154 then (if pf then 0x1601000E else 0)
  else if pf then
    if off = 0x160 then 0x1A010010
    else if off = 0x16C then 0x04000400
    else if off = 0x174 then 0x00010001
    else if off = 0x178 then 0xA2170000
    else if off = 0x17C then 1
    else if off = 0x180 then 1
    else if off = 0x184 then 0x4
    else if off = 0x18C then 0xC
    else if off = 0x1A0 then 0x0001000B
    else if off = 0x1A4 then 0x01010001
    else 0
  else 0

/-- Bits of a word that a configuration write sets. -/
def cfgMask (pf : Bool) (off : Nat) : Nat :=
  if off = 0x004 then (if pf then 0x506 else 0x004)
  else if off = 0x010 then (if pf then 0xFFF00000 else 0)
  else if off = 0x014 then (if pf then 0xFFFFFFFF else 0)
  else if off = 0x018 then 0
  else if off = 0x01C then (if pf then 0xFFFFFFFC else 0)
  else if off = 0x03C then (if pf then 0xFF else 0)
  else if off = 0x044 then 0x3
  else if off = 0x050 then 0xC0000000
  else if off = 0x078 then 0x70EF
  else if off = 0x080 then (if pf then 0x2 else 0)
  else if off = 0x098 then (if pf then 0x1000 else 0)
  else if off = 0x108 || off = 0x10C then 0x007FF030
  else if off = 0x114 then 0x0000F1C1
  else if off = 0x118 then 0x00000140
  else if pf then
    if off = 0x168 then 0x19
    else if off = 0x170 then 0xFFFF
    else if off = 0x180 then 1
    else if off = 0x184 then 0xFFFFC000
    else if off = 0x188 then 0xFFFFFFFF
    else if off = 0x18C then 0xFC000000
    else if off = 0x190 then 0xFFFFFFFF
    else 0
  else 0

/-- Bits that a configuration write of 1 clears. -/
def cfgW1c (off : Nat) : Nat :=
  if off = 0x004 then 0xF9000000
  else if off = 0x078 then 0x000F0000
  else if off = 0x104 then 0x007FF030
  else if off = 0x110 then 0x0000F1C1
  else 0

/-- Key of a configuration word. -/
def cfgKey (f : Func) (off : Nat) : Nat := f.val * 1024 + off / 4

/-- A stored configuration word. -/
def State.cfg (s : State) (f : Func) (off : Nat) : Word32 :=
  SMap.get (BitVec.ofNat 32 (cfgReset (f.val = 0) off)) s.pcie.cfg (cfgKey f off)

/-- A stored configuration word replaced. -/
def State.setCfg (s : State) (f : Func) (off : Nat) (v : Word32) : State :=
  let d : Word32 := BitVec.ofNat 32 (cfgReset (f.val = 0) off)
  s.modPcie fun p => { p with cfg := SMap.set d p.cfg (cfgKey f off) v }

/-- The physical function. -/
def pf : Func := 0

/-- Whether port A is frozen (R351). -/
def State.frozen (s : State) : Bool := s.cpField (pcieAddr 0x00C) 0 1 = 1

/-- Whether PERST_N is asserted. -/
def State.perst (s : State) : Bool := s.cpField (pcieAddr 0) 9 1 = 1

/-- Whether DL_Active is 1. -/
def State.dlUp (s : State) : Bool := s.cpField (pcieAddr 0) 0 1 = 1

/-- Whether a function exists for the host: the PF, or an enabled VF (R340). -/
def State.fnOn (s : State) (f : Func) : Bool :=
  f.val = 0 || (bit (s.cfg pf 0x168) 0 && f.val ≤ field (s.cfg pf 0x170) 0 16)

/-- Whether a function may issue requests: Bus Master Enable. -/
def State.busMaster (s : State) (f : Func) : Bool := bit (s.cfg f 0x004) 2

/-- Whether a function answers memory requests: D0 and Memory Space Enable (Table PCIE-4). -/
def State.memOn (s : State) (f : Func) : Bool :=
  field (s.cfg f 0x044) 0 2 = 0 &&
    (if f.val = 0 then bit (s.cfg f 0x004) 1 else bit (s.cfg pf 0x168) 3)

/-- Max Payload Size of a function in bytes. -/
def State.maxPayload (s : State) (f : Func) : Nat := min 512 (128 * 2 ^ field (s.cfg f 0x078) 5 3)

/-- A TLP goes to the host. -/
def State.toHost (s : State) (t : HostTlp) : State :=
  s.modPcie fun p => { p with sent := p.sent ++ [t] }

/-- A completion for an inbound request. -/
def State.hostCpl (s : State) (f : Func) (tag : BitVec 10) (status : BitVec 3) (data : List Byte)
    (addr : Nat := 0) (ep : Bool := false) : State :=
  s.toHost { kind := .completion, fn := f, tag := tag, status := status, data := data,
             addr := BitVec.ofNat 64 addr, ep := ep, bytes := data.length }

/-- An error message of a function goes to the host: severity 0 correctable, 1 non-fatal, 2 fatal (DESIGN CHOICE: codes
of the model). -/
def State.errMessage (s : State) (f : Func) (sev : BitVec 2) : State :=
  s.toHost { kind := .error sev, fn := f }

/-- A correctable error at AER bit `b` (Table PCIE-6): its status bits, and ERR_COR where neither the mask nor the
function's reporting enable keeps it back. -/
def State.pcieCorrected (s : State) (f : Func) (b : Nat) : State :=
  let s := s.setCfg f 0x110 (setBit (s.cfg f 0x110) b true)
  let s := s.setCfg f 0x078 (setBit (s.cfg f 0x078) 16 true)
  if !bit (s.cfg f 0x114) b && bit (s.cfg f 0x078) 0 && s.dlUp then s.errMessage f 0 else s

end Sys2Proof.Machine
end

