-- ==== Sys2Proof/Machine/Route.lean ====
section
/-!
DEFINITION. The routes of messages through the mesh (R226 to R228), the port byte counters of the
routers (R494, R495), and the Loupes that watch them (R501 to R504). A message is examined at all
points of its path when it reaches its station (DESIGN CHOICE).
-/

namespace Sys2Proof

/-- Flits of a message (R231). -/
def Msg.flits (m : Msg) : Nat := if m.data.isSome || m.poisoned then 2 else 1

/-- The virtual channel of a message (Tables COH-1 and FAB-3), coded as in RTR_PORT_STATE. -/
def Msg.vc (m : Msg) : Nat :=
  let c := m.kind.code
  if c < 0x10 || (0x30 ≤ c && c < 0x38) then (if m.hi then 1 else 0)
  else if c < 0x18 then 2
  else match m.kind with
    | .ansGoneData | .ansSharedData | .ansKeepData | .grantS | .grantE | .readData | .atomicOld
    | .ncData => 4
    | .intMsg | .tlbBcast => 5
    | _ => 3

/-- Header flit bits [127:0] of a message (Table FAB-2). -/
def Msg.header (m : Msg) : Word × Word :=
  let df := if m.flits = 2 then 1 else 0
  (BitVec.ofNat 64 (m.dest.toNat + m.src.toNat * 2 ^ 12 + m.kind.code * 2 ^ 24
    + m.txid.toNat * 2 ^ 32 + m.tclass.toNat * 2 ^ 46 + m.prio.toNat * 2 ^ 50 + Machine.b2n m.s * 2 ^ 52
    + m.pid.toNat * 2 ^ 53 + df * 2 ^ 61 + Machine.b2n m.fetch * 2 ^ 62),
   BitVec.ofNat 64 (m.epoch.toNat + m.addr.toNat * 2 ^ 16))

end Sys2Proof

namespace Sys2Proof.Machine

/-! Power domains. -/

/-- Control-plane address of a power register (Table PWR-9). -/
def pwrAddr (off : Nat) : Nat := cpAddr shepStation (0x80000 + off)

/-- State of a power domain: 0 on, 1 off, 2 clock stopped (Table PWR-9). -/
def State.domState (s : State) (k : Nat) : Nat :=
  s.cpField (pwrAddr (0x60 + 4 * (k / 16))) (2 * (k % 16)) 2

/-! Attachments (Table FAB-1). -/

/-- Column and row of the edge router of hub Prism port `n`. -/
def portRouter (n : Nat) : Nat × Nat :=
  (if n % 6 < 3 then n % 6 else n % 6 + 1, if n < 6 then 0 else 3)

/-- Local port `k` of hub Prism port `n`: column, row, and port index (4 for L0, 5 for L1). -/
def prismLocal (n k : Nat) : Nat × Nat × Nat :=
  let (x, y) := portRouter n
  if k = 0 then (x, y, 4) else if k = 1 then (x, y, 5)
  else (x, if y = 0 then 1 else 2, 4)

/-- A home's L1 port: of its lower-numbered router, or of its other one. -/
def homeLocal (q : Nat) (low : Bool) : Nat × Nat × Nat :=
  let x0 := if q % 2 = 0 then 1 else 4
  (if low then x0 else x0 + 1, if q < 2 then 1 else 2, 5)

/-- The local port of a station's unit, for a message whose other end is station `other` (R227);
none for a unit that the mesh does not reach. -/
def localPort (st other : Station) : Option (Nat × Nat × Nat) :=
  match dieOfStation st with
  | some d => some (prismLocal d.val (unitOf other % 3))
  | none => match unitKind st with
    | some (.home q) => some (homeLocal q (other.toNat % 2 = 0))
    | some (.mc q) => some (if q % 2 = 0 then 0 else 6, if q < 2 then 1 else 2, 5)
    | some .portA => some (3, 0, 4)
    | some .fold => some (3, 0, 5)
    | some .mirror => some (3, 1, 4)
    | some .shepherd => some (3, 1, 5)
    | some (.ce c) => some (3, 2 + c / 2, 4 + c % 2)
    | _ => none

/-- A router that a message passes: router 7y + x, the port it enters and the port it leaves, coded
0 north, 1 south, 2 east, 3 west, 4 L0, 5 L1 (R495). -/
structure Hop where
  router : Nat
  inp    : Nat
  out    : Nat
  deriving DecidableEq, Repr

/-- The hops from a router on: along X to the exit column, then along Y, then out (R228). -/
def hopsFrom (tx ty tp : Nat) : Nat → Nat → Nat → Nat → List Hop
  | 0, _, _, _ => []
  | n + 1, x, y, inp =>
    let r := 7 * y + x
    if x < tx then ⟨r, inp, 2⟩ :: hopsFrom tx ty tp n (x + 1) y 3
    else if tx < x then ⟨r, inp, 3⟩ :: hopsFrom tx ty tp n (x - 1) y 2
    else if y < ty then ⟨r, inp, 1⟩ :: hopsFrom tx ty tp n x (y + 1) 0
    else if ty < y then ⟨r, inp, 0⟩ :: hopsFrom tx ty tp n x (y - 1) 1
    else [⟨r, inp, tp⟩]

/-- The path of a message from one station to another; empty within one die. -/
def pathOf (src dest : Station) : List Hop :=
  if (dieOfStation src).isSome && dieOfStation src = dieOfStation dest then []
  else match localPort src dest, localPort dest src with
    | some (x, y, p), some (tx, ty, tp) => hopsFrom tx ty tp 11 x y p
    | _, _ => []

/-! Router counters (R494). -/

/-- The key of a counter of a router, port and direction (0 out, 1 in). -/
def bwKey (r p d : Nat) : Nat := 12 * r + 2 * p + d

/-- Flits counted at a port. -/
def State.countFlits (s : State) (k n : Nat) : State :=
  { s with
    rtrBytes := SMap.set 0 s.rtrBytes k (SMap.get 0 s.rtrBytes k + BitVec.ofNat 48 (64 * n))
    rtrWin := SMap.set 0 s.rtrWin k (SMap.get 0 s.rtrWin k + n) }

/-! Loupes. -/

/-- Control-plane address of a Loupe's register (Table OBS-7). -/
def lpAddr (k off : Nat) : Nat := cpAddr (loupeStation k) off

/-- A Loupe beside its registers. -/
def State.loupe (s : State) (k : Nat) : Loupe := SMap.get {} s.loupes k

/-- The state with a Loupe replaced. -/
def State.setLoupe (s : State) (k : Nat) (x : Loupe) : State :=
  { s with loupes := SMap.set {} s.loupes k x }

/-- The quadrant whose trace SRAM a Loupe writes (Table OBS-6). -/
def loupeQuad (k : Nat) : Nat :=
  if k < 28 then (if k % 7 ≤ 3 then 0 else 1) + (if k / 7 ≤ 1 then 0 else 2)
  else if k < 32 then k - 28
  else (k - 32) / 3

/-- Whether a message passes the point and direction that a Loupe watches (R501, Table OBS-6). -/
def State.passesLoupe (s : State) (k : Nat) (m : Msg) (path : List Hop) : Bool :=
  let sel := s.cpGet (lpAddr k 0x04)
  let dir := bit sel 3
  if k < 32 then
    let r := if k < 28 then k else field sel 4 5
    path.any fun h => h.router = r && (if dir then h.inp else h.out) = field sel 0 3
  else
    let d := k - 32
    let on := fun (st : Station) => (dieOfStation st).any fun x => x.val = d
    !path.isEmpty && (if dir then on m.src else on m.dest)

/-- Whether a message is visible to a Loupe's owner (R502). -/
def State.visible (s : State) (k : Nat) (m : Msg) : Bool :=
  let o := s.cpGet (lpAddr k 0x100)
  let req := (1 ≤ m.kind.code && m.kind.code ≤ 9) || (0x30 ≤ m.kind.code && m.kind.code ≤ 0x35)
  bit o 10 && (bit o 9 || (if bit o 8 then !m.s
    else req && !m.s && m.pid == o.extractLsb' 0 8))

/-- Whether every enabled filter of a Loupe passes (Table OBS-7). -/
def State.filters (s : State) (k : Nat) (m : Msg) : Bool :=
  let f := s.cpGet (lpAddr k 0x08)
  let c := s.cpGet (lpAddr k 0x0C)
  let masked := fun (off : Nat) (st : Station) =>
    let w := s.cpGet (lpAddr k off)
    let mask : BitVec 12 := w.extractLsb' 16 12
    (st ^^^ w.extractLsb' 0 12) &&& mask == 0
  let line := fun (off : Nat) => (s.cpGet64 (lpAddr k off)).toNat / 64
  field f 0 8 ≤ m.kind.code && m.kind.code ≤ field f 8 8 && bit f (16 + m.vc)
    && bit c m.tclass.toNat
    && (!bit c 16 || m.s == bit c 17)
    && (!bit c 18 || m.pid == c.extractLsb' 19 8)
    && (!bit c 27 || (line 0x18 ≤ m.addr.toNat / 64 && m.addr.toNat / 64 ≤ line 0x20))
    && masked 0x10 m.src && masked 0x14 m.dest

/-- Whether tracing is suspended: Shed-1 or deeper, or a state other than P0 (R504, R496). -/
def State.calm (s : State) : Bool :=
  let w := s.cpGet (cpAddr shepStation 0x80000)
  field w 0 3 ≠ 0 || field w 8 5 ≠ 0

/-- Traces are suspended: the first entry that each writes afterwards carries GAP (R504). -/
def State.traceGap (s : State) : State :=
  (List.range 44).foldl (fun s k =>
    if s.cpField (lpAddr k 0x2C) 0 1 = 1 then s.setLoupe k { s.loupe k with gap := true } else s) s

/-- A trace entry is written at WIDX, unless the trace is suspended (R503, R504). -/
def State.traceEntry (s : State) (k : Nat) (m : Msg) : State :=
  let x := s.loupe k
  let st := s.cpGet (lpAddr k 0x2C)
  if !bit st 0 then s
  else if s.calm then s.setLoupe k { x with num := x.num + 1 }
  else
    let cap := x.slices * 2048
    let widx := field st 8 15
    let base := loupeQuad k * 2 ^ 17 + field st 4 4 * 8192 + 4 * widx
    let (h0, h1) := m.header
    let w0 : Word := BitVec.ofNat 64 (s.tb.toNat % 2 ^ 40
      + b2n (m.flits = 2) * 2 ^ 40 + b2n m.poisoned * 2 ^ 41 + b2n x.gap * 2 ^ 42
      + m.vc * 2 ^ 43 + s.cpField (lpAddr k 0x04) 3 1 * 2 ^ 46)
    let put := fun (t : SMap Word) (i : Nat) (w : Word) => SMap.set 0 t (base + i) w
    let t := put (put (put (put s.trace 0 w0) 1 h0) 2 h1) 3 (BitVec.ofNat 64 (x.num % 2 ^ 32))
    let s := ({ s with trace := t } : State).setLoupe k { x with num := x.num + 1, gap := false }
    let stop := s.cpField (lpAddr k 0x28) 4 1 = 1
    let last := widx + 1 = cap
    let st := setField st 8 15 (if last && !stop then 0 else widx + 1)
    let st := if last then setField st 1 1 1 else st
    s.cpSet (lpAddr k 0x2C) (if last && stop then setField st 0 1 0 else st)

/-- A 48-bit Loupe count advances. -/
def State.lpCount (s : State) (k off n : Nat) : State :=
  s.cpSet64 (lpAddr k off) (BitVec.ofNat 64 (((s.cpGet64 (lpAddr k off)).toNat + n) % 2 ^ 48))

/-- A Loupe examines a message (R502). -/
def State.examine (s : State) (m : Msg) (path : List Hop) (k : Nat) : State :=
  let ctl := s.cpGet (lpAddr k 0)
  let run := s.cpField (lpAddr k 0x2C) 0 1 = 1
  if (!bit ctl 0 && !run) || s.domState 60 ≠ 0 then s
  else if s.passesLoupe k m path && s.visible k m && s.filters k m then
    let s := if bit ctl 0 then (s.lpCount k 0x40 1).lpCount k 0x48 (64 * m.flits) else s
    s.traceEntry k m
  else s

/-- A message has passed along its path: counted at every router port, examined by every Loupe. -/
def State.passed (s : State) (m : Msg) : State :=
  let path := pathOf m.src m.dest
  let n := m.flits
  let s := path.foldl (fun s h =>
    (s.countFlits (bwKey h.router h.inp 1) n).countFlits (bwKey h.router h.out 0) n) s
  if path.isEmpty then s else (List.range 44).foldl (fun s k => s.examine m path k) s

end Sys2Proof.Machine
end

