-- ==== Sys2Proof/Machine/Fabric.lean ====
section
/-!
DEFINITION. The packet fabric as messages meet it (R228 to R249): domains that are off, fenced sites,
commands sent to a station of the wrong kind, and the role-epoch check of answers.
-/

namespace Sys2Proof.Machine

/-- The power domain of a station; none where it is not switched (Table PWR-3). A distributor and a
core's crossbar port are reached through the die's Prism port. -/
def domainOf (st : Station) : Option Nat :=
  match dieOfStation st, unitKind st with
  | some d, some (.slot k) => some (4 * d.val + if k < 10 then 0 else 1)
  | some d, some (.bank _) => some (4 * d.val + 2)
  | some d, some .diePort => some (4 * d.val + 3)
  | some d, some .intd => some (4 * d.val + 3)
  | none, some (.home q) => some (48 + q)
  | none, some (.mc q) => some (52 + q)
  | none, some .portA => some 56
  | none, some .mirror => some 57
  | none, some (.loupe _) => some 60
  | none, some .fold => some 61
  | none, some (.ce _) => some 61
  | _, _ => none

/-- Whether a station's domain is off, or the station is held in reset until cold reset (Table SAFE-13). -/
def State.isOff (s : State) (st : Station) : Bool :=
  s.shep.heldUnits.contains st || match domainOf st with
  | some k => s.domState k = 1
  | none => false

/-- Whether a site is fenced, as the router nearest it holds it (R243, Table FAB-7). -/
def State.fencedSite (s : State) (d : Die) : Bool :=
  let (x, y) := portRouter d.val
  bit (s.cpGet (cpAddr (routerStation x y) 0x004)) (siteOf d)

/-- PRISM_STATUS.STATE of a die's hub port (Table PRISM-10). -/
def State.linkState (s : State) (d : Die) : Nat := s.cpField (cpAddr (hubPortStation d.val) 0) 0 3

/-- Whether the hub answers for a whole site (R243, R278): it is fenced, its link is lost, or its port's domain is
off. -/
def State.siteDown (s : State) (d : Die) : Bool :=
  s.fencedSite d || 5 ≤ s.linkState d || s.domState (4 * d.val + 3) = 1

/-- Whether a station is answered for under R243: its domain is off, its site is fenced against a
message that comes from elsewhere, its link is lost (R278), or its slot is fenced at the crossbar (R257). -/
def State.isDown (s : State) (st src : Station) : Bool :=
  s.isOff st ||
  match dieOfStation st with
  | none => false
  | some d => (s.siteDown d && dieOfStation src ≠ some d) || s.slotFenced st

/-- A message of the bridge, router or crossbar that answers for a station: where that is the hub, it enters the
fabric there. -/
def State.putNear (s : State) (m : Msg) : State :=
  let hubSide := match dieOfStation m.src with
    | some d => s.siteDown d
    | none => true
  if hubSide then
    { s with net := s.net ++ [{ routed m with cross := (routed m).cross.filter fun p => !p.hub }] }
  else s.put m

/-- What the nearest bridge, router or crossbar answers on behalf of a station that is down (R243, R257): an
answer to it is sunk, which ends its transaction. -/
def State.proxy (s : State) (m : Msg) : State :=
  match m.kind with
  | .rdShared | .rdUnique | .rdOnce | .wrUnique | .upgrade | .atomicAtHome | .cmo | .evict
  | .writeBack =>
    s.putNear { replyTo m .homeRefuse with addr := BitVec.ofNat 48 (m.addr.toNat / 64 * 64) }
  | .scrRd | .scrWr | .devRd | .devWr | .hostRd | .hostWr => s.putNear (replyTo m .ncErr)
  | .intMsg => s.putNear (replyTo m .intAck)
  | .tlbBcast => s.putNear (replyTo m .tlbAck)
  | _ => if m.kind.isAnswer then (s.findReq m).elim s s.endReq else s

/-- A message dropped as a command that its station does not take (R180, R234). -/
def State.badCmd (s : State) (m : Msg) : State :=
  (s.cpSetField (cpAddr m.dest 0xFF010) 3 1 1).report m.dest 0x1B m.src.toNat m.addr.toNat
    (some m.kind.code)

/-- Whether a message has still to pass a Prism link (R267, R284): the hub answers for a site that is down before the
link to it. -/
def State.linkWaits (s : State) (m : Msg) : Bool :=
  let near := match dieOfStation m.dest with
    | some d => s.siteDown d && dieOfStation m.src ≠ some d
    | none => false
  (if near then m.cross.any (·.hub) else !m.cross.isEmpty)
    || s.net.any fun x => { x with cross := [] } == { m.bare with cross := [] } && x.cross != m.cross

/-- Whether a message would overtake one sent before it from its source to its destination on its virtual
channel (R241). -/
def State.overtakes (s : State) (m : Msg) : Bool :=
  (s.net.takeWhile fun x => x != m.bare).any fun x => x.src == m.src && x.dest == m.dest && x.vc == m.vc

/-! The checks of flits (R230, R233). -/

/-- Words of a data flit that show the poison syndrome 0xF0: all eight of a flit sent poisoned, but for those
in which a check finds another one. -/
def poisonWords (c : FlitCheck) (poisoned : Bool) : Nat :=
  if poisoned then 8 - (c.ue.filter fun x => x.2 ≠ 0xF0).length
  else (c.ue.filter fun x => x.2 = 0xF0).length

/-- One check of a flit of a message: single-bit errors are corrected, counted and reported; a header with an
uncorrectable word is lost with its data flit; a data flit with one goes on poisoned (R230, R233). Port A signals
Corrected Internal Error for each word that it corrects (R350). -/
def State.checkFlit (c : FlitCheck) (m : Msg) (s : State) : Option Msg × State :=
  let a := cpAddr c.st 0xFF010
  let s := if c.ce.isEmpty then s
    else ((s.cpSetField a 0 1 1).countAt a 16 16 c.ce.length)
  let s := c.ce.foldl (fun s _ =>
    let s := s.report c.st 0x18 c.st.toNat
    if c.st = portAStation then s.pcieCorrected pf 14 else s) s
  if c.ue.isEmpty then (some m, s)
  else if !c.data then (none, (s.cpSetField a 1 1 1).report c.st 0x1A c.st.toNat)
  else if m.flits = 1 then (some m, s)
  else
    let p := { m with poisoned := true, data := some 0 }
    if 5 ≤ poisonWords c m.poisoned then (some p, s)
    else (some p, (s.cpSetField a 2 1 1).report c.st 0x19 c.st.toNat m.addr.toNat)

/-- The checks on a message's way in turn; none where its header is lost. -/
def State.checkFlits : List FlitCheck → Msg → State → Option Msg × State
  | [], m, s => (some m, s)
  | c :: cs, m, s => match State.checkFlit c m s with
    | (none, s) => (none, s)
    | (some m, s) => State.checkFlits cs m s

/-- Whether a code is one that neither table lists. -/
def unlisted : MsgKind → Bool
  | .other _ => true
  | _ => false

/-- A message of kind `k` reaches its station, in the order of its route and once it has passed its links: it leaves the fabric and is answered
for, lost to a check of its flits, dropped as a command that the station does not take, dropped as stale, or
handled. A handler that answers none waits, and the message stays where it is; so does a message of another
listed kind, which is another command's. -/
def State.deliver (s : State) (m : Msg) (k : MsgKind) (ok : UnitKind → Bool)
    (f : Msg → State → Option State) : Out :=
  let down := s.isDown m.dest m.src
  if (m.kind ≠ k && !unlisted m.kind) || s.overtakes m || s.linkWaits m then .next s
  else match State.checkFlits m.checks m.bare ((s.recv m).passed m.bare) with
  | (none, s') => .next s'
  | (some m, s') =>
    if down then .next (s'.proxy m)
    else match unitKind m.dest with
    | none => .next (s'.badCmd m)
    | some u =>
      if m.kind ≠ k || !ok u then .next (s'.badCmd m)
      else if s'.stale m then .next (s'.dropStale m)
      else .next ((f m s').getD s)

/-- Whether a unit is a home. -/
def UnitKind.isHome : UnitKind → Bool
  | .home _ => true
  | _ => false

/-- Whether a unit is a die-cache bank. -/
def UnitKind.isBank : UnitKind → Bool
  | .bank _ => true
  | _ => false

/-- The quadrant of a home's station. -/
def quadOfHome (st : Station) : Quad := ⟨st.toNat % 4, by omega⟩

/-- Whether a home takes entries (HA_STATUS.ACCEPT). -/
def State.accepts (s : State) (q : Quad) : Bool := s.cpField (cpAddr (homeStation q) 0) 0 1 = 1

end Sys2Proof.Machine
end

