-- ==== Sys2Proof/Machine/Home.lean ====
section
/-!
DEFINITION. Home agents (R171 to R193): duplicate tags, the MSC (R155, R156), the pending table, the
flows of Tables COH-4 to COH-13, crossing evictions (R188), and the dirty-page log of mirrored
regions (R193, R451, R452).
-/

namespace Sys2Proof

/-! Messages of coherence (R181, Tables COH-2 and COH-14). -/

/-- Line of a coherence message. -/
def Msg.line (m : Msg) : Nat := m.addr.toNat / 64

/-- Low address bits of a coherence message (Table COH-2). -/
def Msg.low (m : Msg) : Nat := m.addr.toNat % 64

/-- Whether address bits [5:0] carry only what Table COH-2 gives a message (R181). -/
def Msg.lowOk (m : Msg) : Bool :=
  let l := m.low
  match m.kind with
  | .rdShared | .rdUnique | .upgrade => l < 16
  | .writeBack => l < 2
  | .atomicAtHome => l % 8 < 7
  | .cmo => l < 8
  | .snpInval => l < 8 && l % 4 ≠ 3 && !(l % 4 = 0 && l = 4)
  | .ansGone | .ansShared | .ansKeep | .ansGoneData | .ansSharedData | .ansKeepData =>
    l < 2 || 32 ≤ l
  | .homeDone => l < 13
  | _ => l = 0

/-- The permission of Table COH-14. -/
def Msg.permAtHome (m : Msg) : Option Machine.Perm :=
  match m.kind with
  | .rdShared | .rdOnce => some (if m.fetch then .x else .r)
  | .rdUnique | .upgrade | .wrUnique | .atomicAtHome => some .w
  | .cmo => some (if m.low % 4 = 3 || m.low % 4 = 1 then .w else .r)
  | _ => none

end Sys2Proof

namespace Sys2Proof.Machine

/-! Duplicate tags (R176, R177). -/

/-- Key of a duplicate-tag way. -/
def dtKey (d : Die) (set w : Nat) : Nat := d.val * 2 ^ 17 + set * 16 + w

/-- A duplicate-tag way. -/
def State.dtSec (s : State) (d : Die) (set w : Nat) : DtSec := SMap.get {} s.dt (dtKey d set w)

/-- The state in which a die's duplicate tags hold a line. -/
def State.dtState (s : State) (d : Die) (line : Nat) : CState :=
  ((List.range 16).filterMap fun w =>
    let x := s.dtSec d (dcSet line) w
    let c := SMap.get CState.i x.st (line % 4)
    if x.tag = some (line / 4) && c ≠ .i then some c else none).head?.getD .i

/-- A line's state in a die's duplicate tags, in every way that has its tag; a line that leaves E
leaves the E list (R451). -/
def State.setDt (s : State) (d : Die) (line : Nat) (c : CState) : State :=
  let s := (List.range 16).foldl (fun s w =>
    let x := s.dtSec d (dcSet line) w
    if x.tag = some (line / 4) then
      { s with dt := SMap.set {} s.dt (dtKey d (dcSet line) w)
                        { x with st := SMap.set CState.i x.st (line % 4) c } }
    else s) s
  if c = .e then s
  else s.modHome (quadOf (64 * line)) fun h => { h with eList := h.eList.filter (· ≠ line) }

/-- The requester's entry written in the way it chose (R177). -/
def State.grantDt (s : State) (d : Die) (line w : Nat) (c : CState) : State :=
  let x := s.dtSec d (dcSet line) w
  let st := if x.tag = some (line / 4) then x.st else []
  { s with dt := SMap.set {} s.dt (dtKey d (dcSet line) w)
                    { tag := some (line / 4), st := SMap.set CState.i st (line % 4) c } }

/-- The dies that hold a line, with their states (R178). -/
def State.holders (s : State) (line : Nat) : List (Die × CState) :=
  ((List.finRange 12).map fun d => (d, s.dtState d line)).filter fun x => x.2 ≠ .i

/-! The MSC (R155, R156). -/

/-- Set of a line: PA[19:6] XOR PA[33:20]. -/
def mscSet (line : Nat) : Nat := (line % 2 ^ 14) ^^^ (line / 2 ^ 14 % 2 ^ 14)

/-- The way of an MSC that holds a line. -/
def Msc.wayOf (x : Msc) (line : Nat) : Option Nat :=
  (List.range 16).find? fun w => match SMap.get none x.ways (mscSet line * 16 + w) with
    | some l => l.line == line
    | none => false

/-- The line an MSC holds. -/
def Msc.find (x : Msc) (line : Nat) : Option MscLine :=
  match x.wayOf line with
  | some w => SMap.get none x.ways (mscSet line * 16 + w)
  | none => none

/-- A hit or fill of a way points the tree away (R146). -/
def Msc.touch (x : Msc) (line w : Nat) : Msc :=
  { x with plru := SMap.set 0 x.plru (mscSet line) (plruTouch w 4 1 (SMap.get 0 x.plru (mscSet line))) }

/-- A line entered into an MSC, and the line displaced. -/
def Msc.put (x : Msc) (l : MscLine) : Msc × Option MscLine :=
  let set := mscSet l.line
  let w := match x.wayOf l.line with
    | some w => w
    | none => match (List.range 16).find? fun w => (SMap.get none x.ways (set * 16 + w)).isNone with
      | some w => w
      | none => plruPick (SMap.get 0 x.plru set) (fun _ => true) 4 1 0
  let old := match SMap.get none x.ways (set * 16 + w) with
    | some o => if o.line = l.line then none else some o
    | none => none
  (({ x with ways := SMap.set none x.ways (set * 16 + w) (some l) } : Msc).touch l.line w, old)

/-- A line entered into a quadrant's MSC; a dirty victim goes out to the controller. -/
def State.mscPut (s : State) (q : Quad) (l : MscLine) : State :=
  s.modHome q fun h =>
    let (x, old) := h.msc.put l
    { h with msc := x, wout := match old with
        | some o => if o.dirty then h.wout ++ [⟨o.line, o.data, o.pois, true⟩] else h.wout
        | none => h.wout }

/-- The pseudo-channel of a line (Table HBM-2): A[9:6] XOR A[21:18]. -/
def pcOf (line : Nat) : Nat := (line % 16) ^^^ (line / 2 ^ 12 % 16)

/-- A pseudo-channel of a controller. -/
def Mc.pc (x : Mc) (p : Nat) : Pc := SMap.get {} x.pcs p

/-- The memory copy of a line: the MSC, a write on its way or queued, or the stack. -/
def State.memCopy (s : State) (line : Nat) : Line × Bool :=
  let q := quadOf (64 * line)
  let h := s.home q
  match h.msc.find line with
  | some l => (l.data, l.pois)
  | none => match h.wout.reverse.find? fun w => w.line == line with
    | some w => (w.data, w.pois)
    | none => match (((s.mc q).pc (pcOf line)).writes.reverse.find? fun w => w.line == line) with
      | some w => (w.data, w.pois)
      | none => (s.memLine line, SMap.get false s.poisLine line)

/-! Mirrored regions (R193, R451, R452). -/

/-- Control-plane address of a Mirror register. -/
def mirAddr (off : Nat) : Nat := cpAddr mirrorStation off

/-- Whether a line lies in a region marked MIRROR while the device takes part in a pair. -/
def State.mirrored (s : State) (line : Nat) : Bool :=
  s.cpField (mirAddr 0) 0 1 = 1 && s.regionAttr (mcStation (quadOf (64 * line))) 32 (64 * line) 8

/-- Key of a page in the bitmap of an epoch: the epoch's parity and the page number. -/
def pageKey (epoch line : Nat) : Nat := epoch % 2 * 2 ^ 26 + line / 64

/-- MIR_EPOCH.RUNNING. -/
def State.mirEpoch (s : State) : Nat := (s.cpGet (mirAddr 0x008)).toNat

/-- Whether a line's present value still belongs to the epoch being shipped (R452). -/
def State.mirOwed (s : State) (line : Nat) : Bool :=
  match s.mir.shipping with
  | none => false
  | some k => SMap.get false s.mir.pages (pageKey k.toNat line) && !s.mir.fwd.contains line

/-- Whether a change of a line waits for room in the forward table (R452). -/
def State.mirBlocked (s : State) (line : Nat) : Bool :=
  s.mirrored line && s.mirOwed line && 8192 ≤ s.mir.fwd.length

/-- A change of a line's memory copy, or a grant of E: the value owed to the epoch being shipped is
handed over first, and the page is logged in the running epoch (R193, R452). -/
def State.mirTouch (s : State) (line : Nat) : State :=
  if !s.mirrored line then s
  else
    let s := match s.mir.shipping with
      | some k =>
        if s.mirOwed line then
          let (d, p) := s.memCopy line
          let u : MirUnit := { code := 1, epoch := k.zeroExtend 64,
                               addr := BitVec.ofNat 48 (64 * line), line := d, pois := p }
          { s with mir := { s.mir with fwd := s.mir.fwd ++ [line], out := s.mir.out ++ [u] } }
        else s
      | none => s
    { s with mir := { s.mir with pages := SMap.set false s.mir.pages (pageKey s.mirEpoch line) true } }

/-! The pending table (R172 to R174). -/

/-- Entries that a die's held and stale-marked evictions occupy. -/
def Home.evUse (h : Home) (d : Die) : Nat :=
  (h.held.filter fun m => dieOfStation m.src = some d).length
    + (h.stale.filter fun x => x.1 = d).length

/-- Reserved entries in use. -/
def Home.resvUse (h : Home) : Nat :=
  ((List.finRange 12).map fun d => min 32 (h.evUse d)).sum

/-- Entries in use. -/
def Home.inUse (h : Home) : Nat := h.table.length + h.held.length + h.stale.length

/-- General entries free. -/
def Home.genFree (h : Home) : Nat := 3712 - (h.inUse - h.resvUse)

/-- Whether a request may take a general entry (R172). -/
def State.mayTake (s : State) (q : Quad) (hi : Bool) : Bool :=
  let reserve := s.cpField (cpAddr (homeStation q) 0x00C) 0 13
  if hi then 0 < (s.home q).genFree else reserve < (s.home q).genFree

/-- Whether an eviction of a die may take an entry (R172). -/
def State.mayTakeEv (s : State) (q : Quad) (d : Die) (hi : Bool) : Bool :=
  (s.home q).evUse d < 32 || s.mayTake q hi

/-- The peak follows the use of the table; `n` counts an entry that ends at once. -/
def State.notePeak (s : State) (q : Quad) (n : Nat) : State :=
  s.modHome q fun h => { h with peak := max h.peak (h.inUse + n) }

/-- An index for a new entry. -/
def Home.newIdx (h : Home) : Nat :=
  ((List.range 4096).find? fun i => !h.table.any fun e => e.idx == i).getD 0

/-- A request takes an entry, behind those of its line (R172, R173). -/
def State.takeEntry (s : State) (q : Quad) (m : Msg) : State :=
  (s.modHome q fun h => { h with table := h.table ++ [{ idx := h.newIdx, msg := m }] }).notePeak q 0

/-- An entry of a home's table changed. -/
def State.modEntry (s : State) (q : Quad) (idx : Nat) (f : PEntry → PEntry) : State :=
  s.modHome q fun h => { h with table := h.table.map fun e => if e.idx = idx then f e else e }

/-- An entry ends. -/
def State.dropEntry (s : State) (q : Quad) (idx : Nat) : State :=
  s.modHome q fun h => { h with table := h.table.filter fun e => e.idx ≠ idx }

/-! Guarantees and priority at a home (R299). -/

/-- 64 B have moved for a class at a home: a read completion with data, or a write performed. -/
def State.noteMoved (s : State) (q : Quad) (cls : BitVec 4) : State :=
  s.modHome q fun h => { h with moved := SMap.set 0 h.moved cls.toNat (SMap.get 0 h.moved cls.toNat + 64) }

/-- Whether a class is under guarantee on a stack: what has moved for it in the window falls short of its effective
guarantee, in 0.1 GB/s, times the window length, while a request of it waits. DEDUCED: a request waits until its
completion is sent (log entry 146). -/
def State.underGuarantee (s : State) (q : Quad) (t : Nat) : Bool :=
  SMap.get 0 (s.home q).moved t
      < 100 * s.cpField (cpAddr shepStation (0x60300 + 16 * t + 4 * q.val)) 0 12
          * s.cpField (cpAddr shepStation 0x60000) 0 10
    && (s.home q).table.any fun e => e.msg.tclass.toNat = t && e.phase ≠ .grant

/-- The effective priority of a request at a home. -/
def State.effPrio (s : State) (q : Quad) (m : Msg) : BitVec 2 :=
  let t := m.tclass.toNat
  let level := s.cpField (cpAddr shepStation (0x60400 + 16 * t + 4 * q.val)) 16 2
  if s.underGuarantee q t then 3 else BitVec.ofNat 2 (max m.prio.toNat level)

/-! Completions. -/

/-- A completion of an entry's request. -/
def State.complete (s : State) (m : Msg) (k : MsgKind) (data : Option Line := none)
    (low : Nat := 0) (dies : BitVec 12 := 0) : State :=
  let s := if data.isSome then s.noteMoved (quadOfHome m.dest) m.tclass else s
  s.send { replyTo m k with addr := BitVec.ofNat 48 (m.line * 64 + low), data := data
                            tclass := m.tclass, dies := dies }

/-- What snooped dies keep is entered into the duplicate tags. -/
def State.applyAfter (s : State) (line : Nat) (l : List (Die × CState)) : State :=
  l.foldl (fun s x => s.setDt x.1 line x.2) s

/-- Every die's entry of a line set to I. -/
def State.clearDt (s : State) (line : Nat) : State :=
  (List.finRange 12).foldl (fun s d => s.setDt d line .i) s

/-- The E list takes a line granted in E (R451): the oldest line of a full list is snooped to S, by
an entry that the home opens itself. -/
def State.noteE (s : State) (q : Quad) (line : Nat) : State :=
  if !s.mirrored line then s
  else
    let h := s.home q
    let s := match h.eList with
      | l :: rest =>
        if 4096 ≤ h.eList.length then
          (s.modHome q fun h => { h with eList := rest }).takeEntry q
            { kind := .snpShared, dest := homeStation q, src := homeStation q,
              addr := BitVec.ofNat 48 (64 * l) }
        else s
      | [] => s
    s.modHome q fun h => { h with eList := h.eList ++ [line] }

/-- A line written at the home: into the MSC, dirty (R183). -/
def State.homeWrite (s : State) (q : Quad) (line : Nat) (d : Line) (pois : Bool) : State :=
  s.mscPut q ⟨line, true, d, pois⟩

/-- The old 8 B word and the line after a far atomic (Table COH-11); an ACAS that fails writes
nothing. -/
def atomicLine (m : Msg) (l : Line) : Word × Option Line :=
  let o := 8 * (m.low / 8)
  let old : Word := BitVec.ofNat 64 (Line.bytes l o 8)
  let ops := (m.data.getD 0)
  let b : Word := BitVec.ofNat 64 (Line.bytes ops 0 8)
  let e : Word := BitVec.ofNat 64 (Line.bytes ops 8 8)
  match AtomicOp.ofCode (m.low % 8) with
  | none => (old, none)
  | some op =>
    if op = .cas && old ≠ e then (old, none)
    else (old, some (Line.merge l (Line.place o (atomicNew op old b e).toNat) (byteMask o 8)))

/-- Whether the entry's request is one that the mirror rules hold back while the forward table is
full: it changes the memory copy or grants E (R452). -/
def PEntry.changes (e : PEntry) : Bool :=
  match e.msg.kind with
  | .rdShared | .rdUnique | .upgrade | .wrUnique | .atomicAtHome => true
  | .cmo => e.msg.low % 4 = 3
  | _ => false

/-- The last step of an entry, once its answers and its data are there (Tables COH-5 to COH-13,
R185): the completion is sent, tags and memory change, and the entry ends or waits for
GrantSeen. -/
def State.finish (s : State) (q : Quad) (e : PEntry) (data : Line) (pois : Bool) : State :=
  let m := e.msg
  let line := m.line
  let done := fun (s : State) => s.dropEntry q e.idx
  let waitSeen := fun (s : State) => s.modEntry q e.idx fun e => { e with phase := .grant }
  let me := dieOfStation m.src
  let write := fun (s : State) (d : Line) (p : Bool) => (s.homeWrite q line d p).noteMoved q m.tclass
  let grant := fun (s : State) (c : CState) => match me with
    | some d => s.grantDt d line (m.low % 16) c
    | none => s
  let s := s.applyAfter line e.after
  if s.mirBlocked line && e.changes then
    s.modEntry q e.idx fun e => { e with phase := .forward, data := some data, pois := pois }
  else match m.kind with
  | .rdShared =>
    if pois then done (s.complete m .homePoison)
    else if (s.holders line).any fun x => some x.1 ≠ me then
      waitSeen (grant (s.complete m .grantS (some data)) .s)
    else waitSeen ((grant ((s.mirTouch line).complete m .grantE (some data)) .e).noteE q line)
  | .rdUnique =>
    if pois then done (s.complete m .homePoison)
    else
      let s := ((s.mirTouch line).complete m .grantE (some data)).clearDt line
      waitSeen ((grant s .e).noteE q line)
  | .upgrade =>
    if pois then done (s.complete m .homePoison)
    else
      let s := (s.mirTouch line).complete m (if e.conv then .grantE else .homeDone)
        (if e.conv then some data else none)
      waitSeen ((grant (s.clearDt line) .e).noteE q line)
  | .rdOnce =>
    done (if pois then s.complete m .homePoison else s.complete m .readData (some data))
  | .wrUnique =>
    let s := s.clearDt line
    if m.bmask = fullMask then
      done ((write (s.mirTouch line) (m.data.getD 0) m.poisoned).complete m .homeDone)
    else if pois then done (s.complete m .homePoison)
    else
      done ((write (s.mirTouch line) (Line.merge data (m.data.getD 0) m.bmask) m.poisoned).complete m .homeDone)
  | .atomicAtHome =>
    let s := s.clearDt line
    if pois then done (s.complete m .homePoison)
    else
      let (old, new) := atomicLine m data
      let s := match new with
        | some l => write (s.mirTouch line) l false
        | none => s
      done (s.complete m .atomicOld (some (old.zeroExtend 512)))
  | .cmo =>
    if m.low % 4 = 3 then
      done ((write ((s.clearDt line).mirTouch line) 0 false).complete m .homeDone)
    else done (s.complete m .homeDone none (popcount 12 e.skips.toNat) e.skips)
  | _ => done s

/-! Evictions (Table COH-10, R188). -/

/-- EvictDone for an Evict or WriteBack; address bits [5:0] are 0 (R181). -/
def evictDone (m : Msg) : Msg :=
  { replyTo m .evictDone with addr := BitVec.ofNat 48 (64 * m.line) }

/-- An eviction is applied: written back data enters the MSC, the sender's tag goes to I or stays at
E, and EvictDone is sent. Poisoned data is classed here (R219). What an earlier snoop answer of the sender
left is overtaken (R188). -/
def State.applyEvict (s : State) (q : Quad) (m : Msg) : State :=
  let line := m.line
  let s := if m.kind = .writeBack then
      let s := ((s.mirTouch line).homeWrite q line (m.data.getD 0) m.poisoned).noteMoved q m.tclass
      if m.poisoned then s.report (homeStation q) 0x02 m.src.toNat (64 * line)
        (crit := s.regionAttr (mcStation q) 32 (64 * line) 7)
      else s
    else s
  let s := match dieOfStation m.src with
    | some d => if m.kind = MsgKind.writeBack ∧ m.low = 1 then s else s.setDt d line .i
    | none => s
  let s := s.modHome q fun h => { h with table := h.table.map fun e =>
    if e.msg.line = line then { e with after := e.after.filter fun x => some x.1 ≠ dieOfStation m.src }
    else e }
  s.send (evictDone m)

/-- A stale eviction is dropped and acknowledged (R188). -/
def State.dropEvict (s : State) (q : Quad) (m : Msg) : State :=
  (s.count16 (cpAddr (homeStation q) 0x010) 1).send (evictDone m)

/-- Held evictions of a line that no response marked stale are applied (R188). -/
def State.applyHeld (s : State) (q : Quad) (line : Nat) : State :=
  let (now, later) := (s.home q).held.partition fun m => m.line = line
  now.foldl (fun s m => s.applyEvict q m) (s.modHome q fun h => { h with held := later })

/-! Active entries (Table COH-4). -/

/-- What an entry's request asks of the holders: the dies snooped, the snoop and its low address
bits. -/
def PEntry.snoops (e : PEntry) : List Die × MsgKind × Nat :=
  let m := e.msg
  let me := dieOfStation m.src
  let inE := (e.holders.filter fun x => x.2 = .e).map (·.1)
  let all := e.holders.map (·.1)
  let others := all.filter fun d => some d ≠ me
  match m.kind with
  | .rdShared | .snpShared => (inE, .snpShared, 0)
  | .rdUnique => (others, .snpInval, 0)
  | .upgrade =>
    if e.conv then (others, .snpInval, 0)
    else ((e.holders.filter fun x => x.2 = .s && some x.1 ≠ me).map (·.1), .snpInval, 0)
  | .rdOnce => (inE, .snpOnce, 0)
  | .wrUnique | .atomicAtHome => (all, .snpInval, 0)
  | .cmo =>
    if m.low % 4 = 0 then (inE, .snpOnce, 0)
    else if m.low % 4 = 3 then (all, .snpInval, 0)
    else (all, .snpInval, m.low % 8)
  | _ => ([], .snpOnce, 0)

/-- Whether an entry needs the line's old data. -/
def PEntry.needsData (e : PEntry) : Bool :=
  match e.msg.kind with
  | .rdShared | .rdUnique | .rdOnce | .atomicAtHome => true
  | .wrUnique => e.msg.bmask ≠ fullMask
  | .upgrade => e.conv
  | _ => false

/-- Once every answer has arrived: held evictions are applied, and the data is there, in the MSC, or
fetched from the controller. An Upgrade of a line whose memory copy is poisoned is answered as such
(R185). -/
def State.answered (s : State) (q : Quad) (e : PEntry) : State :=
  let line := e.msg.line
  let s := s.applyHeld q line
  let e := ((s.home q).table.find? fun x => x.idx == e.idx).getD e
  if !e.needsData then
    s.finish q e 0 (e.msg.kind == .upgrade && (s.memCopy line).2)
  else match e.data with
    | some d => s.finish q e d e.pois
    | none =>
      match (s.home q).msc.wayOf line, (s.home q).msc.find line with
      | some w, some l =>
        (s.modHome q fun h => { h with msc := h.msc.touch line w }).finish q e l.data l.pois
      | _, _ => s.modEntry q e.idx fun e => { e with phase := .fill }

/-- An entry becomes active: the tags are looked up and the holders snooped (Table COH-4 step C4,
R190). -/
def State.activate (s : State) (q : Quad) (e : PEntry) : State :=
  let m := e.msg
  let line := m.line
  let hs := s.holders line
  let conv := m.kind == .upgrade &&
    !hs.any fun x => some x.1 == dieOfStation m.src && x.2 == .s
  let s := if conv then s.count16 (cpAddr (homeStation q) 0x014) 1 else s
  let e := { e with holders := hs, conv := conv }
  let (ds, kind, low) := e.snoops
  let s := s.modEntry q e.idx fun _ => { e with phase := .snoop ds }
  let s := ds.foldl (fun s d => s.send
    { kind := kind, dest := bankOf d line, src := homeStation q, prio := m.prio, s := m.s,
      pid := m.pid, tclass := m.tclass, txid := BitVec.ofNat 14 (q.val * 4096 + e.idx),
      epoch := s.epoch (homeStation q), addr := BitVec.ofNat 48 (64 * line + low) }) s
  if ds.isEmpty then s.answered q e else s

/-- The oldest entry of a line starts if it is still queued; entries that end at once make way for the
next (R173). -/
def State.runLine (q : Quad) (line : Nat) : Nat → State → State
  | 0, s => s
  | n + 1, s =>
    match (s.home q).table.find? fun e => e.msg.line == line with
    | some e => if e.phase = .queued then State.runLine q line n (s.activate q e) else s
    | none => s

/-- The entries of a line go on. -/
def State.settleLine (s : State) (q : Quad) (line : Nat) : State :=
  State.runLine q line ((s.home q).table.length + 1) s

/-- Every entry that a note of the E list opened starts. -/
def State.settleHome (s : State) (q : Quad) : State :=
  ((s.home q).table.filter fun e => e.phase = .queued).foldl
    (fun s e => s.settleLine q e.msg.line) s

/-- A fill arrives for a line: the MSC takes it unless MSC_CTL forbids it for the request's class, and
the entry that waits goes on (R156). A home that has stopped does nothing more (R195). -/
def State.fillArrived (s : State) (q : Quad) (line : Nat) (d : Line) (pois : Bool) : State :=
  match (s.home q).table.find? fun e => e.msg.line == line && e.phase == .fill with
  | none => s
  | some e =>
    if !s.accepts q then s else
    let noalloc := bit (s.cpGet (cpAddr (homeStation q) 0x800)) e.msg.tclass.toNat
    let s := if noalloc then s else s.mscPut q ⟨line, false, d, pois⟩
    ((s.finish q e d pois).settleLine q line).settleHome q

/-- Entries that waited for room in the forward table go on (R452). -/
def State.forwardRoom (s : State) : State :=
  (List.finRange 4).foldl (fun s q =>
    let es := (s.home q).table.filter fun e => e.phase = .forward && s.accepts q
    es.foldl (fun s e => ((s.finish q e (e.data.getD 0) e.pois).settleLine q e.msg.line).settleHome q) s) s

/-! Arrivals at a home. -/

/-- A request arrives (Table COH-4): checked, entered, and started if its line is free; none where it
waits in its input queue. -/
def State.homeRequest (s : State) (m : Msg) : Option State :=
  let q := quadOfHome m.dest
  if !s.accepts q then none
  else if !m.lowOk then some (s.badCmd m)
  else if !s.mayTake q m.hi then none
  else
    let mc := mcStation q
    let (ok, s) := match m.permAtHome with
      | some p => s.checkPasture mc 32 (64 * m.line) m.s m.pid p m.src
      | none => (true, s)
    if !ok then some ((s.notePeak q 1).complete m .homeRefuse)
    else some (((s.takeEntry q m).settleLine q m.line).settleHome q)

/-- An Evict or WriteBack arrives (Table COH-10, R188). -/
def State.homeEvict (s : State) (m : Msg) : Option State :=
  let q := quadOfHome m.dest
  let h := s.home q
  if !s.accepts q then none
  else if !m.lowOk then some (s.badCmd m)
  else match dieOfStation m.src with
    | none => some (s.badCmd m)
    | some d =>
      if h.stale.contains (d, m.txid) then
        some ((s.modHome q fun h => { h with stale := h.stale.erase (d, m.txid) }).dropEvict q m)
      else if !s.mayTakeEv q d m.hi then none
      else if h.table.any fun e => e.msg.line == m.line && (match e.phase with
          | .snoop _ => e.holders.any fun x => x.1 == d
          | _ => false) then
        some ((s.modHome q fun h => { h with held := h.held ++ [m] }).notePeak q 0)
      else some ((s.notePeak q 1).applyEvict q m)

/-- Data that a snooped die gave up, or kept a clean copy of: written into the MSC as a dirty line; poisoned
data is classed here (R183, R219). -/
def State.snoopData (s : State) (q : Quad) (line : Nat) (src : Station) (d : Line) (pois : Bool) : State :=
  let s := s.homeWrite q line d pois
  if pois then s.report (homeStation q) 0x02 src.toNat (64 * line)
    (crit := s.regionAttr (mcStation q) 32 (64 * line) 7)
  else s

/-- A die has answered from entry `e` of its eviction buffer: the eviction of the line from there is dropped,
now if it is held here, and else when it arrives (R188). -/
def State.overtaken (s : State) (q : Quad) (d : Die) (line e : Nat) : State :=
  let t := BitVec.ofNat 14 (0x3F80 + 4 * e + line % 4)
  match (s.home q).held.find? fun x => dieOfStation x.src == some d && x.txid == t && x.line == line with
  | some x => (s.modHome q fun h => { h with held := h.held.erase x }).dropEvict q x
  | none => (s.modHome q fun h => { h with stale := h.stale ++ [(d, t)] }).notePeak q 0

/-- A snoop answer arrives (Tables COH-5 to COH-13, R183, R188): its data is written into the MSC, a
crossing eviction is marked stale, and after the last answer the entry goes on. A home that has stopped
ignores it (R195). -/
def State.homeAnswer (s : State) (m : Msg) (c : Option CState) : Option State :=
  let q := quadOfHome m.dest
  if !s.accepts q then some s
  else if !m.lowOk then some (s.badCmd m)
  else
    let idx := m.txid.toNat % 4096
    match dieOfStation m.src, (s.home q).table.find? fun e => e.idx == idx with
    | some d, some e =>
      match e.phase with
      | .snoop left =>
        if !left.contains d || e.msg.line ≠ m.line then some s
        else
          let line := m.line
          let zero := e.msg.kind == .cmo && e.msg.low % 4 == 3
          let s := match m.data with
            | some x => if zero then s else s.snoopData q line m.src x m.poisoned
            | none => s
          let s := if 32 ≤ m.low then s.overtaken q d line (m.low % 32) else s
          let e := { e with
            after := match c with
              | some c => e.after ++ [(d, c)]
              | none => e.after
            data := match m.data with
              | some x => if zero then none else some x
              | none => e.data
            pois := if m.data.isSome then m.poisoned else e.pois
            skips := e.skips ||| if m.low = 1 then BitVec.ofNat 12 (2 ^ d.val) else 0
            phase := .snoop (left.filter (· ≠ d)) }
          let s := s.modEntry q idx fun _ => e
          if (left.filter (· ≠ d)).isEmpty then
            some (((s.answered q e).settleLine q line).settleHome q)
          else some s
      | _ => some s
    | _, _ => some s

/-- GrantSeen ends the entry of its requester and TXID (R183); a home that has stopped ignores it (R195). -/
def State.homeSeen (s : State) (m : Msg) : Option State :=
  let q := quadOfHome m.dest
  if !s.accepts q then some s
  else if !m.lowOk then some (s.badCmd m)
  else match (s.home q).table.find? fun e =>
      e.phase == .grant && e.msg.src == m.src && e.msg.txid == m.txid with
    | some e => some (((s.dropEntry q e.idx).settleLine q e.msg.line).settleHome q)
    | none => some s

end Sys2Proof.Machine
end

