-- ==== Sys2Proof/Machine/Coherence.lean ====
section
/-!
DEFINITION. The commands of coherence at homes and at die-cache banks (R171 to R196): requests,
snoops, snoop answers, GrantSeen, and the timers that end in coherent domain stop. What a requester
does with its completion stands in Answers.lean.
-/

namespace Sys2Proof.Machine

/-! Snoops at a die (R182, R187, Tables COH-3 and COH-15). -/

/-- What a die answers to a snoop: the answer, its data with poison mark, and its low address
bits. -/
structure SnoopAns where
  kind : MsgKind
  data : Option (Line × Bool) := none
  low  : Nat := 0

/-- A dirty sub-block becomes clean E; an L1D copy in M becomes E. -/
def State.makeClean (s : State) (d : Die) (line : Nat) : State :=
  let u : Sub := (s.die d).sub line
  let s := (slotsOf u.l1d).foldl (fun s i =>
    match s.lcAt d i with
    | some lc => s.modCore lc fun c =>
        match c.l1d.wayOf line, c.l1d.find line with
        | some w, some l =>
          if l.st = CState.m then { c with l1d := c.l1d.put line w (some { l with st := .e }) } else c
        | _, _ => c
    | none => s) s
  s.modDie d fun x => x.modSub line fun u => { u with st := .e }

/-- A sub-block leaves the die cache with every L1 copy; the tag stays (R141, R182). -/
def State.dropSub (s : State) (d : Die) (line : Nat) : State :=
  (s.invalL1 d line none).modDie d fun x =>
    x.modSub line fun u => { u with st := .i, data := 0, pois := false, world := false }

/-- The number of the eviction-buffer entry that holds a line. -/
def DieSt.evOf (x : DieSt) (line : Nat) : Option (Nat × EvSub) :=
  ((List.range 32).filterMap fun e => match SMap.get none x.evb e with
    | some ev => if ev.sector = line / 4 then
        (SMap.get none ev.subs (line % 4)).map fun u => (e, u) else none
    | none => none).head?

/-- A die's answer to a snoop, and the die after it. -/
def State.snoopDie (s : State) (d : Die) (kind : MsgKind) (line low : Nat) : SnoopAns × State :=
  let x := s.die d
  let u : Sub := x.sub line
  if u.st = .i then
    match x.evOf line with
    | none => ({ kind := .ansGone }, s)
    | some (e, v) =>
      if kind = .snpOnce then
        (if v.dirty then { kind := .ansKeepData, data := some (v.data, v.pois) }
         else { kind := .ansKeep }, s)
      else
        (if v.dirty then { kind := .ansGoneData, data := some (v.data, v.pois), low := 32 + e }
         else { kind := .ansGone, low := 32 + e }, s)
  else
    let dirty := u.st == CState.m
    let dat := some (u.data, u.pois)
    let gone := fun (withData : Bool) => (if withData && dirty then { kind := .ansGoneData, data := dat }
      else { kind := .ansGone } : SnoopAns)
    match kind with
    | .snpShared =>
      let s := (s.shareL1 d line none).modDie d fun x => x.modSub line fun u => { u with st := .s }
      (if dirty then { kind := .ansSharedData, data := dat } else { kind := .ansShared }, s)
    | .snpInval =>
      let locked := match x.wayOf line with
        | some w => (x.sec (dcSet line) w).lock
        | none => false
      if low % 4 = 0 then (gone true, s.dropSub d line)
      else if locked && low / 4 % 2 = 0 then
        let s := s.count16 (cpAddr (dcsStation d) 0x10C) 1
        if low % 4 = 2 && dirty then
          ({ kind := .ansKeepData, data := dat, low := 1 }, s.makeClean d line)
        else ({ kind := .ansKeep, low := 1 }, s)
      else
        let s := s.dropSub d line
        let s := s.modDie d fun x => match x.wayOf line with
          | some w => x.setSec (dcSet line) w { x.sec (dcSet line) w with lock := false }
          | none => x
        (gone (low % 4 = 2), s)
    | _ =>
      if dirty then ({ kind := .ansKeepData, data := dat }, s.makeClean d line)
      else ({ kind := .ansKeep }, s)

/-- A snoop arrives at a bank and is answered (R182). -/
def State.bankSnoop (s : State) (m : Msg) : State :=
  if !m.lowOk then s.badCmd m
  else match dieOfStation m.dest with
    | none => s.badCmd m
    | some d =>
      let (a, s) := s.snoopDie d m.kind m.line m.low
      s.send { replyTo m a.kind with
        addr := BitVec.ofNat 48 (64 * m.line + a.low), tclass := m.tclass
        data := a.data.map (·.1), poisoned := (a.data.map (·.2)).getD false }

/-! Commands. Each takes the message that arrives. -/

/-- A coherence message arrives at a home. -/
def State.atHome (s : State) (m : Msg) (k : MsgKind) (f : State → Msg → Option State) : Out :=
  s.deliver m k UnitKind.isHome fun m s => f s m

/-- A snoop arrives at a bank. -/
def State.atBank (s : State) (m : Msg) (k : MsgKind) : Out :=
  s.deliver m k UnitKind.isBank fun m s => some (s.bankSnoop m)

/-- RdShared at the home (Table COH-5). -/
def execRdShared (msg : Msg) (s : State) : Out := s.atHome msg .rdShared (·.homeRequest ·)
/-- RdUnique at the home (Table COH-6). -/
def execRdUnique (msg : Msg) (s : State) : Out := s.atHome msg .rdUnique (·.homeRequest ·)
/-- RdOnce at the home (Table COH-8). -/
def execRdOnce (msg : Msg) (s : State) : Out := s.atHome msg .rdOnce (·.homeRequest ·)
/-- WrUnique at the home (Table COH-9). -/
def execWrUnique (msg : Msg) (s : State) : Out := s.atHome msg .wrUnique (·.homeRequest ·)
/-- Upgrade at the home (Table COH-7, R190). -/
def execUpgrade (msg : Msg) (s : State) : Out := s.atHome msg .upgrade (·.homeRequest ·)
/-- Evict at the home (Table COH-10, R188). -/
def execEvict (msg : Msg) (s : State) : Out := s.atHome msg .evict (·.homeEvict ·)
/-- WriteBack at the home. -/
def execWriteBack (msg : Msg) (s : State) : Out := s.atHome msg .writeBack (·.homeEvict ·)
/-- AtomicAtHome at the home (Table COH-11). -/
def execAtomicAtHome (msg : Msg) (s : State) : Out := s.atHome msg .atomicAtHome (·.homeRequest ·)

/-- A CMO of one operation at the home (Tables COH-12 and COH-13); one of another operation is another
command's. -/
def State.cmoAtHome (s : State) (msg : Msg) (code : Nat) : Out :=
  if msg.kind = .cmo ∧ msg.low % 4 ≠ code then .next s
  else s.atHome msg .cmo (·.homeRequest ·)

/-- CMO CLEAN. -/
def execCmoClean (msg : Msg) (s : State) : Out := s.cmoAtHome msg 0
/-- CMO INVAL. -/
def execCmoInval (msg : Msg) (s : State) : Out := s.cmoAtHome msg 1
/-- CMO CLEAN_INVAL. -/
def execCmoCleanInval (msg : Msg) (s : State) : Out := s.cmoAtHome msg 2
/-- CMO ZERO. -/
def execCmoZero (msg : Msg) (s : State) : Out := s.cmoAtHome msg 3

/-- SnpShared at a die. -/
def execSnpShared (msg : Msg) (s : State) : Out := s.atBank msg .snpShared
/-- SnpInval at a die. -/
def execSnpInval (msg : Msg) (s : State) : Out := s.atBank msg .snpInval
/-- SnpOnce at a die. -/
def execSnpOnce (msg : Msg) (s : State) : Out := s.atBank msg .snpOnce

/-- AnsGone: the die holds nothing. -/
def execAnsGone (msg : Msg) (s : State) : Out := s.atHome msg .ansGone (·.homeAnswer · (some .i))
/-- AnsShared: the die keeps a shared copy. -/
def execAnsShared (msg : Msg) (s : State) : Out := s.atHome msg .ansShared (·.homeAnswer · (some .s))
/-- AnsKeep: the die keeps its copy. -/
def execAnsKeep (msg : Msg) (s : State) : Out := s.atHome msg .ansKeep (·.homeAnswer · none)
/-- AnsGoneData. -/
def execAnsGoneData (msg : Msg) (s : State) : Out :=
  s.atHome msg .ansGoneData (·.homeAnswer · (some .i))
/-- AnsSharedData. -/
def execAnsSharedData (msg : Msg) (s : State) : Out :=
  s.atHome msg .ansSharedData (·.homeAnswer · (some .s))
/-- AnsKeepData. -/
def execAnsKeepData (msg : Msg) (s : State) : Out :=
  s.atHome msg .ansKeepData (·.homeAnswer · none)

/-- GrantSeen at the home. -/
def execGrantSeen (msg : Msg) (s : State) : Out := s.atHome msg .grantSeen (·.homeSeen ·)

/-! Coherent domain stop at a home (R194, R195). -/

/-- A line is poisoned: in the MSC if it is there, and in the stack; queued writes of it are replaced and
counted (R195, R205, R218, R221). -/
def State.poisonLine (s : State) (q : Quad) (line : Nat) : State :=
  let s := s.modHome q fun h =>
    let x := match h.msc.wayOf line, h.msc.find line with
      | some w, some l =>
        let l' : MscLine := { l with pois := true }
        { h.msc with ways := SMap.set none h.msc.ways (mscSet line * 16 + w) (some l') }
      | _, _ => h.msc
    { h with msc := x, wout := h.wout.filter fun w => w.line ≠ line }
  let p := (s.mc q).pc (pcOf line)
  let n := (p.writes.filter fun w => w.line == line).length
  if n = 0 then { s.setMemLine line 0 fullMask with poisLine := SMap.set false s.poisLine line true }
  else
    (s.countAt (cpAddr (mcStation q) 0x0C4) 0 32 n).modMc q fun x =>
      { x with pcs := SMap.set {} x.pcs (pcOf line) { p with writes := p.writes.map fun w =>
          if w.line = line then { w with data := 0, pois := true, scrub := false } else w } }

/-- A controller discards every read of a fill in its queues; the scrubber goes on (R221). -/
def State.mcDiscard (s : State) (q : Quad) : State :=
  s.modMc q fun x => { x with pcs := x.pcs.map fun e => (e.1, { e.2 with
    reads := e.2.reads.filter (·.scrub), issued := e.2.issued.filter (·.scrub)
    writes := e.2.writes.map fun w => { w with dep := false } }) }

/-- Lines of a quadrant that some die may hold newer than memory: duplicate-tag state E. -/
def State.eLines (s : State) (q : Quad) : List Nat :=
  (s.dt.flatMap fun e => match e.2.tag with
    | some t => (List.range 4).filterMap fun b =>
        let line := t * 4 + b
        if SMap.get CState.i e.2.st b = .e && quadOf (64 * line) = q then some line else none
    | none => []).dedup

/-- Lines covered by an active write that is not performed (R195). -/
def Home.openWrites (h : Home) : List Nat :=
  (h.table.filter fun e => e.phase ≠ .queued && (e.msg.kind == .wrUnique ||
    e.msg.kind == .atomicAtHome || (e.msg.kind == .cmo && e.msg.low % 4 == 3))).map (·.msg.line)
  ++ (h.held.filter fun m => m.kind == .writeBack).map (·.line)

/-- A home stops: it takes no entries, and every line whose newest value may be lost is poisoned and
counted (R195). -/
def State.homeStop (s : State) (q : Quad) : State :=
  if !s.accepts q then s
  else
    let s := s.cpSetField (cpAddr (homeStation q) 0) 0 1 0
    let lines := (s.eLines q ++ (s.home q).openWrites).dedup
    let s := s.mcDiscard q
    let s := lines.foldl (fun s l => s.poisonLine q l) s
    s.cpSetField (cpAddr (homeStation q) 0x02C) 0 24 lines.length

/-- A 20 us timer of a home expires: on a snoop to a die, or on a grant (R194). The home starts
coherent domain stop and reports the addressee to the Shepherd (R531). -/
def execSnoopTimeout (q : Quad) (entry : Nat) (die : Option Die) (s : State) : Out :=
  if !s.accepts q then .next s
  else match (s.home q).table.find? fun e => e.idx == entry with
    | none => .next s
    | some e =>
      let line := e.msg.line
      let st := homeStation q
      match e.phase, die with
      | .snoop left, some d =>
        if left.contains d then
          .next ((s.homeStop q).report st 0x30 (bankOf d line).toNat (64 * line)
            (some (q.val * 4096 + entry)))
        else .next s
      | .grant, none =>
        .next ((s.homeStop q).report st 0x31 e.msg.src.toNat (64 * line) (some e.msg.txid.toNat))
      | _, _ => .next s

end Sys2Proof.Machine
end

