-- ==== Sys2Proof/Machine/MemCtl.lean ====
section
/-!
DEFINITION. The HBM2E memory controllers (R199 to R225, R532): queues, hazard modes, refresh, Keep,
error handling and the scrubber.
-/

namespace Sys2Proof.Machine

/-! Placement (Table HBM-2). -/

/-- Bank of a line within its pseudo-channel: 4 * BG + BA. -/
def bankOfLine (line : Nat) : Nat :=
  let a := 64 * line % 2 ^ 34
  4 * (a / 2 ^ 14 % 4) + a / 2 ^ 32

/-- Row of a line. -/
def rowOfLine (line : Nat) : Nat := 64 * line / 2 ^ 16 % 2 ^ 16

/-- Line that is number `pos` in address order of a pseudo-channel of stack `q`. -/
def scrubLine (q : Quad) (pc pos : Nat) : Nat :=
  q.val * 2 ^ 28 + pos * 16 + ((pc ^^^ (pos / 2 ^ 8 % 16)) % 16)

/-- Lines of a pseudo-channel. -/
def pcLines : Nat := 2 ^ 24

/-! State of a controller. -/

/-- Control-plane address of a controller's register. -/
def mcAddr (q : Quad) (off : Nat) : Nat := cpAddr (mcStation q) off

/-- A pseudo-channel changed. -/
def State.modPc (s : State) (q : Quad) (p : Nat) (f : Pc → Pc) : State :=
  s.modMc q fun x => { x with pcs := SMap.set {} x.pcs p (f (x.pc p)) }

/-- A bit of MC_EVENT sets; as it rises it is reported to the collector's event queue (R225, Table
CMD-7). -/
def State.mcEvent (s : State) (q : Quad) (i : Nat) : State :=
  let a := mcAddr q 0x0A0
  if s.cpField a i 1 = 1 then s
  else
    let s := s.cpSetField a i 1 1
    s.event true { code := 0x0060, subj := BitVec.ofNat 8 q.val, arg := s.cpGet a }

/-- An uncorrectable error is classed here: counted, logged if the log is free, and reported
(R219, R220). `src` is MC_UE_LOG.SRC. -/
def State.mcUe (s : State) (q : Quad) (line src beat synd : Nat) (crit stop : Bool) : State :=
  let s := (s.mcEvent q 1).countAt (mcAddr q 0x0A8) 0 16 1
  let a := mcAddr q 0x0B0
  let s := if s.cpField a 0 1 = 1 then s
    else s.cpSet64 a (BitVec.ofNat 64 (1 + 64 * line + src * 2 ^ 48 + b2n crit * 2 ^ 50
      + beat * 2 ^ 52 + synd * 2 ^ 56))
  s.report (mcStation q) 0x02 (mcStation q).toNat (64 * line) (crit := stop)

/-- A line written to the stack; a poisoned line is stored as zero data (R218). -/
def State.stackWrite (s : State) (line : Nat) (d : Line) (pois : Bool) : State :=
  { s.setMemLine line (if pois then 0 else d) fullMask with
      poisLine := SMap.set false s.poisLine line pois }

/-! Refresh debt (R211). A refresh takes tRFC = 350 ns (Table HBM-3), and the refreshes of a make-up follow
each other; how far one has come is told by the time base (DEDUCED). -/

/-- Whether a request stands in a queue of the pseudo-channel; an issued read keeps its entry until its data
has been sent (R202), and a scrub read has none. -/
def Pc.busy (p : Pc) : Bool :=
  !p.reads.isEmpty || !p.writes.isEmpty || p.issued.any fun r => !r.scrub

/-- Whether a make-up is under way. -/
def Pc.making (p : Pc) (t : Word) : Bool :=
  match p.makeUp with
  | some a => (t - a).toNat < 350 * p.debt
  | none => false

/-- The refreshes of a make-up that have ended are no longer owed. -/
def Pc.repaid (p : Pc) (t : Word) : Pc :=
  match p.makeUp with
  | some a =>
    let n := min p.debt ((t - a).toNat / 350)
    { p with debt := p.debt - n
             makeUp := if n < p.debt then some (a + BitVec.ofNat 64 (350 * n)) else none }
  | none => p

/-- A request arrives: it waits for the refresh in progress and then interrupts the make-up; the rest stays
owed (R211). -/
def Pc.interrupt (p : Pc) (t : Word) : Pc :=
  let p := p.repaid t
  if p.makeUp.isSome then { p with debt := p.debt - 1, makeUp := none } else p

/-- A pseudo-channel whose queues are both empty starts to repay what it owes (R211). -/
def Pc.calm (p : Pc) (t : Word) : Pc :=
  if !p.busy && 0 < p.debt && p.makeUp.isNone && !p.selfRef then { p with makeUp := some t } else p

/-- Rows that no queued request hits are closed (R206). -/
def Pc.closeRows (p : Pc) : Pc :=
  let hit := fun (b r : Nat) =>
    ((p.reads ++ p.issued).any fun x => bankOfLine x.line = b && rowOfLine x.line = r) ||
    p.writes.any fun x => bankOfLine x.line = b && rowOfLine x.line = r
  { p with rows := p.rows.filter fun e => match e.2 with
      | some r => hit e.1 r
      | none => false }

/-- A request opens its row. Whatever row of the bank was open is closed, even while queued requests still
hit it: which of the two R206 means to keep, the specification does not say (DESIGN CHOICE, log 136). -/
def Pc.openRow (p : Pc) (line : Nat) : Pc :=
  { p with rows := SMap.set none p.rows (bankOfLine line) (some (rowOfLine line)) }

/-- Whether a line's row is open. -/
def Pc.rowHit (p : Pc) (line : Nat) : Bool :=
  SMap.get none p.rows (bankOfLine line) == some (rowOfLine line)

/-- Whether requests wait at the home: commanded self-refresh, Keep, or a bank not yet filled (R213,
Table HBM-4). -/
def Mc.holds (x : Mc) (line : Nat) : Bool :=
  x.cmdSr || x.keep || (SMap.get 0 x.filling (pcOf line)).getLsbD (bankOfLine line)

/-! Queues (R202 to R209). -/

/-- A write enters a write queue; a drain starts at WM_HIGH entries (R204). -/
def Pc.enqueue (p : Pc) (high : Nat) (w : McWrite) : Pc :=
  let ws := p.writes ++ [w]
  { p with writes := ws, drain := p.drain || high ≤ ws.length }

/-- A drain starts or ends by the marks now in force (R204). -/
def Pc.remark (p : Pc) (high low : Nat) : Pc :=
  { p with drain := (p.drain && low < p.writes.length) || high ≤ p.writes.length }

/-- The marks of MC_CTL are applied as a commit moves them. -/
def State.remark (s : State) : State :=
  (List.finRange 4).foldl (fun s q =>
    let a := mcAddr q 0
    let (h, l) := (s.cpField a 8 6, s.cpField a 16 6)
    s.modMc q fun x => { x with pcs := x.pcs.map fun e => (e.1, e.2.remark h l) }) s

/-- The entry of a home that needs a line of its stack, unless the line has been asked for. -/
def State.fillEntry (s : State) (q : Quad) (line : Nat) : Option PEntry :=
  if (((s.mc q).pc (pcOf line)).reads ++ ((s.mc q).pc (pcOf line)).issued).any fun r => r.line == line && !r.scrub then
    none
  else (s.home q).table.find? fun e => e.msg.line == line && e.phase == .fill

/-- Whether another fill of a line's pseudo-channel comes first by its effective priority, by which a home orders its
fills (R299). -/
def State.fillBehind (s : State) (q : Quad) (line : Nat) (prio : BitVec 2) : Bool :=
  (s.home q).table.any fun e => pcOf e.msg.line = pcOf line && prio < s.effPrio q e.msg &&
    (s.fillEntry q e.msg.line).isSome

/-- A fill is asked of a controller, for the entry of a line that needs it and with its effective priority; none where it waits at the home: for a credit of the read queue (R202), for
the stack, for a write of the line that is on its way, or because the home has stopped (R221). -/
def State.mcFill (s : State) (q : Quad) (line : Nat) : Option State :=
  let x := s.mc q
  let p := x.pc (pcOf line)
  (s.fillEntry q line).bind fun e =>
  let prio := s.effPrio q e.msg
  if x.holds line || quadOf (64 * line) ≠ q || (s.home q).wout.any (fun w => w.line == line)
      || 64 ≤ p.reads.length + p.issued.length || !s.accepts q || s.fillBehind q line prio then none
  else
    let t := s.tb
    let drainMode := s.cpField (mcAddr q 0) 0 1 = 1
    match p.writes.reverse.find? fun w => w.line == line with
    | some w =>
      if drainMode then
        some (s.modPc q (pcOf line) fun p =>
          { p.interrupt t with
                   reads := p.reads ++ [{ line := line, prio := prio, waits := true }]
                   writes := p.writes.map fun v => if v == w then { v with dep := true } else v
                   selfRef := false })
      else
        let s := s.countAt (mcAddr q 0x0C0) 0 32 1
        let s := if w.pois then (s.mcEvent q 2).countAt (mcAddr q 0x0A8) 16 16 1 else s
        some (s.fillArrived q line w.data w.pois)
    | none => some (s.modPc q (pcOf line) fun p =>
        { p.interrupt t with reads := p.reads ++ [{ line := line, prio := prio }], selfRef := false })

/-- A full-line write reaches a controller (R201, R205, R220, R224); none where it waits, as it does without a
credit of the write queue, even to replace an entry (R202). -/
def State.mcWrite (s : State) (q : Quad) (line : Nat) (d : Line) (pois classed : Bool) :
    Option State :=
  let x := s.mc q
  let p := x.pc (pcOf line)
  let own := p.writes.filter fun w => !(w.scrub && w.line == line)
  let merge := own.any fun w => w.line == line && !w.dep
  if x.holds line || quadOf (64 * line) ≠ q || 64 ≤ p.writes.length then none
  else
    let s := s.modHome q fun h =>
      match h.wout.find? fun w => w.line == line with
      | some w => { h with wout := h.wout.erase w }
      | none => h
    let s := if merge then s.countAt (mcAddr q 0x0C4) 0 32 1 else s
    let high := s.cpField (mcAddr q 0) 8 6
    let t := s.tb
    let s := s.modPc q (pcOf line) fun p =>
      let p := { p.interrupt t with writes := own, selfRef := false }
      if merge then { p with writes := own.map fun w =>
        if w.line = line && !w.dep then { w with data := d, pois := pois } else w }
      else p.enqueue high { line := line, data := d, pois := pois }
    if pois && !classed then
      let crit := s.regionAttr (mcStation q) 32 (64 * line) 7
      -- a write carries no beat or syndrome: what the log then holds is not stated
      let (b, s) := s.takeFree 3
      let (y, s) := s.takeFree 8
      some (s.mcUe q line 2 b.toNat y.toNat crit crit)
    else some s

/-- The read that a pseudo-channel issues next (R203), by its place in the queue. -/
def Pc.nextRead (p : Pc) : Option Nat :=
  let c := p.reads.zipIdx.filter fun x => !x.1.waits
  match c.find? fun x => 32 ≤ x.1.passed with
  | some x => some x.2
  | none =>
    let top := c.foldl (fun m x => max m x.1.prio.toNat) 0
    let c := c.filter fun x => x.1.prio.toNat = top
    match c.find? fun x => p.rowHit x.1.line with
    | some x => some x.2
    | none => c.head?.map (·.2)

/-- Issues a read: older reads are passed over. -/
def Pc.issueRead (p : Pc) (i : Nat) : Pc :=
  match p.reads[i]? with
  | none => p
  | some r =>
    let rs := p.reads.zipIdx.map fun x =>
      if x.2 < i then { x.1 with passed := x.1.passed + 1 } else x.1
    { p with reads := rs.eraseIdx i, issued := p.issued ++ [r] }.openRow r.line

/-- Whether reads of a line that came before a write to it still hold their entries (R202, R205). -/
def Pc.olderRead (p : Pc) (line : Nat) : Bool :=
  (p.reads ++ p.issued).any fun r => r.line == line && !r.waits

/-- The write that a pseudo-channel issues next (R204, R205, R208), by its place in the queue. -/
def Pc.nextWrite (p : Pc) : Option Nat :=
  let c := p.writes.zipIdx.filter fun x => !p.olderRead x.1.line
  match c.find? fun x => x.1.dep with
  | some x => some x.2
  | none =>
    if p.drain || (p.reads.isEmpty && !p.issued.any fun r => !r.scrub) then
      match c.find? fun x => p.rowHit x.1.line with
      | some x => some x.2
      | none => c.head?.map (·.2)
    else none

/-- A PC that a scrub woke goes back to self-refresh once it owes nothing (R224). -/
def Pc.scrubSleep (p : Pc) : Pc :=
  if p.scrubWake && p.owed = 0 && p.reads.isEmpty && p.issued.isEmpty && p.writes.isEmpty then
    { p with selfRef := true, scrubWake := false, debt := 0, makeUp := none, rows := [] }
  else p

/-- What follows once a request has left a queue: rows close, a woken PC goes back to sleep, and owed refreshes
are repaid (R206, R211, R224). -/
def Pc.rest (p : Pc) (t : Word) : Pc := (p.closeRows.scrubSleep).calm t

/-- The write at a place of the queue is issued to the stack. -/
def State.issueWrite (s : State) (q : Quad) (pc i : Nat) : State :=
  match ((s.mc q).pc pc).writes[i]? with
  | none => s
  | some w =>
    let low := s.cpField (mcAddr q 0) 16 6
    let t := s.tb
    let s := s.stackWrite w.line w.data w.pois
    s.modPc q pc fun p =>
      let ws := p.writes.eraseIdx i
      let still := ws.any fun v => v.line == w.line && v.dep
      let rs := p.reads.map fun (r : McRead) =>
        if r.line = w.line && !still then { r with waits := false } else r
      let p : Pc := { p.openRow w.line with
        writes := ws, drain := p.drain && low < ws.length, reads := rs }
      p.rest t

/-! Reads that come back (R216 to R220, R224, Table HBM-5). -/

/-- A corrected beat is counted, sets MC_EVENT.CE and is reported with its address, PC, bank, row and beat and
the bit in error (R217). How the detail words lay these out is not stated (`Config.correctedDetail`). -/
def State.mcCorrected (s : State) (q : Quad) (line : Nat) (x : Fin 8 × Fin 72) : State :=
  let d := (Config.correctedDetail (pcOf line) (bankOfLine line) (rowOfLine line) x.1.val x.2.val).toNat
  ((s.countAt (mcAddr q 0x0A4) 0 32 1).mcEvent q 0).report (mcStation q) 0x01 (mcStation q).toNat
    (64 * line) (some (d % 2 ^ 64)) (some (d / 2 ^ 64))

/-- The syndrome of a beat that cannot be corrected: what the check found, and else 0xF0 in every beat of a
line stored poisoned (R218). -/
def beatSynd (pois : Bool) (err : BeatErrs) (i : Fin 8) : Option (BitVec 8) :=
  match err.ue.find? fun x => x.1 == i with
  | some x => some x.2
  | none => if pois then some 0xF0 else none

/-- What a read of the stack gives, once the check bits are tested (R216 to R220, Table HBM-5): the line with
its poison mark; none where it gives no data. -/
def State.stackRead (s : State) (q : Quad) (line : Nat) (scrub : Bool) (err : BeatErrs) :
    Option (Line × Bool) × State :=
  let bad := (List.finRange 8).filterMap fun i =>
    (beatSynd (SMap.get false s.poisLine line) err i).map fun y => (i, y)
  if 5 ≤ (bad.filter fun x => x.2 = 0xF0).length then
    if scrub then (none, s)
    else (some (0, true), (s.mcEvent q 2).countAt (mcAddr q 0x0A8) 16 16 1)
  else
    let s := (err.single.filter fun x => !bad.any fun y => y.1 == x.1).foldl
      (fun s x => s.mcCorrected q line x) s
    match bad with
    | [] => (some (s.memLine line, false), s)
    | (beat, synd) :: _ =>
      let crit := s.regionAttr (mcStation q) 32 (64 * line) 7
      let dirty := scrub && match (s.home q).msc.find line with
        | some l => l.dirty
        | none => false
      let s := s.mcUe q line (if scrub then 1 else 0) beat.val synd.toNat crit (crit && !dirty)
      if dirty || crit then (none, s)
      else
        let queued := ((s.mc q).pc (pcOf line)).writes.any fun w => w.line == line
        let s := if queued then s else s.stackWrite line 0 true
        (if scrub then none else some (0, true), s)

/-- Data of a fill or a scrub read. A corrected line is queued to be written back; where a write to it is queued
it is dropped, and so it is where the write queue is full, of which R224 says nothing (DESIGN CHOICE, log
137). -/
def State.readBack (s : State) (q : Quad) (r : McRead) (err : BeatErrs) : State :=
  let line := r.line
  match s.stackRead q line r.scrub err with
  | (none, s) => s
  | (some (d, pois), s) =>
    if !r.scrub then s.fillArrived q line d pois
    else
      let p := (s.mc q).pc (pcOf line)
      let high := s.cpField (mcAddr q 0) 8 6
      let t := s.tb
      if err.single.isEmpty || p.writes.any (fun w => w.line == line) || 64 ≤ p.writes.length then s
      else s.modPc q (pcOf line) fun p =>
        (p.interrupt t).enqueue high { line := line, data := d, scrub := true }

/-! Flushes. -/

/-- Every dirty line of an MSC, and every write on its way, is written to the stack (R157). -/
def State.flushMsc (s : State) (q : Quad) : State :=
  let s := (List.range 16).foldl (fun s p =>
    let ws := ((s.mc q).pc p).writes
    (ws.foldl (fun s w => s.stackWrite w.line w.data w.pois) s).modPc q p fun p =>
      { p with writes := [], drain := false, reads := p.reads.map fun r => { r with waits := false } })
    s
  let s := (s.home q).wout.foldl (fun s w => s.stackWrite w.line w.data w.pois) s
  let s := (s.home q).msc.ways.foldl (fun s e => match e.2 with
    | some l => if l.dirty then s.stackWrite l.line l.data l.pois else s
    | none => s) s
  s.modHome q fun h => { h with
    wout := []
    msc := { h.msc with ways := h.msc.ways.map fun e =>
      (e.1, e.2.map fun l => { l with dirty := false }) } }

/-- What the check bits of a read show that no command carries: a value left open, two bytes for each beat. -/
def State.freeErrs (s : State) : BeatErrs × State :=
  let (v, s) := s.takeFree 128
  let b := fun (i : Fin 8) => v.extractLsb' (16 * i.val) 16
  (⟨(List.finRange 8).filterMap fun i => if (b i).toNat % 4 = 2 then
        some (i, ⟨(b i).toNat / 4 % 72, Nat.mod_lt _ (by decide)⟩) else none,
    (List.finRange 8).filterMap fun i => if (b i).toNat % 4 = 3 then
        some (i, (b i).extractLsb' 8 8) else none⟩, s)

/-- The requests in a controller's queues finish, and debts are repaid (R213, Table HBM-4 step E2). -/
def State.mcFinish (s : State) (q : Quad) : State :=
  let s := s.flushMsc q
  (List.range 16).foldl (fun s p =>
    let rs := ((s.mc q).pc p).issued ++ ((s.mc q).pc p).reads
    let s := s.modPc q p fun p => { p with reads := [], issued := [], debt := 0, makeUp := none, rows := [],
                                           selfRef := false, scrubWake := false }
    rs.foldl (fun s r =>
      let (e, s) := s.freeErrs
      s.readBack q r e) s) s

/-- The lap clock stops. -/
def Mc.pause (x : Mc) (t : Word) : Mc :=
  if x.pausedAt.isSome then x else { x with pausedAt := some t }

/-- The lap clock runs again. -/
def Mc.unpause (x : Mc) (t : Word) : Mc :=
  match x.pausedAt with
  | some p => { x with pausedAt := none, paused := x.paused + (t - p) }
  | none => x

/-- A stack enters commanded self-refresh (R213). -/
def State.stackSleep (s : State) (q : Quad) : State :=
  if (s.mc q).cmdSr || (s.mc q).keep then s
  else (s.mcFinish q).modMc q fun x => { x.pause s.tb with cmdSr := true }

/-- The command is withdrawn. -/
def State.stackWake (s : State) (q : Quad) : State :=
  if (s.mc q).cmdSr then
    s.modMc q fun x => { (if x.keep then x else x.unpause s.tb) with cmdSr := false }
  else s

/-- A controller enters Keep with the masks committed now (R214, Table HBM-4). -/
def State.keepEnter (s : State) (q : Quad) : State :=
  if (s.mc q).keep then s
  else
    let s := s.mcFinish q
    s.modMc q fun x => { x.pause s.tb with
      keep := true
      keepMask := (List.range 16).foldl (fun m p =>
        SMap.set 0 m p ((s.cpGet (mcAddr q (0x040 + 4 * p))).extractLsb' 0 16)) [] }

/-- Whether Keep lost a byte's bank. -/
def Mc.lost (x : Mc) (q : Quad) (a : Nat) : Bool :=
  targetOf a == Target.hbm && quadOf a == q &&
    !(SMap.get 0 x.keepMask (pcOf (a / 64))).getLsbD (bankOfLine (a / 64))

/-- A controller leaves Keep: banks that were not retained read as zeros (R214, R215). With every mask bit 1
there is nothing to fill: no KEEP_FILL, and no KEEP_FILL_DONE event (DESIGN CHOICE, log 138). -/
def State.keepLeave (s : State) (q : Quad) : State :=
  let x := s.mc q
  if !x.keep then s
  else
    let fill := (List.range 16).foldl (fun m p =>
      SMap.set (0 : BitVec 16) m p (~~~(SMap.get 0 x.keepMask p))) []
    let s := { s with mem := s.mem.filter fun e => !x.lost q e.1
                      poisLine := s.poisLine.filter fun e => !x.lost q (64 * e.1) }
    let s := if fill.isEmpty then s else s.cpSetField (mcAddr q 4) 1 1 1
    s.modMc q fun x => { (if x.cmdSr then x else x.unpause s.tb) with
      keep := false, keepMask := [], filling := fill }

/-- The zero fill of a bank ends on all PCs, and with it that of every lower one: requests for it no longer
wait (Table HBM-4 steps X2, X3). -/
def State.bankFilled (s : State) (q : Quad) (b : Fin 16) : State :=
  s.modMc q fun x => { x with filling := (List.range 16).foldl (fun m p =>
    SMap.set 0 m p (SMap.get 0 m p &&& ~~~(BitVec.ofNat 16 (2 ^ (b.val + 1) - 1)))) x.filling }

/-- The zero fill completes (Table HBM-4 step X4). -/
def State.keepFilled (s : State) (q : Quad) : State :=
  if s.cpField (mcAddr q 4) 1 1 = 0 then s
  else ((s.cpSetField (mcAddr q 4) 1 1 0).modMc q fun x => { x with filling := [] }).mcEvent q 6

/-! Scrub laps (R223). -/

/-- Time the running lap has taken, without pauses. -/
def Mc.lapTime (x : Mc) (t : Word) : Word :=
  (match x.pausedAt with
    | some p => p
    | none => t) - x.lapStart - x.paused

/-- A lap starts: every PC at its first line, its start recorded (R223). -/
def State.lapBegin (s : State) (q : Quad) : State :=
  let s := s.cpSet64 (mcAddr q 0x090) s.tb
  let s := (List.range 16).foldl (fun s p => s.modPc q p fun p => { p with pos := 0 }) s
  s.modMc q fun x => { x with lapStart := s.tb, paused := 0 }

/-- A lap ends once all pseudo-channels have read their last line; the next starts at once. -/
def State.lapEnd (s : State) (q : Quad) : State :=
  let x := s.mc q
  if (List.range 16).all fun p => pcLines ≤ (x.pc p).pos then
    let s := s.cpSet64 (mcAddr q 0x088) (x.lapTime s.tb)
    (s.cpSetField (mcAddr q 0x084) 31 1 0).lapBegin q
  else s

/-- Whether shed stage `n` is in force (PWR_STATE.SHED). -/
def State.shed (s : State) (n : Nat) : Bool := s.cpField (pwrAddr 0) (7 + n) 1 = 1

/-- Whether the actions of Shed-1 hold: by the stage, by P1 or by a deeper state (R473, R496). -/
def State.quiet (s : State) : Bool := s.shed 1 || s.cpField (pwrAddr 0) 0 3 ≠ 0

/-- Whether the segment of a stack's wrapper is in the IJTAG network: IJTAG_ACCESS is selected under a session
with IJTAG and HBM_1500, and the stack is in commanded self-refresh (R508). -/
def State.segJoined (s : State) (q : Quad) : Bool :=
  s.tap.instr = 0x20 && (s.mc q).cmdSr &&
    (SMap.get none s.tap.sessions (b2n s.tap.world)).any fun x => bit x.scope 2 && bit x.scope 3

/-- A change of power state ends every idle self-refresh (R212). -/
def State.wakePcs (s : State) : State :=
  (List.finRange 4).foldl (fun s q => s.modMc q fun x => { x with pcs := x.pcs.map fun e =>
    (e.1, { e.2 with selfRef := false, scrubWake := false }) }) s

/-! Commands. -/

/-- A fill for the home (R202, R207, R208). It carries the effective priority of the entry it serves (R299); one of
another priority is no request of the home. -/
def execMcFillRequest (q : Quad) (line : BitVec 42) (prio : BitVec 2) (s : State) : Out :=
  if (s.fillEntry q line.toNat).any fun e => s.effPrio q e.msg == prio then .next ((s.mcFill q line.toNat).getD s)
  else .next s

/-- A full-line write from the home or its MSC (R205). -/
def execMcWriteRequest (q : Quad) (line : BitVec 42) (data : Line) (pois classed : Bool)
    (s : State) : Out :=
  .next ((s.mcWrite q line.toNat data pois classed).getD s)

/-- A pseudo-channel issues its next read, outside a drain (R203, R204). -/
def execMcReadIssue (q : Quad) (pc : Fin 16) (s : State) : Out :=
  let x := s.mc q
  let p := x.pc pc.val
  match p.nextRead with
  | some i =>
    if p.drain || p.selfRef || x.cmdSr || x.keep then .next s
    else .next (s.modPc q pc.val fun p => p.issueRead i)
  | none => .next s

/-- A pseudo-channel issues a write (R204, R205, R208). -/
def execMcWriteIssue (q : Quad) (pc : Fin 16) (s : State) : Out :=
  let x := s.mc q
  match (x.pc pc.val).nextWrite with
  | some i => if x.cmdSr || x.keep then .next s else .next (s.issueWrite q pc.val i)
  | none => .next s

/-- The oldest issued read of a pseudo-channel comes back (R216, R220). -/
def execMcReadData (q : Quad) (pc : Fin 16) (err : BeatErrs) (s : State) : Out :=
  match ((s.mc q).pc pc.val).issued with
  | [] => .next s
  | r :: rest =>
    let s := s.modPc q pc.val fun p => { p with issued := rest }
    .next ((s.readBack q r err).modPc q pc.val fun p => p.rest s.tb)

/-- A refresh falls due (R211): postponed, forced, or with empty queues issued behind those still owed. -/
def execRefreshDue (q : Quad) (pc : Fin 16) (s : State) : Out :=
  let x := s.mc q
  let p := x.pc pc.val
  if p.selfRef || x.cmdSr || x.keep then .next s
  else if !p.busy then
    .next (s.modPc q pc.val fun p =>
      let p := p.repaid s.tb
      { p with debt := p.debt + 1, makeUp := p.makeUp <|> some s.tb, rows := [] })
  else if p.debt < s.cpField (mcAddr q 0x00C) 0 4 then
    .next (s.modPc q pc.val fun p => { p with debt := p.debt + 1 })
  else
    .next (((s.count16 (mcAddr q 0x010) 1).mcEvent q 5).modPc q pc.val fun p => { p with rows := [] })

/-- An idle pseudo-channel repays its debt and enters self-refresh (R212). -/
def execSelfRefreshEntry (q : Quad) (pc : Fin 16) (s : State) : Out :=
  let x := s.mc q
  let p := x.pc pc.val
  if s.cpField (mcAddr q 0x00C) 4 1 = 1 && p.reads.isEmpty && p.issued.isEmpty && p.writes.isEmpty
      && !x.cmdSr && !x.keep then
    .next (s.modPc q pc.val fun p =>
      { p with selfRef := true, debt := 0, makeUp := none, rows := [] })
  else .next s

/-- The stack temperature is read (R210). -/
def execTempReadout (q : Quad) (temp : BitVec 8) (s : State) : Out :=
  if s.segJoined q then .next s else
  let a := mcAddr q 4
  let s := s.cpSetField a 8 8 temp.toNat
  let hot := s.cpField a 0 1 = 1
  if !hot && 85 < temp.toInt then .next ((s.cpSetField a 0 1 1).mcEvent q 4)
  else if hot && temp.toInt ≤ 80 then .next ((s.cpSetField a 0 1 0).mcEvent q 4)
  else .next s

/-- A scrubber earns a read (R222, R224); under Shed-1 reads owed are forfeit (Table PWR-2). -/
def execScrubEarn (q : Quad) (pc : Fin 16) (s : State) : Out :=
  let x := s.mc q
  if s.quiet then .next (s.modPc q pc.val fun p => { p with owed := 0 })
  else if s.cpField (mcAddr q 0x080) 0 1 = 0 || x.cmdSr || x.keep then .next s
  else .next (s.modPc q pc.val fun p =>
    let n := min 64 (p.owed + 1)
    if n = 64 && p.selfRef then { p with owed := n, selfRef := false, scrubWake := true }
    else { p with owed := n })

/-- A scrubber issues an owed read in an idle cycle (R222, R223). -/
def execScrubRead (q : Quad) (pc : Fin 16) (s : State) : Out :=
  let x := s.mc q
  let p := x.pc pc.val
  if s.quiet || s.cpField (mcAddr q 0x080) 0 1 = 0 || p.owed = 0 || !p.reads.isEmpty
      || !p.issued.isEmpty || !p.writes.isEmpty || p.drain || p.making s.tb || p.selfRef || x.cmdSr || x.keep
      || pcLines ≤ p.pos then .next s
  else
    let r : McRead := { line := scrubLine q pc.val p.pos, prio := 0, scrub := true }
    .next ((s.modPc q pc.val fun p =>
      { p with issued := [r], owed := p.owed - 1, pos := p.pos + 1 }).lapEnd q)

/-- The running lap passes LAP_LIMIT_H hours (R223). -/
def execLapOverdue (q : Quad) (t : Word) (s : State) : Out :=
  let s := s.advance t
  let a := mcAddr q 0x084
  let limit := s.cpField (mcAddr q 0x080) 16 8 * 3600000000000
  if limit < ((s.mc q).lapTime s.tb).toNat && s.cpField a 31 1 = 0 then
    .next (((s.cpSetField a 31 1 1).mcEvent q 3).report (mcStation q) 0x03 (mcStation q).toNat)
  else .next s

/-- The Shepherd commands a stack into self-refresh (R213). -/
def execStackSelfRefresh (q : Quad) (s : State) : Out := .next (s.stackSleep q)
/-- The command is withdrawn. -/
def execStackSelfRefreshExit (q : Quad) (s : State) : Out := .next (s.stackWake q)
/-- Keep entry (Table HBM-4 E1 to E3). -/
def execKeepEntry (q : Quad) (s : State) : Out := .next (s.keepEnter q)
/-- Keep exit (Table HBM-4 X1). -/
def execKeepExit (q : Quad) (s : State) : Out := .next (s.keepLeave q)
/-- The zero fill of a bank or, with none, of the stack completes (Table HBM-4 steps X2 to X4). -/
def execKeepFillDone (fill : KeepFill) (s : State) : Out :=
  .next (match fill.bank with
    | some b => s.bankFilled fill.q b
    | none => s.keepFilled fill.q)

end Sys2Proof.Machine
end

