-- ==== Sys2Proof/Machine/Hub.lean ====
section
/-!
DEFINITION. Accesses of the Shepherd, the Fold to its context table and its log, and the Mirror port to
memory as one indivisible step (DESIGN CHOICE, log 38): what RdOnce and WrUnique of such a unit do at the home
of a line (R171 to R192) and at its controller, without letting other commands in between.
-/

namespace Sys2Proof.Machine

/-- What a unit's access met: it must wait, a Pasture or an off domain refused it, the line is
poisoned, or it is done. -/
inductive HubAns (α : Type) where
  | busy
  | refuse (s : State)
  | poison (s : State)
  | ok (x : α) (s : State)

/-- Whether a home can serve a hub unit's access to a line at once: it takes entries, one is free (R172), and
no entry, eviction or write of the line is under way. -/
def State.lineFree (s : State) (line : Nat) : Bool :=
  let q := quadOf (64 * line)
  s.accepts q && s.mayTake q false && !(s.home q).table.any (fun e => e.msg.line == line)
    && !(s.home q).held.any (fun m => m.line == line)
    && !(s.home q).wout.any (fun w => w.line == line)

/-- The traffic class of a hub unit's own requests: the Fold's is REG_RCFG.TCLASS (Table REG-1); the Shepherd
and the Mirror port have no regulator, and their class is 0 (PRESUMED, log 38). -/
def State.unitClass (s : State) (src : Station) : Nat :=
  if src = foldStation then s.cpField (cpAddr foldStation 0x200) 28 4 else 0

/-- The holders named are snooped and their answers taken (R182, R183, R188): what they gave, and the tags and
the MSC after it. -/
def State.hubSnoops (s : State) (q : Quad) (line : Nat) (kind : MsgKind) (ds : List Die) :
    Option (Line × Bool) × State :=
  ds.foldl (fun x d =>
    let (a, s) := x.2.snoopDie d kind line 0
    let s := match a.data with
      | some (v, p) => s.snoopData q line (bankOf d line) v p
      | none => s
    let s := if 32 ≤ a.low then s.overtaken q d line (a.low % 32) else s
    (a.data <|> x.1, s)) (none, s)

/-- The line as its memory holds it: from the MSC, from a queued write in FORWARD mode, or from the stack
through the checks of its reads, entered into the MSC unless MSC_CTL forbids it for the class; none where the
controller makes the home wait (R156, R202, R207, R208, R213). The second none is an error that gives no
data (Table HBM-5). -/
def State.hubFill (s : State) (q : Quad) (line : Nat) (cls : Nat) : Option (Option (Line × Bool) × State) :=
  match (s.home q).msc.wayOf line, (s.home q).msc.find line with
  | some w, some l =>
    some (some (l.data, l.pois), s.modHome q fun h => { h with msc := h.msc.touch line w })
  | _, _ =>
    let x := s.mc q
    let p := x.pc (pcOf line)
    let (found, s1) := match p.writes.reverse.find? fun w => w.line == line with
      | some w =>
        let s := s.countAt (mcAddr q 0x0C0) 0 32 1
        (some (w.data, w.pois),
          if w.pois then (s.mcEvent q 2).countAt (mcAddr q 0x0A8) 16 16 1 else s)
      | none =>
        let (e, s) := s.freeErrs
        let t := s.tb
        let s := s.modPc q (pcOf line) fun p => { p.interrupt t with selfRef := false }
        let (r, s) := s.stackRead q line false e
        (r, s.modPc q (pcOf line) fun p => (p.openRow line).rest t)
    if x.holds line || 64 ≤ p.reads.length + p.issued.length
        || (p.writes.any (fun w => w.line == line) && s.cpField (mcAddr q 0) 0 1 = 1) then none
    else some (match found with
      | none => (none, s1)
      | some (d, pois) =>
        (some (d, pois), if bit (s1.cpGet (cpAddr (homeStation q) 0x800)) cls then s1
          else s1.mscPut q ⟨line, false, d, pois⟩))

/-- A unit reads a line (RdOnce, Table COH-8): the request and its answer cross the fabric, the holder in E is
snooped, and the data is that of its answer or of the memory copy. Where Table HBM-5 gives no data and leaves
the entry to coherent domain stop, the unit meets poison (DESIGN CHOICE, log 38). -/
def State.hubRead (s : State) (src : Station) (world : Bool) (pid : BitVec 8) (line : Nat) :
    HubAns Line :=
  let a := 64 * line
  let q := quadOf a
  let rq : Msg := { kind := .rdOnce, dest := homeOfLine line, src := src, s := world, pid := pid,
                    addr := BitVec.ofNat 48 a, tclass := BitVec.ofNat 4 (s.unitClass src) }
  if targetOf a ≠ .hbm || s.isOff (homeStation q) then .refuse s
  else if !s.lineFree line then .busy
  else
    let s := (s.passed rq).notePeak q 1
    let (ok, s) := s.checkPasture (mcStation q) 32 a world pid .r src
    if !ok then .refuse (s.passed (replyTo rq .homeRefuse))
    else
      let inE := ((s.holders line).filter fun x => x.2 = .e).map (·.1)
      let (got, s) := s.hubSnoops q line .snpOnce inE
      let r := match got with
        | some x => some (some x, s)
        | none => s.hubFill q line (s.unitClass src)
      match r with
      | none => .busy
      | some (none, s) => .poison s
      | some (some (d, p), s) =>
        if p then .poison (s.passed (replyTo rq .homePoison))
        else .ok d (s.passed { replyTo rq .readData with data := some d })

/-- A unit writes a line under a byte mask (WrUnique, Table COH-9): every holder is snooped and invalidated, a
partial write is merged with the old line, and the line is written into the MSC. -/
def State.hubWrite (s : State) (src : Station) (world : Bool) (pid : BitVec 8) (line : Nat)
    (d : Line) (mask : BitVec 64) : HubAns Unit :=
  let a := 64 * line
  let q := quadOf a
  let rq : Msg := { kind := .wrUnique, dest := homeOfLine line, src := src, s := world, pid := pid,
                    addr := BitVec.ofNat 48 a, bmask := mask, data := some d,
                    tclass := BitVec.ofNat 4 (s.unitClass src) }
  if targetOf a ≠ .hbm || s.isOff (homeStation q) then .refuse s
  else if !s.lineFree line || s.mirBlocked line then .busy
  else
    let s := (s.passed rq).notePeak q 1
    let (ok, s) := s.checkPasture (mcStation q) 32 a world pid .w src
    if !ok then .refuse (s.passed (replyTo rq .homeRefuse))
    else
      let (got, s) := s.hubSnoops q line .snpInval ((s.holders line).map (·.1))
      let s := s.clearDt line
      let old := if mask = fullMask then some (some (0, false), s)
        else match got with
        | some x => some (some x, s)
        | none => s.hubFill q line (s.unitClass src)
      match old with
      | none => .busy
      | some (none, s) => .poison s
      | some (some (old, p), s) =>
        if p then .poison (s.passed (replyTo rq .homePoison))
        else .ok () (((s.mirTouch line).homeWrite q line (Line.merge old d mask) false).passed
          (replyTo rq .homeDone))

/-- A unit reads lines from `line` on. -/
def State.hubReads (s : State) (src : Station) (world : Bool) (pid : BitVec 8) :
    Nat → Nat → HubAns (List Line)
  | _, 0 => .ok [] s
  | line, n + 1 =>
    match s.hubRead src world pid line with
    | .busy => .busy
    | .refuse s => .refuse s
    | .poison s => .poison s
    | .ok d s => match State.hubReads s src world pid (line + 1) n with
      | .ok l s => .ok (d :: l) s
      | r => r

/-- A unit writes whole lines from `line` on. -/
def State.hubWrites (s : State) (src : Station) (world : Bool) (pid : BitVec 8) :
    Nat → List Line → HubAns Unit
  | _, [] => .ok () s
  | line, d :: ds =>
    match s.hubWrite src world pid line d fullMask with
    | .ok _ s => State.hubWrites s src world pid (line + 1) ds
    | r => r

/-- The 64 bytes of a line, lowest first. -/
def bytesOfLine (l : Line) : List Byte := natToBytes 64 l.toNat

/-- Bytes as lines, the last one padded with zeros. -/
def linesOfBytes : Nat → List Byte → List Line
  | 0, _ => []
  | n + 1, b => BitVec.ofNat 512 (bytesToNat (b.take 64)) :: linesOfBytes n (b.drop 64)

end Sys2Proof.Machine
end

