-- ==== Sys2Proof/Machine/PcieBase.lean ====
section
/-!
DEFINITION. PCIe port A: errors and containment (R350 to R353), MSI-X (R349), and what its resets leave (R354).
-/

namespace Sys2Proof.Machine

/-! Outbound refusals and answers. -/

/-- An answer of port A to a request of the data path. -/
def State.ncReply (s : State) (m : Msg) (k : MsgKind) (data : Option Line := none) : State :=
  s.send { replyTo m k with data := data, tclass := m.tclass }

/-- A request of the Fold is answered NcErr because the port is frozen (R379): its operation is marked so. -/
def State.cutOff (s : State) (m : Msg) : State :=
  if m.src = foldStation then
    { s with fold := { s.fold with ops := s.fold.ops.map fun e =>
      if e.1 = m.txid.toNat then (e.1, e.2.map fun o => { o with cut := true }) else e } }
  else s

/-- What is inside the device of requests of functions that pass a test completes there; port A discards its data and
completions (Table PCIE-7, R376). -/
def State.voidInbound (s : State) (p : Func → Bool) : State :=
  s.modPcie fun x => { x with
    inq := x.inq.map fun
      | .bar0Read f off n t => .bar0Read f off n (if p f then none else t)
      | .read f pa n t => .read f pa n (if p f then none else t)
      | o => o
    reads := x.reads.map fun r => if p r.fn then { r with tag := none } else r }

/-- Port A freezes (R351, Table PCIE-7): CAUSE and ERR_BIT, every outstanding outbound read is answered NcErr at
once, and what is inside the device is no longer answered. A port already frozen stays as it is. -/
def State.freeze (s : State) (cause errBit : Nat) : State :=
  if s.frozen then s
  else
    let a := pcieAddr 0x00C
    let w := setField (setField (setField (s.cpGet a) 0 1 1) 1 3 cause) 4 5 errBit
    let s := s.cpSet a w
    let s := s.pcie.outs.foldl (fun s o => (s.cutOff o.msg).ncReply o.msg .ncErr) s
    (s.modPcie fun p => { p with outs := [] }).voidInbound fun _ => true

/-- An uncorrectable error at AER bit `b`, logged in a function; the header log is the header of a TLP
whose bits the manual does not give, and neither the log nor First Error Pointer takes a masked error. Its severity
may freeze the port (R350, R351). `adv` marks a non-fatal error that the Base Specification makes an Advisory
Non-Fatal one: what a completion already tells its requester, and an unexpected completion (PRESUMED, log 56). -/
def State.pcieError (s : State) (f : Func) (b : Nat) (hdr : Bool) (adv : Bool := false) : State :=
  let masked := bit (s.cfg f 0x108) b
  let first := s.cfg f 0x104 &&& ~~~(s.cfg f 0x108) = 0 && !masked
  let s := s.setCfg f 0x104 (setBit (s.cfg f 0x104) b true)
  let s := if first then s.setCfg f 0x118 (setField (s.cfg f 0x118) 0 5 b) else s
  let s := if first && hdr then
      (List.range 4).foldl (fun s i =>
        let (w, s) := s.takeFree 32
        s.setCfg f (0x11C + 4 * i) w) s
    else s
  let fatal := bit (s.cfg f 0x10C) b
  let s := if b = 20 then s.setCfg f 0x078 (setBit (s.cfg f 0x078) 19 true) else s
  let s := if !fatal && adv then s.pcieCorrected f 13
    else
      let s := s.setCfg f 0x078 (setBit (s.cfg f 0x078) (if fatal then 18 else 17) true)
      let on := bit (s.cfg f 0x078) (if fatal then 2 else 1) || bit (s.cfg f 0x004) 8
      if !masked && on && s.dlUp then s.errMessage f (if fatal then 2 else 1) else s
  if fatal then s.freeze 1 b
  else if bit (s.cpGet (pcieAddr 0x008)) b then s.freeze 2 b
  else s

/-! MSI-X (R349). -/

/-- Vectors of a function. -/
def vectorsOf (f : Func) : Nat := if f.val = 0 then 2048 else 64

/-- Key of an MSI-X vector. -/
def vecKey (f : Func) (v : Nat) : Nat := f.val * 2048 + v

/-- Word `i` of a vector's table entry: address low and high, data, vector control, whose mask bit is
1 after reset. -/
def State.msixWord (s : State) (f : Func) (v i : Nat) : Word32 :=
  SMap.get (if i = 3 then 1 else 0) s.pcie.msix (4 * vecKey f v + i)

/-- Whether a vector can be sent now. -/
def State.vectorOpen (s : State) (f : Func) (v : Nat) : Bool :=
  let c := s.cfg f 0x050
  !s.frozen && !s.perst && bit c 31 && !bit c 30 && !bit (s.msixWord f v 3) 0 && s.busMaster f

/-- The message of a vector is sent, or its pending bit is set. -/
def State.msix (s : State) (f : Func) (v : Nat) : State :=
  let k := vecKey f v
  if vectorsOf f ≤ v then s
  else if s.vectorOpen f v then
    (s.modPcie fun p => { p with pba := SMap.set false p.pba k false }).toHost
      { kind := .msix, fn := f,
        addr := BitVec.ofNat 64 ((s.msixWord f v 0).toNat + 2 ^ 32 * (s.msixWord f v 1).toNat)
        data := natToBytes 4 (s.msixWord f v 2).toNat, bytes := 4 }
  else s.modPcie fun p => { p with pba := SMap.set false p.pba k true }

/-- Pending messages whose vectors are open are sent. -/
def State.msixPending (s : State) : State :=
  s.pcie.pba.foldl (fun s e =>
    if h : e.1 / 2048 < 1025 then s.msix ⟨e.1 / 2048, h⟩ (e.1 % 2048) else s) s

/-! Resets (Table PCIE-8). -/

/-- Whether a word of configuration space keeps its value through every reset: the AER words. -/
def stickyWord (k : Nat) : Bool :=
  let o := k % 1024 * 4
  0x104 ≤ o && o < 0x12C

/-- Configuration space and MSI-X of functions that pass a test, at reset: everything but the sticky AER words. -/
def State.cfgClear (s : State) (p : Nat → Bool) : State :=
  s.modPcie fun x => { x with
    cfg := x.cfg.filter fun e => !p (e.1 / 1024) || stickyWord e.1
    msix := x.msix.filter fun e => !p (e.1 / 8192)
    pba := x.pba.filter fun e => !p (e.1 / 2048) }

/-- What a conventional or hot reset leaves of port A: configuration space, MSI-X and outbound tags are reset. -/
def State.cfgClearAll (s : State) : State :=
  (s.cfgClear fun _ => true).modPcie fun x => { x with outs := [] }

/-- AZ_CONTAIN as read (Table PCIE-9). -/
def State.azContain (s : State) : Word32 :=
  let w := s.cpGet (pcieAddr 0x00C)
  setBit (w &&& 0x1FF) 10 (bit w 10)

/-- AZ_DEV_STATE as read (Table PCIE-9). -/
def State.azDevState (s : State) : Word32 :=
  BitVec.ofNat 32 (b2n s.devReady + 2 * b2n s.restarting
    + 4 * s.cpField (cpAddr shepStation 0x30120) 1 1 + 8 * b2n s.imageOnly)

/-- A RELEASE write: the freeze ends if the link is up, no error that could freeze remains and no
restart runs; else REFUSED is set (R352). -/
def State.releaseFreeze (s : State) : State :=
  let a := pcieAddr 0x00C
  if !s.frozen then s
  else
    let nf := s.cpGet (pcieAddr 0x008)
    let left := s.pcie.cfg.any fun e =>
      e.1 % 1024 = 0x104 / 4 && (
        let f : Func := ⟨e.1 / 1024 % 1025, by omega⟩
        e.2 &&& (s.cfg f 0x10C ||| nf) ≠ 0)
    if s.dlUp && !left && !s.restarting then
      (s.cpSetField a 0 1 0).msixPending
    else s.cpSetField a 10 1 1

end Sys2Proof.Machine
end

