-- ==== Sys2Proof/Machine/Fold.lean ====
section
/-!
DEFINITION. The Fold (R358 to R388): queue contexts and their cache, doorbells, fetching, publishing and
completing, errors, resets, the admin queue's registers, and the dirty-page log.
-/

namespace Sys2Proof.Machine

/-- Control-plane address of a Fold register (Table FOLD-10). -/
def foldAddr (off : Nat) : Nat := cpAddr foldStation off

/-- The state with the Fold changed. -/
def State.modFold (s : State) (f : Fold → Fold) : State := { s with fold := f s.fold }

/-! Queue contexts (Table FOLD-1). -/

/-- Field of word `w` of a context. -/
def ctxF (c : Line) (w lo n : Nat) : Nat := field c (64 * w + lo) n

/-- Field of word `w` of a context replaced. -/
def ctxSet (c : Line) (w lo n x : Nat) : Line := setField c (64 * w + lo) n x

/-- VALID. -/
def ctxValid (c : Line) : Bool := ctxF c 0 0 1 = 1
/-- ENABLE. -/
def ctxEnable (c : Line) : Bool := ctxF c 0 1 1 = 1
/-- ERROR. -/
def ctxError (c : Line) : Bool := ctxF c 0 2 1 = 1
/-- Depth N. -/
def ctxN (c : Line) : Nat := 2 ^ ctxF c 0 12 4
/-- GEN. -/
def ctxGen (c : Line) : BitVec 8 := c.extractLsb' 16 8

/-- Distance from ring index `b` up to `a`, modulo the depth. -/
def ringDist (n a b : Nat) : Nat := (a + n - b % n) % n

/-- Owner record of group `f` (Table WLD-7). -/
def State.grpOwner (s : State) (f : Nat) : Word32 := s.cpGet (foldAddr (0x80000 + 4 * f))

/-- First QID of group `f`. -/
def State.qBase (s : State) (f : Nat) : Nat := s.cpField (foldAddr (0x10000 + 8 * f)) 0 20

/-- Queues of group `f`. -/
def State.qCount (s : State) (f : Nat) : Nat := s.cpField (foldAddr (0x10000 + 8 * f)) 20 11

/-- The group that holds a QID (R358). -/
def State.groupOf (s : State) (q : Nat) : Option Nat :=
  (List.range 1025).find? fun f => s.qBase f ≤ q && q < s.qBase f + s.qCount f

/-- FOLD_CTX_BASE. -/
def State.ctxBase (s : State) : Nat := (s.cpGet64 (foldAddr 0x008)).toNat / 2 ^ 26 * 2 ^ 26

/-- The line of a context (R362). -/
def State.ctxLine (s : State) (q : Nat) : Nat := (s.ctxBase + 64 * q) / 64

/-- Whether a cached context is pinned (R363). -/
def CtxWay.pinned (w : CtxWay) : Bool := ctxF w.ctx 0 4 1 = 1 && ctxValid w.ctx

/-- Pinned contexts. -/
def Fold.pinned (f : Fold) : Nat := (f.cache.filter fun e => e.2.any (·.pinned)).length

/-- The least recently used context that is not pinned. -/
def Fold.victim (f : Fold) : Option (Nat × CtxWay) :=
  f.cache.foldl (fun b e => match e.2 with
    | none => b
    | some w => if w.pinned then b else match b with
      | none => some (e.1, w)
      | some (_, v) => if w.used < v.used then some (e.1, w) else b) none

/-- Room for one more cached context: a changed victim is written back; none where its home is
busy. -/
def State.ctxRoom (s : State) : Option State :=
  if s.fold.cache.length < 40960 then some s
  else match s.fold.victim with
    | none => some s
    | some (q, w) =>
      let drop := fun (s : State) => s.modFold fun f => { f with cache := SMap.set none f.cache q none }
      if !w.dirty then some (drop s)
      else match s.hubWrite foldStation true 0 (s.ctxLine q) w.ctx fullMask with
        | .busy => none
        | .ok _ s => some (drop s)
        | .refuse s => some (drop s)
        | .poison s => some (drop s)

/-- A queue's context, from the cache or the table; none where the table's home is busy. A table line
that is refused or poisoned reads as a queue that does not exist (DESIGN CHOICE). -/
def State.ctxOf (s : State) (q : Nat) : Option (Line × State) :=
  match SMap.get none s.fold.cache q with
  | some w =>
    some (w.ctx, s.modFold fun f => { f with
      tick := f.tick + 1, cache := SMap.set none f.cache q (some { w with used := f.tick + 1 }) })
  | none =>
    match s.ctxRoom with
    | none => none
    | some s =>
      let s := s.countAt (foldAddr 0x010) 0 32 1
      match s.hubRead foldStation true 0 (s.ctxLine q) with
      | .busy => none
      | .refuse s => some (0, s)
      | .poison s => some (0, s)
      | .ok c s =>
        some (c, s.modFold fun f => { f with
          tick := f.tick + 1
          cache := SMap.set none f.cache q (some { ctx := c, used := f.tick + 1 }) })

/-- A context changed in the cache. -/
def State.setCtx (s : State) (q : Nat) (c : Line) : State :=
  s.modFold fun f => { f with
    tick := f.tick + 1
    cache := SMap.set none f.cache q (some { ctx := c, dirty := true, used := f.tick + 1 }) }

/-! Errors and events. -/

/-- An event of a queue enters the queue of its group's owner world. -/
def State.queueEvent (s : State) (grp code arg : Nat) : State :=
  s.event (bit (s.grpOwner grp) 9) { code := BitVec.ofNat 16 code, arg := BitVec.ofNat 32 arg }

/-- A queue enters ERROR (R373); one that is in ERROR stays as it is. -/
def State.queueError (s : State) (q : Nat) (c : Line) (cause : Nat) : State :=
  if ctxError c then s else
  let s := s.setCtx q (ctxSet (ctxSet c 0 2 1 1) 6 48 5 cause)
  let s := s.cpSet (foldAddr 0x01C) (BitVec.ofNat 32 (q + cause * 2 ^ 20 + 2 ^ 25))
  s.queueEvent (ctxF c 0 24 11) 0x0020 (q + cause * 2 ^ 20)

/-! Requests of queue traffic (R360). -/

/-- The physical address in the host window that stands for a host address (R344): the window begins
at PCIE_HWIN_BASE. DEDUCED. -/
def State.hostPa (s : State) (a : Nat) : Nat :=
  (0x10000000000 + a + 2 ^ 64 - (s.cpGet64 (pcieAddr 0x018)).toNat / 4096 * 4096) % 2 ^ 64

/-- A request of a queue goes out, stamped as its group's and charged to the Fold's regulator; none
where no TXID is free. -/
def State.foldSend (s : State) (q : Nat) (c : Line) (op : FoldOp) (m : Msg) (txid : Option Nat) :
    Option State :=
  match txid <|> s.freeTxid foldStation 2048 with
  | none => none
  | some t =>
    let g := op.grp
    let o := s.grpOwner g
    let cls : BitVec 4 := if ctxF c 0 7 1 = 1 then BitVec.ofNat 4 (ctxF c 0 8 4)
      else (s.cpGet (foldAddr 0x200)).extractLsb' 28 4
    let m := s.classed { m with
      src := foldStation, txid := BitVec.ofNat 14 t, tclass := cls, s := bit o 9
      pid := o.extractLsb' 0 8, epoch := o.extractLsb' 12 6 }
    let s := { s with reqs := s.reqs ++ [({ msg := m, purpose := .unit g } : Req)] }
    let s := s.modFold fun f => { f with ops := SMap.set none f.ops t (some { op with qid := BitVec.ofNat 20 q }) }
    some (s.inject .fold m)

/-- SQ fetches of a queue that are out. -/
def Fold.fetches (f : Fold) (q : Nat) : Nat :=
  (f.ops.filter fun e => e.2.any fun o => o.qid.toNat = q && o.kind = .fetch).length

/-- Requests of a kind in flight. -/
def Fold.inFlight (f : Fold) (p : FoldKind → Bool) : Nat :=
  (f.ops.filter fun e => e.2.any fun o => p o.kind).length

/-- Whether a queue has a request of a kind in flight. -/
def Fold.hasOp (f : Fold) (q : Nat) (k : FoldKind) : Bool :=
  f.ops.any fun e => e.2.any fun o => o.qid.toNat = q && o.kind = k && !o.void

/-- A ring slot's home line and offset. -/
def State.dcrAddr (_s : State) (c : Line) (slot : Nat) : Nat := ctxF c 4 12 36 * 4096 + 16 * slot

/-- The read of SQ slot `i`. -/
def State.sendFetch (s : State) (q : Nat) (c : Line) (i : Nat) : Option State :=
  let a := s.hostPa (ctxF c 1 12 52 * 4096 + 64 * i)
  s.foldSend q c { qid := 0, grp := ctxF c 0 24 11, kind := .fetch, slot := i, gen := ctxGen c }
    { kind := .hostRd, dest := portAStation, src := 0, addr := BitVec.ofNat 48 a, bytes := 64 } none

/-- Whether the Fold takes no new work for a group: PAUSE (R385), entry into or stay in P2 or P3 (R474), or a
non-critical owner under Shed-3 (Table PWR-2). -/
def State.groupPaused (s : State) (g : Nat) : Bool :=
  let o := s.grpOwner g
  s.cpField (foldAddr (0x20000 + 4 * g)) 8 1 = 1 || s.cpField (pwrAddr 0) 3 1 = 1
    || 2 ≤ s.cpField (pwrAddr 0) 0 3 || (s.shed 3 && bit o 10 && !s.critical (field o 0 8))

/-- The Fold fetches the next SQ slot of a queue, or repeats a fetch that a freeze cut off (R370,
R379). -/
def State.sqFetch (s : State) (q : Nat) : Option State :=
  match s.ctxOf q with
  | none => none
  | some (c, s) =>
    let n := ctxN c
    let g := ctxF c 0 24 11
    let head := ctxF c 5 0 12
    let out := ctxF c 6 36 12
    let ok := ctxValid c && ctxEnable c && !ctxError c && !s.frozen
      && s.fold.fetches q < 8 && s.fold.inFlight (· == .fetch) < 512
    match s.fold.retry.find? fun o => o.qid.toNat = q with
    | some o =>
      if !ok then some s
      else (s.sendFetch q c o.slot).map fun s =>
        s.modFold fun f => { f with retry := f.retry.erase o }
    | none =>
      let go := ok && !s.groupPaused g && head ≠ ctxF c 5 12 12
        && out + ringDist n (ctxF c 5 24 12) (ctxF c 5 36 12) < n - 1
        && ringDist n head (ctxF c 6 0 12) < n - 1
      if !go then some s
      else (s.sendFetch q c head).map fun s =>
        s.setCtx q (ctxSet (ctxSet c 5 0 12 ((head + 1) % n)) 6 36 12 (out + 1))

/-- Completions that the mirror state holds (Table MIR-1). -/
def State.mirHolds (s : State) : Bool :=
  let x := s.cpField (mirAddr 4) 1 3
  x = 2 || x = 3 || x = 5

/-- Entries in the hold buffer. -/
def Fold.holding (f : Fold) : Nat := (f.ready.filter (·.held)).length

/-- The Fold reads the next DCR slot of a queue (R370): one read of a queue at a time keeps DCR order
(DEDUCED). -/
def State.dcrRead (s : State) (q : Nat) : Option State :=
  match s.ctxOf q with
  | none => none
  | some (c, s) =>
    let n := ctxN c
    let head := ctxF c 6 12 12
    let hold := ctxF c 0 3 1 = 1
    if !ctxValid c || ctxError c || head = ctxF c 6 24 12 || s.fold.hasOp q .dcr
        || (hold && 16384 ≤ s.fold.holding)
        || 1024 ≤ s.fold.inFlight (fun k => k == .dcr || k == .work) then some s
    else
      let a := s.dcrAddr c head
      let op : FoldOp := { qid := 0, grp := ctxF c 0 24 11, kind := .dcr, slot := head,
                           gen := ctxGen c }
      (s.foldSend q c op { kind := .rdOnce, dest := homeOfLine (a / 64), src := 0,
                           addr := BitVec.ofNat 48 (a / 64 * 64) } none).map fun s =>
        s.setCtx q (ctxSet c 6 12 12 ((head + 1) % n))

/-- The CQ entry that the Fold writes for a DCR entry (Table FOLD-3). -/
def cqEntry (e : BitVec 128) (c : Line) (ggen : Nat) : BitVec 128 :=
  setField (setField (setField e 80 16 (ctxF c 5 0 12)) 112 8 (ctxF c 5 48 1)) 120 8 ggen

/-- The Fold writes the oldest released completion of a queue to its CQ slot (R370). -/
def State.cqWrite (s : State) (q : Nat) : Option State :=
  match s.ctxOf q with
  | none => none
  | some (c, s) =>
    match s.fold.ready.find? fun e => e.qid.toNat = q with
    | none => some s
    | some e =>
      if e.held || ctxError c || !ctxEnable c || s.fold.hasOp q .cq || (e.again && s.frozen) then some s
      else
        let g := ctxF c 0 24 11
        let slot := ctxF c 5 24 12
        let a := s.hostPa (ctxF c 2 12 52 * 4096 + 16 * slot)
        let x := cqEntry e.entry c (s.cpField (foldAddr (0x20000 + 4 * g)) 0 8)
        s.foldSend q c { qid := 0, grp := g, kind := .cq, slot := slot, gen := ctxGen c }
          { kind := .hostWr, dest := portAStation, src := 0, addr := BitVec.ofNat 48 a, bytes := 16
            bmask := byteMask (a % 64) 16, data := some (Line.place (a % 64) x.toNat) } none

/-- Held completions that the mirror state or its acknowledged epoch lets go (R456). -/
def State.releaseHeld (s : State) : State :=
  let acked := (s.cpGet (mirAddr 0x00C)).toNat
  let all := !s.mirHolds
  let two := s.cpField (mirAddr 4) 1 3 = 2
  s.modFold fun f => { f with ready := f.ready.map fun e =>
    if all || (two && e.epoch ≤ acked) then { e with held := false } else e }

/-! Answers. -/

/-- A work entry: the SQ entry with QID and GEN in bytes 4 to 7 (R365). -/
def workEntry (d : Line) (q : Nat) (gen : BitVec 8) : Line :=
  setField d 32 32 (q + gen.toNat * 2 ^ 20)

/-- What the answer to a request of the Fold does (R369 to R373, R375, R379): `txid` is that of the request,
which is free again; none where the queue's context cannot be had yet, or a work entry finds 1,024 requests at the
homes (R370). A failed work or DCR access of an older generation is no error of the queue (DESIGN CHOICE, log 148). -/
def State.foldAnswer (s : State) (txid : Nat) (op : FoldOp) (m : Msg) : Option State :=
  let s := s.modFold fun f => { f with ops := SMap.set none f.ops txid none }
  let s := (s.findReq m).elim s s.endReq
  if op.void then some s
  else match s.ctxOf op.qid.toNat with
  | none => none
  | some (c, s) =>
    let q := op.qid.toNat
    let n := ctxN c
    let err := fun (cause : Nat) => if op.gen = ctxGen c then s.queueError q c cause else s
    if op.kind == .fetch && m.kind == .ncData && 1024 ≤ s.fold.inFlight (fun k => k == .dcr || k == .work) then none
    else some (match op.kind, m.kind with
    | .fetch, .ncData =>
      let a := ctxF c 3 12 36 * 4096 + 64 * op.slot
      (s.foldSend q c { op with kind := .work, got := none }
        { kind := .wrUnique, dest := homeOfLine (a / 64), src := 0, addr := BitVec.ofNat 48 a
          bmask := fullMask, data := some (workEntry (m.data.getD 0) q op.gen) } (some txid)).getD s
    | .fetch, .ncPoison => err 7
    | .fetch, _ =>
      if op.cut || s.frozen then s.modFold fun f => { f with retry := f.retry ++ [{ op with cut := false, got := none }] }
      else err 4
    | .work, .homeDone =>
      if ctxF c 0 6 1 = 0 then s
      else
        let o := s.grpOwner op.grp
        let die : Die := ⟨(ctxF c 0 46 4 + 11) % 12, Nat.mod_lt _ (by decide)⟩
        s.sendInt { kind := .intMsg, dest := intdStation die, src := foldStation, s := bit o 9
                    pid := o.extractLsb' 0 8, epoch := o.extractLsb' 12 6
                    addr := BitVec.ofNat 48 (ctxF c 0 50 10) } (.notice op.grp)
    | .work, _ => err 5
    | .dcr, .readData =>
      let e : BitVec 128 := (m.data.getD 0).extractLsb' (8 * (s.dcrAddr c op.slot % 64)) 128
      if e.extractLsb' 104 8 ≠ ctxGen c then
        (s.setCtx q (ctxSet c 7 0 16 (satAdd 0xFFFF (ctxF c 7 0 16) 1))).countAt (foldAddr 0x014) 16 16 1
      else s.modFold fun f => { f with ready := f.ready ++
        [{ qid := op.qid, entry := e, epoch := s.mirEpoch, held := ctxF c 0 3 1 = 1 && s.mirHolds }] }
    | .dcr, .homePoison => err 7
    | .dcr, _ => err 5
    | .cq, .ncAck =>
      let tail := (op.slot + 1) % n
      let c := ctxSet (ctxSet c 5 24 12 tail) 6 36 12 (ctxF c 6 36 12 - 1)
      let c := if tail = 0 then ctxSet c 5 48 1 (1 - ctxF c 5 48 1) else c
      let s := s.setCtx q c
      let rest := match s.fold.ready.find? fun e => e.qid = op.qid with
        | some e => s.fold.ready.erase e
        | none => s.fold.ready
      let s := s.modFold fun f => { f with ready := rest }
      if ctxF c 0 5 1 = 1 && !rest.any (fun e => e.qid = op.qid && !e.held) then
        s.msix ⟨op.grp % 1025, Nat.mod_lt _ (by decide)⟩ (ctxF c 0 35 11)
      else s
    | .cq, _ =>
      if op.cut || s.frozen then
        match s.fold.ready.find? fun e => e.qid = op.qid with
        | some e => s.modFold fun f => { f with ready := f.ready.map fun x => if x = e then { e with again := true } else x }
        | none => s
      else err 4)

/-- The answers that the Fold has sunk take effect, as far as their contexts can be had (R237). -/
def State.foldWork (s : State) : State :=
  s.fold.ops.foldl (fun s e => match SMap.get none s.fold.ops e.1 with
    | some op => match op.got with
      | some m => (s.foldAnswer e.1 op m).getD s
      | none => s
    | none => s) s

/-- An answer reaches the Fold: it is sunk into the buffer of its request, which is kept until the answer takes
effect (R175, R237). -/
def State.foldSink (s : State) (r : Req) (m : Msg) : State :=
  match SMap.get none s.fold.ops m.txid.toNat with
  | none => s.endReq r
  | some op =>
    (s.modFold fun f => { f with
      ops := SMap.set none f.ops m.txid.toNat (some { op with got := some m }) }).foldWork

/-! Doorbells. -/

/-- A host doorbell is dropped (R367). -/
def State.dropDoorbell (s : State) : State := s.countAt (foldAddr 0x018) 0 16 1

/-- A host doorbell of local queue `k` of group `f` (R367): the SQ tail, or the CQ head. -/
def State.hostDoorbell (s : State) (f k v : Nat) (cqHead : Bool) : Option State :=
  if s.qCount f ≤ k || s.imageOnly then some s.dropDoorbell
  else
    let q := s.qBase f + k
    match s.ctxOf q with
    | none => none
    | some (c, s) =>
      let n := ctxN c
      if !ctxValid c || !ctxEnable c || ctxError c then some s.dropDoorbell
      else if cqHead then
        let tail := ctxF c 5 24 12
        if n ≤ v || ringDist n tail v > ringDist n tail (ctxF c 5 36 12) then
          some (s.queueError q c 2)
        else some (s.setCtx q (ctxSet c 5 36 12 v))
      else if n ≤ v then some (s.queueError q c 1)
      else some (s.setCtx q (ctxSet c 5 12 12 v))

/-- What a host doorbell reads: SQ_TAIL or CQ_HEAD (R367). -/
def State.doorbellRead (s : State) (f k : Nat) (cqHead : Bool) : Option (Nat × State) :=
  if s.qCount f ≤ k then some (0, s)
  else match s.ctxOf (s.qBase f + k) with
    | none => none
    | some (c, s) => some (if cqHead then ctxF c 5 36 12 else ctxF c 5 12 12, s)

/-- A FOLD_DEVBELL write (R368, R369): the answer, NcAck (true) or NcErr, and the state after; none
where the context's home is busy. -/
def State.devBell (s : State) (w : Word) (who : Accessor) : Option (Bool × State) :=
  let q := field w 0 20
  if s.isOff foldStation || who.lvl = 0 then some (false, s)
  else match s.ctxOf q with
    | none => none
    | some (c, s) =>
      let g := ctxF c 0 24 11
      let o := s.grpOwner g
      if !ctxValid c || !bit o 10 || who.world != bit o 9 || who.pid ≠ o.extractLsb' 0 8 then
        some (false, s.countAt (foldAddr 0x018) 16 16 1)
      else if w.extractLsb' 36 8 ≠ ctxGen c then
        some (true, (s.setCtx q (ctxSet c 7 0 16 (satAdd 0xFFFF (ctxF c 7 0 16) 1))).countAt
          (foldAddr 0x014) 0 16 1)
      else if ctxError c then some (true, s)
      else
        let n := ctxN c
        let i := field w 24 12
        let head := ctxF c 5 0 12
        let work := !bit w 20
        let bad := field w 21 3 ≠ 0 || field w 44 20 ≠ 0 ||
          (if work then ringDist n head i > ringDist n head (ctxF c 6 0 12)
           else ringDist n i (ctxF c 6 12 12) > ctxF c 6 36 12)
        if bad then some (true, s.queueError q c 3)
        else some (true, s.setCtx q (if work then ctxSet c 6 0 12 i else ctxSet c 6 24 12 i))

/-! Resets (R374 to R378). -/

/-- A queue's context after a reset: indices 0, PHASE 1, ERROR and ENABLE 0, GEN + 1. -/
def ctxReset (c : Line) : Line :=
  let c := ctxSet (ctxSet c 0 1 2 0) 0 16 8 ((ctxGen c).toNat + 1)
  ctxSet (ctxSet c 5 0 49 (2 ^ 48)) 6 0 48 0

/-- A queue is reset (R375): fetches are voided and with them a write to the CQ, completions that wait are discarded. A
work entry or a DCR read under way ends as R370 and R372 say (DEDUCED, log 148). -/
def State.resetQueue (s : State) (q : Nat) (c : Line) : State :=
  let s := s.modFold fun f => { f with
    ops := f.ops.map fun e => (e.1, e.2.map fun o =>
      if o.qid.toNat = q && (o.kind == .fetch || o.kind == .cq) then { o with void := true } else o)
    ready := f.ready.filter fun e => e.qid.toNat ≠ q
    retry := f.retry.filter fun o => o.qid.toNat ≠ q }
  let c' := ctxReset c
  (s.setCtx q c').queueEvent (ctxF c 0 24 11) 0x0021 (q + (ctxGen c').toNat * 2 ^ 20)

/-- The newest value of a line: a die's dirty copy, or the memory copy. -/
def State.newest (s : State) (line : Nat) : Line × Bool :=
  let dirty := (List.finRange 12).filterMap fun d =>
    let u : Sub := (s.die d).sub line
    if u.st = .m then some (u.data, u.pois)
    else match (s.die d).evOf line with
      | some (_, v) => if v.dirty then some (v.data, v.pois) else none
      | none => none
  match dirty with
  | x :: _ => x
  | [] => s.memCopy line

/-- What the context of a QID holds, without bringing it into the cache. -/
def State.ctxPeek (s : State) (q : Nat) : Line :=
  match SMap.get none s.fold.cache q with
  | some w => w.ctx
  | none => (s.newest (s.ctxLine q)).1

/-- Every queue of a range of QIDs that exists is reset. -/
def State.resetQueues (s : State) (base : Nat) : Nat → State
  | 0 => s
  | n + 1 =>
    let s := State.resetQueues s base n
    let c := s.ctxPeek (base + n)
    if ctxValid c then s.resetQueue (base + n) c else s

/-- A group is reset: every queue, and GGEN + 1 (Table FOLD-7). -/
def State.resetGroup (s : State) (f : Nat) : State :=
  let a := foldAddr (0x20000 + 4 * f)
  (s.resetQueues (s.qBase f) (s.qCount f)).cpSetField a 0 8 (s.cpField a 0 8 + 1)

/-- Whether any queue of a group has work in progress. -/
def State.groupBusy (s : State) (f : Nat) : Bool :=
  s.fold.ops.any (fun e => e.2.any fun o => o.grp = f && !o.void)
    || s.fold.ready.any fun e => s.groupOf e.qid.toNat = some f

/-- FOLD_GRP_STATE_f.QUIESCED (R385). -/
def State.quiesced (s : State) (f : Nat) : Bool :=
  s.cpField (foldAddr (0x20000 + 4 * f)) 8 1 = 1 &&
    (List.range (s.qCount f)).all fun k =>
      let q := s.qBase f + k
      let c := s.ctxPeek q
      !ctxValid c || (ctxF c 6 36 12 = 0 && s.fold.fetches q = 0)

/-! The admin queue's registers (R380, Table FOLD-9). -/

/-- The state with the admin queue changed. -/
def State.modAq (s : State) (f : AdminQ → AdminQ) : State :=
  s.modFold fun x => { x with aq := f x.aq }

/-- AQ_CFG.ENABLE. -/
def AdminQ.on (a : AdminQ) : Bool := bit a.cfg 0

/-- Depth of the admin queue. -/
def AdminQ.depth (a : AdminQ) : Nat :=
  let l := field a.cfg 1 4
  2 ^ (if 4 ≤ l && l ≤ 8 then l else 4)

/-- The admin queue reset (R375, R380, R397). -/
def AdminQ.reset (a : AdminQ) : AdminQ :=
  { a with ready := false, error := false, gen := a.gen + 1, sqHead := 0, sqTail := 0, cqTail := 0
           cqHead := 0, phase := true, lastSeq := 0, done := false }

/-- AQ_CFG written. -/
def AdminQ.writeCfg (a : AdminQ) (w : Nat) : AdminQ :=
  let en := w % 2 = 1
  let keep : BitVec 27 := if a.on then setField (BitVec.ofNat 27 w) 1 4 (field a.cfg 1 4)
    else BitVec.ofNat 27 w
  let a' := { a with cfg := keep &&& 0x7FF001F }
  if en then { a' with ready := true } else if a.on then a'.reset else a'

/-- The admin queue enters ERROR (R380): AQ_STATUS, and FOLD_QERR with QID 0. It belongs to no group, so no event of
one is queued (DEDUCED, log 148). -/
def State.adminError (s : State) (cause : Nat) : State :=
  (s.modAq fun a => { a with error := true }).cpSet (foldAddr 0x01C) (BitVec.ofNat 32 (cause * 2 ^ 20 + 2 ^ 25))

/-- Admin doorbells, as those of a queue (R367): dropped and counted while the queue is not enabled or in ERROR; an
index outside the ring, or a CQ head beyond what was written, is an error (causes 1 and 2). An SQ tail submits the
commands before it (R398). -/
def State.adminDoorbell (s : State) (v : Nat) (cq : Bool) : State :=
  let a := s.fold.aq
  if !a.on || a.error then s.dropDoorbell
  else if cq then
    if a.depth ≤ v || ringDist a.depth a.cqTail v > ringDist a.depth a.cqTail a.cqHead then s.adminError 2
    else s.modAq fun a => { a with cqHead := v }
  else if a.depth ≤ v then s.adminError 1
  else
    let old := if a.sqHead = a.sqTail then s.shep.order.filter (· != .admin) else s.shep.order
    let order := old ++ List.replicate (ringDist a.depth v a.sqTail) .admin
    ({ s with shep := { s.shep with order := order } } : State).modAq fun a => { a with sqTail := v }

/-! The context port (Table FOLD-10, R388). -/

/-- The context in FOLD_CTXP_DATA. -/
def State.ctxpData (s : State) : Line :=
  BitVec.ofNat 512 ((List.range 16).foldl (fun n i =>
    n + (s.cpGet (foldAddr (0x60040 + 4 * i))).toNat * 2 ^ (32 * i)) 0)

/-- FOLD_CTXP_DATA replaced. -/
def State.setCtxpData (s : State) (c : Line) : State :=
  (List.range 16).foldl (fun s i =>
    s.cpSet (foldAddr (0x60040 + 4 * i)) (c.extractLsb' (32 * i) 32)) s

/-- Fields of type RW of a context (Table FOLD-1). -/
def ctxRw : Line :=
  BitVec.ofNat 512 (0x0FFFFFF80000FFF8 + (2 ^ 64 - 4096) * 2 ^ 64 + (2 ^ 64 - 4096) * 2 ^ 128
    + (2 ^ 48 - 4096) * 2 ^ 192 + (2 ^ 48 - 4096) * 2 ^ 256)

/-- A context with its RW fields taken from a command. -/
def ctxConfig (c d : Line) : Line := (c &&& ~~~ctxRw) ||| (d &&& ctxRw)

/-- A new context of a group, over what the QID's context held (Table FOLD-1). -/
def ctxCreate (old d : Line) (grp : Nat) : Line :=
  let c := ctxSet (ctxSet (ctxConfig 0 d) 0 0 1 1) 0 16 8 ((ctxGen old).toNat + 1)
  ctxSet (ctxSet c 0 24 11 grp) 5 48 1 1

/-- An operation of the context port on a QID with a context image; none where its home is busy.
READ answers the context in FOLD_CTXP_DATA. -/
def State.ctxp (s : State) (op : Nat) (q : Nat) (d : Line) : Option State :=
  match s.ctxOf q with
  | none => none
  | some (c, s) =>
    some (match op with
      | 1 => s.setCtxpData c
      | 2 => s.setCtx q (ctxConfig c d)
      | 3 => s.setCtx q (ctxCreate c d ((s.groupOf q).getD 0))
      | 4 => s.setCtx q (ctxSet c 0 0 1 0)
      | 5 => s.resetQueue q c
      | 6 => s.setCtx q (ctxSet c 0 1 1 1)
      | 7 => s.setCtx q d
      | _ => s)

/-! The dirty-page log (R381 to R384). -/

/-- Control-plane address of a log register of function `v`. -/
def logAddr (v off : Nat) : Nat := foldAddr (0x40000 + 32 * v + off)

/-- Base of the active buffer, or of the other. -/
def State.logBase (s : State) (v : Nat) (active : Bool) : Nat :=
  let a := s.cpField (logAddr v 0x18) 1 1 = 1
  let off := if a == active then 8 else 0
  (s.cpGet64 (logAddr v off)).toNat / 4096 * 4096 % 2 ^ 48

/-- A log line is written back for group 0. -/
def State.logFlushLine (s : State) (w : LogWay) : Option State :=
  let o := s.grpOwner 0
  match s.hubWrite foldStation (bit o 9) (o.extractLsb' 0 8) w.line w.data fullMask with
  | .busy => none
  | .ok _ s => some s
  | .refuse s => some s
  | .poison s => some s

/-- A log line in the cache, as the most recently used; a refused line answers none inside. -/
def State.logLine (s : State) (v line : Nat) : Option (Option LogWay × State) :=
  match s.fold.log.find? fun w => w.line = line with
  | some w => some (some w, s.modFold fun f => { f with log := f.log.erase w })
  | none =>
    let room := if s.fold.log.length < 512 then some s
      else match s.fold.log with
        | [] => some s
        | w :: rest => (s.logFlushLine w).map fun s => s.modFold fun f => { f with log := rest }
    match room with
    | none => none
    | some s =>
      let o := s.grpOwner 0
      match s.hubRead foldStation (bit o 9) (o.extractLsb' 0 8) line with
      | .busy => none
      | .ok d s => some (some ⟨v, line, d⟩, s)
      | .refuse s => some (none, s)
      | .poison s => some (none, s)

/-- One host page is marked for a function. A line that the unit cannot read counts as overflow
(DESIGN CHOICE). -/
def State.logPage (s : State) (v page : Nat) : Option State :=
  let first := (s.cpGet64 (logAddr v 0x10)).toNat / 4096
  let ovf := fun (s : State) => s.cpSetField (logAddr v 0x18) 4 1 1
  if page < first || 2 ^ s.cpField (logAddr v 0x18) 8 5 ≤ page - first then some (ovf s)
  else
    let i := page - first
    let line := (s.logBase v true + i / 8) / 64
    match s.logLine v line with
    | none => none
    | some (none, s) => some (ovf s)
    | some (some w, s) =>
      let b := i % 512
      let s := if bit w.data b then s else s.countAt (logAddr v 0x1C) 0 32 1
      some (s.modFold fun f => { f with log := f.log ++ [{ w with data := setBit w.data b true }] })

/-- The pages of an outbound write of a function are marked (R381); none where the log must wait. -/
def State.logMark (s : State) (v a n : Nat) : Option State :=
  if v = 0 || s.cpField (logAddr v 0x18) 0 1 = 0 then some s
  else (List.range ((a + n - 1) / 4096 - a / 4096 + 1)).foldl (fun o i =>
    o.bind fun s => s.logPage v (a / 4096 + i)) (some s)

/-- Cached log lines of a function that pass a test are written back. -/
def State.logFlush (s : State) (v : Nat) (p : Nat → Bool) : Option State :=
  (s.fold.log.filter fun w => w.fn = v && p w.line).foldl (fun o w =>
    o.bind fun s => (s.logFlushLine w).map fun s =>
      s.modFold fun f => { f with log := f.log.erase w }) (some s)

/-- A write of SWAP: the other buffer becomes active (R383). -/
def State.logSwap (s : State) (v : Nat) : State :=
  let a := logAddr v 0x18
  if s.cpField a 3 1 = 1 then s
  else
    let s := s.modFold fun f => { f with
      oldCnt := SMap.set 0 f.oldCnt v (s.cpGet (logAddr v 0x1C)).toNat }
    (s.cpSetField a 1 1 (1 - s.cpField a 1 1)).cpSetField a 3 1 1

/-- The old buffer has been written back (R383). -/
def State.logSwapDone (s : State) (v : Nat) : Option State :=
  let a := logAddr v 0x18
  if s.cpField a 3 1 = 0 then some s
  else
    let b := s.logBase v false / 64
    let n := 2 ^ s.cpField a 8 5 / 512
    (s.logFlush v fun l => b ≤ l && l < b + n).map fun s =>
      (s.cpSetField a 3 1 0).cpSet (logAddr v 0x1C) 0

/-! Commands. -/

/-- A core's FOLD_DEVBELL write of TYPE WORK_HEAD. -/
def execWorkHead (w : Word) (who : Accessor) (s : State) : Out :=
  .next (((s.devBell (setBit w 20 false) who).map (·.2)).getD s)

/-- A core's FOLD_DEVBELL write of TYPE DCR_TAIL. -/
def execDcrTail (w : Word) (who : Accessor) (s : State) : Out :=
  .next (((s.devBell (setBit w 20 true) who).map (·.2)).getD s)

/-- The Fold fetches an SQ slot of a queue. -/
def execSqFetch (qid : Qid) (s : State) : Out :=
  if s.isOff foldStation then .next s else .next ((s.foldWork.sqFetch qid.toNat).getD s.foldWork)

/-- The Fold reads a DCR slot of a queue; a domain stop stops its device side (Table SAFE-12). -/
def execDcrRead (qid : Qid) (s : State) : Out :=
  if s.isOff foldStation || s.restarting then .next s
  else .next ((s.foldWork.dcrRead qid.toNat).getD s.foldWork)

/-- The Fold writes a completion of a queue to the host. -/
def execCqWrite (qid : Qid) (s : State) : Out :=
  if s.isOff foldStation then .next s else .next ((s.foldWork.cqWrite qid.toNat).getD s.foldWork)

/-- An operation written to FOLD_CTXP_CMD. -/
def State.ctxpCmd (s : State) (op : Nat) (w : Word32) : Out :=
  if s.isOff foldStation then .next s
  else .next ((s.ctxp op (field w 0 20) s.ctxpData).getD s)

/-- Context port READ. -/
def execFoldCtxpRead (w : Word32) (s : State) : Out := s.ctxpCmd 1 w
/-- Context port CONFIG. -/
def execFoldCtxpConfig (w : Word32) (s : State) : Out := s.ctxpCmd 2 w
/-- Context port CREATE. -/
def execFoldCtxpCreate (w : Word32) (s : State) : Out := s.ctxpCmd 3 w
/-- Context port DELETE. -/
def execFoldCtxpDelete (w : Word32) (s : State) : Out := s.ctxpCmd 4 w
/-- Context port RESET. -/
def execFoldCtxpReset (w : Word32) (s : State) : Out := s.ctxpCmd 5 w
/-- Context port ENABLE. -/
def execFoldCtxpEnable (w : Word32) (s : State) : Out := s.ctxpCmd 6 w
/-- Context port RESTORE. -/
def execFoldCtxpRestore (w : Word32) (s : State) : Out := s.ctxpCmd 7 w

/-- FOLD_LOG_CTL_v.SWAP written. -/
def execLogSwap (fn : Func) (s : State) : Out :=
  if fn.val = 0 then .next s else .next (s.logSwap fn.val)

/-- The old buffer of a function has been written back. -/
def execLogSwapDone (fn : Func) (s : State) : Out :=
  if fn.val = 0 then .next s else .next ((s.logSwapDone fn.val).getD s)

end Sys2Proof.Machine
end

