-- ==== Sys2Proof/Machine/Pcie.lean ====
section
/-!
DEFINITION. The commands of PCIe port A (R337 to R357): inbound transactions, the host window, resets and
the release of a freeze; and the host's writes to the registers of the Fold in BAR0 (R387).
-/

namespace Sys2Proof.Machine

/-! BAR decoding (Table PCIE-3). -/

/-- The base address in a pair of BAR words. -/
def State.barBase (s : State) (off size : Nat) : Nat :=
  ((s.cfg pf off).toNat + 2 ^ 32 * (s.cfg pf (off + 4)).toNat) / size * size

/-- What an inbound memory address names: a function, whether it is BAR2, and the offset. -/
def State.barOf (s : State) (a : Nat) : Option (Func × Bool × Nat) :=
  let hit := fun (off size : Nat) => s.barBase off size ≤ a && a < s.barBase off size + size
  let vfs := fun (off size : Nat) =>
    let b := s.barBase off size
    let i := (a - b) / size
    if h : b ≤ a ∧ i < 1024 then
      if s.fnOn ⟨i + 1, by omega⟩ then some ((⟨i + 1, by omega⟩ : Func), (a - b) % size) else none
    else none
  if hit 0x010 (2 ^ 20) then some (pf, false, a - s.barBase 0x010 (2 ^ 20))
  else if hit 0x018 (2 ^ 34) then some (pf, true, a - s.barBase 0x018 (2 ^ 34))
  else match vfs 0x184 (2 ^ 14) with
    | some (f, o) => some (f, false, o)
    | none => (vfs 0x18C (2 ^ 26)).map fun x => (x.1, true, x.2)

/-- PCIE_APT_f: VALID and BASE. -/
def State.aperture (s : State) (f : Func) : Option Nat :=
  let v := s.cpGet64 (pcieAddr (0x20000 + 8 * f.val))
  if bit v 0 then some (field v 26 15 * 2 ^ 26) else none

/-! Inbound requests in order (R347, R348). -/

/-- Whether an aperture line may go out now: 32 outstanding, or one under STRICT. -/
def State.lineMay (s : State) : Bool :=
  if s.cpField (pcieAddr 4) 0 1 = 1 then s.pcie.posted.isEmpty else s.pcie.posted.length < 32

/-- A request of a function to a home, stamped as its group's (R342). -/
def State.fnSend (s : State) (f : Func) (m : Msg) : Option (Nat × State) :=
  match s.freeTxid portAStation 2048 with
  | none => none
  | some t =>
    let o := s.grpOwner f.val
    let cls := (s.cpGet (pcieAddr (0x10000 + 8 * f.val))).extractLsb' 28 4
    let m := s.classed { m with
      src := portAStation, txid := BitVec.ofNat 14 t, tclass := cls, s := bit o 9
      pid := o.extractLsb' 0 8, epoch := s.epoch portAStation }
    let s := { s with reqs := s.reqs ++ [({ msg := m, purpose := .unit f.val } : Req)] }
    some (t, s.inject (.func f) m)

/-- A line of an aperture write goes to its home. -/
def State.sendLine (s : State) (f : Func) (pa : Nat) (mask : BitVec 64) (d : Line) : Option State :=
  match s.fnSend f { kind := .wrUnique, dest := homeOfLine (pa / 64), src := 0,
                     addr := BitVec.ofNat 48 (pa / 64 * 64), bmask := mask, data := some d } with
  | none => none
  | some (t, s) => some (s.modPcie fun p => { p with posted := p.posted ++ [BitVec.ofNat 14 t] })

/-- The lines of an aperture read go to their homes (R342). -/
def State.sendRead (s : State) (f : Func) (pa bytes : Nat) (tag : Option (BitVec 10)) : Option State :=
  let first := pa / 64
  let n := (pa + bytes - 1) / 64 - first + 1
  let r := (List.range n).foldl (fun o i => o.bind fun (x : List (BitVec 14 × Nat) × State) =>
    match x.2.fnSend f { kind := .rdOnce, dest := homeOfLine (first + i), src := 0,
                         addr := BitVec.ofNat 48 (64 * (first + i)) } with
    | none => none
    | some (t, s) => some (x.1 ++ [(BitVec.ofNat 14 t, first + i)], s)) (some ([], s))
  r.map fun x => x.2.modPcie fun p => { p with
    reads := p.reads ++ [{ fn := f, tag := tag, pa := pa, bytes := bytes, left := x.1 }] }

/-- A word of the admin registers (Table FOLD-9). -/
def AdminQ.word (a : AdminQ) (off : Nat) : Nat :=
  if off = 0 then a.sqBase.toNat % 2 ^ 32
  else if off = 4 then a.sqBase.toNat / 2 ^ 32
  else if off = 8 then a.cqBase.toNat % 2 ^ 32
  else if off = 12 then a.cqBase.toNat / 2 ^ 32
  else if off = 16 then a.cfg.toNat
  else if off = 20 then b2n a.ready + 2 * b2n a.error + 4 * a.gen.toNat
  else 0

/-- A word of the admin registers written; the bases are kept while ENABLE = 1. -/
def AdminQ.write (a : AdminQ) (off v : Nat) : AdminQ :=
  let lo := fun (x : Word) => setField x 0 32 (v / 4096 * 4096)
  let hi := fun (x : Word) => setField x 32 32 v
  if off = 16 then a.writeCfg v
  else if a.on then a
  else if off = 0 then { a with sqBase := lo a.sqBase }
  else if off = 4 then { a with sqBase := hi a.sqBase }
  else if off = 8 then { a with cqBase := lo a.cqBase }
  else if off = 12 then { a with cqBase := hi a.cqBase }
  else a

/-- Base of a function's doorbells in BAR0 (Table FOLD-8). -/
def doorbellBase (f : Func) : Nat := if f.val = 0 then 0x2000 else 0

/-- The MSI-X table and the pending bits in BAR0 (Table PCIE-3). -/
def msixBase (f : Func) : Nat := if f.val = 0 then 0x80000 else 0x2000
def pbaBase (f : Func) : Nat := if f.val = 0 then 0x90000 else 0x3000

/-- A 32-bit word of BAR0 written; none where the Fold must wait. -/
def State.bar0Word (s : State) (f : Func) (off v : Nat) : Option State :=
  let m := msixBase f
  if m ≤ off && off < m + 16 * vectorsOf f then
    let i := (off - m) / 4
    let k := 4 * vecKey f (i / 4) + i % 4
    let d : Word32 := if i % 4 = 3 then 1 else 0
    let w := BitVec.ofNat 32 (if i % 4 = 3 then v % 2 else if i % 4 = 0 then v / 4 * 4 else v)
    some ((s.modPcie fun p => { p with msix := SMap.set d p.msix k w }).msixPending)
  else if f.val = 0 && off < 0x18 then some (s.modAq (·.write off v))
  else if f.val = 0 && (off = 0x1000 || off = 0x1004) then
    some (s.adminDoorbell v (off = 0x1004))
  else
    let b := doorbellBase f
    if b ≤ off && off < b + 8 * 1024 then
      s.hostDoorbell f.val ((off - b) / 8) v (off % 8 = 4)
    else some s

/-- A 32-bit word of BAR0 read; none where the Fold must wait. -/
def State.bar0Get (s : State) (f : Func) (off : Nat) : Option (Nat × State) :=
  let m := msixBase f
  let b := doorbellBase f
  if m ≤ off && off < m + 16 * vectorsOf f then
    some ((s.msixWord f ((off - m) / 16) ((off - m) / 4 % 4)).toNat, s)
  else if pbaBase f ≤ off && off < pbaBase f + vectorsOf f / 8 then
    let v := 8 * (off - pbaBase f)
    some ((List.range 32).foldl (fun n i =>
      n + b2n (SMap.get false s.pcie.pba (vecKey f (v + i))) * 2 ^ i) 0, s)
  else if f.val = 0 && off < 0x18 then some (s.fold.aq.word off, s)
  else if b ≤ off && off < b + 8 * 1024 then s.doorbellRead f.val ((off - b) / 8) (off % 8 = 4)
  else some (0, s)

/-- An error answer to an inbound request: UR or CA, logged in a function (Tables PCIE-4, PCIE-6). -/
def State.inboundErr (s : State) (f : Func) (t : Tlp) (ca : Bool) : State :=
  let s := if t.write then s else s.hostCpl f t.tag (if ca then 4 else 1) []
  s.pcieError f (if ca then 15 else 20) true (!t.write)

/-- Bytes of a BAR0 write as 32-bit words; a word with part of its bytes named keeps the rest of what
it reads. -/
def State.bar0Bytes (s : State) (f : Func) (off be : Nat) (data : List Byte) : Nat → Option State
  | 0 => some s
  | n + 1 =>
    match State.bar0Bytes s f off be data n with
    | none => none
    | some s =>
      let m := be / 2 ^ (4 * n) % 16
      if m = 0 then some s
      else
        let o := off + 4 * n
        match s.bar0Get f o with
        | none => none
        | some (old, s) =>
          s.bar0Word f o (mergeBits old (bytesToNat ((data.drop (4 * n)).take 4)) (maskOf 4 m) % 2 ^ 32)

/-- The front of the inbound queue performed, if it may be: writes of BAR0 and reads wait for every
earlier posted write (R348). -/
def State.inboundStep (s : State) (op : InOp) : Option State :=
  match op with
  | .line f pa m d => if s.lineMay then s.sendLine f pa m d else none
  | .bar0Write f off data be =>
    if s.pcie.posted.isEmpty then s.bar0Bytes f off be data (data.length / 4) else none
  | .bar0Read f off bytes tag =>
    if !s.pcie.posted.isEmpty then none
    else
      (List.range ((bytes + 3) / 4)).foldl (fun o i =>
        o.bind fun (x : List Byte × State) => (x.2.bar0Get f (off + 4 * i)).map fun y =>
          (x.1 ++ natToBytes 4 y.1, y.2)) (some ([], s)) |>.map fun x =>
        tag.elim x.2 fun t => x.2.hostCpl f t 0 (x.1.take bytes) off
  | .read f pa bytes tag => if s.pcie.posted.isEmpty then s.sendRead f pa bytes tag else none

/-- The inbound queue runs as far as it may. -/
def State.inboundRun : Nat → State → State
  | 0, s => s
  | n + 1, s => match s.pcie.inq with
    | [] => s
    | op :: rest => match s.inboundStep op with
      | none => s
      | some s => State.inboundRun n (s.modPcie fun p => { p with inq := rest })

/-- Requests join the inbound queue. -/
def State.inbound (s : State) (ops : List InOp) : State :=
  let s := s.modPcie fun p => { p with inq := p.inq ++ ops }
  State.inboundRun s.pcie.inq.length s

/-- The lines of an aperture write. -/
def writeLines (f : Func) (pa : Nat) (data : List Byte) (be : Nat) : List InOp :=
  let n := data.length
  (List.range ((pa + n - 1) / 64 - pa / 64 + 1)).map fun i =>
    let base := (pa / 64 + i) * 64
    let skip := base - pa
    let lead := pa - base
    let part := (data.drop skip).take (64 - lead)
    .line f base (BitVec.ofNat 64 (be / 2 ^ skip % 2 ^ part.length * 2 ^ lead))
      (Line.place lead (bytesToNat part))

/-- An inbound memory request (Table PCIE-4, Table PCIE-7). -/
def State.memoryTlp (s : State) (t : Tlp) : State :=
  let a := t.addr.toNat
  let n := if t.write then t.data.length else t.bytes
  if s.perst || !s.dlUp then s
  else if s.frozen then
    if t.write then s.countAt (pcieAddr 0x010) 0 16 1
    else (s.countAt (pcieAddr 0x010) 16 16 1).hostCpl (((s.barOf a).map (·.1)).getD pf) t.tag 1 []
  else match s.barOf a with
  | none => s.inboundErr pf t false
  | some (f, bar2, off) =>
    if t.write && t.ep then s.pcieError f 12 true
    else if !s.memOn f || s.imageOnly && f.val ≠ 0 then s.inboundErr f t false
    else if bar2 then
      match s.aperture f with
      | none => s.inboundErr f t false
      | some base =>
        if !bit (s.grpOwner f.val) 10 || s.imageOnly then s.inboundErr f t false
        else if n = 0 then s
        else if t.write then s.inbound (writeLines f (base + off) t.data t.be)
        else s.inbound [.read f (base + off) n (some t.tag)]
    else if msixBase f ≤ off && off < msixBase f + 16 * vectorsOf f
        && !((n = 4 || n = 8) && off % n = 0) then s.inboundErr f t false
    else if t.write then s.inbound [.bar0Write f off t.data t.be]
    else s.inbound [.bar0Read f off n (some t.tag)]

/-- An inbound memory read. -/
def execMemoryRead (t : Tlp) (s : State) : Out := .next (s.memoryTlp { t with write := false })

/-- A write by the host to a 32-bit register of the PF's or a VF's BAR0. -/
def State.hostBar0 (s : State) (f : Func) (off : Nat) (v : Word32) : State :=
  if s.perst || !s.dlUp then s
  else if s.frozen then s.countAt (pcieAddr 0x010) 0 16 1
  else if !s.fnOn f || !s.memOn f || (s.imageOnly && f.val ≠ 0) then
    s.pcieError (if s.fnOn f then f else pf) 20 true
  else s.inbound [.bar0Write f off (natToBytes 4 v.toNat) 15]

/-! Answers of the homes. -/

/-- Whether port A passes data and completions to the host. -/
def State.hostOpen (s : State) : Bool := !s.frozen && !s.perst && s.dlUp

/-- The completions of an aperture read, one for each line, or CA where a Pasture refused (Table
PCIE-4). -/
def State.readDone (s : State) (r : InRead) : State :=
  match r.tag with
  | none => s
  | some tag =>
  if r.got.any fun g => g.2.isNone then (s.hostCpl r.fn tag 4 []).pcieError r.fn 15 true true
  else
    let first := r.pa / 64
    let n := (r.pa + r.bytes - 1) / 64 - first + 1
    (List.range n).foldl (fun s i =>
      match (r.got.find? fun g => g.1 = first + i).bind (·.2) with
      | none => s
      | some (d, p) =>
        let lead := if i = 0 then r.pa % 64 else 0
        let len := min (64 - lead) (r.pa + r.bytes - (64 * (first + i) + lead))
        s.hostCpl r.fn tag 0 (((natToBytes 64 d.toNat).drop lead).take len)
          (64 * (first + i) + lead) p) s

/-- The answer of a home to a request of port A: an aperture write is done, or a line of an aperture
read has come. -/
def State.portAnswer (s : State) (txid : BitVec 14) (f : Nat) (m : Msg) : State :=
  let s :=
    if s.pcie.posted.contains txid then
      let s := s.modPcie fun p => { p with posted := p.posted.erase txid }
      if m.kind = .homeRefuse && s.hostOpen then
        s.pcieError ⟨f % 1025, Nat.mod_lt _ (by decide)⟩ 15 true
      else s
    else match s.pcie.reads.find? fun r => r.left.any fun l => l.1 = txid with
      | none => s
      | some r =>
        let line := ((r.left.find? fun l => l.1 = txid).map (·.2)).getD 0
        let x : Option (Line × Bool) := match m.kind with
          | .readData => some (m.data.getD 0, m.poisoned)
          | .homePoison => some (0, true)
          | _ => none
        let r' := { r with left := r.left.filter (fun l => l.1 ≠ txid), got := r.got ++ [(line, x)] }
        if r'.left.isEmpty then
          (s.modPcie fun p => { p with reads := p.reads.erase r }).readDone r'
        else s.modPcie fun p => { p with reads := p.reads.map fun x => if x = r then r' else x }
  State.inboundRun s.pcie.inq.length s

/-! Configuration and messages. -/

/-- Writes of BAR0 that functions passing a test sent earlier and that still wait are applied, so that an FLR erases
them (R376). -/
def State.bar0Earlier (s : State) (p : Func → Bool) : State :=
  let s := s.pcie.inq.foldl (fun s op => match op with
    | .bar0Write f off data be => if p f then (s.bar0Bytes f off be data (data.length / 4)).getD s else s
    | _ => s) s
  s.modPcie fun x => { x with inq := x.inq.filter fun
    | .bar0Write f .. => !p f
    | _ => true }

/-- Initiate Function Level Reset (R376): the function's queues, GGEN, its regulator, its
configuration space, and for the PF every function's, every group, the admin queue and VF Enable. -/
def State.flr (s : State) (f : Func) : State :=
  let one := fun (s : State) (g : Nat) =>
    let s := s.resetGroup g
    let a := pcieAddr (0x10004 + 8 * g)
    let mine := fun (h : RegUnit × Msg) => match h.1 with
      | .func x => x.val = g
      | _ => false
    let held := s.regHeld.filter fun h => mine h
    let s := held.foldl (fun s h => s.proxy h.2) { s with regHeld := s.regHeld.filter fun h => !mine h }
    s.cpSet a 0
  let mine := fun (g : Func) => f.val = 0 || g == f
  let s := (s.bar0Earlier mine).voidInbound mine
  if f.val = 0 then
    let s := (List.range 1025).foldl one s
    (s.cfgClear fun _ => true).modAq fun a => a.reset
  else (one s f.val).cfgClear fun g => g = f.val

/-- A configuration write of a word under a byte mask. A VF Enable that falls resets the VFs' own configuration space
(PRESUMED, log 56). -/
def State.cfgWrite (s : State) (f : Func) (off v be : Nat) : State :=
  let m := maskOf 4 be
  let isPf := f.val = 0
  let b : Word32 := BitVec.ofNat 32 v &&& BitVec.ofNat 32 m
  if isPf && off = 0x1A8 then
    let s := if bit b 10 then s.cpSetField (pcieAddr 0x00C) 10 1 0 else s
    if bit b 9 then s.releaseFreeze else s
  else
    let old := s.cfg f off
    let w : Word32 := BitVec.ofNat 32 (cfgMask isPf off) &&& BitVec.ofNat 32 m
    let n := (old &&& ~~~w) ||| (b &&& w)
    let n := n &&& ~~~(b &&& BitVec.ofNat 32 (cfgW1c off))
    let s := s.setCfg f off n
    let s := if isPf && off = 0x168 && bit old 0 && !bit n 0 then s.cfgClear fun g => g ≠ 0 else s
    if off = 0x078 && bit b 15 then s.flr f
    else if off = 0x050 || off = 0x004 then s.msixPending
    else s

/-- A configuration word as read. -/
def State.cfgRead (s : State) (f : Func) (off : Nat) : Word32 :=
  if f.val = 0 && off = 0x1A8 then s.azContain
  else if f.val = 0 && off = 0x1AC then s.azDevState
  else if f.val = 0 && off = 0x14C then s.cpGet (cpAddr shepStation 0x300F4)
  else if f.val = 0 && off = 0x150 then s.cpGet (cpAddr shepStation 0x300F8)
  else if off = 0x080 then
    let st := s.cpGet (pcieAddr 0)
    (s.cfg f off) ||| BitVec.ofNat 32 ((field st 1 3 + field st 4 5 * 16) * 2 ^ 16)
  else s.cfg f off

/-- A configuration request (R343, R355): retry status before READY; a function that is not
implemented is UR. -/
def execConfigRequest (t : Tlp) (s : State) : Out :=
  if s.perst || !s.dlUp then .next s
  else
    let off := t.addr.toNat % 4096 / 4 * 4
    if !s.devReady then .next (s.hostCpl t.fn t.tag 2 [])
    else if !s.fnOn t.fn then .next ((s.hostCpl t.fn t.tag 1 []).pcieError pf 20 true true)
    else if t.write then
      .next ((s.cfgWrite t.fn off (bytesToNat t.data) t.be).hostCpl t.fn t.tag 0 [])
    else .next (s.hostCpl t.fn t.tag 0 (natToBytes 4 (s.cfgRead t.fn off).toNat) off)

/-- An inbound Message (Table PCIE-4): Vendor_Defined Type 0 is UR; the others have no effect in this
model. -/
def execMessageTlp (t : Tlp) (s : State) : Out :=
  if s.hostOpen && t.msg = 1 then .next (s.pcieError pf 20 true) else .next s

/-! Host window (R344 to R346). -/

/-- The function that issues a request of the host window (R344), or none where its PID has none. -/
def State.hostFn (s : State) (m : Msg) : Option Func :=
  let fn := fun (n : Nat) => if h : n < 1025 then some (⟨n, h⟩ : Func) else none
  if m.src = shepStation || m.src = mirrorStation then some pf
  else if m.src = foldStation then
    match s.reqs.find? fun r => r.msg.src == m.src && r.msg.txid == m.txid with
    | some { purpose := .unit g, .. } => fn g
    | _ => none
  else
    let w := s.cpGet (pcieAddr (0x400 + 4 * m.pid.toNat))
    if bit w 11 then fn (field w 0 11) else none

/-- A free outbound tag, 0x100 to 0x3FF. -/
def State.freeTag (s : State) : Option (BitVec 10) :=
  ((List.range 768).map fun i => BitVec.ofNat 10 (0x100 + i)).find? fun t =>
    !s.pcie.outs.any fun o => o.tag == t

/-- The host address of a host-window address (R344). -/
def State.hostAddr (s : State) (a : Nat) : Nat :=
  ((s.cpGet64 (pcieAddr 0x018)).toNat / 4096 * 4096 + a - 0x10000000000) % 2 ^ 64

/-- Whether a MWr joins the last one sent (R346). -/
def HostTlp.joins (x : HostTlp) (f : Func) (m : Msg) (a n maxp : Nat) : Bool :=
  x.kind = .memWrite && x.src = m.src && x.fn = f && x.tclass = m.tclass
    && (m.src = foldStation || (List.range 4).any fun c => m.src = ceStation c)
    && x.addr.toNat + x.data.length = a && x.data.length + n ≤ maxp

/-- A MWr of named bytes goes to the host, joined to the last where R346 allows it. -/
def State.sendMwr (s : State) (f : Func) (m : Msg) (a : Nat) (data : List Byte) : State :=
  match s.pcie.sent.getLast? with
  | some x =>
    if x.joins f m a data.length (s.maxPayload f) then
      s.modPcie fun p => { p with sent := p.sent.dropLast ++ [{ x with data := x.data ++ data }] }
    else s.toHost { kind := .memWrite, fn := f, addr := BitVec.ofNat 64 a, data := data,
                    bytes := data.length, src := m.src, tclass := m.tclass }
  | none => s.toHost { kind := .memWrite, fn := f, addr := BitVec.ofNat 64 a, data := data,
                       bytes := data.length, src := m.src, tclass := m.tclass }

/-- First byte and length of the bytes that a mask names. -/
def maskSpan (m : BitVec 64) : Nat × Nat :=
  let lo := trailingZeros 64 m.toNat
  (lo, popcount 64 m.toNat)

/-- A host-window request at port A: the host Pasture, then the cases of R345. -/
def State.hostWindow (s : State) (m : Msg) (wr : Bool) : Option State :=
  let a := m.addr.toNat
  let (ok, s) := s.checkPasture portAStation 16 a m.s m.pid
    (if wr then .w else if m.fetch then .x else .r) m.src
  if !ok then some (s.ncReply m .ncErr)
  else
    let refuse := some ((s.countAt (pcieAddr 0x014) 0 16 1).ncReply m .ncErr)
    match s.hostFn m with
    | none => refuse
    | some f =>
      if s.frozen || s.perst then
        some (((s.cutOff m).countAt (pcieAddr 0x014) 0 16 1).ncReply m .ncErr)
      else if !s.busMaster f || !s.fnOn f then refuse
      else if wr then
        let (lo, n) := maskSpan m.bmask
        let h := s.hostAddr (a / 64 * 64 + lo)
        (s.logMark f.val h n).map fun s =>
          (s.sendMwr f m h (((natToBytes 64 (m.data.getD 0).toNat).drop lo).take n)).ncReply m .ncAck
      else match s.freeTag with
        | none => none
        | some t =>
          let h := s.hostAddr a
          some ((s.modPcie fun p => { p with outs := p.outs ++ [⟨t, f, m⟩] }).toHost
            { kind := .memRead, fn := f, tag := t, addr := BitVec.ofNat 64 h, bytes := min 64 m.bytes
              src := m.src, tclass := m.tclass })

/-- A message arrives at port A. -/
def State.atPortA (s : State) (m : Msg) (k : MsgKind) (f : Msg → State → Option State) : Out :=
  s.deliver m k (fun u => u == UnitKind.portA) f

/-- HostRd. -/
def execHostRd (msg : Msg) (s : State) : Out := s.atPortA msg .hostRd fun m s => s.hostWindow m false
/-- HostWr. -/
def execHostWr (msg : Msg) (s : State) : Out := s.atPortA msg .hostWr fun m s => s.hostWindow m true

/-- A completion from the host for an outbound read (R346, Table PCIE-7). -/
def execCompletion (t : Tlp) (s : State) : Out :=
  if s.perst || !s.dlUp then .next s
  else match s.pcie.outs.find? fun o => o.tag = t.tag with
  | some o =>
    let s := s.modPcie fun p => { p with outs := p.outs.erase o }
    if t.status ≠ 0 then .next (s.ncReply o.msg .ncErr)
    else if t.ep then .next ((s.ncReply o.msg .ncPoison).pcieError o.fn 12 true)
    else .next (s.ncReply o.msg .ncData
      (some (Line.place (o.msg.addr.toNat % 64) (bytesToNat t.data))))
  | none =>
    if s.frozen then .next s else .next (s.pcieError pf 16 true true)

/-- An outbound read has waited CTO_MS (R346). -/
def execCompletionTimeout (tag : BitVec 10) (s : State) : Out :=
  match s.pcie.outs.find? fun o => o.tag = tag with
  | none => .next s
  | some o =>
    let s := s.modPcie fun p => { p with outs := p.outs.erase o }
    .next (((s.countAt (pcieAddr 0x014) 16 16 1).ncReply o.msg .ncErr).pcieError o.fn 14 false)

/-! Link and resets (R351 to R355). -/

/-- The link goes down: a freeze with cause 3, and what Table PCIE-8 resets. -/
def State.linkDown (s : State) : State :=
  (((s.freeze 3 0).voidInbound fun _ => true).cpSetField (pcieAddr 0) 0 9 0).cfgClearAll

/-- DL_Active is lost. -/
def execDlDown (s : State) : Out := .next (if s.dlUp then s.linkDown else s)

/-- Hot Reset. -/
def execHotReset (s : State) : Out := .next (if s.perst then s else s.linkDown)

/-- The link trains and DL_Active becomes 1; speed and width are those negotiated, a part's own
(DESIGN CHOICE: free values among those of Table PCIE-1). -/
def execDlUp (s : State) : Out :=
  if s.perst || s.dlUp || s.domState 56 ≠ 0 then .next s
  else
    let (sp, s) := s.takeFree 3
    let (w, s) := s.takeFree 3
    let s := s.cpSetField (pcieAddr 0) 1 3 (sp.toNat % 5 + 1)
    .next ((s.cpSetField (pcieAddr 0) 4 5 (2 ^ (w.toNat % 5))).cpSetField (pcieAddr 0) 0 1 1)

/-- An FLR of a function. -/
def execFlr (fn : Func) (s : State) : Out := .next (if s.fnOn fn then s.flr fn else s)

/-- A RELEASE write (R352). -/
def execRelease (s : State) : Out := .next s.releaseFreeze

end Sys2Proof.Machine
end

