-- ==== Sys2Proof/Machine/Rme.lean ====
section
/-!
DEFINITION. The range-maintenance engine of a die (R159 to R168).
-/

namespace Sys2Proof.Machine

/-- Whether an accessor is the holder (R159, R160). -/
def Rme.heldBy (x : Rme) (w : Accessor) : Bool :=
  match x.holder with
  | none => false
  | some h => w.lc.toNat = h.lc.val && h.pid == w.pid && h.lvl == w.lvl && h.world == w.world

/-- Whether an accessor may program the engine (R160). -/
def Rme.mayProgram (x : Rme) (w : Accessor) : Bool := w.lvl = 3 || x.heldBy w

/-- A core as RME_HOLDER records it. -/
def holderOf (w : Accessor) : Option RmeHolder :=
  if h : w.lc.toNat < 216 then some ⟨⟨w.lc.toNat, h⟩, w.pid, w.lvl, w.world⟩ else none

/-- RME_CLAIM.REQ: the writer becomes the holder if there is none (R159). -/
def Rme.claim (x : Rme) (w : Accessor) : Rme :=
  if x.holder.isNone && w.lvl ≠ 0 then { x with holder := holderOf w } else x

/-- RME_CLAIM.REL: the holder releases an idle engine; M also aborts a running command (R159). -/
def Rme.release (x : Rme) (w : Accessor) : Rme :=
  if w.lvl = 3 then
    { x with holder := none, err := if x.busy && x.err = 0 then 5 else x.err }
  else if x.heldBy w && !x.busy then { x with holder := none }
  else x

/-- RME_ABORT (R166): the command stops after the line in progress. -/
def Rme.abort (x : Rme) (w : Accessor) : Rme :=
  if x.mayProgram w && x.busy && x.err = 0 then { x with err := 5 } else x

/-- Scopes that Table CACHE-6 allows for an operation: LOCAL, DOMAIN. -/
def rmeScopes (op : Nat) : Bool × Bool :=
  if 1 ≤ op && op ≤ 3 then (true, true)
  else if op = 4 then (false, true)
  else if 5 ≤ op && op ≤ 7 then (true, false)
  else (false, false)

/-- Why a launch is refused, as ERR; 0 accepts (R161). -/
def Rme.refusal (x : Rme) (op : Nat) (force scope : Bool) : Nat :=
  let sc := rmeScopes op
  let low := match x.holder with
    | some h => h.lvl.toNat < 2
    | none => false
  if !(if scope then sc.2 else sc.1) then 1
  else if x.limit < x.base || 0x1000000000 ≤ x.base.toNat || 0x1000000000 ≤ x.limit.toNat then 2
  else if force && low then 3
  else 0

/-- A write to RME_CMD with an operation (R161, Table CACHE-12). DESIGN CHOICE: a refused launch with IRQ = 1
sets DONE and asserts nothing, since R166 asserts RME_DONE at a completion (log entry 134); a launch by M
while there is no holder runs under the identity of that core (log entry 135). -/
def Rme.launch (x : Rme) (op : Nat) (v : Word32) (w : Accessor) : Rme :=
  if !x.mayProgram w || x.busy then x
  else
    let force := bit v 4
    let scope := bit v 5
    let r := x.refusal op force scope
    let x := { x with
      run := x.holder <|> holderOf w, op := BitVec.ofNat 4 op, force := force, scope := scope
      own := bit v 6, irq := bit v 7, tclass := v.extractLsb' 8 4, err := BitVec.ofNat 3 r
      walk := r = 0 && !scope && 0x2000000 < x.limit.toNat + 64 - x.base.toNat
      next := x.base.truncate 48, skips := [], lastFail := none }
    if r ≠ 0 then { x with done := true } else { x with busy := true }

/-- The permission that a command's lines need (Table CACHE-6); none for UNLOCK. -/
def Rme.perm (x : Rme) : Option Perm :=
  let op := x.op.toNat
  if op = 2 || op = 4 then some .w
  else if op = 5 then some (if x.own then .w else .r)
  else if op = 6 then none
  else some .r

/-- A locked sector is skipped on some dies, and counted once for each (R163, R164). -/
def Rme.skip (x : Rme) (sector : Nat) (dies : BitVec 12) : Rme :=
  let old := SMap.get 0 x.skips sector
  let n := popcount 12 (dies &&& ~~~old).toNat
  if n = 0 then x
  else { x with skipped := BitVec.ofNat 32 (satAdd 0xFFFFFFFF x.skipped.toNat n), skipFlag := true,
                skips := SMap.set 0 x.skips sector (old ||| dies) }

/-- A sector left unlocked by LOCK_LIMIT is counted once (R162). -/
def Rme.lockFail (x : Rme) (sector : Nat) : Rme :=
  if x.lastFail = some sector then x
  else { x with lockfail := BitVec.ofNat 32 (satAdd 0xFFFFFFFF x.lockfail.toNat 1), lockFlag := true,
                lastFail := some sector }

/-- The engine of a die changed. -/
def State.modRme (s : State) (d : Die) (f : Rme → Rme) : State :=
  s.modDie d fun x => { x with rme := f x.rme }

/-- Requests of the engine whose answers are awaited. -/
def State.rmeOut (s : State) (d : Die) : Nat :=
  (s.reqs.filter fun r => r.purpose == .engine d).length

/-- A request of the engine, with the holder's world and PID, charged to the holder's regulator (R162,
R310); none where no TXID is free. -/
def State.rmeReq (s : State) (d : Die) (h : RmeHolder) (kind : MsgKind) (line low way : Nat)
    (data : Option Line) (pois : Bool) : Option State :=
  let st := bankOf d line
  match s.freeTxid st 32 with
  | none => none
  | some t =>
    let (cls, s) := s.classFor d h.pid (s.die d).rme.tclass
    let m := s.classed { kind := kind, dest := homeOfLine line, src := st,
                         txid := BitVec.ofNat 14 t, tclass := cls, s := h.world, pid := h.pid,
                         epoch := s.epoch st, addr := BitVec.ofNat 48 (line * 64 + low),
                         data := data, poisoned := pois }
    let s := { s with reqs := s.reqs ++ [({ msg := m, way := way, die := some d,
                                             purpose := .engine d } : Req)] }
    some (s.inject (.core h.lc) m)

/-- A sub-block leaves alone through the eviction buffer, in a class of its own: as WriteBack, or as Evict
where it is clean or its data is discarded; none where the buffer is full. -/
def State.evictLine (s : State) (d : Die) (line : Nat) (keepData : Bool) (u : RegUnit)
    (cls : BitVec 4) (p : Purpose) : Option State :=
  let x := s.die d
  match x.freeEv with
  | none => none
  | some e =>
    let y := x.sub line
    let old : EvSub := ⟨y.data, y.pois, y.st == .m && keepData, y.world⟩
    let s := (s.invalL1 d line none).modDie d fun x =>
      (x.modSub line fun u => { u with st := .i, data := 0, pois := false, world := false }).putEv e
        ⟨line / 4, SMap.set none [] (line % 4) (some old)⟩
    some (s.sendEvict d line e old u cls p)

/-- A dirty sub-block is written back and stays, clean and E: WriteBack with KEEP (Table COH-2);
unchanged where it is not dirty. -/
def State.cleanLine (s : State) (d : Die) (h : RmeHolder) (line : Nat) : Option State :=
  let u : Sub := (s.die d).sub line
  if u.st ≠ .m then some s
  else
    match s.rmeReq d h .writeBack line 1 0 (some u.data) u.pois with
    | none => none
    | some s =>
      let s := (slotsOf u.l1d).foldl (fun s i =>
        match s.lcAt d i with
        | some lc => s.modCore lc fun c =>
            match c.l1d.wayOf line, c.l1d.find line with
            | some w, some l => if l.st = .m then
                { c with l1d := c.l1d.put line w (some { l with st := .e }) } else c
            | _, _ => c
        | none => s) s
      some (s.modDie d fun x => x.modSub line fun u => { u with st := .e })

/-- A sub-block fetched into way `w` of the die cache if it is not valid (LOCK, PREFETCH). -/
def State.rmeFetch (s : State) (d : Die) (h : RmeHolder) (line w : Nat) (own : Bool) : Option State :=
  let x := s.die d
  if (x.sub line).st ≠ .i then some s
  else if s.lineBusy d line || x.evicting line then none
  else s.rmeReq d h (if own then .rdUnique else .rdShared) line w w none false

/-- The lock limit in force on a die: while a way-mode change is under way, the lower of the old one and the
new one (R147, R151). -/
def State.lockMax (s : State) (d : Die) : Nat :=
  min (lockLimit (s.wayMode d)) ((s.die d).lockMax.getD 4)

/-- LOCK and PREFETCH of a line (Table CACHE-6). A sector in a way that a drain closes is passed over (Table
CACHE-7). DESIGN CHOICE: a LOCK that finds no victim, since every way is locked or kept, counts in
RME_LOCKFAIL and fetches nothing (log entry 133). -/
def State.rmeTake (s : State) (d : Die) (h : RmeHolder) (line : Nat) (lock : Bool) : Option State :=
  let x := s.die d
  let r := x.rme
  let set := dcSet line
  if (x.wayOf line).any fun w => x.closed.getLsbD w then some s
  else match s.alloc d line (.core h.lc) (s.classOf d h.pid r.tclass) with
    | .full => none
    | .noVictim => some (if lock then s.modRme d (·.lockFail (line / 4)) else s)
    | .way w s =>
      let se := (s.die d).sec set w
      let se : Sector := if se.tag = some (line / 4) then se else { tag := some (line / 4) }
      let s := if !lock || se.lock then s
        else if (s.die d).lockedIn set < s.lockMax d then
          s.modDie d fun x => x.setSec set w { se with lock := true }
        else s.modRme d (·.lockFail (line / 4))
      s.rmeFetch d h line w r.own

/-- The effect of the running command on a line (Table CACHE-6, R163); none where it waits. -/
def State.rmeLine (s : State) (d : Die) (h : RmeHolder) (line : Nat) : Option State :=
  let x := s.die d
  let r := x.rme
  let op := r.op.toNat
  let sector := line / 4
  let set := dcSet line
  if r.scope then
    let code := if op = 4 then 3 else op - 1
    s.rmeReq d h .cmo line (code + 4 * b2n r.force) 0 none false
  else if op = 5 || op = 7 then s.rmeTake d h line (op = 5)
  else match x.wayOf line with
    | none => some s
    | some w =>
      let se := x.sec set w
      let u : Sub := se.sub (line % 4)
      if x.closed.getLsbD w then some s
      else if op = 6 then some (s.modDie d fun x => x.setSec set w { se with lock := false })
      else if op = 1 then s.cleanLine d h line
      else if se.lock && !r.force then
        let s := s.modRme d (·.skip sector (BitVec.ofNat 12 (2 ^ d.val)))
        if op = 3 then s.cleanLine d h line else some s
      else
        let s := if se.lock then s.modDie d fun x => x.setSec set w { se with lock := false } else s
        if u.st = .i then some s
        else s.evictLine d line (op = 3) (.core h.lc) (s.classOf d h.pid r.tclass) (.engine d)

/-- A line step: the Pasture of the line's memory is asked first; a refusal stops the command with
ERR = PASTURE and PROGRESS at the line (R162, R165). -/
def State.rmeStep (s : State) (d : Die) : State :=
  let r := (s.die d).rme
  match r.run with
  | none => s
  | some h =>
    if !r.busy || r.err ≠ 0 || r.limit.toNat < r.next.toNat || 32 ≤ s.rmeOut d then s
    else
      let a := r.next.toNat
      let mc := mcStation (quadOf a)
      let (ok, s1) := match r.perm with
        | none => (true, s)
        | some p => s.checkPasture mc 32 a h.world h.pid p (intdStation d)
      if !ok then s1.modRme d fun r => { r with err := 4 }
      else match s1.rmeLine d h (a / 64) with
        | none => s
        | some s => s.modRme d fun r => { r with next := r.next + 64 }

/-- BUSY clears and DONE sets once every effect is complete; RME_DONE is asserted if asked (R166). -/
def State.rmeComplete (s : State) (d : Die) : State :=
  let r := (s.die d).rme
  if r.busy && s.rmeOut d = 0 && (r.err ≠ 0 || r.limit.toNat < r.next.toNat) then
    let s := s.modRme d fun r => { r with busy := false, done := true }
    if r.irq then s.assertDie d 32 else s
  else s

/-- RME_DIEINFO of a die (Table CACHE-14). -/
def State.rmeDieInfo (s : State) (d : Die) : Nat :=
  let m := s.wayMode d
  field m 0 13 + lockLimit m * 2 ^ 13

/-- A word of the range engine's registers (Tables CACHE-9 to CACHE-14); none is a bus error. -/
def State.rmeRead (s : State) (d : Die) (off : Nat) (w : Accessor) : Option Word32 :=
  let r := (s.die d).rme
  let see := r.heldBy w || 2 ≤ w.lvl.toNat
  let half := fun (v : Nat) (hi : Bool) =>
    some (if see then BitVec.ofNat 32 (if hi then v / 2 ^ 32 else v) else 0)
  if w.lvl = 0 then none
  else if off = 0x000 || off = 0x018 || off = 0x01C then some 0
  else if off = 0x004 then
    some (match r.holder with
      | none => 0
      | some h => BitVec.ofNat 32 (h.lc.val + h.pid.toNat * 2 ^ 8 + h.lvl.toNat * 2 ^ 16
          + b2n h.world * 2 ^ 18 + 2 ^ 19))
  else if off = 0x008 then half r.base.toNat false
  else if off = 0x00C then half r.base.toNat true
  else if off = 0x010 then half r.limit.toNat false
  else if off = 0x014 then half r.limit.toNat true
  else if off = 0x020 then
    some (BitVec.ofNat 32 (b2n r.busy + 2 * b2n r.done + r.err.toNat * 4 + b2n r.skipFlag * 2 ^ 5
      + b2n r.lockFlag * 2 ^ 6 + b2n r.walk * 2 ^ 7 + r.op.toNat * 2 ^ 8))
  else if off = 0x024 then some r.skipped
  else if off = 0x028 then some r.lockfail
  else if off = 0x030 then half r.next.toNat false
  else if off = 0x034 then half r.next.toNat true
  else if off = 0x038 then some (BitVec.ofNat 32 (s.rmeDieInfo d))
  else none

/-- The writable bits of RME_BASE and RME_LIMIT: [47:6]. -/
def rmeAddr (v : Nat) : BitVec 64 := BitVec.ofNat 64 v &&& 0x0000FFFFFFFFFFC0

/-- A word of the range engine's registers written under a byte mask; none is a bus error. DESIGN CHOICE: a
write of RME_CLAIM with REQ and REL both 1 claims first and then releases (log entry 132). -/
def State.rmeWrite (s : State) (d : Die) (off v : Nat) (m : BitVec 4) (w : Accessor) :
    Option State :=
  let r := (s.die d).rme
  let bm := maskOf 4 m.toNat
  let b : BitVec 32 := BitVec.ofNat 32 v &&& BitVec.ofNat 32 bm
  let lo := fun (old : BitVec 64) => rmeAddr (mergeBits old.toNat v bm)
  let hi := fun (old : BitVec 64) => rmeAddr (mergeBits old.toNat (v * 2 ^ 32) (bm * 2 ^ 32))
  let set := fun (r : Rme) => some (s.modRme d fun _ => r)
  if (s.rmeRead d off w).isNone then none
  else if off = 0x000 then
    let r := if bit b 0 then r.claim w else r
    set (if bit b 1 then r.release w else r)
  else if off = 0x008 then if r.mayProgram w then set { r with base := lo r.base } else some s
  else if off = 0x00C then if r.mayProgram w then set { r with base := hi r.base } else some s
  else if off = 0x010 then if r.mayProgram w then set { r with limit := lo r.limit } else some s
  else if off = 0x014 then if r.mayProgram w then set { r with limit := hi r.limit } else some s
  else if off = 0x018 then
    if m.getLsbD 0 && m.getLsbD 1 then set (r.launch (v % 16) b w) else some s
  else if off = 0x01C then if bit b 0 then set (r.abort w) else some s
  else if off = 0x020 then
    let r := if bit b 1 then { r with done := false } else r
    let r := if bit b 5 then { r with skipFlag := false, skipped := 0 } else r
    set (if bit b 6 then { r with lockFlag := false, lockfail := 0 } else r)
  else some s

/-! Commands. -/

/-- A write of 1 to RME_CLAIM.REQ. -/
def execRmeClaimReq (die : Die) (who : Accessor) (s : State) : Out :=
  .next (s.modRme die (·.claim who))
/-- A write of 1 to RME_CLAIM.REL. -/
def execRmeClaimRel (die : Die) (who : Accessor) (s : State) : Out :=
  .next (s.modRme die (·.release who))
/-- RME_CMD with OP CLEAN. -/
def execRmeClean (die : Die) (w : Word32) (who : Accessor) (s : State) : Out :=
  .next (s.modRme die (·.launch 1 w who))
/-- RME_CMD with OP INVAL. -/
def execRmeInval (die : Die) (w : Word32) (who : Accessor) (s : State) : Out :=
  .next (s.modRme die (·.launch 2 w who))
/-- RME_CMD with OP CLEAN_INVAL. -/
def execRmeCleanInval (die : Die) (w : Word32) (who : Accessor) (s : State) : Out :=
  .next (s.modRme die (·.launch 3 w who))
/-- RME_CMD with OP ZERO. -/
def execRmeZero (die : Die) (w : Word32) (who : Accessor) (s : State) : Out :=
  .next (s.modRme die (·.launch 4 w who))
/-- RME_CMD with OP LOCK. -/
def execRmeLock (die : Die) (w : Word32) (who : Accessor) (s : State) : Out :=
  .next (s.modRme die (·.launch 5 w who))
/-- RME_CMD with OP UNLOCK. -/
def execRmeUnlock (die : Die) (w : Word32) (who : Accessor) (s : State) : Out :=
  .next (s.modRme die (·.launch 6 w who))
/-- RME_CMD with OP PREFETCH. -/
def execRmePrefetch (die : Die) (w : Word32) (who : Accessor) (s : State) : Out :=
  .next (s.modRme die (·.launch 7 w who))
/-- The engine processes its next line. -/
def execRmeLineStep (die : Die) (s : State) : Out := .next (s.rmeStep die)
/-- The engine completes. -/
def execRmeComplete (die : Die) (s : State) : Out := .next (s.rmeComplete die)
/-- A write of 1 to RME_ABORT. -/
def execRmeAbort (die : Die) (who : Accessor) (s : State) : Out := .next (s.modRme die (·.abort who))

end Sys2Proof.Machine
end

