-- ==== Sys2Proof/Machine/Operands.lean ====
section
/-!
DEFINITION. Operand forms of the core instructions: immediates and offsets (R90), predicate masks
(R105), control-register numbers (Table ISA-2), and the words of the formats that an exception
reports in TVAL (Table ISA-6).
-/

namespace Sys2Proof.Machine

/-- imm16 sign-extended. -/
def sextImm (imm : BitVec 16) : Word := imm.signExtend 64

/-- imm16 zero-extended: ANDI, ORI, XORI, KSETU, KAPP (R90, Table ISA-8). -/
def zextImm (imm : BitVec 16) : Word := imm.zeroExtend 64

/-- Target of a branch or jump: its own address plus the sign-extended word offset (R90). -/
def target {n : Nat} (pc : Word) (off : BitVec n) : Word := pc + (off.signExtend 64) * 4

/-- Effective address of a load or store (R99, R107). -/
def effAddr (c : Core) (ra : Reg) (imm : BitVec 16) : Word := c.getG ra + sextImm imm

/-- The mask that M and pm select (R105). -/
def maskVal (c : Core) (m : Option PReg) : Option Word := m.map c.getP

/-- Numbers of the predicate register that masks an operation. -/
def maskReads (m : Option PReg) : List Nat := m.toList.map pIdx

/-- A word of format V (Table ISA-6). -/
def encV (op : Nat) (vd va vb : Reg) (m : Option PReg) (et : BitVec 2) (vfn : Nat) : Word32 :=
  BitVec.ofNat 32 (op * 2 ^ 26 + vd.toNat * 2 ^ 21 + va.toNat * 2 ^ 16 + vb.toNat * 2 ^ 11
    + b2n m.isSome * 2 ^ 10 + (m.elim 0 (·.toNat)) * 2 ^ 7 + et.toNat * 2 ^ 5 + vfn)

/-- A word of format Y (Table ISA-6), op 0x38. -/
def encY (r1 r2 : Reg) (sop arg12 : Nat) : Word32 :=
  BitVec.ofNat 32 (0x38 * 2 ^ 26 + r1.toNat * 2 ^ 21 + r2.toNat * 2 ^ 16 + sop * 2 ^ 12 + arg12)

/-- Control registers by the lowest level that may read and write each (Table ISA-2); none where
the number is not assigned. -/
def crLevels (n : Nat) : Option (Nat × Nat) :=
  if n = 0x000 then some (1, 1)
  else if n = 0x001 then some (1, 2)
  else if n = 0x002 then some (1, 1)
  else if n = 0x003 then some (2, 2)
  else if n = 0x004 then some (1, 1)
  else if n = 0x008 || n = 0x009 then some (0, 0)
  else if n = 0x010 || n = 0x014 || n = 0x018 then some (1, 1)
  else if n = 0x011 || n = 0x015 || n = 0x019 then some (2, 2)
  else if n = 0x012 || n = 0x016 || n = 0x01A then some (3, 3)
  else none

/-- A control register read. -/
def Core.getCr (c : Core) (n : Nat) : Word :=
  if n = 0x000 then c.status
  else if n = 0x001 then c.part
  else if n = 0x002 then c.s1base
  else if n = 0x003 then c.s2base
  else if n = 0x004 then c.tclass
  else if n = 0x008 then c.vflags
  else if n = 0x009 then c.vctl
  else if 0x010 ≤ n && n ≤ 0x012 then SMap.get 0 c.vbar (n - 0x00F)
  else if 0x014 ≤ n && n ≤ 0x016 then SMap.get 0 c.xsp (n - 0x013)
  else if 0x018 ≤ n && n ≤ 0x01A then SMap.get 0 c.xlim (n - 0x017)
  else 0

/-- `v` under the writable bits `m`, the others from `old` (R86). -/
def maskedWrite (old v m : Word) : Word := (old &&& ~~~m) ||| (v &&& m)

/-- A control register written; read-only fields keep their value (R86, Tables CORE-11, CORE-12,
CORE-19 to CORE-21, ISA-3 to ISA-5). -/
def Core.setCr (c : Core) (n : Nat) (v : Word) : Core :=
  if n = 0x000 then { c with status := maskedWrite c.status v 0x8 }
  else if n = 0x001 then { c with part := v &&& 0xFF }
  else if n = 0x002 then { c with s1base := v &&& 0xFFFFFFFFFFFFF001 }
  else if n = 0x003 then { c with s2base := v &&& 0x0000FFFFFFFFF001 }
  else if n = 0x004 then { c with tclass := v &&& 0xF }
  else if n = 0x008 then { c with vflags := v &&& vflagsMask }
  else if n = 0x009 then { c with vctl := v &&& 0x7 }
  else if 0x010 ≤ n && n ≤ 0x012 then
    { c with vbar := SMap.set 0 c.vbar (n - 0x00F) (v &&& ~~~0xFF#64) }
  else if 0x014 ≤ n && n ≤ 0x016 then
    { c with xsp := SMap.set 0 c.xsp (n - 0x013) (v &&& ~~~0x3F#64) }
  else if 0x018 ≤ n && n ≤ 0x01A then
    { c with xlim := SMap.set 0 c.xlim (n - 0x017) (v &&& ~~~0x3F#64) }
  else c

end Sys2Proof.Machine
end

