-- ==== Sys2Proof/Machine/Issue.lean ====
section
/-!
DEFINITION. How a core takes an instruction: the boundary before it, its fetch, its wait in S, and
the shapes that meanings of instructions share.
-/

namespace Sys2Proof.Machine

/-- A logical core executes an instruction. What falls due at the boundary before it is taken in its
place; its fetch may fault or wait; it leaves S at beat `t` and the body says what it does. The
state stays as it is where the instruction waits, and the command is given again (R36); a vector
instruction waits in S while Shed-2 lets V accept no dispatch (Table PWR-2). -/
def State.issue (s : State) (lc : LC) (n : Need)
    (body : Asker → Nat → State → Option State) : Out :=
  match s.asker lc with
  | none => .next s
  | some k =>
    if !(s.core lc).ready || (n.vec && s.vStopped lc) then .next s
    else match s.boundary k with
      | some r => .next (r.getD s)
      | none =>
        match s.fetch k with
        | .busy => .next s
        | .sent s' => .next s'
        | .fault e s' => .next ((s'.raise k e).getD s)
        | .ok s' =>
          let c := s'.core lc
          let t := c.beats.leave n
          .next ((body k t (s'.setCore lc (c.toS t))).getD s)

/-- An instruction that only changes its core. -/
def State.issueCore (s : State) (lc : LC) (n : Need) (f : Nat → Core → Core) : Out :=
  s.issue lc n fun _ t s => some (s.modCore lc (f t))

/-- A scalar instruction of a given cost that writes a g register; its distance is its cost (R92). -/
def State.scalar (s : State) (lc : LC) (rd : Reg) (src : List Reg) (cost : Nat)
    (f : Core → Word) : Out :=
  s.issueCore lc { reads := src.map gIdx, writes := [gIdx rd] } fun t c =>
    (c.result rd (f c) t cost).retire (c.pc + 4) cost

/-- A register-register instruction (Table ISA-9). -/
def State.alu (s : State) (lc : LC) (rd ra rb : Reg) (cost : Nat) (f : Word → Word → Word) : Out :=
  s.scalar lc rd [ra, rb] cost fun c => f (c.getG ra) (c.getG rb)

/-- An instruction with an immediate (Table ISA-8). -/
def State.aluImm (s : State) (lc : LC) (rd ra : Reg) (b : Word) (f : Word → Word → Word) : Out :=
  s.scalar lc rd [ra] 1 fun c => f (c.getG ra) b

/-- A conditional branch (Table ISA-10, R39). -/
def State.branchIf (s : State) (lc : LC) (ra rb : Reg) (off : BitVec 16)
    (p : Word → Word → Bool) : Out :=
  s.issueCore lc { reads := [gIdx ra, gIdx rb] } fun _ c =>
    if p (c.getG ra) (c.getG rb) then c.branch (target c.pc off) else c.retire (c.pc + 4) 1

/-- An exception of the instruction itself: ILLEGAL or PRIV with its word as TVAL (Table CORE-13). -/
def State.trapWord (s : State) (k : Asker) (code : Nat) (w : Word32) : Option State :=
  s.raise k { code := code, tval := w.zeroExtend 64 }

/-- A vector instruction of op 0x30 or a move: dispatched to V, which writes register number `dest`
(R102, R104). `legal` is whether its fields are allowed (R91). -/
def State.vec (s : State) (lc : LC) (w : Word32) (legal : Bool) (occ dist : Nat) (reads : List Nat)
    (dest : Nat) (f : Core → Line × VFlags) : Out :=
  s.issue lc { reads := reads, writes := [dest], vec := true } fun k t s =>
    if legal then
      some (s.modCore lc fun c =>
        let r := f c
        ((c.dispatch t occ dist reads dest r.1 r.2).retire (c.pc + 4) 1).count 0x014 1)
    else s.trapWord k 0x01 w

/-- A predicate operation, which executes in X (Table ISA-15). -/
def State.predOp (s : State) (lc : LC) (pd : PReg) (reads : List Nat) (f : Core → Word) : Out :=
  s.issueCore lc { reads := reads, writes := [pIdx pd] } fun t c =>
    (c.resultP pd (f c) t 1).retire (c.pc + 4) 1

end Sys2Proof.Machine
end

