-- ==== Sys2Proof/Machine/Memory.lean ====
section
/-!
DEFINITION. Loads, stores, drains and vector memory (Tables ISA-11 and ISA-14, R49 to R60, R99 to
R101, R107), far atomics (R53, R109, R110) and the cache-line operations (R113).
-/

namespace Sys2Proof.Machine

/-- A load through the parts that translation gave. FENCE.SL holds it until the stores older than the
fence have drained (Table CORE-9). -/
def State.loadVia (s : State) (k : Asker) (t : Nat) (kind : AccKind) : Halves → Option State
  | .busy => none
  | .sent s => some s
  | .fault e s => s.raise k e
  | .ok ps walk s' =>
    if 0 < (s.core k.lc).fence then none
    else s'.loadStep k { kind := kind, parts := ps, leave := t, walk := walk }

/-- A scalar load of `n` bytes (Table ISA-11). -/
def State.load (s : State) (lc : LC) (n : Nat) (sext : Bool) (rd ra : Reg) (imm : BitVec 16) : Out :=
  s.issue lc { reads := [gIdx ra], writes := [gIdx rd] } fun k t s =>
    s.loadVia k t (.load n sext rd) (s.halves k .load (effAddr (s.core lc) ra imm) n)

/-- LB. -/
def execLb (lc : LC) (rd ra : Reg) (imm : BitVec 16) (s : State) : Out := s.load lc 1 true rd ra imm
/-- LH. -/
def execLh (lc : LC) (rd ra : Reg) (imm : BitVec 16) (s : State) : Out := s.load lc 2 true rd ra imm
/-- LW. -/
def execLw (lc : LC) (rd ra : Reg) (imm : BitVec 16) (s : State) : Out := s.load lc 4 true rd ra imm
/-- LD. -/
def execLd (lc : LC) (rd ra : Reg) (imm : BitVec 16) (s : State) : Out := s.load lc 8 true rd ra imm
/-- LBU. -/
def execLbu (lc : LC) (rd ra : Reg) (imm : BitVec 16) (s : State) : Out :=
  s.load lc 1 false rd ra imm
/-- LHU. -/
def execLhu (lc : LC) (rd ra : Reg) (imm : BitVec 16) (s : State) : Out :=
  s.load lc 2 false rd ra imm
/-- LWU. -/
def execLwu (lc : LC) (rd ra : Reg) (imm : BitVec 16) (s : State) : Out :=
  s.load lc 4 false rd ra imm

/-- A store through the parts that translation gave. -/
def storeVia (k : Asker) (t data : Nat) (vs : Option Reg) : Halves → Option State
  | .busy => none
  | .sent s => some s
  | .fault e s => s.raise k e
  | .ok ps walk s => s.storeDone k ps data t walk vs

/-- A scalar store of `n` bytes (Table ISA-11). -/
def State.store (s : State) (lc : LC) (n : Nat) (rs ra : Reg) (imm : BitVec 16) : Out :=
  s.issue lc { reads := [gIdx rs, gIdx ra] } fun k t s =>
    let c := s.core lc
    storeVia k t (c.getG rs).toNat none (s.halves k .store (effAddr c ra imm) n)

/-- SB. -/
def execSb (lc : LC) (rs ra : Reg) (imm : BitVec 16) (s : State) : Out := s.store lc 1 rs ra imm
/-- SH. -/
def execSh (lc : LC) (rs ra : Reg) (imm : BitVec 16) (s : State) : Out := s.store lc 2 rs ra imm
/-- SW. -/
def execSw (lc : LC) (rs ra : Reg) (imm : BitVec 16) (s : State) : Out := s.store lc 4 rs ra imm
/-- SD. -/
def execSd (lc : LC) (rs ra : Reg) (imm : BitVec 16) (s : State) : Out := s.store lc 8 rs ra imm

/-- VLD: a 64 B-aligned line. -/
def execVld (lc : LC) (vd ra : Reg) (imm : BitVec 16) (s : State) : Out :=
  s.issue lc { reads := [gIdx ra], writes := [vIdx vd], vec := true } fun k t s =>
    s.loadVia k t (.vload vd) (s.lineAccess k .load (effAddr (s.core lc) ra imm))

/-- VST: one full-line store-buffer entry. -/
def execVst (lc : LC) (vs ra : Reg) (imm : BitVec 16) (s : State) : Out :=
  s.issue lc { reads := [gIdx ra, vIdx vs], vec := true } fun k t s =>
    let c := s.core lc
    storeVia k t (c.getV vs).toNat (some vs) (s.lineAccess k .store (effAddr c ra imm))

/-- The oldest store-buffer entry drains, or its request goes out and the answer ends the drain
(R49, R115). A drain that has to wait for another request of its die has no fixed cost (R142, R186). -/
def execStoreDrain (lc : LC) (s : State) : Out :=
  match s.asker lc, (s.core lc).sb with
  | some k, e :: rest =>
    if e.sent then .next s
    else match s.drainOne k e with
      | .busy => .next (s.modCore lc fun c => { c with sb := { e with waited := true } :: rest })
      | .done b fixed s =>
        if e.waited then
          let (w, s) := s.takeBeats
          .next (s.drained lc (w + b) false false)
        else .next (s.drained lc b fixed false)
      | .bus s => .next (s.drained lc 0 true true)
      | .sent s => .next (s.modCore lc fun c => { c with sb := { e with sent := true } :: rest })
  | _, _ => .next s

/-- STORE_BUS is raised at the boundary after a drain failed, whatever IE is (R70). -/
def execStoreBus (lc : LC) (s : State) : Out :=
  match s.asker lc, (s.core lc).sbErr with
  | some k, b :: _ =>
    if (s.core lc).ready then .next ((s.raiseStoreBus k b).getD s) else .next s
  | _, _ => .next s

/-- The oldest own-die scratch load returns and writes its register (R100): the core has reached the
beat of its return, or does not execute and so counts none. -/
def execScratchLoadReturn (lc : LC) (s : State) : Out :=
  .next (s.modCore lc fun c => match c.beats.scr with
    | [] => c
    | e :: rest =>
      if e.returns ≤ c.beats.next || !c.ready then
        { c.put e.dest e.value with beats := { c.beats with scr := rest } }
      else c)

/-! Far atomics. -/

/-- A far atomic goes to the home of its line as AtomicAtHome once the store buffer has drained
(R53, R109, R110, R181); that wait is counted under L1 (Table ISA-16). Misaligned it raises ALIGN; outside normal cacheable HBM it completes as
ATOMIC_BUS. -/
def State.atomic (s : State) (lc : LC) (op : AtomicOp) (rd ra rb : Reg) : Out :=
  let reads := [gIdx ra, gIdx rb] ++ if op = .cas then [gIdx rd] else []
  s.issue lc { reads := reads, writes := [gIdx rd] } fun k t s =>
    let c := s.core lc
    let va := c.getG ra
    if va.toNat % 8 ≠ 0 then s.raise k { code := 0x09, tval := va }
    else match s.translate k .atomic c.level va with
      | .busy => none
      | .sent s => some s
      | .fault e s => s.raise k e
      | .ok pa mt ws walk s =>
        if targetOf pa ≠ .hbm || mt ≠ .cacheable then s.raise k { code := 0x0E, tval := va, walk := walk }
        else if !c.sb.isEmpty then none
        else
          let line := pa / 64
          let data := Line.place 0 ((c.getG rb).toNat
            + if op = .cas then (c.getG rd).toNat * 2 ^ 64 else 0)
          let m : Msg := { kind := .atomicAtHome, dest := homeOfLine line, src := 0, s := ws,
                           tclass := c.tclass.extractLsb' 0 4, pid := c.pid, data := some data,
                           addr := BitVec.ofNat 48 (pa / 8 * 8 + op.code) }
          match s.bankReq k.die lc m 0 (.access lc) with
          | none => none
          | some s =>
            let m := t + 2 + walk
            let w := waitDrains m c.beats.past
            let a : Access := { kind := .atomic op.code rd, parts := [⟨va, pa, 8, mt, ws⟩],
                                leave := t, sbm := c.mWait m - (w.1 + w.2),
                                l1 := w.1 + w.2, walk := walk }
            some (s.modCore lc fun c => { c with access := some a })

/-- The result of a far atomic returns (R53, Table ISA-16): gd takes the old value, usable one beat
later. -/
def Core.atomicDone (c : Core) (a : Access) (rd : Reg) (old : Word) : Core :=
  let stalls := a.sbm + a.l1 + a.walk
  let c := ((c.charge 0 a.sbm a.l1 0 a.walk).logRec 2 1 [old]).result rd old a.leave (3 + stalls)
  { (c.retire (c.pc + 4) 2).count 0x015 1 with access := none }

/-- AADD. -/
def execAadd (lc : LC) (rd ra rb : Reg) (s : State) : Out := s.atomic lc .add rd ra rb
/-- ASWP. -/
def execAswp (lc : LC) (rd ra rb : Reg) (s : State) : Out := s.atomic lc .swap rd ra rb
/-- ACAS. -/
def execAcas (lc : LC) (rd ra rb : Reg) (s : State) : Out := s.atomic lc .cas rd ra rb
/-- AMIN. -/
def execAmin (lc : LC) (rd ra rb : Reg) (s : State) : Out := s.atomic lc .min rd ra rb
/-- AMAX. -/
def execAmax (lc : LC) (rd ra rb : Reg) (s : State) : Out := s.atomic lc .max rd ra rb
/-- AMINU. -/
def execAminu (lc : LC) (rd ra rb : Reg) (s : State) : Out := s.atomic lc .minu rd ra rb
/-- AMAXU. -/
def execAmaxu (lc : LC) (rd ra rb : Reg) (s : State) : Out := s.atomic lc .maxu rd ra rb

/-! Cache-line operations (R113). -/

/-- The 64 B line that contains an address. -/
def lineAddr (va : Word) : Word := va &&& ~~~0x3F#64

/-- DCL.C, DCL.I, DCL.CI: a CMO to the home of a line of HBM, which ends at the home's answer;
nothing beyond their cost in scratch, the register space and the host window. DESIGN CHOICE: nor on an
address that Table MAP-1 leaves unassigned, of which R113 says nothing (log entry 129). -/
def State.lineOp (s : State) (lc : LC) (ra : Reg) (acc : AccType) (code : Nat) : Out :=
  s.issue lc { reads := [gIdx ra] } fun k t s =>
    let c := s.core lc
    let va := lineAddr (c.getG ra)
    match s.translate k acc c.level va with
    | .busy => none
    | .sent s => some s
    | .fault e s => s.raise k e
    | .ok pa mt ws walk s =>
      let sbm := c.mWait (t + 2 + walk)
      if targetOf pa ≠ .hbm then
        some (s.modCore lc fun c =>
          let c := c.charge 0 sbm 0 0 walk
          c.retire (c.pc + 4) 2)
      else
        let line := pa / 64
        let m : Msg := { kind := .cmo, dest := homeOfLine line, src := 0, s := ws, pid := c.pid,
                         tclass := c.tclass.extractLsb' 0 4, addr := BitVec.ofNat 48 (line * 64 + code) }
        match s.bankReq k.die lc m 0 (.access lc) with
        | none => none
        | some s =>
          let a : Access := { kind := .cmo, parts := [⟨va, pa, 64, mt, ws⟩], leave := t,
                              sbm := sbm, walk := walk }
          some (s.modCore lc fun c => { c with access := some a })

/-- DCL.C: dirty copies are written back, copies stay. -/
def execDclC (lc : LC) (ra : Reg) (s : State) : Out := s.lineOp lc ra .load 0
/-- DCL.I: every copy is invalidated, dirty data discarded. -/
def execDclI (lc : LC) (ra : Reg) (s : State) : Out := s.lineOp lc ra .store 1
/-- DCL.CI: written back, then invalidated. -/
def execDclCi (lc : LC) (ra : Reg) (s : State) : Out := s.lineOp lc ra .load 2

/-- A DCL completes at the home's answer. -/
def Core.lineOpDone (c : Core) (a : Access) : Core :=
  let c := c.charge 0 a.sbm a.l1 0 a.walk
  { c.retire (c.pc + 4) 2 with access := none }

/-- DCL.Z: a store of 64 zero bytes. -/
def execDclZ (lc : LC) (ra : Reg) (s : State) : Out :=
  s.issue lc { reads := [gIdx ra] } fun k t s =>
    match s.lineAccess k .store (lineAddr ((s.core lc).getG ra)) with
    | .ok ps walk s =>
      (s.storeDone k ps 0 t walk none).map fun s' =>
        if (s'.core lc).access.isSome then s' else s'.modCore lc fun c => c.charge 1 0 0 0 0
    | h => storeVia k t 0 none h

/-- A translation that needs no walk: none where a TLB would miss. -/
def State.translateHit (s : State) (lc : LC) (va : Word) : Option (Nat × MemType × Bool) :=
  let c := s.core lc
  let pa := va.toNat
  if 2 ≤ c.level then some (pa, attrOf pa, c.world)
  else if field va 48 16 ≠ 0 then none
  else if !bit c.s1base 0 && !bit c.s2base 0 then some (pa, attrOf pa, c.world)
  else
    let via := fun (x : TlbEntry) =>
      let pa := x.pa.toNat + va.toNat % 2 ^ x.size
      some (pa, x.mtype.max (attrOf pa), x.world' c)
    let l1 := fun (t : SMap (Option L1TlbWay)) =>
      ((l1TlbFind t c va.toNat).bind fun i => SMap.get none t i).map (·.e)
    match l1 c.tlbs.itlb <|> l1 c.tlbs.dtlb with
    | some x => via x
    | none => match (l2TlbFind c.tlbs c va.toNat).bind fun key => SMap.get none c.tlbs.l2 key with
      | some w => via w.e
      | none => none

/-- DPF: fills the line into L1D if its translation hits; never walks, faults or waits. -/
def execDpf (lc : LC) (ra : Reg) (s : State) : Out :=
  s.issue lc { reads := [gIdx ra] } fun k _ s =>
    let c := s.core lc
    let s := match s.translateHit lc (lineAddr (c.getG ra)) with
      | some (pa, .cacheable, ws) =>
        let line := pa / 64
        let u : Sub := (s.die k.die).sub line
        if targetOf pa != Target.hbm || (c.l1d.find line).isSome then s
        else if u.st != CState.i && u.world != ws then s
        else match State.readDc s { k with s := ws } line 0 (.prefetch lc) with
          | .hit _ _ _ s => s.fillL1d k.die lc ⟨line, .s, ws⟩
          | .sent s => s
          | _ => s
      | _ => s
    some (s.modCore lc fun c => c.retire (c.pc + 4) 2)

/-- ICL.I: the line leaves this core's L1I. It asks no permission; where its address has no
translation it does nothing. -/
def execIclI (lc : LC) (ra : Reg) (s : State) : Out :=
  s.issue lc { reads := [gIdx ra] } fun k t s =>
    let c := s.core lc
    let finish := fun (walk : Nat) (s : State) =>
      some (s.modCore lc fun c =>
        let c := c.charge 0 (c.mWait (t + 2 + walk)) 0 0 walk
        c.retire (c.pc + 4) 2)
    match s.translate k .load c.level (lineAddr (c.getG ra)) false false with
    | .busy => none
    | .sent s => some s
    | .fault e s => finish e.walk s
    | .ok pa _ _ walk s => finish walk (s.storeL1i k (pa / 64))

/-- A core applies the oldest L1I invalidation delivered to it (R42, R141). -/
def execL1iInvalidationApply (lc : LC) (s : State) : Out :=
  .next (s.modCore lc fun c => match c.l1iPend with
    | [] => c
    | l :: rest => { c with l1i := c.l1i.drop l, l1iPend := rest })

end Sys2Proof.Machine
end

