-- ==== Sys2Proof/Machine/System.lean ====
section
/-!
DEFINITION. System instructions (Table ISA-17, R71, R84, R86, R88, R111, R112, R114, R124, R126),
TLB maintenance (Table CORE-22, R78 to R80) and the beat-rate window (Table CORE-7).
-/

namespace Sys2Proof.Machine

/-! Control registers and calls. -/

/-- CRR: gd takes a control register; an unassigned number is ILLEGAL, a level too low PRIV. cr.vflags
waits until V holds no instruction (R88). -/
def execCrr (lc : LC) (rd : Reg) (cr : BitVec 12) (s : State) : Out :=
  let n := cr.toNat
  s.issue lc { writes := [gIdx rd], vIdle := n = 0x008 } fun k t s =>
    let c := s.core lc
    let w := encY rd 0 0 n
    match crLevels n with
    | none => s.trapWord k 0x01 w
    | some (r, _) =>
      if c.level < r then s.trapWord k 0x02 w
      else some (s.modCore lc fun c => (c.result rd (c.getCr n) t 1).retire (c.pc + 4) 1)

/-- CRW: a control register takes ga; 4 beats, after which the next word is fetched under the new
value (R112). -/
def execCrw (lc : LC) (cr : BitVec 12) (ra : Reg) (s : State) : Out :=
  let n := cr.toNat
  s.issue lc { reads := [gIdx ra], vIdle := n = 0x008 || n = 0x009 } fun k _ s =>
    let c := s.core lc
    let w := encY 0 ra 1 n
    match crLevels n with
    | none => s.trapWord k 0x01 w
    | some (_, wl) =>
      if c.level < wl then s.trapWord k 0x02 w
      else some (s.modCore lc fun c => ((c.setCr n (c.getG ra)).retire (c.pc + 4) 4).flush)

/-- A call: it retires at a cost of 1, and the exception enters the named level with the next instruction as
epc; at any other level it is PRIV (R64, Table ISA-17). -/
def State.call (s : State) (lc : LC) (code : Nat) (w : Word32) (allowed : Nat → Bool) : Out :=
  s.issue lc {} fun k _ s =>
    if allowed (s.core lc).level then
      s.raise k { code := code, next := true } 1
    else s.trapWord k 0x02 w

/-- KCALL, at U or K. -/
def execKcall (lc : LC) (nn : BitVec 8) (s : State) : Out :=
  s.call lc 0x10 (encY 0 0 2 nn.toNat) (· ≤ 1)
/-- HCALL, at K. -/
def execHcall (lc : LC) (nn : BitVec 8) (s : State) : Out :=
  s.call lc 0x11 (encY 0 0 2 (0x100 + nn.toNat)) (· == 1)
/-- MCALL, at K or H. -/
def execMcall (lc : LC) (nn : BitVec 8) (s : State) : Out :=
  s.call lc 0x12 (encY 0 0 2 (0x200 + nn.toNat)) (fun l => l = 1 || l = 2)
/-- BREAK, at any level; epc names the BREAK itself, and its beat is counted apart from the entry's
(Table ISA-17). -/
def execBrk (lc : LC) (_nn : BitVec 8) (s : State) : Out :=
  s.issue lc {} fun k _ s => s.raise k { code := 0x13 } 1

/-! Return. -/

/-- Whether a store to CII_EOI waits in the store buffer (R124). -/
def Core.eoiWaits (c : Core) : Bool :=
  c.sb.any fun e => e.overlaps 0xF000002008 4

/-- The frame has been read: PRIV, a tail-chain, or the return (R71, R126, Table INT-2). -/
def State.eretDone (s : State) (k : Asker) (a : Access) (v : Nat) : Option State :=
  let lc := k.lc
  let s := s.modCore lc fun c => { c with access := none }
  let c := s.core lc
  let word := fun (i : Nat) => BitVec.ofNat 64 (v / 2 ^ (64 * i))
  let epc := word 15
  let est := word 16
  let lvl := field est 0 2
  let w := bit est 2 || lvl = 3
  if c.level < lvl || (bit est 2 != c.world && c.level ≠ 3) then s.trapWord k 0x02 (encY 0 0 3 0)
  else
    let ret := fun (s : State) => some (s.modCore lc fun c =>
      let c := (List.range 15).foldl (fun c i => c.setG (BitVec.ofNat 5 (i + 1)) (word i)) c
      let c := c.charge 0 a.sbm a.l1 0 a.walk
      let st := BitVec.ofNat 64 (lvl + 4 * b2n w + 8 * b2n (bit est 3))
      let sp := SMap.set 0 c.xsp c.level (SMap.get 0 c.xsp c.level + 192)
      let c := { c with xsp := sp }
      let c := (List.range 3).foldl (fun c i => c.logRec 3 5
        (0 :: (List.range 8).map fun j => word (8 * i + j))) c
      { (c.retire (epc &&& ~~~3#64) 12).flush with status := st })
    match s.takenAt lc c lvl w (bit est 3), a.parts[2]? with
    | some (src, tgt), some p =>
      if tgt ≠ c.level then ret s
      else if c.sbRoom = 0 then none
      else
        let room := c.roomWait c.beats.next 1
        let ws := [word 16, BitVec.ofNat 64 (2 ^ 63 + src.id), 0, 0, word 20, word 21, word 22,
                   word 23]
        let s := s.acknowledge lc src
        some (s.modCore lc fun c =>
          let c := (c.charge 5 (a.sbm + room.1) (a.l1 + room.2) 0 a.walk).count 0x031 1
          { c.flush with
            sb := c.sb ++ [storeEntry c c.level p (lineOfWords ws)]
            status := c.status &&& ~~~8#64
            pc := (SMap.get 0 c.vbar c.level &&& ~~~0xFF#64) + 0x80 })
    | _, _ => ret s

/-- The drains that ERET waits for: older stores to CII_EOI, and what its frame's lines overlap (R50,
R124). -/
def eretWaits (ps : List Part) (d : Drained) : Bool :=
  (d.pa < 0xF00000200C && 0xF000002008 < d.pa + d.bytes) || loadWaits ps d

/-- The read of the frame by ERET, from the first attempt or as answers arrive. -/
def State.eretStep (s : State) (k : Asker) (a : Access) : Option State :=
  match s.gather k a.parts a.got {} with
  | .busy => if a.got.isEmpty then none
    else some (s.modCore k.lc fun c => { c.restart a 0 with access := none })
  | .sent g s =>
    some (s.modCore k.lc fun c =>
      if c.waitsDie then c.restart a g.l1
      else { c with access := some { a with got := g.done, l1 := a.l1 + g.l1 } })
  | .all g s =>
    let e : Exc := { code := 0x0A, tval := (a.parts[g.bad]?).elim 0 (·.va)
                     sb := a.sbm, l1 := a.l1 + g.l1, walk := a.walk }
    let s' := s.modCore k.lc fun c => { c with access := none }
    if g.bus then s'.raise k e
    else if g.pois then s'.raise k { e with code := 0x0B }
    else s.eretDone k { a with l1 := a.l1 + g.l1 } g.val

/-- The registers that ERET writes, for whose bits it waits in S (R44, R71). -/
def eretWrites : List Nat := (List.range 15).map (65 + ·)

/-- ERET: reads the frame at cr.xsp of the current bank once every older store to CII_EOI has
drained; that wait is counted under L1 (R124). -/
def execEret (lc : LC) (s : State) : Out :=
  s.issue lc { writes := eretWrites } fun k t s =>
    let c := s.core lc
    if c.level = 0 then s.trapWord k 0x02 (encY 0 0 3 0)
    else if c.eoiWaits then none
    else
      let sp := SMap.get 0 c.xsp c.level
      match s.frameLines k c.level .load [sp, sp + 64, sp + 128] with
      | .busy => none
      | .sent s => some s
      | .fault e s => s.raise k e
      | .done ps walk s =>
        let m := t + 2 + walk
        let w := waitDrains m (c.beats.upTo (eretWaits ps))
        s.eretStep k { kind := .eret, parts := ps, leave := t, walk := walk,
                       l1 := w.1 + w.2, sbm := c.mWait m - (w.1 + w.2) }

/-- WAIT: the core makes no handshakes until an interrupt that may be taken, or STORE_BUS (R84). -/
def execWait (lc : LC) (s : State) : Out :=
  s.issue lc {} fun k _ s =>
    if (s.core lc).level = 0 then s.trapWord k 0x02 (encY 0 0 3 1)
    else
      let s := s.modCore lc fun c => { c with inWait := true, pc := c.pc + 4, got := [] }
      let key := k.die.val * 20 + k.slot
      some (if SMap.get 0 s.beatSt key = 2 then { s with beatSt := SMap.set 0 s.beatSt key 1 } else s)

/-- WAIT ends when an interrupt that may be taken is pending or a STORE_BUS has arisen; its 4 beats
are counted then (R84). -/
def execWaitWake (lc : LC) (s : State) : Out :=
  let c := s.core lc
  if c.inWait && c.halts.isEmpty && c.run == .started && ((s.due lc).isSome || !c.sbErr.isEmpty)
  then .next (s.modCore lc fun c => (({ c with inWait := false } : Core).logRec 4 1 [2]).retire c.pc 4)
  else .next s

/-! Fences (Table CORE-9, R42, R101). -/

/-- FENCE.SL: later loads, and walks with them, wait until every older store has drained (R54, R81). -/
def execFenceSl (lc : LC) (s : State) : Out :=
  s.issueCore lc {} fun t c =>
    let c := c.charge 0 (c.mWait (t + 2)) 0 0 0
    let b := { c.beats with past := c.beats.past.map fun d => { d with old := true } }
    { ({ c with beats := b } : Core).retire (c.pc + 4) 1 with fence := c.sb.length }

/-- The beats that a fence waits in M for drains and scratch loads, charged by cause (Table
CORE-3). -/
def Core.fenceWait (c : Core) (t : Nat) : Core :=
  let w := c.memWait (t + 2) (c.mWait (t + 2)) fun _ => true
  c.charge 0 w.1 w.2 0 0

/-- FENCE.ALL: it completes once every older store has drained; older loads and atomics have
completed before it. -/
def execFenceAll (lc : LC) (s : State) : Out :=
  s.issue lc {} fun _ t s =>
    if !(s.core lc).sb.isEmpty then none
    else some (s.modCore lc fun c => let c := c.fenceWait t; c.retire (c.pc + 4) 1)

/-- IFENCE: every L1I invalidation that reached the die is applied, the store buffer drained, the
prefetch queue flushed. -/
def execIfence (lc : LC) (s : State) : Out :=
  s.issue lc {} fun _ t s =>
    let c := s.core lc
    if !c.sb.isEmpty || !c.l1iPend.isEmpty then none
    else some (s.modCore lc fun c => let c := c.fenceWait t; (c.retire (c.pc + 4) 4).flush)

/-! TLB maintenance. -/

/-- A translation entry for TLBL and TLBU: a hit in the L2 TLB or a walk as a load or fetch at U or
K would make (Table CORE-22). -/
def State.lockWalk (s : State) (k : Asker) (kindI : Bool) (va : Word) : Walk Nat :=
  let c := s.core k.lc
  let acc : AccType := if kindI then .fetch else .load
  let e : Exc := { code := acc.s1, tval := va }
  let ok := fun (x : TlbEntry) =>
    match x.check acc 1 e va.toNat with
    | none => none
    | some f => if (x.check acc 0 e va.toNat).isNone then none else some f
  match l2TlbFind c.tlbs c va.toNat with
  | some key => match SMap.get none c.tlbs.l2 key with
    | some w => match ok w.e with
      | none => .done key 0 s
      | some f => .fault f s
    | none => .busy
  | none =>
    let s := if c.got.isEmpty then s.modCore k.lc fun c => c.count 0x023 1 else s
    match s.walkBoth k acc [0, 1] va.toNat e with
    | .busy => .busy
    | .sent s => .sent s
    | .fault f s => .fault f s
    | .done x b s =>
      let (t, key) := (s.core k.lc).tlbs.fillL2 x
      .done key (b + 3) (s.modCore k.lc fun c => { c with tlbs := t })

/-- Locked entries of a set of the L2 TLB. -/
def Tlbs.lockedInSet (t : Tlbs) (set : Nat) : Nat :=
  ((List.range 8).filter fun w => match SMap.get none t.l2 (set * 8 + w) with
    | some x => x.lockI || x.lockD
    | none => false).length

/-- An entry pinned in the ITLB or DTLB, there already or filled. -/
def Tlbs.pin (t : Tlbs) (kindI : Bool) (x : TlbEntry) : Tlbs :=
  let l := t.l1 kindI
  match (l.find? fun e => match e.2 with
    | some w => w.e == x
    | none => false) with
  | some (i, _) => t.setL1 kindI (SMap.set none l i (some ⟨x, true, t.tick⟩))
  | none => t.setL1 kindI (l1TlbFill l t.tick x true)

/-- The lock step of TLBL: the code for gd, and the TLBs (R78, Table CORE-22). -/
def Tlbs.lock (t : Tlbs) (kindI : Bool) (key : Nat) : Nat × Tlbs :=
  match SMap.get none t.l2 key with
  | none => (0, t)
  | some w =>
    if (if kindI then w.lockI else w.lockD) then (3, t)
    else if 16 ≤ t.locked kindI then (1, t)
    else if !(w.lockI || w.lockD) && 4 ≤ t.lockedInSet (key / 8) then (2, t)
    else
      let w := if kindI then { w with lockI := true } else { w with lockD := true }
      (0, ({ t with l2 := SMap.set none t.l2 key (some w) } : Tlbs).pin kindI w.e)

/-- TLBL gd, va, kind. -/
def execTlbl (lc : LC) (rd ra : Reg) (kindI : Bool) (s : State) : Out :=
  s.issue lc { reads := [gIdx ra], writes := [gIdx rd] } fun k t s =>
    let c := s.core lc
    let va := c.getG ra
    let done := fun (s : State) (walk gd : Nat) =>
      some (s.modCore lc fun c =>
        let c := (c.charge 0 0 0 0 walk).result rd (BitVec.ofNat 64 gd) t (2 + walk)
        c.retire (c.pc + 4) 2)
    let fail := fun (s : State) (e : Exc) =>
      if 2 ≤ c.level then done s e.walk 4 else s.raise k e
    if c.level = 0 then s.trapWord k 0x02 (encY rd ra 5 (0x20 * b2n kindI))
    else if field va 48 16 ≠ 0 then
      fail s { code := if kindI then 0x03 else 0x04, fkind := 2, tval := va }
    else if !bit c.s1base 0 && !bit c.s2base 0 then done s 0 0
    else match s.lockWalk k kindI va with
      | .busy => none
      | .sent s => some s
      | .fault e s => fail s e
      | .done key walk s =>
        let (gd, t) := (s.core lc).tlbs.lock kindI key
        done (s.modCore lc fun c => { c with tlbs := t }) walk gd

/-- An entry of the ITLB or DTLB that is no longer pinned. -/
def Tlbs.unpin (t : Tlbs) (kindI : Bool) (x : TlbEntry) : Tlbs :=
  let l := (t.l1 kindI).map fun e => (e.1, e.2.map fun w =>
    if w.e == x then { w with pin := false } else w)
  if kindI then { t with itlb := l } else { t with dtlb := l }

/-- TLBU va, kind: the entry stays valid as an unlocked one. -/
def execTlbu (lc : LC) (ra : Reg) (kindI : Bool) (s : State) : Out :=
  s.issue lc { reads := [gIdx ra] } fun k _ s =>
    let c := s.core lc
    let va := c.getG ra
    if c.level = 0 then s.trapWord k 0x02 (encY 0 ra 5 (0x01 + 0x20 * b2n kindI))
    else some (s.modCore lc fun c =>
      let t := c.tlbs
      let t := match (if field va 48 16 ≠ 0 then none else l2TlbFind t c va.toNat) with
        | none => t
        | some key => match SMap.get none t.l2 key with
          | none => t
          | some w =>
            if (if kindI then w.lockI else w.lockD) then
              let w := if kindI then { w with lockI := false } else { w with lockD := false }
              ({ t with l2 := SMap.set none t.l2 key (some w) } : Tlbs).unpin kindI w.e
            else t
      ({ c with tlbs := t } : Core).retire (c.pc + 4) 2)

/-- A form of TLBI: arg12[3:0], its operand, and the world, PID, ASID and level of the issuer. -/
structure Tlbi where
  form    : Nat
  operand : Word
  world   : Bool
  pid     : BitVec 8
  asid    : BitVec 16
  lvl     : BitVec 2

/-- Whether a form covers an entry (Table CORE-22). -/
def Tlbi.covers (f : Tlbi) (x : TlbEntry) : Bool :=
  let mine := x.world == f.world && x.pid == f.pid
  if f.form = 2 then
    mine && field f.operand 48 16 = 0 &&
      x.va.toNat / 2 ^ x.size = f.operand.toNat / 2 ^ x.size &&
      (!x.s1on || x.global || x.asid == f.asid)
  else if f.form = 3 then mine && x.s1on && !x.global && x.asid == f.asid
  else if f.form = 4 then x.world == f.world && x.pid == f.operand.extractLsb' 0 8
  else true

/-- A TLBI performed on a core: covered entries go; issued at K it leaves locked ones, counts them
and sets SKIP_FLAG, whose rise raises TLB_SKIP (R79, R80, Table INT-1). -/
def Core.tlbi (c : Core) (f : Tlbi) : Core :=
  let t := c.tlbs
  let keep := f.lvl.toNat ≤ 1
  let skipped := (t.l2.filter fun e => match e.2 with
    | some w => keep && (w.lockI || w.lockD) && f.covers w.e
    | none => false).length
  let l2 := t.l2.filter fun e => match e.2 with
    | some w => !f.covers w.e || (keep && (w.lockI || w.lockD))
    | none => false
  let l1 := fun (l : SMap (Option L1TlbWay)) => l.filter fun e => match e.2 with
    | some w => !f.covers w.e || (keep && w.pin)
    | none => false
  let c := { c with tlbs := { t with l2 := l2, itlb := l1 t.itlb, dtlb := l1 t.dtlb } }
  if skipped = 0 then c
  else
    let c := if c.tlbSkipFlag then c
      else { c with tlbSkipFlag := true, cii := { c.cii with pend := setBit c.cii.pend 11 true } }
    { c with tlbSkipped := BitVec.ofNat 16 (satAdd 0xFFFF c.tlbSkipped.toNat skipped) }

/-- The form that a core issues. -/
def Core.tlbiForm (c : Core) (form : Nat) (operand : Word) : Tlbi :=
  ⟨form, operand, c.world, c.pid, c.asid, c.status.extractLsb' 0 2⟩

/-- A TLBI of the issuing core alone; below its level it is PRIV. -/
def State.tlbi (s : State) (lc : LC) (form lvl : Nat) (ra : Option Reg) : Out :=
  s.issue lc { reads := ra.toList.map gIdx } fun k _ s =>
    let c := s.core lc
    let r := ra.getD 0
    if c.level < lvl then s.trapWord k 0x02 (encY 0 r 5 form)
    else some (s.modCore lc fun c =>
      let c := c.tlbi (c.tlbiForm form (c.getG r))
      c.retire (c.pc + 4) 2)

/-- A broadcast TLBI: one TlbBcast to the Prism port of every die; it completes when all twelve have
acknowledged (R79, R114, R234). -/
def State.tlbiB (s : State) (lc : LC) (form lvl : Nat) (ra : Option Reg) : Out :=
  s.issue lc { reads := ra.toList.map gIdx } fun k t s =>
    let c := s.core lc
    let r := ra.getD 0
    if c.level < lvl then s.trapWord k 0x02 (encY 0 r 5 (form + 0x10))
    else
      let st := bankStation k.die 0
      match s.freeTxid st 32 with
      | none => none
      | some tx =>
        let msg := fun (d : Die) => ({
          kind := .tlbBcast, dest := diePortStation d, src := st, txid := BitVec.ofNat 14 tx,
          s := c.world, pid := c.pid, epoch := s.epoch st,
          addr := BitVec.ofNat 48 (form + 0x10), bmask := c.getG r, asid := c.asid,
          lvl := c.status.extractLsb' 0 2, lc := BitVec.ofNat 8 lc.val } : Msg)
        let m0 := msg k.die
        let s := { s with reqs := s.reqs ++ [({ msg := m0, die := some k.die,
                                                 purpose := .access lc } : Req)] }
        let s := (List.finRange 12).foldl (fun s d => s.send (msg d)) s
        let a : Access := { kind := .bcast 12, parts := [], leave := t }
        some (s.modCore lc fun c => { c with access := some a })

/-- TLBI.VA, from K. -/
def execTlbiVa (lc : LC) (ra : Reg) (s : State) : Out := s.tlbi lc 2 1 (some ra)
/-- TLBI.ASID, from K. -/
def execTlbiAsid (lc : LC) (s : State) : Out := s.tlbi lc 3 1 none
/-- TLBI.PID, from H. -/
def execTlbiPid (lc : LC) (ra : Reg) (s : State) : Out := s.tlbi lc 4 2 (some ra)
/-- TLBI.ALL, at M. -/
def execTlbiAll (lc : LC) (s : State) : Out := s.tlbi lc 5 3 none
/-- TLBI.B.VA. -/
def execTlbiBVa (lc : LC) (ra : Reg) (s : State) : Out := s.tlbiB lc 2 1 (some ra)
/-- TLBI.B.ASID. -/
def execTlbiBAsid (lc : LC) (s : State) : Out := s.tlbiB lc 3 1 none
/-- TLBI.B.PID. -/
def execTlbiBPid (lc : LC) (ra : Reg) (s : State) : Out := s.tlbiB lc 4 2 (some ra)
/-- TLBI.B.ALL. -/
def execTlbiBAll (lc : LC) (s : State) : Out := s.tlbiB lc 5 3 none

/-! Accounting events. -/

/-- CORE_ACCT_CTL.CLEAR: the six counters to 0 in one beat (Table CORE-6). -/
def execAcctClear (lc : LC) (s : State) : Out :=
  .next (s.modCore lc fun c => { c with acct := c.acct.clear })

end Sys2Proof.Machine
end

