-- ==== Sys2Proof/Machine/Answers.lean ====
section
/-!
DEFINITION. What requesters do with answers (R174, R175, R183 to R190, R247, R248): completions of
the homes, EvictDone, answers of stations, acknowledgements; and the messages that a die-cache bank,
an interrupt distributor and a Prism port serve (R127, R152, R234).
-/

namespace Sys2Proof.Machine

/-- The access of a core drops out of M unfinished; its instruction is given again. -/
def State.dropAccess (s : State) (lc : LC) : State :=
  s.modCore lc fun c => { c with access := none }

/-- What an answer brings to the access that a core holds in M: the access goes on, in free beats
(R115). `fill` is the line that enters the core's L1. -/
def State.accessAnswer (s : State) (lc : LC) (ans : Ans) (fill : Option L1Line) : State :=
  match s.asker lc, (s.core lc).access with
  | some k, some a =>
    let (b, s) := s.takeBeats
    let a' := { a with got := a.got ++ [ans], l1 := a.l1 + b }
    let read := fun (s : State) => match fill with
      | some l => s.fillL1d k.die lc l
      | none => s
    let e : Exc := { code := 0, tval := (a.parts[0]?).elim 0 (·.va), sb := a.sbm, l1 := a'.l1, walk := a.walk }
    let fail := fun (code : Nat) =>
      let s := s.dropAccess lc
      (s.raise k { e with code := code }).getD s
    match a.kind with
    | .line walk l =>
      let b := if (s.core lc).halts.contains .debug then 0 else b
      let s := s.modCore lc fun c =>
        { c.charge 0 0 (if walk then 0 else b) 0 (if walk then b else 0) with
          access := none, got := SMap.set none c.got l (some ans) }
      match fill with
      | some x => if walk then s else s.fillL1i k.die lc x
      | none => s
    | .load _ _ _ | .vload _ => ((read s).loadStep k a').getD (s.dropAccess lc)
    | .eret => ((read s).eretStep k a').getD (s.dropAccess lc)
    | .atomic _ rd => match ans with
      | .data d false => s.modCore lc fun c => c.atomicDone a' rd (d.truncate 64)
      | _ => fail 0x0E
    | .cmo => match ans with
      | .data _ _ => s.modCore lc fun c => c.lineOpDone a'
      | .bus => fail 0x0A
    | .bcast _ => s.modCore lc fun c => c.lineOpDone { a with walk := a.walk + b }
    | .wait _ => s
  | _, _ => s

/-- A granted sub-block enters the way chosen with its request (R177, R190). -/
def State.install (s : State) (d : Die) (w line : Nat) (st : CState) (data : Line) (world : Bool) :
    State :=
  s.modDie d fun x =>
    let se := x.sec (dcSet line) w
    let se : Sector := if se.tag = some (line / 4) then se else { tag := some (line / 4) }
    let u : Sub := { se.sub (line % 4) with st := st, data := data, pois := false, world := world }
    (x.setSec (dcSet line) w (se.setSub (line % 4) u)).touch line w

/-- A store performs on a sub-block that its die holds in E from now on (R192). -/
def State.storeOwned (s : State) (k : Asker) (e : SbEntry) (line : Nat) : State :=
  ((s.invalL1 k.die line (some k.slot)).fillL1d k.die k.lc ⟨line, .m, e.s⟩).writeSub k.die line
    e.data e.mask

/-- The answer to the request of a drain (R70, R152, R185, R192): the store is performed, or it failed,
and its entry leaves the buffer. -/
def State.drainAnswer (s : State) (lc : LC) (r : Req) (m : Msg) : State :=
  match s.asker lc, (s.core lc).sb with
  | some k, e :: _ =>
    if !e.sent then s
    else
      let (b, s) := s.takeBeats
      let owned := m.kind == .grantE || (m.kind == .homeDone && r.msg.kind == .upgrade)
      let err := !(owned || m.kind == .homeDone || m.kind == .ncAck)
      let s := if owned then s.storeOwned k e r.msg.line else s
      s.drained lc b false err
  | _, _ => s

/-- A sub-block leaves its entry of the eviction buffer (R187, Table COH-10 step 8). -/
def State.evictAnswer (s : State) (d : Die) (txid : Nat) : State :=
  let e := (txid - 0x3F80) / 4
  let b := (txid - 0x3F80) % 4
  s.modDie d fun x => match SMap.get none x.evb e with
    | none => x
    | some ev =>
      let subs := SMap.set none ev.subs b none
      { x with evb := SMap.set none x.evb e (if subs.isEmpty then none else some { ev with subs := subs }) }

/-- The answer to a request of a range engine (R162 to R166). A refusal by the home stops the command
as its own check would. -/
def State.engineAnswer (s : State) (d : Die) (r : Req) (m : Msg) : State :=
  match m.kind with
  | .homeDone => s.modRme d fun x => x.skip (r.msg.line / 4) m.dies
  | .evictDone => if 0x3F80 ≤ m.txid.toNat then s.evictAnswer d m.txid.toNat else s
  | .homeRefuse => s.modRme d fun x =>
    if x.err ≠ 0 then x
    else { x with err := 4, next := BitVec.ofNat 48 (min x.next.toNat (64 * r.msg.line)) }
  | _ => s

/-- What an answer says of the line asked for. -/
def msgAns (m : Msg) : Ans :=
  match m.kind with
  | .homeRefuse | .ncErr => .bus
  | .homePoison | .ncPoison => .data 0 true
  | _ => .data (m.data.getD 0) m.poisoned

/-- The accesses of a die that wait for one of its requests or evictions start again, in free beats under WALK
or L1 (R146, R186, R189). -/
def State.dieWake (s : State) (d : Die) : State :=
  (s.lcsOf d).foldl (fun s lc => match (s.core lc).access with
    | some { kind := .wait walk, .. } =>
      let (b, s) := s.takeBeats
      let b := if (s.core lc).halts.contains .debug then 0 else b
      s.modCore lc fun c => { c.charge 0 0 (if walk then 0 else b) 0 (if walk then b else 0) with
        access := none }
    | _ => s) s

/-- An answer reaches its requester, which never makes it wait (R237): the transaction ends, a grant is
installed and acknowledged with GrantSeen (Table COH-5 step 8), and what it was for goes on. -/
def State.answer (s : State) (m : Msg) : State :=
  match s.findReq m with
  | none => s
  | some r =>
    if m.dest = foldStation && m.kind ≠ .intAck then s.foldSink r m else
    let s := r.die.elim s s.dieWake
    let line := r.msg.line
    let seen := m.kind == .grantS || m.kind == .grantE ||
      (m.kind == .homeDone && r.msg.kind == .upgrade)
    let s := if m.kind == .tlbAck && r.way < 11 then
        { s with reqs := s.reqs.map fun x => if x = r then { r with way := r.way + 1 } else x }
      else s.endReq r
    let s := if seen then s.send (replyTo m .grantSeen) else s
    let granted := m.kind == .grantS || m.kind == .grantE
    let s := match r.die with
      | some d =>
        if granted then
          s.install d r.way line (if m.kind = .grantE then .e else .s) (m.data.getD 0) r.msg.s
        else if seen then s.modDie d fun x => x.modSub line fun u => { u with st := .e }
        else s
      | none => s
    let l1 : Option L1Line := if granted then some ⟨line, .s, r.msg.s⟩ else none
    match r.purpose with
    | .access lc =>
      if m.kind == .tlbAck && r.way < 11 then s else s.accessAnswer lc (msgAns m) l1
    | .drain lc => s.drainAnswer lc r m
    | .prefetch lc => match l1, r.die with
      | some l, some d => s.fillL1d d lc l
      | _, _ => s
    | .engine d => s.engineAnswer d r m
    | .evict => match r.die with
      | some d => s.evictAnswer d m.txid.toNat
      | none => s
    | .voided | .interrupt | .notice _ => s
    | .unit t => if m.dest = portAStation then s.portAnswer m.txid t m else s

/-- Whether Tables COH-1 and FAB-3 address an answer of a kind to a unit: grants, EvictDone and TlbAck go to
die-cache banks, other completions to every requester of homes, the rest to every requester. -/
def MsgKind.answers (k : MsgKind) : UnitKind → Bool
  | .bank _ => true
  | .fold | .portA | .ce _ | .shepherd | .mirror =>
    k ≠ .grantS && k ≠ .grantE && k ≠ .evictDone && k ≠ .tlbAck
  | .slot _ => k = .ncData || k = .ncAck || k = .ncErr || k = .ncPoison
  | _ => false

/-- An answer of a kind arrives; a completion with stray address bits is an unlisted one (R181). -/
def State.atRequester (s : State) (m : Msg) (k : MsgKind) : Out :=
  s.deliver m k (MsgKind.answers k) fun m s =>
    some (if m.kind.code < 0x30 && !m.lowOk then s.badCmd m else s.answer m)

/-- GrantS. -/
def execGrantS (msg : Msg) (s : State) : Out := s.atRequester msg .grantS
/-- GrantE. -/
def execGrantE (msg : Msg) (s : State) : Out := s.atRequester msg .grantE
/-- ReadData. -/
def execReadData (msg : Msg) (s : State) : Out := s.atRequester msg .readData
/-- HomeDone. -/
def execHomeDone (msg : Msg) (s : State) : Out := s.atRequester msg .homeDone
/-- AtomicOld. -/
def execAtomicOld (msg : Msg) (s : State) : Out := s.atRequester msg .atomicOld
/-- HomeRefuse. -/
def execHomeRefuse (msg : Msg) (s : State) : Out := s.atRequester msg .homeRefuse
/-- HomePoison. -/
def execHomePoison (msg : Msg) (s : State) : Out := s.atRequester msg .homePoison
/-- EvictDone. -/
def execEvictDone (msg : Msg) (s : State) : Out := s.atRequester msg .evictDone
/-- NcData. -/
def execNcData (msg : Msg) (s : State) : Out := s.atRequester msg .ncData
/-- NcAck. -/
def execNcAck (msg : Msg) (s : State) : Out := s.atRequester msg .ncAck
/-- NcErr. -/
def execNcErr (msg : Msg) (s : State) : Out := s.atRequester msg .ncErr
/-- NcPoison. -/
def execNcPoison (msg : Msg) (s : State) : Out := s.atRequester msg .ncPoison
/-- TlbAck: a broadcast TLBI completes at the twelfth (R79). -/
def execTlbAck (msg : Msg) (s : State) : Out := s.atRequester msg .tlbAck

/-- IntAck reaches the sender of an interrupt message. -/
def execIntAck (msg : Msg) (s : State) : Out :=
  s.deliver msg .intAck (fun _ => true) fun m s => some (s.answer m)

/-- RoleGone (R248): a home that waits for the GrantSeen of a dropped grant ends the entry and sets
the source die's tag to I; every receiver counts it. -/
def execRoleGone (msg : Msg) (s : State) : Out :=
  s.deliver msg .roleGone (fun _ => true) fun msg s =>
    let s := s.countAt (cpAddr msg.dest 0xFF00C) 16 16 1
    match unitKind msg.dest with
    | some (.home _) =>
      let q := quadOfHome msg.dest
      match (s.home q).table.find? fun e => s.accepts q &&
          e.phase == .grant && e.msg.src == msg.src && e.msg.txid == msg.txid with
      | some e =>
        let line := e.msg.line
        let s := match dieOfStation msg.src with
          | some d => s.setDt d line .i
          | none => s
        some (((s.dropEntry q e.idx).settleLine q line).settleHome q)
      | none => some s
    | _ => some s

/-! Scratch of a die (R152, R153, R313). -/

/-- ScrRd or ScrWr at a die-cache bank: an unconverted way and a refusal by the die's Pastures are
bus errors; a read of a poisoned word is answered NcPoison. -/
def State.scratchServe (s : State) (m : Msg) : State :=
  let a := m.addr.toNat
  match dieOfStation m.dest with
  | none => s.send (replyTo m .ncErr)
  | some d =>
    if targetOf a ≠ .scratch || scratchDie a ≠ d || !s.scratchOk a then s.send (replyTo m .ncErr)
    else
      let perm : Perm := if m.kind = .scrWr then .w else if m.fetch then .x else .r
      let (ok, s) := s.checkPasture (dcsStation d) 16 a m.s m.pid perm m.src
      if !ok then s.send (replyTo m .ncErr)
      else if m.kind = .scrWr then
        (s.scratchWrite (a / 64) (m.data.getD 0) m.bmask).send (replyTo m .ncAck)
      else if s.scratchPois a m.bytes then s.send (replyTo m .ncPoison)
      else s.send { replyTo m .ncData with data := some (s.memLine (a / 64)) }

/-- A message for a die-cache bank. -/
def State.atScratch (s : State) (m : Msg) (k : MsgKind) : Out :=
  s.deliver m k UnitKind.isBank fun m s => some (s.scratchServe m)

/-- ScrRd. -/
def execScrRd (msg : Msg) (s : State) : Out := s.atScratch msg .scrRd
/-- ScrWr. -/
def execScrWr (msg : Msg) (s : State) : Out := s.atScratch msg .scrWr

/-! Interrupt messages and TLB broadcasts. -/

/-- IntMsg at a distributor: the source becomes pending or the drop is counted, and IntAck is sent
(R127, R128). -/
def execIntMsg (msg : Msg) (s : State) : Out :=
  s.deliver msg .intMsg (fun k => k == .intd) fun m s => match dieOfStation m.dest with
    | some d => some ((s.intdMessage d (m.addr.toNat % 1024) m.s m.pid (some m.src)).send
        (replyTo m .intAck))
    | none => some s

/-- TlbBcast at the Prism port of a die: the operation is performed on the die's cores whose cr.part is
the issuer's, and TlbAck is sent (R79, R234). -/
def execTlbBcast (msg : Msg) (s : State) : Out :=
  s.deliver msg .tlbBcast (fun k => k == .diePort) fun msg s =>
      let form := msg.addr.toNat % 4096
      if form < 0x12 || 0x15 < form then some (s.badCmd msg)
      else match dieOfStation msg.dest with
        | some d =>
          let f : Tlbi := ⟨form - 0x10, msg.bmask, msg.s, msg.pid, msg.asid, msg.lvl⟩
          let cores := (s.lcsOf d).filter fun lc => (s.core lc).pid == msg.pid
          some ((cores.foldl (fun s lc => s.modCore lc fun c => c.tlbi f) s).send
            (replyTo msg .tlbAck))
        | none => some s

end Sys2Proof.Machine
end

