-- ==== Sys2Proof/Machine/ArrayChecks.lean ====
section
/-!
DEFINITION. What the checks inside cores, die caches and homes find (R139, R158, R179, R424, R425, Table
CACHE-5): an error corrected or not is an operand of the window command that closes the time in which it
arose (DESIGN CHOICE, log 127).
-/

namespace Sys2Proof.Machine

/-! Cores and die caches. -/

/-- A correction inside a core (CORE_ARRAY_CE). -/
def State.coreArrayCe (s : State) (d : Die) (slot : Slot) : State :=
  s.report (slotStation d slot.val) 0x10 (slotStation d slot.val).toNat

/-- A core finds an error that it cannot correct: the instruction has no effect, and the core halts at its
boundary and reports CORE_CHECK (R425). -/
def State.coreCheck (s : State) (d : Die) (slot : Slot) : State :=
  let s := s.report (slotStation d slot.val) 0x11 (slotStation d slot.val).toNat
  match s.lcAt d slot.val with
  | some lc => s.halt lc .check
  | none => s

/-- A parity error of an entry of the ITLB or the DTLB: it is invalidated. A pinned one is the copy of a locked
entry: its rewalk finds what the tables gave it (R79, R424; DEDUCED, log 139). -/
def Tlbs.parityL1 (t : Tlbs) (kindI : Bool) (i : Nat) : Tlbs :=
  match SMap.get none (t.l1 kindI) i with
  | some w => if w.pin then t else t.setL1 kindI (SMap.set none (t.l1 kindI) i none)
  | none => t

/-- A parity error of an entry of the L2 TLB: it is invalidated; a locked one is rewalked (R424, log 139). -/
def Tlbs.parityL2 (t : Tlbs) (i : Nat) : Tlbs :=
  match SMap.get none t.l2 i with
  | some w => if w.lockI || w.lockD then t else { t with l2 := SMap.set none t.l2 i none }
  | none => t

/-- The TLBs of the core that runs in a slot changed. -/
def State.slotTlbs (s : State) (d : Die) (slot : Slot) (f : Tlbs → Tlbs) : State :=
  match s.lcAt d slot.val with
  | some lc => s.modCore lc fun c => { c with tlbs := f c.tlbs }
  | none => s

/-- An uncorrectable error strikes a sub-block of a die cache (Table CACHE-5): a clean one is invalidated, a
dirty one goes back to its home marked poisoned; while the eviction buffer is full it stays, so marked. -/
def State.dcStruck (s : State) (d : Die) (slot : Slot) (line : Nat) : State :=
  let u : Sub := (s.die d).sub line
  if u.st = .i then s
  else
    let s := s.report (bankOf d line) 0x09 (bankOf d line).toNat (64 * line)
    if u.st ≠ .m then s.dropSub d line
    else
      let s := s.modDie d fun x => x.modSub line fun u => { u with pois := true }
      match s.lcAt d slot.val with
      | some lc => (s.evictLine d line true (.core lc) 0 .evict).getD s
      | none => s

/-- An uncorrectable error strikes an 8 B word of scratch: it is marked poisoned until a store covers it. -/
def State.scratchStruck (s : State) (d : Die) (word : Nat) : State :=
  let st := bankOf d (word / 8)
  if targetOf (8 * word) ≠ .scratch || scratchDie (8 * word) ≠ d || !s.scratchOk (8 * word) then s
  else ({ s with poisWord := SMap.set false s.poisWord word true } : State).report st 0x09 st.toNat
    (8 * word) (crit := s.regionAttr (dcsStation d) 16 (8 * word) 7)

/-- One error of a die (R139, R158, R424). -/
def State.arrayErr (d : Die) (slot : Slot) (s : State) : ArrayErr → State
  | .corrected => s.coreArrayCe d slot
  | .check => s.coreCheck d slot
  | .l1i line =>
    let s := match s.lcAt d slot.val with
      | some lc => s.modCore lc fun c => { c with l1i := c.l1i.drop line.toNat }
      | none => s
    s.coreArrayCe d slot
  | .itlb i => (s.slotTlbs d slot fun t => t.parityL1 true i).coreArrayCe d slot
  | .dtlb i => (s.slotTlbs d slot fun t => t.parityL1 false i).coreArrayCe d slot
  | .l2tlb i => (s.slotTlbs d slot fun t => t.parityL2 i).coreArrayCe d slot
  | .dc line ue =>
    let st := bankOf d line.toNat
    if ue then s.dcStruck d slot line.toNat else s.report st 0x08 st.toNat (64 * line.toNat)
  | .tag set w =>
    let st := bankStation d set.toNat
    s.report st 0x09 st.toNat (16 * set.toNat + w.val) (crit := true)
  | .scratch word ue =>
    let st := bankOf d (word.toNat / 8)
    if ue then s.scratchStruck d word.toNat else s.report st 0x08 st.toNat (8 * word.toNat)

/-- A 10 us window of a slot ends (Table CORE-7, R48): CORE_BEAT_RATE takes the elapsed beats of the window,
VALID where the core stayed out of WAIT and the slot was not reset. What the checks of the core and of its die
found in it takes effect (R424, R425). -/
def execBeatRateWindow (die : Die) (slot : Slot) (win : ArrayWindow) (s : State) : Out :=
  let key := die.val * 20 + slot.val
  let s := win.found.foldl (State.arrayErr die slot) (s.advance win.t)
  match s.lcAt die slot.val with
  | none => .next s
  | some lc =>
    let c := s.core lc
    let now := BitVec.ofNat 64 c.beats.next
    let n := now - SMap.get 0 s.beatBase key
    let st := SMap.get 0 s.beatSt key
    let rate : Word := if st = 0 then 0
      else BitVec.ofNat 64 (n.toNat % 2 ^ 32 + if st = 2 then 2 ^ 32 else 0)
    .next { s with beatRate := SMap.set 0 s.beatRate key rate
                   beatBase := SMap.set 0 s.beatBase key now
                   beatSt := SMap.set 0 s.beatSt key (if c.run == .started && !c.inWait then 2 else 1) }

/-! Homes. -/

/-- An uncorrectable error strikes an MSC line (Table CACHE-5): a clean one is invalidated, a dirty one goes to
the stack marked poisoned, where it is classed (R219). -/
def State.mscStruck (s : State) (q : Quad) (line : Nat) : State :=
  match (s.home q).msc.wayOf line, (s.home q).msc.find line with
  | some w, some l =>
    let s := s.modHome q fun h => { h with
      msc := { h.msc with ways := SMap.set none h.msc.ways (mscSet line * 16 + w) none }
      wout := if l.dirty then h.wout ++ [⟨line, l.data, true, l.pois⟩] else h.wout }
    s.report (homeStation q) 0x0B (homeStation q).toNat (64 * line)
  | _, _ => s

/-- One error of a home, or of a context that the Fold caches (R158, R179, R363). SOURCE of a duplicate-tag error is the die whose array is struck, by its
die control station, and LOC the set and the way (DESIGN CHOICE, log 127). -/
def State.homeErr (s : State) : HomeErr → State
  | .dt q die set w ue =>
    s.report (homeStation q) (if ue then 0x0D else 0x0C) (dcsStation die).toNat (16 * set.toNat + w.val)
  | .msc line ue =>
    let q := quadOf (64 * line.toNat)
    if ue then s.mscStruck q line.toNat
    else s.report (homeStation q) 0x0A (homeStation q).toNat (64 * line.toNat)
  | .ctx qid => match SMap.get none s.fold.cache qid.toNat with
    | some w => s.queueError qid.toNat w.ctx 6
    | none => s

end Sys2Proof.Machine
end

