-- ==== Sys2Proof/Machine/Branch.lean ====
section
/-!
DEFINITION. Branches and jumps (Table ISA-10, R39, R98).
-/

namespace Sys2Proof.Machine

/-- BEQ. -/
def execBeq (lc : LC) (ra rb : Reg) (off : BitVec 16) (s : State) : Out :=
  s.branchIf lc ra rb off fun a b => a == b

/-- BNE. -/
def execBne (lc : LC) (ra rb : Reg) (off : BitVec 16) (s : State) : Out :=
  s.branchIf lc ra rb off fun a b => a != b

/-- BLT. -/
def execBlt (lc : LC) (ra rb : Reg) (off : BitVec 16) (s : State) : Out :=
  s.branchIf lc ra rb off fun a b => a.slt b

/-- BGE. -/
def execBge (lc : LC) (ra rb : Reg) (off : BitVec 16) (s : State) : Out :=
  s.branchIf lc ra rb off fun a b => !a.slt b

/-- BLTU. -/
def execBltu (lc : LC) (ra rb : Reg) (off : BitVec 16) (s : State) : Out :=
  s.branchIf lc ra rb off fun a b => a.ult b

/-- BGEU. -/
def execBgeu (lc : LC) (ra rb : Reg) (off : BitVec 16) (s : State) : Out :=
  s.branchIf lc ra rb off fun a b => !a.ult b

/-- J. -/
def execJ (lc : LC) (off : BitVec 26) (s : State) : Out :=
  s.issueCore lc {} fun _ c => c.branch (target c.pc off)

/-- JAL: the link goes to g31, usable one beat later. -/
def execJal (lc : LC) (off : BitVec 26) (s : State) : Out :=
  s.issueCore lc { writes := [gIdx 31] } fun t c =>
    (c.result 31 (c.pc + 4) t 1).branch (target c.pc off)

/-- JALR: the old ga gives the target, whose bits [1:0] are cleared. -/
def execJalr (lc : LC) (rd ra : Reg) (imm : BitVec 16) (s : State) : Out :=
  s.issueCore lc { reads := [gIdx ra], writes := [gIdx rd] } fun t c =>
    (c.result rd (c.pc + 4) t 1).branch (effAddr c ra imm &&& ~~~3#64)

end Sys2Proof.Machine
end

