-- ==== Sys2Proof/Machine/Loupes.lean ====
section
/-!
DEFINITION. The registers of the Loupes and their traces (R501 to R505, Tables OBS-7 and OBS-8).
-/

namespace Sys2Proof.Machine

/-- What a write leaves in a register's stored word by the types of its fields (R8, Table SCOPE-4);
`commit` tells an entry that a staged set applies. -/
def RegDesc.write (d : RegDesc) (commit : Bool) (old v : Word32) : Word32 :=
  d.foldl (fun w f =>
    let x := field v f.lo f.w
    match f.ty with
    | .rw => setField w f.lo f.w x
    | .rwl => if commit then setField w f.lo f.w x else w
    | .w1c => if x % 2 = 1 then setField w f.lo f.w 0 else w
    | .w1s => if x % 2 = 1 then setField w f.lo f.w 1 else w
    | .ro | .wo => w) old

/-- Whether a direct write gives some RWL field another value than its current one (R8). -/
def RegDesc.refuses (d : RegDesc) (old v : Word32) : Bool :=
  d.any fun f => f.ty == .rwl && field v f.lo f.w ≠ field old f.lo f.w

/-- Whether some field has a type. -/
def RegDesc.has (d : RegDesc) (p : RType → Bool) : Bool := d.any fun f => p f.ty

/-- The word of fields of the types given. -/
def RegDesc.mask (d : RegDesc) (p : RType → Bool) : Word32 :=
  d.foldl (fun m f => if p f.ty then setField m f.lo f.w (2 ^ f.w - 1) else m) 0

/-- Whether a Loupe holds slice `n` of a quadrant's trace SRAM (R503). -/
def State.holdsSlice (s : State) (q n j : Nat) : Bool :=
  let first := s.cpField (lpAddr j 0x2C) 4 4
  loupeQuad j = q && first ≤ n && n < first + (s.loupe j).slices

/-- The lowest run of `n` free slices among the 16 of a quadrant's trace SRAM (R503). -/
def State.freeSlices (s : State) (q n : Nat) : Option Nat :=
  (List.range (17 - n)).find? fun i =>
    (List.range n).all fun j => !(List.range 44).any fun k => s.holdsSlice q (i + j) k

/-- The trace of a Loupe is armed (R503); slices that it still holds serve it again. A trace that
FREEZE_ON_FAULT stopped stays stopped (R504). -/
def State.lpArm (s : State) (k : Nat) : State :=
  let st := lpAddr k 0x2C
  let x := s.loupe k
  if s.cpField (lpAddr k 0) 1 1 = 1 || s.cpField st 3 1 = 1 then s
  else
    let c := s.cpField (lpAddr k 0x28) 0 4
    let n := if 1 ≤ c && c ≤ 8 then c else 1
    let run := if 0 < x.slices then some (s.cpField st 4 4, x.slices)
      else (s.freeSlices (loupeQuad k) n).map (·, n)
    match run with
    | none => s.cpSetField st 2 1 1
    | some (f, n) =>
      let s := ((s.cpSetField (lpAddr k 0) 1 1 1).cpSetField st 0 1 1).cpSetField st 4 4 f
      s.setLoupe k { x with slices := n, num := 0, gap := x.gap || s.calm }

/-- The trace of a Loupe stops. -/
def State.lpStop (s : State) (k : Nat) : State :=
  (s.cpSetField (lpAddr k 0) 1 1 0).cpSetField (lpAddr k 0x2C) 0 1 0

/-- LP_CTL.CLEAR (Table OBS-7): counters, WIDX, FULL and GAP to 0, trace stopped, slices released. -/
def State.lpReset (s : State) (k : Nat) : State :=
  let s := s.lpStop k
  let s := (s.cpSet64 (lpAddr k 0x40) 0).cpSet64 (lpAddr k 0x48) 0
  let st := lpAddr k 0x2C
  let s := ((s.cpSetField st 1 1 0).cpSetField st 8 15 0).cpSetField st 4 4 0
  s.setLoupe k { s.loupe k with slices := 0, gap := false }

/-- The reset of a Loupe within a hand-over (Table WLD-6): counters, filters and trace stopped and
cleared. -/
def State.lpHandOver (s : State) (k : Nat) : State :=
  (loupeRegs k).foldl (fun s r => s.cpSet (lpAddr k r.1) (BitVec.ofNat 32 (RegDesc.reset r.2)))
    (s.lpReset k)

/-- A register of a Loupe is written; CLEAR acts before TRACE_EN. -/
def State.lpWrite (s : State) (k off : Nat) (v : Word32) : State :=
  let a := lpAddr k off
  match inTable (loupeRegs k) off with
  | none => s
  | some d =>
    if off = 0 then
      let s := if bit v 2 then s.lpReset k else s
      let s := (s.cpSetField a 0 1 (field v 0 1)).cpSetField a 3 1 (field v 3 1)
      if bit v 1 then s.lpArm k else s.lpStop k
    else s.cpSet a (d.write false (s.cpGet a) v)

/-- The trace word at RPTR; beyond the slices held nothing is stated (a free value). -/
def State.lpWord (s : State) (k : Nat) : Word × State :=
  let i := s.cpField (lpAddr k 0x30) 0 16
  if i < 8192 * (s.loupe k).slices then
    (SMap.get 0 s.trace (loupeQuad k * 2 ^ 17 + s.cpField (lpAddr k 0x2C) 4 4 * 8192 + i), s)
  else s.takeFree 64

/-- RPTR advances by one word. -/
def State.lpNext (s : State) (k : Nat) : State :=
  s.cpSetField (lpAddr k 0x30) 0 16 (s.cpField (lpAddr k 0x30) 0 16 + 1)

/-- A register of a Loupe read: RUN is 1 only while entries are written (R504), and the trace word is
read where RPTR points. `ctl` tells a control-plane read: there a read of 0x3C advances RPTR and a read
of a count's LO word latches its HI word. -/
def State.lpRead (s : State) (k off : Nat) (ctl : Bool) : Word32 × State :=
  let a := lpAddr k off
  let v := s.cpGet a
  if off = 0x2C then (if s.calm then setField v 0 1 0 else v, s)
  else if off = 0x38 || off = 0x3C then
    let (w, s) := s.lpWord k
    (BitVec.ofNat 32 (w.toNat / 2 ^ (if off = 0x3C then 32 else 0)),
      if ctl && off = 0x3C then s.lpNext k else s)
  else if ctl && (off = 0x40 || off = 0x48) then
    (v, { s with latchHi := SMap.set 0 s.latchHi (a + 4) (s.cpGet (a + 4)) })
  else if ctl && (off = 0x44 || off = 0x4C) then (SMap.get 0 s.latchHi a, s)
  else (v, s)

/-- A Loupe's registers are accessed on the data path by its owner (R323, R505). -/
def State.lpOwned (s : State) (k : Nat) (world : Bool) (pid : BitVec 8) : Bool :=
  let o := s.cpGet (lpAddr k 0x100)
  bit o 10 && world == bit o 9 && (bit o 8 || pid == o.extractLsb' 0 8)

/-- LP_CTL.CLEAR of a Loupe is written. -/
def execLpClear (k : Fin 44) (s : State) : Out :=
  if s.domState 60 = 1 then .next s else .next (s.lpReset k.val)

/-- LP_CTL.TRACE_EN of a Loupe is written. -/
def execTraceEn (k : Fin 44) (on : Bool) (s : State) : Out :=
  if s.domState 60 = 1 then .next s
  else .next (if on then s.lpArm k.val else s.lpStop k.val)

/-- A trace word of a Loupe is read, and RPTR advances. -/
def execTraceDataRead (k : Fin 44) (s : State) : Out :=
  if s.domState 60 = 1 then .next s else .next ((s.lpWord k.val).2.lpNext k.val)

end Sys2Proof.Machine
end

