-- ==== Sys2Proof/Machine/Edl.lean ====
section
/-!
DEFINITION. The Ezzil Die Link between two ports (R258, R265 to R269): PAM4 levels, logical lanes, frames with
their CRC, and link units as bytes.
-/

namespace Sys2Proof.Machine

/-! Light (R258, R266). -/

/-- The PAM4 level of a bit pair, Gray-coded. -/
def grayLevel (b : BitVec 2) : Fin 4 := if b = 0 then 0 else if b = 1 then 1 else if b = 3 then 2 else 3

/-- The bit pair that a PAM4 level stands for. -/
def pamBits (l : Fin 4) : BitVec 2 := if l = 0 then 0 else if l = 1 then 1 else if l = 2 then 3 else 2

/-- The bit of a frame that logical lane `j` carries as its bit `i`: of bytes 2j and 2j + 1, and in the second half
of a narrow frame of bytes 32 + 2j and 33 + 2j (R266). -/
def laneBit (j i : Nat) : Nat := 16 * j + i % 16 + 256 * (i / 16)

/-- The symbols of logical lane `j` over a frame, two bits each in ascending order (R266). -/
def laneLevels (wide : Bool) (f : BitVec 512) (j : Nat) : List (Fin 4) :=
  (List.range (if wide then 8 else 16)).map fun k => grayLevel (f.extractLsb' (laneBit j (2 * k)) 2)

/-- The frame whose lanes carry the given symbols. -/
def frameOfLanes (lanes : List (List (Fin 4))) : BitVec 512 :=
  lanes.zipIdx.foldl (fun f l => l.1.zipIdx.foldl (fun f x =>
    setField f (laneBit l.2 (2 * x.2)) 2 (pamBits x.1).toNat) f) 0

/-- The logical lane that carries bit `i` of a frame. -/
def laneOfBit (wide : Bool) (i : Nat) : Nat := if wide then i / 16 else i % 256 / 16

/-! Frames (R265). -/

/-- The CRC-32 of a frame's sequence number and body. -/
def edlCrc (seq : Nat) (body : List Byte) : BitVec 32 := crc32 (natToBytes 2 seq ++ body)

/-- The 64 bytes of a frame. -/
def edlFrame (seq : Nat) (body : List Byte) : BitVec 512 :=
  BitVec.ofNat 512 (bytesToNat (body ++ natToBytes 4 (edlCrc seq body).toNat))

/-- The 60 bytes of a frame's body. -/
def edlBody (f : BitVec 512) : List Byte := (natToBytes 64 f.toNat).take 60

/-- Whether a frame passes its CRC under a sequence number. -/
def edlGood (seq : Nat) (f : BitVec 512) : Bool := f.extractLsb' 480 32 == edlCrc seq (edlBody f)

/-! Units (R267, Tables PRISM-2 to PRISM-4). -/

/-- The tag of a unit. -/
def unitTag (kind vc : Nat) (poison : Bool) : List Byte :=
  natToBytes 4 (kind + vc * 2 ^ 4 + b2n poison * 2 ^ 7)

/-- The kinds of message that the tables list. -/
def listedKinds : List MsgKind :=
  [.rdShared, .rdUnique, .rdOnce, .wrUnique, .upgrade, .evict, .writeBack, .atomicAtHome, .cmo, .snpShared,
   .snpInval, .snpOnce, .ansGone, .ansShared, .ansKeep, .ansGoneData, .ansSharedData, .ansKeepData, .grantS,
   .grantE, .readData, .homeDone, .atomicOld, .homeRefuse, .homePoison]
  ++ [.evictDone, .grantSeen, .scrRd, .scrWr, .devRd, .devWr, .hostRd, .hostWr, .ncData, .ncAck, .ncErr, .ncPoison,
   .intMsg, .intAck, .tlbBcast, .tlbAck, .roleGone]

/-- The message that a command code stands for. -/
def kindOfCode (c : BitVec 8) : MsgKind := (listedKinds.find? fun k => k.code = c.toNat).getD (.other c)

/-- A message as a MSG unit: header bits [191:0], and the payload of its data flit, zero if that is poisoned
(R268). -/
def msgUnit (m : Msg) : List Byte :=
  let h := m.header
  unitTag 1 m.vc (m.flits = 2 && m.poisoned) ++ natToBytes 8 h.1.toNat ++ natToBytes 8 h.2.toNat
    ++ natToBytes 8 m.bmask.toNat
    ++ if m.flits = 2 then natToBytes 64 (if m.poisoned then 0 else (m.data.getD 0).toNat) else []

/-- The message that arrives in a MSG unit: its header fields and data are those of the bytes received. DEDUCED: the
operand of a TlbBcast in word 3 and what the model holds beside the header are those of the message sent, since the
link would lose them (R234, R268; log entry 142). -/
def msgOfUnit (m : Msg) (b : List Byte) : Msg :=
  let n := fun (o k : Nat) => bytesToNat ((b.drop o).take k)
  let h0 := BitVec.ofNat 64 (n 4 8)
  let h1 := BitVec.ofNat 64 (n 12 8)
  let df := bit h0 61
  let pois := bit (BitVec.ofNat 8 (n 0 1)) 7
  { m with
    dest := h0.extractLsb' 0 12, src := h0.extractLsb' 12 12, kind := kindOfCode (h0.extractLsb' 24 8)
    txid := h0.extractLsb' 32 14, tclass := h0.extractLsb' 46 4, prio := h0.extractLsb' 50 2, s := bit h0 52
    pid := h0.extractLsb' 53 8, fetch := bit h0 62, epoch := h1.extractLsb' 0 6, addr := h1.extractLsb' 16 48
    bmask := BitVec.ofNat 64 (n 20 8), poisoned := df && pois
    data := if df then some (BitVec.ofNat 512 (if pois then 0 else n 28 64)) else none
    hi := if n 0 1 / 16 % 8 ≤ 1 then n 0 1 / 16 % 8 = 1 else m.hi }

/-- A LINKCTL unit. -/
def ctlUnit (u : LinkCtl) : List Byte :=
  let cred := (u.cred.zipIdx.map fun x => x.1 % 16 * 2 ^ (4 * x.2)).sum
  unitTag 3 0 false ++ natToBytes 8 (cred % 2 ^ 24 + u.ackSeq.toNat * 2 ^ 24 + b2n u.nak * 2 ^ 36
    + u.lsw.toNat * 2 ^ 38 + u.lane.toNat * 2 ^ 42 + u.wl.toNat * 2 ^ 47)

/-- The LINKCTL that arrives in the bytes of a unit. -/
def ctlOfUnit (b : List Byte) : LinkCtl :=
  let w := BitVec.ofNat 64 (bytesToNat ((b.drop 4).take 8))
  { cred := (List.range 6).map fun c => field w (4 * c) 4
    ackSeq := w.extractLsb' 24 12, nak := bit w 36, lsw := w.extractLsb' 38 4, lane := w.extractLsb' 42 5
    wl := w.extractLsb' 47 6 }

/-- Bytes of the unit that a byte stream starts with: none while its length is not told yet. An IDLE unit, whose tag the
end of the frame may cut short, and a reserved kind with it (DESIGN CHOICE, log entry 143), stands for the rest of the frame's body. -/
def unitLength (l : List Byte) : Option Nat :=
  match l with
  | [] => none
  | t :: _ =>
    if field t 0 4 = 3 then some 12
    else if field t 0 4 = 1 then
      if l.length < 12 then none else some (if bit ((l[11]?).getD 0) 5 then 92 else 28)
    else some l.length

end Sys2Proof.Machine
end

