-- ==== Sys2Proof/Machine/Regulation.lean ====
section
/-!
DEFINITION. Bandwidth and latency regulation (R288 to R308): regulator windows, measurement windows,
and the effective guarantees of a stack.
-/

namespace Sys2Proof.Machine

/-! Windows of a regulator. -/

/-- A regulator's window starts where TB_NOW is a multiple of its length: USED is repaid, and held requests go (R291,
R292). Any other start of a 1 us period lets a regulator without budget admit its next request of class 0 (R305). -/
def execRegWindowStart (win : RegWindow) (s : State) : Out :=
  let s := s.advance win.t
  match s.regAddr win.unit with
  | none => .next s
  | some a =>
    if s.tb.toNat % 1000 ≠ 0 then .next s
    else
      let budget := s.cpField a 0 18
      let s := if s.tb.toNat % (1000 * (s.cpField a 18 10 + 1)) = 0 then
          s.cpSetField (a + 4) 0 18 (if budget = 0 then 0 else s.cpField (a + 4) 0 18 - budget)
        else s
      .next (State.admitHeld win.unit a s.regHeld s)

/-! Measurement windows (R297, R298). -/

/-- The level that a mean latency computes against a target in ns. -/
def levelOf (target mean : Nat) : Nat :=
  if target = 0 || 2 * mean < target then 0
  else if 4 * mean < 3 * target then 1
  else if 10 * mean < 9 * target then 2
  else 3

/-- The level after a window: a higher one at once, else one step down. -/
def levelNext (cur comp : Nat) : Nat := if cur < comp then comp else max comp (cur - 1)

/-- REG_LAT_t_q after a window. The mean of a window without requests is not stated: a free value. -/
def State.measured (s : State) (t : Nat) (q : Quad) (meas : List Measure) : State :=
  let a := cpAddr shepStation (0x60400 + 16 * t + 4 * q.val)
  let cur := s.cpField a 16 2
  match meas.find? fun m => m.q = q && m.cls.toNat = t with
  | some m =>
    let target := 10 * field (s.regClass t) 16 16
    s.cpSet a (BitVec.ofNat 32 (min 0xFFFF m.mean + levelNext cur (levelOf target m.mean) * 2 ^ 16
      + b2n (s.underGuarantee q t) * 2 ^ 18))
  | none =>
    let (x, s) := s.takeFree 16
    s.cpSet a (BitVec.ofNat 32 (x.toNat + levelNext cur 0 * 2 ^ 16 + b2n (s.underGuarantee q t) * 2 ^ 18))

/-- A measurement window ends (R298) and the bytes moved are counted anew (R299); what the checks of the homes found
in it takes effect (R158, R179). -/
def execMeasWindowEnd (t : Word) (win : HomeWindow) (s : State) : Out :=
  .next ((List.finRange 4).foldl (fun s q =>
    ((List.range 16).foldl (fun s t => s.measured t q win.meas) s).modHome q fun h => { h with moved := [] })
    (win.found.foldl State.homeErr (s.advance t)))

/-! Guarantees (R300 to R304). -/

/-- Condition of a stack and its deliverable bandwidth in 0.1 GB/s (Table REG-3). -/
def State.deliverable (s : State) (q : Quad) : Nat × Nat :=
  if (s.mc q).cmdSr then (3, 0)
  else if s.cpField (mcAddr q 4) 1 1 = 1 then (2, 460)
  else if s.cpField (mcAddr q 4) 0 1 = 1 then (1, 3778)
  else (0, 4055)

/-- A class on a stack: number, rank, critical, committed guarantee. -/
structure ClassG where
  t    : Nat
  rank : Nat
  crit : Bool
  g    : Nat

/-- The class table of a stack, from the registers a function reads. -/
def classesOn (rd : Nat → Word32) (q : Nat) : List ClassG :=
  (List.range 16).map fun t =>
    let c := rd (cpAddr shepStation (0x60100 + 4 * t))
    ⟨t, field c 0 4, bit c 4, field (rd (cpAddr shepStation (0x60200 + 16 * t + 4 * q))) 0 12⟩

/-- Total of guarantees. -/
def totalG (l : List ClassG) : Nat := (l.map (·.g)).sum

/-- Non-critical guarantees reduced in ascending rank until `excess` is taken off (R302 step 1). -/
def reduceRank (excess : Nat) : Nat → List ClassG → List ClassG
  | 0, l => l
  | n + 1, l =>
    let rank := 15 - n
    let l' := l.map fun c =>
      if !c.crit && c.rank = rank then { c with g := c.g - excess } else c
    reduceRank (excess - (totalG l - totalG l')) n l'

/-- Effective guarantees for a deliverable `d`, and whether critical classes were cut (R302). Several
classes of one rank have at most one nonzero guarantee (R301). -/
def effective (d : Nat) (l : List ClassG) : List ClassG × Bool :=
  let l' := reduceRank (totalG l - d) 16 l
  let c := totalG (l'.filter (·.crit))
  if totalG l' ≤ d then (l', false)
  else (l'.map fun x => if x.crit then { x with g := x.g * d / c } else x, true)

/-- The 48 data bytes of a guarantee event (Table CMD-7). -/
def guarData (l e : List ClassG) : List Byte :=
  (l.zip e).flatMap fun x => natToBytes 3 (x.1.g + x.2.g * 2 ^ 12)

/-- The effective guarantees of a stack are recomputed (R302 to R304); the events follow where its deliverable has
changed, or at a commit. -/
def State.guarantee (commit : Bool) (s : State) (q : Quad) : State :=
  let (cond, d) := s.deliverable q
  let da := cpAddr shepStation (0x60010 + 4 * q.val)
  let sh := cpAddr shepStation 0x60020
  let old := s.cpField da 0 12
  let l := classesOn s.cpGet q.val
  let (e, cut) := effective d l
  let s := s.cpSet da (BitVec.ofNat 32 (d + cond * 2 ^ 12))
  let s := e.foldl (fun s c => s.cpSet (cpAddr shepStation (0x60300 + 16 * c.t + 4 * q.val))
    (BitVec.ofNat 32 c.g)) s
  let short := (l.zip e).any fun x => x.1.g ≠ x.2.g
  let wasShort := s.cpField sh q.val 1 = 1
  let s := s.cpSetField sh q.val 1 (b2n short)
  let s := s.cpSetField sh (4 + q.val) 1 (b2n (cut && cond ≠ 3))
  let ev : EventRec := { code := 1, subj := BitVec.ofNat 8 (q.val + cond * 2 ^ 4),
                         arg := BitVec.ofNat 32 d, data := guarData l e }
  if !commit && old = d then s
  else
    let s := if short then s.eventBoth ev else s
    let s := if old < d && wasShort then s.eventBoth { ev with code := 2 } else s
    if cut && cond ≠ 3 then s.report shepStation 0x39 shepStation.toNat q.val else s

/-- The effective guarantees of every stack. -/
def State.guarantees (s : State) : State := (List.finRange 4).foldl (State.guarantee false) s

/-- The Shepherd recomputes the effective guarantees after a change of a deliverable (R302). -/
def execGuaranteeRecompute (s : State) : Out := .next s.guarantees

end Sys2Proof.Machine
end

