-- ==== Sys2Proof/Machine/Prism.lean ====
section
/-!
DEFINITION. Prism links and the Ezzil Die Link protocol (R258 to R287): lasers, frames and retry,
error windows, swaps, narrow operation and bring-up.
-/

namespace Sys2Proof.Machine

/-! Lasers (R261 to R264). -/

/-- Control-plane address of a laser register. -/
def lsrAddr (off : Nat) : Nat := cpAddr shepStation (0x40000 + off)

/-- The laser that feeds the trees. -/
def State.feeding (s : State) : Nat := s.cpField (lsrAddr 0) 0 1

/-- Whether a laser is powered: not retired and its domain on. -/
def State.laserOn (s : State) (l : Nat) : Bool := s.cpField (lsrAddr 0) (1 + l) 1 = 1

/-- Whether a laser is lit with its monitors compared (R262). -/
def State.laserLit (s : State) (l : Nat) : Bool :=
  s.laserOn l && (l = s.feeding || (s.cpField (lsrAddr 4) 0 1 = 1 && !s.laserWait))

/-- Whether a laser is held unlit, with WEAK and FAIL bits that read 0 (R262). -/
def State.heldUnlit (s : State) (l : Nat) : Bool :=
  s.laserOn l && l ≠ s.feeding && s.cpField (lsrAddr 4) 0 1 = 0

/-- The 36 WEAK or FAIL bits that a laser's monitors have set; `off` is 0x10 or 0x18. -/
def State.lineBits (s : State) (l off : Nat) : BitVec 36 :=
  BitVec.ofNat 36 ((s.cpGet (lsrAddr (off + 0x10 * l))).toNat
    + (s.cpGet (lsrAddr (off + 4 + 0x10 * l))).toNat * 2 ^ 32)

/-- The WEAK or FAIL bits of a laser as they are compared. -/
def State.laserBits (s : State) (l off : Nat) : BitVec 36 :=
  if s.laserLit l then s.lineBits l off else 0

/-- WEAK or FAIL bits set. -/
def State.setLaserBits (s : State) (l off : Nat) (m : BitVec 36) : State :=
  (s.cpSet (lsrAddr (off + 0x10 * l)) (m.truncate 32)).cpSet (lsrAddr (off + 4 + 0x10 * l))
    ((m.extractLsb' 32 4).zeroExtend 32)

/-- Whether a line is lost at the laser that feeds the trees, which darkens its wavelength at every transmitting end
(R264). -/
def State.lineDark (s : State) (w : Nat) : Bool := bit (s.lineBits s.feeding 0x18) w

/-- Whether a line is in FAIL on both lasers, and its wavelength dark for good (R264). -/
def State.lineDead (s : State) (w : Nat) : Bool := bit (s.lineBits 0 0x18) w && bit (s.lineBits 1 0x18) w

/-! Ports. -/

/-- Station of a port. -/
def portStation (p : PortId) : Station :=
  if p.hub then hubPortStation p.die.val else diePortStation p.die

/-- Control-plane address of a port's register. -/
def portAddr (p : PortId) (off : Nat) : Nat := cpAddr (portStation p) off

/-- Key of a port. -/
def portKey (p : PortId) : Nat := 2 * p.die.val + b2n p.hub

/-- The other end of a link. -/
def peerOf (p : PortId) : PortId := { p with hub := !p.hub }

/-- A port. -/
def State.port (s : State) (p : PortId) : Port := SMap.get {} s.ports (portKey p)

/-- A port changed. -/
def State.modPort (s : State) (p : PortId) (f : Port → Port) : State :=
  { s with ports := SMap.set {} s.ports (portKey p) (f (s.port p)) }

/-- PRISM_STATUS.STATE of a port. -/
def State.portState (s : State) (p : PortId) : Nat := s.cpField (portAddr p 0) 0 3

/-- PRISM_STATUS.STATE replaced. -/
def State.setPortState (s : State) (p : PortId) (x : Nat) : State :=
  s.cpSetField (portAddr p 0) 0 3 x

/-- Whether a link runs. -/
def State.portUp (s : State) (p : PortId) : Bool := s.portState p = 3 || s.portState p = 4

/-- PRISM_STATUS.RETRY_WAIT of a port. -/
def State.retryWait (s : State) (p : PortId) : Bool := s.cpField (portAddr p 0) 3 1 = 1

/-- Whether wide operation is negotiated (R283). -/
def State.negWide (s : State) (p : PortId) : Bool := s.cpField (portAddr p 4) 10 1 = 1

/-- State of a wavelength in the receive direction: 0 spare, 1 active, 2 failed, 3 dark. -/
def State.wlState (s : State) (p : PortId) (w : Nat) : Nat :=
  s.cpField (portAddr p (0x0C0 + 4 * (w / 16))) (2 * (w % 16)) 2

/-- State of a wavelength replaced; SPARES_LEFT follows. -/
def State.setWl (s : State) (p : PortId) (w x : Nat) : State :=
  let s := s.cpSetField (portAddr p (0x0C0 + 4 * (w / 16))) (2 * (w % 16)) 2 x
  s.cpSetField (portAddr p 0) 8 3 ((List.range 36).filter fun w => s.wlState p w = 0).length

/-- Wavelength of a receive lane. -/
def State.rxMap (s : State) (p : PortId) (j : Nat) : Nat := s.cpField (portAddr p (0x040 + 4 * j)) 0 6

/-- Wavelength of a transmit lane. -/
def State.txMap (s : State) (p : PortId) (j : Nat) : Nat := s.cpField (portAddr p (0x280 + 4 * j)) 0 6

/-- Logical lanes of the direction that a port receives. -/
def State.lanes (s : State) (p : PortId) : Nat :=
  if (s.port p).narrow || !s.negWide p then 16 else 32

/-- Whether a wavelength may serve as a spare. In narrow operation a dark one counts, but in a return to wide only
where no lane needs it again (R280, log entry 144); a line in FAIL on both lasers never serves (R264). -/
def State.isSpare (s : State) (p : PortId) (w : Nat) : Bool :=
  !s.lineDead w && (s.wlState p w = 0 || (s.lanes p = 16 && s.wlState p w = 3 &&
    ((s.port p).change.isNone || (List.range 16).all fun i => s.rxMap p (16 + i) ≠ w)))

/-- The spare that a swap takes: by PRISM_SPARE_ORDER, else the lowest (R275). -/
def State.pickSpare (s : State) (p : PortId) : Option Nat :=
  let order := (List.range 4).map fun i => s.cpField (portAddr p 0x0D0) (8 * i) 6
  match order.find? fun w => w < 36 && s.isSpare p w with
  | some w => some w
  | none => (List.range 36).find? fun w => s.isSpare p w

/-- A LINKCTL unit waits to be sent by a port. -/
def State.sendCtl (s : State) (p : PortId) (u : LinkCtl) : State :=
  s.modPort p fun x => { x with out := x.out ++ [u] }

/-- PRISM_EVENT of a die, for its own port (Table INT-1). -/
def State.prismEvent (s : State) (p : PortId) : State :=
  if p.hub then s else s.assertDie p.die 34

/-! Loss (R278). -/

/-- A direction is lost beyond its spares: the port enters LOST and reports it, and with no frames its peer does
(DEDUCED, log entry 144); coherent domain stop follows from the report. -/
def State.linkLost (s : State) (p : PortId) : State :=
  if s.portUp p then
    ((s.setPortState p 5).setPortState (peerOf p) 5).report (portStation p) 0x22 (diePortStation p.die).toNat
  else s

/-! Swaps (R275 to R277). -/

/-- SWAPPING at both ends. -/
def State.swapping (s : State) (p : PortId) (b : Bool) : State :=
  (s.cpSetField (portAddr p 0) 4 1 (b2n b)).cpSetField (portAddr (peerOf p) 0) 4 1 (b2n b)

/-- A swap begins (Table PRISM-5 step 1). Without a spare a staged swap is refused and reported, and a lane that is
down loses the link, but not a link that a failed widening left narrow (R280). -/
def State.beginLaneSwap (s : State) (p : PortId) (lane : Nat) (down : Bool) : State :=
  match s.pickSpare p with
  | none =>
    if down && !(s.port p).stuck then s.linkLost p
    else s.report (portStation p) 0x21 (portStation p).toNat lane
  | some w =>
    ((s.modPort p fun x => { x with swap := some { lane := lane, spare := w, down := down } }).swapping p true).sendCtl
      p { lsw := 1, lane := BitVec.ofNat 5 lane, wl := BitVec.ofNat 6 w }

/-- A swap is asked for at a receiving port: it waits behind a swap or a change under way; of a lane that is not
active it does nothing, and is reported if it was staged (R277). -/
def State.startSwap (s : State) (p : PortId) (lane : Nat) (down : Bool) : State :=
  let x := s.port p
  if x.swap.isSome || x.change.isSome then
    s.modPort p fun x => { x with waitSwap := x.waitSwap ++ [(lane, down)] }
  else if !s.portUp p || s.lanes p ≤ lane then
    if down then s else s.report (portStation p) 0x21 (portStation p).toNat lane
  else s.beginLaneSwap p lane down

/-- The first of the waiting swaps in lane order. -/
def lowestSwap (l : List (Nat × Bool)) : Option (Nat × Bool) :=
  l.foldl (fun (m : Option (Nat × Bool)) x => match m with
    | none => some x
    | some y => if x.1 < y.1 then some x else m) none

/-- Waiting swaps are taken up in ascending lane order until one runs; at most `n` of them. -/
def State.takeSwaps : Nat → State → PortId → State
  | 0, s, _ => s
  | n + 1, s, p => match lowestSwap (s.port p).waitSwap with
    | none => s
    | some x =>
      let s := (s.modPort p fun y => { y with waitSwap := y.waitSwap.erase x }).startSwap p x.1 x.2
      if (s.port p).swap.isSome then s else State.takeSwaps n s p

/-- The next waiting swap of a port. -/
def State.nextSwap (s : State) (p : PortId) : State := State.takeSwaps (s.port p).waitSwap.length s p

/-! Narrow and wide (R279, R280). -/

/-- The lowest of lanes 16 to 31 that needs another wavelength before the direction is wide: its own has failed, or a
lower lane has it. -/
def State.badLane (s : State) (p : PortId) : Option Nat :=
  ((List.range 16).map (16 + ·)).find? fun j =>
    s.wlState p (s.rxMap p j) = 2 || (List.range j).any fun i => s.rxMap p i = s.rxMap p j

/-- The swap that a return to wide needs next. -/
def State.widenNext (s : State) (p : PortId) : State :=
  match s.badLane p with
  | some j => s.beginLaneSwap p j false
  | none => s

/-- READY with LANE 31 once every one of lanes 16 to 31 is locked (R279 step 2). -/
def State.readyWide (s : State) (p : PortId) : State :=
  if (s.port p).change = some false && (s.badLane p).isNone &&
      (List.range 16).all fun i => (s.port p).locks.contains (s.rxMap p (16 + i)) then
    s.sendCtl p { lsw := 2, lane := 31 }
  else s

/-- Good wavelengths of the direction that a port receives. -/
def State.goodCount (s : State) (p : PortId) : Nat :=
  ((List.range 36).filter fun w => s.wlState p w ≠ 2 && !s.lineDead w).length

/-- A narrow or wide change of a link begins (R279). A return to wide without enough good wavelengths is reported, in
the class of a refused swap (DESIGN CHOICE, log entry 51), and leaves the link narrow (R280). -/
def State.beginChange (s : State) (d : Die) (b : Bool) : State :=
  let hub : PortId := ⟨d, true⟩
  let die : PortId := ⟨d, false⟩
  let both := fun (f : Port → Port) (s : State) => (s.modPort hub f).modPort die f
  let s := s.modPort hub fun x => { x with want := none }
  if (s.port hub).narrow = b then both (fun x => { x with stuck := false }) s
  else if b then (both (fun x => { x with change := some true }) s).sendCtl hub { lsw := 4 }
  else
    let short := [hub, die].filter fun p => s.goodCount p < 32
    if short.isEmpty then
      ((both (fun x => { x with change := some false, prbs := true, locks := [] }) s).widenNext hub).widenNext die
    else
      short.foldl (fun s p => s.report (portStation p) 0x21 (portStation p).toNat)
        (both (fun x => { x with stuck := true }) s)

/-- Whether neither direction of a link runs a swap or a change. -/
def State.linkIdle (s : State) (d : Die) : Bool :=
  [(⟨d, true⟩ : PortId), ⟨d, false⟩].all fun p =>
    (s.port p).swap.isNone && (s.port p).change.isNone && s.portUp p

/-- Whatever waited for a swap or a change goes on: a change first (log entry 144), then the waiting swaps. -/
def State.settleLink (s : State) (d : Die) : State :=
  let s := if s.linkIdle d then match (s.port ⟨d, true⟩).want with
      | some b => s.beginChange d b
      | none => s
    else s
  let go := fun (s : State) (p : PortId) =>
    if (s.port p).swap.isNone && (s.port p).change.isNone then s.nextSwap p else s
  go (go s ⟨d, true⟩) ⟨d, false⟩

/-- PRISM_CTL.NARROW of a hub port is written (R279); a link of 20 wavelengths ignores it (R283). -/
def State.setNarrow (s : State) (d : Die) (b : Bool) : State :=
  let p : PortId := ⟨d, true⟩
  let s := s.cpSetField (portAddr p 0x00C) 0 1 (b2n b)
  if s.negWide p && s.portUp p then (s.modPort p fun x => { x with want := some b }).settleLink d else s

/-- A write of PRISM_CTL.NARROW. -/
def execNarrow (die : Die) (on : Bool) (s : State) : Out := .next (s.setNarrow die on)

/-- The receiver reads a lane from its spare (Table PRISM-5 step 5). A wavelength that another active lane has taken
over stays active. -/
def State.swapDone (s : State) (p : PortId) (w : Swap) : State :=
  let old := s.rxMap p w.lane
  let s := s.cpSet (portAddr p (0x040 + 4 * w.lane)) (BitVec.ofNat 32 w.spare)
  let s := s.setWl p w.spare 1
  let s := if (List.range (s.lanes p)).any fun i => s.rxMap p i = old then s else s.setWl p old 2
  let la := portAddr p 0x0D8
  let n := satAdd 0xFF (s.cpField la 24 8) 1
  let s := s.cpSet la (BitVec.ofNat 32 (w.lane + old * 2 ^ 5 + w.spare * 2 ^ 11 + b2n w.down * 2 ^ 17
    + n * 2 ^ 24))
  let s := ((s.modPort p fun x => { x with swap := none, locks := x.locks ++ [w.spare] }).swapping p false).prismEvent p
  let mend := fun (r : FaultRec) => if r.cls = 0x20 && r.source.toNat = (portStation p).toNat
      && r.loc.toNat = old then { r with repaired := true } else r
  let s := { s with shep := { s.shep with log := s.shep.log.map mend } }
  let s := s.event true { code := 0x0070, arg := s.cpGet la }
  if (s.port p).change.isSome then (s.widenNext p).readyWide p else s.settleLink p.die

/-! Error windows (R272 to R274, R422). -/

/-- One errored bit charged to a wavelength: a full window advances EVENTS and is reported; the third
within one window length takes the lane down. -/
def State.charge (s : State) (p : PortId) (w : Nat) : State :=
  let a := portAddr p (0x180 + 4 * w)
  let cfg := s.cpGet (portAddr p 0x100)
  let t := field cfg 16 16 * 1000000
  let now := s.tb
  let start := SMap.get 0 (s.port p).berStart w
  let fresh := s.cpField a 0 16 = 0 || t ≤ (now - start).toNat
  let s := if fresh then s.modPort p fun x => { x with berStart := SMap.set 0 x.berStart w now } else s
  let bits := (if fresh then 0 else s.cpField a 0 16) + 1
  if bits < field cfg 0 16 then s.cpSetField a 0 16 bits
  else
    let s := ((s.cpSetField a 0 16 0).countAt a 16 8 1).cpSetField a 24 1 1
    let s := (s.report (portStation p) 0x20 (portStation p).toNat w).prismEvent p
    let fs := (SMap.get [] (s.port p).fills w).filter (fun f => (now - f).toNat < t) ++ [now]
    let s := s.modPort p fun x => { x with fills := SMap.set [] x.fills w fs }
    if 3 ≤ fs.length then
      match (List.range (s.lanes p)).find? fun j => s.rxMap p j = w with
      | some j => s.startSwap p j true
      | none => s
    else s

/-- Each bit in which a good frame differs from the kept copy of the failed one is charged to the wavelength that
carried it there (R272). -/
def State.chargeKept (s : State) (p : PortId) (k : KeptFrame) (good : BitVec 512) : State :=
  (List.range 512).foldl (fun s i =>
    if bit (k.bits ^^^ good) i then s.charge p ((k.wls[laneOfBit k.wide i]?).getD 0) else s) s

/-! Frames sent (R266 to R271). -/

/-- A unit ends in the frame that a port is sending. A LINKCTL unit with SWITCH names that frame; one with NARROW or
WIDE changes the width from the next. -/
def State.unitSent (s : State) (t : PortId) : State :=
  s.modPort t fun x =>
    let x := match x.cur with
      | some u =>
        if u.lsw = 3 then { x with dup := x.dup.map fun (d : Dup) => { d with last := some x.txSeq } }
        else if u.lsw = 4 then { x with txNarrow := true }
        else if u.lsw = 5 then { x with txNarrow := false, prbs := false }
        else x
      | none => x
    { x with cur := none }

/-- The message that a port sends next: the first on its channel of those that have this link to pass, with credits
for its flits (R236, R269). -/
def State.sendable (s : State) (t : PortId) : Option Msg :=
  let x := s.port t
  let mine := s.net.filter fun m => m.cross.head? == some (peerOf t) && !x.flight.contains m
  mine.find? fun m => m.flits ≤ (x.credits[m.vc]?).getD 0 && (mine.find? fun y => y.vc == m.vc) == some m

/-- The next unit of a port: a LINKCTL unit with the current ACK_SEQ, else a message, whose flits are checked; a
message whose header is lost gives no byte; none where the rest of the frame is idle. -/
def State.nextUnit (s : State) (t : PortId) (checks : List FlitCheck) :
    Option (List Byte) × List FlitCheck × State :=
  let x := s.port t
  match x.out with
  | u :: rest =>
    let u := { u with ackSeq := BitVec.ofNat 12 (x.rxSeq + 4095) }
    (some (ctlUnit u), checks, s.modPort t fun x => { x with out := rest, cur := some u })
  | [] => match s.sendable t with
    | none => (none, checks, s)
    | some m => match State.checkFlits (checks.filter fun c => c.st = portStation t) m s with
      | (none, s) => (some [], [], { s with net := s.net.erase m })
      | (some m', s) =>
        let s := { s with net := s.net.replace m m' }
        (some (msgUnit m'), [], s.modPort t fun x =>
          { x with flight := x.flight ++ [m'], credits := x.credits.modify m'.vc (· - m'.flits) })

/-- The body of a frame filled from the byte stream of units, in at most `n` pieces. -/
def State.fillBody (t : PortId) : Nat → List Byte → List FlitCheck → State → List Byte × State
  | 0, b, _, s => (b, s)
  | n + 1, b, checks, s =>
    let room := 60 - b.length
    let x := s.port t
    if room = 0 then (b, s)
    else if x.stream.isEmpty then
      match s.nextUnit t checks with
      | (none, _, s) => (b ++ List.replicate room 0, s)
      | (some u, checks, s) => State.fillBody t n b checks (s.modPort t fun x => { x with stream := u })
    else
      let s' := s.modPort t fun x => { x with stream := x.stream.drop room }
      State.fillBody t n (b ++ x.stream.take room) checks (if x.stream.length ≤ room then s'.unitSent t else s')

/-- A new frame of a port, which enters the retry buffer; none while that is full (R270). -/
def State.newFrame (s : State) (t : PortId) (checks : List FlitCheck) : Option (TxFrame × State) :=
  let x := s.port t
  if 256 ≤ x.buf.length then none
  else
    let (body, s) := State.fillBody t 32 [] checks s
    let fr : TxFrame := { seq := x.txSeq, body := body, wide := !x.txNarrow && s.negWide t }
    some (fr, s.modPort t fun x => { x with txSeq := (x.txSeq + 1) % 4096, buf := x.buf ++ [fr] })

/-- The frame that a port sends next: those to be replayed come first, in order, and are counted (R271). -/
def State.nextFrame (s : State) (t : PortId) (checks : List FlitCheck) : Option (TxFrame × State) :=
  let x := s.port t
  match x.buf.find? fun f => x.replay.head? == some f.seq with
  | some f =>
    let f' := { f with replays := f.replays + 1 }
    let s := s.modPort t fun x => { x with replay := x.replay.drop 1, buf := x.buf.replace f f' }
    some (f', (s.countAt (portAddr t 0x110) 0 24 1).cpSetField (portAddr t 0x110) 24 1 1)
  | none => s.newFrame t checks

/-! Frames received (R259, R264 to R272). -/

/-- The logical lane that a port drives on a wavelength: the one mapped to it, or the copy of a swap. -/
def State.drivenLane (s : State) (t : PortId) (wide : Bool) (w : Nat) : Option Nat :=
  match (List.range (if wide then 32 else 16)).find? fun j => s.txMap t j = w with
  | some j => some j
  | none => match (s.port t).dup with
    | some d => if d.wl = w then some d.lane else none
    | none => none

/-- The wavelength from which a port reads a lane. DEDUCED (log entry 144): where the lane is down the receiver reads
the spare once it has locked on it, since no SWITCH could arrive otherwise. -/
def State.readWl (s : State) (p : PortId) (j : Nat) : Nat :=
  match (s.port p).swap with
  | some w => if w.lane = j && w.down && w.locked then w.spare else s.rxMap p j
  | none => s.rxMap p j

/-- The level that arrives at a port on wavelength `w` as symbol `k` of a frame: as driven, none where the line is
dark, or as it was hit on its way. -/
def State.arrivingLevel (s : State) (p : PortId) (fr : TxFrame) (hits : List (Fin 36 × Fin 16 × Fin 4))
    (w k : Nat) : Fin 4 :=
  match hits.find? fun h => h.1.val = w && h.2.1.val = k with
  | some h => h.2.2
  | none =>
    if s.lineDark w then 0
    else match s.drivenLane (peerOf p) fr.wide w with
      | some j => ((laneLevels fr.wide (edlFrame fr.seq fr.body) j)[k]?).getD 0
      | none => 0

/-- The bits of a frame as a port reads them. -/
def State.readFrame (s : State) (p : PortId) (fr : TxFrame) (hits : List (Fin 36 × Fin 16 × Fin 4)) : BitVec 512 :=
  let n := s.lanes p
  frameOfLanes ((List.range n).map fun j =>
    (List.range (if n = 32 then 8 else 16)).map fun k => s.arrivingLevel p fr hits (s.readWl p j) k)

/-- Whether a message is a request that the negotiated class set shuts out at a hub port (R283). -/
def State.classRefused (s : State) (p : PortId) (m : Msg) : Bool :=
  p.hub && chargedKind m.kind && m.kind != .evict && m.kind != .writeBack &&
    s.cpField (portAddr p 4) (16 + m.tclass.toNat) 1 = 0

/-- A message has passed a link: the receiving port returns the credits of its flits; the message goes on over the
fabric, or is refused by its class. `m` is the message as it was sent. -/
def State.linkDeliver (s : State) (p : PortId) (m m' : Msg) : State :=
  let s := s.sendCtl p { cred := (List.range 6).map fun c => if c = m.vc then m.flits else 0 }
  if s.classRefused p m' then
    (({ s with net := s.net.erase m } : State).countAt (portAddr p 0) 16 16 1).proxy m'
  else { s with net := s.net.replace m { m' with cross := m.cross.drop 1 } }

/-- A whole unit has arrived at a port (R267). -/
def State.unitArrived (s : State) (p : PortId) (u : List Byte) : State :=
  let kind := field ((u[0]?).getD 0) 0 4
  if kind = 3 then
    let c := ctlOfUnit u
    s.modPort p fun x => { x with ctl := x.ctl ++ [c], sigs := if c.lsw = 0 then x.sigs else x.sigs ++ [c] }
  else if kind = 1 then
    match (s.port (peerOf p)).flight with
    | m :: rest => (s.modPort (peerOf p) fun y => { y with flight := rest }).linkDeliver p m (msgOfUnit m u)
    | [] => s
  else s

/-- The whole units of what has arrived, in order, at most `n`. -/
def State.takeUnits : Nat → State → PortId → State
  | 0, s, _ => s
  | n + 1, s, p =>
    let rx := (s.port p).rx
    match unitLength rx with
    | none => s
    | some k =>
      if rx.length < k then s
      else State.takeUnits n ((s.modPort p fun x => { x with rx := x.rx.drop k }).unitArrived p (rx.take k)) p

/-- A frame fails its CRC: its bits are kept and a NAK is sent; in retry-wait it replaces the kept copy only if it is
that frame again (DEDUCED, log entry 145). -/
def State.linkBad (s : State) (p : PortId) (fr : TxFrame) (bits : BitVec 512) : State :=
  let k : KeptFrame := { bits := bits, wls := (List.range (s.lanes p)).map (s.readWl p), wide := s.lanes p = 32 }
  if s.retryWait p then
    if fr.seq = (s.port p).rxSeq then s.modPort p fun x => { x with kept := some k } else s
  else
    ((s.cpSetField (portAddr p 0) 3 1 1).modPort p fun x => { x with kept := some k }).sendCtl p { nak := true }

/-- A frame passes its CRC in sequence: the errors of a kept copy are charged, every 32nd good frame is
acknowledged, and the units that are whole are delivered. -/
def State.linkGood (s : State) (p : PortId) (bits : BitVec 512) : State :=
  let s := if s.retryWait p then
      match (s.port p).kept with
      | some k => s.chargeKept p k bits
      | none => s
    else s
  let n := (s.port p).since + 1
  let s := (s.cpSetField (portAddr p 0) 3 1 0).modPort p fun x => { x with
    rxSeq := (x.rxSeq + 1) % 4096, kept := none, since := if n = 32 then 0 else n, rx := x.rx ++ edlBody bits }
  let s := if n = 32 then s.sendCtl p {} else s
  State.takeUnits 16 s p

/-- Whether the width or a lane of the direction that a port receives changes before its next frame. -/
def State.changePending (s : State) (p : PortId) : Bool := (s.port p).sigs.any fun u => 3 ≤ u.lsw.toNat

/-- A receiver checks the next frame of its peer (R265 to R272). A lane signal that changes what it reads comes first.
DEDUCED (log entry 146): the frame is sent as it is received. -/
def execFrameReceive (port : PortId) (f : EdlFrame) (s : State) : Out :=
  if !s.portUp port || !s.portUp (peerOf port) || s.changePending port then .next s
  else match s.nextFrame (peerOf port) f.checks with
    | none => .next s
    | some (fr, s) =>
      let bits := s.readFrame port fr f.hits
      .next (if edlGood (s.port port).rxSeq bits then s.linkGood port bits else s.linkBad port fr bits)

/-- 1 us has passed since a NAK without a good frame: it is sent again (R271). -/
def execNakRepeat (port : PortId) (s : State) : Out :=
  .next (if s.portUp port && s.retryWait port then s.sendCtl port { nak := true } else s)

/-- Frames of a retry buffer that an ACK_SEQ does not cover. -/
def afterAck (ack : Nat) (l : List TxFrame) : List TxFrame :=
  if l.any (·.seq = ack) then (l.dropWhile (·.seq ≠ ack)).drop 1 else l

/-- A LINKCTL unit that has arrived acts on the transmitter (R269 to R271, R276): credits come back; frames are
acknowledged, and with the frame of a SWITCH the old wavelength is driven no longer; a NAK has the rest replayed. -/
def Port.ctlTaken (x : Port) (w : LinkCtl) : Port :=
  let buf := afterAck w.ackSeq.toNat x.buf
  let held := fun (q : Nat) => buf.any (·.seq = q)
  { x with
    ctl := x.ctl.erase w
    credits := (List.range 6).map fun c => min 4 ((x.credits[c]?).getD 0 + (w.cred[c]?).getD 0)
    buf := buf
    replay := if w.nak then buf.map (·.seq) else x.replay.filter held
    dup := x.dup.filter fun d => match d.last with
      | some q => !d.moved || held q
      | none => true }

/-- A LINKCTL unit reaches a transmitter. A frame replayed 16 times for which another replay is asked loses the link
(R278), unless a failed widening left the link narrow (R280). -/
def execLinkctl (port : PortId) (w : LinkCtl) (s : State) : Out :=
  if !s.portUp port || !(s.port port).ctl.contains w then .next s
  else
    let s := s.modPort port (·.ctlTaken w)
    let x := s.port port
    .next (if w.nak && !x.stuck && x.buf.any (16 ≤ ·.replays) then s.linkLost port else s)

/-! Lane signals (R276, R279, R280). -/

/-- The lane signal of kind `k` that has arrived for a lane. -/
def Port.signal (x : Port) (k : BitVec 4) (w : LaneWord) : Option LinkCtl :=
  x.sigs.find? fun u => u.lsw = k && (3 < k.toNat || u.lane.toNat = w.lane.val) && (k ≠ 1 || u.wl.toNat = w.wl.val)

/-- A lane signal that has arrived is acted on. -/
def State.onSignal (s : State) (p : PortId) (k : BitVec 4) (w : LaneWord) (f : State → State) : Out :=
  match (s.port p).signal k w with
  | some u =>
    if s.portUp p then .next (f (s.modPort p fun x => { x with sigs := x.sigs.erase u })) else .next s
  | none => .next s

/-- DUP_REQ reaches the transmitter: it drives the spare as well (step 2). -/
def execLswDupReq (port : PortId) (w : LaneWord) (s : State) : Out :=
  s.onSignal port 1 w fun s => s.modPort port fun x => { x with dup := some { lane := w.lane.val, wl := w.wl.val } }

/-- The receiver locks on a wavelength: on the spare of its swap, which the transmitter drives, and sends READY (Table
PRISM-5 step 3); or on one that lanes 16 to 31 light up again (R279 step 2). -/
def execLaneLock (port : PortId) (wl : Fin 36) (s : State) : Out :=
  let x := s.port port
  let y := s.port (peerOf port)
  let v := wl.val
  .next (match x.swap.filter fun w => w.spare = v && !w.locked && y.dup.any (fun d => d.lane = w.lane && d.wl = v) with
  | some w =>
    (s.modPort port fun x => { x with swap := some { w with locked := true } }).sendCtl port
      { lsw := 2, lane := BitVec.ofNat 5 w.lane }
  | none =>
    if x.change = some false && y.prbs && !x.locks.contains v &&
        (List.range 16).any fun i => s.rxMap port (16 + i) = v then
      (s.modPort port fun x => { x with locks := x.locks ++ [v] }).readyWide port
    else s)

/-- READY reaches the transmitter: the lane moves to the spare, the old wavelength is still driven, and SWITCH is sent
(step 4); or, in a return to wide, every lane is locked and WIDE is sent. -/
def execLswReady (port : PortId) (w : LaneWord) (s : State) : Out :=
  s.onSignal port 2 w fun s =>
    let j := w.lane.val
    match (s.port port).dup.filter fun d => d.lane = j && !d.moved with
    | some d =>
      let old := s.txMap port j
      let s := s.cpSet (portAddr port (0x280 + 4 * j)) (BitVec.ofNat 32 d.wl)
      ((s.modPort port fun x => { x with dup := some { d with wl := old, moved := true } }).sendCtl port
        { lsw := 3, lane := BitVec.ofNat 5 j }).prismEvent port
    | none => if (s.port port).prbs && j = 31 then s.sendCtl port { lsw := 5 } else s

/-- SWITCH reaches the receiver (step 5). -/
def execLswSwitch (port : PortId) (w : LaneWord) (s : State) : Out :=
  s.onSignal port 3 w fun s => match (s.port port).swap.filter fun x => x.lane = w.lane.val && x.locked with
    | some x => s.swapDone port x
    | none => s

/-- The wavelength of a lane goes dark. -/
def State.darkLane (s : State) (p : PortId) (j : Nat) : State :=
  if s.wlState p (s.rxMap p j) = 1 then s.setWl p (s.rxMap p j) 3 else s

/-- The direction that a port receives goes narrow: lanes 16 to 31 become dark. -/
def State.rxNarrow (s : State) (p : PortId) : State :=
  (((List.range 16).foldl (fun s i => s.darkLane p (16 + i)) s).modPort p fun x =>
    { x with narrow := true, change := none }).setPortState p 4

/-- NARROW reaches a receiver: its direction is narrow from the next frame; a die does the same in its own (R279). -/
def execLswNarrow (port : PortId) (w : LaneWord) (s : State) : Out :=
  s.onSignal port 4 w fun s =>
    if (s.port port).narrow || !s.negWide port then s
    else
      let s := s.rxNarrow port
      (if port.hub then s else s.sendCtl port { lsw := 4 }).settleLink port.die

/-- The direction that a port receives is wide again: lanes 16 to 31 are active. -/
def State.rxWide (s : State) (p : PortId) : State :=
  let s := (List.range 16).foldl (fun s i => s.setWl p (s.rxMap p (16 + i)) 1) s
  (s.modPort p fun x => { x with narrow := false, change := none, locks := [], stuck := false }).setPortState p 3

/-- WIDE reaches a receiver: its direction is wide from the next frame (R279 step 3). -/
def execLswWide (port : PortId) (w : LaneWord) (s : State) : Out :=
  s.onSignal port 5 w fun s =>
    if (s.port port).change = some false then (s.rxWide port).settleLink port.die else s

/-- A receiver declares the wavelength of a lane down (R274, R275). -/
def execLaneDown (port : PortId) (lane : Fin 32) (_cause : BitVec 3) (s : State) : Out :=
  if s.portUp port then .next (s.startSwap port lane.val true) else .next s

/-- ACK_SEQ has not advanced for 10 us while the retry buffer holds a frame: the direction is lost (R278), unless a
failed widening left the link narrow (R280). -/
def execLinkLost (port : PortId) (s : State) : Out :=
  .next (if (s.port port).buf.isEmpty || (s.port port).stuck then s else s.linkLost port)

/-! Bring-up (R281 to R284). -/

/-- A sideband word is sent. -/
def State.sbSend (s : State) (w : SbWord) : State :=
  { s with sideband := s.sideband ++ [w]
           sbLast := SMap.set none s.sbLast (2 * w.die.val + b2n w.toHub) (some w) }

/-- The odd parity bit of a sideband word, over TYPE and DATA (R281). -/
def sbParity (ty : BitVec 4) (data : BitVec 32) : Bool :=
  !(((List.range 4).map fun i => bit ty i) ++ (List.range 32).map fun i => bit data i).foldl Bool.xor false

/-- The 39 bits of a sideband word in the order in which they are sent (R281). -/
def sbBits (w : SbWord) : List Bool :=
  [false] ++ ((List.range 4).map fun i => bit w.ty i) ++ ((List.range 32).map fun i => bit w.data i)
    ++ [sbParity w.ty w.data, true]

/-- A sideband word of one end arrives, as it was sent or not. -/
def State.sbRecv (s : State) (w : SbWord) : State :=
  { s with sideband := s.sideband.eraseP fun x => x.die == w.die && x.toHub == w.toHub && x.ty == w.ty }

/-- A sideband word arrives with its parity bit: with bad parity it is ignored (R281). -/
def State.sbTake (s : State) (w : SbWord) (par : Bool) (f : State → Out) : Out :=
  if par = sbParity w.ty w.data then f (s.sbRecv w) else .next (s.sbRecv w)

/-- A site is fenced: both ports, and RTR_SITE_FENCE in every router (R243, R284). -/
def State.fence (s : State) (d : Die) : State :=
  let s := (s.setPortState ⟨d, true⟩ 6).setPortState ⟨d, false⟩ 6
  (List.range 28).foldl (fun s i =>
    s.cpSetField (cpAddr (BitVec.ofNat 12 (0x80 + i)) 4) (siteOf d) 1 1) s

/-- Bring-up of a site starts (Table PRISM-8 step 1). -/
def State.bringUp (s : State) (d : Die) : State :=
  if s.fencedSite d then s
  else
    let k := 4 * d.val + 3
    let s := s.cpSetField (pwrAddr (0x60 + 4 * (k / 16))) (2 * (k % 16)) 2 0
    let one := fun (s : State) (p : PortId) =>
      let s := { s with ports := SMap.set {} s.ports (portKey p) {} }
      let s := (List.range 3).foldl (fun s i => s.cpSet (portAddr p (0x0C0 + 4 * i)) 0) s
      let s := (List.range 36).foldl (fun s w => s.cpSet (portAddr p (0x180 + 4 * w)) 0) s
      (s.cpSet (portAddr p 0x0D8) 0).cpSet (portAddr p 0) 1
    one (one s ⟨d, true⟩) ⟨d, false⟩

/-- The hub brings up a site. -/
def execSiteBringUp (die : Die) (s : State) : Out := .next (s.bringUp die)

/-- The hub sends REFUSE with the number of the failed rule and fences the site (R283). -/
def State.refuseSite (s : State) (d : Die) (rule : BitVec 4) : State :=
  (s.fence d).sbSend ⟨d, false, 0xE, rule.zeroExtend 32⟩

/-- The capability words of a port are sent. -/
def State.sendCaps (s : State) (p : PortId) : State :=
  (List.range 4).foldl (fun s i =>
    s.sbSend ⟨p.die, !p.hub, BitVec.ofNat 4 (2 + i), s.cpGet (portAddr p (0x010 + 4 * i))⟩) s

/-- HELLO of a die: both sides exchange capabilities (R282, Table PRISM-8). -/
def execHello (die : Die) (w : SbBits) (s : State) : Out :=
  s.sbTake ⟨die, true, 1, w.data⟩ w.par fun s =>
  if s.portState ⟨die, true⟩ = 1 && !(s.port ⟨die, true⟩).hello then
    .next (((s.modPort ⟨die, true⟩ fun x => { x with hello := true }).sendCaps
      ⟨die, true⟩).sendCaps ⟨die, false⟩)
  else .next s

/-- No HELLO within 10 us: the site is fenced (R283). DESIGN CHOICE: no rule of Table PRISM-7 failed,
and the number in REFUSE is a free value. -/
def execHelloTimeout (die : Die) (s : State) : Out :=
  if s.portState ⟨die, true⟩ = 1 && !(s.port ⟨die, true⟩).hello then
    let (r, s) := s.takeFree 4
    .next (s.refuseSite die r)
  else .next s

/-- The rule of Table PRISM-7 that fails first for a die's words, if any. -/
def failedRule (n : Nat) (c0 c1 c2 l1 l2 : Word32) : Option Nat :=
  let lanesOk := fun (c : Word32) => field c 0 6 = 36 || field c 0 6 = 20
  if field c0 8 8 ≠ 1 then some 1
  else if field c0 16 4 ≠ 1 then some 2
  else if field c0 20 4 ≠ n then some 3
  else if !lanesOk c1 && !lanesOk l1 then some 4
  else if !bit c1 6 || !bit l1 6 then some 5
  else if !bit c1 8 || !bit l1 8 then some 7
  else if min (field c2 0 14) (field l2 0 14) = 0 then some 8
  else none

/-- PRISM_NEG from the two sets (Table PRISM-7). -/
def negotiated (p0 l0 p1 l1 : Word32) (agent : Nat) : Word32 :=
  BitVec.ofNat 32 (min (field p0 0 8) (field l0 0 8)
    + b2n (bit p1 6 && bit l1 6) * 2 ^ 8 + b2n (bit p1 7 && bit l1 7) * 2 ^ 9
    + b2n (min (field p1 0 6) (field l1 0 6) = 36) * 2 ^ 10 + agent * 2 ^ 11
    + (field p1 8 16 &&& field l1 8 16) * 2 ^ 16)

/-- Once a port has the peer's four words, it holds the result; the hub sends it, or refuses the
site. -/
def State.capsDone (s : State) (p : PortId) : State :=
  let peer := fun (i : Nat) => s.cpGet (portAddr p (0x020 + 4 * i))
  let mine := fun (i : Nat) => s.cpGet (portAddr p (0x010 + 4 * i))
  let agent := field (if p.hub then peer 0 else mine 0) 16 4
  let neg := negotiated (peer 0) (mine 0) (peer 1) (mine 1) agent
  let out := min (field (peer 2) 0 14) (field (mine 2) 0 14)
  let keep := fun (s : State) => (s.cpSet (portAddr p 4) neg).cpSet (portAddr p 8) (BitVec.ofNat 32 out)
  if p.hub then
    match failedRule p.die.val (peer 0) (peer 1) (peer 2) (mine 1) (mine 2) with
    | some r => s.refuseSite p.die (BitVec.ofNat 4 r)
    | none => (keep s).sbSend ⟨p.die, false, 6, neg⟩
  else keep s

/-- A capability word arrives. -/
def State.cap (s : State) (d : Die) (toHub : Bool) (i : Nat) (w : Word32) : State :=
  let p : PortId := ⟨d, toHub⟩
  if s.portState p ≠ 1 then s
  else
    let s := s.cpSet (portAddr p (0x020 + 4 * i)) w
    let got := (s.port p).caps ||| 2 ^ i
    let first := got = 15 && (s.port p).caps ≠ 15
    let s := s.modPort p fun x => { x with caps := got }
    if first then s.capsDone p else s

/-- CAP0. -/
def execCap0 (die : Die) (toHub : Bool) (w : SbBits) (s : State) : Out :=
  s.sbTake ⟨die, toHub, 2, w.data⟩ w.par fun s => .next (s.cap die toHub 0 w.data)
/-- CAP1. -/
def execCap1 (die : Die) (toHub : Bool) (w : SbBits) (s : State) : Out :=
  s.sbTake ⟨die, toHub, 3, w.data⟩ w.par fun s => .next (s.cap die toHub 1 w.data)
/-- CAP2. -/
def execCap2 (die : Die) (toHub : Bool) (w : SbBits) (s : State) : Out :=
  s.sbTake ⟨die, toHub, 4, w.data⟩ w.par fun s => .next (s.cap die toHub 2 w.data)
/-- CAP3. -/
def execCap3 (die : Die) (toHub : Bool) (w : SbBits) (s : State) : Out :=
  s.sbTake ⟨die, toHub, 5, w.data⟩ w.par fun s => .next (s.cap die toHub 3 w.data)

/-- RESULT: the die echoes it; the hub compares the echo and starts training (R283). -/
def execResult (die : Die) (toHub : Bool) (w : SbBits) (s : State) : Out :=
  s.sbTake ⟨die, toHub, 6, w.data⟩ w.par fun s =>
  let p : PortId := ⟨die, toHub⟩
  if s.portState p ≠ 1 then .next s
  else if !toHub then .next ((s.cpSet (portAddr p 4) w.data).sbSend ⟨die, true, 6, w.data⟩)
  else if s.cpGet (portAddr p 4) = w.data then
    .next ((s.setPortState p 2).setPortState ⟨die, false⟩ 2)
  else
    let (r, s) := s.takeFree 4
    .next (s.refuseSite die r)

/-- REFUSE reaches the die. -/
def execRefuse (die : Die) (w : SbBits) (s : State) : Out :=
  s.sbTake ⟨die, false, 0xE, w.data⟩ w.par fun s => .next (s.setPortState ⟨die, false⟩ 6)

/-- The lanes of a direction mapped to its lowest-numbered good wavelengths (Table PRISM-8 step 6);
none where too few are good. -/
def goodLanes (good : BitVec 36) (lanes : Nat) : Option (List Nat) :=
  let g := (List.range 36).filter fun w => good.getLsbD w
  if lanes ≤ g.length then some (g.take lanes) else none

/-- Wavelengths of a link as negotiated. -/
def State.negLanes (s : State) (p : PortId) : Nat := if s.negWide p then 32 else 16

/-- Too few good wavelengths in a direction: the hub fences the site and reports it (R284), in the class of a refused
swap (DESIGN CHOICE, log entry 51). -/
def State.fenceDark (s : State) (p : PortId) : State :=
  let h : PortId := { p with hub := true }
  (s.fence p.die).report (portStation h) 0x21 (portStation h).toNat

/-- The 1 ms of PRBS ends at a receiver: wavelengths without an error, and lit, are good. It maps its lanes and
reports what it found (Table PRISM-8 steps 4 to 6). -/
def execTrainingEnd (die : Die) (toHub : Bool) (counts : List Nat) (s : State) : Out :=
  let p : PortId := ⟨die, toHub⟩
  if s.portState p ≠ 2 then .next s
  else
    let good : BitVec 36 := (List.range 36).foldl (fun m w =>
      if counts[w]? = some 0 && !s.lineDark w then setBit m w true else m) 0
    match goodLanes good (s.negLanes p) with
    | none => .next (s.fenceDark p)
    | some l =>
      let s := (List.range 36).foldl (fun s w =>
        s.setWl p w (if !good.getLsbD w then 2 else if l.contains w then 1 else 0)) s
      let s := l.zipIdx.foldl (fun s x =>
        s.cpSet (portAddr p (0x040 + 4 * x.2)) (BitVec.ofNat 32 x.1)) s
      let s := s.modPort p fun x => { x with good := some good, narrow := s.negLanes p = 16 }
      .next ((s.sbSend ⟨die, !toHub, 7, good.truncate 32⟩).sbSend
        ⟨die, !toHub, 8, (good.extractLsb' 32 4).zeroExtend 32⟩)

/-- A transmitter that has both training words maps its lanes and sends LINK_READY (steps 6 and 7). -/
def State.trained (s : State) (p : PortId) : State :=
  match (s.port p).peerLo, (s.port p).peerHi with
  | some lo, some hi =>
    let good : BitVec 36 := BitVec.ofNat 36 (lo.toNat + hi.toNat % 16 * 2 ^ 32)
    match goodLanes good (s.negLanes p) with
    | none => s.fenceDark p
    | some l =>
      let s := l.zipIdx.foldl (fun s x =>
        s.cpSet (portAddr p (0x280 + 4 * x.2)) (BitVec.ofNat 32 x.1)) s
      (s.modPort p fun x => { x with txNarrow := s.negLanes p = 16 }).sbSend ⟨p.die, !p.hub, 9, 0⟩
  | _, _ => s

/-- TRAIN_LO reaches a transmitter. -/
def execTrainLo (die : Die) (toHub : Bool) (w : SbBits) (s : State) : Out :=
  let p : PortId := ⟨die, toHub⟩
  s.sbTake ⟨die, toHub, 7, w.data⟩ w.par fun s =>
  if s.portState p ≠ 2 then .next s
  else .next ((s.modPort p fun x => { x with peerLo := some w.data }).trained p)

/-- TRAIN_HI reaches a transmitter. -/
def execTrainHi (die : Die) (toHub : Bool) (w : SbBits) (s : State) : Out :=
  let p : PortId := ⟨die, toHub⟩
  s.sbTake ⟨die, toHub, 8, w.data⟩ w.par fun s =>
  if s.portState p ≠ 2 then .next s
  else .next ((s.modPort p fun x => { x with peerHi := some w.data }).trained p)

/-- LINK_READY reaches a port whose receive direction is trained: it reads UP or NARROW (steps 7 and
8). -/
def execLinkReady (die : Die) (w : SbBare) (s : State) : Out :=
  let p : PortId := ⟨die, w.toHub⟩
  s.sbTake ⟨die, w.toHub, 9, 0⟩ w.par fun s =>
  if s.portState p = 2 && (s.port p).good.isSome then
    .next (s.setPortState p (if s.negLanes p = 32 then 3 else 4))
  else .next s

/-- A sideband word without reply is sent again after 10 us (R281): the last of the die's and of the
hub's words. -/
def execSidebandResend (die : Die) (s : State) : Out :=
  let again := fun (s : State) (k : Nat) => match SMap.get none s.sbLast k with
    | some w => if s.sideband.contains w then s else { s with sideband := s.sideband ++ [w] }
    | none => s
  if s.portState ⟨die, true⟩ = 1 || s.portState ⟨die, true⟩ = 2 then
    .next (again (again s (2 * die.val)) (2 * die.val + 1))
  else .next s

/-! Laser monitors and switches (R261 to R264). -/

/-- Lines lost with no laser to switch to: every link handles the active lanes on them as down, and uses none of them
as a spare (R262, R264). -/
def State.darken (s : State) (m : BitVec 36) : State :=
  let port := fun (s : State) (p : PortId) =>
    if !s.portUp p then s
    else
      let s := (List.range 36).foldl (fun s w => if bit m w && s.wlState p w % 3 = 0 then s.setWl p w 2 else s) s
      (List.range (s.lanes p)).foldl (fun s j => if bit m (s.rxMap p j) then s.startSwap p j true else s) s
  (List.finRange 12).foldl (fun s d => port (port s ⟨d, true⟩) ⟨d, false⟩) s

/-- The coupler changes to the other laser; the old one is powered off and retired (R263). Lines in FAIL on the new one
are dark (R264). -/
def State.laserChange (s : State) : State :=
  let l := s.feeding
  let a := lsrAddr 0
  let s := (s.cpSetField a 0 1 (1 - l)).cpSetField a (1 + l) 1 0
  let s := (s.cpSetField a 3 1 0).countAt a 8 8 1
  let s := s.cpSetField (pwrAddr (0x60 + 4 * ((58 + l) / 16))) (2 * ((58 + l) % 16)) 2 1
  s.darken (s.lineBits s.feeding 0x18)

/-- A cross-fade starts, where the other laser is lit (R262, R263). -/
def State.xfade (s : State) : State :=
  if s.laserLit (1 - s.feeding) && s.cpField (lsrAddr 0) 3 1 = 0 then s.cpSetField (lsrAddr 0) 3 1 1
  else s

/-- The line powers of a laser are sampled, each as tenths of a dB below nominal (R261): WEAK below
1.5 dB, FAIL below 4.0 dB. A FAIL of the feeding laser forces a switch, or darkens its lines where the other laser
cannot take over; a WEAK line of it starts a cross-fade where the other laser shows none. -/
def execLaserSample (t : Word) (laser : Fin 2) (powers : List Nat) (s : State) : Out :=
  let s := s.advance t
  let l := laser.val
  if !s.laserLit l then .next s
  else
    let below := fun (lim : Nat) => (List.range 36).foldl (fun (m : BitVec 36) i =>
      match powers[i]? with
      | some p => if lim < p then setBit m i true else m
      | none => m) 0
    let weak0 := s.laserBits l 0x10
    let fail0 := s.laserBits l 0x18
    let weak := weak0 ||| below 15
    let fail := fail0 ||| below 40
    let s := (s.setLaserBits l 0x10 weak).setLaserBits l 0x18 fail
    let s := if weak = weak0 then s else s.report shepStation 0x23 shepStation.toNat l
    let s := if fail = fail0 then s else s.report shepStation 0x24 shepStation.toNat l
    let other := 1 - l
    if l ≠ s.feeding then .next s
    else if below 40 ≠ 0 && s.laserLit other && s.laserBits other 0x18 &&& ~~~fail = 0 then
      .next s.laserChange
    else if fail ≠ fail0 then .next (s.darken (fail &&& ~~~fail0))
    else if weak ≠ 0 && s.laserLit other && s.laserBits other 0x10 = 0 then .next s.xfade
    else .next s

/-- LSR_CTL.SWITCH is written (R263). -/
def execLaserSwitchGo (s : State) : Out := .next s.xfade

/-- A cross-fade ends. -/
def execXfadeEnd (s : State) : Out :=
  if s.cpField (lsrAddr 0) 3 1 = 1 then .next s.laserChange else .next s

/-- A laser lit anew has reached nominal power (R262). -/
def execStandbyNominal (s : State) : Out := .next { s with laserWait := false }

end Sys2Proof.Machine
end

