-- ==== Sys2Proof/Machine/ControlPlane.lean ====
section
/-!
DEFINITION. The control plane (R8, R250 to R254): what a register reads as now, what a write does
beside its fields, frames on the rings, and the registers' own commands.
-/

namespace Sys2Proof.Machine

/-- The station of a control-plane address. -/
def cpStation (a : Nat) : Station := BitVec.ofNat 12 (a / 2 ^ 20)

/-! Registers that show other state. -/

/-- STATE_s of `n` slots from `lo`, two bits each (Tables DIES-8, DIES-9). -/
def State.slotStates (s : State) (d : Die) (lo : Nat) : Nat → Nat
  | 0 => 0
  | n + 1 => (s.slotState d lo).toNat + 4 * s.slotStates d (lo + 1) n

/-- Slots of a die in a state. -/
def State.slotsIn (s : State) (d : Die) (x : BitVec 2) : Nat :=
  ((List.range 20).filter fun i => s.slotState d i = x).length

/-- Locked sectors of a die. -/
def DieSt.locked (x : DieSt) : Nat := (x.secs.filter fun e => e.2.lock).length

/-- Eviction-buffer entries in use. -/
def DieSt.evUse (x : DieSt) : Nat := (x.evb.filter fun e => e.2.isSome).length

/-- A register of a die control station that shows other state. -/
def State.dcsLive (s : State) (d : Die) (off : Nat) (v : Word32) : Word32 :=
  let x := s.die d
  if off = 0x040 then (s.fuseOf d).zeroExtend 32
  else if off = 0x044 then BitVec.ofNat 32 (s.slotStates d 0 16)
  else if off = 0x048 then BitVec.ofNat 32 (s.slotStates d 16 4)
  else if off = 0x04C then
    BitVec.ofNat 32 (s.slotsIn d 0 + s.slotsIn d 1 * 2 ^ 8 + s.slotsIn d 2 * 2 ^ 16)
  else if off = 0x104 then BitVec.ofNat 32 (lockLimit (s.wayMode d) + 8 * b2n x.drain)
  else if off = 0x108 then BitVec.ofNat 32 x.locked
  else if off = 0x120 then BitVec.ofNat 32 (x.evUse + x.evPeak.toNat * 2 ^ 8)
  else v

/-- MC_PC_STATE of one pseudo-channel (Table HBM-6). -/
def Mc.pcState (x : Mc) (p : Nat) : Nat :=
  if x.keep then 3 else if x.cmdSr then 2 else if (x.pc p).selfRef then 1 else 0

/-- A service core on some reserve's list (R432). -/
def State.reflected (s : State) (lc : LC) : Bool := s.shep.lists.any fun e => e.2.contains lc

/-- Reflected and unreflected logical cores of a die. -/
def State.coverage (s : State) (d : Die) : Nat × Nat :=
  let l := s.lcsOf d
  ((l.filter s.reflected).length, (l.filter fun lc => !s.reflected lc).length)

/-- Records of SEV 3 not yet acknowledged. -/
def State.unacked (s : State) : Nat :=
  (s.shep.log.filter fun r => r.sev = 3 && !r.acked).length

/-- Threshold and window in ns of a class's counter (WC_CFG_c). -/
def State.wcCfg (s : State) (c : Nat) : Nat × Nat :=
  let a := cpAddr shepStation (0x70100 + 4 * c)
  (s.cpField a 0 8, s.cpField a 16 16 * 1000000)

/-- Whether a window counter's entry is free (R423). -/
def State.wcFree (s : State) (w : WinCnt) : Bool :=
  w.count = 0 || (s.wcCfg w.cls).2 ≤ (s.tb - w.start).toNat

/-- A register of the Shepherd station that shows other state (Table SAFE-15). -/
def State.shepLive (s : State) (off : Nat) (v : Word32) : Word32 :=
  let x := s.shep
  if off = 0x70000 then
    BitVec.ofNat 32 (min s.unacked 0xFFF + b2n x.faultOut * 2 ^ 12 + b2n x.safeIn * 2 ^ 13
      + b2n (!x.hbStop) * 2 ^ 14 + b2n x.cds * 2 ^ 15)
  else if off = 0x7000C then
    setField v 0 13 (x.wcs.filter fun w => !s.wcFree w).length
  else if h : 0x71000 ≤ off ∧ off < 0x71030 then
    let c := s.coverage ⟨(off - 0x71000) / 4, by omega⟩
    BitVec.ofNat 32 (c.1 + b2n (c.2 ≠ 0) * 2 ^ 5)
  else if off = 0x80050 then setField v 0 1 (b2n x.dirtyStore)
  else if 0x40010 ≤ off ∧ off < 0x40030 then if s.heldUnlit ((off - 0x40010) / 16) then 0 else v
  else v

/-- A register as it reads now, without the effects of reading it. -/
def State.cpLive (s : State) (a : Nat) : Word32 :=
  let off := a % 2 ^ 20
  let v := s.cpGet a
  match unitKind (cpStation a) with
  | some .dcs => match dieOfStation (cpStation a) with
    | some d => s.dcsLive d off v
    | none => v
  | some (.home q) =>
    let h := s.home ⟨q % 4, by omega⟩
    if off = 0x004 then BitVec.ofNat 32 (h.inUse + h.resvUse * 2 ^ 16)
    else if off = 0x008 then BitVec.ofNat 32 h.peak
    else v
  | some (.mc q) =>
    let x := s.mc ⟨q % 4, by omega⟩
    if off = 0x008 then
      BitVec.ofNat 32 ((List.range 16).map fun p => x.pcState p * 4 ^ p).sum
    else if off = 0x084 then
      setField v 0 25 ((List.range 16).foldl (fun n p => min n (x.pc p).pos) pcLines)
    else v
  | some .fold =>
    if off = 0x004 then
      BitVec.ofNat 32 ((s.fold.cache.filter fun e => e.2.isSome).length + s.fold.pinned * 2 ^ 16)
    else if off = 0x020 then BitVec.ofNat 32 s.fold.holding
    else if 0x20000 ≤ off && off < 0x20000 + 4 * 1025 then
      setBit v 9 (s.quiesced ((off - 0x20000) / 4))
    else v
  | some .shepherd => s.shepLive off v
  | some (.loupe k) => if off < 0x50 then (s.lpRead k off false).1 else v
  | some (.router k) =>
    if 0x100 ≤ off && off < 0x160 && off % 8 = 0 then
      (SMap.get 0 s.rtrBytes (12 * k + (off - 0x100) / 8)).truncate 32
    else if 0x100 ≤ off && off < 0x160 then SMap.get 0 s.latchHi a
    else v
  | _ => v

/-- Whether a message on its way passes an output port of a router on a virtual channel: its flits may hold credits
of that port's queue (R236). -/
def State.onChannel (s : State) (r p c : Nat) : Bool :=
  s.net.any fun m => m.vc = c && (pathOf m.src m.dest).any fun h => h.router = r &&
    (h.out = p || (p = 4 && h.out = 5))

/-- RTR_PORT_STATE of a router (Table FAB-7): every credit is held of a port and channel that no message on its
way passes; how far the others have come, and so whether they hold a credit, is not told (free values). -/
def State.creditState (s : State) (r : Nat) : Word32 × State :=
  (List.range 30).foldl (fun (v, s) i =>
    if s.onChannel r (i / 6) (i % 6) then
      let (b, s) := s.takeFree 1
      (setField v i 1 b.toNat, s)
    else (setField v i 1 1, s)) (0, s)

/-- A register read over the control plane, with what the read does: a LO word of a port counter
latches its HI word (R494), a Loupe's trace advances (R505). -/
def State.cpRead (s : State) (a : Nat) : Word32 × State :=
  let off := a % 2 ^ 20
  match unitKind (cpStation a) with
  | some (.loupe k) => if off < 0x50 then s.lpRead k off true else (s.cpLive a, s)
  | some (.router k) =>
    if off = 8 then s.creditState k
    else if 0x100 ≤ off && off < 0x160 && off % 8 = 0 then
      let t := SMap.get 0 s.rtrBytes (12 * k + (off - 0x100) / 8)
      (t.truncate 32, { s with
        latchHi := SMap.set 0 s.latchHi (a + 4) ((t.extractLsb' 32 16).zeroExtend 32) })
    else (s.cpLive a, s)
  | _ => (s.cpLive a, s)

/-- Status of an access to an address (R29, Table FAB-5): 1 where no register stands there, 3 where
the station's domain is off. -/
def State.cpStatus (s : State) (a : Nat) : BitVec 4 :=
  if (regDesc a).isNone then 1 else if s.isOff (cpStation a) then 3 else 0

/-! Direct writes. -/

/-- Whether a register is a count with a flag whose clearing also clears the count. -/
def RegDesc.isCount (d : RegDesc) : Bool :=
  match d with
  | [c, f] => c.ty == .ro && f.ty == .w1c && c.lo = 0 && f.lo = c.w && f.w = 1
      && (c.w = 16 || c.w = 24)
  | _ => false

/-- What a write does beside its fields: counts and slots cleared with their flags, and the action of a
WO field. -/
def State.cpAction (s : State) (a : Nat) (d : RegDesc) (old v : Word32) : State :=
  let st := cpStation a
  let off := a % 2 ^ 20
  if d.isCount then
    match d with
    | [c, _] => if bit v c.w && bit old c.w then s.cpSetField a 0 c.w 0 else s
    | _ => s
  else if 0xF8000 ≤ off && off < 0xFA000 && off % 32 = 0 then
    if bit v 31 && bit old 31 then s.cpSetField a 16 8 0 else s
  else match unitKind st with
  | some .dcs =>
    match dieOfStation st with
    | some dd => if off = 0x120 && bit v 16 then
        s.modDie dd fun x => { x with evPeak := BitVec.ofNat 6 x.evUse }
      else s
    | none => s
  | some (.home q) =>
    if off = 0x008 && bit v 16 then s.modHome ⟨q % 4, by omega⟩ fun h => { h with peak := h.inUse }
    else s
  | some .portA => if off = 0x00C && bit v 9 then s.releaseFreeze else s
  | some (.hubPort n) =>
    if h : n < 12 then if off = 0x00C then s.setNarrow ⟨n, h⟩ (bit v 0) else s else s
  | some .fold =>
    if 0x40020 ≤ off && off < 0x40000 + 32 * 1025 && off % 32 = 24 then
      if bit v 2 then s.logSwap ((off - 0x40000) / 32) else s
    else if off = 0x60000 then (s.ctxp (field v 20 4) (field v 0 20) s.ctxpData).getD s
    else s
  | some .shepherd =>
    if 0x80010 ≤ off && off < 0x80028 && bit v 24 then s.cpSetField a 12 12 0xFFF
    else if off = 0x40004 && bit v 1 then s.xfade
    else s
  | _ => s

/-- A direct write of a register that exists, by the types of its fields (R8). -/
def State.cpDirect (s : State) (a : Nat) (d : RegDesc) (v : Word32) : State :=
  let off := a % 2 ^ 20
  match unitKind (cpStation a) with
  | some (.loupe k) =>
    if off < 0x50 then s.lpWrite k off v
    else (s.cpSet a (d.write false (s.cpGet a) v)).cpAction a d (s.cpGet a) v
  | _ => (s.cpSet a (d.write false (s.cpGet a) v)).cpAction a d (s.cpGet a) v

/-- A direct control-plane write, with the status of its reply (R8, R29, Table FAB-5). -/
def State.cpWriteWord (s : State) (a : Nat) (v : Word32) : BitVec 4 × State :=
  match regDesc a with
  | none => (1, s)
  | some d =>
    if s.isOff (cpStation a) then (3, s)
    else (if d.refuses (s.cpGet a) v then 2 else 0, s.cpDirect a d v)

/-! Frames. -/

/-- CRC-32 of W0 to W2 of a frame (Table FAB-5). -/
def frameCrc (f : Frame) : Word32 :=
  let w0 := f.op.toNat * 2 ^ 28 + f.status.toNat * 2 ^ 24 + b2n f.dup * 2 ^ 16 + f.seq.toNat
  crc32 (bytesOf32 [BitVec.ofNat 32 w0, f.addr, f.data])

/-- A frame with its CRC. -/
def sealFrame (f : Frame) : Frame := { f with crc := frameCrc f }

/-- Whether a frame of an operation is good (R251). -/
def frameGood (f : Frame) (op : BitVec 4) : Bool := f.crc == frameCrc f && f.op == op

/-- The state with the Shepherd changed. -/
def State.modShep (s : State) (f : Shep → Shep) : State := { s with shep := f s.shep }

/-- A frame is put on the rings. -/
def State.putFrame (s : State) (f : Frame) : State :=
  s.modShep fun x => { x with frames := x.frames ++ [sealFrame f] }

/-- A READ or WRITE frame goes out on both rings, or on the one that is whole (R252, R253). -/
def State.sendFrame (s : State) (f : Frame) : State :=
  let s := if s.shep.ringA then s.putFrame { f with ringA := true } else s
  if s.shep.ringB then s.putFrame { f with ringA := false } else s

/-- Frames of a station whose replies the Shepherd awaits (R252). -/
def State.outstanding (s : State) (st : Station) : Nat :=
  (s.shep.commit.elim 0 fun c => (c.left.filter fun x => cpStation x.2 = st).length)
    + (s.shep.cpJobs.filter fun j => j.seq.isSome && cpStation j.addr = st).length

/-- The next SEQ of a station (R252): one more than the last sent; with none outstanding, than the last that the
station acted on. -/
def State.nextSeq (s : State) (st : Station) : BitVec 16 :=
  (if s.outstanding st = 0 then BitVec.ofNat 16 (s.cpField (cpAddr st 0xFF014) 0 16)
    else SMap.get 0 s.shep.seqs st.toNat) + 1

/-- A frame leaves the ring. -/
def State.takeFrame (s : State) (f : Frame) : State :=
  s.modShep fun x => { x with frames := x.frames.erase f }

/-- How a station treats a frame by its SEQ (R252). -/
inductive SeqIs where
  | next | old | ahead
  deriving DecidableEq, Repr

/-- Whether a frame is the station's next one, a second copy, or ahead of one not yet come. -/
def State.seqIs (s : State) (f : Frame) : SeqIs :=
  let last := s.cpField (cpAddr (cpStation f.addr.toNat) 0xFF014) 0 16
  let d := (f.seq.toNat + 65536 - last) % 65536
  if d = 1 then .next else if d = 0 || 65536 - 64 < d then .old else .ahead

/-- A READ or WRITE frame reaches its station: a bad CRC drops it; the station's next frame is acted on
and replaced with its reply, a second copy goes on with DUP, one that is ahead waits. -/
def State.atStation (s : State) (f : Frame) (op : BitVec 4)
    (act : State → (BitVec 4 × Word32) × State) : State :=
  let rest := s.takeFrame f
  let a := f.addr.toNat
  if !frameGood f op then rest
  else if (unitKind (cpStation a)).isNone then
    rest.putFrame { f with op := op + 2, status := 1, data := 0 }
  else match s.seqIs f with
  | .ahead => s
  | .old => if f.dup then s else rest.putFrame { f with dup := true }
  | .next =>
    let (r, s) := act rest
    let s := s.cpSetField (cpAddr (cpStation a) 0xFF014) 0 16 f.seq.toNat
    s.putFrame { f with op := op + 2, status := r.1, data := r.2 }

/-- A READ frame at its station. -/
def execRingRead (f : Frame) (s : State) : Out :=
  .next (s.atStation f 1 fun s =>
    let a := f.addr.toNat
    if s.cpStatus a = 0 then
      let (v, s) := s.cpRead a
      ((0, v), s)
    else ((s.cpStatus a, 0), s))

/-- Whether a station is armed and FIRE has not come (R408). -/
def State.armedFor (s : State) (st : Station) : Bool :=
  match s.shep.commit with
  | some c => c.phase == .arm && c.armed.contains st
  | none => false

/-- Whether a station is named by the running commit and its ARM has not come; a WRITE waits behind it. -/
def State.armDue (s : State) (st : Station) : Bool :=
  match s.shep.commit with
  | some c => c.phase == .arm && c.stations.contains st && !c.armed.contains st
  | none => false

/-- A WRITE frame at its station: at an armed one the word's shadow is loaded (R408). -/
def execRingWrite (f : Frame) (s : State) : Out :=
  if frameGood f 2 && s.armDue (cpStation f.addr.toNat) then .next s
  else .next (s.atStation f 2 fun s =>
    let a := f.addr.toNat
    match regDesc a, s.shep.commit with
    | some d, some c =>
      if s.cpStatus a = 0 && s.armedFor (cpStation a) && d.has (· == .rwl) then
        ((0, f.data), s.modShep fun x => { x with
          commit := some { c with shadows := SMap.set none c.shadows a (some f.data) } })
      else
        let (st, s) := s.cpWriteWord a f.data
        ((st, f.data), s)
    | _, _ =>
      let (st, s) := s.cpWriteWord a f.data
      ((st, f.data), s))

/-- An idle slot passes: the oldest waiting report takes it (R254). -/
def execReportSlot (f : Frame) (s : State) : Out :=
  let rest := s.takeFrame f
  if !frameGood f 0xA then .next rest
  else match s.reports with
    | [] => .next rest
    | r :: t => .next (({ rest with reports := t } : State).putFrame { r with ringA := f.ringA })

/-! Registers' own commands. -/

/-- Whether a CP_WRITE to a station waits until RESUME (R408). -/
def State.cpHeld (s : State) (st : Station) : Bool :=
  match s.shep.commit with
  | some c => c.armed.contains st
  | none => false

/-- A register is written over the control plane (R8); a station that is armed takes it later. -/
def execRegisterWrite (a : Word32) (v : Word32) (s : State) : Out :=
  if s.cpHeld (cpStation a.toNat) then .next s else .next (s.cpWriteWord a.toNat v).2

/-- A LO word of a counter is read (R494, R505). -/
def execCounterLoRead (a : Word32) (s : State) : Out :=
  if s.cpStatus a.toNat = 0 then .next (s.cpRead a.toNat).2 else .next s

/-- A PEAK field takes the present use. -/
def execPeakClear (a : Word32) (s : State) : Out :=
  let off := a.toNat % 2 ^ 20
  match unitKind (cpStation a.toNat) with
  | some .dcs => if off = 0x120 then .next (s.cpWriteWord a.toNat 0x10000).2 else .next s
  | some (.home _) => if off = 0x008 then .next (s.cpWriteWord a.toNat 0x10000).2 else .next s
  | _ => .next s

/-- PWR_RAIL_r.CLR is written: MIN_MV becomes 0xFFF. -/
def execRailMinClear (rail : Fin 8) (s : State) : Out :=
  if rail.val < 6 then .next (s.cpWriteWord (pwrAddr (0x10 + 4 * rail.val)) 0x1000000).2 else .next s

/-- A window of a router ends at `t`: RTR_BW takes the flits of each port and direction (R494). -/
def execRtrBwWindowEnd (st : Station) (t : Word) (s : State) : Out :=
  let s := s.advance t
  match unitKind st with
  | some (.router k) =>
    if t.toNat % ((s.cpField (cpAddr st 0x0F0) 0 10 + 1) * 1000) ≠ 0 then .next s
    else
      .next ((List.range 12).foldl (fun s i =>
        let s := s.cpSet (cpAddr st (0x200 + 4 * i)) (BitVec.ofNat 32 (SMap.get 0 s.rtrWin (12 * k + i)))
        { s with rtrWin := SMap.set 0 s.rtrWin (12 * k + i) 0 }) s)
  | _ => .next s

/-- The eight counters of a core and PMU_OVF go to 0. -/
def State.clearPmu (s : State) (lc : LC) : State :=
  s.modCore lc fun c => { c with pmu := c.pmu.clear }

/-- PMU_CTL.CLEAR of a core is written (Table OBS-2). -/
def execPmuClear (lc : LC) (s : State) : Out := .next (s.clearPmu lc)

end Sys2Proof.Machine
end

