-- ==== Sys2Proof/Machine/Cores.lean ====
section
/-!
DEFINITION. Logical cores as the Shepherd handles them: halting and resuming, resets (R478, R479),
starting, reflection lists (R430), live swaps (R434) and lost cores (R435).
-/

namespace Sys2Proof.Machine

/-! Halts (R425, R486). -/

/-- A reason for a halt ends. -/
def State.unhalt (s : State) (lc : LC) (h : Halt) : State :=
  s.modCore lc fun c => { c with halts := c.halts.filter (· ≠ h) }

/-- Every logical core that passes a test halts. -/
def State.haltWhere (s : State) (h : Halt) (p : LC → Bool) : State :=
  (List.finRange 216).foldl (fun s lc => if p lc then s.halt lc h else s) s

/-- A reason ends for every logical core. -/
def State.unhaltAll (s : State) (h : Halt) : State :=
  (List.finRange 216).foldl (fun s lc => if (s.core lc).halts.contains h then s.unhalt lc h else s) s

/-- A logical core halts, or goes on, as Shed-3 and the criticality of its partition say (Table PWR-2). -/
def State.shedCore (s : State) (lc : LC) : State :=
  if s.shed 3 && (s.core lc).run == .started && s.nonCritical lc then s.halt lc .shed3
  else if (s.core lc).halts.contains .shed3 then s.unhalt lc .shed3
  else s

/-- Every logical core under Shed-3. -/
def State.shedCores (s : State) : State := (List.finRange 216).foldl State.shedCore s

/-- Whether a stack is commanded into self-refresh: its clock is stopped, P2 holds, or Shed-5 does and no valid
region of its controller is marked CRITICAL (R213, R466, R472, R474). -/
def State.stackWanted (s : State) (q : Quad) : Bool :=
  s.domState (52 + q.val) = 2 || s.cpField (pwrAddr 0) 0 3 = 2 ||
    (s.shed 5 && !(List.range 32).any fun r =>
      let a := cpAddr (mcStation q) (0x1000 + 16 * r)
      s.cpField a 0 1 = 1 && s.cpField a 7 1 = 1)

/-- Every stack sleeps or wakes as commanded. -/
def State.settleStacks (s : State) : State :=
  (List.finRange 4).foldl (fun s q => if s.stackWanted q then s.stackSleep q else s.stackWake q) s

/-- The stacks after a commit under Shed-5. -/
def State.shedStacks (s : State) : State := if s.shed 5 then s.settleStacks else s

/-- Whether a halted core has come to rest: no access held in M, its store buffer empty. -/
def Core.drained (c : Core) : Bool := c.access.isNone && c.sb.isEmpty

/-! Core reset (R478, R479). -/

/-- The L1s of a core are emptied; dirty lines already stand in the die cache, which holds the merged
data of its dirty L1D copies. -/
def State.emptyL1 (s : State) (lc : LC) : State :=
  let c := s.core lc
  let s := match s.dieOf lc with
    | none => s
    | some d =>
      let sl := s.slotOf lc
      let clear := fun (s : State) (line : Nat) => s.modDie d fun x => x.modSub line fun u =>
        { u with l1d := setBit u.l1d sl false, l1i := setBit u.l1i sl false }
      (c.l1d.ways ++ c.l1i.ways).foldl (fun (s : State) (e : Nat × Option L1Line) => match e.2 with
        | some l => clear s l.line
        | none => s) s
  s.modCore lc fun c => { c with l1d := {}, l1i := {}, l1iPend := [] }

/-- A slot's CORE_BEAT_RATE starts afresh (R479). -/
def State.beatReset (s : State) (p : Nat) : State :=
  { s with beatRate := SMap.set 0 s.beatRate p 0, beatBase := SMap.set 0 s.beatBase p 0
           beatSt := SMap.set 0 s.beatSt p 0 }

/-- What a core waited for is dropped with it. -/
def State.dropReqs (s : State) (lc : LC) : State :=
  { s with reqs := s.reqs.map fun r =>
      if r.purpose == .access lc || r.purpose == .drain lc || r.purpose == .prefetch lc then
        { r with purpose := .voided } else r }

/-- The core of a logical core is reset (R479): registers, store buffer, L1s and TLBs; it is stopped. -/
def State.coreReset (s : State) (lc : LC) : State :=
  let s := (s.emptyL1 lc).dropReqs lc
  let s := match s.placeOf lc with
    | some p => s.beatReset p
    | none => s
  s.modCore lc fun c => { run := if c.run == .lost then .lost else .stopped }

/-- A core's part of a partition reset (R478): registers, accounting, interface, monitor, L1s and TLBs
return to reset; other reasons to halt stay. The count of beats goes on, since CORE_BEAT_RATE belongs to
the slot, which is not reset (R48). -/
def State.partCore (s : State) (lc : LC) : State :=
  let h := (s.core lc).halts.filter (· ≠ .partition)
  let s := (s.emptyL1 lc).dropReqs lc
  s.modCore lc fun c => { run := if c.run == .lost then .lost else .stopped, halts := h
                          beats := { next := c.beats.next } }

/-! Starting. -/

/-- A logical core is started at a level, world, partition and PC with g1 (PART_START, Table PWR-7 B8).
DEDUCED: the registers that PART_START does not name keep what they held, and bits [1:0] of the PC given
are ignored, since every PC is a multiple of 4 (R89; log entry 71). -/
def State.startCore (s : State) (lc : LC) (lvl : BitVec 2) (world : Bool) (pid : BitVec 8) (pc g1 : Word) :
    State :=
  let s := s.modCore lc fun c => { (c.setG 1 g1) with
    run := .started, inWait := false, pc := pc &&& ~~~3#64, pfq := [], got := []
    status := BitVec.ofNat 64 (lvl.toNat + 4 * b2n world), part := pid.zeroExtend 64 }
  s.shedCore lc

/-! Partitions. -/

/-- A partition. -/
def State.part (s : State) (p : Nat) : Option Part' := SMap.get none s.shep.parts p

/-- A partition replaced. -/
def State.setPart (s : State) (p : Nat) (v : Option Part') : State :=
  s.modShep fun x => { x with parts := SMap.set none x.parts p v }

/-- The partition that a logical core is assigned to. -/
def State.partOf (s : State) (lc : LC) : Option (BitVec 8) := SMap.get none s.shep.lcPart lc.val

/-- The logical cores assigned to a partition. -/
def State.lcsOfPart (s : State) (p : Nat) : List LC :=
  (List.finRange 216).filter fun lc => (s.partOf lc).any fun q => q.toNat = p

/-- Sources of the distributors that a partition owns return to their reset programming (R478). -/
def State.partSources (s : State) (p : Nat) : State :=
  (List.finRange 12).foldl (fun s d =>
    (List.range 992).foldl (fun s k =>
      let i := 32 + k
      let o := s.intdOwner d i
      if bit o 10 && !bit o 8 && field o 0 8 = p then
        s.modSrc d i fun r => { r with en := false, pend := false, prio := 0xFF, lc := 0xFF, lvl := 1,
                                       world := false, level := (IntSrc.reset i).level }
      else s) s) s

/-- The cores of a partition halt for its reset. -/
def State.partHalt (s : State) (p : Nat) : State :=
  (s.lcsOfPart p).foldl (fun s lc => if (s.core lc).run == .started then s.halt lc .partition else s) s

/-- Whether every core of a partition has come to rest. -/
def State.partRest (s : State) (p : Nat) : Bool := (s.lcsOfPart p).all fun lc => (s.core lc).drained

/-- Mailbox channels held by a partition are released (R391). -/
def State.freeMboxes (s : State) (p : RmeHolder → Bool) : State :=
  s.modShep fun x => { x with mbs := x.mbs.map fun e =>
    (e.1, if e.2.holder.any p then { e.2 with holder := none } else e.2) }

/-- A partition reset whose cores have come to rest is carried out (R478); it leaves the partition
stopped. -/
def State.partReset (s : State) (p : Nat) : State :=
  let s := (s.lcsOfPart p).foldl State.partCore s
  let s := (s.partSources p).freeMboxes fun h => h.pid.toNat = p && h.lvl ≠ 3
  match s.part p with
  | some x => s.setPart p (some { x with st := 2 })
  | none => s

/-- The cores that a RESET reaction restarts, each with the parameters of its own last PART_START. -/
def State.partRestart (s : State) (p : Nat) (l : List LC) : State :=
  match s.part p with
  | none => s
  | some x =>
    let s := l.foldl (fun s lc => match SMap.get none s.shep.starts lc.val with
      | some q => s.startCore lc q.lvl x.world (BitVec.ofNat 8 p) q.pc q.g1
      | none => s) s
    if l.isEmpty then s else s.setPart p (some { x with st := 1 })

/-! Reflection lists (R430, R432). -/

/-- Whether a die's service cores can be reflected: way 15 holds the log and the link negotiated REFL. -/
def State.reflDie (s : State) (d : Die) : Bool :=
  bit (s.wayMode d) 12 && s.cpField (cpAddr (hubPortStation d.val) 4) 9 1 = 1

/-- Whether a slot is about to be retired (R17, R412). -/
def Shep.retiring (x : Shep) (p : Nat) : Bool :=
  x.due.contains (.retire p) || x.commit.any fun c => c.what == .retire p

/-- The reserve slots of a die that are powered. -/
def State.reservesOf (s : State) (d : Die) : List Nat :=
  ((List.range 20).filter fun i => s.slotState d i = 1 && !s.isOff (slotStation d i)
    && !s.shep.retiring (d.val * 20 + i)).map
    fun i => d.val * 20 + i

/-- The service cores of a die in slot order. -/
def State.servicesOf (s : State) (d : Die) : List LC :=
  (List.range 20).filterMap fun i => s.lcAt d i

/-- A list split into `n` parts as evenly as a limit allows, the first parts the longer ones; what does not
fit is left over. -/
def splitEven {α : Type} (limit : Nat) : Nat → List α → List (List α) × List α
  | 0, l => ([], l)
  | n + 1, l =>
    let k := min limit ((l.length + n) / (n + 1))
    let r := splitEven limit n (l.drop k)
    (l.take k :: r.1, r.2)

/-- A service core goes to the reserve of the quadrant with the fewest targets, then the lowest site, then
the lowest slot. -/
def placeLeft (limit : Nat) (lists : SMap (List LC)) (reserves : List Nat) (lc : LC) : SMap (List LC) :=
  let len := fun r => (SMap.get [] lists r).length
  match reserves.foldl (fun (m : Option Nat) r =>
      if limit ≤ len r then m else match m with
        | none => some r
        | some y => if len r < len y then some r else m) none with
  | some r => SMap.set [] lists r (SMap.get [] lists r ++ [lc])
  | none => lists

/-- The lists that firmware 3.2 builds (R430). -/
def State.buildLists (s : State) : SMap (List LC) :=
  let limit := s.cpField (cpAddr shepStation 0x71040) 0 4
  let first := (List.finRange 12).foldl (fun (acc : SMap (List LC) × List LC) d =>
    let rs := s.reservesOf d
    let cores := if s.reflDie d then s.servicesOf d else []
    let (parts, left) := splitEven limit rs.length cores
    ((rs.zip parts).foldl (fun m x => SMap.set [] m x.1 x.2) acc.1, acc.2 ++ left)) ([], [])
  first.2.foldl (fun m lc =>
    match s.dieOf lc with
    | none => m
    | some d =>
      let quad := d.val / 3
      let rs := (List.finRange 12).flatMap fun e =>
        if e.val / 3 = quad && e ≠ d then s.reservesOf e else []
      placeLeft limit m rs lc) first.1

/-- Whether a quadrant has an unreflected service core (R432). -/
def State.degraded (s : State) (q : Nat) : Bool :=
  (List.finRange 12).any fun d => d.val / 3 = q && (s.coverage d).2 ≠ 0

/-- The lists are rebuilt; a quadrant that enters or leaves DEGRADED-COVERAGE queues an event. -/
def State.rebuildLists (s : State) : State :=
  let s := s.modShep fun x => { x with lists := s.buildLists }
  (List.range 4).foldl (fun s q =>
    let now := s.degraded q
    if now = SMap.get false s.shep.covered q then s
    else
      (s.modShep fun x => { x with covered := SMap.set false x.covered q now }).eventBoth
        { code := 0x0040, subj := BitVec.ofNat 8 q }) s

/-- Whether two sets of lists name the same targets for the same reserves. -/
def sameLists (a b : SMap (List LC)) : Bool :=
  a.length = b.length && a.all fun e =>
    let l := SMap.get [] b e.1
    l.length = e.2.length && e.2.all l.contains

/-! Swaps and lost cores. -/

/-- A window that is open on a core, or closed and not yet replayed, is abandoned and counted. -/
def State.abandon (s : State) (lc : LC) : State :=
  let n := b2n (s.core lc).win.isSome + b2n (SMap.get none s.shep.closed lc.val).isSome
  let s := s.modCore lc fun c => { c with win := none }
  let s := s.modShep fun x => { x with
    closed := SMap.set none x.closed lc.val none
    replays := x.replays.filter fun r => r.target ≠ lc }
  s.countAt (cpAddr shepStation 0x71044) 16 16 n

/-- The die's sectors kept for a window's fetches are let go (R427). -/
def State.letGo (s : State) (d : Die) (sectors : List Nat) : State :=
  sectors.foldl (fun s sec => s.modDie d fun x => match x.wayOf (4 * sec) with
    | some w => x.setSec (dcSet (4 * sec)) w { x.sec (dcSet (4 * sec)) w with kept := false }
    | none => x) s

/-- The reserve that the automatic choice takes for a logical core (R434): the lowest on its die, else the
lowest on the die of its quadrant with the most. -/
def State.chooseReserve (s : State) (d : Die) : Option Nat :=
  match s.reservesOf d with
  | r :: _ => some r
  | [] =>
    ((List.finRange 12).filter fun e => e.val / 3 = d.val / 3).foldl (fun (m : Nat × Option Nat) e =>
      let rs := s.reservesOf e
      if m.1 < rs.length then (rs.length, rs.head?) else m) (0, none) |>.2

/-- The address of the DXB_FENCE register of a place's die. -/
def fenceAddr (p : Nat) : Nat := BitVec.toNat (BitVec.ofNat 32 ((p / 20 + 1) * 256 + 0x3F)) * 2 ^ 20 + 0x130

/-- The entry of a staged set that fences a slot as it is retired (R257). -/
def State.fenceEntry (s : State) (p : Nat) : Nat × Word32 :=
  (fenceAddr p, setBit (s.cpGet (fenceAddr p)) (p % 20) true)

/-- The address of a slot's REG_RCFG. -/
def rcfgOfPlace (p : Nat) : Nat := BitVec.toNat (BitVec.ofNat 32 ((p / 20 + 1) * 256 + 0x3F)) * 2 ^ 20
  + (0x200 + 8 * (p % 20))

/-- What a live swap does not carry: L1s, unlocked translations, the prefetch queue (Table SAFE-9). -/
def Core.carried (c : Core) : Core :=
  { c with
    pfq := [], got := [], l1d := {}, l1i := {}, l1iPend := []
    tlbs := { c.tlbs with
      l2 := c.tlbs.l2.filter fun e => e.2.any fun w => w.lockI || w.lockD
      itlb := c.tlbs.itlb.filter fun e => e.2.any (·.pin)
      dtlb := c.tlbs.dtlb.filter fun e => e.2.any (·.pin) } }

/-- The slot that serves a logical core at manufacture. -/
def State.firstPlace (s : State) (lc : LC) : Option Nat :=
  let s' : State := { s with place := [] }
  s'.placeOf lc

/-- Records of the fault log whose part a spare has replaced (Table SAFE-3). -/
def State.repaired (s : State) (p : FaultRec → Bool) : State :=
  s.modShep fun x => { x with log := x.log.map fun r => if p r then { r with repaired := true } else r }

/-- Whether a message is an access to a logical-core window (R31). -/
def toWindow (lc : LC) (m : Msg) : Bool :=
  (m.kind == .devRd || m.kind == .devWr) && (windowAt m.addr.toNat).any fun w => w.1 == lc

/-- The mapping of a logical core changes at the commit instant of its swap (R17, R20, R31, R32): the old
slot is retired, the new one serves, MOVES advances, the regulator travels, and accesses to the core's window that
are held go to the new slot. -/
def State.remap (s : State) (lc : LC) (new : Nat) : State :=
  let old := s.placeOf lc
  let s := (s.emptyL1 lc).modCore lc Core.carried
  let s := match old with
    | none => s
    | some p =>
      let a := rcfgOfPlace p
      let b := rcfgOfPlace new
      let s := (s.cpSet b (s.cpGet a)).cpSet (b + 4) (s.cpGet (a + 4))
      let s := (s.cpSet a (cpReset a)).cpSet (a + 4) (cpReset (a + 4))
      let m := SMap.set none (SMap.set none s.shep.store b (SMap.get none s.shep.store a)) a none
      s.modShep fun x => { x with store := m }
  let s := s.beatReset new
  let s := match old with
    | some p => s.repaired fun r => r.source.toNat = (p / 20 + 1) * 256 + p % 20
        && 0x10 ≤ r.cls.toNat && r.cls.toNat ≤ 0x14
    | none => s
  let m := match old with
    | some p => SMap.set none s.slotSt p (some 2)
    | none => s.slotSt
  let st : Station := BitVec.ofNat 12 ((new / 20 + 1) * 256 + new % 20)
  let s := s.modShep fun x => { x with
    held := x.held.map fun m => if toWindow lc m then { m with dest := st } else m }
  { s with
    place := SMap.set (s.firstPlace lc) s.place lc.val (some new)
    moves := SMap.set 0 s.moves lc.val (SMap.get 0 s.moves lc.val + 1)
    slotSt := SMap.set none m new (some 0) }

/-- A slot is retired and its logical core stops for good (R435). -/
def State.loseCore (s : State) (lc : LC) : State :=
  match s.placeOf lc with
  | none => s
  | some p =>
    let s := (s.abandon lc).emptyL1 lc
    let s : State := { s with
      place := SMap.set (s.firstPlace lc) s.place lc.val none
      lastDie := SMap.set 0 s.lastDie lc.val (p / 20)
      slotSt := SMap.set none s.slotSt p (some 2) }
    let s := s.modCore lc fun c => { c with run := .lost }
    s.report shepStation 0x15 ((p / 20 + 1) * 256 + p % 20) lc.val

/-- A slot is retired, with the logical core that runs there. -/
def State.retireSlot (s : State) (p : Nat) : State :=
  match (List.finRange 216).find? fun lc => s.placeOf lc == some p with
  | some lc => s.loseCore lc
  | none => { s with slotSt := SMap.set none s.slotSt p (some 2) }

end Sys2Proof.Machine
end

