-- ==== Sys2Proof/Machine/Package.lean ====
section
/-!
DEFINITION. The serial units, the GPIO and secure time in the hub block (R333, R334, R522, Tables
PKG-10 and WLD-10), with the ownership check of R323.
-/

namespace Sys2Proof.Machine

/-- UNIT_OWNER of Shepherd-served unit `u` (Table WLD-6). -/
def servedOwner (u : Nat) : Nat := cpAddr shepStation (0x50000 + 4 * u)

/-- Whether an owner record accepts a data-path access (R323). -/
def ownerAccepts (o : Word32) (who : Accessor) : Bool :=
  bit o 10 && who.world == bit o 9 && (bit o 8 || who.pid == o.extractLsb' 0 8)

/-- Whether a Shepherd-served unit accepts an access from K or above (R322, R323, R522). -/
def State.servedOk (s : State) (u : Nat) (who : Accessor) : Bool :=
  who.lvl ≠ 0 && ownerAccepts (s.cpGet (servedOwner u)) who

/-! UARTs. -/

/-- A UART replaced; its source follows its line (State.hubLevel). -/
def State.setUart (s : State) (u : Nat) (x : Uart) : State :=
  { s with uarts := SMap.set {} s.uarts u x }

/-- UART_STATUS. -/
def Uart.status (x : Uart) : Nat :=
  (16 - x.tx.length) + x.rx.length * 2 ^ 5 + b2n x.txovr * 2 ^ 10 + b2n x.rxovr * 2 ^ 11
    + b2n x.frame * 2 ^ 12

/-- A byte is queued for transmission, or dropped with TXOVR. -/
def Uart.queue (x : Uart) (b : Byte) : Uart :=
  if x.tx.length < 16 then { x with tx := x.tx ++ [b] } else { x with txovr := true }

/-- A register of a UART read; a read of UART_DATA takes the oldest byte. -/
def State.uartRead (s : State) (u off : Nat) : Option (Nat × State) :=
  let x := s.uart u
  if off = 0 then some (x.rx.head?.elim 0 (·.toNat), s.setUart u { x with rx := x.rx.drop 1 })
  else if off = 4 then some (x.status, s)
  else if off = 8 then some (x.ctl.toNat, s)
  else none

/-- A register of a UART written under a bit mask. -/
def State.uartWrite (s : State) (u off v m : Nat) : Option State :=
  let x := s.uart u
  let b := BitVec.ofNat 32 v &&& BitVec.ofNat 32 m
  if off = 0 then some (if m % 2 = 1 then s.setUart u (x.queue (b.truncate 8)) else s)
  else if off = 4 then some (s.setUart u { x with
    txovr := x.txovr && !bit b 10, rxovr := x.rxovr && !bit b 11, frame := x.frame && !bit b 12 })
  else if off = 8 then
    some (s.setUart u { x with ctl := BitVec.ofNat 19 (mergeBits x.ctl.toNat v m) })
  else none

/-! I2C controllers. -/

/-- A controller replaced; its source follows its line (State.hubLevel). -/
def State.setI2c (s : State) (i : Nat) (x : I2c) : State :=
  { s with i2cs := SMap.set {} s.i2cs i x }

/-- I2C_STATUS. -/
def I2c.status (x : I2c) : Nat :=
  b2n x.busy + b2n x.done * 2 + b2n x.nack * 4 + b2n x.arb * 8 + b2n x.badlen * 16

/-- I2C_CMD written with GO: BADLEN, or a transfer where the controller is enabled and not busy. -/
def I2c.go (x : I2c) (w : Nat) : I2c :=
  let len := w / 2 ^ 8 % 32
  if x.busy then x
  else if len = 0 || 16 < len then { x with badlen := true }
  else if bit x.ctl 12 then { x with busy := true, cmd := BitVec.ofNat 13 w } else x

/-- A register of an I2C controller read. -/
def State.i2cRead (s : State) (i off : Nat) : Option Nat :=
  let x := s.i2c i
  if off = 0 then some x.ctl.toNat
  else if off = 4 then some 0
  else if off = 8 then some x.status
  else if 0x10 ≤ off && off < 0x20 && off % 4 = 0 then
    some (bytesToNat ((x.buf.drop (off - 0x10)).take 4))
  else none

/-- A register of an I2C controller written under a bit mask. GO needs the byte that holds it. -/
def State.i2cWrite (s : State) (i off v m : Nat) : Option State :=
  let x := s.i2c i
  let b := BitVec.ofNat 32 v &&& BitVec.ofNat 32 m
  if off = 0 then some (s.setI2c i { x with ctl := BitVec.ofNat 14 (mergeBits x.ctl.toNat v m) })
  else if off = 4 then some (if m % 2 ^ 16 = 2 ^ 16 - 1 && bit b 13 then s.setI2c i (x.go v) else s)
  else if off = 8 then some (s.setI2c i { x with
    done := x.done && !bit b 1, nack := x.nack && !bit b 2, arb := x.arb && !bit b 3,
    badlen := x.badlen && !bit b 4 })
  else if 0x10 ≤ off && off < 0x20 && off % 4 = 0 then
    let k := off - 0x10
    let old := bytesToNat ((x.buf.drop k).take 4)
    some (s.setI2c i { x with
      buf := x.buf.take k ++ natToBytes 4 (mergeBits old v m) ++ x.buf.drop (k + 4) })
  else none

/-! GPIO. -/

/-- GPIO_PIN_g. PULL 0b11 is treated as 0b10. -/
def Gpio.word (x : Gpio) : Nat :=
  b2n x.pin + b2n x.out * 2 + b2n x.oe * 4 + b2n x.pol * 8 + x.pull.toNat * 16

/-- A GPIO takes a new sampled level and registers: its level source follows the pin under POL
(State.hubLevel), an edge of the configured direction asserts its edge source. -/
def State.setGpio (s : State) (g : Nat) (x : Gpio) : State :=
  let old := s.gpio g
  let on := x.pin != x.pol
  let s : State := { s with gpios := SMap.set {} s.gpios g x }
  if x.pin != old.pin && on then s.raiseHub shepStation (64 + g) else s

/-- GPIO_PIN_g written under a bit mask; OUT and OE take effect together. -/
def State.gpioWrite (s : State) (g v m : Nat) : State :=
  let x := s.gpio g
  let w := mergeBits x.word v m
  let b : BitVec 6 := BitVec.ofNat 6 w
  let x := { x with out := bit b 1, oe := bit b 2, pol := bit b 3, pull := b.extractLsb' 4 2 }
  s.setGpio g (if x.oe then { x with pin := x.out } else x)

/-! Secure time (R333, R334). -/

/-- Secure time in us, ST_OFFSET + SCNT; 0 while it is not valid. -/
def State.stNow (s : State) : Word :=
  if s.stValid then s.stOffset + BitVec.ofNat 64 ((s.tb - s.scntBase).toNat / 1000) else 0

/-! The windows of the hub block. -/

/-- A word of the serial units, GPIO and ST_ALARM read: none is a bus error. -/
def State.pkgRead (s : State) (off : Nat) (who : Accessor) : Option (Nat × State) :=
  if 0x9000 ≤ off && off < 0x9080 then
    let u := (off - 0x9000) / 0x40
    if s.servedOk u who then s.uartRead u (off % 0x40) else none
  else if 0x9100 ≤ off && off < 0x9180 then
    let i := (off - 0x9100) / 0x40
    if s.servedOk (2 + i) who then (s.i2cRead i (off % 0x40)).map (·, s) else none
  else if 0x9200 ≤ off && off < 0x9280 && off % 4 = 0 then
    let g := (off - 0x9200) / 4
    if s.servedOk (4 + g) who then some ((s.gpio g).word, s) else none
  else if off = 0x2110 || off = 0x2114 then
    if s.servedOk 36 who then
      some (s.stAlarm.toNat / (if off = 0x2110 then 1 else 2 ^ 32) % 2 ^ 32, s)
    else none
  else none

/-- A word of them written under a byte mask: none is a bus error. -/
def State.pkgWrite (s : State) (off v : Nat) (bm : BitVec 4) (who : Accessor) : Option State :=
  let m := maskOf 4 bm.toNat
  if 0x9000 ≤ off && off < 0x9080 then
    let u := (off - 0x9000) / 0x40
    if s.servedOk u who then s.uartWrite u (off % 0x40) v m else none
  else if 0x9100 ≤ off && off < 0x9180 then
    let i := (off - 0x9100) / 0x40
    if s.servedOk (2 + i) who then s.i2cWrite i (off % 0x40) v m else none
  else if 0x9200 ≤ off && off < 0x9280 && off % 4 = 0 then
    let g := (off - 0x9200) / 4
    if s.servedOk (4 + g) who then some (s.gpioWrite g v m) else none
  else if off = 0x2110 || off = 0x2114 then
    if s.servedOk 36 who then
      let k := if off = 0x2110 then 1 else 2 ^ 32
      some { s with stAlarm := BitVec.ofNat 64 (mergeBits s.stAlarm.toNat (v * k) (m * k)), stAlarmed := false }
    else none
  else none

/-! Commands. -/

/-- A received byte enters the receive FIFO of an enabled UART; a full FIFO loses it (RXOVR); a
missing stop bit sets FRAME. -/
def execUartRx (u : Fin 2) (b : Byte) (frameErr : Bool) (s : State) : Out :=
  let x := s.uart u.val
  if !bit x.ctl 16 then .next s
  else
    let x := if x.rx.length < 16 then { x with rx := x.rx ++ [b] } else { x with rxovr := true }
    .next (s.setUart u.val { x with frame := x.frame || frameErr })

/-- A write of UART_DATA from a core. -/
def execUartDataWrite (u : Fin 2) (b : Byte) (who : Accessor) (s : State) : Out :=
  .next ((s.pkgWrite (0x9000 + 0x40 * u.val) b.toNat 1 who).getD s)

/-- A read of UART_DATA from a core. -/
def execUartDataRead (u : Fin 2) (who : Accessor) (s : State) : Out :=
  .next (match s.pkgRead (0x9000 + 0x40 * u.val) who with
    | some (_, s) => s
    | none => s)

/-- A byte has been shifted out of an enabled UART. -/
def execUartTxDone (u : Fin 2) (s : State) : Out :=
  let x := s.uart u.val
  if bit x.ctl 16 then .next (s.setUart u.val { x with tx := x.tx.drop 1 }) else .next s

/-- A write of I2C_CMD from a core. -/
def execI2cGo (u : Fin 2) (w : Word32) (who : Accessor) (s : State) : Out :=
  .next ((s.pkgWrite (0x9104 + 0x40 * u.val) w.toNat 15 who).getD s)

/-- An I2C transfer ends: what a read brought enters I2C_BUF from byte 0, and DONE is set. -/
def execI2cDone (u : Fin 2) (r : I2cResult) (s : State) : Out :=
  let x := s.i2c u.val
  if !x.busy then .next s
  else
    let n := field x.cmd 8 5
    let got := r.data.take n
    .next (s.setI2c u.val { x with
      busy := false, done := true, nack := x.nack || r.nack, arb := x.arb || r.arbLost
      buf := if bit x.cmd 7 then got ++ x.buf.drop got.length else x.buf })

end Sys2Proof.Machine
end

