-- ==== Sys2Proof/Machine/ShepBase.lean ====
section
/-!
DEFINITION. The command protocol of the Shepherd (R389 to R401): channels, packets, buffers, sequence
numbers and replies.
-/

namespace Sys2Proof.Machine

/-! Channels. -/

/-- Number of a mailbox channel: H 0 and 1, M 2 and 3. -/
def mbKey (mb : MbId) (ch : Fin 2) : Nat := ch.val + (match mb with | .h => 0 | .m => 2)

/-- A mailbox channel. -/
def State.mbox (s : State) (k : Nat) : Mbox := SMap.get {} s.shep.mbs k

/-- A mailbox channel changed. -/
def State.modMbox (s : State) (k : Nat) (f : Mbox → Mbox) : State :=
  s.modShep fun x => { x with mbs := SMap.set {} x.mbs k (f (SMap.get {} x.mbs k)) }

/-- Level of a channel's issuer: host 0, H 2, M 3 (Table CMD-1). -/
def chanLevel : Chan → BitVec 2
  | .admin => 0
  | .mb .h _ => 2
  | .mb .m _ => 3

/-- ISSUER byte of a request (Table CMD-1). -/
def issuerByte (r : ShepReq) : Nat :=
  match r.chan with
  | .admin => 0
  | .mb .h _ => 2 + 4 * b2n r.world
  | .mb .m _ => 7

/-- World of a request: M commands are of the secure world. -/
def worldOf (r : ShepReq) : Bool :=
  match r.chan with
  | .admin => false
  | .mb .h _ => r.world
  | .mb .m _ => true

/-- Whether an issuer is M. -/
def isM (r : ShepReq) : Bool := chanLevel r.chan == 3

/-- Whether a request comes from the admin queue. -/
def isAdmin (r : ShepReq) : Bool := r.chan == .admin

/-- A parameter word. -/
def param (r : ShepReq) (i : Nat) : Word32 := (r.params[i]?).getD 0

/-- Two parameter words as 64 bits. -/
def param64 (r : ShepReq) (i : Nat) : Word :=
  BitVec.ofNat 64 ((param r i).toNat + 2 ^ 32 * (param r (i + 1)).toNat)

/-- FLAGS.PBUF and FLAGS.RBUF. -/
def hasPbuf (r : ShepReq) : Bool := bit r.flags 0
/-- FLAGS.RBUF. -/
def hasRbuf (r : ShepReq) : Bool := bit r.flags 1

/-! Replies. -/

/-- DETAIL of a reply that names no item (Table CMD-4). -/
def noDetail : Word := 0xFFFFFFFF00000000

/-- The reply header (Table CMD-4), then inline data. -/
def State.replyBytes (s : State) (r : Reply) : List Byte :=
  let q := r.req
  let inl := if hasRbuf q then [] else r.data
  let evp := !(SMap.get [] s.evq (b2n (worldOf q))).isEmpty
  let flags := setBit q.flags 2 evp
  natToBytes 2 q.op.toNat ++ natToBytes 2 (4 * inl.length) ++ natToBytes 4 q.seq.toNat
    ++ natToBytes 1 (issuerByte q) ++ natToBytes 1 (if isAdmin q then 0 else q.pid.toNat)
    ++ natToBytes 1 flags.toNat ++ natToBytes 1 0
    ++ natToBytes 1 r.status.toNat ++ natToBytes 3 0 ++ natToBytes 8 r.detail.toNat
    ++ natToBytes 4 r.rlen ++ natToBytes 4 r.cnum.toNat ++ bytesOf32 inl

/-- Bytes entered in a map from a key on. -/
def putBytes (m : SMap Byte) (k : Nat) : List Byte → SMap Byte
  | [] => m
  | b :: t => putBytes (SMap.set 0 m k b) (k + 1) t

/-- A reply appears on its channel (R392, R393): in MB_REPLY with DONE and the reply source, or as an admin
CQ entry with its MSI-X message. `count` tells that the command completes, so that its SEQ becomes the
last one. -/
def State.putReply (s : State) (r : Reply) (count : Bool) : State :=
  match r.req.chan with
  | .mb mb ch =>
    let k := mbKey mb ch
    let irq := (s.mbox k).irq
    let bytes := s.replyBytes r
    let s := s.modMbox k fun m => { m with
      busy := false, done := true, run := none, irq := false
      lastSeq := if count then r.req.seq else m.lastSeq
      last := if count then some r else m.last
      reply := putBytes [] 0 bytes }
    if irq then s.raiseHub shepStation (match mb with | .h => 40 | .m => 41) else s
  | .admin =>
    let a := s.fold.aq
    let e := natToBytes 8 r.detail.toNat ++ natToBytes 2 r.req.seq.toNat
      ++ natToBytes 2 a.sqHead ++ natToBytes 1 r.status.toNat ++ natToBytes 1 a.gen.toNat
      ++ natToBytes 1 (b2n a.phase) ++ natToBytes 1 (s.cpField (foldAddr 0x20000) 0 8)
    let s := s.toHost { kind := .memWrite, fn := pf, data := e, bytes := 16, src := shepStation
                        addr := a.cqBase + BitVec.ofNat 64 (16 * a.cqTail) }
    let wrap := a.cqTail + 1 = a.depth
    let s := s.modAq fun a => { a with
      cqTail := if wrap then 0 else a.cqTail + 1, phase := if wrap then !a.phase else a.phase
      lastSeq := if count then r.req.seq else a.lastSeq, done := a.done || count }
    let s := if count then s.modShep fun x => { x with adminLast := some r } else s
    s.msix pf (field s.fold.aq.cfg 16 11)

/-! Buffers (R396). -/

/-- Whether one granule passes the check of a buffer: the issuer's world and partition, or for M the secure
world with any partition. -/
def State.granuleOk (s : State) (r : ShepReq) (p : Perm) (a : Nat) : Bool :=
  let chk := fun (st : Station) (n : Nat) =>
    if isM r then
      ((List.range n).filter fun i => s.regionMatches st i (a / 4096)).length = 1 &&
      match s.regionAt st n a with
      | none => false
      | some i =>
        let c := s.cpGet (cpAddr st (0x1000 + 16 * i))
        bit c 4 && bit c (match p with | .r => 1 | .w => 2 | .x => 3)
    else s.pasture st n a r.world r.pid p
  match targetOf a with
  | .hbm => chk (mcStation (quadOf a)) 32
  | .scratch => s.scratchOk a && chk (dcsStation (scratchDie a)) 16
  | _ => false

/-- Whether every granule of a buffer passes. -/
def State.bufOk (s : State) (r : ShepReq) (p : Perm) (a n : Nat) : Bool :=
  n = 0 || (List.range ((a + n - 1) / 4096 - a / 4096 + 1)).all fun i =>
    s.granuleOk r p ((a / 4096 + i) * 4096)

/-- Lines that the Shepherd reads with its exempt stamp, from HBM or scratch. -/
def State.shepRead (s : State) : Nat → Nat → HubAns (List Line)
  | _, 0 => .ok [] s
  | line, n + 1 =>
    let one : HubAns Line := if targetOf (64 * line) = .scratch then
        if (List.range 8).any fun i => SMap.get false s.poisWord (8 * line + i) then .poison s
        else .ok (s.memLine line) s
      else s.hubRead shepStation true 0 line
    match one with
    | .busy => .busy
    | .refuse s => .refuse s
    | .poison s => .poison s
    | .ok d s => match State.shepRead s (line + 1) n with
      | .ok l s => .ok (d :: l) s
      | x => x

/-- A line written under a mask by the Shepherd, to HBM or scratch. -/
def State.shepPut (s : State) (line : Nat) (d : Line) (mask : BitVec 64) : HubAns Unit :=
  if targetOf (64 * line) = .scratch then .ok () (s.setMemLine line d mask)
  else s.hubWrite shepStation true 0 line d mask

/-- Bytes written by the Shepherd from the start of a line on. -/
def State.shepWrite (s : State) : Nat → Nat → List Byte → HubAns Unit
  | _, 0, _ => .ok () s
  | line, n + 1, b =>
    let part := b.take 64
    match s.shepPut line (BitVec.ofNat 512 (bytesToNat part)) (byteMask 0 part.length) with
    | .ok _ s => State.shepWrite s (line + 1) n (b.drop 64)
    | x => x

/-- What a command's parameter buffer holds. -/
def State.pbufBytes (s : State) (r : ShepReq) : HubAns (List Byte) :=
  let n := r.bufLen.toNat
  if isAdmin r then .ok (r.host.take n ++ List.replicate (n - r.host.length) 0) s
  else match s.shepRead (r.pbuf.toNat / 64) ((n + 63) / 64) with
    | .ok l s => .ok ((l.flatMap bytesOfLine).take n) s
    | .busy => .busy
    | .refuse s => .refuse s
    | .poison s => .poison s

/-! Running a command. -/

/-- How a command's own work ends: with a status, DETAIL and reply data; later, the channel staying busy;
or it waits and is given again. -/
inductive ShepRes where
  | done (status : Nat) (s : State) (data : List Word32) (detail : Word)
  | later (s : State)
  | wait

/-- Done with a status and nothing else. -/
def ShepRes.status (n : Nat) (s : State) : ShepRes := .done n s [] noDetail

/-- Done with OK and reply data. -/
def ShepRes.ok (s : State) (data : List Word32 := []) : ShepRes := .done 0 s data noDetail

/-- What the table gives for an opcode: its code, who may issue it (A, N, S, M), parameter words (none where
they vary), the largest reply in bytes, whether the reply always goes to a buffer, the largest parameter
buffer, whether the buffer holds data and no parameters, and whether the table holds the opcode. -/
structure OpSpec where
  op    : BitVec 16
  a     : Bool := true
  n     : Bool := true
  sec   : Bool := true
  m     : Bool := true
  words : Option Nat := some 0
  reply : Nat := 0
  rbuf  : Bool := false
  maxBuf : Nat := 0x100000
  pbuf  : Bool := false
  known : Bool := true

/-- Whether the issuer is listed for an opcode (Table CMD-5). -/
def OpSpec.allows (o : OpSpec) (r : ShepReq) : Bool :=
  match r.chan with
  | .admin => o.a
  | .mb .h _ => if r.world then o.sec else o.n
  | .mb .m _ => o.m

/-- Whether LENGTH, BUF_LEN and the parameters fit the opcode (Table CMD-3). -/
def OpSpec.lengthOk (o : OpSpec) (r : ShepReq) : Bool :=
  let top := if isAdmin r then 32 else 480
  let total := r.length.toNat + (if o.pbuf then 0 else r.bufLen.toNat)
  r.length.toNat % 4 = 0 && r.length.toNat ≤ top && r.params.length * 4 = r.length.toNat
    && r.bufLen.toNat % 4 = 0 && r.bufLen.toNat ≤ o.maxBuf
    && (hasPbuf r || r.bufLen = 0)
    && (match o.words with
      | some w => total = 4 * w
      | none => true)

/-- A reply with its data written where they belong; none where a line is busy. -/
def State.answerShep (s : State) (r : ShepReq) (status : Nat) (data : List Word32) (detail : Word)
    (count : Bool := true) : Option State :=
  let n := 4 * data.length
  let rep : Reply := { req := r, status := BitVec.ofNat 8 status, detail := detail, data := data
                       rlen := if hasRbuf r then n else 0, cnum := s.shep.cnum }
  if !hasRbuf r || data.isEmpty then some (s.putReply rep count)
  else if isAdmin r then
    some ((s.toHost { kind := .memWrite, fn := pf, addr := r.rbuf, data := bytesOf32 data, bytes := n
                      src := shepStation }).putReply rep count)
  else match s.shepWrite (r.rbuf.toNat / 64) ((n + 63) / 64) (bytesOf32 data) with
    | .ok _ s => some (s.putReply rep count)
    | .busy => none
    | .refuse s => some (s.putReply { rep with status := 0x06, data := [], rlen := 0 } count)
    | .poison s => some (s.putReply { rep with status := 0xFF, data := [], rlen := 0 } count)

/-- Whether the Shepherd runs: power is up and its firmware booted, or only image commands are served
(R331). -/
def State.shepUp (s : State) : Bool :=
  !s.shep.inReset && !s.shep.vauxOff && (s.shep.booted.isSome || s.imageOnly)

/-- Opcodes that run in the background (Table CMD-5). -/
def background (op : BitVec 16) : Bool :=
  [0x0203, 0x0302, 0x0401, 0x0602, 0x0800, 0x0900, 0x0901, 0x0904].contains op.toNat

/-- Opcodes that need a commit: STAGE_COMMIT, and those marked "set". -/
def commits (op : BitVec 16) : Bool :=
  [0x0203, 0x0310, 0x0311, 0x0338, 0x033A, 0x0601, 0x0700, 0x0701].contains op.toNat

/-- Whether the admin queue holds a command that the Shepherd can fetch: a slot is waiting, there is room for its
completion and the port is open. -/
def State.adminReady (s : State) : Bool :=
  let a := s.fold.aq
  a.on && !a.error && a.sqHead ≠ a.sqTail && (a.cqTail + 1) % a.depth ≠ a.cqHead && s.hostOpen

/-- Whether a command submitted earlier on another channel comes before one of an opcode: unless it runs in the
background; of two commits the earlier one goes first (R398, R407). -/
def State.before (s : State) (op : BitVec 16) : Chan → Bool
  | .admin => s.adminReady
  | .mb mb ch =>
    let m := s.mbox (mbKey mb ch)
    m.busy && match m.run with
      | some q => !background q.op || (commits op && commits q.op)
      | none => false

/-- Whether it is a command's turn: the commands of other channels that were submitted before it have started
(R398). -/
def State.turn (s : State) (r : ShepReq) : Bool :=
  !(s.shep.order.takeWhile fun c => c != r.chan).any fun c => s.before r.op c

/-- Whether a submitted packet may be taken as this command (R392, R398): the channel holds it, or the admin queue
has a command to fetch, and it is its turn. -/
def State.mayStart (s : State) (r : ShepReq) : Bool :=
  (match r.chan with
  | .mb mb ch => (s.mbox (mbKey mb ch)).busy && (s.mbox (mbKey mb ch)).run == some r
  | .admin => s.adminReady) && s.turn r

/-- A command is taken from its channel. -/
def State.takeCmd (s : State) (r : ShepReq) : State :=
  let s := s.modShep fun x => { x with order := x.order.erase r.chan }
  match r.chan with
  | .mb mb ch => s.modMbox (mbKey mb ch) fun m => { m with busy := true, run := none }
  | .admin => s.modAq fun a => { a with sqHead := (a.sqHead + 1) % a.depth }

/-- The last SEQ of a channel, and the stored reply of its command (R397). -/
def State.lastOf (s : State) (r : ShepReq) : Word32 × Option Reply :=
  match r.chan with
  | .mb mb ch => ((s.mbox (mbKey mb ch)).lastSeq, (s.mbox (mbKey mb ch)).last)
  | .admin => (s.fold.aq.lastSeq, if s.fold.aq.done then s.shep.adminLast else none)

/-- A command that is refused before its work begins. -/
def State.refuseCmd (s : State) (r : ShepReq) (status : Nat) (count : Bool := true) : Out :=
  .next (((s.takeCmd r).answerShep r status [] noDetail count).getD s)

/-- Why `n` bytes of reply data cannot be given: RBUF_REQUIRED, or BUF_DENIED (R393, R396). -/
def State.replyBar (s : State) (r : ShepReq) (n : Nat) : Option Nat :=
  if 0 < n && !hasRbuf r && (isAdmin r || 480 < n) then some 0x07
  else if !isAdmin r && hasRbuf r && !s.bufOk r .w r.rbuf.toNat n then some 0x06
  else none

/-- A command whose reply is as long as its parameters ask for: the reply buffer is checked before its work. -/
def State.withReply (s : State) (r : ShepReq) (n : Nat) (res : ShepRes) : ShepRes :=
  match s.replyBar r n with
  | some e => .status e s
  | none => res

/-- A command of the Shepherd (R389 to R401): not before the Shepherd runs; the fetch of an admin command by a PF that
may not issue requests puts the queue in ERROR (R345, R380); a repeated SEQ returns the
stored reply; then the state of the domain, the issuer, lengths, the reply buffer and the parameter
buffer are checked, and the opcode's own work follows. -/
def State.shepRun (s : State) (o : OpSpec) (r : ShepReq) (body : ShepReq → State → ShepRes) : Out :=
  if !s.shepUp || r.op ≠ o.op || !s.mayStart r then .next s
  else if isAdmin r && !s.busMaster pf then .next ((s.countAt (pcieAddr 0x014) 0 16 1).adminError 4)
  else
    let (last, stored) := s.lastOf r
    if r.seq = last then
      match stored with
      | some rep => .next ((s.takeCmd r).putReply rep true)
      | none => s.refuseCmd r 0x04 false
    else if r.seq ≠ last + 1 then s.refuseCmd r 0x04 false
    else
      let image := 0x0900 ≤ o.op.toNat && o.op.toNat ≤ 0x0902
      if s.restarting || (s.imageOnly && !(image && isAdmin r)) then s.refuseCmd r 0x08
      else if !o.known then s.refuseCmd r 0x01
      else if !o.allows r then s.refuseCmd r 0x05
      else if !o.lengthOk r then s.refuseCmd r 0x02
      else if r.flags.toNat / 4 ≠ 0 || (hasPbuf r && r.pbuf.toNat % 64 ≠ 0)
          || (hasRbuf r && r.rbuf.toNat % 64 ≠ 0) then s.refuseCmd r 0x03
      else if 0 < o.reply && !hasRbuf r && (isAdmin r || o.rbuf || 480 < o.reply) then
        s.refuseCmd r 0x07
      else if !isAdmin r && ((hasPbuf r && !s.bufOk r .r r.pbuf.toNat r.bufLen.toNat)
          || (hasRbuf r && !s.bufOk r .w r.rbuf.toNat o.reply)) then s.refuseCmd r 0x06
      else
        let s1 := s.takeCmd r
        let full : HubAns ShepReq :=
          if o.pbuf || !hasPbuf r then .ok r s1
          else match s1.pbufBytes r with
            | .ok b s => .ok { r with params := r.params ++ words32 (b.length / 4) b } s
            | .busy => .busy
            | .refuse s => .refuse s
            | .poison s => .poison s
        match full with
        | .busy => .next s
        | .refuse s => s.refuseCmd r 0x06
        | .poison s => s.refuseCmd r 0xFF
        | .ok r' s2 =>
          match body r' s2 with
          | .wait => .next s
          | .later s3 => .next s3
          | .done st s3 data detail => .next ((s3.answerShep r st data detail).getD s)

/-! Channels' own commands (R390 to R392). -/

/-- Whether a core may reach a mailbox (R390). -/
def mbLevel (mb : MbId) (who : Accessor) : Bool :=
  match mb with
  | .h => 2 ≤ who.lvl.toNat
  | .m => who.lvl = 3

/-- Whether an accessor is a channel's holder. -/
def Mbox.heldBy (m : Mbox) (who : Accessor) : Bool := m.holder.isSome && m.holder == holderOf who

/-- MB_CLAIM.REQ: the first writer becomes the holder. -/
def Mbox.claim (m : Mbox) (who : Accessor) : Mbox :=
  if m.holder.isSome then m else { m with holder := holderOf who, fresh := true }

/-- MB_CLAIM.REL: from the holder while nothing runs, or from M. -/
def Mbox.free (m : Mbox) (who : Accessor) : Mbox :=
  if (m.heldBy who && !m.busy) || who.lvl = 3 then { m with holder := none } else m

/-- The packet in MB_CMD as the Shepherd takes it, with the issuer it writes (R389, Table CMD-3). -/
def Mbox.packet (m : Mbox) (chan : Chan) (who : Accessor) : ShepReq :=
  let rd := fun (o n : Nat) => readBytes m.cmd n o
  let len := rd 2 2
  { chan := chan, world := who.world, pid := who.pid
    op := BitVec.ofNat 16 (rd 0 2), length := BitVec.ofNat 16 len, seq := BitVec.ofNat 32 (rd 4 4)
    flags := BitVec.ofNat 8 (rd 10 1), bufLen := BitVec.ofNat 32 (rd 12 4)
    pbuf := BitVec.ofNat 64 (rd 16 8), rbuf := BitVec.ofNat 64 (rd 24 8)
    params := (List.range (min len 480 / 4)).map fun i => BitVec.ofNat 32 (rd (32 + 4 * i) 4) }

/-- MB_GO.GO: the packet is copied and BUSY set; DONE stays until it is written (Table CMD-2). At a holder's first GO
the reply of the holder before is gone (R391). -/
def Mbox.go (m : Mbox) (chan : Chan) (irq : Bool) (who : Accessor) : Mbox :=
  { m with busy := true, irq := irq, run := some (m.packet chan who), fresh := false
           reply := if m.fresh then [] else m.reply }

/-- A write of GO on a channel: from the holder while nothing runs there, the packet is submitted (R392). -/
def State.mbGo (s : State) (mb : MbId) (ch : Fin 2) (irq : Bool) (who : Accessor) : State :=
  let k := mbKey mb ch
  if (s.mbox k).heldBy who && !(s.mbox k).busy then
    (s.modMbox k (·.go (.mb mb ch) irq who)).modShep fun x => { x with order := x.order ++ [.mb mb ch] }
  else s

/-- MB_CLAIM.REQ of a mailbox channel. -/
def execMbClaimReq (mb : MbId) (ch : Fin 2) (who : Accessor) (s : State) : Out :=
  if mbLevel mb who && s.shepUp then .next (s.modMbox (mbKey mb ch) (·.claim who)) else .next s

/-- MB_CLAIM.REL of a mailbox channel. -/
def execMbClaimRel (mb : MbId) (ch : Fin 2) (who : Accessor) (s : State) : Out :=
  if mbLevel mb who && s.shepUp then .next (s.modMbox (mbKey mb ch) (·.free who)) else .next s

/-- MB_GO of a mailbox channel. -/
def execMbGo (mb : MbId) (ch : Fin 2) (irq : Bool) (who : Accessor) (s : State) : Out :=
  if mbLevel mb who && s.shepUp then
    .next (s.mbGo mb ch irq who) else .next s

/-- Every opcode of Table CMD-5. -/
def opcodes : List Nat :=
  [0x0100, 0x0101, 0x0102, 0x0103, 0x0104, 0x0105, 0x0200, 0x0201, 0x0202, 0x0203, 0x0204, 0x0205,
   0x0300, 0x0301, 0x0302, 0x0303, 0x0304, 0x0305, 0x0310, 0x0311, 0x0320, 0x0321, 0x0322, 0x0323,
   0x0324, 0x0325, 0x0326, 0x0330, 0x0331, 0x0338, 0x0339, 0x033A, 0x0400, 0x0401, 0x0402, 0x0500]
  ++ [0x0501, 0x0502, 0x0503, 0x0600, 0x0601, 0x0602, 0x0700, 0x0701, 0x0702, 0x0800, 0x0801, 0x0802,
   0x0810, 0x0900, 0x0901, 0x0902, 0x0903, 0x0904, 0x0A00, 0x0A01, 0x0B00, 0x0B01]

/-- A command with an opcode that the table does not hold (R399). -/
def execBadOpcode (r : ShepReq) (s : State) : Out :=
  if opcodes.contains r.op.toNat then .next s
  else s.shepRun { op := r.op, known := false } r fun _ s => .status 0x01 s

end Sys2Proof.Machine
end

