-- ==== Sys2Proof/Machine/Staging.lean ====
section
/-!
DEFINITION. Staged entries: what an entry may hold, who may stage it, and the consistency tests of
STAGE_CHECK (R317, R322, R324, R402 to R406, Tables CMD-9 and CMD-10).
-/

namespace Sys2Proof.Machine

/-- A staged entry: control-plane address and value. -/
abbrev SetEntry := Nat × Word32

/-- The configuration with entries applied: each writes its whole register (R403). -/
def State.withEntries (s : State) (es : List SetEntry) : State :=
  es.foldl (fun s e => match regDesc e.1 with
    | some d => s.cpSet e.1 (d.write true (s.cpGet e.1) e.2)
    | none => s) s

/-- The committed configuration: the registers, and for stations whose domain is off the store (R411). -/
def State.committed (s : State) : State :=
  s.withEntries (s.shep.store.filterMap fun e =>
    if s.isOff (cpStation e.1) then e.2.map (e.1, ·) else none)

/-- Entries with a later one in place of an earlier one of its address. -/
def addEntry (es : List SetEntry) (e : SetEntry) : List SetEntry :=
  if es.any fun x => x.1 = e.1 then es.map fun x => if x.1 = e.1 then e else x else es ++ [e]

/-! Scope (R404, Table CMD-9). -/

/-- Regions of the checker at a station, with the bytes it covers (Table WLD-3). -/
def checkerRegions (st : Station) : Nat :=
  match unitKind st with
  | some (.mc _) => 32
  | some .dcs => 16
  | some .portA => 16
  | some (.ce _) => 8
  | _ => 0

/-- Whether a region admits only a world and names only its partitions. -/
def State.regionOf (s : State) (a : Nat) (world : Bool) : Bool :=
  s.cpField a 4 2 = (if world then 1 else 2) &&
    (s.regionPids a).all fun p => s.pidWorld p == some world

/-- An owner record as ASSIGNED, WORLD, ANY and PID. -/
def ownedBy (o : Word32) (world : Bool) : Bool := !bit o 10 || bit o 9 == world

/-- Whether an owner record may be handed over by a world's H: the unit is owned by it, or to be (Table
WLD-8); a secure unit only by M. -/
def mayHand (world : Bool) (old new : Word32) : Bool := !world && ownedBy old false && ownedBy new false
  && (bit old 10 || bit new 10)

/-- Whether a world's issuer may stage a register (Table CMD-9); `n` is the configuration with its entries,
`es` the entries. -/
def State.inScope (s n : State) (es : List SetEntry) (world : Bool) (a : Nat) : Bool :=
  let st := cpStation a
  let off := a % 2 ^ 20
  let owner := fun (x : Nat) => mayHand world (s.cpGet x) (n.cpGet x)
  let group := fun (f : Nat) =>
    let o := s.cpGet (foldAddr (0x80000 + 4 * f))
    bit o 10 && bit o 9 == world
  if 0x1000 ≤ off && off < 0x1000 + 16 * checkerRegions st then
    let r := a / 16 * 16
    s.regionOf r world && n.regionOf r world
  else match unitKind st with
  | some .intd => if off = 0xFF004 then
      (es.any fun e => cpStation e.1 = st && 0x2080 ≤ e.1 % 2 ^ 20 && e.1 % 2 ^ 20 < 0x3000) &&
        es.all fun e => cpStation e.1 ≠ st || e.1 = a || owner e.1
    else owner a
  | some (.ce _) => if off = 0x100 || off = 0xFF004 then owner (cpAddr st 0x100)
    else off = 0x200 && (let o := s.cpGet (cpAddr st 0x100); bit o 10 && bit o 9 == world)
  | some (.loupe _) => (off = 0x100 || off = 0xFF004) && owner (cpAddr st 0x100)
  | some .dcs =>
    if 0x200 ≤ off && off < 0x2A0 && off % 8 = 0 then
      match dieOfStation st with
      | some d => match s.lcAt d ((off - 0x200) / 8) with
        | some lc => match SMap.get none s.shep.lcPart lc.val with
          | some p => s.pidWorld p.toNat == some world
          | none => false
        | none => false
      | none => false
    else 0x400 ≤ off && off < 0x800 && s.pidWorld ((off - 0x400) / 4) == some world
  | some .portA =>
    if 0x400 ≤ off && off < 0x800 then s.pidWorld ((off - 0x400) / 4) == some world
    else if 0x10000 ≤ off && off < 0x10000 + 8 * 1025 then
      off % 8 = 0 && group ((off - 0x10000) / 8)
    else 0x20000 ≤ off && off < 0x20000 + 8 * 1025 && group ((off - 0x20000) / 8)
  | some .fold =>
    if 0x80000 ≤ off && off < 0x80000 + 4 * 1025 then owner a
    else if 0x10000 ≤ off && off < 0x10000 + 8 * 1025 then group ((off - 0x10000) / 8)
    else 0x40020 ≤ off && off < 0x40000 + 32 * 1025 && group ((off - 0x40000) / 32)
  | some .shepherd => 0x50000 ≤ off && off < 0x50000 + 4 * 37 && owner a
  | _ => false

/-- Why a staged entry is refused (R403): its status. -/
def State.entryError (s n : State) (es : List SetEntry) (lvl : BitVec 2) (world : Bool) (e : SetEntry) :
    Option Nat :=
  match regDesc e.1 with
  | none => some 0x0A
  | some d =>
    if e.2 &&& ~~~(d.mask fun _ => true) ≠ 0 then some 0x15
    else if !d.has (fun t => t == .rwl || t == .rw)
        || e.2 &&& d.mask (fun t => t == .w1c || t == .w1s || t == .wo) ≠ 0 then some 0x16
    else if lvl ≠ 3 && !s.inScope n es world e.1 then some 0x14
    else none

/-! Consistency tests (R405, Table CMD-10). -/

/-- A violation: its status, the address it concerns and the lowest staged entry that causes it. -/
structure Viol where
  status : Nat
  addr   : Nat
  idx    : Option Nat
  deriving DecidableEq, Repr

/-- DETAIL of a violation (Table CMD-4). -/
def Viol.detail (v : Viol) : Word := BitVec.ofNat 64 (v.addr + (v.idx.getD 0xFFFFFFFF) * 2 ^ 32)

/-- Which of two violations of one test comes first: by entry index, those without one last and by
address. -/
def Viol.before (x y : Viol) : Bool :=
  match x.idx, y.idx with
  | some i, some j => i < j
  | some _, none => true
  | none, some _ => false
  | none, none => x.addr < y.addr

/-- The first violation of one test. -/
def firstViol (l : List Viol) : Option Viol :=
  l.foldl (fun (m : Option Viol) v => match m with
    | none => some v
    | some w => if v.before w then some v else m) none

/-- The index of an entry for an address. -/
def idxOf (es : List SetEntry) (a : Nat) : Option Nat := es.findIdx? fun e => e.1 = a

/-- The lowest index among entries that pass a test. -/
def idxWhere (es : List SetEntry) (p : Nat → Bool) : Option Nat := es.findIdx? fun e => p e.1

/-- Whether a register holds a value outside the limits its map sets (Table CMD-10 order 1). -/
def State.outOfRange (n : State) (a : Nat) : Bool :=
  let off := a % 2 ^ 20
  let f := fun lo w => n.cpField a lo w
  match unitKind (cpStation a) with
  | some (.home _) => off = 0x00C && 0x400 < f 0 13
  | some (.mc _) =>
    if off = 0x000 then f 16 6 = 0 || f 8 6 ≤ f 16 6 || 63 < f 8 6
    else if off = 0x00C then 8 < f 0 4 || f 16 10 = 0
    else off = 0x080 && (f 4 12 < 10 || f 16 8 = 0)
  | some (.router _) => off = 0x000 && f 0 8 = 0
  | some .diePort => off = 0x100 && (f 0 16 = 0 || f 16 16 = 0)
  | some (.hubPort _) => off = 0x100 && (f 0 16 = 0 || f 16 16 = 0)
  | some .portA => off = 0x004 && f 8 8 = 0
  | some .mirror =>
    if off = 0x000 then f 8 14 < 250 || 10000 < f 8 14
    else false
  | some .shepherd =>
    if off = 0x60000 then f 0 10 = 0 || 1000 < f 0 10
    else if 0x70100 ≤ off && off < 0x70500 then
      (wcDefault ((off - 0x70100) / 4)).1 ≠ 0 && (f 0 8 = 0 || f 16 16 = 0)
    else if off = 0x71040 then f 0 4 = 0 || 11 < f 0 4
    else if off = 0x80048 then f 0 10 < 920 || 1000 < f 0 10
    else off = 0x8004C && 215 < f 0 8
  | _ => false

/-- The Mirror port's areas as register address, first byte and end: four logs and the staging area (Table
MIR-5). -/
def State.mirAreas (n : State) : List (Nat × Nat × Nat) :=
  let log := fun (q : Nat) =>
    let a := cpAddr mirrorStation (0x040 + 8 * q)
    let b := (n.cpGet64 a).toNat
    (a, b, b + 2 ^ 20)
  let a := cpAddr mirrorStation 0x030
  let b := (n.cpGet64 a).toNat
  (List.range 4).map log ++ [(a, b, b + 2 ^ 29)]

/-- Whether a Mirror area is out of its limits: a log outside its quadrant, staging outside HBM, or an
overlap with a valid HBM region. -/
def State.mirAreaBad (n : State) (x : Nat × Nat × Nat) : Bool :=
  let (a, b, e) := x
  let q := (a % 2 ^ 20 - 0x040) / 8
  let outside := if a % 2 ^ 20 = 0x030 then 2 ^ 36 < e else b < q * 2 ^ 34 || (q + 1) * 2 ^ 34 < e
  outside || (List.finRange 4).any fun q => (List.range 32).any fun r =>
    let p := cpAddr (mcStation q) (0x1000 + 16 * r)
    n.cpField p 0 1 = 1 && b / 4096 ≤ (n.cpGet (p + 12)).toNat && (n.cpGet (p + 8)).toNat * 4096 < e

/-- Test 1: field limits. -/
def State.testRange (n : State) (es : List SetEntry) : List Viol :=
  let own := es.filterMap fun e => if n.outOfRange e.1 then some ⟨0x17, e.1, idxOf es e.1⟩ else none
  let budgets := (List.range 4).map fun q => n.cpField (cpAddr mirrorStation (0x020 + 4 * q)) 0 12
  let mir := if 480 < budgets.sum then
      [⟨0x17, cpAddr mirrorStation 0x020,
        idxWhere es fun a => cpAddr mirrorStation 0x020 ≤ a && a < cpAddr mirrorStation 0x030⟩]
    else []
  let on := n.cpField (cpAddr mirrorStation 0) 0 1 = 1
  let areas := n.mirAreas.filterMap fun x =>
    let i := idxWhere es fun a => a / 8 = x.1 / 8
    if (on || i.isSome) && n.mirAreaBad x then some ⟨0x17, x.1, i⟩ else none
  let react := (List.range 256).filterMap fun p =>
    let a := cpAddr shepStation (0x70800 + 4 * p)
    let r := n.cpField a 0 2
    if r ≠ 0 && r ≠ 3 && n.critical p then some ⟨0x17, a, idxOf es a⟩ else none
  own ++ mir ++ areas ++ react

/-- The owner records that a set stages, each with whether it holds its own epoch, and the STN_EPOCH that
is its role epoch otherwise (Table WLD-6). -/
def ownerRecord (a : Nat) : Option (Bool × Option Nat) :=
  let st := cpStation a
  let off := a % 2 ^ 20
  match unitKind st with
  | some .fold => if 0x80000 ≤ off && off < 0x80000 + 4 * 1025 then some (true, none) else none
  | some .shepherd => if 0x50000 ≤ off && off < 0x50000 + 4 * 37 then some (true, none) else none
  | some (.ce _) => if off = 0x100 then some (false, some (cpAddr st 0xFF004)) else none
  | some (.loupe _) => if off = 0x100 then some (false, some (cpAddr st 0xFF004)) else none
  | some .intd =>
    if 0x2080 ≤ off && off < 0x2200 then some (false, none)
    else if 0x2200 ≤ off && off < 0x3000 then some (false, some (cpAddr st 0xFF004))
    else none
  | _ => none

/-- The released value of a record's fields: PID 0, ANY 0, WORLD 1, ASSIGNED 0 (R324). -/
def released (o : Word32) : Bool := field o 0 11 = 0x200

/-- Whether a set releases a unit whose role epoch stands at an STN_EPOCH. -/
def releasesAt (s n : State) (es : List SetEntry) (ep : Nat) : Bool :=
  es.any fun e => match ownerRecord e.1 with
    | some (_, some x) => x = ep && bit (s.cpGet e.1) 10 && !bit (n.cpGet e.1) 10
    | _ => false

/-- Whether a staged owner record breaks the order of a hand-over (R324). -/
def handoverBad (s n : State) (a : Nat) (own : Bool) (ep : Option Nat) : Bool :=
  let o := s.cpGet a
  let v := n.cpGet a
  let stepped : Option Bool := if own then some (decide (field v 12 6 ≠ field o 12 6))
    else ep.map fun x => decide (n.cpField x 0 6 ≠ s.cpField x 0 6)
  (!bit o 10 && bit v 10 && !released o)
    || (bit o 10 && bit v 10 && field o 0 10 ≠ field v 0 10)
    || (bit o 10 && !bit v 10 && (stepped == some false || !released v))
    || (own && !(bit o 10 && !bit v 10) && stepped == some true)

/-- Test 2: epochs and hand-overs. -/
def testOwners (s n : State) (es : List SetEntry) : List (List Viol) :=
  let step := es.filterMap fun e =>
    let o := s.cpGet e.1
    let v := n.cpGet e.1
    let i := idxOf es e.1
    if e.1 % 2 ^ 20 = 0xFF004 then
      if field v 0 6 = (field o 0 6 + 1) % 64 then none else some ⟨0x18, e.1, i⟩
    else match ownerRecord e.1 with
      | some (true, _) =>
        if field v 12 6 = field o 12 6 || field v 12 6 = (field o 12 6 + 1) % 64 then none
        else some ⟨0x18, e.1, i⟩
      | _ => none
  let order := es.filterMap fun e =>
    let i := idxOf es e.1
    match ownerRecord e.1 with
    | some (own, ep) => if handoverBad s n e.1 own ep then some ⟨0x30, e.1, i⟩ else none
    | none =>
      let off := e.1 % 2 ^ 20
      match unitKind (cpStation e.1) with
      | some .fold =>
        if 0x10000 ≤ off && off < 0x10000 + 8 * 1025 && n.cpGet e.1 ≠ s.cpGet e.1
            && bit (s.cpGet (foldAddr (0x80000 + 4 * ((off - 0x10000) / 8)))) 10 then
          some ⟨0x30, e.1, i⟩
        else none
      | some (.ce _) => if off = 0xFF004 && !releasesAt s n es e.1 then some ⟨0x30, e.1, i⟩ else none
      | some (.loupe _) => if off = 0xFF004 && !releasesAt s n es e.1 then some ⟨0x30, e.1, i⟩ else none
      | some .intd => if off = 0xFF004 && !releasesAt s n es e.1 then some ⟨0x30, e.1, i⟩ else none
      | _ => none
  let any := es.filterMap fun e =>
    match unitKind (cpStation e.1), ownerRecord e.1 with
    | some .fold, some _ => if bit (n.cpGet e.1) 8 then some ⟨0x31, e.1, idxOf es e.1⟩ else none
    | some (.ce _), some _ => if bit (n.cpGet e.1) 8 then some ⟨0x31, e.1, idxOf es e.1⟩ else none
    | _, _ => none
  [step, order, any]

/-- The Pasture checkers (Table WLD-3). -/
def checkers : List Station :=
  (List.finRange 4).map mcStation ++ [portAStation] ++ (List.range 4).map ceStation
    ++ (List.finRange 12).map dcsStation

/-- Whether granules `b` to `l` lie within what a checker covers. -/
def coveredBy (st : Station) (b l : Nat) : Bool :=
  let inside := fun lo n => lo ≤ b && l < lo + n
  match unitKind st with
  | some (.mc q) => inside (q * 2 ^ 22) (2 ^ 22)
  | some .dcs => inside (0x1000000 + (st.toNat / 256 - 1) * 0x2000) 0x2000
  | some .portA => inside 0x10000000 (2 ^ 28)
  | some (.ce _) => inside 0 (0x1000000 + 12 * 0x2000) || inside 0x10000000 (2 ^ 28)
  | _ => false

/-- A valid region: its station, PAST_CTL address, first and last granule, and the lowest entry that stages
one of its words. -/
structure Region where
  st  : Station
  a   : Nat
  lo  : Nat
  hi  : Nat
  idx : Option Nat

/-- The valid regions of every checker. -/
def State.regions (n : State) (es : List SetEntry) : List Region :=
  checkers.flatMap fun st => (List.range (checkerRegions st)).filterMap fun r =>
    let a := cpAddr st (0x1000 + 16 * r)
    if n.cpField a 0 1 = 1 then
      some ⟨st, a, (n.cpGet (a + 8)).toNat, (n.cpGet (a + 12)).toNat, idxWhere es fun x => x / 16 = a / 16⟩
    else none

/-- The lower of two entry indices, and which region holds it. -/
def lowerOf (x y : Region) : Region :=
  match x.idx, y.idx with
  | some i, some j => if i ≤ j then x else y
  | some _, none => x
  | none, some _ => y
  | none, none => if x.a ≤ y.a then x else y

/-- Test 3: Pastures, in the order of R317. -/
def testPastures (n : State) (es : List SetEntry) : List (List Viol) :=
  let rs := n.regions es
  let laps := rs.flatMap fun x => rs.filterMap fun y =>
    if x.st = y.st && x.a < y.a && x.lo ≤ y.hi && y.lo ≤ x.hi then
      let z := lowerOf x y
      some ⟨0x28, z.a, z.idx⟩
    else none
  let pick := fun (status : Nat) (bad : Region → Bool) =>
    rs.filterMap fun x => if bad x then some (⟨status, x.a, x.idx⟩ : Viol) else none
  [ laps
  , pick 0x29 fun x => x.hi < x.lo || !coveredBy x.st x.lo x.hi
  , pick 0x2A fun x => let c := n.cpGet x.a
      field c 4 2 = 0 || (!bit c 6 && field c 12 4 = 0)
  , pick 0x2B fun x => let c := n.cpGet x.a
      (n.regionPids x.a).any fun p => match n.pidWorld p with
        | none => true
        | some w => !bit c 6 && bit c (if w then 5 else 4)
  , pick 0x2C fun x => let c := n.cpGet x.a
      match unitKind x.st with
      | some (.mc _) => false
      | some .dcs => bit c 8
      | _ => bit c 7 || bit c 8 ]

/-- Test 4: a hub source assigned at more than one site (R130). -/
def testSites (n : State) (es : List SetEntry) : List Viol :=
  es.filterMap fun e =>
    let off := e.1 % 2 ^ 20
    let i := (off - 0x2000) / 4
    match unitKind (cpStation e.1) with
    | some .intd =>
      if 0x2000 ≤ off && off < 0x3000 && hubId i && bit (n.cpGet e.1) 10
          && 1 < ((List.finRange 12).filter fun d => bit (n.intdOwner d i) 10).length then
        some ⟨0x19, e.1, idxOf es e.1⟩
      else none
    | _ => none

/-- First and last byte of a log buffer of a function, in a configuration. -/
def State.logBuf (n : State) (v : Nat) (b : Bool) : Nat × Nat :=
  let base := (n.cpGet64 (logAddr v (if b then 8 else 0))).toNat
  (base, base + 2 ^ n.cpField (logAddr v 0x18) 8 5 / 8)

/-- Whether a function's staged log is out of its limits (R384). -/
def logBad (s n : State) (v : Nat) : Bool :=
  let c := logAddr v 0x18
  let same := [0x00, 0x04, 0x08, 0x0C, 0x10, 0x14].all fun o =>
    n.cpGet (logAddr v o) = s.cpGet (logAddr v o)
  let was := s.cpField c 0 1 = 1
  let on := n.cpField c 0 1 = 1
  let k := n.cpField c 8 5
  let (a0, a1) := n.logBuf v false
  let (b0, b1) := n.logBuf v true
  (was && (!same || k ≠ s.cpField c 8 5))
    || (on && (k < 15 || 28 < k || 2 ^ 36 < a1 || 2 ^ 36 < b1 || (a0 < b1 && b0 < a1)))

/-- Test 5: Fold maps, contexts and logs. -/
def testFold (s n : State) (es : List SetEntry) : List (List Viol) :=
  let groups := es.filterMap fun e =>
    let off := e.1 % 2 ^ 20
    if cpStation e.1 = foldStation && 0x10000 ≤ off && off < 0x10000 + 8 * 1025 then
      some (e.1, (off - 0x10000) / 8) else none
  let range := groups.filterMap fun g =>
    let b := n.qBase g.2
    let c := n.qCount g.2
    if 1024 < c || (c ≠ 0 && (b = 0 || 2 ^ 20 < b + c)) then some ⟨0x40, g.1, idxOf es g.1⟩ else none
  let laps := groups.filterMap fun g =>
    let b := n.qBase g.2
    let c := n.qCount g.2
    if c ≠ 0 && (List.range 1025).any fun h => h ≠ g.2 && n.qCount h ≠ 0
        && n.qBase h < b + c && b < n.qBase h + n.qCount h then some ⟨0x41, g.1, idxOf es g.1⟩
    else none
  let ctx := es.filterMap fun e =>
    if (e.1 = foldAddr 0x008 || e.1 = foldAddr 0x00C) && (n.cpGet e.1 ≠ s.cpGet e.1) &&
        (2 ^ 36 < n.ctxBase + 2 ^ 26 || (List.range 1025).any fun f => bit (s.grpOwner f) 10) then
      some ⟨0x42, e.1, idxOf es e.1⟩ else none
  let logs := es.filterMap fun e =>
    let off := e.1 % 2 ^ 20
    if cpStation e.1 = foldStation && 0x40020 ≤ off && off < 0x40000 + 32 * 1025
        && logBad s n ((off - 0x40000) / 32) then some ⟨0x45, e.1, idxOf es e.1⟩ else none
  [range, laps, ctx, logs]

/-- Test 6: apertures and the host window. -/
def testPcie (n : State) (es : List SetEntry) : List (List Viol) :=
  let apt := es.filterMap fun e =>
    let off := e.1 % 2 ^ 20
    if cpStation e.1 = portAStation && 0x20000 ≤ off && off < 0x20000 + 8 * 1025 then
      let f := (off - 0x20000) / 8
      let a := pcieAddr (0x20000 + 8 * f)
      let base := (n.cpGet64 a).toNat / 2 ^ 26 * 2 ^ 26
      let size := if f = 0 then 2 ^ 34 else 2 ^ 26
      if n.cpField a 0 1 = 1 && (2 ^ 36 < base + size || base % size ≠ 0) then
        some ⟨0x38, e.1, idxOf es e.1⟩ else none
    else none
  let win := es.filterMap fun e =>
    if (e.1 = pcieAddr 0x018 || e.1 = pcieAddr 0x01C)
        && 2 ^ 64 < (n.cpGet64 (pcieAddr 0x018)).toNat + 2 ^ 40 then
      some ⟨0x39, e.1, idxOf es e.1⟩ else none
  [apt, win]

/-- Whether an address is a REG_RCFG (Table REG-1). -/
def isRcfg (a : Nat) : Bool :=
  let off := a % 2 ^ 20
  match unitKind (cpStation a) with
  | some .dcs => 0x200 ≤ off && off < 0x2A0 && off % 8 = 0
  | some (.ce _) => off = 0x200
  | some .fold => off = 0x200
  | some .portA => 0x10000 ≤ off && off < 0x10000 + 8 * 1025 && off % 8 = 0
  | _ => false

/-- Test 7: regulation, in the order of R301. -/
def testRegulation (n : State) (es : List SetEntry) : List (List Viol) :=
  let window := es.filterMap fun e =>
    if isRcfg e.1 && 1600 * (n.cpField e.1 18 10 + 1) < n.cpField e.1 0 18 then
      some ⟨0x20, e.1, idxOf es e.1⟩ else none
  let onStack := (List.range 4).map fun q => classesOn n.cpGet q
  let dup := onStack.any fun l => l.any fun x => l.any fun y =>
    x.t < y.t && x.g ≠ 0 && y.g ≠ 0 && x.rank = y.rank
  let above := onStack.any fun l => 4055 < totalG l
  let crit := onStack.any fun l => 3778 < totalG (l.filter (·.crit))
  let mir := (List.range 4).filterMap fun q =>
    let g := cpAddr shepStation (0x60200 + 16 * 15 + 4 * q)
    let m := cpAddr mirrorStation (0x020 + 4 * q)
    if n.cpField g 0 12 = n.cpField m 0 12 then none
    else some ⟨0x24, g, idxWhere es fun a => a = g || a = m⟩
  let whole := fun (b : Bool) (status : Nat) => if b then [(⟨status, 0, none⟩ : Viol)] else []
  [window, whole dup 0x21, whole above 0x22, whole crit 0x23, mir]

/-- The Prism port at a station. -/
def portAt (st : Station) : Option PortId :=
  match unitKind st with
  | some .diePort => (dieOfStation st).map fun d => ⟨d, false⟩
  | some (.hubPort n) => if h : n < 12 then some ⟨⟨n, h⟩, true⟩ else none
  | _ => none

/-- Test 8: staged lane swaps without a spare (R286). -/
def testSpares (s n : State) (es : List SetEntry) : List Viol :=
  es.filterMap fun e =>
    match portAt (cpStation e.1) with
    | some p =>
      if e.1 % 2 ^ 20 = 0x0D4 && n.cpField e.1 5 1 = 1 && (s.pickSpare p).isNone then
        some ⟨0x1A, e.1, idxOf es e.1⟩ else none
    | none => none

/-- Test 9: reflection turned off where a partition requires it (R432). -/
def testReflection (n : State) (es : List SetEntry) : List Viol :=
  (List.finRange 12).filterMap fun d =>
    let a := cpAddr (dcsStation d) 0x100
    let needs := (n.lcsOf d).any fun lc => match SMap.get none n.shep.lcPart lc.val with
      | some p => n.cpField (cpAddr shepStation (0x70800 + 4 * p.toNat)) 2 1 = 1
      | none => false
    if n.cpField a 12 1 = 0 && needs then some ⟨0x1B, a, idxOf es a⟩ else none

/-- The first violation that the tests of Table CMD-10 find in a set of entries (R405). -/
def State.checkSet (s : State) (es : List SetEntry) : Option Viol :=
  let s := s.committed
  let n := s.withEntries es
  let tests := [n.testRange es] ++ testOwners s n es ++ testPastures n es ++ [testSites n es]
    ++ testFold s n es ++ testPcie n es ++ testRegulation n es ++ [testSpares s n es]
    ++ [testReflection n es]
  tests.findSome? firstViol

/-- What each class would lose on each stack under HOT (R301, STAGE_CHECK D2 to D33). -/
def State.hotLoss (s : State) (es : List SetEntry) : List Word32 :=
  let n := s.committed.withEntries es
  let halves := (List.range 4).flatMap fun q =>
    let l := classesOn n.cpGet q
    (l.zip (effective 3778 l).1).map fun x => x.1.g - x.2.g
  (List.range 32).map fun i =>
    BitVec.ofNat 32 ((halves[2 * i]?).getD 0 + (halves[2 * i + 1]?).getD 0 * 2 ^ 16)

end Sys2Proof.Machine
end

