-- ==== Sys2Proof/Machine/Commit.lean ====
section
/-!
DEFINITION. The commit sequence (R406 to R414, Table CMD-11): drains, ARM and the shadow writes, FIRE and
the hold, the switch of each station with what becomes of its units, RESUME and the reply.
-/

namespace Sys2Proof.Machine

/-! The sequence's record. -/

/-- The running commit sequence changed. -/
def State.modCommit (s : State) (f : Commit → Commit) : State :=
  s.modShep fun x => { x with commit := x.commit.map f }

/-- The number of the running commit. -/
def State.commitNum (s : State) : Nat := (s.shep.cnum + 1).toNat

/-- A COMMIT frame of a phase: 0 ARM, 1 FIRE, 2 RESUME, 3 DISARM (R408). -/
def State.commitFrame (s : State) (ph : Nat) : State :=
  s.putFrame { op := 8, data := BitVec.ofNat 32 (s.commitNum % 2 ^ 30 + ph * 2 ^ 30) }

/-- Whether a frame is a good COMMIT frame of a phase of the running commit. -/
def State.isCommit (s : State) (f : Frame) (ph : Nat) : Bool :=
  frameGood f 8 && f.data.toNat = s.commitNum % 2 ^ 30 + ph * 2 ^ 30

/-! Drains (R149, R151, R318). -/

/-- Ways that a change of the way mode takes from the cache. -/
def waysTaken (old new : Word32) : List Nat :=
  (List.range 16).filter fun w => cacheableWay old w && !cacheableWay new w

/-- Whether a region's change takes a world, a partition, a permission or a granule from it. -/
def narrowed (old new : State) (a : Nat) : Bool :=
  let o := old.cpGet a
  let n := new.cpGet a
  let lost := fun (i : Nat) => bit o i && !bit n i
  bit o 0 && (!bit n 0 || lost 1 || lost 2 || lost 3 || lost 4 || lost 5
    || (if bit o 6 then !bit n 6 else !bit n 6 &&
          (old.regionPids a).any fun p => !(new.regionPids a).contains p)
    || (old.cpGet (a + 8)).toNat < (new.cpGet (a + 8)).toNat
    || (new.cpGet (a + 12)).toNat < (old.cpGet (a + 12)).toNat)

/-- Lines of the regions of a checker that a set narrows, as first line and end. -/
def narrowedAt (old new : State) (st : Station) : List (Nat × Nat) :=
  (List.range (checkerRegions st)).filterMap fun r =>
    let a := cpAddr st (0x1000 + 16 * r)
    if narrowed old new a then
      some ((old.cpGet (a + 8)).toNat * 64, ((old.cpGet (a + 12)).toNat + 1) * 64)
    else none

/-- The drains of a set begin: ways that become scratch or the log close to allocation. -/
def State.startDrain (s : State) (es : List SetEntry) : State :=
  let n := s.withEntries es
  (List.finRange 12).foldl (fun s d =>
    let old := s.wayMode d
    let new := n.wayMode d
    let taken := waysTaken old new
    if taken.isEmpty && lockLimit old ≤ lockLimit new then s
    else s.modDie d fun x => { x with drain := true
                                      closed := BitVec.ofNat 16 (taken.map (2 ^ ·)).sum }) s

/-- Drains end without a switch: closed ways open again. -/
def State.endDrain (s : State) : State :=
  (List.finRange 12).foldl (fun s d =>
    s.modDie d fun x => { x with drain := false, closed := 0, lockMax := none }) s

/-- The drain of a die has ended (DC_STATUS.DRAIN, R151): until the switch the ways stay closed, and no set
takes more locks than the new mode allows (R147). -/
def State.drainsDone (s : State) (n : State) : State :=
  (List.finRange 12).foldl (fun s d => if (s.die d).drain then
    s.modDie d fun x => { x with drain := false, lockMax := some (lockLimit (n.wayMode d)) } else s) s

/-- A sub-block of a die is written back if it is dirty, and leaves the die; none where its home is busy
with the line. -/
def State.flushSub (s : State) (d : Die) (line : Nat) : Option State :=
  let u : Sub := (s.die d).sub line
  if u.st = .i then some s
  else if !s.lineFree line || s.mirBlocked line then none
  else
    let s := (s.dropSub d line).setDt d line .i
    if u.st = .m then some ((s.mirTouch line).homeWrite (quadOf (64 * line)) line u.data u.pois)
    else some s

/-- A sector of a way that is taken is cleaned, invalidated and unlocked. -/
def State.flushWay (s : State) (d : Die) (key : Nat) : Option State :=
  let se := SMap.get {} (s.die d).secs key
  match se.tag with
  | none => some s
  | some t =>
    if s.wayAwaited d (key / 16) (key % 16) then none
    else
      let o := (List.range 4).foldl (fun (o : Option State) b =>
        o.bind fun s => s.flushSub d (4 * t + b)) (some s)
      o.map fun s =>
        let s := if se.lock then s.count16 (cpAddr (dcsStation d) 0x110) 1 else s
        s.modDie d fun x => { x with secs := SMap.set {} x.secs key {} }

/-- Locked sectors of a set above a limit are unlocked from the highest way on. -/
def State.unlockExcess (s : State) (d : Die) (limit set : Nat) : State :=
  let locked := (List.range 16).filter fun w => ((s.die d).sec set w).lock
  let extra := (locked.reverse).take (locked.length - limit)
  let s := extra.foldl (fun s w =>
    s.modDie d fun x => x.setSec set w { x.sec set w with lock := false }) s
  s.count16 (cpAddr (dcsStation d) 0x110) extra.length

/-- The drain of one die's way mode (R151); none where it must wait. -/
def State.drainDie (s : State) (new : Word32) (d : Die) : Option State :=
  let old := s.wayMode d
  let taken := waysTaken old new
  let o := (s.die d).secs.foldl (fun (o : Option State) e =>
    o.bind fun s => if taken.contains (e.1 % 16) then s.flushWay d e.1 else some s) (some s)
  o.map fun s =>
    if lockLimit new < lockLimit old then
      ((s.die d).secs.filterMap fun e => if e.2.lock then some (e.1 / 16) else none).dedup.foldl
        (fun s set => s.unlockExcess d (lockLimit new) set) s
    else s

/-- Lines that some die holds within a range. -/
def State.linesIn (s : State) (lo hi : Nat) : List Nat :=
  ((List.finRange 12).flatMap fun d => (s.die d).secs.flatMap fun e => match e.2.tag with
    | some t => (List.range 4).filterMap fun b =>
        if (e.2.sub b).st ≠ .i && lo ≤ 4 * t + b && 4 * t + b < hi then some (4 * t + b) else none
    | none => []).dedup

/-- CLEAN_INVAL with FORCE of every line of a range (R318); none while a home is busy with one. -/
def State.flushRange (s : State) (r : Nat × Nat) : Option State :=
  let inside := fun (l : Nat) => r.1 ≤ l && l < r.2
  let busy := (List.finRange 4).any (fun q =>
      (s.home q).table.any (fun e => inside e.msg.line) || (s.home q).held.any fun m => inside m.line)
    || (List.finRange 12).any fun d => (s.die d).evb.any fun e => e.2.any fun v =>
        (List.range 4).any fun b => (SMap.get none v.subs b).isSome && inside (4 * v.sector + b)
  if busy then none
  else (s.linesIn r.1 r.2).foldl (fun (o : Option State) l => o.bind fun s =>
    (List.finRange 12).foldl (fun (o : Option State) d => o.bind fun s =>
      (s.flushSub d l).map fun s => s.modDie d fun x => match x.wayOf l with
        | some w => x.setSec (dcSet l) w { x.sec (dcSet l) w with lock := false }
        | none => x) (some s)) (some s)

/-- Every drain of a set; none where one must wait. -/
def State.drainAll (s : State) (es : List SetEntry) : Option State :=
  let n := s.withEntries es
  let ranges := (List.finRange 4).flatMap fun q => narrowedAt s n (mcStation q)
  let o := ranges.foldl (fun (o : Option State) r => o.bind fun s => s.flushRange r) (some s)
  ((List.finRange 12).foldl (fun (o : Option State) d => o.bind fun s =>
    if s.wayMode d = n.wayMode d then some s else s.drainDie (n.wayMode d) d) o).map fun s => s.drainsDone n

/-- The entry of a live swap's set: DXB_FENCE of the old slot (R257, Table SAFE-9). -/
def State.swapSet (s : State) (lc : LC) : List SetEntry := ((s.placeOf lc).map s.fenceEntry).toList

/-! Steps 2 to 4. -/

/-- The die control station of a place. -/
def dcsOfPlace (p : Nat) : Station := BitVec.ofNat 12 ((p / 20 + 1) * 256 + 0x3F)

/-- Stations that a set names: those of its entries whose domain is on (R411), and the die control stations
between which a core moves. -/
def State.setStations (s : State) (c : Commit) : List Station :=
  let own := (c.entries.map fun e => cpStation e.1).filter fun st => !s.isOff st
  let move := match c.what with
    | .swap lc new => [dcsOfPlace new, dcsOfPlace ((s.placeOf lc).getD new)]
    | .retire p => [dcsOfPlace p]
    | _ => []
  (own ++ move).dedup

/-- A WRITE frame of an entry goes out under its station's next SEQ (R252). -/
def State.sendEntry (s : State) (e : SetEntry) : State :=
  let st := cpStation e.1
  let seq := s.nextSeq st
  let s := s.modCommit fun c => { c with left := c.left ++ [(seq, e.1)] }
  (s.modShep fun x => { x with seqs := SMap.set 0 x.seqs st.toNat seq }).sendFrame
    { op := 2, seq := seq, addr := BitVec.ofNat 32 e.1, data := e.2 }

/-- Entries go out while fewer than 64 frames of their station are outstanding (R252). -/
def State.feedEntries (s : State) : State :=
  match s.shep.commit with
  | none => s
  | some c => c.todo.foldl (fun s e =>
      if s.outstanding (cpStation e.1) < 64 then
        (s.modCommit fun c => { c with todo := c.todo.erase e }).sendEntry e
      else s) s

/-- FIRE is sent once every station is armed and every shadow loaded, and no cut runs (Table CMD-11 step
3, R449). -/
def State.tryFire (s : State) : State :=
  match s.shep.commit with
  | some c =>
    if c.phase == .arm && c.left.isEmpty && c.todo.isEmpty && c.stations.all c.armed.contains
        && s.mir.cutFrom.isNone then
      (s.modCommit fun c => { c with phase := .fire, fireAt := s.tb }).commitFrame 1
    else s
  | none => s

/-- ARM is sent to the stations named (Table CMD-11 step 2). -/
def State.armCommit (s : State) (c : Commit) : State :=
  let sts := s.setStations c
  let todo := c.entries.filter fun e => !s.isOff (cpStation e.1)
  let s := s.modCommit fun c => { c with phase := .arm, armAt := s.tb, stations := sts, todo := todo }
  if sts.isEmpty then s.tryFire else s.commitFrame 0

/-- Whether an address is RTR_SITE_FENCE of a router. -/
def isSiteFence (a : Nat) : Bool :=
  a % 2 ^ 20 == 4 && match unitKind (cpStation a) with
    | some (.router _) => true
    | _ => false

/-- The addresses of RTR_SITE_FENCE in every router. -/
def siteFences : List Nat :=
  (List.range 28).map fun k => cpAddr (routerStation (k % 7) (k / 7)) 4

/-- A set that writes RTR_SITE_FENCE of one router writes every copy, since the copies of any two routers always
agree (R256). DESIGN CHOICE: of several values in a set the last one counts (log entry 140). -/
def spreadFence (es : List SetEntry) : List SetEntry :=
  match (es.filter fun e => isSiteFence e.1).getLast? with
  | none => es
  | some e => (es.filter fun x => !isSiteFence x.1) ++ siteFences.map (·, e.2)

/-- A commit sequence begins with its drains (R407). -/
def State.startCommit (s : State) (what : CommitFor) (req : Option ShepReq) (es : List SetEntry) :
    State :=
  let es := spreadFence es
  (s.modShep fun x => { x with
    commit := some { what := what, req := req, entries := es, drainAt := s.tb } }).startDrain es

/-- A live swap of a logical core to a reserve begins (Table SAFE-9): open windows and the reserve's replay
are abandoned, the core halts, and the commit sequence starts. -/
def State.beginSwap (s : State) (lc : LC) (k : Nat) (req : Option ShepReq) : State :=
  let n := (s.shep.replays.filter fun r => r.res = k).length
  let s := (s.abandon lc).countAt (cpAddr shepStation 0x71044) 16 16 n
  let s := s.modShep fun x => { x with replays := x.replays.filter fun r => r.res ≠ k }
  (s.halt lc .swap).startCommit (.swap lc k) req (s.swapSet lc)

/-- A logical core leaves its slot for good: a live swap begins, or with no reserve left the core halts and its
slot's retirement begins (R434, R435). -/
def State.moveOff (s : State) (lc : LC) : State :=
  match s.dieOf lc, s.placeOf lc with
  | some d, some p => match s.chooseReserve d with
    | some k => s.beginSwap lc k none
    | none => (s.halt lc .swap).startCommit (.retire p) none [s.fenceEntry p]
  | _, _ => s

/-- A set of the Shepherd's own policy starts (R412); entries that break a consistency test are left. A slot to
be retired into which a core has been swapped meanwhile gives its core away first. -/
def State.startOwn (s : State) : Due → State
  | .set es => if (s.checkSet es).isSome then s else s.startCommit .other none es
  | .swap lc => s.moveOff lc
  | .retire p => match (List.finRange 216).find? fun lc => s.placeOf lc == some p with
    | some lc => s.moveOff lc
    | none => s.startCommit (.retire p) none [s.fenceEntry p]

/-- The sets of the Shepherd's own policy that wait start in turn while no sequence runs (R407, R412). -/
def State.startDue (s : State) : State :=
  s.shep.due.foldl (fun (s : State) x =>
    if s.shep.commit.isSome || s.restarting then s
    else (s.modShep fun y => { y with due := y.due.erase x }).startOwn x) s

/-- The running commit sequence is given up: shadows are discarded, closed ways open again. -/
def State.dropCommit (s : State) : State :=
  (s.modShep fun x => { x with commit := none }).endDrain

/-! Step 5: what a switch does beside the registers. -/

/-- L1I lines within a range are invalidated on a die (R150, R318). -/
def State.dropL1iRange (s : State) (d : Die) (lo hi : Nat) : State :=
  (s.lcsOf d).foldl (fun s lc =>
    let ls := (s.core lc).l1i.ways.filterMap fun e => match e.2 with
      | some l => if lo ≤ l.line && l.line < hi then some l.line else none
      | none => none
    if ls.isEmpty then s else s.modCore lc fun c => { c with l1iPend := c.l1iPend ++ ls }) s

/-- A die's way mode has changed (R150): its duplicate tags hold none in the ways that are taken (R176); ways that became scratch read as 0, ways that returned are empty
and their scratch contents lost; windows of reflection end where their log is gone. -/
def State.waysChanged (s : State) (d : Die) (old new : Word32) : State :=
  let base := fun (w : Nat) => 0x1000000000 + d.val * 2 ^ 25 + w * 2 ^ 21
  let s := ((List.range 12).filter fun w => bit old w ≠ bit new w).foldl (fun (s : State) w =>
    let inside := fun (a : Nat) => base w ≤ a && a < base w + 2 ^ 21
    let s : State := { s with
      mem := s.mem.filter fun e => !inside e.1
      poisWord := s.poisWord.filter fun e => !inside (8 * e.1) }
    s.dropL1iRange d (base w / 64) ((base w + 2 ^ 21) / 64)) s
  let s := if bit old 12 && !bit new 12 then (s.lcsOf d).foldl State.abandon s else s
  let gone := waysTaken old new
  let s : State := { s with dt := s.dt.filter fun e =>
    !(e.1 / 2 ^ 17 = d.val && gone.contains (e.1 % 16)) }
  s.modDie d fun x => { x with drain := false, closed := 0, lockMax := none }

/-- A source's pending bit, enable bit and priority are cleared at its old site (R130). -/
def State.clearSource (s : State) (d : Die) (i : Nat) : State :=
  s.modSrc d i fun r => { r with pend := false, en := false, prio := 0xFF }

/-- Hub sources of a unit (Table INT-1). -/
def unitSources (a : Nat) : List Nat :=
  match unitKind (cpStation a) with
  | some (.ce _) =>
    let c := (cpStation a).toNat - 0x14
    [48 + 2 * c, 49 + 2 * c]
  | some .shepherd =>
    let u := (a % 2 ^ 20 - 0x50000) / 4
    [if u < 4 then 57 + u else if u < 36 then 60 + u else 56]
  | _ => []

/-- The sources of a released unit are cleared at the die they were assigned to (R130). -/
def State.clearSources (s : State) (a : Nat) : State :=
  (unitSources a).foldl (fun s i => (List.finRange 12).foldl (fun s d =>
    if bit (s.intdOwner d i) 10 then s.clearSource d i else s) s) s

/-- A copy engine is released (Table WLD-6): USED and HELD cleared, its regions invalidated. -/
def State.resetCe (s : State) (st : Station) : State :=
  let s := s.cpSet (cpAddr st 0x204) (cpReset (cpAddr st 0x204))
  let held := s.regHeld.filter fun x => x.2.src == st
  let s := held.foldl (fun s x => s.proxy x.2) { s with regHeld := s.regHeld.filter fun x => x.2.src != st }
  (List.range 8).foldl (fun s r =>
    let a := cpAddr st (0x1000 + 16 * r)
    let s := s.cpSetField a 0 1 0
    s.modShep fun x => match SMap.get none x.store a with
      | some v => { x with store := SMap.set none x.store a (some (setBit v 0 false)) }
      | none => x) s

/-- A unit that the Shepherd serves is released (Table WLD-6). -/
def State.resetServed (s : State) (u : Nat) : State :=
  if u < 2 then s.setUart u {}
  else if u < 4 then s.setI2c (u - 2) {}
  else if u < 36 then s.setGpio (u - 4) { pin := (s.gpio (u - 4)).pin }
  else { s with stAlarm := 0, stAlarmed := false }

/-- Whether the reset of a unit stops work in progress (R325). -/
def State.workOpen (s : State) (a : Nat) : Bool :=
  match unitKind (cpStation a) with
  | some .fold => s.groupBusy ((a % 2 ^ 20 - 0x80000) / 4)
  | some .shepherd =>
    let u := (a % 2 ^ 20 - 0x50000) / 4
    if u < 2 then !(s.uart u).tx.isEmpty
    else if u < 4 then (s.i2c (u - 2)).busy
    else false
  | some (.loupe k) => s.cpField (lpAddr k 0x2C) 0 1 = 1
  | some (.ce _) => s.regHeld.any (fun x => x.2.src == cpStation a)
      || s.reqs.any fun r => r.msg.src == cpStation a
  | _ => false

/-- The unit of an owner record is reset at its release (R324, Table WLD-6). -/
def State.resetUnit (s : State) (a : Nat) : State :=
  let off := a % 2 ^ 20
  match unitKind (cpStation a) with
  | some .fold => s.resetGroup ((off - 0x80000) / 4)
  | some .shepherd => (s.clearSources a).resetServed ((off - 0x50000) / 4)
  | some (.loupe k) => s.lpHandOver k
  | some (.ce _) => (s.clearSources a).resetCe (cpStation a)
  | some .intd =>
    match dieOfStation (cpStation a) with
    | some d =>
      let i := (off - 0x2000) / 4
      if 48 ≤ i && sharedId i then s.clearSource d i else s
    | none => s
  | _ => s

/-- The mirror state (Table MIR-1). -/
def State.mirState (s : State) : Nat := s.cpField (mirAddr 0x004) 1 3

/-- Whether the current role is secondary. -/
def State.mirSecondary (s : State) : Bool := s.cpField (mirAddr 0x004) 0 1 = 1

/-- The mirror state changes; entry into OFF, SYNCING or SOLE releases every held completion (R456). -/
def State.setMirState (s : State) (x : Nat) : State :=
  let s := s.cpSetField (mirAddr 0x004) 1 3 x
  if x = 0 || x = 1 || x = 4 then s.releaseHeld else s

/-- MIR_CFG has changed: without ENABLE the state is OFF; the role is taken while no pair runs (DEDUCED). -/
def State.mirConfigured (s : State) : State :=
  let cfg := s.cpGet (mirAddr 0)
  let s := if !bit cfg 0 && s.mirState ≠ 0 then s.setMirState 0 else s
  if s.mirState = 0 then s.cpSetField (mirAddr 0x004) 0 1 (field cfg 1 1) else s

/-- What the switch of one register does beside it; `o` is the state before the switch. None where cached
log lines must wait for a home. -/
def State.switched (s o : State) (a : Nat) : Option State :=
  let off := a % 2 ^ 20
  let old := o.cpGet a
  let new := s.cpGet a
  let rose : Bool := if off = 0xFF004 then decide (old ≠ new) else match ownerRecord a with
    | some (true, _) => decide (field old 12 6 ≠ field new 12 6)
    | _ => false
  let s := if rose then s.modShep fun x => { x with epochAt := SMap.set none x.epochAt a (some s.tb) }
    else s
  let s := match ownerRecord a with
    | some _ =>
      if bit old 10 && !bit new 10 then
        let s := if o.workOpen a then s.modCommit fun c => { c with what := match c.what with
            | .release _ => .release true
            | w => w } else s
        s.resetUnit a
      else s
    | none => s
  match unitKind (cpStation a) with
  | some (.router _) =>
    some (if off = 4 then siteFences.foldl (fun s x => s.cpSet x new) s else s)
  | some .dcs =>
    match dieOfStation (cpStation a) with
    | some d =>
      if off = 0x100 && old ≠ new then some (s.waysChanged d old new)
      else if 0x1000 ≤ off && off < 0x1100 then
        let r := a / 16 * 16
        if narrowed o s r then
          some (s.dropL1iRange d ((o.cpGet (r + 8)).toNat * 64) (((o.cpGet (r + 12)).toNat + 1) * 64))
        else some s
      else some s
    | none => some s
  | some .fold =>
    if 0x40020 ≤ off && off < 0x40000 + 32 * 1025 && off % 32 = 24 then
      let v := (off - 0x40000) / 32
      if bit old 0 && !bit new 0 then s.logFlush v fun _ => true
      else if !bit old 0 && bit new 0 then some (s.cpSetField a 1 1 0)
      else some s
    else some s
  | some .mirror => if off = 0 then some s.mirConfigured else some s
  | some (.mc _) => some (if off = 0 then s.remark else s)
  | some (.loupe k) => if off < 0x50 then some (s.lpWrite k off new) else some s
  | some k =>
    match portAt (cpStation a) with
    | some p =>
      if off = 0x0D4 && bit new 5 then
        some ((s.startSwap p (field new 0 5) false).cpSet a (cpReset a))
      else if off = 0x00C && p.hub then some (s.setNarrow p.die (bit new 0))
      else some s
    | none =>
      if k == .shepherd && off = 0x40004 then
        let s := if bit new 0 && !bit old 0 then { s with laserWait := true } else s
        some (if bit new 1 then s.xfade else s)
      else some s
  | none => some s

/-- Whether an access to the window of a core that moves is still on its way to the old slot (R31). -/
def State.windowBusy (s : State) (what : CommitFor) : Bool :=
  match what with
  | .swap lc _ => s.net.any fun m => toWindow lc m && m.kind.code < 0x38
  | _ => false

/-- A station's shadows become live; none where something must wait: accesses to a window that were accepted
before the switch of a swap complete at the old slot (R31). -/
def State.switchStation (s : State) (c : Commit) (st : Station) : Option State :=
  if s.windowBusy c.what then none else
  let es := c.shadows.filterMap fun e =>
    if cpStation e.1 = st then e.2.map (e.1, ·) else none
  let o := s
  let s := s.withEntries es
  let s := match c.what with
    | .swap lc new =>
      if st = dcsOfPlace new then s.remap lc new else s
    | .retire p => if st = dcsOfPlace p then s.retireSlot p else s
    | _ => s
  es.foldl (fun (m : Option State) e => m.bind fun s => s.switched o e.1) (some s)

/-- The commit acknowledgement of a station goes out in a report slot (R408). -/
def State.commitAck (s : State) (st : Station) : State :=
  let w := BitVec.ofNat 32 (0xC * 2 ^ 28 + st.toNat * 2 ^ 16 + s.commitNum % 2 ^ 16)
  { s with reports := s.reports ++ [{ op := 0xB, data := w }] }

/-- RESUME is sent once every armed station has acknowledged (Table CMD-11 step 6). -/
def State.tryResume (s : State) : State :=
  match s.shep.commit with
  | some c => if c.phase == .hold && c.stations.all c.acked.contains then s.commitFrame 2 else s
  | none => s

/-- An acknowledgement reaches the Shepherd. -/
def State.ackArrived (s : State) (st : Station) (num : Nat) : State :=
  match s.shep.commit with
  | some c =>
    if c.phase == .hold && num = s.commitNum % 2 ^ 16 && c.stations.contains st
        && !c.acked.contains st then
      (s.modCommit fun c => { c with acked := c.acked ++ [st] }).tryResume
    else s
  | none => s

/-! Steps 7 and 8. -/

/-- The hold ends at every injection point: what was held goes out in order. -/
def State.endHold (s : State) : State :=
  let held := s.shep.held
  let s := s.modShep fun x => { x with hold := false, held := [] }
  held.foldl State.put s

/-- The committed store takes the entries of a set (R403, R411). -/
def State.storeEntries (s : State) (es : List SetEntry) : State :=
  s.modShep fun x => { x with dirtyStore := true
                              store := es.foldl (fun m e => SMap.set none m e.1 (some e.2)) x.store }

/-- The set's reply data (Table CMD-5). -/
def State.commitData (s : State) (c : Commit) (resume : Word) : List Word32 :=
  match c.what with
  | .stage _ => [s.shep.cnum, c.fireAt.truncate 32, BitVec.ofNat 32 (c.fireAt.toNat / 2 ^ 32),
      (resume - c.holdAt).truncate 32, BitVec.ofNat 32 (((c.armAt - c.drainAt).toNat + 999) / 1000)]
  | .release ab => [BitVec.ofNat 32 (b2n ab)]
  | .swap lc _ => [BitVec.ofNat 32 (s.coreIdent lc)]
  | _ => []

/-- A command that waited for a commit is answered; none where its buffer must wait. -/
def State.answerCommit (s : State) (c : Commit) (status : Nat) (data : List Word32) : Option State :=
  match c.req with
  | none => some s
  | some r => s.answerShep r status data noDetail

/-- What follows a set beside the store: a stage closes, a swapped core goes on, ALONE becomes SOLE. -/
def State.commitEffect (s : State) (c : Commit) : State :=
  match c.what with
  | .stage w => s.modShep fun x => { x with stages := SMap.set none x.stages (b2n w) none }
  | .swap lc _ => s.unhalt lc .swap
  | .mirRole role => if !role && s.mirState = 3 then s.setMirState 4 else s
  | _ => s

/-- The world of the partition scheduled on each logical core is marked, as at every commit instant (R326). Owner records
and regions, the other marks, change at a commit alone. -/
def State.markDomains (s : State) : State :=
  s.modShep fun x => { x with lcMarks := x.lcPart.map fun e => (e.1, e.2.bind fun p => s.pidWorld p.toNat) }

/-- Step 8: the store, CNUM, guarantees and reflection lists, and the reply. -/
def State.finishCommit (s : State) (c : Commit) : Option State :=
  let s := s.endHold.storeEntries c.entries
  let s := s.modShep fun x => { x with commit := none, cnum := x.cnum + 1 }
  let s := ((List.finRange 4).foldl (State.guarantee true) (s.commitEffect c).shedStacks).rebuildLists.shedCores.admitAll.markDomains
  (s.answerCommit c 0 (s.commitData c s.tb)).map State.startDue

/-- The running commit has ended without its effect: shadows are discarded and the command answered. A
retirement is tried again. -/
def State.commitOver (s : State) (c : Commit) : Option State :=
  let s := match c.what with
    | .swap lc _ => s.unhalt lc .swap
    | .retire p => s.modShep fun x => { x with due := x.due ++ [Due.retire p] }
    | _ => s
  (s.dropCommit.answerCommit c c.endStatus []).map State.startDue

/-- The running commit is given up with a status; what may have been armed is disarmed first (R410). -/
def State.cancelCommit (s : State) (c : Commit) (status : Nat) : Option State :=
  let c := { c with endStatus := status }
  if c.phase == .arm && !c.stations.isEmpty then
    some ((s.modCommit fun _ => { c with phase := .disarm }).commitFrame 3)
  else s.commitOver c

/-! Commands. -/

/-- Whether an entry lets a role epoch be: it raises none, or 100 us have passed since the last rise (R249). -/
def State.epochRests (s : State) (e : SetEntry) : Bool :=
  let now := s.cpGet e.1
  let rises : Bool := if e.1 % 2 ^ 20 = 0xFF004 then decide (now ≠ e.2) else match ownerRecord e.1 with
    | some (true, _) => decide (field now 12 6 ≠ field e.2 12 6)
    | _ => false
  !rises || match SMap.get none s.shep.epochAt e.1 with
    | some t => 100000 ≤ (s.tb - t).toNat
    | none => true

/-- The drain phases of the running commit end (Table CMD-11 step 1). A swap waits until its core has come
to rest and no debugger halts it (Table SAFE-9); a set that raises a role epoch, until 100 us after the last
rise (R249). -/
def execCommitDrainEnd (s : State) : Out :=
  match s.shep.commit with
  | none => .next s
  | some c =>
    if c.phase != .drain || s.restarting then .next s
    else
      let rest := match c.what with
        | .swap lc _ => (s.core lc).drained && !(s.core lc).halts.contains .debug
        | _ => true
      if !rest || !c.entries.all (fun e => s.epochRests e) then .next s
      else match s.drainAll c.entries with
        | none => .next s
        | some s => .next (s.armCommit c)

/-- An ARM frame reaches the stations named (R408). -/
def execCommitArm (f : Frame) (s : State) : Out :=
  let rest := s.takeFrame f
  match s.shep.commit with
  | some c =>
    if s.isCommit f 0 && c.phase == .arm then
      .next (((rest.modCommit fun c => { c with armed := c.stations }).feedEntries).tryFire)
    else .next rest
  | none => .next rest

/-- An entry of the running commit is in its shadow (R252, R407). -/
def State.entryWritten (s : State) (f : Frame) : State :=
  ((s.modCommit fun c => { c with left := c.left.erase (f.seq, f.addr.toNat) }).feedEntries).tryFire

/-- FIRE reaches the injection points and the armed stations: the hold begins (R409). -/
def execCommitFire (f : Frame) (s : State) : Out :=
  let rest := s.takeFrame f
  match s.shep.commit with
  | some c =>
    if s.isCommit f 1 && c.phase == .fire then
      let s := rest.modShep fun x => { x with hold := true }
      .next (s.modCommit fun c => { c with phase := .hold, holdAt := s.tb }).tryResume
    else .next rest
  | none => .next rest

/-- An armed station is at its quiescent boundary: its shadows become live and it acknowledges (R407,
R408). -/
def execQuiescentSwitch (st : Station) (s : State) : Out :=
  match s.shep.commit with
  | some c =>
    if c.phase == .hold && c.armed.contains st && !c.switched.contains st then
      match s.switchStation c st with
      | none => .next s
      | some s => .next ((s.modCommit fun c => { c with switched := c.switched ++ [st] }).commitAck st)
    else .next s
  | none => .next s

/-- RESUME reaches the injection points; the sequence ends (Table CMD-11 steps 7 and 8). -/
def execCommitResume (f : Frame) (s : State) : Out :=
  let rest := s.takeFrame f
  match s.shep.commit with
  | some c =>
    if s.isCommit f 2 && c.phase == .hold && c.stations.all c.acked.contains then
      .next ((rest.finishCommit c).getD s)
    else .next rest
  | none => .next rest

/-- DISARM reaches the armed stations; they discard their shadows, and the command is answered (R408,
R410). -/
def execCommitDisarm (f : Frame) (s : State) : Out :=
  let rest := s.takeFrame f
  match s.shep.commit with
  | some c =>
    if s.isCommit f 3 && c.phase == .disarm then .next ((rest.commitOver c).getD s) else .next rest
  | none => .next rest

end Sys2Proof.Machine
end

