-- ==== Sys2Proof/Machine/ShepStage.lean ====
section
/-!
DEFINITION. Commands of the Shepherd that build and commit sets: stages (R402 to R413), hand-overs (R324,
R325), dirty-page logs (R384) and wavelength swaps (R275).
-/

namespace Sys2Proof.Machine

/-! Stages. -/

/-- A world's open stage. -/
def State.stage (s : State) (w : Bool) : Option Stage := SMap.get none s.shep.stages (b2n w)

/-- A world's stage replaced. -/
def State.setStage (s : State) (w : Bool) (v : Option Stage) : State :=
  s.modShep fun x => { x with stages := SMap.set none x.stages (b2n w) v }

/-- Whether a world's stage is the one that the running sequence commits. -/
def State.committing (s : State) (w : Bool) : Bool :=
  match s.shep.commit with
  | some c => c.what == .stage w
  | none => false

/-- A stage command's work on the stage of its issuer: none open, or another issuer's (R402). -/
def State.onStage (s : State) (r : ShepReq) (f : Stage → ShepRes) : ShepRes :=
  match s.stage (worldOf r) with
  | none => .status 0x10 s
  | some g => if g.chan ≠ r.chan then .status 0x12 s else f { g with last := s.tb }

/-- STAGE_OPEN. -/
def execStageOpen (r : ShepReq) (s : State) : Out :=
  s.shepRun { op := 0x0200, a := false, reply := 4 } r fun r s =>
    if (s.stage (worldOf r)).isSome then .status 0x11 s
    else .ok (s.setStage (worldOf r) (some { chan := r.chan, last := s.tb })) [s.shep.cnum]

/-- Entries of a parameter list from word `i` on: a count and pairs of address and value. -/
def entriesAt (r : ShepReq) (i : Nat) : List SetEntry :=
  (List.range (param r i).toNat).map fun k =>
    ((param r (i + 1 + 2 * k)).toNat, param r (i + 2 + 2 * k))

/-- Why new entries are refused, with the index of the first bad one (R403). -/
def State.firstBad (s : State) (old new : List SetEntry) (r : ShepReq) : Option (Nat × Nat × Nat) :=
  let base := s.committed
  let es := new.foldl addEntry old
  let n := base.withEntries es
  (List.range new.length).findSome? fun k => (new[k]?).bind fun e =>
    match base.entryError n es (chanLevel r.chan) (worldOf r) e with
    | some st => some (st, e.1, k)
    | none =>
      if 65536 < ((new.take (k + 1)).foldl addEntry old).length then some (0x13, e.1, k) else none

/-- DETAIL of an item: address and index. -/
def detailOf (a i : Nat) : Word := BitVec.ofNat 64 (a + i * 2 ^ 32)

/-- STAGE_SET. -/
def execStageSet (r : ShepReq) (s : State) : Out :=
  s.shepRun { op := 0x0201, a := false, words := none, reply := 4 } r fun r s =>
    let n := (param r 0).toNat
    if r.params.length ≠ 1 + 2 * n then .status 0x02 s
    else if 2 ^ 17 ≤ n then .status 0x03 s
    else s.onStage r fun g =>
      let new := entriesAt r 0
      match s.firstBad g.entries new r with
      | some (st, a, k) => .done st (s.setStage (worldOf r) (some g)) [] (detailOf a k)
      | none =>
        let es := new.foldl addEntry g.entries
        .ok (s.setStage (worldOf r) (some { g with entries := es, checked := none }))
          [BitVec.ofNat 32 es.length]

/-- STAGE_CHECK. -/
def execStageCheck (r : ShepReq) (s : State) : Out :=
  s.shepRun { op := 0x0202, a := false, reply := 136 } r fun r s => s.onStage r fun g =>
    match s.checkSet g.entries with
    | some v => .done v.status (s.setStage (worldOf r) (some g)) [] v.detail
    | none =>
      .ok (s.setStage (worldOf r) (some { g with checked := some s.shep.cnum }))
        ([BitVec.ofNat 32 g.entries.length, s.shep.cnum] ++ s.hotLoss g.entries)

/-- STAGE_COMMIT (R406): it runs in the background and replies when the sequence ends. -/
def execStageCommit (r : ShepReq) (s : State) : Out :=
  s.shepRun { op := 0x0203, a := false, reply := 20 } r fun r s => s.onStage r fun g =>
    let bad := if g.checked = some s.shep.cnum then none else s.checkSet g.entries
    match bad with
    | some v => .done v.status (s.setStage (worldOf r) (some g)) [] v.detail
    | none =>
      if s.shep.commit.isSome then .wait
      else .later ((s.setStage (worldOf r) (some g)).startCommit (.stage (worldOf r)) (some r) g.entries)

/-- The world whose stage an abort takes: the issuer's; M without one of its own takes the other world's
(DESIGN CHOICE, since the command names none). -/
def State.abortWorld (s : State) (r : ShepReq) : Bool :=
  if isM r && (s.stage true).isNone then false else worldOf r

/-- STAGE_ABORT (R413): between FIRE and step 8 it waits for the commit and then finds no stage; before
FIRE the sequence is given up. -/
def execStageAbort (r : ShepReq) (s : State) : Out :=
  s.shepRun { op := 0x0204, a := false } r fun r s =>
    let w := s.abortWorld r
    match s.stage w with
    | none => .status 0x10 s
    | some g =>
      if g.chan ≠ r.chan && !isM r then .status 0x12 s
      else if s.committing w then
        match s.shep.commit with
        | some c =>
          if c.phase == .drain || c.phase == .arm then
            match (s.setStage w none).cancelCommit c 0x1D with
            | some s => .ok s
            | none => .wait
          else .wait
        | none => .wait
      else .ok (s.setStage w none)

/-- A stage that no command has reached for 10 s is aborted (R413). -/
def execStageIdleAbort (world : Bool) (t : Word) (s : State) : Out :=
  let s := s.advance t
  match s.stage world with
  | none => .next s
  | some g =>
    if 10000000000 ≤ (s.tb - g.last).toNat && !s.committing world then
      .next ((s.setStage world none).event world { code := 0x0050, subj := 0 })
    else .next s

/-- STAGE_STATUS. -/
def execStageStatus (r : ShepReq) (s : State) : Out :=
  s.shepRun { op := 0x0205, a := false, words := some 1, reply := 8 } r fun r s =>
    if 2 ≤ (param r 0).toNat then .status 0x03 s
    else
      let w := if isM r then bit (param r 0) 0 else worldOf r
      match s.stage w with
      | none => .ok s [BitVec.ofNat 32 (b2n w * 32), 0]
      | some g =>
        let ch := match g.chan with
          | .mb _ c => c.val
          | .admin => 0
        .ok s [BitVec.ofNat 32 (1 + b2n (g.checked == some s.shep.cnum) * 2 + b2n (s.committing w) * 4
            + (chanLevel g.chan).toNat * 8 + b2n w * 32 + ch * 64), BitVec.ofNat 32 g.entries.length]

/-! Sets of other commands (R412). -/

/-- A command's own set is checked against the committed configuration and committed. -/
def State.commitOwn (s : State) (r : ShepReq) (what : CommitFor) (es : List SetEntry) : ShepRes :=
  match s.checkSet es with
  | some v => .done v.status s [] v.detail
  | none => if s.shep.commit.isSome then .wait else .later (s.startCommit what (some r) es)

/-! Hand-overs (R324, R325). -/

/-- The owner record that a kind, an index and a site name (Table CMD-5). -/
def unitRecord (p : Word32) : Option Nat :=
  let kind := field p 0 4
  let i := field p 4 12
  let site := field p 16 4
  if 2 ^ 20 ≤ p.toNat then none
  else if kind = 0 then (if i ≤ 1024 then some (foldAddr (0x80000 + 4 * i)) else none)
  else if kind = 1 then
    if h : 1 ≤ site ∧ site ≤ 12 then
      if 128 ≤ i && i < 1024 then some (cpAddr (intdStation ⟨site - 1, by omega⟩) (0x2000 + 4 * i))
      else none
    else none
  else if kind = 2 then (if i < 44 then some (lpAddr i 0x100) else none)
  else if kind = 3 then (if i < 4 then some (cpAddr (ceStation i) 0x100) else none)
  else if kind = 4 then (if i ≤ 36 then some (servedOwner i) else none)
  else none

/-- The register that holds a unit's role epoch, and where it stands in it (Table WLD-6). -/
def epochOf (a : Nat) : Nat × Nat :=
  match ownerRecord a with
  | some (_, some x) => (x, 0)
  | _ => (a, 12)

/-- The set that releases a unit (R324). -/
def State.releaseSet (s : State) (a : Nat) : List SetEntry :=
  let (ep, lo) := epochOf a
  let next := (s.cpField ep lo 6 + 1) % 64
  let own := if ep = a then [(a, BitVec.ofNat 32 (0x200 + next * 2 ^ 12))]
    else [(a, BitVec.ofNat 32 0x200), (ep, BitVec.ofNat 32 next)]
  own ++ (unitSources a).flatMap fun i => (List.finRange 12).filterMap fun d =>
    if bit (s.intdOwner d i) 10 then
      some (cpAddr (intdStation d) (0x2000 + 4 * i), BitVec.ofNat 32 0x200)
    else none

/-- Whether an issuer may hand over a unit of a world (Table WLD-8). -/
def mayHandOver (r : ShepReq) (a : Nat) (secure : Bool) : Bool :=
  isM r || (!secure && !worldOf r &&
    (!isAdmin r || (cpStation a = foldStation && a ≠ foldAddr 0x80000)))

/-- Whether the 100 us since a unit's last epoch increment have passed. -/
def State.epochFree (s : State) (a : Nat) : Bool :=
  match SMap.get none s.shep.epochAt (epochOf a).1 with
  | some t => 100000 ≤ (s.tb - t).toNat
  | none => true

/-- A release is checked and its commit started. -/
def State.release (s : State) (r : ShepReq) (a : Nat) : ShepRes :=
  s.commitOwn r (.release false) (s.releaseSet a)

/-- UNIT_RELEASE: held until 100 us after the unit's last epoch increment. -/
def execUnitRelease (r : ShepReq) (s : State) : Out :=
  s.shepRun { op := 0x0310, words := some 1, reply := 4 } r fun r s =>
    match unitRecord (param r 0) with
    | none => .status 0x03 s
    | some a =>
      let o := s.cpGet a
      if !mayHandOver r a (bit o 10 && bit o 9) then .status 0x05 s
      else if s.epochFree a then s.release r a
      else .later (s.modShep fun x => { x with relWait := x.relWait ++ [(r, a)] })

/-- The 100 us of a held UNIT_RELEASE have passed; it commits once no other sequence runs. -/
def execUnitReleaseDelay (unit : BitVec 32) (t : Word) (s : State) : Out :=
  let s := s.advance t
  match s.shep.relWait.find? fun x => x.2 = unit.toNat with
  | none => .next s
  | some x =>
    if !s.epochFree x.2 || s.restarting then .next s
    else
      let s1 := s.modShep fun y => { y with relWait := y.relWait.erase x }
      match s1.release x.1 x.2 with
      | .wait => .next s
      | .later s2 => .next s2
      | .done st s2 data detail => .next ((s2.answerShep x.1 st data detail).getD s)

/-- UNIT_ASSIGN: the owner record, the records of its sources at the delivery site, and further entries. -/
def execUnitAssign (r : ShepReq) (s : State) : Out :=
  s.shepRun { op := 0x0311, words := none } r fun r s =>
    let v := param r 1
    let site := (param r 2).toNat
    let more := if 3 < r.params.length then entriesAt r 3 else []
    if r.params.length ≠ 3 && r.params.length ≠ 4 + 2 * more.length then .status 0x02 s
    else match unitRecord (param r 0) with
    | none => .status 0x03 s
    | some a =>
      let srcs := unitSources a
      if 2048 ≤ v.toNat || !bit v 10 || 12 < site || (!srcs.isEmpty && site = 0) then .status 0x03 s
      else if !mayHandOver r a (bit v 9) then .status 0x05 s
      else
        let own : SetEntry := (a, if (epochOf a).1 = a then setField v 12 6 (s.cpField a 12 6) else v)
        let sources := srcs.map fun i => (site * 2 ^ 28 + 0x30 * 2 ^ 20 + 0x2000 + 4 * i, v)
        match s.firstBad [] more r with
        | some (st, x, k) => .done st s [] (detailOf x k)
        | none => s.commitOwn r .other (more.foldl addEntry (own :: sources))

/-! Dirty-page logs (R384). -/

/-- Lines of zeros written from `line` on. -/
def State.zeroLines (s : State) : Nat → Nat → HubAns Unit
  | _, 0 => .ok () s
  | line, n + 1 => match s.shepPut line 0 fullMask with
    | .ok _ s => State.zeroLines s (line + 1) n
    | x => x

/-- Whether an issuer may name a queue group (R399): N and S only those of their own world. -/
def State.mayGroup (s : State) (r : ShepReq) (f : Nat) : Bool :=
  isM r || isAdmin r || ownedBy (s.grpOwner f) (worldOf r)

/-- The VF that a log command names: 1 to 1,024 (R337). -/
def logVf (r : ShepReq) : Option Nat :=
  let v := (param r 0).toNat
  if 1 ≤ v && v ≤ 1024 then some v else none

/-- DIRTY_LOG_START: the set is checked, both buffers are zeroed, and the set is committed. -/
def execDirtyLogStart (r : ShepReq) (s : State) : Out :=
  s.shepRun { op := 0x0338, words := some 8 } r fun r s =>
    match logVf r with
    | none => .status 0x03 s
    | some v =>
      if 32 ≤ (param r 7).toNat then .status 0x03 s
      else if !s.mayGroup r v then .status 0x05 s
      else
        let es : List SetEntry := ([0, 4, 8, 12, 16, 20].zip [1, 2, 3, 4, 5, 6]).map fun x =>
          (logAddr v x.1, param r x.2)
        let ctl : SetEntry := (logAddr v 0x18, BitVec.ofNat 32 (1 + (param r 7).toNat * 2 ^ 8))
        match s.firstBad [] (es ++ [ctl]) { r with chan := .mb .m 0 } with
        | some _ => .status 0x45 s
        | none =>
          match s.checkSet (es ++ [ctl]) with
          | some x => .done x.status s [] x.detail
          | none =>
            if s.shep.commit.isSome then .wait
            else
              let n := 2 ^ (param r 7).toNat / 512
              let zero := fun (s : State) (a : Nat) => s.zeroLines (a / 64) n
              match zero s (param64 r 1).toNat with
              | .ok _ s1 => match zero s1 (param64 r 3).toNat with
                | .ok _ s2 => .later (s2.startCommit .other (some r) (es ++ [ctl]))
                | .busy => .wait
                | _ => .status 0xFF s
              | .busy => .wait
              | _ => .status 0xFF s

/-- DIRTY_LOG_STOP. -/
def execDirtyLogStop (r : ShepReq) (s : State) : Out :=
  s.shepRun { op := 0x033A, words := some 1 } r fun r s =>
    match logVf r with
    | none => .status 0x03 s
    | some v =>
      if !s.mayGroup r v then .status 0x05 s
      else s.commitOwn r .other
        [(logAddr v 0x18, BitVec.ofNat 32 (s.cpField (logAddr v 0x18) 8 5 * 2 ^ 8))]

/-- DIRTY_LOG_SWAP: SWAP is written, and the reply follows the write-back of the old buffer. -/
def execDirtyLogSwap (r : ShepReq) (s : State) : Out :=
  s.shepRun { op := 0x0339, words := some 1, reply := 8 } r fun r s =>
    match logVf r with
    | none => .status 0x03 s
    | some v =>
      if !s.mayGroup r v then .status 0x05 s
      else if s.cpField (logAddr v 0x18) 3 1 = 1 then .wait
      else
        let ovf := s.cpField (logAddr v 0x18) 4 1
        match (s.logSwap v).logSwapDone v with
        | none => .wait
        | some s => .ok s [BitVec.ofNat 32 (SMap.get 0 s.fold.oldCnt v), BitVec.ofNat 32 ovf]

/-! Prism (R275). -/

/-- WL_SWAP: PRISM_SWAP_REQ of a port is committed for a lane. -/
def execWlSwap (r : ShepReq) (s : State) : Out :=
  s.shepRun { op := 0x0701, a := false, n := false, sec := false, words := some 1 } r fun r s =>
    let p := param r 0
    let st : Station := p.extractLsb' 0 12
    if 2 ^ 17 ≤ p.toNat then .status 0x03 s
    else match portAt st with
      | none => .status 0x0A s
      | some _ => s.commitOwn r .other
          [(cpAddr st 0x0D4, BitVec.ofNat 32 (field p 12 5 + 2 ^ 5))]

/-- MIRROR_ROLE (R447): refused while PAIRED or SYNCING. -/
def execMirrorRole (r : ShepReq) (s : State) : Out :=
  s.shepRun { op := 0x0601, a := false, n := false, sec := false, words := some 1 } r fun r s =>
    if 2 ≤ (param r 0).toNat then .status 0x03 s
    else if s.mirState = 1 || s.mirState = 2 then .status 0x68 s
    else
      let role := bit (param r 0) 0
      s.commitOwn r (.mirRole role) [(mirAddr 0, setBit (s.cpGet (mirAddr 0)) 1 role)]

/-- CORE_SWAP (R434): the core is halted and its commit begins; AUTO leaves the choice to the Shepherd. -/
def execCoreSwap (r : ShepReq) (s : State) : Out :=
  s.shepRun { op := 0x0700, a := false, n := false, sec := false, words := some 1, reply := 4 } r
    fun r s =>
      let p := param r 0
      let site := field p 13 4
      let slot := field p 8 5
      if h : field p 0 8 < 216 then
        let lc : LC := ⟨field p 0 8, h⟩
        if 2 ^ 18 ≤ p.toNat || (!bit p 17 && (site = 0 || 12 < site || 19 < slot)) then .status 0x03 s
        else match s.dieOf lc with
          | none => .status 0x70 s
          | some d =>
            let choice := if bit p 17 then s.chooseReserve d
              else
                let k := (site - 1) * 20 + slot
                if (site - 1) / 3 = d.val / 3 && (List.finRange 12).any (fun e =>
                    (s.reservesOf e).contains k) then some k else none
            match choice with
            | none => .status 0x70 s
            | some k =>
              if s.shep.commit.isSome then .wait
              else
                .later (s.beginSwap lc k (some r))
      else .status 0x03 s

end Sys2Proof.Machine
end

