-- ==== Sys2Proof/Machine/Images.lean ====
section
/-!
DEFINITION. Signed images and debug certificates (R329 to R336, R415 to R417, R509, R510) and their
commands.
-/

namespace Sys2Proof.Machine

/-! Images (Table WLD-9). -/

/-- `n` bytes of a list from offset `o` as a number. -/
def numAt (b : List Byte) (o n : Nat) : Nat := bytesToNat ((b.drop o).take n)

/-- `n` bytes of a list from offset `o`. -/
def bytesAt (b : List Byte) (o n : Nat) : List Byte := (b.drop o).take n

/-- Words of a hash register from an offset of the Shepherd's station on. -/
def State.hashRegs (s : State) (off : Nat) : List Word32 :=
  (List.range 12).map fun w => s.cpGet (cpAddr shepStation (off + 4 * w))

/-- Rollback counter `i`: fuse bits blown (R330, R332). -/
def State.rollback (s : State) (i : Nat) : Nat :=
  let v := s.cpGet64 (cpAddr shepStation (0x30100 + 8 * i))
  ((List.range 64).filter fun k => bit v k).length

/-- What a verified image states: version, SVN, key slot and payload. -/
structure ImageInfo where
  ver : Word32
  svn : BitVec 8
  key : Nat
  payload : List Byte

/-- Whether an image verifies as a TYPE of counter `i`: what it states, or why it is refused (R330). -/
def State.verifyImage (s : State) (type i : Nat) (b : List Byte) : Except Nat ImageInfo :=
  let key := numAt b 6 1
  let len := numAt b 0x10 4
  let payload := bytesAt b 0x200 len
  let pub := bytesAt b 0x50 97
  let good := 512 ≤ b.length && numAt b 0 4 = 0x4D495A41 && numAt b 4 2 = type && key < 4
    && payload.length = len && Config.sha384 pub = s.hashRegs (0x30000 + 0x30 * key)
    && s.cpField (cpAddr shepStation 0x300F0) key 1 = 0
    && Config.ecdsaVerify pub (b.take 256) (bytesAt b 0x100 96)
    && bytesOf32 (Config.sha384 payload) = (List.range 12).flatMap fun w =>
        (bytesAt b (0x20 + 4 * w) 4).reverse
  let svn := numAt b 12 1
  if !good then .error 0x58
  else if svn < s.rollback i then .error 0x59
  else .ok ⟨BitVec.ofNat 32 (numAt b 8 4), BitVec.ofNat 8 svn, key, payload⟩

/-- TYPE field of a flash type: 0 Shepherd firmware, 1 M firmware. -/
def typeCode (t : Nat) : Nat := t + 1

/-- The bytes of a flash slot, to the end of the image that its header states. -/
def State.flashBytes (s : State) (slot t : Nat) : List Byte :=
  let m := SMap.get [] s.shep.images (2 * slot + t)
  let rd := fun (o n : Nat) => (List.range n).map fun i => SMap.get 0 m (o + i)
  rd 0 (0x200 + bytesToNat (rd 0x10 4))

/-- Whether a slot of the flash holds an image that verifies. -/
def State.flashImage (s : State) (slot t : Nat) : Except Nat ImageInfo :=
  s.verifyImage (typeCode t) t (s.flashBytes slot t)

/-- The slot that holds the running image of a type. -/
def State.runningSlot (s : State) (t : Nat) : Option (Fin 2) :=
  if t = 0 then s.shep.booted else s.shep.mBooted

/-- Slot and type of P0 of an image command. -/
def imageParam (r : ShepReq) : Option (Nat × Nat) :=
  let p := (param r 0).toNat
  if p < 4 then some (p % 2, p / 2) else none

/-- IMAGE_WRITE: bytes go into the flash, not into the slot of the running image; from the admin queue only
in the state of R331 (Table CMD-5). -/
def execImageWrite (r : ShepReq) (s : State) : Out :=
  s.shepRun { op := 0x0900, a := s.imageOnly, n := false, sec := false, words := some 2, pbuf := true } r fun r s =>
    match imageParam r with
    | none => .status 0x03 s
    | some (slot, t) =>
      if (s.runningSlot t).any fun x => x.val = slot then .status 0x5A s
      else match s.pbufBytes r with
        | .busy => .wait
        | .refuse s => .status 0x06 s
        | .poison s => .status 0xFF s
        | .ok b s =>
          let k := 2 * slot + t
          .ok (s.modShep fun x => { x with
            images := SMap.set [] x.images k (putBytes (SMap.get [] x.images k) (param r 1).toNat b) })

/-- IMAGE_VERIFY. -/
def execImageVerify (r : ShepReq) (s : State) : Out :=
  s.shepRun { op := 0x0901, n := false, sec := false, words := some 1, reply := 8 } r fun r s =>
    match imageParam r with
    | none => .status 0x03 s
    | some (slot, t) => match s.flashImage slot t with
      | .error e => .status e s
      | .ok x => .ok s [x.ver, BitVec.ofNat 32 (x.svn.toNat + x.key * 2 ^ 8)]

/-- IMAGE_ACTIVATE: the slot is marked active in the boot flash (R417). -/
def execImageActivate (r : ShepReq) (s : State) : Out :=
  s.shepRun { op := 0x0902, n := false, sec := false, words := some 1 } r fun r s =>
    match imageParam r with
    | none => .status 0x03 s
    | some (slot, t) => .ok (s.modShep fun x => { x with active := SMap.set 0 x.active t slot })

/-- SVN of what runs of a counter's type: the running images, or the partition images loaded. -/
def State.runningSvns (s : State) (i : Nat) : List Nat :=
  if i = 0 then [s.shep.fwSvn.toNat]
  else if i = 1 then [s.shep.mSvn.toNat]
  else s.shep.parts.filterMap fun e => e.2.bind fun p => p.image.map fun x => x.2.toNat

/-- IMAGE_CONFIRM: fuse bits of a rollback counter are blown up to an SVN (R416). -/
def execImageConfirm (r : ShepReq) (s : State) : Out :=
  s.shepRun { op := 0x0903, a := false, n := false, sec := false, words := some 2 } r fun r s =>
    let i := (param r 0).toNat
    let svn := (param r 1).toNat
    if 2 < i || 64 < svn then .status 0x03 s
    else if (s.runningSvns i).any (· < svn) || svn < s.rollback i then .status 0x59 s
    else .ok (s.cpSet64 (cpAddr shepStation (0x30100 + 8 * i)) (BitVec.ofNat 64 (2 ^ svn - 1)))

/-- FW_SWITCH: verified firmware waits in the standby bank for its gap (R417). -/
def execFwSwitch (r : ShepReq) (s : State) : Out :=
  s.shepRun { op := 0x0904, a := false, n := false, sec := false, words := some 1, reply := 4 } r
    fun r s =>
      let slot := (param r 0).toNat
      if 2 ≤ slot then .status 0x03 s
      else if s.shep.standby.isSome then .wait
      else match s.flashImage slot 0 with
        | .error e => .status e s
        | .ok _ => .later (s.modShep fun x => { x with
            standby := some r, standbySlot := slot, auditDone := false })

/-- The switch gap opens after an audit, with no commit running; the new firmware takes over, or its
self-check fails (a free value) and the old one resumes (R417). -/
def execSwitchGap (s : State) : Out :=
  match s.shep.standby with
  | none => .next s
  | some r =>
    if !s.shep.auditDone || s.shep.commit.isSome || s.restarting then .next s
    else
      let slot := s.shep.standbySlot
      let s1 := s.modShep fun x => { x with standby := none }
      let (fail, s1) := s1.takeFree 1
      match s1.flashImage slot 0, fail with
      | .ok x, 0 =>
        let s1 := s1.modShep fun y => { y with
          booted := if h : slot < 2 then some ⟨slot, h⟩ else y.booted, fwVer := x.ver, fwSvn := x.svn }
        .next ((s1.answerShep r 0 [x.ver] noDetail).getD s)
      | _, _ => .next ((s1.answerShep r 0x58 [] noDetail).getD s)

/-! Partition images (R415). -/

/-- Bytes stored by the Shepherd from any address on. -/
def State.shepStore (s : State) (a : Nat) (b : List Byte) : HubAns Unit :=
  let head := (64 - a % 64) % 64
  let write0 := if a % 64 = 0 then (.ok () s : HubAns Unit)
    else s.shepPut (a / 64) (BitVec.ofNat 512 (bytesToNat (b.take head) * 2 ^ (8 * (a % 64))))
      (byteMask (a % 64) (min head b.length))
  match write0 with
  | .ok _ s =>
    let rest := b.drop head
    s.shepWrite ((a + 63) / 64) ((rest.length + 63) / 64) rest
  | x => x

/-- Whether a partition image may be loaded at a target: one HBM region holds it, grants the partition R
and grants W to nobody (R415). -/
def State.imageTarget (s : State) (p : BitVec 8) (w : Bool) (a n : Nat) : Bool :=
  let st := mcStation (quadOf a)
  targetOf a = .hbm && s.pasture st 32 a w p .r &&
    match s.regionAt st 32 a with
    | none => false
    | some i =>
      let c := cpAddr st (0x1000 + 16 * i)
      (a + n - 1) / 4096 ≤ (s.cpGet (c + 12)).toNat && s.cpField c 2 1 = 0

/-- The partition that a command names, or why it is refused (R399). -/
def State.namedPart (s : State) (r : ShepReq) : Except Nat (Nat × Part') :=
  let p := (param r 0).toNat
  if 256 ≤ p then .error 0x03
  else match s.part p with
    | none => .error 0x51
    | some x => if !isM r && x.world ≠ worldOf r then .error 0x05 else .ok (p, x)

/-- PART_IMAGE_LOAD. -/
def execPartImageLoad (r : ShepReq) (s : State) : Out :=
  s.shepRun { op := 0x0302, a := false, words := some 3, reply := 8, maxBuf := 2 ^ 28, pbuf := true } r
    fun r s => match s.namedPart r with
      | .error e => .status e s
      | .ok (p, x) => match s.pbufBytes r with
        | .busy => .wait
        | .refuse s => .status 0x06 s
        | .poison s => .status 0xFF s
        | .ok b s1 => match s1.verifyImage 0x10 2 b with
          | .error e => .status e s
          | .ok im =>
            let a := (param64 r 1).toNat
            if !s1.imageTarget (BitVec.ofNat 8 p) x.world a im.payload.length then .status 0x54 s
            else match s1.shepStore a im.payload with
              | .busy => .wait
              | .refuse s => .status 0x54 s
              | .poison s => .status 0xFF s
              | .ok _ s2 =>
                .ok (s2.setPart p (some { x with image := some (im.ver, im.svn) }))
                  [im.ver, BitVec.ofNat 32 im.svn.toNat]

/-! Secure time and debug sessions (R333 to R336, R509, R510). -/

/-- SET_SECURE_TIME: never backwards while the time is valid. -/
def execSetSecureTime (r : ShepReq) (s : State) : Out :=
  s.shepRun { op := 0x0810, a := false, n := false, sec := false, words := some 2, reply := 8 } r
    fun r s =>
      let t := param64 r 0
      if s.stValid && t.toNat < s.stNow.toNat then .status 0x63 s
      else
        let scnt : Word := BitVec.ofNat 64 ((s.tb - s.scntBase).toNat / 1000)
        let s : State := { s with stOffset := t - scnt, stValid := true }
        let now := s.stNow
        .ok s [now.truncate 32, BitVec.ofNat 32 (now.toNat / 2 ^ 32)]

/-- A world's session. -/
def State.session (s : State) (w : Bool) : Option Session := SMap.get none s.tap.sessions (b2n w)

/-- A world's session closes: cores halted through it resume (R510). -/
def State.closeSession (s : State) (w : Bool) : State :=
  let mine := s.tap.halted.filter fun x => x.1 = w && !s.tap.halted.contains (!w, x.2)
  let s := mine.foldl (fun s x => (s.unhalt x.2 .debug).modCore x.2 fun c => { c with step := false }) s
  { s with tap := { s.tap with
      sessions := SMap.set none s.tap.sessions (b2n w) none
      instr := if s.tap.instr = 0x20 && s.tap.world == w then 0xFF else s.tap.instr
      halted := s.tap.halted.filter fun x => x.1 ≠ w } }

/-- Whether bytes of a list are all 0. -/
def zeroAt (b : List Byte) (o n : Nat) : Bool := numAt b o n = 0

/-- Whether a certificate holds, or why it is refused (R335, R509). -/
def State.checkCert (s : State) (r : ShepReq) (b : List Byte) : Except Nat Session :=
  let pub := bytesAt b 0x50 97
  let scope := numAt b 8 4
  let expiry := numAt b 0x18 8
  let good := b.length = 512 && numAt b 0 4 = 0x43445A41 && numAt b 4 2 = 1 && zeroAt b 6 2
    && scope < 16 && numAt b 13 1 < 2 && zeroAt b 14 2 && zeroAt b 0x28 40 && zeroAt b 0xB1 79
    && zeroAt b 0x160 160
    && numAt b 0x10 8 = (s.cpGet64 (cpAddr shepStation 0x300F4)).toNat
    && Config.sha384 pub = s.hashRegs 0x300C0 && s.cpField (cpAddr shepStation 0x300F0) 4 1 = 0
    && Config.ecdsaVerify pub (b.take 256) (bytesAt b 0x100 96)
    && (isM r || scope < 2)
  if !s.stValid then .error 0x62
  else if !good || s.stNow.toNat < numAt b 0x20 8 then .error 0x60
  else if expiry ≤ s.stNow.toNat then .error 0x61
  else .ok { num := s.tap.lastNum + 1, scope := BitVec.ofNat 4 scope
             pid := if numAt b 13 1 = 1 then some (BitVec.ofNat 8 (numAt b 12 1)) else none
             expiry := BitVec.ofNat 64 expiry }

/-- CERT_LOAD. -/
def execCertLoad (r : ShepReq) (s : State) : Out :=
  s.shepRun { op := 0x0800, a := false, sec := false, words := some 0, reply := 8, pbuf := true } r
    fun r s => match s.pbufBytes r with
      | .busy => .wait
      | .refuse s => .status 0x06 s
      | .poison s => .status 0xFF s
      | .ok b s => match s.checkCert r b with
        | .error e => .status e s
        | .ok x =>
          let w := worldOf r
          let s := s.closeSession w
          let s : State := { s with tap := { s.tap with
            lastNum := x.num, sessions := SMap.set none s.tap.sessions (b2n w) (some x) } }
          .ok s [x.num, x.scope.zeroExtend 32]

/-- CERT_CLOSE: the world's session, by its number. -/
def execCertClose (r : ShepReq) (s : State) : Out :=
  s.shepRun { op := 0x0801, a := false, sec := false, words := some 1 } r fun r s =>
    match s.session (worldOf r) with
    | some x => if x.num = param r 0 then .ok (s.closeSession (worldOf r)) else .status 0x03 s
    | none => .status 0x03 s

/-- CERT_STATUS: session number 0 where none is open. -/
def execCertStatus (r : ShepReq) (s : State) : Out :=
  s.shepRun { op := 0x0802, a := false, sec := false, reply := 16 } r fun r s =>
    match s.session (worldOf r) with
    | some x => .ok s [x.num, x.scope.zeroExtend 32, x.expiry.truncate 32,
        BitVec.ofNat 32 (x.expiry.toNat / 2 ^ 32)]
    | none => .ok s [0, 0, 0, 0]

/-- Secure time has passed a session's expiry: it closes (R336). -/
def execCertExpiry (world : Bool) (s : State) : Out :=
  match s.session world with
  | some x => if s.stValid && x.expiry.toNat ≤ s.stNow.toNat then .next (s.closeSession world)
    else .next s
  | none => .next s

end Sys2Proof.Machine
end

