-- ==== Sys2Proof/Machine/Debug.lean ====
section
/-!
DEFINITION. Test access (R506 to R508, Table OBS-9) and the core debug register (R511, R512, Table OBS-11).
-/

namespace Sys2Proof.Machine

/-! TAP instructions. -/

/-- A TAP instruction is selected; one that is not open acts as BYPASS. -/
def State.select (s : State) (code : BitVec 8) (world : Bool) (isOpen : Bool) : State :=
  { s with tap := { s.tap with instr := if isOpen then code else 0xFF, world := world } }

/-- EXTEST: the boundary cells drive every signal ball (R507). -/
def execExtest (cells : List Bool) (s : State) : Out :=
  let s := s.select 0x00 false true
  .next { s with tap := { s.tap with cells := cells } }

/-- SAMPLE/PRELOAD. -/
def execSamplePreload (cells : List Bool) (s : State) : Out :=
  let s := s.select 0x01 false true
  .next { s with tap := { s.tap with cells := cells } }

/-- IDCODE: it reads 0x1A2167AB. -/
def execIdcode (s : State) : Out :=
  let s := s.select 0x02 false true
  .next { s with tap := { s.tap with data := 0x1A2167AB } }

/-- BYPASS. -/
def execBypass (s : State) : Out := .next (s.select 0xFF false true)

/-- Whether a world's session has a scope bit: 0 N_CORE, 1 S_CORE, 2 IJTAG, 3 HBM_1500 (Table OBS-10). -/
def State.scopeOf (s : State) (world : Bool) (i : Nat) : Bool := (s.session world).any fun x => bit x.scope i

/-- IJTAG_ACCESS under a session with IJTAG. -/
def execIjtagAccess (world : Bool) (s : State) : Out := .next (s.select 0x20 world (s.scopeOf world 2))

/-- CORE_DEBUG under a session with N_CORE or S_CORE. -/
def execCoreDebug (world : Bool) (s : State) : Out :=
  .next (s.select 0x10 world (s.scopeOf world 0 || s.scopeOf world 1))

/-! The core debug register. -/

/-- Whether a session allows an operation on a logical core (R511). -/
def State.dbgAllowed (s : State) (world : Bool) (lc : LC) : Bool :=
  let c := s.core lc
  (s.session world).any fun x =>
    bit x.scope 1 || (bit x.scope 0 && !c.world && x.pid.all fun p => c.pid = p)

/-- The result that the next Capture-DR shows. -/
def State.dbgResult (s : State) (r : BitVec 3) (data : Word := 0) : State :=
  { s with tap := { s.tap with result := r, data := data } }

/-- Whether a logical core is halted by debug. -/
def Core.dbgHalted (c : Core) : Bool := c.halts.contains .debug

/-- An operation at Update-DR: only while CORE_DEBUG is selected and open; 1 where it is not allowed. -/
def State.dbgOp (s : State) (world : Bool) (lc : LC) (f : State → State) : Out :=
  if s.tap.instr ≠ 0x10 then .next s
  else if !s.dbgAllowed world lc then .next (s.dbgResult 1)
  else .next (f s)

/-- An operation that needs the core halted; 4 while it still finishes an access. -/
def State.dbgHaltedOp (s : State) (world : Bool) (lc : LC) (f : State → State) : Out :=
  s.dbgOp world lc fun s =>
    if !(s.core lc).dbgHalted then s.dbgResult 2
    else if (s.core lc).access.isSome then s.dbgResult 4
    else f s

/-- STATUS: halted, level, world, cr.part. -/
def execDbgStatus (world : Bool) (lc : LC) (s : State) : Out :=
  s.dbgOp world lc fun s =>
    let c := s.core lc
    s.dbgResult 0 (BitVec.ofNat 64
      (b2n c.dbgHalted + c.level * 2 + b2n c.world * 2 ^ 3 + c.pid.toNat * 2 ^ 4))

/-- HALT: the core stops at its next instruction boundary; its open window is abandoned (R512). -/
def execDbgHalt (world : Bool) (lc : LC) (s : State) : Out :=
  s.dbgOp world lc fun s =>
    let s := (s.abandon lc).halt lc .debug
    let s : State := if s.tap.halted.contains (world, lc) then s
      else { s with tap := { s.tap with halted := s.tap.halted ++ [(world, lc)] } }
    s.dbgResult 0

/-- RESUME: the session lets the core go; it runs once every reason for its halt has ended. -/
def execDbgResume (world : Bool) (lc : LC) (s : State) : Out :=
  s.dbgOp world lc fun s =>
    if !s.tap.halted.contains (world, lc) then s.dbgResult 2
    else
      let l := s.tap.halted.filter (· ≠ (world, lc))
      let s : State := { s with tap := { s.tap with halted := l } }
      let s := if l.any fun x => x.2 = lc then s
        else (s.unhalt lc .debug).modCore lc fun c => { c with step := false }
      s.dbgResult 0

/-- STEP: one instruction leaves W, or one exception entry happens; 4 while the last step has not ended. -/
def execDbgStep (world : Bool) (lc : LC) (s : State) : Out :=
  s.dbgHaltedOp world lc fun s =>
    if (s.core lc).step then s.dbgResult 4
    else (s.modCore lc fun c => { c with step := true }).dbgResult 0

/-- RDREG: g1 to g31, 32 the PC, 33 cr.status; others are refused. -/
def execDbgRdreg (world : Bool) (lc : LC) (reg : BitVec 16) (s : State) : Out :=
  s.dbgHaltedOp world lc fun s =>
    let c := (s.core lc).settle
    let n := reg.toNat
    if 1 ≤ n && n < 32 then s.dbgResult 0 (c.getG (BitVec.ofNat 5 n))
    else if n = 32 then s.dbgResult 0 c.pc
    else if n = 33 then s.dbgResult 0 c.status
    else s.dbgResult 1

/-- A register as WRREG writes it. DEDUCED: the PC's low bits stay 0, and level M runs in the secure world. -/
def Core.dbgWrite (c : Core) (n : Nat) (x : Word) : Option Core :=
  if 1 ≤ n && n < 32 then some (c.settle.setG (BitVec.ofNat 5 n) x)
  else if n = 32 then some { c with pc := x &&& ~~~3#64, pfq := [], got := [] }
  else if n = 33 then some { c with status := if field x 0 2 = 3 then (x &&& 0xF) ||| 4 else x &&& 0xF, got := [] }
  else none

/-- WRREG. -/
def execDbgWrreg (world : Bool) (lc : LC) (reg : BitVec 16) (data : Word) (s : State) : Out :=
  s.dbgHaltedOp world lc fun s =>
    match (s.core lc).dbgWrite reg.toNat data with
    | some c => ((s.abandon lc).setCore lc { c with win := none }).dbgResult 0
    | none => s.dbgResult 1

/-- SETADDR. -/
def execDbgSetaddr (world : Bool) (lc : LC) (a : Word) (s : State) : Out :=
  s.dbgOp world lc fun s =>
    let s : State := { s with tap := { s.tap with addr := SMap.set 0 s.tap.addr lc.val a } }
    s.dbgResult 0

/-- The address of the next memory operation on a core. DESIGN CHOICE: its low three bits are ignored. -/
def State.dbgAddr (s : State) (lc : LC) : Word := SMap.get 0 s.tap.addr lc.val &&& ~~~7#64

/-- A memory operation ends: the lines that it brought are let go; `ok` advances the address by 8. -/
def State.dbgMemEnd (s : State) (lc : LC) (r : BitVec 3) (data : Word) : State :=
  let a := s.dbgAddr lc
  let s := s.modCore lc fun c => { c with got := [] }
  let s : State := if r = 0 then
      { s with tap := { s.tap with addr := SMap.set 0 s.tap.addr lc.val (a + 8) } } else s
  s.dbgResult r data

/-- RDMEM: one 8 B load as the core would make it; 4 while lines that it needs are on their way, and the
operation is given again. -/
def execDbgRdmem (world : Bool) (lc : LC) (s : State) : Out :=
  s.dbgHaltedOp world lc fun s =>
    match s.asker lc with
    | none => s.dbgResult 3
    | some k =>
      match s.halves k .load (s.dbgAddr lc) 8 with
      | .busy => s.dbgResult 4
      | .sent s => s.dbgResult 4
      | .fault _ s => s.dbgMemEnd lc 3 0
      | .ok ps _ s =>
        match ps with
        | [] => s.dbgResult 4
        | p :: _ =>
          let line := p.pa / 64
          let give := fun (s : State) (d : Line) (pois : Bool) =>
            if pois then s.dbgMemEnd lc 3 0
            else s.dbgMemEnd lc 0 (BitVec.ofNat 64 (Line.bytes d (p.pa % 64) 8))
          match SMap.get none (s.core lc).got line with
          | some (.data d pois) => give s d pois
          | some .bus => s.dbgMemEnd lc 3 0
          | none => match (s.readPart k p).1 with
            | .hit d pois _ s => give s d pois
            | .bus s => s.dbgMemEnd lc 3 0
            | .sent s => (s.awaitLine lc true line).dbgResult 4
            | .busy => s.dbgResult 4

/-- WRMEM: one 8 B store through the core's store buffer; 4 until it has drained, and the operation is given
again. A drain that fails is captured, and no exception follows. -/
def execDbgWrmem (world : Bool) (lc : LC) (data : Word) (s : State) : Out :=
  s.dbgHaltedOp world lc fun s =>
    let c := s.core lc
    match s.tap.store, s.asker lc with
    | _, none => s.dbgResult 3
    | some (l, n), some _ =>
      if l ≠ lc || !c.sb.isEmpty then s.dbgResult 4
      else
        let bad := n < c.sbErr.length
        let s := s.modCore lc fun c => { c with sbErr := c.sbErr.take n }
        let s : State := { s with tap := { s.tap with store := none } }
        s.dbgMemEnd lc (if bad then 3 else 0) 0
    | none, some k =>
      if !c.sb.isEmpty then s.dbgResult 4
      else match s.halves k .store (s.dbgAddr lc) 8 with
        | .busy => s.dbgResult 4
        | .sent s => s.dbgResult 4
        | .fault _ s => s.dbgMemEnd lc 3 0
        | .ok ps _ s =>
          let n := c.sbErr.length
          let s := s.abandon lc
          let s := s.modCore lc fun c =>
            { c with sb := c.sb ++ ps.map fun p => storeEntry c c.level p (Line.place (p.pa % 64) data.toNat) }
          let s : State := { s with tap := { s.tap with store := some (lc, n) } }
          s.dbgResult 4

end Sys2Proof.Machine
end

