-- ==== Sys2Proof/Machine/DevSpace.lean ====
section
/-!
DEFINITION. The register space as its stations serve it (R25 to R27, R235, Table MAP-2): windows of logical cores,
die blocks, and the hub block with mailboxes, time, Loupes, FOLD_DEVBELL and the serial units.
-/

namespace Sys2Proof.Machine

/-! Word by word, where a read can change the state. -/

/-- An access of 1, 2, 4 or 8 B read word by word; none is a bus error. -/
def readState (rd : State → Nat → Option (Nat × State)) (s : State) (off n : Nat) : Option (Nat × State) :=
  match rd s (off / 4 * 4) with
  | none => none
  | some (lo, s) =>
    if n = 8 then
      match rd s (off / 4 * 4 + 4) with
      | none => none
      | some (hi, s) => some (lo + 2 ^ 32 * hi, s)
    else some (lo / 2 ^ (8 * (off % 4)) % 2 ^ (8 * n), s)

/-! Mailboxes (Table CMD-2). -/

/-- Mailbox and channel that an offset of the hub block below 0x2000 lies in. -/
def mbAt (off : Nat) : MbId × Fin 2 :=
  (if off < 0x1000 then .h else .m, ⟨off / 0x800 % 2, by omega⟩)

/-- MB_HOLDER. -/
def Mbox.holderWord (m : Mbox) : Nat :=
  match m.holder with
  | none => 0
  | some h => h.lc.val + h.pid.toNat * 2 ^ 8 + h.lvl.toNat * 2 ^ 16 + b2n h.world * 2 ^ 18 + 2 ^ 19

/-- MB_STATUS. -/
def State.mbStatus (s : State) (m : Mbox) : Nat :=
  let evp := match m.holder with
    | none => false
    | some h => !(SMap.get [] s.evq (b2n h.world)).isEmpty
  b2n m.busy + 2 * b2n m.done + 4 * b2n evp

/-- A word of a mailbox channel read; none is a bus error (R390, R391). -/
def State.mbRead (s : State) (off : Nat) (who : Accessor) : Option Word32 :=
  let (mb, ch) := mbAt off
  let m := s.mbox (mbKey mb ch)
  let o := off % 0x800
  let mine := fun (x : SMap Byte) (k : Nat) => if m.heldBy who then BitVec.ofNat 32 (readBytes x 4 k) else 0
  if !mbLevel mb who then none
  else if o = 0 || o = 8 then some 0
  else if o = 4 then some (BitVec.ofNat 32 m.holderWord)
  else if o = 0xC then some (BitVec.ofNat 32 (s.mbStatus m))
  else if o = 0x10 then some m.lastSeq
  else if 0x100 ≤ o && o < 0x300 then some (mine m.cmd (o - 0x100))
  else if 0x400 ≤ o && o < 0x600 then some (mine m.reply (o - 0x400))
  else none

/-- A word of a mailbox channel written under a byte mask; none is a bus error. -/
def State.mbWrite (s : State) (off v : Nat) (bm : BitVec 4) (who : Accessor) : Option State :=
  let (mb, ch) := mbAt off
  let k := mbKey mb ch
  let o := off % 0x800
  let low := bm.getLsbD 0
  if (s.mbRead off who).isNone then none
  else if !s.shepUp then some s
  else if o = 0 then
    let s := if low && v % 2 = 1 then s.modMbox k (·.claim who) else s
    some (if low && v / 2 % 2 = 1 then s.modMbox k (·.free who) else s)
  else if o = 8 then
    some (if low && v % 2 = 1 then s.mbGo mb ch (v / 2 % 2 = 1) who else s)
  else if o = 0xC then
    some (if low && v / 2 % 2 = 1 then s.modMbox k fun m => { m with done := false } else s)
  else if 0x100 ≤ o && o < 0x300 then
    some (if (s.mbox k).heldBy who then
      s.modMbox k fun m => { m with cmd := writeBytes m.cmd 4 (o - 0x100) bm.toNat v } else s)
  else some s

/-! Loupes (R505). -/

/-- Loupe and register that an offset of the hub block names, where the accessor owns the Loupe and its domain is
on. -/
def State.loupeAt (s : State) (off : Nat) (who : Accessor) : Option (Nat × Nat) :=
  let k := (off - 0x4000) / 0x100
  let o := (off - 0x4000) % 0x100
  if k < 44 && o < 0x50 && (inTable (loupeRegs k) (o / 4 * 4)).isSome && s.domState 60 ≠ 1
      && s.lpOwned k who.world who.pid then some (k, o) else none

/-- A Loupe's register read on the data path; 8 B at 0x38 take one trace word. -/
def State.loupeDev (s : State) (off n : Nat) (who : Accessor) : Option (Nat × State) :=
  match s.loupeAt off who with
  | none => none
  | some (k, o) =>
    if n = 8 && o = 0x38 then
      let (w, s) := s.lpWord k
      some (w.toNat, s.lpNext k)
    else
      let rd := fun (s : State) (o : Nat) =>
        if (inTable (loupeRegs k) o).isNone then none
        else
          let (v, s) := s.lpRead k o false
          some (v.toNat, s)
      readState rd s o n

/-- A word of a Loupe's register written under a byte mask: a WO or W1C field needs its byte named. -/
def State.loupePut (s : State) (off v : Nat) (bm : BitVec 4) (who : Accessor) : Option State :=
  match s.loupeAt off who with
  | none => none
  | some (k, o) =>
    let cur := (s.cpGet (lpAddr k o)).toNat
    if o = 0 then some (if bm.getLsbD 0 then s.lpWrite k 0 (BitVec.ofNat 32 (v % 256)) else s)
    else if o = 0x2C then some (if bm.getLsbD 0 then s.lpWrite k o (BitVec.ofNat 32 v) else s)
    else some (s.lpWrite k o (BitVec.ofNat 32 (mergeBits cur v (maskOf 4 bm.toNat))))

/-! The hub block. -/

/-- A register of the hub block read by a DevRd of `n` bytes; none is NcErr. -/
def State.hubDevRead (s : State) (off n : Nat) (who : Accessor) : Option (Nat × State) :=
  if off < 0x2000 then (readWords (fun o => s.mbRead o who) off n).map (·, s)
  else if off = 0x2000 then if n = 8 then some (s.tb.toNat, s) else none
  else if off = 0x2100 then if n = 8 then some (s.stNow.toNat, s) else none
  else if off = 0x2108 then if n = 4 then some (b2n s.stValid, s) else none
  else if 0x4000 ≤ off && off < 0x6C00 then s.loupeDev off n who
  else if off = 0x8000 then if n = 8 then some (0, s) else none
  else readState (fun s o => s.pkgRead o who) s off n

/-- A register of the hub block written by a DevWr that names bytes `bm` of `n`, its answer NcAck (true) or NcErr;
none where a doorbell's context cannot be read yet. -/
def State.hubDevWrite (s : State) (off n v bm : Nat) (who : Accessor) : Option (Bool × State) :=
  let out := fun (o : Option State) => match o with
    | some s' => some (true, s')
    | none => some (false, s)
  if off < 0x2000 then out (writeWords (fun s o v m => s.mbWrite o v m who) s off n v bm)
  else if 0x4000 ≤ off && off < 0x6C00 then out (writeWords (fun s o v m => s.loupePut o v m who) s off n v bm)
  else if off = 0x8000 then
    if n = 8 && bm = 255 then s.devBell (BitVec.ofNat 64 v) who else some (false, s)
  else out (writeWords (fun s o v m => s.pkgWrite o v m who) s off n v bm)

/-! Die blocks and core windows. -/

/-- A word of a die block read. -/
def State.dieRead (s : State) (d : Die) (off : Nat) (who : Accessor) : Option Word32 :=
  if off < 0x10000 then s.intdRead d off who
  else if off < 0x11000 then s.rmeRead d (off - 0x10000) who
  else none

/-- A word of a die block written under a byte mask. -/
def State.dieWrite (s : State) (d : Die) (off v : Nat) (bm : BitVec 4) (who : Accessor) : Option State :=
  if off < 0x10000 then s.intdWrite d off v bm who
  else if off < 0x11000 then s.rmeWrite d (off - 0x10000) v bm who
  else none

/-- What a register address selects at its station (Table MAP-2). -/
inductive DevAt where
  | window (lc : LC) (off : Nat)
  | die (d : Die) (off : Nat)
  | hub (off : Nat)
  | other
  deriving DecidableEq, Repr

/-- The block of a register address. -/
def devAt (a : Nat) : DevAt :=
  let o := a - 0xF000000000
  if a < 0xF000000000 then .other
  else if 0x1000000 ≤ o && o < 0x1D80000 then
    if h : (o - 0x1000000) / 0x10000 < 216 then .window ⟨(o - 0x1000000) / 0x10000, h⟩ (o % 0x10000) else .other
  else if 0x10000000 ≤ o && o < 0x10C00000 then
    if h : (o - 0x10000000) / 0x100000 < 12 then .die ⟨(o - 0x10000000) / 0x100000, h⟩ (o % 0x100000) else .other
  else if 0x20000000 ≤ o && o < 0x20010000 then .hub (o - 0x20000000)
  else .other

/-- Who makes the access that a message carries. -/
def accessorOf (m : Msg) : Accessor := ⟨m.lvl, m.s, m.pid, m.lc⟩

/-- A register read by its station: the value and the state after, or none for NcErr (R26, R235). -/
def State.devRead (s : State) (m : Msg) : Option (Nat × State) :=
  let who := accessorOf m
  if who.lvl = 0 || !([1, 2, 4, 8].contains m.bytes) || m.addr.toNat % m.bytes ≠ 0 then none
  else match devAt m.addr.toNat with
    | .window lc off => (readWords (fun o => s.windowRead lc o who false) off m.bytes).map (·, s)
    | .die d off => (readWords (fun o => s.dieRead d o who) off m.bytes).map (·, s)
    | .hub off => s.hubDevRead off m.bytes who
    | .other => none

/-- The aligned 1, 2, 4 or 8 B that hold the bytes which a DevWr names, as address and count (R235). -/
def devSpan (a : Nat) (bm : BitVec 64) : Option (Nat × Nat) :=
  if bm = 0 then none
  else ([1, 2, 4, 8].find? fun n => bm &&& ~~~(byteMask (a % 64 / n * n) n) == 0).map fun n => (a / n * n, n)

/-- A register written by its station: NcAck (true) or NcErr and the state after, or none where it waits. The
bytes that BMASK names are written, whatever the others of the data flit hold (R235). -/
def State.devWrite (s : State) (m : Msg) : Option (Bool × State) :=
  let who := accessorOf m
  match devSpan m.addr.toNat m.bmask with
  | none => some (false, s)
  | some (a, n) =>
  let v := Line.bytes (m.data.getD 0) (a % 64) n
  let bm := m.bmask.toNat / 2 ^ (a % 64)
  let out := fun (o : Option State) => match o with
    | some s' => some (true, s')
    | none => some (false, s)
  if who.lvl = 0 then some (false, s)
  else match devAt a with
    | .window lc off => out (writeWords (fun s o v b => s.windowWrite lc o v b who false) s off n v bm)
    | .die d off => out (writeWords (fun s o v b => s.dieWrite d o v b who) s off n v bm)
    | .hub off => s.hubDevWrite off n v bm who
    | .other => some (false, s)

/-- Whether a unit serves registers (R235). -/
def UnitKind.isDevice : UnitKind → Bool
  | .slot _ => true
  | .intd => true
  | .shepherd => true
  | _ => false

/-- DevRd: the answer carries the bytes asked for. -/
def execDevRd (msg : Msg) (s : State) : Out :=
  s.deliver msg .devRd UnitKind.isDevice fun m s => match s.devRead m with
    | some (v, s) =>
      let d : Line := BitVec.ofNat 512 (v * 2 ^ (8 * (m.addr.toNat % 64)))
      some (s.send { replyTo m .ncData with data := some d })
    | none => some (s.send (replyTo m .ncErr))

/-- DevWr. -/
def execDevWr (msg : Msg) (s : State) : Out :=
  s.deliver msg .devWr UnitKind.isDevice fun m s => match s.devWrite m with
    | some (ok, s) => some (s.send (replyTo m (if ok then .ncAck else .ncErr)))
    | none => none

end Sys2Proof.Machine
end

