-- ==== Sys2Proof/Machine/Snapshots.lean ====
section
/-!
DEFINITION. The snapshot engine (R496 to R500, Tables OBS-4 and OBS-5).
-/

namespace Sys2Proof.Machine

/-- A counter group with the station that gives a record (Table OBS-4). -/
structure GroupAt where
  group : Nat
  st    : Station

/-- Every station of every counter group, by group and station. -/
def State.groupStations (s : State) : List GroupAt :=
  (List.range 28).map (fun k => ⟨0, BitVec.ofNat 12 (0x80 + k)⟩)
  ++ (List.finRange 4).map (fun q => ⟨1, homeStation q⟩)
  ++ (List.finRange 4).map (fun q => ⟨2, mcStation q⟩)
  ++ (List.range 12).map (fun n => ⟨3, hubPortStation n⟩)
  ++ (List.finRange 12).flatMap (fun d =>
    ((List.range 20).filter fun i => (s.lcAt d i).isSome).map fun i =>
      ⟨0x10 + d.val, slotStation d i⟩)
  ++ (List.range 44).map fun k => ⟨0x40 + k, loupeStation k⟩

/-- Words of a record, in the order of Table OBS-4. -/
def State.groupWords (s : State) (g : GroupAt) : List Word :=
  let at' := fun (off : Nat) => (s.cpLive (cpAddr g.st off)).zeroExtend 64
  if g.group = 0 then
    (List.range 12).map fun i => (SMap.get 0 s.rtrBytes (12 * (unitOf g.st - 0x80) + i)).zeroExtend 64
  else if g.group = 1 then
    [at' 0x004, at' 0x008, at' 0x010, at' 0x014] ++ (List.range 16).map fun t =>
      (s.cpGet (cpAddr shepStation (0x60400 + 16 * t + 4 * unitOf g.st))).zeroExtend 64
  else if g.group = 2 then
    [at' 0x004, at' 0x0A4, at' 0x0A8, at' 0x0C0, at' 0x0C4, at' 0x010, at' 0x084]
  else if g.group = 3 then
    [at' 0x000, at' 0x110] ++ (List.range 36).map fun w => at' (0x180 + 4 * w)
  else if g.group < 0x40 then
    match dieOfStation g.st with
    | none => []
    | some d => match s.lcAt d (unitOf g.st) with
      | none => []
      | some lc =>
        let c := s.core lc
        let a := c.acct
        [BitVec.ofNat 64 (s.coreIdent lc), a.elapsed, a.ibeats, a.stallSb, a.stallL1, a.stallPfq,
          a.stallWalk] ++ (List.range 8).map fun i => (SMap.get 0 c.pmu.cnt i).zeroExtend 64
  else [s.cpGet64 (cpAddr g.st 0x40), s.cpGet64 (cpAddr g.st 0x48), at' 0x2C]

/-- Whether a record's logical core runs in the secure world. -/
def State.groupSecure (s : State) (g : GroupAt) : Bool :=
  match dieOfStation g.st with
  | none => false
  | some d => match s.lcAt d (unitOf g.st) with
    | none => false
    | some lc => (s.core lc).world

/-- A station latches its group, or skips while an earlier latch waits (R497). -/
def State.latchGroup (t : Word) (s : State) (g : GroupAt) : State :=
  let k := g.group * 4096 + g.st.toNat
  if s.snap.latch.any fun r => r.group = g.group && r.st == g.st then
    { s with snap := { s.snap with
      drops := SMap.set 0 s.snap.drops k (satAdd 255 (SMap.get 0 s.snap.drops k) 1) } }
  else
    let off := s.isOff g.st
    let ws := s.groupWords g
    let r : SnapRec := {
      group := g.group, st := g.st, num := s.snap.num, time := t, cnum := s.shep.cnum
      words := if off then ws.map fun _ => 0 else ws
      secure := s.groupSecure g, off := off, drops := SMap.get 0 s.snap.drops k }
    { s with snap := { s.snap with
      latch := s.snap.latch ++ [r], drops := SMap.set 0 s.snap.drops k 0 } }

/-- A SNAPSHOT frame announces an instant in us (R496). -/
def execSnapshot (f : Frame) (s : State) : Out :=
  let s := s.takeFrame f
  if frameGood f 9 then .next { s with snap := { s.snap with next := some f.data } } else .next s

/-- The announced instant comes: every group is latched. An instant under Shed-1, P1 or deeper is neither
taken nor counted. -/
def execSnapshotInstant (t : Word) (s : State) : Out :=
  let s := s.advance t
  if s.snap.next = some (BitVec.ofNat 32 (t.toNat / 1000)) && t.toNat % 1000 = 0 then
    let s := { s with snap := { s.snap with next := none } }
    if s.calm then .next s
    else
      let s : State := { s with snap := { s.snap with num := s.snap.num + 1 } }
      .next (s.groupStations.foldl (State.latchGroup t) s)
  else .next s

/-- The group that is gathered next: the one begun, else the oldest latch, lowest group among equals
(R497). -/
def Snap.turn (x : Snap) : Option (Nat × Nat) :=
  match x.cur with
  | some c => some c
  | none => (x.latch.foldl (fun (m : Option SnapRec) r => match m with
      | none => some r
      | some y => if r.num < y.num || (r.num = y.num && r.group < y.group) then some r else m) none).map
        fun r => (r.group, r.num)

/-- The records of the last 16 gathered snapshots of a group are kept (R499). -/
def keep16 (l : List SnapRec) (group : Nat) : List SnapRec :=
  let nums := ((l.filter fun r => r.group = group).map (·.num)).dedup
  let old := nums.take (nums.length - 16)
  l.filter fun r => r.group ≠ group || !old.contains r.num

/-- The Shepherd gathers a latched record. -/
def execSnapshotGather (group : BitVec 8) (st : Station) (s : State) : Out :=
  let x := s.snap
  match x.turn with
  | none => .next s
  | some (g, n) =>
    if g ≠ group.toNat then .next s
    else match x.latch.find? fun r => r.group = g && r.num = n && r.st == st with
      | none => .next s
      | some r =>
        let left := x.latch.erase r
        .next { s with snap := { x with
          latch := left
          recs := keep16 (x.recs ++ [r]) g
          cur := if left.any fun y => y.group = g && y.num = n then some (g, n) else none } }

/-- The snapshot engine at cold reset and domain restart (R496, R499): periods of 1,000,000 us. -/
def Snap.restart : Snap := {}

/-- The period in force in us: the shorter request (R496). -/
def State.snapPeriod (s : State) : Nat :=
  min (SMap.get 1000000 s.snap.period 0) (SMap.get 1000000 s.snap.period 1)

/-- A dump record (Table OBS-5), its words masked where `mask` holds. -/
def SnapRec.bytes (r : SnapRec) (mask : Bool) : List Byte :=
  let ws := match r.words with
    | [] => []
    | w :: t => if mask then w :: t.map fun _ => 0 else r.words
  let body := natToBytes 2 r.group ++ natToBytes 2 r.st.toNat ++ natToBytes 4 r.num
    ++ natToBytes 8 r.time.toNat ++ natToBytes 4 r.cnum.toNat ++ natToBytes 2 ws.length
    ++ natToBytes 1 r.drops ++ natToBytes 1 (b2n mask + 2 * b2n r.off) ++ natToBytes 8 0
    ++ bytesOf64 ws
  body ++ List.replicate ((64 - body.length % 64) % 64) 0

end Sys2Proof.Machine
end

