-- ==== Sys2Proof/Machine/ShepInfo.lean ====
section
/-!
DEFINITION. Commands of the Shepherd that inform, that run partitions and queues, and that reach the control
plane (Table CMD-5).
-/

namespace Sys2Proof.Machine

/-! Information. -/

/-- INFO_VERSION. -/
def execInfoVersion (r : ShepReq) (s : State) : Out :=
  s.shepRun { op := 0x0100, reply := 68 } r fun _ s =>
    let sh := fun (off : Nat) => s.cpGet (cpAddr shepStation off)
    .ok s ([s.shep.fwVer, sh 0x30120, sh 0x300F4, sh 0x300F8,
        s.cpGet (cpAddr (hubPortStation 0) 0x01C)] ++ (List.finRange 12).map fun d =>
      if s.fencedSite d then 0 else s.cpGet (cpAddr (diePortStation d) 0x01C))

/-- INFO_SLOTS. -/
def execInfoSlots (r : ShepReq) (s : State) : Out :=
  s.shepRun { op := 0x0101, reply := 192 } r fun _ s =>
    .ok s ((List.finRange 12).flatMap fun d =>
      [0x040, 0x044, 0x048, 0x04C].map fun off => s.cpLive (cpAddr (dcsStation d) off))

/-- INFO_CORE_MAP. -/
def execInfoCoreMap (r : ShepReq) (s : State) : Out :=
  s.shepRun { op := 0x0102, reply := 864, rbuf := true } r fun _ s =>
    .ok s ((List.finRange 216).map fun lc => BitVec.ofNat 32 (s.coreIdent lc))

/-- Distance class of two quadrants: 0 same, 1 column, 2 row, 3 diagonal (R33). -/
def distClass (a b : Nat) : Nat := if a = b then 0 else if a % 2 = b % 2 then 1
  else if a / 2 = b / 2 then 2 else 3

/-- A row of the distance table (R34, Table MAP-6). -/
def distRow (d : Nat) : List Nat :=
  ((List.range 4).map fun q => ([160, 171, 173, 184][distClass (d / 3) q]?).getD 0)
  ++ ((List.range 12).map fun n => if n = d then 0
      else ([105, 116, 118, 129][distClass (d / 3) (n / 3)]?).getD 0) ++ [1200]

/-- Halfwords packed two to a word, the first the low one. -/
def packHalves : List Nat → List Word32
  | [] => []
  | [a] => [BitVec.ofNat 32 a]
  | a :: b :: t => BitVec.ofNat 32 (a + b * 2 ^ 16) :: packHalves t

/-- INFO_DISTANCE. -/
def execInfoDistance (r : ShepReq) (s : State) : Out :=
  s.shepRun { op := 0x0103, reply := 408 } r fun _ s => .ok s (packHalves ((List.range 12).flatMap distRow))

/-- The 64 bytes of an event record (Table CMD-6). -/
def EventRec.bytes (e : EventRec) : List Byte :=
  natToBytes 2 e.code.toNat ++ natToBytes 1 e.subj.toNat ++ natToBytes 1 e.dropped.toNat
    ++ natToBytes 4 e.arg.toNat ++ natToBytes 8 e.time.toNat
    ++ (e.data ++ List.replicate 48 0).take 48

/-- EVENT_READ: the oldest records of the issuer's world leave its queue (R400). -/
def execEventRead (r : ShepReq) (s : State) : Out :=
  s.shepRun { op := 0x0104, words := some 1, reply := 64 * (param r 0).toNat % 512 } r fun r s =>
    let n := (param r 0).toNat
    if n = 0 || 7 < n then .status 0x03 s
    else s.withReply r (64 * n) <|
      let k := b2n (worldOf r)
      let q := SMap.get [] s.evq k
      let b := (q.take n).flatMap EventRec.bytes
      .done 0 { s with evq := SMap.set [] s.evq k (q.drop n) } (words32 (b.length / 4) b)
        (BitVec.ofNat 64 (q.length - n))

/-- INFO_PARTS. -/
def execInfoParts (r : ShepReq) (s : State) : Out :=
  s.shepRun { op := 0x0105, reply := 1024, rbuf := true } r fun _ s =>
    .ok s ((List.range 256).map fun p => match s.part p with
      | none => 0
      | some x => BitVec.ofNat 32 (1 + b2n x.world * 2 + x.st.toNat * 4
          + (s.lcsOfPart p).length * 2 ^ 4))

/-- POWER_STATUS (R472). -/
def execPowerStatus (r : ShepReq) (s : State) : Out :=
  s.shepRun { op := 0x0402, reply := 16 } r fun _ s =>
    .ok s ((List.range 4).map fun i => s.cpGet (pwrAddr (0x60 + 4 * i)))

/-- COVERAGE_READ (R432). -/
def execCoverageRead (r : ShepReq) (s : State) : Out :=
  s.shepRun { op := 0x0503, a := false, reply := 48 } r fun _ s =>
    .ok s ((List.range 12).map fun n => s.cpLive (cpAddr shepStation (0x71000 + 4 * n)))

/-- MIRROR_STATUS (R446). -/
def execMirrorStatus (r : ShepReq) (s : State) : Out :=
  s.shepRun { op := 0x0600, reply := 12 } r fun _ s =>
    .ok s [BitVec.ofNat 32 (s.cpField (mirAddr 0x004) 0 4), s.cpGet (mirAddr 0x008),
      s.cpGet (mirAddr 0x00C)]

/-- LASER_SWITCH (R263). -/
def execLaserSwitch (r : ShepReq) (s : State) : Out :=
  s.shepRun { op := 0x0702, a := false, n := false, sec := false, reply := 4 } r fun _ s =>
    let s := s.xfade
    .ok s [s.cpLive (lsrAddr 0)]

/-! Partitions (R312, R478). -/

/-- PART_CREATE: a secure partition never takes PID 0 (R361). -/
def execPartCreate (r : ShepReq) (s : State) : Out :=
  s.shepRun { op := 0x0300, a := false, words := some 1 } r fun r s =>
    let p := (param r 0).toNat % 256
    let w := bit (param r 0) 8
    if 512 ≤ (param r 0).toNat then .status 0x03 s
    else if (s.part p).isSome then .status 0x50 s
    else if (!isM r && w != worldOf r) || (w && p = 0) then .status 0x52 s
    else .ok (s.setPart p (some { world := w }))

/-- Whether a valid region of the committed configuration names a partition (R312). -/
def State.pidNamed (s : State) (p : Nat) : Bool :=
  let n := s.committed
  (n.regions []).any fun x => (n.regionPids x.a).contains p

/-- PART_DELETE: not while the partition runs, nor while a region names it. -/
def execPartDelete (r : ShepReq) (s : State) : Out :=
  s.shepRun { op := 0x0301, a := false, words := some 1 } r fun r s => match s.namedPart r with
    | .error e => .status e s
    | .ok (p, x) =>
      if x.st = 1 || s.pidNamed p then .status 0x53 s
      else
        let lp := s.shep.lcPart.filter fun e => e.2 ≠ some (BitVec.ofNat 8 p)
        .ok ((s.setPart p none).modShep fun y => { y with lcPart := lp })

/-- PART_START: a stopped core is started for the partition; H from M only. It waits while the core still
holds an access. -/
def execPartStart (r : ShepReq) (s : State) : Out :=
  s.shepRun { op := 0x0303, a := false, words := some 6 } r fun r s => match s.namedPart r with
    | .error e => .status e s
    | .ok (p, x) =>
      let lvl : BitVec 2 := (param r 1).extractLsb' 8 2
      if h : field (param r 1) 0 8 < 216 then
        let lc : LC := ⟨field (param r 1) 0 8, h⟩
        if 2 ^ 10 ≤ (param r 1).toNat || lvl = 0 || lvl = 3 then .status 0x03 s
        else if lvl = 2 && !isM r then .status 0x05 s
        else if (s.core lc).run != .stopped then .status 0x53 s
        else if (s.core lc).access.isSome then .wait
        else
          let q : StartP := { lvl := lvl, pc := param64 r 2, g1 := param64 r 4 }
          let s := s.modShep fun y => { y with
            lcPart := SMap.set none y.lcPart lc.val (some (BitVec.ofNat 8 p))
            starts := SMap.set none y.starts lc.val (some q) }
          .ok ((s.startCore lc lvl x.world (BitVec.ofNat 8 p) q.pc q.g1).setPart p
            (some { x with st := 1 }))
      else .status 0x03 s

/-- PART_STOP: every core of the partition stops at its next boundary. -/
def execPartStop (r : ShepReq) (s : State) : Out :=
  s.shepRun { op := 0x0304, a := false, words := some 1 } r fun r s => match s.namedPart r with
    | .error e => .status e s
    | .ok (p, x) =>
      let s := (s.lcsOfPart p).foldl (fun s lc => s.modCore lc fun c =>
        if c.run == .started then { c with run := .stopped } else c) s
      .ok (s.setPart p (some { x with st := 2 }))

/-- A partition reset begins: its cores halt; it is carried out at once where they rest. -/
def State.beginReset (s : State) (x : PReset) : State :=
  let s := s.partHalt x.pid
  s.modShep fun y => { y with resets := y.resets ++ [x] }

/-- PART_RESET (R478). -/
def execPartReset (r : ShepReq) (s : State) : Out :=
  s.shepRun { op := 0x0305, a := false, words := some 1 } r fun r s => match s.namedPart r with
    | .error e => .status e s
    | .ok (p, _) =>
      if s.shep.resets.any fun x => x.pid = p then .wait
      else
        let h := s.partHalt p
        if h.partRest p then .ok (h.partReset p) else .later (s.beginReset ⟨p, some r, []⟩)

/-- A partition's cores have come to rest: the reset that is under way is carried out, the command that asked
for it answered, and after a RESET reaction the cores that ran start again (R478). -/
def execPartitionReset (pid : BitVec 8) (s : State) : Out :=
  match s.shep.resets.find? fun x => x.pid = pid.toNat with
  | none => .next s
  | some x =>
    if !s.partRest x.pid then .next s
    else
      let s1 := s.modShep fun y => { y with resets := y.resets.erase x }
      let s1 := (s1.partReset x.pid).partRestart x.pid x.restart
      match x.req with
      | none => .next s1
      | some r => .next ((s1.answerShep r 0 [] noDetail).getD s)

/-! Queues (R364, R375, R385, R386). -/

/-- A queue command's work on the queue it names. -/
def State.onQueue (s : State) (r : ShepReq) (f : Nat → Line → State → ShepRes) : ShepRes :=
  let q := (param r 0).toNat
  if 2 ^ 20 ≤ q then .status 0x03 s
  else match s.groupOf q with
    | none => .status 0x03 s
    | some g =>
      if !s.mayGroup r g then .status 0x05 s
      else if s.isOff foldStation then .status 0x0C s
      else match s.ctxOf q with
        | none => .wait
        | some (c, s) => f q c s

/-- A context from parameter words `i` on, `n` words of 32 bits. -/
def ctxParam (r : ShepReq) (i n : Nat) : Line :=
  BitVec.ofNat 512 ((List.range n).foldl (fun a k => a + (param r (i + k)).toNat * 2 ^ (32 * k)) 0)

/-- Whether a context's depth, source and site are within their limits (R364). -/
def ctxLimits (c : Line) : Bool :=
  let n := ctxF c 0 12 4
  4 ≤ n && n ≤ 12 && 128 ≤ ctxF c 0 50 10 && 1 ≤ ctxF c 0 46 4 && ctxF c 0 46 4 ≤ 12

/-- Whether a context names a vector that its group's function has (R364). -/
def ctxVector (c : Line) (g : Nat) : Bool := g = 0 || ctxF c 0 35 11 < 64

/-- FOLD_VECTOR, the status of such a context, has no code in Table CMD-8: it is a free value (DESIGN CHOICE, log
149). -/
def State.foldVector (s : State) : ShepRes :=
  let (c, s) := s.takeFree 8
  .status c.toNat s

/-- Whether pinning a context would be one pin too many (R363). -/
def State.pinFull (s : State) (old new : Line) : Bool :=
  ctxF new 0 4 1 = 1 && !(ctxValid old && ctxF old 0 4 1 = 1) && 4096 ≤ s.fold.pinned

/-- QUEUE_CREATE. -/
def execQueueCreate (r : ShepReq) (s : State) : Out :=
  s.shepRun { op := 0x0320, words := some 11 } r fun r s => s.onQueue r fun q c s =>
    let d := ctxParam r 1 10
    if d &&& ~~~ctxRw ≠ 0 || !ctxLimits d || ctxValid c then .status 0x03 s
    else if !ctxVector d ((s.groupOf q).getD 0) then s.foldVector
    else if s.pinFull c d then .status 0x43 s
    else .ok (s.setCtx q (ctxCreate c d ((s.groupOf q).getD 0)))

/-- QUEUE_CONFIG: of a queue that is not enabled. -/
def execQueueConfig (r : ShepReq) (s : State) : Out :=
  s.shepRun { op := 0x0321, words := some 11 } r fun r s => s.onQueue r fun q c s =>
    let d := ctxParam r 1 10
    if !ctxValid c then .status 0x46 s
    else if d &&& ~~~ctxRw ≠ 0 || !ctxLimits d || ctxEnable c then .status 0x03 s
    else if !ctxVector d ((s.groupOf q).getD 0) then s.foldVector
    else if s.pinFull c d then .status 0x43 s
    else .ok (s.setCtx q (ctxConfig c d))

/-- A queue command on a queue that exists. -/
def State.onValid (s : State) (r : ShepReq) (f : Nat → Line → State → ShepRes) : ShepRes :=
  s.onQueue r fun q c s => if ctxValid c then f q c s else .status 0x46 s

/-- QUEUE_DELETE. -/
def execQueueDelete (r : ShepReq) (s : State) : Out :=
  s.shepRun { op := 0x0322, words := some 1 } r fun r s => s.onValid r fun q c s =>
    .ok (s.setCtx q (ctxSet c 0 0 1 0))

/-- QUEUE_RESET. -/
def execQueueReset (r : ShepReq) (s : State) : Out :=
  s.shepRun { op := 0x0323, words := some 1, reply := 4 } r fun r s => s.onValid r fun q c s =>
    .ok (s.resetQueue q c) [(ctxGen (ctxReset c)).zeroExtend 32]

/-- QUEUE_ENABLE. -/
def execQueueEnable (r : ShepReq) (s : State) : Out :=
  s.shepRun { op := 0x0324, words := some 1 } r fun r s => s.onValid r fun q c s =>
    .ok (s.setCtx q (ctxSet c 0 1 1 1))

/-- GGEN of a group. -/
def State.ggen (s : State) (g : Nat) : Nat := s.cpField (foldAddr (0x20000 + 4 * g)) 0 8

/-- QUEUE_SAVE: of a quiesced group (R385). -/
def execQueueSave (r : ShepReq) (s : State) : Out :=
  s.shepRun { op := 0x0325, words := some 1, reply := 68 } r fun r s => s.onValid r fun _ c s =>
    let g := (s.groupOf (param r 0).toNat).getD 0
    if !s.quiesced g then .status 0x44 s
    else .ok s ((List.range 16).map (fun i => c.extractLsb' (32 * i) 32) ++ [BitVec.ofNat 32 (s.ggen g)])

/-- A saved context as a target queue takes it (R386). -/
def ctxRestore (r : ShepReq) (g : Nat) : Line :=
  let p := param r 22
  let c := ctxSet (ctxSet (ctxParam r 1 16) 0 24 11 g) 0 1 1 1
  let c := ctxSet (ctxSet c 0 46 4 (field p 0 4)) 0 50 10 (field p 4 10)
  let c := ctxSet (ctxSet c 0 35 11 (field p 14 11)) 0 4 1 (field p 25 1)
  ctxSet (ctxSet c 3 12 36 ((param64 r 18).toNat / 4096)) 4 12 36 ((param64 r 20).toNat / 4096)

/-- Whether no queue of a group exists. -/
def State.groupEmpty (s : State) (g : Nat) : Bool :=
  (List.range (s.qCount g)).all fun k => !ctxValid (s.ctxPeek (s.qBase g + k))

/-- QUEUE_RESTORE. -/
def execQueueRestore (r : ShepReq) (s : State) : Out :=
  s.shepRun { op := 0x0326, words := some 23 } r fun r s => s.onQueue r fun q old s =>
    let g := (s.groupOf q).getD 0
    let c := ctxRestore r g
    let i := ctxF c 5 0 12
    if ctxF c 6 36 12 ≠ 0 || ctxF c 6 0 12 ≠ i || ctxF c 6 12 12 ≠ i || ctxF c 6 24 12 ≠ i then
      .status 0x44 s
    else if !ctxLimits c || 2 ^ 26 ≤ (param r 22).toNat || 256 ≤ (param r 17).toNat
        || (!s.groupEmpty g && s.ggen g ≠ (param r 17).toNat) then .status 0x03 s
    else if !ctxVector c g then s.foldVector
    else if s.pinFull old c then .status 0x43 s
    else
      let s := if s.groupEmpty g then
          s.cpSetField (foldAddr (0x20000 + 4 * g)) 0 8 (param r 17).toNat else s
      .ok (s.setCtx q c)

/-- PAUSE of a group is written. -/
def State.groupPause (s : State) (r : ShepReq) (v : Nat) : ShepRes :=
  let g := (param r 0).toNat
  if 1024 < g then .status 0x03 s
  else if !s.mayGroup r g then .status 0x05 s
  else if s.isOff foldStation then .status 0x0C s
  else .ok (s.cpSetField (foldAddr (0x20000 + 4 * g)) 8 1 v)

/-- GROUP_PAUSE (R385). -/
def execGroupPause (r : ShepReq) (s : State) : Out :=
  s.shepRun { op := 0x0330, words := some 1 } r fun r s => s.groupPause r 1

/-- GROUP_RESUME. -/
def execGroupResume (r : ShepReq) (s : State) : Out :=
  s.shepRun { op := 0x0331, words := some 1 } r fun r s => s.groupPause r 0

/-! Control plane (R399). -/

/-- Whether a register reads as 0 for an A or N issuer: fuses, and regions and assigned owner records of
the secure world. -/
def State.cpHidden (s : State) (a : Nat) : Bool :=
  let st := cpStation a
  let off := a % 2 ^ 20
  (st = shepStation && 0x30000 ≤ off && off < 0x31000)
    || (0x1000 ≤ off && off < 0x1000 + 16 * checkerRegions st && s.cpField (a / 16 * 16) 4 1 = 1)
    || (match ownerRecord a with
      | some _ => bit (s.cpGet a) 9 && bit (s.cpGet a) 10
      | none => match unitKind st with
        | some .intd => 0x2080 ≤ off && off < 0x3000 && bit (s.cpGet a) 9 && bit (s.cpGet a) 10
        | _ => false)

/-- The next frame of a CP_READ or CP_WRITE goes out, unless 64 of its station are outstanding (R252), or it
writes to an armed station (R408). -/
def State.feedJob (s : State) (j : CpJob) : State :=
  let st := cpStation j.addr
  if j.seq.isSome || 64 ≤ s.outstanding st || (j.write && s.cpHeld st) then s
  else
    let n := s.nextSeq st
    (s.modShep fun x => { x with
      seqs := SMap.set 0 x.seqs st.toNat n
      cpJobs := x.cpJobs.map fun k => if k = j then { j with seq := some n } else k }).sendFrame
      { op := if j.write then 2 else 1, seq := n, addr := BitVec.ofNat 32 j.addr, data := j.value }

/-- The frames of the commands under way go out in turn. -/
def State.feedJobs (s : State) : State := s.shep.cpJobs.foldl State.feedJob s

/-- A CP_READ or CP_WRITE begins. -/
def State.startJob (s : State) (j : CpJob) : State :=
  (s.modShep fun x => { x with cpJobs := x.cpJobs ++ [j] }).feedJobs

/-- Status code of a control-plane status. -/
def cpCode (x : BitVec 4) : Nat := if x = 1 then 0x0A else if x = 3 then 0x0C else if x = 2 then 0x0B else 0

/-- CP_READ. -/
def execCpRead (r : ShepReq) (s : State) : Out :=
  s.shepRun { op := 0x0B00, words := some 2, reply := 4 * ((param r 1).toNat % 128) } r fun r s =>
    let n := (param r 1).toNat
    if n = 0 || 64 < n then .status 0x03 s
    else s.withReply r (4 * n) <| .later (s.startJob {
      req := r, write := false, mask := isAdmin r || (!isM r && !worldOf r)
      addr := (param r 0).toNat, words := n })

/-- CP_WRITE: RWL fields keep their values (R8); it waits while its station is armed (R408). -/
def execCpWrite (r : ShepReq) (s : State) : Out :=
  s.shepRun { op := 0x0B01, a := false, n := false, sec := false, words := some 2 } r fun r s =>
    let a := (param r 0).toNat
    if s.cpHeld (cpStation a) then .wait
    else .later (s.startJob { req := r, write := true, value := param r 1, addr := a })

/-- A reply reaches the command whose frame it answers: the next word's frame goes out, or the command is
answered; none where its answer must wait. -/
def State.jobReply (s : State) (f : Frame) : Option State :=
  let st := cpStation f.addr.toNat
  let s := s.modShep fun x => { x with resends := SMap.set 0 x.resends st.toNat 0 }
  match s.shep.cpJobs.find? fun j => j.seq = some f.seq && j.addr = f.addr.toNat with
  | none => some s
  | some j =>
    let rest := s.modShep fun x => { x with cpJobs := x.cpJobs.erase j }
    if f.status ≠ 0 then
      rest.answerShep j.req (cpCode f.status) [] (detailOf j.addr (if j.write then 0xFFFFFFFF else j.idx))
    else if j.write then rest.answerShep j.req 0 [] noDetail
    else
      let got := j.got ++ [if j.mask && s.cpHidden j.addr then 0 else f.data]
      if got.length = j.words then rest.answerShep j.req 0 got noDetail
      else
        let j' := { j with got := got, addr := j.addr + 4, idx := j.idx + 1, seq := none }
        some (s.modShep fun x => { x with cpJobs := x.cpJobs.map fun k => if k = j then j' else k })

/-- A READ_REPLY reaches the Shepherd. -/
def execReadReply (f : Frame) (s : State) : Out :=
  let rest := s.takeFrame f
  if !frameGood f 3 || f.dup then .next rest
  else .next (((rest.jobReply f).map State.feedJobs).getD s)

/-- A WRITE_REPLY reaches the Shepherd. -/
def execWriteReply (f : Frame) (s : State) : Out :=
  let rest := s.takeFrame f
  if !frameGood f 4 || f.dup then .next rest
  else .next (((rest.jobReply f).map fun s => (s.entryWritten f).feedJobs).getD s)

/-! Snapshots (R496, R499). -/

/-- SNAP_CONFIG. -/
def execSnapConfig (r : ShepReq) (s : State) : Out :=
  s.shepRun { op := 0x0A00, a := false, words := some 1 } r fun r s =>
    let n := (param r 0).toNat
    if n < 10 || 1000000 < n then .status 0x03 s
    else .ok { s with snap := { s.snap with
      period := SMap.set 1000000 s.snap.period (b2n (worldOf r)) n } }

/-- Records of a group not yet given to a world. -/
def State.snapFor (s : State) (g : Nat) (w : Bool) : List SnapRec :=
  s.snap.recs.filter fun x => x.group = g && SMap.get 0 s.snap.given (256 * b2n w + g) < x.num

/-- Bytes of a world's records of a group; N sees secure cores masked. -/
def State.snapBytes (s : State) (r : ShepReq) (g : Nat) : List Byte :=
  (s.snapFor g (worldOf r)).flatMap fun x => x.bytes (!isM r && !worldOf r && x.secure)

/-- SNAP_READ. -/
def execSnapRead (r : ShepReq) (s : State) : Out :=
  s.shepRun { op := 0x0A01, a := false, words := some 1
              reply := (s.snapBytes r (param r 0).toNat).length, rbuf := true }
    r fun r s =>
      let g := (param r 0).toNat
      if !(g < 4 || (0x10 ≤ g && g < 0x1C) || (0x40 ≤ g && g < 0x6C)) then .status 0x03 s
      else if 0x40 ≤ g && !isM r && !(let o := s.cpGet (lpAddr (g - 0x40) 0x100)
          bit o 10 && bit o 9 == worldOf r) then .status 0x05 s
      else s.withReply r (s.snapBytes r g).length <|
        let b := s.snapBytes r g
        let k := 256 * b2n (worldOf r) + g
        let top := (s.snapFor g (worldOf r)).foldl (fun n x => max n x.num) (SMap.get 0 s.snap.given k)
        .ok { s with snap := { s.snap with given := SMap.set 0 s.snap.given k top } }
          (words32 (b.length / 4) b)

end Sys2Proof.Machine
end

