-- ==== Sys2Proof/Machine/Faults.lean ====
section
/-!
DEFINITION. The fault collector (R418 to R423), reactions and repair (R433 to R436), coherent domain stop
(R438, Table SAFE-12), the pins (R440 to R443), the audit (R437), and the commands about faults.
-/

namespace Sys2Proof.Machine

/-- Control-plane address of a fault collector register (R445). -/
def fcAddr (off : Nat) : Nat := cpAddr shepStation (0x70000 + off)

/-! Pins. -/

/-- Whether FAULT_OUT_N is held low (R331, R440, R483). -/
def State.faultLow (s : State) : Bool :=
  s.imageOnly || s.shep.inReset || s.shep.cds || s.restarting || s.unacked ≠ 0

/-- FAULT_OUT_N and MIRROR_FAULT_N follow the state (R440, R458, R483). -/
def State.pins (s : State) : State :=
  let low := s.faultLow
  let mir := s.shep.inReset || s.shep.cds || s.restarting
  s.modShep fun x => { x with faultOut := low, mirFault := mir }

/-! The log (R420, R421). -/

/-- SEV of a first report (Table SAFE-4); `crit` tells a CRITICAL class, or a MIRROR fault of SEV 3. -/
def sevOf (cls : Nat) (crit : Bool) : Nat :=
  if cls = 0x02 || cls = 0x09 || cls = 0x50 then (if crit then 3 else 2)
  else if [0x03, 0x48].contains cls then 0
  else if [0x01, 0x08, 0x0A, 0x0C, 0x10, 0x13, 0x18].contains cls then 1
  else if [0x0B, 0x19, 0x20, 0x21, 0x23, 0x24, 0x28, 0x42].contains cls then 2
  else 3

/-- Bit of a reporter in REPORTERS (R420). -/
def reporterBit (st : Station) : Nat :=
  4 * (st.toNat / 256) + match unitKind st with
    | some (.slot _) => 0
    | some (.bank _) => 1
    | some .intd => 2
    | some .diePort => 2
    | some .dcs => 3
    | some (.home _) => 0
    | some (.mc _) => 0
    | some .fold => 1
    | some .portA => 1
    | some .mirror => 1
    | some (.ce _) => 1
    | some (.hubPort _) => 3
    | _ => 2

/-- Every record of the fault log changed. -/
def State.modLog (s : State) (f : FaultRec → FaultRec) : State :=
  s.modShep fun x => { x with log := x.log.map f }

/-- Records of the ring of 4,096 with a new one: a full ring gives up its oldest acknowledged record, else
its oldest record of lower SEV, else the new record is lost (R421). -/
def ringWith (log : List FaultRec) (r : FaultRec) : Option (List FaultRec) :=
  if log.length < 4096 then some (log ++ [r])
  else match log.find? (·.acked) with
    | some x => some (log.erase x ++ [r])
    | none => (log.find? fun x => x.sev < r.sev).map fun x => log.erase x ++ [r]

/-- Every Loupe with FREEZE_ON_FAULT stops its trace for good (R504). -/
def State.freezeLoupes (s : State) : State :=
  (List.range 44).foldl (fun s k =>
    if s.cpField (lpAddr k 0) 3 1 = 1 && s.cpField (lpAddr k 0) 1 1 = 1 then
      (s.lpStop k).cpSetField (lpAddr k 0x2C) 3 1 1
    else s) s

/-- A new record enters the log; one of SEV 2 or 3 queues a FAULT event (R421, Table CMD-7). -/
def State.addRecord (s : State) (r : FaultRec) : State :=
  let idx := s.cpGet (fcAddr 0x004)
  let r := { r with index := idx, cnum := s.shep.cnum }
  match ringWith s.shep.log r with
  | none => s.count16 (fcAddr 0x008) 1
  | some l =>
    let s := (s.modShep fun x => { x with log := l }).cpSet (fcAddr 0x004) (idx + 1)
    let s := if 2 ≤ r.sev then s.event true { code := 0x0080, arg := idx } else s
    (if r.sev = 3 then s.freezeLoupes else s).pins

/-- A record of the Shepherd's own, of class SUPPLY or MIRROR; details that are not stated are free values. -/
def State.ownRecord (s : State) (cls source sev loc : Nat) (d0 d1 : Option Nat := none) : State :=
  let (d0, s) := s.orFree 64 d0
  let (d1, s) := s.orFree 64 d1
  s.addRecord { cls := BitVec.ofNat 16 cls, source := BitVec.ofNat 16 source, sev := sev
                tFirst := s.tb, tLast := s.tb, loc := BitVec.ofNat 64 loc, d0 := d0, d1 := d1
                reporters := BitVec.ofNat 52 (2 ^ reporterBit shepStation), index := 0, cnum := 0 }

/-- The record of a report changed where its key matches and it began no more than 1 ms before (R420). -/
def recordFor (log : List FaultRec) (cls source : Nat) (t : Word) : Option FaultRec :=
  log.reverse.find? fun r => r.cls.toNat = cls && r.source.toNat = source
    && (t - r.tFirst).toNat ≤ 1000000

/-! Window counters (R422, R423). -/

/-- What a class's window counter is keyed on (Table SAFE-5). -/
def windowKey (cls source loc : Nat) : Nat :=
  if cls = 0x01 || cls = 0x0A then loc / 64
  else if cls = 0x08 then source / 256 * 2 ^ 48 + loc / 64
  else if cls = 0x0C then source * 2 ^ 48 + loc
  else source

/-- The table with room for one more counter: free entries go, else the one with the oldest START, which
is counted. -/
def State.wcRoom (s : State) : State :=
  let l := s.shep.wcs.filter fun w => !s.wcFree w
  if l.length < 4096 then s.modShep fun x => { x with wcs := l }
  else
    let old := l.foldl (fun (m : Option WinCnt) w => match m with
      | none => some w
      | some y => if w.start < y.start then some w else m) none
    (s.modShep fun x => { x with wcs := match old with
      | some y => l.erase y
      | none => l }).countAt (fcAddr 0x00C) 16 16 1

/-- An error is counted in its window (R422): whether the window fills. -/
def State.countWindow (s : State) (cls key : Nat) : Bool × State :=
  let k := (s.wcCfg cls).1
  if k = 0 then (false, s)
  else
    let mine := fun (w : WinCnt) => w.cls = cls && w.key = key
    let (w, s) := match s.shep.wcs.find? mine with
      | some w => (if s.wcFree w then { w with count := 1, start := s.tb }
          else { w with count := w.count + 1 }, s)
      | none =>
        let w : WinCnt := { cls := cls, key := key, count := 1, start := s.tb }
        let s := s.wcRoom
        (w, s.modShep fun x => { x with wcs := x.wcs ++ [w] })
    let full : Bool := decide (k ≤ w.count)
    let w := if full then { w with count := 0 } else w
    (full, s.modShep fun x => { x with wcs := x.wcs.map fun y => if mine y then w else y })

/-! Coherent domain stop (R438, Table SAFE-12). -/

/-- The stop record is written in a home (R531, Table COH-17). -/
def State.stopRecord (s : State) (cause : Nat) (st : Station) (txid addr : Nat) (q : Quad) : State :=
  let a := cpAddr (homeStation q) 0x020
  let own := cause = 1 || cause = 2
  let s := s.cpSet a (BitVec.ofNat 32 (cause + (if cause ≤ 3 then st.toNat else 0) * 2 ^ 4
    + (if own then txid % 2 ^ 14 else 0) * 2 ^ 16))
  s.cpSet64 (a + 4) (BitVec.ofNat 64 (if own then addr % 2 ^ 48 / 64 * 64 else 0))

/-- Open stages are aborted (R413); `failed` tells the stage whose commit failed. -/
def State.abortStages (s : State) (failed : Option Bool) : State :=
  [false, true].foldl (fun (s : State) w => match SMap.get none s.shep.stages (b2n w) with
    | none => s
    | some _ => (s.modShep fun x => { x with stages := SMap.set none x.stages (b2n w) none }).event w
        { code := 0x0050, subj := if failed == some w then 2 else 1 }) s

/-- The running commit sequence ends with the domain; its command is answered after the restart (R410). -/
def State.stopCommit (s : State) : State :=
  match s.shep.commit with
  | none => s
  | some c =>
    let sent := c.phase == .fire || c.phase == .hold
    let s := match c.what with
      | .swap lc _ => s.unhalt lc .swap
      | .retire p => s.modShep fun x => { x with due := x.due ++ [Due.retire p] }
      | _ => s
    let st := if sent then 0x1C else if c.phase == .disarm then c.endStatus else 0x1D
    s.endDrain.modShep fun x => { x with
      commit := none, hold := false, held := []
      owed := x.owed ++ (c.req.map fun r => (r, st)).toList }

/-- Whether a set of the Shepherd's own outlives a domain stop: a slot's retirement does. -/
def Due.lasts : Due → Bool
  | .retire _ => true
  | _ => false

/-- Coherent domain stop, once (R438, Table SAFE-12): the record in every home, the homes' own stop, the
pins, port A frozen with cause 4, every core halted, open stages aborted. -/
def State.cds (s : State) (cause : Nat) (st : Station := 0) (txid : Nat := 0) (addr : Nat := 0) : State :=
  if s.shep.cds then s
  else
    let s := (List.finRange 4).foldl (fun s q => (s.stopRecord cause st txid addr q).homeStop q) s
    let failed := match s.shep.commit with
      | some c => match c.what with
        | .stage w => if c.phase == .fire || c.phase == .hold then some w else none
        | _ => none
      | none => none
    let s := s.stopCommit.abortStages failed
    let s := (s.freeze 4 0).pcieError pf 22 false
    let s := s.modShep fun x => { x with
      cds := true, cause := cause, hbStop := true, due := x.due.filter Due.lasts }
    (({ s with restarting := true } : State).haltWhere .cds fun _ => true).pins

/-- What the restart removes after causes 1 and 2: the site, or the hub unit (Table SAFE-13). -/
def State.removeFor (s : State) (st : Station) : State :=
  match dieOfStation st with
  | some d => s.modShep fun x => { x with fenceDie := some d }
  | none => s.modShep fun x => { x with heldUnits := x.heldUnits ++ [st] }

/-! Reactions (R433, R434). -/

/-- The logical core whose slot a station is. -/
def State.lcOfSlot (s : State) (source : Nat) : Option LC :=
  match dieOfStation (BitVec.ofNat 12 source) with
  | some d => s.lcAt d (source % 256)
  | none => none

/-- A set of the Shepherd's own waits for its turn, or starts at once. -/
def State.enqueue (s : State) (d : Due) : State :=
  (s.modShep fun x => { x with due := x.due ++ [d] }).startDue

/-- A lasting fault of a core: a live swap of its logical core (R433). -/
def State.swapCore (s : State) (lc : LC) : State :=
  if (s.dieOf lc).isNone || s.shep.due.contains (.swap lc)
      || s.shep.commit.any (fun c => match c.what with
        | .swap l _ => l == lc
        | .retire p => s.placeOf lc == some p
        | _ => false) then s
  else s.enqueue (.swap lc)

/-- The slot of a logical core goes to the front of its reserve's list for a retest (R433). -/
def State.retest (s : State) (lc : LC) : State :=
  match s.shep.lists.find? fun e => e.2.contains lc with
  | some e => s.modShep fun x => { x with first := x.first ++ [(e.1, lc)] }
  | none => s

/-- The reaction to a fault of a logical core, by SAFE_PART_CFG of the partition that it named (R433, Table
SAFE-8). -/
def State.react (s : State) (lc : LC) : State :=
  let p := (s.core lc).pid.toNat
  let r := s.cpField (fcAddr (0x800 + 4 * p)) 0 2
  if r = 1 && (s.part p).isSome then
    let run := (s.lcsOfPart p).filter fun l => (s.core l).run == .started
    let s := if s.shep.resets.any fun x => x.pid = p then s else s.beginReset ⟨p, none, run⟩
    let s := if run.contains lc then (s.unhalt lc .check).unhalt lc .stackLimit else s
    s.retest lc
  else if r = 2 then (s.unhalt lc .check).retest lc
  else if r = 1 then s.retest lc
  else
    let s := match s.placeOf lc with
      | some k => s.modShep fun x => { x with needBist := x.needBist ++ [k] }
      | none => s
    s.cds 5

/-- What a window that fills brings about (Table SAFE-5). -/
def State.onFill (s : State) (cls source : Nat) : State :=
  if cls = 0x08 then
    match dieOfStation (BitVec.ofNat 12 source) with
    | some d => s.assertDie d 33
    | none => s
  else if cls = 0x10 || cls = 0x11 || cls = 0x12 then
    match s.lcOfSlot source with
    | some lc => s.swapCore lc
    | none => s
  else if cls = 0x13 then
    match dieOfStation (BitVec.ofNat 12 source) with
    | some d => (s.enqueue (.retire (d.val * 20 + source % 256))).rebuildLists
    | none => s
  else s

/-- A wavelength's window has filled: the firmware stages a swap of the lane that it carries (R275). -/
def State.stageSwap (s : State) (st : Station) (w : Nat) : State :=
  match portAt st with
  | none => s
  | some p =>
    match (List.range (s.lanes p)).find? fun j => s.rxMap p j = w with
    | some j => if (s.pickSpare p).isSome then
        s.enqueue (.set [(portAddr p 0x0D4, BitVec.ofNat 32 (j + 2 ^ 5))]) else s
    | none => s

/-- The action of a class (Table SAFE-4); `again` tells that the array of a DT_UE failed within 24 h. -/
def State.classAction (s : State) (cls source loc : Nat) (d0 : Word) (crit : Bool) : State :=
  let src : Station := BitVec.ofNat 12 source
  if cls = 0x0D then
    let again := match SMap.get none s.shep.dtUeAt source with
      | some t => decide ((s.tb - t).toNat < 86400000000000)
      | none => false
    let s := s.modShep fun x => { x with dtUeAt := SMap.set none x.dtUeAt source (some s.tb) }
    let s := if again then s.removeFor src else s
    s.cds 4
  else if cls = 0x22 then
    match dieOfStation src with
    | some d => (s.removeFor src).cds 3 (diePortStation d)
    | none => s.cds 3 src
  else if cls = 0x30 then (s.removeFor src).cds 1 src d0.toNat loc
  else if cls = 0x31 then (s.removeFor src).cds 2 src d0.toNat loc
  else if cls = 0x29 then (if (dieOfStation src).isSome then s.removeFor src else s).cds 5
  else if [0x1A, 0x1B, 0x38, 0x3A, 0x40, 0x41].contains cls
      || (crit && (cls = 0x02 || cls = 0x09)) then s.cds 5
  else if cls = 0x11 || cls = 0x12 || cls = 0x14 then
    match s.lcOfSlot source with
    | some lc => s.react lc
    | none => s
  else if cls = 0x20 then s.stageSwap src loc
  else s

/-- A report enters the log and is acted on (R420 to R423, R433). -/
def State.collect (s : State) (rep : Station) (cls source merged loc : Nat) (d0 : Word) (d1 : Word)
    (t : Word) (crit : Bool) : State :=
  let (full, s) := s.countWindow cls (windowKey cls source loc)
  let sev0 := sevOf cls crit
  let sev := if full then max 2 sev0 else sev0
  let b : BitVec 52 := BitVec.ofNat 52 (2 ^ reporterBit rep)
  let s := match recordFor s.shep.log cls source t with
    | some r =>
      let r' := { r with count := satAdd 0xFFFF r.count (1 + merged), tLast := t
                         reporters := r.reporters ||| b, sev := max r.sev sev }
      s.modLog fun y => if y.index = r.index then r' else y
    | none => s.addRecord { cls := BitVec.ofNat 16 cls, source := BitVec.ofNat 16 source
                            count := 1 + merged, sev := sev, tFirst := t, tLast := t
                            loc := BitVec.ofNat 64 loc, d0 := d0, d1 := d1, reporters := b
                            index := 0, cnum := 0 }
  let was := s.shep.cds
  let s := s.classAction cls source loc d0 crit
  let s := if s.shep.cds && !was then s.modLog fun y =>
      if y.cls.toNat = cls && y.source.toNat = source && y.tLast = t then { y with cds := true } else y
    else s
  (if full then s.onFill cls source else s).pins

/-- The collector reads a detail slot and clears its FULL bit (R418, R419). -/
def State.readSlot (s : State) (rep : Station) (cls : Nat) : State :=
  let a := cpAddr rep (0xF8000 + 32 * cls)
  let w := s.cpGet a
  if !bit w 31 then s
  else
    let crit := SMap.get false s.slotCrit a
    let loc := (s.cpGet64 (a + 4)).toNat
    let d0 := s.cpGet64 (a + 12)
    let d1 := (s.cpGet (a + 20)).zeroExtend 64
    let t := s.cpGet64 (a + 24)
    let s := s.cpSet a ((w &&& 0x7F00FFFF#32))
    s.collect rep cls (field w 0 12) (field w 16 8) loc d0 d1 t crit

/-- A REPORT frame reaches the Shepherd: a fault report, or an acknowledgement of a commit (R254, R408,
R418). -/
def execReport (f : Frame) (s : State) : Out :=
  let rest := s.takeFrame f
  if !frameGood f 0xB || !s.shepUp then .next rest
  else
    let st : Station := f.data.extractLsb' 16 12
    match field f.data 28 4 with
    | 1 => .next (rest.readSlot st (field f.data 8 8))
    | 0xC => .next (rest.ackArrived st (field f.data 0 16))
    | _ => .next rest

/-! Commands about faults. -/

/-- The 64 bytes of a fault record (Table SAFE-3). -/
def FaultRec.bytes (r : FaultRec) : List Byte :=
  natToBytes 2 r.cls.toNat ++ natToBytes 2 r.source.toNat ++ natToBytes 2 r.count
    ++ natToBytes 1 r.sev ++ natToBytes 1 (b2n r.acked + 2 * b2n r.cds + 4 * b2n r.repaired)
    ++ natToBytes 8 r.tFirst.toNat ++ natToBytes 8 r.tLast.toNat ++ natToBytes 8 r.loc.toNat
    ++ natToBytes 8 r.d0.toNat ++ natToBytes 8 r.d1.toNat ++ natToBytes 8 r.reporters.toNat
    ++ natToBytes 4 r.index.toNat ++ natToBytes 4 r.cnum.toNat

/-- FAULT_READ: the records held from an INDEX on, at most as many as asked for (R421). -/
def execFaultRead (r : ShepReq) (s : State) : Out :=
  s.shepRun { op := 0x0500, a := false, words := some 2, reply := 64 * (param r 1).toNat % 2 ^ 14
              rbuf := true } r fun r s =>
    let i := (param r 0).toNat
    let n := (param r 1).toNat
    if 256 ≤ n then .status 0x03 s
    else s.withReply r (64 * n) <|
      let l := (List.range n).filterMap fun k => s.shep.log.find? fun x => x.index.toNat = i + k
      let b := l.flatMap FaultRec.bytes
      .ok s (words32 (b.length / 4) b)

/-- FAULT_ACK: ACKED is set; FAULT_OUT_N follows (R421, R440). -/
def execFaultAck (r : ShepReq) (s : State) : Out :=
  s.shepRun { op := 0x0501, a := false, n := false, sec := false, words := some 1 } r fun r s =>
    let i := param r 0
    if s.shep.log.any fun x => x.index = i then
      .ok (s.modLog fun y => if y.index = i then { y with acked := true } else y).pins
    else .status 0x03 s

/-- DOMAIN_STOP (R438): the stop starts with cause 5; the reply precedes it. -/
def execDomainStop (r : ShepReq) (s : State) : Out :=
  s.shepRun { op := 0x0502, a := false, n := false, sec := false } r fun _ s => .ok (s.cds 5)

/-! Pins and timers. -/

/-- SAFE_N is seen low for 1 us, or high again (R441). Low wakes the device from P2 and P3 first (R476). -/
def State.safePin (s : State) (level : Bool) : State :=
  let was := s.shep.safeIn
  let s := s.modShep fun x => { x with safeIn := !level }
  if level || was || !s.shepUp then s else (s.report shepStation 0x41 shepStation.toNat).cds 5

/-- Whether HEARTBEAT may toggle: the latest audit passed and no stop or restart runs (R442). -/
def State.hbMay (s : State) : Bool :=
  s.shepUp && !s.imageOnly && s.cpField (fcAddr 0x010) 30 1 = 1 && !s.shep.cds && !s.restarting

/-- HEARTBEAT at a multiple of 100 us (R442). -/
def execHeartbeatToggle (t : Word) (s : State) : Out :=
  let s := s.advance t
  if t.toNat % 100000 ≠ 0 then .next s
  else if s.hbMay then
    .next (s.modShep fun x => { x with heartbeat := !x.heartbeat, hbStop := false })
  else .next (s.modShep fun x => { x with hbStop := true })

/-! The audit (R437, Table SAFE-11). -/

/-- Invariant 7: no cached context holds more than its ring, no queue more than 8 fetches, and the held
entries are those that FOLD_HOLD counts, by its definition. -/
def State.auditOk (s : State) : Bool :=
  s.fold.cache.all fun e => match e.2 with
    | none => true
    | some w =>
      let n := ctxN w.ctx
      ctxF w.ctx 6 36 12 + ringDist n (ctxF w.ctx 5 24 12) (ctxF w.ctx 5 36 12) ≤ n - 1
        && s.fold.fetches e.1 ≤ 8

/-- An audit fails: AUDIT_MISMATCH with the invariant's number, and the stop that it starts (R437). -/
def State.auditFails (s : State) (no : Nat) (st : Station) : State :=
  ((s.cpSetField (fcAddr 0x010) 30 1 0).report shepStation 0x38 st.toNat 0 (some no)).cds 5

/-- Every station latches its audit counters at a multiple of 250 us and the Shepherd checks them. What leaks of the
quantities of invariants 1 to 6 (credits, entries, TXIDs, answers, buffers, tokens) is a fault of the hardware, which
the event brings: the number less 1 and the station concerned (log 150). -/
def execAuditLatch (a : AuditRound) (s : State) : Out :=
  let s := s.advance a.t
  if a.t.toNat % 250000 ≠ 0 || !s.shepUp || s.imageOnly || s.shep.cds || s.restarting then .next s
  else
    let r := fcAddr 0x010
    let s := s.cpSetField r 0 30 (s.cpField r 0 30 + 1)
    match a.fail with
    | some (no, st) => .next (s.auditFails (no.val + 1) st)
    | none =>
      if s.auditOk then .next ((s.cpSetField r 30 1 1).modShep fun x => { x with auditDone := true })
      else .next (s.auditFails 7 foldStation)

/-! Commit and control-plane failures (R253, R410). -/

/-- An acknowledgement is missing 20 us after FIRE (R410). -/
def execCommitAckTimeout (s : State) : Out :=
  match s.shep.commit with
  | some c =>
    if (c.phase == .fire || c.phase == .hold) && !(c.stations.all c.acked.contains)
        && c.fireAt.toNat + 20000 ≤ s.tb.toNat then
      .next ((s.report shepStation 0x3A shepStation.toNat).cds 5)
    else .next s
  | none => .next s

/-- The copies of a frame on a ring, and its reply there, are lost. -/
def State.loseFrame (s : State) (f : Frame) (ringA : Bool) : State :=
  s.modShep fun x => { x with frames := x.frames.filter fun g =>
    !(g.ringA == ringA && g.seq == f.seq && g.addr == f.addr && (g.op == f.op || g.op == f.op + 2)) }

/-- A CP_READ or CP_WRITE of a station that cannot be reached ends; none where its reply must wait. -/
def State.unreachable (s : State) (st : Station) : Option State :=
  s.shep.cpJobs.foldl (fun (o : Option State) j => o.bind fun s =>
    if cpStation j.addr ≠ st then some s
    else (s.modShep fun x => { x with cpJobs := x.cpJobs.erase j }).answerShep j.req 0x0D [] noDetail) (some s)

/-- A frame's copy fails to return within 4 us (R253): one ring is broken, after the station that `late` names, and frames go
out on the other alone; or the frame is sent again, and after three resends the station is unreachable. -/
def execCpFrameTimeout (late : LateFrame) (backA backB : Bool) (s : State) : Out :=
  let f := late.frame
  let st := cpStation f.addr.toNat
  let n := SMap.get 0 s.shep.resends st.toNat
  if !s.shepUp || (backA && backB) then .next s
  else if backA || backB then
    if s.shep.ringA && s.shep.ringB then
      let s := (s.loseFrame f !backA).modShep fun x => { x with ringA := backA, ringB := backB }
      .next (s.report shepStation 0x28 shepStation.toNat late.last.toNat)
    else .next s
  else
    let s1 := (s.loseFrame f true).loseFrame f false
    if n < 3 then
      .next ((s1.modShep fun x => { x with resends := SMap.set 0 x.resends st.toNat (n + 1) }).sendFrame f)
    else
      let s1 := (s1.modShep fun x => { x with resends := SMap.set 0 x.resends st.toNat 0 }).report shepStation
        0x29 st.toNat
      let out := fun (s1 : State) => match s1.shep.commit with
        | some c => if c.phase == .arm then s1.cancelCommit c 0x0D else some s1
        | none => some s1
      .next (((s1.unreachable st).bind out).getD s)

end Sys2Proof.Machine
end

