-- ==== Sys2Proof/Machine/Integer.lean ====
section
/-!
DEFINITION. Integer instructions (Tables ISA-8 and ISA-9, R96, R97) and words that are no instruction (R91).
-/

namespace Sys2Proof.Machine

/-- ADDI: gd is ga plus the sign-extended immediate. -/
def execAddi (lc : LC) (rd ra : Reg) (imm : BitVec 16) (s : State) : Out :=
  s.aluImm lc rd ra (sextImm imm) (· + ·)

/-- ANDI: bitwise with the zero-extended immediate. -/
def execAndi (lc : LC) (rd ra : Reg) (imm : BitVec 16) (s : State) : Out :=
  s.aluImm lc rd ra (zextImm imm) (· &&& ·)

/-- ORI. -/
def execOri (lc : LC) (rd ra : Reg) (imm : BitVec 16) (s : State) : Out :=
  s.aluImm lc rd ra (zextImm imm) (· ||| ·)

/-- XORI. -/
def execXori (lc : LC) (rd ra : Reg) (imm : BitVec 16) (s : State) : Out :=
  s.aluImm lc rd ra (zextImm imm) (· ^^^ ·)

/-- SLTI: signed comparison. -/
def execSlti (lc : LC) (rd ra : Reg) (imm : BitVec 16) (s : State) : Out :=
  s.aluImm lc rd ra (sextImm imm) (fun a b => ofBool (a.slt b))

/-- SLTIU: unsigned comparison. -/
def execSltiu (lc : LC) (rd ra : Reg) (imm : BitVec 16) (s : State) : Out :=
  s.aluImm lc rd ra (sextImm imm) (fun a b => ofBool (a.ult b))

/-- SLLI. -/
def execSlli (lc : LC) (rd ra : Reg) (n : BitVec 6) (s : State) : Out :=
  s.scalar lc rd [ra] 1 fun c => let a := c.getG ra; a <<< n.toNat

/-- SRLI. -/
def execSrli (lc : LC) (rd ra : Reg) (n : BitVec 6) (s : State) : Out :=
  s.scalar lc rd [ra] 1 fun c => let a := c.getG ra; a >>> n.toNat

/-- SRAI. -/
def execSrai (lc : LC) (rd ra : Reg) (n : BitVec 6) (s : State) : Out :=
  s.scalar lc rd [ra] 1 fun c => let a := c.getG ra; a.sshiftRight n.toNat

/-- KSET: the sign-extended immediate. -/
def execKset (lc : LC) (rd : Reg) (imm : BitVec 16) (s : State) : Out :=
  s.scalar lc rd [] 1 fun _ => sextImm imm

/-- KSETU: the zero-extended immediate. -/
def execKsetu (lc : LC) (rd : Reg) (imm : BitVec 16) (s : State) : Out :=
  s.scalar lc rd [] 1 fun _ => zextImm imm

/-- KAPP: gd shifted left 16 with the immediate below. -/
def execKapp (lc : LC) (rd : Reg) (imm : BitVec 16) (s : State) : Out :=
  s.scalar lc rd [rd] 1 fun c => (c.getG rd <<< 16) ||| zextImm imm

/-- ADD. -/
def execAdd (lc : LC) (rd ra rb : Reg) (s : State) : Out :=
  s.alu lc rd ra rb 1 (· + ·)

/-- SUB. -/
def execSub (lc : LC) (rd ra rb : Reg) (s : State) : Out :=
  s.alu lc rd ra rb 1 (· - ·)

/-- AND. -/
def execAnd (lc : LC) (rd ra rb : Reg) (s : State) : Out :=
  s.alu lc rd ra rb 1 (· &&& ·)

/-- OR. -/
def execOr (lc : LC) (rd ra rb : Reg) (s : State) : Out :=
  s.alu lc rd ra rb 1 (· ||| ·)

/-- XOR. -/
def execXor (lc : LC) (rd ra rb : Reg) (s : State) : Out :=
  s.alu lc rd ra rb 1 (· ^^^ ·)

/-- SLL. -/
def execSll (lc : LC) (rd ra rb : Reg) (s : State) : Out :=
  s.alu lc rd ra rb 1 (fun a b => a <<< sh6 b)

/-- SRL. -/
def execSrl (lc : LC) (rd ra rb : Reg) (s : State) : Out :=
  s.alu lc rd ra rb 1 (fun a b => a >>> sh6 b)

/-- SRA. -/
def execSra (lc : LC) (rd ra rb : Reg) (s : State) : Out :=
  s.alu lc rd ra rb 1 (fun a b => a.sshiftRight (sh6 b))

/-- SLT. -/
def execSlt (lc : LC) (rd ra rb : Reg) (s : State) : Out :=
  s.alu lc rd ra rb 1 (fun a b => ofBool (a.slt b))

/-- SLTU. -/
def execSltu (lc : LC) (rd ra rb : Reg) (s : State) : Out :=
  s.alu lc rd ra rb 1 (fun a b => ofBool (a.ult b))

/-- MIN. -/
def execMin (lc : LC) (rd ra rb : Reg) (s : State) : Out :=
  s.alu lc rd ra rb 1 minS

/-- MAX. -/
def execMax (lc : LC) (rd ra rb : Reg) (s : State) : Out :=
  s.alu lc rd ra rb 1 maxS

/-- MINU. -/
def execMinu (lc : LC) (rd ra rb : Reg) (s : State) : Out :=
  s.alu lc rd ra rb 1 minU

/-- MAXU. -/
def execMaxu (lc : LC) (rd ra rb : Reg) (s : State) : Out :=
  s.alu lc rd ra rb 1 maxU

/-- ADDW. -/
def execAddw (lc : LC) (rd ra rb : Reg) (s : State) : Out :=
  s.alu lc rd ra rb 1 (fun a b => wform (lo32 a + lo32 b))

/-- SUBW. -/
def execSubw (lc : LC) (rd ra rb : Reg) (s : State) : Out :=
  s.alu lc rd ra rb 1 (fun a b => wform (lo32 a - lo32 b))

/-- SLLW. -/
def execSllw (lc : LC) (rd ra rb : Reg) (s : State) : Out :=
  s.alu lc rd ra rb 1 (fun a b => wform (lo32 a <<< sh5 b))

/-- SRLW. -/
def execSrlw (lc : LC) (rd ra rb : Reg) (s : State) : Out :=
  s.alu lc rd ra rb 1 (fun a b => wform (lo32 a >>> sh5 b))

/-- SRAW. -/
def execSraw (lc : LC) (rd ra rb : Reg) (s : State) : Out :=
  s.alu lc rd ra rb 1 (fun a b => wform ((lo32 a).sshiftRight (sh5 b)))

/-- CLZ. -/
def execClz (lc : LC) (rd ra : Reg) (s : State) : Out :=
  s.scalar lc rd [ra] 1 fun c => clz (c.getG ra)

/-- CTZ. -/
def execCtz (lc : LC) (rd ra : Reg) (s : State) : Out :=
  s.scalar lc rd [ra] 1 fun c => ctz (c.getG ra)

/-- POPC. -/
def execPopc (lc : LC) (rd ra : Reg) (s : State) : Out :=
  s.scalar lc rd [ra] 1 fun c => popc (c.getG ra)

/-- MUL, 3 beats. -/
def execMul (lc : LC) (rd ra rb : Reg) (s : State) : Out :=
  s.alu lc rd ra rb 3 (· * ·)

/-- MULH, 3 beats. -/
def execMulh (lc : LC) (rd ra rb : Reg) (s : State) : Out :=
  s.alu lc rd ra rb 3 mulh

/-- MULHU, 3 beats. -/
def execMulhu (lc : LC) (rd ra rb : Reg) (s : State) : Out :=
  s.alu lc rd ra rb 3 mulhu

/-- MULW, 3 beats. -/
def execMulw (lc : LC) (rd ra rb : Reg) (s : State) : Out :=
  s.alu lc rd ra rb 3 (fun a b => wform (lo32 a * lo32 b))

/-- DIV, 20 beats. -/
def execDiv (lc : LC) (rd ra rb : Reg) (s : State) : Out :=
  s.alu lc rd ra rb 20 divS

/-- DIVU, 20 beats. -/
def execDivu (lc : LC) (rd ra rb : Reg) (s : State) : Out :=
  s.alu lc rd ra rb 20 divU

/-- REM, 20 beats. -/
def execRem (lc : LC) (rd ra rb : Reg) (s : State) : Out :=
  s.alu lc rd ra rb 20 remS

/-- REMU, 20 beats. -/
def execRemu (lc : LC) (rd ra rb : Reg) (s : State) : Out :=
  s.alu lc rd ra rb 20 remU

/-- DIVW, 12 beats. -/
def execDivw (lc : LC) (rd ra rb : Reg) (s : State) : Out :=
  s.alu lc rd ra rb 12 (fun a b => wform (divS (lo32 a) (lo32 b)))

/-- DIVUW, 12 beats. -/
def execDivuw (lc : LC) (rd ra rb : Reg) (s : State) : Out :=
  s.alu lc rd ra rb 12 (fun a b => wform (divU (lo32 a) (lo32 b)))

/-- REMW, 12 beats. -/
def execRemw (lc : LC) (rd ra rb : Reg) (s : State) : Out :=
  s.alu lc rd ra rb 12 (fun a b => wform (remS (lo32 a) (lo32 b)))

/-- REMUW, 12 beats. -/
def execRemuw (lc : LC) (rd ra rb : Reg) (s : State) : Out :=
  s.alu lc rd ra rb 12 (fun a b => wform (remU (lo32 a) (lo32 b)))

/-- An undefined word raises ILLEGAL (R91). -/
def execIllegalEncoding (lc : LC) (w : Word32) (s : State) : Out :=
  s.issue lc {} fun k _ s => s.trapWord k 0x01 w

end Sys2Proof.Machine
end

