-- ==== Sys2Proof/Machine/Interrupts.lean ====
section
/-!
DEFINITION. Interrupt entry as a command (R119, R122).
-/

namespace Sys2Proof.Machine

/-- The interrupt that is due at the core's boundary is entered. -/
def execInterruptEntry (lc : LC) (s : State) : Out :=
  .next (s.takeInterrupt lc (fun k src tgt => s.enterInterrupt k src tgt) (s.asker lc))

end Sys2Proof.Machine
end

