-- ==== Sys2Proof/Machine/Restart.lean ====
section
/-!
DEFINITION. Domain restart (R439, R484), cold reset and boot (R477, R480 to R483), the loss of VAUX (R485),
PERST_N (R354, R377), the boot-flash copy of the store (R482), core BIST (R433) and the lockstep pair (R443).
-/

namespace Sys2Proof.Machine

/-! Registers (R480, R481, Table PWR-6). -/

/-- The bits of a register that a test of its fields selects. -/
def fieldMask (d : RegDesc) (p : RegField → Bool) : Word32 :=
  d.foldl (fun m f => if p f then setField m f.lo f.w (2 ^ f.w - 1) else m) 0

/-- Whether a domain restart resets every field of a register that is not of type ST: those of the dies,
homes, hub Prism ports, Loupes and Mirror port, and what regulators have counted. -/
def restartsWhole (a : Nat) (d : RegDesc) : Bool :=
  if 0xF8000 ≤ a % 2 ^ 20 then false
  else if d = rstatReg then true
  else match unitKind (cpStation a) with
    | some .dcs => true
    | some (.bank _) => true
    | some (.slot _) => true
    | some .intd => true
    | some .diePort => true
    | some (.home _) => true
    | some (.hubPort _) => true
    | some (.loupe _) => true
    | some .mirror => true
    | _ => false

/-- DC_REPAIRED and MSC_REPAIRED: what the last boot did (R18, Tables CACHE-15 and CACHE-16). -/
def repairReg (a : Nat) : Bool :=
  match unitKind (cpStation a) with
  | some .dcs => a % 2 ^ 20 == 0x114
  | some (.home _) => a % 2 ^ 20 == 0x808
  | _ => false

/-- A register after a domain restart, before the store is applied; site fences stay (R439), and so do the
count of repair rows and, DEDUCED since a restart stops no ring, STN_CP_SEQ (log entry 141). -/
def restartValue (a : Nat) (v : Word32) : Word32 :=
  match regDesc a with
  | none => v
  | some d =>
    let router := match unitKind (cpStation a) with
      | some (.router _) => a % 2 ^ 20 == 4
      | _ => false
    if router || repairReg a || a % 2 ^ 20 == 0xFF014 then v
    else
      let m := if restartsWhole a d then fieldMask d fun f => !f.st else fieldMask d fun f => f.ty == .rwl
      (v &&& ~~~m) ||| (cpReset a &&& m)

/-- The committed store as entries. -/
def storeEntriesOf (m : SMap (Option Word32)) : List SetEntry := m.filterMap fun e => e.2.map (e.1, ·)

/-- Registers after a reset, with the committed configuration applied (R414). -/
def State.applyStore (s : State) : State :=
  let old := s
  let s : State := { s with cp := s.cp.foldl (fun m e => SMap.set (cpReset e.1) m e.1 (restartValue e.1 e.2)) [] }
  let s := s.withEntries (storeEntriesOf old.shep.store)
  s.mirConfigured

/-! Removing what failed (R439). -/

/-- The reserve taken for a logical core whose die is fenced: the lowest on the die of its quadrant with the
most. -/
def State.otherReserve (s : State) (d : Die) : Option Nat :=
  ((List.finRange 12).filter fun e => e.val / 3 = d.val / 3 && e ≠ d).foldl
    (fun (m : Nat × Option Nat) e =>
      let rs := s.reservesOf e
      if m.1 < rs.length then (rs.length, rs.head?) else m) (0, none) |>.2

/-- A logical core is mapped onto a reserve while the domain restarts, or lost. -/
def State.mapAway (s : State) (lc : LC) (k : Option Nat) : State :=
  match k with
  | some k =>
    let es := s.swapSet lc
    (s.storeEntries es).remap lc k
  | none => (s.storeEntries (s.swapSet lc)).loseCore lc

/-- A die is fenced for good, and its logical cores move to reserves of the quadrant, lowest number first. -/
def State.fenceFor (s : State) (d : Die) : State :=
  let s := s.fence d
  (s.lcsOf d).foldl (fun s lc => s.mapAway lc (s.otherReserve d)) s

/-! Domain restart (R484, Table PWR-8). -/

/-- What a home and its stack keep: the MSC and memory; every write on its way is performed. -/
def State.restartHome (s : State) (q : Quad) : State :=
  (s.mcFinish q).modHome q fun h => { msc := h.msc }

/-- D1: cores reset, die caches invalidated without write-back, duplicate tags and pending tables emptied,
the fabric emptied, scratch lost. -/
def State.clearDomain (s : State) : State :=
  let s := (List.finRange 4).foldl State.restartHome s
  let cores := (s.cores.filter fun e => e.2.run == .lost).map fun e => (e.1, ({ run := .lost } : Core))
  { s with
    cores := cores, dies := [], dt := [], net := [], reqs := [], regHeld := [], reg0 := []
    mem := s.mem.filter fun e => targetOf e.1 ≠ .scratch
    poisWord := [], beatRate := [], beatBase := [], beatSt := [], mir := {}
    loupes := [], trace := [], latchHi := [], snap := Snap.restart, denyAt := []
    pcie := { s.pcie with inq := [], posted := [], reads := [] }
    fold := { s.fold with cache := [], ops := [], ready := [], retry := [] }
    shep := { s.shep with
      hold := false, held := [], closed := [], replays := [], first := [], lists := []
      bist := [], commit := none, due := s.shep.due.filter Due.lasts } }

/-- Every queue of every group is reset (R377). -/
def State.resetAllQueues (s : State) : State := (List.range 1025).foldl State.resetGroup s

/-- The Shepherd starts M firmware on PWR_MCORE.LC at level M; its entry point is the image's own (a free
value). -/
def State.startM (s : State) : State :=
  match s.shep.mBooted with
  | none => s
  | some _ =>
    if h : s.cpField (pwrAddr 0x4C) 0 8 < 216 then
      let lc : LC := ⟨s.cpField (pwrAddr 0x4C) 0 8, h⟩
      if (s.core lc).run == .lost then s
      else
        let (pc, s) := s.takeFree 64
        let s := s.startCore lc 3 true 0 (pc &&& ~~~3#64) 0
        s.modShep fun x => { x with mLc := some lc }
    else s

/-- Partitions exist after a restart in state stopped. -/
def State.partsStopped (s : State) : State :=
  s.modShep fun x => { x with
    resets := []
    parts := x.parts.map fun e => (e.1, e.2.map fun p => { p with st := 2 }) }

/-- The state of a power domain, as the Shepherd sets it. -/
def State.setDom (s : State) (k x : Nat) : State :=
  s.cpSetField (pwrAddr (0x60 + 4 * (k / 16))) (2 * (k % 16)) 2 x

/-- The domain states before a sleep hold again. -/
def State.domsBack (s : State) : State :=
  (List.range 4).foldl (fun s i => s.cpSet (pwrAddr (0x60 + 4 * i)) (SMap.get 0 s.shep.domsBefore i)) s

/-- Links that went narrow for power go wide again (R279, R467). -/
def State.widen (s : State) : State :=
  let s := s.shep.narrowed.foldl (fun s d => s.setNarrow d false) s
  s.modShep fun x => { x with narrowed := [] }

/-- Links that run wide go narrow for power. -/
def State.narrowAll (s : State) : State :=
  (List.finRange 12).foldl (fun s d =>
    if s.portState ⟨d, true⟩ = 3 && s.cpField (portAddr ⟨d, true⟩ 0x00C) 0 1 = 0 then
      (s.setNarrow d true).modShep fun x => { x with narrowed := x.narrowed ++ [d] }
    else s) s

/-- A stay in P2, or an entry into P2 or P3, is over (R474): domains, stacks, links and cores are as before,
and the POWER_STATE command is answered. -/
def State.leaveSleep (s : State) : State :=
  let p2 := s.cpField (pwrAddr 0) 0 3 = 2
  let s := if p2 then s.domsBack else s
  let s := ((s.cpSetField (pwrAddr 0) 0 3 (b2n s.shep.quiet)).cpSetField (pwrAddr 0) 3 1 0).wakePcs
  let s := if p2 then
      let s := s.settleStacks
      (if s.shed 4 then s else s.widen).guarantees.rebuildLists
    else s
  let r := s.shep.sleepReq
  let s := (s.unhaltAll .power).modShep fun x => { x with sleepReq := none, wakeKept := false }
  match r with
  | some r => (s.answerShep r 0 [] noDetail).getD s
  | none => s

/-- The steps of a domain restart, and the answers that waited for its end. -/
def State.restartSteps (s : State) : State :=
  let s := if s.cpField (pwrAddr 0) 0 4 = 2 || s.cpField (pwrAddr 0) 3 1 = 1 then s.leaveSleep else s
  let resets := s.shep.resets.filterMap fun x => x.req.map (·, 0)
  let owed := s.shep.owed ++ resets
  let s := s.clearDomain
  let s := match s.shep.fenceDie with
    | some d => s.fenceFor d
    | none => s
  let s := s.applyStore
  let s := (List.finRange 12).foldl (fun s d => if s.fencedSite d then s.fence d else s.bringUp d) s
  let s := (List.finRange 4).foldl (fun s q => s.cpSetField (cpAddr (homeStation q) 0) 0 1 1) s
  let s := (s.fold.log.foldl (fun (s : State) w => (s.logFlushLine w).getD s) s).modFold fun f => { f with log := [] }
  let s := s.resetAllQueues.partsStopped.freeMboxes fun _ => true
  let s := (s.cpSet (fcAddr 0x010) 0).modShep fun x => { x with
    cds := false, cause := 0, fenceDie := none, owed := [], auditDone := false, needBist := [] }
  let s := ({ s with restarting := false, devReady := true } : State).guarantees.rebuildLists.markDomains
  let s := s.startM.pins
  (owed.foldl (fun s x => (s.answerShep x.1 x.2 [] noDetail).getD s) s).startDue

/-- The domain restarts once SAFE_N is high and the BISTs that R433 asks for have ended. -/
def execDomainRestart (s : State) : Out :=
  if !s.restarting || !s.shepUp || s.shep.safeIn || !s.shep.needBist.isEmpty then .next s
  else .next s.restartSteps

/-! Core BIST (R433). -/

/-- The BIST of a slot ends. One that fails makes the fault lasting: during a restart the logical core is
mapped away at once (Table SAFE-13), else a live swap follows. -/
def execCoreBistDone (die : Die) (slot : Slot) (pass : Bool) (s : State) : Out :=
  let k := die.val * 20 + slot.val
  if s.restarting && s.shep.needBist.contains k then
    let s := s.modShep fun x => { x with needBist := x.needBist.filter (· ≠ k) }
    if pass then .next s
    else match s.lcAt die slot.val with
      | some lc => .next (s.mapAway lc (s.chooseReserve die))
      | none => .next s
  else if s.shep.bist.contains k then
    let s := s.modShep fun x => { x with bist := x.bist.filter (· ≠ k) }
    if pass then .next s
    else match s.lcAt die slot.val with
      | some lc => .next (s.swapCore lc)
      | none => .next s
  else .next s

/-! The boot-flash copy (R482). -/

/-- The store is written to the configuration record of the boot flash. -/
def State.writeFlash (s : State) : State :=
  (s.modShep fun x => { x with
    flash := x.store, flashCnum := x.cnum, flashPlace := s.place, flashSlot := s.slotSt
    flashMoves := s.moves, dirtyStore := false }).cpSetField (pwrAddr 0x50) 1 1 1

/-- The Shepherd writes the store to the boot flash. -/
def execStoreWrite (s : State) : Out := if s.shepUp then .next s.writeFlash else .next s

/-! Cold reset and boot (R477, R480, R483). -/

/-- Control-plane registers that a cold reset keeps: fuses, FC_LOG_NEXT, FC_LOST, the reset cause and what
the boot flash holds (Table PWR-6). -/
def coldKeeps (a : Nat) : Bool :=
  cpStation a = shepStation && (
    let off := a % 2 ^ 20
    (0x30000 ≤ off && off < 0x30118) || off = 0x70004 || off = 0x70008 || off = 0x80004 || off = 0x80050)

/-- What the boot flash, the fuses and the always-on island carry through a cold reset. -/
def Shep.cold (x : Shep) : Shep :=
  { store := x.store, cnum := x.cnum, flash := x.flash, flashCnum := x.flashCnum
    flashPlace := x.flashPlace, flashSlot := x.flashSlot, flashMoves := x.flashMoves, images := x.images
    active := x.active, log := x.log, dtUeAt := x.dtUeAt, safeIn := x.safeIn, heartbeat := x.heartbeat
    thermtrip := x.thermtrip, dirtyStore := x.dirtyStore, inReset := true }

/-- A cold reset with its cause and rail (R477, Table PWR-5, Table PWR-9). PCIE_STATUS.PERST goes on to show
the pin (Table PCIE-10). -/
def State.coldReset (s : State) (cause rail : Nat) : State :=
  let s' : State := { State.reset with
    pending := s.pending, free := s.free, tb := s.tb, fuse := s.fuse
    cp := s.cp.filter fun e => coldKeeps e.1
    place := s.place, moves := s.moves, lastDie := s.lastDie, slotSt := s.slotSt
    gpios := s.gpios.map fun e => (e.1, { pin := e.2.pin })
    stOffset := s.stOffset, stValid := s.stValid, stAlarm := s.stAlarm, stAlarmed := s.stAlarmed, scntBase := s.scntBase
    tap := { instr := s.tap.instr, cells := s.tap.cells }
    shep := s.shep.cold }
  (s'.cpSet (pwrAddr 0x04) (BitVec.ofNat 32 (cause + rail * 4))).cpSetField (pcieAddr 0) 9 1 (b2n s.perst)

/-- The image slot booted of a type: the one marked active, then the other (R331). -/
def bootSlot (b : BootInput) (active : Nat) : Option (Fin 2) :=
  let ok := fun (i : Fin 2) => if i = 0 then b.okA else b.okB
  let a : Fin 2 := if active % 2 = 0 then 0 else 1
  let o : Fin 2 := if active % 2 = 0 then 1 else 0
  if ok a then some a else if ok o then some o else none

/-- Whether the images of a type verify in slots A and B (R329, R331): one that the flash has been written with by
R330; else as the factory left it (log entry 95). -/
def State.bootOf (s : State) (b : BootInput) (t : Nat) : BootInput :=
  let ok := fun (given : Bool) (i : Nat) =>
    if (SMap.get [] s.shep.images (2 * i + t)).isEmpty then given
    else match s.flashImage i t with
      | .ok _ => true
      | .error _ => false
  { okA := ok (if t = 0 then b.okA else b.mA) 0, okB := ok (if t = 0 then b.okB else b.mB) 1 }

/-- The class table of Table REG-2 as REG_CLASS and REG_GUAR entries. -/
def defaultClasses : List SetEntry :=
  let cls := fun (t rank crit hi prio target : Nat) =>
    (cpAddr shepStation (0x60100 + 4 * t),
      BitVec.ofNat 32 (rank + crit * 16 + hi * 32 + prio * 64 + target * 2 ^ 16))
  let guar := fun (t g : Nat) => (List.range 4).map fun q =>
    (cpAddr shepStation (0x60200 + 16 * t + 4 * q), BitVec.ofNat 32 g)
  [cls 0 0 0 0 0 0, cls 1 1 0 0 0 0, cls 2 3 0 0 0 400, cls 3 5 0 0 1 100, cls 4 8 1 1 1 200,
    cls 5 12 1 1 2 50, cls 6 13 1 1 2 40]
  ++ ((List.range 8).map fun i => cls (7 + i) 2 0 0 0 0) ++ [cls 15 15 1 1 3 30]
  ++ guar 1 40 ++ guar 2 200 ++ guar 3 200 ++ guar 4 80 ++ guar 5 400 ++ guar 6 200

/-- The firmware commits the default class table at first boot (R296). -/
def State.firstClasses (s : State) : State :=
  if s.shep.store.any fun e => cpAddr shepStation 0x60100 ≤ e.1 && e.1 < cpAddr shepStation 0x60140 then s
  else
    let s := (s.withEntries defaultClasses).storeEntries defaultClasses
    s.modShep fun x => { x with cnum := x.cnum + 1 }

/-- Version or SVN in the header of a flash slot. -/
def State.flashHeader (s : State) (slot t off n : Nat) : Nat :=
  let m := SMap.get [] s.shep.images (2 * slot + t)
  bytesToNat ((List.range n).map fun i => SMap.get 0 m (off + i))

/-- The Shepherd's firmware runs from a slot (R331). -/
def State.bootFw (s : State) (slot : Fin 2) : State :=
  let fall := slot.val ≠ SMap.get 0 s.shep.active 0 % 2
  let key := s.flashHeader slot 0 6 1
  let s := s.cpSet (cpAddr shepStation 0x30120) (BitVec.ofNat 32 (slot.val + b2n fall * 2 + key % 4 * 4))
  s.modShep fun x => { x with
    booted := some slot, fwVer := BitVec.ofNat 32 (s.flashHeader slot 0 8 4)
    fwSvn := BitVec.ofNat 8 (s.flashHeader slot 0 12 1) }

/-- SRAM BIST of a boot applies repair rows: up to 32 in each MSC, and up to 128 in each die cache (R18). -/
def State.repairMscs (s : State) (b : BootInput) : State :=
  (List.finRange 4).foldl (fun s q => s.cpSetField (cpAddr (homeStation q) 0x808) 0 6
    (min 32 ((b.mscRows[q.val]?).getD 0))) s

/-- The same for the die caches. -/
def State.repairDies (s : State) (b : BootInput) : State :=
  (List.finRange 12).foldl (fun s d => s.cpSetField (cpAddr (dcsStation d) 0x114) 0 8
    (min 128 ((b.dcRows[d.val]?).getD 0))) s

/-- Boot from reset (R483, Table PWR-7): repair rows applied, the first scrub laps started (R223), firmware from the active slot or the other, links brought up, the
store applied, ACCEPT and READY set, M firmware started; a supply reset leaves its record (R469). With no
image that verifies, only image commands are served (R331). -/
def State.boot (s : State) (b : BootInput) : State :=
  let s := s.repairMscs b
  match bootSlot (s.bootOf b 0) (SMap.get 0 s.shep.active 0) with
  | none =>
    (({ s with devReady := true, imageOnly := true } : State).modShep fun x => { x with inReset := false }).pins
  | some slot =>
    let s := (s.bootFw slot).modShep fun x => { x with inReset := false, mBooted := bootSlot (s.bootOf b 1) (SMap.get 0 x.active 1) }
    let s := match s.shep.mBooted with
      | some m => s.modShep fun x => { x with mSvn := BitVec.ofNat 8 (s.flashHeader m 1 12 1) }
      | none => s
    let s := (s.withEntries (storeEntriesOf s.shep.store)).firstClasses
    let s := s.mirConfigured
    let s := (List.finRange 4).foldl State.lapBegin s
    let s := (List.finRange 12).foldl State.bringUp (s.repairDies b)
    let s := (List.finRange 4).foldl (fun s q => s.cpSetField (cpAddr (homeStation q) 0) 0 1 1) s
    let s := ({ s with devReady := true } : State).guarantees.rebuildLists.markDomains
    let cause := s.cpGet (pwrAddr 0x04)
    let s := if field cause 0 2 = 2 then
        s.ownRecord 0x58 shepStation.toNat 3 (field cause 2 3)
      else s
    s.startM.pins

/-- POR_N has been low and is released: a cold reset, unless the island has just come up, then the boot. -/
def execPorN (b : BootInput) (s : State) : Out :=
  if s.shep.vauxOff then .next s
  else if s.shep.inReset then .next (s.boot b)
  else .next ((s.coldReset 1 0).boot b)

/-- The loss of VAUX (R485): the island, the fault log, SCNT and secure time go too; the boot flash's copy
stands for the store and the core map. -/
def State.vauxLost (s : State) : State :=
  let s := s.coldReset 0 0
  let keep := fun (a : Nat) => 0x30000 ≤ a % 2 ^ 20 && a % 2 ^ 20 < 0x30118 || a % 2 ^ 20 = 0x80050
  let x := s.shep
  let pin := s.perst
  let s : State := { s with
    tb := 0, stOffset := 0, stValid := false, stAlarm := 0, stAlarmed := false, scntBase := 0, tap := {}
    cp := s.cp.filter fun e => keep e.1
    place := x.flashPlace, slotSt := x.flashSlot, moves := x.flashMoves
    shep := { x with store := x.flash, cnum := x.flashCnum, log := [], dtUeAt := [], thermtrip := false
                     dirtyStore := false, vauxOff := true } }
  s.cpSetField (pcieAddr 0) 9 1 (b2n pin)

/-- VAUX falls below 1.62 V. -/
def execVauxLoss (s : State) : Out := .next s.vauxLost

/-- VAUX rises: the island restarts with TB_NOW and SCNT from 0; the cause reads 0 (B1). -/
def execVauxPowerUp (s : State) : Out :=
  if s.shep.vauxOff then
    .next (({ s with tb := 0, scntBase := 0 } : State).modShep fun x => { x with vauxOff := false })
  else .next s

/-- The Reset threshold of a rail in mV (Table PWR-1). -/
def resetMv (rail : Nat) : Nat := ([800, 800, 850, 1100, 1620, 1620][rail]?).getD 0

/-- The switched domains that a rail feeds (Table PWR-3). -/
def railDomains (rail : Nat) : List Nat :=
  let dies := fun (l : List Nat) => (List.range 12).flatMap fun n => l.map (4 * n + ·)
  match rail with
  | 0 => dies [0, 1, 3]
  | 1 => (List.range 10).map (48 + ·) ++ [60, 61]
  | 2 => dies [2] ++ [48, 49, 50, 51, 60, 61]
  | 3 => [52, 53, 54, 55]
  | 4 => dies [3] ++ [58, 59]
  | _ => []

/-- Whether a rail is watched: some switched domain of it is on, or none is switched (R464). -/
def State.watched (s : State) (rail : Nat) : Bool :=
  let l := railDomains rail
  l.isEmpty || l.any fun k => s.domState k ≠ 1

/-- A rail crosses its Reset threshold (R469): a supply reset, or for VAUX its loss. -/
def execSupplyReset (rail : Fin 8) (mv : Nat) (s : State) : Out :=
  if resetMv rail.val ≤ mv || s.shep.vauxOff || !s.watched rail.val then .next s
  else if rail.val = 5 then .next s.vauxLost
  else
    let s := s.coldReset 2 rail.val
    let a := pwrAddr (0x10 + 4 * rail.val)
    .next ((s.cpSetField a 0 12 mv).cpSetField a 12 12 (min mv (s.cpField a 12 12)))

/-- After a supply reset every rail is above its Shed-1 threshold: the boot starts. -/
def execSupplyResetRelease (b : BootInput) (s : State) : Out :=
  if s.shep.inReset && !s.shep.vauxOff && s.cpField (pwrAddr 0x04) 0 2 = 2 then .next (s.boot b) else .next s

/-! The Shepherd pair (R443). -/

/-- The pair disagrees: hardware starts the stop, drives FAULT_OUT_N low, stops HEARTBEAT and reboots the pair
from the boot ROM; the rebooted firmware records SHEP_LOCKSTEP (R443). With no image that verifies, only
image commands are served (R331). -/
def execLockstepMismatch (s : State) : Out :=
  if !s.shepUp || s.imageOnly then .next s
  else
    let s := s.cds 5
    let s := s.modShep fun x => { x with standby := none, hbStop := true }
    let ran := fun (i : Nat) => s.shep.booted.any fun b => b.val = i
    match bootSlot (s.bootOf { okA := ran 0, okB := ran 1 } 0) (SMap.get 0 s.shep.active 0) with
    | some slot => .next ((s.bootFw slot).report shepStation 0x40 shepStation.toNat)
    | none =>
      .next (({ s with imageOnly := true } : State).modShep fun x => { x with booted := none }).pins

end Sys2Proof.Machine
end

