-- ==== Sys2Proof/Machine/Reflect.lean ====
section
/-!
DEFINITION. Reflection checks (R426 to R431): checkpoints, windows, the rotation of the slots, replays and
their verdicts.
-/

namespace Sys2Proof.Machine

/-! Checkpoints (Table SAFE-6). The order of the fields is the table's; how the interface state is packed
is the model's own. -/

/-- The control registers of a core in the order of Table ISA-2. -/
def Core.crWords (c : Core) : List Word :=
  [c.status, c.part, c.s1base, c.s2base, c.tclass, c.vflags, c.vctl]
  ++ [1, 2, 3].map (SMap.get 0 c.vbar) ++ [1, 2, 3].map (SMap.get 0 c.xsp)
  ++ [1, 2, 3].map (SMap.get 0 c.xlim)

/-- A running-priority entry in 28 bits. -/
def RunPri.pack (r : RunPri) : Nat :=
  r.prio.toNat + r.id % 1024 * 2 ^ 8 + (match r.die with
    | some d => d.val * 2 ^ 18 + 2 ^ 22
    | none => 0)

/-- The running-priority entry that 28 bits hold. -/
def unpackPri (v : Nat) : RunPri :=
  ⟨BitVec.ofNat 8 v, v / 2 ^ 8 % 1024,
    if v / 2 ^ 22 % 2 = 1 then some ⟨v / 2 ^ 18 % 16 % 12, by omega⟩ else none⟩

/-- The interface state that R138 carries, in 13 words. -/
def Cii.pack (x : Cii) : List Word :=
  let pc := fun (i : Nat) => (x.cfg i).prio.toNat + (x.cfg i).lvl.toNat * 2 ^ 8 + b2n (x.cfg i).world * 2 ^ 10
  let cfgs := ((List.range 12).map fun i => pc i * 2 ^ (16 * i)).sum
  let stack := (List.range 16).map fun i => match x.stack[i]? with
    | some r => r.pack * 2 ^ (28 * i)
    | none => 0
  let w := fun (v k : Nat) => BitVec.ofNat 64 (v / 2 ^ (64 * k))
  [BitVec.ofNat 64 (x.pend.toNat + x.en.toNat * 2 ^ 32),
    BitVec.ofNat 64 (x.act.toNat + b2n x.eoiErr * 2 ^ 32 + b2n x.sgiDrop * 2 ^ 33 + x.stack.length * 2 ^ 40),
    x.deadline]
  ++ (List.range 3).map (w cfgs) ++ (List.range 7).map (w stack.sum)

/-- The interface state that 13 words hold; no source is offered. -/
def unpackCii (l : List Word) : Cii :=
  let g := fun (i : Nat) => (l[i]?).getD 0
  let cfg := fun (i : Nat) => ((g (3 + i / 4)).toNat / 2 ^ (16 * (i % 4))) % 2 ^ 16
  let stack := ((List.range 7).map fun k => (g (6 + k)).toNat * 2 ^ (64 * k)).sum
  { stack := (List.range (field (g 1) 40 8)).map fun i => unpackPri (stack / 2 ^ (28 * i) % 2 ^ 28)
    eoiErr := bit (g 1) 32, sgiDrop := bit (g 1) 33, deadline := g 2
    pend := (g 0).truncate 32, en := (g 0).extractLsb' 32 32, act := (g 1).truncate 32
    pcfg := (List.range 12).foldl (fun m i => SMap.set PCfg.reset m i
      ⟨BitVec.ofNat 8 (cfg i), BitVec.ofNat 2 (cfg i / 2 ^ 8), bit (BitVec.ofNat 16 (cfg i)) 10⟩) [] }

/-- The words of a checkpoint after its header. -/
def Core.ckptWords (c : Core) : List Word :=
  let c := c.settle
  [c.pc] ++ (List.range 31).map (fun i => SMap.get 0 c.g (i + 1))
  ++ ((List.range 32).flatMap fun i => (List.range 8).map fun k => (SMap.get 0 c.v i).extractLsb' (64 * k) 64)
  ++ (List.range 8).map (SMap.get 0 c.p) ++ c.crWords ++ c.cii.pack

/-- A core as its checkpoint left it, started at the checkpoint's PC. -/
def coreOfCkpt (l : List Word) : Core :=
  let g := fun (i : Nat) => (l[i]?).getD 0
  let line := fun (i : Nat) => (List.range 8).foldl (fun (x : Line) k =>
    x ||| ((g (32 + 8 * i + k)).zeroExtend 512 <<< (64 * k))) (0 : Line)
  let bank := fun (o : Nat) => (List.range 3).foldl (fun m i => SMap.set 0 m (i + 1) (g (o + i))) []
  { run := .started, pc := g 0
    g := (List.range 31).foldl (fun m i => SMap.set 0 m (i + 1) (g (i + 1))) []
    v := (List.range 32).foldl (fun m i => SMap.set 0 m i (line i)) []
    p := (List.range 8).foldl (fun m i => SMap.set 0 m i (g (288 + i))) []
    status := g 296, part := g 297, s1base := g 298, s2base := g 299, tclass := g 300
    vflags := g 301, vctl := g 302, vbar := bank 303, xsp := bank 306, xlim := bank 309
    cii := unpackCii (l.drop 312) }

/-! Windows (R426, R427). -/

/-- The die on which a window's sectors are kept lets them go. -/
def State.freeWindow (s : State) (lc : LC) (sectors : List Nat) : State :=
  match s.dieOf lc with
  | some d => s.letGo d sectors
  | none => s

/-- A window ends: the CLOSE record and the signature over the closing register image (R428); it waits for its
replay. -/
def State.closeWindow (s : State) (lc : LC) : State :=
  let c := s.core lc
  match c.win with
  | none => s
  | some w =>
    let sig := crc64 w.sig (bytesOf64 c.ckptWords)
    let close : LogRec := ⟨5, 2, w.icount % 2 ^ 32, [BitVec.ofNat 64 (c.beats.next - w.beats0), sig, 0]⟩
    let x : Closed := ⟨w.slotNo, sig, w.icount, w.recs ++ [close], w.sectors⟩
    (s.modCore lc fun c => { c with win := none }).modShep fun y => { y with
      closed := SMap.set none y.closed lc.val (some x) }

/-- A window opens with its checkpoint; one that was never replayed is dropped. -/
def State.openWindow (s : State) (lc : LC) (i : Nat) : State :=
  let s := match SMap.get none s.shep.closed lc.val with
    | some x => (s.freeWindow lc x.sectors).modShep fun y => { y with
        closed := SMap.set none y.closed lc.val none }
    | none => s
  s.modCore lc fun c => { c with win := some {
    slotNo := i, beats0 := c.beats.next, recs := [⟨1, 163, 0, c.ckptWords⟩] } }

/-! The rotation (R430, R431, R433). -/

/-- Core BIST of a slot begins; its core is reset. -/
def State.startBist (s : State) (lc : LC) : State :=
  match s.placeOf lc with
  | some k => (s.coreReset lc).modShep fun x => { x with bist := x.bist ++ [k] }
  | none => s

/-- What a reserve does as target in slot `i`: the target at the front of its list, or the next in turn. A
retest of a core that runs no partition is a BIST; a halted or stopped core is skipped. -/
def State.target (s : State) (res : Nat) (l : List LC) (i : Nat) : State :=
  let front := s.shep.first.find? fun x => x.1 = res
  let lc? := match front with
    | some x => some x.2
    | none => l[i % l.length]?
  let s := match front with
    | some x => s.modShep fun y => { y with first := y.first.erase x }
    | none => s
  match lc? with
  | none => s
  | some lc =>
    let c := s.core lc
    if c.run == .started && !c.halts.isEmpty then s
    else if c.run == .started && (s.partOf lc).isSome then s.openWindow lc i
    else if c.run == .stopped && front.isSome then s.startBist lc
    else s

/-- The replays that a reserve runs in slot `i`: a confirmation displaces the replay that was due, whose target
goes to the front of the list (R431). -/
def State.duty (s : State) (res : Nat) (l : List LC) (i : Nat) : State :=
  let confirm := s.shep.replays.any fun r => r.res = res && r.due = i
  l.foldl (fun s lc => match SMap.get none s.shep.closed lc.val with
    | some x =>
      if x.slotNo + 1 ≠ i || s.shep.replays.any fun r => r.target = lc then s
      else if confirm then
        let s := (s.freeWindow lc x.sectors).countAt (cpAddr shepStation 0x71044) 16 16 1
        s.modShep fun y => { y with
          closed := SMap.set none y.closed lc.val none, first := (res, lc) :: y.first }
      else s.modShep fun y => { y with replays := y.replays ++ [{ target := lc, res := res, due := i }] }
    | none => s) s

/-- A slot of 64 us starts (R430): windows of the last slot end, replays begin, targets open their windows. -/
def execReflSlot (t : Word) (s : State) : Out :=
  let s := s.advance t
  if t.toNat % 64000 ≠ 0 || !s.shepUp || s.imageOnly || s.restarting
      || 2 ≤ s.cpField (pwrAddr 0) 0 3 then .next s
  else
    let i := t.toNat / 64000
    let s := if sameLists s.shep.lists s.buildLists then s else s.rebuildLists
    let s := (List.finRange 216).foldl (fun s lc =>
      if (s.core lc).win.isSome && (s.core lc).access.isNone then s.closeWindow lc else s) s
    let s := s.shep.closed.foldl (fun s e => match e.2 with
      | some x =>
        if h : e.1 < 216 then
          if x.slotNo + 1 < i && !s.shep.replays.any fun r => r.target.val = e.1 then
            (s.freeWindow ⟨e.1, h⟩ x.sectors).modShep fun y => { y with
              closed := SMap.set none y.closed e.1 none }
          else s
        else s
      | none => s) s
    let lists := s.shep.lists
    let s := lists.foldl (fun s e => s.duty e.1 e.2 i) s
    .next (lists.foldl (fun s e => s.target e.1 e.2 i) s)

/-- A window reaches a limit at an instruction boundary (R427): 0 the end of its slot, 1 80,000 elapsed beats,
2 its log share of 512 KiB, 3 512 sectors. -/
def execWindowEnd (lc : LC) (why : BitVec 2) (s : State) : Out :=
  let c := s.core lc
  match c.win with
  | none => .next s
  | some w =>
    let reached : Bool :=
      if why = 0 then decide ((w.slotNo + 1) * 64000 ≤ s.tb.toNat)
      else if why = 1 then decide (80000 ≤ c.beats.next - w.beats0)
      else if why = 2 then decide (32768 ≤ (w.recs.map (·.len)).sum)
      else decide (512 ≤ w.sectors.length)
    if reached && c.access.isNone then .next (s.closeWindow lc) else .next s

/-- Another reserve of the quadrant for a confirmation, one of the target's die before others (R431). -/
def State.otherFor (s : State) (lc : LC) (k : Nat) : Option Nat :=
  match s.dieOf lc with
  | none => none
  | some d =>
    let near := (s.reservesOf d).filter (· ≠ k)
    let far := ((List.finRange 12).filter fun e => e.val / 3 = d.val / 3 && e ≠ d).flatMap s.reservesOf
    (near ++ far.filter (· ≠ k)).head?

/-- Station of a place. -/
def placeStation (k : Nat) : Nat := (k / 20 + 1) * 256 + k % 20

/-- A verdict against a target or a reserve is reported (Table SAFE-7). -/
def State.charged (s : State) (target : Bool) (lc : LC) (k : Nat) : State :=
  if target then s.report shepStation 0x12 (placeStation ((s.placeOf lc).getD 0)) lc.val
  else s.report shepStation 0x13 (placeStation k) lc.val

/-- A replay and its window are done with. -/
def State.endReplay (s : State) (r : Replay) : State :=
  let s := match SMap.get none s.shep.closed r.target.val with
    | some x => s.freeWindow r.target x.sectors
    | none => s
  s.modShep fun y => { y with
    replays := y.replays.erase r, closed := SMap.set none y.closed r.target.val none }

/-- A replay closes with the SIG and the instruction count that the reserve found (R431, Table SAFE-7). -/
def execReplayClose (die : Die) (slot : Slot) (sig : Word) (icount : Word32) (s : State) : Out :=
  let k := die.val * 20 + slot.val
  match s.shep.replays.find? fun r => r.res = k with
  | none => .next s
  | some r =>
    match SMap.get none s.shep.closed r.target.val with
    | none => .next (s.endReplay r)
    | some x =>
      let agrees := sig = x.sig && icount.toNat = x.icount % 2 ^ 32
      let s := if agrees then s else s.countAt (cpAddr shepStation 0x71044) 0 16 1
      match r.first with
      | none =>
        if agrees then .next (s.endReplay r)
        else match s.otherFor r.target k with
          | none => .next ((s.endReplay r).charged true r.target k)
          | some k2 =>
            let r2 : Replay := { target := r.target, res := k2, due := s.tb.toNat / 64000 + 1
                                 first := some (k, sig, icount.toNat) }
            .next (s.modShep fun y => { y with replays := y.replays.erase r ++ [r2] })
      | some (k1, sig1, ic1) =>
        let s := s.endReplay r
        if agrees then .next (s.charged false r.target k1)
        else if sig = sig1 && icount.toNat = ic1 then .next (s.charged true r.target k1)
        else .next ((s.charged true r.target k1).charged false r.target k1)

end Sys2Proof.Machine
end

