-- ==== Sys2Proof/Machine/MirrorPair.lean ====
section
/-!
DEFINITION. The Mirror pair (R446 to R461): heartbeats and pairing, the cut, shipping and application of epochs,
the loss of the partner, takeover and the base copy.
-/

namespace Sys2Proof.Machine

/-- The Mirror port's own state changed. -/
def State.modMir (s : State) (f : Mirror → Mirror) : State := { s with mir := f s.mir }

/-- MIR_CFG.ENABLE, with the port's domain on. -/
def State.mirOn (s : State) : Bool :=
  s.cpField (mirAddr 0) 0 1 = 1 && s.domState 57 = 0 && s.shepUp && !s.restarting

/-- MIR_STATUS.LINK_UP. -/
def State.mirLink (s : State) : Bool := s.cpField (mirAddr 0x004) 4 1 = 1

/-- A unit goes out on the Mirror link. -/
def State.mirSend (s : State) (u : MirUnit) : State := s.modMir fun m => { m with out := m.out ++ [u] }

/-- A MIRROR fault of SEV 2, or 3. -/
def State.mirFault (s : State) (severe : Bool) : State :=
  s.report mirrorStation 0x50 mirrorStation.toNat (crit := severe)

/-! Pairing (R447). -/

/-- The PAST words of every valid HBM region marked MIRROR, in address order. -/
def State.mirRegions (s : State) : List Nat :=
  (List.finRange 4).flatMap fun q => (List.range 32).filterMap fun r =>
    let a := cpAddr (mcStation q) (0x1000 + 16 * r)
    if s.cpField a 0 1 = 1 && s.cpField a 8 1 = 1 then some a else none

/-- The configuration digest: CRC-32 over MIR_CFG with ROLE masked, MIR_PART, MIR_BUDGET and the four words
of each mirrored region. -/
def State.mirDigest (s : State) : Word32 :=
  let words := [setBit (s.cpGet (mirAddr 0)) 1 false]
    ++ (List.range 256).map (fun p => s.cpGet (mirAddr (0x100 + 4 * p)))
    ++ (List.range 4).map (fun q => s.cpGet (mirAddr (0x020 + 4 * q)))
    ++ s.mirRegions.flatMap fun a => (List.range 4).map fun k => s.cpGet (a + 4 * k)
  crc32 (bytesOf32 words)

/-- MIR_ACKED. -/
def State.mirAcked (s : State) : Nat := (s.cpGet (mirAddr 0x00C)).toNat

/-- The heartbeat that this device sends (Table MIR-2). -/
def State.heartbeat (s : State) : MirUnit :=
  { code := 0, epoch := BitVec.ofNat 64 s.mirEpoch
    data := [BitVec.ofNat 64 (b2n s.mirSecondary + 2 * s.mirState), BitVec.ofNat 64 s.mirEpoch,
      BitVec.ofNat 64 s.mirAcked, s.mirDigest.zeroExtend 64] }

/-- A word of a unit. -/
def unitWord (u : MirUnit) (i : Nat) : Nat := ((u.data[i]?).getD 0).toNat

/-- A base copy is due: both devices are SYNCING (R460). -/
def State.startBase (s : State) : State :=
  (s.setMirState 1).modMir fun m => { m with base := true, baseGot := 0, shipping := none, fwd := [] }

/-- The pair forms (R447, R460): into SYNCING where the secondary holds no complete epoch, else into PAIRED.
`held` is the last epoch that the secondary holds. -/
def State.pairUp (s : State) (held : Nat) : State :=
  if held ≠ 0 then s.setMirState 2
  else if s.cpField (mirAddr 0) 3 1 = 1 then s.startBase
  else s

/-- A good heartbeat has come: what the partner says is kept and the pairing judged. One device of a pair that tells
SYNCING takes the other along (R454, R460); a primary that has not yet seen the last acknowledgement is only about to
leave that state (DEDUCED, log 151). -/
def State.judge (s : State) (u : MirUnit) : State :=
  let w := unitWord u 0
  let theirs : Bool := decide (w % 2 = 1)
  let st := w / 2 % 8
  let same : Bool := decide (unitWord u 3 = s.mirDigest.toNat)
  let x := s.mirState
  if x = 0 then
    let s := if !theirs && (st = 3 || st = 4) then s.cpSetField (mirAddr 0x004) 0 1 1 else s
    let mine := s.mirSecondary
    if !same || (!mine && !theirs) then s.mirFault false
    else if mine == theirs then s
    else s.pairUp (if mine then s.mirAcked else unitWord u 2)
  else if (x = 3 || x = 4) && theirs && same then s.pairUp (unitWord u 2)
  else if x = 2 && s.mirSecondary && !theirs && st = 1 && unitWord u 2 = s.mirAcked then s.startBase
  else if x = 2 && !s.mirSecondary && theirs && st = 1 then s.startBase
  else s

/-- A heartbeat unit is received. -/
def execHb (u : MirUnit) (s : State) : Out :=
  if !s.mirOn || !s.mirLink || u.code ≠ 0 then .next s
  else
    let s := (s.cpSetField (mirAddr 0x004) 5 5 0).modMir fun m => { m with partner := some u }
    .next (s.judge u)

/-- The Mirror link comes up. -/
def execMirrorLinkUp (s : State) : Out :=
  if s.domState 57 = 0 && s.shepUp then .next (s.cpSetField (mirAddr 0x004) 4 1 1) else .next s

/-- The Mirror link makes no progress for 10 us (R448). -/
def execMirrorLinkDown (s : State) : Out := .next (s.cpSetField (mirAddr 0x004) 4 1 0)

/-! Application on the secondary (R454). -/

/-- A line of a unit is written at its address with WrUnique; the page log is left as it was. None where its
home is busy. -/
def State.applyLine (s : State) (u : MirUnit) : Option State :=
  let line := u.addr.toNat / 64
  match s.hubWrite mirrorStation true 0 line u.line fullMask with
  | .busy => none
  | .ok _ s' =>
    let s' := s'.modMir fun m => { m with pages := s.mir.pages, fwd := s.mir.fwd, out := s.mir.out }
    some (if u.pois then s'.poisonLine (quadOf (64 * line)) line else s')
  | .refuse s' => some s'
  | .poison s' => some s'

/-- LINE and CKPT units of a list. -/
def linesOf (l : List MirUnit) : List MirUnit := l.filter (·.code = 1)
/-- CKPT units of a list. -/
def ckptsOf (l : List MirUnit) : List MirUnit := l.filter (·.code = 2)

/-- A complete half is applied: its lines, its checkpoints, and the acknowledgement of its epoch; none where a
line's home is busy. -/
def State.applyHalf (s : State) (epoch : Nat) (half : List MirUnit) : Option State :=
  ((linesOf half).foldl (fun (o : Option State) u => o.bind fun s => s.applyLine u) (some s)).map fun s =>
    let s := s.modMir fun m => { m with
      ckpts := ckptsOf half, staged := SMap.set [] m.staged (epoch % 2) [] }
    let s := (s.cpSet (mirAddr 0x00C) (BitVec.ofNat 32 epoch)).cpSet (mirAddr 0x008) (BitVec.ofNat 32 (epoch + 1))
    s.mirSend { code := 5, epoch := BitVec.ofNat 64 epoch }

/-- The staging half of an epoch. -/
def State.half (s : State) (epoch : Nat) : List MirUnit := SMap.get [] s.mir.staged (epoch % 2)

/-- Whether units reach this device as a secondary that takes them. -/
def State.receives (s : State) : Bool :=
  s.mirOn && s.mirLink && s.mirSecondary && (s.mirState = 1 || s.mirState = 2)

/-- A unit is staged; one of another epoch replaces what an unfinished epoch left in the half. -/
def State.mirStage (s : State) (u : MirUnit) : State :=
  s.modMir fun m => { m with
    staged := SMap.set [] m.staged (u.epoch.toNat % 2)
      ((s.half u.epoch.toNat).filter (·.epoch = u.epoch) ++ [u]) }

/-- A LINE unit arrives: staged, or in a base copy written at once (R454, R460). -/
def execMirLine (u : MirUnit) (s : State) : Out :=
  if !s.receives || u.code ≠ 1 then .next s
  else if s.mir.base then
    match s.applyLine u with
    | some s => .next (s.modMir fun m => { m with
        baseGot := if m.baseEp = u.epoch then m.baseGot + 1 else 1, baseEp := u.epoch })
    | none => .next s
  else .next (s.mirStage u)

/-- A CKPT unit arrives. -/
def execCkpt (u : MirUnit) (s : State) : Out :=
  if !s.receives || u.code ≠ 2 then .next s else .next (s.mirStage u)

/-- END arrives: with matching counts the epoch is applied and acknowledged, else the half is discarded and mirroring
restarts, which the next heartbeat tells the primary (R454, R460; DEDUCED, log 151). -/
def execMirEnd (u : MirUnit) (s : State) : Out :=
  if !s.receives || u.code ≠ 3 || s.mir.base then .next s
  else
    let h := (s.half u.epoch.toNat).filter (·.epoch = u.epoch)
    if (linesOf h).length = unitWord u 0 && (ckptsOf h).length = unitWord u 1 then
      match (s.mirStage u).applyHalf u.epoch.toNat h with
      | some s => .next (if s.mirState = 1 then s.setMirState 2 else s)
      | none => .next s
    else
      .next (((s.modMir fun m => { m with
        staged := SMap.set [] m.staged (u.epoch.toNat % 2) [] }).mirFault false).startBase)

/-- BASE_END arrives: the base copy is complete, its checkpoints are held (R460). -/
def execBaseEnd (u : MirUnit) (s : State) : Out :=
  if !s.receives || u.code ≠ 4 || !s.mir.base then .next s
  else
    let h := (s.half u.epoch.toNat).filter (·.epoch = u.epoch)
    if (if s.mir.baseEp = u.epoch then s.mir.baseGot else 0) = unitWord u 0 && (ckptsOf h).length = unitWord u 1 then
      .next (s.modMir fun m => { m with
        base := false, baseGot := 0, ckpts := ckptsOf h, staged := [] })
    else .next ((s.modMir fun m => { m with baseGot := 0, staged := [] }).mirFault false)

/-- ACK arrives at the primary: MIR_ACKED, the completions it releases, and from SYNCING the state PAIRED
(R456, R460). -/
def execMirAck (u : MirUnit) (s : State) : Out :=
  if !s.mirOn || !s.mirLink || s.mirSecondary || u.code ≠ 5 || !(s.mirState = 1 || s.mirState = 2) then .next s
  else
    let s := s.cpSet (mirAddr 0x00C) (BitVec.ofNat 32 u.epoch.toNat)
    let s := if s.mirState = 1 && !s.mir.base then s.setMirState 2 else s
    .next s.releaseHeld

/-! The cut (R449, R450, Table MIR-3). -/

/-- Whether a logical core runs a mirrored partition. -/
def State.mirCore (s : State) (lc : LC) : Bool :=
  (s.core lc).run == .started && match s.partOf lc with
    | some p => s.cpField (mirAddr (0x100 + 4 * p.toNat)) 0 1 = 1
    | none => false

/-- Pages logged in an epoch. -/
def State.pagesOf (s : State) (epoch : Nat) : List Nat :=
  s.mir.pages.filterMap fun e =>
    if e.2 && e.1 / 2 ^ 26 = epoch % 2 then some (e.1 % 2 ^ 26) else none

/-- SnpShared to every holder in E of a line: dirty data reach the home, the duplicate tags become S. -/
def State.shareLine (s : State) (line : Nat) : State :=
  (List.finRange 12).foldl (fun s d =>
    if s.dtState d line = .e then
      let (a, s) := s.snoopDie d .snpShared line 0
      let s := match a.data with
        | some (x, p) => (s.mirTouch line).homeWrite (quadOf (64 * line)) line x p
        | none => s
      s.setDt d line .s
    else s) s

/-- Every page of every mirrored region. -/
def State.allPages (s : State) : List Nat :=
  s.mirRegions.flatMap fun a =>
    let lo := (s.cpGet (a + 8)).toNat
    (List.range ((s.cpGet (a + 12)).toNat + 1 - lo)).map (lo + ·)

/-- The cores of a cut halt (steps 1 and 2). -/
def State.cutHalt (s : State) : State :=
  (s.haltWhere .cut s.mirCore).modMir fun m => { m with cutFrom := some s.tb, cutDue := false }

/-- Steps 3 to 6: E lines are shared, the epoch switches, checkpoints are taken, the cores go on. For a base
copy every page of every mirrored region counts as logged (R460). -/
def State.cutSwitch (s : State) (start : Word) : State :=
  let s := (List.finRange 4).foldl (fun s q => (s.home q).eList.foldl State.shareLine s) s
  let k := s.mirEpoch
  let s := if s.mir.base then s.modMir fun m => { m with
      pages := s.allPages.foldl (fun p x => SMap.set false p (k % 2 * 2 ^ 26 + x) true) m.pages } else s
  let cks := (List.finRange 216).filterMap fun lc =>
    if (s.core lc).halts.contains .cut then
      some { code := 2, epoch := BitVec.ofNat 64 k
             data := [BitVec.ofNat 64 lc.val, ((s.partOf lc).getD 0).zeroExtend 64]
               ++ (s.core lc).ckptWords : MirUnit }
    else none
  let s := s.modMir fun m => { m with
    shipping := some (BitVec.ofNat 32 k), fwd := [], ckpts := cks, cutFrom := none }
  let s := (s.cpSet (mirAddr 0x008) (BitVec.ofNat 32 (k + 1))).cpSet (mirAddr 0x018)
    (BitVec.ofNat 32 (s.pagesOf k).length)
  ((s.unhaltAll .cut).cpSetField (mirAddr 0x010) 0 16 (min 0xFFFF (s.tb - start).toNat)).tryFire

/-- Whether a cut that runs can reach its switch: the halted cores rest and no E line is in work. -/
def State.cutReady (s : State) : Bool :=
  (List.finRange 216).all (fun lc => !(s.core lc).halts.contains .cut || (s.core lc).drained)
    && (List.finRange 4).all fun q => (s.home q).eList.all fun l => s.lineFree l && !s.mirBlocked l

/-- A cut falls due, or goes on (R449, R450). One held back by shipping or by an acknowledgement is counted;
one that meets a commit sequence starts after it. -/
def execCut (t : Word) (s : State) : Out :=
  let s := s.advance t
  match s.mir.cutFrom with
  | some start => if s.cutReady then .next (s.cutSwitch start) else .next s
  | none =>
    let k := s.mirEpoch
    let x := s.mirState
    if !s.mirOn || s.mirSecondary || !(x = 1 || x = 2) then .next s
    else
      let due := (x = 1 && s.mir.base) || s.mir.cutDue || t.toNat % (s.cpField (mirAddr 0) 8 14 * 1000) = 0
        || 61440 ≤ (s.pagesOf k).length
      if !due then .next s
      else if s.mir.shipping.isSome || (x = 2 && s.mirAcked + 2 < k) then
        .next (s.count16 (mirAddr 0x014) 1)
      else if s.shep.commit.isSome then .next (s.modMir fun m => { m with cutDue := true })
      else .next s.cutHalt

/-! Shipping (R453). -/

/-- The 64 lines of a page as LINE units, but for those that were handed over before. -/
def State.pageUnits (s : State) (k : BitVec 32) (page : Nat) : List MirUnit :=
  (List.range 64).filterMap fun i =>
    let line := 64 * page + i
    if s.mir.fwd.contains line then none
    else
      let (d, p) := s.memCopy line
      some { code := 1, epoch := k.zeroExtend 64, addr := BitVec.ofNat 48 (64 * line), line := d, pois := p }

/-- Pages in ascending order. -/
def ascending (l : List Nat) : List Nat := l.mergeSort fun a b => a ≤ b

/-- The epoch is shipped: checkpoints, its pages in ascending order, END or BASE_END; its bits clear. -/
def execEpochShip (s : State) : Out :=
  match s.mir.shipping with
  | none => .next s
  | some k =>
    if !s.mirOn || !s.mirLink || s.mirSecondary || !(s.mirState = 1 || s.mirState = 2) then .next s
    else
      let pages := ascending (s.pagesOf k.toNat)
      let units := s.mir.ckpts ++ pages.flatMap (s.pageUnits k)
      let last : MirUnit := { code := if s.mir.base then 4 else 3, epoch := k.zeroExtend 64
                              data := [BitVec.ofNat 64 (64 * pages.length), BitVec.ofNat 64 s.mir.ckpts.length] }
      let s := s.modMir fun m => { m with
        out := m.out ++ units ++ [last], shipping := none, fwd := [], base := false, ckpts := []
        pages := m.pages.filter fun e => e.1 / 2 ^ 26 ≠ k.toNat % 2 }
      .next (s.cpSet (mirAddr 0x018) 0)

/-! The loss of the partner (R457 to R459) and takeover (Table MIR-4). -/

/-- A checkpoint is loaded into its logical core, which starts at the checkpoint's PC (T2); a core that carries
another partition is taken from it, and that partition is reset (R455). -/
def State.loadCkpt (s : State) (u : MirUnit) : State :=
  if h : unitWord u 0 < 216 then
    let lc : LC := ⟨unitWord u 0, h⟩
    let pid : BitVec 8 := BitVec.ofNat 8 (unitWord u 1)
    if (s.core lc).run == .lost then s
    else
      let s := match s.partOf lc with
        | some p => if p ≠ pid && (s.part p.toNat).isSome then
            s.partReset p.toNat else s
        | none => s
      let s := (s.emptyL1 lc).dropReqs lc
      let s := s.modCore lc fun c => { coreOfCkpt (u.data.drop 2) with halts := c.halts }
      let s := s.modShep fun x => { x with lcPart := SMap.set none x.lcPart lc.val (some pid) }
      match s.part pid.toNat with
      | some p => s.setPart pid.toNat (some { p with st := 1 })
      | none => s
  else s

/-- The half whose END has arrived and which is not yet applied. -/
def State.endedHalf (s : State) : Option (Nat × List MirUnit) :=
  s.mir.staged.findSome? fun e => (e.2.find? (·.code = 3)).map fun u => (u.epoch.toNat, e.2)

/-- Takeover, steps T1 to T3; none where a line's home is busy. -/
def State.takeover (s : State) : Option State :=
  let o := match s.endedHalf with
    | some (k, h) => s.applyHalf k h
    | none => some s
  o.map fun s =>
    let s := s.modMir fun m => { m with staged := [], pages := [], base := false }
    let s := s.mir.ckpts.foldl State.loadCkpt s
    let s := s.cpSet (mirAddr 0x008) (BitVec.ofNat 32 (s.mirAcked + 1))
    let s := (s.cpSetField (mirAddr 0x004) 0 1 0).setMirState 4
    (s.modMir fun m => { m with ckpts := [] }).mirFault false

/-- The secondary takes over, at once or when the homes have room. -/
def State.tryTakeover (s : State) : State := (s.takeover).getD s

/-- The partner is lost (R459): by the pin, or by heartbeats. -/
def State.partnerLost (s : State) (pin : Bool) : State :=
  let x := s.mirState
  if s.mirSecondary then
    if x = 1 then (s.setMirState 0).mirFault true
    else if x = 2 then (s.setMirState 5).tryTakeover
    else s
  else if x = 1 || x = 2 || (x = 3 && pin) then
    let s := s.modMir fun m => { m with shipping := none, fwd := [], base := false, cutFrom := none, cutDue := false, ckpts := [] }
    let s := (s.unhaltAll .cut).cpSet (mirAddr 0x018) 0
    if pin || s.cpField (mirAddr 0) 2 1 = 1 then s.setMirState 4 else s.setMirState 3
  else s

/-- The device sends its heartbeat at a multiple of 50 us (R457); a takeover that waited goes on. -/
def execHbSend (t : Word) (s : State) : Out :=
  let s := s.advance t
  if t.toNat % 50000 ≠ 0 || !s.mirOn then .next s
  else
    let s := if s.mirState = 5 then s.tryTakeover else s
    .next (if s.mirLink then s.mirSend s.heartbeat else s)

/-- A period of 50 us passes without a good heartbeat (R457); the twentieth loses the partner. -/
def execHbMiss (t : Word) (s : State) : Out :=
  let s := s.advance t
  if t.toNat % 50000 ≠ 0 || !s.mirOn then .next s
  else
    let n := s.cpField (mirAddr 0x004) 5 5
    let s := s.cpSetField (mirAddr 0x004) 5 5 (min 20 (n + 1))
    .next (if n = 19 then s.partnerLost false else s)

/-- MIRROR_FAULT_N is low for 1 us while this device does not drive it (R458). -/
def execPartnerFailure (s : State) : Out :=
  if s.mirOn && !s.shep.mirFault then .next (s.partnerLost true) else .next s

/-- MIRROR_RESYNC (R460): the primary of a pair, or one whose secondary is heard, starts a base copy. -/
def execMirrorResync (r : ShepReq) (s : State) : Out :=
  s.shepRun { op := 0x0602, a := false, n := false, sec := false } r fun _ s =>
    let heard := s.mir.partner.any fun u => unitWord u 0 % 2 = 1 && unitWord u 3 = s.mirDigest.toNat
    if !s.mirOn || !s.mirLink || s.mirSecondary || s.mirState = 5 || !heard
        || s.mir.cutFrom.isSome then .status 0x68 s
    else .ok s.startBase

end Sys2Proof.Machine
end

