-- ==== Sys2Proof/Machine/Power.lean ====
section
/-!
DEFINITION. Supply and power (R463 to R476, R486): shed stages, excursions, power domains, the power states P1,
P2 and P3 with their wake events, PERST_N, SAFE_N, GPIO levels, THERMTRIP_N and the PMBus.
-/

namespace Sys2Proof.Machine

/-! Shed stages (R466 to R468). -/

/-- The Shed threshold of a rail for a stage, in mV (Table PWR-1). -/
def shedMv (rail stage : Nat) : Option Nat :=
  match rail, stage with
  | 0, 1 => some 900 | 0, 2 => some 880 | 0, 3 => some 860 | 0, 4 => some 840
  | 1, 1 => some 850 | 1, 3 => some 830
  | 2, 1 => some 900 | 2, 3 => some 880
  | 3, 1 => some 1140 | 3, 5 => some 1120
  | 4, 1 => some 1720 | 4, 4 => some 1680
  | 5, 1 => some 1720
  | _, _ => none

/-- The reads that scrubbers are owed are forfeit (Table PWR-2). -/
def State.forfeit (s : State) : State :=
  (List.finRange 4).foldl (fun s q =>
    (List.range 16).foldl (fun s p => s.modPc q p fun x => { x with owed := 0 }) s) s

/-- The actions of a stage begin (Table PWR-2). -/
def State.stageOn (s : State) (n : Nat) : State :=
  if s.shed n then s
  else
    let s := s.cpSetField (pwrAddr 0) (7 + n) 1 1
    match n with
    | 1 => s.forfeit.traceGap
    | 2 => { s with shed2 := true }
    | 3 => s.shedCores
    | 4 => s.narrowAll.modShep fun x => { x with shed4At := some s.tb }
    | _ => s.settleStacks.guarantees

/-- A stage and every lower one engage; a dip starts with the first (R466, R468). -/
def State.engage (s : State) (stage rail mv crossings : Nat) : State :=
  let dip : Dip := s.shep.dip.getD { start := s.tb, rail := rail, count := 0, minMv := mv, stages := 0 }
  let dip : Dip := { dip with
    count := dip.count + crossings, minMv := min dip.minMv mv
    stages := dip.stages ||| BitVec.ofNat 5 (2 ^ stage - 1) }
  let s := s.modShep fun x => { x with dip := some dip }
  (List.range stage).foldl (fun s i => s.stageOn (i + 1)) s

/-- A sample of a rail enters PWR_RAIL_r (Table PWR-9). -/
def State.railSample (s : State) (rail mv : Nat) : State :=
  let a := pwrAddr (0x10 + 4 * rail)
  (s.cpSetField a 0 12 mv).cpSetField a 12 12 (min mv (s.cpField a 12 12))

/-- A rail crosses a Shed threshold with a sample of `mv` mV. The Shed-1 threshold of VAUX also starts the write
of the boot-flash copy (R482). -/
def execShedEngage (stage : Fin 6) (rail : Fin 8) (mv : Nat) (t : Word) (s : State) : Out :=
  let s := s.advance t
  match shedMv rail.val stage.val with
  | none => .next s
  | some lim =>
    if lim ≤ mv || !s.shepUp || !s.watched rail.val then .next s
    else
      let s := (s.railSample rail.val mv).engage stage.val rail.val mv 1
      .next (if rail.val = 5 then s.writeFlash else s)

/-- Shed-4 has been in force for 1 ms without interruption (R466). -/
def execShed5Delay (t : Word) (s : State) : Out :=
  let s := s.advance t
  match s.shep.dip, s.shep.shed4At with
  | some d, some t4 =>
    if s.shed 4 && 1000000 ≤ (s.tb - t4).toNat then .next (s.engage 5 d.rail d.minMv 0) else .next s
  | _, _ => .next s

/-- The record of a dip that has ended (R468, Table PWR-9). -/
def State.dipOver (s : State) (d : Dip) : State :=
  let last := d.minMv % 2 ^ 16 + d.stages.toNat * 2 ^ 16
    + ((s.tb - d.start).toNat / 1000) % 2 ^ 32 * 2 ^ 32
  let s := (s.cpSet64 (pwrAddr 0x30) (BitVec.ofNat 64 last)).count16 (pwrAddr 0x38) 1
  let s := s.modShep fun x => { x with dip := none }
  s.ownRecord 0x58 shepStation.toNat (if d.stages.toNat < 4 then 1 else 2) d.rail (some last) (some d.count)

/-- A stage lifts once its rails have held for 2 ms and no stage above it is in force; its actions are undone
(R467). -/
def execShedLift (stage : Fin 6) (t : Word) (s : State) : Out :=
  let s := s.advance t
  let n := stage.val
  if n = 0 || !s.shed n || (List.range 6).any fun k => n < k && s.shed k then .next s
  else
    let s := s.cpSetField (pwrAddr 0) (7 + n) 1 0
    let s := match n with
      | 1 => s
      | 2 => ({ s with shed2 := false } : State).admitAll
      | 3 => s.shedCores
      | 4 => (if s.cpField (pwrAddr 0) 0 3 = 2 then s else s.widen).modShep fun x => { x with shed4At := none }
      | _ => s.settleStacks.guarantees
    match n, s.shep.dip with
    | 1, some d => .next (s.dipOver d)
    | _, _ => .next s

/-! Power domains (R326 to R328, R470 to R472). -/

/-- The logical cores that run on slots of a domain. -/
def State.lcsOfDomain (s : State) (k : Nat) : List LC :=
  (List.finRange 216).filter fun lc => match s.placeOf lc with
    | some p => k < 48 && k % 4 < 2 && p / 20 = k / 4 && p % 20 / 10 = k % 4
    | none => false

/-- Whether a valid region of a checker admits a world. -/
def State.admitsWorld (s : State) (st : Station) (n : Nat) (world : Bool) : Bool :=
  (List.range n).any fun r =>
    let c := s.cpGet (cpAddr st (0x1000 + 16 * r))
    bit c 0 && bit c (if world then 4 else 5)

/-- Whether an owner record assigns its unit to a world. -/
def State.assignedTo (s : State) (a : Nat) (world : Bool) : Bool :=
  let o := s.cpGet a
  bit o 10 && bit o 9 == world

/-- Whether a domain is marked as used by a world (R326, R328). DEDUCED: message sources belong to the domain of the die's
Prism port, through which their distributor is reached. -/
def State.usedBy (s : State) (k : Nat) (world : Bool) : Bool :=
  if h : k < 48 then
    let d : Die := ⟨k / 4, by omega⟩
    if k % 4 < 2 then
      (s.lcsOfDomain k).any fun lc => SMap.get none s.shep.lcMarks lc.val == some world
    else if k % 4 = 2 then s.admitsWorld (dcsStation d) 16 world
    else (List.range 896).any fun i => s.assignedTo (cpAddr (intdStation d) (0x2000 + 4 * (128 + i))) world
  else if h : 52 ≤ k ∧ k < 56 then s.admitsWorld (mcStation ⟨k - 52, by omega⟩) 32 world
  else if k = 57 || k = 58 || k = 59 || k = 62 then world
  else if k = 60 then (List.range 44).any fun i => s.assignedTo (cpAddr (loupeStation i) 0x100) world
  else if k = 61 then
    ((List.range 1025).any fun f => s.assignedTo (foldAddr (0x80000 + 4 * f)) world)
      || (List.range 4).any fun c => s.assignedTo (cpAddr (ceStation c) 0x100) world
  else false

/-- The laser that R263 has retired: after a switch, the one that does not feed the trees. -/
def State.retiredLaser (s : State) (l : Nat) : Bool :=
  l ≠ s.feeding && s.cpField (lsrAddr 0) 8 8 ≠ 0

/-- Whether a request names what R471 refuses with BAD_PARAM: 0 on, 1 off, 2 stop clock, 3 start clock. -/
def State.badDomain (s : State) (k what : Nat) : Bool :=
  let on := fun (j : Nat) => s.domState j ≠ 1
  let die := k / 4 * 4
  if 63 ≤ k || (what = 1 && (k = 62 || (48 ≤ k && k < 56))) then true
  else if 2 ≤ what then !((52 ≤ k && k < 56) || k = 56 || k = 57)
  else if k < 48 then
    match k % 4, what with
    | 2, 1 => on die || on (die + 1)
    | 3, 1 => on die || on (die + 1) || on (die + 2)
    | 2, _ => !on (die + 3)
    | 3, _ => false
    | _, 0 => !on (die + 2) || !on (die + 3)
    | _, _ => false
  else if k = 58 || k = 59 then
    if what = 1 then k - 58 = s.feeding else s.retiredLaser (k - 58)
  else false

/-- Whether a core of a domain keeps it from being powered off: it belongs to a running partition, or hosts M
firmware. -/
def State.domainBusy (s : State) (k : Nat) : Bool :=
  (s.lcsOfDomain k).any fun lc => s.shep.mLc == some lc
    || (s.partOf lc).any fun p => (s.part p.toNat).any fun x => x.st = 1

/-- A die cache is cleaned and invalidated in full and its scratch lost; none where it must wait. -/
def State.dieCacheOff (s : State) (d : Die) : Option State :=
  if (s.die d).rme.busy || !((s.die d).evb.isEmpty) then none
  else
    ((s.die d).secs.foldl (fun (o : Option State) e => o.bind fun s => s.flushWay d e.1) (some s)).map
      fun s =>
        let s : State := { s with
          mem := s.mem.filter fun e => !(targetOf e.1 == Target.scratch && scratchDie e.1 == d)
          poisWord := s.poisWord.filter fun e => !(scratchDie (8 * e.1) == d) }
        s.modDie d fun x => { x with secs := [], plru := [] }

/-- Dirty contexts and cached log lines of the Fold are written back; none where a line is busy. -/
def State.foldWriteBack (s : State) : Option State :=
  let s := s.fold.log.foldl (fun (o : Option State) w => o.bind fun s => s.logFlushLine w) (some s)
  let s := s.bind fun s => s.fold.cache.foldl (fun (o : Option State) e => o.bind fun s => match e.2 with
    | some w => if w.dirty then
        match s.hubWrite foldStation true 0 (s.ctxLine e.1) w.ctx fullMask with
        | .ok _ s => some s
        | .busy => none
        | .refuse s => some s
        | .poison s => some s
      else some s
    | none => some s) (some s)
  s.map fun s => s.modFold fun f => { f with cache := [], log := [] }

/-- A domain is drained and what it holds is lost (R472); none where the drain must wait. -/
def State.drainDomain (s : State) (k : Nat) : Option State :=
  if h : k < 48 then
    let d : Die := ⟨k / 4, by omega⟩
    if k % 4 < 2 then
      let l := s.lcsOfDomain k
      if l.all fun lc => (s.core lc).drained then some (l.foldl State.coreReset s) else none
    else if k % 4 = 2 then s.dieCacheOff d
    else
      let s := (s.setPortState ⟨d, true⟩ 0).setPortState ⟨d, false⟩ 0
      some (s.modDie d fun x => { x with intd := {}, rme := {} })
  else if k = 56 then some s.linkDown
  else if k = 57 then some (s.cpSetField (mirAddr 0x004) 4 1 0)
  else if k = 58 || k = 59 then some (s.cpSetField (lsrAddr 0) (1 + (k - 58)) 1 0)
  else if k = 60 then
    let s := (List.range 44).foldl State.lpHandOver s
    some { s with trace := [] }
  else if k = 61 then
    if !s.fold.ops.isEmpty || !s.fold.ready.isEmpty then none
    else
      let ce := fun (st : Station) => (List.range 4).any fun c => ceStation c == st
      let held := s.regHeld.filter fun x => ce x.2.src
      let s := held.foldl (fun s x => s.proxy x.2) { s with regHeld := s.regHeld.filter fun x => !ce x.2.src }
      s.foldWriteBack
  else some s

/-- A domain is off: its stations hold nothing any more. -/
def State.domainOff (s : State) (k : Nat) : Option State :=
  if s.domState k = 1 then some s
  else (s.drainDomain k).map fun s =>
    let s := s.setDom k 1
    if k < 48 && k % 4 < 2 then s.rebuildLists else s

/-- A domain comes up: the registers of its stations are at reset and take their committed entries; a Prism
port is brought up, a laser starts to warm (R411, R472). -/
def State.domainOn (s : State) (k : Nat) : State :=
  if s.domState k ≠ 1 then s
  else
    let mine := fun (a : Nat) => domainOf (cpStation a) == some k && a ≠ pcieAddr 0
    let s : State := { s with cp := s.cp.filter fun e => !mine e.1 || repairReg e.1 || e.1 % 2 ^ 20 == 0xFF014 }
    let s := s.withEntries ((storeEntriesOf s.shep.store).filter fun e => mine e.1)
    let s := s.setDom k 0
    if h : k < 48 then
      if k % 4 = 3 then s.bringUp ⟨k / 4, by omega⟩ else if k % 4 < 2 then s.rebuildLists else s
    else if k = 58 || k = 59 then
      ({ s with laserWait := true } : State).cpSetField (lsrAddr 0) (1 + (k - 58)) 1 1
    else s

/-- A domain's reference clock stops or starts: a stack's commanded self-refresh, or a link held down. -/
def State.domainClock (s : State) (k : Nat) (stop : Bool) : State :=
  if s.domState k = 1 then s
  else
    let s := s.setDom k (if stop then 2 else 0)
    if 52 ≤ k && k < 56 then s.settleStacks.guarantees
    else if !stop then s
    else if k = 56 then (if s.dlUp then s.linkDown else s)
    else s.cpSetField (mirAddr 0x004) 4 1 0

/-- POWER_DOMAIN (R471, R472). Held back while Shed-3 or deeper is in force (R486). A domain that is off and in use by
the secure world stays off until M powers it on (R328); DEDUCED: another issuer is refused as R327 says (log entry
147). -/
def execPowerDomain (r : ShepReq) (s : State) : Out :=
  s.shepRun { op := 0x0400, a := false, words := some 1 } r fun r s =>
    let k := field (param r 0) 0 8
    let what := field (param r 0) 8 2
    if s.shed 3 then .wait
    else if !isM r && (((what = 1 || what = 2) && s.usedBy k (!worldOf r))
        || (what = 0 && s.domState k = 1 && s.usedBy k true)) then
      .status 0x48 ((s.raiseHub shepStation 43).event true {
        code := 0x0030, subj := BitVec.ofNat 8 k
        arg := BitVec.ofNat 32 (r.pid.toNat + 2 ^ 8 * b2n (worldOf r)) })
    else if 2 ^ 10 ≤ (param r 0).toNat || s.badDomain k what then .status 0x03 s
    else if what = 1 && s.domainBusy k then .status 0x53 s
    else if k = 57 && (what = 1 || what = 2) && s.mirState ≠ 0 then .status 0x68 s
    else match what with
      | 0 => .ok (s.domainOn k)
      | 1 => match s.domainOff k with
        | some s => .ok s
        | none => .wait
      | 2 => .ok (s.domainClock k true)
      | _ => .ok (s.domainClock k false)

/-! Power states (R473 to R476). -/

/-- PWR_STATE.STATE. -/
def State.powerState (s : State) : Nat := s.cpField (pwrAddr 0) 0 3

/-- PWR_STATE.TRANSIT. -/
def State.inTransit (s : State) : Bool := s.cpField (pwrAddr 0) 3 1 = 1

/-- The domain states are kept for the exit. -/
def State.saveDoms (s : State) : State :=
  let m := (List.range 4).foldl (fun m i => SMap.set 0 m i (s.cpGet (pwrAddr (0x60 + 4 * i)))) []
  s.modShep fun x => { x with domsBefore := m }

/-- P2 is reached (R474): what a core's checkpoint does not hold is lost, the stacks sleep, links are narrow,
clusters off. DEDUCED: locked translations stay, as in a live swap, since P2 is only a pause to software. -/
def State.intoP2 (s : State) : State :=
  let s := (List.finRange 216).foldl (fun s lc => (s.emptyL1 lc).modCore lc Core.carried) s
  let s := s.saveDoms.narrowAll.wakePcs
  let s := (List.range 24).foldl (fun (s : State) i => s.setDom (4 * (i / 2) + i % 2) 1) s
  ((s.cpSetField (pwrAddr 0) 0 3 2).cpSetField (pwrAddr 0) 3 1 0).settleStacks.guarantees.traceGap

/-- Every die cache is written back; none where a line is busy. -/
def State.cachesBack (s : State) : Option State :=
  (List.finRange 12).foldl (fun (o : Option State) d => o.bind fun s =>
    if (s.die d).rme.busy || !((s.die d).evb.isEmpty) then none
    else (s.die d).secs.foldl (fun (o : Option State) e => o.bind fun s => s.flushWay d e.1) (some s)) (some s)

/-- P3 is reached (R475): memory-side caches flushed, Keep entered, the store written to flash, every domain but
the controllers' off, debug sessions closed (R510). None where a line is busy. -/
def State.intoP3 (s : State) : Option State :=
  (s.cachesBack.bind State.foldWriteBack).map fun s =>
    let s := (List.finRange 4).foldl (fun (s : State) q =>
      (s.keepEnter q).modHome q fun h => { h with msc := {} }) s
    let s := ((s.closeSession false).closeSession true).writeFlash.saveDoms
    let s := (s.linkDown.cpSetField (mirAddr 0x004) 4 1 0).cpSetField (lsrAddr 0) 1 2 0
    let s : State := ((List.range 52) ++ [56, 57, 58, 59, 60, 61]).foldl (fun (s : State) k => s.setDom k 1) s
    let s := s.modShep fun x => { x with quiet := false, sleepReq := none, narrowed := [] }
    let s := (s.cpSetField (pwrAddr 0) 0 3 3).cpSetField (pwrAddr 0) 3 1 0
    { s with devReady := false }

/-- Whether every line of a group's contexts lies in banks that Keep retains. -/
def State.groupKept (s : State) (f : Nat) : Bool :=
  (List.range (s.qCount f)).all fun k =>
    let a := 64 * s.ctxLine (s.qBase f + k)
    !((s.mc (quadOf a)).lost (quadOf a) a)

/-- P3 is left: domains on, Keep exit, and a domain restart that the Shepherd then runs. GGEN of a group whose
contexts are lost is 0 after it (Table PWR-6), so that here it stands one below. -/
def State.leaveP3 (s : State) : State :=
  let gone := (List.range 1025).filter fun f => !s.groupKept f
  let s := gone.foldl (fun s f => s.cpSetField (foldAddr (0x20000 + 4 * f)) 0 8 0xFF) s
  let s := (List.finRange 4).foldl State.keepLeave s.domsBack
  let s := s.cpSetField (lsrAddr 0) (1 + s.feeding) 1 1
  let s := if s.domState (58 + (1 - s.feeding)) = 0 && !s.retiredLaser (1 - s.feeding) then
      ({ s with laserWait := true } : State).cpSetField (lsrAddr 0) (2 - s.feeding) 1 1
    else s
  let s := (s.cfgClearAll.cpSetField (pwrAddr 0) 0 3 0).modShep fun x => { x with wakeKept := false }
  { s with restarting := true }

/-- A wake event ends P2 or P3; during entry it is kept (R476). -/
def State.wakeUp (s : State) : State :=
  if s.inTransit then s.modShep fun x => { x with wakeKept := true }
  else if s.powerState = 2 then s.leaveSleep
  else if s.powerState = 3 then s.leaveP3
  else s

/-- The state asked for is reached; a wake event that was kept ends it at once. -/
def State.asleep (s : State) : State := if s.shep.wakeKept then s.wakeUp else s

/-- POWER_STATE (R473). Entry into P2 or P3 takes the command twice: its first step halts every core, and it is
carried out when all have come to rest. -/
def execPowerState (r : ShepReq) (s0 : State) : Out :=
  s0.shepRun { op := 0x0401, a := false, n := false, sec := false, words := some 1 } r fun r s =>
    let n := (param r 0).toNat
    if n = 0 || 3 < n then .status 0x03 s
    else if s.shed 3 then .wait
    else if n = 1 then
      if 2 ≤ s.powerState || s.inTransit then .wait
      else
        let q := !s.shep.quiet
        let s := ((s.modShep fun x => { x with quiet := q }).cpSetField (pwrAddr 0) 0 3 (b2n q)).wakePcs
        .ok (if q then s.forfeit.traceGap else s)
    else if s.mirState = 1 || s.mirState = 2 then .status 0x68 s
    else if !s.inTransit then
      if 2 ≤ s.powerState then .wait
      else .later ((s0.haltWhere .power fun _ => true).cpSetField (pwrAddr 0) 3 1 1)
    else if !(List.finRange 216).all (fun lc => (s.core lc).drained) then .wait
    else if n = 2 then .later ((s.modShep fun x => { x with sleepReq := some r }).intoP2.asleep)
    else match s.intoP3 with
      | some s => .later s.asleep
      | none => .wait

/-- Whether a wake event of a kind is present and enabled (R476, Table PWR-9): 0 a GPIO level, 1 SCNT_ALARM, 2
CII_DEADLINE, 3 a write to BAR0, 4 PERST_N rising, 5 SAFE_N low. -/
def State.wakes (s : State) (ev : Nat) : Bool :=
  let hi := fun (i : Nat) => s.cpField (pwrAddr 0x44) i 1 = 1
  match ev with
  | 0 => (List.range 32).any fun g =>
      s.cpField (pwrAddr 0x40) g 1 = 1 && (s.gpio g).pin != (s.gpio g).pol
  | 1 => hi 0 && s.stValid && s.stAlarm ≠ 0 && s.stAlarm ≤ s.stNow
  | 2 => hi 1 && s.powerState ≠ 3 && (List.finRange 216).any fun lc =>
      let x := (s.core lc).cii
      x.deadline ≠ 0 && x.deadline ≤ s.tb
  | 3 => hi 2 && s.powerState ≠ 3
  | 4 => hi 3 && s.powerState ≠ 2 && !s.perst
  | 5 => s.shep.safeIn
  | _ => false

/-- A wake event. -/
def execWake (ev : BitVec 4) (s : State) : Out := .next (if s.wakes ev.toNat then s.wakeUp else s)

/-! Events that wake (R476). -/

/-- A wake event of a kind has come: where it is enabled the device wakes. -/
def State.wokenBy (s : State) (ev : Nat) : State := if s.wakes ev then s.wakeUp else s

/-- An inbound posted memory write. One to a BAR0 that port A serves wakes the device from P2. -/
def execMemoryWrite (t : Tlp) (s : State) : Out :=
  let hit := s.hostOpen && match s.barOf t.addr.toNat with
    | some (f, false, _) => s.memOn f
    | _ => false
  let s := s.memoryTlp { t with write := true }
  .next (if hit then s.wokenBy 3 else s)

/-- A write by the host to a register of the Fold in BAR0, which wakes the device from P2. -/
def State.bar0Woken (s : State) (f : Func) (off : Nat) (v : Word32) : State :=
  let hit := s.hostOpen && s.fnOn f && s.memOn f
  let s := s.hostBar0 f off v
  if hit then s.wokenBy 3 else s

/-- A host SQ tail doorbell of local queue `k` of a function. -/
def execSqTailDoorbell (fn : Func) (k : BitVec 14) (v : Word32) (s : State) : Out :=
  .next (s.bar0Woken fn (doorbellBase fn + 8 * k.toNat) v)
/-- A host CQ head doorbell. -/
def execCqHeadDoorbell (fn : Func) (k : BitVec 14) (v : Word32) (s : State) : Out :=
  .next (s.bar0Woken fn (doorbellBase fn + 8 * k.toNat + 4) v)
/-- A host write of AQ_CFG. -/
def execAqCfgWrite (w : Word32) (s : State) : Out := .next (s.bar0Woken pf 0x10 w)
/-- The host's admin SQ tail doorbell. -/
def execAdminSqDoorbell (v : Word32) (s : State) : Out := .next (s.bar0Woken pf 0x1000 v)
/-- The host's admin CQ head doorbell. -/
def execAdminCqDoorbell (v : Word32) (s : State) : Out := .next (s.bar0Woken pf 0x1004 v)

/-- TB_NOW reaches a value; the DEADLINE source of a core is asserted from then on where its
CII_DEADLINE is not later (Table INT-1), which wakes the device from P2. -/
def execDeadline (_lc : LC) (t : Word) (s : State) : Out := .next ((s.advance t).wokenBy 2)

/-- Secure time reaches ST_ALARM: the alarm's source is raised, once for a value of ST_ALARM (R334), and the device
wakes. -/
def execScntAlarm (s : State) : Out :=
  if s.stValid && s.stAlarm ≠ 0 && !s.stAlarmed && s.stAlarm.toNat ≤ s.stNow.toNat then
    .next ((({ s with stAlarmed := true } : State).raiseHub shepStation 56).wokenBy 1)
  else .next s

/-! Pins. -/

/-- SAFE_N is seen low for 1 us, or high again (R441, R476). -/
def execSafeN (level : Bool) (s : State) : Out :=
  .next ((if level || s.shep.safeIn then s else s.wakeUp).safePin level)

/-- A GPIO pin changes; one that the AZ216 drives follows OUT (R476, R522). -/
def execGpioPinChange (pin : Fin 32) (level : Bool) (s : State) : Out :=
  let x := s.gpio pin.val
  if x.oe then .next s
  else
    let s := s.setGpio pin.val { x with pin := level }
    .next (if s.cpField (pwrAddr 0x40) pin.val 1 = 1 && level != x.pol then s.wakeUp else s)

/-- What PERST_N resets (Table PCIE-8, R377): link and configuration space, the freeze, every queue, GGEN and the
admin-queue registers. -/
def State.perstReset (s : State) : State :=
  let s := s.linkDown.cpSetField (pcieAddr 0x00C) 0 1 0
  if s.isOff foldStation then s
  else s.resetAllQueues.modAq fun _ => {}

/-- PERST_N goes low or high. -/
def execPerstN (level : Bool) (s : State) : Out :=
  let was := s.perst
  let s := s.cpSetField (pcieAddr 0) 9 1 (b2n !level)
  if !level && !was then .next (if s.isOff portAStation then s else s.perstReset)
  else if level && was && s.wakes 4 then .next s.wakeUp
  else .next s

/-- A sensor reads `temp` degrees: at 120 THERMTRIP_N goes low until VAUX is lost (R524). -/
def execThermtrip (temp : BitVec 8) (s : State) : Out :=
  if 120 ≤ temp.toInt && !s.shep.vauxOff then .next (s.modShep fun x => { x with thermtrip := true })
  else .next s

/-! PMBus (R465, R521). -/

/-- SUPPLY records of SEV 1 naming rails. -/
def State.railRecords (s : State) (l : List Nat) : State :=
  l.foldl (fun s r => s.ownRecord 0x58 shepStation.toNat 1 r) s

/-- The regulators are read: voltage, current and temperature of each rail in turn; one that does not answer
leaves a record. -/
def execPmbusPoll (readings : List Nat) (s : State) : Out :=
  if !s.shepUp then .next s
  else
    let s := s.modShep fun x => { x with pmbus := readings }
    .next (s.railRecords ((List.range 6).filter fun r => readings.length < 3 * (r + 1)))

/-- PMB_ALERT_N goes low: STATUS_WORD of each regulator; an alert, or no answer, leaves a record. -/
def execPmbAlert (status : List (BitVec 16)) (s : State) : Out :=
  if !s.shepUp then .next s
  else .next (s.railRecords ((List.range 6).filter fun r => status[r]? ≠ some 0))

end Sys2Proof.Machine
end

