-- ==== Sys2Proof/Machine/VectorAlu.lean ====
section
/-!
DEFINITION. What each vector operation computes from its source registers: elements (Table ISA-1),
masks (R105), integer operations (R104), floating-point operations (R106) and moves (R108). Timing
and writing back are elsewhere.
-/

namespace Sys2Proof.Machine

/-- The element size in bits that an et field gives (R90). -/
def etBits (et : BitVec 2) : Nat :=
  if et = 0 then 64 else if et = 1 then 32 else if et = 2 then 16 else 8

/-- Element `i` of element size `e`: bits [e(i+1)-1 : e*i] (Table ISA-1). -/
def elem (e : Nat) (v : Line) (i : Nat) : Nat := (v.toNat >>> (e * i)) % 2 ^ e

/-- A register made of elements of `e` bits, element 0 first. -/
def packElems (e : Nat) : List Nat → Nat
  | [] => 0
  | x :: t => x % 2 ^ e + 2 ^ e * packElems e t

/-- The `512 / e` elements of a register. -/
def elems (e : Nat) (v : Line) : List Nat := (List.range (512 / e)).map (elem e v)

/-- A predicate register made of bits, bit 0 first; bits above are 0 (R85). -/
def packBits : List Bool → Nat
  | [] => 0
  | b :: t => b2n b + 2 * packBits t

/-- What a mask leaves in the operation: every element without one (R105). -/
def active (mask : Option Word) (i : Nat) : Bool :=
  match mask with
  | none => true
  | some p => bit p i

/-- A vector result, element by element, with the flags it raises; a masked element keeps its old
value in vd and raises no flag (R105). -/
def mapElems (e : Nat) (mask : Option Word) (old : Line) (f : Nat → Nat × VFlags) :
    Line × VFlags :=
  let r := (List.range (512 / e)).map fun i =>
    if active mask i then f i else (elem e old i, 0)
  (BitVec.ofNat 512 (packElems e (r.map (·.1))), joinFlags (r.map (·.2)))

/-- A compare, bit by bit; a masked element's bit is 0 (R105). -/
def mapBits (e : Nat) (mask : Option Word) (f : Nat → Bool × VFlags) : Word × VFlags :=
  let r := (List.range (512 / e)).map fun i => if active mask i then f i else (false, 0)
  (BitVec.ofNat 64 (packBits (r.map (·.1))), joinFlags (r.map (·.2)))

/-- Integer operations of Table ISA-12 on two elements of `e` bits, modulo 2^e. -/
inductive VIntOp where
  | add | sub | min | max | sll | srl | sra
  deriving DecidableEq, Repr

/-- One element of an integer operation (R104). -/
def vintElem (op : VIntOp) (e a b : Nat) : Nat :=
  match op with
  | .add => (a + b) % 2 ^ e
  | .sub => (a + 2 ^ e - b) % 2 ^ e
  | .min => if signed e a < signed e b then a else b
  | .max => if signed e a < signed e b then b else a
  | .sll => (a <<< (b % e)) % 2 ^ e
  | .srl => a >>> (b % e)
  | .sra => ((BitVec.ofNat e a).sshiftRight (b % e)).toNat

/-- VADD, VSUB, VMIN, VMAX, VSLL, VSRL, VSRA. -/
def vint (op : VIntOp) (e : Nat) (mask : Option Word) (a b old : Line) : Line × VFlags :=
  mapElems e mask old fun i => (vintElem op e (elem e a i) (elem e b i), 0)

/-- VCMPEQ and VCMPLT (signed). -/
def vcmp (lt : Bool) (e : Nat) (mask : Option Word) (a b : Line) : Word × VFlags :=
  mapBits e mask fun i =>
    (if lt then signed e (elem e a i) < signed e (elem e b i) else elem e a i == elem e b i, 0)

/-- The floating-point format that et 0b00 and 0b01 select (Table ISA-12). -/
def fmtOf (et : BitVec 2) : Fmt := if et = 0 then f64 else f32

/-- A floating-point operation of two operands, element by element. -/
def vfp2 (op : Fmt → VCtl → Nat → Nat → Nat × VFlags) (et : BitVec 2) (c : VCtl)
    (mask : Option Word) (a b old : Line) : Line × VFlags :=
  let e := etBits et
  mapElems e mask old fun i => op (fmtOf et) c (elem e a i) (elem e b i)

/-- VFMA: va times vb plus vd. -/
def vfma (et : BitVec 2) (c : VCtl) (mask : Option Word) (a b d : Line) : Line × VFlags :=
  let e := etBits et
  mapElems e mask d fun i => ffma (fmtOf et) c (elem e a i) (elem e b i) (elem e d i)

/-- VFSQRT. -/
def vfsqrt (et : BitVec 2) (c : VCtl) (mask : Option Word) (a old : Line) : Line × VFlags :=
  let e := etBits et
  mapElems e mask old fun i => fsqrt (fmtOf et) c (elem e a i)

/-- VFCMPLT and VFCMPEQ. -/
def vfcmp (op : Fmt → VCtl → Nat → Nat → Bool × VFlags) (et : BitVec 2) (c : VCtl)
    (mask : Option Word) (a b : Line) : Word × VFlags :=
  let e := etBits et
  mapBits e mask fun i => op (fmtOf et) c (elem e a i) (elem e b i)

/-- VRSUM: the tree sum in element 0, 0 elsewhere; a masked element enters as +0.0 (R105). -/
def vrsum (et : BitVec 2) (c : VCtl) (mask : Option Word) (a : Line) : Line × VFlags :=
  let e := etBits et
  let l := (List.range (512 / e)).map fun i => if active mask i then elem e a i else 0
  let r := treeSum (fmtOf et) c (if et = 0 then 3 else 4) l
  (BitVec.ofNat 512 r.1, r.2)

/-- A conversion of `n` elements of `e` bits into elements of `g` bits, the rest 0 (Table ISA-13). -/
def vconv (e g n : Nat) (f : Nat → Nat × VFlags) (a : Line) : Line × VFlags :=
  let r := (List.range n).map fun i => f (elem e a i)
  (BitVec.ofNat 512 (packElems g (r.map (·.1))), joinFlags (r.map (·.2)))

/-- VDOT2.BF16: lane i plus two exact bf16 products, one rounding (R106). -/
def vdot2bf16 (c : VCtl) (mask : Option Word) (a b acc : Line) : Line × VFlags :=
  let u := fun (v : Line) (i : Nat) => FVal.unpack bf16 c (elem 16 v i)
  mapElems 32 mask acc fun i =>
    fdot f32 c (.unpack f32 c (elem 32 acc i))
      [(u a (2 * i), u b (2 * i)), (u a (2 * i + 1), u b (2 * i + 1))]

/-- VDOT4.I8 and VDOT4.U8S8: lane i plus four products of 8-bit elements, modulo 2^32. -/
def vdot4 (ua : Bool) (mask : Option Word) (a b acc : Line) : Line × VFlags :=
  let av := fun i => if ua then (elem 8 a i : Int) else signed 8 (elem 8 a i)
  let bv := fun i => signed 8 (elem 8 b i)
  mapElems 32 mask acc fun i =>
    let s := (elem 32 acc i : Int) + ((List.range 4).map fun j => av (4 * i + j) * bv (4 * i + j)).sum
    ((s % 2 ^ 32).toNat, 0)

/-- VMOVV: 64-bit element k of vd replaced (R108). -/
def vmovv (old : Line) (k : BitVec 3) (x : Word) : Line :=
  setField old (64 * k.toNat) 64 x.toNat

/-- VBCAST: every element is the low e bits of ga (R108). -/
def vbcast (et : BitVec 2) (x : Word) : Line :=
  let e := etBits et
  BitVec.ofNat 512 (packElems e ((List.range (512 / e)).map fun _ => x.toNat))

end Sys2Proof.Machine
end

