-- ==== Sys2Proof/Machine/Vector.lean ====
section
/-!
DEFINITION. Vector arithmetic, moves and predicate operations (Tables ISA-12, ISA-13, ISA-15; R102 to R108).
-/

namespace Sys2Proof.Machine

/-- Elements of an integer operation, whose destination keeps masked elements. -/
def vintForm (lc : LC) (op : VIntOp) (vfn : Nat) (vd va vb : Reg) (m : Option PReg) (et : BitVec 2)
    (s : State) : Out :=
  s.vec lc (encV 0x30 vd va vb m et vfn) true 1 2
    ([vIdx va, vIdx vb] ++ maskReads m ++ if m.isSome then [vIdx vd] else []) (vIdx vd)
    fun c => vint op (etBits et) (maskVal c m) (c.getV va) (c.getV vb) (c.getV vd)

/-- A bitwise operation on 512 bits. -/
def vbitForm (lc : LC) (vfn : Nat) (vd va vb : Reg) (f : Line → Line → Line) (s : State) : Out :=
  s.vec lc (encV 0x30 vd va vb none 0 vfn) true 1 2 [vIdx va, vIdx vb] (vIdx vd)
    fun c => (f (c.getV va) (c.getV vb), 0)

/-- A compare to a predicate register. -/
def vcmpForm (lc : LC) (vfn : Nat) (legal : Bool) (pd : PReg) (va vb : Reg) (m : Option PReg)
    (et : BitVec 2) (f : Core → Word × VFlags) (s : State) : Out :=
  s.vec lc (encV 0x30 (pd.zeroExtend 5) va vb m et vfn) legal 1 2
    ([vIdx va, vIdx vb] ++ maskReads m) (pIdx pd)
    fun c => let r := f c; (r.1.zeroExtend 512, r.2)

/-- Whether et names fp64 or fp32 (Table ISA-12). -/
def fpEt (et : BitVec 2) : Bool := et.toNat ≤ 1

/-- A floating-point operation of two operands. -/
def vfpForm (lc : LC) (vfn occ dist : Nat) (op : Fmt → VCtl → Nat → Nat → Nat × VFlags)
    (vd va vb : Reg) (m : Option PReg) (et : BitVec 2) (s : State) : Out :=
  s.vec lc (encV 0x30 vd va vb m et vfn) (fpEt et) occ dist
    ([vIdx va, vIdx vb] ++ maskReads m ++ if m.isSome then [vIdx vd] else []) (vIdx vd)
    fun c => vfp2 op et (VCtl.of c.vctl) (maskVal c m) (c.getV va) (c.getV vb) (c.getV vd)

/-- A dot product, whose vd is accumulator and destination. -/
def vdotForm (lc : LC) (vfn : Nat) (vd va vb : Reg) (m : Option PReg)
    (f : Core → Option Word → Line × VFlags) (s : State) : Out :=
  s.vec lc (encV 0x30 vd va vb m 1 vfn) true 1 4 ([vIdx va, vIdx vb, vIdx vd] ++ maskReads m)
    (vIdx vd) fun c => f c (maskVal c m)

/-- A conversion of Table ISA-13. -/
def vcvtForm (lc : LC) (sel : Reg) (vd va : Reg) (e g n : Nat) (f : VCtl → Nat → Nat × VFlags)
    (s : State) : Out :=
  s.vec lc (encV 0x30 vd va sel none 0 0x1B) true 1 4 [vIdx va] (vIdx vd)
    fun c => vconv e g n (f (VCtl.of c.vctl)) (c.getV va)

/-- Beats by et of VFDIV and VFSQRT: 12 and 14 for fp32, 20 and 22 for fp64. -/
def divBeats (et : BitVec 2) : Nat × Nat := if et = 0 then (20, 22) else (12, 14)

/-- VADD. -/
def execVadd (lc : LC) (vd va vb : Reg) (m : Option PReg) (et : BitVec 2) (s : State) : Out :=
  vintForm lc .add 0x00 vd va vb m et s

/-- VSUB. -/
def execVsub (lc : LC) (vd va vb : Reg) (m : Option PReg) (et : BitVec 2) (s : State) : Out :=
  vintForm lc .sub 0x01 vd va vb m et s

/-- VAND. -/
def execVand (lc : LC) (vd va vb : Reg) (s : State) : Out :=
  vbitForm lc 0x02 vd va vb (· &&& ·) s

/-- VOR. -/
def execVor (lc : LC) (vd va vb : Reg) (s : State) : Out :=
  vbitForm lc 0x03 vd va vb (· ||| ·) s

/-- VXOR. -/
def execVxor (lc : LC) (vd va vb : Reg) (s : State) : Out :=
  vbitForm lc 0x04 vd va vb (· ^^^ ·) s

/-- VMIN. -/
def execVmin (lc : LC) (vd va vb : Reg) (m : Option PReg) (et : BitVec 2) (s : State) : Out :=
  vintForm lc .min 0x05 vd va vb m et s

/-- VMAX. -/
def execVmax (lc : LC) (vd va vb : Reg) (m : Option PReg) (et : BitVec 2) (s : State) : Out :=
  vintForm lc .max 0x06 vd va vb m et s

/-- VSLL. -/
def execVsll (lc : LC) (vd va vb : Reg) (m : Option PReg) (et : BitVec 2) (s : State) : Out :=
  vintForm lc .sll 0x07 vd va vb m et s

/-- VSRL. -/
def execVsrl (lc : LC) (vd va vb : Reg) (m : Option PReg) (et : BitVec 2) (s : State) : Out :=
  vintForm lc .srl 0x08 vd va vb m et s

/-- VSRA. -/
def execVsra (lc : LC) (vd va vb : Reg) (m : Option PReg) (et : BitVec 2) (s : State) : Out :=
  vintForm lc .sra 0x09 vd va vb m et s

/-- VCMPEQ. -/
def execVcmpeq (lc : LC) (pd : PReg) (va vb : Reg) (m : Option PReg) (et : BitVec 2) (s : State) : Out :=
  vcmpForm lc 0x0A true pd va vb m et
    (fun c => vcmp false (etBits et) (maskVal c m) (c.getV va) (c.getV vb)) s

/-- VCMPLT. -/
def execVcmplt (lc : LC) (pd : PReg) (va vb : Reg) (m : Option PReg) (et : BitVec 2) (s : State) : Out :=
  vcmpForm lc 0x0B true pd va vb m et
    (fun c => vcmp true (etBits et) (maskVal c m) (c.getV va) (c.getV vb)) s

/-- VFADD. -/
def execVfadd (lc : LC) (vd va vb : Reg) (m : Option PReg) (et : BitVec 2) (s : State) : Out :=
  vfpForm lc 0x10 1 4 fadd vd va vb m et s

/-- VFSUB. -/
def execVfsub (lc : LC) (vd va vb : Reg) (m : Option PReg) (et : BitVec 2) (s : State) : Out :=
  vfpForm lc 0x11 1 4 fsub vd va vb m et s

/-- VFMUL. -/
def execVfmul (lc : LC) (vd va vb : Reg) (m : Option PReg) (et : BitVec 2) (s : State) : Out :=
  vfpForm lc 0x12 1 4 fmul vd va vb m et s

/-- VFMA: vd is va times vb plus vd, one rounding. -/
def execVfma (lc : LC) (vd va vb : Reg) (m : Option PReg) (et : BitVec 2) (s : State) : Out :=
  s.vec lc (encV 0x30 vd va vb m et 0x13) (fpEt et) 1 4
    ([vIdx va, vIdx vb, vIdx vd] ++ maskReads m) (vIdx vd)
    fun c => vfma et (VCtl.of c.vctl) (maskVal c m) (c.getV va) (c.getV vb) (c.getV vd)

/-- VFDIV. -/
def execVfdiv (lc : LC) (vd va vb : Reg) (m : Option PReg) (et : BitVec 2) (s : State) : Out :=
  vfpForm lc 0x14 (divBeats et).1 (divBeats et).2 fdiv vd va vb m et s

/-- VFSQRT. -/
def execVfsqrt (lc : LC) (vd va : Reg) (m : Option PReg) (et : BitVec 2) (s : State) : Out :=
  s.vec lc (encV 0x30 vd va 0 m et 0x15) (fpEt et) (divBeats et).1 (divBeats et).2
    ([vIdx va] ++ maskReads m ++ if m.isSome then [vIdx vd] else []) (vIdx vd)
    fun c => vfsqrt et (VCtl.of c.vctl) (maskVal c m) (c.getV va) (c.getV vd)

/-- VFMIN. -/
def execVfmin (lc : LC) (vd va vb : Reg) (m : Option PReg) (et : BitVec 2) (s : State) : Out :=
  vfpForm lc 0x16 1 2 (fun f c a b => fminmax f c false a b) vd va vb m et s

/-- VFMAX. -/
def execVfmax (lc : LC) (vd va vb : Reg) (m : Option PReg) (et : BitVec 2) (s : State) : Out :=
  vfpForm lc 0x17 1 2 (fun f c a b => fminmax f c true a b) vd va vb m et s

/-- VFCMPLT. -/
def execVfcmplt (lc : LC) (pd : PReg) (va vb : Reg) (m : Option PReg) (et : BitVec 2) (s : State) : Out :=
  vcmpForm lc 0x18 (fpEt et) pd va vb m et
    (fun c => vfcmp fcmplt et (VCtl.of c.vctl) (maskVal c m) (c.getV va) (c.getV vb)) s

/-- VFCMPEQ. -/
def execVfcmpeq (lc : LC) (pd : PReg) (va vb : Reg) (m : Option PReg) (et : BitVec 2) (s : State) : Out :=
  vcmpForm lc 0x19 (fpEt et) pd va vb m et
    (fun c => vfcmp fcmpeq et (VCtl.of c.vctl) (maskVal c m) (c.getV va) (c.getV vb)) s

/-- VRSUM. -/
def execVrsum (lc : LC) (vd va : Reg) (m : Option PReg) (et : BitVec 2) (s : State) : Out :=
  s.vec lc (encV 0x30 vd va 0 m et 0x1A) (fpEt et) 2 6 ([vIdx va] ++ maskReads m) (vIdx vd)
    fun c => vrsum et (VCtl.of c.vctl) (maskVal c m) (c.getV va)

/-- VCVT, vb = 0x00. -/
def execVcvtF32ToF64 (lc : LC) (vd va : Reg) (s : State) : Out :=
  vcvtForm lc 0 vd va 32 64 8 (fconv f32 f64) s

/-- VCVT, vb = 0x01. -/
def execVcvtF64ToF32 (lc : LC) (vd va : Reg) (s : State) : Out :=
  vcvtForm lc 1 vd va 64 32 8 (fconv f64 f32) s

/-- VCVT, vb = 0x02. -/
def execVcvtF32ToBf16 (lc : LC) (vd va : Reg) (s : State) : Out :=
  vcvtForm lc 2 vd va 32 16 16 (fconv f32 bf16) s

/-- VCVT, vb = 0x03. -/
def execVcvtBf16ToF32 (lc : LC) (vd va : Reg) (s : State) : Out :=
  vcvtForm lc 3 vd va 16 32 16 (fconv bf16 f32) s

/-- VCVT, vb = 0x04. -/
def execVcvtI32ToF32 (lc : LC) (vd va : Reg) (s : State) : Out :=
  vcvtForm lc 4 vd va 32 32 16 (i32ToF32) s

/-- VCVT, vb = 0x05. -/
def execVcvtF32ToI32 (lc : LC) (vd va : Reg) (s : State) : Out :=
  vcvtForm lc 5 vd va 32 32 16 (f32ToI32) s

/-- VDOT2.BF16. -/
def execVdot2Bf16 (lc : LC) (vd va vb : Reg) (m : Option PReg) (s : State) : Out :=
  vdotForm lc 0x1C vd va vb m
    (fun c p => vdot2bf16 (VCtl.of c.vctl) p (c.getV va) (c.getV vb) (c.getV vd)) s

/-- VDOT4.I8. -/
def execVdot4I8 (lc : LC) (vd va vb : Reg) (m : Option PReg) (s : State) : Out :=
  vdotForm lc 0x1D vd va vb m
    (fun c p => vdot4 false p (c.getV va) (c.getV vb) (c.getV vd)) s

/-- VDOT4.U8S8. -/
def execVdot4U8s8 (lc : LC) (vd va vb : Reg) (m : Option PReg) (s : State) : Out :=
  vdotForm lc 0x1E vd va vb m
    (fun c p => vdot4 true p (c.getV va) (c.getV vb) (c.getV vd)) s

/-- VMOVG: a 64-bit element to a g register, two beats after V starts it. -/
def execVmovg (lc : LC) (rd va : Reg) (k : BitVec 3) (s : State) : Out :=
  s.vec lc (encV 0x33 rd va (k.zeroExtend 5) none 0 0x00) true 1 2 [vIdx va] (gIdx rd)
    fun c => (BitVec.ofNat 512 (elem 64 (c.getV va) k.toNat), 0)

/-- VMOVV: a 64-bit element from a g register, the others kept. -/
def execVmovv (lc : LC) (vd ra : Reg) (k : BitVec 3) (s : State) : Out :=
  s.vec lc (encV 0x33 vd ra (k.zeroExtend 5) none 0 0x01) true 1 2 [gIdx ra, vIdx vd] (vIdx vd)
    fun c => (vmovv (c.getV vd) k (c.getG ra), 0)

/-- VBCAST. -/
def execVbcast (lc : LC) (vd ra : Reg) (et : BitVec 2) (s : State) : Out :=
  s.vec lc (encV 0x33 vd ra 0 none et 0x02) true 1 2 [gIdx ra] (vIdx vd)
    fun c => (vbcast et (c.getG ra), 0)

/-- PAND. -/
def execPand (lc : LC) (pd pa pb : PReg) (s : State) : Out :=
  s.predOp lc pd [pIdx pa, pIdx pb] fun c => c.getP pa &&& c.getP pb

/-- POR. -/
def execPor (lc : LC) (pd pa pb : PReg) (s : State) : Out :=
  s.predOp lc pd [pIdx pa, pIdx pb] fun c => c.getP pa ||| c.getP pb

/-- PXOR. -/
def execPxor (lc : LC) (pd pa pb : PReg) (s : State) : Out :=
  s.predOp lc pd [pIdx pa, pIdx pb] fun c => c.getP pa ^^^ c.getP pb

/-- PNOT. -/
def execPnot (lc : LC) (pd pa : PReg) (s : State) : Out :=
  s.predOp lc pd [pIdx pa] fun c => ~~~(c.getP pa)

/-- PSET. -/
def execPset (lc : LC) (pd : PReg) (ra : Reg) (s : State) : Out :=
  s.predOp lc pd [gIdx ra] fun c => c.getG ra

/-- PGET. -/
def execPget (lc : LC) (rd : Reg) (pa : PReg) (s : State) : Out :=
  s.issueCore lc { reads := [pIdx pa], writes := [gIdx rd] } fun t c =>
    (c.result rd (c.getP pa) t 1).retire (c.pc + 4) 1

/-- V starts the instruction at the head of its queue: its result and flags are written (R102). The beat of
its start, at which V is free, has come, or the core does not execute and so counts none. -/
def execVectorStart (lc : LC) (s : State) : Out :=
  .next (s.modCore lc fun c => match c.beats.vq with
    | [] => c
    | e :: rest =>
      if e.start ≤ c.beats.next || !c.ready then { c.vWrite e with beats := { c.beats with vq := rest } }
      else c)

end Sys2Proof.Machine
end

