-- ==== Sys2Proof/Machine/Dispatch.lean ====
section
/-!
DEFINITION. The meaning of each command, by one arm per constructor.
-/

namespace Sys2Proof.Machine

def exec (i : Instr) (s : State) : Host.Outcome State Fault Refusal :=
  match i with
  | .addi lc rd ra imm => Sys2Proof.Machine.execAddi lc rd ra imm s
  | .andi lc rd ra imm => Sys2Proof.Machine.execAndi lc rd ra imm s
  | .ori lc rd ra imm => Sys2Proof.Machine.execOri lc rd ra imm s
  | .xori lc rd ra imm => Sys2Proof.Machine.execXori lc rd ra imm s
  | .slti lc rd ra imm => Sys2Proof.Machine.execSlti lc rd ra imm s
  | .sltiu lc rd ra imm => Sys2Proof.Machine.execSltiu lc rd ra imm s
  | .slli lc rd ra n => Sys2Proof.Machine.execSlli lc rd ra n s
  | .srli lc rd ra n => Sys2Proof.Machine.execSrli lc rd ra n s
  | .srai lc rd ra n => Sys2Proof.Machine.execSrai lc rd ra n s
  | .kset lc rd imm => Sys2Proof.Machine.execKset lc rd imm s
  | .ksetu lc rd imm => Sys2Proof.Machine.execKsetu lc rd imm s
  | .kapp lc rd imm => Sys2Proof.Machine.execKapp lc rd imm s
  | .add lc rd ra rb => Sys2Proof.Machine.execAdd lc rd ra rb s
  | .sub lc rd ra rb => Sys2Proof.Machine.execSub lc rd ra rb s
  | .and lc rd ra rb => Sys2Proof.Machine.execAnd lc rd ra rb s
  | .or lc rd ra rb => Sys2Proof.Machine.execOr lc rd ra rb s
  | .xor lc rd ra rb => Sys2Proof.Machine.execXor lc rd ra rb s
  | .sll lc rd ra rb => Sys2Proof.Machine.execSll lc rd ra rb s
  | .srl lc rd ra rb => Sys2Proof.Machine.execSrl lc rd ra rb s
  | .sra lc rd ra rb => Sys2Proof.Machine.execSra lc rd ra rb s
  | .slt lc rd ra rb => Sys2Proof.Machine.execSlt lc rd ra rb s
  | .sltu lc rd ra rb => Sys2Proof.Machine.execSltu lc rd ra rb s
  | .min lc rd ra rb => Sys2Proof.Machine.execMin lc rd ra rb s
  | .max lc rd ra rb => Sys2Proof.Machine.execMax lc rd ra rb s
  | .minu lc rd ra rb => Sys2Proof.Machine.execMinu lc rd ra rb s
  | .maxu lc rd ra rb => Sys2Proof.Machine.execMaxu lc rd ra rb s
  | .addw lc rd ra rb => Sys2Proof.Machine.execAddw lc rd ra rb s
  | .subw lc rd ra rb => Sys2Proof.Machine.execSubw lc rd ra rb s
  | .sllw lc rd ra rb => Sys2Proof.Machine.execSllw lc rd ra rb s
  | .srlw lc rd ra rb => Sys2Proof.Machine.execSrlw lc rd ra rb s
  | .sraw lc rd ra rb => Sys2Proof.Machine.execSraw lc rd ra rb s
  | .clz lc rd ra => Sys2Proof.Machine.execClz lc rd ra s
  | .ctz lc rd ra => Sys2Proof.Machine.execCtz lc rd ra s
  | .popc lc rd ra => Sys2Proof.Machine.execPopc lc rd ra s
  | .mul lc rd ra rb => Sys2Proof.Machine.execMul lc rd ra rb s
  | .mulh lc rd ra rb => Sys2Proof.Machine.execMulh lc rd ra rb s
  | .mulhu lc rd ra rb => Sys2Proof.Machine.execMulhu lc rd ra rb s
  | .mulw lc rd ra rb => Sys2Proof.Machine.execMulw lc rd ra rb s
  | .div lc rd ra rb => Sys2Proof.Machine.execDiv lc rd ra rb s
  | .divu lc rd ra rb => Sys2Proof.Machine.execDivu lc rd ra rb s
  | .rem lc rd ra rb => Sys2Proof.Machine.execRem lc rd ra rb s
  | .remu lc rd ra rb => Sys2Proof.Machine.execRemu lc rd ra rb s
  | .divw lc rd ra rb => Sys2Proof.Machine.execDivw lc rd ra rb s
  | .divuw lc rd ra rb => Sys2Proof.Machine.execDivuw lc rd ra rb s
  | .remw lc rd ra rb => Sys2Proof.Machine.execRemw lc rd ra rb s
  | .remuw lc rd ra rb => Sys2Proof.Machine.execRemuw lc rd ra rb s
  | .illegalEncoding lc w => Sys2Proof.Machine.execIllegalEncoding lc w s
  | .lb lc rd ra imm => Sys2Proof.Machine.execLb lc rd ra imm s
  | .lh lc rd ra imm => Sys2Proof.Machine.execLh lc rd ra imm s
  | .lw lc rd ra imm => Sys2Proof.Machine.execLw lc rd ra imm s
  | .ld lc rd ra imm => Sys2Proof.Machine.execLd lc rd ra imm s
  | .lbu lc rd ra imm => Sys2Proof.Machine.execLbu lc rd ra imm s
  | .lhu lc rd ra imm => Sys2Proof.Machine.execLhu lc rd ra imm s
  | .lwu lc rd ra imm => Sys2Proof.Machine.execLwu lc rd ra imm s
  | .sb lc rs ra imm => Sys2Proof.Machine.execSb lc rs ra imm s
  | .sh lc rs ra imm => Sys2Proof.Machine.execSh lc rs ra imm s
  | .sw lc rs ra imm => Sys2Proof.Machine.execSw lc rs ra imm s
  | .sd lc rs ra imm => Sys2Proof.Machine.execSd lc rs ra imm s
  | .storeDrain lc => Sys2Proof.Machine.execStoreDrain lc s
  | .storeBus lc => Sys2Proof.Machine.execStoreBus lc s
  | .scratchLoadReturn lc => Sys2Proof.Machine.execScratchLoadReturn lc s
  | .beq lc ra rb off => Sys2Proof.Machine.execBeq lc ra rb off s
  | .bne lc ra rb off => Sys2Proof.Machine.execBne lc ra rb off s
  | .blt lc ra rb off => Sys2Proof.Machine.execBlt lc ra rb off s
  | .bge lc ra rb off => Sys2Proof.Machine.execBge lc ra rb off s
  | .bltu lc ra rb off => Sys2Proof.Machine.execBltu lc ra rb off s
  | .bgeu lc ra rb off => Sys2Proof.Machine.execBgeu lc ra rb off s
  | .j lc off => Sys2Proof.Machine.execJ lc off s
  | .jal lc off => Sys2Proof.Machine.execJal lc off s
  | .jalr lc rd ra imm => Sys2Proof.Machine.execJalr lc rd ra imm s
  | .vadd lc vd va vb m et => Sys2Proof.Machine.execVadd lc vd va vb m et s
  | .vsub lc vd va vb m et => Sys2Proof.Machine.execVsub lc vd va vb m et s
  | .vand lc vd va vb => Sys2Proof.Machine.execVand lc vd va vb s
  | .vor lc vd va vb => Sys2Proof.Machine.execVor lc vd va vb s
  | .vxor lc vd va vb => Sys2Proof.Machine.execVxor lc vd va vb s
  | .vmin lc vd va vb m et => Sys2Proof.Machine.execVmin lc vd va vb m et s
  | .vmax lc vd va vb m et => Sys2Proof.Machine.execVmax lc vd va vb m et s
  | .vsll lc vd va vb m et => Sys2Proof.Machine.execVsll lc vd va vb m et s
  | .vsrl lc vd va vb m et => Sys2Proof.Machine.execVsrl lc vd va vb m et s
  | .vsra lc vd va vb m et => Sys2Proof.Machine.execVsra lc vd va vb m et s
  | .vcmpeq lc pd va vb m et => Sys2Proof.Machine.execVcmpeq lc pd va vb m et s
  | .vcmplt lc pd va vb m et => Sys2Proof.Machine.execVcmplt lc pd va vb m et s
  | .vfadd lc vd va vb m et => Sys2Proof.Machine.execVfadd lc vd va vb m et s
  | .vfsub lc vd va vb m et => Sys2Proof.Machine.execVfsub lc vd va vb m et s
  | .vfmul lc vd va vb m et => Sys2Proof.Machine.execVfmul lc vd va vb m et s
  | .vfma lc vd va vb m et => Sys2Proof.Machine.execVfma lc vd va vb m et s
  | .vfdiv lc vd va vb m et => Sys2Proof.Machine.execVfdiv lc vd va vb m et s
  | .vfsqrt lc vd va m et => Sys2Proof.Machine.execVfsqrt lc vd va m et s
  | .vfmin lc vd va vb m et => Sys2Proof.Machine.execVfmin lc vd va vb m et s
  | .vfmax lc vd va vb m et => Sys2Proof.Machine.execVfmax lc vd va vb m et s
  | .vfcmplt lc pd va vb m et => Sys2Proof.Machine.execVfcmplt lc pd va vb m et s
  | .vfcmpeq lc pd va vb m et => Sys2Proof.Machine.execVfcmpeq lc pd va vb m et s
  | .vrsum lc vd va m et => Sys2Proof.Machine.execVrsum lc vd va m et s
  | .vcvtF32ToF64 lc vd va => Sys2Proof.Machine.execVcvtF32ToF64 lc vd va s
  | .vcvtF64ToF32 lc vd va => Sys2Proof.Machine.execVcvtF64ToF32 lc vd va s
  | .vcvtF32ToBf16 lc vd va => Sys2Proof.Machine.execVcvtF32ToBf16 lc vd va s
  | .vcvtBf16ToF32 lc vd va => Sys2Proof.Machine.execVcvtBf16ToF32 lc vd va s
  | .vcvtI32ToF32 lc vd va => Sys2Proof.Machine.execVcvtI32ToF32 lc vd va s
  | .vcvtF32ToI32 lc vd va => Sys2Proof.Machine.execVcvtF32ToI32 lc vd va s
  | .vdot2Bf16 lc vd va vb m => Sys2Proof.Machine.execVdot2Bf16 lc vd va vb m s
  | .vdot4I8 lc vd va vb m => Sys2Proof.Machine.execVdot4I8 lc vd va vb m s
  | .vdot4U8s8 lc vd va vb m => Sys2Proof.Machine.execVdot4U8s8 lc vd va vb m s
  | .vld lc vd ra imm => Sys2Proof.Machine.execVld lc vd ra imm s
  | .vst lc vs ra imm => Sys2Proof.Machine.execVst lc vs ra imm s
  | .vmovg lc rd va k => Sys2Proof.Machine.execVmovg lc rd va k s
  | .vmovv lc vd ra k => Sys2Proof.Machine.execVmovv lc vd ra k s
  | .vbcast lc vd ra et => Sys2Proof.Machine.execVbcast lc vd ra et s
  | .pand lc pd pa pb => Sys2Proof.Machine.execPand lc pd pa pb s
  | .por lc pd pa pb => Sys2Proof.Machine.execPor lc pd pa pb s
  | .pxor lc pd pa pb => Sys2Proof.Machine.execPxor lc pd pa pb s
  | .pnot lc pd pa => Sys2Proof.Machine.execPnot lc pd pa s
  | .pset lc pd ra => Sys2Proof.Machine.execPset lc pd ra s
  | .pget lc rd pa => Sys2Proof.Machine.execPget lc rd pa s
  | .vectorStart lc => Sys2Proof.Machine.execVectorStart lc s
  | .aadd lc rd ra rb => Sys2Proof.Machine.execAadd lc rd ra rb s
  | .aswp lc rd ra rb => Sys2Proof.Machine.execAswp lc rd ra rb s
  | .acas lc rd ra rb => Sys2Proof.Machine.execAcas lc rd ra rb s
  | .amin lc rd ra rb => Sys2Proof.Machine.execAmin lc rd ra rb s
  | .amax lc rd ra rb => Sys2Proof.Machine.execAmax lc rd ra rb s
  | .aminu lc rd ra rb => Sys2Proof.Machine.execAminu lc rd ra rb s
  | .amaxu lc rd ra rb => Sys2Proof.Machine.execAmaxu lc rd ra rb s
  | .crr lc rd cr => Sys2Proof.Machine.execCrr lc rd cr s
  | .crw lc cr ra => Sys2Proof.Machine.execCrw lc cr ra s
  | .kcall lc nn => Sys2Proof.Machine.execKcall lc nn s
  | .hcall lc nn => Sys2Proof.Machine.execHcall lc nn s
  | .mcall lc nn => Sys2Proof.Machine.execMcall lc nn s
  | .brk lc nn => Sys2Proof.Machine.execBrk lc nn s
  | .eret lc => Sys2Proof.Machine.execEret lc s
  | .wait lc => Sys2Proof.Machine.execWait lc s
  | .waitWake lc => Sys2Proof.Machine.execWaitWake lc s
  | .fenceSl lc => Sys2Proof.Machine.execFenceSl lc s
  | .fenceAll lc => Sys2Proof.Machine.execFenceAll lc s
  | .ifence lc => Sys2Proof.Machine.execIfence lc s
  | .tlbl lc rd ra kindI => Sys2Proof.Machine.execTlbl lc rd ra kindI s
  | .tlbu lc ra kindI => Sys2Proof.Machine.execTlbu lc ra kindI s
  | .tlbiVa lc ra => Sys2Proof.Machine.execTlbiVa lc ra s
  | .tlbiAsid lc => Sys2Proof.Machine.execTlbiAsid lc s
  | .tlbiPid lc ra => Sys2Proof.Machine.execTlbiPid lc ra s
  | .tlbiAll lc => Sys2Proof.Machine.execTlbiAll lc s
  | .tlbiBVa lc ra => Sys2Proof.Machine.execTlbiBVa lc ra s
  | .tlbiBAsid lc => Sys2Proof.Machine.execTlbiBAsid lc s
  | .tlbiBPid lc ra => Sys2Proof.Machine.execTlbiBPid lc ra s
  | .tlbiBAll lc => Sys2Proof.Machine.execTlbiBAll lc s
  | .dclC lc ra => Sys2Proof.Machine.execDclC lc ra s
  | .dclI lc ra => Sys2Proof.Machine.execDclI lc ra s
  | .dclCi lc ra => Sys2Proof.Machine.execDclCi lc ra s
  | .dclZ lc ra => Sys2Proof.Machine.execDclZ lc ra s
  | .dpf lc ra => Sys2Proof.Machine.execDpf lc ra s
  | .iclI lc ra => Sys2Proof.Machine.execIclI lc ra s
  | .l1iInvalidationApply lc => Sys2Proof.Machine.execL1iInvalidationApply lc s
  | .acctClear lc => Sys2Proof.Machine.execAcctClear lc s
  | .beatRateWindow die slot win => Sys2Proof.Machine.execBeatRateWindow die slot win s
  | .interruptEntry lc => Sys2Proof.Machine.execInterruptEntry lc s
  | .intOffer die src => Sys2Proof.Machine.execIntOffer die src s
  | .deadline lc t => Sys2Proof.Machine.execDeadline lc t s
  | .sgi lc w => Sys2Proof.Machine.execSgi lc w s
  | .eoi lc w => Sys2Proof.Machine.execEoi lc w s
  | .intdMsg die w who => Sys2Proof.Machine.execIntdMsg die w who s
  | .enableSet iw bits who => Sys2Proof.Machine.execEnableSet iw bits who s
  | .enableClr iw bits who => Sys2Proof.Machine.execEnableClr iw bits who s
  | .pendSet iw bits who => Sys2Proof.Machine.execPendSet iw bits who s
  | .pendClr iw bits who => Sys2Proof.Machine.execPendClr iw bits who s
  | .intdTargetWrite die src w who => Sys2Proof.Machine.execIntdTargetWrite die src w who s
  | .gpioPinChange pin level => Sys2Proof.Machine.execGpioPinChange pin level s
  | .uartRx u b frameErr => Sys2Proof.Machine.execUartRx u b frameErr s
  | .uartDataWrite u b who => Sys2Proof.Machine.execUartDataWrite u b who s
  | .uartDataRead u who => Sys2Proof.Machine.execUartDataRead u who s
  | .i2cGo u w who => Sys2Proof.Machine.execI2cGo u w who s
  | .i2cDone u r => Sys2Proof.Machine.execI2cDone u r s
  | .rmeClaimReq die who => Sys2Proof.Machine.execRmeClaimReq die who s
  | .rmeClaimRel die who => Sys2Proof.Machine.execRmeClaimRel die who s
  | .rmeClean die w who => Sys2Proof.Machine.execRmeClean die w who s
  | .rmeInval die w who => Sys2Proof.Machine.execRmeInval die w who s
  | .rmeCleanInval die w who => Sys2Proof.Machine.execRmeCleanInval die w who s
  | .rmeZero die w who => Sys2Proof.Machine.execRmeZero die w who s
  | .rmeLock die w who => Sys2Proof.Machine.execRmeLock die w who s
  | .rmeUnlock die w who => Sys2Proof.Machine.execRmeUnlock die w who s
  | .rmePrefetch die w who => Sys2Proof.Machine.execRmePrefetch die w who s
  | .rmeLineStep die => Sys2Proof.Machine.execRmeLineStep die s
  | .rmeComplete die => Sys2Proof.Machine.execRmeComplete die s
  | .rmeAbort die who => Sys2Proof.Machine.execRmeAbort die who s
  | .rdShared msg => Sys2Proof.Machine.execRdShared msg s
  | .rdUnique msg => Sys2Proof.Machine.execRdUnique msg s
  | .rdOnce msg => Sys2Proof.Machine.execRdOnce msg s
  | .wrUnique msg => Sys2Proof.Machine.execWrUnique msg s
  | .upgrade msg => Sys2Proof.Machine.execUpgrade msg s
  | .evict msg => Sys2Proof.Machine.execEvict msg s
  | .writeBack msg => Sys2Proof.Machine.execWriteBack msg s
  | .atomicAtHome msg => Sys2Proof.Machine.execAtomicAtHome msg s
  | .cmoClean msg => Sys2Proof.Machine.execCmoClean msg s
  | .cmoInval msg => Sys2Proof.Machine.execCmoInval msg s
  | .cmoCleanInval msg => Sys2Proof.Machine.execCmoCleanInval msg s
  | .cmoZero msg => Sys2Proof.Machine.execCmoZero msg s
  | .snpShared msg => Sys2Proof.Machine.execSnpShared msg s
  | .snpInval msg => Sys2Proof.Machine.execSnpInval msg s
  | .snpOnce msg => Sys2Proof.Machine.execSnpOnce msg s
  | .ansGone msg => Sys2Proof.Machine.execAnsGone msg s
  | .ansShared msg => Sys2Proof.Machine.execAnsShared msg s
  | .ansKeep msg => Sys2Proof.Machine.execAnsKeep msg s
  | .ansGoneData msg => Sys2Proof.Machine.execAnsGoneData msg s
  | .ansSharedData msg => Sys2Proof.Machine.execAnsSharedData msg s
  | .ansKeepData msg => Sys2Proof.Machine.execAnsKeepData msg s
  | .grantS msg => Sys2Proof.Machine.execGrantS msg s
  | .grantE msg => Sys2Proof.Machine.execGrantE msg s
  | .readData msg => Sys2Proof.Machine.execReadData msg s
  | .homeDone msg => Sys2Proof.Machine.execHomeDone msg s
  | .atomicOld msg => Sys2Proof.Machine.execAtomicOld msg s
  | .homeRefuse msg => Sys2Proof.Machine.execHomeRefuse msg s
  | .homePoison msg => Sys2Proof.Machine.execHomePoison msg s
  | .evictDone msg => Sys2Proof.Machine.execEvictDone msg s
  | .grantSeen msg => Sys2Proof.Machine.execGrantSeen msg s
  | .snoopTimeout q entry die => Sys2Proof.Machine.execSnoopTimeout q entry die s
  | .scrRd msg => Sys2Proof.Machine.execScrRd msg s
  | .scrWr msg => Sys2Proof.Machine.execScrWr msg s
  | .devRd msg => Sys2Proof.Machine.execDevRd msg s
  | .devWr msg => Sys2Proof.Machine.execDevWr msg s
  | .hostRd msg => Sys2Proof.Machine.execHostRd msg s
  | .hostWr msg => Sys2Proof.Machine.execHostWr msg s
  | .ncData msg => Sys2Proof.Machine.execNcData msg s
  | .ncAck msg => Sys2Proof.Machine.execNcAck msg s
  | .ncErr msg => Sys2Proof.Machine.execNcErr msg s
  | .ncPoison msg => Sys2Proof.Machine.execNcPoison msg s
  | .intMsg msg => Sys2Proof.Machine.execIntMsg msg s
  | .intAck msg => Sys2Proof.Machine.execIntAck msg s
  | .tlbBcast msg => Sys2Proof.Machine.execTlbBcast msg s
  | .tlbAck msg => Sys2Proof.Machine.execTlbAck msg s
  | .roleGone msg => Sys2Proof.Machine.execRoleGone msg s
  | .regWindowStart win => Sys2Proof.Machine.execRegWindowStart win s
  | .measWindowEnd t win => Sys2Proof.Machine.execMeasWindowEnd t win s
  | .guaranteeRecompute => Sys2Proof.Machine.execGuaranteeRecompute s
  | .mcFillRequest q line prio => Sys2Proof.Machine.execMcFillRequest q line prio s
  | .mcWriteRequest q line data pois classed => Sys2Proof.Machine.execMcWriteRequest q line data pois classed s
  | .mcReadIssue q pc => Sys2Proof.Machine.execMcReadIssue q pc s
  | .mcWriteIssue q pc => Sys2Proof.Machine.execMcWriteIssue q pc s
  | .mcReadData q pc err => Sys2Proof.Machine.execMcReadData q pc err s
  | .refreshDue q pc => Sys2Proof.Machine.execRefreshDue q pc s
  | .selfRefreshEntry q pc => Sys2Proof.Machine.execSelfRefreshEntry q pc s
  | .tempReadout q temp => Sys2Proof.Machine.execTempReadout q temp s
  | .scrubEarn q pc => Sys2Proof.Machine.execScrubEarn q pc s
  | .scrubRead q pc => Sys2Proof.Machine.execScrubRead q pc s
  | .lapOverdue q t => Sys2Proof.Machine.execLapOverdue q t s
  | .stackSelfRefresh q => Sys2Proof.Machine.execStackSelfRefresh q s
  | .stackSelfRefreshExit q => Sys2Proof.Machine.execStackSelfRefreshExit q s
  | .keepEntry q => Sys2Proof.Machine.execKeepEntry q s
  | .keepExit q => Sys2Proof.Machine.execKeepExit q s
  | .keepFillDone fill => Sys2Proof.Machine.execKeepFillDone fill s
  | .laserSample t laser powers => Sys2Proof.Machine.execLaserSample t laser powers s
  | .laserSwitchGo => Sys2Proof.Machine.execLaserSwitchGo s
  | .xfadeEnd => Sys2Proof.Machine.execXfadeEnd s
  | .standbyNominal => Sys2Proof.Machine.execStandbyNominal s
  | .frameReceive port f => Sys2Proof.Machine.execFrameReceive port f s
  | .nakRepeat port => Sys2Proof.Machine.execNakRepeat port s
  | .linkctl port w => Sys2Proof.Machine.execLinkctl port w s
  | .lswDupReq port w => Sys2Proof.Machine.execLswDupReq port w s
  | .lswReady port w => Sys2Proof.Machine.execLswReady port w s
  | .lswSwitch port w => Sys2Proof.Machine.execLswSwitch port w s
  | .lswNarrow port w => Sys2Proof.Machine.execLswNarrow port w s
  | .lswWide port w => Sys2Proof.Machine.execLswWide port w s
  | .laneLock port wl => Sys2Proof.Machine.execLaneLock port wl s
  | .laneDown port lane cause => Sys2Proof.Machine.execLaneDown port lane cause s
  | .linkLost port => Sys2Proof.Machine.execLinkLost port s
  | .narrow die on => Sys2Proof.Machine.execNarrow die on s
  | .siteBringUp die => Sys2Proof.Machine.execSiteBringUp die s
  | .hello die w => Sys2Proof.Machine.execHello die w s
  | .helloTimeout die => Sys2Proof.Machine.execHelloTimeout die s
  | .cap0 die toHub w => Sys2Proof.Machine.execCap0 die toHub w s
  | .cap1 die toHub w => Sys2Proof.Machine.execCap1 die toHub w s
  | .cap2 die toHub w => Sys2Proof.Machine.execCap2 die toHub w s
  | .cap3 die toHub w => Sys2Proof.Machine.execCap3 die toHub w s
  | .result die toHub w => Sys2Proof.Machine.execResult die toHub w s
  | .refuse die w => Sys2Proof.Machine.execRefuse die w s
  | .trainingEnd die toHub counts => Sys2Proof.Machine.execTrainingEnd die toHub counts s
  | .trainLo die toHub w => Sys2Proof.Machine.execTrainLo die toHub w s
  | .trainHi die toHub w => Sys2Proof.Machine.execTrainHi die toHub w s
  | .linkReady die w => Sys2Proof.Machine.execLinkReady die w s
  | .sidebandResend die => Sys2Proof.Machine.execSidebandResend die s
  | .ringRead f => Sys2Proof.Machine.execRingRead f s
  | .ringWrite f => Sys2Proof.Machine.execRingWrite f s
  | .readReply f => Sys2Proof.Machine.execReadReply f s
  | .writeReply f => Sys2Proof.Machine.execWriteReply f s
  | .commitArm f => Sys2Proof.Machine.execCommitArm f s
  | .commitFire f => Sys2Proof.Machine.execCommitFire f s
  | .commitResume f => Sys2Proof.Machine.execCommitResume f s
  | .commitDisarm f => Sys2Proof.Machine.execCommitDisarm f s
  | .quiescentSwitch st => Sys2Proof.Machine.execQuiescentSwitch st s
  | .commitDrainEnd => Sys2Proof.Machine.execCommitDrainEnd s
  | .commitAckTimeout => Sys2Proof.Machine.execCommitAckTimeout s
  | .snapshot f => Sys2Proof.Machine.execSnapshot f s
  | .snapshotInstant t => Sys2Proof.Machine.execSnapshotInstant t s
  | .snapshotGather group st => Sys2Proof.Machine.execSnapshotGather group st s
  | .reportSlot f => Sys2Proof.Machine.execReportSlot f s
  | .report f => Sys2Proof.Machine.execReport f s
  | .cpFrameTimeout f backA backB => Sys2Proof.Machine.execCpFrameTimeout f backA backB s
  | .auditLatch a => Sys2Proof.Machine.execAuditLatch a s
  | .reflSlot t => Sys2Proof.Machine.execReflSlot t s
  | .windowEnd lc why => Sys2Proof.Machine.execWindowEnd lc why s
  | .replayClose die slot sig icount => Sys2Proof.Machine.execReplayClose die slot sig icount s
  | .safeN level => Sys2Proof.Machine.execSafeN level s
  | .heartbeatToggle t => Sys2Proof.Machine.execHeartbeatToggle t s
  | .lockstepMismatch => Sys2Proof.Machine.execLockstepMismatch s
  | .domainRestart => Sys2Proof.Machine.execDomainRestart s
  | .hb u => Sys2Proof.Machine.execHb u s
  | .hbSend t => Sys2Proof.Machine.execHbSend t s
  | .hbMiss t => Sys2Proof.Machine.execHbMiss t s
  | .partnerFailure => Sys2Proof.Machine.execPartnerFailure s
  | .mirrorLinkDown => Sys2Proof.Machine.execMirrorLinkDown s
  | .cut t => Sys2Proof.Machine.execCut t s
  | .epochShip => Sys2Proof.Machine.execEpochShip s
  | .mirLine u => Sys2Proof.Machine.execMirLine u s
  | .ckpt u => Sys2Proof.Machine.execCkpt u s
  | .mirEnd u => Sys2Proof.Machine.execMirEnd u s
  | .baseEnd u => Sys2Proof.Machine.execBaseEnd u s
  | .mirAck u => Sys2Proof.Machine.execMirAck u s
  | .shedEngage stage rail mv t => Sys2Proof.Machine.execShedEngage stage rail mv t s
  | .shed5Delay t => Sys2Proof.Machine.execShed5Delay t s
  | .shedLift stage t => Sys2Proof.Machine.execShedLift stage t s
  | .supplyReset rail mv => Sys2Proof.Machine.execSupplyReset rail mv s
  | .vauxLoss => Sys2Proof.Machine.execVauxLoss s
  | .porN b => Sys2Proof.Machine.execPorN b s
  | .wake ev => Sys2Proof.Machine.execWake ev s
  | .thermtrip temp => Sys2Proof.Machine.execThermtrip temp s
  | .pmbusPoll readings => Sys2Proof.Machine.execPmbusPoll readings s
  | .pmbAlert status => Sys2Proof.Machine.execPmbAlert status s
  | .storeWrite => Sys2Proof.Machine.execStoreWrite s
  | .partitionReset pid => Sys2Proof.Machine.execPartitionReset pid s
  | .scntAlarm => Sys2Proof.Machine.execScntAlarm s
  | .certExpiry world => Sys2Proof.Machine.execCertExpiry world s
  | .configRequest t => Sys2Proof.Machine.execConfigRequest t s
  | .memoryRead t => Sys2Proof.Machine.execMemoryRead t s
  | .memoryWrite t => Sys2Proof.Machine.execMemoryWrite t s
  | .messageTlp t => Sys2Proof.Machine.execMessageTlp t s
  | .completion t => Sys2Proof.Machine.execCompletion t s
  | .completionTimeout tag => Sys2Proof.Machine.execCompletionTimeout tag s
  | .dlDown => Sys2Proof.Machine.execDlDown s
  | .hotReset => Sys2Proof.Machine.execHotReset s
  | .perstN level => Sys2Proof.Machine.execPerstN level s
  | .flr fn => Sys2Proof.Machine.execFlr fn s
  | .release => Sys2Proof.Machine.execRelease s
  | .sqTailDoorbell fn k v => Sys2Proof.Machine.execSqTailDoorbell fn k v s
  | .cqHeadDoorbell fn k v => Sys2Proof.Machine.execCqHeadDoorbell fn k v s
  | .aqCfgWrite w => Sys2Proof.Machine.execAqCfgWrite w s
  | .workHead w who => Sys2Proof.Machine.execWorkHead w who s
  | .dcrTail w who => Sys2Proof.Machine.execDcrTail w who s
  | .sqFetch qid => Sys2Proof.Machine.execSqFetch qid s
  | .dcrRead qid => Sys2Proof.Machine.execDcrRead qid s
  | .cqWrite qid => Sys2Proof.Machine.execCqWrite qid s
  | .foldCtxpRead w => Sys2Proof.Machine.execFoldCtxpRead w s
  | .foldCtxpConfig w => Sys2Proof.Machine.execFoldCtxpConfig w s
  | .foldCtxpCreate w => Sys2Proof.Machine.execFoldCtxpCreate w s
  | .foldCtxpDelete w => Sys2Proof.Machine.execFoldCtxpDelete w s
  | .foldCtxpReset w => Sys2Proof.Machine.execFoldCtxpReset w s
  | .foldCtxpEnable w => Sys2Proof.Machine.execFoldCtxpEnable w s
  | .foldCtxpRestore w => Sys2Proof.Machine.execFoldCtxpRestore w s
  | .logSwap fn => Sys2Proof.Machine.execLogSwap fn s
  | .logSwapDone fn => Sys2Proof.Machine.execLogSwapDone fn s
  | .mbClaimReq mb ch who => Sys2Proof.Machine.execMbClaimReq mb ch who s
  | .mbClaimRel mb ch who => Sys2Proof.Machine.execMbClaimRel mb ch who s
  | .mbGo mb ch irq who => Sys2Proof.Machine.execMbGo mb ch irq who s
  | .adminSqDoorbell v => Sys2Proof.Machine.execAdminSqDoorbell v s
  | .adminCqDoorbell v => Sys2Proof.Machine.execAdminCqDoorbell v s
  | .infoVersion r => Sys2Proof.Machine.execInfoVersion r s
  | .infoSlots r => Sys2Proof.Machine.execInfoSlots r s
  | .infoCoreMap r => Sys2Proof.Machine.execInfoCoreMap r s
  | .infoDistance r => Sys2Proof.Machine.execInfoDistance r s
  | .eventRead r => Sys2Proof.Machine.execEventRead r s
  | .infoParts r => Sys2Proof.Machine.execInfoParts r s
  | .stageOpen r => Sys2Proof.Machine.execStageOpen r s
  | .stageSet r => Sys2Proof.Machine.execStageSet r s
  | .stageCheck r => Sys2Proof.Machine.execStageCheck r s
  | .stageCommit r => Sys2Proof.Machine.execStageCommit r s
  | .stageAbort r => Sys2Proof.Machine.execStageAbort r s
  | .stageIdleAbort world t => Sys2Proof.Machine.execStageIdleAbort world t s
  | .stageStatus r => Sys2Proof.Machine.execStageStatus r s
  | .partCreate r => Sys2Proof.Machine.execPartCreate r s
  | .partDelete r => Sys2Proof.Machine.execPartDelete r s
  | .partImageLoad r => Sys2Proof.Machine.execPartImageLoad r s
  | .partStart r => Sys2Proof.Machine.execPartStart r s
  | .partStop r => Sys2Proof.Machine.execPartStop r s
  | .partReset r => Sys2Proof.Machine.execPartReset r s
  | .unitRelease r => Sys2Proof.Machine.execUnitRelease r s
  | .unitAssign r => Sys2Proof.Machine.execUnitAssign r s
  | .queueCreate r => Sys2Proof.Machine.execQueueCreate r s
  | .queueConfig r => Sys2Proof.Machine.execQueueConfig r s
  | .queueDelete r => Sys2Proof.Machine.execQueueDelete r s
  | .queueReset r => Sys2Proof.Machine.execQueueReset r s
  | .queueEnable r => Sys2Proof.Machine.execQueueEnable r s
  | .queueSave r => Sys2Proof.Machine.execQueueSave r s
  | .queueRestore r => Sys2Proof.Machine.execQueueRestore r s
  | .groupPause r => Sys2Proof.Machine.execGroupPause r s
  | .groupResume r => Sys2Proof.Machine.execGroupResume r s
  | .dirtyLogStart r => Sys2Proof.Machine.execDirtyLogStart r s
  | .dirtyLogSwap r => Sys2Proof.Machine.execDirtyLogSwap r s
  | .dirtyLogStop r => Sys2Proof.Machine.execDirtyLogStop r s
  | .powerDomain r => Sys2Proof.Machine.execPowerDomain r s
  | .powerState r => Sys2Proof.Machine.execPowerState r s
  | .powerStatus r => Sys2Proof.Machine.execPowerStatus r s
  | .faultRead r => Sys2Proof.Machine.execFaultRead r s
  | .faultAck r => Sys2Proof.Machine.execFaultAck r s
  | .domainStop r => Sys2Proof.Machine.execDomainStop r s
  | .coverageRead r => Sys2Proof.Machine.execCoverageRead r s
  | .mirrorStatus r => Sys2Proof.Machine.execMirrorStatus r s
  | .mirrorRole r => Sys2Proof.Machine.execMirrorRole r s
  | .mirrorResync r => Sys2Proof.Machine.execMirrorResync r s
  | .coreSwap r => Sys2Proof.Machine.execCoreSwap r s
  | .wlSwap r => Sys2Proof.Machine.execWlSwap r s
  | .laserSwitch r => Sys2Proof.Machine.execLaserSwitch r s
  | .certLoad r => Sys2Proof.Machine.execCertLoad r s
  | .certClose r => Sys2Proof.Machine.execCertClose r s
  | .certStatus r => Sys2Proof.Machine.execCertStatus r s
  | .setSecureTime r => Sys2Proof.Machine.execSetSecureTime r s
  | .imageWrite r => Sys2Proof.Machine.execImageWrite r s
  | .imageVerify r => Sys2Proof.Machine.execImageVerify r s
  | .imageActivate r => Sys2Proof.Machine.execImageActivate r s
  | .imageConfirm r => Sys2Proof.Machine.execImageConfirm r s
  | .fwSwitch r => Sys2Proof.Machine.execFwSwitch r s
  | .switchGap => Sys2Proof.Machine.execSwitchGap s
  | .snapConfig r => Sys2Proof.Machine.execSnapConfig r s
  | .snapRead r => Sys2Proof.Machine.execSnapRead r s
  | .cpRead r => Sys2Proof.Machine.execCpRead r s
  | .cpWrite r => Sys2Proof.Machine.execCpWrite r s
  | .badOpcode r => Sys2Proof.Machine.execBadOpcode r s
  | .pmuClear lc => Sys2Proof.Machine.execPmuClear lc s
  | .counterLoRead a => Sys2Proof.Machine.execCounterLoRead a s
  | .peakClear a => Sys2Proof.Machine.execPeakClear a s
  | .railMinClear rail => Sys2Proof.Machine.execRailMinClear rail s
  | .lpClear k => Sys2Proof.Machine.execLpClear k s
  | .traceEn k on => Sys2Proof.Machine.execTraceEn k on s
  | .traceDataRead k => Sys2Proof.Machine.execTraceDataRead k s
  | .extest cells => Sys2Proof.Machine.execExtest cells s
  | .samplePreload cells => Sys2Proof.Machine.execSamplePreload cells s
  | .idcode => Sys2Proof.Machine.execIdcode s
  | .ijtagAccess world => Sys2Proof.Machine.execIjtagAccess world s
  | .bypass => Sys2Proof.Machine.execBypass s
  | .dbgStatus world lc => Sys2Proof.Machine.execDbgStatus world lc s
  | .dbgHalt world lc => Sys2Proof.Machine.execDbgHalt world lc s
  | .dbgResume world lc => Sys2Proof.Machine.execDbgResume world lc s
  | .dbgStep world lc => Sys2Proof.Machine.execDbgStep world lc s
  | .dbgRdreg world lc reg => Sys2Proof.Machine.execDbgRdreg world lc reg s
  | .dbgWrreg world lc reg data => Sys2Proof.Machine.execDbgWrreg world lc reg data s
  | .dbgSetaddr world lc a => Sys2Proof.Machine.execDbgSetaddr world lc a s
  | .dbgRdmem world lc => Sys2Proof.Machine.execDbgRdmem world lc s
  | .dbgWrmem world lc data => Sys2Proof.Machine.execDbgWrmem world lc data s
  | .registerWrite a v => Sys2Proof.Machine.execRegisterWrite a v s
  | .dlUp => Sys2Proof.Machine.execDlUp s
  | .mirrorLinkUp => Sys2Proof.Machine.execMirrorLinkUp s
  | .vauxPowerUp => Sys2Proof.Machine.execVauxPowerUp s
  | .supplyResetRelease b => Sys2Proof.Machine.execSupplyResetRelease b s
  | .rtrBwWindowEnd st t => Sys2Proof.Machine.execRtrBwWindowEnd st t s
  | .coreBistDone die slot pass => Sys2Proof.Machine.execCoreBistDone die slot pass s
  | .coreDebug world => Sys2Proof.Machine.execCoreDebug world s
  | .uartTxDone u => Sys2Proof.Machine.execUartTxDone u s
  | .unitReleaseDelay unit t => Sys2Proof.Machine.execUnitReleaseDelay unit t s

end Sys2Proof.Machine
end

