-- ==== Sys2Proof/Machine/Step.lean ====
section
/-!
DEFINITION. One step: the command at the front of the queue, or a nanosecond of reference time.
-/

namespace Sys2Proof.Machine

/-- The queue without its front. -/
def State.withPending (s : State) (l : List Instr) : State := { s with pending := l }

/-- A nanosecond passes (DESIGN CHOICE): what an empty queue does in place of idling. -/
def State.tick (s : State) : State := { s with tb := s.tb + 1 }

/-- Takes the command at the front and runs it on the state with the queue's rest; on an empty queue
reference time advances by 1 ns. -/
def step (s : State) : Host.Outcome State Fault Refusal :=
  match s.pending with
  | [] => .next s.tick
  | i :: rest => exec i (s.withPending rest)

/-- The state with the command that a table word spells in front of its queue; unchanged, since no
word spells one. -/
def State.withFetchWord (s : State) (nbits w : Nat) : State :=
  match decodeTableWord nbits w with
  | none => s
  | some i => s.withPending (i :: s.pending)

end Sys2Proof.Machine
end

