-- ==== Sys2Proof/Safety.lean ====
section
/-!
DEFINITION. What a safe run is: the properties of a state that claims take as invariants, and a run
that never stops. Then the words that claims share: a command that completes, a core instruction that
leaves S, what a change of one core leaves as it was.
-/

namespace Sys2Proof.Safety

open Sys2Proof.Machine

/-- Memory is in its one canonical form: addresses rise strictly, and no byte listed is the 0 that an
unlisted byte reads as. -/
def MemWf (s : State) : Prop := SMap.wf 0 s.mem = true

/-- A step that answers a next state: no fault, no refusal. -/
def Answers (o : Host.Outcome State Fault Refusal) : Prop := ∃ t, o = .next t

/-- A run of `k` steps that stops nowhere. -/
def SafeRun (k : Nat) (s : State) : Prop := Answers (Sys2Proof.core.run k s)

end Sys2Proof.Safety

namespace Sys2Proof.Claims

open Sys2Proof.Machine

/-- Command `i` answers a next state, of which `P` holds. -/
def Completes (i : Instr) (s : State) (P : State → Prop) : Prop := ∃ x, exec i s = .next x ∧ P x

/-- A core instruction of `lc` that asks `n` of S runs: the core runs, nothing is due at the boundary
before it, its word is fetched, and it leaves S at beat `t` in the state `u`, where `k` is the core as
a maker of requests (R35, R36, R44). -/
def Runs (s : State) (lc : LC) (n : Need) (k : Asker) (t : Nat) (u : State) : Prop :=
  s.asker lc = some k ∧ (s.core lc).ready = true ∧ (n.vec && s.vStopped lc) = false ∧
  s.boundary k = none ∧
  ∃ f, s.fetch k = .ok f ∧ t = (f.core lc).beats.leave n ∧ u = f.setCore lc ((f.core lc).toS t)

/-- `x` is `u` but for logical core `lc`: memory, other cores, dies, hub and messages are as before. -/
def OnlyCore (lc : LC) (u x : State) : Prop :=
  (∀ l, l ≠ lc → x.core l = u.core l) ∧ x = { u with cores := x.cores }

/-- `d` is `c` but for registers, pc, beats, counts and the reflection window: status, banks, translation
registers, store buffer, TLBs, caches and interrupt interface are as before. -/
def KeepsSystem (c d : Core) : Prop :=
  d.run = c.run ∧ d.halts = c.halts ∧ d.inWait = c.inWait ∧ d.status = c.status ∧ d.vbar = c.vbar ∧
  d.xsp = c.xsp ∧ d.xlim = c.xlim ∧ d.s1base = c.s1base ∧ d.s2base = c.s2base ∧ d.part = c.part ∧
  d.tclass = c.tclass ∧ d.vctl = c.vctl ∧ d.sb = c.sb ∧ d.sbErr = c.sbErr ∧ d.access = c.access ∧
  d.fence = c.fence ∧ d.tlbs = c.tlbs ∧ d.tlbSkipped = c.tlbSkipped ∧
  d.tlbSkipFlag = c.tlbSkipFlag ∧ d.l1i = c.l1i ∧ d.l1d = c.l1d ∧ d.l1iPend = c.l1iPend ∧
  d.cii = c.cii

/-- Vector registers, predicates and flags are as before. -/
def KeepsV (c d : Core) : Prop := d.v = c.v ∧ d.p = c.p ∧ d.vflags = c.vflags

/-- No general register but `rd` changes, `rd` takes `x` unless it is g0, and g0 reads 0. -/
def WritesG (rd : Reg) (x : Word) (c d : Core) : Prop :=
  (rd ≠ 0 → d.getG rd = x) ∧ d.getG 0 = 0 ∧ ∀ r, r ≠ rd → d.getG r = c.getG r

/-- What a scalar instruction with a result leaves: `rd` holds `x`, the pc names the next word, nothing
else of the machine changes. -/
def ScalarResult (lc : LC) (rd : Reg) (x : Word) (u w : State) : Prop :=
  OnlyCore lc u w ∧ KeepsSystem (u.core lc) (w.core lc) ∧ KeepsV (u.core lc) (w.core lc) ∧
  WritesG rd x (u.core lc) (w.core lc) ∧ (w.core lc).pc = (u.core lc).pc + 4

end Sys2Proof.Claims
end

