-- ==== Sys2Proof/Machine/Encoding.lean ====
section
/-!
DEFINITION. The words of the core instructions (R89 to R91, Tables ISA-6 to ISA-17): the command that a word stands
for on a core, none where it raises ILLEGAL, and the word of a command. Privilege is not asked here.
-/

namespace Sys2Proof.Machine

/-! Fields of the formats (Table ISA-6). -/

/-- A register field of a word, by its lowest bit. -/
def regAt (w : Word32) (lo : Nat) : Reg := w.extractLsb' lo 5

/-- The three low bits of a register field, as a predicate register. -/
def predAt (w : Word32) (lo : Nat) : PReg := w.extractLsb' lo 3

/-- The mask of format V; M = 0 with pm not 0 is no mask of any operation (R90, R91). -/
def maskAt (w : Word32) : Option PReg := if bit w 10 then some (predAt w 7) else none

/-- Whether M and pm are those of an operation that may take a mask. -/
def maskOk (w : Word32) : Bool := bit w 10 || field w 7 3 = 0

/-- Whether M and pm are 0, as an operation without mask needs. -/
def noMask (w : Word32) : Bool := field w 7 4 = 0

/-! The command of a word. -/

/-- Op 0x01 and 0x02 by fn (Table ISA-9). -/
def aluOf (lc : LC) (w : Word32) : Option Instr :=
  let rd := regAt w 21
  let ra := regAt w 16
  let rb := regAt w 11
  match field w 26 6, field w 0 11 with
  | 0x01, 0x000 => some (.add lc rd ra rb)
  | 0x01, 0x001 => some (.sub lc rd ra rb)
  | 0x01, 0x002 => some (.and lc rd ra rb)
  | 0x01, 0x003 => some (.or lc rd ra rb)
  | 0x01, 0x004 => some (.xor lc rd ra rb)
  | 0x01, 0x005 => some (.sll lc rd ra rb)
  | 0x01, 0x006 => some (.srl lc rd ra rb)
  | 0x01, 0x007 => some (.sra lc rd ra rb)
  | 0x01, 0x008 => some (.slt lc rd ra rb)
  | 0x01, 0x009 => some (.sltu lc rd ra rb)
  | 0x01, 0x00A => some (.min lc rd ra rb)
  | 0x01, 0x00B => some (.max lc rd ra rb)
  | 0x01, 0x00C => some (.minu lc rd ra rb)
  | 0x01, 0x00D => some (.maxu lc rd ra rb)
  | 0x01, 0x010 => some (.addw lc rd ra rb)
  | 0x01, 0x011 => some (.subw lc rd ra rb)
  | 0x01, 0x012 => some (.sllw lc rd ra rb)
  | 0x01, 0x013 => some (.srlw lc rd ra rb)
  | 0x01, 0x014 => some (.sraw lc rd ra rb)
  | 0x01, 0x020 => if rb = 0 then some (.clz lc rd ra) else none
  | 0x01, 0x021 => if rb = 0 then some (.ctz lc rd ra) else none
  | 0x01, 0x022 => if rb = 0 then some (.popc lc rd ra) else none
  | 0x02, 0x000 => some (.mul lc rd ra rb)
  | 0x02, 0x001 => some (.mulh lc rd ra rb)
  | 0x02, 0x002 => some (.mulhu lc rd ra rb)
  | 0x02, 0x003 => some (.mulw lc rd ra rb)
  | 0x02, 0x008 => some (.div lc rd ra rb)
  | 0x02, 0x009 => some (.divu lc rd ra rb)
  | 0x02, 0x00A => some (.rem lc rd ra rb)
  | 0x02, 0x00B => some (.remu lc rd ra rb)
  | 0x02, 0x00C => some (.divw lc rd ra rb)
  | 0x02, 0x00D => some (.divuw lc rd ra rb)
  | 0x02, 0x00E => some (.remw lc rd ra rb)
  | 0x02, 0x00F => some (.remuw lc rd ra rb)
  | _, _ => none

/-- The formats I, S, B, J and U, and far atomics, by op (Table ISA-7). -/
def wordOpOf (lc : LC) (w : Word32) : Option Instr :=
  let r1 := regAt w 21
  let r2 := regAt w 16
  let r3 := regAt w 11
  let imm : BitVec 16 := w.extractLsb' 0 16
  let off : BitVec 26 := w.extractLsb' 0 26
  match field w 26 6 with
  | 0x03 => some (.addi lc r1 r2 imm)
  | 0x04 => some (.andi lc r1 r2 imm)
  | 0x05 => some (.ori lc r1 r2 imm)
  | 0x06 => some (.xori lc r1 r2 imm)
  | 0x07 => some (.slti lc r1 r2 imm)
  | 0x08 => some (.sltiu lc r1 r2 imm)
  | 0x09 => match field w 6 10 with
    | 0 => some (.slli lc r1 r2 (w.extractLsb' 0 6))
    | 1 => some (.srli lc r1 r2 (w.extractLsb' 0 6))
    | 2 => some (.srai lc r1 r2 (w.extractLsb' 0 6))
    | _ => none
  | 0x0A => match field w 16 5 with
    | 0 => some (.kset lc r1 imm)
    | 1 => some (.ksetu lc r1 imm)
    | 2 => some (.kapp lc r1 imm)
    | _ => none
  | 0x10 => some (.lb lc r1 r2 imm)
  | 0x11 => some (.lh lc r1 r2 imm)
  | 0x12 => some (.lw lc r1 r2 imm)
  | 0x13 => some (.ld lc r1 r2 imm)
  | 0x14 => some (.lbu lc r1 r2 imm)
  | 0x15 => some (.lhu lc r1 r2 imm)
  | 0x16 => some (.lwu lc r1 r2 imm)
  | 0x18 => some (.sb lc r1 r2 imm)
  | 0x19 => some (.sh lc r1 r2 imm)
  | 0x1A => some (.sw lc r1 r2 imm)
  | 0x1B => some (.sd lc r1 r2 imm)
  | 0x1C => match field w 0 11 with
    | 0 => some (.aadd lc r1 r2 r3)
    | 1 => some (.aswp lc r1 r2 r3)
    | 2 => some (.acas lc r1 r2 r3)
    | 3 => some (.amin lc r1 r2 r3)
    | 4 => some (.amax lc r1 r2 r3)
    | 5 => some (.aminu lc r1 r2 r3)
    | 6 => some (.amaxu lc r1 r2 r3)
    | _ => none
  | 0x20 => some (.beq lc r1 r2 imm)
  | 0x21 => some (.bne lc r1 r2 imm)
  | 0x22 => some (.blt lc r1 r2 imm)
  | 0x23 => some (.bge lc r1 r2 imm)
  | 0x24 => some (.bltu lc r1 r2 imm)
  | 0x25 => some (.bgeu lc r1 r2 imm)
  | 0x26 => some (.j lc off)
  | 0x27 => some (.jal lc off)
  | 0x28 => some (.jalr lc r1 r2 imm)
  | 0x31 => some (.vld lc r1 r2 imm)
  | 0x32 => some (.vst lc r1 r2 imm)
  | _ => none

/-- Op 0x30 by vfn (Tables ISA-12 and ISA-13). -/
def vectorOf (lc : LC) (w : Word32) : Option Instr :=
  let vd := regAt w 21
  let va := regAt w 16
  let vb := regAt w 11
  let pd := predAt w 21
  let m := maskAt w
  let et : BitVec 2 := w.extractLsb' 5 2
  let only := fun (b : Bool) (i : Instr) => if b then some i else none
  let toP := field w 24 2 = 0
  match field w 0 5 with
  | 0x00 => only (maskOk w) (.vadd lc vd va vb m et)
  | 0x01 => only (maskOk w) (.vsub lc vd va vb m et)
  | 0x02 => only (noMask w && et = 0) (.vand lc vd va vb)
  | 0x03 => only (noMask w && et = 0) (.vor lc vd va vb)
  | 0x04 => only (noMask w && et = 0) (.vxor lc vd va vb)
  | 0x05 => only (maskOk w) (.vmin lc vd va vb m et)
  | 0x06 => only (maskOk w) (.vmax lc vd va vb m et)
  | 0x07 => only (maskOk w) (.vsll lc vd va vb m et)
  | 0x08 => only (maskOk w) (.vsrl lc vd va vb m et)
  | 0x09 => only (maskOk w) (.vsra lc vd va vb m et)
  | 0x0A => only (maskOk w && toP) (.vcmpeq lc pd va vb m et)
  | 0x0B => only (maskOk w && toP) (.vcmplt lc pd va vb m et)
  | 0x10 => only (maskOk w && et ≤ 1) (.vfadd lc vd va vb m et)
  | 0x11 => only (maskOk w && et ≤ 1) (.vfsub lc vd va vb m et)
  | 0x12 => only (maskOk w && et ≤ 1) (.vfmul lc vd va vb m et)
  | 0x13 => only (maskOk w && et ≤ 1) (.vfma lc vd va vb m et)
  | 0x14 => only (maskOk w && et ≤ 1) (.vfdiv lc vd va vb m et)
  | 0x15 => only (maskOk w && et ≤ 1 && vb = 0) (.vfsqrt lc vd va m et)
  | 0x16 => only (maskOk w && et ≤ 1) (.vfmin lc vd va vb m et)
  | 0x17 => only (maskOk w && et ≤ 1) (.vfmax lc vd va vb m et)
  | 0x18 => only (maskOk w && et ≤ 1 && toP) (.vfcmplt lc pd va vb m et)
  | 0x19 => only (maskOk w && et ≤ 1 && toP) (.vfcmpeq lc pd va vb m et)
  | 0x1A => only (maskOk w && et ≤ 1 && vb = 0) (.vrsum lc vd va m et)
  | 0x1B => if noMask w && et = 0 then match vb.toNat with
      | 0 => some (.vcvtF32ToF64 lc vd va)
      | 1 => some (.vcvtF64ToF32 lc vd va)
      | 2 => some (.vcvtF32ToBf16 lc vd va)
      | 3 => some (.vcvtBf16ToF32 lc vd va)
      | 4 => some (.vcvtI32ToF32 lc vd va)
      | 5 => some (.vcvtF32ToI32 lc vd va)
      | _ => none
    else none
  | 0x1C => only (maskOk w && et = 1) (.vdot2Bf16 lc vd va vb m)
  | 0x1D => only (maskOk w && et = 1) (.vdot4I8 lc vd va vb m)
  | 0x1E => only (maskOk w && et = 1) (.vdot4U8s8 lc vd va vb m)
  | _ => none

/-- Op 0x33 by vfn (Table ISA-15). -/
def moveOf (lc : LC) (w : Word32) : Option Instr :=
  let r1 := regAt w 21
  let r2 := regAt w 16
  let r3 := regAt w 11
  let et : BitVec 2 := w.extractLsb' 5 2
  let p1 := predAt w 21
  let p2 := predAt w 16
  let p3 := predAt w 11
  let only := fun (b : Bool) (i : Instr) => if b && noMask w then some i else none
  match field w 0 5 with
  | 0x00 => only (et = 0 && r3 < 8) (.vmovg lc r1 r2 p3)
  | 0x01 => only (et = 0 && r3 < 8) (.vmovv lc r1 r2 p3)
  | 0x02 => only (r3 = 0) (.vbcast lc r1 r2 et)
  | 0x08 => only (et = 0 && r1 < 8 && r2 < 8 && r3 < 8) (.pand lc p1 p2 p3)
  | 0x09 => only (et = 0 && r1 < 8 && r2 < 8 && r3 < 8) (.por lc p1 p2 p3)
  | 0x0A => only (et = 0 && r1 < 8 && r2 < 8 && r3 < 8) (.pxor lc p1 p2 p3)
  | 0x0B => only (et = 0 && r1 < 8 && r2 < 8 && r3 = 0) (.pnot lc p1 p2)
  | 0x0C => only (et = 0 && r1 < 8 && r3 = 0) (.pset lc p1 r2)
  | 0x0D => only (et = 0 && r2 < 8 && r3 = 0) (.pget lc r1 p2)
  | _ => none

/-- TLB operations by arg12 (R114): TLBL and TLBU of either kind, TLBI forms with and without broadcast. -/
def tlbOf (lc : LC) (r1 r2 : Reg) (arg : Nat) : Option Instr :=
  let only := fun (b : Bool) (i : Instr) => if b then some i else none
  match arg with
  | 0x00 => some (.tlbl lc r1 r2 false)
  | 0x20 => some (.tlbl lc r1 r2 true)
  | 0x01 => only (r1 = 0) (.tlbu lc r2 false)
  | 0x21 => only (r1 = 0) (.tlbu lc r2 true)
  | 0x02 => only (r1 = 0) (.tlbiVa lc r2)
  | 0x03 => only (r1 = 0 && r2 = 0) (.tlbiAsid lc)
  | 0x04 => only (r1 = 0) (.tlbiPid lc r2)
  | 0x05 => only (r1 = 0 && r2 = 0) (.tlbiAll lc)
  | 0x12 => only (r1 = 0) (.tlbiBVa lc r2)
  | 0x13 => only (r1 = 0 && r2 = 0) (.tlbiBAsid lc)
  | 0x14 => only (r1 = 0) (.tlbiBPid lc r2)
  | 0x15 => only (r1 = 0 && r2 = 0) (.tlbiBAll lc)
  | _ => none

/-- Op 0x38 by sop and arg12 (R111, R113, R114). -/
def systemOf (lc : LC) (w : Word32) : Option Instr :=
  let r1 := regAt w 21
  let r2 := regAt w 16
  let arg := field w 0 12
  let nn : BitVec 8 := w.extractLsb' 0 8
  let only := fun (b : Bool) (i : Instr) => if b then some i else none
  match field w 12 4 with
  | 0x0 => only (r2 = 0 && (crLevels arg).isSome) (.crr lc r1 (w.extractLsb' 0 12))
  | 0x1 => only (r1 = 0 && (crLevels arg).isSome) (.crw lc (w.extractLsb' 0 12) r2)
  | 0x2 => match field w 8 4 with
    | 0 => only (r1 = 0 && r2 = 0) (.kcall lc nn)
    | 1 => only (r1 = 0 && r2 = 0) (.hcall lc nn)
    | 2 => only (r1 = 0 && r2 = 0) (.mcall lc nn)
    | 3 => only (r1 = 0 && r2 = 0) (.brk lc nn)
    | _ => none
  | 0x3 => match arg with
    | 0 => only (r1 = 0 && r2 = 0) (.eret lc)
    | 1 => only (r1 = 0 && r2 = 0) (.wait lc)
    | _ => none
  | 0x4 => match arg with
    | 0 => only (r1 = 0 && r2 = 0) (.fenceSl lc)
    | 1 => only (r1 = 0 && r2 = 0) (.fenceAll lc)
    | 2 => only (r1 = 0 && r2 = 0) (.ifence lc)
    | _ => none
  | 0x5 => tlbOf lc r1 r2 arg
  | 0x6 => match arg with
    | 0x000 => only (r1 = 0) (.dclC lc r2)
    | 0x001 => only (r1 = 0) (.dclI lc r2)
    | 0x002 => only (r1 = 0) (.dclCi lc r2)
    | 0x003 => only (r1 = 0) (.dclZ lc r2)
    | 0x004 => only (r1 = 0) (.dpf lc r2)
    | 0x010 => only (r1 = 0) (.iclI lc r2)
    | _ => none
  | _ => none

/-- The command that a word stands for on a core; none where the word raises ILLEGAL (R91). -/
def instrOf (lc : LC) (w : Word32) : Option Instr :=
  match field w 26 6 with
  | 0x01 | 0x02 => aluOf lc w
  | 0x30 => vectorOf lc w
  | 0x33 => moveOf lc w
  | 0x38 => systemOf lc w
  | _ => wordOpOf lc w

/-- Whether a word is a defined encoding (R91). -/
def legalWord (w : Word32) : Bool := (instrOf 0 w).isSome

/-! The word of a command. -/

/-- A word of format R. -/
def encR (op : BitVec 6) (r1 r2 r3 : Reg) (fn : BitVec 11) : Word32 := op ++ r1 ++ r2 ++ r3 ++ fn

/-- A word of the formats I, S and B. -/
def encI (op : BitVec 6) (r1 r2 : Reg) (imm : BitVec 16) : Word32 := op ++ r1 ++ r2 ++ imm

/-- A shift by an immediate. -/
def encShift (r1 r2 : Reg) (kind : BitVec 10) (n : BitVec 6) : Word32 := (0x09 : BitVec 6) ++ r1 ++ r2 ++ kind ++ n

/-- A word of format J. -/
def encJ (op : BitVec 6) (off : BitVec 26) : Word32 := op ++ off

/-- A register field that names a predicate register. -/
def asReg (p : PReg) : Reg := p.zeroExtend 5

/-- The word of a core instruction, none for any other command. -/
def wordOf : Instr → Option Word32
  | .add _ rd ra rb => some (encR 0x01 rd ra rb 0x000)
  | .sub _ rd ra rb => some (encR 0x01 rd ra rb 0x001)
  | .and _ rd ra rb => some (encR 0x01 rd ra rb 0x002)
  | .or _ rd ra rb => some (encR 0x01 rd ra rb 0x003)
  | .xor _ rd ra rb => some (encR 0x01 rd ra rb 0x004)
  | .sll _ rd ra rb => some (encR 0x01 rd ra rb 0x005)
  | .srl _ rd ra rb => some (encR 0x01 rd ra rb 0x006)
  | .sra _ rd ra rb => some (encR 0x01 rd ra rb 0x007)
  | .slt _ rd ra rb => some (encR 0x01 rd ra rb 0x008)
  | .sltu _ rd ra rb => some (encR 0x01 rd ra rb 0x009)
  | .min _ rd ra rb => some (encR 0x01 rd ra rb 0x00A)
  | .max _ rd ra rb => some (encR 0x01 rd ra rb 0x00B)
  | .minu _ rd ra rb => some (encR 0x01 rd ra rb 0x00C)
  | .maxu _ rd ra rb => some (encR 0x01 rd ra rb 0x00D)
  | .addw _ rd ra rb => some (encR 0x01 rd ra rb 0x010)
  | .subw _ rd ra rb => some (encR 0x01 rd ra rb 0x011)
  | .sllw _ rd ra rb => some (encR 0x01 rd ra rb 0x012)
  | .srlw _ rd ra rb => some (encR 0x01 rd ra rb 0x013)
  | .sraw _ rd ra rb => some (encR 0x01 rd ra rb 0x014)
  | .mul _ rd ra rb => some (encR 0x02 rd ra rb 0x000)
  | .mulh _ rd ra rb => some (encR 0x02 rd ra rb 0x001)
  | .mulhu _ rd ra rb => some (encR 0x02 rd ra rb 0x002)
  | .mulw _ rd ra rb => some (encR 0x02 rd ra rb 0x003)
  | .div _ rd ra rb => some (encR 0x02 rd ra rb 0x008)
  | .divu _ rd ra rb => some (encR 0x02 rd ra rb 0x009)
  | .rem _ rd ra rb => some (encR 0x02 rd ra rb 0x00A)
  | .remu _ rd ra rb => some (encR 0x02 rd ra rb 0x00B)
  | .divw _ rd ra rb => some (encR 0x02 rd ra rb 0x00C)
  | .divuw _ rd ra rb => some (encR 0x02 rd ra rb 0x00D)
  | .remw _ rd ra rb => some (encR 0x02 rd ra rb 0x00E)
  | .remuw _ rd ra rb => some (encR 0x02 rd ra rb 0x00F)
  | .clz _ rd ra => some (encR 0x01 rd ra 0 0x020)
  | .ctz _ rd ra => some (encR 0x01 rd ra 0 0x021)
  | .popc _ rd ra => some (encR 0x01 rd ra 0 0x022)
  | .addi _ rd ra imm => some (encI 0x03 rd ra imm)
  | .andi _ rd ra imm => some (encI 0x04 rd ra imm)
  | .ori _ rd ra imm => some (encI 0x05 rd ra imm)
  | .xori _ rd ra imm => some (encI 0x06 rd ra imm)
  | .slti _ rd ra imm => some (encI 0x07 rd ra imm)
  | .sltiu _ rd ra imm => some (encI 0x08 rd ra imm)
  | .slli _ rd ra n => some (encShift rd ra 0 n)
  | .srli _ rd ra n => some (encShift rd ra 1 n)
  | .srai _ rd ra n => some (encShift rd ra 2 n)
  | .kset _ rd imm => some (encI 0x0A rd 0 imm)
  | .ksetu _ rd imm => some (encI 0x0A rd 1 imm)
  | .kapp _ rd imm => some (encI 0x0A rd 2 imm)
  | .lb _ rd ra imm => some (encI 0x10 rd ra imm)
  | .lh _ rd ra imm => some (encI 0x11 rd ra imm)
  | .lw _ rd ra imm => some (encI 0x12 rd ra imm)
  | .ld _ rd ra imm => some (encI 0x13 rd ra imm)
  | .lbu _ rd ra imm => some (encI 0x14 rd ra imm)
  | .lhu _ rd ra imm => some (encI 0x15 rd ra imm)
  | .lwu _ rd ra imm => some (encI 0x16 rd ra imm)
  | .sb _ rs ra imm => some (encI 0x18 rs ra imm)
  | .sh _ rs ra imm => some (encI 0x19 rs ra imm)
  | .sw _ rs ra imm => some (encI 0x1A rs ra imm)
  | .sd _ rs ra imm => some (encI 0x1B rs ra imm)
  | .aadd _ rd ra rb => some (encR 0x1C rd ra rb 0)
  | .aswp _ rd ra rb => some (encR 0x1C rd ra rb 1)
  | .acas _ rd ra rb => some (encR 0x1C rd ra rb 2)
  | .amin _ rd ra rb => some (encR 0x1C rd ra rb 3)
  | .amax _ rd ra rb => some (encR 0x1C rd ra rb 4)
  | .aminu _ rd ra rb => some (encR 0x1C rd ra rb 5)
  | .amaxu _ rd ra rb => some (encR 0x1C rd ra rb 6)
  | .beq _ ra rb off => some (encI 0x20 ra rb off)
  | .bne _ ra rb off => some (encI 0x21 ra rb off)
  | .blt _ ra rb off => some (encI 0x22 ra rb off)
  | .bge _ ra rb off => some (encI 0x23 ra rb off)
  | .bltu _ ra rb off => some (encI 0x24 ra rb off)
  | .bgeu _ ra rb off => some (encI 0x25 ra rb off)
  | .j _ off => some (encJ 0x26 off)
  | .jal _ off => some (encJ 0x27 off)
  | .jalr _ rd ra imm => some (encI 0x28 rd ra imm)
  | .vld _ vd ra imm => some (encI 0x31 vd ra imm)
  | .vst _ vs ra imm => some (encI 0x32 vs ra imm)
  | .vadd _ vd va vb m et => some (encV 0x30 vd va vb m et 0x00)
  | .vsub _ vd va vb m et => some (encV 0x30 vd va vb m et 0x01)
  | .vmin _ vd va vb m et => some (encV 0x30 vd va vb m et 0x05)
  | .vmax _ vd va vb m et => some (encV 0x30 vd va vb m et 0x06)
  | .vsll _ vd va vb m et => some (encV 0x30 vd va vb m et 0x07)
  | .vsrl _ vd va vb m et => some (encV 0x30 vd va vb m et 0x08)
  | .vsra _ vd va vb m et => some (encV 0x30 vd va vb m et 0x09)
  | .vfadd _ vd va vb m et => some (encV 0x30 vd va vb m et 0x10)
  | .vfsub _ vd va vb m et => some (encV 0x30 vd va vb m et 0x11)
  | .vfmul _ vd va vb m et => some (encV 0x30 vd va vb m et 0x12)
  | .vfma _ vd va vb m et => some (encV 0x30 vd va vb m et 0x13)
  | .vfdiv _ vd va vb m et => some (encV 0x30 vd va vb m et 0x14)
  | .vfmin _ vd va vb m et => some (encV 0x30 vd va vb m et 0x16)
  | .vfmax _ vd va vb m et => some (encV 0x30 vd va vb m et 0x17)
  | .vand _ vd va vb => some (encV 0x30 vd va vb none 0 0x02)
  | .vor _ vd va vb => some (encV 0x30 vd va vb none 0 0x03)
  | .vxor _ vd va vb => some (encV 0x30 vd va vb none 0 0x04)
  | .vcmpeq _ pd va vb m et => some (encV 0x30 (asReg pd) va vb m et 0x0A)
  | .vcmplt _ pd va vb m et => some (encV 0x30 (asReg pd) va vb m et 0x0B)
  | .vfcmplt _ pd va vb m et => some (encV 0x30 (asReg pd) va vb m et 0x18)
  | .vfcmpeq _ pd va vb m et => some (encV 0x30 (asReg pd) va vb m et 0x19)
  | .vfsqrt _ vd va m et => some (encV 0x30 vd va 0 m et 0x15)
  | .vrsum _ vd va m et => some (encV 0x30 vd va 0 m et 0x1A)
  | .vcvtF32ToF64 _ vd va => some (encV 0x30 vd va 0 none 0 0x1B)
  | .vcvtF64ToF32 _ vd va => some (encV 0x30 vd va 1 none 0 0x1B)
  | .vcvtF32ToBf16 _ vd va => some (encV 0x30 vd va 2 none 0 0x1B)
  | .vcvtBf16ToF32 _ vd va => some (encV 0x30 vd va 3 none 0 0x1B)
  | .vcvtI32ToF32 _ vd va => some (encV 0x30 vd va 4 none 0 0x1B)
  | .vcvtF32ToI32 _ vd va => some (encV 0x30 vd va 5 none 0 0x1B)
  | .vdot2Bf16 _ vd va vb m => some (encV 0x30 vd va vb m 1 0x1C)
  | .vdot4I8 _ vd va vb m => some (encV 0x30 vd va vb m 1 0x1D)
  | .vdot4U8s8 _ vd va vb m => some (encV 0x30 vd va vb m 1 0x1E)
  | .vmovg _ rd va k => some (encV 0x33 rd va (asReg k) none 0 0x00)
  | .vmovv _ vd ra k => some (encV 0x33 vd ra (asReg k) none 0 0x01)
  | .vbcast _ vd ra et => some (encV 0x33 vd ra 0 none et 0x02)
  | .pand _ pd pa pb => some (encV 0x33 (asReg pd) (asReg pa) (asReg pb) none 0 0x08)
  | .por _ pd pa pb => some (encV 0x33 (asReg pd) (asReg pa) (asReg pb) none 0 0x09)
  | .pxor _ pd pa pb => some (encV 0x33 (asReg pd) (asReg pa) (asReg pb) none 0 0x0A)
  | .pnot _ pd pa => some (encV 0x33 (asReg pd) (asReg pa) 0 none 0 0x0B)
  | .pset _ pd ra => some (encV 0x33 (asReg pd) ra 0 none 0 0x0C)
  | .pget _ rd pa => some (encV 0x33 rd (asReg pa) 0 none 0 0x0D)
  | .crr _ rd n => some (encY rd 0 0x0 n.toNat)
  | .crw _ n ra => some (encY 0 ra 0x1 n.toNat)
  | .kcall _ nn => some (encY 0 0 0x2 nn.toNat)
  | .hcall _ nn => some (encY 0 0 0x2 (0x100 + nn.toNat))
  | .mcall _ nn => some (encY 0 0 0x2 (0x200 + nn.toNat))
  | .brk _ nn => some (encY 0 0 0x2 (0x300 + nn.toNat))
  | .eret _ => some (encY 0 0 0x3 0)
  | .wait _ => some (encY 0 0 0x3 1)
  | .fenceSl _ => some (encY 0 0 0x4 0)
  | .fenceAll _ => some (encY 0 0 0x4 1)
  | .ifence _ => some (encY 0 0 0x4 2)
  | .tlbl _ rd ra k => some (encY rd ra 0x5 (0x20 * b2n k))
  | .tlbu _ ra k => some (encY 0 ra 0x5 (0x01 + 0x20 * b2n k))
  | .tlbiVa _ ra => some (encY 0 ra 0x5 0x02)
  | .tlbiAsid _ => some (encY 0 0 0x5 0x03)
  | .tlbiPid _ ra => some (encY 0 ra 0x5 0x04)
  | .tlbiAll _ => some (encY 0 0 0x5 0x05)
  | .tlbiBVa _ ra => some (encY 0 ra 0x5 0x12)
  | .tlbiBAsid _ => some (encY 0 0 0x5 0x13)
  | .tlbiBPid _ ra => some (encY 0 ra 0x5 0x14)
  | .tlbiBAll _ => some (encY 0 0 0x5 0x15)
  | .dclC _ ra => some (encY 0 ra 0x6 0x000)
  | .dclI _ ra => some (encY 0 ra 0x6 0x001)
  | .dclCi _ ra => some (encY 0 ra 0x6 0x002)
  | .dclZ _ ra => some (encY 0 ra 0x6 0x003)
  | .dpf _ ra => some (encY 0 ra 0x6 0x004)
  | .iclI _ ra => some (encY 0 ra 0x6 0x010)
  | _ => none

end Sys2Proof.Machine
end

