-- ==== Sys2Proof/WellFormed.lean ====
section
/-!
DEFINITION. Which commands are well formed: the ones whose operands spell the row that their
constructor names. A message carries the command code of its row and a data flit where that command
has one (Tables COH-1, FAB-3); a control-plane frame its OP (Table FAB-5); a packet of the Shepherd
its opcode (Table CMD-5); a word that raises ILLEGAL no defined encoding (R91); a Mirror unit its code
(Table MIR-2); a laser sample one power for each of 36 lines (R261); a request of the host no more than a
TLP can (R341).
-/

namespace Sys2Proof

/-- The commands that bring a data flit (Tables COH-1 and FAB-3). -/
def MsgKind.hasData : MsgKind → Bool
  | .wrUnique | .writeBack | .atomicAtHome | .ansGoneData | .ansSharedData | .ansKeepData
  | .grantS | .grantE | .readData | .atomicOld | .scrWr | .devWr | .hostWr | .ncData => true
  | _ => false

/-- A message of one command, with its data flit. -/
def Msg.carries (m : Msg) (k : MsgKind) : Bool :=
  m.kind == k && (!k.hasData || m.data.isSome || m.poisoned)

/-- Whether the operands of a command spell its row. -/
def Instr.wellFormed : Instr → Bool
  | .addi _ _ _ _ => true
  | .andi _ _ _ _ => true
  | .ori _ _ _ _ => true
  | .xori _ _ _ _ => true
  | .slti _ _ _ _ => true
  | .sltiu _ _ _ _ => true
  | .slli _ _ _ _ => true
  | .srli _ _ _ _ => true
  | .srai _ _ _ _ => true
  | .kset _ _ _ => true
  | .ksetu _ _ _ => true
  | .kapp _ _ _ => true
  | .add _ _ _ _ => true
  | .sub _ _ _ _ => true
  | .and _ _ _ _ => true
  | .or _ _ _ _ => true
  | .xor _ _ _ _ => true
  | .sll _ _ _ _ => true
  | .srl _ _ _ _ => true
  | .sra _ _ _ _ => true
  | .slt _ _ _ _ => true
  | .sltu _ _ _ _ => true
  | .min _ _ _ _ => true
  | .max _ _ _ _ => true
  | .minu _ _ _ _ => true
  | .maxu _ _ _ _ => true
  | .addw _ _ _ _ => true
  | .subw _ _ _ _ => true
  | .sllw _ _ _ _ => true
  | .srlw _ _ _ _ => true
  | .sraw _ _ _ _ => true
  | .clz _ _ _ => true
  | .ctz _ _ _ => true
  | .popc _ _ _ => true
  | .mul _ _ _ _ => true
  | .mulh _ _ _ _ => true
  | .mulhu _ _ _ _ => true
  | .mulw _ _ _ _ => true
  | .div _ _ _ _ => true
  | .divu _ _ _ _ => true
  | .rem _ _ _ _ => true
  | .remu _ _ _ _ => true
  | .divw _ _ _ _ => true
  | .divuw _ _ _ _ => true
  | .remw _ _ _ _ => true
  | .remuw _ _ _ _ => true
  | .illegalEncoding _ w => !Machine.legalWord w
  | .lb _ _ _ _ => true
  | .lh _ _ _ _ => true
  | .lw _ _ _ _ => true
  | .ld _ _ _ _ => true
  | .lbu _ _ _ _ => true
  | .lhu _ _ _ _ => true
  | .lwu _ _ _ _ => true
  | .sb _ _ _ _ => true
  | .sh _ _ _ _ => true
  | .sw _ _ _ _ => true
  | .sd _ _ _ _ => true
  | .storeDrain _ => true
  | .storeBus _ => true
  | .scratchLoadReturn _ => true
  | .beq _ _ _ _ => true
  | .bne _ _ _ _ => true
  | .blt _ _ _ _ => true
  | .bge _ _ _ _ => true
  | .bltu _ _ _ _ => true
  | .bgeu _ _ _ _ => true
  | .j _ _ => true
  | .jal _ _ => true
  | .jalr _ _ _ _ => true
  | .vadd _ _ _ _ _ _ => true
  | .vsub _ _ _ _ _ _ => true
  | .vand _ _ _ _ => true
  | .vor _ _ _ _ => true
  | .vxor _ _ _ _ => true
  | .vmin _ _ _ _ _ _ => true
  | .vmax _ _ _ _ _ _ => true
  | .vsll _ _ _ _ _ _ => true
  | .vsrl _ _ _ _ _ _ => true
  | .vsra _ _ _ _ _ _ => true
  | .vcmpeq _ _ _ _ _ _ => true
  | .vcmplt _ _ _ _ _ _ => true
  | .vfadd _ _ _ _ _ _ => true
  | .vfsub _ _ _ _ _ _ => true
  | .vfmul _ _ _ _ _ _ => true
  | .vfma _ _ _ _ _ _ => true
  | .vfdiv _ _ _ _ _ _ => true
  | .vfsqrt _ _ _ _ _ => true
  | .vfmin _ _ _ _ _ _ => true
  | .vfmax _ _ _ _ _ _ => true
  | .vfcmplt _ _ _ _ _ _ => true
  | .vfcmpeq _ _ _ _ _ _ => true
  | .vrsum _ _ _ _ _ => true
  | .vcvtF32ToF64 _ _ _ => true
  | .vcvtF64ToF32 _ _ _ => true
  | .vcvtF32ToBf16 _ _ _ => true
  | .vcvtBf16ToF32 _ _ _ => true
  | .vcvtI32ToF32 _ _ _ => true
  | .vcvtF32ToI32 _ _ _ => true
  | .vdot2Bf16 _ _ _ _ _ => true
  | .vdot4I8 _ _ _ _ _ => true
  | .vdot4U8s8 _ _ _ _ _ => true
  | .vld _ _ _ _ => true
  | .vst _ _ _ _ => true
  | .vmovg _ _ _ _ => true
  | .vmovv _ _ _ _ => true
  | .vbcast _ _ _ _ => true
  | .pand _ _ _ _ => true
  | .por _ _ _ _ => true
  | .pxor _ _ _ _ => true
  | .pnot _ _ _ => true
  | .pset _ _ _ => true
  | .pget _ _ _ => true
  | .vectorStart _ => true
  | .aadd _ _ _ _ => true
  | .aswp _ _ _ _ => true
  | .acas _ _ _ _ => true
  | .amin _ _ _ _ => true
  | .amax _ _ _ _ => true
  | .aminu _ _ _ _ => true
  | .amaxu _ _ _ _ => true
  | .crr _ _ _ => true
  | .crw _ _ _ => true
  | .kcall _ _ => true
  | .hcall _ _ => true
  | .mcall _ _ => true
  | .brk _ _ => true
  | .eret _ => true
  | .wait _ => true
  | .waitWake _ => true
  | .fenceSl _ => true
  | .fenceAll _ => true
  | .ifence _ => true
  | .tlbl _ _ _ _ => true
  | .tlbu _ _ _ => true
  | .tlbiVa _ _ => true
  | .tlbiAsid _ => true
  | .tlbiPid _ _ => true
  | .tlbiAll _ => true
  | .tlbiBVa _ _ => true
  | .tlbiBAsid _ => true
  | .tlbiBPid _ _ => true
  | .tlbiBAll _ => true
  | .dclC _ _ => true
  | .dclI _ _ => true
  | .dclCi _ _ => true
  | .dclZ _ _ => true
  | .dpf _ _ => true
  | .iclI _ _ => true
  | .l1iInvalidationApply _ => true
  | .acctClear _ => true
  | .beatRateWindow _ _ _ => true
  | .interruptEntry _ => true
  | .intOffer _ _ => true
  | .deadline _ _ => true
  | .sgi _ _ => true
  | .eoi _ _ => true
  | .intdMsg _ _ _ => true
  | .enableSet _ _ _ => true
  | .enableClr _ _ _ => true
  | .pendSet _ _ _ => true
  | .pendClr _ _ _ => true
  | .intdTargetWrite _ _ _ _ => true
  | .gpioPinChange _ _ => true
  | .uartRx _ _ _ => true
  | .uartDataWrite _ _ _ => true
  | .uartDataRead _ _ => true
  | .i2cGo _ _ _ => true
  | .i2cDone _ _ => true
  | .rmeClaimReq _ _ => true
  | .rmeClaimRel _ _ => true
  | .rmeClean _ _ _ => true
  | .rmeInval _ _ _ => true
  | .rmeCleanInval _ _ _ => true
  | .rmeZero _ _ _ => true
  | .rmeLock _ _ _ => true
  | .rmeUnlock _ _ _ => true
  | .rmePrefetch _ _ _ => true
  | .rmeLineStep _ => true
  | .rmeComplete _ => true
  | .rmeAbort _ _ => true
  | .rdShared m => m.carries .rdShared
  | .rdUnique m => m.carries .rdUnique
  | .rdOnce m => m.carries .rdOnce
  | .wrUnique m => m.carries .wrUnique
  | .upgrade m => m.carries .upgrade
  | .evict m => m.carries .evict
  | .writeBack m => m.carries .writeBack
  | .atomicAtHome m => m.carries .atomicAtHome
  | .cmoClean m => m.carries .cmo && m.addr.toNat % 4 == 0
  | .cmoInval m => m.carries .cmo && m.addr.toNat % 4 == 1
  | .cmoCleanInval m => m.carries .cmo && m.addr.toNat % 4 == 2
  | .cmoZero m => m.carries .cmo && m.addr.toNat % 4 == 3
  | .snpShared m => m.carries .snpShared
  | .snpInval m => m.carries .snpInval
  | .snpOnce m => m.carries .snpOnce
  | .ansGone m => m.carries .ansGone
  | .ansShared m => m.carries .ansShared
  | .ansKeep m => m.carries .ansKeep
  | .ansGoneData m => m.carries .ansGoneData
  | .ansSharedData m => m.carries .ansSharedData
  | .ansKeepData m => m.carries .ansKeepData
  | .grantS m => m.carries .grantS
  | .grantE m => m.carries .grantE
  | .readData m => m.carries .readData
  | .homeDone m => m.carries .homeDone
  | .atomicOld m => m.carries .atomicOld
  | .homeRefuse m => m.carries .homeRefuse
  | .homePoison m => m.carries .homePoison
  | .evictDone m => m.carries .evictDone
  | .grantSeen m => m.carries .grantSeen
  | .snoopTimeout _ _ _ => true
  | .scrRd m => m.carries .scrRd
  | .scrWr m => m.carries .scrWr
  | .devRd m => m.carries .devRd
  | .devWr m => m.carries .devWr
  | .hostRd m => m.carries .hostRd
  | .hostWr m => m.carries .hostWr
  | .ncData m => m.carries .ncData
  | .ncAck m => m.carries .ncAck
  | .ncErr m => m.carries .ncErr
  | .ncPoison m => m.carries .ncPoison
  | .intMsg m => m.carries .intMsg
  | .intAck m => m.carries .intAck
  | .tlbBcast m => m.carries .tlbBcast
  | .tlbAck m => m.carries .tlbAck
  | .roleGone m => m.carries .roleGone
  | .regWindowStart _ => true
  | .measWindowEnd _ _ => true
  | .guaranteeRecompute => true
  | .mcFillRequest _ _ _ => true
  | .mcWriteRequest _ _ _ _ _ => true
  | .mcReadIssue _ _ => true
  | .mcWriteIssue _ _ => true
  | .mcReadData _ _ _ => true
  | .refreshDue _ _ => true
  | .selfRefreshEntry _ _ => true
  | .tempReadout _ _ => true
  | .scrubEarn _ _ => true
  | .scrubRead _ _ => true
  | .lapOverdue _ _ => true
  | .stackSelfRefresh _ => true
  | .stackSelfRefreshExit _ => true
  | .keepEntry _ => true
  | .keepExit _ => true
  | .keepFillDone _ => true
  | .laserSample _ _ p => p.length == 36
  | .laserSwitchGo => true
  | .xfadeEnd => true
  | .standbyNominal => true
  | .frameReceive _ _ => true
  | .nakRepeat _ => true
  | .linkctl _ _ => true
  | .lswDupReq _ _ => true
  | .lswReady _ _ => true
  | .lswSwitch _ _ => true
  | .lswNarrow _ _ => true
  | .lswWide _ _ => true
  | .laneLock _ _ => true
  | .laneDown _ _ _ => true
  | .linkLost _ => true
  | .narrow _ _ => true
  | .siteBringUp _ => true
  | .hello _ _ => true
  | .helloTimeout _ => true
  | .cap0 _ _ _ => true
  | .cap1 _ _ _ => true
  | .cap2 _ _ _ => true
  | .cap3 _ _ _ => true
  | .result _ _ _ => true
  | .refuse _ _ => true
  | .trainingEnd _ _ _ => true
  | .trainLo _ _ _ => true
  | .trainHi _ _ _ => true
  | .linkReady _ _ => true
  | .sidebandResend _ => true
  | .ringRead f => f.op == 1
  | .ringWrite f => f.op == 2
  | .readReply f => f.op == 3
  | .writeReply f => f.op == 4
  | .commitArm f => f.op == 8
  | .commitFire f => f.op == 8
  | .commitResume f => f.op == 8
  | .commitDisarm f => f.op == 8
  | .quiescentSwitch _ => true
  | .commitDrainEnd => true
  | .commitAckTimeout => true
  | .snapshot f => f.op == 9
  | .snapshotInstant _ => true
  | .snapshotGather _ _ => true
  | .reportSlot f => f.op == 10
  | .report f => f.op == 11
  | .cpFrameTimeout _ _ _ => true
  | .auditLatch _ => true
  | .reflSlot _ => true
  | .windowEnd _ _ => true
  | .replayClose _ _ _ _ => true
  | .safeN _ => true
  | .heartbeatToggle _ => true
  | .lockstepMismatch => true
  | .domainRestart => true
  | .hb u => u.code == 0
  | .hbSend _ => true
  | .hbMiss _ => true
  | .partnerFailure => true
  | .mirrorLinkDown => true
  | .cut _ => true
  | .epochShip => true
  | .mirLine u => u.code == 1
  | .ckpt u => u.code == 2
  | .mirEnd u => u.code == 3
  | .baseEnd u => u.code == 4
  | .mirAck u => u.code == 5
  | .shedEngage _ _ _ _ => true
  | .shed5Delay _ => true
  | .shedLift _ _ => true
  | .supplyReset _ _ => true
  | .vauxLoss => true
  | .porN _ => true
  | .wake _ => true
  | .thermtrip _ => true
  | .pmbusPoll _ => true
  | .pmbAlert _ => true
  | .storeWrite => true
  | .partitionReset _ => true
  | .scntAlarm => true
  | .certExpiry _ => true
  | .configRequest t => decide (t.bytes ≤ 4)
  | .memoryRead t => decide (t.write = false ∧ t.bytes ≤ 4096)
  | .memoryWrite t => decide (t.write = true ∧ t.data.length ≤ 512)
  | .messageTlp _ => true
  | .completion _ => true
  | .completionTimeout _ => true
  | .dlDown => true
  | .hotReset => true
  | .perstN _ => true
  | .flr _ => true
  | .release => true
  | .sqTailDoorbell _ _ _ => true
  | .cqHeadDoorbell _ _ _ => true
  | .aqCfgWrite _ => true
  | .workHead _ _ => true
  | .dcrTail _ _ => true
  | .sqFetch _ => true
  | .dcrRead _ => true
  | .cqWrite _ => true
  | .foldCtxpRead _ => true
  | .foldCtxpConfig _ => true
  | .foldCtxpCreate _ => true
  | .foldCtxpDelete _ => true
  | .foldCtxpReset _ => true
  | .foldCtxpEnable _ => true
  | .foldCtxpRestore _ => true
  | .logSwap _ => true
  | .logSwapDone _ => true
  | .mbClaimReq _ _ _ => true
  | .mbClaimRel _ _ _ => true
  | .mbGo _ _ _ _ => true
  | .adminSqDoorbell _ => true
  | .adminCqDoorbell _ => true
  | .infoVersion r => r.op == 0x0100
  | .infoSlots r => r.op == 0x0101
  | .infoCoreMap r => r.op == 0x0102
  | .infoDistance r => r.op == 0x0103
  | .eventRead r => r.op == 0x0104
  | .infoParts r => r.op == 0x0105
  | .stageOpen r => r.op == 0x0200
  | .stageSet r => r.op == 0x0201
  | .stageCheck r => r.op == 0x0202
  | .stageCommit r => r.op == 0x0203
  | .stageAbort r => r.op == 0x0204
  | .stageIdleAbort _ _ => true
  | .stageStatus r => r.op == 0x0205
  | .partCreate r => r.op == 0x0300
  | .partDelete r => r.op == 0x0301
  | .partImageLoad r => r.op == 0x0302
  | .partStart r => r.op == 0x0303
  | .partStop r => r.op == 0x0304
  | .partReset r => r.op == 0x0305
  | .unitRelease r => r.op == 0x0310
  | .unitAssign r => r.op == 0x0311
  | .queueCreate r => r.op == 0x0320
  | .queueConfig r => r.op == 0x0321
  | .queueDelete r => r.op == 0x0322
  | .queueReset r => r.op == 0x0323
  | .queueEnable r => r.op == 0x0324
  | .queueSave r => r.op == 0x0325
  | .queueRestore r => r.op == 0x0326
  | .groupPause r => r.op == 0x0330
  | .groupResume r => r.op == 0x0331
  | .dirtyLogStart r => r.op == 0x0338
  | .dirtyLogSwap r => r.op == 0x0339
  | .dirtyLogStop r => r.op == 0x033A
  | .powerDomain r => r.op == 0x0400
  | .powerState r => r.op == 0x0401
  | .powerStatus r => r.op == 0x0402
  | .faultRead r => r.op == 0x0500
  | .faultAck r => r.op == 0x0501
  | .domainStop r => r.op == 0x0502
  | .coverageRead r => r.op == 0x0503
  | .mirrorStatus r => r.op == 0x0600
  | .mirrorRole r => r.op == 0x0601
  | .mirrorResync r => r.op == 0x0602
  | .coreSwap r => r.op == 0x0700
  | .wlSwap r => r.op == 0x0701
  | .laserSwitch r => r.op == 0x0702
  | .certLoad r => r.op == 0x0800
  | .certClose r => r.op == 0x0801
  | .certStatus r => r.op == 0x0802
  | .setSecureTime r => r.op == 0x0810
  | .imageWrite r => r.op == 0x0900
  | .imageVerify r => r.op == 0x0901
  | .imageActivate r => r.op == 0x0902
  | .imageConfirm r => r.op == 0x0903
  | .fwSwitch r => r.op == 0x0904
  | .switchGap => true
  | .snapConfig r => r.op == 0x0A00
  | .snapRead r => r.op == 0x0A01
  | .cpRead r => r.op == 0x0B00
  | .cpWrite r => r.op == 0x0B01
  | .badOpcode r => !Machine.opcodes.contains r.op.toNat
  | .pmuClear _ => true
  | .counterLoRead _ => true
  | .peakClear _ => true
  | .railMinClear _ => true
  | .lpClear _ => true
  | .traceEn _ _ => true
  | .traceDataRead _ => true
  | .extest _ => true
  | .samplePreload _ => true
  | .idcode => true
  | .ijtagAccess _ => true
  | .bypass => true
  | .dbgStatus _ _ => true
  | .dbgHalt _ _ => true
  | .dbgResume _ _ => true
  | .dbgStep _ _ => true
  | .dbgRdreg _ _ _ => true
  | .dbgWrreg _ _ _ _ => true
  | .dbgSetaddr _ _ _ => true
  | .dbgRdmem _ _ => true
  | .dbgWrmem _ _ _ => true
  | .registerWrite _ _ => true
  | .dlUp => true
  | .mirrorLinkUp => true
  | .vauxPowerUp => true
  | .supplyResetRelease _ => true
  | .rtrBwWindowEnd _ _ => true
  | .coreBistDone _ _ _ => true
  | .coreDebug _ => true
  | .uartTxDone _ => true
  | .unitReleaseDelay _ _ => true

/-- A command whose operands spell its row. -/
abbrev Instr.WellFormed (i : Instr) : Prop := i.wellFormed = true

end Sys2Proof
end

