-- ==== Sys2Proof/Certificates/Slice0/Obligations.lean ====
section
/-!
DEFINITION. The statements for the provers, and the tables of commands that they quantify over.
-/

open Sys2Proof Sys2Proof.Machine Sys2Proof.Claims

/-! The queue. -/

/-- A step takes the command at the front of the queue and runs it on the state with the queue's rest. -/
def Obligations.StepRunsFront : Prop :=
  ∀ (c : Instr) (s : State) (rest : List Instr), s.pending = c :: rest →
    step s = exec c (s.withPending rest)

/-- On an empty queue reference time advances by 1 ns and nothing else changes: the model's choice
(assumption 2). -/
def Obligations.EmptyQueueTicks : Prop :=
  ∀ s : State, s.pending = [] → step s = .next { s with tb := s.tb + 1 }

/-! Integer instructions (Tables ISA-8, ISA-9). -/

namespace Sys2Proof.Claims

/-- The 32-bit operand of a W form. -/
abbrev lo (a : Word) : Word32 := a.truncate 32

/-- The two-register instructions of Table ISA-9 but the divisions, and what each writes to gd. -/
def integerForms : List ((LC → Reg → Reg → Reg → Instr) × (Word → Word → Word)) :=
  [(.add, fun a b => a + b), (.sub, fun a b => a - b), (.and, fun a b => a &&& b),
   (.or, fun a b => a ||| b), (.xor, fun a b => a ^^^ b),
   (.sll, fun a b => a <<< (b.toNat % 64)), (.srl, fun a b => a >>> (b.toNat % 64)),
   (.sra, fun a b => a.sshiftRight (b.toNat % 64)),
   (.slt, fun a b => if a.toInt < b.toInt then 1 else 0),
   (.sltu, fun a b => if a.toNat < b.toNat then 1 else 0),
   (.min, fun a b => if a.toInt < b.toInt then a else b),
   (.max, fun a b => if a.toInt < b.toInt then b else a),
   (.minu, fun a b => if a.toNat < b.toNat then a else b),
   (.maxu, fun a b => if a.toNat < b.toNat then b else a),
   (.addw, fun a b => (lo a + lo b).signExtend 64),
   (.subw, fun a b => (lo a - lo b).signExtend 64),
   (.sllw, fun a b => (lo a <<< (b.toNat % 32)).signExtend 64),
   (.srlw, fun a b => (lo a >>> (b.toNat % 32)).signExtend 64),
   (.sraw, fun a b => ((lo a).sshiftRight (b.toNat % 32)).signExtend 64),
   (.mul, fun a b => a * b),
   (.mulh, fun a b => BitVec.ofInt 64 (a.toInt * b.toInt / 2 ^ 64)),
   (.mulhu, fun a b => BitVec.ofNat 64 (a.toNat * b.toNat / 2 ^ 64)),
   (.mulw, fun a b => (lo a * lo b).signExtend 64)]

/-- The instructions of Table ISA-8 with ga and imm16, and what each writes to gd. -/
def immediateForms : List ((LC → Reg → Reg → BitVec 16 → Instr) × (Word → BitVec 16 → Word)) :=
  [(.addi, fun a i => a + i.signExtend 64), (.andi, fun a i => a &&& i.zeroExtend 64),
   (.ori, fun a i => a ||| i.zeroExtend 64), (.xori, fun a i => a ^^^ i.zeroExtend 64),
   (.slti, fun a i => if a.toInt < i.toInt then 1 else 0),
   (.sltiu, fun a i => if a.toNat < (i.signExtend 64).toNat then 1 else 0)]

/-- The shifts of Table ISA-8. -/
def shiftForms : List ((LC → Reg → Reg → BitVec 6 → Instr) × (Word → BitVec 6 → Word)) :=
  [(.slli, fun a n => a <<< n.toNat), (.srli, fun a n => a >>> n.toNat),
   (.srai, fun a n => a.sshiftRight n.toNat)]

/-- The instructions of Table ISA-8 without ga, and what each writes to gd, from the old gd. -/
def constantForms : List ((LC → Reg → BitVec 16 → Instr) × (Word → BitVec 16 → Word)) :=
  [(.kset, fun _ i => i.signExtend 64), (.ksetu, fun _ i => i.zeroExtend 64),
   (.kapp, fun d i => (d <<< 16) ||| i.zeroExtend 64)]

/-- `n` counts the zeros of `a` above its highest set bit, 64 where none is set. -/
def LeadingZeros (a : Word) (n : Nat) : Prop :=
  n ≤ 64 ∧ (∀ i, 64 - n ≤ i → a.getLsbD i = false) ∧ (n < 64 → a.getLsbD (63 - n) = true)

/-- `n` counts the zeros of `a` below its lowest set bit, 64 where none is set. -/
def TrailingZeros (a : Word) (n : Nat) : Prop :=
  n ≤ 64 ∧ (∀ i, i < n → a.getLsbD i = false) ∧ (n < 64 → a.getLsbD n = true)

/-- `n` counts the set bits of `a`. -/
def SetBits (a : Word) (n : Nat) : Prop := n = ((List.range 64).filter fun i => a.getLsbD i).length

/-- The counts of Table ISA-9. -/
def countForms : List ((LC → Reg → Reg → Instr) × (Word → Nat → Prop)) :=
  [(.clz, LeadingZeros), (.ctz, TrailingZeros), (.popc, SetBits)]

/-- The divisions of Table ISA-9: instruction, operand width, and whether signed and a remainder. -/
def divisionForms : List ((LC → Reg → Reg → Reg → Instr) × Nat × Bool × Bool) :=
  [(.div, 64, true, false), (.divu, 64, false, false), (.rem, 64, true, true),
   (.remu, 64, false, true), (.divw, 32, true, false), (.divuw, 32, false, false),
   (.remw, 32, true, true), (.remuw, 32, false, true)]

/-- What a division of `a` by `b`, of the width of its operands, gives (R97): by 0 all ones and the
dividend, else the quotient rounded toward 0 and its remainder; the most negative value by -1 that value
and 0. -/
def Divides {w : Nat} (sgn rem : Bool) (a b x : BitVec w) : Prop :=
  (b = 0 → x = if rem then a else BitVec.allOnes w) ∧
  (b ≠ 0 → sgn = false → x.toNat = if rem then a.toNat % b.toNat else a.toNat / b.toNat) ∧
  (b ≠ 0 → sgn = true → a = BitVec.intMin w → b = BitVec.allOnes w → x = if rem then 0 else a) ∧
  (b ≠ 0 → sgn = true → ¬ (a = BitVec.intMin w ∧ b = BitVec.allOnes w) →
    x.toInt = if rem then a.toInt.tmod b.toInt else a.toInt.tdiv b.toInt)

end Sys2Proof.Claims

/-- The two-register integer instructions but the divisions write to gd what Table ISA-9 gives and change
nothing else; a write to g0 is discarded. -/
def Sys2Proof.Claims.IntegerRegisterResults : Prop :=
  ∀ e ∈ integerForms, ∀ lc rd ra rb s k t u,
    Runs s lc { reads := [gIdx ra, gIdx rb], writes := [gIdx rd] } k t u →
    Completes (e.1 lc rd ra rb) s (ScalarResult lc rd
      (e.2 ((u.core lc).getG ra) ((u.core lc).getG rb)) u)

/-- The immediate forms, shifts and constants of Table ISA-8 write to gd what it gives and change nothing
else. -/
def Sys2Proof.Claims.IntegerImmediateResults : Prop :=
  (∀ e ∈ immediateForms, ∀ lc rd ra imm s k t u,
    Runs s lc { reads := [gIdx ra], writes := [gIdx rd] } k t u →
    Completes (e.1 lc rd ra imm) s (ScalarResult lc rd (e.2 ((u.core lc).getG ra) imm) u)) ∧
  (∀ e ∈ shiftForms, ∀ lc rd ra n s k t u,
    Runs s lc { reads := [gIdx ra], writes := [gIdx rd] } k t u →
    Completes (e.1 lc rd ra n) s (ScalarResult lc rd (e.2 ((u.core lc).getG ra) n) u)) ∧
  (∀ e ∈ constantForms, ∀ lc rd imm s k t u,
    Runs s lc { reads := if e.1 lc rd imm = .kapp lc rd imm then [gIdx rd] else [],
                writes := [gIdx rd] } k t u →
    Completes (e.1 lc rd imm) s (ScalarResult lc rd (e.2 ((u.core lc).getG rd) imm) u))

/-- CLZ, CTZ and POPC write to gd the count of Table ISA-9 and change nothing else. -/
def Sys2Proof.Claims.IntegerCountResults : Prop :=
  ∀ e ∈ countForms, ∀ lc rd ra s k t u,
    Runs s lc { reads := [gIdx ra], writes := [gIdx rd] } k t u →
    ∃ n, e.2 ((u.core lc).getG ra) n ∧
      Completes (e.1 lc rd ra) s (ScalarResult lc rd (BitVec.ofNat 64 n) u)

/-- Every division gives the quotient or the remainder of its operands, all ones or the dividend where
the divisor is 0, the dividend or 0 where the most negative value is divided by -1, and neither an
exception nor a flag; a W form works on the low 32 bits and sign-extends. -/
def Obligations.DivisionResults : Prop :=
  ∀ e ∈ divisionForms, ∀ lc rd ra rb s k t u,
    Runs s lc { reads := [gIdx ra, gIdx rb], writes := [gIdx rd] } k t u →
    ∃ x : BitVec e.2.1,
      Divides e.2.2.1 e.2.2.2 (((u.core lc).getG ra).truncate e.2.1)
        (((u.core lc).getG rb).truncate e.2.1) x ∧
      Completes (e.1 lc rd ra rb) s (ScalarResult lc rd (x.signExtend 64) u)

/-! Branches and jumps (Table ISA-10). -/

namespace Sys2Proof.Claims

/-- The conditional branches and their conditions. -/
def branchForms : List ((LC → Reg → Reg → BitVec 16 → Instr) × (Word → Word → Prop)) :=
  [(.beq, fun a b => a = b), (.bne, fun a b => a ≠ b),
   (.blt, fun a b => a.toInt < b.toInt), (.bge, fun a b => b.toInt ≤ a.toInt),
   (.bltu, fun a b => a.toNat < b.toNat), (.bgeu, fun a b => b.toNat ≤ a.toNat)]

/-- What a jump to `pc'` leaves, with `x` in `rd` where it links. -/
def Jumps (lc : LC) (link : Option (Reg × Word)) (pc' : Word) (u w : State) : Prop :=
  OnlyCore lc u w ∧ KeepsSystem (u.core lc) (w.core lc) ∧ KeepsV (u.core lc) (w.core lc) ∧
  (w.core lc).pc = pc' ∧
  match link with
  | none => ∀ r, (w.core lc).getG r = (u.core lc).getG r
  | some (rd, x) => WritesG rd x (u.core lc) (w.core lc)

end Sys2Proof.Claims

/-- A conditional branch goes to its own address plus sext(off16) × 4 where its condition holds, else to
the next word, and changes no register. -/
def Sys2Proof.Claims.BranchResults : Prop :=
  ∀ e ∈ branchForms, ∀ lc ra rb off s k t u,
    Runs s lc { reads := [gIdx ra, gIdx rb] } k t u →
    let c := u.core lc
    Completes (e.1 lc ra rb off) s fun w =>
      (e.2 (c.getG ra) (c.getG rb) → Jumps lc none (c.pc + off.signExtend 64 * 4) u w) ∧
      (¬ e.2 (c.getG ra) (c.getG rb) → Jumps lc none (c.pc + 4) u w)

/-- J and JAL go to PC + sext(off26) × 4, JALR to ga + sext(imm16), of the old ga, with bits [1:0]
cleared; JAL writes PC + 4 to g31, JALR to gd. -/
def Sys2Proof.Claims.JumpResults : Prop :=
  (∀ lc off s k t u, Runs s lc {} k t u →
    Completes (.j lc off) s (Jumps lc none ((u.core lc).pc + off.signExtend 64 * 4) u)) ∧
  (∀ lc off s k t u, Runs s lc { writes := [gIdx 31] } k t u →
    Completes (.jal lc off) s (Jumps lc (some (31, (u.core lc).pc + 4))
      ((u.core lc).pc + off.signExtend 64 * 4) u)) ∧
  (∀ lc rd ra imm s k t u, Runs s lc { reads := [gIdx ra], writes := [gIdx rd] } k t u →
    Completes (.jalr lc rd ra imm) s (Jumps lc (some (rd, (u.core lc).pc + 4))
      (((u.core lc).getG ra + imm.signExtend 64) &&& ~~~3#64) u))

/-! Vector instructions (Tables ISA-12, ISA-13, ISA-15; R102 to R108). -/

namespace Sys2Proof.Claims

/-- Register number `dest` (v0 to v31 as 0 to 31, p0 to p7 as 32 to 39, g0 to g31 as 64 to 95) takes
`x`, and no other vector, predicate or general register changes. -/
def WritesNumber (dest : Nat) (x : Line) (c d : Core) : Prop :=
  (∀ r : Reg, d.getV r = if r.toNat = dest then x else c.getV r) ∧
  (∀ r : PReg, d.getP r = if 32 + r.toNat = dest then x.truncate 64 else c.getP r) ∧
  (∀ r : Reg, d.getG r = if r ≠ 0 ∧ 64 + r.toNat = dest then x.truncate 64 else c.getG r)

/-- V takes an instruction that leaves S at beat `t` (R102): it starts in that beat where V is free, and
its result and flags are written; else it enters V's queue behind the others, with its result, to start
when V has finished those. Nothing else of the machine changes but the pc. -/
def VectorResult (lc : LC) (t dest : Nat) (x : Line) (fl : VFlags) (u w : State) : Prop :=
  let c := u.core lc
  let d := w.core lc
  OnlyCore lc u w ∧ KeepsSystem c d ∧ d.pc = c.pc + 4 ∧ d.pfq = c.pfq.drop 1 ∧
  (c.beats.vFree ≤ t → d.beats.vq = c.beats.vq ∧ WritesNumber dest x c d ∧
    d.vflags = c.vflags ||| fl.zeroExtend 64) ∧
  (t < c.beats.vFree → d.g = c.g ∧ KeepsV c d ∧
    ∃ e, d.beats.vq = c.beats.vq ++ [e] ∧ e.start = c.beats.vFree ∧ e.dest = dest ∧ e.value = x ∧
      e.flags = fl)

/-- The integer element operations of Table ISA-12, on elements `a` and `b` of `e` bits. -/
def vectorIntegerForms :
    List ((LC → Reg → Reg → Reg → Option PReg → BitVec 2 → Instr) × (Nat → Nat → Nat → Nat)) :=
  [(.vadd, fun e a b => (a + b) % 2 ^ e), (.vsub, fun e a b => (a + 2 ^ e - b) % 2 ^ e),
   (.vmin, fun e a b => if signed e a < signed e b then a else b),
   (.vmax, fun e a b => if signed e a < signed e b then b else a),
   (.vsll, fun e a b => a * 2 ^ (b % e) % 2 ^ e), (.vsrl, fun e a b => a / 2 ^ (b % e)),
   (.vsra, fun e a b => (signed e a / 2 ^ (b % e) % 2 ^ e).toNat)]

/-- The 512-bit operations of Table ISA-12. -/
def vectorBitForms : List ((LC → Reg → Reg → Reg → Instr) × (Line → Line → Line)) :=
  [(.vand, (· &&& ·)), (.vor, (· ||| ·)), (.vxor, (· ^^^ ·))]

/-- The integer comparisons of Table ISA-12. -/
def vectorCompareForms :
    List ((LC → PReg → Reg → Reg → Option PReg → BitVec 2 → Instr) × (Nat → Nat → Nat → Prop)) :=
  [(.vcmpeq, fun _ a b => a = b), (.vcmplt, fun e a b => signed e a < signed e b)]

/-- The floating-point operations of two operands in Table ISA-12. -/
def vectorFloatForms :
    List ((LC → Reg → Reg → Reg → Option PReg → BitVec 2 → Instr) ×
      (Fmt → VCtl → Nat → Nat → Nat × VFlags)) :=
  [(.vfadd, fadd), (.vfsub, fsub), (.vfmul, fmul), (.vfdiv, fdiv),
   (.vfmin, fun f c => fminmax f c false), (.vfmax, fun f c => fminmax f c true)]

/-- The floating-point comparisons of Table ISA-12. -/
def vectorFloatCompareForms :
    List ((LC → PReg → Reg → Reg → Option PReg → BitVec 2 → Instr) ×
      (Fmt → VCtl → Nat → Nat → Bool × VFlags)) :=
  [(.vfcmplt, fcmplt), (.vfcmpeq, fcmpeq)]

/-- The conversions of Table ISA-13: bits of a source and of a result element, their number, and the
conversion of one. -/
def vectorConvertForms :
    List ((LC → Reg → Reg → Instr) × Nat × Nat × Nat × (VCtl → Nat → Nat × VFlags)) :=
  [(.vcvtF32ToF64, 32, 64, 8, fconv f32 f64), (.vcvtF64ToF32, 64, 32, 8, fconv f64 f32),
   (.vcvtF32ToBf16, 32, 16, 16, fconv f32 bf16), (.vcvtBf16ToF32, 16, 32, 16, fconv bf16 f32),
   (.vcvtI32ToF32, 32, 32, 16, i32ToF32), (.vcvtF32ToI32, 32, 32, 16, f32ToI32)]

/-- `x` holds `f i` in each element of `e` bits that the mask leaves in the operation and the old value
in the others (R105). -/
def MaskedElements (e : Nat) (mask : Option Word) (old x : Line) (f : Nat → Nat) : Prop :=
  ∀ i < 512 / e, elem e x i = if active mask i then f i % 2 ^ e else elem e old i

/-- `p` holds bit `i` where the mask leaves element `i` in the operation and `f i` holds, 0 elsewhere
(R85, R105). -/
def MaskedBits (e : Nat) (mask : Option Word) (x : Line) (f : Nat → Prop) : Prop :=
  ∀ i, x.getLsbD i = true ↔ i < 512 / e ∧ active mask i = true ∧ f i

/-- `fl` joins the flags that the elements left in the operation raise (R105). -/
def MaskedFlags (n : Nat) (mask : Option Word) (fl : VFlags) (f : Nat → VFlags) : Prop :=
  ∀ j, fl.getLsbD j = true ↔ ∃ i < n, active mask i = true ∧ (f i).getLsbD j = true

end Sys2Proof.Claims

/-- The integer vector operations write, element by element modulo 2^e, what Table ISA-12 gives; an
element whose mask bit is 0 keeps its old value; no flag is set. The bitwise ones work on 512 bits. -/
def Sys2Proof.Claims.VectorIntegerResults : Prop :=
  (∀ e ∈ vectorIntegerForms, ∀ lc vd va vb m et s k t u,
    Runs s lc { reads := [vIdx va, vIdx vb] ++ maskReads m ++ if m.isSome then [vIdx vd] else [],
                writes := [vIdx vd], vec := true } k t u →
    let c := u.core lc
    ∃ x, MaskedElements (etBits et) (m.map c.getP) (c.getV vd) x
        (fun i => e.2 (etBits et) (elem (etBits et) (c.getV va) i) (elem (etBits et) (c.getV vb) i)) ∧
      Completes (e.1 lc vd va vb m et) s (VectorResult lc t (vIdx vd) x 0 u)) ∧
  (∀ e ∈ vectorBitForms, ∀ lc vd va vb s k t u,
    Runs s lc { reads := [vIdx va, vIdx vb], writes := [vIdx vd], vec := true } k t u →
    Completes (e.1 lc vd va vb) s (VectorResult lc t (vIdx vd)
      (e.2 ((u.core lc).getV va) ((u.core lc).getV vb)) 0 u))

/-- The comparisons to a predicate write bit i where element i is in the operation and compares true, 0
in every other bit; the floating-point ones join the flags of those elements. -/
def Sys2Proof.Claims.VectorCompareResults : Prop :=
  (∀ e ∈ vectorCompareForms, ∀ lc pd va vb m et s k t u,
    Runs s lc { reads := [vIdx va, vIdx vb] ++ maskReads m, writes := [pIdx pd], vec := true } k t u →
    let c := u.core lc
    ∃ x, MaskedBits (etBits et) (m.map c.getP) x
        (fun i => e.2 (etBits et) (elem (etBits et) (c.getV va) i) (elem (etBits et) (c.getV vb) i)) ∧
      Completes (e.1 lc pd va vb m et) s (VectorResult lc t (pIdx pd) x 0 u)) ∧
  (∀ e ∈ vectorFloatCompareForms, ∀ lc pd va vb m et s k t u, et.toNat ≤ 1 →
    Runs s lc { reads := [vIdx va, vIdx vb] ++ maskReads m, writes := [pIdx pd], vec := true } k t u →
    let c := u.core lc
    let r := fun i => e.2 (fmtOf et) (VCtl.of c.vctl) (elem (etBits et) (c.getV va) i)
      (elem (etBits et) (c.getV vb) i)
    ∃ x fl, MaskedBits (etBits et) (m.map c.getP) x (fun i => (r i).1 = true) ∧
      MaskedFlags (512 / etBits et) (m.map c.getP) fl (fun i => (r i).2) ∧
      Completes (e.1 lc pd va vb m et) s (VectorResult lc t (pIdx pd) x fl u))

/-- The floating-point operations of fp64 and fp32 write each element's rounded result under cr.vctl and
join the flags of the elements in the operation; a masked element keeps its old value. -/
def Sys2Proof.Claims.VectorFloatResults : Prop :=
  (∀ e ∈ vectorFloatForms, ∀ lc vd va vb m et s k t u, et.toNat ≤ 1 →
    Runs s lc { reads := [vIdx va, vIdx vb] ++ maskReads m ++ if m.isSome then [vIdx vd] else [],
                writes := [vIdx vd], vec := true } k t u →
    let c := u.core lc
    let r := fun i => e.2 (fmtOf et) (VCtl.of c.vctl) (elem (etBits et) (c.getV va) i)
      (elem (etBits et) (c.getV vb) i)
    ∃ x fl, MaskedElements (etBits et) (m.map c.getP) (c.getV vd) x (fun i => (r i).1) ∧
      MaskedFlags (512 / etBits et) (m.map c.getP) fl (fun i => (r i).2) ∧
      Completes (e.1 lc vd va vb m et) s (VectorResult lc t (vIdx vd) x fl u)) ∧
  (∀ lc vd va vb m et s k t u, et.toNat ≤ 1 →
    Runs s lc { reads := [vIdx va, vIdx vb, vIdx vd] ++ maskReads m, writes := [vIdx vd],
                vec := true } k t u →
    let c := u.core lc
    let r := fun i => ffma (fmtOf et) (VCtl.of c.vctl) (elem (etBits et) (c.getV va) i)
      (elem (etBits et) (c.getV vb) i) (elem (etBits et) (c.getV vd) i)
    ∃ x fl, MaskedElements (etBits et) (m.map c.getP) (c.getV vd) x (fun i => (r i).1) ∧
      MaskedFlags (512 / etBits et) (m.map c.getP) fl (fun i => (r i).2) ∧
      Completes (.vfma lc vd va vb m et) s (VectorResult lc t (vIdx vd) x fl u)) ∧
  (∀ lc vd va m et s k t u, et.toNat ≤ 1 →
    Runs s lc { reads := [vIdx va] ++ maskReads m ++ if m.isSome then [vIdx vd] else [],
                writes := [vIdx vd], vec := true } k t u →
    let c := u.core lc
    let r := fun i => fsqrt (fmtOf et) (VCtl.of c.vctl) (elem (etBits et) (c.getV va) i)
    ∃ x fl, MaskedElements (etBits et) (m.map c.getP) (c.getV vd) x (fun i => (r i).1) ∧
      MaskedFlags (512 / etBits et) (m.map c.getP) fl (fun i => (r i).2) ∧
      Completes (.vfsqrt lc vd va m et) s (VectorResult lc t (vIdx vd) x fl u))

namespace Sys2Proof.Claims

/-- The sum of `2 ^ n` elements from `i` on in the fixed tree of R106: each level adds adjacent sums, each
addition rounded. -/
def treeOf (f : Fmt) (c : VCtl) (x : Nat → Nat) : Nat → Nat → Nat
  | 0, i => x i
  | n + 1, i => (fadd f c (treeOf f c x n (2 * i)) (treeOf f c x n (2 * i + 1))).1

end Sys2Proof.Claims

/-- VRSUM writes the tree sum of the elements of va to element 0 of vd, an element masked out entering as
+0.0, and 0 to every other element. -/
def Sys2Proof.Claims.VectorSumResult : Prop :=
  ∀ lc vd va m et s k t u, et.toNat ≤ 1 →
    Runs s lc { reads := [vIdx va] ++ maskReads m, writes := [vIdx vd], vec := true } k t u →
    let c := u.core lc
    let n := if et = 0 then 3 else 4
    ∃ (x : Line) (fl : VFlags),
      x.toNat = treeOf (fmtOf et) (VCtl.of c.vctl)
        (fun i => if active (m.map c.getP) i then elem (etBits et) (c.getV va) i else 0) n 0 ∧
      Completes (.vrsum lc vd va m et) s (VectorResult lc t (vIdx vd) x fl u)

/-- The conversions of Table ISA-13 convert each source element under cr.vctl and leave the elements above
them 0; the dot products add their products to each lane of vd, modulo 2^32 for the integer ones, in one
rounding for bf16. -/
def Sys2Proof.Claims.VectorConvertAndDotResults : Prop :=
  (∀ e ∈ vectorConvertForms, ∀ lc vd va s k t u,
    Runs s lc { reads := [vIdx va], writes := [vIdx vd], vec := true } k t u →
    let c := u.core lc
    let r := fun i => e.2.2.2.2 (VCtl.of c.vctl) (elem e.2.1 (c.getV va) i)
    ∃ x fl, (∀ i < 512 / e.2.2.1, elem e.2.2.1 x i =
          if i < e.2.2.2.1 then (r i).1 % 2 ^ e.2.2.1 else 0) ∧
      MaskedFlags e.2.2.2.1 none fl (fun i => (r i).2) ∧
      Completes (e.1 lc vd va) s (VectorResult lc t (vIdx vd) x fl u)) ∧
  (∀ lc vd va vb m s k t u,
    Runs s lc { reads := [vIdx va, vIdx vb, vIdx vd] ++ maskReads m, writes := [vIdx vd],
                vec := true } k t u →
    let c := u.core lc
    let a := fun i => elem 8 (c.getV va) i
    let b := fun i => signed 8 (elem 8 (c.getV vb) i)
    let acc := fun i => (elem 32 (c.getV vd) i : Int)
    let dot := fun (a : Nat → Int) i => ((acc i + (a (4 * i) * b (4 * i) + a (4 * i + 1) * b (4 * i + 1)
      + a (4 * i + 2) * b (4 * i + 2) + a (4 * i + 3) * b (4 * i + 3))) % 2 ^ 32).toNat
    let q := fun (v : Line) i => FVal.unpack bf16 (VCtl.of c.vctl) (elem 16 v i)
    let f := fun i => fdot f32 (VCtl.of c.vctl) (.unpack f32 (VCtl.of c.vctl) (elem 32 (c.getV vd) i))
      [(q (c.getV va) (2 * i), q (c.getV vb) (2 * i)),
       (q (c.getV va) (2 * i + 1), q (c.getV vb) (2 * i + 1))]
    (∃ x, MaskedElements 32 (m.map c.getP) (c.getV vd) x (dot fun i => signed 8 (a i)) ∧
      Completes (.vdot4I8 lc vd va vb m) s (VectorResult lc t (vIdx vd) x 0 u)) ∧
    (∃ x, MaskedElements 32 (m.map c.getP) (c.getV vd) x (dot fun i => (a i : Int)) ∧
      Completes (.vdot4U8s8 lc vd va vb m) s (VectorResult lc t (vIdx vd) x 0 u)) ∧
    (∃ x fl, MaskedElements 32 (m.map c.getP) (c.getV vd) x (fun i => (f i).1) ∧
      MaskedFlags 16 (m.map c.getP) fl (fun i => (f i).2) ∧
      Completes (.vdot2Bf16 lc vd va vb m) s (VectorResult lc t (vIdx vd) x fl u)))

/-- Every NaN that a floating-point operation gives is the canonical quiet NaN of its format. -/
def Sys2Proof.Claims.NanResultsAreCanonical : Prop :=
  ∀ f ∈ [f64, f32], ∀ (c : VCtl) (a b d : Nat),
    ∀ r ∈ [fadd f c a b, fsub f c a b, fmul f c a b, fdiv f c a b, ffma f c a b d, fsqrt f c a,
           fminmax f c false a b, fminmax f c true a b, fconv f64 f c a, fconv f32 f c a],
      a < 2 ^ f.width → b < 2 ^ f.width → d < 2 ^ f.width →
      (FVal.unpack f c r.1).isNan = true → r.1 = f.nanBits

namespace Sys2Proof.Claims

/-- The predicate operations of Table ISA-15. -/
def predicateForms : List ((LC → PReg → PReg → PReg → Instr) × (Word → Word → Word)) :=
  [(.pand, (· &&& ·)), (.por, (· ||| ·)), (.pxor, (· ^^^ ·))]

/-- What a predicate operation leaves: `pd` holds `x`, nothing else changes but the pc. -/
def PredicateResult (lc : LC) (pd : PReg) (x : Word) (u w : State) : Prop :=
  let c := u.core lc
  let d := w.core lc
  OnlyCore lc u w ∧ KeepsSystem c d ∧ d.pc = c.pc + 4 ∧ d.pfq = c.pfq.drop 1 ∧ d.g = c.g ∧ d.v = c.v ∧
  d.vflags = c.vflags ∧ d.getP pd = x ∧ ∀ q, q ≠ pd → d.getP q = c.getP q

end Sys2Proof.Claims

/-- The moves of Table ISA-15: VMOVG reads a 64-bit element, VMOVV replaces one and keeps the others,
VBCAST writes the low e bits of ga to every element; the predicate operations act on all 64 bits and
execute in X, PSET and PGET move between ga or gd and a predicate. -/
def Sys2Proof.Claims.VectorMoveResults : Prop :=
  (∀ lc rd va n s k t u,
    Runs s lc { reads := [vIdx va], writes := [gIdx rd], vec := true } k t u →
    Completes (.vmovg lc rd va n) s (VectorResult lc t (gIdx rd)
      (BitVec.ofNat 512 (elem 64 ((u.core lc).getV va) n.toNat)) 0 u)) ∧
  (∀ lc vd ra n s k t u,
    Runs s lc { reads := [gIdx ra, vIdx vd], writes := [vIdx vd], vec := true } k t u →
    ∃ x, (∀ i < 8, elem 64 x i = if i = n.toNat then ((u.core lc).getG ra).toNat
        else elem 64 ((u.core lc).getV vd) i) ∧
      Completes (.vmovv lc vd ra n) s (VectorResult lc t (vIdx vd) x 0 u)) ∧
  (∀ lc vd ra et s k t u,
    Runs s lc { reads := [gIdx ra], writes := [vIdx vd], vec := true } k t u →
    ∃ x, (∀ i < 512 / etBits et, elem (etBits et) x i = ((u.core lc).getG ra).toNat % 2 ^ etBits et) ∧
      Completes (.vbcast lc vd ra et) s (VectorResult lc t (vIdx vd) x 0 u)) ∧
  (∀ e ∈ predicateForms, ∀ lc pd pa pb s k t u,
    Runs s lc { reads := [pIdx pa, pIdx pb], writes := [pIdx pd] } k t u →
    Completes (e.1 lc pd pa pb) s
      (PredicateResult lc pd (e.2 ((u.core lc).getP pa) ((u.core lc).getP pb)) u)) ∧
  (∀ lc pd pa s k t u, Runs s lc { reads := [pIdx pa], writes := [pIdx pd] } k t u →
    Completes (.pnot lc pd pa) s (PredicateResult lc pd (~~~((u.core lc).getP pa)) u)) ∧
  (∀ lc pd ra s k t u, Runs s lc { reads := [gIdx ra], writes := [pIdx pd] } k t u →
    Completes (.pset lc pd ra) s (PredicateResult lc pd ((u.core lc).getG ra) u)) ∧
  (∀ lc rd pa s k t u, Runs s lc { reads := [pIdx pa], writes := [gIdx rd] } k t u →
    Completes (.pget lc rd pa) s (ScalarResult lc rd ((u.core lc).getP pa) u))

/-- V starts the instruction at the head of its queue once the core has reached its start beat, or does not
execute: it leaves the queue, its destination takes its result and its flags join cr.vflags; nothing else
changes. An own-die scratch load that returns at a beat that the core has reached writes its register and is
no longer outstanding. Before those beats neither happens. -/
def Sys2Proof.Claims.VectorStartAndScratchReturn : Prop :=
  (∀ (lc : LC) (s : State) e rest, (s.core lc).beats.vq = e :: rest →
    e.dest < 40 ∨ (64 ≤ e.dest ∧ e.dest < 96) →
    e.start ≤ (s.core lc).beats.next ∨ (s.core lc).ready = false →
    Completes (.vectorStart lc) s fun w =>
      OnlyCore lc s w ∧ KeepsSystem (s.core lc) (w.core lc) ∧ (w.core lc).pc = (s.core lc).pc ∧
      (w.core lc).beats = { (s.core lc).beats with vq := rest } ∧
      WritesNumber e.dest e.value (s.core lc) (w.core lc) ∧
      (w.core lc).vflags = (s.core lc).vflags ||| e.flags.zeroExtend 64) ∧
  (∀ (lc : LC) (s : State) e rest, (s.core lc).beats.scr = e :: rest →
    e.dest < 40 ∨ (64 ≤ e.dest ∧ e.dest < 96) →
    e.returns ≤ (s.core lc).beats.next ∨ (s.core lc).ready = false →
    Completes (.scratchLoadReturn lc) s fun w =>
      OnlyCore lc s w ∧ KeepsSystem (s.core lc) (w.core lc) ∧ (w.core lc).pc = (s.core lc).pc ∧
      (w.core lc).beats = { (s.core lc).beats with scr := rest } ∧
      WritesNumber e.dest e.value (s.core lc) (w.core lc) ∧
      (w.core lc).vflags = (s.core lc).vflags) ∧
  (∀ (lc : LC) (s : State) e rest, (s.core lc).beats.vq = e :: rest → (s.core lc).ready = true →
    (s.core lc).beats.next < e.start → Completes (.vectorStart lc) s fun w => w.core = s.core) ∧
  (∀ (lc : LC) (s : State) e rest, (s.core lc).beats.scr = e :: rest → (s.core lc).ready = true →
    (s.core lc).beats.next < e.returns → Completes (.scratchLoadReturn lc) s fun w => w.core = s.core)

/-! Loads and stores (Tables ISA-11, ISA-14; R49 to R59, R99, R107), drains, far atomics (R53, R109) and
cache-line operations (R113). -/

namespace Sys2Proof.Claims

/-- The scalar loads of Table ISA-11: bytes, and whether the value is sign-extended. -/
def loadForms : List ((LC → Reg → Reg → BitVec 16 → Instr) × Nat × Bool) :=
  [(.lb, 1, true), (.lh, 2, true), (.lw, 4, true), (.ld, 8, true), (.lbu, 1, false), (.lhu, 2, false),
   (.lwu, 4, false)]

/-- The scalar stores of Table ISA-11 and their bytes. -/
def storeForms : List ((LC → Reg → Reg → BitVec 16 → Instr) × Nat) :=
  [(.sb, 1), (.sh, 2), (.sw, 4), (.sd, 8)]

/-- A value of `n` bytes sign- or zero-extended to 64 bits. -/
def extended (n : Nat) (sext : Bool) (v : Nat) : Word :=
  if sext then (BitVec.ofNat (8 * n) v).signExtend 64 else (BitVec.ofNat (8 * n) v).zeroExtend 64

/-- The value that store-buffer entries hold, the bytes of the first lowest. -/
def storedValue : List SbEntry → Nat
  | [] => 0
  | e :: t => Line.bytes e.data (e.pa.toNat % 64) e.bytes + 2 ^ (8 * e.bytes) * storedValue t

/-- The parts of an access lie within their lines, and within the physical address space (R57). -/
def WithinLines (ps : List Part) : Prop := ∀ p ∈ ps, p.pa % 64 + p.bytes ≤ 64 ∧ p.pa < 2 ^ 48

/-- What a store that left W added to the store buffer: one entry for each part, in order, holding its
bytes of `v`, under the level, world and partition of the store; the pc has moved on, and the prefetch queue holds the words
`q` of its completed fill (R40, R49, R59). -/
def StoreResult (lc : LC) (ps : List Part) (v : Nat) (q : List (Option Exc)) (u w : State) : Prop :=
  let c := u.core lc
  let d := w.core lc
  ∃ es, d.sb = c.sb ++ es ∧ storedValue es = v ∧
    es.map (fun e => (e.pa.toNat, e.bytes, e.s, e.mtype)) = ps.map (fun p => (p.pa, p.bytes, p.s, p.mtype)) ∧
    (∀ e ∈ es, e.level.toNat = c.level ∧ e.pid = c.pid ∧ e.sent = false) ∧
    d.pc = c.pc + 4 ∧ d.pfq = q ∧ d.g = c.g ∧ KeepsV c d ∧ d.status = c.status ∧ w.mem = u.mem

/-- The value that an access reads, once every part has its data: no bus error and no poison. -/
def Reads (s : State) (k : Asker) (ps : List Part) (g : Gather) (w : State) : Prop :=
  s.gather k ps [] {} = .all g w ∧ g.bus = false ∧ g.pois = false

end Sys2Proof.Claims

/-- A load whose parts are all read writes gd the sign- or zero-extended value of its bytes, moves the pc
and changes no other register; one whose data comes from own-die scratch leaves its register to the load's
return (R99, R100). -/
def Sys2Proof.Claims.LoadResults : Prop :=
  ∀ e ∈ loadForms, ∀ lc rd ra imm s k t u ps walk s1 g s2,
    Runs s lc { reads := [gIdx ra], writes := [gIdx rd] } k t u →
    (u.core lc).fence = 0 →
    u.halves k .load ((u.core lc).getG ra + imm.signExtend 64) e.2.1 = .ok ps walk s1 →
    Reads s1 k ps g s2 →
    Completes (e.1 lc rd ra imm) s fun w =>
      let c := s2.core lc
      let d := w.core lc
      OnlyCore lc s2 w ∧ KeepsSystem { c with access := none } d ∧ KeepsV c d ∧ d.pc = c.pc + 4 ∧
      (g.scr = false → WritesG rd (extended e.2.1 e.2.2 g.val) c d ∧ d.beats.scr = c.beats.scr) ∧
      (g.scr = true → d.g = c.g ∧ ∃ x, d.beats.scr = c.beats.scr ++ [x] ∧ x.dest = gIdx rd ∧
        x.value = (extended e.2.1 e.2.2 g.val).zeroExtend 512)

/-- What a load reads: the bytes of the youngest store-buffer entry that overlaps it, where that entry holds
them all; else, of cacheable HBM that L1D holds in the load's world, the bytes of the die cache's copy of
the line; of own-die scratch, the stored bytes (R50, R99, R152). -/
def Sys2Proof.Claims.LoadSources : Prop :=
  ∀ (s : State) (k : Asker) (p : Part), p.pa % 64 + p.bytes ≤ 64 → p.bytes ≠ 0 →
    let c := s.core k.lc
    let forward := c.sb.reverse.find? fun e => e.overlaps p.pa p.bytes
    (∀ e, p.device = false → forward = some e →
      e.pa.toNat ≤ p.pa → p.pa + p.bytes ≤ e.pa.toNat + e.bytes → e.mtype ≠ .device →
      e.pa.toNat % 64 + e.bytes ≤ 64 →
      ∃ g, Reads s k [p] g s ∧ g.scr = false ∧
        g.val = Line.bytes e.data (e.pa.toNat % 64 + (p.pa - e.pa.toNat)) p.bytes) ∧
    (∀ w l, targetOf p.pa = .hbm → p.mtype = .cacheable → forward = none →
      c.l1d.wayOf (p.pa / 64) = some w → c.l1d.find (p.pa / 64) = some l → l.world = p.s →
      ((s.die k.die).sub (p.pa / 64)).pois = false →
      ∃ g x, Reads s k [p] g x ∧ g.scr = false ∧
        g.val = Line.bytes ((s.die k.die).sub (p.pa / 64)).data (p.pa % 64) p.bytes) ∧
    (targetOf p.pa = .scratch → scratchDie p.pa = k.die → forward = none →
      (p.device = true → ∀ e ∈ c.sb, e.mtype ≠ .device) → s.scratchOk p.pa = true →
      s.passes (dcsStation k.die) 16 p.pa p.s c.pid .r = true →
      s.scratchPois p.pa p.bytes = false →
      ∃ g x, Reads s k [p] g x ∧ g.scr = true ∧
        ∀ i < p.bytes, g.val / 2 ^ (8 * i) % 256 = (s.byte (p.pa + i)).toNat)

/-- A store with room in the store buffer, once the fill of the prefetch queue is completed, adds one entry for
each part of its bytes and moves the pc; memory and every register keep their values (R40, R49, R55, R59,
R99). -/
def Sys2Proof.Claims.StoreResults : Prop :=
  ∀ e ∈ storeForms, ∀ lc rs ra imm s k t u ps walk s1 q s2,
    Runs s lc { reads := [gIdx rs, gIdx ra] } k t u →
    u.halves k .store ((u.core lc).getG ra + imm.signExtend 64) e.2 = .ok ps walk s1 →
    WithinLines ps → ps.length ≤ (s1.core lc).sbRoom → s1.prefill k = .ok q s2 →
    Completes (e.1 lc rs ra imm) s
      (StoreResult lc ps (((u.core lc).getG rs).toNat % 2 ^ (8 * e.2)) q s2)

/-- VLD writes vd the 64 bytes it reads when V starts it, or when they return where they come from own-die
scratch; VST adds one full-line entry that holds vs, DCL.Z one of 64 zero
bytes; an address that is not 64 B-aligned is ALIGN for VLD and VST (R107, R113). -/
def Sys2Proof.Claims.VectorMemoryResults : Prop :=
  (∀ lc vd ra imm s k t u ps walk s1 g s2,
    Runs s lc { reads := [gIdx ra], writes := [vIdx vd], vec := true } k t u → (u.core lc).fence = 0 →
    u.lineAccess k .load ((u.core lc).getG ra + imm.signExtend 64) = .ok ps walk s1 →
    Reads s1 k ps g s2 →
    Completes (.vld lc vd ra imm) s fun w =>
      let c := s2.core lc
      let d := w.core lc
      OnlyCore lc s2 w ∧ KeepsSystem { c with access := none } d ∧ d.pc = c.pc + 4 ∧
      (g.scr = false → c.beats.vFree ≤ t →
        WritesNumber (vIdx vd) (BitVec.ofNat 512 g.val) c d ∧ d.beats.vq = c.beats.vq) ∧
      (g.scr = false → t < c.beats.vFree → d.g = c.g ∧ KeepsV c d ∧
        ∃ x, d.beats.vq = c.beats.vq ++ [x] ∧ x.dest = vIdx vd ∧ x.value = BitVec.ofNat 512 g.val) ∧
      (g.scr = true → d.g = c.g ∧ KeepsV c d ∧
        ∃ x, d.beats.scr = c.beats.scr ++ [x] ∧ x.dest = vIdx vd ∧ x.value = BitVec.ofNat 512 g.val)) ∧
  (∀ lc vs ra imm s k t u ps walk s1 q s2,
    Runs s lc { reads := [gIdx ra, vIdx vs], vec := true } k t u →
    u.lineAccess k .store ((u.core lc).getG ra + imm.signExtend 64) = .ok ps walk s1 →
    WithinLines ps → 1 ≤ (s1.core lc).sbRoom → s1.prefill k = .ok q s2 →
    Completes (.vst lc vs ra imm) s (StoreResult lc ps ((u.core lc).getV vs).toNat q s2)) ∧
  (∀ lc ra s k t u ps walk s1 q s2, Runs s lc { reads := [gIdx ra] } k t u →
    u.lineAccess k .store ((u.core lc).getG ra &&& ~~~0x3F#64) = .ok ps walk s1 →
    WithinLines ps → 1 ≤ (s1.core lc).sbRoom → s1.prefill k = .ok q s2 →
    Completes (.dclZ lc ra) s (StoreResult lc ps 0 q s2)) ∧
  (∀ lc vd ra imm s k t u x,
    Runs s lc { reads := [gIdx ra], writes := [vIdx vd], vec := true } k t u →
    let va := (u.core lc).getG ra + imm.signExtend 64
    va.toNat % 64 ≠ 0 → u.raise k { code := 0x09, tval := va } = some x →
    exec (.vld lc vd ra imm) s = .next x) ∧
  (∀ lc vs ra imm s k t u x,
    Runs s lc { reads := [gIdx ra, vIdx vs], vec := true } k t u →
    let va := (u.core lc).getG ra + imm.signExtend 64
    va.toNat % 64 ≠ 0 → u.raise k { code := 0x09, tval := va } = some x →
    exec (.vst lc vs ra imm) s = .next x)

/-- The drain of an entry for own-die scratch that its Pasture passes writes the entry's bytes at its
address, leaves every other byte of memory as it was, and takes the entry out of the buffer (R49, R152,
R153). -/
def Sys2Proof.Claims.DrainWritesScratch : Prop :=
  ∀ (lc : LC) (s : State) (k : Asker) e rest,
    s.asker lc = some k → (s.core lc).sb = e :: rest → e.sent = false →
    targetOf e.pa.toNat = .scratch → scratchDie e.pa.toNat = k.die →
    s.scratchOk e.pa.toNat = true →
    s.passes (dcsStation k.die) 16 e.pa.toNat e.s e.pid .w = true →
    e.pa.toNat % 64 + e.bytes ≤ 64 → e.bytes ≠ 0 → e.bytes ≤ 8 ∨ e.bytes = 64 →
    (∀ i < 8, SMap.get false s.poisWord (e.pa.toNat / 64 * 8 + i) = false) →
    Completes (.storeDrain lc) s fun w =>
      (w.core lc).sb = rest ∧ (w.core lc).sbErr = (s.core lc).sbErr ∧
      ∀ a, w.byte a = if e.pa.toNat ≤ a ∧ a < e.pa.toNat + e.bytes
        then Line.byte e.data (e.pa.toNat % 64 + (a - e.pa.toNat)) else s.byte a

/-- The drain of an entry for a line of HBM that its core holds in E or M in its world merges the entry's
bytes into the die cache's copy, which becomes dirty, and takes the entry out of the buffer; a drain that
meets a bus error is kept for STORE_BUS with its address and the level that issued it (R49, R70, R140,
Table CACHE-2). -/
def Sys2Proof.Claims.DrainWritesOwnedLine : Prop :=
  (∀ (lc : LC) (s : State) (k : Asker) e rest l wy,
    s.asker lc = some k → (s.core lc).sb = e :: rest → e.sent = false →
    targetOf e.pa.toNat = .hbm → e.mtype = .cacheable →
    (s.core lc).l1d.find (e.pa.toNat / 64) = some l → (l.st = .e ∨ l.st = .m) → l.world = e.s →
    (s.die k.die).wayOf (e.pa.toNat / 64) = some wy →
    Completes (.storeDrain lc) s fun w =>
      (w.core lc).sb = rest ∧ w.mem = s.mem ∧
      let old := (s.die k.die).sub (e.pa.toNat / 64)
      let new := (w.die k.die).sub (e.pa.toNat / 64)
      new.st = .m ∧ new.data = Line.merge old.data e.data e.mask) ∧
  (∀ (lc : LC) (s : State) (k : Asker) e rest,
    s.asker lc = some k → (s.core lc).sb = e :: rest → e.sent = false →
    targetOf e.pa.toNat = .unmapped →
    Completes (.storeDrain lc) s fun w =>
      (w.core lc).sb = rest ∧ (w.core lc).sbErr = (s.core lc).sbErr ++ [⟨e.va, e.level⟩] ∧
      w.mem = s.mem)

namespace Sys2Proof.Claims

/-- The far atomics of Table ISA-16, by the code that AtomicAtHome carries (Table COH-2). -/
def atomicForms : List ((LC → Reg → Reg → Reg → Instr) × Nat) :=
  [(.aadd, 0), (.aswp, 1), (.acas, 2), (.amin, 3), (.amax, 4), (.aminu, 5), (.amaxu, 6)]

/-- The cache-line operations that go to the home, by the code that CMO carries (R113). -/
def lineOpForms : List ((LC → Reg → Instr) × AccType × Nat) :=
  [(.dclC, .load, 0), (.dclI, .store, 1), (.dclCi, .load, 2)]

/-- Core `lc` waits in M with an access of a kind, for which a request of `kind` at `addr` is open, for
partition `pid` and with world bit `ws`; its pc and registers are as before (R93). -/
def AwaitsHome (lc : LC) (kind : AccKind) (mk : MsgKind) (addr : Nat) (data : Option Line) (ws : Bool)
    (pid : BitVec 8) (u w : State) : Prop :=
  (∃ a, (w.core lc).access = some a ∧ a.kind = kind) ∧
  (∃ r ∈ w.reqs, r.msg.kind = mk ∧ r.msg.addr = BitVec.ofNat 48 addr ∧ r.msg.data = data ∧
    r.msg.s = ws ∧ r.msg.dest = homeOfLine (addr / 64) ∧ r.msg.pid = pid ∧
    r.purpose = .access lc) ∧
  (w.core lc).pc = (u.core lc).pc ∧ (w.core lc).g = (u.core lc).g ∧ w.mem = u.mem

end Sys2Proof.Claims

/-- A far atomic on normal cacheable HBM, once the store buffer has drained, is on its way to the home of
its line with its operation and operands, for ACAS the expected value too, and the core waits for the old
value; a misaligned address is ALIGN (R53, R56, R109). -/
def Sys2Proof.Claims.AtomicsGoHome : Prop :=
  ∀ e ∈ atomicForms, ∀ lc rd ra rb s k t u,
    Runs s lc { reads := [gIdx ra, gIdx rb] ++ if e.2 = 2 then [gIdx rd] else [],
                writes := [gIdx rd] } k t u →
    let c := u.core lc
    let va := c.getG ra
    (∀ pa mt ws walk s1, va.toNat % 8 = 0 →
      u.translate k .atomic c.level va = .ok pa mt ws walk s1 → targetOf pa = .hbm →
      mt = .cacheable → c.sb = [] → (s1.freeTxid (bankOf k.die (pa / 64)) 32).isSome = true →
      Completes (e.1 lc rd ra rb) s (AwaitsHome lc (.atomic e.2 rd) .atomicAtHome (pa / 8 * 8 + e.2)
        (some (BitVec.ofNat 512 ((c.getG rb).toNat
          + if e.2 = 2 then (c.getG rd).toNat * 2 ^ 64 else 0))) ws c.pid s1)) ∧
    (∀ x, va.toNat % 8 ≠ 0 → u.raise k { code := 0x09, tval := va } = some x →
      exec (e.1 lc rd ra rb) s = .next x)

/-- DCL.C, DCL.I and DCL.CI on a line of HBM send its home the CMO of their code and wait for the answer;
elsewhere they retire and change nothing else. Bits [5:0] of the address are ignored (R113). -/
def Sys2Proof.Claims.LineOperationsGoHome : Prop :=
  ∀ e ∈ lineOpForms, ∀ lc ra s k t u, Runs s lc { reads := [gIdx ra] } k t u →
    let c := u.core lc
    ∀ pa mt ws walk s1,
      u.translate k e.2.1 c.level (c.getG ra &&& ~~~0x3F#64) = .ok pa mt ws walk s1 →
      (targetOf pa = .hbm → (s1.freeTxid (bankOf k.die (pa / 64)) 32).isSome = true →
        Completes (e.1 lc ra) s (AwaitsHome lc .cmo .cmo (pa / 64 * 64 + e.2.2) none ws
          c.pid s1)) ∧
      (targetOf pa ≠ .hbm → Completes (e.1 lc ra) s fun w =>
        OnlyCore lc s1 w ∧ KeepsSystem (s1.core lc) (w.core lc) ∧ (w.core lc).g = (s1.core lc).g ∧
        (w.core lc).pc = (s1.core lc).pc + 4)

/-- DPF retires, whatever its address, and writes no register; ICL.I takes the line out of this core's L1I
and retires; an L1I invalidation that was delivered is applied, oldest first (R42, R113, R141). -/
def Sys2Proof.Claims.PrefetchAndL1i : Prop :=
  (∀ lc ra s k t u, Runs s lc { reads := [gIdx ra] } k t u →
    Completes (.dpf lc ra) s fun w =>
      (w.core lc).pc = (u.core lc).pc + 4 ∧ (w.core lc).g = (u.core lc).g ∧
      (w.core lc).status = (u.core lc).status ∧ (w.core lc).sb = (u.core lc).sb ∧ w.mem = u.mem) ∧
  (∀ lc ra s k t u pa mt ws walk s1, Runs s lc { reads := [gIdx ra] } k t u →
    u.translate k .load (u.core lc).level ((u.core lc).getG ra &&& ~~~0x3F#64) false false
      = .ok pa mt ws walk s1 →
    Completes (.iclI lc ra) s fun w =>
      (w.core lc).l1i = (s1.core lc).l1i.drop (pa / 64) ∧ (w.core lc).g = (s1.core lc).g ∧
      (w.core lc).pc = (s1.core lc).pc + 4 ∧ w.mem = s1.mem) ∧
  (∀ (lc : LC) (s : State) line rest, (s.core lc).l1iPend = line :: rest →
    Completes (.l1iInvalidationApply lc) s fun w =>
      OnlyCore lc s w ∧ (w.core lc).l1iPend = rest ∧
      (w.core lc).l1i = (s.core lc).l1i.drop line ∧ (w.core lc).pc = (s.core lc).pc ∧
      (w.core lc).g = (s.core lc).g)

/-! Control registers (Tables ISA-2, CORE-11, CORE-12, R86), exceptions (R64 to R71), WAIT and fences. -/

namespace Sys2Proof.Claims

/-- A control register: number, the lowest levels that may read and write it, its value, the bits that a
write changes, and the bits that it keeps. -/
structure CrForm where
  n    : Nat
  rd   : Nat
  wr   : Nat
  get  : Core → Word
  set  : Word
  keep : Word

/-- The copy of a banked register at a level. -/
abbrev bank (m : SMap Word) (l : Nat) : Word := SMap.get 0 m l

/-- The control registers of Table ISA-2. -/
def crForms : List CrForm :=
  [⟨0x000, 1, 1, (·.status), 0x8, ~~~0x8⟩, ⟨0x001, 1, 2, (·.part), 0xFF, 0⟩,
   ⟨0x002, 1, 1, (·.s1base), 0xFFFFFFFFFFFFF001, 0⟩, ⟨0x003, 2, 2, (·.s2base), 0x0000FFFFFFFFF001, 0⟩,
   ⟨0x004, 1, 1, (·.tclass), 0xF, 0⟩, ⟨0x008, 0, 0, (·.vflags), 0x3F, 0⟩, ⟨0x009, 0, 0, (·.vctl), 0x7, 0⟩,
   ⟨0x010, 1, 1, fun c => bank c.vbar 1, ~~~0xFF, 0⟩, ⟨0x011, 2, 2, fun c => bank c.vbar 2, ~~~0xFF, 0⟩,
   ⟨0x012, 3, 3, fun c => bank c.vbar 3, ~~~0xFF, 0⟩, ⟨0x014, 1, 1, fun c => bank c.xsp 1, ~~~0x3F, 0⟩,
   ⟨0x015, 2, 2, fun c => bank c.xsp 2, ~~~0x3F, 0⟩, ⟨0x016, 3, 3, fun c => bank c.xsp 3, ~~~0x3F, 0⟩,
   ⟨0x018, 1, 1, fun c => bank c.xlim 1, ~~~0x3F, 0⟩, ⟨0x019, 2, 2, fun c => bank c.xlim 2, ~~~0x3F, 0⟩,
   ⟨0x01A, 3, 3, fun c => bank c.xlim 3, ~~~0x3F, 0⟩]

/-- The lowest level that a cause of Table CORE-13 is routed to. -/
def fixedLevel (code : Nat) : Nat :=
  if code ∈ [0x06, 0x07, 0x08, 0x11] then 2 else if code = 0x12 then 3 else 1

/-- The frame of level `l` fits above its limit (R68). -/
def FrameFits (c : Core) (l : Nat) : Prop :=
  192 ≤ (bank c.xsp l).toNat ∧ (bank c.xlim l).toNat + 192 ≤ (bank c.xsp l).toNat

/-- cr.status on entry to a level: IE is 0, M is secure, another level keeps the world (Table CORE-16). -/
def entryStatus (tgt : Nat) (world : Bool) : Word :=
  BitVec.ofNat 64 (tgt + if tgt = 3 ∨ world = true then 4 else 0)

/-- The three lines of the frame of `sp` are translated as stores of level `tgt`, in state `x`. -/
def FrameMapped (k : Asker) (tgt : Nat) (ps : List Part) (walk : Nat) (s x : State) : Prop :=
  let c := s.core k.lc
  let sp := bank c.xsp tgt - 192
  (s.setCore k.lc { c with status := entryStatus tgt c.world }).frameLines k tgt .store
    [sp, sp + 64, sp + 128] = .done ps walk x

/-- What entry at `tgt` through offset `off` leaves, from core `c` before it and state `x` once the frame is
translated: the frame of Table CORE-15 as three store-buffer entries, cr.xsp, cr.status and the pc; no
register and no byte of memory changes. -/
def Entered (lc : LC) (tgt off : Nat) (epc cause tval : Word) (tipa : Nat) (ps : List Part) (c : Core)
    (x w : State) : Prop :=
  let d := w.core lc
  (∃ es, d.sb = (x.core lc).sb ++ es ∧
    es.map (fun e => (e.pa, e.bytes, e.level.toNat, e.s)) =
      ps.map (fun p => (BitVec.ofNat 64 p.pa, 64, tgt, p.s)) ∧
    es.flatMap (fun e => (List.range 8).map fun i => e.data.extractLsb' (64 * i) 64) =
      ((List.range 15).map fun i => c.getG (BitVec.ofNat 5 (i + 1)))
        ++ [epc, c.status, cause, tval, BitVec.ofNat 64 tipa, 0, 0, 0, 0]) ∧
  bank d.xsp tgt = bank c.xsp tgt - 192 ∧
  (∀ l, l ≠ tgt → bank d.xsp l = bank (x.core lc).xsp l) ∧
  d.status = entryStatus tgt c.world ∧
  d.pc = (bank (x.core lc).vbar tgt &&& ~~~0xFF#64) + BitVec.ofNat 64 off ∧
  d.g = (x.core lc).g ∧ KeepsV (x.core lc) d ∧ d.access = none ∧ d.inWait = false ∧ w.mem = x.mem

/-- CAUSE of a synchronous exception (Table CORE-14). -/
def causeWord (e : Exc) : Word :=
  BitVec.ofNat 64 (e.code + e.flevel * 0x100 + e.fkind * 0x400 + if e.second then 0x1000 else 0)

/-- What taking exception `e` leaves: entry at the routed level, offset 0 from below it and 0x40 at it
(R64, R69). -/
def TakesExc (k : Asker) (e : Exc) (ps : List Part) (s x w : State) : Prop :=
  let c := (s.core k.lc).settle
  let tgt := max (fixedLevel e.code) c.level
  Entered k.lc tgt (if c.level < tgt then 0 else 0x40) (if e.next then c.pc + 4 else c.pc) (causeWord e)
    e.tval e.tipa ps c x w

/-- Exception `e` can be entered in `s`: its frame fits, is translated, and the store buffer has room. -/
def CanTake (k : Asker) (e : Exc) (ps : List Part) (walk : Nat) (s x : State) : Prop :=
  let s0 := s.modCore k.lc Core.settle
  let c := s0.core k.lc
  let tgt := max (fixedLevel e.code) c.level
  FrameFits c tgt ∧ c.sb.length ≤ 5 ∧ ps.length = 3 ∧ FrameMapped k tgt ps walk s0 x

/-- Word `i` of a frame that has been read. -/
def frameWord (v i : Nat) : Word := BitVec.ofNat 64 (v / 2 ^ (64 * i))

end Sys2Proof.Claims

/-- CRR writes gd the value of a control register and CRW writes the register's writable bits, keeps its
other fields and every other control register, and fetches anew; an unassigned number is ILLEGAL and a
level below the register's is PRIV (R62, R86, R112). -/
def Obligations.ControlRegisterResults : Prop :=
  (∀ f ∈ crForms, ∀ lc rd s k t u, Runs s lc { writes := [gIdx rd], vIdle := decide (f.n = 8) } k t u →
    (f.rd ≤ (u.core lc).level →
      Completes (.crr lc rd (BitVec.ofNat 12 f.n)) s (ScalarResult lc rd (f.get (u.core lc)) u)) ∧
    (∀ x, (u.core lc).level < f.rd →
      u.raise k { code := 0x02, tval := (encY rd 0 0 f.n).zeroExtend 64 } = some x →
      exec (.crr lc rd (BitVec.ofNat 12 f.n)) s = .next x)) ∧
  (∀ f ∈ crForms, ∀ lc ra s k t u,
    Runs s lc { reads := [gIdx ra], vIdle := decide (f.n = 8) || decide (f.n = 9) } k t u →
    (f.wr ≤ (u.core lc).level → Completes (.crw lc (BitVec.ofNat 12 f.n) ra) s fun w =>
      let c := u.core lc
      let d := w.core lc
      OnlyCore lc u w ∧ d.pc = c.pc + 4 ∧ f.get d = (f.get c &&& f.keep) ||| (c.getG ra &&& f.set) ∧
      (∀ h ∈ crForms, h.n ≠ f.n → h.get d = h.get c) ∧ d.g = c.g ∧ d.v = c.v ∧ d.p = c.p ∧
      d.sb = c.sb ∧ d.tlbs = c.tlbs ∧ d.cii = c.cii ∧ d.pfq = []) ∧
    (∀ x, (u.core lc).level < f.wr →
      u.raise k { code := 0x02, tval := (encY 0 ra 1 f.n).zeroExtend 64 } = some x →
      exec (.crw lc (BitVec.ofNat 12 f.n) ra) s = .next x)) ∧
  (∀ (cr : BitVec 12) lc r s k t u x, (∀ f ∈ crForms, f.n ≠ cr.toNat) →
    (Runs s lc { writes := [gIdx r] } k t u →
      u.raise k { code := 0x01, tval := (encY r 0 0 cr.toNat).zeroExtend 64 } = some x →
      exec (.crr lc r cr) s = .next x) ∧
    (Runs s lc { reads := [gIdx r] } k t u →
      u.raise k { code := 0x01, tval := (encY 0 r 1 cr.toNat).zeroExtend 64 } = some x →
      exec (.crw lc cr r) s = .next x))

/-- A synchronous exception whose frame fits pushes the frame of Table CORE-15 to the stack of the level
that Table CORE-13 names, moves that level's cr.xsp down by 192, enters that level with IE = 0 at cr.vbar
plus the offset of Table CORE-17 (R64, R66, R67, R69). -/
def Sys2Proof.Claims.ExceptionEntry : Prop :=
  ∀ (s : State) (k : Asker) (e : Exc) ps walk x, CanTake k e ps walk s x →
    ∃ w, s.raise k e = some w ∧ TakesExc k e ps s x w

/-- A frame that would lie below cr.xlim of its level is not written: STACK_LIMIT is entered at M, offset
0x100, with the frame's address as TVAL and the old return point as EPC; a core for which M's own frame
does not fit stops, its registers and store buffer as they were (R68). -/
def Sys2Proof.Claims.StackLimit : Prop :=
  ∀ (s : State) (k : Asker) (e : Exc),
    let s0 := s.modCore k.lc Core.settle
    let c := s0.core k.lc
    let tgt := max (fixedLevel e.code) c.level
    ¬ FrameFits c tgt →
    (∀ ps walk x, tgt ≠ 3 → FrameFits c 3 → c.sb.length ≤ 5 → ps.length = 3 →
      FrameMapped k 3 ps walk s0 x →
      ∃ w, s.raise k e = some w ∧
        Entered k.lc 3 0x100 (if e.next then c.pc + 4 else c.pc) 0x14 (bank c.xsp tgt - 192) 0 ps c x w) ∧
    (tgt = 3 ∨ ¬ FrameFits c 3 → ∃ w, s.raise k e = some w ∧
      let d := w.core k.lc
      d.halts = c.halts ++ [.stackLimit] ∧ d.ready = false ∧ d.sb = c.sb ∧ d.g = c.g ∧ d.pc = c.pc ∧
      d.status = c.status ∧ w.mem = s.mem)

/-- KCALL at U or K, HCALL at K and MCALL at K or H enter the level they name with EPC at the next
instruction, BREAK its own level with EPC at itself, a word that is no encoding ILLEGAL with the word as
TVAL; a call at another level is PRIV (R64, R91, Tables CORE-13, ISA-17). -/
def Sys2Proof.Claims.CallsAndTraps : Prop :=
  ∀ (lc : LC) (nn : BitVec 8) (word : Word32) s k t u ps walk x, Runs s lc {} k t u →
    let lvl := (u.core lc).level
    let call := fun code => ({ code := code, next := true } : Exc)
    let priv := fun sop => ({ code := 0x02, tval := (encY 0 0 2 sop).zeroExtend 64 } : Exc)
    (lvl ≤ 1 → CanTake k (call 0x10) ps walk u x →
      Completes (.kcall lc nn) s (TakesExc k (call 0x10) ps u x)) ∧
    (lvl = 1 → CanTake k (call 0x11) ps walk u x →
      Completes (.hcall lc nn) s (TakesExc k (call 0x11) ps u x)) ∧
    (lvl = 1 ∨ lvl = 2 → CanTake k (call 0x12) ps walk u x →
      Completes (.mcall lc nn) s (TakesExc k (call 0x12) ps u x)) ∧
    (CanTake k { code := 0x13 } ps walk u x →
      Completes (.brk lc nn) s (TakesExc k { code := 0x13 } ps u x)) ∧
    (CanTake k { code := 0x01, tval := word.zeroExtend 64 } ps walk u x →
      Completes (.illegalEncoding lc word) s
        (TakesExc k { code := 0x01, tval := word.zeroExtend 64 } ps u x)) ∧
    (2 ≤ lvl → CanTake k (priv nn.toNat) ps walk u x →
      Completes (.kcall lc nn) s (TakesExc k (priv nn.toNat) ps u x)) ∧
    (lvl ≠ 1 → CanTake k (priv (0x100 + nn.toNat)) ps walk u x →
      Completes (.hcall lc nn) s (TakesExc k (priv (0x100 + nn.toNat)) ps u x)) ∧
    (lvl = 0 ∨ lvl = 3 → CanTake k (priv (0x200 + nn.toNat)) ps walk u x →
      Completes (.mcall lc nn) s (TakesExc k (priv (0x200 + nn.toNat)) ps u x))

/-- A failed drain enters STORE_BUS at K for a store of U or K and else at the store's level, or at the
current level with ANYWAY where that is higher, through offset 0xC0; an interrupt that is due enters its
T_eff through offset 0x80 with the source in CAUSE, is pushed on the running-priority stack, and a private
source of the core is active and no longer pending (R70, R119, R122). -/
def Sys2Proof.Claims.AsynchronousEntry : Prop :=
  (∀ (lc : LC) (s : State) k b rest ps walk x, s.asker lc = some k → (s.core lc).ready = true →
    (s.core lc).sbErr = b :: rest →
    let s0 := s.modCore lc Core.settle
    let c := s0.core lc
    let want := if b.level.toNat ≤ 1 then 1 else b.level.toNat
    let tgt := max want c.level
    FrameFits c tgt → c.sb.length ≤ 5 → ps.length = 3 → FrameMapped k tgt ps walk s0 x →
    Completes (.storeBus lc) s fun w =>
      Entered lc tgt 0xC0 c.pc (if want < c.level then 0x200C else 0x0C) b.addr 0 ps c x w ∧
      (w.core lc).sbErr = (x.core lc).sbErr.drop 1) ∧
  (∀ (lc : LC) (s : State) k (src : Cand) tgt ps walk x, s.asker lc = some k →
    (s.core lc).ready = true → (s.core lc).sbErr = [] → s.due lc = some (src, tgt) →
    let s0 := s.modCore lc Core.settle
    let c := s0.core lc
    FrameFits c tgt → c.sb.length ≤ 5 → ps.length = 3 → FrameMapped k tgt ps walk s0 x →
    Completes (.interruptEntry lc) s fun w =>
      let d := w.core lc
      (∀ l, l ≠ tgt → bank d.xsp l = bank (x.core lc).xsp l) ∧ bank d.xsp tgt = bank c.xsp tgt - 192 ∧
      d.status = entryStatus tgt c.world ∧
      d.pc = (bank (x.core lc).vbar tgt &&& ~~~0xFF#64) + 0x80 ∧ d.g = (x.core lc).g ∧
      w.mem = x.mem ∧
      d.cii.stack = ⟨BitVec.ofNat 8 src.prio, src.id, src.die⟩ :: (x.core lc).cii.stack ∧
      (src.die = none → src.id < 32 → d.cii.act.getLsbD src.id = true ∧
        d.cii.pend.getLsbD src.id = false) ∧
      (∃ es, d.sb = (x.core lc).sb ++ es ∧ es.length = 3 ∧
        (es[2]?.map fun e => e.data.extractLsb' 64 64) = some (BitVec.ofNat 64 (2 ^ 63 + src.id)) ∧
        (es[1]?.map fun e => e.data.extractLsb' 448 64) = some c.pc))

/-- ERET with its frame read restores g1 to g15, the pc from EPC and cr.status from ESTATUS, and adds 192 to
cr.xsp of its level; at U, and with a frame of a higher level or, below M, of the other world, it is PRIV
(R71). Where an
interrupt would be taken at the same level at once, the frame stays, CAUSE takes the source, TVAL and TIPA
0, and the handler starts at offset 0x80 (R126). -/
def Obligations.ExceptionReturn : Prop :=
  (∀ (lc : LC) s k t u x, Runs s lc { writes := eretWrites } k t u → (u.core lc).level = 0 →
    u.raise k { code := 0x02, tval := (encY 0 0 3 0).zeroExtend 64 } = some x →
    exec (.eret lc) s = .next x) ∧
  ∀ (lc : LC) s k t u ps walk x g y, Runs s lc { writes := eretWrites } k t u →
    let c := u.core lc
    let sp := bank c.xsp c.level
    c.level ≠ 0 → c.eoiWaits = false →
    u.frameLines k c.level .load [sp, sp + 64, sp + 128] = .done ps walk x →
    Reads x k ps g y → ps.length = 3 →
    let z := y.modCore lc fun c => { c with access := none }
    let b := z.core lc
    let est := frameWord g.val 16
    let lvl := field est 0 2
    let world := est.getLsbD 2 || lvl == 3
    (lvl ≤ b.level ∧ (est.getLsbD 2 = b.world ∨ b.level = 3) →
      ((∀ src, z.takenAt lc b lvl world (est.getLsbD 3) ≠ some (src, b.level)) →
        Completes (.eret lc) s fun w =>
          let d := w.core lc
          OnlyCore lc z w ∧
          (∀ i < 15, d.getG (BitVec.ofNat 5 (i + 1)) = frameWord g.val i) ∧
          (∀ r : Reg, 16 ≤ r.toNat → d.getG r = b.getG r) ∧
          d.pc = frameWord g.val 15 &&& ~~~3#64 ∧
          d.status = BitVec.ofNat 64 (lvl + (if world then 4 else 0) + if est.getLsbD 3 then 8 else 0) ∧
          bank d.xsp b.level = bank b.xsp b.level + 192 ∧
          (∀ l, l ≠ b.level → bank d.xsp l = bank b.xsp l) ∧
          d.vbar = b.vbar ∧ d.xlim = b.xlim ∧ KeepsV b d ∧ d.sb = b.sb ∧ d.cii = b.cii) ∧
      (∀ src p, z.takenAt lc b lvl world (est.getLsbD 3) = some (src, b.level) → ps[2]? = some p →
        b.sb.length < 8 →
        Completes (.eret lc) s fun w =>
          let d := w.core lc
          (∃ e, d.sb = b.sb ++ [e] ∧ e.pa = BitVec.ofNat 64 p.pa ∧ e.bytes = 64 ∧
            e.data.extractLsb' 0 64 = est ∧ e.data.extractLsb' 64 64 = BitVec.ofNat 64 (2 ^ 63 + src.id) ∧
            e.data.extractLsb' 128 64 = 0 ∧ e.data.extractLsb' 192 64 = 0) ∧
          d.g = b.g ∧ d.xsp = b.xsp ∧ d.status = b.status &&& ~~~8#64 ∧ w.mem = z.mem ∧
          d.pc = (bank b.vbar b.level &&& ~~~0xFF#64) + 0x80)) ∧
    (∀ v, ¬ (lvl ≤ b.level ∧ (est.getLsbD 2 = b.world ∨ b.level = 3)) →
      z.raise k { code := 0x02, tval := (encY 0 0 3 0).zeroExtend 64 } = some v →
      exec (.eret lc) s = .next v)

/-- WAIT stops a core of K, H or M at the next instruction and is PRIV at U; it ends, registers unchanged,
when an interrupt that may be taken or a failed drain is there, and not before (R84). -/
def Sys2Proof.Claims.WaitResults : Prop :=
  (∀ (lc : LC) s k t u, Runs s lc {} k t u →
    ((u.core lc).level ≠ 0 → Completes (.wait lc) s fun w =>
      let c := u.core lc
      let d := w.core lc
      d.inWait = true ∧ d.ready = false ∧ d.pc = c.pc + 4 ∧ d.g = c.g ∧ KeepsV c d ∧
      d.status = c.status ∧ d.sb = c.sb ∧ d.cii = c.cii ∧ w.mem = u.mem) ∧
    (∀ x, (u.core lc).level = 0 →
      u.raise k { code := 0x02, tval := (encY 0 0 3 1).zeroExtend 64 } = some x →
      exec (.wait lc) s = .next x)) ∧
  (∀ (lc : LC) (s : State), (s.core lc).inWait = true → (s.core lc).halts = [] →
    (s.core lc).run = .started →
    ((s.due lc).isSome = true ∨ (s.core lc).sbErr ≠ [] → Completes (.waitWake lc) s fun w =>
      let c := s.core lc
      let d := w.core lc
      OnlyCore lc s w ∧ d.inWait = false ∧ d.pc = c.pc ∧ d.g = c.g ∧ KeepsV c d ∧
      d.status = c.status ∧ d.sb = c.sb ∧ d.sbErr = c.sbErr ∧ d.cii = c.cii) ∧
    (s.due lc = none → (s.core lc).sbErr = [] → exec (.waitWake lc) s = .next s))

/-- FENCE.SL marks every store that waits as older than later loads; FENCE.ALL completes with the store
buffer empty, IFENCE also with every delivered L1I invalidation applied, and empties the prefetch queue;
they change no register and no memory (R42, R54, R101). While a store waits neither of the last two
completes. -/
def Sys2Proof.Claims.FenceResults : Prop :=
  ∀ (lc : LC) s k t u, Runs s lc {} k t u →
    let c := u.core lc
    let next := fun (w : State) =>
      OnlyCore lc u w ∧ KeepsV c (w.core lc) ∧ (w.core lc).g = c.g ∧ (w.core lc).pc = c.pc + 4 ∧
      (w.core lc).sb = c.sb ∧ (w.core lc).status = c.status ∧ (w.core lc).l1i = c.l1i
    Completes (.fenceSl lc) s (fun w => next w ∧ (w.core lc).fence = c.sb.length) ∧
    (c.sb = [] → Completes (.fenceAll lc) s next) ∧
    (c.sb = [] → c.l1iPend = [] → Completes (.ifence lc) s fun w => next w ∧ (w.core lc).pfq = []) ∧
    (c.sb ≠ [] → exec (.fenceAll lc) s = .next s ∧ exec (.ifence lc) s = .next s)

/-! TLB maintenance (Table CORE-22, R78 to R80, R114). -/

namespace Sys2Proof.Claims

/-- Whether a form of TLBI, issued by core `c` with its operand, covers an entry: 2 a VA in the current ASID
or of a global page, 3 the current ASID, 4 a partition, 5 everything (Table CORE-22). -/
def TlbiCovers (c : Core) (form : Nat) (op : Word) (x : TlbEntry) : Prop :=
  let mine := x.world = c.world ∧ x.pid = c.pid
  match form with
  | 2 => mine ∧ op.toNat < 2 ^ 48 ∧ x.va.toNat / 2 ^ x.size = op.toNat / 2 ^ x.size ∧
      (x.s1on = true → x.global = true ∨ x.asid = c.asid)
  | 3 => mine ∧ x.s1on = true ∧ x.global = false ∧ x.asid = c.asid
  | 4 => x.world = c.world ∧ x.pid = op.extractLsb' 0 8
  | _ => True

/-- What TLBI leaves of the ITLB, the DTLB and the L2 TLB: exactly the entries that it does not cover, and at K
the locked ones too with their pinned copies; those of the L2 TLB that it skips are counted, and the first sets
SKIP_FLAG and TLB_SKIP (R79, R80). -/
def TlbiResult (form : Nat) (op : Word) (c d : Core) : Prop :=
  (∀ i w, (i, some w) ∈ d.tlbs.l2 ↔ (i, some w) ∈ c.tlbs.l2 ∧
    (¬ TlbiCovers c form op w.e ∨ (c.level ≤ 1 ∧ (w.lockI = true ∨ w.lockD = true)))) ∧
  (∀ i w, (i, some w) ∈ d.tlbs.itlb ↔ (i, some w) ∈ c.tlbs.itlb ∧
    (¬ TlbiCovers c form op w.e ∨ (c.level ≤ 1 ∧ w.pin = true))) ∧
  (∀ i w, (i, some w) ∈ d.tlbs.dtlb ↔ (i, some w) ∈ c.tlbs.dtlb ∧
    (¬ TlbiCovers c form op w.e ∨ (c.level ≤ 1 ∧ w.pin = true))) ∧
  ∃ skipped, skipped.Sublist c.tlbs.l2 ∧
    (∀ x, x ∈ skipped ↔ x ∈ c.tlbs.l2 ∧ c.level ≤ 1 ∧
      ∃ w, x.2 = some w ∧ TlbiCovers c form op w.e ∧ (w.lockI = true ∨ w.lockD = true)) ∧
    (skipped = [] → d.tlbSkipped = c.tlbSkipped ∧ d.tlbSkipFlag = c.tlbSkipFlag ∧ d.cii = c.cii) ∧
    (skipped ≠ [] → d.tlbSkipped.toNat = Nat.min 0xFFFF (c.tlbSkipped.toNat + skipped.length) ∧
      d.tlbSkipFlag = true ∧
      (c.tlbSkipFlag = false → d.cii.pend.getLsbD 11 = true) ∧ (c.tlbSkipFlag = true → d.cii = c.cii))

/-- A command of TLBI: how it is made from a core and its register, the form, and the lowest level. -/
def tlbiForms : List ((LC → Reg → Instr) × Nat × Nat) :=
  [(.tlbiVa, 2, 1), (fun lc _ => .tlbiAsid lc, 3, 1), (.tlbiPid, 4, 2), (fun lc _ => .tlbiAll lc, 5, 3)]

/-- The broadcast forms. -/
def tlbiBForms : List ((LC → Reg → Instr) × Nat × Nat) :=
  [(.tlbiBVa, 2, 1), (fun lc _ => .tlbiBAsid lc, 3, 1), (.tlbiBPid, 4, 2),
   (fun lc _ => .tlbiBAll lc, 5, 3)]

/-- The registers that a form reads, and the register field of its word. -/
def tlbiReads (form : Nat) (ra : Reg) : List Nat := if form = 2 ∨ form = 4 then [gIdx ra] else []

/-- The operand of a form. -/
def tlbiReg (form : Nat) (ra : Reg) : Reg := if form = 2 ∨ form = 4 then ra else 0

end Sys2Proof.Claims

/-- TLBI takes out of the core's TLBs the entries that its form covers, keeping at K the locked ones, and
moves the pc; below its level it is PRIV (R79, R80, R114). -/
def Sys2Proof.Claims.TlbiResults : Prop :=
  ∀ f ∈ tlbiForms, ∀ lc ra s k t u, Runs s lc { reads := tlbiReads f.2.1 ra } k t u →
    let c := u.core lc
    (f.2.2 ≤ c.level → Completes (f.1 lc ra) s fun w =>
      let d := w.core lc
      OnlyCore lc u w ∧ TlbiResult f.2.1 (c.getG (tlbiReg f.2.1 ra)) c d ∧ d.pc = c.pc + 4 ∧
      d.g = c.g ∧ KeepsV c d ∧ d.status = c.status ∧ d.sb = c.sb ∧ d.s1base = c.s1base) ∧
    (∀ x, c.level < f.2.2 →
      u.raise k { code := 0x02, tval := (encY 0 (tlbiReg f.2.1 ra) 5 f.2.1).zeroExtend 64 } = some x →
      exec (f.1 lc ra) s = .next x)

/-- A broadcast TLBI sends one TlbBcast to the Prism port of each of the twelve dies, with its form,
operand, world, partition and ASID, and its core waits for twelve acknowledgements; below its level it is
PRIV (R79, R114, R234). -/
def Sys2Proof.Claims.TlbiBroadcast : Prop :=
  ∀ f ∈ tlbiBForms, ∀ lc ra s k t u, Runs s lc { reads := tlbiReads f.2.1 ra } k t u →
    let c := u.core lc
    (f.2.2 ≤ c.level → u.shep.hold = false → (u.freeTxid (bankStation k.die 0) 32).isSome = true →
      Completes (f.1 lc ra) s fun w =>
        (∃ a, (w.core lc).access = some a ∧ a.kind = .bcast 12) ∧
        (∃ ms, w.net = u.net ++ ms ∧ ms.map (·.dest) = (List.finRange 12).map diePortStation ∧
          ∀ m ∈ ms, m.kind = .tlbBcast ∧ m.addr = BitVec.ofNat 48 (f.2.1 + 0x10) ∧
            m.bmask = c.getG (tlbiReg f.2.1 ra) ∧ m.s = c.world ∧ m.pid = c.pid ∧ m.asid = c.asid) ∧
        (w.core lc).pc = c.pc ∧ (w.core lc).g = c.g ∧ (w.core lc).tlbs = c.tlbs ∧ w.mem = u.mem) ∧
    (∀ x, c.level < f.2.2 →
      u.raise k { code := 0x02, tval := (encY 0 (tlbiReg f.2.1 ra) 5 (f.2.1 + 0x10)).zeroExtend 64 }
        = some x →
      exec (f.1 lc ra) s = .next x)

/-- TLBL writes gd 3 where the entry is locked for its kind already, 1 with 16 locks of the kind, 2 with
four locked entries in the set, else 0 and the entry is locked; 0 with both stages disabled; where the
translation faults, the fault is taken at K and gd is 4 at H and M. TLBU takes a lock off and keeps the entry.
Both are PRIV at U (R78, R79, Table CORE-22). -/
def Sys2Proof.Claims.TlbLockResults : Prop :=
  (∀ (lc : LC) rd ra kindI s k t u, Runs s lc { reads := [gIdx ra], writes := [gIdx rd] } k t u →
    let c := u.core lc
    let va := c.getG ra
    1 ≤ c.level → va.toNat < 2 ^ 48 →
    (c.s1base.getLsbD 0 = false → c.s2base.getLsbD 0 = false →
      Completes (.tlbl lc rd ra kindI) s (ScalarResult lc rd 0 u)) ∧
    (∀ e x, c.s1base.getLsbD 0 = true ∨ c.s2base.getLsbD 0 = true → u.lockWalk k kindI va = .fault e x →
      (2 ≤ c.level → Completes (.tlbl lc rd ra kindI) s (ScalarResult lc rd 4 x)) ∧
      (∀ y, c.level = 1 → x.raise k e = some y → exec (.tlbl lc rd ra kindI) s = .next y)) ∧
    (∀ key walk x w0, c.s1base.getLsbD 0 = true ∨ c.s2base.getLsbD 0 = true →
      u.lockWalk k kindI va = .done key walk x →
      SMap.get none (x.core lc).tlbs.l2 key = some w0 →
      let b := x.core lc
      let mine := fun (w : L2Way) => if kindI then w.lockI else w.lockD
      let gd := if mine w0 then 3 else if 16 ≤ b.tlbs.locked kindI then 1
        else if w0.lockI = false ∧ w0.lockD = false ∧ 4 ≤ b.tlbs.lockedInSet (key / 8) then 2 else 0
      Completes (.tlbl lc rd ra kindI) s fun w =>
        let d := w.core lc
        OnlyCore lc x w ∧ WritesG rd gd b d ∧ d.pc = b.pc + 4 ∧
        (gd ≠ 0 → d.tlbs = b.tlbs) ∧
        (gd = 0 → (∃ w1, SMap.get none d.tlbs.l2 key = some w1 ∧ w1.e = w0.e ∧ mine w1 = true) ∧
          ∀ j, j ≠ key → SMap.get none d.tlbs.l2 j = SMap.get none b.tlbs.l2 j))) ∧
  (∀ (lc : LC) rd ra kindI s k t u, Runs s lc { reads := [gIdx ra], writes := [gIdx rd] } k t u →
    let c := u.core lc
    let va := c.getG ra
    2 ^ 48 ≤ va.toNat →
    (2 ≤ c.level → Completes (.tlbl lc rd ra kindI) s (ScalarResult lc rd 4 u)) ∧
    (∀ y, c.level = 1 →
      u.raise k { code := if kindI then 0x03 else 0x04, fkind := 2, tval := va } = some y →
      exec (.tlbl lc rd ra kindI) s = .next y)) ∧
  (∀ (lc : LC) ra kindI s k t u, Runs s lc { reads := [gIdx ra] } k t u →
    let c := u.core lc
    let va := c.getG ra
    1 ≤ c.level →
    Completes (.tlbu lc ra kindI) s fun w =>
      let d := w.core lc
      OnlyCore lc u w ∧ d.g = c.g ∧ d.pc = c.pc + 4 ∧ d.status = c.status ∧
      (va.toNat < 2 ^ 48 → ∀ key w0, l2TlbFind c.tlbs c va.toNat = some key →
        SMap.get none c.tlbs.l2 key = some w0 →
        (∃ w1, SMap.get none d.tlbs.l2 key = some w1 ∧ w1.e = w0.e ∧
          (if kindI then w1.lockI else w1.lockD) = false) ∧
        ∀ j, j ≠ key → SMap.get none d.tlbs.l2 j = SMap.get none c.tlbs.l2 j)) ∧
  (∀ (lc : LC) rd ra kindI s k t u x, (u.core lc).level = 0 →
    (Runs s lc { reads := [gIdx ra], writes := [gIdx rd] } k t u →
      u.raise k { code := 0x02, tval := (encY rd ra 5 (if kindI then 0x20 else 0)).zeroExtend 64 } = some x →
      exec (.tlbl lc rd ra kindI) s = .next x) ∧
    (Runs s lc { reads := [gIdx ra] } k t u →
      u.raise k { code := 0x02, tval := (encY 0 ra 5 (if kindI then 0x21 else 1)).zeroExtend 64 } = some x →
      exec (.tlbu lc ra kindI) s = .next x))

/-- CORE_ACCT_CTL.CLEAR makes the six counters 0, and the end of a 10 us window gives CORE_BEAT_RATE the
beats of the window, valid where the core was never in WAIT nor its slot reset, after what the checks found in
the window has taken effect (Tables CORE-6, CORE-7, R48). -/
def Sys2Proof.Claims.AccountingEvents : Prop :=
  (∀ (lc : LC) (s : State), Completes (.acctClear lc) s fun w =>
    let a := (w.core lc).acct
    OnlyCore lc s w ∧ a.elapsed = 0 ∧ a.ibeats = 0 ∧ a.stallSb = 0 ∧ a.stallL1 = 0 ∧ a.stallPfq = 0 ∧
    a.stallWalk = 0 ∧ a.freeze = (s.core lc).acct.freeze) ∧
  (∀ die slot (t : Word) found (s : State) (lc : LC),
    let v := found.foldl (State.arrayErr die slot) (s.advance t)
    v.lcAt die slot.val = some lc →
    let key := die.val * 20 + slot.val
    let beats := BitVec.ofNat 64 (v.core lc).beats.next - SMap.get 0 v.beatBase key
    Completes (.beatRateWindow die slot ⟨t, found⟩) s fun w =>
      w.cores = v.cores ∧ w.mem = v.mem ∧ w.dies = v.dies ∧
      (SMap.get 0 v.beatSt key = 0 → SMap.get 0 w.beatRate key = 0) ∧
      (SMap.get 0 v.beatSt key = 1 → SMap.get 0 w.beatRate key = BitVec.ofNat 64 (beats.toNat % 2 ^ 32)) ∧
      (SMap.get 0 v.beatSt key = 2 →
        SMap.get 0 w.beatRate key = BitVec.ofNat 64 (beats.toNat % 2 ^ 32 + 2 ^ 32)) ∧
      SMap.get 0 w.beatBase key = BitVec.ofNat 64 (v.core lc).beats.next)

/-- What the checks of a core and of its die find: an error that a core cannot correct halts it; a parity error
invalidates the L1I line, and the TLB entry unless it is locked or pinned; an uncorrectable error takes a clean
line out of the die cache and poisons a dirty one or a scratch word; a corrected one changes neither cores nor
caches (R139, R158, R424, R425, Table CACHE-5). -/
def Sys2Proof.Claims.ArrayErrorResults : Prop :=
  ∀ (die : Die) (slot : Slot) (t : Word) (s : State) (lc : LC), s.lcAt die slot.val = some lc →
    let c := s.core lc
    let found := fun (e : ArrayErr) (P : State → Prop) =>
      Completes (.beatRateWindow die slot ⟨t, [e]⟩) s fun w => P w ∧ (w.core lc).g = c.g ∧
        (w.core lc).pc = c.pc ∧ (w.core lc).status = c.status ∧ (w.core lc).sb = c.sb
    found .corrected (fun w => w.cores = s.cores ∧ w.dies = s.dies ∧ w.mem = s.mem) ∧
    found .check (fun w => .check ∈ (w.core lc).halts ∧ (∀ h ∈ c.halts, h ∈ (w.core lc).halts)) ∧
    (∀ line, found (.l1i line) fun w => (w.core lc).l1i = c.l1i.drop line.toNat ∧ w.mem = s.mem) ∧
    (∀ i x, SMap.get none c.tlbs.itlb i = some x → found (.itlb i) fun w =>
      SMap.get none (w.core lc).tlbs.itlb i = if x.pin then some x else none) ∧
    (∀ i x, SMap.get none c.tlbs.dtlb i = some x → found (.dtlb i) fun w =>
      SMap.get none (w.core lc).tlbs.dtlb i = if x.pin then some x else none) ∧
    (∀ i x, SMap.get none c.tlbs.l2 i = some x → found (.l2tlb i) fun w =>
      SMap.get none (w.core lc).tlbs.l2 i = if x.lockI || x.lockD then some x else none) ∧
    (∀ word, targetOf (8 * word.toNat) = .scratch → scratchDie (8 * word.toNat) = die →
      s.scratchOk (8 * word.toNat) = true → found (.scratch word true) fun w =>
        SMap.get false w.poisWord word.toNat = true ∧ w.mem = s.mem) ∧
    (∀ line, (((s.die die).sub line.toNat).st = .s ∨ ((s.die die).sub line.toNat).st = .e) →
      found (.dc line true) fun w => ((w.die die).sub line.toNat).st = .i) ∧
    (∀ line, ((s.die die).sub line.toNat).st = .m → found (.dc line true) fun w =>
      let u := (w.die die).sub line.toNat
      u.st = .i ∨ u.pois = true)

/-! Interrupts (R116 to R137) and the pins (R522, Table PKG-10). -/

namespace Sys2Proof.Claims

/-- Every source of the distributor of die `d` but those of `ids` is as before, and of these `keep` holds
between the old and the new one. -/
def OnlySources (d : Die) (ids : Nat → Bool) (keep : Nat → IntSrc → IntSrc → Prop) (s w : State) : Prop :=
  (∀ i, ids i = true → keep i ((s.die d).intd.src i) ((w.die d).intd.src i)) ∧
  (∀ i, ids i = false → (w.die d).intd.src i = (s.die d).intd.src i) ∧
  (w.die d).intd.en = (s.die d).intd.en ∧
  (∀ e, e ≠ d → w.die e = s.die e) ∧ w.cores = s.cores ∧ w.mem = s.mem

/-- The sources of word `k` that a write of `bits` by `who` reaches (R131, R132). -/
def reached (s : State) (d : Die) (k : Nat) (bits : Word32) (who : Accessor) (i : Nat) : Bool :=
  i / 32 == k && bits.getLsbD (i % 32) && sharedId i && s.maySource d i who

/-- Only the interrupt interface of core `lc` changes. -/
def OnlyCii (lc : LC) (s w : State) (c : Cii) : Prop :=
  OnlyCore lc s w ∧ (w.core lc).cii = c ∧ (w.core lc).g = (s.core lc).g ∧ (w.core lc).pc = (s.core lc).pc ∧
  (w.core lc).status = (s.core lc).status ∧ (w.core lc).sb = (s.core lc).sb

/-- The bits of `bits` that name private sources 0 to 11 which `who` may access (R131). -/
def privReached (x : Cii) (bits : Word32) (who : Accessor) (i : Nat) : Bool :=
  decide (i < 12) && bits.getLsbD i && x.mayAccess i who

end Sys2Proof.Claims

/-- The source that an interface chooses is, of those that may be taken, one of the lowest priority value
and of these the lowest ID; it is taken only when its group beats the running priority's and its effective
level is above the core's, or at it with IE = 1 (R118, R119). -/
def Obligations.InterruptSelection : Prop :=
  ∀ (s : State) (lc : LC) (src : Cand) tgt, s.due lc = some (src, tgt) →
    let c := s.core lc
    src ∈ s.takeable lc c c.world ∧
    (∀ x ∈ s.takeable lc c c.world, src.prio < x.prio ∨ (src.prio = x.prio ∧ src.id ≤ x.id)) ∧
    src.prio / 16 < c.cii.runPri / 16 ∧
    (c.level < tgt ∨ (c.level = tgt ∧ c.ie = true)) ∧
    (src.lvl = 3 → tgt = 3) ∧ (src.lvl ≠ 3 → src.world = c.world ∨ src.id = 10)

/-- An offer reaches the interface that the source's target names, while the source is pending, enabled and
not active; any other offer changes nothing (R118, R129, R134). -/
def Sys2Proof.Claims.OfferResults : Prop :=
  ∀ (d : Die) (i : BitVec 10) (s : State) (lc : LC),
    ((s.die d).intd.src i.toNat).lc.toNat = lc.val →
    let x := s.core lc
    (sharedId i.toNat = true → s.offerable lc d i.toNat = true → (d, i.toNat) ∉ x.cii.offers →
      Completes (.intOffer d i) s fun w =>
        OnlyCii lc s w { x.cii with offers := x.cii.offers ++ [(d, i.toNat)] }) ∧
    (s.offerable lc d i.toNat = false → exec (.intOffer d i) s = .next s)

/-- DEADLINE is pending from the instant at which TB_NOW reaches a CII_DEADLINE that is not 0, and TB_NOW
never runs backwards; in P2 Standby it wakes the device where PWR_WAKE enables it (R27, R476, Table INT-1). -/
def Sys2Proof.Claims.DeadlineResults : Prop :=
  (∀ (lc : LC) (t : Word) (s : State), (s.advance t).wakes 2 = true →
    exec (.deadline lc t) s = .next (s.advance t).wakeUp) ∧
  ∀ (lc : LC) (t : Word) (s : State), (s.advance t).wakes 2 = false → Completes (.deadline lc t) s fun w =>
    w.tb.toNat = Nat.max s.tb.toNat t.toNat ∧ w.cores = s.cores ∧ w.mem = s.mem ∧
    (w.privPending (w.core lc) 8 = true ↔
      (s.core lc).cii.deadline ≠ 0 ∧ (s.core lc).cii.deadline.toNat ≤ Nat.max s.tb.toNat t.toNat)

/-- CII_SGI, from K or above, makes source n of the named core pending where the writer is M, or is of the
source's world and H or of the core's partition; else SGI_DROP is set there. CII_EOI pops the running
priority and deactivates the source it names; another ID, or an empty stack, sets EOI_ERR (R123, R137). -/
def Sys2Proof.Claims.SgiAndEoiResults : Prop :=
  (∀ (lc t : LC) (w0 : Word32) (s : State), (s.core lc).level ≠ 0 → w0.toNat % 256 = t.val →
    let who := (s.core lc).accessor lc
    let n := w0.toNat / 256 % 8
    let c := s.core t
    let ok := who.lvl = 3 ∨ (who.world = (c.cii.cfg n).world ∧ (who.lvl = 2 ∨ who.pid = c.pid))
    (ok → Completes (.sgi lc w0) s fun w =>
      OnlyCii t s w { c.cii with pend := c.cii.pend ||| (1#32 <<< n) }) ∧
    (¬ ok → Completes (.sgi lc w0) s fun w => OnlyCii t s w { c.cii with sgiDrop := true })) ∧
  (∀ (lc : LC) (w0 : Word32) (s : State), (s.core lc).level ≠ 0 →
    let c := s.core lc
    let id := w0.toNat % 1024
    (∀ e rest, c.cii.stack = e :: rest → e.id = id → e.die = none → id < 32 →
      Completes (.eoi lc w0) s fun w =>
        OnlyCii lc s w { c.cii with stack := rest, act := c.cii.act &&& ~~~(1#32 <<< id) }) ∧
    (∀ e rest d, c.cii.stack = e :: rest → e.id = id → e.die = some d →
      Completes (.eoi lc w0) s fun w =>
        (w.core lc).cii = { c.cii with stack := rest } ∧ (w.core lc).g = c.g ∧
        (w.die d).intd.src id = { (s.die d).intd.src id with act := false } ∧
        (∀ i, i ≠ id → (w.die d).intd.src i = (s.die d).intd.src i) ∧ w.mem = s.mem) ∧
    ((∀ e, c.cii.stack.head? = some e → e.id ≠ id) →
      Completes (.eoi lc w0) s fun w => OnlyCii lc s w { c.cii with eoiErr := true })) ∧
  (∀ (lc : LC) (w0 : Word32) (s : State), (s.core lc).level = 0 →
    exec (.sgi lc w0) s = .next s ∧ exec (.eoi lc w0) s = .next s)

/-- A store to INTD_MSG from K or above makes an edge source of its message sources pending for the owner that its INTD_OWNER
names, and else drops the message and counts it in INTD_DROP (R127). -/
def Sys2Proof.Claims.IntdMsgResults : Prop :=
  ∀ (d : Die) (w0 : Word32) (who : Accessor) (s : State), who.lvl ≠ 0 →
    let i := w0.toNat % 1024
    let o := s.intdOwner d i
    let owns := o.getLsbD 10 = true ∧ who.world = o.getLsbD 9 ∧
      (o.getLsbD 8 = true ∨ who.pid = o.extractLsb' 0 8)
    (128 ≤ i → owns → Completes (.intdMsg d w0 who) s
      (OnlySources d (· == i) (fun _ a b => b = { a with pend := a.pend || !a.level }) s)) ∧
    (i < 128 ∨ ¬ owns → Completes (.intdMsg d w0 who) s fun w =>
      (w.die d).intd = { (s.die d).intd with
        dropCnt := BitVec.ofNat 16 (Nat.min 0xFFFF ((s.die d).intd.dropCnt.toNat + 1)), dropFlag := true } ∧
      (∀ e, e ≠ d → w.die e = s.die e) ∧ w.cores = s.cores ∧ w.mem = s.mem)

/-- The set and clear words of a distributor change, of the sources that they name and the writer may
access, the enable bit, and the pending bit of edge sources; those of a core interface likewise, where
bit 10 of the enable word stays 1 and the pending bits of sources 8 to 10 ignore writes (R131 to R133,
R136, Tables INT-5, INT-6, INT-11). -/
def Sys2Proof.Claims.InterruptWordWrites : Prop :=
  (∀ (d : Die) (k : Fin 32) (bits : Word32) (who : Accessor) (s : State), 1 ≤ k.val → who.lvl ≠ 0 →
    let hit := reached s d k.val bits who
    Completes (.enableSet (.shared d k) bits who) s
      (OnlySources d hit (fun _ a b => b = { a with en := true }) s) ∧
    Completes (.enableClr (.shared d k) bits who) s
      (OnlySources d hit (fun _ a b => b = { a with en := false }) s) ∧
    Completes (.pendSet (.shared d k) bits who) s
      (OnlySources d hit (fun i a b =>
        b = if a.level = true ∨ s.canPend d i = false then a else { a with pend := true }) s) ∧
    Completes (.pendClr (.shared d k) bits who) s
      (OnlySources d hit (fun _ a b => b = if a.level then a else { a with pend := false }) s)) ∧
  (∀ (lc : LC) (bits : Word32) (who : Accessor) (s : State), who.lvl ≠ 0 →
    who.lvl = 3 ∨ who.lc.toNat = lc.val →
    let x := (s.core lc).cii
    let hit := privReached x bits who
    Completes (.enableSet (.priv lc) bits who) s (fun w =>
      OnlyCii lc s w { x with en := (w.core lc).cii.en } ∧
      ∀ i < 12, (w.core lc).cii.en.getLsbD i = (decide (i = 10) || hit i || x.en.getLsbD i)) ∧
    Completes (.enableClr (.priv lc) bits who) s (fun w =>
      OnlyCii lc s w { x with en := (w.core lc).cii.en } ∧
      ∀ i < 12, (w.core lc).cii.en.getLsbD i = (decide (i = 10) || (x.en.getLsbD i && !hit i))) ∧
    Completes (.pendSet (.priv lc) bits who) s (fun w =>
      OnlyCii lc s w { x with pend := (w.core lc).cii.pend } ∧
      ∀ i < 32, (w.core lc).cii.pend.getLsbD i =
        (x.pend.getLsbD i || (hit i && !(decide (8 ≤ i) && decide (i ≤ 10))))) ∧
    Completes (.pendClr (.priv lc) bits who) s (fun w =>
      OnlyCii lc s w { x with pend := (w.core lc).cii.pend } ∧
      ∀ i < 12, (w.core lc).cii.pend.getLsbD i =
        (x.pend.getLsbD i && !(hit i && !(decide (8 ≤ i) && decide (i ≤ 10)))))) ∧
  (∀ (d : Die) (i : BitVec 10) (v : Word32) (who : Accessor) (s : State), 32 ≤ i.toNat → who.lvl ≠ 0 →
    (s.maySource d i.toNat who = true → Completes (.intdTargetWrite d i v who) s
      (OnlySources d (· == i.toNat) (fun _ a b => b = { a with
        lc := v.extractLsb' 0 8, lvl := v.extractLsb' 8 2, world := v.getLsbD 10,
        level := if 64 ≤ i.toNat ∧ i.toNat ≤ 95 then v.getLsbD 11 else a.level }) s)) ∧
    (s.maySource d i.toNat who = false → exec (.intdTargetWrite d i v who) s = .next s))

namespace Sys2Proof.Claims

/-- An accessor at K or above whom the owner record of Shepherd-served unit `u` accepts (R322, R323). -/
def Served (s : State) (u : Nat) (who : Accessor) : Prop :=
  let o := s.cpGet (servedOwner u)
  who.lvl ≠ 0 ∧ o.getLsbD 10 = true ∧ who.world = o.getLsbD 9 ∧
  (o.getLsbD 8 = true ∨ who.pid = o.extractLsb' 0 8)

end Sys2Proof.Claims

/-- The serial units: a received byte enters a FIFO of 16 or sets RXOVR, a written byte the other FIFO or
sets TXOVR, a read takes the oldest byte, a byte shifted out leaves; an I2C transfer starts on GO in an
enabled idle controller and its end sets DONE and stores what a read brought; an access that the owner
record does not accept changes nothing. A GPIO pin takes its sampled level (R322, R323, R522). -/
def Sys2Proof.Claims.PinResults : Prop :=
  (∀ (u : Fin 2) (b : Byte) (fe : Bool) (s : State),
    let x := s.uart u.val
    (x.ctl.getLsbD 16 = true → Completes (.uartRx u b fe) s fun w =>
      w.uart u.val = { x with rx := if x.rx.length < 16 then x.rx ++ [b] else x.rx,
                              rxovr := x.rxovr || decide (16 ≤ x.rx.length), frame := x.frame || fe } ∧
      w.cores = s.cores ∧ w.mem = s.mem) ∧
    (x.ctl.getLsbD 16 = false → exec (.uartRx u b fe) s = .next s) ∧
    (x.ctl.getLsbD 16 = true → Completes (.uartTxDone u) s fun w =>
      w.uart u.val = { x with tx := x.tx.drop 1 } ∧ w.cores = s.cores ∧ w.mem = s.mem)) ∧
  (∀ (u : Fin 2) (b : Byte) (who : Accessor) (s : State),
    let x := s.uart u.val
    (Served s u.val who →
      Completes (.uartDataWrite u b who) s (fun w =>
        w.uart u.val = { x with tx := if x.tx.length < 16 then x.tx ++ [b] else x.tx,
                                txovr := x.txovr || decide (16 ≤ x.tx.length) } ∧
        w.cores = s.cores ∧ w.mem = s.mem) ∧
      Completes (.uartDataRead u who) s fun w =>
        w.uart u.val = { x with rx := x.rx.drop 1 } ∧ w.cores = s.cores ∧ w.mem = s.mem) ∧
    (¬ Served s u.val who →
      exec (.uartDataWrite u b who) s = .next s ∧ exec (.uartDataRead u who) s = .next s)) ∧
  (∀ (u : Fin 2) (c : Word32) (who : Accessor) (s : State), Served s (2 + u.val) who →
    let x := s.i2c u.val
    let n := c.toNat / 2 ^ 8 % 32
    (c.getLsbD 13 = true → x.busy = false → 1 ≤ n → n ≤ 16 → x.ctl.getLsbD 12 = true →
      Completes (.i2cGo u c who) s fun w =>
        w.i2c u.val = { x with busy := true, cmd := c.truncate 13 } ∧ w.mem = s.mem) ∧
    (c.getLsbD 13 = true → x.busy = false → n = 0 ∨ 16 < n →
      Completes (.i2cGo u c who) s fun w => w.i2c u.val = { x with badlen := true } ∧ w.mem = s.mem)) ∧
  (∀ (u : Fin 2) (r : I2cResult) (s : State), (s.i2c u.val).busy = true →
    Completes (.i2cDone u r) s fun w =>
      let x := s.i2c u.val
      let y := w.i2c u.val
      let n := x.cmd.toNat / 2 ^ 8 % 32
      y.busy = false ∧ y.done = true ∧ y.nack = (x.nack || r.nack) ∧ y.arb = (x.arb || r.arbLost) ∧
      (x.cmd.getLsbD 7 = false → y.buf = x.buf) ∧
      (x.cmd.getLsbD 7 = true → y.buf = r.data.take n ++ x.buf.drop (r.data.take n).length)) ∧
  (∀ (p : Fin 32) (level : Bool) (s : State), let x := s.gpio p.val
    (x.oe = false → level = x.pol → Completes (.gpioPinChange p level) s fun w =>
      w.gpio p.val = { x with pin := level } ∧ w.net = s.net ∧ w.cores = s.cores ∧ w.mem = s.mem) ∧
    (x.oe = false → level ≠ x.pol → x.pin ≠ level → s.shep.hold = false →
      s.cpField (pwrAddr 0x40) p.val 1 = 0 → ∀ d : Die, bit (s.intdOwner d (64 + p.val)) 10 = true →
      Completes (.gpioPinChange p level) s fun w =>
        w.gpio p.val = { x with pin := level } ∧ w.mem = s.mem ∧
        ∃ m, w.net = s.net ++ [m] ∧ m.kind = .intMsg ∧ m.addr = BitVec.ofNat 48 (64 + p.val)) ∧
    (x.oe = true → exec (.gpioPinChange p level) s = .next s))

/-! The range-maintenance engine (R159 to R168). -/

namespace Sys2Proof.Claims

/-- The launches of RME_CMD by operation code (Table CACHE-12). -/
def rmeForms : List ((Die → Word32 → Accessor → Instr) × Nat) :=
  [(.rmeClean, 1), (.rmeInval, 2), (.rmeCleanInval, 3), (.rmeZero, 4), (.rmeLock, 5), (.rmeUnlock, 6),
   (.rmePrefetch, 7)]

/-- Only the range engine of die `d` changes, to `x`. -/
def OnlyRme (d : Die) (s w : State) (x : Rme) : Prop :=
  (w.die d).rme = x ∧ (w.die d).secs = (s.die d).secs ∧ (w.die d).intd = (s.die d).intd ∧
  (∀ e, e ≠ d → w.die e = s.die e) ∧ w.cores = s.cores ∧ w.net = s.net ∧ w.mem = s.mem

/-- Whether Table CACHE-6 gives operation `op` the scope asked for: CLEAN, INVAL and CLEAN_INVAL both,
ZERO DOMAIN alone, LOCK, UNLOCK and PREFETCH LOCAL alone. -/
def ScopeAllowed (op : Nat) (domain : Bool) : Prop :=
  op ≤ 3 ∨ (op = 4 ∧ domain = true) ∨ (5 ≤ op ∧ domain = false)

end Sys2Proof.Claims

/-- A claim makes its writer the holder where there is none; a release by the holder frees an idle engine,
one by M any engine, aborting a command that runs; an abort by one who may program the engine stops the
running command with ERR 5 (R159, R160, R166). -/
def Sys2Proof.Claims.RangeEngineClaims : Prop :=
  ∀ (d : Die) (who : Accessor) (s : State),
    let x := (s.die d).rme
    (∀ h : who.lc.toNat < 216, who.lvl ≠ 0 → x.holder = none → Completes (.rmeClaimReq d who) s fun w =>
      OnlyRme d s w { x with holder := some ⟨⟨who.lc.toNat, h⟩, who.pid, who.lvl, who.world⟩ }) ∧
    (x.holder ≠ none → Completes (.rmeClaimReq d who) s fun w => OnlyRme d s w x) ∧
    (who.lvl ≠ 3 → x.heldBy who = true → x.busy = false → Completes (.rmeClaimRel d who) s fun w =>
      OnlyRme d s w { x with holder := none }) ∧
    (who.lvl ≠ 3 → x.heldBy who = false ∨ x.busy = true → Completes (.rmeClaimRel d who) s fun w =>
      OnlyRme d s w x) ∧
    (who.lvl = 3 → Completes (.rmeClaimRel d who) s fun w =>
      OnlyRme d s w { x with holder := none, err := if x.busy = true ∧ x.err = 0 then 5 else x.err }) ∧
    (x.mayProgram who = true → x.busy = true → x.err = 0 → Completes (.rmeAbort d who) s fun w =>
      OnlyRme d s w { x with err := 5 }) ∧
    (x.mayProgram who = false ∨ x.busy = false → Completes (.rmeAbort d who) s fun w => OnlyRme d s w x)

/-- A launch by the holder or M on an idle engine starts at RME_BASE under the identity of the holder, or of the
M core where there is none (assumption 135); an operation outside its scopes ends
at once with ERR 1, a range that is reversed or not in HBM with 2, FORCE from a holder below H with 3
(R160, R161, Table CACHE-12). Another's launch, or one while busy, changes nothing. -/
def Sys2Proof.Claims.RangeEngineLaunch : Prop :=
  ∀ f ∈ rmeForms, ∀ (d : Die) (v : Word32) (who : Accessor) (s : State),
    let x := (s.die d).rme
    let op := f.2
    let inHbm := x.base.toNat ≤ x.limit.toNat ∧ x.limit.toNat < 0x1000000000
    let low := v.getLsbD 4 = true ∧ ∃ h, x.holder = some h ∧ h.lvl.toNat < 2
    let set := fun (err : BitVec 3) (w : State) =>
      let y := (w.die d).rme
      OnlyRme d s w y ∧ y.holder = x.holder ∧ y.op.toNat = op ∧ y.force = v.getLsbD 4 ∧
      y.scope = v.getLsbD 5 ∧ y.own = v.getLsbD 6 ∧ y.irq = v.getLsbD 7 ∧
      y.tclass = v.extractLsb' 8 4 ∧ y.err = err ∧ y.base = x.base ∧ y.limit = x.limit ∧
      (∀ h, x.holder = some h → y.run = some h) ∧
      (∀ h : who.lc.toNat < 216, x.holder = none →
        y.run = some ⟨⟨who.lc.toNat, h⟩, who.pid, who.lvl, who.world⟩)
    (x.mayProgram who = true → x.busy = false →
      (ScopeAllowed op (v.getLsbD 5) → inHbm → ¬ low → Completes (f.1 d v who) s fun w =>
        set 0 w ∧ (w.die d).rme.busy = true ∧ (w.die d).rme.next.toNat = x.base.toNat) ∧
      (¬ ScopeAllowed op (v.getLsbD 5) → Completes (f.1 d v who) s fun w =>
        set 1 w ∧ (w.die d).rme.busy = false ∧ (w.die d).rme.done = true) ∧
      (ScopeAllowed op (v.getLsbD 5) → ¬ inHbm → Completes (f.1 d v who) s fun w =>
        set 2 w ∧ (w.die d).rme.busy = false ∧ (w.die d).rme.done = true) ∧
      (ScopeAllowed op (v.getLsbD 5) → inHbm → low → Completes (f.1 d v who) s fun w =>
        set 3 w ∧ (w.die d).rme.busy = false ∧ (w.die d).rme.done = true)) ∧
    (x.mayProgram who = false ∨ x.busy = true → Completes (f.1 d v who) s fun w => OnlyRme d s w x)

/-- A line step of UNLOCK clears the lock of the sector that holds its line and moves on by 64 B, one of LOCK
sets it where the set holds fewer locks than its limit; a step of CLEAN on a line that the die cache does not
hold only moves on; one of DOMAIN scope sends the home of the line a CMO; a line whose Pasture refuses stops
the command with ERR 4 and PROGRESS at the line. The engine completes when no answer is awaited and the range
is done or ERR is set: BUSY clears, DONE sets, RME_DONE, where an edge source, is pending if asked (R147, R162,
R165, R166). -/
def Sys2Proof.Claims.RangeEngineProgress : Prop :=
  (∀ (d : Die) (s : State) h,
    let x := (s.die d).rme
    let line := x.next.toNat / 64
    x.run = some h → x.busy = true → x.err = 0 → x.next.toNat ≤ x.limit.toNat → s.rmeOut d < 32 →
    let passes := fun (p : Perm) (ok : Bool) (s1 : State) =>
      s.checkPasture (mcStation (quadOf x.next.toNat)) 32 x.next.toNat h.world h.pid p (intdStation d)
        = (ok, s1) ∧ s1.die d = s.die d
    (∀ s1 t, x.scope = true → 1 ≤ x.op.toNat → x.op.toNat ≤ 4 →
      passes (if x.op = 2 ∨ x.op = 4 then .w else .r) true s1 →
      s1.freeTxid (bankOf d line) 32 = some t →
      Completes (.rmeLineStep d) s fun w =>
        (w.die d).rme = { x with next := x.next + 64 } ∧ (w.die d).secs = (s.die d).secs ∧
        w.mem = s1.mem ∧ ∃ r ∈ w.reqs, r.purpose = .engine d ∧ r.msg.kind = .cmo ∧
          r.msg.dest = homeOfLine line ∧ r.msg.txid = BitVec.ofNat 14 t ∧ r.msg.s = h.world ∧
          r.msg.pid = h.pid ∧ r.msg.addr = BitVec.ofNat 48 (64 * line +
            (if x.op = 4 then 3 else x.op.toNat - 1) + if x.force then 4 else 0)) ∧
    (∀ s1 way, x.scope = false → x.op = 5 → passes (if x.own then .w else .r) true s1 →
      (s.die d).wayOf line = some way → (s.die d).closed.getLsbD way = false →
      ((s.die d).sub line).st ≠ .i →
      ((s.die d).sec (dcSet line) way).lock = true ∨ (s.die d).lockedIn (dcSet line) < s1.lockMax d →
      Completes (.rmeLineStep d) s fun w =>
        (w.die d).rme = { x with next := x.next + 64 } ∧
        ((w.die d).sec (dcSet line) way) = { (s.die d).sec (dcSet line) way with lock := true } ∧
        w.net = s1.net ∧ w.mem = s1.mem) ∧
    (∀ way, x.scope = false → x.op = 6 → (s.die d).wayOf line = some way → (s.die d).closed.getLsbD way = false →
      Completes (.rmeLineStep d) s fun w =>
        (w.die d).rme = { x with next := x.next + 64 } ∧
        ((w.die d).sec (dcSet line) way) = { (s.die d).sec (dcSet line) way with lock := false } ∧
        w.cores = s.cores ∧ w.net = s.net ∧ w.mem = s.mem) ∧
    (∀ s1, x.scope = false → x.op = 1 → (s.die d).wayOf line = none → passes .r true s1 →
      Completes (.rmeLineStep d) s fun w =>
        (w.die d).rme = { x with next := x.next + 64 } ∧ (w.die d).secs = (s.die d).secs ∧
        w.net = s1.net ∧ w.mem = s1.mem) ∧
    (∀ s1, x.op = 1 → passes .r false s1 →
      Completes (.rmeLineStep d) s fun w =>
        (w.die d).rme = { x with err := 4 } ∧ (w.die d).secs = (s.die d).secs ∧ w.mem = s1.mem)) ∧
  (∀ (d : Die) (s : State),
    let x := (s.die d).rme
    (x.busy = true → s.rmeOut d = 0 → x.err ≠ 0 ∨ x.limit.toNat < x.next.toNat →
      Completes (.rmeComplete d) s fun w =>
        (w.die d).rme = { x with busy := false, done := true } ∧
        (x.irq = true → ((w.die d).intd.src 32).pend =
          (((s.die d).intd.src 32).pend || !((s.die d).intd.src 32).level)) ∧
        (x.irq = false → (w.die d).intd = (s.die d).intd) ∧ w.cores = s.cores ∧ w.mem = s.mem) ∧
    (x.busy = false ∨ s.rmeOut d ≠ 0 ∨ (x.err = 0 ∧ x.next.toNat ≤ x.limit.toNat) →
      exec (.rmeComplete d) s = .next s))

namespace Sys2Proof.Claims

/-- The commands of messages that reach their station, with the kind each takes and the low
bits that tell the CMOs apart. -/
def messageForms : List ((Msg → Instr) × MsgKind × Option Nat) :=
  [(.rdShared, .rdShared, none), (.rdUnique, .rdUnique, none), (.rdOnce, .rdOnce, none),
   (.wrUnique, .wrUnique, none), (.upgrade, .upgrade, none), (.evict, .evict, none),
   (.writeBack, .writeBack, none), (.atomicAtHome, .atomicAtHome, none), (.cmoClean, .cmo, some 0),
   (.cmoInval, .cmo, some 1), (.cmoCleanInval, .cmo, some 2), (.cmoZero, .cmo, some 3),
   (.snpShared, .snpShared, none), (.snpInval, .snpInval, none), (.snpOnce, .snpOnce, none),
   (.ansGone, .ansGone, none), (.ansShared, .ansShared, none), (.ansKeep, .ansKeep, none),
   (.ansGoneData, .ansGoneData, none), (.ansSharedData, .ansSharedData, none),
   (.ansKeepData, .ansKeepData, none), (.grantS, .grantS, none), (.grantE, .grantE, none),
   (.readData, .readData, none), (.homeDone, .homeDone, none), (.atomicOld, .atomicOld, none),
   (.homeRefuse, .homeRefuse, none), (.homePoison, .homePoison, none),
   (.evictDone, .evictDone, none), (.grantSeen, .grantSeen, none), (.scrRd, .scrRd, none),
   (.scrWr, .scrWr, none), (.devRd, .devRd, none), (.devWr, .devWr, none), (.hostRd, .hostRd, none),
   (.hostWr, .hostWr, none), (.ncData, .ncData, none), (.ncAck, .ncAck, none),
   (.ncErr, .ncErr, none), (.ncPoison, .ncPoison, none), (.intMsg, .intMsg, none),
   (.intAck, .intAck, none), (.tlbBcast, .tlbBcast, none), (.tlbAck, .tlbAck, none),
   (.roleGone, .roleGone, none)]

end Sys2Proof.Claims

/-- A message whose source, destination and virtual channel are those of one sent before it that is still
in the fabric does not arrive: its command answers the same state, in which both are still in the fabric,
in their order (R241). -/
def Obligations.RouteOrder : Prop :=
  ∀ f ∈ messageForms, ∀ (m x : Msg) (s : State) pre post, m.kind = f.2.1 →
    (∀ c, f.2.2 = some c → m.low % 4 = c) → s.net = pre ++ x :: post →
    m ∉ pre → x ≠ m → x.src = m.src → x.dest = m.dest → x.vc = m.vc →
    Machine.exec (f.1 m) s = .next s

/-! What happens to a message that its station does not simply take (R230, R233, R234, R243, R247, R248). -/

namespace Sys2Proof.Claims

/-- The units that Tables COH-1 and FAB-3 address a command to. -/
def servedBy (k : MsgKind) (u : UnitKind) : Bool :=
  match k, u with
  | .rdShared, .home _ | .rdUnique, .home _ | .rdOnce, .home _ | .wrUnique, .home _ | .upgrade, .home _
  | .evict, .home _ | .writeBack, .home _ | .atomicAtHome, .home _ | .cmo, .home _ | .ansGone, .home _
  | .ansShared, .home _ | .ansKeep, .home _ | .ansGoneData, .home _ | .ansSharedData, .home _
  | .ansKeepData, .home _ | .grantSeen, .home _ => true
  | .snpShared, .bank _ | .snpInval, .bank _ | .snpOnce, .bank _ | .scrRd, .bank _ | .scrWr, .bank _
  | .grantS, .bank _ | .grantE, .bank _ | .evictDone, .bank _ | .tlbAck, .bank _ => true
  | .readData, x | .homeDone, x | .atomicOld, x | .homeRefuse, x | .homePoison, x =>
    match x with
    | .bank _ | .fold | .portA | .ce _ | .shepherd | .mirror => true
    | _ => false
  | .ncData, x | .ncAck, x | .ncErr, x | .ncPoison, x =>
    match x with
    | .bank _ | .fold | .portA | .ce _ | .shepherd | .mirror | .slot _ => true
    | _ => false
  | .devRd, x | .devWr, x =>
    match x with
    | .slot _ | .intd | .shepherd => true
    | _ => false
  | .hostRd, .portA | .hostWr, .portA | .intMsg, .intd | .tlbBcast, .diePort => true
  | .intAck, _ | .roleGone, _ => true
  | _, _ => false

/-- What the fabric answers for a station that is down (R243, R257). -/
def downAnswer : MsgKind → Option MsgKind
  | .rdShared | .rdUnique | .rdOnce | .wrUnique | .upgrade | .atomicAtHome | .cmo | .evict | .writeBack =>
    some .homeRefuse
  | .scrRd | .scrWr | .devRd | .devWr | .hostRd | .hostWr => some .ncErr
  | .intMsg => some .intAck
  | .tlbBcast => some .tlbAck
  | _ => none

/-- A message of the row's command has reached the end of its way: it overtakes none and has passed its links. -/
def Reaches (s : State) (m : Msg) (f : (Msg → Instr) × MsgKind × Option Nat) : Prop :=
  m.kind = f.2.1 ∧ (∀ c, f.2.2 = some c → m.low % 4 = c) ∧ s.overtakes m = false ∧ s.linkWaits m = false

/-- Cores, dies and memory are as before. -/
def SameUnits (u w : State) : Prop := w.cores = u.cores ∧ w.dies = u.dies ∧ w.mem = u.mem

end Sys2Proof.Claims

/-- A message of another command than the row's is left where it is. One that its station does not serve, or whose
code no table lists, is dropped and sets BADCMD. A stale answer ends its transaction, is counted, and RoleGone goes
back. For a station that is down the fabric answers a request and sinks an answer, which ends its transaction
(R180, R234, R243, R247, R248). -/
def Sys2Proof.Claims.MessagesNotTaken : Prop :=
  ∀ f ∈ messageForms, ∀ (m : Msg) (s u : State), m.checks = [] → u = (s.recv m).passed m →
    (m.kind ≠ f.2.1 → (∀ c, m.kind ≠ .other c) → exec (f.1 m) s = .next s) ∧
    (∀ c, m.kind = .cmo → f.2.1 = .cmo → f.2.2 = some c → m.low % 4 ≠ c → exec (f.1 m) s = .next s) ∧
    (s.overtakes m = false → s.linkWaits m = false → s.isDown m.dest m.src = false →
      (Reaches s m f ∧ ∀ x, unitKind m.dest = some x → servedBy m.kind x = false) ∨
        (∃ c, m.kind = .other c) →
      Completes (f.1 m) s fun w => w.net = u.net ∧ w.reqs = u.reqs ∧ SameUnits u w ∧
        w.cpField (cpAddr m.dest 0xFF010) 3 1 = 1) ∧
    (Reaches s m f → s.isDown m.dest m.src = false → u.slotFenced m.dest = false →
      (∃ x, unitKind m.dest = some x ∧ servedBy m.kind x = true) → u.stale m = true →
      Completes (f.1 m) s fun w => SameUnits u w ∧
        w.reqs = (match u.findReq m with | some r => u.reqs.erase r | none => u.reqs) ∧
        (∃ y, w.net = u.net ++ [y] ∧ y.kind = .roleGone ∧ y.dest = m.src ∧ y.src = m.dest ∧
          y.txid = m.txid ∧ y.epoch = m.epoch) ∧
        let drops := fun (x : State) => x.cpField (cpAddr m.dest 0xFF008) 0 16
        drops w = min 0xFFFF (drops u + 1)) ∧
    (Reaches s m f → s.isDown m.dest m.src = true → Completes (f.1 m) s fun w => SameUnits u w ∧
      match downAnswer m.kind with
      | some k => w.reqs = u.reqs ∧ ∃ y, w.net = u.net ++ [y] ∧ y.kind = k ∧ y.dest = m.src ∧
          y.src = m.dest ∧ y.txid = m.txid ∧ y.epoch = m.epoch
      | none => w.net = u.net ∧ w.reqs = (match u.findReq m with
          | some r => if m.kind.isAnswer then u.reqs.erase r else u.reqs
          | none => u.reqs))

/-- A message with an uncorrectable word in its header is lost, whatever it asks, and UE_HDR is set. A check of a
data flit that finds one passes the message on poisoned with zero data, setting UE_DATA unless five words or more
show the poison syndrome; a check that finds single-bit errors only passes it on as it is, sets CORR and counts
them (R230, R233). -/
def Sys2Proof.Claims.FlitCheckResults : Prop :=
  (∀ f ∈ messageForms, ∀ (m : Msg) (s : State) c rest, Reaches s m f → m.checks = c :: rest →
    c.data = false → c.ue ≠ [] →
    Completes (f.1 m) s fun w =>
      w.net = (s.recv m).net ∧ w.reqs = s.reqs ∧ SameUnits s w ∧
      w.cpField (cpAddr c.st 0xFF010) 1 1 = 1) ∧
  (∀ (c : FlitCheck) (m : Msg) (s : State),
    let r := State.checkFlit c m s
    let count := fun (x : State) => x.cpField (cpAddr c.st 0xFF010) 16 16
    SameUnits s r.2 ∧ r.2.net = s.net ∧ count r.2 = min 0xFFFF (count s + c.ce.length) ∧
    (c.ce ≠ [] → r.2.cpField (cpAddr c.st 0xFF010) 0 1 = 1) ∧
    (c.ue = [] → r.1 = some m) ∧
    (c.data = true → c.ue ≠ [] → m.flits = 2 →
      r.1 = some { m with poisoned := true, data := some 0 } ∧
      (poisonWords c m.poisoned < 5 → r.2.cpField (cpAddr c.st 0xFF010) 2 1 = 1)))

/-! Homes (R171 to R195), snooped dies (R182) and what requesters do with answers (R174 to R190, R247,
R248). -/

namespace Sys2Proof.Claims

/-- A message reaches its station: it overtakes none, has passed its links, and the checks on its way found
nothing; its station is up and its answer is not stale (R241, R243, R247, R267); and `u` is the state in which
the station takes it. -/
def Arrives (s : State) (m : Msg) (u : State) : Prop :=
  m.checks = [] ∧ s.overtakes m = false ∧ s.linkWaits m = false ∧ s.isDown m.dest m.src = false ∧
  u = (s.recv m).passed m ∧ u.stale m = false ∧ u.slotFenced m.dest = false

/-- A message of kind `k` arrives at the home of quadrant `q`. -/
def AtHome (s : State) (q : Quad) (m : Msg) (k : MsgKind) (u : State) : Prop :=
  m.kind = k ∧ m.dest = homeStation q ∧ Arrives s m u ∧ u.accepts q = true ∧ m.lowOk = true

/-- An answer to message `m` of kind `k`, with data and low address bits, was sent. -/
def Answered (m : Msg) (k : MsgKind) (data : Option Line) (low : Nat) (u w : State) : Prop :=
  ∃ a, w.net = u.net ++ [a] ∧ a.kind = k ∧ a.dest = m.src ∧ a.src = m.dest ∧ a.txid = m.txid ∧
    a.epoch = m.epoch ∧ a.data = data ∧ a.addr = BitVec.ofNat 48 (m.line * 64 + low)

/-- The requests of Table COH-1 that a home serves, with the low bits that tell CMOs apart. -/
def homeForms : List ((Msg → Instr) × MsgKind × Option Nat) :=
  [(.rdShared, .rdShared, none), (.rdUnique, .rdUnique, none), (.rdOnce, .rdOnce, none),
   (.wrUnique, .wrUnique, none), (.upgrade, .upgrade, none), (.atomicAtHome, .atomicAtHome, none),
   (.cmoClean, .cmo, some 0), (.cmoInval, .cmo, some 1), (.cmoCleanInval, .cmo, some 2),
   (.cmoZero, .cmo, some 3)]

/-- The permission that Table COH-14 asks for. -/
def homePerm (m : Msg) : Option Perm :=
  if m.kind = .rdShared ∨ m.kind = .rdOnce then some (if m.fetch then .x else .r)
  else if m.kind = .cmo then some (if m.low % 4 = 1 ∨ m.low % 4 = 3 then .w else .r)
  else some .w

/-- The Pasture of the line's memory lets the request pass (R184). -/
def PastureLets (u : State) (q : Quad) (m : Msg) : Prop :=
  ∀ p, homePerm m = some p → u.passes (mcStation q) 32 (64 * m.line) m.s m.pid p = true

/-- Nothing at the home concerns the line, nothing waits there, and the line is not mirrored. -/
def LineFree (u : State) (q : Quad) (line : Nat) : Prop :=
  (∀ e ∈ (u.home q).table, e.phase ≠ .queued ∧ e.msg.line ≠ line) ∧
  (∀ m ∈ (u.home q).held, m.line ≠ line) ∧ u.mirrored line = false

/-- The value of a far atomic on an old word (Table ISA-16). -/
def atomicValue (code : Nat) (old b expect : Word) : Word :=
  match code with
  | 0 => old + b
  | 1 => b
  | 2 => if old = expect then b else old
  | 3 => if old.toInt < b.toInt then old else b
  | 4 => if old.toInt < b.toInt then b else old
  | 5 => if old.toNat < b.toNat then old else b
  | _ => if old.toNat < b.toNat then b else old

/-- Doubleword `i` of a line. -/
def lineWord (d : Line) (i : Nat) : Word := d.extractLsb' (64 * i) 64

/-- An entry for `m` waits for GrantSeen, and the duplicate tags of the requester hold the line in E. -/
def GrantedE (q : Quad) (m : Msg) (d : Die) (u w : State) : Prop :=
  (∃ e ∈ (w.home q).table, e.msg = m ∧ e.phase = .grant) ∧ w.dtState d m.line = .e ∧
  (∀ e, e ≠ d → w.dtState e m.line = u.dtState e m.line) ∧ w.mem = u.mem

end Sys2Proof.Claims

/-- A request that the Pasture does not let pass is answered HomeRefuse and takes no entry; one for a line
with an entry waits behind it, and nothing is sent (R172, R173, R184). -/
def Sys2Proof.Claims.HomeRefusesAndQueues : Prop :=
  ∀ f ∈ homeForms, ∀ (q : Quad) (m : Msg) (s u : State), AtHome s q m f.2.1 u →
    (∀ c, f.2.2 = some c → m.low % 4 = c) → u.mayTake q m.hi = true →
    (∀ s1 p, homePerm m = some p →
      u.checkPasture (mcStation q) 32 (64 * m.line) m.s m.pid p m.src = (false, s1) →
      Completes (f.1 m) s fun w =>
        Answered m .homeRefuse none 0 s1 w ∧ (w.home q).table = (u.home q).table ∧ w.mem = s1.mem ∧
        w.dt = s1.dt) ∧
    (PastureLets u q m → (∀ e ∈ (u.home q).table, e.phase ≠ .queued) →
      (∃ e ∈ (u.home q).table, e.msg.line = m.line) →
      Completes (f.1 m) s fun w =>
        (∃ e, (w.home q).table = (u.home q).table ++ [e] ∧ e.msg = m ∧ e.phase = .queued) ∧
        w.net = u.net ∧ w.dt = u.dt ∧ w.mem = u.mem)

/-- A line that no die holds and the MSC has, with nothing else at the home: RdShared and RdUnique are
granted E with the data, RdOnce reads it, a full WrUnique and CMO ZERO replace it, a far atomic returns the
old word and writes its result, the other CMOs are done; an Upgrade of the only sharer is granted E without
data (R183, R185, Tables COH-5 to COH-13). -/
def Sys2Proof.Claims.HomeServes : Prop :=
  ∀ (q : Quad) (m : Msg) (s u : State) l, u.mayTake q m.hi = true → PastureLets u q m →
    LineFree u q m.line → (u.home q).msc.find m.line = some l → l.pois = false →
    let mscHolds := fun (w : State) (x : Line) =>
      ∃ y, (w.home q).msc.find m.line = some y ∧ y.data = x
    let ends := fun (w : State) => (w.home q).table = (u.home q).table ∧ w.mem = u.mem
    (u.holders m.line = [] →
      (∀ d, dieOfStation m.src = some d →
        (AtHome s q m .rdShared u → Completes (.rdShared m) s fun w =>
          Answered m .grantE (some l.data) 0 u w ∧ GrantedE q m d u w) ∧
        (AtHome s q m .rdUnique u → Completes (.rdUnique m) s fun w =>
          Answered m .grantE (some l.data) 0 u w ∧ GrantedE q m d u w)) ∧
      (AtHome s q m .rdOnce u → Completes (.rdOnce m) s fun w =>
        Answered m .readData (some l.data) 0 u w ∧ ends w) ∧
      (∀ x, AtHome s q m .wrUnique u → m.bmask = fullMask → m.data = some x →
        Completes (.wrUnique m) s fun w =>
          Answered m .homeDone none 0 u w ∧ mscHolds w x ∧ ends w) ∧
      (∀ ops, AtHome s q m .atomicAtHome u → m.data = some ops →
        Completes (.atomicAtHome m) s fun w =>
          let i := m.low / 8
          let old := lineWord l.data i
          Answered m .atomicOld (some (old.zeroExtend 512)) 0 u w ∧ ends w ∧
          ∃ x, mscHolds w x ∧
            lineWord x i = atomicValue (m.low % 8) old (lineWord ops 0) (lineWord ops 1) ∧
            ∀ j < 8, j ≠ i → lineWord x j = lineWord l.data j) ∧
      (AtHome s q m .cmo u →
        (m.low % 4 = 0 → Completes (.cmoClean m) s fun w =>
          Answered m .homeDone none 0 u w ∧ mscHolds w l.data ∧ ends w) ∧
        (m.low % 4 = 1 → Completes (.cmoInval m) s fun w =>
          Answered m .homeDone none 0 u w ∧ mscHolds w l.data ∧ ends w) ∧
        (m.low % 4 = 2 → Completes (.cmoCleanInval m) s fun w =>
          Answered m .homeDone none 0 u w ∧ mscHolds w l.data ∧ ends w) ∧
        (m.low % 4 = 3 → Completes (.cmoZero m) s fun w =>
          Answered m .homeDone none 0 u w ∧ mscHolds w 0 ∧ ends w))) ∧
    (∀ d, dieOfStation m.src = some d → u.holders m.line = [(d, .s)] → AtHome s q m .upgrade u →
      Completes (.upgrade m) s fun w => Answered m .homeDone none 0 u w ∧ GrantedE q m d u w)

namespace Sys2Proof.Claims

/-- The snoops of Tables COH-5 to COH-13: which holders a request makes the home snoop, by the snoop's kind
and low bits, for a requester on die `me`. An Upgrade counts where the requester still holds the line in
S. -/
def Snooped (f : MsgKind × Nat) (me : Option Die) (d : Die) (c : CState) : Option (MsgKind × Nat) :=
  match f.1 with
  | .rdShared => if c = .e then some (.snpShared, 0) else none
  | .rdUnique => if some d ≠ me then some (.snpInval, 0) else none
  | .upgrade => if c = .s ∧ some d ≠ me then some (.snpInval, 0) else none
  | .rdOnce => if c = .e then some (.snpOnce, 0) else none
  | .cmo =>
    if f.2 % 4 = 0 then (if c = .e then some (.snpOnce, 0) else none)
    else if f.2 % 4 = 3 then some (.snpInval, 0) else some (.snpInval, f.2 % 8)
  | _ => some (.snpInval, 0)

end Sys2Proof.Claims

/-- Where some holder is to be snooped, the request takes an entry that waits for exactly the snooped dies,
and one snoop goes to each of them: the E holders for RdShared, RdOnce and CMO CLEAN, the other holders for
RdUnique and Upgrade, every holder for WrUnique, far atomics and the other CMOs (R176, R178, R182). -/
def Sys2Proof.Claims.HomeSnoops : Prop :=
  ∀ f ∈ homeForms, ∀ (q : Quad) (m : Msg) (s u : State), AtHome s q m f.2.1 u →
    (∀ c, f.2.2 = some c → m.low % 4 = c) → u.mayTake q m.hi = true → PastureLets u q m →
    LineFree u q m.line →
    let me := dieOfStation m.src
    (m.kind = .upgrade → ∃ d, me = some d ∧ u.dtState d m.line = .s) →
    let snooped := fun d => Snooped (m.kind, m.low) me d (u.dtState d m.line)
    (∃ d, u.dtState d m.line ≠ .i ∧ snooped d ≠ none) →
    Completes (f.1 m) s fun w =>
      (∃ e left, (w.home q).table = (u.home q).table ++ [e] ∧ e.msg = m ∧ e.phase = .snoop left ∧
        ∀ d, d ∈ left ↔ u.dtState d m.line ≠ .i ∧ snooped d ≠ none) ∧
      (∃ ms, w.net = u.net ++ ms ∧
        (∀ d, u.dtState d m.line ≠ .i → ∀ k, snooped d = some k →
          ∃ x ∈ ms, x.kind = k.1 ∧ x.dest = bankOf d m.line ∧
            x.addr = BitVec.ofNat 48 (64 * m.line + k.2)) ∧
        ∀ x ∈ ms, ∃ d, x.dest = bankOf d m.line ∧ u.dtState d m.line ≠ .i ∧ snooped d ≠ none) ∧
      w.dt = u.dt ∧ w.mem = u.mem

/-- An eviction that no snoop crosses is applied: the sender's tag goes to I, or stays for a WriteBack with
KEEP, written-back data enters the MSC, and EvictDone is sent, its low address bits 0. One that crosses a
snoop of its line is held, and one marked stale is dropped and counted, with EvictDone (R181, R188, Table
COH-10). -/
def Sys2Proof.Claims.HomeEvictions : Prop :=
  ∀ (q : Quad) (m : Msg) (s u : State) d, dieOfStation m.src = some d →
    let crosses := ∃ e ∈ (u.home q).table, e.msg.line = m.line ∧ (∃ l, e.phase = .snoop l) ∧
      ∃ x ∈ e.holders, x.1 = d
    let home := fun (k : MsgKind) => AtHome s q m k u
    let drops := fun (w : State) => w.cpField (cpAddr (homeStation q) 0x010) 0 16
    let counted := fun (w : State) => drops w = min 0xFFFF (drops u + 1)
    ((d, m.txid) ∉ (u.home q).stale → u.mayTakeEv q d m.hi = true → ¬ crosses →
      u.mirrored m.line = false → m.poisoned = false →
      (home .evict → Completes (.evict m) s fun w =>
        Answered m .evictDone none 0 u w ∧ w.dtState d m.line = .i ∧
        (∀ e, e ≠ d → w.dtState e m.line = u.dtState e m.line) ∧ w.mem = u.mem) ∧
      (∀ x, home .writeBack → m.data = some x → Completes (.writeBack m) s fun w =>
        Answered m .evictDone none 0 u w ∧
        w.dtState d m.line = (if m.low = 1 then u.dtState d m.line else .i) ∧
        (∃ y, (w.home q).msc.find m.line = some y ∧ y.data = x ∧ y.dirty = true) ∧ w.mem = u.mem)) ∧
    ((d, m.txid) ∉ (u.home q).stale → u.mayTakeEv q d m.hi = true → crosses →
      (home .evict → Completes (.evict m) s fun w =>
        (w.home q).held = (u.home q).held ++ [m] ∧ w.net = u.net ∧ w.dt = u.dt) ∧
      (home .writeBack → Completes (.writeBack m) s fun w =>
        (w.home q).held = (u.home q).held ++ [m] ∧ w.net = u.net ∧ w.dt = u.dt)) ∧
    ((d, m.txid) ∈ (u.home q).stale →
      (home .evict → Completes (.evict m) s fun w =>
        Answered m .evictDone none 0 u w ∧ (w.home q).stale = (u.home q).stale.erase (d, m.txid) ∧
        w.dt = u.dt ∧ (w.home q).msc = (u.home q).msc ∧ counted w) ∧
      (home .writeBack → Completes (.writeBack m) s fun w =>
        Answered m .evictDone none 0 u w ∧ (w.home q).stale = (u.home q).stale.erase (d, m.txid) ∧
        w.dt = u.dt ∧ (w.home q).msc = (u.home q).msc ∧ counted w))

namespace Sys2Proof.Claims

/-- The snoop answers of Table COH-3: whether they bring data, and what the die keeps, none for no
change. -/
def answerForms : List ((Msg → Instr) × MsgKind × Bool × Option CState) :=
  [(.ansGone, .ansGone, false, some .i), (.ansShared, .ansShared, false, some .s),
   (.ansKeep, .ansKeep, false, none), (.ansGoneData, .ansGoneData, true, some .i),
   (.ansSharedData, .ansSharedData, true, some .s), (.ansKeepData, .ansKeepData, true, none)]

end Sys2Proof.Claims

/-- A snoop answer for another request than a CMO takes its die off the entry's list; the data it brings enters
the MSC. While answers are missing the entry waits; after the last one a RdOnce is answered with the data and
the holder keeps its state. GrantSeen ends a granted entry (R182, R183). -/
def Sys2Proof.Claims.HomeAnswers : Prop :=
  (∀ f ∈ answerForms, ∀ (q : Quad) (m : Msg) (s u : State) d e left, AtHome s q m f.2.1 u →
    dieOfStation m.src = some d → m.low = 0 → m.poisoned = false → (m.data.isSome = f.2.2.1) →
    (u.home q).table.find? (fun x => x.idx == m.txid.toNat % 4096) = some e →
    (u.home q).table.filter (fun x => x.idx == m.txid.toNat % 4096) = [e] →
    e.phase = .snoop left → d ∈ left → e.msg.line = m.line → e.msg.kind ≠ .cmo →
    e.msg.dest = homeStation q →
    ((∃ d', d' ∈ left ∧ d' ≠ d) → Completes (f.1 m) s fun w =>
      (∃ e' ∈ (w.home q).table, e'.msg = e.msg ∧ e'.phase = .snoop (left.filter (· ≠ d)) ∧
        e'.after = e.after ++ (f.2.2.2.toList.map fun c => (d, c))) ∧
      (∀ x, m.data = some x → ∃ y, (w.home q).msc.find m.line = some y ∧ y.data = x) ∧
      w.net = u.net ∧ w.dt = u.dt ∧ w.mem = u.mem) ∧
    (∀ x, (∀ d' ∈ left, d' = d) → m.data = some x → e.msg.kind = .rdOnce → e.after = [] → f.2.2.2 = none →
      (∀ y ∈ (u.home q).table, y.phase ≠ .queued) → (∀ y ∈ (u.home q).held, y.line ≠ m.line) →
      u.mirrored m.line = false →
      Completes (f.1 m) s fun w =>
        Answered e.msg .readData (some x) 0 u w ∧ w.dt = u.dt ∧
        (w.home q).table = (u.home q).table.filter fun y => y.idx ≠ e.idx)) ∧
  (∀ (q : Quad) (m : Msg) (s u : State) e, AtHome s q m .grantSeen u →
    (u.home q).table.find? (fun x => x.phase == .grant && x.msg.src == m.src && x.msg.txid == m.txid)
      = some e →
    (∀ y ∈ (u.home q).table, y.phase ≠ .queued) →
    Completes (.grantSeen m) s fun w =>
      (w.home q).table = (u.home q).table.filter (fun y => y.idx ≠ e.idx) ∧ w.net = u.net ∧
      w.dt = u.dt ∧ w.mem = u.mem)

/-- An expired snoop or grant timer stops the home: it takes no more entries, and the memory copy of every line
that some die may hold newer than memory is poisoned (R194, R195). -/
def Sys2Proof.Claims.HomeTimeout : Prop :=
  ∀ (q : Quad) (entry : Nat) (s : State) e, s.accepts q = true →
    (s.home q).table.find? (fun x => x.idx == entry) = some e →
    let stops := fun (w : State) => w.accepts q = false ∧
      ∀ line ∈ s.eLines q, (w.memCopy line).2 = true
    (∀ d left, e.phase = .snoop left → d ∈ left → Completes (.snoopTimeout q entry (some d)) s stops) ∧
    (e.phase = .grant → Completes (.snoopTimeout q entry none) s stops)

namespace Sys2Proof.Claims

/-- What a die answers to a snoop of a sub-block that it holds (Table COH-3): the answer's kind and whether
it carries the data, by the sub-block's dirtiness. -/
def snoopAnswer (k : MsgKind) (dirty : Bool) : MsgKind × Bool :=
  match k with
  | .snpShared => if dirty then (.ansSharedData, true) else (.ansShared, false)
  | .snpInval => if dirty then (.ansGoneData, true) else (.ansGone, false)
  | _ => if dirty then (.ansKeepData, true) else (.ansKeep, false)

/-- The snoops and the state in which each leaves the sub-block. -/
def snoopForms : List ((Msg → Instr) × MsgKind × CState) :=
  [(.snpShared, .snpShared, .s), (.snpInval, .snpInval, .i), (.snpOnce, .snpOnce, .e)]

end Sys2Proof.Claims

/-- A die that holds the line answers a snoop with the data where it is dirty, and keeps the line in S, gives it
up, or keeps it clean; one that holds nothing answers AnsGone, and one whose eviction buffer holds the line
answers from there, naming the buffer's entry where the eviction is overtaken (R182, R187, Table COH-3). -/
def Sys2Proof.Claims.SnoopResults : Prop :=
  ∀ f ∈ snoopForms, ∀ (m : Msg) (s u : State) (d : Die) b, m.kind = f.2.1 →
    m.dest = bankStation d b → Arrives s m u → m.low = 0 →
    let x := u.die d
    let v := x.sub m.line
    (v.st ≠ .i →
      Completes (f.1 m) s fun w =>
        let a := snoopAnswer f.2.1 (v.st == .m)
        ((w.die d).sub m.line).st = (if v.st = .s ∧ f.2.2 = .e then .s else f.2.2) ∧
        (∃ y, w.net = u.net ++ [y] ∧ y.kind = a.1 ∧ y.dest = m.src ∧ y.txid = m.txid ∧
          y.addr = BitVec.ofNat 48 (64 * m.line) ∧ y.poisoned = (a.2 && v.pois) ∧
          y.data = (if a.2 then some (if v.pois then 0 else v.data) else none)) ∧ w.mem = u.mem) ∧
    (v.st = .i → x.evOf m.line = none → Completes (f.1 m) s fun w =>
      (∃ y, w.net = u.net ++ [y] ∧ y.kind = .ansGone ∧ y.dest = m.src ∧ y.data = none) ∧
      w.dies = u.dies ∧ w.cores = u.cores ∧ w.mem = u.mem) ∧
    (∀ e ev, v.st = .i → x.evOf m.line = some (e, ev) → Completes (f.1 m) s fun w =>
      let keep := f.2.1 = .snpOnce
      (∃ y, w.net = u.net ++ [y] ∧ y.dest = m.src ∧ y.txid = m.txid ∧
        y.kind = (if keep then if ev.dirty then .ansKeepData else .ansKeep
                  else if ev.dirty then .ansGoneData else .ansGone) ∧
        y.data = (if ev.dirty then some (if ev.pois then 0 else ev.data) else none) ∧
        y.addr = BitVec.ofNat 48 (64 * m.line + if keep then 0 else 32 + e)) ∧
      w.dies = u.dies ∧ w.cores = u.cores ∧ w.mem = u.mem)

namespace Sys2Proof.Claims

/-- An answer of kind `k` arrives at a requester to which the spec addresses it, other than the Fold, whose
transaction is `r`; a completion of a home has no stray address bits (R181, R234). -/
def AtRequester (s : State) (m : Msg) (k : MsgKind) (r : Req) (u : State) : Prop :=
  m.kind = k ∧ Arrives s m u ∧ (∃ x, unitKind m.dest = some x ∧ MsgKind.answers k x = true) ∧
  (k.code < 0x30 → m.lowOk = true) ∧ m.dest ≠ foldStation ∧ u.findReq m = some r

/-- The cores of the die that asked for one of its sub-blocks start again if they wait for one; no other core
changes (R146, R186). -/
def Woken (d : Option Die) (u w : State) : Prop :=
  ∀ lc, let waits := (∃ x, d = some x ∧ lc ∈ u.lcsOf x) ∧ ∃ a b, (u.core lc).access = some a ∧ a.kind = .wait b
    (waits → (w.core lc).access = none ∧ (w.core lc).pc = (u.core lc).pc ∧ (w.core lc).g = (u.core lc).g) ∧
    (¬ waits → w.core lc = u.core lc)

/-- The state in which an answer to transaction `r` fails an access of `lc`, and the stall beats that the answer
took. -/
def Failing (u : State) (r : Req) (lc : LC) : Nat × State :=
  let x := ((r.die.elim u u.dieWake).endReq r).takeBeats
  (x.1, x.2.modCore lc fun c => { c with access := none })

/-- The answers that bring a line, or a bus error, or poison to a read, and what they bring. -/
def readAnswers : List ((Msg → Instr) × MsgKind × (Msg → Ans)) :=
  [(.readData, .readData, fun m => .data (m.data.getD 0) m.poisoned),
   (.ncData, .ncData, fun m => .data (m.data.getD 0) m.poisoned),
   (.homeRefuse, .homeRefuse, fun _ => .bus), (.ncErr, .ncErr, fun _ => .bus),
   (.homePoison, .homePoison, fun _ => .data 0 true), (.ncPoison, .ncPoison, fun _ => .data 0 true)]

/-- The answers to a store that leaves its entry of the buffer, and whether the store failed (R70,
R185). -/
def drainAnswers : List ((Msg → Instr) × MsgKind × Bool) :=
  [(.homeDone, .homeDone, false), (.ncAck, .ncAck, false), (.homeRefuse, .homeRefuse, true),
   (.homePoison, .homePoison, true), (.ncErr, .ncErr, true)]

end Sys2Proof.Claims

/-- An answer ends the transaction that it closes. A line that a fetch or a walk awaits is brought to its core
with its error or poison, a far atomic writes gd the old value, a cache-line operation retires, a drain leaves
the store buffer and raises STORE_BUS later if it failed; a cache-line operation that is refused raises LOAD_BUS,
and a far atomic that is refused or meets poison ATOMIC_BUS; EvictDone frees its sub-block of the eviction buffer;
the twelfth TlbAck retires a broadcast TLBI; IntAck ends an interrupt message (R70, R79, R109, R113, R184, R185,
R187, R234). -/
def Sys2Proof.Claims.AnswerResults : Prop :=
  (∀ f ∈ readAnswers, ∀ (m : Msg) (s u : State) r lc k a walk l, AtRequester s m f.2.1 r u →
    r.purpose = .access lc → u.asker lc = some k → (u.core lc).access = some a →
    a.kind = .line walk l →
    Completes (f.1 m) s fun w =>
      let d := w.core lc
      w.reqs = u.reqs.erase r ∧ d.access = none ∧ SMap.get none d.got l = some (f.2.2 m) ∧
      d.g = (u.core lc).g ∧ d.pc = (u.core lc).pc ∧ w.mem = u.mem) ∧
  (∀ (m : Msg) (s u : State) r lc k a op rd x, AtRequester s m .atomicOld r u →
    r.purpose = .access lc → u.asker lc = some k → (u.core lc).access = some a →
    a.kind = .atomic op rd → m.data = some x → m.poisoned = false →
    Completes (.atomicOld m) s fun w =>
      w.reqs = u.reqs.erase r ∧ WritesG rd (x.truncate 64) (u.core lc) (w.core lc) ∧
      (w.core lc).pc = (u.core lc).pc + 4 ∧ (w.core lc).access = none ∧ w.mem = u.mem) ∧
  (∀ (m : Msg) (s u : State) r lc k a, AtRequester s m .homeDone r u → r.msg.kind = .cmo →
    r.purpose = .access lc → u.asker lc = some k → (u.core lc).access = some a → a.kind = .cmo →
    Completes (.homeDone m) s fun w =>
      w.reqs = u.reqs.erase r ∧ (w.core lc).pc = (u.core lc).pc + 4 ∧ (w.core lc).access = none ∧
      (w.core lc).g = (u.core lc).g ∧ w.mem = u.mem) ∧
  (∀ (m : Msg) (s u : State) r lc k a x, r.purpose = .access lc → u.asker lc = some k →
    (u.core lc).access = some a →
    let z := Failing u r lc
    let e : Exc := { code := 0, tval := (a.parts[0]?).elim 0 (·.va), sb := a.sbm, l1 := a.l1 + z.1, walk := a.walk }
    let fails := fun (code : Nat) => z.2.raise k { e with code := code } = some x
    (AtRequester s m .homeRefuse r u → a.kind = .cmo → fails 0x0A →
      exec (.homeRefuse m) s = .next x) ∧
    (∀ op rd, a.kind = .atomic op rd → fails 0x0E →
      (AtRequester s m .homeRefuse r u → exec (.homeRefuse m) s = .next x) ∧
      (AtRequester s m .homePoison r u → exec (.homePoison m) s = .next x))) ∧
  (∀ f ∈ drainAnswers, ∀ (m : Msg) (s u : State) r lc k e rest, AtRequester s m f.2.1 r u →
    r.purpose = .drain lc → r.msg.kind ≠ .upgrade → u.asker lc = some k →
    (u.core lc).sb = e :: rest → e.sent = true →
    Completes (f.1 m) s fun w =>
      let d := w.core lc
      w.reqs = u.reqs.erase r ∧ d.sb = rest ∧ d.g = (u.core lc).g ∧ d.pc = (u.core lc).pc ∧
      d.sbErr = (u.core lc).sbErr ++ (if f.2.2 then [⟨e.va, e.level⟩] else []) ∧ w.mem = u.mem) ∧
  (∀ (m : Msg) (s u : State) r, AtRequester s m .evictDone r u → r.purpose = .evict →
    ∀ d, r.die = some d →
    let n := m.txid.toNat - 0x3F80
    ∀ ev, SMap.get none (u.die d).evb (n / 4) = some ev → Completes (.evictDone m) s fun w =>
      let left := SMap.set none ev.subs (n % 4) none
      w.reqs = u.reqs.erase r ∧
      SMap.get none (w.die d).evb (n / 4) = (if left = [] then none else some { ev with subs := left }) ∧
      Woken (some d) u w ∧ w.mem = u.mem) ∧
  (∀ (m : Msg) (s u : State) r lc k a, AtRequester s m .tlbAck r u → r.purpose = .access lc → r.die = none →
    u.asker lc = some k → (u.core lc).access = some a → (∃ n, a.kind = .bcast n) →
    (r.way < 11 → Completes (.tlbAck m) s fun w =>
      w.cores = u.cores ∧ (∃ x ∈ w.reqs, x = { r with way := r.way + 1 }) ∧ w.mem = u.mem) ∧
    (11 ≤ r.way → Completes (.tlbAck m) s fun w =>
      w.reqs = u.reqs.erase r ∧ (w.core lc).pc = (u.core lc).pc + 4 ∧ (w.core lc).access = none ∧
      (w.core lc).g = (u.core lc).g)) ∧
  (∀ (m : Msg) (s u : State) r, m.kind = .intAck → (unitKind m.dest).isSome = true → Arrives s m u →
    u.findReq m = some r → r.die = none → r.purpose = .interrupt ∨ (∃ f, r.purpose = .notice f) →
    Completes (.intAck m) s fun w => w.reqs = u.reqs.erase r ∧ w.cores = u.cores ∧ w.mem = u.mem)

/-- A grant installs the line in the way chosen with the request, in S or E and of the request's world,
clean, and is acknowledged with GrantSeen; the line enters the L1D of the core that asked (R177, R183,
Table COH-5). -/
def Sys2Proof.Claims.GrantResults : Prop :=
  ∀ f ∈ ([(.grantS, .grantS, .s), (.grantE, .grantE, .e)] : List ((Msg → Instr) × MsgKind × CState)),
  ∀ (m : Msg) (s u : State) r lc d x, AtRequester s m f.2.1 r u → r.purpose = .prefetch lc →
    r.die = some d → r.way < 16 → m.data = some x →
    (∀ w < 16, w ≠ r.way → ((u.die d).sec (dcSet r.msg.line) w).tag ≠ some (r.msg.line / 4)) →
    Completes (f.1 m) s fun w =>
      let v := (w.die d).sub r.msg.line
      w.reqs = u.reqs.erase r ∧ v.st = f.2.2 ∧ v.data = x ∧ v.pois = false ∧ v.world = r.msg.s ∧
      (∃ y, w.net = u.net ++ [y] ∧ y.kind = .grantSeen ∧ y.dest = m.src ∧ y.txid = m.txid) ∧
      w.mem = u.mem

/-- ScrWr writes the masked bytes of its line of scratch, but not part of a poisoned word, and is acknowledged;
ScrRd returns the line; a refusal of the die's Pasture, a way that is not scratch or an address of another die is
NcErr (R24, R152, R313). -/
def Sys2Proof.Claims.ScratchResults : Prop :=
  ∀ (m : Msg) (s u : State) (d : Die) b, m.dest = bankStation d b → Arrives s m u →
    let a := m.addr.toNat
    let good := targetOf a = .scratch ∧ scratchDie a = d ∧ u.scratchOk a = true
    let lets := fun p => (u.checkPasture (dcsStation d) 16 a m.s m.pid p m.src).1
    let rd := if m.fetch then Perm.x else .r
    let refused := fun (w : State) =>
      w.mem = u.mem ∧ ∃ y, w.net = u.net ++ [y] ∧ y.kind = .ncErr ∧ y.dest = m.src ∧ y.txid = m.txid
    (∀ x, m.kind = .scrWr → good → lets .w = true → m.data = some x → Completes (.scrWr m) s fun w =>
      (∀ i < 64, w.byte (a / 64 * 64 + i) =
        if m.bmask.getLsbD i = true ∧ (SMap.get false u.poisWord (a / 64 * 8 + i / 8) = false ∨
            m.bmask.extractLsb' (8 * (i / 8)) 8 = 255) then x.extractLsb' (8 * i) 8
        else u.byte (a / 64 * 64 + i)) ∧
      (∀ y, y < a / 64 * 64 ∨ a / 64 * 64 + 64 ≤ y → w.byte y = u.byte y) ∧
      (∃ y, w.net = u.net ++ [y] ∧ y.kind = .ncAck ∧ y.dest = m.src ∧ y.txid = m.txid)) ∧
    (m.kind = .scrRd → good → lets rd = true → u.scratchPois a m.bytes = false →
      Completes (.scrRd m) s fun w =>
        w.mem = u.mem ∧ ∃ y x, w.net = u.net ++ [y] ∧ y.kind = .ncData ∧ y.dest = m.src ∧
          y.txid = m.txid ∧ y.data = some x ∧
          ∀ i < 64, x.extractLsb' (8 * i) 8 = u.byte (a / 64 * 64 + i)) ∧
    (m.kind = .scrRd → good → lets rd = true → u.scratchPois a m.bytes = true →
      Completes (.scrRd m) s fun w =>
        w.mem = u.mem ∧ ∃ y, w.net = u.net ++ [y] ∧ y.kind = .ncPoison ∧ y.dest = m.src) ∧
    (¬ good ∨ lets rd = false → m.kind = .scrRd → Completes (.scrRd m) s refused) ∧
    (¬ good ∨ lets .w = false → m.kind = .scrWr → Completes (.scrWr m) s refused)

/-- A device station answers DevRd with the value that its register reads as and DevWr with NcAck or NcErr after
the write; a read from U, of another size than 1, 2, 4 or 8 B or not aligned, and a write from U or whose BMASK
names no aligned 1, 2, 4 or 8 B, is NcErr and changes no register (R26, R235). -/
def Sys2Proof.Claims.DeviceAccessResults : Prop :=
  ∀ (m : Msg) (s u : State) x, unitKind m.dest = some x → x.isDevice = true → Arrives s m u →
    let refused := fun (w : State) => w.cores = u.cores ∧ w.dies = u.dies ∧ w.mem = u.mem ∧
      w.cp = u.cp ∧ ∃ y, w.net = u.net ++ [y] ∧ y.kind = .ncErr ∧ y.dest = m.src ∧ y.txid = m.txid
    (∀ v t, m.kind = .devRd → u.devRead m = some (v, t) → t.slotFenced m.dest = false →
      Completes (.devRd m) s fun w => w.mem = t.mem ∧ w.cores = t.cores ∧ ∃ y z, w.net = t.net ++ [y] ∧
        y.kind = .ncData ∧ y.dest = m.src ∧ y.txid = m.txid ∧ y.data = some z ∧
        (v < 2 ^ (8 * m.bytes) → m.addr.toNat % 64 + m.bytes ≤ 64 →
          Line.bytes z (m.addr.toNat % 64) m.bytes = v)) ∧
    (∀ ok t, m.kind = .devWr → u.devWrite m = some (ok, t) → t.slotFenced m.dest = false →
      Completes (.devWr m) s fun w => w.mem = t.mem ∧ w.cores = t.cores ∧ w.dies = t.dies ∧
        ∃ y, w.net = t.net ++ [y] ∧ y.kind = (if ok then .ncAck else .ncErr) ∧ y.dest = m.src ∧
        y.txid = m.txid) ∧
    (m.kind = .devRd → m.lvl = 0 ∨ m.bytes ∉ [1, 2, 4, 8] ∨ m.addr.toNat % m.bytes ≠ 0 →
      Completes (.devRd m) s refused) ∧
    (m.kind = .devWr → m.lvl = 0 ∨ (¬ ∃ n ∈ [1, 2, 4, 8], ∃ i, (i + 1) * n ≤ 64 ∧ m.bmask ≠ 0 ∧
        ∀ j < 64, m.bmask.getLsbD j = true → i * n ≤ j ∧ j < (i + 1) * n) →
      Completes (.devWr m) s refused)

/-- An interrupt message sets an edge source pending where the distributor's owner record admits it, is dropped
with INTD_DROP's flag where not, and is acknowledged. A TLB broadcast is performed on the cores of its die that
run its partition, and acknowledged. RoleGone ends the entry that waits for its GrantSeen (R79, R117, R127, R234,
R248). -/
def Sys2Proof.Claims.DistributorAndBroadcastResults : Prop :=
  (∀ (m : Msg) (s u : State) (d : Die), m.kind = .intMsg → m.dest = intdStation d → Arrives s m u →
    let i := m.addr.toNat % 1024
    let r := (u.die d).intd.src i
    let o := u.intdOwner d i
    let owned := o.getLsbD 10 = true ∧ ((128 ≤ i ∧ m.s = o.getLsbD 9 ∧
      (o.getLsbD 8 = true ∨ m.pid = o.extractLsb' 0 8)) ∨ (hubId i = true ∧ m.src = hubOwner i))
    let acked := fun (w : State) => ∃ y, w.net = u.net ++ [y] ∧ y.kind = .intAck ∧ y.dest = m.src ∧
      y.txid = m.txid
    (owned → Completes (.intMsg m) s fun w => acked w ∧
      (w.die d).intd.src i = { r with pend := r.pend || !r.level } ∧ w.mem = u.mem) ∧
    (¬ owned → Completes (.intMsg m) s fun w => acked w ∧ (w.die d).intd.dropFlag = true ∧
      (w.die d).intd.srcs = (u.die d).intd.srcs ∧ w.mem = u.mem)) ∧
  (∀ (m : Msg) (s u : State) (d : Die) form, m.kind = .tlbBcast → m.dest = diePortStation d →
    Arrives s m u → m.addr.toNat % 4096 = form + 0x10 → 2 ≤ form → form ≤ 5 →
    Completes (.tlbBcast m) s fun w =>
      (∀ lc, lc ∉ u.lcsOf d ∨ (u.core lc).pid ≠ m.pid → w.core lc = u.core lc) ∧
      (∀ lc ∈ u.lcsOf d, (u.core lc).pid = m.pid → (u.core lc).asid = m.asid →
        (u.core lc).world = m.s → (u.core lc).status.extractLsb' 0 2 = m.lvl →
        TlbiResult form m.bmask (u.core lc) (w.core lc) ∧ (w.core lc).g = (u.core lc).g) ∧
      (∃ y, w.net = u.net ++ [y] ∧ y.kind = .tlbAck ∧ y.dest = m.src ∧ y.txid = m.txid)) ∧
  (∀ (q : Quad) (m : Msg) (s u : State) e d, m.kind = .roleGone → m.dest = homeStation q →
    Arrives s m u → u.accepts q = true → dieOfStation m.src = some d →
    (u.home q).table.find? (fun x => x.phase == .grant && x.msg.src == m.src && x.msg.txid == m.txid)
      = some e →
    (∀ y ∈ (u.home q).table, y.phase ≠ .queued) →
    Completes (.roleGone m) s fun w =>
      (w.home q).table = (u.home q).table.filter (fun y => y.idx ≠ e.idx) ∧
      w.dtState d e.msg.line = .i ∧ w.mem = u.mem)

/-! Regulation (R288 to R308) and the memory controllers (R199 to R225). -/

namespace Sys2Proof.Claims

/-- A count of `w` bits that advanced by `n` and stays at its top (R28). -/
def satCount (w old n : Nat) : Nat := Nat.min (2 ^ w - 1) (old + n)

/-- The level that a mean latency gives against a target in ns: 3 from 90 % of it, 2 from 75 %, 1 from 50 %,
else 0; 0 where no target is set (R298). -/
def windowLevel (target mean : Nat) : Nat :=
  if target = 0 ∨ 2 * mean < target then 0 else if 4 * mean < 3 * target then 1
  else if 10 * mean < 9 * target then 2 else 3

/-- Deliverable bandwidth of a stack in 0.1 GB/s (Table REG-3). -/
def stackDeliverable (s : State) (q : Quad) : Nat :=
  if (s.mc q).cmdSr then 0 else if s.cpField (mcAddr q 4) 1 1 = 1 then 460
  else if s.cpField (mcAddr q 4) 0 1 = 1 then 3778 else 4055

/-- The committed guarantee of class `t` on a stack, its effective one, and whether it is critical. -/
def committed (s : State) (q : Quad) (t : Nat) : Nat :=
  s.cpField (cpAddr shepStation (0x60200 + 16 * t + 4 * q.val)) 0 12
def effectiveG (s : State) (q : Quad) (t : Nat) : Nat :=
  s.cpField (cpAddr shepStation (0x60300 + 16 * t + 4 * q.val)) 0 12
def criticalClass (s : State) (t : Nat) : Bool := s.cpField (cpAddr shepStation (0x60100 + 4 * t)) 4 1 = 1

/-- The sum over the classes. -/
def classSum (f : Nat → Nat) : Nat := ((List.range 16).map f).sum

end Sys2Proof.Claims

/-- A request goes out and advances USED while the regulator admits it and holds none that it would pass, and is
held in order of arrival with HELD set where not; evictions are charged and never held (R290 to R292). At a window
start USED is repaid by BUDGET, to 0 without a budget, and the held requests go in order while they are admitted;
any other microsecond leaves USED alone (R291, R292). -/
def Sys2Proof.Claims.RegulatorResults : Prop :=
  (∀ (s : State) u m a, s.regAddr u = some a → chargedKind m.kind = true →
    let t := s.inject u m
    let used := s.cpField (a + 4) 0 18
    let goes := m.kind = .evict ∨ m.kind = .writeBack ∨
      (s.admits u a m.tclass.toNat = true ∧ s.heldAhead u m = false)
    (goes → t.cpField (a + 4) 0 18 = satCount 18 used 1 ∧ t.regHeld = s.regHeld ∧
      (s.shep.hold = false ∨ holdKind m.kind = false → t.slotFenced m.src = false →
        t.net = s.net ++ [routed m])) ∧
    (¬ goes → t.net = s.net ∧ t.regHeld = s.regHeld ++ [(u, m)] ∧ t.cpField (a + 4) 18 1 = 1 ∧
      t.cpField (a + 4) 0 18 = used)) ∧
  (∀ (s : State) u (t : Word) a, s.regAddr u = some a →
    let budget := s.cpField a 0 18
    let used := s.cpField (a + 4) 0 18
    let repaid := if budget = 0 then 0 else used - budget
    let at' := (s.advance t).tb.toNat
    let starts := at' % (1000 * (s.cpField a 18 10 + 1)) = 0
    (at' % 1000 ≠ 0 → exec (.regWindowStart ⟨u, t⟩) s = .next (s.advance t)) ∧
    (at' % 1000 = 0 → (∀ x ∈ s.regHeld, x.1 ≠ u) → Completes (.regWindowStart ⟨u, t⟩) s fun w =>
      w.cpField (a + 4) 0 18 = (if starts then repaid else used) ∧ w.net = s.net ∧
      w.regHeld = s.regHeld ∧ w.cores = s.cores ∧ w.mem = s.mem) ∧
    (∀ m, starts → s.regHeld = [(u, m)] → s.shed2 = false → budget ≠ 0 → repaid < budget →
      s.shep.hold = false → s.slotFenced m.src = false →
      Completes (.regWindowStart ⟨u, t⟩) s fun w =>
        w.cpField (a + 4) 0 18 = repaid + 1 ∧ w.net = s.net ++ [routed m] ∧ w.regHeld = [] ∧
        w.mem = s.mem) ∧
    (∀ m, starts → s.regHeld = [(u, m)] → s.shed2 = false → budget ≠ 0 → budget ≤ repaid →
      Completes (.regWindowStart ⟨u, t⟩) s fun w =>
        w.cpField (a + 4) 0 18 = repaid ∧ w.net = s.net ∧ w.regHeld = [(u, m)]))

namespace Sys2Proof.Claims

/-- Class `t` is under guarantee at a home: the bytes moved for it in the window fall short of its effective
guarantee over the window, while a request of it has no completion yet (R299; log 146). -/
def UnderGuarantee (s : State) (q : Quad) (t : Nat) : Prop :=
  SMap.get 0 (s.home q).moved t < 100 * effectiveG s q t * s.cpField (cpAddr shepStation 0x60000) 0 10 ∧
  ∃ e ∈ (s.home q).table, e.msg.tclass.toNat = t ∧ e.phase ≠ .grant

end Sys2Proof.Claims

/-- The end of a measurement window gives each class of each stack that had requests its mean, and a level
that rises at once and falls by one step a window; a class without requests steps down, its mean not
stated; UNDER tells the classes under guarantee, and the bytes moved are counted anew (R297 to R299). Errors that
the homes found come first. -/
def Sys2Proof.Claims.MeasurementResults : Prop :=
  ∀ (t : Word) (meas : List Measure) (found : List HomeErr) (s : State),
    let u := found.foldl State.homeErr (s.advance t)
    Completes (.measWindowEnd t ⟨meas, found⟩) s fun w =>
    w.cores = u.cores ∧ w.mem = u.mem ∧ w.net = u.net ∧
    ∀ (q : Quad), (w.home q).moved = [] ∧ (w.home q).table = (u.home q).table ∧ ∀ (c : Nat), c < 16 →
      let a := cpAddr shepStation (0x60400 + 16 * c + 4 * q.val)
      let old := u.cpField a 16 2
      let target := 10 * field (u.regClass c) 16 16
      let next := fun level => if old < level then level else Nat.max level (old - 1)
      (w.cpField a 18 1 = 1 ↔ UnderGuarantee u q c) ∧
      (∀ m, meas.find? (fun m => m.q = q && m.cls.toNat = c) = some m →
        w.cpField a 0 16 = Nat.min 0xFFFF m.mean ∧
        w.cpField a 16 2 = next (windowLevel target m.mean)) ∧
      (meas.find? (fun m => m.q = q && m.cls.toNat = c) = none → w.cpField a 16 2 = next 0)

/-- What a home finds in its arrays: an uncorrectable error takes a clean line out of the MSC and sends a dirty one
to the stack marked poisoned; a corrected one, and an error of a duplicate tag, which is reported to the collector,
change neither the home nor memory (R158, R179, Table CACHE-5). -/
def Sys2Proof.Claims.HomeErrorResults : Prop :=
  ∀ (t : Word) (s : State),
    let found := fun (e : HomeErr) (P : State → Prop) => P (State.homeErr s e) ∧
      (State.homeErr s e).cores = s.cores ∧ (State.homeErr s e).mem = s.mem ∧
      (State.homeErr s e).net = s.net ∧ (State.homeErr s e).dt = s.dt
    (∀ e, exec (.measWindowEnd t ⟨[], [e]⟩) s =
      exec (.measWindowEnd t {}) (State.homeErr (s.advance t) e)) ∧
    (∀ q line l, quadOf (64 * line.toNat) = q → (s.home q).msc.find line.toNat = some l →
      found (.msc line true) fun w =>
        (∃ i, (s.home q).msc.wayOf line.toNat = some i ∧
          SMap.get none (w.home q).msc.ways (mscSet line.toNat * 16 + i) = none) ∧ (w.home q).table = (s.home q).table ∧
        (w.home q).wout = (s.home q).wout ++
          if l.dirty then [⟨l.line, l.data, true, l.pois⟩] else []) ∧
    (∀ line, found (.msc line false) fun w => w.homes = s.homes) ∧
    (∀ q die set way ue, found (.dt q die set way ue) fun w => w.homes = s.homes ∧
      (s.cpField (cpAddr (homeStation q) (0xF8000 + 32 * if ue then 0x0D else 0x0C)) 31 1 = 0 →
        ∃ r, w.reports = s.reports ++ [r] ∧ r.op = 0xB))

/-- Effective guarantees never sum to more than the stack's deliverable, never exceed what is committed, are
what is committed where that fits, and leave critical classes whole where these fit (R300, R302). -/
def Sys2Proof.Claims.GuaranteeResults : Prop :=
  ∀ s : State, Completes .guaranteeRecompute s fun w => w.cores = s.cores ∧ w.mem = s.mem ∧
    ∀ q : Quad,
      let d := stackDeliverable s q
      let crit := fun t => if criticalClass s t then committed s q t else 0
      w.cpField (cpAddr shepStation (0x60010 + 4 * q.val)) 0 12 = d ∧
      classSum (effectiveG w q) ≤ d ∧
      (∀ t < 16, effectiveG w q t ≤ committed s q t) ∧
      (classSum (committed s q) ≤ d → ∀ t < 16, effectiveG w q t = committed s q t) ∧
      (classSum crit ≤ d → ∀ t < 16, criticalClass s t = true → effectiveG w q t = committed s q t)

namespace Sys2Proof.Claims

/-- Only the pseudo-channel `p` of controller `q` changes, to `x`. -/
def OnlyPc (q : Quad) (p : Nat) (s w : State) (x : Pc) : Prop :=
  (w.mc q).pc p = x ∧ (∀ j, j ≠ p → (w.mc q).pc j = (s.mc q).pc j) ∧
  (∀ k, k ≠ q → w.mc k = s.mc k) ∧ (w.mc q).cmdSr = (s.mc q).cmdSr ∧ (w.mc q).keep = (s.mc q).keep ∧
  w.cores = s.cores ∧ w.mem = s.mem ∧ w.net = s.net

/-- A controller that serves its stack: not in commanded self-refresh and not in Keep. -/
def Serving (s : State) (q : Quad) : Prop := (s.mc q).cmdSr = false ∧ (s.mc q).keep = false

/-- No request waits in a pseudo-channel. -/
def Idle (p : Pc) : Prop := p.reads = [] ∧ p.issued = [] ∧ p.writes = []

/-- A fill with clean data for a RdOnce that waits for it: the data is sent and the entry ends. -/
def FillsReadOnce (q : Quad) (line : Nat) (e : PEntry) (x : Line) (s w : State) : Prop :=
  (∃ a, w.net = s.net ++ [a] ∧ a.kind = .readData ∧ a.dest = e.msg.src ∧ a.txid = e.msg.txid ∧
    a.data = some x ∧ a.addr = BitVec.ofNat 48 (line * 64)) ∧
  (w.home q).table = (s.home q).table.filter (fun y => y.idx ≠ e.idx) ∧ w.mem = s.mem

/-- The entry of home `q` that waits for the fill of a line is a RdOnce, nothing is queued there, and the home takes
entries. -/
def AwaitsFill (s : State) (q : Quad) (line : Nat) (e : PEntry) : Prop :=
  (s.home q).table.find? (fun y => y.msg.line == line && y.phase == .fill) = some e ∧
  e.msg.kind = .rdOnce ∧ e.msg.dest = homeStation q ∧ e.after = [] ∧
  (∀ y ∈ (s.home q).table, y.phase ≠ .queued) ∧ s.mirrored line = false ∧ s.accepts q = true

/-- Refreshes still owed at `t`: those of a make-up under way that have ended are repaid, one each 350 ns. -/
def owedAt (p : Pc) (t : Word) : Nat :=
  match p.makeUp with
  | some a => p.debt - Nat.min p.debt ((t - a).toNat / 350)
  | none => p.debt

/-- A request that arrives waits for the refresh under way and ends the make-up; the rest stays owed (R211). -/
def Interrupted (p y : Pc) (t : Word) : Prop :=
  y.makeUp = none ∧ y.debt = (if p.makeUp.isSome then owedAt p t - 1 else p.debt)

/-- A request waits in a pseudo-channel, or has issued and its data has not been sent. -/
def Waiting (p : Pc) : Prop := p.reads ≠ [] ∨ p.writes ≠ [] ∨ ∃ r ∈ p.issued, r.scrub = false

end Sys2Proof.Claims

/-- A fill request, which carries its entry's effective priority, enters its pseudo-channel's read queue; with a queued write
to the line it is served from that write under FORWARD, and waits on it under DRAIN. A full queue, a stack in
self-refresh or Keep, a bank not yet filled, a write on its way, a fill of higher priority, a home that has stopped,
another priority and a line that no entry needs leave everything as it was (R202, R207, R208, R211, R221, R299). -/
def Sys2Proof.Claims.FillRequestResults : Prop :=
  ∀ (q : Quad) (l : BitVec 42) (pr : BitVec 2) (s : State),
    let line := l.toNat
    let p := (s.mc q).pc (pcOf line)
    let prio := fun (e : PEntry) => s.effPrio q e.msg
    let ready := fun (e : PEntry) => s.fillEntry q line = some e ∧ prio e = pr ∧ s.accepts q = true ∧
      s.fillBehind q line (prio e) = false ∧ (s.mc q).holds line = false ∧ quadOf (64 * line) = q ∧
      (∀ w ∈ (s.home q).wout, w.line ≠ line) ∧ p.reads.length + p.issued.length < 64
    (∀ e, ready e → (∀ w ∈ p.writes, w.line ≠ line) → Completes (.mcFillRequest q l pr) s fun w =>
      ∃ y, OnlyPc q (pcOf line) s w y ∧ y.reads = p.reads ++ [{ line := line, prio := prio e }] ∧
        y.issued = p.issued ∧ y.writes = p.writes ∧ y.rows = p.rows ∧ y.selfRef = false ∧
        Interrupted p y s.tb ∧ w.homes = s.homes) ∧
    (∀ e v, ready e → p.writes.reverse.find? (fun w => w.line == line) = some v →
      (s.cpField (mcAddr q 0) 0 1 = 1 → Completes (.mcFillRequest q l pr) s fun w =>
        ((w.mc q).pc (pcOf line)).reads = p.reads ++ [{ line := line, prio := prio e, waits := true }] ∧
        w.mem = s.mem ∧ w.net = s.net ∧ w.homes = s.homes) ∧
      (s.cpField (mcAddr q 0) 0 1 = 0 → v.pois = false → AwaitsFill s q line e →
        Completes (.mcFillRequest q l pr) s (FillsReadOnce q line e v.data s))) ∧
    ((¬ ∃ e, ready e) → exec (.mcFillRequest q l pr) s = .next s)

/-- A write enters its pseudo-channel's write queue, or takes the place of a queued write to the same line
that no read depends on; from the high mark on the queue drains. A full queue makes it wait (R202, R204, R205,
R211). -/
def Sys2Proof.Claims.WriteRequestResults : Prop :=
  ∀ (q : Quad) (l : BitVec 42) (x : Line) (classed : Bool) (s : State),
    let line := l.toNat
    let p := (s.mc q).pc (pcOf line)
    let ready := (s.mc q).holds line = false ∧ quadOf (64 * line) = q ∧ (∀ w ∈ p.writes, w.scrub = false) ∧
      p.writes.length < 64
    (ready → (∀ w ∈ p.writes, w.line ≠ line) → Completes (.mcWriteRequest q l x false classed) s fun w =>
      ∃ y, OnlyPc q (pcOf line) s w y ∧ y.writes = p.writes ++ [{ line := line, data := x }] ∧
        y.reads = p.reads ∧ y.issued = p.issued ∧ y.rows = p.rows ∧ y.selfRef = false ∧
        Interrupted p y s.tb ∧
        y.drain = (p.drain || decide (s.cpField (mcAddr q 0) 8 6 ≤ p.writes.length + 1))) ∧
    (∀ v, ready → v ∈ p.writes → v.line = line → v.dep = false →
      Completes (.mcWriteRequest q l x false classed) s fun w =>
        ((w.mc q).pc (pcOf line)).writes = p.writes.map (fun y =>
          if y.line = line ∧ y.dep = false then { y with data := x, pois := false } else y) ∧
        w.cpField (mcAddr q 0x0C4) 0 32 = satCount 32 (s.cpField (mcAddr q 0x0C4) 0 32) 1 ∧
        w.mem = s.mem) ∧
    (64 ≤ p.writes.length → exec (.mcWriteRequest q l x false classed) s = .next s)

/-- A read that younger ones passed 32 times goes first, then the highest priority, an open row before a
closed one, the older before the younger; its row opens, and the reads it passes count it. A write goes
to the stack during a drain or when no read waits, or when a read depends on it, and not before older reads of its
line; the stack's bytes of its line and no others change (R203 to R205, R208). -/
def Sys2Proof.Claims.IssueResults : Prop :=
  (∀ (q : Quad) (pc : Fin 16) (s : State) i r,
    let p := (s.mc q).pc pc.val
    Serving s q → p.drain = false → p.selfRef = false → p.nextRead = some i → p.reads[i]? = some r →
    r.waits = false ∧
    (r.passed < 32 → (∀ x ∈ p.reads, x.waits = false → x.passed < 32 ∧ x.prio.toNat ≤ r.prio.toNat ∧
      (x.prio = r.prio → p.rowHit x.line = true → p.rowHit r.line = true)) ∧
      (∀ x ∈ p.reads.take i, x.waits = false → x.prio = r.prio →
        p.rowHit x.line = false ∧ p.rowHit r.line = true)) ∧
    Completes (.mcReadIssue q pc) s fun w =>
      let y := (w.mc q).pc pc.val
      y.issued = p.issued ++ [r] ∧ y.rowHit r.line = true ∧
      y.reads = (p.reads.take i).map (fun x => { x with passed := x.passed + 1 }) ++ p.reads.drop (i + 1) ∧
      y.writes = p.writes ∧ w.mem = s.mem ∧ w.cores = s.cores ∧ w.net = s.net) ∧
  (∀ (q : Quad) (pc : Fin 16) (s : State) i v,
    let p := (s.mc q).pc pc.val
    Serving s q → p.nextWrite = some i → p.writes[i]? = some v →
    (v.dep = true ∨ p.drain = true ∨ (p.reads = [] ∧ ∀ x ∈ p.issued, x.scrub = true)) ∧
    (∀ x ∈ p.reads ++ p.issued, x.line = v.line → x.waits = true) ∧
    Completes (.mcWriteIssue q pc) s fun w =>
      ((w.mc q).pc pc.val).writes = p.writes.eraseIdx i ∧
      (∀ j < 64, w.byte (64 * v.line + j) =
        if v.pois then 0 else v.data.extractLsb' (8 * j) 8) ∧
      (∀ a, a < 64 * v.line ∨ 64 * v.line + 64 ≤ a → w.byte a = s.byte a) ∧
      SMap.get false w.poisLine v.line = v.pois ∧ w.cores = s.cores ∧ w.net = s.net)

/-- A line that comes back for a RdOnce without uncorrectable beats is sent as it stands in the stack, and each
corrected beat is counted; a line that reads as poisoned is answered HomePoison; an uncorrectable beat poisons a line
that is not critical and is counted (R216 to R220). -/
def Sys2Proof.Claims.ReadDataResults : Prop :=
  ∀ (q : Quad) (pc : Fin 16) (s : State) r rest (err : BeatErrs),
    ((s.mc q).pc pc.val).issued = r :: rest → r.scrub = false →
    (∀ e, AwaitsFill s q r.line e → err.ue = [] → SMap.get false s.poisLine r.line = false →
      Completes (.mcReadData q pc err) s fun w =>
        (err.single = [] → FillsReadOnce q r.line e (s.memLine r.line) s w) ∧
        (∃ a ∈ w.net, a.kind = .readData ∧ a.dest = e.msg.src ∧ a.txid = e.msg.txid ∧
          a.data = some (s.memLine r.line)) ∧ w.mem = s.mem ∧
        ((w.mc q).pc pc.val).issued = rest ∧
        w.cpField (mcAddr q 0x0A4) 0 32 = satCount 32 (s.cpField (mcAddr q 0x0A4) 0 32) err.single.length) ∧
    (∀ e, AwaitsFill s q r.line e → err.ue = [] → SMap.get false s.poisLine r.line = true →
      Completes (.mcReadData q pc err) s fun w =>
        (∃ a ∈ w.net, a.kind = .homePoison ∧ a.dest = e.msg.src ∧ a.txid = e.msg.txid) ∧ w.mem = s.mem ∧
        w.cpField (mcAddr q 0x0A8) 16 16 = satCount 16 (s.cpField (mcAddr q 0x0A8) 16 16) 1) ∧
    (err.ue ≠ [] → (∀ x ∈ err.ue, x.2 ≠ 0xF0) → SMap.get false s.poisLine r.line = false →
      s.regionAttr (mcStation q) 32 (64 * r.line) 7 = false →
      (∀ v ∈ ((s.mc q).pc (pcOf r.line)).writes, v.line ≠ r.line) →
      (∀ e ∈ (s.home q).table, e.phase = .fill → e.msg.line ≠ r.line) →
      Completes (.mcReadData q pc err) s fun w =>
        SMap.get false w.poisLine r.line = true ∧ (∀ j < 64, w.byte (64 * r.line + j) = 0) ∧
        (∀ a, a < 64 * r.line ∨ 64 * r.line + 64 ≤ a → w.byte a = s.byte a) ∧
        w.cpField (mcAddr q 0x0A8) 0 16 = satCount 16 (s.cpField (mcAddr q 0x0A8) 0 16) 1)

/-- A refresh that falls due on an idle pseudo-channel is issued behind those still owed, else it is postponed up to
the limit, else forced and counted; a pseudo-channel that may sleep and has nothing to do enters self-refresh; HOT
follows the temperature with its hysteresis (R210 to R212). -/
def Sys2Proof.Claims.RefreshResults : Prop :=
  (∀ (q : Quad) (pc : Fin 16) (s : State),
    let p := (s.mc q).pc pc.val
    let limit := s.cpField (mcAddr q 0x00C) 0 4
    (Serving s q → p.selfRef = false → ¬ Waiting p → Completes (.refreshDue q pc) s fun w =>
      ∃ y, OnlyPc q pc.val s w y ∧ y.debt = owedAt p s.tb + 1 ∧ y.makeUp.isSome = true ∧ y.rows = [] ∧
        y.issued = p.issued) ∧
    (Serving s q → p.selfRef = false → Waiting p → p.debt < limit → Completes (.refreshDue q pc) s fun w =>
      OnlyPc q pc.val s w { p with debt := p.debt + 1 }) ∧
    (Serving s q → p.selfRef = false → Waiting p → limit ≤ p.debt → Completes (.refreshDue q pc) s fun w =>
      ((w.mc q).pc pc.val) = { p with rows := [] } ∧ w.mem = s.mem ∧
      w.cpField (mcAddr q 0x010) 0 16 = satCount 16 (s.cpField (mcAddr q 0x010) 0 16) 1) ∧
    (Serving s q → Idle p → s.cpField (mcAddr q 0x00C) 4 1 = 1 →
      Completes (.selfRefreshEntry q pc) s fun w =>
        OnlyPc q pc.val s w { p with selfRef := true, debt := 0, makeUp := none, rows := [] })) ∧
  (∀ (q : Quad) (temp : BitVec 8) (s : State), s.segJoined q = false →
    let hot := s.cpField (mcAddr q 4) 0 1
    Completes (.tempReadout q temp) s fun w =>
      w.cpField (mcAddr q 4) 8 8 = temp.toNat ∧
      w.cpField (mcAddr q 4) 0 1 = (if 85 < temp.toInt then 1 else if temp.toInt ≤ 80 then 0 else hot) ∧
      w.mcs = s.mcs ∧ w.mem = s.mem)

/-- A scrubber owes at most 64 reads, wakes a sleeping pseudo-channel at 64, forfeits them under shed, and
issues one when nothing waits, for the next line of its lap; a lap that passes its limit is OVERDUE (R222
to R224, Table PWR-2). -/
def Sys2Proof.Claims.ScrubResults : Prop :=
  (∀ (q : Quad) (pc : Fin 16) (s : State),
    let p := (s.mc q).pc pc.val
    let on := s.cpField (mcAddr q 0x080) 0 1 = 1
    (s.quiet = true → Completes (.scrubEarn q pc) s fun w => OnlyPc q pc.val s w { p with owed := 0 }) ∧
    (s.quiet = false → on → Serving s q → Completes (.scrubEarn q pc) s fun w =>
      let n := Nat.min 64 (p.owed + 1)
      let y := (w.mc q).pc pc.val
      OnlyPc q pc.val s w y ∧ y.owed = n ∧ y.selfRef = (p.selfRef && decide (n ≠ 64))) ∧
    (s.quiet = false → on → Serving s q → Idle p → 0 < p.owed → p.drain = false → p.selfRef = false →
      p.making s.tb = false → p.pos + 1 < pcLines → Completes (.scrubRead q pc) s fun w =>
        OnlyPc q pc.val s w { p with
          issued := [{ line := scrubLine q pc.val p.pos, prio := 0, scrub := true }],
          owed := p.owed - 1, pos := p.pos + 1 })) ∧
  (∀ (q : Quad) (t : Word) (s : State),
    let hours := s.cpField (mcAddr q 0x080) 16 8
    let lap := ((s.mc q).lapTime (s.advance t).tb).toNat
    (hours * 3600000000000 < lap → Completes (.lapOverdue q t) s fun w =>
      w.cpField (mcAddr q 0x084) 31 1 = 1 ∧ w.mem = s.mem ∧ w.cores = s.cores) ∧
    (lap ≤ hours * 3600000000000 → Completes (.lapOverdue q t) s fun w =>
      w.cp = s.cp ∧ w.mem = s.mem ∧ w.tb.toNat = Nat.max s.tb.toNat t.toNat))

/-- Commanded self-refresh and Keep are entered with every queue empty and every dirty line written to the
stack; leaving Keep reads zeros in the banks that were not retained and sets KEEP_FILL until the fill is
done; a bank is released as its own fill ends (R213 to R215, Table HBM-4). -/
def Sys2Proof.Claims.SelfRefreshAndKeep : Prop :=
  ∀ (q : Quad) (s : State),
    (Serving s q → (∀ p, Idle ((s.mc q).pc p)) → (s.home q).wout = [] →
      (∀ e ∈ (s.home q).msc.ways, ∀ l, e.2 = some l → l.dirty = false) →
      Completes (.stackSelfRefresh q) s (fun w => (w.mc q).cmdSr = true ∧ (w.mc q).keep = false ∧
        w.mem = s.mem ∧ w.poisLine = s.poisLine ∧ w.net = s.net ∧ w.cores = s.cores) ∧
      Completes (.keepEntry q) s fun w => (w.mc q).keep = true ∧ (w.mc q).cmdSr = false ∧
        (∀ p < 16, SMap.get 0 (w.mc q).keepMask p =
          (s.cpGet (mcAddr q (0x040 + 4 * p))).extractLsb' 0 16) ∧ w.mem = s.mem) ∧
    ((s.mc q).cmdSr = true → Completes (.stackSelfRefreshExit q) s fun w =>
      (w.mc q).cmdSr = false ∧ w.mem = s.mem ∧ w.cores = s.cores) ∧
    ((s.mc q).keep = true → Completes (.keepExit q) s fun w =>
      let kept := fun a => targetOf a ≠ .hbm ∨ quadOf a ≠ q ∨
        (SMap.get 0 (s.mc q).keepMask (pcOf (a / 64))).getLsbD (bankOfLine (a / 64)) = true
      (w.mc q).keep = false ∧ (∀ e ∈ w.mem, kept e.1 ∧ e ∈ s.mem) ∧ (∀ e ∈ s.mem, kept e.1 → e ∈ w.mem) ∧
      ((∃ p < 16, SMap.get 0 (s.mc q).keepMask p ≠ 0xFFFF) → w.cpField (mcAddr q 4) 1 1 = 1)) ∧
    (∀ b : Fin 16, Completes (.keepFillDone ⟨q, some b⟩) s fun w => w.mem = s.mem ∧ w.cores = s.cores ∧
      w.cp = s.cp ∧ ∀ p < 16, ∀ i < 16, (SMap.get 0 (w.mc q).filling p).getLsbD i =
        (decide (b.val < i) && (SMap.get 0 (s.mc q).filling p).getLsbD i)) ∧
    (s.cpField (mcAddr q 4) 1 1 = 1 → Completes (.keepFillDone ⟨q, none⟩) s fun w =>
      w.cpField (mcAddr q 4) 1 1 = 0 ∧ (w.mc q).filling = [] ∧ w.mem = s.mem ∧ w.cores = s.cores)

/-! Lasers (R261 to R264), links (R265 to R280) and the sideband (R281 to R284). -/

namespace Sys2Proof.Claims

/-- The 36 flag bits of a laser in its two registers: WEAK from 0x10, FAIL from 0x18 (Table PRISM-9). -/
def laserFlag (s : State) (off l i : Nat) : Bool :=
  if i < 32 then (s.cpGet (lsrAddr (off + 0x10 * l))).getLsbD i
  else (s.cpGet (lsrAddr (off + 4 + 0x10 * l))).getLsbD (i - 32)

/-- The coupler has changed from laser `l`, which is off and retired, to the other one (R263). -/
def Switched (l : Nat) (s w : State) : Prop :=
  w.feeding = 1 - l ∧ w.laserOn l = false ∧ w.cpField (lsrAddr 0) 3 1 = 0 ∧
  w.cpField (lsrAddr 0) 8 8 = satCount 8 (s.cpField (lsrAddr 0) 8 8) 1 ∧ w.domState (58 + l) = 1

/-- Memory and every core are as before. -/
def Apart (s w : State) : Prop := w.mem = s.mem ∧ w.cores = s.cores

end Sys2Proof.Claims

/-- A sample sets WEAK for each line more than 1.5 dB and FAIL for each more than 4.0 dB below nominal, and
clears neither; a FAIL of the feeding laser switches to another that is lit and has no FAIL but of lines that have
failed here too; a sample of a laser that is not lit changes no register. SWITCH starts a cross-fade to a lit laser,
at whose end the old one is off and retired (R261 to R263). -/
def Sys2Proof.Claims.LaserResults : Prop :=
  (∀ (t : Word) (l : Fin 2) (powers : List Nat) (s : State), powers.length = 36 →
    let q := s.advance t
    (q.laserLit l.val = true → Completes (.laserSample t l powers) s fun w => Apart s w ∧
      (∀ i p, powers[i]? = some p →
        laserFlag w 0x10 l.val i = (laserFlag s 0x10 l.val i || decide (15 < p)) ∧
        laserFlag w 0x18 l.val i = (laserFlag s 0x18 l.val i || decide (40 < p))) ∧
      (l.val = s.feeding → (∃ p ∈ powers, 40 < p) → q.laserLit (1 - l.val) = true →
        (∀ i < 36, laserFlag s 0x18 (1 - l.val) i = true → laserFlag w 0x18 l.val i = true) →
        Switched l.val s w) ∧
      (l.val ≠ s.feeding ∨ (∀ p ∈ powers, p ≤ 40) → w.feeding = s.feeding)) ∧
    (q.laserLit l.val = false → exec (.laserSample t l powers) s = .next q)) ∧
  (∀ s : State,
    (s.laserLit (1 - s.feeding) = true → s.cpField (lsrAddr 0) 3 1 = 0 →
      Completes .laserSwitchGo s fun w =>
        w.cpField (lsrAddr 0) 3 1 = 1 ∧ w.feeding = s.feeding ∧ Apart s w) ∧
    (s.laserLit (1 - s.feeding) = false → exec .laserSwitchGo s = .next s) ∧
    (s.cpField (lsrAddr 0) 3 1 = 1 → Completes .xfadeEnd s fun w => Switched s.feeding s w ∧ Apart s w) ∧
    (s.cpField (lsrAddr 0) 3 1 = 0 → exec .xfadeEnd s = .next s) ∧
    Completes .standbyNominal s fun w => w.laserWait = false ∧ w.cp = s.cp ∧ Apart s w)

namespace Sys2Proof.Claims

/-- Port `p` may read a frame `bits` of its peer, sent as `fr`, in the state `u` once it has been sent. -/
def ReadsFrame (s : State) (p : PortId) (f : EdlFrame) (fr : TxFrame) (bits : BitVec 512) (u : State) : Prop :=
  s.portUp p = true ∧ s.portUp (peerOf p) = true ∧ (∀ x ∈ (s.port p).sigs, x.lsw < 3) ∧
  s.nextFrame (peerOf p) f.checks = some (fr, u) ∧ bits = u.readFrame p fr f.hits

end Sys2Proof.Claims

/-- The next frame of a transmitter is the first to be replayed, counted in PRISM_RETRY, else a new one, of the next
sequence number, which enters the retry buffer; with 256 frames there none is sent. A frame that does not pass its
CRC under the expected number delivers nothing: the port asks for it again once and waits. A good frame ends the
wait, is acknowledged at every thirty-second, and a message whose unit it holds goes on, its credits back. A NAK is
repeated; an acknowledgement frees the frames it covers, a NAK replays the rest, and asking again for a frame that
was replayed sixteen times loses the link (R265, R267, R269 to R272, R278). -/
def Sys2Proof.Claims.FrameResults : Prop :=
  (∀ (t : PortId) (checks : List FlitCheck) (s : State),
    let x := s.port t
    (∀ q rest f, x.replay = q :: rest → x.buf.find? (fun g => g.seq = q) = some f → ∃ u,
      s.nextFrame t checks = some ({ f with replays := f.replays + 1 }, u) ∧ (u.port t).replay = rest ∧
      u.cpField (portAddr t 0x110) 0 24 = satCount 24 (s.cpField (portAddr t 0x110) 0 24) 1 ∧ Apart s u) ∧
    (x.replay = [] → x.buf.length < 256 → ∃ fr u, s.nextFrame t checks = some (fr, u) ∧
      fr.seq = x.txSeq ∧ fr.body.length = 60 ∧ fr.replays = 0 ∧ (u.port t).buf = x.buf ++ [fr] ∧
      (u.port t).txSeq = (x.txSeq + 1) % 4096 ∧ Apart s u) ∧
    (x.replay = [] → 256 ≤ x.buf.length → s.nextFrame t checks = none ∧
      ∀ f, f.checks = checks → exec (.frameReceive (peerOf t) f) s = .next s)) ∧
  (∀ (p : PortId) (f : EdlFrame) (s u : State) fr bits, ReadsFrame s p f fr bits u →
    let x := u.port p
    let good := bits.extractLsb' 480 32 = crc32 (natToBytes 2 x.rxSeq ++ (natToBytes 64 bits.toNat).take 60)
    (¬ good → u.cpField (portAddr p 0) 3 1 = 0 → Completes (.frameReceive p f) s fun w =>
      (w.port p).out = x.out ++ [{ nak := true }] ∧ (w.port p).rxSeq = x.rxSeq ∧
      (w.port p).kept.map (·.bits) = some bits ∧
      w.cpField (portAddr p 0) 3 1 = 1 ∧ w.net = u.net ∧ Apart s w) ∧
    (¬ good → u.cpField (portAddr p 0) 3 1 = 1 → Completes (.frameReceive p f) s fun w =>
      (w.port p).out = x.out ∧ (w.port p).rxSeq = x.rxSeq ∧ w.cp = u.cp ∧ w.net = u.net ∧ Apart s w) ∧
    (good → Completes (.frameReceive p f) s fun w =>
      (w.port p).rxSeq = (x.rxSeq + 1) % 4096 ∧ w.cpField (portAddr p 0) 3 1 = 0 ∧
      (w.port p).kept = none ∧ (w.port p).since = (if x.since = 31 then 0 else x.since + 1) ∧ Apart s w) ∧
    (good → u.cpField (portAddr p 0) 3 1 = 0 → x.since = 31 → Completes (.frameReceive p f) s fun w =>
      ∃ rest, (w.port p).out = x.out ++ [({} : LinkCtl)] ++ rest) ∧
    (∀ m rest k, good → u.cpField (portAddr p 0) 3 1 = 0 → x.rx = [] → x.since < 31 →
      (u.port (peerOf p)).flight = m :: rest → m.flits = 1 →
      (natToBytes 64 bits.toNat).take 60 = msgUnit m ++ List.replicate k 0 →
      u.classRefused p (msgOfUnit m (msgUnit m)) = false →
      Completes (.frameReceive p f) s fun w =>
        w.net = u.net.replace m { msgOfUnit m (msgUnit m) with cross := m.cross.drop 1 } ∧
        (w.port (peerOf p)).flight = rest ∧
        (w.port p).out = x.out ++ [{ cred := (List.range 6).map fun c => if c = m.vc then 1 else 0 }])) ∧
  (∀ (p : PortId) (s : State),
    (s.portUp p = true → s.cpField (portAddr p 0) 3 1 = 1 → Completes (.nakRepeat p) s fun w =>
      (w.port p).out = (s.port p).out ++ [{ nak := true }] ∧ (w.port p).rxSeq = (s.port p).rxSeq ∧
      w.cp = s.cp ∧ Apart s w) ∧
    (s.portUp p = false ∨ s.cpField (portAddr p 0) 3 1 = 0 → exec (.nakRepeat p) s = .next s)) ∧
  (∀ (p : PortId) (c : LinkCtl) (s : State),
    let x := s.port p
    let rest := afterAck c.ackSeq.toNat x.buf
    let live := s.portUp p = true ∧ c ∈ x.ctl
    (live → c.nak = false ∨ x.stuck = true ∨ (∀ g ∈ rest, g.replays < 16) →
      Completes (.linkctl p c) s fun w =>
        let y := w.port p
        y.buf = rest ∧ y.ctl = x.ctl.erase c ∧ w.cp = s.cp ∧ Apart s w ∧
        (c.nak = true → y.replay = rest.map (·.seq)) ∧
        (∀ i < 6, y.credits[i]? = some (Nat.min 4 ((x.credits[i]?).getD 0 + (c.cred[i]?).getD 0)))) ∧
    (live → c.nak = true → x.stuck = false → (∃ g ∈ rest, 16 ≤ g.replays) →
      Completes (.linkctl p c) s fun w => w.portState p = 5 ∧ w.portState (peerOf p) = 5 ∧ Apart s w) ∧
    (¬ live → exec (.linkctl p c) s = .next s))

/-- An errored bit charged to a wavelength advances BITS in the running window; the bit that fills it advances
EVENTS, sets FLAG and starts a new window (R272, R273, R422). -/
def Sys2Proof.Claims.ErrorWindowResults : Prop :=
  ∀ (p : PortId) (v : Nat) (s : State), v < 36 →
    let a := portAddr p (0x180 + 4 * v)
    let length := s.cpField (portAddr p 0x100) 16 16 * 1000000
    let limit := s.cpField (portAddr p 0x100) 0 16
    let old := s.cpField a 0 16
    let runs := old ≠ 0 ∧ (s.tb - SMap.get 0 (s.port p).berStart v).toNat < length
    let n := (if runs then old else 0) + 1
    let w := s.charge p v
    Apart s w ∧
    (n < limit → w.cpField a 0 16 = n ∧ w.cpField a 16 8 = s.cpField a 16 8 ∧ w.reports = s.reports) ∧
    (limit ≤ n → w.cpField a 0 16 = 0 ∧ w.cpField a 16 8 = satCount 8 (s.cpField a 16 8) 1 ∧
      w.cpField a 24 1 = 1)

namespace Sys2Proof.Claims

/-- Nothing waits behind the change or the swap that ends at a die's link. -/
def NoneWaits (s : State) (d : Die) : Prop :=
  (s.port ⟨d, true⟩).want = none ∧ (s.port ⟨d, true⟩).waitSwap = [] ∧ (s.port ⟨d, false⟩).waitSwap = []

end Sys2Proof.Claims

/-- A lane that is down is moved to a spare: the receiver asks, the transmitter drives the spare too, the receiver
locks, the transmitter moves the lane and marks the change, and from SWITCH on the receiver reads the spare, the old
wavelength failed; behind a swap or a change it waits, and without a spare the link is lost. A direction goes narrow
by darkening lanes 16 to 31, and wide by lighting them (R274 to R280, Table PRISM-5). -/
def Sys2Proof.Claims.LaneResults : Prop :=
  (∀ (p : PortId) (lane : Fin 32) (cause : BitVec 3) (s : State), s.portUp p = true →
    let x := s.port p
    let free := x.swap = none ∧ x.change = none ∧ lane.val < s.lanes p
    (∀ v, free → s.pickSpare p = some v →
      s.isSpare p v = true ∧ Completes (.laneDown p lane cause) s fun w =>
        (w.port p).swap = some { lane := lane.val, spare := v, down := true } ∧
        (w.port p).out = x.out ++ [{ lsw := 1, lane := BitVec.ofNat 5 lane.val, wl := BitVec.ofNat 6 v }] ∧
        w.cpField (portAddr p 0) 4 1 = 1 ∧ w.portState p = s.portState p ∧ Apart s w) ∧
    (x.swap.isSome = true ∨ x.change.isSome = true → Completes (.laneDown p lane cause) s fun w =>
      (w.port p).swap = x.swap ∧ (w.port p).waitSwap = x.waitSwap ++ [(lane.val, true)] ∧ w.cp = s.cp ∧
      Apart s w) ∧
    (free → s.pickSpare p = none → x.stuck = false →
      Completes (.laneDown p lane cause) s fun w => w.portState p = 5 ∧ Apart s w) ∧
    (x.swap = none → x.change = none → s.lanes p ≤ lane.val →
      exec (.laneDown p lane cause) s = .next s)) ∧
  (∀ (p : PortId) (a : LaneWord) (s : State) c, s.portUp p = true →
    (s.port p).signal 1 a = some c → Completes (.lswDupReq p a) s fun w =>
      (w.port p).dup = some { lane := a.lane.val, wl := a.wl.val } ∧
      (w.port p).sigs = (s.port p).sigs.erase c ∧ w.cp = s.cp ∧ Apart s w) ∧
  (∀ (p : PortId) (v : Fin 36) (s : State) x d, (s.port p).swap = some x → x.spare = v.val →
    x.locked = false → (s.port (peerOf p)).dup = some d → d.lane = x.lane → d.wl = v.val →
    Completes (.laneLock p v) s fun w =>
      (w.port p).swap = some { x with locked := true } ∧
      (w.port p).out = (s.port p).out ++ [{ lsw := 2, lane := BitVec.ofNat 5 x.lane }] ∧ w.cp = s.cp ∧
      Apart s w) ∧
  (∀ (p : PortId) (a : LaneWord) (s : State) c d, s.portUp p = true → (s.port p).signal 2 a = some c →
    (s.port p).dup = some d → d.lane = a.lane.val → d.moved = false → d.wl < 36 →
    Completes (.lswReady p a) s fun w =>
      w.txMap p d.lane = d.wl ∧ (∀ j < 32, j ≠ d.lane → w.txMap p j = s.txMap p j) ∧
      (w.port p).dup = some { d with wl := s.txMap p d.lane, moved := true } ∧
      (w.port p).out = (s.port p).out ++ [{ lsw := 3, lane := BitVec.ofNat 5 d.lane }] ∧ Apart s w) ∧
  (∀ (p : PortId) (a : LaneWord) (s : State) c x, s.portUp p = true → (s.port p).signal 3 a = some c →
    (s.port p).swap = some x → x.lane = a.lane.val → x.locked = true → (s.port p).change = none →
    NoneWaits s p.die → x.spare < 36 → s.rxMap p x.lane < 36 → x.spare ≠ s.rxMap p x.lane →
    (∀ j < 32, j ≠ x.lane → s.rxMap p j ≠ s.rxMap p x.lane) →
    Completes (.lswSwitch p a) s fun w =>
      w.rxMap p x.lane = x.spare ∧ w.wlState p x.spare = 1 ∧ w.wlState p (s.rxMap p x.lane) = 2 ∧
      (w.port p).swap = none ∧ w.cpField (portAddr p 0) 4 1 = 0 ∧ Apart s w) ∧
  (∀ (p : PortId) (a : LaneWord) (s : State) c, s.portUp p = true → (s.port p).signal 4 a = some c →
    (s.port p).narrow = false → s.negWide p = true → NoneWaits s p.die →
    Completes (.lswNarrow p a) s fun w =>
      w.portState p = 4 ∧ (w.port p).narrow = true ∧ w.lanes p = 16 ∧
      (∀ i < 16, s.rxMap p (16 + i) < 36 → s.wlState p (s.rxMap p (16 + i)) = 1 →
        w.wlState p (s.rxMap p (16 + i)) = 3) ∧ Apart s w) ∧
  (∀ (p : PortId) (a : LaneWord) (s : State) c, s.portUp p = true → (s.port p).signal 5 a = some c →
    (s.port p).change = some false → NoneWaits s p.die → (∀ i < 16, s.rxMap p (16 + i) < 36) →
    Completes (.lswWide p a) s fun w =>
      w.portState p = 3 ∧ (w.port p).narrow = false ∧
      (∀ i < 16, w.wlState p (s.rxMap p (16 + i)) = 1) ∧ Apart s w) ∧
  (∀ (p : PortId) (s : State),
    let waits := (s.port p).buf ≠ [] ∧ (s.port p).stuck = false ∧ s.portUp p = true
    (waits → Completes (.linkLost p) s fun w =>
      w.portState p = 5 ∧ w.portState (peerOf p) = 5 ∧ Apart s w) ∧
    (¬ waits → exec (.linkLost p) s = .next s)) ∧
  (∀ (d : Die) (b : Bool) (s : State), Completes (.narrow d b) s fun w =>
    w.cpField (portAddr ⟨d, true⟩ 0x00C) 0 1 = (if b then 1 else 0) ∧ Apart s w ∧
    (b = true → s.negWide ⟨d, true⟩ = true → s.linkIdle d = true → (s.port ⟨d, true⟩).narrow = false →
      (w.port ⟨d, true⟩).change = some true ∧ (w.port ⟨d, false⟩).change = some true ∧
      (w.port ⟨d, true⟩).out = (s.port ⟨d, true⟩).out ++ [{ lsw := 4 }]))

namespace Sys2Proof.Claims

/-- Both ports of a die's link read state `x` (Table PRISM-10). -/
def LinkReads (d : Die) (x : Nat) (w : State) : Prop :=
  w.portState ⟨d, true⟩ = x ∧ w.portState ⟨d, false⟩ = x

/-- The good wavelengths of a training count: those without an error, whose line is lit. -/
def goodWl (s : State) (counts : List Nat) (w : Nat) : Bool := counts[w]? == some 0 && !s.lineDark w

/-- The sideband words on their way, without the first of a die's, of one direction and type. -/
def without (s : State) (d : Die) (toHub : Bool) (ty : BitVec 4) : List SbWord :=
  s.sideband.eraseP fun x => x.die == d && x.toHub == toHub && x.ty == ty

/-- Odd parity over TYPE and DATA (R281). -/
def oddParity (ty : BitVec 4) (v : Word32) : Bool :=
  ((List.range 36).filter fun i => (v ++ ty).getLsbD i).length % 2 = 0

end Sys2Proof.Claims

/-- Bring-up of a site that is not fenced reads INIT at both ports; HELLO brings the capability words of
both, each word is kept, the die keeps and echoes RESULT, and the hub starts training when the echo agrees.
No HELLO, or another echo, fences the site and sends REFUSE. A receiver that finds enough wavelengths maps
its lanes to the lowest of them and reports them, a transmitter with both reports sends LINK_READY, at
which a trained port reads UP or NARROW. A word of bad parity is ignored; one without reply is sent again (R281 to
R284). -/
def Sys2Proof.Claims.BringUpResults : Prop :=
  (∀ (d : Die) (s : State),
    (s.fencedSite d = false → Completes (.siteBringUp d) s fun w => LinkReads d 1 w ∧
      w.port ⟨d, true⟩ = {} ∧ w.port ⟨d, false⟩ = {} ∧ Apart s w) ∧
    (s.fencedSite d = true → exec (.siteBringUp d) s = .next s) ∧
    (s.portState ⟨d, true⟩ = 1 → (s.port ⟨d, true⟩).hello = false →
      Completes (.helloTimeout d) s fun w => LinkReads d 6 w ∧ w.fencedSite d = true ∧
        (∃ r, w.sideband = s.sideband ++ [⟨d, false, 0xE, r⟩]) ∧ Apart s w) ∧
    (∀ v, SMap.get none s.sbLast (2 * d.val) = some v → v ∉ s.sideband →
      s.portState ⟨d, true⟩ = 1 ∨ s.portState ⟨d, true⟩ = 2 →
      SMap.get none s.sbLast (2 * d.val + 1) = none →
      Completes (.sidebandResend d) s fun w =>
        w.sideband = s.sideband ++ [v] ∧ w.ports = s.ports ∧ w.cp = s.cp ∧ Apart s w)) ∧
  (∀ f ∈ ([(.cap0, 2), (.cap1, 3), (.cap2, 4), (.cap3, 5), (.result, 6), (.trainLo, 7), (.trainHi, 8)] :
      List ((Die → Bool → SbBits → Instr) × BitVec 4)), ∀ (d : Die) (toHub par : Bool) (v : Word32) (s : State), par ≠ oddParity f.2 v →
    exec (f.1 d toHub ⟨v, par⟩) s = .next { s with sideband := without s d toHub f.2 }) ∧
  (∀ (d : Die) (v : Word32) (par : Bool) (s : State), par ≠ oddParity 1 v →
    exec (.hello d ⟨v, par⟩) s = .next { s with sideband := without s d true 1 }) ∧
  (∀ (d : Die) (v : Word32) (s : State), s.portState ⟨d, true⟩ = 1 →
    (s.port ⟨d, true⟩).hello = false → Completes (.hello d ⟨v, oddParity 1 v⟩) s fun w =>
      (w.port ⟨d, true⟩).hello = true ∧
      w.sideband = without s d true 1 ++
        ((List.range 4).map fun i => ⟨d, false, BitVec.ofNat 4 (2 + i),
          s.cpGet (portAddr ⟨d, true⟩ (0x010 + 4 * i))⟩) ++
        ((List.range 4).map fun i => ⟨d, true, BitVec.ofNat 4 (2 + i),
          s.cpGet (portAddr ⟨d, false⟩ (0x010 + 4 * i))⟩) ∧ Apart s w) ∧
  (∀ f ∈ ([(.cap0, 0), (.cap1, 1), (.cap2, 2), (.cap3, 3)] :
      List ((Die → Bool → SbBits → Instr) × Nat)),
    ∀ (d : Die) (toHub : Bool) (v : Word32) (s : State),
    let p : PortId := ⟨d, toHub⟩
    let i := f.1 d toHub ⟨v, oddParity (BitVec.ofNat 4 (2 + f.2)) v⟩
    let peer := fun (k : Nat) => if k = f.2 then v else s.cpGet (portAddr p (0x020 + 4 * k))
    let mine := fun (k : Nat) => s.cpGet (portAddr p (0x010 + 4 * k))
    let last := (s.port p).caps ||| 2 ^ f.2 = 15 ∧ (s.port p).caps ≠ 15
    s.portState p = 1 →
    Completes i s (fun w => w.cpGet (portAddr p (0x020 + 4 * f.2)) = v ∧
      (w.port p).caps = (s.port p).caps ||| 2 ^ f.2 ∧ Apart s w) ∧
    (¬ last → Completes i s fun w => w.sideband = without s d toHub (BitVec.ofNat 4 (2 + f.2))) ∧
    (last → toHub = true → ∀ r, failedRule d.val (peer 0) (peer 1) (peer 2) (mine 1) (mine 2) = some r →
      Completes i s fun w => LinkReads d 6 w ∧ w.fencedSite d = true) ∧
    (last → toHub = true → failedRule d.val (peer 0) (peer 1) (peer 2) (mine 1) (mine 2) = none →
      Completes i s fun w => w.portState p = 1 ∧
        ∃ neg, w.cpGet (portAddr p 4) = neg ∧ (⟨d, false, 6, neg⟩ : SbWord) ∈ w.sideband)) ∧
  (∀ (d : Die) (v : Word32) (s : State),
    (s.portState ⟨d, false⟩ = 1 → Completes (.result d false ⟨v, oddParity 6 v⟩) s fun w =>
      w.cpGet (portAddr ⟨d, false⟩ 4) = v ∧
      w.sideband = without s d false 6 ++ [⟨d, true, 6, v⟩] ∧ Apart s w) ∧
    (s.portState ⟨d, true⟩ = 1 → s.cpGet (portAddr ⟨d, true⟩ 4) = v →
      Completes (.result d true ⟨v, oddParity 6 v⟩) s fun w => LinkReads d 2 w ∧ Apart s w) ∧
    (s.portState ⟨d, true⟩ = 1 → s.cpGet (portAddr ⟨d, true⟩ 4) ≠ v →
      Completes (.result d true ⟨v, oddParity 6 v⟩) s fun w =>
        LinkReads d 6 w ∧ w.fencedSite d = true ∧ Apart s w) ∧
    Completes (.refuse d ⟨v, oddParity 0xE v⟩) s fun w => w.portState ⟨d, false⟩ = 6 ∧
      w.sideband = without s d false 0xE ∧ Apart s w) ∧
  (∀ (d : Die) (toHub : Bool) (counts : List Nat) (s : State),
    let p : PortId := ⟨d, toHub⟩
    let g := (List.range 36).filter (goodWl s counts)
    s.portState p = 2 →
    (s.negLanes p ≤ g.length → Completes (.trainingEnd d toHub counts) s fun w =>
      (∀ j v, (g.take (s.negLanes p))[j]? = some v → w.rxMap p j = v ∧ w.wlState p v = 1) ∧
      (∀ v < 36, goodWl s counts v = false → w.wlState p v = 2) ∧
      (∃ lo hi, w.sideband = s.sideband ++ [⟨d, !toHub, 7, lo⟩, ⟨d, !toHub, 8, hi⟩] ∧
        ∀ v < 36, goodWl s counts v = if v < 32 then lo.getLsbD v else hi.getLsbD (v - 32)) ∧ Apart s w) ∧
    (g.length < s.negLanes p → Completes (.trainingEnd d toHub counts) s fun w =>
      LinkReads d 6 w ∧ w.fencedSite d = true ∧ Apart s w)) ∧
  (∀ (d : Die) (toHub : Bool) (lo hi : Word32) (s : State),
    let p : PortId := ⟨d, toHub⟩
    let good := (List.range 36).filter fun v => if v < 32 then lo.getLsbD v else hi.getLsbD (v - 32)
    let mapped := fun (w : State) => (∀ j v, (good.take (s.negLanes p))[j]? = some v →
      (w.cpGet (portAddr p (0x280 + 4 * j))).toNat = v) ∧
      (⟨d, !toHub, 9, 0⟩ : SbWord) ∈ w.sideband ∧ Apart s w
    s.portState p = 2 → s.negLanes p ≤ good.length →
    ((s.port p).peerHi = some hi → Completes (.trainLo d toHub ⟨lo, oddParity 7 lo⟩) s mapped) ∧
    ((s.port p).peerLo = some lo → Completes (.trainHi d toHub ⟨hi, oddParity 8 hi⟩) s mapped)) ∧
  (∀ (d : Die) (toHub : Bool) (s : State),
    let p : PortId := ⟨d, toHub⟩
    s.portState p = 2 → (s.port p).good.isSome = true →
    Completes (.linkReady d ⟨toHub, oddParity 9 0⟩) s fun w =>
      w.portState p = (if s.negLanes p = 32 then 3 else 4) ∧
      w.sideband = without s d toHub 9 ∧ Apart s w)

/-! The control plane: registers and rings (R8, R250 to R254), commits (R406 to R410), reports (R418 to
R421), snapshots (R496, R497). -/

namespace Sys2Proof.Claims

/-- A frame whose CRC is right and whose operation is `op`. -/
def Good (f : Frame) (op : BitVec 4) : Prop := f.crc = frameCrc f ∧ f.op = op

/-- The frame of the ring is replaced with `g`, sealed with its CRC. -/
def FrameOut (f g : Frame) (s w : State) : Prop :=
  w.shep.frames = s.shep.frames.erase f ++ [sealFrame g]

/-- The frame leaves the ring and nothing takes its place. -/
def FrameGone (f : Frame) (s w : State) : Prop := w.shep.frames = s.shep.frames.erase f

/-- The copies of a READ or WRITE frame, one on each ring that is whole (R252, R253). -/
def Copies (s : State) (f : Frame) : List Frame :=
  (if s.shep.ringA then [sealFrame { f with ringA := true }] else []) ++
  (if s.shep.ringB then [sealFrame { f with ringA := false }] else [])

/-- SEQ of the last frame that a station acted on. -/
def lastSeq (s : State) (a : Word32) : Nat := s.cpField (cpAddr (cpStation a.toNat) 0xFF014) 0 16

/-- No register of a Loupe's window, whose writes act beside the fields (Table OBS-6). -/
def PlainStation (a : Word32) : Prop := ∀ k, unitKind (cpStation a.toNat) ≠ some (.loupe k)

end Sys2Proof.Claims

/-- A register write over the control plane sets each RW field to its bits of the value and leaves each RWL
field; no register, or a station whose domain is off, changes nothing; a station that a commit has armed
takes the write later. A read of a counter's LO word, PEAK, MIN_MV and the PMU have commands of their own; a
router's window gives RTR_BW its counts (R8, R29, R408, R494). -/
def Sys2Proof.Claims.RegisterWriteResults : Prop :=
  (∀ (a v : Word32) (s : State) d, regDesc a.toNat = some d → s.isOff (cpStation a.toNat) = false →
    PlainStation a → s.cpHeld (cpStation a.toNat) = false →
    Completes (.registerWrite a v) s fun w => ∀ f ∈ d,
      (f.ty = .rw → w.cpField a.toNat f.lo f.w = field v f.lo f.w) ∧
      (f.ty = .rwl → w.cpField a.toNat f.lo f.w = s.cpField a.toNat f.lo f.w)) ∧
  (∀ (a v : Word32) (s : State),
    regDesc a.toNat = none ∨ s.isOff (cpStation a.toNat) = true ∨ s.cpHeld (cpStation a.toNat) = true →
    exec (.registerWrite a v) s = .next s) ∧
  (∀ (a : Word32) (s : State) k i, unitKind (cpStation a.toNat) = some (.router k) → i < 12 →
    a.toNat % 2 ^ 20 = 0x100 + 8 * i → s.cpStatus a.toNat = 0 →
    Completes (.counterLoRead a) s fun w =>
      SMap.get 0 w.latchHi (a.toNat + 4) =
        ((SMap.get 0 s.rtrBytes (12 * k + i)).extractLsb' 32 16).zeroExtend 32 ∧
      w.rtrBytes = s.rtrBytes ∧ w.cp = s.cp ∧ Apart s w) ∧
  (∀ (a : Word32) (s : State) (q : Fin 4), cpStation a.toNat = homeStation q → a.toNat % 2 ^ 20 = 8 →
    s.isOff (cpStation a.toNat) = false →
    Completes (.peakClear a) s fun w =>
      (w.home q).peak = (s.home q).inUse ∧ (w.home q).table = (s.home q).table ∧ Apart s w) ∧
  (∀ (a : Word32) (s : State) (d : Die), cpStation a.toNat = dcsStation d → a.toNat % 2 ^ 20 = 0x120 →
    s.isOff (cpStation a.toNat) = false →
    Completes (.peakClear a) s fun w =>
      (w.die d).evPeak.toNat = (s.die d).evUse % 2 ^ 6 ∧ (w.die d).evb = (s.die d).evb ∧ Apart s w) ∧
  (∀ (rail : Fin 8) (s : State), rail.val < 6 → s.isOff shepStation = false →
    Completes (.railMinClear rail) s fun w =>
      w.cpField (pwrAddr (0x10 + 4 * rail.val)) 12 12 = 0xFFF ∧
      w.cpField (pwrAddr (0x10 + 4 * rail.val)) 0 12 = s.cpField (pwrAddr (0x10 + 4 * rail.val)) 0 12 ∧
      Apart s w) ∧
  (∀ (lc : LC) (s : State), Completes (.pmuClear lc) s fun w =>
    (∀ i < 8, SMap.get 0 (w.core lc).pmu.cnt i = 0) ∧ (w.core lc).g = (s.core lc).g ∧
    OnlyCore lc s w) ∧
  (∀ (st : Station) (t : Word) (s : State) k, unitKind st = some (.router k) →
    t.toNat % (((s.advance t).cpField (cpAddr st 0x0F0) 0 10 + 1) * 1000) = 0 →
    Completes (.rtrBwWindowEnd st t) s fun w => ∀ i < 12,
      w.cpGet (cpAddr st (0x200 + 4 * i)) = BitVec.ofNat 32 (SMap.get 0 s.rtrWin (12 * k + i)) ∧
      SMap.get 0 w.rtrWin (12 * k + i) = 0)

/-- A READ or WRITE frame with a bad CRC is dropped. A good one without a station is answered STATUS 1.
The station's next one is acted on, its SEQ becomes the last, and the frame comes back as its reply with the
status; a second copy goes on with DUP and changes nothing; one ahead of its turn waits. At an armed station
a WRITE of a register with RWL fields loads the shadow only. A reply leaves the ring and ends its station's
resends (R250 to R253, R408). -/
def Sys2Proof.Claims.RingResults : Prop :=
  (∀ f' ∈ ([(.ringRead, 1), (.ringWrite, 2)] : List ((Frame → Instr) × BitVec 4)),
    ∀ (f : Frame) (s : State),
    (¬ Good f f'.2 → Completes (f'.1 f) s fun w => FrameGone f s w ∧ w.cp = s.cp ∧ Apart s w) ∧
    (Good f f'.2 → (f'.2 = 2 → s.armDue (cpStation f.addr.toNat) = false) →
      (unitKind (cpStation f.addr.toNat) = none → Completes (f'.1 f) s fun w =>
        FrameOut f { f with op := f.op + 2, status := 1, data := 0 } s w ∧ w.cp = s.cp ∧ Apart s w) ∧
      ((unitKind (cpStation f.addr.toNat)).isSome = true →
        (s.seqIs f = .old → f.dup = false → Completes (f'.1 f) s fun w =>
          FrameOut f { f with dup := true } s w ∧ w.cp = s.cp ∧ Apart s w) ∧
        (s.seqIs f = .old → f.dup = true → exec (f'.1 f) s = .next s) ∧
        (s.seqIs f = .ahead → exec (f'.1 f) s = .next s)))) ∧
  (∀ (f : Frame) (s : State), Good f 1 → (unitKind (cpStation f.addr.toNat)).isSome = true →
    s.seqIs f = .next →
    (s.cpStatus f.addr.toNat = 0 → Completes (.ringRead f) s fun w =>
      FrameOut f { f with op := 3, status := 0, data := ((s.takeFrame f).cpRead f.addr.toNat).1 } s w ∧
      lastSeq w f.addr = f.seq.toNat ∧ Apart s w) ∧
    (s.cpStatus f.addr.toNat ≠ 0 → Completes (.ringRead f) s fun w =>
      FrameOut f { f with op := 3, status := s.cpStatus f.addr.toNat, data := 0 } s w ∧
      lastSeq w f.addr = f.seq.toNat ∧ Apart s w)) ∧
  (∀ (f : Frame) (s : State), Good f 2 → (unitKind (cpStation f.addr.toNat)).isSome = true →
    s.seqIs f = .next → s.armDue (cpStation f.addr.toNat) = false →
    (s.cpStatus f.addr.toNat ≠ 0 → Completes (.ringWrite f) s fun w =>
      FrameOut f { f with op := 4, status := s.cpStatus f.addr.toNat } s w ∧
      lastSeq w f.addr = f.seq.toNat ∧ Apart s w) ∧
    (∀ d c, regDesc f.addr.toNat = some d → d.has (· == .rwl) = true → s.cpStatus f.addr.toNat = 0 →
      s.shep.commit = some c → s.armedFor (cpStation f.addr.toNat) = true →
      Completes (.ringWrite f) s fun w =>
        FrameOut f { f with op := 4, status := 0 } s w ∧ lastSeq w f.addr = f.seq.toNat ∧
        (∃ c', w.shep.commit = some c' ∧ SMap.get none c'.shadows f.addr.toNat = some f.data) ∧
        (∀ a, a ≠ cpAddr (cpStation f.addr.toNat) 0xFF014 → w.cpGet a = s.cpGet a) ∧ Apart s w) ∧
    (∀ d, regDesc f.addr.toNat = some d → s.cpStatus f.addr.toNat = 0 → s.shep.commit = none →
      PlainStation f.addr → f.addr.toNat % 2 ^ 20 ≠ 0xFF014 → (∀ x ∈ d, x.ty = .rw) →
      Completes (.ringWrite f) s fun w =>
        lastSeq w f.addr = f.seq.toNat ∧
        ∀ x ∈ d, w.cpField f.addr.toNat x.lo x.w = field f.data x.lo x.w)) ∧
  (∀ f' ∈ ([(.readReply, 3), (.writeReply, 4)] : List ((Frame → Instr) × BitVec 4)),
    ∀ (f : Frame) (s : State),
    (¬ Good f f'.2 ∨ f.dup = true → Completes (f'.1 f) s fun w =>
      FrameGone f s w ∧ w.shep.resends = s.shep.resends ∧ w.cp = s.cp ∧ Apart s w) ∧
    (Good f f'.2 → f.dup = false → s.shep.cpJobs = [] → s.shep.commit = none →
      Completes (f'.1 f) s fun w => FrameGone f s w ∧
        SMap.get 0 w.shep.resends (cpStation f.addr.toNat).toNat = 0 ∧ w.cp = s.cp ∧ Apart s w)) ∧
  (∀ (f : Frame) (s : State), Good f 0xA →
    (s.reports = [] → Completes (.reportSlot f) s fun w => FrameGone f s w ∧ w.reports = [] ∧ Apart s w) ∧
    (∀ r t, s.reports = r :: t → Completes (.reportSlot f) s fun w =>
      FrameOut f { r with ringA := f.ringA } s w ∧ w.reports = t ∧ Apart s w))

namespace Sys2Proof.Claims

/-- The COMMIT frame of a phase for the running commit (R408). -/
def CommitFrame (s : State) (ph : Nat) : Frame :=
  sealFrame { op := 8, data := BitVec.ofNat 32 ((s.shep.cnum + 1).toNat % 2 ^ 30 + ph * 2 ^ 30) }

/-- `f` is a good COMMIT frame of a phase of the running commit `c`. -/
def IsCommitFrame (s : State) (f : Frame) (ph : Nat) (c : Commit) : Prop :=
  Good f 8 ∧ f.data.toNat = (s.shep.cnum + 1).toNat % 2 ^ 30 + ph * 2 ^ 30 ∧ s.shep.commit = some c

/-- The running commit of `w`. -/
def CommitIs (w : State) (P : Commit → Prop) : Prop := ∃ c, w.shep.commit = some c ∧ P c

end Sys2Proof.Claims

/-- The commit sequence: after the drains, and 100 us after the last rise of a role epoch that the set raises, ARM
goes to the stations named; ARM arms them and the entries go out as WRITE frames, one copy on each ring that is
whole, under each station's next SEQ; after the last reply FIRE goes out, unless a cut runs; FIRE begins the hold;
each armed station makes its shadows live at its quiescent boundary and acknowledges, in a swap once no access to
the core's window is on its way; the last acknowledgement sends RESUME, which ends the hold, frees what was held,
and raises CNUM; DISARM gives the sequence up. An acknowledgement missing 20 us after FIRE stops the domain (R31,
R249, R252, R407 to R410, Table CMD-11). -/
def Obligations.CommitSequenceResults : Prop :=
  (∀ (s u : State) c, s.shep.commit = some c → c.phase = .drain → s.restarting = false →
    (∀ lc k, c.what = .swap lc k → (s.core lc).drained = true ∧ Halt.debug ∉ (s.core lc).halts) →
    (c.entries.all s.epochRests = false → exec .commitDrainEnd s = .next s) ∧
    (c.entries.all s.epochRests = true →
      s.drainAll c.entries = some u → u.shep.commit = some c → u.setStations c ≠ [] →
      Completes .commitDrainEnd s fun w =>
        w.shep.frames = u.shep.frames ++ [CommitFrame u 0] ∧
        CommitIs w fun c' => c'.phase = .arm ∧ c'.stations = u.setStations c ∧ c'.entries = c.entries ∧
          c'.todo = c.entries.filter fun e => !u.isOff (cpStation e.1))) ∧
  (∀ (f : Frame) (s : State) c, IsCommitFrame s f 0 c → c.phase = .arm → c.left = [] →
    (c.todo = [] → s.mir.cutFrom = none → Completes (.commitArm f) s fun w =>
      w.shep.frames = s.shep.frames.erase f ++ [CommitFrame s 1] ∧
      CommitIs w fun c' => c'.armed = c.stations ∧ c'.phase = .fire) ∧
    (∀ e, c.todo = [e] → s.outstanding (cpStation e.1) < 64 → Completes (.commitArm f) s fun w =>
      let seq := s.nextSeq (cpStation e.1)
      w.shep.frames = s.shep.frames.erase f ++
        Copies s { op := 2, seq := seq, addr := BitVec.ofNat 32 e.1, data := e.2 } ∧
      SMap.get 0 w.shep.seqs (cpStation e.1).toNat = seq ∧
      CommitIs w fun c' => c'.armed = c.stations ∧ c'.todo = [] ∧ c'.left = [(seq, e.1)] ∧
        c'.phase = .arm)) ∧
  (∀ (f : Frame) (s : State) c, Good f 4 → f.dup = false → s.shep.commit = some c → c.phase = .arm →
    c.todo = [] → s.shep.cpJobs = [] →
    let left := c.left.erase (f.seq, f.addr.toNat)
    (left ≠ [] → Completes (.writeReply f) s fun w => FrameGone f s w ∧
      CommitIs w fun c' => c'.left = left ∧ c'.phase = .arm) ∧
    (left = [] → (∀ st ∈ c.stations, st ∈ c.armed) → s.mir.cutFrom = none →
      Completes (.writeReply f) s fun w =>
        w.shep.frames = s.shep.frames.erase f ++ [CommitFrame s 1] ∧
        CommitIs w fun c' => c'.phase = .fire ∧ c'.fireAt = s.tb)) ∧
  (∀ (f : Frame) (s : State) c, IsCommitFrame s f 1 c → c.phase = .fire →
    Completes (.commitFire f) s fun w => w.shep.hold = true ∧ Apart s w ∧
      CommitIs w fun c' => c'.phase = .hold ∧ c'.holdAt = s.tb) ∧
  (∀ (st : Station) (s : State) c, s.shep.commit = some c → s.windowBusy c.what = true →
    exec (.quiescentSwitch st) s = .next s) ∧
  (∀ (st : Station) (s u : State) c, s.shep.commit = some c → c.phase = .hold → st ∈ c.armed →
    st ∉ c.switched → s.switchStation c st = some u →
    (∀ c1, u.shep.commit = some c1 → Completes (.quiescentSwitch st) s fun w =>
      w.shep.commit = some { c1 with switched := c1.switched ++ [st] } ∧ w.cp = u.cp ∧
      w.reports = u.reports ++ [{ op := 0xB, data := BitVec.ofNat 32 <|
        (0xC * 2 ^ 28 + st.toNat * 2 ^ 16 + (u.shep.cnum + 1).toNat % 2 ^ 16) }]) ∧
    (∀ q a v d, unitKind st = some (.mc q) → cpStation a = st → c.shadows = [(a, some v)] →
      regDesc a = some d → Completes (.quiescentSwitch st) s fun w =>
        ∀ x ∈ d, x.ty = .rwl → w.cpField a x.lo x.w = field v x.lo x.w)) ∧
  (∀ (f : Frame) (s : State) c st, Good f 0xB → s.shepUp = true → s.shep.commit = some c →
    c.phase = .hold → f.data = BitVec.ofNat 32
      (0xC * 2 ^ 28 + st * 2 ^ 16 + (s.shep.cnum + 1).toNat % 2 ^ 16) → st < 2 ^ 12 →
    BitVec.ofNat 12 st ∈ c.stations → BitVec.ofNat 12 st ∉ c.acked →
    Completes (.report f) s fun w =>
      (CommitIs w fun c' => c'.acked = c.acked ++ [BitVec.ofNat 12 st] ∧ c'.phase = .hold) ∧
      ((∀ x ∈ c.stations, x ∈ c.acked ∨ x = BitVec.ofNat 12 st) →
        w.shep.frames = s.shep.frames.erase f ++ [CommitFrame s 2]) ∧ Apart s w) ∧
  (∀ (f : Frame) (s : State) c, IsCommitFrame s f 2 c → c.phase = .hold →
    (∀ st ∈ c.stations, st ∈ c.acked) → c.req = none → c.what = .other → s.shep.due = [] →
    Completes (.commitResume f) s fun w =>
      w.shep.hold = false ∧ w.shep.held = [] ∧ w.shep.commit = none ∧ w.shep.cnum = s.shep.cnum + 1 ∧
      w.shep.dirtyStore = true ∧ (∀ m ∈ s.shep.held, routed m ∈ w.net)) ∧
  (∀ (f : Frame) (s : State) c, IsCommitFrame s f 3 c → c.phase = .disarm → c.req = none →
    c.what = .other → s.shep.due = [] →
    Completes (.commitDisarm f) s fun w =>
      w.shep.commit = none ∧ w.shep.cnum = s.shep.cnum ∧ w.cp = s.cp ∧ Apart s w) ∧
  (∀ (s : State) c, s.shep.commit = some c → c.phase = .fire ∨ c.phase = .hold →
    (∃ st ∈ c.stations, st ∉ c.acked) → c.fireAt.toNat + 20000 ≤ s.tb.toNat → s.shep.cds = false →
    Completes .commitAckTimeout s fun w =>
      w.shep.cds = true ∧ w.shep.cause = 5 ∧ w.restarting = true ∧ w.shep.commit = none)

namespace Sys2Proof.Claims

/-- The Shepherd station reports a class: where its slot is free, SOURCE and LOC stand in it and a REPORT waits;
else MERGED counts (R418, R419). -/
def ReportedAt (s w : State) (cls : Nat) (source : Station) (loc : Nat) : Prop :=
  let a := cpAddr shepStation (0xF8000 + 32 * cls)
  if s.cpField a 31 1 = 1 then
    w.cpField a 16 8 = satAdd 0xFF (s.cpField a 16 8) 1 ∧ w.reports = s.reports
  else w.cpField a 31 1 = 1 ∧ w.cpField a 0 12 = source.toNat ∧ (w.cpGet64 (a + 4)).toNat = loc ∧
    ∃ r : Frame, w.reports = s.reports ++ [r] ∧ r.op = 0xB ∧ field r.data 28 4 = 1 ∧
      field r.data 16 12 = shepStation.toNat ∧ field r.data 8 8 = cls

end Sys2Proof.Claims

/-- A report of class MSC_CE or TLB_LOCK_SKIP without a window threshold enters the log as a record of SEV
0 under the next INDEX, and clears the slot's FULL. A frame that one ring alone brings back leaves the other ring broken, its copies there lost
and RING_BREAK reported with the last station reached; one that neither brings back is sent again on each whole
ring, three times, and then the station is reported unreachable. An audit that passes counts and sets PASS; one in
which an invariant fails clears PASS and stops the domain with cause 5 (R253, R418 to R421, R437). -/
def Sys2Proof.Claims.ReportResults : Prop :=
  (∀ (f : Frame) (s : State) (st : Station) cls, cls = 0x03 ∨ cls = 0x48 → Good f 0xB → s.shepUp = true →
    field f.data 28 4 = 1 → f.data.extractLsb' 16 12 = st → field f.data 8 8 = cls →
    let a := cpAddr st (0xF8000 + 32 * cls)
    let slot := s.cpGet a
    bit slot 31 = true → (s.wcCfg cls).1 = 0 → s.shep.log.length < 4096 →
    recordFor s.shep.log cls (field slot 0 12) (s.cpGet64 (a + 24)) = none →
    Completes (.report f) s fun w =>
      bit (w.cpGet a) 31 = false ∧ w.cpGet (fcAddr 0x004) = s.cpGet (fcAddr 0x004) + 1 ∧
      (∃ r, w.shep.log = s.shep.log ++ [r] ∧ r.cls.toNat = cls ∧ r.source.toNat = field slot 0 12 ∧
        r.count = 1 + field slot 16 8 ∧ r.sev = 0 ∧ r.acked = false ∧ r.tFirst = s.cpGet64 (a + 24) ∧
        r.tLast = r.tFirst ∧ r.loc = s.cpGet64 (a + 4) ∧ r.index = s.cpGet (fcAddr 0x004) ∧
        r.cnum = s.shep.cnum) ∧ Apart s w) ∧
  (∀ (f : Frame) (last : Station) (s : State), s.shepUp = true →
    let st := (cpStation f.addr.toNat).toNat
    let own := fun (g : Frame) => g.seq = f.seq ∧ g.addr = f.addr ∧ (g.op = f.op ∨ g.op = f.op + 2)
    (∀ a b : Bool, a ≠ b → s.shep.ringA = true → s.shep.ringB = true →
      Completes (.cpFrameTimeout ⟨f, last⟩ a b) s fun w =>
        w.shep.ringA = a ∧ w.shep.ringB = b ∧
        w.shep.frames = s.shep.frames.filter (fun g => decide ¬ (g.ringA = !a ∧ own g)) ∧
        ReportedAt s w 0x28 shepStation last.toNat ∧ Apart s w) ∧
    (∀ a b : Bool, a ≠ b → s.shep.ringA = false ∨ s.shep.ringB = false →
      exec (.cpFrameTimeout ⟨f, last⟩ a b) s = .next s) ∧
    exec (.cpFrameTimeout ⟨f, last⟩ true true) s = .next s ∧
    (SMap.get 0 s.shep.resends st < 3 → Completes (.cpFrameTimeout ⟨f, last⟩ false false) s fun w =>
      w.shep.frames = s.shep.frames.filter (fun g => decide ¬ own g) ++ Copies s f ∧
      SMap.get 0 w.shep.resends st = SMap.get 0 s.shep.resends st + 1 ∧ Apart s w) ∧
    (SMap.get 0 s.shep.resends st = 3 → s.shep.cpJobs = [] → s.shep.commit = none →
      Completes (.cpFrameTimeout ⟨f, last⟩ false false) s fun w =>
        w.shep.frames = s.shep.frames.filter (fun g => decide ¬ own g) ∧
        SMap.get 0 w.shep.resends st = 0 ∧ ReportedAt s w 0x29 (cpStation f.addr.toNat) 0 ∧ Apart s w)) ∧
  (∀ (t : Word) (s : State), let q := s.advance t
    t.toNat % 250000 = 0 → q.shepUp = true → q.imageOnly = false → q.shep.cds = false →
    q.restarting = false →
    (q.auditOk = true → Completes (.auditLatch ⟨t, none⟩) s fun w =>
      w.cpField (fcAddr 0x010) 0 30 = (s.cpField (fcAddr 0x010) 0 30 + 1) % 2 ^ 30 ∧
      w.cpField (fcAddr 0x010) 30 1 = 1 ∧ w.shep.cds = false ∧
      w.shep.auditDone = true ∧ Apart s w) ∧
    (∀ fail, (fail.isSome = true ∨ q.auditOk = false) → Completes (.auditLatch ⟨t, fail⟩) s fun w =>
      w.cpField (fcAddr 0x010) 30 1 = 0 ∧ w.shep.cds = true ∧ w.shep.cause = 5))

/-- A SNAPSHOT frame announces an instant. At the instant every station latches its group under the next
snapshot number, or counts a drop where an earlier latch waits; under Shed-1, P1 or deeper nothing is taken
or counted. A latched record whose turn it is is gathered (R496, R497). -/
def Sys2Proof.Claims.SnapshotResults : Prop :=
  (∀ (f : Frame) (s : State),
    (Good f 9 → Completes (.snapshot f) s fun w =>
      w.snap.next = some f.data ∧ w.snap.num = s.snap.num ∧ FrameGone f s w ∧ Apart s w) ∧
    (¬ Good f 9 → Completes (.snapshot f) s fun w =>
      w.snap = s.snap ∧ FrameGone f s w ∧ Apart s w)) ∧
  (∀ (t : Word) (s : State), let q := s.advance t
    s.snap.next = some (BitVec.ofNat 32 (t.toNat / 1000)) → t.toNat % 1000 = 0 →
    (q.calm = true → Completes (.snapshotInstant t) s fun w =>
      w.snap = { s.snap with next := none } ∧ Apart s w) ∧
    (q.calm = false → s.snap.latch = [] → Completes (.snapshotInstant t) s fun w =>
      w.snap.next = none ∧ w.snap.num = s.snap.num + 1 ∧ w.snap.recs = s.snap.recs ∧
      (∀ g ∈ q.groupStations, ∃ r ∈ w.snap.latch, r.group = g.group ∧ r.st = g.st ∧
        r.num = s.snap.num + 1 ∧ r.time = t ∧ r.cnum = s.shep.cnum) ∧ Apart s w)) ∧
  (∀ (group : BitVec 8) (st : Station) (s : State) n r, s.snap.turn = some (group.toNat, n) →
    (s.snap.latch.find? fun x => x.group = group.toNat && x.num = n && x.st == st) = some r →
    Completes (.snapshotGather group st) s fun w =>
      w.snap.latch = s.snap.latch.erase r ∧ w.snap.recs = keep16 (s.snap.recs ++ [r]) group.toNat ∧
      w.snap.num = s.snap.num ∧ Apart s w)

/-! Reflection (R426 to R431), the stop and the restart (R438 to R443, R483 to R485), the Mirror pair (R446 to
R460), power (R463 to R477). -/

namespace Sys2Proof.Claims

/-- A window has reached a limit (R427): 0 the end of its slot, 1 its beats, 2 its log, 3 its sectors. -/
def AtLimit (s : State) (c : Core) (w : Win) (why : Nat) : Prop :=
  match why with
  | 0 => (w.slotNo + 1) * 64000 ≤ s.tb.toNat
  | 1 => 80000 ≤ c.beats.next - w.beats0
  | 2 => 512 * 1024 / 16 ≤ (w.recs.map (·.len)).sum
  | _ => 512 ≤ w.sectors.length

/-- The replay of a reserve and the closed window of its target. -/
def Replays (s : State) (k : Nat) (r : Replay) (x : Closed) : Prop :=
  (s.shep.replays.find? fun y => y.res = k) = some r ∧ SMap.get none s.shep.closed r.target.val = some x

/-- The replay is done with, and its window dropped. -/
def ReplayOver (r : Replay) (s w : State) : Prop :=
  w.shep.replays = s.shep.replays.erase r ∧ SMap.get none w.shep.closed r.target.val = none

end Sys2Proof.Claims

/-- A window at a limit closes at an instruction boundary and waits for its replay with its count and a CLOSE
record; below its limit it stays open. A replay that agrees ends; one that does not is confirmed by another
reserve of the quadrant, or without one charged to the target, and after the confirmation it ends. At a slot's start a core whose turn it is opens
a window at its checkpoint (R426 to R431, Table SAFE-7). -/
def Sys2Proof.Claims.ReflectionResults : Prop :=
  (∀ (lc : LC) (why : BitVec 2) (s : State) v, (s.core lc).win = some v →
    (AtLimit s (s.core lc) v why.toNat → (s.core lc).access = none → Completes (.windowEnd lc why) s fun w =>
      (w.core lc).win = none ∧ (w.core lc).g = (s.core lc).g ∧ (w.core lc).pc = (s.core lc).pc ∧
      w.mem = s.mem ∧
      ∃ x, SMap.get none w.shep.closed lc.val = some x ∧ x.slotNo = v.slotNo ∧ x.icount = v.icount ∧
        x.sectors = v.sectors ∧ ∃ c, x.recs = v.recs ++ [c]) ∧
    (¬ AtLimit s (s.core lc) v why.toNat → exec (.windowEnd lc why) s = .next s)) ∧
  (∀ (die : Die) (slot : Slot) (sig : Word) (icount : Word32) (s : State) r x,
    let k := die.val * 20 + slot.val
    let agrees := sig = x.sig ∧ icount.toNat = x.icount % 2 ^ 32
    let miss := cpAddr shepStation 0x71044
    Replays s k r x →
    (agrees → r.first = none → Completes (.replayClose die slot sig icount) s fun w =>
      ReplayOver r s w ∧ w.cp = s.cp ∧ w.mem = s.mem ∧ w.reports = s.reports) ∧
    (¬ agrees → r.first = none → ∀ k2, s.otherFor r.target k = some k2 →
      Completes (.replayClose die slot sig icount) s fun w =>
        w.cpField miss 0 16 = satCount 16 (s.cpField miss 0 16) 1 ∧ w.reports = s.reports ∧
        w.shep.replays = s.shep.replays.erase r ++ [{ target := r.target, res := k2
                                                      due := s.tb.toNat / 64000 + 1
                                                      first := some (k, sig, icount.toNat) }] ∧
        w.shep.closed = s.shep.closed ∧ Apart s w) ∧
    (¬ agrees → r.first = none → s.otherFor r.target k = none →
      Completes (.replayClose die slot sig icount) s fun w => ReplayOver r s w ∧
        w.cpField miss 0 16 = satCount 16 (s.cpField miss 0 16) 1 ∧
        ReportedAt s w 0x12 (BitVec.ofNat 12 (placeStation ((s.placeOf r.target).getD 0))) r.target.val ∧
        w.mem = s.mem) ∧
    (r.first.isSome = true → Completes (.replayClose die slot sig icount) s fun w =>
      ReplayOver r s w ∧ w.mem = s.mem)) ∧
  (∀ (t : Word) (s : State) res lc, let q := s.advance t
    t.toNat % 64000 = 0 → q.shepUp = true → q.imageOnly = false → q.restarting = false →
    q.cpField (pwrAddr 0) 0 3 < 2 → sameLists q.shep.lists q.buildLists = true →
    q.shep.lists = [(res, [lc])] → q.shep.first = [] → q.shep.closed = [] → q.shep.replays = [] →
    (∀ l, (q.core l).win = none) → (q.core lc).run = .started → (q.core lc).halts = [] →
    (q.partOf lc).isSome = true →
    Completes (.reflSlot t) s fun w =>
      (∃ v, (w.core lc).win = some v ∧ v.slotNo = t.toNat / 64000 ∧ v.icount = 0 ∧ v.sectors = []) ∧
      (w.core lc).g = (s.core lc).g ∧ (w.core lc).pc = (s.core lc).pc ∧ w.mem = s.mem)

/-- SAFE_N low stops the domain with cause 5, once; SAFE_N high only ends the pin's hold. HEARTBEAT toggles at
each multiple of 100 us while the last audit passed and nothing stops; else it stops. A pair that disagrees
stops the domain. Core BIST takes a slot off the list of those tested; the restart follows once SAFE_N is
high and no BIST is owed: the stop ends and every home accepts again (R433, R438, R439, R441 to R443). -/
def Sys2Proof.Claims.StopResults : Prop :=
  (∀ s : State, s.shep.safeIn = false → s.shepUp = true → s.shep.cds = false → s.inTransit = false →
    s.powerState < 2 → Completes (.safeN false) s fun w =>
      w.shep.safeIn = true ∧ w.shep.cds = true ∧ w.shep.cause = 5 ∧ w.restarting = true) ∧
  (∀ s : State, Completes (.safeN true) s fun w =>
    w.shep.safeIn = false ∧ w.shep.cds = s.shep.cds ∧ w.restarting = s.restarting ∧ w.cp = s.cp ∧
    Apart s w) ∧
  (∀ (t : Word) (s : State), let q := s.advance t
    t.toNat % 100000 = 0 →
    (q.hbMay = true → Completes (.heartbeatToggle t) s fun w =>
      w.shep.heartbeat = !s.shep.heartbeat ∧ w.shep.hbStop = false ∧ w.cp = s.cp ∧ Apart s w) ∧
    (q.hbMay = false → Completes (.heartbeatToggle t) s fun w =>
      w.shep.heartbeat = s.shep.heartbeat ∧ w.shep.hbStop = true ∧ w.cp = s.cp ∧ Apart s w)) ∧
  (∀ s : State, s.shepUp = true → s.imageOnly = false → s.shep.cds = false →
    Completes .lockstepMismatch s fun w =>
      w.shep.cds = true ∧ w.shep.cause = 5 ∧ w.restarting = true ∧ w.shep.hbStop = true) ∧
  (∀ (die : Die) (slot : Slot) (s : State), let k := die.val * 20 + slot.val
    (s.restarting = true → k ∈ s.shep.needBist → Completes (.coreBistDone die slot true) s fun w =>
      w.shep.needBist = s.shep.needBist.filter (· ≠ k) ∧ w.place = s.place ∧ Apart s w) ∧
    (s.restarting = false → k ∈ s.shep.bist → Completes (.coreBistDone die slot true) s fun w =>
      w.shep.bist = s.shep.bist.filter (· ≠ k) ∧ w.place = s.place ∧ Apart s w)) ∧
  (∀ s : State, s.restarting = true → s.shepUp = true → s.shep.safeIn = false → s.shep.needBist = [] →
    s.shep.owed = [] → s.shep.resets = [] → s.shep.due = [] → Completes .domainRestart s fun w =>
      w.restarting = false ∧ w.shep.cds = false ∧ w.shep.commit = none ∧ w.devReady = true ∧
      ∀ q, w.accepts q = true) ∧
  (∀ s : State, s.restarting = false ∨ s.shep.safeIn = true ∨ s.shep.needBist ≠ [] →
    exec .domainRestart s = .next s)

/-- POR_N, and the release of a supply reset, boot the device from the active slot if its image verifies, else
from the other; with neither only image commands are served. A rail that crosses its Reset threshold resets the
device, which keeps reference time, the committed store and the fault log, and records its cause; the loss of VAUX
takes time and log, and the flash copy stands for the store; PCIE_STATUS shows PERST_N throughout (R7, R331, R469,
R477, R480 to R485). -/
def Obligations.BootAndResetResults : Prop :=
  (∀ (b : BootInput) (s : State),
    let a := SMap.get 0 s.shep.active 0
    let boots := fun (i : Instr) (u : State) =>
      (∀ slot, bootSlot (u.bootOf b 0) a = some slot → Completes i s fun w =>
        w.shep.booted = some slot ∧ w.shep.inReset = false ∧ w.devReady = true ∧ ∀ q, w.accepts q = true) ∧
      (bootSlot (u.bootOf b 0) a = none → Completes i s fun w =>
        w.imageOnly = true ∧ w.shep.inReset = false ∧ w.devReady = true)
    (s.shep.vauxOff = false → boots (.porN b) (if s.shep.inReset then s else s.coldReset 1 0)) ∧
    (s.shep.inReset = true → s.shep.vauxOff = false → s.cpField (pwrAddr 0x04) 0 2 = 2 →
      boots (.supplyResetRelease b) s)) ∧
  (∀ (b : BootInput) (s : State), SMap.get [] s.shep.images 0 = [] → SMap.get [] s.shep.images 2 = [] →
    s.bootOf b 0 = { okA := b.okA, okB := b.okB }) ∧
  (∀ b : BootInput, ∀ a : Nat, a < 2 →
    (bootSlot b a = none ↔ b.okA = false ∧ b.okB = false) ∧
    (b.okA = true → bootSlot b 0 = some 0) ∧ (b.okB = true → bootSlot b 1 = some 1)) ∧
  (∀ (rail : Fin 8) (mv : Nat) (s : State),
    let lim := ([800, 800, 850, 1100, 1620, 1620][rail.val]?).getD 0
    (lim ≤ mv → exec (.supplyReset rail mv) s = .next s) ∧
    (rail.val < 5 → mv < lim → s.shep.vauxOff = false → s.watched rail.val = true →
    Completes (.supplyReset rail mv) s fun w =>
      w.shep.inReset = true ∧ w.cpField (pwrAddr 0x04) 0 2 = 2 ∧ w.cpField (pwrAddr 0x04) 2 3 = rail.val ∧
      w.cpField (pwrAddr (0x10 + 4 * rail.val)) 0 12 = mv % 2 ^ 12 ∧ w.cores = [] ∧ w.mem = [] ∧ w.net = [] ∧
      w.tb = s.tb ∧ w.shep.store = s.shep.store ∧ w.shep.log = s.shep.log ∧ w.place = s.place ∧
      w.perst = s.perst)) ∧
  (∀ (mv : Nat) (s : State) (i : Instr), i = .vauxLoss ∨ (i = .supplyReset 5 mv ∧ mv < 1620 ∧ s.shep.vauxOff = false) →
    Completes i s fun w =>
      w.shep.vauxOff = true ∧ w.perst = s.perst ∧ w.tb = 0 ∧ w.shep.log = [] ∧ w.shep.store = s.shep.flash ∧ w.cores = [] ∧
      w.mem = [] ∧ w.stValid = false ∧ w.place = s.shep.flashPlace) ∧
  (∀ s : State, s.shep.vauxOff = true → Completes .vauxPowerUp s fun w =>
    w.shep.vauxOff = false ∧ w.tb = 0 ∧ w.scntBase = 0 ∧ w.cp = s.cp ∧ Apart s w) ∧
  (∀ s : State, s.shepUp = true → Completes .storeWrite s fun w =>
    w.shep.flash = s.shep.store ∧ w.shep.flashCnum = s.shep.cnum ∧ w.shep.flashPlace = s.place ∧
    w.shep.dirtyStore = false ∧ Apart s w) ∧
  (∀ (pid : BitVec 8) (s : State) x p, (s.shep.resets.find? fun y => y.pid = pid.toNat) = some x →
    s.partRest x.pid = true → x.req = none → x.restart = [] → s.part x.pid = some p →
    Completes (.partitionReset pid) s fun w =>
      w.shep.resets = s.shep.resets.erase x ∧ (∃ p', w.part x.pid = some p' ∧ p'.st = 2) ∧
      ∀ lc, s.partOf lc = some pid → (s.core lc).run ≠ .lost → (w.core lc).run = .stopped)

namespace Sys2Proof.Claims

/-- The Mirror state (Table MIR-1). -/
abbrev MirIs (w : State) (x : Nat) : Prop := w.mirState = x

/-- The unit goes out as the last one. -/
def MirOut (s w : State) (u : MirUnit) : Prop := w.mir.out = s.mir.out ++ [u]

end Sys2Proof.Claims

/-- Heartbeats form the pair and keep it; the twentieth period without one, or the partner's pin, loses the
partner; a cut halts the mirrored cores and, once they rest, ends the epoch, which is then shipped; the
secondary stages lines and checkpoints, applies an epoch whose END counts them, and acknowledges it; an END that does
not count them restarts mirroring; the acknowledgement reaches the primary (R447 to R460). -/
def Obligations.MirrorPairResults : Prop :=
  (∀ s : State, (s.domState 57 = 0 → s.shepUp = true → Completes .mirrorLinkUp s fun w =>
      w.mirLink = true ∧ w.mirState = s.mirState ∧ Apart s w) ∧
    Completes .mirrorLinkDown s fun w => w.mirLink = false ∧ w.mirState = s.mirState ∧ Apart s w) ∧
  (∀ (u : MirUnit) (s : State), s.mirOn = true → s.mirLink = true → u.code = 0 →
    Completes (.hb u) s fun w =>
      w.cpField (mirAddr 0x004) 5 5 = 0 ∧ w.mir.partner = some u ∧ Apart s w ∧
      (MirIs s 0 → s.mirSecondary = false → unitWord u 0 % 2 = 1 → unitWord u 3 = s.mirDigest.toNat →
        unitWord u 2 ≠ 0 → MirIs w 2 ∧ w.mirSecondary = false)) ∧
  (∀ (t : Word) (s : State), let q := s.advance t
    t.toNat % 50000 = 0 → q.mirOn = true →
    (q.mirLink = true → q.mirState ≠ 5 → Completes (.hbSend t) s fun w =>
      MirOut s w q.heartbeat ∧ w.cp = s.cp ∧ Apart s w) ∧
    (q.cpField (mirAddr 0x004) 5 5 < 19 → Completes (.hbMiss t) s fun w =>
      w.cpField (mirAddr 0x004) 5 5 = q.cpField (mirAddr 0x004) 5 5 + 1 ∧ w.mirState = s.mirState ∧
      Apart s w) ∧
    (q.cpField (mirAddr 0x004) 5 5 = 19 → q.mirSecondary = false → MirIs q 2 →
      Completes (.hbMiss t) s fun w =>
        MirIs w (if s.cpField (mirAddr 0) 2 1 = 1 then 4 else 3) ∧ w.mir.shipping = none)) ∧
  (∀ s : State, s.mirOn = true → s.shep.mirFault = false → s.mirSecondary = false → MirIs s 1 ∨ MirIs s 2 →
    Completes .partnerFailure s fun w => MirIs w 4 ∧ w.mir.shipping = none ∧ w.mir.cutFrom = none) ∧
  (∀ (t : Word) (s : State), let q := s.advance t
    q.mirOn = true → q.mirSecondary = false →
    (q.mir.cutFrom = none → MirIs q 2 → t.toNat % (q.cpField (mirAddr 0) 8 14 * 1000) = 0 →
      (q.mir.shipping = none → q.mirEpoch ≤ q.mirAcked + 2 → q.shep.commit = none →
        Completes (.cut t) s fun w => w.mir.cutFrom = some q.tb ∧ w.mem = s.mem ∧
          ∀ lc, q.mirCore lc = true → Halt.cut ∈ (w.core lc).halts) ∧
      (q.mir.shipping.isSome = true → Completes (.cut t) s fun w =>
        w.mir = s.mir ∧ w.cpField (mirAddr 0x014) 0 16 = satCount 16 (s.cpField (mirAddr 0x014) 0 16) 1 ∧
        Apart s w) ∧
      (q.mir.shipping = none → q.mirEpoch ≤ q.mirAcked + 2 → q.shep.commit.isSome = true →
        Completes (.cut t) s fun w => w.mir.cutDue = true ∧ w.mir.cutFrom = none ∧ Apart s w)) ∧
    (∀ t0, q.mir.cutFrom = some t0 → q.cutReady = true → (∀ h, (q.home h).eList = []) →
      Completes (.cut t) s fun w =>
        w.mirEpoch = (q.mirEpoch + 1) % 2 ^ 32 ∧ w.mir.cutFrom = none ∧
        w.mir.shipping = some (BitVec.ofNat 32 q.mirEpoch) ∧ w.mem = s.mem ∧
        ∀ lc, Halt.cut ∉ (w.core lc).halts)) ∧
  (∀ (s : State) k, s.mir.shipping = some k → s.mirOn = true → s.mirLink = true → s.mirSecondary = false →
    MirIs s 1 ∨ MirIs s 2 → Completes .epochShip s fun w =>
      (∃ us last, w.mir.out = s.mir.out ++ s.mir.ckpts ++ us ++ [last] ∧
        last.code = (if s.mir.base then 4 else 3) ∧ unitWord last 1 = s.mir.ckpts.length % 2 ^ 64 ∧
        ∀ u ∈ us, u.code = 1) ∧
      w.mir.shipping = none ∧ w.pagesOf k.toNat = [] ∧ Apart s w) ∧
  (∀ (u : MirUnit) (s : State), s.receives = true →
    let h := (s.half u.epoch.toNat).filter (·.epoch = u.epoch)
    let staged := fun (w : State) => w.half u.epoch.toNat = h ++ [u] ∧ w.cp = s.cp ∧ Apart s w
    (u.code = 1 → s.mir.base = false → Completes (.mirLine u) s staged) ∧
    (∀ x, u.code = 1 → s.mir.base = true → s.applyLine u = some x → Completes (.mirLine u) s fun w =>
      w.mir.baseGot = (if x.mir.baseEp = u.epoch then x.mir.baseGot + 1 else 1) ∧ w.mir.baseEp = u.epoch ∧
      w.mem = x.mem ∧ w.net = x.net) ∧
    (u.code = 2 → Completes (.ckpt u) s staged) ∧
    (u.code = 3 → s.mir.base = false →
      (∀ x, (linesOf h).length = unitWord u 0 → (ckptsOf h).length = unitWord u 1 →
        (s.mirStage u).applyHalf u.epoch.toNat h = some x → Completes (.mirEnd u) s fun w =>
          w.mirAcked = u.epoch.toNat % 2 ^ 32 ∧ w.mir.ckpts = ckptsOf h ∧ w.mem = x.mem ∧
          (∃ us, w.mir.out = us ++ [{ code := 5, epoch := u.epoch }]) ∧ MirIs w 2) ∧
      ((linesOf h).length ≠ unitWord u 0 ∨ (ckptsOf h).length ≠ unitWord u 1 →
        Completes (.mirEnd u) s fun w => w.half u.epoch.toNat = [] ∧ w.mirAcked = s.mirAcked ∧ MirIs w 1 ∧
          w.mir.base = true ∧ Apart s w)) ∧
    (u.code = 4 → s.mir.base = true →
      let complete := (if s.mir.baseEp = u.epoch then s.mir.baseGot else 0) = unitWord u 0 ∧
        (ckptsOf h).length = unitWord u 1
      (complete → Completes (.baseEnd u) s fun w =>
        w.mir.base = false ∧ w.mir.ckpts = ckptsOf h ∧ w.mir.staged = [] ∧ w.cp = s.cp ∧ Apart s w) ∧
      (¬ complete → Completes (.baseEnd u) s fun w =>
        w.mir.base = true ∧ w.mir.baseGot = 0 ∧ w.mir.staged = [] ∧ w.mirState = s.mirState ∧ Apart s w))) ∧
  (∀ (u : MirUnit) (s : State), s.mirOn = true → s.mirLink = true → s.mirSecondary = false → u.code = 5 →
    MirIs s 1 ∨ MirIs s 2 → Completes (.mirAck u) s fun w =>
      w.mirAcked = u.epoch.toNat % 2 ^ 32 ∧
      MirIs w (if s.mirState = 1 ∧ s.mir.base = true then 1 else 2) ∧ Apart s w)

/-- A sample below a rail's threshold for a stage engages the stage and every lower one and opens a dip; a
stage lifts when no higher one is in force, and with the last one the dip ends; after 1 ms of Shed-4
comes Shed-5. A wake event that is enabled ends P2 with the states before it, starts the restart out of P3,
and is kept during entry. THERMTRIP_N goes low at 120 degrees. Each regulator that alerts leaves a SUPPLY
record. Secure time at ST_ALARM raises the alarm once, and at a session's expiry closes the session (R334, R336,
R465 to R468, R474 to R476, R521, R524). -/
def Obligations.PowerResults : Prop :=
  (∀ (stage : Fin 6) (rail : Fin 8) (mv : Nat) (t : Word) (s : State) lim, let q := s.advance t
    shedMv rail.val stage.val = some lim → q.shepUp = true → q.watched rail.val = true →
    (mv < lim → Completes (.shedEngage stage rail mv t) s fun w =>
      (∀ n, 1 ≤ n → n ≤ stage.val → w.shed n = true) ∧ (∀ n, n ≤ 5 → s.shed n = true → w.shed n = true) ∧
      w.shep.dip.isSome = true ∧ w.cpField (pwrAddr (0x10 + 4 * rail.val)) 0 12 = mv % 2 ^ 12) ∧
    (lim ≤ mv → exec (.shedEngage stage rail mv t) s = .next q)) ∧
  (∀ (t : Word) (s : State) d t4, let q := s.advance t
    q.shep.dip = some d → q.shep.shed4At = some t4 → q.shed 4 = true → 1000000 ≤ (q.tb - t4).toNat →
    Completes (.shed5Delay t) s fun w => ∀ n, 1 ≤ n → n ≤ 5 → w.shed n = true) ∧
  (∀ (stage : Fin 6) (t : Word) (s : State), let q := s.advance t
    1 ≤ stage.val → q.shed stage.val = true → (∀ k, stage.val < k → k < 6 → q.shed k = false) →
    Completes (.shedLift stage t) s fun w =>
      w.shed stage.val = false ∧ (∀ k, 1 ≤ k → k < stage.val → w.shed k = q.shed k) ∧
      (stage.val = 2 → w.shed2 = false) ∧ (stage.val = 1 → w.shep.dip = none)) ∧
  (∀ (ev : BitVec 4) (s : State),
    (s.wakes ev.toNat = false → exec (.wake ev) s = .next s) ∧
    (s.wakes ev.toNat = true →
      (s.inTransit = true → Completes (.wake ev) s fun w =>
        w.shep.wakeKept = true ∧ w.cp = s.cp ∧ Apart s w) ∧
      (s.inTransit = false → s.powerState = 2 → s.shep.sleepReq = none → Completes (.wake ev) s fun w =>
        w.powerState = (if s.shep.quiet then 1 else 0) ∧ w.inTransit = false ∧
        ∀ lc, Halt.power ∉ (w.core lc).halts) ∧
      (s.inTransit = false → s.powerState = 3 → Completes (.wake ev) s fun w =>
        w.powerState = 0 ∧ w.restarting = true) ∧
      (s.inTransit = false → s.powerState < 2 → exec (.wake ev) s = .next s))) ∧
  (∀ (temp : BitVec 8) (s : State),
    (120 ≤ temp.toInt → s.shep.vauxOff = false → Completes (.thermtrip temp) s fun w =>
      w.shep.thermtrip = true ∧ w.cp = s.cp ∧ Apart s w) ∧
    (temp.toInt < 120 → exec (.thermtrip temp) s = .next s)) ∧
  (∀ (l : List Nat) (s : State), s.shepUp = true → 18 ≤ l.length → Completes (.pmbusPoll l) s fun w =>
    w.shep.pmbus = l ∧ w.shep.log = s.shep.log ∧ w.cp = s.cp ∧ Apart s w) ∧
  (∀ (l : List (BitVec 16)) (s : State), s.shepUp = true →
    ((∀ r < 6, l[r]? = some 0) → exec (.pmbAlert l) s = .next s) ∧
    (∀ r < 6, l[r]? ≠ some 0 → (∀ k < 6, k ≠ r → l[k]? = some 0) → s.shep.log.length < 4096 →
      Completes (.pmbAlert l) s fun w => Apart s w ∧ ∃ x, w.shep.log = s.shep.log ++ [x] ∧
        x.cls = 0x58 ∧ x.sev = 1 ∧ x.loc = BitVec.ofNat 64 r ∧ x.tFirst = s.tb)) ∧
  (∀ s : State, s.stValid = true → s.stAlarm ≠ 0 →
    (s.stAlarm.toNat ≤ s.stNow.toNat → s.stAlarmed = false → s.inTransit = false → s.powerState < 2 →
      Completes .scntAlarm s fun w => w.stAlarm = s.stAlarm ∧ w.stAlarmed = true ∧ Apart s w) ∧
    (s.stNow.toNat < s.stAlarm.toNat ∨ s.stAlarmed = true → exec .scntAlarm s = .next s)) ∧
  (∀ (world : Bool) (s : State) x, s.session world = some x → s.stValid = true →
    (x.expiry.toNat ≤ s.stNow.toNat → Completes (.certExpiry world) s fun w => w.session world = none) ∧
    (s.stNow.toNat < x.expiry.toNat → exec (.certExpiry world) s = .next s))

/-! Commands of the Shepherd (R389 to R401, Table CMD-5). -/

namespace Sys2Proof.Claims

/-- The packet `r` reaches its opcode's own work as `x`, its parameter buffer read, in the state `u`: the
Shepherd runs, it is the packet's turn, the PF may fetch an admin command, the SEQ is the next one, the issuer is
listed, lengths and buffers pass (R345, R392, R396 to R398). -/
def Enters (o : OpSpec) (r x : ShepReq) (s u : State) : Prop :=
  s.shepUp = true ∧ r.op = o.op ∧ s.mayStart r = true ∧ (isAdmin r = true → s.busMaster pf = true) ∧
  r.seq = (s.lastOf r).1 + 1 ∧
  s.restarting = false ∧
  (s.imageOnly = true → isAdmin r = true ∧ 0x0900 ≤ o.op.toNat ∧ o.op.toNat ≤ 0x0902) ∧
  o.allows r = true ∧ o.lengthOk r = true ∧
  r.flags.toNat < 4 ∧ (hasPbuf r = true → r.pbuf.toNat % 64 = 0) ∧
  (hasRbuf r = true → r.rbuf.toNat % 64 = 0) ∧
  (0 < o.reply → hasRbuf r = true ∨ (isAdmin r = false ∧ o.rbuf = false ∧ o.reply ≤ 480)) ∧
  (isAdmin r = false →
    (hasPbuf r = true → s.bufOk r .r r.pbuf.toNat r.bufLen.toNat = true) ∧
    (hasRbuf r = true → s.bufOk r .w r.rbuf.toNat o.reply = true)) ∧
  if o.pbuf = true ∨ hasPbuf r = false then x = r ∧ u = s.takeCmd r
  else ∃ b, (s.takeCmd r).pbufBytes r = .ok b u ∧ x = { r with params := r.params ++ words32 (b.length / 4) b }

/-- The reply stands on the command's channel: its status, data and DETAIL, and its SEQ is the last one. -/
def Replied (r : ShepReq) (st : Nat) (data : List Word32) (detail : Word) (w : State) : Prop :=
  let is := fun (p : Reply) => p.req = r ∧ p.status = BitVec.ofNat 8 st ∧ p.data = data ∧ p.detail = detail
  match r.chan with
  | .mb mb ch =>
    let m := w.mbox (mbKey mb ch)
    m.done = true ∧ m.busy = false ∧ m.lastSeq = r.seq ∧ ∃ p, m.last = some p ∧ is p
  | .admin => w.fold.aq.lastSeq = r.seq ∧ ∃ p, w.shep.adminLast = some p ∧ is p

/-- The reply's data need no buffer in memory, or the buffer takes them. -/
def CanReply (v : State) (r : ShepReq) (data : List Word32) : Prop :=
  hasRbuf r = true → data ≠ [] → isAdmin r = false →
    ∃ y, v.shepWrite (r.rbuf.toNat / 64) ((4 * data.length + 63) / 64) (bytesOf32 data) = .ok () y

/-- What a reply leaves of the state `v` in which the command's work ended; a reply without a buffer in
memory leaves memory and cores too. -/
def Kept (r : ShepReq) (data : List Word32) (v w : State) : Prop :=
  w.shep.stages = v.shep.stages ∧ w.shep.parts = v.shep.parts ∧ w.shep.commit = v.shep.commit ∧
  w.shep.store = v.shep.store ∧ w.shep.cnum = v.shep.cnum ∧ w.shep.lcPart = v.shep.lcPart ∧
  w.shep.images = v.shep.images ∧ w.shep.active = v.shep.active ∧ w.shep.log = v.shep.log ∧
  w.fold.cache = v.fold.cache ∧ w.tap = v.tap ∧ w.snap = v.snap ∧
  (hasRbuf r = false ∨ data = [] ∨ isAdmin r = true → w.mem = v.mem ∧ w.cores = v.cores)

/-- The command ends in state `v` with a reply. -/
def Replies (i : Instr) (r : ShepReq) (s v : State) (st : Nat) (data : List Word32 := [])
    (detail : Word := noDetail) : Prop :=
  CanReply v r data → Completes i s fun w => Replied r st data detail w ∧ Kept r data v w

/-- A commit sequence for the command has begun with its drains; the reply follows its end. -/
def Commits (what : CommitFor) (r : ShepReq) (es : List SetEntry) (w : State) : Prop :=
  ∃ c, w.shep.commit = some c ∧ c.what = what ∧ c.req = some r ∧ c.entries = es ∧ c.phase = .drain

/-- An 8-bit status in the reply header of a mailbox (Table CMD-4). -/
def HeaderStatus (r : ShepReq) (st : Nat) (w : State) : Prop :=
  ∀ mb ch, r.chan = .mb mb ch → SMap.get 0 (w.mbox (mbKey mb ch)).reply 12 = BitVec.ofNat 8 st

end Sys2Proof.Claims

/-- Every opcode of Table CMD-5 with the issuers A, N and S that it lists, M being listed for each: a packet that
its channel does not hold, or whose turn it is not, changes nothing; the fetch of an admin command while the PF may not
issue requests puts the admin queue in ERROR with cause 4; a repeated SEQ answers with the stored reply and does
nothing, another SEQ is SEQ_ERROR, a restart answers RESTARTING, an issuer that is not listed is DENIED. An opcode
that is not listed is BAD_OPCODE. Nothing of the command's own effect happens (R345, R380, R392, R397 to R399). -/
def Sys2Proof.Claims.CommandEntry : Prop :=
  (∀ f ∈ ([(.infoVersion, 0x0100, true, true, true), (.infoSlots, 0x0101, true, true, true),
     (.infoCoreMap, 0x0102, true, true, true), (.infoDistance, 0x0103, true, true, true),
     (.eventRead, 0x0104, true, true, true), (.infoParts, 0x0105, true, true, true),
     (.stageOpen, 0x0200, false, true, true), (.stageSet, 0x0201, false, true, true),
     (.stageCheck, 0x0202, false, true, true), (.stageCommit, 0x0203, false, true, true),
     (.stageAbort, 0x0204, false, true, true), (.stageStatus, 0x0205, false, true, true),
     (.partCreate, 0x0300, false, true, true), (.partDelete, 0x0301, false, true, true),
     (.partImageLoad, 0x0302, false, true, true), (.partStart, 0x0303, false, true, true),
     (.partStop, 0x0304, false, true, true), (.partReset, 0x0305, false, true, true),
     (.unitRelease, 0x0310, true, true, true), (.unitAssign, 0x0311, true, true, true),
     (.queueCreate, 0x0320, true, true, true), (.queueConfig, 0x0321, true, true, true),
     (.queueDelete, 0x0322, true, true, true), (.queueReset, 0x0323, true, true, true),
     (.queueEnable, 0x0324, true, true, true), (.queueSave, 0x0325, true, true, true),
     (.queueRestore, 0x0326, true, true, true), (.groupPause, 0x0330, true, true, true),
     (.groupResume, 0x0331, true, true, true), (.dirtyLogStart, 0x0338, true, true, true),
     (.dirtyLogSwap, 0x0339, true, true, true), (.dirtyLogStop, 0x033A, true, true, true),
     (.powerDomain, 0x0400, false, true, true), (.powerState, 0x0401, false, false, false),
     (.powerStatus, 0x0402, true, true, true), (.faultRead, 0x0500, false, true, true),
     (.faultAck, 0x0501, false, false, false), (.domainStop, 0x0502, false, false, false),
     (.coverageRead, 0x0503, false, true, true), (.mirrorStatus, 0x0600, true, true, true),
     (.mirrorRole, 0x0601, false, false, false), (.mirrorResync, 0x0602, false, false, false),
     (.coreSwap, 0x0700, false, false, false), (.wlSwap, 0x0701, false, false, false),
     (.laserSwitch, 0x0702, false, false, false), (.certLoad, 0x0800, false, true, false),
     (.certClose, 0x0801, false, true, false), (.certStatus, 0x0802, false, true, false),
     (.setSecureTime, 0x0810, false, false, false), (.imageWrite, 0x0900, false, false, false),
     (.imageVerify, 0x0901, true, false, false), (.imageActivate, 0x0902, true, false, false),
     (.imageConfirm, 0x0903, false, false, false), (.fwSwitch, 0x0904, false, false, false),
     (.snapConfig, 0x0A00, false, true, true), (.snapRead, 0x0A01, false, true, true),
     (.cpRead, 0x0B00, true, true, true), (.cpWrite, 0x0B01, false, false, false)] :
      List ((ShepReq → Instr) × Nat × Bool × Bool × Bool)),
    (∀ (r : ShepReq) (s : State), s.mayStart r = false → exec (f.1 r) s = .next s) ∧
    (∀ (r : ShepReq) (s : State), s.shepUp = true → r.op = BitVec.ofNat 16 f.2.1 → s.mayStart r = true →
      isAdmin r = true → s.busMaster pf = false → Completes (f.1 r) s fun w =>
        w.fold.aq = { s.fold.aq with error := true } ∧ w.shep = s.shep ∧ field (w.cpGet (foldAddr 0x01C)) 20 4 = 4 ∧
        Apart s w) ∧
    ∀ (r : ShepReq) (s : State), s.shepUp = true → r.op = BitVec.ofNat 16 f.2.1 → s.mayStart r = true →
    (isAdmin r = true → s.busMaster pf = true) →
    let last := (s.lastOf r).1
    let idle := fun (w : State) => w.shep.stages = s.shep.stages ∧ w.shep.parts = s.shep.parts ∧
      w.shep.commit = s.shep.commit ∧ w.fold.cache = s.fold.cache ∧ Apart s w
    (∀ p, r.seq = last → (s.lastOf r).2 = some p → p.req = r → Completes (f.1 r) s fun w =>
      Replied r p.status.toNat p.data p.detail w ∧ idle w) ∧
    (r.seq ≠ last → r.seq ≠ last + 1 → Completes (f.1 r) s fun w =>
      HeaderStatus r 0x04 w ∧ (w.lastOf r).1 = last ∧ idle w) ∧
    (r.seq = last + 1 → s.restarting = true → Completes (f.1 r) s fun w =>
      Replied r 0x08 [] noDetail w ∧ idle w) ∧
    (r.seq = last + 1 → s.restarting = false → s.imageOnly = false →
      (match r.chan with
        | .admin => f.2.2.1
        | .mb .h _ => if r.world then f.2.2.2.2 else f.2.2.2.1
        | .mb .m _ => true) = false →
      Completes (f.1 r) s fun w => Replied r 0x05 [] noDetail w ∧ idle w)) ∧
  (∀ (r : ShepReq) (s : State), r.op.toNat ∉ opcodes → s.shepUp = true → s.mayStart r = true →
    (isAdmin r = true → s.busMaster pf = true) → r.seq = (s.lastOf r).1 + 1 → s.restarting = false → s.imageOnly = false →
    Completes (.badOpcode r) s fun w => Replied r 0x01 [] noDetail w ∧ Apart s w)

/-- A free channel is claimed by the first core of its level; only the holder, while nothing runs, or M,
releases it; GO of the holder copies the packet, sets BUSY and takes its place in the order of submission, the first
GO of a holder ending the reply of the one before; a GO while BUSY does nothing (R390 to R392, R398, Table
CMD-2). -/
def Sys2Proof.Claims.MailboxResults : Prop :=
  ∀ (mb : MbId) (ch : Fin 2) (irq : Bool) (who : Accessor) (s : State) h, mbLevel mb who = true →
    s.shepUp = true → holderOf who = some h →
    let k := mbKey mb ch
    let m := s.mbox k
    let same := fun (w : State) => (∀ j, j ≠ k → w.mbox j = s.mbox j) ∧ Apart s w ∧ w.cp = s.cp
    (m.holder = none → Completes (.mbClaimReq mb ch who) s fun w =>
      w.mbox k = { m with holder := some h, fresh := true } ∧ same w) ∧
    (m.holder.isSome = true → Completes (.mbClaimReq mb ch who) s fun w => w.mbox k = m ∧ same w) ∧
    (who.lvl = 3 ∨ (m.holder = some h ∧ m.busy = false) → Completes (.mbClaimRel mb ch who) s fun w =>
      w.mbox k = { m with holder := none } ∧ same w) ∧
    (who.lvl ≠ 3 → m.holder ≠ some h ∨ m.busy = true → Completes (.mbClaimRel mb ch who) s fun w =>
      w.mbox k = m ∧ same w) ∧
    (m.holder = some h → m.busy = false → Completes (.mbGo mb ch irq who) s fun w =>
      (∃ p, (w.mbox k).run = some p ∧ p.chan = .mb mb ch ∧ p.world = who.world ∧ p.pid = who.pid ∧
        p.op = BitVec.ofNat 16 (readBytes m.cmd 2 0) ∧ p.seq = BitVec.ofNat 32 (readBytes m.cmd 4 4)) ∧
      (w.mbox k).busy = true ∧ (w.mbox k).irq = irq ∧ (w.mbox k).done = m.done ∧
      (w.mbox k).reply = (if m.fresh then [] else m.reply) ∧ w.shep.order = s.shep.order ++ [.mb mb ch] ∧
      same w) ∧
    (m.holder ≠ some h ∨ m.busy = true → Completes (.mbGo mb ch irq who) s fun w =>
      w.mbox k = m ∧ same w)

/-- The commands that only inform reply OK with the words of Table CMD-5; EVENT_READ takes the oldest records of
its world's queue and tells how many remain; FAULT_READ, CERT_STATUS and STAGE_STATUS reply with what they read
(R399, R400, R421). -/
def Sys2Proof.Claims.InformationResults : Prop :=
  (∀ f ∈ ([
      (.infoVersion, { op := 0x0100, reply := 68 }, fun s =>
        [s.shep.fwVer, s.cpGet (cpAddr shepStation 0x30120), s.cpGet (cpAddr shepStation 0x300F4),
          s.cpGet (cpAddr shepStation 0x300F8), s.cpGet (cpAddr (hubPortStation 0) 0x01C)] ++
        (List.finRange 12).map fun d =>
          if s.fencedSite d then 0 else s.cpGet (cpAddr (diePortStation d) 0x01C)),
      (.infoSlots, { op := 0x0101, reply := 192 }, fun s => (List.finRange 12).flatMap fun d =>
        [0x040, 0x044, 0x048, 0x04C].map fun off => s.cpLive (cpAddr (dcsStation d) off)),
      (.infoCoreMap, { op := 0x0102, reply := 864, rbuf := true }, fun s =>
        (List.finRange 216).map fun lc => BitVec.ofNat 32 (s.coreIdent lc)),
      (.infoDistance, { op := 0x0103, reply := 408 }, fun _ =>
        packHalves ((List.range 12).flatMap distRow)),
      (.infoParts, { op := 0x0105, reply := 1024, rbuf := true }, fun s =>
        (List.range 256).map fun p => match s.part p with
          | none => 0
          | some x => BitVec.ofNat 32 (1 + (if x.world then 2 else 0) + x.st.toNat * 4
              + (s.lcsOfPart p).length * 2 ^ 4)),
      (.powerStatus, { op := 0x0402, reply := 16 }, fun s =>
        (List.range 4).map fun i => s.cpGet (pwrAddr (0x60 + 4 * i))),
      (.coverageRead, { op := 0x0503, a := false, reply := 48 }, fun s =>
        (List.range 12).map fun n => s.cpLive (cpAddr shepStation (0x71000 + 4 * n))),
      (.mirrorStatus, { op := 0x0600, reply := 12 }, fun s =>
        [BitVec.ofNat 32 (s.cpField (mirAddr 0x004) 0 4), s.cpGet (mirAddr 0x008), s.cpGet (mirAddr 0x00C)])]
      : List ((ShepReq → Instr) × OpSpec × (State → List Word32))),
    ∀ (r x : ShepReq) (s u : State), Enters f.2.1 r x s u → Replies (f.1 r) r s u 0 (f.2.2 u)) ∧
  (∀ (r x : ShepReq) (s u : State),
    (Enters { op := 0x0104, words := some 1, reply := 64 * (param r 0).toNat % 512 } r x s u →
      let n := (param x 0).toNat
      let q := SMap.get [] u.evq (b2n (worldOf x))
      let b := (q.take n).flatMap EventRec.bytes
      (1 ≤ n → n ≤ 7 → u.replyBar x (64 * n) = none →
        CanReply { u with evq := SMap.set [] u.evq (b2n (worldOf x)) (q.drop n) } r (words32 (b.length / 4) b) →
        Completes (.eventRead r) s fun w =>
          Replied r 0 (words32 (b.length / 4) b) (BitVec.ofNat 64 (q.length - n)) w ∧
          SMap.get [] w.evq (b2n (worldOf x)) = q.drop n) ∧
      (n = 0 ∨ 7 < n → Replies (.eventRead r) r s u 0x03)) ∧
    (Enters { op := 0x0802, a := false, sec := false, reply := 16 } r x s u →
      (u.session (worldOf x) = none → Replies (.certStatus r) r s u 0 [0, 0, 0, 0]) ∧
      (∀ y, u.session (worldOf x) = some y → Replies (.certStatus r) r s u 0
        [y.num, y.scope.zeroExtend 32, y.expiry.truncate 32, BitVec.ofNat 32 (y.expiry.toNat / 2 ^ 32)])) ∧
    (Enters { op := 0x0205, a := false, words := some 1, reply := 8 } r x s u → (param x 0).toNat < 2 →
      u.stage (if isM x then bit (param x 0) 0 else worldOf x) = none →
      Replies (.stageStatus r) r s u 0
        [BitVec.ofNat 32 (if (if isM x then bit (param x 0) 0 else worldOf x) then 32 else 0), 0]) ∧
    (Enters { op := 0x0500, a := false, words := some 2, reply := 64 * (param r 1).toNat % 2 ^ 14
              rbuf := true } r x s u →
      let l := (List.range (param x 1).toNat).filterMap fun k =>
        u.shep.log.find? fun y => y.index.toNat = (param x 0).toNat + k
      let b := l.flatMap FaultRec.bytes
      (param x 1).toNat < 256 → u.replyBar x (64 * (param x 1).toNat) = none →
      Replies (.faultRead r) r s u 0 (words32 (b.length / 4) b)))

namespace Sys2Proof.Claims

/-- The Shepherd after a reply has reached the command `j`, the only one under way: the frame is off the ring and
the resends of its station are over. -/
def jobDone (s : State) (f : Frame) (j : CpJob) : State :=
  (s.takeFrame f).modShep fun x => { x with
    resends := SMap.set 0 x.resends (cpStation f.addr.toNat).toNat 0, cpJobs := x.cpJobs.erase j }

/-- The status codes of a reply's status other than 0 (Tables FAB-5 and CMD-8). -/
def cpCodes : List (BitVec 4 × Nat) := [(1, 0x0A), (2, 0x0B), (3, 0x0C)]

end Sys2Proof.Claims

/-- CP_READ sends a READ frame for its first word, CP_WRITE a WRITE; each under the next SEQ of its station, one
copy on each ring that is whole. A CP_WRITE waits while its station is armed. A READ_REPLY gives the command its next
word, masked where the issuer may not see it, and sends the READ of the word after it; the last one ends the command
with its words. A WRITE_REPLY ends a CP_WRITE; a status other than 0 ends the command with its code and the item
(R8, R29, R252, R399, R408). -/
def Sys2Proof.Claims.RegisterCommandResults : Prop :=
  (∀ (r x : ShepReq) (s u : State),
    Enters { op := 0x0B00, words := some 2, reply := 4 * ((param r 1).toNat % 128) } r x s u →
    let a := (param x 0).toNat
    let n := (param x 1).toNat
    let seq := u.nextSeq (cpStation a)
    (1 ≤ n → n ≤ 64 → u.replyBar x (4 * n) = none → u.shep.cpJobs = [] → u.outstanding (cpStation a) < 64 →
      Completes (.cpRead r) s fun w =>
        w.shep.frames = u.shep.frames ++ Copies u { op := 1, seq := seq, addr := param x 0 } ∧
        w.shep.cpJobs = [{ req := x, write := false, addr := a, words := n, seq := some seq
                           mask := isAdmin x || (!isM x && !worldOf x) }] ∧ w.cp = u.cp ∧ Apart u w) ∧
    (n = 0 ∨ 64 < n → Replies (.cpRead r) r s u 0x03)) ∧
  (∀ (r x : ShepReq) (s u : State),
    Enters { op := 0x0B01, a := false, n := false, sec := false, words := some 2 } r x s u →
    let a := (param x 0).toNat
    let seq := u.nextSeq (cpStation a)
    (u.cpHeld (cpStation a) = true → exec (.cpWrite r) s = .next s) ∧
    (u.cpHeld (cpStation a) = false → u.shep.cpJobs = [] → u.outstanding (cpStation a) < 64 →
      Completes (.cpWrite r) s fun w =>
        w.shep.frames = u.shep.frames ++
          Copies u { op := 2, seq := seq, addr := param x 0, data := param x 1 } ∧
        w.shep.cpJobs = [{ req := x, write := true, value := param x 1, addr := a, seq := some seq }] ∧
        w.cp = u.cp ∧ Apart u w)) ∧
  (∀ (f : Frame) (s : State) j, f.dup = false → s.shep.cpJobs = [j] → s.shep.commit = none →
    j.seq = some f.seq → j.addr = f.addr.toNat →
    let v := jobDone s f j
    (Good f 3 → j.write = false → f.status = 0 →
      let got := j.got ++ [if j.mask && s.cpHidden j.addr then 0 else f.data]
      (got.length = j.words → CanReply v j.req got → Completes (.readReply f) s fun w =>
        Replied j.req 0 got noDetail w ∧ w.shep.cpJobs = [] ∧ FrameGone f s w) ∧
      (got.length ≠ j.words → Completes (.readReply f) s fun w =>
        let a := j.addr + 4
        let seq := BitVec.ofNat 16 (s.cpField (cpAddr (cpStation a) 0xFF014) 0 16) + 1
        w.shep.frames = s.shep.frames.erase f ++
          Copies s { op := 1, seq := seq, addr := BitVec.ofNat 32 a, data := j.value } ∧
        w.shep.cpJobs = [{ j with addr := a, idx := j.idx + 1, seq := some seq, got := got }] ∧
        w.cp = s.cp ∧ Apart s w)) ∧
    (Good f 4 → j.write = true → f.status = 0 → Completes (.writeReply f) s fun w =>
      Replied j.req 0 [] noDetail w ∧ w.shep.cpJobs = [] ∧ FrameGone f s w ∧ Apart s w) ∧
    (∀ p ∈ cpCodes, f.status = p.1 →
      (Good f 3 → j.write = false → Completes (.readReply f) s fun w =>
        Replied j.req p.2 [] (BitVec.ofNat 64 (j.addr + j.idx * 2 ^ 32)) w ∧ w.shep.cpJobs = [] ∧ Apart s w) ∧
      (Good f 4 → j.write = true → Completes (.writeReply f) s fun w =>
        Replied j.req p.2 [] (BitVec.ofNat 64 (j.addr + 0xFFFFFFFF * 2 ^ 32)) w ∧ w.shep.cpJobs = [] ∧
        Apart s w)))

/-- STAGE_OPEN opens the issuer's stage; STAGE_SET adds entries that it may hold, each later one of an address
in place of the earlier; STAGE_CHECK binds the verdict to CNUM; STAGE_COMMIT starts the commit sequence;
STAGE_ABORT, and 10 s without a command, close the stage; another issuer's stage is not touched. A set that writes one
copy of RTR_SITE_FENCE writes them all (R256, R402 to R406, R413; the copies are the model's reading, assumption
140). -/
def Sys2Proof.Claims.StageResults : Prop :=
  (∀ (r x : ShepReq) (s u : State), Enters { op := 0x0200, a := false, reply := 4 } r x s u →
    (u.stage (worldOf x) = none → Replies (.stageOpen r) r s
      (u.setStage (worldOf x) (some { chan := x.chan, last := u.tb })) 0 [u.shep.cnum]) ∧
    ((u.stage (worldOf x)).isSome = true → Replies (.stageOpen r) r s u 0x11)) ∧
  (∀ (r x : ShepReq) (s u : State) g, Enters { op := 0x0201, a := false, words := none, reply := 4 } r x s u →
    let new := entriesAt x 0
    x.params.length = 1 + 2 * (param x 0).toNat → (param x 0).toNat < 2 ^ 17 →
    u.stage (worldOf x) = some g → g.chan = x.chan →
    (u.firstBad g.entries new x = none →
      let es := new.foldl addEntry g.entries
      Replies (.stageSet r) r s (u.setStage (worldOf x) (some { g with
        entries := es, checked := none, last := u.tb })) 0 [BitVec.ofNat 32 es.length]) ∧
    (∀ st a k, u.firstBad g.entries new x = some (st, a, k) →
      Replies (.stageSet r) r s u st [] (BitVec.ofNat 64 (a + k * 2 ^ 32)))) ∧
  (∀ (r x : ShepReq) (s u : State) g, Enters { op := 0x0202, a := false, reply := 136 } r x s u →
    u.stage (worldOf x) = some g → g.chan = x.chan →
    (u.checkSet g.entries = none → Replies (.stageCheck r) r s
      (u.setStage (worldOf x) (some { g with checked := some u.shep.cnum, last := u.tb })) 0
      ([BitVec.ofNat 32 g.entries.length, u.shep.cnum] ++ u.hotLoss g.entries)) ∧
    (∀ y, u.checkSet g.entries = some y → Replies (.stageCheck r) r s
      (u.setStage (worldOf x) (some { g with last := u.tb })) y.status [] y.detail)) ∧
  (∀ (r x : ShepReq) (s u : State) g, Enters { op := 0x0203, a := false, reply := 20 } r x s u →
    u.stage (worldOf x) = some g → g.chan = x.chan →
    g.checked = some u.shep.cnum ∨ u.checkSet g.entries = none → u.shep.commit = none →
    Completes (.stageCommit r) s fun w => Commits (.stage (worldOf x)) x (spreadFence g.entries) w ∧ w.cp = u.cp ∧
      w.mem = u.mem) ∧
  (∀ (r x : ShepReq) (s u : State) g, Enters { op := 0x0204, a := false } r x s u →
    let world := if isM x = true ∧ u.stage true = none then false else worldOf x
    u.stage world = some g →
    (g.chan = x.chan ∨ isM x = true → u.committing world = false →
      Replies (.stageAbort r) r s (u.setStage world none) 0) ∧
    (g.chan ≠ x.chan → isM x = false → Replies (.stageAbort r) r s u 0x12)) ∧
  (∀ f ∈ ([(.stageSet, { op := 0x0201, a := false, words := none, reply := 4 }),
      (.stageCheck, { op := 0x0202, a := false, reply := 136 }),
      (.stageCommit, { op := 0x0203, a := false, reply := 20 }),
      (.stageAbort, { op := 0x0204, a := false })] : List ((ShepReq → Instr) × OpSpec)),
    ∀ (r x : ShepReq) (s u : State), Enters f.2 r x s u →
      (f.2.op = 0x0201 → x.params.length = 1 + 2 * (param x 0).toNat ∧ (param x 0).toNat < 2 ^ 17) →
      u.stage true = none → u.stage false = none → Replies (f.1 r) r s u 0x10) ∧
  (∀ (world : Bool) (t : Word) (s : State) g, let q := s.advance t
    q.stage world = some g → q.committing world = false →
    (10000000000 ≤ (q.tb - g.last).toNat → Completes (.stageIdleAbort world t) s fun w =>
      w.stage world = none ∧ w.stage (!world) = s.stage (!world) ∧ w.shep.commit = s.shep.commit ∧
      Apart s w) ∧
    ((q.tb - g.last).toNat < 10000000000 → exec (.stageIdleAbort world t) s = .next q))

/-- PART_CREATE makes a partition; PART_START starts a stopped core for it at its entry PC, level and g1;
PART_STOP stops its cores; PART_RESET resets it once its cores rest, else waits for them; PART_DELETE removes
it while it does not run and no region names it; PART_IMAGE_LOAD writes a verified image where only the
partition's own read-only memory lies (R312, R415, R478). -/
def Obligations.PartitionCommandResults : Prop :=
  (∀ (r x : ShepReq) (s u : State), Enters { op := 0x0300, a := false, words := some 1 } r x s u →
    let p := (param x 0).toNat % 256
    let world := bit (param x 0) 8
    (param x 0).toNat < 512 →
    (u.part p = none → isM x = true ∨ world = worldOf x → (world = true → p ≠ 0) →
      Replies (.partCreate r) r s (u.setPart p (some { world := world })) 0) ∧
    ((u.part p).isSome = true → Replies (.partCreate r) r s u 0x50)) ∧
  (∀ (r x : ShepReq) (s u : State) y, let p := (param x 0).toNat
    p < 256 → u.part p = some y → isM x = true ∨ y.world = worldOf x →
    (Enters { op := 0x0301, a := false, words := some 1 } r x s u →
      (y.st ≠ 1 → u.pidNamed p = false → CanReply u r [] → Completes (.partDelete r) s fun w =>
        Replied r 0 [] noDetail w ∧ w.part p = none ∧ (∀ k, k ≠ p → w.part k = u.part k) ∧ Apart u w) ∧
      (y.st = 1 ∨ u.pidNamed p = true → Replies (.partDelete r) r s u 0x53)) ∧
    (Enters { op := 0x0303, a := false, words := some 6 } r x s u →
      ∀ lc : LC, field (param x 1) 0 8 = lc.val → (param x 1).toNat < 2 ^ 10 →
      let lvl : BitVec 2 := (param x 1).extractLsb' 8 2
      lvl = 1 ∨ (lvl = 2 ∧ isM x = true) →
      ((u.core lc).run = .stopped → (u.core lc).access = none → Completes (.partStart r) s fun w =>
        Replied r 0 [] noDetail w ∧ (w.core lc).run = .started ∧ (w.core lc).pc = param64 x 2 &&& ~~~3#64 ∧
        (w.core lc).getG 1 = param64 x 4 ∧ (∃ z, w.part p = some z ∧ z.st = 1 ∧ z.world = y.world) ∧
        SMap.get none w.shep.lcPart lc.val = some (BitVec.ofNat 8 p) ∧ w.mem = u.mem ∧
        ∀ l, l ≠ lc → w.core l = u.core l) ∧
      ((u.core lc).run ≠ .stopped → Replies (.partStart r) r s u 0x53)) ∧
    (Enters { op := 0x0304, a := false, words := some 1 } r x s u → Completes (.partStop r) s fun w =>
      Replied r 0 [] noDetail w ∧ (∃ z, w.part p = some z ∧ z.st = 2) ∧ w.mem = u.mem ∧
      ∀ lc, (lc ∈ u.lcsOfPart p → (w.core lc).run ≠ .started) ∧
        (lc ∉ u.lcsOfPart p → w.core lc = u.core lc)) ∧
    (Enters { op := 0x0305, a := false, words := some 1 } r x s u → (∀ z ∈ u.shep.resets, z.pid ≠ p) →
      ((u.partHalt p).partRest p = true → Completes (.partReset r) s fun w =>
        Replied r 0 [] noDetail w ∧ ∃ z, w.part p = some z ∧ z.st = 2) ∧
      ((u.partHalt p).partRest p = false → Completes (.partReset r) s fun w =>
        w.shep.resets = u.shep.resets ++ [⟨p, some x, []⟩] ∧ w.part p = some y ∧ w.mem = u.mem)) ∧
    (Enters { op := 0x0302, a := false, words := some 3, reply := 8, maxBuf := 2 ^ 28, pbuf := true } r x s u →
      ∀ b u1 im u2, u.pbufBytes x = .ok b u1 → u1.verifyImage 0x10 2 b = .ok im →
        let a := (param64 x 1).toNat
        (u1.imageTarget (BitVec.ofNat 8 p) y.world a im.payload.length = true →
          u1.shepStore a im.payload = .ok () u2 →
          Replies (.partImageLoad r) r s (u2.setPart p (some { y with image := some (im.ver, im.svn) })) 0
            [im.ver, BitVec.ofNat 32 im.svn.toNat]) ∧
        (u1.imageTarget (BitVec.ofNat 8 p) y.world a im.payload.length = false →
          Replies (.partImageLoad r) r s u1 0x54)))

/-- UNIT_RELEASE commits the release of a unit whose last epoch increment lies 100 us back, and is held until
then; UNIT_ASSIGN commits its owner record with those of its sources and the entries given with it; an issuer
that may not hand the unit over is DENIED (R324, R325, Table WLD-8). -/
def Sys2Proof.Claims.HandOverResults : Prop :=
  (∀ (r x : ShepReq) (s u : State) a, Enters { op := 0x0310, words := some 1, reply := 4 } r x s u →
    unitRecord (param x 0) = some a →
    (mayHandOver x a (bit (u.cpGet a) 10 && bit (u.cpGet a) 9) = true →
      (u.epochFree a = true → u.checkSet (u.releaseSet a) = none → u.shep.commit = none →
        Completes (.unitRelease r) s fun w => Commits (.release false) x (u.releaseSet a) w ∧ w.cp = u.cp) ∧
      (u.epochFree a = false → Completes (.unitRelease r) s fun w =>
        w.shep.relWait = u.shep.relWait ++ [(x, a)] ∧ w.cp = u.cp ∧ Apart u w)) ∧
    (mayHandOver x a (bit (u.cpGet a) 10 && bit (u.cpGet a) 9) = false →
      Replies (.unitRelease r) r s u 0x05)) ∧
  (∀ (unit : BitVec 32) (t : Word) (s : State) y, let q := s.advance t
    (q.shep.relWait.find? fun z => z.2 = unit.toNat) = some y →
    let v := q.modShep fun z => { z with relWait := z.relWait.erase y }
    (q.epochFree y.2 = true → q.restarting = false → v.checkSet (v.releaseSet y.2) = none →
      q.shep.commit = none → Completes (.unitReleaseDelay unit t) s fun w =>
        Commits (.release false) y.1 (v.releaseSet y.2) w ∧ w.shep.relWait = s.shep.relWait.erase y) ∧
    (q.epochFree y.2 = false → exec (.unitReleaseDelay unit t) s = .next q)) ∧
  (∀ (r x : ShepReq) (s u : State) a, Enters { op := 0x0311, words := none } r x s u →
    let v := param x 1
    let site := (param x 2).toNat
    let es : List SetEntry := (a, if (epochOf a).1 = a then setField v 12 6 (u.cpField a 12 6) else v) ::
      (unitSources a).map fun i => (site * 2 ^ 28 + 0x30 * 2 ^ 20 + 0x2000 + 4 * i, v)
    x.params.length = 3 → unitRecord (param x 0) = some a → v.toNat < 2048 → bit v 10 = true → site ≤ 12 →
    (unitSources a ≠ [] → site ≠ 0) →
    (mayHandOver x a (bit v 9) = true → u.checkSet es = none → u.shep.commit = none →
      Completes (.unitAssign r) s fun w => Commits .other x es w ∧ w.cp = u.cp) ∧
    (mayHandOver x a (bit v 9) = false → Replies (.unitAssign r) r s u 0x05))

namespace Sys2Proof.Claims

/-- The queue that a command names, its group reached by the issuer, its context `c`. -/
def OnQueue (x : ShepReq) (u v : State) (q g : Nat) (c : Line) : Prop :=
  q = (param x 0).toNat ∧ q < 2 ^ 20 ∧ u.groupOf q = some g ∧ u.mayGroup x g = true ∧
  u.isOff foldStation = false ∧ u.ctxOf q = some (c, v)

/-- The context of a QID in the Fold's cache. -/
def ctxNow (w : State) (q : Nat) : Option Line := (SMap.get none w.fold.cache q).map (·.ctx)

end Sys2Proof.Claims

/-- The queue commands change the context that they name: CREATE makes it, CONFIG sets the fields of type RW of
a queue that is not enabled, DELETE clears VALID, ENABLE sets ENABLE, RESET takes indices to 0 and GEN to the
next, SAVE replies with the context of a quiesced group, RESTORE takes a saved one; PAUSE follows GROUP_PAUSE and
GROUP_RESUME. A context of a VF that names a vector from 64 on is refused (R364, R375, R385, R386; its status is not
stated, a free value, assumption 149). -/
def Sys2Proof.Claims.QueueCommandResults : Prop :=
  (∀ (r x : ShepReq) (s u v : State) q g c, OnQueue x u v q g c →
    let d := ctxParam x 1 10
    (Enters { op := 0x0320, words := some 11 } r x s u → d &&& ~~~ctxRw = 0 → ctxLimits d = true →
      ctxValid c = false → v.groupOf q = some g →
      (ctxVector d g = true → v.pinFull c d = false →
        Replies (.queueCreate r) r s (v.setCtx q (ctxCreate c d g)) 0) ∧
      (ctxVector d g = false → Replies (.queueCreate r) r s (v.takeFree 8).2 (v.takeFree 8).1.toNat)) ∧
    (Enters { op := 0x0321, words := some 11 } r x s u → d &&& ~~~ctxRw = 0 → ctxLimits d = true →
      ctxValid c = true → ctxEnable c = false → v.groupOf q = some g → ctxVector d g = true →
      v.pinFull c d = false → Replies (.queueConfig r) r s (v.setCtx q (ctxConfig c d)) 0) ∧
    (Enters { op := 0x0322, words := some 1 } r x s u → ctxValid c = true →
      Replies (.queueDelete r) r s (v.setCtx q (ctxSet c 0 0 1 0)) 0) ∧
    (Enters { op := 0x0323, words := some 1, reply := 4 } r x s u → ctxValid c = true →
      CanReply (v.resetQueue q c) r [(ctxGen (ctxReset c)).zeroExtend 32] →
      Completes (.queueReset r) s fun w => Replied r 0 [(ctxGen (ctxReset c)).zeroExtend 32] noDetail w ∧
        ∃ z, ctxNow w q = some z ∧ ctxGen z = ctxGen c + 1 ∧ ctxEnable z = false ∧ ctxF z 5 0 12 = 0 ∧
          ctxF z 5 12 12 = 0 ∧ ctxF z 6 12 12 = 0 ∧ ctxF z 5 48 1 = 1) ∧
    (Enters { op := 0x0324, words := some 1 } r x s u → ctxValid c = true →
      Replies (.queueEnable r) r s (v.setCtx q (ctxSet c 0 1 1 1)) 0) ∧
    (Enters { op := 0x0325, words := some 1, reply := 68 } r x s u → ctxValid c = true →
      v.groupOf q = some g →
      (v.quiesced g = true → Replies (.queueSave r) r s v 0
        ((List.range 16).map (fun i => c.extractLsb' (32 * i) 32) ++ [BitVec.ofNat 32 (v.ggen g)])) ∧
      (v.quiesced g = false → Replies (.queueSave r) r s v 0x44)) ∧
    (Enters { op := 0x0326, words := some 23 } r x s u → v.groupOf q = some g →
      let y := ctxRestore x g
      let i := ctxF y 5 0 12
      ctxF y 6 36 12 = 0 → ctxF y 6 0 12 = i → ctxF y 6 12 12 = i → ctxF y 6 24 12 = i →
      ctxLimits y = true → ctxVector y g = true → (param x 22).toNat < 2 ^ 26 → (param x 17).toNat < 256 →
      v.groupEmpty g = false → v.ggen g = (param x 17).toNat → v.pinFull c y = false →
      Replies (.queueRestore r) r s (v.setCtx q y) 0)) ∧
  (∀ f ∈ ([(.queueDelete, { op := 0x0322, words := some 1 }),
      (.queueReset, { op := 0x0323, words := some 1, reply := 4 }),
      (.queueEnable, { op := 0x0324, words := some 1 }),
      (.queueSave, { op := 0x0325, words := some 1, reply := 68 })] : List ((ShepReq → Instr) × OpSpec)),
    ∀ (r x : ShepReq) (s u v : State) q g c, OnQueue x u v q g c → Enters f.2 r x s u →
      ctxValid c = false → Replies (f.1 r) r s v 0x46) ∧
  (∀ f ∈ ([(.groupPause, 0x0330, 1), (.groupResume, 0x0331, 0)] :
      List ((ShepReq → Instr) × BitVec 16 × Nat)),
    ∀ (r x : ShepReq) (s u : State), Enters { op := f.2.1, words := some 1 } r x s u →
    let g := (param x 0).toNat
    g ≤ 1024 →
    (u.mayGroup x g = true → u.isOff foldStation = false → Completes (f.1 r) s fun w =>
      Replied r 0 [] noDetail w ∧ w.cpField (foldAddr (0x20000 + 4 * g)) 8 1 = f.2.2 ∧ Apart u w) ∧
    (u.mayGroup x g = false → Replies (f.1 r) r s u 0x05))

/-- DIRTY_LOG_START commits the buffers and ENABLE of a VF's log after zeroing them; DIRTY_LOG_SWAP makes the
other buffer active, writes the old one back, and replies with its count and overflow; DIRTY_LOG_STOP commits
ENABLE 0 (R384). -/
def Sys2Proof.Claims.DirtyLogCommandResults : Prop :=
  ∀ (r x : ShepReq) (s u : State) v, logVf x = some v → u.mayGroup x v = true →
    (Enters { op := 0x0338, words := some 8 } r x s u → (param x 7).toNat < 32 → u.shep.commit = none →
      let es : List SetEntry := [(logAddr v 0, param x 1), (logAddr v 4, param x 2), (logAddr v 8, param x 3),
        (logAddr v 12, param x 4), (logAddr v 16, param x 5), (logAddr v 20, param x 6),
        (logAddr v 0x18, BitVec.ofNat 32 (1 + (param x 7).toNat * 2 ^ 8))]
      ∀ u1 u2, u.firstBad [] es { x with chan := .mb .m 0 } = none → u.checkSet es = none →
        u.zeroLines ((param64 x 1).toNat / 64) (2 ^ (param x 7).toNat / 512) = .ok () u1 →
        u1.zeroLines ((param64 x 3).toNat / 64) (2 ^ (param x 7).toNat / 512) = .ok () u2 →
        Completes (.dirtyLogStart r) s fun w => Commits .other x es w ∧ w.mem = u2.mem) ∧
    (Enters { op := 0x0339, words := some 1, reply := 8 } r x s u →
      u.cpField (logAddr v 0x18) 3 1 = 0 → ∀ u1, (u.logSwap v).logSwapDone v = some u1 →
      Replies (.dirtyLogSwap r) r s u1 0
        [BitVec.ofNat 32 (SMap.get 0 u1.fold.oldCnt v), BitVec.ofNat 32 (u.cpField (logAddr v 0x18) 4 1)]) ∧
    (Enters { op := 0x033A, words := some 1 } r x s u →
      let es : List SetEntry := [(logAddr v 0x18, BitVec.ofNat 32 (u.cpField (logAddr v 0x18) 8 5 * 2 ^ 8))]
      u.checkSet es = none → u.shep.commit = none → Completes (.dirtyLogStop r) s fun w =>
        Commits .other x es w ∧ w.cp = u.cp)

/-- POWER_DOMAIN switches a domain or its clock, refuses another issuer than M a domain that the other world uses,
and waits under Shed-3; POWER_STATE enters or leaves P1, halts
every core on the way to P2 or P3, refuses a pair that runs; DOMAIN_STOP stops with cause 5 and its reply
stands; FAULT_ACK acknowledges a record; CORE_SWAP halts its core and commits the swap; WL_SWAP and
MIRROR_ROLE commit their registers; LASER_SWITCH replies; MIRROR_RESYNC starts a base copy (R327, R421, R434,
R438, R447, R460, R471, R473). -/
def Obligations.MachineCommandResults : Prop :=
  (∀ (r x : ShepReq) (s u : State), Enters { op := 0x0400, a := false, words := some 1 } r x s u →
    let k := field (param x 0) 0 8
    let what := field (param x 0) 8 2
    (u.shed 3 = true → exec (.powerDomain r) s = .next s) ∧
    (u.shed 3 = false → isM x = false → what = 1 ∨ what = 2 → u.usedBy k (!worldOf x) = true →
      Completes (.powerDomain r) s fun w =>
        Replied r 0x48 [] noDetail w ∧ w.cp = u.cp ∧ Apart u w) ∧
    (u.shed 3 = false → isM x = true → (param x 0).toNat < 2 ^ 10 →
      (u.badDomain k what = true → Replies (.powerDomain r) r s u 0x03) ∧
      (u.badDomain k what = false →
        (what = 0 → Replies (.powerDomain r) r s (u.domainOn k) 0) ∧
        (what = 1 → u.domainBusy k = true → Replies (.powerDomain r) r s u 0x53) ∧
        (∀ y, what = 1 → u.domainBusy k = false → (k = 57 → u.mirState = 0) → u.domainOff k = some y →
          Replies (.powerDomain r) r s y 0)))) ∧
  (∀ (r x : ShepReq) (s u : State),
    Enters { op := 0x0401, a := false, n := false, sec := false, words := some 1 } r x s u →
    let n := (param x 0).toNat
    u.shed 3 = false →
    (n = 1 → u.powerState < 2 → u.inTransit = false → Completes (.powerState r) s fun w =>
      Replied r 0 [] noDetail w ∧ w.powerState = (if u.shep.quiet then 0 else 1) ∧
      w.shep.quiet = !u.shep.quiet ∧ w.cores = u.cores ∧ w.mem = u.mem) ∧
    (n = 2 ∨ n = 3 → u.mirState = 1 ∨ u.mirState = 2 → Replies (.powerState r) r s u 0x68) ∧
    (n = 2 ∨ n = 3 → u.mirState ≠ 1 → u.mirState ≠ 2 → u.inTransit = false → u.powerState < 2 →
      Completes (.powerState r) s fun w => w.inTransit = true ∧ w.mem = s.mem ∧
        ∀ lc, Halt.power ∈ (w.core lc).halts)) ∧
  (∀ (r x : ShepReq) (s u : State),
    (Enters { op := 0x0501, a := false, n := false, sec := false, words := some 1 } r x s u →
      (∀ y ∈ u.shep.log, y.index = param x 0 → Completes (.faultAck r) s fun w =>
        Replied r 0 [] noDetail w ∧ w.shep.log = u.shep.log.map (fun z =>
          if z.index = param x 0 then { z with acked := true } else z) ∧ Apart u w) ∧
      ((∀ y ∈ u.shep.log, y.index ≠ param x 0) → Replies (.faultAck r) r s u 0x03)) ∧
    (Enters { op := 0x0502, a := false, n := false, sec := false } r x s u → u.shep.cds = false →
      Completes (.domainStop r) s fun w => Replied r 0 [] noDetail w ∧ w.shep.cds = true ∧
        w.shep.cause = 5 ∧ w.restarting = true) ∧
    (Enters { op := 0x0702, a := false, n := false, sec := false, reply := 4 } r x s u →
      Replies (.laserSwitch r) r s u.xfade 0 [u.xfade.cpLive (lsrAddr 0)]) ∧
    (Enters { op := 0x0601, a := false, n := false, sec := false, words := some 1 } r x s u →
      (param x 0).toNat < 2 →
      let es : List SetEntry := [(mirAddr 0, setBit (u.cpGet (mirAddr 0)) 1 (bit (param x 0) 0))]
      (u.mirState = 1 ∨ u.mirState = 2 → Replies (.mirrorRole r) r s u 0x68) ∧
      (u.mirState ≠ 1 → u.mirState ≠ 2 → u.checkSet es = none → u.shep.commit = none →
        Completes (.mirrorRole r) s fun w => Commits (.mirRole (bit (param x 0) 0)) x es w)) ∧
    (Enters { op := 0x0602, a := false, n := false, sec := false } r x s u →
      (∀ y, u.mirOn = true → u.mirLink = true → u.mirSecondary = false → u.mirState ≠ 5 →
        u.mir.partner = some y → unitWord y 0 % 2 = 1 → unitWord y 3 = u.mirDigest.toNat →
        u.mir.cutFrom = none → Completes (.mirrorResync r) s fun w =>
          Replied r 0 [] noDetail w ∧ w.mirState = 1 ∧ w.mir.base = true ∧ Apart u w) ∧
      (u.mir.partner = none → Replies (.mirrorResync r) r s u 0x68)) ∧
    (∀ p, Enters { op := 0x0701, a := false, n := false, sec := false, words := some 1 } r x s u →
      let st : Station := (param x 0).extractLsb' 0 12
      let es : List SetEntry := [(cpAddr st 0x0D4, BitVec.ofNat 32 (field (param x 0) 12 5 + 2 ^ 5))]
      (param x 0).toNat < 2 ^ 17 → portAt st = some p → u.checkSet es = none → u.shep.commit = none →
      Completes (.wlSwap r) s fun w => Commits .other x es w) ∧
    (∀ (lc : LC) d k,
      Enters { op := 0x0700, a := false, n := false, sec := false, words := some 1, reply := 4 } r x s u →
      (param x 0).toNat < 2 ^ 18 → field (param x 0) 0 8 = lc.val → bit (param x 0) 17 = true →
      u.dieOf lc = some d → u.chooseReserve d = some k → u.shep.commit = none →
      Completes (.coreSwap r) s fun w => Halt.swap ∈ (w.core lc).halts ∧
        ∃ es, Commits (.swap lc k) x es w))

namespace Sys2Proof.Claims

/-- A world's session is the one given, the newest of all. -/
def withSession (v : State) (world : Bool) (y : Session) : State :=
  { v with tap := { v.tap with
      lastNum := y.num, sessions := SMap.set none v.tap.sessions (b2n world) (some y) } }

end Sys2Proof.Claims

/-- CERT_LOAD opens its world's session in place of the last one, CERT_CLOSE closes it by its number;
SET_SECURE_TIME never goes back while the time is valid. IMAGE_WRITE fills a slot that does not run,
IMAGE_VERIFY tells version, SVN and key slot, IMAGE_ACTIVATE marks the slot, IMAGE_CONFIRM blows the rollback
counter up to an SVN that everything running reaches; FW_SWITCH waits in the standby bank, and in its gap the
new firmware runs, or the old one goes on (R332 to R336, R415 to R417, R509). -/
def Obligations.TrustCommandResults : Prop :=
  (∀ (r x : ShepReq) (s u : State) b u1,
    Enters { op := 0x0800, a := false, sec := false, words := some 0, reply := 8, pbuf := true } r x s u →
    u.pbufBytes x = .ok b u1 →
    (∀ y, u1.checkCert x b = .ok y →
      CanReply (withSession (u1.closeSession (worldOf x)) (worldOf x) y) r [y.num, y.scope.zeroExtend 32] →
      Completes (.certLoad r) s fun w => Replied r 0 [y.num, y.scope.zeroExtend 32] noDetail w ∧
        w.session (worldOf x) = some y ∧ w.session (!worldOf x) = u1.session (!worldOf x)) ∧
    (∀ e, u1.checkCert x b = .error e → Replies (.certLoad r) r s u1 e)) ∧
  (∀ (r x : ShepReq) (s u : State),
    Enters { op := 0x0801, a := false, sec := false, words := some 1 } r x s u →
    (∀ y, u.session (worldOf x) = some y → y.num = param x 0 → Completes (.certClose r) s fun w =>
      Replied r 0 [] noDetail w ∧ w.session (worldOf x) = none ∧
      w.session (!worldOf x) = u.session (!worldOf x) ∧ w.mem = u.mem) ∧
    (u.session (worldOf x) = none → Replies (.certClose r) r s u 0x03)) ∧
  (∀ (r x : ShepReq) (s u : State),
    Enters { op := 0x0810, a := false, n := false, sec := false, words := some 2, reply := 8 } r x s u →
    let t := param64 x 0
    let scnt : Word := BitVec.ofNat 64 ((u.tb - u.scntBase).toNat / 1000)
    (u.stValid = false ∨ u.stNow.toNat ≤ t.toNat →
      CanReply { u with stOffset := t - scnt, stValid := true } r
        [t.truncate 32, BitVec.ofNat 32 (t.toNat / 2 ^ 32)] →
      Completes (.setSecureTime r) s fun w =>
        Replied r 0 [t.truncate 32, BitVec.ofNat 32 (t.toNat / 2 ^ 32)] noDetail w ∧ w.stValid = true ∧
        w.stNow = t) ∧
    (u.stValid = true → t.toNat < u.stNow.toNat → Replies (.setSecureTime r) r s u 0x63)) ∧
  (∀ (r x : ShepReq) (s u : State) slot t, imageParam x = some (slot, t) →
    (Enters { op := 0x0900, a := s.imageOnly, n := false, sec := false, words := some 2, pbuf := true } r x s u →
      (u.runningSlot t = (if h : slot < 2 then some ⟨slot, h⟩ else none) → slot < 2 →
        Replies (.imageWrite r) r s u 0x5A) ∧
      (∀ b u1, (∀ y, u.runningSlot t = some y → y.val ≠ slot) → u.pbufBytes x = .ok b u1 →
        Completes (.imageWrite r) s fun w => Replied r 0 [] noDetail w ∧
          SMap.get [] w.shep.images (2 * slot + t) =
            putBytes (SMap.get [] u1.shep.images (2 * slot + t)) (param x 1).toNat b)) ∧
    (Enters { op := 0x0901, n := false, sec := false, words := some 1, reply := 8 } r x s u →
      (∀ y, u.flashImage slot t = .ok y → Replies (.imageVerify r) r s u 0
        [y.ver, BitVec.ofNat 32 (y.svn.toNat + y.key * 2 ^ 8)]) ∧
      (∀ e, u.flashImage slot t = .error e → Replies (.imageVerify r) r s u e)) ∧
    (Enters { op := 0x0902, n := false, sec := false, words := some 1 } r x s u →
      Completes (.imageActivate r) s fun w => Replied r 0 [] noDetail w ∧
        SMap.get 0 w.shep.active t = slot ∧ w.shep.images = u.shep.images ∧ Apart u w)) ∧
  (∀ (r x : ShepReq) (s u : State),
    Enters { op := 0x0903, a := false, n := false, sec := false, words := some 2 } r x s u →
    let i := (param x 0).toNat
    let svn := (param x 1).toNat
    i ≤ 2 → svn ≤ 64 →
    ((∀ y ∈ u.runningSvns i, svn ≤ y) → u.rollback i ≤ svn → Completes (.imageConfirm r) s fun w =>
      Replied r 0 [] noDetail w ∧ w.rollback i = svn ∧ Apart u w) ∧
    ((∃ y ∈ u.runningSvns i, y < svn) ∨ svn < u.rollback i → Replies (.imageConfirm r) r s u 0x59)) ∧
  (∀ (r x : ShepReq) (s u : State),
    Enters { op := 0x0904, a := false, n := false, sec := false, words := some 1, reply := 4 } r x s u →
    (param x 0).toNat < 2 → u.shep.standby = none →
    (∀ y, u.flashImage (param x 0).toNat 0 = .ok y → Completes (.fwSwitch r) s fun w =>
      w.shep.standby = some x ∧ w.shep.standbySlot = (param x 0).toNat ∧ w.shep.auditDone = false ∧
      w.shep.booted = u.shep.booted ∧ Apart u w) ∧
    (∀ e, u.flashImage (param x 0).toNat 0 = .error e → Replies (.fwSwitch r) r s u e)) ∧
  (∀ (r : ShepReq) (s : State) y, s.shep.standby = some r → s.shep.auditDone = true →
    s.shep.commit = none → s.restarting = false → hasRbuf r = false → s.shep.standbySlot < 2 →
    s.flashImage s.shep.standbySlot 0 = .ok y →
    Completes .switchGap s fun w => w.shep.standby = none ∧
      ((Replied r 0 [y.ver] noDetail w ∧ w.shep.fwVer = y.ver ∧
          w.shep.booted.map (·.val) = some s.shep.standbySlot) ∨
        (Replied r 0x58 [] noDetail w ∧ w.shep.fwVer = s.shep.fwVer ∧ w.shep.booted = s.shep.booted)))

/-- SNAP_CONFIG sets the world's period; SNAP_READ replies with the records that its world has not had and notes
them as given (R399, R496, R499). -/
def Sys2Proof.Claims.SnapshotCommandResults : Prop :=
  (∀ (r x : ShepReq) (s u : State), Enters { op := 0x0A00, a := false, words := some 1 } r x s u →
    let n := (param x 0).toNat
    (10 ≤ n → n ≤ 1000000 → Completes (.snapConfig r) s fun w => Replied r 0 [] noDetail w ∧
      SMap.get 1000000 w.snap.period (b2n (worldOf x)) = n ∧
      SMap.get 1000000 w.snap.period (b2n (!worldOf x)) = SMap.get 1000000 u.snap.period (b2n (!worldOf x)) ∧
      Apart u w) ∧
    (n < 10 ∨ 1000000 < n → Replies (.snapConfig r) r s u 0x03)) ∧
  (∀ (r x : ShepReq) (s u : State), let g := (param x 0).toNat
    Enters { op := 0x0A01, a := false, words := some 1, reply := (s.snapBytes r (param r 0).toNat).length
             rbuf := true } r x s u →
    g < 4 ∨ (0x10 ≤ g ∧ g < 0x1C) → u.replyBar x (u.snapBytes x g).length = none →
    let b := u.snapBytes x g
    let k := 256 * b2n (worldOf x) + g
    let top := (u.snapFor g (worldOf x)).foldl (fun n y => max n y.num) (SMap.get 0 u.snap.given k)
    Replies (.snapRead r) r s { u with snap := { u.snap with given := SMap.set 0 u.snap.given k top } } 0
      (words32 (b.length / 4) b))

/-! PCIe port A (R337 to R357) and the Fold (R358 to R388). -/

namespace Sys2Proof.Claims

/-- A message of kind `k` arrives at port A. -/
def AtPort (s : State) (m : Msg) (k : MsgKind) (u : State) : Prop :=
  m.kind = k ∧ m.dest = portAStation ∧ Arrives s m u ∧ u.shep.hold = false

/-- The host Pasture lets a request of the host window pass (R345). -/
def HostLets (u : State) (m : Msg) (p : Perm) : Prop :=
  m.src = shepStation ∨ m.src = mirrorStation ∨ u.passes portAStation 16 m.addr.toNat m.s m.pid p = true

/-- A function may issue for the request: its mapping names it, it is on with Bus Master Enable, and the port
is open (R344, R345). -/
def HostFor (u : State) (m : Msg) (f : Func) : Prop :=
  u.hostFn m = some f ∧ u.busMaster f = true ∧ u.fnOn f = true ∧ u.frozen = false ∧ u.perst = false

/-- An answer of kind `k` with data goes out to the sender of `m`. -/
def NcAnswer (m : Msg) (k : MsgKind) (data : Option Line) (u w : State) : Prop :=
  ∃ a, w.net = u.net ++ [a] ∧ a.kind = k ∧ a.dest = m.src ∧ a.src = m.dest ∧ a.txid = m.txid ∧
    a.epoch = m.epoch ∧ a.data = data

/-- The link is up and PERST_N high. -/
def LinkOn (s : State) : Prop := s.perst = false ∧ s.dlUp = true

/-- A completion for a function and tag is the last TLP sent to the host. -/
def Completed (s w : State) (f : Func) (tag : BitVec 10) (st : BitVec 3) (data : List Byte) : Prop :=
  ∃ x, w.pcie.sent = s.pcie.sent ++ [x] ∧ x.kind = .completion ∧ x.fn = f ∧ x.tag = tag ∧ x.status = st ∧
    x.data = data

end Sys2Proof.Claims

/-- A HostRd that passes goes to the host as a MRd under a free tag at the translated address and is answered by
the completion: data, NcErr for another status, NcPoison for EP; a HostWr goes as a MWr and is acknowledged at
once; a request that the Pasture passes and no function may issue, or that meets a frozen port, is answered NcErr
and counted. A read that waits too long is answered NcErr and counted. A completion that no read waits for is an
Unexpected Completion, unless the port is frozen (R344 to R346, R350, Table PCIE-7). -/
def Sys2Proof.Claims.HostWindowResults : Prop :=
  (∀ (m : Msg) (s u : State) f t, AtPort s m .hostRd u → HostLets u m (if m.fetch then .x else .r) →
    HostFor u m f → u.freeTag = some t → Completes (.hostRd m) s fun w =>
      w.pcie.outs = u.pcie.outs ++ [⟨t, f, m⟩] ∧ w.net = u.net ∧ Apart u w ∧
      ∃ x, w.pcie.sent = u.pcie.sent ++ [x] ∧ x.kind = .memRead ∧ x.fn = f ∧ x.tag = t ∧
        x.addr = BitVec.ofNat 64 (((u.cpGet64 (pcieAddr 0x018)).toNat / 4096 * 4096 + m.addr.toNat
          - 0x10000000000) % 2 ^ 64) ∧ x.bytes = Nat.min 64 m.bytes) ∧
  (∀ (m : Msg) (s u v : State) f, AtPort s m .hostWr u → HostLets u m .w → HostFor u m f →
    let lo := (maskSpan m.bmask).1
    let n := (maskSpan m.bmask).2
    let h := u.hostAddr (m.addr.toNat / 64 * 64 + lo)
    let bytes := ((natToBytes 64 (m.data.getD 0).toNat).drop lo).take n
    u.logMark f.val h n = some v → v.shep.hold = false →
    ((∀ x, v.pcie.sent.getLast? = some x → x.joins f m h bytes.length (v.maxPayload f) = false) →
      Completes (.hostWr m) s fun w => NcAnswer m .ncAck none v w ∧ w.mem = v.mem ∧
        ∃ x, w.pcie.sent = v.pcie.sent ++ [x] ∧ x.kind = .memWrite ∧ x.fn = f ∧ x.data = bytes ∧
          x.addr = BitVec.ofNat 64 h) ∧
    (∀ x, v.pcie.sent.getLast? = some x → x.joins f m h bytes.length (v.maxPayload f) = true →
      Completes (.hostWr m) s fun w => NcAnswer m .ncAck none v w ∧
        w.pcie.sent = v.pcie.sent.dropLast ++ [{ x with data := x.data ++ bytes }])) ∧
  (∀ f ∈ ([(.hostRd, .hostRd, .r), (.hostWr, .hostWr, .w)] : List ((Msg → Instr) × MsgKind × Perm)),
    ∀ (m : Msg) (s u : State), AtPort s m f.2.1 u → m.fetch = false → HostLets u m f.2.2 →
    (∀ g, u.hostFn m = some g → u.busMaster g = false ∨ u.fnOn g = false ∨ u.frozen = true ∨ u.perst = true) →
    Completes (f.1 m) s fun w => NcAnswer m .ncErr none u w ∧
      w.cpField (pcieAddr 0x014) 0 16 = satCount 16 (u.cpField (pcieAddr 0x014) 0 16) 1 ∧
      w.pcie = u.pcie ∧ Apart u w) ∧
  (∀ (t : Tlp) (s : State) o, LinkOn s → (s.pcie.outs.find? fun x => x.tag = t.tag) = some o →
    s.shep.hold = false →
    (t.status ≠ 0 → Completes (.completion t) s fun w =>
      NcAnswer o.msg .ncErr none s w ∧ w.pcie.outs = s.pcie.outs.erase o ∧ Apart s w) ∧
    (t.status = 0 → t.ep = false → Completes (.completion t) s fun w =>
      NcAnswer o.msg .ncData (some (Line.place (o.msg.addr.toNat % 64) (bytesToNat t.data))) s w ∧
      w.pcie.outs = s.pcie.outs.erase o ∧ Apart s w) ∧
    (t.status = 0 → t.ep = true → Completes (.completion t) s fun w =>
      (∃ a ∈ w.net, a.kind = .ncPoison ∧ a.dest = o.msg.src ∧ a.txid = o.msg.txid) ∧
      bit (w.cfg o.fn 0x104) 12 = true ∧ Apart s w)) ∧
  (∀ (t : Tlp) (s : State), LinkOn s → (∀ o ∈ s.pcie.outs, o.tag ≠ t.tag) →
    (s.frozen = true → exec (.completion t) s = .next s) ∧
    (s.frozen = false → Completes (.completion t) s fun w => bit (w.cfg pf 0x104) 16 = true ∧ Apart s w)) ∧
  (∀ (tag : BitVec 10) (s : State) o, (s.pcie.outs.find? fun x => x.tag = tag) = some o →
    s.shep.hold = false → Completes (.completionTimeout tag) s fun w =>
      (∃ a ∈ w.net, a.kind = .ncErr ∧ a.dest = o.msg.src ∧ a.txid = o.msg.txid) ∧
      w.cpField (pcieAddr 0x014) 16 16 = satCount 16 (s.cpField (pcieAddr 0x014) 16 16) 1 ∧
      bit (w.cfg o.fn 0x104) 14 = true ∧ Apart s w)

/-- A configuration request gets retry status before READY, UR for a function that does not exist; a read
completes with the word, a write sets the writable bits and clears the bits written 1 that a write clears. An
aperture read or write of one line becomes a RdOnce or WrUnique of the group's owner; one that no BAR names is
UR; a frozen port drops writes, answers reads UR, and counts both. A Vendor_Defined Type 0 message is UR (R341
to R343, R347, R348, R355, Table PCIE-4). -/
def Sys2Proof.Claims.InboundResults : Prop :=
  (∀ (t : Tlp) (s : State), LinkOn s → let off := t.addr.toNat % 4096 / 4 * 4
    (s.devReady = false → Completes (.configRequest t) s fun w =>
      Completed s w t.fn t.tag 2 [] ∧ w.pcie.cfg = s.pcie.cfg ∧ Apart s w) ∧
    (s.devReady = true → s.fnOn t.fn = true →
      (t.write = false → Completes (.configRequest t) s fun w =>
        Completed s w t.fn t.tag 0 (natToBytes 4 (s.cfgRead t.fn off).toNat) ∧ w.pcie.cfg = s.pcie.cfg ∧
        Apart s w) ∧
      (t.write = true → off ≠ 0x1A8 → off ≠ 0x078 → off ≠ 0x168 → Completes (.configRequest t) s fun w =>
        let b : Word32 := BitVec.ofNat 32 (bytesToNat t.data) &&& BitVec.ofNat 32 (maskOf 4 t.be)
        let m : Word32 := BitVec.ofNat 32 (cfgMask (t.fn.val = 0) off) &&& BitVec.ofNat 32 (maskOf 4 t.be)
        w.cfg t.fn off = ((s.cfg t.fn off &&& ~~~m) ||| (b &&& m)) &&&
          ~~~(b &&& BitVec.ofNat 32 (cfgW1c off)) ∧
        (∀ f o, (f, o / 4) ≠ (t.fn, off / 4) → o < 4096 → w.cfg f o = s.cfg f o) ∧
        (∃ x xs, w.pcie.sent = xs ++ [x] ∧ x.kind = .completion ∧ x.tag = t.tag ∧ x.status = 0) ∧
        Apart s w))) ∧
  (∀ (t : Tlp) (s : State), LinkOn s → s.frozen = true →
    (Completes (.memoryWrite t) s fun w => w.pcie = s.pcie ∧ Apart s w ∧
      w.cpField (pcieAddr 0x010) 0 16 = satCount 16 (s.cpField (pcieAddr 0x010) 0 16) 1) ∧
    (Completes (.memoryRead t) s fun w => Apart s w ∧
      (∃ x, w.pcie.sent = s.pcie.sent ++ [x] ∧ x.kind = .completion ∧ x.tag = t.tag ∧ x.status = 1) ∧
      w.cpField (pcieAddr 0x010) 16 16 = satCount 16 (s.cpField (pcieAddr 0x010) 16 16) 1)) ∧
  (∀ (t : Tlp) (s : State), LinkOn s → s.frozen = false → s.barOf t.addr.toNat = none →
    Completes (.memoryRead t) s fun w => bit (w.cfg pf 0x104) 20 = true ∧ Apart s w ∧
      ∃ x ∈ w.pcie.sent, x.kind = .completion ∧ x.tag = t.tag ∧ x.status = 1) ∧
  (∀ (t : Tlp) (s : State) f off base k, LinkOn s → s.frozen = false →
    s.barOf t.addr.toNat = some (f, true, off) → s.memOn f = true → s.imageOnly = false →
    s.aperture f = some base → bit (s.grpOwner f.val) 10 = true → s.pcie.inq = [] → s.pcie.posted = [] →
    s.freeTxid portAStation 2048 = some k →
    let pa := base + off
    let o := s.grpOwner f.val
    let asked := fun (kind : MsgKind) (w : State) => ∃ r, w.reqs = s.reqs ++ [r] ∧ r.msg.kind = kind ∧
      r.msg.dest = homeOfLine (pa / 64) ∧ r.msg.addr = BitVec.ofNat 48 (pa / 64 * 64) ∧
      r.msg.txid = BitVec.ofNat 14 k ∧ r.msg.s = bit o 9 ∧ r.msg.pid = o.extractLsb' 0 8
    (1 ≤ t.bytes → pa % 64 + t.bytes ≤ 64 → Completes (.memoryRead t) s fun w => asked .rdOnce w ∧
      w.pcie.reads = s.pcie.reads ++ [{ fn := f, tag := some t.tag, pa := pa, bytes := t.bytes
                                        left := [(BitVec.ofNat 14 k, pa / 64)] }] ∧ Apart s w) ∧
    (t.ep = false → t.data ≠ [] → pa % 64 + t.data.length ≤ 64 → Completes (.memoryWrite t) s fun w =>
      asked .wrUnique w ∧ w.pcie.posted = [BitVec.ofNat 14 k] ∧ Apart s w ∧
      ∃ r, w.reqs = s.reqs ++ [r] ∧ r.msg.data = some (Line.place (pa % 64) (bytesToNat t.data)) ∧
        r.msg.bmask = BitVec.ofNat 64 (t.be % 2 ^ t.data.length * 2 ^ (pa % 64)))) ∧
  (∀ (t : Tlp) (s : State),
    (s.hostOpen = true → t.msg = 1 → Completes (.messageTlp t) s fun w =>
      bit (w.cfg pf 0x104) 20 = true ∧ Apart s w) ∧
    (s.hostOpen = false ∨ t.msg ≠ 1 → exec (.messageTlp t) s = .next s))

/-- The loss of the link freezes the port with cause 3, resets its configuration, and what is inside the device is no
longer answered; PERST_N resets it without a
freeze; RELEASE ends a freeze once the link is up, no restart runs and no error that could freeze is logged,
else it sets REFUSED; an FLR raises GGEN of its groups and resets the function's configuration (R351 to R354,
R376, R377, Table PCIE-8). -/
def Sys2Proof.Claims.PortResetResults : Prop :=
  (∀ s : State,
    (s.dlUp = false → exec .dlDown s = .next s) ∧ (s.perst = true → exec .hotReset s = .next s) ∧
    ∀ i ∈ ([.dlDown, .hotReset] : List Instr),
      (s.dlUp = true → s.perst = false → s.frozen = false → Completes i s fun w =>
        w.frozen = true ∧ w.cpField (pcieAddr 0x00C) 1 3 = 3 ∧ w.dlUp = false ∧
        w.pcie.inq.length = s.pcie.inq.length ∧ (∀ r ∈ w.pcie.reads, r.tag = none) ∧ w.pcie.outs = [] ∧ (∀ f, w.cfg f 0x004 = 0x00100000) ∧ Apart s w)) ∧
  (∀ s : State, s.perst = false → s.dlUp = false → s.domState 56 = 0 → Completes .dlUp s fun w =>
    w.dlUp = true ∧ w.pcie = s.pcie ∧ w.frozen = s.frozen ∧ Apart s w) ∧
  (∀ s : State,
    (s.perst = false → s.isOff portAStation = false → Completes (.perstN false) s fun w =>
      w.perst = true ∧ w.dlUp = false ∧ w.frozen = false ∧ w.pcie.outs = []) ∧
    (s.perst = true → bit (s.cpGet (pwrAddr 0x44)) 3 = false →
      Completes (.perstN true) s fun w => w.perst = false ∧ w.pcie = s.pcie ∧ Apart s w)) ∧
  (∀ s : State, let a := pcieAddr 0x00C
    let left := ∃ e ∈ s.pcie.cfg, e.1 % 1024 = 0x104 / 4 ∧
      ∃ f : Func, f.val = e.1 / 1024 % 1025 ∧ e.2 &&& (s.cfg f 0x10C ||| s.cpGet (pcieAddr 0x008)) ≠ 0
    (s.frozen = false → exec .release s = .next s) ∧
    (s.frozen = true → s.dlUp = true → ¬ left → s.restarting = false → Completes .release s fun w =>
      w.frozen = false ∧ w.pcie.cfg = s.pcie.cfg ∧ Apart s w) ∧
    (s.frozen = true → s.dlUp = false ∨ left ∨ s.restarting = true → Completes .release s fun w =>
      w.frozen = true ∧ w.cpField a 10 1 = 1 ∧ w.pcie = s.pcie ∧ Apart s w)) ∧
  (∀ (f : Func) (s : State),
    (s.fnOn f = false → exec (.flr f) s = .next s) ∧
    (s.fnOn f = true → s.pcie.inq = [] → Completes (.flr f) s fun w =>
      (∀ g, g ≤ 1024 → f.val = 0 ∨ g = f.val →
        w.cpField (foldAddr (0x20000 + 4 * g)) 0 8 = (s.cpField (foldAddr (0x20000 + 4 * g)) 0 8 + 1) % 256) ∧
      w.cfg f 0x004 = 0x00100000 ∧ w.mem = s.mem))

namespace Sys2Proof.Claims

/-- A host write of a BAR0 register is performed at once: the link is up, nothing is frozen, no earlier request
waits, and the device sleeps in neither P2 nor P3 (R347, R348, R476). -/
def Bar0Open (s : State) (f : Func) : Prop :=
  LinkOn s ∧ s.frozen = false ∧ s.fnOn f = true ∧ s.memOn f = true ∧ s.imageOnly = false ∧
  s.pcie.inq = [] ∧ s.pcie.posted = [] ∧ s.powerState < 2 ∧ s.inTransit = false

/-- A queue that runs: VALID and ENABLE set, ERROR clear. -/
def QueueRuns (c : Line) : Prop := ctxValid c = true ∧ ctxEnable c = true ∧ ctxError c = false

/-- The queue has entered ERROR with a cause (R373). -/
def QueueErred (w : State) (q cause : Nat) : Prop :=
  ∃ c, ctxNow w q = some c ∧ ctxError c = true ∧ ctxF c 6 48 5 = cause

end Sys2Proof.Claims

/-- A host doorbell of a queue that runs moves SQ_TAIL or CQ_HEAD; one outside the ring is error 1 or 2; one for
no queue, or a queue that does not run, is dropped and counted. The admin queue's doorbells and ENABLE do the
same for it, and its commands take their place in the order of submission (R367, R373, R380, R398). A core's FOLD_DEVBELL of the owner moves WR_HEAD or DCR_TAIL; one with an
old GEN is counted and ignored, one of another owner is dropped (R368, R369). -/
def Sys2Proof.Claims.DoorbellResults : Prop :=
  (∀ (f : Func) (k : BitVec 14) (v : Word32) (s u : State) c, Bar0Open s f → k.toNat < 1024 →
    k.toNat < s.qCount f.val → let q := s.qBase f.val + k.toNat
    s.ctxOf q = some (c, u) → QueueRuns c →
    let n := ctxN c
    let tail := ctxF c 5 24 12
    (v.toNat < n → Completes (.sqTailDoorbell f k v) s fun w =>
      ctxNow w q = some (ctxSet c 5 12 12 v.toNat) ∧ Apart u w) ∧
    (n ≤ v.toNat → Completes (.sqTailDoorbell f k v) s fun w => QueueErred w q 1) ∧
    (v.toNat < n → ringDist n tail v.toNat ≤ ringDist n tail (ctxF c 5 36 12) →
      Completes (.cqHeadDoorbell f k v) s fun w =>
        ctxNow w q = some (ctxSet c 5 36 12 v.toNat) ∧ Apart u w) ∧
    (n ≤ v.toNat ∨ ringDist n tail (ctxF c 5 36 12) < ringDist n tail v.toNat →
      Completes (.cqHeadDoorbell f k v) s fun w => QueueErred w q 2)) ∧
  (∀ (f : Func) (k : BitVec 14) (v : Word32) (s : State), Bar0Open s f → k.toNat < 1024 →
    s.qCount f.val ≤ k.toNat → ∀ i ∈ ([.sqTailDoorbell f k v, .cqHeadDoorbell f k v] : List Instr),
      Completes i s fun w => w.fold = s.fold ∧ Apart s w ∧
        w.cpField (foldAddr 0x018) 0 16 = satCount 16 (s.cpField (foldAddr 0x018) 0 16) 1) ∧
  (∀ (v : Word32) (s : State), Bar0Open s pf → let a := s.fold.aq
    (a.on = true → a.error = false →
      (v.toNat < a.depth → Completes (.adminSqDoorbell v) s fun w =>
        w.fold.aq = { a with sqTail := v.toNat } ∧ Apart s w ∧
        (a.sqHead ≠ a.sqTail → w.shep.order =
          s.shep.order ++ List.replicate (ringDist a.depth v.toNat a.sqTail) .admin)) ∧
      (a.depth ≤ v.toNat → Completes (.adminSqDoorbell v) s fun w =>
        w.fold.aq = { a with error := true } ∧ Apart s w) ∧
      (v.toNat < a.depth → ringDist a.depth a.cqTail v.toNat ≤ ringDist a.depth a.cqTail a.cqHead →
        Completes (.adminCqDoorbell v) s fun w => w.fold.aq = { a with cqHead := v.toNat } ∧ Apart s w) ∧
      (a.depth ≤ v.toNat → Completes (.adminCqDoorbell v) s fun w =>
        w.fold.aq = { a with error := true } ∧ Apart s w)) ∧
    (a.on = false ∨ a.error = true → ∀ i ∈ ([.adminSqDoorbell v, .adminCqDoorbell v] : List Instr),
      Completes i s fun w => w.fold = s.fold ∧ Apart s w ∧
        w.cpField (foldAddr 0x018) 0 16 = satCount 16 (s.cpField (foldAddr 0x018) 0 16) 1) ∧
    (a.on = false → bit v 0 = true → Completes (.aqCfgWrite v) s fun w =>
      w.fold.aq.on = true ∧ w.fold.aq.ready = true ∧ w.fold.aq.gen = a.gen ∧ Apart s w) ∧
    (a.on = true → bit v 0 = false → Completes (.aqCfgWrite v) s fun w =>
      w.fold.aq.on = false ∧ w.fold.aq.ready = false ∧ w.fold.aq.gen = a.gen + 1 ∧ w.fold.aq.sqTail = 0 ∧
      w.fold.aq.lastSeq = 0 ∧ w.fold.aq.phase = true ∧ Apart s w)) ∧
  (∀ f ∈ ([(.workHead, true), (.dcrTail, false)] : List ((Word → Accessor → Instr) × Bool)),
    ∀ (x : Word) (who : Accessor) (s u : State) c, s.isOff foldStation = false → who.lvl ≠ 0 →
    s.ctxOf (field x 0 20) = some (c, u) →
    let q := field x 0 20
    let o := u.grpOwner (ctxF c 0 24 11)
    let owns := ctxValid c = true ∧ bit o 10 = true ∧ who.world = bit o 9 ∧ who.pid = o.extractLsb' 0 8
    let i := field x 24 12
    (owns → x.extractLsb' 36 8 = ctxGen c → ctxError c = false → field x 21 3 = 0 → field x 44 20 = 0 →
      (f.2 = true → ringDist (ctxN c) (ctxF c 5 0 12) i ≤ ringDist (ctxN c) (ctxF c 5 0 12) (ctxF c 6 0 12) →
        Completes (f.1 x who) s fun w => ctxNow w q = some (ctxSet c 6 0 12 i) ∧ Apart u w) ∧
      (f.2 = false → ringDist (ctxN c) i (ctxF c 6 12 12) ≤ ctxF c 6 36 12 →
        Completes (f.1 x who) s fun w => ctxNow w q = some (ctxSet c 6 24 12 i) ∧ Apart u w)) ∧
    (owns → x.extractLsb' 36 8 ≠ ctxGen c → Completes (f.1 x who) s fun w =>
      ctxNow w q = some (ctxSet c 7 0 16 (satCount 16 (ctxF c 7 0 16) 1)) ∧
      w.cpField (foldAddr 0x014) 0 16 = satCount 16 (u.cpField (foldAddr 0x014) 0 16) 1 ∧ Apart u w) ∧
    (¬ owns → Completes (f.1 x who) s fun w =>
      w.fold = u.fold ∧ w.cpField (foldAddr 0x018) 16 16 = satCount 16 (u.cpField (foldAddr 0x018) 16 16) 1 ∧
      Apart u w))

namespace Sys2Proof.Claims

/-- A request of the Fold for a queue is in flight under TXID `t`: its kind, ring slot and message. -/
def FoldAsked (w : State) (t q : Nat) (k : FoldKind) (slot : Nat) (kind : MsgKind) (addr : Nat) : Prop :=
  (∃ o, SMap.get none w.fold.ops t = some o ∧ o.qid.toNat = q ∧ o.kind = k ∧ o.slot = slot ∧
    o.void = false) ∧
  ∃ r ∈ w.reqs, r.msg.src = foldStation ∧ r.msg.txid = BitVec.ofNat 14 t ∧ r.msg.kind = kind ∧
    r.msg.addr = BitVec.ofNat 48 addr

end Sys2Proof.Claims

/-- The Fold fetches the next SQ slot of a queue that runs while there is room, moves SQ_HEAD and counts the
entry as outstanding; it reads the next DCR slot and moves DCR_HEAD; it writes the oldest released completion
to its CQ slot, with SQ_HEAD, PHASE and GGEN in it. Otherwise it does nothing. Answers that have come take effect
first (R237, R370, R371, R379, R385). -/
def Sys2Proof.Claims.QueueEngineResults : Prop :=
  ∀ (qid : Qid) (s u : State) c t, s.isOff foldStation = false → s.foldWork.ctxOf qid.toNat = some (c, u) →
    u.freeTxid foldStation 2048 = some t →
    let q := qid.toNat
    let n := ctxN c
    let g := ctxF c 0 24 11
    let head := ctxF c 5 0 12
    let room := QueueRuns c ∧ u.frozen = false ∧ u.fold.fetches q < 8 ∧ u.fold.inFlight (· == .fetch) < 512 ∧
      u.groupPaused g = false ∧ head ≠ ctxF c 5 12 12 ∧
      ctxF c 6 36 12 + ringDist n (ctxF c 5 24 12) (ctxF c 5 36 12) < n - 1 ∧
      ringDist n head (ctxF c 6 0 12) < n - 1
    ((∀ o ∈ u.fold.retry, o.qid.toNat ≠ q) →
      (room → Completes (.sqFetch qid) s fun w =>
        FoldAsked w t q .fetch head .hostRd (u.hostPa (ctxF c 1 12 52 * 4096 + 64 * head)) ∧
        ctxNow w q = some (ctxSet (ctxSet c 5 0 12 ((head + 1) % n)) 6 36 12 (ctxF c 6 36 12 + 1)) ∧
        w.mem = u.mem) ∧
      (¬ room → exec (.sqFetch qid) s = .next u)) ∧
    (let slot := ctxF c 6 12 12
     let a := ctxF c 4 12 36 * 4096 + 16 * slot
     ctxValid c = true → ctxError c = false → slot ≠ ctxF c 6 24 12 → u.fold.hasOp q .dcr = false →
     ctxF c 0 3 1 = 0 ∨ u.fold.holding < 16384 → s.restarting = false →
     u.fold.inFlight (fun k => k == .dcr || k == .work) < 1024 → Completes (.dcrRead qid) s fun w =>
       FoldAsked w t q .dcr slot .rdOnce (a / 64 * 64) ∧
       ctxNow w q = some (ctxSet c 6 12 12 ((slot + 1) % n)) ∧ w.mem = u.mem) ∧
    (∀ e, (u.fold.ready.find? fun x => x.qid.toNat = q) = some e → e.held = false → ctxError c = false →
      ctxEnable c = true → u.fold.hasOp q .cq = false → e.again = false ∨ u.frozen = false → Completes (.cqWrite qid) s fun w =>
        let slot := ctxF c 5 24 12
        let a := u.hostPa (ctxF c 2 12 52 * 4096 + 16 * slot)
        FoldAsked w t q .cq slot .hostWr a ∧ w.fold.ready = u.fold.ready ∧ w.mem = u.mem ∧
        ∃ r ∈ w.reqs, r.msg.txid = BitVec.ofNat 14 t ∧ r.msg.src = foldStation ∧
          r.msg.data = some (Line.place (a % 64)
            (cqEntry e.entry c (u.cpField (foldAddr (0x20000 + 4 * g)) 0 8)).toNat))

/-- The context port: READ shows the context in its data registers, the other operations change it; SWAP of a
VF's dirty-page log makes the other buffer active and keeps SWAPPING until the old one is written back, when the
count returns to 0 (R383, R388, Table FOLD-10). -/
def Sys2Proof.Claims.ContextPortResults : Prop :=
  (∀ f ∈ ([(.foldCtxpConfig, fun c d _ => ctxConfig c d), (.foldCtxpCreate, fun c d g => ctxCreate c d g),
      (.foldCtxpDelete, fun c _ _ => ctxSet c 0 0 1 0), (.foldCtxpReset, fun c _ _ => ctxReset c),
      (.foldCtxpEnable, fun c _ _ => ctxSet c 0 1 1 1), (.foldCtxpRestore, fun _ d _ => d)] :
      List ((Word32 → Instr) × (Line → Line → Nat → Line))),
    ∀ (x : Word32) (s u : State) c, s.isOff foldStation = false → s.ctxOf (field x 0 20) = some (c, u) →
      Completes (f.1 x) s fun w =>
        ctxNow w (field x 0 20) = some (f.2 c s.ctxpData ((u.groupOf (field x 0 20)).getD 0)) ∧ Apart u w) ∧
  (∀ (x : Word32) (s u : State) c, s.isOff foldStation = false → s.ctxOf (field x 0 20) = some (c, u) →
    Completes (.foldCtxpRead x) s fun w => w.fold = u.fold ∧ Apart u w ∧
      ∀ i < 16, w.cpGet (foldAddr (0x60040 + 4 * i)) = c.extractLsb' (32 * i) 32) ∧
  (∀ (f : Func) (s : State), f.val ≠ 0 → let a := logAddr f.val 0x18
    (s.cpField a 3 1 = 0 → Completes (.logSwap f) s fun w =>
      w.cpField a 1 1 = 1 - s.cpField a 1 1 ∧ w.cpField a 3 1 = 1 ∧ w.cpField a 0 1 = s.cpField a 0 1 ∧
      SMap.get 0 w.fold.oldCnt f.val = (s.cpGet (logAddr f.val 0x1C)).toNat ∧ Apart s w) ∧
    (s.cpField a 3 1 = 1 → exec (.logSwap f) s = .next s) ∧
    (s.cpField a 3 1 = 0 → exec (.logSwapDone f) s = .next s) ∧
    (∀ u, s.cpField a 3 1 = 1 → s.logFlush f.val (fun l => s.logBase f.val false / 64 ≤ l &&
        l < s.logBase f.val false / 64 + 2 ^ s.cpField a 8 5 / 512) = some u →
      Completes (.logSwapDone f) s fun w =>
        w.cpField a 3 1 = 0 ∧ w.cpGet (logAddr f.val 0x1C) = 0 ∧ w.mem = u.mem))

/-! Loupes (R501 to R505), test access (R506 to R508) and core debug (R510 to R512). -/

namespace Sys2Proof.Claims

/-- An operation of the debug register on a core: CORE_DEBUG is selected, and the session allows the core
(R508, R511). -/
def DbgOpen (s : State) (world : Bool) (lc : LC) : Prop :=
  s.tap.instr = 0x10 ∧ s.dbgAllowed world lc = true

/-- The core is halted by debug and holds no access. -/
def DbgRests (s : State) (lc : LC) : Prop := Halt.debug ∈ (s.core lc).halts ∧ (s.core lc).access = none

/-- The result and the data that the next capture shows. -/
def Captured (w : State) (r : BitVec 3) (x : Word) : Prop := w.tap.result = r ∧ w.tap.data = x

/-- The operations of Table OBS-11 for a world and a core. -/
def DbgOps (world : Bool) (lc : LC) (reg : BitVec 16) (x : Word) (i : Instr) : Prop :=
  i ∈ ([.dbgStatus world lc, .dbgHalt world lc, .dbgResume world lc, .dbgStep world lc,
    .dbgRdreg world lc reg, .dbgWrreg world lc reg x, .dbgSetaddr world lc x, .dbgRdmem world lc,
    .dbgWrmem world lc x] : List Instr)

end Sys2Proof.Claims

/-- CLEAR takes a Loupe's counters to 0, stops its trace and releases its slices; TRACE_EN takes the lowest free
run of slices and starts the trace, or sets NOSLICE; a read of a trace word moves RPTR on (R503 to R505). -/
def Sys2Proof.Claims.LoupeResults : Prop :=
  ∀ (k : Fin 44) (s : State), s.domState 60 ≠ 1 →
    let st := lpAddr k.val 0x2C
    (Completes (.lpClear k) s fun w =>
      w.cpGet64 (lpAddr k.val 0x40) = 0 ∧ w.cpGet64 (lpAddr k.val 0x48) = 0 ∧ w.cpField st 0 1 = 0 ∧
      w.cpField st 8 15 = 0 ∧ w.cpField (lpAddr k.val 0) 1 1 = 0 ∧ (w.loupe k.val).slices = 0 ∧
      w.trace = s.trace ∧ Apart s w) ∧
    (Completes (.traceEn k false) s fun w =>
      w.cpField (lpAddr k.val 0) 1 1 = 0 ∧ w.cpField st 0 1 = 0 ∧ w.loupes = s.loupes ∧ Apart s w) ∧
    (s.cpField (lpAddr k.val 0) 1 1 = 0 → s.cpField st 3 1 = 0 → (s.loupe k.val).slices = 0 →
      ∀ n, n = s.cpField (lpAddr k.val 0x28) 0 4 → 1 ≤ n → n ≤ 8 →
      (∀ f, s.freeSlices (loupeQuad k.val) n = some f → Completes (.traceEn k true) s fun w =>
        w.cpField (lpAddr k.val 0) 1 1 = 1 ∧ w.cpField st 0 1 = 1 ∧ w.cpField st 4 4 = f % 16 ∧
        (w.loupe k.val).slices = n ∧ Apart s w) ∧
      (s.freeSlices (loupeQuad k.val) n = none → Completes (.traceEn k true) s fun w =>
        w.cpField st 2 1 = 1 ∧ w.cpField (lpAddr k.val 0) 1 1 = 0 ∧ w.loupes = s.loupes ∧ Apart s w)) ∧
    Completes (.traceDataRead k) s fun w =>
      w.cpField (lpAddr k.val 0x30) 0 16 = (s.cpField (lpAddr k.val 0x30) 0 16 + 1) % 2 ^ 16 ∧
      w.trace = s.trace ∧ w.loupes = s.loupes ∧ Apart s w

/-- EXTEST and SAMPLE/PRELOAD load the boundary cells, IDCODE shows 0x1A2167AB, BYPASS selects the bypass bit;
IJTAG_ACCESS and CORE_DEBUG are selected only under a session with their scope, else they act as BYPASS
(R506 to R508). -/
def Sys2Proof.Claims.TapResults : Prop :=
  (∀ (cells : List Bool) (s : State),
    (Completes (.extest cells) s fun w => w.tap.instr = 0 ∧ w.tap.cells = cells ∧
      w.tap.sessions = s.tap.sessions ∧ w.cp = s.cp ∧ Apart s w) ∧
    (Completes (.samplePreload cells) s fun w => w.tap.instr = 1 ∧ w.tap.cells = cells ∧
      w.tap.sessions = s.tap.sessions ∧ w.cp = s.cp ∧ Apart s w)) ∧
  (∀ s : State,
    (Completes .idcode s fun w => w.tap.instr = 2 ∧ w.tap.data = 0x1A2167AB ∧ w.cp = s.cp ∧ Apart s w) ∧
    (Completes .bypass s fun w => w.tap.instr = 0xFF ∧ w.cp = s.cp ∧ Apart s w)) ∧
  (∀ (world : Bool) (s : State),
    (Completes (.ijtagAccess world) s fun w =>
      w.tap.instr = (if s.scopeOf world 2 then 0x20 else 0xFF) ∧ w.tap.sessions = s.tap.sessions ∧
      Apart s w) ∧
    (Completes (.coreDebug world) s fun w =>
      w.tap.instr = (if s.scopeOf world 0 || s.scopeOf world 1 then 0x10 else 0xFF) ∧
      w.tap.sessions = s.tap.sessions ∧ Apart s w))

/-- Without CORE_DEBUG an operation does nothing; on a core that the session does not allow it shows 1; one that
needs the core halted shows 2 while it runs. HALT and RESUME stop a core and let it go, STEP lets it do one
thing, RDREG and WRREG reach g1 to g31, the PC and cr.status, SETADDR sets the address of memory operations,
RDMEM and WRMEM load and store 8 bytes there as the core would and move it on (R510 to R512, Table OBS-11). -/
def Obligations.DebugResults : Prop :=
  (∀ (world : Bool) (lc : LC) (reg : BitVec 16) (x : Word) (i : Instr) (s : State), DbgOps world lc reg x i →
    (s.tap.instr ≠ 0x10 → exec i s = .next s) ∧
    (s.tap.instr = 0x10 → s.dbgAllowed world lc = false → Completes i s fun w => Captured w 1 0 ∧
      w.cp = s.cp ∧ Apart s w) ∧
    (DbgOpen s world lc → Halt.debug ∉ (s.core lc).halts →
      i ∈ ([.dbgStep world lc, .dbgRdreg world lc reg, .dbgWrreg world lc reg x, .dbgRdmem world lc,
        .dbgWrmem world lc x] : List Instr) → Completes i s fun w => Captured w 2 0 ∧ Apart s w)) ∧
  (∀ (world : Bool) (lc : LC) (s : State), DbgOpen s world lc →
    let c := s.core lc
    (Completes (.dbgStatus world lc) s fun w => Apart s w ∧ Captured w 0 (BitVec.ofNat 64
      ((if Halt.debug ∈ c.halts then 1 else 0) + c.level * 2 + (if c.world then 8 else 0)
        + c.pid.toNat * 2 ^ 4))) ∧
    (Completes (.dbgHalt world lc) s fun w => Captured w 0 0 ∧ Halt.debug ∈ (w.core lc).halts ∧
      (world, lc) ∈ w.tap.halted ∧ (w.core lc).pc = c.pc ∧ (w.core lc).g = c.g ∧ w.mem = s.mem) ∧
    ((world, lc) ∈ s.tap.halted → (!world, lc) ∉ s.tap.halted → Completes (.dbgResume world lc) s fun w =>
      Captured w 0 0 ∧ Halt.debug ∉ (w.core lc).halts ∧ (world, lc) ∉ w.tap.halted ∧
      (w.core lc).pc = c.pc ∧ (w.core lc).g = c.g ∧ w.mem = s.mem) ∧
    ((world, lc) ∉ s.tap.halted → Completes (.dbgResume world lc) s fun w => Captured w 2 0 ∧ Apart s w)) ∧
  (∀ (world : Bool) (lc : LC) (s : State), DbgOpen s world lc → DbgRests s lc →
    let c := s.core lc
    (c.step = false → Completes (.dbgStep world lc) s fun w => Captured w 0 0 ∧ (w.core lc).step = true ∧
      (w.core lc).pc = c.pc ∧ (w.core lc).g = c.g ∧ OnlyCore lc { s with tap := w.tap } w) ∧
    (∀ reg : BitVec 16, let n := reg.toNat
      Completes (.dbgRdreg world lc reg) s fun w => Apart s w ∧
        (1 ≤ n → n < 32 → Captured w 0 (c.settle.getG (BitVec.ofNat 5 n))) ∧
        (n = 32 → Captured w 0 c.settle.pc) ∧ (n = 33 → Captured w 0 c.settle.status) ∧
        (n = 0 ∨ 33 < n → Captured w 1 0)) ∧
    (∀ (reg : BitVec 16) (x : Word), let n := reg.toNat
      Completes (.dbgWrreg world lc reg x) s fun w => w.mem = s.mem ∧
        (∀ l, l ≠ lc → w.core l = s.core l) ∧
        (1 ≤ n → n < 32 → Captured w 0 0 ∧ (w.core lc).getG (BitVec.ofNat 5 n) = x) ∧
        (n = 32 → Captured w 0 0 ∧ (w.core lc).pc = x &&& ~~~3#64) ∧
        (n = 33 → Captured w 0 0 ∧ (w.core lc).status =
          if field x 0 2 = 3 then (x &&& 0xF) ||| 4 else x &&& 0xF) ∧
        (n = 0 ∨ 33 < n → Captured w 1 0 ∧ w.core lc = c))) ∧
  (∀ (world : Bool) (lc : LC) (a : Word) (s : State), DbgOpen s world lc →
    Completes (.dbgSetaddr world lc a) s fun w => Captured w 0 0 ∧ SMap.get 0 w.tap.addr lc.val = a ∧
      (∀ l, l ≠ lc.val → SMap.get 0 w.tap.addr l = SMap.get 0 s.tap.addr l) ∧ Apart s w) ∧
  (∀ (world : Bool) (lc : LC) (s u : State) k p ps x, DbgOpen s world lc → DbgRests s lc →
    s.asker lc = some k → s.halves k .load (s.dbgAddr lc) 8 = .ok (p :: ps) x u →
    let reads := fun (d : Line) (v : State) => Completes (.dbgRdmem world lc) s fun w =>
      Captured w 0 (BitVec.ofNat 64 (Line.bytes d (p.pa % 64) 8)) ∧
      SMap.get 0 w.tap.addr lc.val = v.dbgAddr lc + 8 ∧ (w.core lc).g = (v.core lc).g ∧
      (w.core lc).pc = (v.core lc).pc ∧ w.mem = v.mem
    (∀ d, SMap.get none (u.core lc).got (p.pa / 64) = some (.data d false) → reads d u) ∧
    (∀ d y v, SMap.get none (u.core lc).got (p.pa / 64) = none → (u.readPart k p).1 = .hit d false y v →
      reads d v)) ∧
  (∀ (world : Bool) (lc : LC) (data : Word) (s : State) k, DbgOpen s world lc → DbgRests s lc →
    s.asker lc = some k → (s.core lc).sb = [] →
    (∀ ps x u, s.tap.store = none → s.halves k .store (s.dbgAddr lc) 8 = .ok ps x u →
      (u.core lc).sb = [] → Completes (.dbgWrmem world lc data) s fun w =>
        w.tap.result = 4 ∧ w.tap.store = some (lc, (s.core lc).sbErr.length) ∧
        (w.core lc).sb.length = ps.length ∧ (w.core lc).pc = (u.core lc).pc) ∧
    (∀ n, s.tap.store = some (lc, n) → (s.core lc).sbErr.length ≤ n →
      Completes (.dbgWrmem world lc data) s fun w => Captured w 0 0 ∧ w.tap.store = none ∧
        SMap.get 0 w.tap.addr lc.val = s.dbgAddr lc + 8 ∧ (w.core lc).sbErr = (s.core lc).sbErr ∧
        w.mem = s.mem))

/-! The machine as a whole. -/

/-- Memory keeps its one canonical form: whatever command a step takes, if the bytes listed before it rise
strictly by address and none of them is the 0 of an unlisted byte, so do the bytes listed after it. -/
def Obligations.MemoryStaysCanonical : Prop :=
  ∀ s t : State, Safety.MemWf s → step s = .next t → Safety.MemWf t

/-- What reset leaves, by the spec's Reset columns: level M, the secure world and interrupts off in every
cr.status; the banked trap registers, the other control registers and the general registers 0; ACCEPT 0 in every
home, way 15 the reflection log and no scratch way on every die, memory controllers scrubbing every 200 us; the
divisors of the serial units; TB_NOW 0. The general and vector registers at 0, memory with no byte listed and the
machine held in reset are the model's own (assumptions 3, 4 and 5). -/
def Obligations.ResetValues : Prop :=
  (∀ lc, let c := State.reset.core lc
    c.status = 7 ∧ (∀ b, SMap.get 0 c.vbar b = 0 ∧ SMap.get 0 c.xsp b = 0 ∧ SMap.get 0 c.xlim b = 0) ∧
    c.s1base = 0 ∧ c.s2base = 0 ∧ c.part = 0 ∧ c.tclass = 0 ∧ c.vflags = 0 ∧ c.vctl = 0 ∧ c.sb = [] ∧
    c.run = .stopped ∧ (∀ r, c.getG r = 0 ∧ c.getV r = 0) ∧ ∀ p, c.getP p = 0) ∧
  (∀ q, State.reset.cpField (cpAddr (homeStation q) 0) 0 1 = 0 ∧
    State.reset.cpField (cpAddr (mcStation q) 0x080) 0 1 = 1 ∧
    State.reset.cpField (cpAddr (mcStation q) 0x080) 4 12 = 200) ∧
  (∀ d, State.reset.wayMode d = 0x1000) ∧
  (∀ i : Nat, (SMap.get ({} : Uart) State.reset.uarts i).ctl = 0x21E ∧
    (SMap.get ({} : I2c) State.reset.i2cs i).ctl = 0x9C3) ∧
  State.reset.tb = 0 ∧ State.reset.pending = [] ∧ State.reset.shep.inReset = true ∧ Safety.MemWf State.reset

/-- No command stops the machine: whatever the state, every command answers a next state. -/
def Obligations.EveryCommandAnswers : Prop :=
  ∀ (i : Instr) (s : State), Safety.Answers (exec i s)

/-- A command acts on everything but the queue: what waits behind it waits still, in its order. -/
def Obligations.CommandsLeaveTheQueue : Prop :=
  ∀ (i : Instr) (s t : State), exec i s = .next t → t.pending = s.pending

/-- Commands that end or begin the power of the always-on island, from which TB_NOW counts. -/
def Sys2Proof.Claims.islandPower : Instr → Bool
  | .vauxLoss => true
  | .vauxPowerUp => true
  | .supplyReset rail _ => rail.val = 5
  | _ => false

/-- TB_NOW counts from the always-on island's power-up: no other command turns it back. -/
def Obligations.TimeNeverTurnsBack : Prop :=
  ∀ (i : Instr) (s t : State), islandPower i = false → exec i s = .next t → s.tb ≤ t.tb

/-- A Pasture checker passes an access only if exactly one of its regions matches the access, and that region
lets its world in, names its partition or any partition, and grants what it asks; it refuses it otherwise. A
region matches if VALID = 1 and the 4 KiB granule lies between BASE and LIMIT inclusive. -/
def Obligations.PastureChecks : Prop :=
  ∀ (s : State) (st : Station) (n a : Nat) (world : Bool) (pid : BitVec 8) (p : Perm),
    s.pasture st n a world pid p = true ↔
      ∃ r, r < n ∧
        let word := fun (o : Nat) => s.cpGet (cpAddr st (0x1000 + 16 * r + o))
        let hits := fun (x : Nat) =>
          let w := fun (o : Nat) => s.cpGet (cpAddr st (0x1000 + 16 * x + o))
          bit (w 0) 0 = true ∧ field (w 8) 0 32 ≤ a / 4096 ∧ a / 4096 ≤ field (w 12) 0 32
        hits r ∧ (∀ x, x < n → x ≠ r → ¬ hits x) ∧
        bit (word 0) (if world then 4 else 5) = true ∧
        (bit (word 0) 6 = true ∨ ∃ i, i < 4 ∧ bit (word 0) (12 + i) = true ∧
          (word 4).extractLsb' (8 * i) 8 = pid) ∧
        bit (word 0) (match p with | .r => 1 | .w => 2 | .x => 3) = true

/-- What a program sees of a core: its registers, status, banks, store buffer and interrupt interface. -/
def Sys2Proof.Claims.SameProgram (c d : Core) : Prop :=
  d.run = c.run ∧ d.halts = c.halts ∧ d.inWait = c.inWait ∧ d.g = c.g ∧ d.v = c.v ∧ d.p = c.p ∧ d.pc = c.pc ∧
  d.status = c.status ∧ d.vbar = c.vbar ∧ d.xsp = c.xsp ∧ d.xlim = c.xlim ∧ d.s1base = c.s1base ∧
  d.s2base = c.s2base ∧ d.part = c.part ∧ d.tclass = c.tclass ∧ d.vflags = c.vflags ∧ d.vctl = c.vctl ∧
  d.sb = c.sb ∧ d.sbErr = c.sbErr ∧ d.access = c.access ∧ d.fence = c.fence ∧ d.cii = c.cii

/-- A fetch or a translation that succeeds at once changes caches, TLBs and counts only: what every program sees
of its core, memory, messages on their way, reference time and the queue stay. -/
def Obligations.FetchAndTranslationKeepState : Prop :=
  ∀ (s f : State) (k : Asker),
    (s.fetch k = .ok f ∨ ∃ acc lvl va pa mt ws walk, s.translate k acc lvl va = .ok pa mt ws walk f) →
    (∀ l, SameProgram (s.core l) (f.core l)) ∧ f.mem = s.mem ∧ f.poisLine = s.poisLine ∧
    f.poisWord = s.poisWord ∧ f.net = s.net ∧ f.reqs = s.reqs ∧ f.tb = s.tb ∧ f.pending = s.pending

/-- The operands that the encoding of a command admits: F32 or F64 elements where an operation takes only these,
and an assigned control register (Tables ISA-2, ISA-12 and ISA-13). -/
def Sys2Proof.Claims.Encodable : Instr → Prop
  | .vfadd _ _ _ _ _ et | .vfsub _ _ _ _ _ et | .vfmul _ _ _ _ _ et | .vfma _ _ _ _ _ et
  | .vfdiv _ _ _ _ _ et | .vfmin _ _ _ _ _ et | .vfmax _ _ _ _ _ et | .vfcmplt _ _ _ _ _ et
  | .vfcmpeq _ _ _ _ _ et => et ≤ 1
  | .vfsqrt _ _ _ _ et | .vrsum _ _ _ _ et => et ≤ 1
  | .crr _ _ n | .crw _ n _ => ∃ f ∈ crForms, f.n = n.toNat
  | _ => True

/-- The word of a core instruction stands for that instruction, with every operand, on the core that issues it;
and a word that stands for an instruction is that instruction's word, so that no two words stand for one and no
bit of a word is dropped (R89, R90, R91). -/
def Obligations.WordsAndInstructionsAgree : Prop :=
  (∀ (i : Instr) (w : Word32), wordOf i = some w → Encodable i → ∃ lc, instrOf lc w = some i) ∧
  (∀ (lc : LC) (w : Word32) (i : Instr), instrOf lc w = some i → wordOf i = some w)

/-! The statements that are made of several parts. -/

/-- The integer instructions write gd what their tables give and change nothing else. -/
def Obligations.IntegerResults : Prop :=
  IntegerRegisterResults ∧ IntegerImmediateResults ∧ IntegerCountResults

/-- Branches and jumps go where their table says and link where they link. -/
def Obligations.BranchAndJumpResults : Prop :=
  BranchResults ∧ JumpResults

/-- Integer vector operations, comparisons, moves and predicate operations; starts in V. -/
def Obligations.VectorIntegerAndMoveResults : Prop :=
  VectorIntegerResults ∧ VectorCompareResults ∧ VectorMoveResults ∧ VectorStartAndScratchReturn

/-- Floating-point vector operations, the tree sum, conversions and dot products; canonical NaNs. -/
def Obligations.VectorFloatResultsAndFlags : Prop :=
  VectorFloatResults ∧ VectorSumResult ∧ VectorConvertAndDotResults ∧ NanResultsAreCanonical

/-- What loads read and write, and the order in which their data is sought. -/
def Obligations.LoadResultsAndSources : Prop :=
  LoadResults ∧ LoadSources

/-- Stores, VST and DCL.Z enter the store buffer; VLD reads a line; memory and registers keep. -/
def Obligations.StoreResultsAndFrames : Prop :=
  StoreResults ∧ VectorMemoryResults

/-- A drain writes its entry's bytes and no other byte. -/
def Obligations.DrainResults : Prop :=
  DrainWritesScratch ∧ DrainWritesOwnedLine

/-- Far atomics and cache-line operations go to the home; prefetch and L1I operations. -/
def Obligations.AtomicAndLineOperationResults : Prop :=
  AtomicsGoHome ∧ LineOperationsGoHome ∧ PrefetchAndL1i

/-- Exception entry pushes the frame and enters the handler; STACK_LIMIT and the core that stops. -/
def Obligations.ExceptionEntryAndStackLimit : Prop :=
  ExceptionEntry ∧ StackLimit

/-- Calls, traps, STORE_BUS and interrupts enter the level and offset that their rules name. -/
def Obligations.CallsTrapsAndAsynchronousEntry : Prop :=
  CallsAndTraps ∧ AsynchronousEntry

/-- WAIT, the fences, the accounting windows, and errors in a core's arrays. -/
def Obligations.WaitFenceAndAccountingResults : Prop :=
  WaitResults ∧ FenceResults ∧ AccountingEvents ∧ ArrayErrorResults

/-- TLBI, its broadcast, and the locks of TLB entries. -/
def Obligations.TlbResults : Prop :=
  TlbiResults ∧ TlbiBroadcast ∧ TlbLockResults

/-- Offers, the deadline, messages, and the distributor's and interface's words. -/
def Obligations.InterruptDeliveryAndWords : Prop :=
  OfferResults ∧ DeadlineResults ∧ IntdMsgResults ∧ InterruptWordWrites

/-- CII_SGI, CII_EOI, and the serial units and GPIO pins. -/
def Obligations.SgiEoiAndPinResults : Prop :=
  SgiAndEoiResults ∧ PinResults

/-- The range engine: claims, launches, steps, refusals and completion. -/
def Obligations.RangeEngineResults : Prop :=
  RangeEngineClaims ∧ RangeEngineLaunch ∧ RangeEngineProgress

/-- What a home does with each request: refuse, queue, serve, or snoop the holders. -/
def Obligations.HomeRequestResults : Prop :=
  HomeRefusesAndQueues ∧ HomeServes ∧ HomeSnoops

/-- Evictions, snoop answers, timeouts and array errors at a home. -/
def Obligations.HomeCompletionResults : Prop :=
  HomeEvictions ∧ HomeAnswers ∧ HomeTimeout ∧ HomeErrorResults

/-- A die under a snoop, and what each answer and grant does to the core that waits. -/
def Obligations.DieAnswerResults : Prop :=
  SnoopResults ∧ AnswerResults ∧ GrantResults

/-- Accesses to scratch and devices from afar, interrupt messages and TLB broadcasts. -/
def Obligations.ScratchDeviceAndBroadcastResults : Prop :=
  ScratchResults ∧ DeviceAccessResults ∧ DistributorAndBroadcastResults

/-- Regulators admit and hold requests; measurement windows; effective guarantees. -/
def Obligations.RegulationResults : Prop :=
  RegulatorResults ∧ MeasurementResults ∧ GuaranteeResults

/-- Fill requests and writes enter a pseudo-channel's queues. -/
def Obligations.MemoryQueueResults : Prop :=
  FillRequestResults ∧ WriteRequestResults

/-- Which access a pseudo-channel issues, and what the data that returns does. -/
def Obligations.MemoryIssueResults : Prop :=
  IssueResults ∧ ReadDataResults

/-- Refresh, scrubbing, self-refresh and Keep. -/
def Obligations.RefreshScrubAndKeepResults : Prop :=
  RefreshResults ∧ ScrubResults ∧ SelfRefreshAndKeep

/-- The lasers and the bring-up of a site. -/
def Obligations.LaserAndBringUpResults : Prop :=
  LaserResults ∧ BringUpResults

/-- Frames, their repetition, error windows and the lanes of a Prism port. -/
def Obligations.PrismFrameAndLaneResults : Prop :=
  FrameResults ∧ ErrorWindowResults ∧ LaneResults

/-- Register writes over the control plane, and the frames of its rings. -/
def Obligations.ControlPlaneResults : Prop :=
  RegisterWriteResults ∧ RingResults

/-- Reports to the fault log, ring breaks, audits and snapshots. -/
def Obligations.ReportAndSnapshotResults : Prop :=
  ReportResults ∧ SnapshotResults

/-- Reflection windows and their replays; the coherent domain stop and its ways out. -/
def Obligations.ReflectionAndStopResults : Prop :=
  ReflectionResults ∧ StopResults

/-- The entry checks of every Shepherd command, and the mailboxes. -/
def Obligations.ShepherdEntryResults : Prop :=
  CommandEntry ∧ MailboxResults

/-- The Shepherd commands that inform, CP_READ and CP_WRITE, SNAP_CONFIG and SNAP_READ. -/
def Obligations.ShepherdInformationResults : Prop :=
  InformationResults ∧ RegisterCommandResults ∧ SnapshotCommandResults

/-- The stage of a committed set, and the hand-over of units. -/
def Obligations.StageAndHandOverResults : Prop :=
  StageResults ∧ HandOverResults

/-- The queue commands and the dirty-page log commands. -/
def Obligations.QueueAndDirtyLogCommandResults : Prop :=
  QueueCommandResults ∧ DirtyLogCommandResults

/-- The host window, and what port A does with the host's packets. -/
def Obligations.HostTrafficResults : Prop :=
  HostWindowResults ∧ InboundResults

/-- Port resets and freezes; doorbells of the host and of cores. -/
def Obligations.PortResetAndDoorbellResults : Prop :=
  PortResetResults ∧ DoorbellResults

/-- The Fold's queue engine and its context port. -/
def Obligations.FoldEngineResults : Prop :=
  QueueEngineResults ∧ ContextPortResults

/-- The Loupes and the TAP. -/
def Obligations.LoupeAndTapResults : Prop :=
  LoupeResults ∧ TapResults

/-- Messages that their station does not take, and the checks of flits. -/
def Obligations.FabricDeliveryResults : Prop :=
  MessagesNotTaken ∧ FlitCheckResults
end

