-- ==== Sys2Proof/Laws/SMap.lean ====
section
/-!
SUPPORT. The laws of sparse maps: a read after a write, and that writes keep the canonical form.
-/

namespace Sys2Proof.Machine

variable {α : Type}

@[simp] theorem SMap.get_nil (d : α) (k : Nat) : SMap.get d [] k = d := rfl

@[simp] theorem SMap.get_erase_self (d : α) (m : SMap α) (k : Nat) :
    SMap.get d (SMap.erase m k) k = d := by
  induction m with
  | nil => rfl
  | cons e t ih =>
    unfold SMap.erase
    by_cases h : e.1 = k <;> simp [h, SMap.get, ih]

theorem SMap.get_erase_of_ne (d : α) (m : SMap α) {k j : Nat} (h : j ≠ k) :
    SMap.get d (SMap.erase m k) j = SMap.get d m j := by
  induction m with
  | nil => rfl
  | cons e t ih =>
    unfold SMap.erase
    by_cases hk : e.1 = k
    · simp [hk, SMap.get, ih, Ne.symm h]
    · simp [hk, SMap.get, ih]

@[simp] theorem SMap.get_insert_self (d : α) (m : SMap α) (k : Nat) (v : α) :
    SMap.get d (SMap.insert m k v) k = v := by
  induction m with
  | nil => simp [SMap.insert, SMap.get]
  | cons e t ih =>
    unfold SMap.insert
    by_cases h : e.1 < k
    · have : e.1 ≠ k := Nat.ne_of_lt h
      simp [h, SMap.get, this, ih]
    · simp [h, SMap.get]

theorem SMap.get_insert_of_ne (d : α) (m : SMap α) {k j : Nat} (v : α) (h : j ≠ k) :
    SMap.get d (SMap.insert m k v) j = SMap.get d m j := by
  induction m with
  | nil => simp [SMap.insert, SMap.get, Ne.symm h]
  | cons e t ih =>
    unfold SMap.insert
    by_cases hl : e.1 < k
    · simp [hl, SMap.get, ih]
    · rw [if_neg hl]
      conv_lhs => unfold SMap.get
      simp only [Ne.symm h, if_false]
      exact SMap.get_erase_of_ne d (e :: t) h

variable [DecidableEq α]

/-- A read of the key just written gives the value written. -/
@[simp] theorem SMap.get_set_self (d : α) (m : SMap α) (k : Nat) (v : α) :
    SMap.get d (SMap.set d m k v) k = v := by
  unfold SMap.set
  by_cases h : v = d <;> simp [h]

/-- A write leaves every other key alone. -/
theorem SMap.get_set_of_ne (d : α) (m : SMap α) {k j : Nat} (v : α) (h : j ≠ k) :
    SMap.get d (SMap.set d m k v) j = SMap.get d m j := by
  unfold SMap.set
  by_cases hd : v = d
  · rw [if_pos hd]; exact SMap.get_erase_of_ne d m h
  · rw [if_neg hd]; exact SMap.get_insert_of_ne d m v h

theorem SMap.get_set (d : α) (m : SMap α) (k j : Nat) (v : α) :
    SMap.get d (SMap.set d m k v) j = if j = k then v else SMap.get d m j := by
  by_cases h : j = k
  · subst h; simp
  · simp [h, SMap.get_set_of_ne d m v h]

@[simp] theorem SMap.wf_nil (d : α) : SMap.wf d ([] : SMap α) = true := rfl

theorem SMap.mem_erase {m : SMap α} {k : Nat} {e : Nat × α} (h : e ∈ SMap.erase m k) :
    e ∈ m ∧ e.1 ≠ k := by
  induction m with
  | nil => simp [SMap.erase] at h
  | cons f t ih =>
    unfold SMap.erase at h
    by_cases hk : f.1 = k
    · rw [if_pos hk] at h
      exact ⟨List.mem_cons_of_mem _ (ih h).1, (ih h).2⟩
    · rw [if_neg hk] at h
      rcases List.mem_cons.1 h with rfl | h
      · exact ⟨List.mem_cons_self .., hk⟩
      · exact ⟨List.mem_cons_of_mem _ (ih h).1, (ih h).2⟩

theorem SMap.erase_wf (d : α) (m : SMap α) (k : Nat) (h : SMap.wf d m = true) :
    SMap.wf d (SMap.erase m k) = true := by
  induction m with
  | nil => rfl
  | cons e t ih =>
    simp only [SMap.wf, Bool.and_eq_true, decide_eq_true_eq, List.all_eq_true] at h
    obtain ⟨⟨h1, h2⟩, h3⟩ := h
    by_cases hk : e.1 = k
    · have : SMap.erase (e :: t) k = SMap.erase t k := by simp [SMap.erase, hk]
      rw [this]; exact ih h3
    · have : SMap.erase (e :: t) k = e :: SMap.erase t k := by simp [SMap.erase, hk]
      rw [this]
      simp only [SMap.wf, Bool.and_eq_true, decide_eq_true_eq, List.all_eq_true]
      exact ⟨⟨h1, fun f hf => h2 f (SMap.mem_erase hf).1⟩, ih h3⟩

theorem SMap.mem_insert {m : SMap α} {k : Nat} {v : α} {e : Nat × α}
    (h : e ∈ SMap.insert m k v) : e = (k, v) ∨ e ∈ m := by
  induction m with
  | nil => simpa [SMap.insert] using h
  | cons f t ih =>
    unfold SMap.insert at h
    by_cases hl : f.1 < k
    · rw [if_pos hl] at h
      rcases List.mem_cons.1 h with h | h
      · exact Or.inr (h ▸ List.mem_cons_self ..)
      · exact (ih h).imp id (List.mem_cons_of_mem _)
    · rw [if_neg hl] at h
      rcases List.mem_cons.1 h with h | h
      · exact Or.inl h
      · exact Or.inr (SMap.mem_erase h).1

theorem SMap.insert_wf (d : α) (m : SMap α) (k : Nat) (v : α) (hv : v ≠ d)
    (h : SMap.wf d m = true) : SMap.wf d (SMap.insert m k v) = true := by
  induction m with
  | nil => simp [SMap.insert, SMap.wf, hv]
  | cons e t ih =>
    have hw := h
    simp only [SMap.wf, Bool.and_eq_true, decide_eq_true_eq, List.all_eq_true] at h
    obtain ⟨⟨h1, h2⟩, h3⟩ := h
    unfold SMap.insert
    by_cases hl : e.1 < k
    · rw [if_pos hl]
      simp only [SMap.wf, Bool.and_eq_true, decide_eq_true_eq, List.all_eq_true]
      refine ⟨⟨h1, fun f hf => ?_⟩, ih h3⟩
      rcases SMap.mem_insert hf with rfl | hf
      · exact hl
      · exact h2 f hf
    · rw [if_neg hl]
      simp only [SMap.wf, Bool.and_eq_true, decide_eq_true_eq, List.all_eq_true]
      refine ⟨⟨hv, fun f hf => ?_⟩, SMap.erase_wf d _ k hw⟩
      obtain ⟨hm, hn⟩ := SMap.mem_erase hf
      rcases List.mem_cons.1 hm with rfl | hm
      · omega
      · have := h2 f hm; omega

/-- Every write keeps the canonical form. -/
theorem SMap.set_wf (d : α) (m : SMap α) (k : Nat) (v : α) (h : SMap.wf d m = true) :
    SMap.wf d (SMap.set d m k v) = true := by
  unfold SMap.set
  by_cases hv : v = d
  · rw [if_pos hv]; exact SMap.erase_wf d m k h
  · rw [if_neg hv]; exact SMap.insert_wf d m k v hv h

end Sys2Proof.Machine
end

