-- ==== Sys2Proof/Laws/Core.lean ====
section
/-!
SUPPORT. The laws of a core's registers and of the operations that count beats and retire: for each
operation, the fields of a core that it leaves as they were.
-/

namespace Sys2Proof.Machine

@[simp] theorem Core.setG_run (c : Core) (r : Reg) (x : Word) : (c.setG r x).run = c.run := by unfold Core.setG; split <;> rfl
@[simp] theorem Core.setG_halts (c : Core) (r : Reg) (x : Word) : (c.setG r x).halts = c.halts := by unfold Core.setG; split <;> rfl
@[simp] theorem Core.setG_inWait (c : Core) (r : Reg) (x : Word) : (c.setG r x).inWait = c.inWait := by unfold Core.setG; split <;> rfl
@[simp] theorem Core.setG_v (c : Core) (r : Reg) (x : Word) : (c.setG r x).v = c.v := by unfold Core.setG; split <;> rfl
@[simp] theorem Core.setG_p (c : Core) (r : Reg) (x : Word) : (c.setG r x).p = c.p := by unfold Core.setG; split <;> rfl
@[simp] theorem Core.setG_pc (c : Core) (r : Reg) (x : Word) : (c.setG r x).pc = c.pc := by unfold Core.setG; split <;> rfl
@[simp] theorem Core.setG_status (c : Core) (r : Reg) (x : Word) : (c.setG r x).status = c.status := by unfold Core.setG; split <;> rfl
@[simp] theorem Core.setG_vbar (c : Core) (r : Reg) (x : Word) : (c.setG r x).vbar = c.vbar := by unfold Core.setG; split <;> rfl
@[simp] theorem Core.setG_xsp (c : Core) (r : Reg) (x : Word) : (c.setG r x).xsp = c.xsp := by unfold Core.setG; split <;> rfl
@[simp] theorem Core.setG_xlim (c : Core) (r : Reg) (x : Word) : (c.setG r x).xlim = c.xlim := by unfold Core.setG; split <;> rfl
@[simp] theorem Core.setG_s1base (c : Core) (r : Reg) (x : Word) : (c.setG r x).s1base = c.s1base := by unfold Core.setG; split <;> rfl
@[simp] theorem Core.setG_s2base (c : Core) (r : Reg) (x : Word) : (c.setG r x).s2base = c.s2base := by unfold Core.setG; split <;> rfl
@[simp] theorem Core.setG_part (c : Core) (r : Reg) (x : Word) : (c.setG r x).part = c.part := by unfold Core.setG; split <;> rfl
@[simp] theorem Core.setG_tclass (c : Core) (r : Reg) (x : Word) : (c.setG r x).tclass = c.tclass := by unfold Core.setG; split <;> rfl
@[simp] theorem Core.setG_vflags (c : Core) (r : Reg) (x : Word) : (c.setG r x).vflags = c.vflags := by unfold Core.setG; split <;> rfl
@[simp] theorem Core.setG_vctl (c : Core) (r : Reg) (x : Word) : (c.setG r x).vctl = c.vctl := by unfold Core.setG; split <;> rfl
@[simp] theorem Core.setG_sb (c : Core) (r : Reg) (x : Word) : (c.setG r x).sb = c.sb := by unfold Core.setG; split <;> rfl
@[simp] theorem Core.setG_sbErr (c : Core) (r : Reg) (x : Word) : (c.setG r x).sbErr = c.sbErr := by unfold Core.setG; split <;> rfl
@[simp] theorem Core.setG_access (c : Core) (r : Reg) (x : Word) : (c.setG r x).access = c.access := by unfold Core.setG; split <;> rfl
@[simp] theorem Core.setG_got (c : Core) (r : Reg) (x : Word) : (c.setG r x).got = c.got := by unfold Core.setG; split <;> rfl
@[simp] theorem Core.setG_pfq (c : Core) (r : Reg) (x : Word) : (c.setG r x).pfq = c.pfq := by unfold Core.setG; split <;> rfl
@[simp] theorem Core.setG_fence (c : Core) (r : Reg) (x : Word) : (c.setG r x).fence = c.fence := by unfold Core.setG; split <;> rfl
@[simp] theorem Core.setG_beats (c : Core) (r : Reg) (x : Word) : (c.setG r x).beats = c.beats := by unfold Core.setG; split <;> rfl
@[simp] theorem Core.setG_tlbs (c : Core) (r : Reg) (x : Word) : (c.setG r x).tlbs = c.tlbs := by unfold Core.setG; split <;> rfl
@[simp] theorem Core.setG_tlbSkipped (c : Core) (r : Reg) (x : Word) : (c.setG r x).tlbSkipped = c.tlbSkipped := by unfold Core.setG; split <;> rfl
@[simp] theorem Core.setG_tlbSkipFlag (c : Core) (r : Reg) (x : Word) : (c.setG r x).tlbSkipFlag = c.tlbSkipFlag := by unfold Core.setG; split <;> rfl
@[simp] theorem Core.setG_l1i (c : Core) (r : Reg) (x : Word) : (c.setG r x).l1i = c.l1i := by unfold Core.setG; split <;> rfl
@[simp] theorem Core.setG_l1d (c : Core) (r : Reg) (x : Word) : (c.setG r x).l1d = c.l1d := by unfold Core.setG; split <;> rfl
@[simp] theorem Core.setG_l1iPend (c : Core) (r : Reg) (x : Word) : (c.setG r x).l1iPend = c.l1iPend := by unfold Core.setG; split <;> rfl
@[simp] theorem Core.setG_acct (c : Core) (r : Reg) (x : Word) : (c.setG r x).acct = c.acct := by unfold Core.setG; split <;> rfl
@[simp] theorem Core.setG_cii (c : Core) (r : Reg) (x : Word) : (c.setG r x).cii = c.cii := by unfold Core.setG; split <;> rfl
@[simp] theorem Core.setG_pmu (c : Core) (r : Reg) (x : Word) : (c.setG r x).pmu = c.pmu := by unfold Core.setG; split <;> rfl
@[simp] theorem Core.setG_step (c : Core) (r : Reg) (x : Word) : (c.setG r x).step = c.step := by unfold Core.setG; split <;> rfl
@[simp] theorem Core.setG_win (c : Core) (r : Reg) (x : Word) : (c.setG r x).win = c.win := by unfold Core.setG; split <;> rfl
@[simp] theorem Core.setV_run (c : Core) (r : Reg) (x : Line) : (c.setV r x).run = c.run := rfl
@[simp] theorem Core.setV_halts (c : Core) (r : Reg) (x : Line) : (c.setV r x).halts = c.halts := rfl
@[simp] theorem Core.setV_inWait (c : Core) (r : Reg) (x : Line) : (c.setV r x).inWait = c.inWait := rfl
@[simp] theorem Core.setV_g (c : Core) (r : Reg) (x : Line) : (c.setV r x).g = c.g := rfl
@[simp] theorem Core.setV_p (c : Core) (r : Reg) (x : Line) : (c.setV r x).p = c.p := rfl
@[simp] theorem Core.setV_pc (c : Core) (r : Reg) (x : Line) : (c.setV r x).pc = c.pc := rfl
@[simp] theorem Core.setV_status (c : Core) (r : Reg) (x : Line) : (c.setV r x).status = c.status := rfl
@[simp] theorem Core.setV_vbar (c : Core) (r : Reg) (x : Line) : (c.setV r x).vbar = c.vbar := rfl
@[simp] theorem Core.setV_xsp (c : Core) (r : Reg) (x : Line) : (c.setV r x).xsp = c.xsp := rfl
@[simp] theorem Core.setV_xlim (c : Core) (r : Reg) (x : Line) : (c.setV r x).xlim = c.xlim := rfl
@[simp] theorem Core.setV_s1base (c : Core) (r : Reg) (x : Line) : (c.setV r x).s1base = c.s1base := rfl
@[simp] theorem Core.setV_s2base (c : Core) (r : Reg) (x : Line) : (c.setV r x).s2base = c.s2base := rfl
@[simp] theorem Core.setV_part (c : Core) (r : Reg) (x : Line) : (c.setV r x).part = c.part := rfl
@[simp] theorem Core.setV_tclass (c : Core) (r : Reg) (x : Line) : (c.setV r x).tclass = c.tclass := rfl
@[simp] theorem Core.setV_vflags (c : Core) (r : Reg) (x : Line) : (c.setV r x).vflags = c.vflags := rfl
@[simp] theorem Core.setV_vctl (c : Core) (r : Reg) (x : Line) : (c.setV r x).vctl = c.vctl := rfl
@[simp] theorem Core.setV_sb (c : Core) (r : Reg) (x : Line) : (c.setV r x).sb = c.sb := rfl
@[simp] theorem Core.setV_sbErr (c : Core) (r : Reg) (x : Line) : (c.setV r x).sbErr = c.sbErr := rfl
@[simp] theorem Core.setV_access (c : Core) (r : Reg) (x : Line) : (c.setV r x).access = c.access := rfl
@[simp] theorem Core.setV_got (c : Core) (r : Reg) (x : Line) : (c.setV r x).got = c.got := rfl
@[simp] theorem Core.setV_pfq (c : Core) (r : Reg) (x : Line) : (c.setV r x).pfq = c.pfq := rfl
@[simp] theorem Core.setV_fence (c : Core) (r : Reg) (x : Line) : (c.setV r x).fence = c.fence := rfl
@[simp] theorem Core.setV_beats (c : Core) (r : Reg) (x : Line) : (c.setV r x).beats = c.beats := rfl
@[simp] theorem Core.setV_tlbs (c : Core) (r : Reg) (x : Line) : (c.setV r x).tlbs = c.tlbs := rfl
@[simp] theorem Core.setV_tlbSkipped (c : Core) (r : Reg) (x : Line) : (c.setV r x).tlbSkipped = c.tlbSkipped := rfl
@[simp] theorem Core.setV_tlbSkipFlag (c : Core) (r : Reg) (x : Line) : (c.setV r x).tlbSkipFlag = c.tlbSkipFlag := rfl
@[simp] theorem Core.setV_l1i (c : Core) (r : Reg) (x : Line) : (c.setV r x).l1i = c.l1i := rfl
@[simp] theorem Core.setV_l1d (c : Core) (r : Reg) (x : Line) : (c.setV r x).l1d = c.l1d := rfl
@[simp] theorem Core.setV_l1iPend (c : Core) (r : Reg) (x : Line) : (c.setV r x).l1iPend = c.l1iPend := rfl
@[simp] theorem Core.setV_acct (c : Core) (r : Reg) (x : Line) : (c.setV r x).acct = c.acct := rfl
@[simp] theorem Core.setV_cii (c : Core) (r : Reg) (x : Line) : (c.setV r x).cii = c.cii := rfl
@[simp] theorem Core.setV_pmu (c : Core) (r : Reg) (x : Line) : (c.setV r x).pmu = c.pmu := rfl
@[simp] theorem Core.setV_step (c : Core) (r : Reg) (x : Line) : (c.setV r x).step = c.step := rfl
@[simp] theorem Core.setV_win (c : Core) (r : Reg) (x : Line) : (c.setV r x).win = c.win := rfl
@[simp] theorem Core.setP_run (c : Core) (r : PReg) (x : Word) : (c.setP r x).run = c.run := rfl
@[simp] theorem Core.setP_halts (c : Core) (r : PReg) (x : Word) : (c.setP r x).halts = c.halts := rfl
@[simp] theorem Core.setP_inWait (c : Core) (r : PReg) (x : Word) : (c.setP r x).inWait = c.inWait := rfl
@[simp] theorem Core.setP_g (c : Core) (r : PReg) (x : Word) : (c.setP r x).g = c.g := rfl
@[simp] theorem Core.setP_v (c : Core) (r : PReg) (x : Word) : (c.setP r x).v = c.v := rfl
@[simp] theorem Core.setP_pc (c : Core) (r : PReg) (x : Word) : (c.setP r x).pc = c.pc := rfl
@[simp] theorem Core.setP_status (c : Core) (r : PReg) (x : Word) : (c.setP r x).status = c.status := rfl
@[simp] theorem Core.setP_vbar (c : Core) (r : PReg) (x : Word) : (c.setP r x).vbar = c.vbar := rfl
@[simp] theorem Core.setP_xsp (c : Core) (r : PReg) (x : Word) : (c.setP r x).xsp = c.xsp := rfl
@[simp] theorem Core.setP_xlim (c : Core) (r : PReg) (x : Word) : (c.setP r x).xlim = c.xlim := rfl
@[simp] theorem Core.setP_s1base (c : Core) (r : PReg) (x : Word) : (c.setP r x).s1base = c.s1base := rfl
@[simp] theorem Core.setP_s2base (c : Core) (r : PReg) (x : Word) : (c.setP r x).s2base = c.s2base := rfl
@[simp] theorem Core.setP_part (c : Core) (r : PReg) (x : Word) : (c.setP r x).part = c.part := rfl
@[simp] theorem Core.setP_tclass (c : Core) (r : PReg) (x : Word) : (c.setP r x).tclass = c.tclass := rfl
@[simp] theorem Core.setP_vflags (c : Core) (r : PReg) (x : Word) : (c.setP r x).vflags = c.vflags := rfl
@[simp] theorem Core.setP_vctl (c : Core) (r : PReg) (x : Word) : (c.setP r x).vctl = c.vctl := rfl
@[simp] theorem Core.setP_sb (c : Core) (r : PReg) (x : Word) : (c.setP r x).sb = c.sb := rfl
@[simp] theorem Core.setP_sbErr (c : Core) (r : PReg) (x : Word) : (c.setP r x).sbErr = c.sbErr := rfl
@[simp] theorem Core.setP_access (c : Core) (r : PReg) (x : Word) : (c.setP r x).access = c.access := rfl
@[simp] theorem Core.setP_got (c : Core) (r : PReg) (x : Word) : (c.setP r x).got = c.got := rfl
@[simp] theorem Core.setP_pfq (c : Core) (r : PReg) (x : Word) : (c.setP r x).pfq = c.pfq := rfl
@[simp] theorem Core.setP_fence (c : Core) (r : PReg) (x : Word) : (c.setP r x).fence = c.fence := rfl
@[simp] theorem Core.setP_beats (c : Core) (r : PReg) (x : Word) : (c.setP r x).beats = c.beats := rfl
@[simp] theorem Core.setP_tlbs (c : Core) (r : PReg) (x : Word) : (c.setP r x).tlbs = c.tlbs := rfl
@[simp] theorem Core.setP_tlbSkipped (c : Core) (r : PReg) (x : Word) : (c.setP r x).tlbSkipped = c.tlbSkipped := rfl
@[simp] theorem Core.setP_tlbSkipFlag (c : Core) (r : PReg) (x : Word) : (c.setP r x).tlbSkipFlag = c.tlbSkipFlag := rfl
@[simp] theorem Core.setP_l1i (c : Core) (r : PReg) (x : Word) : (c.setP r x).l1i = c.l1i := rfl
@[simp] theorem Core.setP_l1d (c : Core) (r : PReg) (x : Word) : (c.setP r x).l1d = c.l1d := rfl
@[simp] theorem Core.setP_l1iPend (c : Core) (r : PReg) (x : Word) : (c.setP r x).l1iPend = c.l1iPend := rfl
@[simp] theorem Core.setP_acct (c : Core) (r : PReg) (x : Word) : (c.setP r x).acct = c.acct := rfl
@[simp] theorem Core.setP_cii (c : Core) (r : PReg) (x : Word) : (c.setP r x).cii = c.cii := rfl
@[simp] theorem Core.setP_pmu (c : Core) (r : PReg) (x : Word) : (c.setP r x).pmu = c.pmu := rfl
@[simp] theorem Core.setP_step (c : Core) (r : PReg) (x : Word) : (c.setP r x).step = c.step := rfl
@[simp] theorem Core.setP_win (c : Core) (r : PReg) (x : Word) : (c.setP r x).win = c.win := rfl
@[simp] theorem Core.count_run (c : Core) (ev n : Nat) : (c.count ev n).run = c.run := by unfold Core.count; split <;> rfl
@[simp] theorem Core.count_halts (c : Core) (ev n : Nat) : (c.count ev n).halts = c.halts := by unfold Core.count; split <;> rfl
@[simp] theorem Core.count_inWait (c : Core) (ev n : Nat) : (c.count ev n).inWait = c.inWait := by unfold Core.count; split <;> rfl
@[simp] theorem Core.count_g (c : Core) (ev n : Nat) : (c.count ev n).g = c.g := by unfold Core.count; split <;> rfl
@[simp] theorem Core.count_v (c : Core) (ev n : Nat) : (c.count ev n).v = c.v := by unfold Core.count; split <;> rfl
@[simp] theorem Core.count_p (c : Core) (ev n : Nat) : (c.count ev n).p = c.p := by unfold Core.count; split <;> rfl
@[simp] theorem Core.count_pc (c : Core) (ev n : Nat) : (c.count ev n).pc = c.pc := by unfold Core.count; split <;> rfl
@[simp] theorem Core.count_status (c : Core) (ev n : Nat) : (c.count ev n).status = c.status := by unfold Core.count; split <;> rfl
@[simp] theorem Core.count_vbar (c : Core) (ev n : Nat) : (c.count ev n).vbar = c.vbar := by unfold Core.count; split <;> rfl
@[simp] theorem Core.count_xsp (c : Core) (ev n : Nat) : (c.count ev n).xsp = c.xsp := by unfold Core.count; split <;> rfl
@[simp] theorem Core.count_xlim (c : Core) (ev n : Nat) : (c.count ev n).xlim = c.xlim := by unfold Core.count; split <;> rfl
@[simp] theorem Core.count_s1base (c : Core) (ev n : Nat) : (c.count ev n).s1base = c.s1base := by unfold Core.count; split <;> rfl
@[simp] theorem Core.count_s2base (c : Core) (ev n : Nat) : (c.count ev n).s2base = c.s2base := by unfold Core.count; split <;> rfl
@[simp] theorem Core.count_part (c : Core) (ev n : Nat) : (c.count ev n).part = c.part := by unfold Core.count; split <;> rfl
@[simp] theorem Core.count_tclass (c : Core) (ev n : Nat) : (c.count ev n).tclass = c.tclass := by unfold Core.count; split <;> rfl
@[simp] theorem Core.count_vflags (c : Core) (ev n : Nat) : (c.count ev n).vflags = c.vflags := by unfold Core.count; split <;> rfl
@[simp] theorem Core.count_vctl (c : Core) (ev n : Nat) : (c.count ev n).vctl = c.vctl := by unfold Core.count; split <;> rfl
@[simp] theorem Core.count_sb (c : Core) (ev n : Nat) : (c.count ev n).sb = c.sb := by unfold Core.count; split <;> rfl
@[simp] theorem Core.count_sbErr (c : Core) (ev n : Nat) : (c.count ev n).sbErr = c.sbErr := by unfold Core.count; split <;> rfl
@[simp] theorem Core.count_access (c : Core) (ev n : Nat) : (c.count ev n).access = c.access := by unfold Core.count; split <;> rfl
@[simp] theorem Core.count_got (c : Core) (ev n : Nat) : (c.count ev n).got = c.got := by unfold Core.count; split <;> rfl
@[simp] theorem Core.count_pfq (c : Core) (ev n : Nat) : (c.count ev n).pfq = c.pfq := by unfold Core.count; split <;> rfl
@[simp] theorem Core.count_fence (c : Core) (ev n : Nat) : (c.count ev n).fence = c.fence := by unfold Core.count; split <;> rfl
@[simp] theorem Core.count_beats (c : Core) (ev n : Nat) : (c.count ev n).beats = c.beats := by unfold Core.count; split <;> rfl
@[simp] theorem Core.count_tlbs (c : Core) (ev n : Nat) : (c.count ev n).tlbs = c.tlbs := by unfold Core.count; split <;> rfl
@[simp] theorem Core.count_tlbSkipped (c : Core) (ev n : Nat) : (c.count ev n).tlbSkipped = c.tlbSkipped := by unfold Core.count; split <;> rfl
@[simp] theorem Core.count_tlbSkipFlag (c : Core) (ev n : Nat) : (c.count ev n).tlbSkipFlag = c.tlbSkipFlag := by unfold Core.count; split <;> rfl
@[simp] theorem Core.count_l1i (c : Core) (ev n : Nat) : (c.count ev n).l1i = c.l1i := by unfold Core.count; split <;> rfl
@[simp] theorem Core.count_l1d (c : Core) (ev n : Nat) : (c.count ev n).l1d = c.l1d := by unfold Core.count; split <;> rfl
@[simp] theorem Core.count_l1iPend (c : Core) (ev n : Nat) : (c.count ev n).l1iPend = c.l1iPend := by unfold Core.count; split <;> rfl
@[simp] theorem Core.count_acct (c : Core) (ev n : Nat) : (c.count ev n).acct = c.acct := by unfold Core.count; split <;> rfl
@[simp] theorem Core.count_cii (c : Core) (ev n : Nat) : (c.count ev n).cii = c.cii := by unfold Core.count; split <;> rfl
@[simp] theorem Core.count_step (c : Core) (ev n : Nat) : (c.count ev n).step = c.step := by unfold Core.count; split <;> rfl
@[simp] theorem Core.count_win (c : Core) (ev n : Nat) : (c.count ev n).win = c.win := by unfold Core.count; split <;> rfl
@[simp] theorem Core.charge_run (c : Core) (ib sb l1 pfq walk : Nat) : (c.charge ib sb l1 pfq walk).run = c.run := by simp only [Core.charge, Core.count_run]
@[simp] theorem Core.charge_halts (c : Core) (ib sb l1 pfq walk : Nat) : (c.charge ib sb l1 pfq walk).halts = c.halts := by simp only [Core.charge, Core.count_halts]
@[simp] theorem Core.charge_inWait (c : Core) (ib sb l1 pfq walk : Nat) : (c.charge ib sb l1 pfq walk).inWait = c.inWait := by simp only [Core.charge, Core.count_inWait]
@[simp] theorem Core.charge_g (c : Core) (ib sb l1 pfq walk : Nat) : (c.charge ib sb l1 pfq walk).g = c.g := by simp only [Core.charge, Core.count_g]
@[simp] theorem Core.charge_v (c : Core) (ib sb l1 pfq walk : Nat) : (c.charge ib sb l1 pfq walk).v = c.v := by simp only [Core.charge, Core.count_v]
@[simp] theorem Core.charge_p (c : Core) (ib sb l1 pfq walk : Nat) : (c.charge ib sb l1 pfq walk).p = c.p := by simp only [Core.charge, Core.count_p]
@[simp] theorem Core.charge_pc (c : Core) (ib sb l1 pfq walk : Nat) : (c.charge ib sb l1 pfq walk).pc = c.pc := by simp only [Core.charge, Core.count_pc]
@[simp] theorem Core.charge_status (c : Core) (ib sb l1 pfq walk : Nat) : (c.charge ib sb l1 pfq walk).status = c.status := by simp only [Core.charge, Core.count_status]
@[simp] theorem Core.charge_vbar (c : Core) (ib sb l1 pfq walk : Nat) : (c.charge ib sb l1 pfq walk).vbar = c.vbar := by simp only [Core.charge, Core.count_vbar]
@[simp] theorem Core.charge_xsp (c : Core) (ib sb l1 pfq walk : Nat) : (c.charge ib sb l1 pfq walk).xsp = c.xsp := by simp only [Core.charge, Core.count_xsp]
@[simp] theorem Core.charge_xlim (c : Core) (ib sb l1 pfq walk : Nat) : (c.charge ib sb l1 pfq walk).xlim = c.xlim := by simp only [Core.charge, Core.count_xlim]
@[simp] theorem Core.charge_s1base (c : Core) (ib sb l1 pfq walk : Nat) : (c.charge ib sb l1 pfq walk).s1base = c.s1base := by simp only [Core.charge, Core.count_s1base]
@[simp] theorem Core.charge_s2base (c : Core) (ib sb l1 pfq walk : Nat) : (c.charge ib sb l1 pfq walk).s2base = c.s2base := by simp only [Core.charge, Core.count_s2base]
@[simp] theorem Core.charge_part (c : Core) (ib sb l1 pfq walk : Nat) : (c.charge ib sb l1 pfq walk).part = c.part := by simp only [Core.charge, Core.count_part]
@[simp] theorem Core.charge_tclass (c : Core) (ib sb l1 pfq walk : Nat) : (c.charge ib sb l1 pfq walk).tclass = c.tclass := by simp only [Core.charge, Core.count_tclass]
@[simp] theorem Core.charge_vflags (c : Core) (ib sb l1 pfq walk : Nat) : (c.charge ib sb l1 pfq walk).vflags = c.vflags := by simp only [Core.charge, Core.count_vflags]
@[simp] theorem Core.charge_vctl (c : Core) (ib sb l1 pfq walk : Nat) : (c.charge ib sb l1 pfq walk).vctl = c.vctl := by simp only [Core.charge, Core.count_vctl]
@[simp] theorem Core.charge_sb (c : Core) (ib sb l1 pfq walk : Nat) : (c.charge ib sb l1 pfq walk).sb = c.sb := by simp only [Core.charge, Core.count_sb]
@[simp] theorem Core.charge_sbErr (c : Core) (ib sb l1 pfq walk : Nat) : (c.charge ib sb l1 pfq walk).sbErr = c.sbErr := by simp only [Core.charge, Core.count_sbErr]
@[simp] theorem Core.charge_access (c : Core) (ib sb l1 pfq walk : Nat) : (c.charge ib sb l1 pfq walk).access = c.access := by simp only [Core.charge, Core.count_access]
@[simp] theorem Core.charge_got (c : Core) (ib sb l1 pfq walk : Nat) : (c.charge ib sb l1 pfq walk).got = c.got := by simp only [Core.charge, Core.count_got]
@[simp] theorem Core.charge_pfq (c : Core) (ib sb l1 pfq walk : Nat) : (c.charge ib sb l1 pfq walk).pfq = c.pfq := by simp only [Core.charge, Core.count_pfq]
@[simp] theorem Core.charge_fence (c : Core) (ib sb l1 pfq walk : Nat) : (c.charge ib sb l1 pfq walk).fence = c.fence := by simp only [Core.charge, Core.count_fence]
@[simp] theorem Core.charge_tlbs (c : Core) (ib sb l1 pfq walk : Nat) : (c.charge ib sb l1 pfq walk).tlbs = c.tlbs := by simp only [Core.charge, Core.count_tlbs]
@[simp] theorem Core.charge_tlbSkipped (c : Core) (ib sb l1 pfq walk : Nat) : (c.charge ib sb l1 pfq walk).tlbSkipped = c.tlbSkipped := by simp only [Core.charge, Core.count_tlbSkipped]
@[simp] theorem Core.charge_tlbSkipFlag (c : Core) (ib sb l1 pfq walk : Nat) : (c.charge ib sb l1 pfq walk).tlbSkipFlag = c.tlbSkipFlag := by simp only [Core.charge, Core.count_tlbSkipFlag]
@[simp] theorem Core.charge_l1i (c : Core) (ib sb l1 pfq walk : Nat) : (c.charge ib sb l1 pfq walk).l1i = c.l1i := by simp only [Core.charge, Core.count_l1i]
@[simp] theorem Core.charge_l1d (c : Core) (ib sb l1 pfq walk : Nat) : (c.charge ib sb l1 pfq walk).l1d = c.l1d := by simp only [Core.charge, Core.count_l1d]
@[simp] theorem Core.charge_l1iPend (c : Core) (ib sb l1 pfq walk : Nat) : (c.charge ib sb l1 pfq walk).l1iPend = c.l1iPend := by simp only [Core.charge, Core.count_l1iPend]
@[simp] theorem Core.charge_cii (c : Core) (ib sb l1 pfq walk : Nat) : (c.charge ib sb l1 pfq walk).cii = c.cii := by simp only [Core.charge, Core.count_cii]
@[simp] theorem Core.charge_step (c : Core) (ib sb l1 pfq walk : Nat) : (c.charge ib sb l1 pfq walk).step = c.step := by simp only [Core.charge, Core.count_step]
@[simp] theorem Core.charge_win (c : Core) (ib sb l1 pfq walk : Nat) : (c.charge ib sb l1 pfq walk).win = c.win := by simp only [Core.charge, Core.count_win]
@[simp] theorem Core.logRec_run (c : Core) (kind len : Nat) (data : List Word) : (c.logRec kind len data).run = c.run := by unfold Core.logRec; split <;> rfl
@[simp] theorem Core.logRec_halts (c : Core) (kind len : Nat) (data : List Word) : (c.logRec kind len data).halts = c.halts := by unfold Core.logRec; split <;> rfl
@[simp] theorem Core.logRec_inWait (c : Core) (kind len : Nat) (data : List Word) : (c.logRec kind len data).inWait = c.inWait := by unfold Core.logRec; split <;> rfl
@[simp] theorem Core.logRec_g (c : Core) (kind len : Nat) (data : List Word) : (c.logRec kind len data).g = c.g := by unfold Core.logRec; split <;> rfl
@[simp] theorem Core.logRec_v (c : Core) (kind len : Nat) (data : List Word) : (c.logRec kind len data).v = c.v := by unfold Core.logRec; split <;> rfl
@[simp] theorem Core.logRec_p (c : Core) (kind len : Nat) (data : List Word) : (c.logRec kind len data).p = c.p := by unfold Core.logRec; split <;> rfl
@[simp] theorem Core.logRec_pc (c : Core) (kind len : Nat) (data : List Word) : (c.logRec kind len data).pc = c.pc := by unfold Core.logRec; split <;> rfl
@[simp] theorem Core.logRec_status (c : Core) (kind len : Nat) (data : List Word) : (c.logRec kind len data).status = c.status := by unfold Core.logRec; split <;> rfl
@[simp] theorem Core.logRec_vbar (c : Core) (kind len : Nat) (data : List Word) : (c.logRec kind len data).vbar = c.vbar := by unfold Core.logRec; split <;> rfl
@[simp] theorem Core.logRec_xsp (c : Core) (kind len : Nat) (data : List Word) : (c.logRec kind len data).xsp = c.xsp := by unfold Core.logRec; split <;> rfl
@[simp] theorem Core.logRec_xlim (c : Core) (kind len : Nat) (data : List Word) : (c.logRec kind len data).xlim = c.xlim := by unfold Core.logRec; split <;> rfl
@[simp] theorem Core.logRec_s1base (c : Core) (kind len : Nat) (data : List Word) : (c.logRec kind len data).s1base = c.s1base := by unfold Core.logRec; split <;> rfl
@[simp] theorem Core.logRec_s2base (c : Core) (kind len : Nat) (data : List Word) : (c.logRec kind len data).s2base = c.s2base := by unfold Core.logRec; split <;> rfl
@[simp] theorem Core.logRec_part (c : Core) (kind len : Nat) (data : List Word) : (c.logRec kind len data).part = c.part := by unfold Core.logRec; split <;> rfl
@[simp] theorem Core.logRec_tclass (c : Core) (kind len : Nat) (data : List Word) : (c.logRec kind len data).tclass = c.tclass := by unfold Core.logRec; split <;> rfl
@[simp] theorem Core.logRec_vflags (c : Core) (kind len : Nat) (data : List Word) : (c.logRec kind len data).vflags = c.vflags := by unfold Core.logRec; split <;> rfl
@[simp] theorem Core.logRec_vctl (c : Core) (kind len : Nat) (data : List Word) : (c.logRec kind len data).vctl = c.vctl := by unfold Core.logRec; split <;> rfl
@[simp] theorem Core.logRec_sb (c : Core) (kind len : Nat) (data : List Word) : (c.logRec kind len data).sb = c.sb := by unfold Core.logRec; split <;> rfl
@[simp] theorem Core.logRec_sbErr (c : Core) (kind len : Nat) (data : List Word) : (c.logRec kind len data).sbErr = c.sbErr := by unfold Core.logRec; split <;> rfl
@[simp] theorem Core.logRec_access (c : Core) (kind len : Nat) (data : List Word) : (c.logRec kind len data).access = c.access := by unfold Core.logRec; split <;> rfl
@[simp] theorem Core.logRec_got (c : Core) (kind len : Nat) (data : List Word) : (c.logRec kind len data).got = c.got := by unfold Core.logRec; split <;> rfl
@[simp] theorem Core.logRec_pfq (c : Core) (kind len : Nat) (data : List Word) : (c.logRec kind len data).pfq = c.pfq := by unfold Core.logRec; split <;> rfl
@[simp] theorem Core.logRec_fence (c : Core) (kind len : Nat) (data : List Word) : (c.logRec kind len data).fence = c.fence := by unfold Core.logRec; split <;> rfl
@[simp] theorem Core.logRec_beats (c : Core) (kind len : Nat) (data : List Word) : (c.logRec kind len data).beats = c.beats := by unfold Core.logRec; split <;> rfl
@[simp] theorem Core.logRec_tlbs (c : Core) (kind len : Nat) (data : List Word) : (c.logRec kind len data).tlbs = c.tlbs := by unfold Core.logRec; split <;> rfl
@[simp] theorem Core.logRec_tlbSkipped (c : Core) (kind len : Nat) (data : List Word) : (c.logRec kind len data).tlbSkipped = c.tlbSkipped := by unfold Core.logRec; split <;> rfl
@[simp] theorem Core.logRec_tlbSkipFlag (c : Core) (kind len : Nat) (data : List Word) : (c.logRec kind len data).tlbSkipFlag = c.tlbSkipFlag := by unfold Core.logRec; split <;> rfl
@[simp] theorem Core.logRec_l1i (c : Core) (kind len : Nat) (data : List Word) : (c.logRec kind len data).l1i = c.l1i := by unfold Core.logRec; split <;> rfl
@[simp] theorem Core.logRec_l1d (c : Core) (kind len : Nat) (data : List Word) : (c.logRec kind len data).l1d = c.l1d := by unfold Core.logRec; split <;> rfl
@[simp] theorem Core.logRec_l1iPend (c : Core) (kind len : Nat) (data : List Word) : (c.logRec kind len data).l1iPend = c.l1iPend := by unfold Core.logRec; split <;> rfl
@[simp] theorem Core.logRec_acct (c : Core) (kind len : Nat) (data : List Word) : (c.logRec kind len data).acct = c.acct := by unfold Core.logRec; split <;> rfl
@[simp] theorem Core.logRec_cii (c : Core) (kind len : Nat) (data : List Word) : (c.logRec kind len data).cii = c.cii := by unfold Core.logRec; split <;> rfl
@[simp] theorem Core.logRec_pmu (c : Core) (kind len : Nat) (data : List Word) : (c.logRec kind len data).pmu = c.pmu := by unfold Core.logRec; split <;> rfl
@[simp] theorem Core.logRec_step (c : Core) (kind len : Nat) (data : List Word) : (c.logRec kind len data).step = c.step := by unfold Core.logRec; split <;> rfl
@[simp] theorem Core.logStore_run (c : Core) (pa bytes data : Nat) : (c.logStore pa bytes data).run = c.run := by unfold Core.logStore; split <;> rfl
@[simp] theorem Core.logStore_halts (c : Core) (pa bytes data : Nat) : (c.logStore pa bytes data).halts = c.halts := by unfold Core.logStore; split <;> rfl
@[simp] theorem Core.logStore_inWait (c : Core) (pa bytes data : Nat) : (c.logStore pa bytes data).inWait = c.inWait := by unfold Core.logStore; split <;> rfl
@[simp] theorem Core.logStore_g (c : Core) (pa bytes data : Nat) : (c.logStore pa bytes data).g = c.g := by unfold Core.logStore; split <;> rfl
@[simp] theorem Core.logStore_v (c : Core) (pa bytes data : Nat) : (c.logStore pa bytes data).v = c.v := by unfold Core.logStore; split <;> rfl
@[simp] theorem Core.logStore_p (c : Core) (pa bytes data : Nat) : (c.logStore pa bytes data).p = c.p := by unfold Core.logStore; split <;> rfl
@[simp] theorem Core.logStore_pc (c : Core) (pa bytes data : Nat) : (c.logStore pa bytes data).pc = c.pc := by unfold Core.logStore; split <;> rfl
@[simp] theorem Core.logStore_status (c : Core) (pa bytes data : Nat) : (c.logStore pa bytes data).status = c.status := by unfold Core.logStore; split <;> rfl
@[simp] theorem Core.logStore_vbar (c : Core) (pa bytes data : Nat) : (c.logStore pa bytes data).vbar = c.vbar := by unfold Core.logStore; split <;> rfl
@[simp] theorem Core.logStore_xsp (c : Core) (pa bytes data : Nat) : (c.logStore pa bytes data).xsp = c.xsp := by unfold Core.logStore; split <;> rfl
@[simp] theorem Core.logStore_xlim (c : Core) (pa bytes data : Nat) : (c.logStore pa bytes data).xlim = c.xlim := by unfold Core.logStore; split <;> rfl
@[simp] theorem Core.logStore_s1base (c : Core) (pa bytes data : Nat) : (c.logStore pa bytes data).s1base = c.s1base := by unfold Core.logStore; split <;> rfl
@[simp] theorem Core.logStore_s2base (c : Core) (pa bytes data : Nat) : (c.logStore pa bytes data).s2base = c.s2base := by unfold Core.logStore; split <;> rfl
@[simp] theorem Core.logStore_part (c : Core) (pa bytes data : Nat) : (c.logStore pa bytes data).part = c.part := by unfold Core.logStore; split <;> rfl
@[simp] theorem Core.logStore_tclass (c : Core) (pa bytes data : Nat) : (c.logStore pa bytes data).tclass = c.tclass := by unfold Core.logStore; split <;> rfl
@[simp] theorem Core.logStore_vflags (c : Core) (pa bytes data : Nat) : (c.logStore pa bytes data).vflags = c.vflags := by unfold Core.logStore; split <;> rfl
@[simp] theorem Core.logStore_vctl (c : Core) (pa bytes data : Nat) : (c.logStore pa bytes data).vctl = c.vctl := by unfold Core.logStore; split <;> rfl
@[simp] theorem Core.logStore_sb (c : Core) (pa bytes data : Nat) : (c.logStore pa bytes data).sb = c.sb := by unfold Core.logStore; split <;> rfl
@[simp] theorem Core.logStore_sbErr (c : Core) (pa bytes data : Nat) : (c.logStore pa bytes data).sbErr = c.sbErr := by unfold Core.logStore; split <;> rfl
@[simp] theorem Core.logStore_access (c : Core) (pa bytes data : Nat) : (c.logStore pa bytes data).access = c.access := by unfold Core.logStore; split <;> rfl
@[simp] theorem Core.logStore_got (c : Core) (pa bytes data : Nat) : (c.logStore pa bytes data).got = c.got := by unfold Core.logStore; split <;> rfl
@[simp] theorem Core.logStore_pfq (c : Core) (pa bytes data : Nat) : (c.logStore pa bytes data).pfq = c.pfq := by unfold Core.logStore; split <;> rfl
@[simp] theorem Core.logStore_fence (c : Core) (pa bytes data : Nat) : (c.logStore pa bytes data).fence = c.fence := by unfold Core.logStore; split <;> rfl
@[simp] theorem Core.logStore_beats (c : Core) (pa bytes data : Nat) : (c.logStore pa bytes data).beats = c.beats := by unfold Core.logStore; split <;> rfl
@[simp] theorem Core.logStore_tlbs (c : Core) (pa bytes data : Nat) : (c.logStore pa bytes data).tlbs = c.tlbs := by unfold Core.logStore; split <;> rfl
@[simp] theorem Core.logStore_tlbSkipped (c : Core) (pa bytes data : Nat) : (c.logStore pa bytes data).tlbSkipped = c.tlbSkipped := by unfold Core.logStore; split <;> rfl
@[simp] theorem Core.logStore_tlbSkipFlag (c : Core) (pa bytes data : Nat) : (c.logStore pa bytes data).tlbSkipFlag = c.tlbSkipFlag := by unfold Core.logStore; split <;> rfl
@[simp] theorem Core.logStore_l1i (c : Core) (pa bytes data : Nat) : (c.logStore pa bytes data).l1i = c.l1i := by unfold Core.logStore; split <;> rfl
@[simp] theorem Core.logStore_l1d (c : Core) (pa bytes data : Nat) : (c.logStore pa bytes data).l1d = c.l1d := by unfold Core.logStore; split <;> rfl
@[simp] theorem Core.logStore_l1iPend (c : Core) (pa bytes data : Nat) : (c.logStore pa bytes data).l1iPend = c.l1iPend := by unfold Core.logStore; split <;> rfl
@[simp] theorem Core.logStore_acct (c : Core) (pa bytes data : Nat) : (c.logStore pa bytes data).acct = c.acct := by unfold Core.logStore; split <;> rfl
@[simp] theorem Core.logStore_cii (c : Core) (pa bytes data : Nat) : (c.logStore pa bytes data).cii = c.cii := by unfold Core.logStore; split <;> rfl
@[simp] theorem Core.logStore_pmu (c : Core) (pa bytes data : Nat) : (c.logStore pa bytes data).pmu = c.pmu := by unfold Core.logStore; split <;> rfl
@[simp] theorem Core.logStore_step (c : Core) (pa bytes data : Nat) : (c.logStore pa bytes data).step = c.step := by unfold Core.logStore; split <;> rfl
@[simp] theorem Core.retire_run (c : Core) (pc' : Word) (cost : Nat) : (c.retire pc' cost).run = c.run := by simp only [Core.retire, Core.count_run, Core.charge_run]
@[simp] theorem Core.retire_halts (c : Core) (pc' : Word) (cost : Nat) : (c.retire pc' cost).halts = c.halts := by simp only [Core.retire, Core.count_halts, Core.charge_halts]
@[simp] theorem Core.retire_inWait (c : Core) (pc' : Word) (cost : Nat) : (c.retire pc' cost).inWait = c.inWait := by simp only [Core.retire, Core.count_inWait, Core.charge_inWait]
@[simp] theorem Core.retire_g (c : Core) (pc' : Word) (cost : Nat) : (c.retire pc' cost).g = c.g := by simp only [Core.retire, Core.count_g, Core.charge_g]
@[simp] theorem Core.retire_v (c : Core) (pc' : Word) (cost : Nat) : (c.retire pc' cost).v = c.v := by simp only [Core.retire, Core.count_v, Core.charge_v]
@[simp] theorem Core.retire_p (c : Core) (pc' : Word) (cost : Nat) : (c.retire pc' cost).p = c.p := by simp only [Core.retire, Core.count_p, Core.charge_p]
@[simp] theorem Core.retire_status (c : Core) (pc' : Word) (cost : Nat) : (c.retire pc' cost).status = c.status := by simp only [Core.retire, Core.count_status, Core.charge_status]
@[simp] theorem Core.retire_vbar (c : Core) (pc' : Word) (cost : Nat) : (c.retire pc' cost).vbar = c.vbar := by simp only [Core.retire, Core.count_vbar, Core.charge_vbar]
@[simp] theorem Core.retire_xsp (c : Core) (pc' : Word) (cost : Nat) : (c.retire pc' cost).xsp = c.xsp := by simp only [Core.retire, Core.count_xsp, Core.charge_xsp]
@[simp] theorem Core.retire_xlim (c : Core) (pc' : Word) (cost : Nat) : (c.retire pc' cost).xlim = c.xlim := by simp only [Core.retire, Core.count_xlim, Core.charge_xlim]
@[simp] theorem Core.retire_s1base (c : Core) (pc' : Word) (cost : Nat) : (c.retire pc' cost).s1base = c.s1base := by simp only [Core.retire, Core.count_s1base, Core.charge_s1base]
@[simp] theorem Core.retire_s2base (c : Core) (pc' : Word) (cost : Nat) : (c.retire pc' cost).s2base = c.s2base := by simp only [Core.retire, Core.count_s2base, Core.charge_s2base]
@[simp] theorem Core.retire_part (c : Core) (pc' : Word) (cost : Nat) : (c.retire pc' cost).part = c.part := by simp only [Core.retire, Core.count_part, Core.charge_part]
@[simp] theorem Core.retire_tclass (c : Core) (pc' : Word) (cost : Nat) : (c.retire pc' cost).tclass = c.tclass := by simp only [Core.retire, Core.count_tclass, Core.charge_tclass]
@[simp] theorem Core.retire_vflags (c : Core) (pc' : Word) (cost : Nat) : (c.retire pc' cost).vflags = c.vflags := by simp only [Core.retire, Core.count_vflags, Core.charge_vflags]
@[simp] theorem Core.retire_vctl (c : Core) (pc' : Word) (cost : Nat) : (c.retire pc' cost).vctl = c.vctl := by simp only [Core.retire, Core.count_vctl, Core.charge_vctl]
@[simp] theorem Core.retire_sb (c : Core) (pc' : Word) (cost : Nat) : (c.retire pc' cost).sb = c.sb := by simp only [Core.retire, Core.count_sb, Core.charge_sb]
@[simp] theorem Core.retire_sbErr (c : Core) (pc' : Word) (cost : Nat) : (c.retire pc' cost).sbErr = c.sbErr := by simp only [Core.retire, Core.count_sbErr, Core.charge_sbErr]
@[simp] theorem Core.retire_access (c : Core) (pc' : Word) (cost : Nat) : (c.retire pc' cost).access = c.access := by simp only [Core.retire, Core.count_access, Core.charge_access]
@[simp] theorem Core.retire_fence (c : Core) (pc' : Word) (cost : Nat) : (c.retire pc' cost).fence = c.fence := by simp only [Core.retire, Core.count_fence, Core.charge_fence]
@[simp] theorem Core.retire_tlbs (c : Core) (pc' : Word) (cost : Nat) : (c.retire pc' cost).tlbs = c.tlbs := by simp only [Core.retire, Core.count_tlbs, Core.charge_tlbs]
@[simp] theorem Core.retire_tlbSkipped (c : Core) (pc' : Word) (cost : Nat) : (c.retire pc' cost).tlbSkipped = c.tlbSkipped := by simp only [Core.retire, Core.count_tlbSkipped, Core.charge_tlbSkipped]
@[simp] theorem Core.retire_tlbSkipFlag (c : Core) (pc' : Word) (cost : Nat) : (c.retire pc' cost).tlbSkipFlag = c.tlbSkipFlag := by simp only [Core.retire, Core.count_tlbSkipFlag, Core.charge_tlbSkipFlag]
@[simp] theorem Core.retire_l1i (c : Core) (pc' : Word) (cost : Nat) : (c.retire pc' cost).l1i = c.l1i := by simp only [Core.retire, Core.count_l1i, Core.charge_l1i]
@[simp] theorem Core.retire_l1d (c : Core) (pc' : Word) (cost : Nat) : (c.retire pc' cost).l1d = c.l1d := by simp only [Core.retire, Core.count_l1d, Core.charge_l1d]
@[simp] theorem Core.retire_l1iPend (c : Core) (pc' : Word) (cost : Nat) : (c.retire pc' cost).l1iPend = c.l1iPend := by simp only [Core.retire, Core.count_l1iPend, Core.charge_l1iPend]
@[simp] theorem Core.retire_cii (c : Core) (pc' : Word) (cost : Nat) : (c.retire pc' cost).cii = c.cii := by simp only [Core.retire, Core.count_cii, Core.charge_cii]
@[simp] theorem Core.result_run (c : Core) (rd : Reg) (x : Word) (t d : Nat) : (c.result rd x t d).run = c.run := by simp only [Core.result, Core.setG_run]
@[simp] theorem Core.result_halts (c : Core) (rd : Reg) (x : Word) (t d : Nat) : (c.result rd x t d).halts = c.halts := by simp only [Core.result, Core.setG_halts]
@[simp] theorem Core.result_inWait (c : Core) (rd : Reg) (x : Word) (t d : Nat) : (c.result rd x t d).inWait = c.inWait := by simp only [Core.result, Core.setG_inWait]
@[simp] theorem Core.result_v (c : Core) (rd : Reg) (x : Word) (t d : Nat) : (c.result rd x t d).v = c.v := by simp only [Core.result, Core.setG_v]
@[simp] theorem Core.result_p (c : Core) (rd : Reg) (x : Word) (t d : Nat) : (c.result rd x t d).p = c.p := by simp only [Core.result, Core.setG_p]
@[simp] theorem Core.result_pc (c : Core) (rd : Reg) (x : Word) (t d : Nat) : (c.result rd x t d).pc = c.pc := by simp only [Core.result, Core.setG_pc]
@[simp] theorem Core.result_status (c : Core) (rd : Reg) (x : Word) (t d : Nat) : (c.result rd x t d).status = c.status := by simp only [Core.result, Core.setG_status]
@[simp] theorem Core.result_vbar (c : Core) (rd : Reg) (x : Word) (t d : Nat) : (c.result rd x t d).vbar = c.vbar := by simp only [Core.result, Core.setG_vbar]
@[simp] theorem Core.result_xsp (c : Core) (rd : Reg) (x : Word) (t d : Nat) : (c.result rd x t d).xsp = c.xsp := by simp only [Core.result, Core.setG_xsp]
@[simp] theorem Core.result_xlim (c : Core) (rd : Reg) (x : Word) (t d : Nat) : (c.result rd x t d).xlim = c.xlim := by simp only [Core.result, Core.setG_xlim]
@[simp] theorem Core.result_s1base (c : Core) (rd : Reg) (x : Word) (t d : Nat) : (c.result rd x t d).s1base = c.s1base := by simp only [Core.result, Core.setG_s1base]
@[simp] theorem Core.result_s2base (c : Core) (rd : Reg) (x : Word) (t d : Nat) : (c.result rd x t d).s2base = c.s2base := by simp only [Core.result, Core.setG_s2base]
@[simp] theorem Core.result_part (c : Core) (rd : Reg) (x : Word) (t d : Nat) : (c.result rd x t d).part = c.part := by simp only [Core.result, Core.setG_part]
@[simp] theorem Core.result_tclass (c : Core) (rd : Reg) (x : Word) (t d : Nat) : (c.result rd x t d).tclass = c.tclass := by simp only [Core.result, Core.setG_tclass]
@[simp] theorem Core.result_vflags (c : Core) (rd : Reg) (x : Word) (t d : Nat) : (c.result rd x t d).vflags = c.vflags := by simp only [Core.result, Core.setG_vflags]
@[simp] theorem Core.result_vctl (c : Core) (rd : Reg) (x : Word) (t d : Nat) : (c.result rd x t d).vctl = c.vctl := by simp only [Core.result, Core.setG_vctl]
@[simp] theorem Core.result_sb (c : Core) (rd : Reg) (x : Word) (t d : Nat) : (c.result rd x t d).sb = c.sb := by simp only [Core.result, Core.setG_sb]
@[simp] theorem Core.result_sbErr (c : Core) (rd : Reg) (x : Word) (t d : Nat) : (c.result rd x t d).sbErr = c.sbErr := by simp only [Core.result, Core.setG_sbErr]
@[simp] theorem Core.result_access (c : Core) (rd : Reg) (x : Word) (t d : Nat) : (c.result rd x t d).access = c.access := by simp only [Core.result, Core.setG_access]
@[simp] theorem Core.result_got (c : Core) (rd : Reg) (x : Word) (t d : Nat) : (c.result rd x t d).got = c.got := by simp only [Core.result, Core.setG_got]
@[simp] theorem Core.result_pfq (c : Core) (rd : Reg) (x : Word) (t d : Nat) : (c.result rd x t d).pfq = c.pfq := by simp only [Core.result, Core.setG_pfq]
@[simp] theorem Core.result_fence (c : Core) (rd : Reg) (x : Word) (t d : Nat) : (c.result rd x t d).fence = c.fence := by simp only [Core.result, Core.setG_fence]
@[simp] theorem Core.result_tlbs (c : Core) (rd : Reg) (x : Word) (t d : Nat) : (c.result rd x t d).tlbs = c.tlbs := by simp only [Core.result, Core.setG_tlbs]
@[simp] theorem Core.result_tlbSkipped (c : Core) (rd : Reg) (x : Word) (t d : Nat) : (c.result rd x t d).tlbSkipped = c.tlbSkipped := by simp only [Core.result, Core.setG_tlbSkipped]
@[simp] theorem Core.result_tlbSkipFlag (c : Core) (rd : Reg) (x : Word) (t d : Nat) : (c.result rd x t d).tlbSkipFlag = c.tlbSkipFlag := by simp only [Core.result, Core.setG_tlbSkipFlag]
@[simp] theorem Core.result_l1i (c : Core) (rd : Reg) (x : Word) (t d : Nat) : (c.result rd x t d).l1i = c.l1i := by simp only [Core.result, Core.setG_l1i]
@[simp] theorem Core.result_l1d (c : Core) (rd : Reg) (x : Word) (t d : Nat) : (c.result rd x t d).l1d = c.l1d := by simp only [Core.result, Core.setG_l1d]
@[simp] theorem Core.result_l1iPend (c : Core) (rd : Reg) (x : Word) (t d : Nat) : (c.result rd x t d).l1iPend = c.l1iPend := by simp only [Core.result, Core.setG_l1iPend]
@[simp] theorem Core.result_acct (c : Core) (rd : Reg) (x : Word) (t d : Nat) : (c.result rd x t d).acct = c.acct := by simp only [Core.result, Core.setG_acct]
@[simp] theorem Core.result_cii (c : Core) (rd : Reg) (x : Word) (t d : Nat) : (c.result rd x t d).cii = c.cii := by simp only [Core.result, Core.setG_cii]
@[simp] theorem Core.result_pmu (c : Core) (rd : Reg) (x : Word) (t d : Nat) : (c.result rd x t d).pmu = c.pmu := by simp only [Core.result, Core.setG_pmu]
@[simp] theorem Core.result_step (c : Core) (rd : Reg) (x : Word) (t d : Nat) : (c.result rd x t d).step = c.step := by simp only [Core.result, Core.setG_step]
@[simp] theorem Core.result_win (c : Core) (rd : Reg) (x : Word) (t d : Nat) : (c.result rd x t d).win = c.win := by simp only [Core.result, Core.setG_win]
@[simp] theorem Core.resultP_run (c : Core) (pd : PReg) (x : Word) (t d : Nat) : (c.resultP pd x t d).run = c.run := by simp only [Core.resultP, Core.setP_run]
@[simp] theorem Core.resultP_halts (c : Core) (pd : PReg) (x : Word) (t d : Nat) : (c.resultP pd x t d).halts = c.halts := by simp only [Core.resultP, Core.setP_halts]
@[simp] theorem Core.resultP_inWait (c : Core) (pd : PReg) (x : Word) (t d : Nat) : (c.resultP pd x t d).inWait = c.inWait := by simp only [Core.resultP, Core.setP_inWait]
@[simp] theorem Core.resultP_g (c : Core) (pd : PReg) (x : Word) (t d : Nat) : (c.resultP pd x t d).g = c.g := by simp only [Core.resultP, Core.setP_g]
@[simp] theorem Core.resultP_v (c : Core) (pd : PReg) (x : Word) (t d : Nat) : (c.resultP pd x t d).v = c.v := by simp only [Core.resultP, Core.setP_v]
@[simp] theorem Core.resultP_pc (c : Core) (pd : PReg) (x : Word) (t d : Nat) : (c.resultP pd x t d).pc = c.pc := by simp only [Core.resultP, Core.setP_pc]
@[simp] theorem Core.resultP_status (c : Core) (pd : PReg) (x : Word) (t d : Nat) : (c.resultP pd x t d).status = c.status := by simp only [Core.resultP, Core.setP_status]
@[simp] theorem Core.resultP_vbar (c : Core) (pd : PReg) (x : Word) (t d : Nat) : (c.resultP pd x t d).vbar = c.vbar := by simp only [Core.resultP, Core.setP_vbar]
@[simp] theorem Core.resultP_xsp (c : Core) (pd : PReg) (x : Word) (t d : Nat) : (c.resultP pd x t d).xsp = c.xsp := by simp only [Core.resultP, Core.setP_xsp]
@[simp] theorem Core.resultP_xlim (c : Core) (pd : PReg) (x : Word) (t d : Nat) : (c.resultP pd x t d).xlim = c.xlim := by simp only [Core.resultP, Core.setP_xlim]
@[simp] theorem Core.resultP_s1base (c : Core) (pd : PReg) (x : Word) (t d : Nat) : (c.resultP pd x t d).s1base = c.s1base := by simp only [Core.resultP, Core.setP_s1base]
@[simp] theorem Core.resultP_s2base (c : Core) (pd : PReg) (x : Word) (t d : Nat) : (c.resultP pd x t d).s2base = c.s2base := by simp only [Core.resultP, Core.setP_s2base]
@[simp] theorem Core.resultP_part (c : Core) (pd : PReg) (x : Word) (t d : Nat) : (c.resultP pd x t d).part = c.part := by simp only [Core.resultP, Core.setP_part]
@[simp] theorem Core.resultP_tclass (c : Core) (pd : PReg) (x : Word) (t d : Nat) : (c.resultP pd x t d).tclass = c.tclass := by simp only [Core.resultP, Core.setP_tclass]
@[simp] theorem Core.resultP_vflags (c : Core) (pd : PReg) (x : Word) (t d : Nat) : (c.resultP pd x t d).vflags = c.vflags := by simp only [Core.resultP, Core.setP_vflags]
@[simp] theorem Core.resultP_vctl (c : Core) (pd : PReg) (x : Word) (t d : Nat) : (c.resultP pd x t d).vctl = c.vctl := by simp only [Core.resultP, Core.setP_vctl]
@[simp] theorem Core.resultP_sb (c : Core) (pd : PReg) (x : Word) (t d : Nat) : (c.resultP pd x t d).sb = c.sb := by simp only [Core.resultP, Core.setP_sb]
@[simp] theorem Core.resultP_sbErr (c : Core) (pd : PReg) (x : Word) (t d : Nat) : (c.resultP pd x t d).sbErr = c.sbErr := by simp only [Core.resultP, Core.setP_sbErr]
@[simp] theorem Core.resultP_access (c : Core) (pd : PReg) (x : Word) (t d : Nat) : (c.resultP pd x t d).access = c.access := by simp only [Core.resultP, Core.setP_access]
@[simp] theorem Core.resultP_got (c : Core) (pd : PReg) (x : Word) (t d : Nat) : (c.resultP pd x t d).got = c.got := by simp only [Core.resultP, Core.setP_got]
@[simp] theorem Core.resultP_pfq (c : Core) (pd : PReg) (x : Word) (t d : Nat) : (c.resultP pd x t d).pfq = c.pfq := by simp only [Core.resultP, Core.setP_pfq]
@[simp] theorem Core.resultP_fence (c : Core) (pd : PReg) (x : Word) (t d : Nat) : (c.resultP pd x t d).fence = c.fence := by simp only [Core.resultP, Core.setP_fence]
@[simp] theorem Core.resultP_tlbs (c : Core) (pd : PReg) (x : Word) (t d : Nat) : (c.resultP pd x t d).tlbs = c.tlbs := by simp only [Core.resultP, Core.setP_tlbs]
@[simp] theorem Core.resultP_tlbSkipped (c : Core) (pd : PReg) (x : Word) (t d : Nat) : (c.resultP pd x t d).tlbSkipped = c.tlbSkipped := by simp only [Core.resultP, Core.setP_tlbSkipped]
@[simp] theorem Core.resultP_tlbSkipFlag (c : Core) (pd : PReg) (x : Word) (t d : Nat) : (c.resultP pd x t d).tlbSkipFlag = c.tlbSkipFlag := by simp only [Core.resultP, Core.setP_tlbSkipFlag]
@[simp] theorem Core.resultP_l1i (c : Core) (pd : PReg) (x : Word) (t d : Nat) : (c.resultP pd x t d).l1i = c.l1i := by simp only [Core.resultP, Core.setP_l1i]
@[simp] theorem Core.resultP_l1d (c : Core) (pd : PReg) (x : Word) (t d : Nat) : (c.resultP pd x t d).l1d = c.l1d := by simp only [Core.resultP, Core.setP_l1d]
@[simp] theorem Core.resultP_l1iPend (c : Core) (pd : PReg) (x : Word) (t d : Nat) : (c.resultP pd x t d).l1iPend = c.l1iPend := by simp only [Core.resultP, Core.setP_l1iPend]
@[simp] theorem Core.resultP_acct (c : Core) (pd : PReg) (x : Word) (t d : Nat) : (c.resultP pd x t d).acct = c.acct := by simp only [Core.resultP, Core.setP_acct]
@[simp] theorem Core.resultP_cii (c : Core) (pd : PReg) (x : Word) (t d : Nat) : (c.resultP pd x t d).cii = c.cii := by simp only [Core.resultP, Core.setP_cii]
@[simp] theorem Core.resultP_pmu (c : Core) (pd : PReg) (x : Word) (t d : Nat) : (c.resultP pd x t d).pmu = c.pmu := by simp only [Core.resultP, Core.setP_pmu]
@[simp] theorem Core.resultP_step (c : Core) (pd : PReg) (x : Word) (t d : Nat) : (c.resultP pd x t d).step = c.step := by simp only [Core.resultP, Core.setP_step]
@[simp] theorem Core.resultP_win (c : Core) (pd : PReg) (x : Word) (t d : Nat) : (c.resultP pd x t d).win = c.win := by simp only [Core.resultP, Core.setP_win]
@[simp] theorem Core.flush_run (c : Core)  : (c.flush).run = c.run := rfl
@[simp] theorem Core.flush_halts (c : Core)  : (c.flush).halts = c.halts := rfl
@[simp] theorem Core.flush_inWait (c : Core)  : (c.flush).inWait = c.inWait := rfl
@[simp] theorem Core.flush_g (c : Core)  : (c.flush).g = c.g := rfl
@[simp] theorem Core.flush_v (c : Core)  : (c.flush).v = c.v := rfl
@[simp] theorem Core.flush_p (c : Core)  : (c.flush).p = c.p := rfl
@[simp] theorem Core.flush_pc (c : Core)  : (c.flush).pc = c.pc := rfl
@[simp] theorem Core.flush_status (c : Core)  : (c.flush).status = c.status := rfl
@[simp] theorem Core.flush_vbar (c : Core)  : (c.flush).vbar = c.vbar := rfl
@[simp] theorem Core.flush_xsp (c : Core)  : (c.flush).xsp = c.xsp := rfl
@[simp] theorem Core.flush_xlim (c : Core)  : (c.flush).xlim = c.xlim := rfl
@[simp] theorem Core.flush_s1base (c : Core)  : (c.flush).s1base = c.s1base := rfl
@[simp] theorem Core.flush_s2base (c : Core)  : (c.flush).s2base = c.s2base := rfl
@[simp] theorem Core.flush_part (c : Core)  : (c.flush).part = c.part := rfl
@[simp] theorem Core.flush_tclass (c : Core)  : (c.flush).tclass = c.tclass := rfl
@[simp] theorem Core.flush_vflags (c : Core)  : (c.flush).vflags = c.vflags := rfl
@[simp] theorem Core.flush_vctl (c : Core)  : (c.flush).vctl = c.vctl := rfl
@[simp] theorem Core.flush_sb (c : Core)  : (c.flush).sb = c.sb := rfl
@[simp] theorem Core.flush_sbErr (c : Core)  : (c.flush).sbErr = c.sbErr := rfl
@[simp] theorem Core.flush_access (c : Core)  : (c.flush).access = c.access := rfl
@[simp] theorem Core.flush_fence (c : Core)  : (c.flush).fence = c.fence := rfl
@[simp] theorem Core.flush_beats (c : Core)  : (c.flush).beats = c.beats := rfl
@[simp] theorem Core.flush_tlbs (c : Core)  : (c.flush).tlbs = c.tlbs := rfl
@[simp] theorem Core.flush_tlbSkipped (c : Core)  : (c.flush).tlbSkipped = c.tlbSkipped := rfl
@[simp] theorem Core.flush_tlbSkipFlag (c : Core)  : (c.flush).tlbSkipFlag = c.tlbSkipFlag := rfl
@[simp] theorem Core.flush_l1i (c : Core)  : (c.flush).l1i = c.l1i := rfl
@[simp] theorem Core.flush_l1d (c : Core)  : (c.flush).l1d = c.l1d := rfl
@[simp] theorem Core.flush_l1iPend (c : Core)  : (c.flush).l1iPend = c.l1iPend := rfl
@[simp] theorem Core.flush_acct (c : Core)  : (c.flush).acct = c.acct := rfl
@[simp] theorem Core.flush_cii (c : Core)  : (c.flush).cii = c.cii := rfl
@[simp] theorem Core.flush_pmu (c : Core)  : (c.flush).pmu = c.pmu := rfl
@[simp] theorem Core.flush_step (c : Core)  : (c.flush).step = c.step := rfl
@[simp] theorem Core.flush_win (c : Core)  : (c.flush).win = c.win := rfl
@[simp] theorem Core.branch_run (c : Core) (target : Word) : (c.branch target).run = c.run := by simp only [Core.branch, Core.flush_run, Core.charge_run, Core.count_run, Core.retire_run]
@[simp] theorem Core.branch_halts (c : Core) (target : Word) : (c.branch target).halts = c.halts := by simp only [Core.branch, Core.flush_halts, Core.charge_halts, Core.count_halts, Core.retire_halts]
@[simp] theorem Core.branch_inWait (c : Core) (target : Word) : (c.branch target).inWait = c.inWait := by simp only [Core.branch, Core.flush_inWait, Core.charge_inWait, Core.count_inWait, Core.retire_inWait]
@[simp] theorem Core.branch_g (c : Core) (target : Word) : (c.branch target).g = c.g := by simp only [Core.branch, Core.flush_g, Core.charge_g, Core.count_g, Core.retire_g]
@[simp] theorem Core.branch_v (c : Core) (target : Word) : (c.branch target).v = c.v := by simp only [Core.branch, Core.flush_v, Core.charge_v, Core.count_v, Core.retire_v]
@[simp] theorem Core.branch_p (c : Core) (target : Word) : (c.branch target).p = c.p := by simp only [Core.branch, Core.flush_p, Core.charge_p, Core.count_p, Core.retire_p]
@[simp] theorem Core.branch_status (c : Core) (target : Word) : (c.branch target).status = c.status := by simp only [Core.branch, Core.flush_status, Core.charge_status, Core.count_status, Core.retire_status]
@[simp] theorem Core.branch_vbar (c : Core) (target : Word) : (c.branch target).vbar = c.vbar := by simp only [Core.branch, Core.flush_vbar, Core.charge_vbar, Core.count_vbar, Core.retire_vbar]
@[simp] theorem Core.branch_xsp (c : Core) (target : Word) : (c.branch target).xsp = c.xsp := by simp only [Core.branch, Core.flush_xsp, Core.charge_xsp, Core.count_xsp, Core.retire_xsp]
@[simp] theorem Core.branch_xlim (c : Core) (target : Word) : (c.branch target).xlim = c.xlim := by simp only [Core.branch, Core.flush_xlim, Core.charge_xlim, Core.count_xlim, Core.retire_xlim]
@[simp] theorem Core.branch_s1base (c : Core) (target : Word) : (c.branch target).s1base = c.s1base := by simp only [Core.branch, Core.flush_s1base, Core.charge_s1base, Core.count_s1base, Core.retire_s1base]
@[simp] theorem Core.branch_s2base (c : Core) (target : Word) : (c.branch target).s2base = c.s2base := by simp only [Core.branch, Core.flush_s2base, Core.charge_s2base, Core.count_s2base, Core.retire_s2base]
@[simp] theorem Core.branch_part (c : Core) (target : Word) : (c.branch target).part = c.part := by simp only [Core.branch, Core.flush_part, Core.charge_part, Core.count_part, Core.retire_part]
@[simp] theorem Core.branch_tclass (c : Core) (target : Word) : (c.branch target).tclass = c.tclass := by simp only [Core.branch, Core.flush_tclass, Core.charge_tclass, Core.count_tclass, Core.retire_tclass]
@[simp] theorem Core.branch_vflags (c : Core) (target : Word) : (c.branch target).vflags = c.vflags := by simp only [Core.branch, Core.flush_vflags, Core.charge_vflags, Core.count_vflags, Core.retire_vflags]
@[simp] theorem Core.branch_vctl (c : Core) (target : Word) : (c.branch target).vctl = c.vctl := by simp only [Core.branch, Core.flush_vctl, Core.charge_vctl, Core.count_vctl, Core.retire_vctl]
@[simp] theorem Core.branch_sb (c : Core) (target : Word) : (c.branch target).sb = c.sb := by simp only [Core.branch, Core.flush_sb, Core.charge_sb, Core.count_sb, Core.retire_sb]
@[simp] theorem Core.branch_sbErr (c : Core) (target : Word) : (c.branch target).sbErr = c.sbErr := by simp only [Core.branch, Core.flush_sbErr, Core.charge_sbErr, Core.count_sbErr, Core.retire_sbErr]
@[simp] theorem Core.branch_access (c : Core) (target : Word) : (c.branch target).access = c.access := by simp only [Core.branch, Core.flush_access, Core.charge_access, Core.count_access, Core.retire_access]
@[simp] theorem Core.branch_fence (c : Core) (target : Word) : (c.branch target).fence = c.fence := by simp only [Core.branch, Core.flush_fence, Core.charge_fence, Core.count_fence, Core.retire_fence]
@[simp] theorem Core.branch_tlbs (c : Core) (target : Word) : (c.branch target).tlbs = c.tlbs := by simp only [Core.branch, Core.flush_tlbs, Core.charge_tlbs, Core.count_tlbs, Core.retire_tlbs]
@[simp] theorem Core.branch_tlbSkipped (c : Core) (target : Word) : (c.branch target).tlbSkipped = c.tlbSkipped := by simp only [Core.branch, Core.flush_tlbSkipped, Core.charge_tlbSkipped, Core.count_tlbSkipped, Core.retire_tlbSkipped]
@[simp] theorem Core.branch_tlbSkipFlag (c : Core) (target : Word) : (c.branch target).tlbSkipFlag = c.tlbSkipFlag := by simp only [Core.branch, Core.flush_tlbSkipFlag, Core.charge_tlbSkipFlag, Core.count_tlbSkipFlag, Core.retire_tlbSkipFlag]
@[simp] theorem Core.branch_l1i (c : Core) (target : Word) : (c.branch target).l1i = c.l1i := by simp only [Core.branch, Core.flush_l1i, Core.charge_l1i, Core.count_l1i, Core.retire_l1i]
@[simp] theorem Core.branch_l1d (c : Core) (target : Word) : (c.branch target).l1d = c.l1d := by simp only [Core.branch, Core.flush_l1d, Core.charge_l1d, Core.count_l1d, Core.retire_l1d]
@[simp] theorem Core.branch_l1iPend (c : Core) (target : Word) : (c.branch target).l1iPend = c.l1iPend := by simp only [Core.branch, Core.flush_l1iPend, Core.charge_l1iPend, Core.count_l1iPend, Core.retire_l1iPend]
@[simp] theorem Core.branch_cii (c : Core) (target : Word) : (c.branch target).cii = c.cii := by simp only [Core.branch, Core.flush_cii, Core.charge_cii, Core.count_cii, Core.retire_cii]

/-! Records of the state by number. -/

@[simp] theorem State.core_setCore (s : State) (lc : LC) (c : Core) :
    (s.setCore lc c).core lc = c := by simp [State.core, State.setCore]

theorem State.core_setCore_of_ne (s : State) {lc l : LC} (c : Core) (h : l ≠ lc) :
    (s.setCore lc c).core l = s.core l := by
  have : l.val ≠ lc.val := fun e => h (Fin.ext e)
  simp [State.core, State.setCore, SMap.get_set_of_ne _ _ _ this]

@[simp] theorem State.core_modCore (s : State) (lc : LC) (f : Core → Core) :
    (s.modCore lc f).core lc = f (s.core lc) := by simp [State.modCore]

theorem State.core_modCore_of_ne (s : State) {lc l : LC} (f : Core → Core) (h : l ≠ lc) :
    (s.modCore lc f).core l = s.core l := State.core_setCore_of_ne s _ h

/-! Registers. -/

@[simp] theorem Core.getG_zero (c : Core) : c.getG 0 = 0 := rfl

theorem Core.getG_setG (c : Core) (r q : Reg) (x : Word) :
    (c.setG r x).getG q = if q = 0 then 0 else if q = r then x else c.getG q := by
  by_cases hq : q = 0
  · rw [if_pos hq, hq]; rfl
  rw [if_neg hq]
  by_cases hr : r = 0
  · rw [if_neg (fun e => hq (e.trans hr)), Core.setG, if_pos hr]
  by_cases e : q = r
  · subst e
    rw [if_pos rfl, Core.setG, if_neg hq, Core.getG, if_neg hq]
    exact SMap.get_set_self _ _ _ _
  · have : q.toNat ≠ r.toNat := fun h => e (BitVec.eq_of_toNat_eq h)
    rw [if_neg e, Core.setG, if_neg hr, Core.getG, if_neg hq, Core.getG, if_neg hq]
    exact SMap.get_set_of_ne _ _ _ this

/-- A g register written takes its value; g0 discards the write. -/
theorem Core.getG_setG_self (c : Core) (r : Reg) (x : Word) (h : r ≠ 0) : (c.setG r x).getG r = x := by
  rw [Core.getG_setG, if_neg h, if_pos rfl]

/-- The other g registers keep theirs. -/
theorem Core.getG_setG_of_ne (c : Core) {r q : Reg} (x : Word) (h : q ≠ r) :
    (c.setG r x).getG q = c.getG q := by
  rw [Core.getG_setG, if_neg h]
  split
  · rename_i hq; subst hq; rfl
  · rfl

theorem Core.getV_setV (c : Core) (r q : Reg) (x : Line) :
    (c.setV r x).getV q = if q = r then x else c.getV q := by
  unfold Core.setV Core.getV
  by_cases e : q = r
  · subst e; simp
  · have : q.toNat ≠ r.toNat := fun h => e (BitVec.eq_of_toNat_eq h)
    simp [e, SMap.get_set_of_ne _ _ _ this]

theorem Core.getP_setP (c : Core) (r q : PReg) (x : Word) :
    (c.setP r x).getP q = if q = r then x else c.getP q := by
  unfold Core.setP Core.getP
  by_cases e : q = r
  · subst e; simp
  · have : q.toNat ≠ r.toNat := fun h => e (BitVec.eq_of_toNat_eq h)
    simp [e, SMap.get_set_of_ne _ _ _ this]

/-! Counting and retiring. -/

@[simp] theorem Core.retire_pc (c : Core) (pc' : Word) (cost : Nat) : (c.retire pc' cost).pc = pc' := rfl
@[simp] theorem Core.retire_got (c : Core) (pc' : Word) (cost : Nat) : (c.retire pc' cost).got = [] := rfl
@[simp] theorem Core.charge_acct (c : Core) (ib sb l1 pfq walk : Nat) :
    (c.charge ib sb l1 pfq walk).acct = c.acct.charge ib sb l1 pfq walk := by
  simp only [Core.charge, Core.count_acct]
@[simp] theorem Core.charge_beats (c : Core) (ib sb l1 pfq walk : Nat) :
    (c.charge ib sb l1 pfq walk).beats =
      { c.beats with next := c.beats.next + ib + sb + l1 + pfq + walk } := by
  simp only [Core.charge, Core.count_beats]
@[simp] theorem Core.retire_acct (c : Core) (pc' : Word) (cost : Nat) :
    (c.retire pc' cost).acct = c.acct.charge cost 0 0 0 0 := by
  simp only [Core.retire, Core.count_acct, Core.charge_acct]
@[simp] theorem Core.result_g (c : Core) (rd : Reg) (x : Word) (t d : Nat) :
    (c.result rd x t d).g = (c.setG rd x).g := rfl
@[simp] theorem Core.resultP_p (c : Core) (pd : PReg) (x : Word) (t d : Nat) :
    (c.resultP pd x t d).p = (c.setP pd x).p := rfl
@[simp] theorem Core.branch_pc (c : Core) (target : Word) : (c.branch target).pc = target := by
  simp only [Core.branch, Core.flush_pc, Core.charge_pc, Core.count_pc, Core.retire_pc]

theorem Core.getG_congr {c d : Core} (h : c.g = d.g) (r : Reg) : c.getG r = d.getG r := by
  unfold Core.getG; rw [h]

/-! Instructions that leave S. -/

/-- What `issue` does with an instruction that runs: its body, in the state in which it leaves S. -/
theorem State.issue_runs {s f : State} {lc : LC} {n : Need} {k : Asker}
    (body : Asker → Nat → State → Option State) (h1 : s.asker lc = some k)
    (h2 : (s.core lc).ready = true) (h3 : (n.vec && s.vStopped lc) = false)
    (h4 : s.boundary k = none) (h5 : s.fetch k = .ok f) :
    let t := (f.core lc).beats.leave n
    let u := f.setCore lc ((f.core lc).toS t)
    s.issue lc n body = .next ((body k t u).getD s) := by
  simp only [State.issue, h1, h2, h3, h4, h5]
  rfl

end Sys2Proof.Machine
end

