-- ==== Sys2Proof/Laws/Issue.lean ====
section
/-!
SUPPORT. What the shapes that core instructions share do, once the instruction runs: one law for each
shape, which a claim about an instruction cites.
-/

namespace Sys2Proof.Claims

open Sys2Proof.Machine

/-- A change of one core changes nothing else. -/
theorem onlyCore_modCore (u : State) (lc : LC) (f : Core → Core) : OnlyCore lc u (u.modCore lc f) :=
  ⟨fun _ h => State.core_modCore_of_ne u f h, rfl⟩

/-- An instruction that runs does what its body says in the state in which it leaves S. -/
theorem issue_next {s u : State} {lc : LC} {n : Need} {k : Asker} {t : Nat}
    (h : Runs s lc n k t u) (body : Asker → Nat → State → Option State) {x : State}
    (hb : body k t u = some x) : s.issue lc n body = .next x := by
  obtain ⟨h1, h2, h3, h4, f, h5, rfl, rfl⟩ := h
  rw [State.issue_runs body h1 h2 h3 h4 h5, hb]
  rfl

/-- An instruction that only changes its core does so. -/
theorem issueCore_next {s u : State} {lc : LC} {n : Need} {k : Asker} {t : Nat}
    (h : Runs s lc n k t u) (f : Nat → Core → Core) :
    s.issueCore lc n f = .next (u.modCore lc (f t)) := issue_next h _ rfl

/-- A scalar instruction that runs writes its result, moves the pc to the next word and changes nothing
else but beats and counts. -/
theorem scalar_next {s u : State} {lc : LC} {rd : Reg} {src : List Reg} {k : Asker} {t : Nat}
    (h : Runs s lc { reads := src.map gIdx, writes := [gIdx rd] } k t u) (cost : Nat)
    (f : Core → Word) :
    ∃ x, s.scalar lc rd src cost f = .next x ∧ ScalarResult lc rd (f (u.core lc)) u x := by
  refine ⟨_, issueCore_next h _, onlyCore_modCore _ _ _, ?_⟩
  rw [State.core_modCore]
  generalize u.core lc = c
  refine ⟨by simp [KeepsSystem], by simp [KeepsV], ⟨fun hr => ?_, Core.getG_zero _, fun r hr => ?_⟩, by simp⟩
  · rw [Core.getG_congr (Core.retire_g _ _ _), Core.getG_congr (Core.result_g _ _ _ _ _),
      Core.getG_setG_self _ _ _ hr]
  · rw [Core.getG_congr (Core.retire_g _ _ _), Core.getG_congr (Core.result_g _ _ _ _ _),
      Core.getG_setG_of_ne _ _ hr]

end Sys2Proof.Claims
end

