-- ==== Sys2Proof/Laws/State.lean ====
section
/-!
SUPPORT. The laws of a state's records: for each update, the fields that it leaves as they were, and what
the numbered records read as after one.
-/

namespace Sys2Proof.Machine

@[simp] theorem State.setCore_pending (s : State) (lc : LC) (c : Core) : (s.setCore lc c).pending = s.pending := rfl
@[simp] theorem State.setCore_free (s : State) (lc : LC) (c : Core) : (s.setCore lc c).free = s.free := rfl
@[simp] theorem State.setCore_tb (s : State) (lc : LC) (c : Core) : (s.setCore lc c).tb = s.tb := rfl
@[simp] theorem State.setCore_mem (s : State) (lc : LC) (c : Core) : (s.setCore lc c).mem = s.mem := rfl
@[simp] theorem State.setCore_poisLine (s : State) (lc : LC) (c : Core) : (s.setCore lc c).poisLine = s.poisLine := rfl
@[simp] theorem State.setCore_poisWord (s : State) (lc : LC) (c : Core) : (s.setCore lc c).poisWord = s.poisWord := rfl
@[simp] theorem State.setCore_dies (s : State) (lc : LC) (c : Core) : (s.setCore lc c).dies = s.dies := rfl
@[simp] theorem State.setCore_dt (s : State) (lc : LC) (c : Core) : (s.setCore lc c).dt = s.dt := rfl
@[simp] theorem State.setCore_homes (s : State) (lc : LC) (c : Core) : (s.setCore lc c).homes = s.homes := rfl
@[simp] theorem State.setCore_mcs (s : State) (lc : LC) (c : Core) : (s.setCore lc c).mcs = s.mcs := rfl
@[simp] theorem State.setCore_mir (s : State) (lc : LC) (c : Core) : (s.setCore lc c).mir = s.mir := rfl
@[simp] theorem State.setCore_ports (s : State) (lc : LC) (c : Core) : (s.setCore lc c).ports = s.ports := rfl
@[simp] theorem State.setCore_sideband (s : State) (lc : LC) (c : Core) : (s.setCore lc c).sideband = s.sideband := rfl
@[simp] theorem State.setCore_sbLast (s : State) (lc : LC) (c : Core) : (s.setCore lc c).sbLast = s.sbLast := rfl
@[simp] theorem State.setCore_laserWait (s : State) (lc : LC) (c : Core) : (s.setCore lc c).laserWait = s.laserWait := rfl
@[simp] theorem State.setCore_cp (s : State) (lc : LC) (c : Core) : (s.setCore lc c).cp = s.cp := rfl
@[simp] theorem State.setCore_net (s : State) (lc : LC) (c : Core) : (s.setCore lc c).net = s.net := rfl
@[simp] theorem State.setCore_reqs (s : State) (lc : LC) (c : Core) : (s.setCore lc c).reqs = s.reqs := rfl
@[simp] theorem State.setCore_place (s : State) (lc : LC) (c : Core) : (s.setCore lc c).place = s.place := rfl
@[simp] theorem State.setCore_moves (s : State) (lc : LC) (c : Core) : (s.setCore lc c).moves = s.moves := rfl
@[simp] theorem State.setCore_lastDie (s : State) (lc : LC) (c : Core) : (s.setCore lc c).lastDie = s.lastDie := rfl
@[simp] theorem State.setCore_fuse (s : State) (lc : LC) (c : Core) : (s.setCore lc c).fuse = s.fuse := rfl
@[simp] theorem State.setCore_slotSt (s : State) (lc : LC) (c : Core) : (s.setCore lc c).slotSt = s.slotSt := rfl
@[simp] theorem State.setCore_beatRate (s : State) (lc : LC) (c : Core) : (s.setCore lc c).beatRate = s.beatRate := rfl
@[simp] theorem State.setCore_beatBase (s : State) (lc : LC) (c : Core) : (s.setCore lc c).beatBase = s.beatBase := rfl
@[simp] theorem State.setCore_beatSt (s : State) (lc : LC) (c : Core) : (s.setCore lc c).beatSt = s.beatSt := rfl
@[simp] theorem State.setCore_evq (s : State) (lc : LC) (c : Core) : (s.setCore lc c).evq = s.evq := rfl
@[simp] theorem State.setCore_evDropped (s : State) (lc : LC) (c : Core) : (s.setCore lc c).evDropped = s.evDropped := rfl
@[simp] theorem State.setCore_denyAt (s : State) (lc : LC) (c : Core) : (s.setCore lc c).denyAt = s.denyAt := rfl
@[simp] theorem State.setCore_reports (s : State) (lc : LC) (c : Core) : (s.setCore lc c).reports = s.reports := rfl
@[simp] theorem State.setCore_slotCrit (s : State) (lc : LC) (c : Core) : (s.setCore lc c).slotCrit = s.slotCrit := rfl
@[simp] theorem State.setCore_regHeld (s : State) (lc : LC) (c : Core) : (s.setCore lc c).regHeld = s.regHeld := rfl
@[simp] theorem State.setCore_shed2 (s : State) (lc : LC) (c : Core) : (s.setCore lc c).shed2 = s.shed2 := rfl
@[simp] theorem State.setCore_reg0 (s : State) (lc : LC) (c : Core) : (s.setCore lc c).reg0 = s.reg0 := rfl
@[simp] theorem State.setCore_uarts (s : State) (lc : LC) (c : Core) : (s.setCore lc c).uarts = s.uarts := rfl
@[simp] theorem State.setCore_i2cs (s : State) (lc : LC) (c : Core) : (s.setCore lc c).i2cs = s.i2cs := rfl
@[simp] theorem State.setCore_gpios (s : State) (lc : LC) (c : Core) : (s.setCore lc c).gpios = s.gpios := rfl
@[simp] theorem State.setCore_rtrBytes (s : State) (lc : LC) (c : Core) : (s.setCore lc c).rtrBytes = s.rtrBytes := rfl
@[simp] theorem State.setCore_rtrWin (s : State) (lc : LC) (c : Core) : (s.setCore lc c).rtrWin = s.rtrWin := rfl
@[simp] theorem State.setCore_latchHi (s : State) (lc : LC) (c : Core) : (s.setCore lc c).latchHi = s.latchHi := rfl
@[simp] theorem State.setCore_loupes (s : State) (lc : LC) (c : Core) : (s.setCore lc c).loupes = s.loupes := rfl
@[simp] theorem State.setCore_trace (s : State) (lc : LC) (c : Core) : (s.setCore lc c).trace = s.trace := rfl
@[simp] theorem State.setCore_snap (s : State) (lc : LC) (c : Core) : (s.setCore lc c).snap = s.snap := rfl
@[simp] theorem State.setCore_tap (s : State) (lc : LC) (c : Core) : (s.setCore lc c).tap = s.tap := rfl
@[simp] theorem State.setCore_stOffset (s : State) (lc : LC) (c : Core) : (s.setCore lc c).stOffset = s.stOffset := rfl
@[simp] theorem State.setCore_stValid (s : State) (lc : LC) (c : Core) : (s.setCore lc c).stValid = s.stValid := rfl
@[simp] theorem State.setCore_stAlarm (s : State) (lc : LC) (c : Core) : (s.setCore lc c).stAlarm = s.stAlarm := rfl
@[simp] theorem State.setCore_stAlarmed (s : State) (lc : LC) (c : Core) : (s.setCore lc c).stAlarmed = s.stAlarmed := rfl
@[simp] theorem State.setCore_scntBase (s : State) (lc : LC) (c : Core) : (s.setCore lc c).scntBase = s.scntBase := rfl
@[simp] theorem State.setCore_pcie (s : State) (lc : LC) (c : Core) : (s.setCore lc c).pcie = s.pcie := rfl
@[simp] theorem State.setCore_fold (s : State) (lc : LC) (c : Core) : (s.setCore lc c).fold = s.fold := rfl
@[simp] theorem State.setCore_devReady (s : State) (lc : LC) (c : Core) : (s.setCore lc c).devReady = s.devReady := rfl
@[simp] theorem State.setCore_restarting (s : State) (lc : LC) (c : Core) : (s.setCore lc c).restarting = s.restarting := rfl
@[simp] theorem State.setCore_imageOnly (s : State) (lc : LC) (c : Core) : (s.setCore lc c).imageOnly = s.imageOnly := rfl
@[simp] theorem State.setCore_shep (s : State) (lc : LC) (c : Core) : (s.setCore lc c).shep = s.shep := rfl
@[simp] theorem State.modCore_pending (s : State) (lc : LC) (f : Core → Core) : (s.modCore lc f).pending = s.pending := rfl
@[simp] theorem State.modCore_free (s : State) (lc : LC) (f : Core → Core) : (s.modCore lc f).free = s.free := rfl
@[simp] theorem State.modCore_tb (s : State) (lc : LC) (f : Core → Core) : (s.modCore lc f).tb = s.tb := rfl
@[simp] theorem State.modCore_mem (s : State) (lc : LC) (f : Core → Core) : (s.modCore lc f).mem = s.mem := rfl
@[simp] theorem State.modCore_poisLine (s : State) (lc : LC) (f : Core → Core) : (s.modCore lc f).poisLine = s.poisLine := rfl
@[simp] theorem State.modCore_poisWord (s : State) (lc : LC) (f : Core → Core) : (s.modCore lc f).poisWord = s.poisWord := rfl
@[simp] theorem State.modCore_dies (s : State) (lc : LC) (f : Core → Core) : (s.modCore lc f).dies = s.dies := rfl
@[simp] theorem State.modCore_dt (s : State) (lc : LC) (f : Core → Core) : (s.modCore lc f).dt = s.dt := rfl
@[simp] theorem State.modCore_homes (s : State) (lc : LC) (f : Core → Core) : (s.modCore lc f).homes = s.homes := rfl
@[simp] theorem State.modCore_mcs (s : State) (lc : LC) (f : Core → Core) : (s.modCore lc f).mcs = s.mcs := rfl
@[simp] theorem State.modCore_mir (s : State) (lc : LC) (f : Core → Core) : (s.modCore lc f).mir = s.mir := rfl
@[simp] theorem State.modCore_ports (s : State) (lc : LC) (f : Core → Core) : (s.modCore lc f).ports = s.ports := rfl
@[simp] theorem State.modCore_sideband (s : State) (lc : LC) (f : Core → Core) : (s.modCore lc f).sideband = s.sideband := rfl
@[simp] theorem State.modCore_sbLast (s : State) (lc : LC) (f : Core → Core) : (s.modCore lc f).sbLast = s.sbLast := rfl
@[simp] theorem State.modCore_laserWait (s : State) (lc : LC) (f : Core → Core) : (s.modCore lc f).laserWait = s.laserWait := rfl
@[simp] theorem State.modCore_cp (s : State) (lc : LC) (f : Core → Core) : (s.modCore lc f).cp = s.cp := rfl
@[simp] theorem State.modCore_net (s : State) (lc : LC) (f : Core → Core) : (s.modCore lc f).net = s.net := rfl
@[simp] theorem State.modCore_reqs (s : State) (lc : LC) (f : Core → Core) : (s.modCore lc f).reqs = s.reqs := rfl
@[simp] theorem State.modCore_place (s : State) (lc : LC) (f : Core → Core) : (s.modCore lc f).place = s.place := rfl
@[simp] theorem State.modCore_moves (s : State) (lc : LC) (f : Core → Core) : (s.modCore lc f).moves = s.moves := rfl
@[simp] theorem State.modCore_lastDie (s : State) (lc : LC) (f : Core → Core) : (s.modCore lc f).lastDie = s.lastDie := rfl
@[simp] theorem State.modCore_fuse (s : State) (lc : LC) (f : Core → Core) : (s.modCore lc f).fuse = s.fuse := rfl
@[simp] theorem State.modCore_slotSt (s : State) (lc : LC) (f : Core → Core) : (s.modCore lc f).slotSt = s.slotSt := rfl
@[simp] theorem State.modCore_beatRate (s : State) (lc : LC) (f : Core → Core) : (s.modCore lc f).beatRate = s.beatRate := rfl
@[simp] theorem State.modCore_beatBase (s : State) (lc : LC) (f : Core → Core) : (s.modCore lc f).beatBase = s.beatBase := rfl
@[simp] theorem State.modCore_beatSt (s : State) (lc : LC) (f : Core → Core) : (s.modCore lc f).beatSt = s.beatSt := rfl
@[simp] theorem State.modCore_evq (s : State) (lc : LC) (f : Core → Core) : (s.modCore lc f).evq = s.evq := rfl
@[simp] theorem State.modCore_evDropped (s : State) (lc : LC) (f : Core → Core) : (s.modCore lc f).evDropped = s.evDropped := rfl
@[simp] theorem State.modCore_denyAt (s : State) (lc : LC) (f : Core → Core) : (s.modCore lc f).denyAt = s.denyAt := rfl
@[simp] theorem State.modCore_reports (s : State) (lc : LC) (f : Core → Core) : (s.modCore lc f).reports = s.reports := rfl
@[simp] theorem State.modCore_slotCrit (s : State) (lc : LC) (f : Core → Core) : (s.modCore lc f).slotCrit = s.slotCrit := rfl
@[simp] theorem State.modCore_regHeld (s : State) (lc : LC) (f : Core → Core) : (s.modCore lc f).regHeld = s.regHeld := rfl
@[simp] theorem State.modCore_shed2 (s : State) (lc : LC) (f : Core → Core) : (s.modCore lc f).shed2 = s.shed2 := rfl
@[simp] theorem State.modCore_reg0 (s : State) (lc : LC) (f : Core → Core) : (s.modCore lc f).reg0 = s.reg0 := rfl
@[simp] theorem State.modCore_uarts (s : State) (lc : LC) (f : Core → Core) : (s.modCore lc f).uarts = s.uarts := rfl
@[simp] theorem State.modCore_i2cs (s : State) (lc : LC) (f : Core → Core) : (s.modCore lc f).i2cs = s.i2cs := rfl
@[simp] theorem State.modCore_gpios (s : State) (lc : LC) (f : Core → Core) : (s.modCore lc f).gpios = s.gpios := rfl
@[simp] theorem State.modCore_rtrBytes (s : State) (lc : LC) (f : Core → Core) : (s.modCore lc f).rtrBytes = s.rtrBytes := rfl
@[simp] theorem State.modCore_rtrWin (s : State) (lc : LC) (f : Core → Core) : (s.modCore lc f).rtrWin = s.rtrWin := rfl
@[simp] theorem State.modCore_latchHi (s : State) (lc : LC) (f : Core → Core) : (s.modCore lc f).latchHi = s.latchHi := rfl
@[simp] theorem State.modCore_loupes (s : State) (lc : LC) (f : Core → Core) : (s.modCore lc f).loupes = s.loupes := rfl
@[simp] theorem State.modCore_trace (s : State) (lc : LC) (f : Core → Core) : (s.modCore lc f).trace = s.trace := rfl
@[simp] theorem State.modCore_snap (s : State) (lc : LC) (f : Core → Core) : (s.modCore lc f).snap = s.snap := rfl
@[simp] theorem State.modCore_tap (s : State) (lc : LC) (f : Core → Core) : (s.modCore lc f).tap = s.tap := rfl
@[simp] theorem State.modCore_stOffset (s : State) (lc : LC) (f : Core → Core) : (s.modCore lc f).stOffset = s.stOffset := rfl
@[simp] theorem State.modCore_stValid (s : State) (lc : LC) (f : Core → Core) : (s.modCore lc f).stValid = s.stValid := rfl
@[simp] theorem State.modCore_stAlarm (s : State) (lc : LC) (f : Core → Core) : (s.modCore lc f).stAlarm = s.stAlarm := rfl
@[simp] theorem State.modCore_stAlarmed (s : State) (lc : LC) (f : Core → Core) : (s.modCore lc f).stAlarmed = s.stAlarmed := rfl
@[simp] theorem State.modCore_scntBase (s : State) (lc : LC) (f : Core → Core) : (s.modCore lc f).scntBase = s.scntBase := rfl
@[simp] theorem State.modCore_pcie (s : State) (lc : LC) (f : Core → Core) : (s.modCore lc f).pcie = s.pcie := rfl
@[simp] theorem State.modCore_fold (s : State) (lc : LC) (f : Core → Core) : (s.modCore lc f).fold = s.fold := rfl
@[simp] theorem State.modCore_devReady (s : State) (lc : LC) (f : Core → Core) : (s.modCore lc f).devReady = s.devReady := rfl
@[simp] theorem State.modCore_restarting (s : State) (lc : LC) (f : Core → Core) : (s.modCore lc f).restarting = s.restarting := rfl
@[simp] theorem State.modCore_imageOnly (s : State) (lc : LC) (f : Core → Core) : (s.modCore lc f).imageOnly = s.imageOnly := rfl
@[simp] theorem State.modCore_shep (s : State) (lc : LC) (f : Core → Core) : (s.modCore lc f).shep = s.shep := rfl
@[simp] theorem State.setDie_pending (s : State) (d : Die) (x : DieSt) : (s.setDie d x).pending = s.pending := rfl
@[simp] theorem State.setDie_free (s : State) (d : Die) (x : DieSt) : (s.setDie d x).free = s.free := rfl
@[simp] theorem State.setDie_tb (s : State) (d : Die) (x : DieSt) : (s.setDie d x).tb = s.tb := rfl
@[simp] theorem State.setDie_cores (s : State) (d : Die) (x : DieSt) : (s.setDie d x).cores = s.cores := rfl
@[simp] theorem State.setDie_mem (s : State) (d : Die) (x : DieSt) : (s.setDie d x).mem = s.mem := rfl
@[simp] theorem State.setDie_poisLine (s : State) (d : Die) (x : DieSt) : (s.setDie d x).poisLine = s.poisLine := rfl
@[simp] theorem State.setDie_poisWord (s : State) (d : Die) (x : DieSt) : (s.setDie d x).poisWord = s.poisWord := rfl
@[simp] theorem State.setDie_dt (s : State) (d : Die) (x : DieSt) : (s.setDie d x).dt = s.dt := rfl
@[simp] theorem State.setDie_homes (s : State) (d : Die) (x : DieSt) : (s.setDie d x).homes = s.homes := rfl
@[simp] theorem State.setDie_mcs (s : State) (d : Die) (x : DieSt) : (s.setDie d x).mcs = s.mcs := rfl
@[simp] theorem State.setDie_mir (s : State) (d : Die) (x : DieSt) : (s.setDie d x).mir = s.mir := rfl
@[simp] theorem State.setDie_ports (s : State) (d : Die) (x : DieSt) : (s.setDie d x).ports = s.ports := rfl
@[simp] theorem State.setDie_sideband (s : State) (d : Die) (x : DieSt) : (s.setDie d x).sideband = s.sideband := rfl
@[simp] theorem State.setDie_sbLast (s : State) (d : Die) (x : DieSt) : (s.setDie d x).sbLast = s.sbLast := rfl
@[simp] theorem State.setDie_laserWait (s : State) (d : Die) (x : DieSt) : (s.setDie d x).laserWait = s.laserWait := rfl
@[simp] theorem State.setDie_cp (s : State) (d : Die) (x : DieSt) : (s.setDie d x).cp = s.cp := rfl
@[simp] theorem State.setDie_net (s : State) (d : Die) (x : DieSt) : (s.setDie d x).net = s.net := rfl
@[simp] theorem State.setDie_reqs (s : State) (d : Die) (x : DieSt) : (s.setDie d x).reqs = s.reqs := rfl
@[simp] theorem State.setDie_place (s : State) (d : Die) (x : DieSt) : (s.setDie d x).place = s.place := rfl
@[simp] theorem State.setDie_moves (s : State) (d : Die) (x : DieSt) : (s.setDie d x).moves = s.moves := rfl
@[simp] theorem State.setDie_lastDie (s : State) (d : Die) (x : DieSt) : (s.setDie d x).lastDie = s.lastDie := rfl
@[simp] theorem State.setDie_fuse (s : State) (d : Die) (x : DieSt) : (s.setDie d x).fuse = s.fuse := rfl
@[simp] theorem State.setDie_slotSt (s : State) (d : Die) (x : DieSt) : (s.setDie d x).slotSt = s.slotSt := rfl
@[simp] theorem State.setDie_beatRate (s : State) (d : Die) (x : DieSt) : (s.setDie d x).beatRate = s.beatRate := rfl
@[simp] theorem State.setDie_beatBase (s : State) (d : Die) (x : DieSt) : (s.setDie d x).beatBase = s.beatBase := rfl
@[simp] theorem State.setDie_beatSt (s : State) (d : Die) (x : DieSt) : (s.setDie d x).beatSt = s.beatSt := rfl
@[simp] theorem State.setDie_evq (s : State) (d : Die) (x : DieSt) : (s.setDie d x).evq = s.evq := rfl
@[simp] theorem State.setDie_evDropped (s : State) (d : Die) (x : DieSt) : (s.setDie d x).evDropped = s.evDropped := rfl
@[simp] theorem State.setDie_denyAt (s : State) (d : Die) (x : DieSt) : (s.setDie d x).denyAt = s.denyAt := rfl
@[simp] theorem State.setDie_reports (s : State) (d : Die) (x : DieSt) : (s.setDie d x).reports = s.reports := rfl
@[simp] theorem State.setDie_slotCrit (s : State) (d : Die) (x : DieSt) : (s.setDie d x).slotCrit = s.slotCrit := rfl
@[simp] theorem State.setDie_regHeld (s : State) (d : Die) (x : DieSt) : (s.setDie d x).regHeld = s.regHeld := rfl
@[simp] theorem State.setDie_shed2 (s : State) (d : Die) (x : DieSt) : (s.setDie d x).shed2 = s.shed2 := rfl
@[simp] theorem State.setDie_reg0 (s : State) (d : Die) (x : DieSt) : (s.setDie d x).reg0 = s.reg0 := rfl
@[simp] theorem State.setDie_uarts (s : State) (d : Die) (x : DieSt) : (s.setDie d x).uarts = s.uarts := rfl
@[simp] theorem State.setDie_i2cs (s : State) (d : Die) (x : DieSt) : (s.setDie d x).i2cs = s.i2cs := rfl
@[simp] theorem State.setDie_gpios (s : State) (d : Die) (x : DieSt) : (s.setDie d x).gpios = s.gpios := rfl
@[simp] theorem State.setDie_rtrBytes (s : State) (d : Die) (x : DieSt) : (s.setDie d x).rtrBytes = s.rtrBytes := rfl
@[simp] theorem State.setDie_rtrWin (s : State) (d : Die) (x : DieSt) : (s.setDie d x).rtrWin = s.rtrWin := rfl
@[simp] theorem State.setDie_latchHi (s : State) (d : Die) (x : DieSt) : (s.setDie d x).latchHi = s.latchHi := rfl
@[simp] theorem State.setDie_loupes (s : State) (d : Die) (x : DieSt) : (s.setDie d x).loupes = s.loupes := rfl
@[simp] theorem State.setDie_trace (s : State) (d : Die) (x : DieSt) : (s.setDie d x).trace = s.trace := rfl
@[simp] theorem State.setDie_snap (s : State) (d : Die) (x : DieSt) : (s.setDie d x).snap = s.snap := rfl
@[simp] theorem State.setDie_tap (s : State) (d : Die) (x : DieSt) : (s.setDie d x).tap = s.tap := rfl
@[simp] theorem State.setDie_stOffset (s : State) (d : Die) (x : DieSt) : (s.setDie d x).stOffset = s.stOffset := rfl
@[simp] theorem State.setDie_stValid (s : State) (d : Die) (x : DieSt) : (s.setDie d x).stValid = s.stValid := rfl
@[simp] theorem State.setDie_stAlarm (s : State) (d : Die) (x : DieSt) : (s.setDie d x).stAlarm = s.stAlarm := rfl
@[simp] theorem State.setDie_stAlarmed (s : State) (d : Die) (x : DieSt) : (s.setDie d x).stAlarmed = s.stAlarmed := rfl
@[simp] theorem State.setDie_scntBase (s : State) (d : Die) (x : DieSt) : (s.setDie d x).scntBase = s.scntBase := rfl
@[simp] theorem State.setDie_pcie (s : State) (d : Die) (x : DieSt) : (s.setDie d x).pcie = s.pcie := rfl
@[simp] theorem State.setDie_fold (s : State) (d : Die) (x : DieSt) : (s.setDie d x).fold = s.fold := rfl
@[simp] theorem State.setDie_devReady (s : State) (d : Die) (x : DieSt) : (s.setDie d x).devReady = s.devReady := rfl
@[simp] theorem State.setDie_restarting (s : State) (d : Die) (x : DieSt) : (s.setDie d x).restarting = s.restarting := rfl
@[simp] theorem State.setDie_imageOnly (s : State) (d : Die) (x : DieSt) : (s.setDie d x).imageOnly = s.imageOnly := rfl
@[simp] theorem State.setDie_shep (s : State) (d : Die) (x : DieSt) : (s.setDie d x).shep = s.shep := rfl
@[simp] theorem State.modDie_pending (s : State) (d : Die) (f : DieSt → DieSt) : (s.modDie d f).pending = s.pending := rfl
@[simp] theorem State.modDie_free (s : State) (d : Die) (f : DieSt → DieSt) : (s.modDie d f).free = s.free := rfl
@[simp] theorem State.modDie_tb (s : State) (d : Die) (f : DieSt → DieSt) : (s.modDie d f).tb = s.tb := rfl
@[simp] theorem State.modDie_cores (s : State) (d : Die) (f : DieSt → DieSt) : (s.modDie d f).cores = s.cores := rfl
@[simp] theorem State.modDie_mem (s : State) (d : Die) (f : DieSt → DieSt) : (s.modDie d f).mem = s.mem := rfl
@[simp] theorem State.modDie_poisLine (s : State) (d : Die) (f : DieSt → DieSt) : (s.modDie d f).poisLine = s.poisLine := rfl
@[simp] theorem State.modDie_poisWord (s : State) (d : Die) (f : DieSt → DieSt) : (s.modDie d f).poisWord = s.poisWord := rfl
@[simp] theorem State.modDie_dt (s : State) (d : Die) (f : DieSt → DieSt) : (s.modDie d f).dt = s.dt := rfl
@[simp] theorem State.modDie_homes (s : State) (d : Die) (f : DieSt → DieSt) : (s.modDie d f).homes = s.homes := rfl
@[simp] theorem State.modDie_mcs (s : State) (d : Die) (f : DieSt → DieSt) : (s.modDie d f).mcs = s.mcs := rfl
@[simp] theorem State.modDie_mir (s : State) (d : Die) (f : DieSt → DieSt) : (s.modDie d f).mir = s.mir := rfl
@[simp] theorem State.modDie_ports (s : State) (d : Die) (f : DieSt → DieSt) : (s.modDie d f).ports = s.ports := rfl
@[simp] theorem State.modDie_sideband (s : State) (d : Die) (f : DieSt → DieSt) : (s.modDie d f).sideband = s.sideband := rfl
@[simp] theorem State.modDie_sbLast (s : State) (d : Die) (f : DieSt → DieSt) : (s.modDie d f).sbLast = s.sbLast := rfl
@[simp] theorem State.modDie_laserWait (s : State) (d : Die) (f : DieSt → DieSt) : (s.modDie d f).laserWait = s.laserWait := rfl
@[simp] theorem State.modDie_cp (s : State) (d : Die) (f : DieSt → DieSt) : (s.modDie d f).cp = s.cp := rfl
@[simp] theorem State.modDie_net (s : State) (d : Die) (f : DieSt → DieSt) : (s.modDie d f).net = s.net := rfl
@[simp] theorem State.modDie_reqs (s : State) (d : Die) (f : DieSt → DieSt) : (s.modDie d f).reqs = s.reqs := rfl
@[simp] theorem State.modDie_place (s : State) (d : Die) (f : DieSt → DieSt) : (s.modDie d f).place = s.place := rfl
@[simp] theorem State.modDie_moves (s : State) (d : Die) (f : DieSt → DieSt) : (s.modDie d f).moves = s.moves := rfl
@[simp] theorem State.modDie_lastDie (s : State) (d : Die) (f : DieSt → DieSt) : (s.modDie d f).lastDie = s.lastDie := rfl
@[simp] theorem State.modDie_fuse (s : State) (d : Die) (f : DieSt → DieSt) : (s.modDie d f).fuse = s.fuse := rfl
@[simp] theorem State.modDie_slotSt (s : State) (d : Die) (f : DieSt → DieSt) : (s.modDie d f).slotSt = s.slotSt := rfl
@[simp] theorem State.modDie_beatRate (s : State) (d : Die) (f : DieSt → DieSt) : (s.modDie d f).beatRate = s.beatRate := rfl
@[simp] theorem State.modDie_beatBase (s : State) (d : Die) (f : DieSt → DieSt) : (s.modDie d f).beatBase = s.beatBase := rfl
@[simp] theorem State.modDie_beatSt (s : State) (d : Die) (f : DieSt → DieSt) : (s.modDie d f).beatSt = s.beatSt := rfl
@[simp] theorem State.modDie_evq (s : State) (d : Die) (f : DieSt → DieSt) : (s.modDie d f).evq = s.evq := rfl
@[simp] theorem State.modDie_evDropped (s : State) (d : Die) (f : DieSt → DieSt) : (s.modDie d f).evDropped = s.evDropped := rfl
@[simp] theorem State.modDie_denyAt (s : State) (d : Die) (f : DieSt → DieSt) : (s.modDie d f).denyAt = s.denyAt := rfl
@[simp] theorem State.modDie_reports (s : State) (d : Die) (f : DieSt → DieSt) : (s.modDie d f).reports = s.reports := rfl
@[simp] theorem State.modDie_slotCrit (s : State) (d : Die) (f : DieSt → DieSt) : (s.modDie d f).slotCrit = s.slotCrit := rfl
@[simp] theorem State.modDie_regHeld (s : State) (d : Die) (f : DieSt → DieSt) : (s.modDie d f).regHeld = s.regHeld := rfl
@[simp] theorem State.modDie_shed2 (s : State) (d : Die) (f : DieSt → DieSt) : (s.modDie d f).shed2 = s.shed2 := rfl
@[simp] theorem State.modDie_reg0 (s : State) (d : Die) (f : DieSt → DieSt) : (s.modDie d f).reg0 = s.reg0 := rfl
@[simp] theorem State.modDie_uarts (s : State) (d : Die) (f : DieSt → DieSt) : (s.modDie d f).uarts = s.uarts := rfl
@[simp] theorem State.modDie_i2cs (s : State) (d : Die) (f : DieSt → DieSt) : (s.modDie d f).i2cs = s.i2cs := rfl
@[simp] theorem State.modDie_gpios (s : State) (d : Die) (f : DieSt → DieSt) : (s.modDie d f).gpios = s.gpios := rfl
@[simp] theorem State.modDie_rtrBytes (s : State) (d : Die) (f : DieSt → DieSt) : (s.modDie d f).rtrBytes = s.rtrBytes := rfl
@[simp] theorem State.modDie_rtrWin (s : State) (d : Die) (f : DieSt → DieSt) : (s.modDie d f).rtrWin = s.rtrWin := rfl
@[simp] theorem State.modDie_latchHi (s : State) (d : Die) (f : DieSt → DieSt) : (s.modDie d f).latchHi = s.latchHi := rfl
@[simp] theorem State.modDie_loupes (s : State) (d : Die) (f : DieSt → DieSt) : (s.modDie d f).loupes = s.loupes := rfl
@[simp] theorem State.modDie_trace (s : State) (d : Die) (f : DieSt → DieSt) : (s.modDie d f).trace = s.trace := rfl
@[simp] theorem State.modDie_snap (s : State) (d : Die) (f : DieSt → DieSt) : (s.modDie d f).snap = s.snap := rfl
@[simp] theorem State.modDie_tap (s : State) (d : Die) (f : DieSt → DieSt) : (s.modDie d f).tap = s.tap := rfl
@[simp] theorem State.modDie_stOffset (s : State) (d : Die) (f : DieSt → DieSt) : (s.modDie d f).stOffset = s.stOffset := rfl
@[simp] theorem State.modDie_stValid (s : State) (d : Die) (f : DieSt → DieSt) : (s.modDie d f).stValid = s.stValid := rfl
@[simp] theorem State.modDie_stAlarm (s : State) (d : Die) (f : DieSt → DieSt) : (s.modDie d f).stAlarm = s.stAlarm := rfl
@[simp] theorem State.modDie_stAlarmed (s : State) (d : Die) (f : DieSt → DieSt) : (s.modDie d f).stAlarmed = s.stAlarmed := rfl
@[simp] theorem State.modDie_scntBase (s : State) (d : Die) (f : DieSt → DieSt) : (s.modDie d f).scntBase = s.scntBase := rfl
@[simp] theorem State.modDie_pcie (s : State) (d : Die) (f : DieSt → DieSt) : (s.modDie d f).pcie = s.pcie := rfl
@[simp] theorem State.modDie_fold (s : State) (d : Die) (f : DieSt → DieSt) : (s.modDie d f).fold = s.fold := rfl
@[simp] theorem State.modDie_devReady (s : State) (d : Die) (f : DieSt → DieSt) : (s.modDie d f).devReady = s.devReady := rfl
@[simp] theorem State.modDie_restarting (s : State) (d : Die) (f : DieSt → DieSt) : (s.modDie d f).restarting = s.restarting := rfl
@[simp] theorem State.modDie_imageOnly (s : State) (d : Die) (f : DieSt → DieSt) : (s.modDie d f).imageOnly = s.imageOnly := rfl
@[simp] theorem State.modDie_shep (s : State) (d : Die) (f : DieSt → DieSt) : (s.modDie d f).shep = s.shep := rfl
@[simp] theorem State.setHome_pending (s : State) (q : Quad) (x : Home) : (s.setHome q x).pending = s.pending := rfl
@[simp] theorem State.setHome_free (s : State) (q : Quad) (x : Home) : (s.setHome q x).free = s.free := rfl
@[simp] theorem State.setHome_tb (s : State) (q : Quad) (x : Home) : (s.setHome q x).tb = s.tb := rfl
@[simp] theorem State.setHome_cores (s : State) (q : Quad) (x : Home) : (s.setHome q x).cores = s.cores := rfl
@[simp] theorem State.setHome_mem (s : State) (q : Quad) (x : Home) : (s.setHome q x).mem = s.mem := rfl
@[simp] theorem State.setHome_poisLine (s : State) (q : Quad) (x : Home) : (s.setHome q x).poisLine = s.poisLine := rfl
@[simp] theorem State.setHome_poisWord (s : State) (q : Quad) (x : Home) : (s.setHome q x).poisWord = s.poisWord := rfl
@[simp] theorem State.setHome_dies (s : State) (q : Quad) (x : Home) : (s.setHome q x).dies = s.dies := rfl
@[simp] theorem State.setHome_dt (s : State) (q : Quad) (x : Home) : (s.setHome q x).dt = s.dt := rfl
@[simp] theorem State.setHome_mcs (s : State) (q : Quad) (x : Home) : (s.setHome q x).mcs = s.mcs := rfl
@[simp] theorem State.setHome_mir (s : State) (q : Quad) (x : Home) : (s.setHome q x).mir = s.mir := rfl
@[simp] theorem State.setHome_ports (s : State) (q : Quad) (x : Home) : (s.setHome q x).ports = s.ports := rfl
@[simp] theorem State.setHome_sideband (s : State) (q : Quad) (x : Home) : (s.setHome q x).sideband = s.sideband := rfl
@[simp] theorem State.setHome_sbLast (s : State) (q : Quad) (x : Home) : (s.setHome q x).sbLast = s.sbLast := rfl
@[simp] theorem State.setHome_laserWait (s : State) (q : Quad) (x : Home) : (s.setHome q x).laserWait = s.laserWait := rfl
@[simp] theorem State.setHome_cp (s : State) (q : Quad) (x : Home) : (s.setHome q x).cp = s.cp := rfl
@[simp] theorem State.setHome_net (s : State) (q : Quad) (x : Home) : (s.setHome q x).net = s.net := rfl
@[simp] theorem State.setHome_reqs (s : State) (q : Quad) (x : Home) : (s.setHome q x).reqs = s.reqs := rfl
@[simp] theorem State.setHome_place (s : State) (q : Quad) (x : Home) : (s.setHome q x).place = s.place := rfl
@[simp] theorem State.setHome_moves (s : State) (q : Quad) (x : Home) : (s.setHome q x).moves = s.moves := rfl
@[simp] theorem State.setHome_lastDie (s : State) (q : Quad) (x : Home) : (s.setHome q x).lastDie = s.lastDie := rfl
@[simp] theorem State.setHome_fuse (s : State) (q : Quad) (x : Home) : (s.setHome q x).fuse = s.fuse := rfl
@[simp] theorem State.setHome_slotSt (s : State) (q : Quad) (x : Home) : (s.setHome q x).slotSt = s.slotSt := rfl
@[simp] theorem State.setHome_beatRate (s : State) (q : Quad) (x : Home) : (s.setHome q x).beatRate = s.beatRate := rfl
@[simp] theorem State.setHome_beatBase (s : State) (q : Quad) (x : Home) : (s.setHome q x).beatBase = s.beatBase := rfl
@[simp] theorem State.setHome_beatSt (s : State) (q : Quad) (x : Home) : (s.setHome q x).beatSt = s.beatSt := rfl
@[simp] theorem State.setHome_evq (s : State) (q : Quad) (x : Home) : (s.setHome q x).evq = s.evq := rfl
@[simp] theorem State.setHome_evDropped (s : State) (q : Quad) (x : Home) : (s.setHome q x).evDropped = s.evDropped := rfl
@[simp] theorem State.setHome_denyAt (s : State) (q : Quad) (x : Home) : (s.setHome q x).denyAt = s.denyAt := rfl
@[simp] theorem State.setHome_reports (s : State) (q : Quad) (x : Home) : (s.setHome q x).reports = s.reports := rfl
@[simp] theorem State.setHome_slotCrit (s : State) (q : Quad) (x : Home) : (s.setHome q x).slotCrit = s.slotCrit := rfl
@[simp] theorem State.setHome_regHeld (s : State) (q : Quad) (x : Home) : (s.setHome q x).regHeld = s.regHeld := rfl
@[simp] theorem State.setHome_shed2 (s : State) (q : Quad) (x : Home) : (s.setHome q x).shed2 = s.shed2 := rfl
@[simp] theorem State.setHome_reg0 (s : State) (q : Quad) (x : Home) : (s.setHome q x).reg0 = s.reg0 := rfl
@[simp] theorem State.setHome_uarts (s : State) (q : Quad) (x : Home) : (s.setHome q x).uarts = s.uarts := rfl
@[simp] theorem State.setHome_i2cs (s : State) (q : Quad) (x : Home) : (s.setHome q x).i2cs = s.i2cs := rfl
@[simp] theorem State.setHome_gpios (s : State) (q : Quad) (x : Home) : (s.setHome q x).gpios = s.gpios := rfl
@[simp] theorem State.setHome_rtrBytes (s : State) (q : Quad) (x : Home) : (s.setHome q x).rtrBytes = s.rtrBytes := rfl
@[simp] theorem State.setHome_rtrWin (s : State) (q : Quad) (x : Home) : (s.setHome q x).rtrWin = s.rtrWin := rfl
@[simp] theorem State.setHome_latchHi (s : State) (q : Quad) (x : Home) : (s.setHome q x).latchHi = s.latchHi := rfl
@[simp] theorem State.setHome_loupes (s : State) (q : Quad) (x : Home) : (s.setHome q x).loupes = s.loupes := rfl
@[simp] theorem State.setHome_trace (s : State) (q : Quad) (x : Home) : (s.setHome q x).trace = s.trace := rfl
@[simp] theorem State.setHome_snap (s : State) (q : Quad) (x : Home) : (s.setHome q x).snap = s.snap := rfl
@[simp] theorem State.setHome_tap (s : State) (q : Quad) (x : Home) : (s.setHome q x).tap = s.tap := rfl
@[simp] theorem State.setHome_stOffset (s : State) (q : Quad) (x : Home) : (s.setHome q x).stOffset = s.stOffset := rfl
@[simp] theorem State.setHome_stValid (s : State) (q : Quad) (x : Home) : (s.setHome q x).stValid = s.stValid := rfl
@[simp] theorem State.setHome_stAlarm (s : State) (q : Quad) (x : Home) : (s.setHome q x).stAlarm = s.stAlarm := rfl
@[simp] theorem State.setHome_stAlarmed (s : State) (q : Quad) (x : Home) : (s.setHome q x).stAlarmed = s.stAlarmed := rfl
@[simp] theorem State.setHome_scntBase (s : State) (q : Quad) (x : Home) : (s.setHome q x).scntBase = s.scntBase := rfl
@[simp] theorem State.setHome_pcie (s : State) (q : Quad) (x : Home) : (s.setHome q x).pcie = s.pcie := rfl
@[simp] theorem State.setHome_fold (s : State) (q : Quad) (x : Home) : (s.setHome q x).fold = s.fold := rfl
@[simp] theorem State.setHome_devReady (s : State) (q : Quad) (x : Home) : (s.setHome q x).devReady = s.devReady := rfl
@[simp] theorem State.setHome_restarting (s : State) (q : Quad) (x : Home) : (s.setHome q x).restarting = s.restarting := rfl
@[simp] theorem State.setHome_imageOnly (s : State) (q : Quad) (x : Home) : (s.setHome q x).imageOnly = s.imageOnly := rfl
@[simp] theorem State.setHome_shep (s : State) (q : Quad) (x : Home) : (s.setHome q x).shep = s.shep := rfl
@[simp] theorem State.modHome_pending (s : State) (q : Quad) (f : Home → Home) : (s.modHome q f).pending = s.pending := rfl
@[simp] theorem State.modHome_free (s : State) (q : Quad) (f : Home → Home) : (s.modHome q f).free = s.free := rfl
@[simp] theorem State.modHome_tb (s : State) (q : Quad) (f : Home → Home) : (s.modHome q f).tb = s.tb := rfl
@[simp] theorem State.modHome_cores (s : State) (q : Quad) (f : Home → Home) : (s.modHome q f).cores = s.cores := rfl
@[simp] theorem State.modHome_mem (s : State) (q : Quad) (f : Home → Home) : (s.modHome q f).mem = s.mem := rfl
@[simp] theorem State.modHome_poisLine (s : State) (q : Quad) (f : Home → Home) : (s.modHome q f).poisLine = s.poisLine := rfl
@[simp] theorem State.modHome_poisWord (s : State) (q : Quad) (f : Home → Home) : (s.modHome q f).poisWord = s.poisWord := rfl
@[simp] theorem State.modHome_dies (s : State) (q : Quad) (f : Home → Home) : (s.modHome q f).dies = s.dies := rfl
@[simp] theorem State.modHome_dt (s : State) (q : Quad) (f : Home → Home) : (s.modHome q f).dt = s.dt := rfl
@[simp] theorem State.modHome_mcs (s : State) (q : Quad) (f : Home → Home) : (s.modHome q f).mcs = s.mcs := rfl
@[simp] theorem State.modHome_mir (s : State) (q : Quad) (f : Home → Home) : (s.modHome q f).mir = s.mir := rfl
@[simp] theorem State.modHome_ports (s : State) (q : Quad) (f : Home → Home) : (s.modHome q f).ports = s.ports := rfl
@[simp] theorem State.modHome_sideband (s : State) (q : Quad) (f : Home → Home) : (s.modHome q f).sideband = s.sideband := rfl
@[simp] theorem State.modHome_sbLast (s : State) (q : Quad) (f : Home → Home) : (s.modHome q f).sbLast = s.sbLast := rfl
@[simp] theorem State.modHome_laserWait (s : State) (q : Quad) (f : Home → Home) : (s.modHome q f).laserWait = s.laserWait := rfl
@[simp] theorem State.modHome_cp (s : State) (q : Quad) (f : Home → Home) : (s.modHome q f).cp = s.cp := rfl
@[simp] theorem State.modHome_net (s : State) (q : Quad) (f : Home → Home) : (s.modHome q f).net = s.net := rfl
@[simp] theorem State.modHome_reqs (s : State) (q : Quad) (f : Home → Home) : (s.modHome q f).reqs = s.reqs := rfl
@[simp] theorem State.modHome_place (s : State) (q : Quad) (f : Home → Home) : (s.modHome q f).place = s.place := rfl
@[simp] theorem State.modHome_moves (s : State) (q : Quad) (f : Home → Home) : (s.modHome q f).moves = s.moves := rfl
@[simp] theorem State.modHome_lastDie (s : State) (q : Quad) (f : Home → Home) : (s.modHome q f).lastDie = s.lastDie := rfl
@[simp] theorem State.modHome_fuse (s : State) (q : Quad) (f : Home → Home) : (s.modHome q f).fuse = s.fuse := rfl
@[simp] theorem State.modHome_slotSt (s : State) (q : Quad) (f : Home → Home) : (s.modHome q f).slotSt = s.slotSt := rfl
@[simp] theorem State.modHome_beatRate (s : State) (q : Quad) (f : Home → Home) : (s.modHome q f).beatRate = s.beatRate := rfl
@[simp] theorem State.modHome_beatBase (s : State) (q : Quad) (f : Home → Home) : (s.modHome q f).beatBase = s.beatBase := rfl
@[simp] theorem State.modHome_beatSt (s : State) (q : Quad) (f : Home → Home) : (s.modHome q f).beatSt = s.beatSt := rfl
@[simp] theorem State.modHome_evq (s : State) (q : Quad) (f : Home → Home) : (s.modHome q f).evq = s.evq := rfl
@[simp] theorem State.modHome_evDropped (s : State) (q : Quad) (f : Home → Home) : (s.modHome q f).evDropped = s.evDropped := rfl
@[simp] theorem State.modHome_denyAt (s : State) (q : Quad) (f : Home → Home) : (s.modHome q f).denyAt = s.denyAt := rfl
@[simp] theorem State.modHome_reports (s : State) (q : Quad) (f : Home → Home) : (s.modHome q f).reports = s.reports := rfl
@[simp] theorem State.modHome_slotCrit (s : State) (q : Quad) (f : Home → Home) : (s.modHome q f).slotCrit = s.slotCrit := rfl
@[simp] theorem State.modHome_regHeld (s : State) (q : Quad) (f : Home → Home) : (s.modHome q f).regHeld = s.regHeld := rfl
@[simp] theorem State.modHome_shed2 (s : State) (q : Quad) (f : Home → Home) : (s.modHome q f).shed2 = s.shed2 := rfl
@[simp] theorem State.modHome_reg0 (s : State) (q : Quad) (f : Home → Home) : (s.modHome q f).reg0 = s.reg0 := rfl
@[simp] theorem State.modHome_uarts (s : State) (q : Quad) (f : Home → Home) : (s.modHome q f).uarts = s.uarts := rfl
@[simp] theorem State.modHome_i2cs (s : State) (q : Quad) (f : Home → Home) : (s.modHome q f).i2cs = s.i2cs := rfl
@[simp] theorem State.modHome_gpios (s : State) (q : Quad) (f : Home → Home) : (s.modHome q f).gpios = s.gpios := rfl
@[simp] theorem State.modHome_rtrBytes (s : State) (q : Quad) (f : Home → Home) : (s.modHome q f).rtrBytes = s.rtrBytes := rfl
@[simp] theorem State.modHome_rtrWin (s : State) (q : Quad) (f : Home → Home) : (s.modHome q f).rtrWin = s.rtrWin := rfl
@[simp] theorem State.modHome_latchHi (s : State) (q : Quad) (f : Home → Home) : (s.modHome q f).latchHi = s.latchHi := rfl
@[simp] theorem State.modHome_loupes (s : State) (q : Quad) (f : Home → Home) : (s.modHome q f).loupes = s.loupes := rfl
@[simp] theorem State.modHome_trace (s : State) (q : Quad) (f : Home → Home) : (s.modHome q f).trace = s.trace := rfl
@[simp] theorem State.modHome_snap (s : State) (q : Quad) (f : Home → Home) : (s.modHome q f).snap = s.snap := rfl
@[simp] theorem State.modHome_tap (s : State) (q : Quad) (f : Home → Home) : (s.modHome q f).tap = s.tap := rfl
@[simp] theorem State.modHome_stOffset (s : State) (q : Quad) (f : Home → Home) : (s.modHome q f).stOffset = s.stOffset := rfl
@[simp] theorem State.modHome_stValid (s : State) (q : Quad) (f : Home → Home) : (s.modHome q f).stValid = s.stValid := rfl
@[simp] theorem State.modHome_stAlarm (s : State) (q : Quad) (f : Home → Home) : (s.modHome q f).stAlarm = s.stAlarm := rfl
@[simp] theorem State.modHome_stAlarmed (s : State) (q : Quad) (f : Home → Home) : (s.modHome q f).stAlarmed = s.stAlarmed := rfl
@[simp] theorem State.modHome_scntBase (s : State) (q : Quad) (f : Home → Home) : (s.modHome q f).scntBase = s.scntBase := rfl
@[simp] theorem State.modHome_pcie (s : State) (q : Quad) (f : Home → Home) : (s.modHome q f).pcie = s.pcie := rfl
@[simp] theorem State.modHome_fold (s : State) (q : Quad) (f : Home → Home) : (s.modHome q f).fold = s.fold := rfl
@[simp] theorem State.modHome_devReady (s : State) (q : Quad) (f : Home → Home) : (s.modHome q f).devReady = s.devReady := rfl
@[simp] theorem State.modHome_restarting (s : State) (q : Quad) (f : Home → Home) : (s.modHome q f).restarting = s.restarting := rfl
@[simp] theorem State.modHome_imageOnly (s : State) (q : Quad) (f : Home → Home) : (s.modHome q f).imageOnly = s.imageOnly := rfl
@[simp] theorem State.modHome_shep (s : State) (q : Quad) (f : Home → Home) : (s.modHome q f).shep = s.shep := rfl
@[simp] theorem State.setMc_pending (s : State) (q : Quad) (x : Mc) : (s.setMc q x).pending = s.pending := rfl
@[simp] theorem State.setMc_free (s : State) (q : Quad) (x : Mc) : (s.setMc q x).free = s.free := rfl
@[simp] theorem State.setMc_tb (s : State) (q : Quad) (x : Mc) : (s.setMc q x).tb = s.tb := rfl
@[simp] theorem State.setMc_cores (s : State) (q : Quad) (x : Mc) : (s.setMc q x).cores = s.cores := rfl
@[simp] theorem State.setMc_mem (s : State) (q : Quad) (x : Mc) : (s.setMc q x).mem = s.mem := rfl
@[simp] theorem State.setMc_poisLine (s : State) (q : Quad) (x : Mc) : (s.setMc q x).poisLine = s.poisLine := rfl
@[simp] theorem State.setMc_poisWord (s : State) (q : Quad) (x : Mc) : (s.setMc q x).poisWord = s.poisWord := rfl
@[simp] theorem State.setMc_dies (s : State) (q : Quad) (x : Mc) : (s.setMc q x).dies = s.dies := rfl
@[simp] theorem State.setMc_dt (s : State) (q : Quad) (x : Mc) : (s.setMc q x).dt = s.dt := rfl
@[simp] theorem State.setMc_homes (s : State) (q : Quad) (x : Mc) : (s.setMc q x).homes = s.homes := rfl
@[simp] theorem State.setMc_mir (s : State) (q : Quad) (x : Mc) : (s.setMc q x).mir = s.mir := rfl
@[simp] theorem State.setMc_ports (s : State) (q : Quad) (x : Mc) : (s.setMc q x).ports = s.ports := rfl
@[simp] theorem State.setMc_sideband (s : State) (q : Quad) (x : Mc) : (s.setMc q x).sideband = s.sideband := rfl
@[simp] theorem State.setMc_sbLast (s : State) (q : Quad) (x : Mc) : (s.setMc q x).sbLast = s.sbLast := rfl
@[simp] theorem State.setMc_laserWait (s : State) (q : Quad) (x : Mc) : (s.setMc q x).laserWait = s.laserWait := rfl
@[simp] theorem State.setMc_cp (s : State) (q : Quad) (x : Mc) : (s.setMc q x).cp = s.cp := rfl
@[simp] theorem State.setMc_net (s : State) (q : Quad) (x : Mc) : (s.setMc q x).net = s.net := rfl
@[simp] theorem State.setMc_reqs (s : State) (q : Quad) (x : Mc) : (s.setMc q x).reqs = s.reqs := rfl
@[simp] theorem State.setMc_place (s : State) (q : Quad) (x : Mc) : (s.setMc q x).place = s.place := rfl
@[simp] theorem State.setMc_moves (s : State) (q : Quad) (x : Mc) : (s.setMc q x).moves = s.moves := rfl
@[simp] theorem State.setMc_lastDie (s : State) (q : Quad) (x : Mc) : (s.setMc q x).lastDie = s.lastDie := rfl
@[simp] theorem State.setMc_fuse (s : State) (q : Quad) (x : Mc) : (s.setMc q x).fuse = s.fuse := rfl
@[simp] theorem State.setMc_slotSt (s : State) (q : Quad) (x : Mc) : (s.setMc q x).slotSt = s.slotSt := rfl
@[simp] theorem State.setMc_beatRate (s : State) (q : Quad) (x : Mc) : (s.setMc q x).beatRate = s.beatRate := rfl
@[simp] theorem State.setMc_beatBase (s : State) (q : Quad) (x : Mc) : (s.setMc q x).beatBase = s.beatBase := rfl
@[simp] theorem State.setMc_beatSt (s : State) (q : Quad) (x : Mc) : (s.setMc q x).beatSt = s.beatSt := rfl
@[simp] theorem State.setMc_evq (s : State) (q : Quad) (x : Mc) : (s.setMc q x).evq = s.evq := rfl
@[simp] theorem State.setMc_evDropped (s : State) (q : Quad) (x : Mc) : (s.setMc q x).evDropped = s.evDropped := rfl
@[simp] theorem State.setMc_denyAt (s : State) (q : Quad) (x : Mc) : (s.setMc q x).denyAt = s.denyAt := rfl
@[simp] theorem State.setMc_reports (s : State) (q : Quad) (x : Mc) : (s.setMc q x).reports = s.reports := rfl
@[simp] theorem State.setMc_slotCrit (s : State) (q : Quad) (x : Mc) : (s.setMc q x).slotCrit = s.slotCrit := rfl
@[simp] theorem State.setMc_regHeld (s : State) (q : Quad) (x : Mc) : (s.setMc q x).regHeld = s.regHeld := rfl
@[simp] theorem State.setMc_shed2 (s : State) (q : Quad) (x : Mc) : (s.setMc q x).shed2 = s.shed2 := rfl
@[simp] theorem State.setMc_reg0 (s : State) (q : Quad) (x : Mc) : (s.setMc q x).reg0 = s.reg0 := rfl
@[simp] theorem State.setMc_uarts (s : State) (q : Quad) (x : Mc) : (s.setMc q x).uarts = s.uarts := rfl
@[simp] theorem State.setMc_i2cs (s : State) (q : Quad) (x : Mc) : (s.setMc q x).i2cs = s.i2cs := rfl
@[simp] theorem State.setMc_gpios (s : State) (q : Quad) (x : Mc) : (s.setMc q x).gpios = s.gpios := rfl
@[simp] theorem State.setMc_rtrBytes (s : State) (q : Quad) (x : Mc) : (s.setMc q x).rtrBytes = s.rtrBytes := rfl
@[simp] theorem State.setMc_rtrWin (s : State) (q : Quad) (x : Mc) : (s.setMc q x).rtrWin = s.rtrWin := rfl
@[simp] theorem State.setMc_latchHi (s : State) (q : Quad) (x : Mc) : (s.setMc q x).latchHi = s.latchHi := rfl
@[simp] theorem State.setMc_loupes (s : State) (q : Quad) (x : Mc) : (s.setMc q x).loupes = s.loupes := rfl
@[simp] theorem State.setMc_trace (s : State) (q : Quad) (x : Mc) : (s.setMc q x).trace = s.trace := rfl
@[simp] theorem State.setMc_snap (s : State) (q : Quad) (x : Mc) : (s.setMc q x).snap = s.snap := rfl
@[simp] theorem State.setMc_tap (s : State) (q : Quad) (x : Mc) : (s.setMc q x).tap = s.tap := rfl
@[simp] theorem State.setMc_stOffset (s : State) (q : Quad) (x : Mc) : (s.setMc q x).stOffset = s.stOffset := rfl
@[simp] theorem State.setMc_stValid (s : State) (q : Quad) (x : Mc) : (s.setMc q x).stValid = s.stValid := rfl
@[simp] theorem State.setMc_stAlarm (s : State) (q : Quad) (x : Mc) : (s.setMc q x).stAlarm = s.stAlarm := rfl
@[simp] theorem State.setMc_stAlarmed (s : State) (q : Quad) (x : Mc) : (s.setMc q x).stAlarmed = s.stAlarmed := rfl
@[simp] theorem State.setMc_scntBase (s : State) (q : Quad) (x : Mc) : (s.setMc q x).scntBase = s.scntBase := rfl
@[simp] theorem State.setMc_pcie (s : State) (q : Quad) (x : Mc) : (s.setMc q x).pcie = s.pcie := rfl
@[simp] theorem State.setMc_fold (s : State) (q : Quad) (x : Mc) : (s.setMc q x).fold = s.fold := rfl
@[simp] theorem State.setMc_devReady (s : State) (q : Quad) (x : Mc) : (s.setMc q x).devReady = s.devReady := rfl
@[simp] theorem State.setMc_restarting (s : State) (q : Quad) (x : Mc) : (s.setMc q x).restarting = s.restarting := rfl
@[simp] theorem State.setMc_imageOnly (s : State) (q : Quad) (x : Mc) : (s.setMc q x).imageOnly = s.imageOnly := rfl
@[simp] theorem State.setMc_shep (s : State) (q : Quad) (x : Mc) : (s.setMc q x).shep = s.shep := rfl
@[simp] theorem State.modMc_pending (s : State) (q : Quad) (f : Mc → Mc) : (s.modMc q f).pending = s.pending := rfl
@[simp] theorem State.modMc_free (s : State) (q : Quad) (f : Mc → Mc) : (s.modMc q f).free = s.free := rfl
@[simp] theorem State.modMc_tb (s : State) (q : Quad) (f : Mc → Mc) : (s.modMc q f).tb = s.tb := rfl
@[simp] theorem State.modMc_cores (s : State) (q : Quad) (f : Mc → Mc) : (s.modMc q f).cores = s.cores := rfl
@[simp] theorem State.modMc_mem (s : State) (q : Quad) (f : Mc → Mc) : (s.modMc q f).mem = s.mem := rfl
@[simp] theorem State.modMc_poisLine (s : State) (q : Quad) (f : Mc → Mc) : (s.modMc q f).poisLine = s.poisLine := rfl
@[simp] theorem State.modMc_poisWord (s : State) (q : Quad) (f : Mc → Mc) : (s.modMc q f).poisWord = s.poisWord := rfl
@[simp] theorem State.modMc_dies (s : State) (q : Quad) (f : Mc → Mc) : (s.modMc q f).dies = s.dies := rfl
@[simp] theorem State.modMc_dt (s : State) (q : Quad) (f : Mc → Mc) : (s.modMc q f).dt = s.dt := rfl
@[simp] theorem State.modMc_homes (s : State) (q : Quad) (f : Mc → Mc) : (s.modMc q f).homes = s.homes := rfl
@[simp] theorem State.modMc_mir (s : State) (q : Quad) (f : Mc → Mc) : (s.modMc q f).mir = s.mir := rfl
@[simp] theorem State.modMc_ports (s : State) (q : Quad) (f : Mc → Mc) : (s.modMc q f).ports = s.ports := rfl
@[simp] theorem State.modMc_sideband (s : State) (q : Quad) (f : Mc → Mc) : (s.modMc q f).sideband = s.sideband := rfl
@[simp] theorem State.modMc_sbLast (s : State) (q : Quad) (f : Mc → Mc) : (s.modMc q f).sbLast = s.sbLast := rfl
@[simp] theorem State.modMc_laserWait (s : State) (q : Quad) (f : Mc → Mc) : (s.modMc q f).laserWait = s.laserWait := rfl
@[simp] theorem State.modMc_cp (s : State) (q : Quad) (f : Mc → Mc) : (s.modMc q f).cp = s.cp := rfl
@[simp] theorem State.modMc_net (s : State) (q : Quad) (f : Mc → Mc) : (s.modMc q f).net = s.net := rfl
@[simp] theorem State.modMc_reqs (s : State) (q : Quad) (f : Mc → Mc) : (s.modMc q f).reqs = s.reqs := rfl
@[simp] theorem State.modMc_place (s : State) (q : Quad) (f : Mc → Mc) : (s.modMc q f).place = s.place := rfl
@[simp] theorem State.modMc_moves (s : State) (q : Quad) (f : Mc → Mc) : (s.modMc q f).moves = s.moves := rfl
@[simp] theorem State.modMc_lastDie (s : State) (q : Quad) (f : Mc → Mc) : (s.modMc q f).lastDie = s.lastDie := rfl
@[simp] theorem State.modMc_fuse (s : State) (q : Quad) (f : Mc → Mc) : (s.modMc q f).fuse = s.fuse := rfl
@[simp] theorem State.modMc_slotSt (s : State) (q : Quad) (f : Mc → Mc) : (s.modMc q f).slotSt = s.slotSt := rfl
@[simp] theorem State.modMc_beatRate (s : State) (q : Quad) (f : Mc → Mc) : (s.modMc q f).beatRate = s.beatRate := rfl
@[simp] theorem State.modMc_beatBase (s : State) (q : Quad) (f : Mc → Mc) : (s.modMc q f).beatBase = s.beatBase := rfl
@[simp] theorem State.modMc_beatSt (s : State) (q : Quad) (f : Mc → Mc) : (s.modMc q f).beatSt = s.beatSt := rfl
@[simp] theorem State.modMc_evq (s : State) (q : Quad) (f : Mc → Mc) : (s.modMc q f).evq = s.evq := rfl
@[simp] theorem State.modMc_evDropped (s : State) (q : Quad) (f : Mc → Mc) : (s.modMc q f).evDropped = s.evDropped := rfl
@[simp] theorem State.modMc_denyAt (s : State) (q : Quad) (f : Mc → Mc) : (s.modMc q f).denyAt = s.denyAt := rfl
@[simp] theorem State.modMc_reports (s : State) (q : Quad) (f : Mc → Mc) : (s.modMc q f).reports = s.reports := rfl
@[simp] theorem State.modMc_slotCrit (s : State) (q : Quad) (f : Mc → Mc) : (s.modMc q f).slotCrit = s.slotCrit := rfl
@[simp] theorem State.modMc_regHeld (s : State) (q : Quad) (f : Mc → Mc) : (s.modMc q f).regHeld = s.regHeld := rfl
@[simp] theorem State.modMc_shed2 (s : State) (q : Quad) (f : Mc → Mc) : (s.modMc q f).shed2 = s.shed2 := rfl
@[simp] theorem State.modMc_reg0 (s : State) (q : Quad) (f : Mc → Mc) : (s.modMc q f).reg0 = s.reg0 := rfl
@[simp] theorem State.modMc_uarts (s : State) (q : Quad) (f : Mc → Mc) : (s.modMc q f).uarts = s.uarts := rfl
@[simp] theorem State.modMc_i2cs (s : State) (q : Quad) (f : Mc → Mc) : (s.modMc q f).i2cs = s.i2cs := rfl
@[simp] theorem State.modMc_gpios (s : State) (q : Quad) (f : Mc → Mc) : (s.modMc q f).gpios = s.gpios := rfl
@[simp] theorem State.modMc_rtrBytes (s : State) (q : Quad) (f : Mc → Mc) : (s.modMc q f).rtrBytes = s.rtrBytes := rfl
@[simp] theorem State.modMc_rtrWin (s : State) (q : Quad) (f : Mc → Mc) : (s.modMc q f).rtrWin = s.rtrWin := rfl
@[simp] theorem State.modMc_latchHi (s : State) (q : Quad) (f : Mc → Mc) : (s.modMc q f).latchHi = s.latchHi := rfl
@[simp] theorem State.modMc_loupes (s : State) (q : Quad) (f : Mc → Mc) : (s.modMc q f).loupes = s.loupes := rfl
@[simp] theorem State.modMc_trace (s : State) (q : Quad) (f : Mc → Mc) : (s.modMc q f).trace = s.trace := rfl
@[simp] theorem State.modMc_snap (s : State) (q : Quad) (f : Mc → Mc) : (s.modMc q f).snap = s.snap := rfl
@[simp] theorem State.modMc_tap (s : State) (q : Quad) (f : Mc → Mc) : (s.modMc q f).tap = s.tap := rfl
@[simp] theorem State.modMc_stOffset (s : State) (q : Quad) (f : Mc → Mc) : (s.modMc q f).stOffset = s.stOffset := rfl
@[simp] theorem State.modMc_stValid (s : State) (q : Quad) (f : Mc → Mc) : (s.modMc q f).stValid = s.stValid := rfl
@[simp] theorem State.modMc_stAlarm (s : State) (q : Quad) (f : Mc → Mc) : (s.modMc q f).stAlarm = s.stAlarm := rfl
@[simp] theorem State.modMc_stAlarmed (s : State) (q : Quad) (f : Mc → Mc) : (s.modMc q f).stAlarmed = s.stAlarmed := rfl
@[simp] theorem State.modMc_scntBase (s : State) (q : Quad) (f : Mc → Mc) : (s.modMc q f).scntBase = s.scntBase := rfl
@[simp] theorem State.modMc_pcie (s : State) (q : Quad) (f : Mc → Mc) : (s.modMc q f).pcie = s.pcie := rfl
@[simp] theorem State.modMc_fold (s : State) (q : Quad) (f : Mc → Mc) : (s.modMc q f).fold = s.fold := rfl
@[simp] theorem State.modMc_devReady (s : State) (q : Quad) (f : Mc → Mc) : (s.modMc q f).devReady = s.devReady := rfl
@[simp] theorem State.modMc_restarting (s : State) (q : Quad) (f : Mc → Mc) : (s.modMc q f).restarting = s.restarting := rfl
@[simp] theorem State.modMc_imageOnly (s : State) (q : Quad) (f : Mc → Mc) : (s.modMc q f).imageOnly = s.imageOnly := rfl
@[simp] theorem State.modMc_shep (s : State) (q : Quad) (f : Mc → Mc) : (s.modMc q f).shep = s.shep := rfl
@[simp] theorem State.cpSet_pending (s : State) (a : Nat) (v : Word32) : (s.cpSet a v).pending = s.pending := rfl
@[simp] theorem State.cpSet_free (s : State) (a : Nat) (v : Word32) : (s.cpSet a v).free = s.free := rfl
@[simp] theorem State.cpSet_tb (s : State) (a : Nat) (v : Word32) : (s.cpSet a v).tb = s.tb := rfl
@[simp] theorem State.cpSet_cores (s : State) (a : Nat) (v : Word32) : (s.cpSet a v).cores = s.cores := rfl
@[simp] theorem State.cpSet_mem (s : State) (a : Nat) (v : Word32) : (s.cpSet a v).mem = s.mem := rfl
@[simp] theorem State.cpSet_poisLine (s : State) (a : Nat) (v : Word32) : (s.cpSet a v).poisLine = s.poisLine := rfl
@[simp] theorem State.cpSet_poisWord (s : State) (a : Nat) (v : Word32) : (s.cpSet a v).poisWord = s.poisWord := rfl
@[simp] theorem State.cpSet_dies (s : State) (a : Nat) (v : Word32) : (s.cpSet a v).dies = s.dies := rfl
@[simp] theorem State.cpSet_dt (s : State) (a : Nat) (v : Word32) : (s.cpSet a v).dt = s.dt := rfl
@[simp] theorem State.cpSet_homes (s : State) (a : Nat) (v : Word32) : (s.cpSet a v).homes = s.homes := rfl
@[simp] theorem State.cpSet_mcs (s : State) (a : Nat) (v : Word32) : (s.cpSet a v).mcs = s.mcs := rfl
@[simp] theorem State.cpSet_mir (s : State) (a : Nat) (v : Word32) : (s.cpSet a v).mir = s.mir := rfl
@[simp] theorem State.cpSet_ports (s : State) (a : Nat) (v : Word32) : (s.cpSet a v).ports = s.ports := rfl
@[simp] theorem State.cpSet_sideband (s : State) (a : Nat) (v : Word32) : (s.cpSet a v).sideband = s.sideband := rfl
@[simp] theorem State.cpSet_sbLast (s : State) (a : Nat) (v : Word32) : (s.cpSet a v).sbLast = s.sbLast := rfl
@[simp] theorem State.cpSet_laserWait (s : State) (a : Nat) (v : Word32) : (s.cpSet a v).laserWait = s.laserWait := rfl
@[simp] theorem State.cpSet_net (s : State) (a : Nat) (v : Word32) : (s.cpSet a v).net = s.net := rfl
@[simp] theorem State.cpSet_reqs (s : State) (a : Nat) (v : Word32) : (s.cpSet a v).reqs = s.reqs := rfl
@[simp] theorem State.cpSet_place (s : State) (a : Nat) (v : Word32) : (s.cpSet a v).place = s.place := rfl
@[simp] theorem State.cpSet_moves (s : State) (a : Nat) (v : Word32) : (s.cpSet a v).moves = s.moves := rfl
@[simp] theorem State.cpSet_lastDie (s : State) (a : Nat) (v : Word32) : (s.cpSet a v).lastDie = s.lastDie := rfl
@[simp] theorem State.cpSet_fuse (s : State) (a : Nat) (v : Word32) : (s.cpSet a v).fuse = s.fuse := rfl
@[simp] theorem State.cpSet_slotSt (s : State) (a : Nat) (v : Word32) : (s.cpSet a v).slotSt = s.slotSt := rfl
@[simp] theorem State.cpSet_beatRate (s : State) (a : Nat) (v : Word32) : (s.cpSet a v).beatRate = s.beatRate := rfl
@[simp] theorem State.cpSet_beatBase (s : State) (a : Nat) (v : Word32) : (s.cpSet a v).beatBase = s.beatBase := rfl
@[simp] theorem State.cpSet_beatSt (s : State) (a : Nat) (v : Word32) : (s.cpSet a v).beatSt = s.beatSt := rfl
@[simp] theorem State.cpSet_evq (s : State) (a : Nat) (v : Word32) : (s.cpSet a v).evq = s.evq := rfl
@[simp] theorem State.cpSet_evDropped (s : State) (a : Nat) (v : Word32) : (s.cpSet a v).evDropped = s.evDropped := rfl
@[simp] theorem State.cpSet_denyAt (s : State) (a : Nat) (v : Word32) : (s.cpSet a v).denyAt = s.denyAt := rfl
@[simp] theorem State.cpSet_reports (s : State) (a : Nat) (v : Word32) : (s.cpSet a v).reports = s.reports := rfl
@[simp] theorem State.cpSet_slotCrit (s : State) (a : Nat) (v : Word32) : (s.cpSet a v).slotCrit = s.slotCrit := rfl
@[simp] theorem State.cpSet_regHeld (s : State) (a : Nat) (v : Word32) : (s.cpSet a v).regHeld = s.regHeld := rfl
@[simp] theorem State.cpSet_shed2 (s : State) (a : Nat) (v : Word32) : (s.cpSet a v).shed2 = s.shed2 := rfl
@[simp] theorem State.cpSet_reg0 (s : State) (a : Nat) (v : Word32) : (s.cpSet a v).reg0 = s.reg0 := rfl
@[simp] theorem State.cpSet_uarts (s : State) (a : Nat) (v : Word32) : (s.cpSet a v).uarts = s.uarts := rfl
@[simp] theorem State.cpSet_i2cs (s : State) (a : Nat) (v : Word32) : (s.cpSet a v).i2cs = s.i2cs := rfl
@[simp] theorem State.cpSet_gpios (s : State) (a : Nat) (v : Word32) : (s.cpSet a v).gpios = s.gpios := rfl
@[simp] theorem State.cpSet_rtrBytes (s : State) (a : Nat) (v : Word32) : (s.cpSet a v).rtrBytes = s.rtrBytes := rfl
@[simp] theorem State.cpSet_rtrWin (s : State) (a : Nat) (v : Word32) : (s.cpSet a v).rtrWin = s.rtrWin := rfl
@[simp] theorem State.cpSet_latchHi (s : State) (a : Nat) (v : Word32) : (s.cpSet a v).latchHi = s.latchHi := rfl
@[simp] theorem State.cpSet_loupes (s : State) (a : Nat) (v : Word32) : (s.cpSet a v).loupes = s.loupes := rfl
@[simp] theorem State.cpSet_trace (s : State) (a : Nat) (v : Word32) : (s.cpSet a v).trace = s.trace := rfl
@[simp] theorem State.cpSet_snap (s : State) (a : Nat) (v : Word32) : (s.cpSet a v).snap = s.snap := rfl
@[simp] theorem State.cpSet_tap (s : State) (a : Nat) (v : Word32) : (s.cpSet a v).tap = s.tap := rfl
@[simp] theorem State.cpSet_stOffset (s : State) (a : Nat) (v : Word32) : (s.cpSet a v).stOffset = s.stOffset := rfl
@[simp] theorem State.cpSet_stValid (s : State) (a : Nat) (v : Word32) : (s.cpSet a v).stValid = s.stValid := rfl
@[simp] theorem State.cpSet_stAlarm (s : State) (a : Nat) (v : Word32) : (s.cpSet a v).stAlarm = s.stAlarm := rfl
@[simp] theorem State.cpSet_stAlarmed (s : State) (a : Nat) (v : Word32) : (s.cpSet a v).stAlarmed = s.stAlarmed := rfl
@[simp] theorem State.cpSet_scntBase (s : State) (a : Nat) (v : Word32) : (s.cpSet a v).scntBase = s.scntBase := rfl
@[simp] theorem State.cpSet_pcie (s : State) (a : Nat) (v : Word32) : (s.cpSet a v).pcie = s.pcie := rfl
@[simp] theorem State.cpSet_fold (s : State) (a : Nat) (v : Word32) : (s.cpSet a v).fold = s.fold := rfl
@[simp] theorem State.cpSet_devReady (s : State) (a : Nat) (v : Word32) : (s.cpSet a v).devReady = s.devReady := rfl
@[simp] theorem State.cpSet_restarting (s : State) (a : Nat) (v : Word32) : (s.cpSet a v).restarting = s.restarting := rfl
@[simp] theorem State.cpSet_imageOnly (s : State) (a : Nat) (v : Word32) : (s.cpSet a v).imageOnly = s.imageOnly := rfl
@[simp] theorem State.cpSet_shep (s : State) (a : Nat) (v : Word32) : (s.cpSet a v).shep = s.shep := rfl
@[simp] theorem State.cpSetField_pending (s : State) (a lo w x : Nat) : (s.cpSetField a lo w x).pending = s.pending := rfl
@[simp] theorem State.cpSetField_free (s : State) (a lo w x : Nat) : (s.cpSetField a lo w x).free = s.free := rfl
@[simp] theorem State.cpSetField_tb (s : State) (a lo w x : Nat) : (s.cpSetField a lo w x).tb = s.tb := rfl
@[simp] theorem State.cpSetField_cores (s : State) (a lo w x : Nat) : (s.cpSetField a lo w x).cores = s.cores := rfl
@[simp] theorem State.cpSetField_mem (s : State) (a lo w x : Nat) : (s.cpSetField a lo w x).mem = s.mem := rfl
@[simp] theorem State.cpSetField_poisLine (s : State) (a lo w x : Nat) : (s.cpSetField a lo w x).poisLine = s.poisLine := rfl
@[simp] theorem State.cpSetField_poisWord (s : State) (a lo w x : Nat) : (s.cpSetField a lo w x).poisWord = s.poisWord := rfl
@[simp] theorem State.cpSetField_dies (s : State) (a lo w x : Nat) : (s.cpSetField a lo w x).dies = s.dies := rfl
@[simp] theorem State.cpSetField_dt (s : State) (a lo w x : Nat) : (s.cpSetField a lo w x).dt = s.dt := rfl
@[simp] theorem State.cpSetField_homes (s : State) (a lo w x : Nat) : (s.cpSetField a lo w x).homes = s.homes := rfl
@[simp] theorem State.cpSetField_mcs (s : State) (a lo w x : Nat) : (s.cpSetField a lo w x).mcs = s.mcs := rfl
@[simp] theorem State.cpSetField_mir (s : State) (a lo w x : Nat) : (s.cpSetField a lo w x).mir = s.mir := rfl
@[simp] theorem State.cpSetField_ports (s : State) (a lo w x : Nat) : (s.cpSetField a lo w x).ports = s.ports := rfl
@[simp] theorem State.cpSetField_sideband (s : State) (a lo w x : Nat) : (s.cpSetField a lo w x).sideband = s.sideband := rfl
@[simp] theorem State.cpSetField_sbLast (s : State) (a lo w x : Nat) : (s.cpSetField a lo w x).sbLast = s.sbLast := rfl
@[simp] theorem State.cpSetField_laserWait (s : State) (a lo w x : Nat) : (s.cpSetField a lo w x).laserWait = s.laserWait := rfl
@[simp] theorem State.cpSetField_net (s : State) (a lo w x : Nat) : (s.cpSetField a lo w x).net = s.net := rfl
@[simp] theorem State.cpSetField_reqs (s : State) (a lo w x : Nat) : (s.cpSetField a lo w x).reqs = s.reqs := rfl
@[simp] theorem State.cpSetField_place (s : State) (a lo w x : Nat) : (s.cpSetField a lo w x).place = s.place := rfl
@[simp] theorem State.cpSetField_moves (s : State) (a lo w x : Nat) : (s.cpSetField a lo w x).moves = s.moves := rfl
@[simp] theorem State.cpSetField_lastDie (s : State) (a lo w x : Nat) : (s.cpSetField a lo w x).lastDie = s.lastDie := rfl
@[simp] theorem State.cpSetField_fuse (s : State) (a lo w x : Nat) : (s.cpSetField a lo w x).fuse = s.fuse := rfl
@[simp] theorem State.cpSetField_slotSt (s : State) (a lo w x : Nat) : (s.cpSetField a lo w x).slotSt = s.slotSt := rfl
@[simp] theorem State.cpSetField_beatRate (s : State) (a lo w x : Nat) : (s.cpSetField a lo w x).beatRate = s.beatRate := rfl
@[simp] theorem State.cpSetField_beatBase (s : State) (a lo w x : Nat) : (s.cpSetField a lo w x).beatBase = s.beatBase := rfl
@[simp] theorem State.cpSetField_beatSt (s : State) (a lo w x : Nat) : (s.cpSetField a lo w x).beatSt = s.beatSt := rfl
@[simp] theorem State.cpSetField_evq (s : State) (a lo w x : Nat) : (s.cpSetField a lo w x).evq = s.evq := rfl
@[simp] theorem State.cpSetField_evDropped (s : State) (a lo w x : Nat) : (s.cpSetField a lo w x).evDropped = s.evDropped := rfl
@[simp] theorem State.cpSetField_denyAt (s : State) (a lo w x : Nat) : (s.cpSetField a lo w x).denyAt = s.denyAt := rfl
@[simp] theorem State.cpSetField_reports (s : State) (a lo w x : Nat) : (s.cpSetField a lo w x).reports = s.reports := rfl
@[simp] theorem State.cpSetField_slotCrit (s : State) (a lo w x : Nat) : (s.cpSetField a lo w x).slotCrit = s.slotCrit := rfl
@[simp] theorem State.cpSetField_regHeld (s : State) (a lo w x : Nat) : (s.cpSetField a lo w x).regHeld = s.regHeld := rfl
@[simp] theorem State.cpSetField_shed2 (s : State) (a lo w x : Nat) : (s.cpSetField a lo w x).shed2 = s.shed2 := rfl
@[simp] theorem State.cpSetField_reg0 (s : State) (a lo w x : Nat) : (s.cpSetField a lo w x).reg0 = s.reg0 := rfl
@[simp] theorem State.cpSetField_uarts (s : State) (a lo w x : Nat) : (s.cpSetField a lo w x).uarts = s.uarts := rfl
@[simp] theorem State.cpSetField_i2cs (s : State) (a lo w x : Nat) : (s.cpSetField a lo w x).i2cs = s.i2cs := rfl
@[simp] theorem State.cpSetField_gpios (s : State) (a lo w x : Nat) : (s.cpSetField a lo w x).gpios = s.gpios := rfl
@[simp] theorem State.cpSetField_rtrBytes (s : State) (a lo w x : Nat) : (s.cpSetField a lo w x).rtrBytes = s.rtrBytes := rfl
@[simp] theorem State.cpSetField_rtrWin (s : State) (a lo w x : Nat) : (s.cpSetField a lo w x).rtrWin = s.rtrWin := rfl
@[simp] theorem State.cpSetField_latchHi (s : State) (a lo w x : Nat) : (s.cpSetField a lo w x).latchHi = s.latchHi := rfl
@[simp] theorem State.cpSetField_loupes (s : State) (a lo w x : Nat) : (s.cpSetField a lo w x).loupes = s.loupes := rfl
@[simp] theorem State.cpSetField_trace (s : State) (a lo w x : Nat) : (s.cpSetField a lo w x).trace = s.trace := rfl
@[simp] theorem State.cpSetField_snap (s : State) (a lo w x : Nat) : (s.cpSetField a lo w x).snap = s.snap := rfl
@[simp] theorem State.cpSetField_tap (s : State) (a lo w x : Nat) : (s.cpSetField a lo w x).tap = s.tap := rfl
@[simp] theorem State.cpSetField_stOffset (s : State) (a lo w x : Nat) : (s.cpSetField a lo w x).stOffset = s.stOffset := rfl
@[simp] theorem State.cpSetField_stValid (s : State) (a lo w x : Nat) : (s.cpSetField a lo w x).stValid = s.stValid := rfl
@[simp] theorem State.cpSetField_stAlarm (s : State) (a lo w x : Nat) : (s.cpSetField a lo w x).stAlarm = s.stAlarm := rfl
@[simp] theorem State.cpSetField_stAlarmed (s : State) (a lo w x : Nat) : (s.cpSetField a lo w x).stAlarmed = s.stAlarmed := rfl
@[simp] theorem State.cpSetField_scntBase (s : State) (a lo w x : Nat) : (s.cpSetField a lo w x).scntBase = s.scntBase := rfl
@[simp] theorem State.cpSetField_pcie (s : State) (a lo w x : Nat) : (s.cpSetField a lo w x).pcie = s.pcie := rfl
@[simp] theorem State.cpSetField_fold (s : State) (a lo w x : Nat) : (s.cpSetField a lo w x).fold = s.fold := rfl
@[simp] theorem State.cpSetField_devReady (s : State) (a lo w x : Nat) : (s.cpSetField a lo w x).devReady = s.devReady := rfl
@[simp] theorem State.cpSetField_restarting (s : State) (a lo w x : Nat) : (s.cpSetField a lo w x).restarting = s.restarting := rfl
@[simp] theorem State.cpSetField_imageOnly (s : State) (a lo w x : Nat) : (s.cpSetField a lo w x).imageOnly = s.imageOnly := rfl
@[simp] theorem State.cpSetField_shep (s : State) (a lo w x : Nat) : (s.cpSetField a lo w x).shep = s.shep := rfl
@[simp] theorem State.cpSet64_pending (s : State) (a : Nat) (v : Word) : (s.cpSet64 a v).pending = s.pending := rfl
@[simp] theorem State.cpSet64_free (s : State) (a : Nat) (v : Word) : (s.cpSet64 a v).free = s.free := rfl
@[simp] theorem State.cpSet64_tb (s : State) (a : Nat) (v : Word) : (s.cpSet64 a v).tb = s.tb := rfl
@[simp] theorem State.cpSet64_cores (s : State) (a : Nat) (v : Word) : (s.cpSet64 a v).cores = s.cores := rfl
@[simp] theorem State.cpSet64_mem (s : State) (a : Nat) (v : Word) : (s.cpSet64 a v).mem = s.mem := rfl
@[simp] theorem State.cpSet64_poisLine (s : State) (a : Nat) (v : Word) : (s.cpSet64 a v).poisLine = s.poisLine := rfl
@[simp] theorem State.cpSet64_poisWord (s : State) (a : Nat) (v : Word) : (s.cpSet64 a v).poisWord = s.poisWord := rfl
@[simp] theorem State.cpSet64_dies (s : State) (a : Nat) (v : Word) : (s.cpSet64 a v).dies = s.dies := rfl
@[simp] theorem State.cpSet64_dt (s : State) (a : Nat) (v : Word) : (s.cpSet64 a v).dt = s.dt := rfl
@[simp] theorem State.cpSet64_homes (s : State) (a : Nat) (v : Word) : (s.cpSet64 a v).homes = s.homes := rfl
@[simp] theorem State.cpSet64_mcs (s : State) (a : Nat) (v : Word) : (s.cpSet64 a v).mcs = s.mcs := rfl
@[simp] theorem State.cpSet64_mir (s : State) (a : Nat) (v : Word) : (s.cpSet64 a v).mir = s.mir := rfl
@[simp] theorem State.cpSet64_ports (s : State) (a : Nat) (v : Word) : (s.cpSet64 a v).ports = s.ports := rfl
@[simp] theorem State.cpSet64_sideband (s : State) (a : Nat) (v : Word) : (s.cpSet64 a v).sideband = s.sideband := rfl
@[simp] theorem State.cpSet64_sbLast (s : State) (a : Nat) (v : Word) : (s.cpSet64 a v).sbLast = s.sbLast := rfl
@[simp] theorem State.cpSet64_laserWait (s : State) (a : Nat) (v : Word) : (s.cpSet64 a v).laserWait = s.laserWait := rfl
@[simp] theorem State.cpSet64_net (s : State) (a : Nat) (v : Word) : (s.cpSet64 a v).net = s.net := rfl
@[simp] theorem State.cpSet64_reqs (s : State) (a : Nat) (v : Word) : (s.cpSet64 a v).reqs = s.reqs := rfl
@[simp] theorem State.cpSet64_place (s : State) (a : Nat) (v : Word) : (s.cpSet64 a v).place = s.place := rfl
@[simp] theorem State.cpSet64_moves (s : State) (a : Nat) (v : Word) : (s.cpSet64 a v).moves = s.moves := rfl
@[simp] theorem State.cpSet64_lastDie (s : State) (a : Nat) (v : Word) : (s.cpSet64 a v).lastDie = s.lastDie := rfl
@[simp] theorem State.cpSet64_fuse (s : State) (a : Nat) (v : Word) : (s.cpSet64 a v).fuse = s.fuse := rfl
@[simp] theorem State.cpSet64_slotSt (s : State) (a : Nat) (v : Word) : (s.cpSet64 a v).slotSt = s.slotSt := rfl
@[simp] theorem State.cpSet64_beatRate (s : State) (a : Nat) (v : Word) : (s.cpSet64 a v).beatRate = s.beatRate := rfl
@[simp] theorem State.cpSet64_beatBase (s : State) (a : Nat) (v : Word) : (s.cpSet64 a v).beatBase = s.beatBase := rfl
@[simp] theorem State.cpSet64_beatSt (s : State) (a : Nat) (v : Word) : (s.cpSet64 a v).beatSt = s.beatSt := rfl
@[simp] theorem State.cpSet64_evq (s : State) (a : Nat) (v : Word) : (s.cpSet64 a v).evq = s.evq := rfl
@[simp] theorem State.cpSet64_evDropped (s : State) (a : Nat) (v : Word) : (s.cpSet64 a v).evDropped = s.evDropped := rfl
@[simp] theorem State.cpSet64_denyAt (s : State) (a : Nat) (v : Word) : (s.cpSet64 a v).denyAt = s.denyAt := rfl
@[simp] theorem State.cpSet64_reports (s : State) (a : Nat) (v : Word) : (s.cpSet64 a v).reports = s.reports := rfl
@[simp] theorem State.cpSet64_slotCrit (s : State) (a : Nat) (v : Word) : (s.cpSet64 a v).slotCrit = s.slotCrit := rfl
@[simp] theorem State.cpSet64_regHeld (s : State) (a : Nat) (v : Word) : (s.cpSet64 a v).regHeld = s.regHeld := rfl
@[simp] theorem State.cpSet64_shed2 (s : State) (a : Nat) (v : Word) : (s.cpSet64 a v).shed2 = s.shed2 := rfl
@[simp] theorem State.cpSet64_reg0 (s : State) (a : Nat) (v : Word) : (s.cpSet64 a v).reg0 = s.reg0 := rfl
@[simp] theorem State.cpSet64_uarts (s : State) (a : Nat) (v : Word) : (s.cpSet64 a v).uarts = s.uarts := rfl
@[simp] theorem State.cpSet64_i2cs (s : State) (a : Nat) (v : Word) : (s.cpSet64 a v).i2cs = s.i2cs := rfl
@[simp] theorem State.cpSet64_gpios (s : State) (a : Nat) (v : Word) : (s.cpSet64 a v).gpios = s.gpios := rfl
@[simp] theorem State.cpSet64_rtrBytes (s : State) (a : Nat) (v : Word) : (s.cpSet64 a v).rtrBytes = s.rtrBytes := rfl
@[simp] theorem State.cpSet64_rtrWin (s : State) (a : Nat) (v : Word) : (s.cpSet64 a v).rtrWin = s.rtrWin := rfl
@[simp] theorem State.cpSet64_latchHi (s : State) (a : Nat) (v : Word) : (s.cpSet64 a v).latchHi = s.latchHi := rfl
@[simp] theorem State.cpSet64_loupes (s : State) (a : Nat) (v : Word) : (s.cpSet64 a v).loupes = s.loupes := rfl
@[simp] theorem State.cpSet64_trace (s : State) (a : Nat) (v : Word) : (s.cpSet64 a v).trace = s.trace := rfl
@[simp] theorem State.cpSet64_snap (s : State) (a : Nat) (v : Word) : (s.cpSet64 a v).snap = s.snap := rfl
@[simp] theorem State.cpSet64_tap (s : State) (a : Nat) (v : Word) : (s.cpSet64 a v).tap = s.tap := rfl
@[simp] theorem State.cpSet64_stOffset (s : State) (a : Nat) (v : Word) : (s.cpSet64 a v).stOffset = s.stOffset := rfl
@[simp] theorem State.cpSet64_stValid (s : State) (a : Nat) (v : Word) : (s.cpSet64 a v).stValid = s.stValid := rfl
@[simp] theorem State.cpSet64_stAlarm (s : State) (a : Nat) (v : Word) : (s.cpSet64 a v).stAlarm = s.stAlarm := rfl
@[simp] theorem State.cpSet64_stAlarmed (s : State) (a : Nat) (v : Word) : (s.cpSet64 a v).stAlarmed = s.stAlarmed := rfl
@[simp] theorem State.cpSet64_scntBase (s : State) (a : Nat) (v : Word) : (s.cpSet64 a v).scntBase = s.scntBase := rfl
@[simp] theorem State.cpSet64_pcie (s : State) (a : Nat) (v : Word) : (s.cpSet64 a v).pcie = s.pcie := rfl
@[simp] theorem State.cpSet64_fold (s : State) (a : Nat) (v : Word) : (s.cpSet64 a v).fold = s.fold := rfl
@[simp] theorem State.cpSet64_devReady (s : State) (a : Nat) (v : Word) : (s.cpSet64 a v).devReady = s.devReady := rfl
@[simp] theorem State.cpSet64_restarting (s : State) (a : Nat) (v : Word) : (s.cpSet64 a v).restarting = s.restarting := rfl
@[simp] theorem State.cpSet64_imageOnly (s : State) (a : Nat) (v : Word) : (s.cpSet64 a v).imageOnly = s.imageOnly := rfl
@[simp] theorem State.cpSet64_shep (s : State) (a : Nat) (v : Word) : (s.cpSet64 a v).shep = s.shep := rfl
@[simp] theorem State.setMemLine_pending (s : State) (l : Nat) (v : Line) (k : BitVec 64) : (s.setMemLine l v k).pending = s.pending := rfl
@[simp] theorem State.setMemLine_free (s : State) (l : Nat) (v : Line) (k : BitVec 64) : (s.setMemLine l v k).free = s.free := rfl
@[simp] theorem State.setMemLine_tb (s : State) (l : Nat) (v : Line) (k : BitVec 64) : (s.setMemLine l v k).tb = s.tb := rfl
@[simp] theorem State.setMemLine_cores (s : State) (l : Nat) (v : Line) (k : BitVec 64) : (s.setMemLine l v k).cores = s.cores := rfl
@[simp] theorem State.setMemLine_poisLine (s : State) (l : Nat) (v : Line) (k : BitVec 64) : (s.setMemLine l v k).poisLine = s.poisLine := rfl
@[simp] theorem State.setMemLine_poisWord (s : State) (l : Nat) (v : Line) (k : BitVec 64) : (s.setMemLine l v k).poisWord = s.poisWord := rfl
@[simp] theorem State.setMemLine_dies (s : State) (l : Nat) (v : Line) (k : BitVec 64) : (s.setMemLine l v k).dies = s.dies := rfl
@[simp] theorem State.setMemLine_dt (s : State) (l : Nat) (v : Line) (k : BitVec 64) : (s.setMemLine l v k).dt = s.dt := rfl
@[simp] theorem State.setMemLine_homes (s : State) (l : Nat) (v : Line) (k : BitVec 64) : (s.setMemLine l v k).homes = s.homes := rfl
@[simp] theorem State.setMemLine_mcs (s : State) (l : Nat) (v : Line) (k : BitVec 64) : (s.setMemLine l v k).mcs = s.mcs := rfl
@[simp] theorem State.setMemLine_mir (s : State) (l : Nat) (v : Line) (k : BitVec 64) : (s.setMemLine l v k).mir = s.mir := rfl
@[simp] theorem State.setMemLine_ports (s : State) (l : Nat) (v : Line) (k : BitVec 64) : (s.setMemLine l v k).ports = s.ports := rfl
@[simp] theorem State.setMemLine_sideband (s : State) (l : Nat) (v : Line) (k : BitVec 64) : (s.setMemLine l v k).sideband = s.sideband := rfl
@[simp] theorem State.setMemLine_sbLast (s : State) (l : Nat) (v : Line) (k : BitVec 64) : (s.setMemLine l v k).sbLast = s.sbLast := rfl
@[simp] theorem State.setMemLine_laserWait (s : State) (l : Nat) (v : Line) (k : BitVec 64) : (s.setMemLine l v k).laserWait = s.laserWait := rfl
@[simp] theorem State.setMemLine_cp (s : State) (l : Nat) (v : Line) (k : BitVec 64) : (s.setMemLine l v k).cp = s.cp := rfl
@[simp] theorem State.setMemLine_net (s : State) (l : Nat) (v : Line) (k : BitVec 64) : (s.setMemLine l v k).net = s.net := rfl
@[simp] theorem State.setMemLine_reqs (s : State) (l : Nat) (v : Line) (k : BitVec 64) : (s.setMemLine l v k).reqs = s.reqs := rfl
@[simp] theorem State.setMemLine_place (s : State) (l : Nat) (v : Line) (k : BitVec 64) : (s.setMemLine l v k).place = s.place := rfl
@[simp] theorem State.setMemLine_moves (s : State) (l : Nat) (v : Line) (k : BitVec 64) : (s.setMemLine l v k).moves = s.moves := rfl
@[simp] theorem State.setMemLine_lastDie (s : State) (l : Nat) (v : Line) (k : BitVec 64) : (s.setMemLine l v k).lastDie = s.lastDie := rfl
@[simp] theorem State.setMemLine_fuse (s : State) (l : Nat) (v : Line) (k : BitVec 64) : (s.setMemLine l v k).fuse = s.fuse := rfl
@[simp] theorem State.setMemLine_slotSt (s : State) (l : Nat) (v : Line) (k : BitVec 64) : (s.setMemLine l v k).slotSt = s.slotSt := rfl
@[simp] theorem State.setMemLine_beatRate (s : State) (l : Nat) (v : Line) (k : BitVec 64) : (s.setMemLine l v k).beatRate = s.beatRate := rfl
@[simp] theorem State.setMemLine_beatBase (s : State) (l : Nat) (v : Line) (k : BitVec 64) : (s.setMemLine l v k).beatBase = s.beatBase := rfl
@[simp] theorem State.setMemLine_beatSt (s : State) (l : Nat) (v : Line) (k : BitVec 64) : (s.setMemLine l v k).beatSt = s.beatSt := rfl
@[simp] theorem State.setMemLine_evq (s : State) (l : Nat) (v : Line) (k : BitVec 64) : (s.setMemLine l v k).evq = s.evq := rfl
@[simp] theorem State.setMemLine_evDropped (s : State) (l : Nat) (v : Line) (k : BitVec 64) : (s.setMemLine l v k).evDropped = s.evDropped := rfl
@[simp] theorem State.setMemLine_denyAt (s : State) (l : Nat) (v : Line) (k : BitVec 64) : (s.setMemLine l v k).denyAt = s.denyAt := rfl
@[simp] theorem State.setMemLine_reports (s : State) (l : Nat) (v : Line) (k : BitVec 64) : (s.setMemLine l v k).reports = s.reports := rfl
@[simp] theorem State.setMemLine_slotCrit (s : State) (l : Nat) (v : Line) (k : BitVec 64) : (s.setMemLine l v k).slotCrit = s.slotCrit := rfl
@[simp] theorem State.setMemLine_regHeld (s : State) (l : Nat) (v : Line) (k : BitVec 64) : (s.setMemLine l v k).regHeld = s.regHeld := rfl
@[simp] theorem State.setMemLine_shed2 (s : State) (l : Nat) (v : Line) (k : BitVec 64) : (s.setMemLine l v k).shed2 = s.shed2 := rfl
@[simp] theorem State.setMemLine_reg0 (s : State) (l : Nat) (v : Line) (k : BitVec 64) : (s.setMemLine l v k).reg0 = s.reg0 := rfl
@[simp] theorem State.setMemLine_uarts (s : State) (l : Nat) (v : Line) (k : BitVec 64) : (s.setMemLine l v k).uarts = s.uarts := rfl
@[simp] theorem State.setMemLine_i2cs (s : State) (l : Nat) (v : Line) (k : BitVec 64) : (s.setMemLine l v k).i2cs = s.i2cs := rfl
@[simp] theorem State.setMemLine_gpios (s : State) (l : Nat) (v : Line) (k : BitVec 64) : (s.setMemLine l v k).gpios = s.gpios := rfl
@[simp] theorem State.setMemLine_rtrBytes (s : State) (l : Nat) (v : Line) (k : BitVec 64) : (s.setMemLine l v k).rtrBytes = s.rtrBytes := rfl
@[simp] theorem State.setMemLine_rtrWin (s : State) (l : Nat) (v : Line) (k : BitVec 64) : (s.setMemLine l v k).rtrWin = s.rtrWin := rfl
@[simp] theorem State.setMemLine_latchHi (s : State) (l : Nat) (v : Line) (k : BitVec 64) : (s.setMemLine l v k).latchHi = s.latchHi := rfl
@[simp] theorem State.setMemLine_loupes (s : State) (l : Nat) (v : Line) (k : BitVec 64) : (s.setMemLine l v k).loupes = s.loupes := rfl
@[simp] theorem State.setMemLine_trace (s : State) (l : Nat) (v : Line) (k : BitVec 64) : (s.setMemLine l v k).trace = s.trace := rfl
@[simp] theorem State.setMemLine_snap (s : State) (l : Nat) (v : Line) (k : BitVec 64) : (s.setMemLine l v k).snap = s.snap := rfl
@[simp] theorem State.setMemLine_tap (s : State) (l : Nat) (v : Line) (k : BitVec 64) : (s.setMemLine l v k).tap = s.tap := rfl
@[simp] theorem State.setMemLine_stOffset (s : State) (l : Nat) (v : Line) (k : BitVec 64) : (s.setMemLine l v k).stOffset = s.stOffset := rfl
@[simp] theorem State.setMemLine_stValid (s : State) (l : Nat) (v : Line) (k : BitVec 64) : (s.setMemLine l v k).stValid = s.stValid := rfl
@[simp] theorem State.setMemLine_stAlarm (s : State) (l : Nat) (v : Line) (k : BitVec 64) : (s.setMemLine l v k).stAlarm = s.stAlarm := rfl
@[simp] theorem State.setMemLine_stAlarmed (s : State) (l : Nat) (v : Line) (k : BitVec 64) : (s.setMemLine l v k).stAlarmed = s.stAlarmed := rfl
@[simp] theorem State.setMemLine_scntBase (s : State) (l : Nat) (v : Line) (k : BitVec 64) : (s.setMemLine l v k).scntBase = s.scntBase := rfl
@[simp] theorem State.setMemLine_pcie (s : State) (l : Nat) (v : Line) (k : BitVec 64) : (s.setMemLine l v k).pcie = s.pcie := rfl
@[simp] theorem State.setMemLine_fold (s : State) (l : Nat) (v : Line) (k : BitVec 64) : (s.setMemLine l v k).fold = s.fold := rfl
@[simp] theorem State.setMemLine_devReady (s : State) (l : Nat) (v : Line) (k : BitVec 64) : (s.setMemLine l v k).devReady = s.devReady := rfl
@[simp] theorem State.setMemLine_restarting (s : State) (l : Nat) (v : Line) (k : BitVec 64) : (s.setMemLine l v k).restarting = s.restarting := rfl
@[simp] theorem State.setMemLine_imageOnly (s : State) (l : Nat) (v : Line) (k : BitVec 64) : (s.setMemLine l v k).imageOnly = s.imageOnly := rfl
@[simp] theorem State.setMemLine_shep (s : State) (l : Nat) (v : Line) (k : BitVec 64) : (s.setMemLine l v k).shep = s.shep := rfl
@[simp] theorem State.advance_pending (s : State) (t : Word) : (s.advance t).pending = s.pending := by unfold State.advance; split <;> rfl
@[simp] theorem State.advance_free (s : State) (t : Word) : (s.advance t).free = s.free := by unfold State.advance; split <;> rfl
@[simp] theorem State.advance_cores (s : State) (t : Word) : (s.advance t).cores = s.cores := by unfold State.advance; split <;> rfl
@[simp] theorem State.advance_mem (s : State) (t : Word) : (s.advance t).mem = s.mem := by unfold State.advance; split <;> rfl
@[simp] theorem State.advance_poisLine (s : State) (t : Word) : (s.advance t).poisLine = s.poisLine := by unfold State.advance; split <;> rfl
@[simp] theorem State.advance_poisWord (s : State) (t : Word) : (s.advance t).poisWord = s.poisWord := by unfold State.advance; split <;> rfl
@[simp] theorem State.advance_dies (s : State) (t : Word) : (s.advance t).dies = s.dies := by unfold State.advance; split <;> rfl
@[simp] theorem State.advance_dt (s : State) (t : Word) : (s.advance t).dt = s.dt := by unfold State.advance; split <;> rfl
@[simp] theorem State.advance_homes (s : State) (t : Word) : (s.advance t).homes = s.homes := by unfold State.advance; split <;> rfl
@[simp] theorem State.advance_mcs (s : State) (t : Word) : (s.advance t).mcs = s.mcs := by unfold State.advance; split <;> rfl
@[simp] theorem State.advance_mir (s : State) (t : Word) : (s.advance t).mir = s.mir := by unfold State.advance; split <;> rfl
@[simp] theorem State.advance_ports (s : State) (t : Word) : (s.advance t).ports = s.ports := by unfold State.advance; split <;> rfl
@[simp] theorem State.advance_sideband (s : State) (t : Word) : (s.advance t).sideband = s.sideband := by unfold State.advance; split <;> rfl
@[simp] theorem State.advance_sbLast (s : State) (t : Word) : (s.advance t).sbLast = s.sbLast := by unfold State.advance; split <;> rfl
@[simp] theorem State.advance_laserWait (s : State) (t : Word) : (s.advance t).laserWait = s.laserWait := by unfold State.advance; split <;> rfl
@[simp] theorem State.advance_cp (s : State) (t : Word) : (s.advance t).cp = s.cp := by unfold State.advance; split <;> rfl
@[simp] theorem State.advance_net (s : State) (t : Word) : (s.advance t).net = s.net := by unfold State.advance; split <;> rfl
@[simp] theorem State.advance_reqs (s : State) (t : Word) : (s.advance t).reqs = s.reqs := by unfold State.advance; split <;> rfl
@[simp] theorem State.advance_place (s : State) (t : Word) : (s.advance t).place = s.place := by unfold State.advance; split <;> rfl
@[simp] theorem State.advance_moves (s : State) (t : Word) : (s.advance t).moves = s.moves := by unfold State.advance; split <;> rfl
@[simp] theorem State.advance_lastDie (s : State) (t : Word) : (s.advance t).lastDie = s.lastDie := by unfold State.advance; split <;> rfl
@[simp] theorem State.advance_fuse (s : State) (t : Word) : (s.advance t).fuse = s.fuse := by unfold State.advance; split <;> rfl
@[simp] theorem State.advance_slotSt (s : State) (t : Word) : (s.advance t).slotSt = s.slotSt := by unfold State.advance; split <;> rfl
@[simp] theorem State.advance_beatRate (s : State) (t : Word) : (s.advance t).beatRate = s.beatRate := by unfold State.advance; split <;> rfl
@[simp] theorem State.advance_beatBase (s : State) (t : Word) : (s.advance t).beatBase = s.beatBase := by unfold State.advance; split <;> rfl
@[simp] theorem State.advance_beatSt (s : State) (t : Word) : (s.advance t).beatSt = s.beatSt := by unfold State.advance; split <;> rfl
@[simp] theorem State.advance_evq (s : State) (t : Word) : (s.advance t).evq = s.evq := by unfold State.advance; split <;> rfl
@[simp] theorem State.advance_evDropped (s : State) (t : Word) : (s.advance t).evDropped = s.evDropped := by unfold State.advance; split <;> rfl
@[simp] theorem State.advance_denyAt (s : State) (t : Word) : (s.advance t).denyAt = s.denyAt := by unfold State.advance; split <;> rfl
@[simp] theorem State.advance_reports (s : State) (t : Word) : (s.advance t).reports = s.reports := by unfold State.advance; split <;> rfl
@[simp] theorem State.advance_slotCrit (s : State) (t : Word) : (s.advance t).slotCrit = s.slotCrit := by unfold State.advance; split <;> rfl
@[simp] theorem State.advance_regHeld (s : State) (t : Word) : (s.advance t).regHeld = s.regHeld := by unfold State.advance; split <;> rfl
@[simp] theorem State.advance_shed2 (s : State) (t : Word) : (s.advance t).shed2 = s.shed2 := by unfold State.advance; split <;> rfl
@[simp] theorem State.advance_reg0 (s : State) (t : Word) : (s.advance t).reg0 = s.reg0 := by unfold State.advance; split <;> rfl
@[simp] theorem State.advance_uarts (s : State) (t : Word) : (s.advance t).uarts = s.uarts := by unfold State.advance; split <;> rfl
@[simp] theorem State.advance_i2cs (s : State) (t : Word) : (s.advance t).i2cs = s.i2cs := by unfold State.advance; split <;> rfl
@[simp] theorem State.advance_gpios (s : State) (t : Word) : (s.advance t).gpios = s.gpios := by unfold State.advance; split <;> rfl
@[simp] theorem State.advance_rtrBytes (s : State) (t : Word) : (s.advance t).rtrBytes = s.rtrBytes := by unfold State.advance; split <;> rfl
@[simp] theorem State.advance_rtrWin (s : State) (t : Word) : (s.advance t).rtrWin = s.rtrWin := by unfold State.advance; split <;> rfl
@[simp] theorem State.advance_latchHi (s : State) (t : Word) : (s.advance t).latchHi = s.latchHi := by unfold State.advance; split <;> rfl
@[simp] theorem State.advance_loupes (s : State) (t : Word) : (s.advance t).loupes = s.loupes := by unfold State.advance; split <;> rfl
@[simp] theorem State.advance_trace (s : State) (t : Word) : (s.advance t).trace = s.trace := by unfold State.advance; split <;> rfl
@[simp] theorem State.advance_snap (s : State) (t : Word) : (s.advance t).snap = s.snap := by unfold State.advance; split <;> rfl
@[simp] theorem State.advance_tap (s : State) (t : Word) : (s.advance t).tap = s.tap := by unfold State.advance; split <;> rfl
@[simp] theorem State.advance_stOffset (s : State) (t : Word) : (s.advance t).stOffset = s.stOffset := by unfold State.advance; split <;> rfl
@[simp] theorem State.advance_stValid (s : State) (t : Word) : (s.advance t).stValid = s.stValid := by unfold State.advance; split <;> rfl
@[simp] theorem State.advance_stAlarm (s : State) (t : Word) : (s.advance t).stAlarm = s.stAlarm := by unfold State.advance; split <;> rfl
@[simp] theorem State.advance_stAlarmed (s : State) (t : Word) : (s.advance t).stAlarmed = s.stAlarmed := by unfold State.advance; split <;> rfl
@[simp] theorem State.advance_scntBase (s : State) (t : Word) : (s.advance t).scntBase = s.scntBase := by unfold State.advance; split <;> rfl
@[simp] theorem State.advance_pcie (s : State) (t : Word) : (s.advance t).pcie = s.pcie := by unfold State.advance; split <;> rfl
@[simp] theorem State.advance_fold (s : State) (t : Word) : (s.advance t).fold = s.fold := by unfold State.advance; split <;> rfl
@[simp] theorem State.advance_devReady (s : State) (t : Word) : (s.advance t).devReady = s.devReady := by unfold State.advance; split <;> rfl
@[simp] theorem State.advance_restarting (s : State) (t : Word) : (s.advance t).restarting = s.restarting := by unfold State.advance; split <;> rfl
@[simp] theorem State.advance_imageOnly (s : State) (t : Word) : (s.advance t).imageOnly = s.imageOnly := by unfold State.advance; split <;> rfl
@[simp] theorem State.advance_shep (s : State) (t : Word) : (s.advance t).shep = s.shep := by unfold State.advance; split <;> rfl
@[simp] theorem State.send_pending (s : State) (m : Msg) : (s.send m).pending = s.pending := by unfold State.send; split <;> (try split) <;> rfl
@[simp] theorem State.send_free (s : State) (m : Msg) : (s.send m).free = s.free := by unfold State.send; split <;> (try split) <;> rfl
@[simp] theorem State.send_tb (s : State) (m : Msg) : (s.send m).tb = s.tb := by unfold State.send; split <;> (try split) <;> rfl
@[simp] theorem State.send_cores (s : State) (m : Msg) : (s.send m).cores = s.cores := by unfold State.send; split <;> (try split) <;> rfl
@[simp] theorem State.send_mem (s : State) (m : Msg) : (s.send m).mem = s.mem := by unfold State.send; split <;> (try split) <;> rfl
@[simp] theorem State.send_poisLine (s : State) (m : Msg) : (s.send m).poisLine = s.poisLine := by unfold State.send; split <;> (try split) <;> rfl
@[simp] theorem State.send_poisWord (s : State) (m : Msg) : (s.send m).poisWord = s.poisWord := by unfold State.send; split <;> (try split) <;> rfl
@[simp] theorem State.send_dies (s : State) (m : Msg) : (s.send m).dies = s.dies := by unfold State.send; split <;> (try split) <;> rfl
@[simp] theorem State.send_dt (s : State) (m : Msg) : (s.send m).dt = s.dt := by unfold State.send; split <;> (try split) <;> rfl
@[simp] theorem State.send_homes (s : State) (m : Msg) : (s.send m).homes = s.homes := by unfold State.send; split <;> (try split) <;> rfl
@[simp] theorem State.send_mcs (s : State) (m : Msg) : (s.send m).mcs = s.mcs := by unfold State.send; split <;> (try split) <;> rfl
@[simp] theorem State.send_mir (s : State) (m : Msg) : (s.send m).mir = s.mir := by unfold State.send; split <;> (try split) <;> rfl
@[simp] theorem State.send_ports (s : State) (m : Msg) : (s.send m).ports = s.ports := by unfold State.send; split <;> (try split) <;> rfl
@[simp] theorem State.send_sideband (s : State) (m : Msg) : (s.send m).sideband = s.sideband := by unfold State.send; split <;> (try split) <;> rfl
@[simp] theorem State.send_sbLast (s : State) (m : Msg) : (s.send m).sbLast = s.sbLast := by unfold State.send; split <;> (try split) <;> rfl
@[simp] theorem State.send_laserWait (s : State) (m : Msg) : (s.send m).laserWait = s.laserWait := by unfold State.send; split <;> (try split) <;> rfl
@[simp] theorem State.send_cp (s : State) (m : Msg) : (s.send m).cp = s.cp := by unfold State.send; split <;> (try split) <;> rfl
@[simp] theorem State.send_reqs (s : State) (m : Msg) : (s.send m).reqs = s.reqs := by unfold State.send; split <;> (try split) <;> rfl
@[simp] theorem State.send_place (s : State) (m : Msg) : (s.send m).place = s.place := by unfold State.send; split <;> (try split) <;> rfl
@[simp] theorem State.send_moves (s : State) (m : Msg) : (s.send m).moves = s.moves := by unfold State.send; split <;> (try split) <;> rfl
@[simp] theorem State.send_lastDie (s : State) (m : Msg) : (s.send m).lastDie = s.lastDie := by unfold State.send; split <;> (try split) <;> rfl
@[simp] theorem State.send_fuse (s : State) (m : Msg) : (s.send m).fuse = s.fuse := by unfold State.send; split <;> (try split) <;> rfl
@[simp] theorem State.send_slotSt (s : State) (m : Msg) : (s.send m).slotSt = s.slotSt := by unfold State.send; split <;> (try split) <;> rfl
@[simp] theorem State.send_beatRate (s : State) (m : Msg) : (s.send m).beatRate = s.beatRate := by unfold State.send; split <;> (try split) <;> rfl
@[simp] theorem State.send_beatBase (s : State) (m : Msg) : (s.send m).beatBase = s.beatBase := by unfold State.send; split <;> (try split) <;> rfl
@[simp] theorem State.send_beatSt (s : State) (m : Msg) : (s.send m).beatSt = s.beatSt := by unfold State.send; split <;> (try split) <;> rfl
@[simp] theorem State.send_evq (s : State) (m : Msg) : (s.send m).evq = s.evq := by unfold State.send; split <;> (try split) <;> rfl
@[simp] theorem State.send_evDropped (s : State) (m : Msg) : (s.send m).evDropped = s.evDropped := by unfold State.send; split <;> (try split) <;> rfl
@[simp] theorem State.send_denyAt (s : State) (m : Msg) : (s.send m).denyAt = s.denyAt := by unfold State.send; split <;> (try split) <;> rfl
@[simp] theorem State.send_reports (s : State) (m : Msg) : (s.send m).reports = s.reports := by unfold State.send; split <;> (try split) <;> rfl
@[simp] theorem State.send_slotCrit (s : State) (m : Msg) : (s.send m).slotCrit = s.slotCrit := by unfold State.send; split <;> (try split) <;> rfl
@[simp] theorem State.send_regHeld (s : State) (m : Msg) : (s.send m).regHeld = s.regHeld := by unfold State.send; split <;> (try split) <;> rfl
@[simp] theorem State.send_shed2 (s : State) (m : Msg) : (s.send m).shed2 = s.shed2 := by unfold State.send; split <;> (try split) <;> rfl
@[simp] theorem State.send_reg0 (s : State) (m : Msg) : (s.send m).reg0 = s.reg0 := by unfold State.send; split <;> (try split) <;> rfl
@[simp] theorem State.send_uarts (s : State) (m : Msg) : (s.send m).uarts = s.uarts := by unfold State.send; split <;> (try split) <;> rfl
@[simp] theorem State.send_i2cs (s : State) (m : Msg) : (s.send m).i2cs = s.i2cs := by unfold State.send; split <;> (try split) <;> rfl
@[simp] theorem State.send_gpios (s : State) (m : Msg) : (s.send m).gpios = s.gpios := by unfold State.send; split <;> (try split) <;> rfl
@[simp] theorem State.send_rtrBytes (s : State) (m : Msg) : (s.send m).rtrBytes = s.rtrBytes := by unfold State.send; split <;> (try split) <;> rfl
@[simp] theorem State.send_rtrWin (s : State) (m : Msg) : (s.send m).rtrWin = s.rtrWin := by unfold State.send; split <;> (try split) <;> rfl
@[simp] theorem State.send_latchHi (s : State) (m : Msg) : (s.send m).latchHi = s.latchHi := by unfold State.send; split <;> (try split) <;> rfl
@[simp] theorem State.send_loupes (s : State) (m : Msg) : (s.send m).loupes = s.loupes := by unfold State.send; split <;> (try split) <;> rfl
@[simp] theorem State.send_trace (s : State) (m : Msg) : (s.send m).trace = s.trace := by unfold State.send; split <;> (try split) <;> rfl
@[simp] theorem State.send_snap (s : State) (m : Msg) : (s.send m).snap = s.snap := by unfold State.send; split <;> (try split) <;> rfl
@[simp] theorem State.send_tap (s : State) (m : Msg) : (s.send m).tap = s.tap := by unfold State.send; split <;> (try split) <;> rfl
@[simp] theorem State.send_stOffset (s : State) (m : Msg) : (s.send m).stOffset = s.stOffset := by unfold State.send; split <;> (try split) <;> rfl
@[simp] theorem State.send_stValid (s : State) (m : Msg) : (s.send m).stValid = s.stValid := by unfold State.send; split <;> (try split) <;> rfl
@[simp] theorem State.send_stAlarm (s : State) (m : Msg) : (s.send m).stAlarm = s.stAlarm := by unfold State.send; split <;> (try split) <;> rfl
@[simp] theorem State.send_stAlarmed (s : State) (m : Msg) : (s.send m).stAlarmed = s.stAlarmed := by unfold State.send; split <;> (try split) <;> rfl
@[simp] theorem State.send_scntBase (s : State) (m : Msg) : (s.send m).scntBase = s.scntBase := by unfold State.send; split <;> (try split) <;> rfl
@[simp] theorem State.send_pcie (s : State) (m : Msg) : (s.send m).pcie = s.pcie := by unfold State.send; split <;> (try split) <;> rfl
@[simp] theorem State.send_fold (s : State) (m : Msg) : (s.send m).fold = s.fold := by unfold State.send; split <;> (try split) <;> rfl
@[simp] theorem State.send_devReady (s : State) (m : Msg) : (s.send m).devReady = s.devReady := by unfold State.send; split <;> (try split) <;> rfl
@[simp] theorem State.send_restarting (s : State) (m : Msg) : (s.send m).restarting = s.restarting := by unfold State.send; split <;> (try split) <;> rfl
@[simp] theorem State.send_imageOnly (s : State) (m : Msg) : (s.send m).imageOnly = s.imageOnly := by unfold State.send; split <;> (try split) <;> rfl
@[simp] theorem State.put_pending (s : State) (m : Msg) : (s.put m).pending = s.pending := rfl
@[simp] theorem State.put_free (s : State) (m : Msg) : (s.put m).free = s.free := rfl
@[simp] theorem State.put_tb (s : State) (m : Msg) : (s.put m).tb = s.tb := rfl
@[simp] theorem State.put_cores (s : State) (m : Msg) : (s.put m).cores = s.cores := rfl
@[simp] theorem State.put_mem (s : State) (m : Msg) : (s.put m).mem = s.mem := rfl
@[simp] theorem State.put_poisLine (s : State) (m : Msg) : (s.put m).poisLine = s.poisLine := rfl
@[simp] theorem State.put_poisWord (s : State) (m : Msg) : (s.put m).poisWord = s.poisWord := rfl
@[simp] theorem State.put_dies (s : State) (m : Msg) : (s.put m).dies = s.dies := rfl
@[simp] theorem State.put_dt (s : State) (m : Msg) : (s.put m).dt = s.dt := rfl
@[simp] theorem State.put_homes (s : State) (m : Msg) : (s.put m).homes = s.homes := rfl
@[simp] theorem State.put_mcs (s : State) (m : Msg) : (s.put m).mcs = s.mcs := rfl
@[simp] theorem State.put_mir (s : State) (m : Msg) : (s.put m).mir = s.mir := rfl
@[simp] theorem State.put_ports (s : State) (m : Msg) : (s.put m).ports = s.ports := rfl
@[simp] theorem State.put_sideband (s : State) (m : Msg) : (s.put m).sideband = s.sideband := rfl
@[simp] theorem State.put_sbLast (s : State) (m : Msg) : (s.put m).sbLast = s.sbLast := rfl
@[simp] theorem State.put_laserWait (s : State) (m : Msg) : (s.put m).laserWait = s.laserWait := rfl
@[simp] theorem State.put_cp (s : State) (m : Msg) : (s.put m).cp = s.cp := rfl
@[simp] theorem State.put_reqs (s : State) (m : Msg) : (s.put m).reqs = s.reqs := rfl
@[simp] theorem State.put_place (s : State) (m : Msg) : (s.put m).place = s.place := rfl
@[simp] theorem State.put_moves (s : State) (m : Msg) : (s.put m).moves = s.moves := rfl
@[simp] theorem State.put_lastDie (s : State) (m : Msg) : (s.put m).lastDie = s.lastDie := rfl
@[simp] theorem State.put_fuse (s : State) (m : Msg) : (s.put m).fuse = s.fuse := rfl
@[simp] theorem State.put_slotSt (s : State) (m : Msg) : (s.put m).slotSt = s.slotSt := rfl
@[simp] theorem State.put_beatRate (s : State) (m : Msg) : (s.put m).beatRate = s.beatRate := rfl
@[simp] theorem State.put_beatBase (s : State) (m : Msg) : (s.put m).beatBase = s.beatBase := rfl
@[simp] theorem State.put_beatSt (s : State) (m : Msg) : (s.put m).beatSt = s.beatSt := rfl
@[simp] theorem State.put_evq (s : State) (m : Msg) : (s.put m).evq = s.evq := rfl
@[simp] theorem State.put_evDropped (s : State) (m : Msg) : (s.put m).evDropped = s.evDropped := rfl
@[simp] theorem State.put_denyAt (s : State) (m : Msg) : (s.put m).denyAt = s.denyAt := rfl
@[simp] theorem State.put_reports (s : State) (m : Msg) : (s.put m).reports = s.reports := rfl
@[simp] theorem State.put_slotCrit (s : State) (m : Msg) : (s.put m).slotCrit = s.slotCrit := rfl
@[simp] theorem State.put_regHeld (s : State) (m : Msg) : (s.put m).regHeld = s.regHeld := rfl
@[simp] theorem State.put_shed2 (s : State) (m : Msg) : (s.put m).shed2 = s.shed2 := rfl
@[simp] theorem State.put_reg0 (s : State) (m : Msg) : (s.put m).reg0 = s.reg0 := rfl
@[simp] theorem State.put_uarts (s : State) (m : Msg) : (s.put m).uarts = s.uarts := rfl
@[simp] theorem State.put_i2cs (s : State) (m : Msg) : (s.put m).i2cs = s.i2cs := rfl
@[simp] theorem State.put_gpios (s : State) (m : Msg) : (s.put m).gpios = s.gpios := rfl
@[simp] theorem State.put_rtrBytes (s : State) (m : Msg) : (s.put m).rtrBytes = s.rtrBytes := rfl
@[simp] theorem State.put_rtrWin (s : State) (m : Msg) : (s.put m).rtrWin = s.rtrWin := rfl
@[simp] theorem State.put_latchHi (s : State) (m : Msg) : (s.put m).latchHi = s.latchHi := rfl
@[simp] theorem State.put_loupes (s : State) (m : Msg) : (s.put m).loupes = s.loupes := rfl
@[simp] theorem State.put_trace (s : State) (m : Msg) : (s.put m).trace = s.trace := rfl
@[simp] theorem State.put_snap (s : State) (m : Msg) : (s.put m).snap = s.snap := rfl
@[simp] theorem State.put_tap (s : State) (m : Msg) : (s.put m).tap = s.tap := rfl
@[simp] theorem State.put_stOffset (s : State) (m : Msg) : (s.put m).stOffset = s.stOffset := rfl
@[simp] theorem State.put_stValid (s : State) (m : Msg) : (s.put m).stValid = s.stValid := rfl
@[simp] theorem State.put_stAlarm (s : State) (m : Msg) : (s.put m).stAlarm = s.stAlarm := rfl
@[simp] theorem State.put_stAlarmed (s : State) (m : Msg) : (s.put m).stAlarmed = s.stAlarmed := rfl
@[simp] theorem State.put_scntBase (s : State) (m : Msg) : (s.put m).scntBase = s.scntBase := rfl
@[simp] theorem State.put_pcie (s : State) (m : Msg) : (s.put m).pcie = s.pcie := rfl
@[simp] theorem State.put_fold (s : State) (m : Msg) : (s.put m).fold = s.fold := rfl
@[simp] theorem State.put_devReady (s : State) (m : Msg) : (s.put m).devReady = s.devReady := rfl
@[simp] theorem State.put_restarting (s : State) (m : Msg) : (s.put m).restarting = s.restarting := rfl
@[simp] theorem State.put_imageOnly (s : State) (m : Msg) : (s.put m).imageOnly = s.imageOnly := rfl
@[simp] theorem State.put_shep (s : State) (m : Msg) : (s.put m).shep = s.shep := rfl
@[simp] theorem State.recv_pending (s : State) (m : Msg) : (s.recv m).pending = s.pending := rfl
@[simp] theorem State.recv_free (s : State) (m : Msg) : (s.recv m).free = s.free := rfl
@[simp] theorem State.recv_tb (s : State) (m : Msg) : (s.recv m).tb = s.tb := rfl
@[simp] theorem State.recv_cores (s : State) (m : Msg) : (s.recv m).cores = s.cores := rfl
@[simp] theorem State.recv_mem (s : State) (m : Msg) : (s.recv m).mem = s.mem := rfl
@[simp] theorem State.recv_poisLine (s : State) (m : Msg) : (s.recv m).poisLine = s.poisLine := rfl
@[simp] theorem State.recv_poisWord (s : State) (m : Msg) : (s.recv m).poisWord = s.poisWord := rfl
@[simp] theorem State.recv_dies (s : State) (m : Msg) : (s.recv m).dies = s.dies := rfl
@[simp] theorem State.recv_dt (s : State) (m : Msg) : (s.recv m).dt = s.dt := rfl
@[simp] theorem State.recv_homes (s : State) (m : Msg) : (s.recv m).homes = s.homes := rfl
@[simp] theorem State.recv_mcs (s : State) (m : Msg) : (s.recv m).mcs = s.mcs := rfl
@[simp] theorem State.recv_mir (s : State) (m : Msg) : (s.recv m).mir = s.mir := rfl
@[simp] theorem State.recv_ports (s : State) (m : Msg) : (s.recv m).ports = s.ports := rfl
@[simp] theorem State.recv_sideband (s : State) (m : Msg) : (s.recv m).sideband = s.sideband := rfl
@[simp] theorem State.recv_sbLast (s : State) (m : Msg) : (s.recv m).sbLast = s.sbLast := rfl
@[simp] theorem State.recv_laserWait (s : State) (m : Msg) : (s.recv m).laserWait = s.laserWait := rfl
@[simp] theorem State.recv_cp (s : State) (m : Msg) : (s.recv m).cp = s.cp := rfl
@[simp] theorem State.recv_reqs (s : State) (m : Msg) : (s.recv m).reqs = s.reqs := rfl
@[simp] theorem State.recv_place (s : State) (m : Msg) : (s.recv m).place = s.place := rfl
@[simp] theorem State.recv_moves (s : State) (m : Msg) : (s.recv m).moves = s.moves := rfl
@[simp] theorem State.recv_lastDie (s : State) (m : Msg) : (s.recv m).lastDie = s.lastDie := rfl
@[simp] theorem State.recv_fuse (s : State) (m : Msg) : (s.recv m).fuse = s.fuse := rfl
@[simp] theorem State.recv_slotSt (s : State) (m : Msg) : (s.recv m).slotSt = s.slotSt := rfl
@[simp] theorem State.recv_beatRate (s : State) (m : Msg) : (s.recv m).beatRate = s.beatRate := rfl
@[simp] theorem State.recv_beatBase (s : State) (m : Msg) : (s.recv m).beatBase = s.beatBase := rfl
@[simp] theorem State.recv_beatSt (s : State) (m : Msg) : (s.recv m).beatSt = s.beatSt := rfl
@[simp] theorem State.recv_evq (s : State) (m : Msg) : (s.recv m).evq = s.evq := rfl
@[simp] theorem State.recv_evDropped (s : State) (m : Msg) : (s.recv m).evDropped = s.evDropped := rfl
@[simp] theorem State.recv_denyAt (s : State) (m : Msg) : (s.recv m).denyAt = s.denyAt := rfl
@[simp] theorem State.recv_reports (s : State) (m : Msg) : (s.recv m).reports = s.reports := rfl
@[simp] theorem State.recv_slotCrit (s : State) (m : Msg) : (s.recv m).slotCrit = s.slotCrit := rfl
@[simp] theorem State.recv_regHeld (s : State) (m : Msg) : (s.recv m).regHeld = s.regHeld := rfl
@[simp] theorem State.recv_shed2 (s : State) (m : Msg) : (s.recv m).shed2 = s.shed2 := rfl
@[simp] theorem State.recv_reg0 (s : State) (m : Msg) : (s.recv m).reg0 = s.reg0 := rfl
@[simp] theorem State.recv_uarts (s : State) (m : Msg) : (s.recv m).uarts = s.uarts := rfl
@[simp] theorem State.recv_i2cs (s : State) (m : Msg) : (s.recv m).i2cs = s.i2cs := rfl
@[simp] theorem State.recv_gpios (s : State) (m : Msg) : (s.recv m).gpios = s.gpios := rfl
@[simp] theorem State.recv_rtrBytes (s : State) (m : Msg) : (s.recv m).rtrBytes = s.rtrBytes := rfl
@[simp] theorem State.recv_rtrWin (s : State) (m : Msg) : (s.recv m).rtrWin = s.rtrWin := rfl
@[simp] theorem State.recv_latchHi (s : State) (m : Msg) : (s.recv m).latchHi = s.latchHi := rfl
@[simp] theorem State.recv_loupes (s : State) (m : Msg) : (s.recv m).loupes = s.loupes := rfl
@[simp] theorem State.recv_trace (s : State) (m : Msg) : (s.recv m).trace = s.trace := rfl
@[simp] theorem State.recv_snap (s : State) (m : Msg) : (s.recv m).snap = s.snap := rfl
@[simp] theorem State.recv_tap (s : State) (m : Msg) : (s.recv m).tap = s.tap := rfl
@[simp] theorem State.recv_stOffset (s : State) (m : Msg) : (s.recv m).stOffset = s.stOffset := rfl
@[simp] theorem State.recv_stValid (s : State) (m : Msg) : (s.recv m).stValid = s.stValid := rfl
@[simp] theorem State.recv_stAlarm (s : State) (m : Msg) : (s.recv m).stAlarm = s.stAlarm := rfl
@[simp] theorem State.recv_stAlarmed (s : State) (m : Msg) : (s.recv m).stAlarmed = s.stAlarmed := rfl
@[simp] theorem State.recv_scntBase (s : State) (m : Msg) : (s.recv m).scntBase = s.scntBase := rfl
@[simp] theorem State.recv_pcie (s : State) (m : Msg) : (s.recv m).pcie = s.pcie := rfl
@[simp] theorem State.recv_fold (s : State) (m : Msg) : (s.recv m).fold = s.fold := rfl
@[simp] theorem State.recv_devReady (s : State) (m : Msg) : (s.recv m).devReady = s.devReady := rfl
@[simp] theorem State.recv_restarting (s : State) (m : Msg) : (s.recv m).restarting = s.restarting := rfl
@[simp] theorem State.recv_imageOnly (s : State) (m : Msg) : (s.recv m).imageOnly = s.imageOnly := rfl
@[simp] theorem State.recv_shep (s : State) (m : Msg) : (s.recv m).shep = s.shep := rfl
@[simp] theorem State.endReq_pending (s : State) (r : Req) : (s.endReq r).pending = s.pending := rfl
@[simp] theorem State.endReq_free (s : State) (r : Req) : (s.endReq r).free = s.free := rfl
@[simp] theorem State.endReq_tb (s : State) (r : Req) : (s.endReq r).tb = s.tb := rfl
@[simp] theorem State.endReq_cores (s : State) (r : Req) : (s.endReq r).cores = s.cores := rfl
@[simp] theorem State.endReq_mem (s : State) (r : Req) : (s.endReq r).mem = s.mem := rfl
@[simp] theorem State.endReq_poisLine (s : State) (r : Req) : (s.endReq r).poisLine = s.poisLine := rfl
@[simp] theorem State.endReq_poisWord (s : State) (r : Req) : (s.endReq r).poisWord = s.poisWord := rfl
@[simp] theorem State.endReq_dies (s : State) (r : Req) : (s.endReq r).dies = s.dies := rfl
@[simp] theorem State.endReq_dt (s : State) (r : Req) : (s.endReq r).dt = s.dt := rfl
@[simp] theorem State.endReq_homes (s : State) (r : Req) : (s.endReq r).homes = s.homes := rfl
@[simp] theorem State.endReq_mcs (s : State) (r : Req) : (s.endReq r).mcs = s.mcs := rfl
@[simp] theorem State.endReq_mir (s : State) (r : Req) : (s.endReq r).mir = s.mir := rfl
@[simp] theorem State.endReq_ports (s : State) (r : Req) : (s.endReq r).ports = s.ports := rfl
@[simp] theorem State.endReq_sideband (s : State) (r : Req) : (s.endReq r).sideband = s.sideband := rfl
@[simp] theorem State.endReq_sbLast (s : State) (r : Req) : (s.endReq r).sbLast = s.sbLast := rfl
@[simp] theorem State.endReq_laserWait (s : State) (r : Req) : (s.endReq r).laserWait = s.laserWait := rfl
@[simp] theorem State.endReq_cp (s : State) (r : Req) : (s.endReq r).cp = s.cp := rfl
@[simp] theorem State.endReq_net (s : State) (r : Req) : (s.endReq r).net = s.net := rfl
@[simp] theorem State.endReq_place (s : State) (r : Req) : (s.endReq r).place = s.place := rfl
@[simp] theorem State.endReq_moves (s : State) (r : Req) : (s.endReq r).moves = s.moves := rfl
@[simp] theorem State.endReq_lastDie (s : State) (r : Req) : (s.endReq r).lastDie = s.lastDie := rfl
@[simp] theorem State.endReq_fuse (s : State) (r : Req) : (s.endReq r).fuse = s.fuse := rfl
@[simp] theorem State.endReq_slotSt (s : State) (r : Req) : (s.endReq r).slotSt = s.slotSt := rfl
@[simp] theorem State.endReq_beatRate (s : State) (r : Req) : (s.endReq r).beatRate = s.beatRate := rfl
@[simp] theorem State.endReq_beatBase (s : State) (r : Req) : (s.endReq r).beatBase = s.beatBase := rfl
@[simp] theorem State.endReq_beatSt (s : State) (r : Req) : (s.endReq r).beatSt = s.beatSt := rfl
@[simp] theorem State.endReq_evq (s : State) (r : Req) : (s.endReq r).evq = s.evq := rfl
@[simp] theorem State.endReq_evDropped (s : State) (r : Req) : (s.endReq r).evDropped = s.evDropped := rfl
@[simp] theorem State.endReq_denyAt (s : State) (r : Req) : (s.endReq r).denyAt = s.denyAt := rfl
@[simp] theorem State.endReq_reports (s : State) (r : Req) : (s.endReq r).reports = s.reports := rfl
@[simp] theorem State.endReq_slotCrit (s : State) (r : Req) : (s.endReq r).slotCrit = s.slotCrit := rfl
@[simp] theorem State.endReq_regHeld (s : State) (r : Req) : (s.endReq r).regHeld = s.regHeld := rfl
@[simp] theorem State.endReq_shed2 (s : State) (r : Req) : (s.endReq r).shed2 = s.shed2 := rfl
@[simp] theorem State.endReq_reg0 (s : State) (r : Req) : (s.endReq r).reg0 = s.reg0 := rfl
@[simp] theorem State.endReq_uarts (s : State) (r : Req) : (s.endReq r).uarts = s.uarts := rfl
@[simp] theorem State.endReq_i2cs (s : State) (r : Req) : (s.endReq r).i2cs = s.i2cs := rfl
@[simp] theorem State.endReq_gpios (s : State) (r : Req) : (s.endReq r).gpios = s.gpios := rfl
@[simp] theorem State.endReq_rtrBytes (s : State) (r : Req) : (s.endReq r).rtrBytes = s.rtrBytes := rfl
@[simp] theorem State.endReq_rtrWin (s : State) (r : Req) : (s.endReq r).rtrWin = s.rtrWin := rfl
@[simp] theorem State.endReq_latchHi (s : State) (r : Req) : (s.endReq r).latchHi = s.latchHi := rfl
@[simp] theorem State.endReq_loupes (s : State) (r : Req) : (s.endReq r).loupes = s.loupes := rfl
@[simp] theorem State.endReq_trace (s : State) (r : Req) : (s.endReq r).trace = s.trace := rfl
@[simp] theorem State.endReq_snap (s : State) (r : Req) : (s.endReq r).snap = s.snap := rfl
@[simp] theorem State.endReq_tap (s : State) (r : Req) : (s.endReq r).tap = s.tap := rfl
@[simp] theorem State.endReq_stOffset (s : State) (r : Req) : (s.endReq r).stOffset = s.stOffset := rfl
@[simp] theorem State.endReq_stValid (s : State) (r : Req) : (s.endReq r).stValid = s.stValid := rfl
@[simp] theorem State.endReq_stAlarm (s : State) (r : Req) : (s.endReq r).stAlarm = s.stAlarm := rfl
@[simp] theorem State.endReq_stAlarmed (s : State) (r : Req) : (s.endReq r).stAlarmed = s.stAlarmed := rfl
@[simp] theorem State.endReq_scntBase (s : State) (r : Req) : (s.endReq r).scntBase = s.scntBase := rfl
@[simp] theorem State.endReq_pcie (s : State) (r : Req) : (s.endReq r).pcie = s.pcie := rfl
@[simp] theorem State.endReq_fold (s : State) (r : Req) : (s.endReq r).fold = s.fold := rfl
@[simp] theorem State.endReq_devReady (s : State) (r : Req) : (s.endReq r).devReady = s.devReady := rfl
@[simp] theorem State.endReq_restarting (s : State) (r : Req) : (s.endReq r).restarting = s.restarting := rfl
@[simp] theorem State.endReq_imageOnly (s : State) (r : Req) : (s.endReq r).imageOnly = s.imageOnly := rfl
@[simp] theorem State.endReq_shep (s : State) (r : Req) : (s.endReq r).shep = s.shep := rfl
@[simp] theorem State.modShep_pending (s : State) (f : Shep → Shep) : (s.modShep f).pending = s.pending := rfl
@[simp] theorem State.modShep_free (s : State) (f : Shep → Shep) : (s.modShep f).free = s.free := rfl
@[simp] theorem State.modShep_tb (s : State) (f : Shep → Shep) : (s.modShep f).tb = s.tb := rfl
@[simp] theorem State.modShep_cores (s : State) (f : Shep → Shep) : (s.modShep f).cores = s.cores := rfl
@[simp] theorem State.modShep_mem (s : State) (f : Shep → Shep) : (s.modShep f).mem = s.mem := rfl
@[simp] theorem State.modShep_poisLine (s : State) (f : Shep → Shep) : (s.modShep f).poisLine = s.poisLine := rfl
@[simp] theorem State.modShep_poisWord (s : State) (f : Shep → Shep) : (s.modShep f).poisWord = s.poisWord := rfl
@[simp] theorem State.modShep_dies (s : State) (f : Shep → Shep) : (s.modShep f).dies = s.dies := rfl
@[simp] theorem State.modShep_dt (s : State) (f : Shep → Shep) : (s.modShep f).dt = s.dt := rfl
@[simp] theorem State.modShep_homes (s : State) (f : Shep → Shep) : (s.modShep f).homes = s.homes := rfl
@[simp] theorem State.modShep_mcs (s : State) (f : Shep → Shep) : (s.modShep f).mcs = s.mcs := rfl
@[simp] theorem State.modShep_mir (s : State) (f : Shep → Shep) : (s.modShep f).mir = s.mir := rfl
@[simp] theorem State.modShep_ports (s : State) (f : Shep → Shep) : (s.modShep f).ports = s.ports := rfl
@[simp] theorem State.modShep_sideband (s : State) (f : Shep → Shep) : (s.modShep f).sideband = s.sideband := rfl
@[simp] theorem State.modShep_sbLast (s : State) (f : Shep → Shep) : (s.modShep f).sbLast = s.sbLast := rfl
@[simp] theorem State.modShep_laserWait (s : State) (f : Shep → Shep) : (s.modShep f).laserWait = s.laserWait := rfl
@[simp] theorem State.modShep_cp (s : State) (f : Shep → Shep) : (s.modShep f).cp = s.cp := rfl
@[simp] theorem State.modShep_net (s : State) (f : Shep → Shep) : (s.modShep f).net = s.net := rfl
@[simp] theorem State.modShep_reqs (s : State) (f : Shep → Shep) : (s.modShep f).reqs = s.reqs := rfl
@[simp] theorem State.modShep_place (s : State) (f : Shep → Shep) : (s.modShep f).place = s.place := rfl
@[simp] theorem State.modShep_moves (s : State) (f : Shep → Shep) : (s.modShep f).moves = s.moves := rfl
@[simp] theorem State.modShep_lastDie (s : State) (f : Shep → Shep) : (s.modShep f).lastDie = s.lastDie := rfl
@[simp] theorem State.modShep_fuse (s : State) (f : Shep → Shep) : (s.modShep f).fuse = s.fuse := rfl
@[simp] theorem State.modShep_slotSt (s : State) (f : Shep → Shep) : (s.modShep f).slotSt = s.slotSt := rfl
@[simp] theorem State.modShep_beatRate (s : State) (f : Shep → Shep) : (s.modShep f).beatRate = s.beatRate := rfl
@[simp] theorem State.modShep_beatBase (s : State) (f : Shep → Shep) : (s.modShep f).beatBase = s.beatBase := rfl
@[simp] theorem State.modShep_beatSt (s : State) (f : Shep → Shep) : (s.modShep f).beatSt = s.beatSt := rfl
@[simp] theorem State.modShep_evq (s : State) (f : Shep → Shep) : (s.modShep f).evq = s.evq := rfl
@[simp] theorem State.modShep_evDropped (s : State) (f : Shep → Shep) : (s.modShep f).evDropped = s.evDropped := rfl
@[simp] theorem State.modShep_denyAt (s : State) (f : Shep → Shep) : (s.modShep f).denyAt = s.denyAt := rfl
@[simp] theorem State.modShep_reports (s : State) (f : Shep → Shep) : (s.modShep f).reports = s.reports := rfl
@[simp] theorem State.modShep_slotCrit (s : State) (f : Shep → Shep) : (s.modShep f).slotCrit = s.slotCrit := rfl
@[simp] theorem State.modShep_regHeld (s : State) (f : Shep → Shep) : (s.modShep f).regHeld = s.regHeld := rfl
@[simp] theorem State.modShep_shed2 (s : State) (f : Shep → Shep) : (s.modShep f).shed2 = s.shed2 := rfl
@[simp] theorem State.modShep_reg0 (s : State) (f : Shep → Shep) : (s.modShep f).reg0 = s.reg0 := rfl
@[simp] theorem State.modShep_uarts (s : State) (f : Shep → Shep) : (s.modShep f).uarts = s.uarts := rfl
@[simp] theorem State.modShep_i2cs (s : State) (f : Shep → Shep) : (s.modShep f).i2cs = s.i2cs := rfl
@[simp] theorem State.modShep_gpios (s : State) (f : Shep → Shep) : (s.modShep f).gpios = s.gpios := rfl
@[simp] theorem State.modShep_rtrBytes (s : State) (f : Shep → Shep) : (s.modShep f).rtrBytes = s.rtrBytes := rfl
@[simp] theorem State.modShep_rtrWin (s : State) (f : Shep → Shep) : (s.modShep f).rtrWin = s.rtrWin := rfl
@[simp] theorem State.modShep_latchHi (s : State) (f : Shep → Shep) : (s.modShep f).latchHi = s.latchHi := rfl
@[simp] theorem State.modShep_loupes (s : State) (f : Shep → Shep) : (s.modShep f).loupes = s.loupes := rfl
@[simp] theorem State.modShep_trace (s : State) (f : Shep → Shep) : (s.modShep f).trace = s.trace := rfl
@[simp] theorem State.modShep_snap (s : State) (f : Shep → Shep) : (s.modShep f).snap = s.snap := rfl
@[simp] theorem State.modShep_tap (s : State) (f : Shep → Shep) : (s.modShep f).tap = s.tap := rfl
@[simp] theorem State.modShep_stOffset (s : State) (f : Shep → Shep) : (s.modShep f).stOffset = s.stOffset := rfl
@[simp] theorem State.modShep_stValid (s : State) (f : Shep → Shep) : (s.modShep f).stValid = s.stValid := rfl
@[simp] theorem State.modShep_stAlarm (s : State) (f : Shep → Shep) : (s.modShep f).stAlarm = s.stAlarm := rfl
@[simp] theorem State.modShep_stAlarmed (s : State) (f : Shep → Shep) : (s.modShep f).stAlarmed = s.stAlarmed := rfl
@[simp] theorem State.modShep_scntBase (s : State) (f : Shep → Shep) : (s.modShep f).scntBase = s.scntBase := rfl
@[simp] theorem State.modShep_pcie (s : State) (f : Shep → Shep) : (s.modShep f).pcie = s.pcie := rfl
@[simp] theorem State.modShep_fold (s : State) (f : Shep → Shep) : (s.modShep f).fold = s.fold := rfl
@[simp] theorem State.modShep_devReady (s : State) (f : Shep → Shep) : (s.modShep f).devReady = s.devReady := rfl
@[simp] theorem State.modShep_restarting (s : State) (f : Shep → Shep) : (s.modShep f).restarting = s.restarting := rfl
@[simp] theorem State.modShep_imageOnly (s : State) (f : Shep → Shep) : (s.modShep f).imageOnly = s.imageOnly := rfl
@[simp] theorem State.withPending_free (s : State) (l : List Instr) : (s.withPending l).free = s.free := rfl
@[simp] theorem State.withPending_tb (s : State) (l : List Instr) : (s.withPending l).tb = s.tb := rfl
@[simp] theorem State.withPending_cores (s : State) (l : List Instr) : (s.withPending l).cores = s.cores := rfl
@[simp] theorem State.withPending_mem (s : State) (l : List Instr) : (s.withPending l).mem = s.mem := rfl
@[simp] theorem State.withPending_poisLine (s : State) (l : List Instr) : (s.withPending l).poisLine = s.poisLine := rfl
@[simp] theorem State.withPending_poisWord (s : State) (l : List Instr) : (s.withPending l).poisWord = s.poisWord := rfl
@[simp] theorem State.withPending_dies (s : State) (l : List Instr) : (s.withPending l).dies = s.dies := rfl
@[simp] theorem State.withPending_dt (s : State) (l : List Instr) : (s.withPending l).dt = s.dt := rfl
@[simp] theorem State.withPending_homes (s : State) (l : List Instr) : (s.withPending l).homes = s.homes := rfl
@[simp] theorem State.withPending_mcs (s : State) (l : List Instr) : (s.withPending l).mcs = s.mcs := rfl
@[simp] theorem State.withPending_mir (s : State) (l : List Instr) : (s.withPending l).mir = s.mir := rfl
@[simp] theorem State.withPending_ports (s : State) (l : List Instr) : (s.withPending l).ports = s.ports := rfl
@[simp] theorem State.withPending_sideband (s : State) (l : List Instr) : (s.withPending l).sideband = s.sideband := rfl
@[simp] theorem State.withPending_sbLast (s : State) (l : List Instr) : (s.withPending l).sbLast = s.sbLast := rfl
@[simp] theorem State.withPending_laserWait (s : State) (l : List Instr) : (s.withPending l).laserWait = s.laserWait := rfl
@[simp] theorem State.withPending_cp (s : State) (l : List Instr) : (s.withPending l).cp = s.cp := rfl
@[simp] theorem State.withPending_net (s : State) (l : List Instr) : (s.withPending l).net = s.net := rfl
@[simp] theorem State.withPending_reqs (s : State) (l : List Instr) : (s.withPending l).reqs = s.reqs := rfl
@[simp] theorem State.withPending_place (s : State) (l : List Instr) : (s.withPending l).place = s.place := rfl
@[simp] theorem State.withPending_moves (s : State) (l : List Instr) : (s.withPending l).moves = s.moves := rfl
@[simp] theorem State.withPending_lastDie (s : State) (l : List Instr) : (s.withPending l).lastDie = s.lastDie := rfl
@[simp] theorem State.withPending_fuse (s : State) (l : List Instr) : (s.withPending l).fuse = s.fuse := rfl
@[simp] theorem State.withPending_slotSt (s : State) (l : List Instr) : (s.withPending l).slotSt = s.slotSt := rfl
@[simp] theorem State.withPending_beatRate (s : State) (l : List Instr) : (s.withPending l).beatRate = s.beatRate := rfl
@[simp] theorem State.withPending_beatBase (s : State) (l : List Instr) : (s.withPending l).beatBase = s.beatBase := rfl
@[simp] theorem State.withPending_beatSt (s : State) (l : List Instr) : (s.withPending l).beatSt = s.beatSt := rfl
@[simp] theorem State.withPending_evq (s : State) (l : List Instr) : (s.withPending l).evq = s.evq := rfl
@[simp] theorem State.withPending_evDropped (s : State) (l : List Instr) : (s.withPending l).evDropped = s.evDropped := rfl
@[simp] theorem State.withPending_denyAt (s : State) (l : List Instr) : (s.withPending l).denyAt = s.denyAt := rfl
@[simp] theorem State.withPending_reports (s : State) (l : List Instr) : (s.withPending l).reports = s.reports := rfl
@[simp] theorem State.withPending_slotCrit (s : State) (l : List Instr) : (s.withPending l).slotCrit = s.slotCrit := rfl
@[simp] theorem State.withPending_regHeld (s : State) (l : List Instr) : (s.withPending l).regHeld = s.regHeld := rfl
@[simp] theorem State.withPending_shed2 (s : State) (l : List Instr) : (s.withPending l).shed2 = s.shed2 := rfl
@[simp] theorem State.withPending_reg0 (s : State) (l : List Instr) : (s.withPending l).reg0 = s.reg0 := rfl
@[simp] theorem State.withPending_uarts (s : State) (l : List Instr) : (s.withPending l).uarts = s.uarts := rfl
@[simp] theorem State.withPending_i2cs (s : State) (l : List Instr) : (s.withPending l).i2cs = s.i2cs := rfl
@[simp] theorem State.withPending_gpios (s : State) (l : List Instr) : (s.withPending l).gpios = s.gpios := rfl
@[simp] theorem State.withPending_rtrBytes (s : State) (l : List Instr) : (s.withPending l).rtrBytes = s.rtrBytes := rfl
@[simp] theorem State.withPending_rtrWin (s : State) (l : List Instr) : (s.withPending l).rtrWin = s.rtrWin := rfl
@[simp] theorem State.withPending_latchHi (s : State) (l : List Instr) : (s.withPending l).latchHi = s.latchHi := rfl
@[simp] theorem State.withPending_loupes (s : State) (l : List Instr) : (s.withPending l).loupes = s.loupes := rfl
@[simp] theorem State.withPending_trace (s : State) (l : List Instr) : (s.withPending l).trace = s.trace := rfl
@[simp] theorem State.withPending_snap (s : State) (l : List Instr) : (s.withPending l).snap = s.snap := rfl
@[simp] theorem State.withPending_tap (s : State) (l : List Instr) : (s.withPending l).tap = s.tap := rfl
@[simp] theorem State.withPending_stOffset (s : State) (l : List Instr) : (s.withPending l).stOffset = s.stOffset := rfl
@[simp] theorem State.withPending_stValid (s : State) (l : List Instr) : (s.withPending l).stValid = s.stValid := rfl
@[simp] theorem State.withPending_stAlarm (s : State) (l : List Instr) : (s.withPending l).stAlarm = s.stAlarm := rfl
@[simp] theorem State.withPending_stAlarmed (s : State) (l : List Instr) : (s.withPending l).stAlarmed = s.stAlarmed := rfl
@[simp] theorem State.withPending_scntBase (s : State) (l : List Instr) : (s.withPending l).scntBase = s.scntBase := rfl
@[simp] theorem State.withPending_pcie (s : State) (l : List Instr) : (s.withPending l).pcie = s.pcie := rfl
@[simp] theorem State.withPending_fold (s : State) (l : List Instr) : (s.withPending l).fold = s.fold := rfl
@[simp] theorem State.withPending_devReady (s : State) (l : List Instr) : (s.withPending l).devReady = s.devReady := rfl
@[simp] theorem State.withPending_restarting (s : State) (l : List Instr) : (s.withPending l).restarting = s.restarting := rfl
@[simp] theorem State.withPending_imageOnly (s : State) (l : List Instr) : (s.withPending l).imageOnly = s.imageOnly := rfl
@[simp] theorem State.withPending_shep (s : State) (l : List Instr) : (s.withPending l).shep = s.shep := rfl

/-! Records of the state by number. -/

@[simp] theorem State.die_setDie (s : State) (d : Die) (x : DieSt) : (s.setDie d x).die d = x := by
  simp [State.die, State.setDie]

theorem State.die_setDie_of_ne (s : State) {d e : Die} (x : DieSt) (h : e ≠ d) :
    (s.setDie d x).die e = s.die e := by
  have : e.val ≠ d.val := fun w => h (Fin.ext w)
  simp [State.die, State.setDie, SMap.get_set_of_ne _ _ _ this]

@[simp] theorem State.die_modDie (s : State) (d : Die) (f : DieSt → DieSt) :
    (s.modDie d f).die d = f (s.die d) := by simp [State.modDie]

theorem State.die_modDie_of_ne (s : State) {d e : Die} (f : DieSt → DieSt) (h : e ≠ d) :
    (s.modDie d f).die e = s.die e := State.die_setDie_of_ne s _ h

@[simp] theorem State.home_setHome (s : State) (q : Quad) (x : Home) : (s.setHome q x).home q = x := by
  simp [State.home, State.setHome]

theorem State.home_setHome_of_ne (s : State) {q r : Quad} (x : Home) (h : r ≠ q) :
    (s.setHome q x).home r = s.home r := by
  have : r.val ≠ q.val := fun w => h (Fin.ext w)
  simp [State.home, State.setHome, SMap.get_set_of_ne _ _ _ this]

@[simp] theorem State.home_modHome (s : State) (q : Quad) (f : Home → Home) :
    (s.modHome q f).home q = f (s.home q) := by simp [State.modHome]

theorem State.home_modHome_of_ne (s : State) {q r : Quad} (f : Home → Home) (h : r ≠ q) :
    (s.modHome q f).home r = s.home r := State.home_setHome_of_ne s _ h

@[simp] theorem State.mc_setMc (s : State) (q : Quad) (x : Mc) : (s.setMc q x).mc q = x := by
  simp [State.mc, State.setMc]

theorem State.mc_setMc_of_ne (s : State) {q r : Quad} (x : Mc) (h : r ≠ q) :
    (s.setMc q x).mc r = s.mc r := by
  have : r.val ≠ q.val := fun w => h (Fin.ext w)
  simp [State.mc, State.setMc, SMap.get_set_of_ne _ _ _ this]

@[simp] theorem State.mc_modMc (s : State) (q : Quad) (f : Mc → Mc) :
    (s.modMc q f).mc q = f (s.mc q) := by simp [State.modMc]

theorem State.mc_modMc_of_ne (s : State) {q r : Quad} (f : Mc → Mc) (h : r ≠ q) :
    (s.modMc q f).mc r = s.mc r := State.mc_setMc_of_ne s _ h

/-- A control-plane register written holds what was written, the others what they held. -/
theorem State.cpGet_cpSet (s : State) (a b : Nat) (v : Word32) :
    (s.cpSet a v).cpGet b = if b = a then v else s.cpGet b := by
  unfold State.cpGet State.cpSet
  by_cases h : b = a
  · subst h; simp
  · rw [if_neg h]
    show SMap.get (cpReset b) (SMap.set (cpReset a) s.cp a v) b = _
    unfold SMap.set
    split
    · exact SMap.get_erase_of_ne _ _ h
    · exact SMap.get_insert_of_ne _ _ _ h

/-! The parts of a core are read through any update of other records. -/

@[simp] theorem State.core_cpSet (s : State) (a : Nat) (v : Word32) (l : LC) :
    (s.cpSet a v).core l = s.core l := rfl
@[simp] theorem State.core_setDie (s : State) (d : Die) (x : DieSt) (l : LC) :
    (s.setDie d x).core l = s.core l := rfl
@[simp] theorem State.core_modDie (s : State) (d : Die) (f : DieSt → DieSt) (l : LC) :
    (s.modDie d f).core l = s.core l := rfl
@[simp] theorem State.core_modHome (s : State) (q : Quad) (f : Home → Home) (l : LC) :
    (s.modHome q f).core l = s.core l := rfl
@[simp] theorem State.core_modMc (s : State) (q : Quad) (f : Mc → Mc) (l : LC) :
    (s.modMc q f).core l = s.core l := rfl
@[simp] theorem State.core_modShep (s : State) (f : Shep → Shep) (l : LC) :
    (s.modShep f).core l = s.core l := rfl

/-! Time. -/

/-- Reference time that advances is the later of the present one and the given instant. -/
theorem State.advance_tb (s : State) (t : Word) :
    (s.advance t).tb.toNat = max s.tb.toNat t.toNat := by
  unfold State.advance
  split <;> rename_i h <;> rw [BitVec.lt_def] at h
  · exact (Nat.max_eq_right (Nat.le_of_lt h)).symm
  · exact (Nat.max_eq_left (Nat.le_of_not_lt h)).symm

/-! The queue. -/

/-- A step with a command at the front is that command's meaning on the queue's rest. -/
theorem step_cons {s : State} {c : Instr} {rest : List Instr} (h : s.pending = c :: rest) :
    step s = exec c (s.withPending rest) := by
  unfold step
  rw [h]

end Sys2Proof.Machine
end

