-- ==== Sys2Proof/Laws/Memory.lean ====
section
/-!
SUPPORT. The laws of memory: what a write of bytes does to each byte, and that every operation on memory
keeps its canonical form.
-/

namespace Sys2Proof.Machine

/-! Bytes. -/

/-- A write leaves every byte outside its range as it was. -/
theorem writeBytes_get_outside (n : Nat) : ∀ (m : SMap Byte) (a mask v k : Nat),
    (k < a ∨ a + n ≤ k) → SMap.get 0 (writeBytes m n a mask v) k = SMap.get 0 m k := by
  induction n with
  | zero => intros; rfl
  | succ n ih =>
    intro m a mask v k h
    have hk : k ≠ a := by omega
    have hr : k < a + 1 ∨ a + 1 + n ≤ k := by omega
    simp only [writeBytes]
    rw [ih _ _ _ _ _ hr]
    split
    · exact SMap.get_set_of_ne 0 m _ hk
    · rfl

/-- A write gives each byte of its range whose mask bit is 1 its part of the value, and leaves the others. -/
theorem writeBytes_get_inside (n : Nat) : ∀ (m : SMap Byte) (a mask v i : Nat), i < n →
    SMap.get 0 (writeBytes m n a mask v) (a + i) =
      if mask / 2 ^ i % 2 = 1 then BitVec.ofNat 8 (v / 256 ^ i) else SMap.get 0 m (a + i) := by
  induction n with
  | zero => intro m a mask v i h; omega
  | succ n ih =>
    intro m a mask v i h
    simp only [writeBytes]
    cases i with
    | zero =>
      rw [writeBytes_get_outside n _ _ _ _ _ (Or.inl (by omega))]
      simp only [Nat.pow_zero, Nat.div_one, Nat.add_zero]
      split <;> simp_all
    | succ i =>
      have e : a + (i + 1) = a + 1 + i := by omega
      rw [e, ih _ _ _ _ i (by omega)]
      have h1 : mask / 2 / 2 ^ i = mask / 2 ^ (i + 1) := by
        rw [Nat.div_div_eq_div_mul, Nat.pow_succ, Nat.mul_comm]
      have h2 : v / 256 / 256 ^ i = v / 256 ^ (i + 1) := by
        rw [Nat.div_div_eq_div_mul, Nat.pow_succ, Nat.mul_comm]
      rw [h1, h2]
      split
      · rfl
      · split
        · exact SMap.get_set_of_ne 0 m _ (by omega)
        · rfl

/-- A write of bytes keeps the canonical form. -/
theorem writeBytes_wf (n : Nat) : ∀ (m : SMap Byte) (a mask v : Nat), SMap.wf 0 m = true →
    SMap.wf 0 (writeBytes m n a mask v) = true := by
  induction n with
  | zero => intro m a mask v h; exact h
  | succ n ih =>
    intro m a mask v h
    simp only [writeBytes]
    refine ih _ _ _ _ ?_
    split
    · exact SMap.set_wf 0 m _ _ h
    · exact h

/-- Taking entries out keeps the canonical form. -/
theorem SMap.filter_wf {α : Type} [DecidableEq α] (d : α) (p : Nat × α → Bool) (m : SMap α)
    (h : SMap.wf d m = true) : SMap.wf d (m.filter p) = true := by
  induction m with
  | nil => rfl
  | cons e t ih =>
    simp only [SMap.wf, Bool.and_eq_true, List.all_eq_true] at h
    obtain ⟨⟨h1, h2⟩, h3⟩ := h
    by_cases hp : p e = true
    · rw [List.filter_cons_of_pos hp]
      simp only [SMap.wf, Bool.and_eq_true, List.all_eq_true]
      exact ⟨⟨h1, fun x hx => h2 x (List.mem_filter.mp hx).1⟩, ih h3⟩
    · rw [List.filter_cons_of_neg hp]
      exact ih h3

/-! The state's memory. -/

/-- The machine after reset has its memory in canonical form. -/
theorem memWf_reset : Safety.MemWf State.reset := rfl

/-- A line written keeps the canonical form. -/
theorem memWf_setMemLine {s : State} (l : Nat) (v : Line) (k : BitVec 64) (h : Safety.MemWf s) :
    Safety.MemWf (s.setMemLine l v k) := writeBytes_wf 64 s.mem _ _ _ h

/-- A word of scratch written keeps the canonical form. -/
theorem memWf_scratchWord {s : State} (w : Nat) (m : BitVec 8) (v : Nat) (h : Safety.MemWf s) :
    Safety.MemWf (s.scratchWord w m v) := by
  unfold Safety.MemWf State.scratchWord
  split
  · exact h
  · split
    · exact writeBytes_wf 8 s.mem (8 * w) 255 v h
    · split
      · exact h
      · exact writeBytes_wf 8 s.mem (8 * w) m.toNat v h

/-- Bytes that are lost read 0 again: taking them out keeps the canonical form. -/
theorem memWf_filter {s t : State} (p : Nat × Byte → Bool) (e : t.mem = s.mem.filter p)
    (h : Safety.MemWf s) : Safety.MemWf t := by
  unfold Safety.MemWf
  rw [e]
  exact SMap.filter_wf 0 p s.mem h

/-- A change that leaves memory as it was keeps the canonical form. -/
theorem memWf_of_eq {s t : State} (e : t.mem = s.mem) (h : Safety.MemWf s) : Safety.MemWf t := by
  unfold Safety.MemWf
  rw [e]
  exact h

/-- A line written leaves every byte of every other line as it was. -/
theorem byte_setMemLine_of_ne (s : State) (l : Nat) (v : Line) (k : BitVec 64) {a : Nat} (h : a / 64 ≠ l) :
    (s.setMemLine l v k).byte a = s.byte a :=
  writeBytes_get_outside 64 s.mem _ _ _ a (by omega)

end Sys2Proof.Machine
end

