-- ==== Sys2Proof/Tests/Slice0.lean ====
section
/-!
SUPPORT. The model's own tests: ill-formed commands that the well-formedness check refuses, results worked
by hand from the spec's tables, and, for each statement, small states and operands that meet its hypotheses.
-/

namespace Sys2Proof.Tests

open Sys2Proof Sys2Proof.Machine Sys2Proof.Claims

/- One proof at a time: each runs the kernel over a small state. -/
set_option Elab.async false

/-! Small states. -/

/-- A package whose logical core 0 runs at M, with eight words fetched and all else as `c` says. -/
def at0 (c : Core) : State := { State.reset with cores := [(0, { c with run := .started, pfq := List.replicate 8 none })] }

/-- General registers from g1 on. -/
def gs (xs : List Word) : SMap Word := ((List.range xs.length).map (· + 1)).zip xs

/-- Core 0 with general registers from g1 on. -/
def with0 (xs : List Word) : State := at0 { g := gs xs }

/-- The state that a command answers. -/
def after (i : Instr) (s : State) : State :=
  match exec i s with
  | .next t => t
  | _ => s

/-- What S gives an instruction that may run: the core as a maker of requests, its beat, the state. -/
def ran (s : State) (lc : LC) (n : Need) : Option (Asker × Nat × State) :=
  match s.asker lc with
  | none => none
  | some k =>
    if (s.core lc).ready && !(n.vec && s.vStopped lc) && (s.boundary k).isNone then
      match s.fetch k with
      | .ok f =>
        some (k, (f.core lc).beats.leave n, f.setCore lc ((f.core lc).toS ((f.core lc).beats.leave n)))
      | _ => none
    else none

theorem ran_runs {s : State} {lc : LC} {n : Need} {k : Asker} {t : Nat} {u : State}
    (h : ran s lc n = some (k, t, u)) : Runs s lc n k t u := by
  unfold ran at h
  split at h
  · cases h
  · split at h
    · rename_i hk hr
      split at h
      · rename_i f hf
        cases h
        simp only [Bool.and_eq_true, Bool.not_eq_true', Option.isNone_iff_eq_none] at hr
        exact ⟨hk, hr.1.1, hr.1.2, hr.2, f, hf, rfl, rfl⟩
      · cases h
    · cases h

/-- Core 0 of `s` runs an instruction that asks `n` of S, and leaves S where `p` holds. -/
def runsWhere (s : State) (n : Need) (p : Asker → Nat → State → Bool) : Bool :=
  (ran s 0 n).any fun x => p x.1 x.2.1 x.2.2

/-- Core 0 of `s` runs an instruction that asks `n` of S. -/
def runs (s : State) (n : Need) : Bool := runsWhere s n fun _ _ _ => true

/-- What `runsWhere` says, in the words of the statements. -/
theorem runsWhere_runs {s : State} {n : Need} {p : Asker → Nat → State → Bool}
    (h : runsWhere s n p = true) : ∃ k t u, Runs s 0 n k t u ∧ p k t u = true := by
  unfold runsWhere at h
  cases hr : ran s 0 n with
  | none => rw [hr] at h; cases h
  | some x => rw [hr] at h; exact ⟨x.1, x.2.1, x.2.2, ran_runs hr, h⟩

/-! Integer instructions, branches and jumps (Tables ISA-8 to ISA-10). -/

/-- g3 after a command, from g1 and g2. -/
def g3 (i : Instr) (a b : Word) : Word := ((after i (with0 [a, b])).core 0).getG 3

theorem test_arithmetic :
    g3 (.add 0 3 1 2) (2 ^ 64 - 1) 1 = 0 ∧ g3 (.sub 0 3 1 2) 0 1 = 2 ^ 64 - 1 ∧
    g3 (.addw 0 3 1 2) 0x7FFFFFFF 1 = 0xFFFFFFFF80000000 ∧ g3 (.subw 0 3 1 2) 0x100000000 1 = 2 ^ 64 - 1 ∧
    g3 (.addi 0 3 1 0xFFFF) 0 0 = 2 ^ 64 - 1 ∧ g3 (.kset 0 3 0x8000) 0 0 = 0xFFFFFFFFFFFF8000 ∧
    g3 (.ksetu 0 3 0x8000) 0 0 = 0x8000 ∧ ((after (.kapp 0 1 0xBEEF) (with0 [0xDEAD])).core 0).getG 1
      = 0xDEADBEEF := by decide +kernel

theorem test_logic :
    g3 (.and 0 3 1 2) 0xFF00 0x0FF0 = 0x0F00 ∧ g3 (.or 0 3 1 2) 0xFF00 0x0FF0 = 0xFFF0 ∧
    g3 (.xor 0 3 1 2) 0xFF00 0x0FF0 = 0xF0F0 ∧ g3 (.andi 0 3 1 0xFF00) (2 ^ 64 - 1) 0 = 0xFF00 ∧
    g3 (.ori 0 3 1 0x8001) 0 0 = 0x8001 ∧ g3 (.xori 0 3 1 0xFFFF) (2 ^ 64 - 1) 0 = 0xFFFFFFFFFFFF0000 := by
  decide +kernel

theorem test_shifts :
    g3 (.sll 0 3 1 2) 1 65 = 2 ∧ g3 (.srl 0 3 1 2) (2 ^ 63) 63 = 1 ∧
    g3 (.sra 0 3 1 2) (2 ^ 63) 63 = 2 ^ 64 - 1 ∧ g3 (.sllw 0 3 1 2) 1 31 = 0xFFFFFFFF80000000 ∧
    g3 (.srlw 0 3 1 2) 0x80000000 33 = 0x40000000 ∧ g3 (.sraw 0 3 1 2) 0x80000000 31 = 2 ^ 64 - 1 ∧
    g3 (.slli 0 3 1 63) 3 0 = 2 ^ 63 ∧ g3 (.srli 0 3 1 63) (2 ^ 63) 0 = 1 ∧
    g3 (.srai 0 3 1 1) (2 ^ 63) 0 = 0xC000000000000000 := by decide +kernel

theorem test_comparisons :
    g3 (.slt 0 3 1 2) (2 ^ 64 - 1) 0 = 1 ∧ g3 (.sltu 0 3 1 2) (2 ^ 64 - 1) 0 = 0 ∧
    g3 (.slti 0 3 1 0xFFFF) 0 0 = 0 ∧ g3 (.sltiu 0 3 1 0xFFFF) 0 0 = 1 ∧
    g3 (.min 0 3 1 2) (2 ^ 64 - 1) 1 = 2 ^ 64 - 1 ∧ g3 (.minu 0 3 1 2) (2 ^ 64 - 1) 1 = 1 ∧
    g3 (.max 0 3 1 2) (2 ^ 64 - 1) 1 = 1 ∧ g3 (.maxu 0 3 1 2) (2 ^ 64 - 1) 1 = 2 ^ 64 - 1 ∧
    g3 (.clz 0 3 1) 1 0 = 63 ∧ g3 (.clz 0 3 1) 0 0 = 64 ∧ g3 (.ctz 0 3 1) (2 ^ 63) 0 = 63 ∧
    g3 (.popc 0 3 1) 0xFF01 0 = 9 := by decide +kernel

theorem test_products :
    g3 (.mul 0 3 1 2) (2 ^ 63) 2 = 0 ∧ g3 (.mulh 0 3 1 2) (2 ^ 64 - 1) 2 = 2 ^ 64 - 1 ∧
    g3 (.mulhu 0 3 1 2) (2 ^ 64 - 1) 2 = 1 ∧ g3 (.mulw 0 3 1 2) 0x10000 0x8000 = 0xFFFFFFFF80000000 := by
  decide +kernel

/-- R97: by 0, at the signed overflow, and rounded toward 0. -/
theorem test_divisions :
    g3 (.div 0 3 1 2) 7 0 = 2 ^ 64 - 1 ∧ g3 (.rem 0 3 1 2) 7 0 = 7 ∧
    g3 (.div 0 3 1 2) (2 ^ 63) (2 ^ 64 - 1) = 2 ^ 63 ∧ g3 (.rem 0 3 1 2) (2 ^ 63) (2 ^ 64 - 1) = 0 ∧
    g3 (.div 0 3 1 2) (2 ^ 64 - 7) 2 = 2 ^ 64 - 3 ∧ g3 (.rem 0 3 1 2) (2 ^ 64 - 7) 2 = 2 ^ 64 - 1 ∧
    g3 (.divu 0 3 1 2) (2 ^ 64 - 1) 2 = 2 ^ 63 - 1 ∧ g3 (.remu 0 3 1 2) 7 4 = 3 ∧
    g3 (.divw 0 3 1 2) 0x80000000 0xFFFFFFFF = 0xFFFFFFFF80000000 ∧
    g3 (.divuw 0 3 1 2) 0x80000000 1 = 0xFFFFFFFF80000000 ∧
    g3 (.remw 0 3 1 2) 0xFFFFFFF9 2 = 2 ^ 64 - 1 ∧
    g3 (.remuw 0 3 1 2) 0xFFFFFFF9 0 = 0xFFFFFFFFFFFFFFF9 := by decide +kernel

/-- The pc after a command, from g1, g2 and a pc of 0x1000. -/
def nextPc (i : Instr) (a b : Word) : Word := ((after i (at0 { g := gs [a, b], pc := 0x1000 })).core 0).pc

theorem test_branches :
    nextPc (.beq 0 1 2 0xFFFF) 3 3 = 0xFFC ∧ nextPc (.beq 0 1 2 2) 3 4 = 0x1004 ∧
    nextPc (.bne 0 1 2 2) 3 4 = 0x1008 ∧ nextPc (.blt 0 1 2 2) (2 ^ 64 - 1) 0 = 0x1008 ∧
    nextPc (.bge 0 1 2 2) (2 ^ 64 - 1) 0 = 0x1004 ∧ nextPc (.bltu 0 1 2 2) (2 ^ 64 - 1) 0 = 0x1004 ∧
    nextPc (.bgeu 0 1 2 2) (2 ^ 64 - 1) 0 = 0x1008 ∧ nextPc (.j 0 0x3FFFFFF) 0 0 = 0xFFC ∧
    nextPc (.jal 0 4) 0 0 = 0x1010 ∧ nextPc (.jalr 0 1 1 7) 0x2000 0 = 0x2004 := by decide +kernel

theorem test_links :
    ((after (.jal 0 4) (at0 { pc := 0x1000 })).core 0).getG 31 = 0x1004 ∧
    ((after (.jalr 0 1 1 7) (at0 { g := gs [0x2000], pc := 0x1000 })).core 0).getG 1 = 0x1004 ∧
    ((after (.addi 0 0 0 5) (with0 [])).core 0).getG 0 = 0 := by decide +kernel

/-- Witness of IntegerResults, DivisionResults and BranchAndJumpResults: the needs of their forms, with
other registers, one register twice, and g0 as destination. -/
theorem witness_integer_and_branch :
    runs (with0 [5, 7]) { reads := [gIdx 1, gIdx 2], writes := [gIdx 3] } = true ∧
    runs (with0 [5, 7]) { reads := [gIdx 1, gIdx 1], writes := [gIdx 0] } = true ∧
    runs (with0 [5]) { reads := [gIdx 1], writes := [gIdx 31] } = true ∧
    runs (with0 [5]) { writes := [gIdx 1] } = true ∧
    runs (with0 [5]) { reads := [gIdx 1, gIdx 2] } = true ∧ runs (with0 []) {} = true := by decide +kernel

/-- Both outcomes of every branch condition, and each case of a division, are met. -/
theorem witness_conditions :
    (∀ e ∈ branchForms, (e.2 0 0 ∨ e.2 0 1 ∨ e.2 1 0) ∧ (¬ e.2 0 0 ∨ ¬ e.2 0 1)) ∧
    Divides (w := 64) true false 7 0 (BitVec.allOnes 64) ∧
    Divides (w := 64) false true 7 4 3 ∧
    Divides (w := 32) true true (BitVec.intMin 32) (BitVec.allOnes 32) 0 := by
  refine ⟨?_, ?_, ?_, ?_⟩
  · simp [branchForms]
  all_goals unfold Divides; decide +kernel

/-! Vector instructions (Tables ISA-12 to ISA-15; R102 to R108). -/

/-- Core 0 with v1, v2, v3 given, p1 with bit 0 clear, and a busy V where `busy` says so. -/
def vec0 (a b d : Line) (busy : Nat := 0) : State :=
  at0 { v := (([1, 2, 3] : List Nat).zip [a, b, d]).filter fun x => x.2 ≠ 0
        p := [(1, 2 ^ 64 - 2)], g := gs [0x1234], beats := { vFree := busy } }

/-- Element `i` of v3 after a command. -/
def v3 (i : Instr) (a b d : Line) (e k : Nat) : Nat := elem e (((after i (vec0 a b d)).core 0).getV 3) k

/-- cr.vflags after a command. -/
def fl (i : Instr) (a b d : Line) : Word := ((after i (vec0 a b d)).core 0).vflags

theorem test_vector_integer :
    v3 (.vadd 0 3 1 2 none 3) 0xFF01 0x01FF 0 8 0 = 0 ∧ v3 (.vadd 0 3 1 2 none 3) 0xFF01 0x01FF 0 8 1 = 0 ∧
    v3 (.vsub 0 3 1 2 none 1) 0 1 0 32 0 = 0xFFFFFFFF ∧ v3 (.vsub 0 3 1 2 none 1) 0 1 0 32 1 = 0 ∧
    v3 (.vmin 0 3 1 2 none 2) 0x8000 1 0 16 0 = 0x8000 ∧ v3 (.vmax 0 3 1 2 none 2) 0x8000 1 0 16 0 = 1 ∧
    v3 (.vsll 0 3 1 2 none 3) 0x81 9 0 8 0 = 2 ∧ v3 (.vsrl 0 3 1 2 none 3) 0x81 1 0 8 0 = 0x40 ∧
    v3 (.vsra 0 3 1 2 none 3) 0x81 1 0 8 0 = 0xC0 ∧ v3 (.vand 0 3 1 2) 0xF0 0x3C 0 64 0 = 0x30 ∧
    v3 (.vor 0 3 1 2) 0xF0 0x3C 0 64 0 = 0xFC ∧ v3 (.vxor 0 3 1 2) 0xF0 0x3C 0 64 0 = 0xCC := by
  decide +kernel

/-- R105: element 0 is masked and keeps its old value. -/
theorem test_vector_mask :
    v3 (.vadd 0 3 1 2 (some 1) 0) 5 6 99 64 0 = 99 ∧ v3 (.vadd 0 3 1 2 (some 1) 0) 5 6 99 64 1 = 0 ∧
    v3 (.vrsum 0 3 1 (some 1) 0) 0x3FF0000000000000 0 99 64 0 = 0 := by decide +kernel

theorem test_vector_compare :
    ((after (.vcmpeq 0 2 1 2 none 0) (vec0 7 7 0)).core 0).getP 2 = 0xFF ∧
    ((after (.vcmplt 0 2 1 2 none 3) (vec0 0x80 0 0)).core 0).getP 2 = 1 ∧
    ((after (.vcmpeq 0 2 1 2 (some 1) 0) (vec0 7 7 0)).core 0).getP 2 = 0xFE ∧
    ((after (.vfcmplt 0 2 1 2 none 0) (vec0 0 0x3FF0000000000000 0)).core 0).getP 2 = 1 ∧
    fl (.vfcmplt 0 2 1 2 none 0) 0x7FF8000000000000 0 0 = 1 ∧
    fl (.vfcmpeq 0 2 1 2 none 0) 0x7FF8000000000000 0 0 = 0 ∧
    ((after (.vfcmpeq 0 2 1 2 none 1) (vec0 0 0x80000000 0)).core 0).getP 2 = 0xFFFF := by decide +kernel

/-- 1 + 1, 2 - 1, 2 × 3, 3 / 2, 1 / 0, √4, √-1, 2 × 3 + 1, the lesser and the greater of ±0. -/
theorem test_vector_float :
    v3 (.vfadd 0 3 1 2 none 0) 0x3FF0000000000000 0x3FF0000000000000 0 64 0 = 0x4000000000000000 ∧
    v3 (.vfsub 0 3 1 2 none 1) 0x40000000 0x3F800000 0 32 0 = 0x3F800000 ∧
    v3 (.vfmul 0 3 1 2 none 1) 0x40000000 0x40400000 0 32 0 = 0x40C00000 ∧
    v3 (.vfdiv 0 3 1 2 none 1) 0x40400000 0x40000000 0 32 0 = 0x3FC00000 ∧
    (fl (.vfdiv 0 3 1 2 (some 1) 1) 0x3F800000 0 0 = 1 ∧ fl (.vfdiv 0 3 1 2 none 1) 0x3F800000 0 0 = 3) ∧
    v3 (.vfsqrt 0 3 1 none 1) 0x40800000 0 0 32 0 = 0x40000000 ∧
    v3 (.vfsqrt 0 3 1 none 0) 0xBFF0000000000000 0 0 64 0 = 0x7FF8000000000000 ∧
    v3 (.vfma 0 3 1 2 none 1) 0x40000000 0x40400000 0x3F800000 32 0 = 0x40E00000 ∧
    v3 (.vfmin 0 3 1 2 none 1) 0 0x80000000 0 32 0 = 0x80000000 ∧
    v3 (.vfmax 0 3 1 2 none 1) 0x80000000 0 0 32 0 = 0 := by decide +kernel

/-- The sum of 1 and 2; conversions of 1 and of 2^31; 3 × 5 + 7, and 255 × -1. -/
theorem test_vector_sum_convert_dot :
    v3 (.vrsum 0 3 1 none 1) 0x400000003F800000 0 99 32 0 = 0x40400000 ∧
    v3 (.vcvtF32ToF64 0 3 1) 0x3F800000 0 0 64 0 = 0x3FF0000000000000 ∧
    v3 (.vcvtF64ToF32 0 3 1) 0x3FF0000000000000 0 0 32 0 = 0x3F800000 ∧
    v3 (.vcvtF32ToBf16 0 3 1) 0x3F808001 0 0 16 0 = 0x3F81 ∧
    v3 (.vcvtBf16ToF32 0 3 1) 0x3F80 0 0 32 0 = 0x3F800000 ∧
    v3 (.vcvtI32ToF32 0 3 1) 0xFFFFFFFF 0 0 32 0 = 0xBF800000 ∧
    v3 (.vcvtF32ToI32 0 3 1) 0x4F000000 0 0 32 0 = 0x7FFFFFFF ∧
    fl (.vcvtF32ToI32 0 3 1) 0x4F000000 0 0 = 0x21 ∧
    v3 (.vdot2Bf16 0 3 1 2 none) 0x40003F80 0x40003F80 0x3F800000 32 0 = 0x40C00000 ∧
    v3 (.vdot4I8 0 3 1 2 none) 3 5 7 32 0 = 22 ∧
    v3 (.vdot4U8s8 0 3 1 2 none) 0xFF 0xFF 0 32 0 = 0xFFFFFF01 := by decide +kernel

theorem test_vector_moves :
    ((after (.vmovg 0 1 1 0) (vec0 0xABCD 0 0)).core 0).getG 1 = 0xABCD ∧
    v3 (.vmovv 0 3 1 1) 0 0 7 64 1 = 0x1234 ∧ v3 (.vmovv 0 3 1 1) 0 0 7 64 0 = 7 ∧
    v3 (.vbcast 0 3 1 3) 0 0 0 8 63 = 0x34 ∧
    ((after (.pand 0 2 1 1) (vec0 0 0 0)).core 0).getP 2 = 2 ^ 64 - 2 ∧
    ((after (.por 0 2 1 0) (vec0 0 0 0)).core 0).getP 2 = 2 ^ 64 - 2 ∧
    ((after (.pxor 0 2 1 1) (vec0 0 0 0)).core 0).getP 2 = 0 ∧
    ((after (.pnot 0 2 1) (vec0 0 0 0)).core 0).getP 2 = 1 ∧
    ((after (.pset 0 2 1) (vec0 0 0 0)).core 0).getP 2 = 0x1234 ∧
    ((after (.pget 0 1 1) (vec0 0 0 0)).core 0).getG 1 = 2 ^ 64 - 2 := by decide +kernel

/-- Witness of the vector statements: an instruction that V starts at once and one that waits for V, masked
and not; and an entry of V's queue and a scratch load that return. -/
theorem witness_vector :
    runsWhere (vec0 1 2 3)
      { reads := [vIdx 1, vIdx 2] ++ maskReads (some 1) ++ [vIdx 3], writes := [vIdx 3], vec := true }
      (fun _ t u => decide ((u.core 0).beats.vFree ≤ t)) = true ∧
    runsWhere (vec0 1 2 3 50)
      { reads := [vIdx 1, vIdx 2] ++ maskReads none, writes := [vIdx 3], vec := true }
      (fun _ t u => decide (t < (u.core 0).beats.vFree)) = true ∧
    runs (vec0 1 2 3) { reads := [vIdx 1, vIdx 2] ++ maskReads (some 1), writes := [pIdx 2], vec := true }
      = true ∧
    runs (vec0 1 2 3) { reads := [vIdx 1, vIdx 2, vIdx 3], writes := [vIdx 3], vec := true } = true ∧
    runs (vec0 1 2 3) { reads := [vIdx 1], writes := [gIdx 1], vec := true } = true ∧
    runs (vec0 1 2 3) { reads := [gIdx 1, vIdx 3], writes := [vIdx 3], vec := true } = true ∧
    runs (vec0 1 2 3) { reads := [pIdx 1, pIdx 1], writes := [pIdx 2] } = true ∧
    runs (vec0 1 2 3) { reads := [pIdx 1], writes := [gIdx 1] } = true ∧
    runs (vec0 1 2 3) { reads := [gIdx 1], writes := [pIdx 1] } = true ∧
    (0#2).toNat ≤ 1 ∧ (1#2).toNat ≤ 1 := by decide +kernel

/-- Core 0 at beat `n`, with an instruction in V's queue, or a scratch load outstanding. -/
def queued (n : Nat) (e : VEntry) : State := at0 { beats := { next := n, vq := [e] } }
def loading (n : Nat) (e : ScrLoad) : State := at0 { beats := { next := n, scr := [e] } }

/-- R100, R102: at their beats, not before. -/
theorem test_vector_start :
    ((after (.vectorStart 0) (queued 5 ⟨5, [], 39, 9, 1⟩)).core 0).getP 7 = 9 ∧
    ((after (.vectorStart 0) (queued 5 ⟨5, [], 0, 9, 1⟩)).core 0).vflags = 1 ∧
    ((after (.vectorStart 0) (queued 4 ⟨5, [], 0, 9, 1⟩)).core 0).vflags = 0 ∧
    ((after (.scratchLoadReturn 0) (loading 1 ⟨0, 1, 95, 9⟩)).core 0).getG 31 = 9 ∧
    ((after (.scratchLoadReturn 0) (loading 0 ⟨0, 1, 95, 9⟩)).core 0).getG 31 = 0 := by
  decide +kernel

/-- Witness of NanResultsAreCanonical: the sum of the two infinities. -/
theorem witness_nan :
    (FVal.unpack f32 (VCtl.of 0) (fadd f32 (VCtl.of 0) 0x7F800000 0xFF800000).1).isNan = true ∧
    0x7F800000 < 2 ^ f32.width ∧ 0xFF800000 < 2 ^ f32.width := by decide +kernel

/-! Loads, stores, drains, far atomics and cache-line operations. -/

/-- A line with one byte. -/
def byteLine (b : Nat) : Line := BitVec.ofNat 512 b

/-- A store-buffer entry for `n` bytes of `v` at `a`, of normal cacheable memory and of M. -/
def entry (a n v : Nat) : SbEntry :=
  { pa := BitVec.ofNat 64 a, bytes := n, data := BitVec.ofNat 512 (v * 2 ^ (8 * (a % 64)))
    mtype := .cacheable, level := 3, s := true, pid := 0, tclass := 0, va := BitVec.ofNat 64 a }

/-- Core 0 with g1 = `a`, g2 = `b` and a store buffer. -/
def mem0 (a b : Word) (sb : List SbEntry) : State :=
  at0 { g := gs [a, b], v := [(1, byteLine 0x77)], sb := sb, xsp := [(3, 0x10000)] }

/-- The base of the scratch of die 0. -/
def scrBase : Nat := 0x1000000000

/-- The control-plane address of a register of die C0's services. -/
def dcs0 (off : Nat) : Nat := cpAddr (dcsStation 0) off

/-- `s` with way 0 of die C0 converted to scratch, which one Pasture region opens to all. -/
def withScratch (s : State) : State :=
  { s with cp := [(dcs0 0x100, 1), (dcs0 0x1000, 0x5F), (dcs0 0x1008, 0x1000000),
                  (dcs0 0x100C, 0x1001FFF)]
           mem := [(scrBase, 0x80), (scrBase + 8, 0x11)] }

/-- `s` where core 0 and die C0 hold line 128 in E with data 0x5A. -/
def withOwned (s : State) : State :=
  let s := s.modCore 0 fun c => { c with l1d := { ways := [(0, some ⟨128, .e, true⟩)] } }
  { s with dies := [(0, { secs := [(dcSet 128 * 16 + 3,
      { tag := some 32, subs := [(0, { st := .e, world := true, data := 0x5A })] })] })] }

theorem test_loads :
    ((after (.lb 0 3 1 0) (mem0 0x1000 0 [entry 0x1000 8 0xFEDCBA9876543280])).core 0).getG 3
      = 0xFFFFFFFFFFFFFF80 ∧
    ((after (.lbu 0 3 1 0) (mem0 0x1000 0 [entry 0x1000 8 0xFEDCBA9876543280])).core 0).getG 3 = 0x80 ∧
    ((after (.lh 0 3 1 6) (mem0 0x1000 0 [entry 0x1000 8 0xFEDCBA9876543280])).core 0).getG 3
      = 0xFFFFFFFFFFFFFEDC ∧
    ((after (.lhu 0 3 1 6) (mem0 0x1000 0 [entry 0x1000 8 0xFEDCBA9876543280])).core 0).getG 3 = 0xFEDC ∧
    ((after (.lw 0 3 1 4) (mem0 0x1000 0 [entry 0x1000 8 0xFEDCBA9876543280])).core 0).getG 3
      = 0xFFFFFFFFFEDCBA98 ∧
    ((after (.lwu 0 3 1 4) (mem0 0x1000 0 [entry 0x1000 8 0xFEDCBA9876543280])).core 0).getG 3
      = 0xFEDCBA98 ∧
    ((after (.ld 0 3 1 0xFFF8) (mem0 0x2008 0 [])).core 0).getG 3 = 0 ∧
    ((after (.ld 0 3 1 0xFFF8) (withOwned (mem0 0x2008 0 []))).core 0).getG 3 = 0x5A := by decide +kernel

/-- R59: a store across a line makes two entries. -/
theorem test_stores :
    ((after (.sd 0 2 1 0) (mem0 0x103C 0x1122334455667788 [])).core 0).sb.map
      (fun e => (e.pa.toNat, e.bytes, Line.bytes e.data (e.pa.toNat % 64) e.bytes))
      = [(0x103C, 4, 0x55667788), (0x1040, 4, 0x11223344)] ∧
    ((after (.sb 0 2 1 1) (mem0 0x1000 0x1234 [])).core 0).sb.map
      (fun e => (e.pa.toNat, e.bytes, Line.bytes e.data 1 1)) = [(0x1001, 1, 0x34)] ∧
    ((after (.sh 0 2 1 0) (mem0 0x1000 0x12345 [])).core 0).sb.map (fun e => Line.bytes e.data 0 8)
      = [0x2345] ∧
    ((after (.sw 0 2 1 0) (mem0 0x1000 0x123456789 [])).core 0).sb.map (fun e => Line.bytes e.data 0 8)
      = [0x23456789] ∧
    ((after (.vst 0 1 1 0) (mem0 0x1000 0 [])).core 0).sb.map (fun e => (e.bytes, Line.bytes e.data 0 64))
      = [(64, 0x77)] ∧
    ((after (.dclZ 0 1) (mem0 0x103F 0 [])).core 0).sb.map (fun e => (e.pa.toNat, e.bytes, e.data))
      = [(0x1000, 64, 0)] ∧
    ((after (.vld 0 2 1 0) (mem0 0x1000 0 [entry 0x1000 64 0x99])).core 0).getV 2 = 0x99 := by
  decide +kernel

theorem test_drains :
    ((after (.storeDrain 0) (withScratch (mem0 0 0 [entry (scrBase + 1) 2 0xBBAA]))).byte (scrBase + 2))
      = 0xBB ∧
    ((after (.storeDrain 0) (withScratch (mem0 0 0 [entry (scrBase + 1) 2 0xBBAA]))).byte scrBase) = 0x80 ∧
    (((after (.storeDrain 0) (withOwned (mem0 0 0 [entry 0x2001 1 0xEE]))).die 0).sub 128).data = 0xEE5A ∧
    ((after (.storeDrain 0) (mem0 0 0 [entry 0x2000000000 1 0xEE])).core 0).sbErr = [⟨0x2000000000, 3⟩] := by
  decide +kernel

/-- Core 0 loads `n` bytes at g1, with every part read, by own-die scratch or not. -/
def loads (s : State) (need : Need) (n : Nat) (scr : Bool) : Bool :=
  runsWhere s need fun k _ u =>
    decide ((u.core 0).fence = 0) &&
    match u.halves k .load ((u.core 0).getG 1) n with
    | .ok ps _ s1 => match s1.gather k ps [] {} with
      | .all g _ => !g.bus && !g.pois && g.scr == scr
      | _ => false
    | _ => false

/-- The fill of the prefetch queue is completed at once (R40). -/
def fills (s : State) (k : Asker) : Bool :=
  match s.prefill k with
  | .ok _ _ => true
  | _ => false

/-- Core 0 stores `n` bytes at g1: the parts lie within their lines and the store buffer has room. -/
def stores (s : State) (need : Need) (n : Nat) : Bool :=
  runsWhere s need fun k _ u =>
    match u.halves k .store ((u.core 0).getG 1) n with
    | .ok ps _ s1 => ps.all (fun p => decide (p.pa % 64 + p.bytes ≤ 64 ∧ p.pa < 2 ^ 48)) &&
        decide (ps.length ≤ (s1.core 0).sbRoom) && fills s1 k
    | _ => false

/-- Witness of LoadResultsAndSources: a load from the store buffer, one split over two lines, one of own-die
scratch, one of a line in L1D. -/
theorem witness_loads :
    loads (mem0 0x1000 0 [entry 0x1000 8 7]) { reads := [gIdx 1], writes := [gIdx 3] } 8 false = true ∧
    loads (mem0 0x103C 0 [entry 0x1038 8 7, entry 0x1040 8 7]) { reads := [gIdx 1], writes := [gIdx 0] } 8
      false = true ∧
    loads (withScratch (mem0 (BitVec.ofNat 64 scrBase) 0 [])) { reads := [gIdx 1], writes := [gIdx 1] } 8
      true = true ∧
    loads (withOwned (mem0 0x2000 0 [])) { reads := [gIdx 1], writes := [gIdx 3] } 1 false = true := by
  decide +kernel

/-- Witness of the clauses of LoadSources: an entry that holds all bytes, at its last byte; a line in L1D;
own-die scratch. -/
theorem witness_load_sources :
    (let c := (mem0 0 0 [entry 0x1000 8 7]).core 0
     targetOf 0x1007 = .hbm ∧ 0x1007 % 64 + 1 ≤ 64 ∧
     (c.sb.reverse.find? fun e => e.overlaps 0x1007 1) = some (entry 0x1000 8 7) ∧
     (entry 0x1000 8 7).pa.toNat + 8 = 0x1007 + 1) ∧
    (let s := withOwned (mem0 0 0 [])
     ((s.core 0).l1d.wayOf (0x2000 / 64)).isSome = true ∧
     ((s.core 0).l1d.find (0x2000 / 64)).any (fun l => l.world) = true ∧
     ((s.die 0).sub (0x2000 / 64)).pois = false ∧ targetOf 0x2000 = .hbm) ∧
    (let s := withScratch (mem0 0 0 [])
     targetOf scrBase = .scratch ∧ scratchDie scrBase = 0 ∧ s.scratchOk scrBase = true ∧
     s.passes (dcsStation 0) 16 scrBase true ((s.core 0).pid) .r = true ∧
     s.scratchPois scrBase 8 = false) := by decide +kernel

/-- Witness of StoreResultsAndFrames: stores of one part and of two, with one entry free; VST, DCL.Z, VLD;
an address that is not aligned. -/
theorem witness_stores :
    stores (mem0 0x1000 5 []) { reads := [gIdx 2, gIdx 1] } 8 = true ∧
    stores (mem0 0x103C 5 []) { reads := [gIdx 2, gIdx 1] } 8 = true ∧
    stores (mem0 0x1000 5 (List.replicate 7 (entry 0 1 0))) { reads := [gIdx 2, gIdx 1] } 1 = true ∧
    runsWhere (mem0 0x1000 0 [entry 0x1000 64 0x99])
      { reads := [gIdx 1], writes := [vIdx 2], vec := true } (fun k t u =>
        match u.lineAccess k .load ((u.core 0).getG 1) with
        | .ok ps _ s1 => match s1.gather k ps [] {} with
          | .all g s2 => !g.bus && !g.pois && !g.scr && decide ((s2.core 0).beats.vFree ≤ t)
          | _ => false
        | _ => false) = true ∧
    runsWhere (mem0 0x1000 0 []) { reads := [gIdx 1, vIdx 1], vec := true } (fun k _ u =>
        match u.lineAccess k .store ((u.core 0).getG 1) with
        | .ok ps _ s1 => ps.all (fun p => decide (p.pa % 64 + p.bytes ≤ 64)) &&
            decide (1 ≤ (s1.core 0).sbRoom) && fills s1 k
        | _ => false) = true ∧
    runsWhere (mem0 0x1001 0 []) { reads := [gIdx 1], writes := [vIdx 2], vec := true } (fun k _ u =>
        decide (((u.core 0).getG 1).toNat % 64 ≠ 0) &&
        (u.raise k { code := 0x09, tval := (u.core 0).getG 1 }).isSome) = true := by decide +kernel

/-- Witness of DrainResults. -/
theorem witness_drains :
    (let s := withScratch (mem0 0 0 [entry (scrBase + 56) 8 7])
     (s.asker 0).isSome = true ∧ targetOf (scrBase + 56) = .scratch ∧ scratchDie (scrBase + 56) = 0 ∧
     s.scratchOk (scrBase + 56) = true ∧
     s.passes (dcsStation 0) 16 (scrBase + 56) true 0 .w = true ∧ (scrBase + 56) % 64 + 8 ≤ 64 ∧
     ∀ i < 8, SMap.get false s.poisWord ((scrBase + 56) / 64 * 8 + i) = false) ∧
    (let s := withOwned (mem0 0 0 [entry 0x2001 1 0xEE])
     targetOf 0x2001 = .hbm ∧ ((s.core 0).l1d.find (0x2001 / 64)).any (fun l => l.st == .e && l.world) = true ∧
     ((s.die 0).wayOf (0x2001 / 64)).isSome = true) ∧
    targetOf 0x2000000000 = .unmapped := by decide +kernel

/-- Witness of AtomicAndLineOperationResults: a far atomic that may be sent, one that is misaligned, line
operations on HBM and elsewhere, an L1I invalidation. -/
theorem witness_atomics :
    runsWhere (mem0 0x1008 5 []) { reads := [gIdx 1, gIdx 2] ++ [gIdx 3], writes := [gIdx 3] }
      (fun k _ u => match u.translate k .atomic (u.core 0).level ((u.core 0).getG 1) with
        | .ok pa mt _ _ s1 => decide (pa % 8 = 0 ∧ targetOf pa = .hbm ∧ mt = .cacheable ∧
            (u.core 0).sb = []) && (s1.freeTxid (bankOf 0 (pa / 64)) 32).isSome
        | _ => false) = true ∧
    runsWhere (mem0 0x1004 5 []) { reads := [gIdx 1, gIdx 2] ++ [], writes := [gIdx 3] }
      (fun k _ u => (u.raise k { code := 0x09, tval := (u.core 0).getG 1 }).isSome) = true ∧
    runsWhere (mem0 0x1004 5 []) { reads := [gIdx 1] } (fun k _ u =>
      match u.translate k .load (u.core 0).level ((u.core 0).getG 1 &&& ~~~0x3F#64) with
      | .ok pa _ _ _ s1 => decide (targetOf pa = .hbm) && (s1.freeTxid (bankOf 0 (pa / 64)) 32).isSome
      | _ => false) = true ∧
    runsWhere (mem0 (BitVec.ofNat 64 scrBase) 5 []) { reads := [gIdx 1] } (fun k _ u =>
      match u.translate k .store (u.core 0).level ((u.core 0).getG 1 &&& ~~~0x3F#64) with
      | .ok pa _ _ _ _ => decide (targetOf pa ≠ .hbm)
      | _ => false) = true ∧
    runsWhere (mem0 0x1004 5 []) { reads := [gIdx 1] } (fun k _ u =>
      match u.translate k .load (u.core 0).level ((u.core 0).getG 1 &&& ~~~0x3F#64) false false with
      | .ok _ _ _ _ _ => true
      | _ => false) = true := by decide +kernel

/-- AADD sends its home the operation code in the low address bits and its operand in word 0 (Tables COH-2
and ISA-16); an L1I invalidation takes its line. -/
theorem test_atomic_and_l1i :
    (after (.aadd 0 3 1 2) (mem0 0x1008 5 [])).net.map
      (fun m => (m.kind, m.addr.toNat, m.data.map fun d => Line.bytes d 0 8))
      = [(.atomicAtHome, 0x1008, some 5)] ∧
    (after (.acas 0 3 1 2) (mem0 0x1008 5 [])).net.map (fun m => m.addr.toNat) = [0x100A] ∧
    (after (.dclCi 0 1) (mem0 0x103F 5 [])).net.map (fun m => (m.kind, m.addr.toNat)) = [(.cmo, 0x1002)] ∧
    ((after (.l1iInvalidationApply 0) (at0 { l1iPend := [7, 9] })).core 0).l1iPend = [9] := by
  decide +kernel

/-- R40, R530: as a store passes M, the queue takes PC+4 to PC+16, with the fault that an address brings. -/
theorem test_prefill :
    let s := fun (pc : Word) (c : Core) => ({ State.reset with cores :=
      [(0, { c with run := .started, pc := pc, pfq := [none], g := gs [0x1000, 5] })] } : State)
    ((after (.sd 0 2 1 0) (s 0x1000 { l1i := { ways := [(256, some ⟨64, .s, true⟩)] } })).core 0).pfq
      = [none, none, none, none] ∧
    ((after (.sd 0 2 1 0) (s (2 ^ 48 - 4) {})).core 0).pfq.map (·.map (·.code)) = [some 13] ∧
    (let t := after (.addi 0 3 0 1) (after (.sd 0 2 1 0) (s (2 ^ 48 - 4) { xsp := [(3, 0x30000)] }))
     (t.core 0).getG 3 = 0 ∧ (t.core 0).pc = 0x40) := by decide +kernel

/-! Control registers, exceptions, WAIT, fences and the TLBs. -/

/-- Core 0 with cr.status `st`, g1 = `a`, g2 = `b`, and room for a frame at every level. -/
def sys0 (st a b : Word) (c : Core := {}) : State :=
  at0 { c with status := st, g := gs [a, b], pc := 0x1000
               xsp := [(1, 0x10000), (2, 0x20000), (3, 0x30000)]
               vbar := [(1, 0x1100), (2, 0x2200), (3, 0x3300)] }

/-- cr.status in the secure world at a level. -/
abbrev lvlU : Word := 4
abbrev lvlK : Word := 5
abbrev lvlH : Word := 6
abbrev lvlM : Word := 7

/-- What entry left of core 0: level, pc, and the words EPC, ESTATUS, CAUSE and TVAL of the frame. -/
def entered (s : State) : Nat × Nat × List Nat :=
  let c := s.core 0
  let w := fun (k i : Nat) => (c.sb[k]?.map fun e => Line.bytes e.data (8 * i) 8).getD 0
  (c.level, c.pc.toNat, [w 1 7, w 2 0, w 2 1, w 2 2])

theorem test_calls :
    entered (after (.kcall 0 0x7F) (sys0 lvlU 0 0)) = (1, 0x1100, [0x1004, 4, 0x10, 0]) ∧
    entered (after (.kcall 0 0x7F) (sys0 lvlK 0 0)) = (1, 0x1140, [0x1004, 5, 0x10, 0]) ∧
    entered (after (.hcall 0 0) (sys0 lvlK 0 0)) = (2, 0x2200, [0x1004, 5, 0x11, 0]) ∧
    entered (after (.mcall 0 0) (sys0 lvlH 0 0)) = (3, 0x3300, [0x1004, 6, 0x12, 0]) ∧
    entered (after (.brk 0 0) (sys0 lvlH 0 0)) = (2, 0x2240, [0x1000, 6, 0x13, 0]) ∧
    entered (after (.illegalEncoding 0 0) (sys0 lvlU 0 0)) = (1, 0x1100, [0x1000, 4, 1, 0]) ∧
    entered (after (.mcall 0 0) (sys0 lvlU 0 0)) = (1, 0x1100, [0x1000, 4, 2, 0xE0002200]) ∧
    ((after (.kcall 0 0) (sys0 lvlU 0 0)).core 0).xsp = [(1, 0xFF40), (2, 0x20000), (3, 0x30000)] := by
  decide +kernel

theorem test_traps :
    entered (after (.storeBus 0) (sys0 lvlK 0 0 { sbErr := [⟨0x55, 0⟩] }))
      = (1, 0x11C0, [0x1000, 5, 0x0C, 0x55]) ∧
    entered (after (.storeBus 0) (sys0 lvlM 0 0 { sbErr := [⟨0x55, 0⟩] }))
      = (3, 0x33C0, [0x1000, 7, 0x200C, 0x55]) ∧
    entered (after (.ld 0 3 1 0) (sys0 lvlK (2 ^ 48) 0)) = (1, 0x1140, [0x1000, 5, 0x804, 2 ^ 48]) ∧
    entered (after (.wait 0) (sys0 lvlU 0 0)) = (1, 0x1100, [0x1000, 4, 2, 0xE0003001]) ∧
    ((after (.wait 0) (sys0 lvlK 0 0)).core 0).inWait = true ∧
    ((after (.waitWake 0) (at0 { inWait := true, sbErr := [⟨0, 3⟩] })).core 0).inWait = false := by
  decide +kernel

/-- An interrupt of SGI0 at K with IE = 1 (Table CORE-17). -/
def sgi0 : Cii := { pend := 1, en := 0x401, pcfg := [(0, ⟨0x20, 1, true⟩), (10, ⟨0xFF, 3, true⟩)] }

theorem test_interrupt_entry :
    entered (after (.interruptEntry 0) (sys0 0xD 0 0 { cii := sgi0 }))
      = (1, 0x1180, [0x1000, 0xD, 2 ^ 63, 0]) ∧
    ((after (.interruptEntry 0) (sys0 0xD 0 0 { cii := sgi0 })).core 0).cii.stack = [⟨0x20, 0, none⟩] := by
  decide +kernel

/-- A frame at 0x2000 in the store buffer: g1 = 0x11 and EPC, with ESTATUS `est`. -/
def frame (est : Nat) : List SbEntry :=
  [entry 0x2000 64 0x11, entry 0x2040 64 (0x4444 * 2 ^ 448), entry 0x2080 64 est]

/-- Core 0 at a level, about to return through that frame. -/
def eret0 (st : Word) (est : Nat) (x : Cii := {}) : State :=
  at0 { status := st, sb := frame est, cii := x, pc := 0x1000
        xsp := [(1, 0x2000), (2, 0x20000), (3, 0x2000)], vbar := [(1, 0x1100), (3, 0x3300)] }

theorem test_eret :
    (let c := (after (.eret 0) (eret0 lvlM 4)).core 0
     c.getG 1 = 0x11 ∧ c.pc = 0x4444 ∧ c.status = 4 ∧ SMap.get 0 c.xsp 3 = 0x20C0) ∧
    (let c := (after (.eret 0) (eret0 lvlK 0xD sgi0)).core 0
     c.pc = 0x1180 ∧ c.status = 5 ∧ SMap.get 0 c.xsp 1 = 0x2000) := by decide +kernel

theorem test_control_registers :
    ((after (.crr 0 3 0) (sys0 lvlM 0 0)).core 0).getG 3 = 7 ∧
    ((after (.crw 0 0 1) (sys0 lvlM (2 ^ 64 - 1) 0)).core 0).status = 0xF ∧
    SMap.get 0 ((after (.crw 0 0x12 1) (sys0 lvlM (2 ^ 64 - 1) 0)).core 0).vbar 3 = 2 ^ 64 - 256 ∧
    ((after (.crw 0 9 1) (sys0 lvlU 0xFF 0)).core 0).vctl = 7 ∧
    (entered (after (.crw 0 1 1) (sys0 lvlK 0 0))).2.2 = [0x1000, 5, 2, 0xE0011001] ∧
    (entered (after (.crr 0 3 0x7FF) (sys0 lvlK 0 0))).2.2 = [0x1000, 5, 1, 0xE06007FF] := by
  decide +kernel

/-- Exception `e` can be entered: its frame fits, is translated, and the store buffer has room. -/
def canTake (s : State) (k : Asker) (e : Exc) : Bool :=
  let s := s.modCore k.lc Core.settle
  let c := s.core k.lc
  let tgt := max (fixedLevel e.code) c.level
  decide (192 ≤ (bank c.xsp tgt).toNat ∧ (bank c.xlim tgt).toNat + 192 ≤ (bank c.xsp tgt).toNat ∧
    c.sb.length ≤ 5) &&
  match (s.setCore k.lc { c with status := entryStatus tgt c.world }).frameLines k tgt .store
      [bank c.xsp tgt - 192, bank c.xsp tgt - 192 + 64, bank c.xsp tgt - 192 + 128] with
  | .done ps _ _ => decide (ps.length = 3)
  | _ => false

/-- What `canTake` says, in the words of the statements. -/
theorem canTake_of {s : State} {k : Asker} {e : Exc} (h : canTake s k e = true) :
    ∃ ps walk x, CanTake k e ps walk s x := by
  unfold canTake at h
  simp only [Bool.and_eq_true, decide_eq_true_eq] at h
  obtain ⟨⟨h1, h2, h3⟩, h4⟩ := h
  split at h4
  · rename_i ps walk x hx
    exact ⟨ps, walk, x, ⟨⟨h1, h2⟩, h3, by simpa using h4, hx⟩⟩
  · cases h4

/-- Witness of ControlRegisterResults: registers read and written at their lowest level and below it, and a
number that is not assigned. -/
theorem witness_control_registers :
    runsWhere (sys0 lvlU 0 0) { writes := [gIdx 3], vIdle := true } (fun _ _ u =>
      decide (0 ≤ (u.core 0).level)) = true ∧
    runsWhere (sys0 lvlK 0 0) { writes := [gIdx 0] } (fun k _ u =>
      decide ((u.core 0).level < 2) && (u.raise k { code := 0x02, tval := 0xE0000003 }).isSome) = true ∧
    runsWhere (sys0 lvlM 5 0) { reads := [gIdx 1], vIdle := false || true } (fun _ _ u =>
      decide (3 ≤ (u.core 0).level)) = true ∧
    runsWhere (sys0 lvlU 5 0) { reads := [gIdx 1] } (fun k _ u =>
      decide ((u.core 0).level < 1) && (u.raise k { code := 0x02, tval := 0xE0011000 }).isSome) = true ∧
    (∀ f ∈ crForms, f.n ≠ (0x00A#12).toNat ∧ f.n ≠ (0x01B#12).toNat) ∧
    runsWhere (sys0 lvlU 5 0) { reads := [gIdx 1] } (fun k _ u =>
      (u.raise k { code := 0x01, tval := 0xE001100A }).isSome) = true := by decide +kernel

/-- Witness of ExceptionEntryAndStackLimit: frames that fit to the byte, one that does not with M's that does,
and none that fits. -/
theorem witness_exceptions :
    runsWhere (sys0 lvlU 0 0) {} (fun k _ u => canTake u k { code := 0x10, next := true }) = true ∧
    runsWhere (at0 { status := lvlU, xsp := [(1, 192)] }) {} (fun k _ u => canTake u k { code := 0x01 })
      = true ∧
    (let c := ((at0 { status := lvlU, xsp := [(1, 191), (3, 0x30000)] }).modCore 0 Core.settle).core 0
     ¬ FrameFits c 1 ∧ FrameFits c 3) ∧
    (let c := ((at0 { status := lvlU, xsp := [(1, 191)], xlim := [(3, 1)] }).modCore 0 Core.settle).core 0
     ¬ FrameFits c 1 ∧ ¬ FrameFits c 3) ∧
    runsWhere (at0 { status := lvlU, xsp := [(1, 191), (3, 0x30000)] }) {} (fun k _ u =>
      canTake u k { code := 0x12 }) = true := by
  unfold FrameFits; decide +kernel

/-- Witness of CallsTrapsAndAsynchronousEntry: each call at its level and at another, a failed drain, an
interrupt that is due. -/
theorem witness_calls :
    [lvlU, lvlK].all (fun st => runsWhere (sys0 st 0 0) {} fun k _ u =>
      canTake u k { code := 0x10, next := true } &&
      decide ((u.core 0).level ≤ 1)) = true ∧
    [lvlH, lvlM].all (fun st => runsWhere (sys0 st 0 0) {} fun k _ u =>
      canTake u k { code := 0x02, tval := 0xE000207F } && decide (2 ≤ (u.core 0).level)) = true ∧
    [lvlU, lvlM].all (fun st => runsWhere (sys0 st 0 0) {} fun k _ u =>
      canTake u k { code := 0x02, tval := 0xE0002200 } &&
      decide ((u.core 0).level = 0 ∨ (u.core 0).level = 3)) = true ∧
    [lvlK, lvlH].all (fun st => runsWhere (sys0 st 0 0) {} fun k _ u =>
      canTake u k { code := 0x12, next := true } &&
      decide ((u.core 0).level = 1 ∨ (u.core 0).level = 2)) = true ∧
    runsWhere (sys0 lvlK 0 0) {} (fun k _ u =>
      canTake u k { code := 0x11, next := true }) = true ∧
    [lvlU, lvlK, lvlH, lvlM].all (fun st => runsWhere (sys0 st 0 0) {} fun k _ u =>
      canTake u k { code := 0x13 } && canTake u k { code := 0x01 } && canTake u k { code := 0x02 }) = true ∧
    (let s := sys0 lvlM 0 0 { sbErr := [⟨0x55, 0⟩] }
     (s.core 0).ready = true ∧ ((s.asker 0).any fun k => canTake s k { code := 0x0C }) = true) ∧
    (let s := sys0 0xD 0 0 { cii := sgi0 }
     (s.core 0).ready = true ∧ s.due 0 = some (⟨none, 0, 0x20, 1, true⟩, 1) ∧
     ((s.asker 0).any fun k => canTake s k { code := 0x01 }) = true) := by decide +kernel

/-- Witness of ExceptionReturn: a frame that is read, of the level itself or a lower one, one that an
interrupt absorbs, one of a higher level. -/
def returns (s : State) (p : State → Nat → Bool) : Bool :=
  runsWhere s { writes := eretWrites } fun k _ u =>
    let c := u.core 0
    let sp := bank c.xsp c.level
    decide (c.level ≠ 0 ∧ c.eoiWaits = false) &&
    match u.frameLines k c.level .load [sp, sp + 64, sp + 128] with
    | .done ps _ x => match x.gather k ps [] {} with
      | .all g y => decide (ps.length = 3) && !g.bus && !g.pois &&
          p (y.modCore 0 fun c => { c with access := none }) g.val
      | _ => false
    | _ => false

theorem witness_eret :
    returns (eret0 lvlM 4) (fun z v =>
      let est := frameWord v 16
      decide (field est 0 2 ≤ (z.core 0).level) &&
      (z.takenAt 0 (z.core 0) (field est 0 2) true (est.getLsbD 3)).isNone) = true ∧
    returns (eret0 lvlK 0xD sgi0) (fun z v =>
      let est := frameWord v 16
      decide (field est 0 2 ≤ (z.core 0).level ∧ est.getLsbD 2 = (z.core 0).world ∧
        (z.takenAt 0 (z.core 0) (field est 0 2) true (est.getLsbD 3)).map (·.2) = some (z.core 0).level ∧
        (z.core 0).sb.length < 8)) = true ∧
    returns (at0 { status := lvlK, sb := frame 7, xsp := [(1, 0x2000)] }) (fun z v =>
      decide ((z.core 0).level < field (frameWord v 16) 0 2) &&
      (z.raise ⟨0, 0, 0, true, false⟩ { code := 0x02, tval := 0xE0003000 }).isSome) = true ∧
    returns (at0 { status := lvlK, sb := frame 0, xsp := [(1, 0x2000)] }) (fun z v =>
      decide ((frameWord v 16).getLsbD 2 ≠ (z.core 0).world ∧ (z.core 0).level ≠ 3) &&
      (z.raise ⟨0, 0, 0, true, false⟩ { code := 0x02, tval := 0xE0003000 }).isSome) = true ∧
    runsWhere (sys0 lvlU 0 0) { writes := eretWrites } (fun k _ u => decide ((u.core 0).level = 0) &&
      (u.raise k { code := 0x02, tval := 0xE0003000 }).isSome) = true := by decide +kernel

/-- Witness of WaitFenceAndAccountingResults. -/
theorem witness_wait_fence :
    runsWhere (sys0 lvlK 0 0) {} (fun _ _ u => decide ((u.core 0).level ≠ 0 ∧ (u.core 0).sb = [] ∧
      (u.core 0).l1iPend = [])) = true ∧
    runsWhere (sys0 lvlU 0 0) {} (fun k _ u =>
      (u.raise k { code := 0x02, tval := 0xE0003001 }).isSome && decide ((u.core 0).level = 0)) = true ∧
    runsWhere (sys0 lvlK 0 0 { sb := [entry 0 1 0] }) {} (fun _ _ u => decide ((u.core 0).sb ≠ [])) = true ∧
    (let s := sys0 0xD 0 0 { inWait := true, cii := sgi0 }
     (s.core 0).inWait = true ∧ (s.core 0).halts = [] ∧ (s.core 0).run = .started ∧
     (s.due 0).isSome = true) ∧
    (let s := sys0 0x5 0 0 { inWait := true }
     (s.core 0).inWait = true ∧ s.due 0 = none ∧ (s.core 0).sbErr = []) ∧
    (∀ x ∈ [0, 1, 2], SMap.get 0 ({ with0 [] with beatSt := [(0, x)] } : State).beatSt 0 = x) ∧
    ((with0 []).advance 9).lcAt 0 0 = some 0 := by decide +kernel

/-- Core 0 at K with stage 1 on: a table at 0x3000 whose entry 0 names one at 0x4000, whose entry 0 maps 1
GiB; answers have brought both lines. -/
def tables (l2 : SMap (Option L2Way) := []) : State :=
  at0 { status := lvlK, g := gs [0], s1base := 0x3001, tlbs := { l2 := l2 }, xsp := [(1, 0x10000)]
        got := [(0xC0, some (.data 0x4003 false)), (0x100, some (.data 0x1D false))] }

/-- The entry that the walk of `tables` gives. -/
def page : TlbEntry :=
  ⟨0, 0, 30, true, 0, 0, false, true, false, true, true, true, false, true, true, true, .cacheable, false, 1,
   0, 0⟩

theorem test_tlb :
    ((after (.tlbl 0 3 1 false) (tables)).core 0).getG 3 = 0 ∧
    ((after (.tlbl 0 3 1 false) (tables)).core 0).tlbs.l2 = [(0, some ⟨page, false, true⟩)] ∧
    ((after (.tlbl 0 3 1 false) (tables [(0, some ⟨page, false, true⟩)])).core 0).getG 3 = 3 ∧
    ((after (.tlbu 0 1 false) (tables [(0, some ⟨page, false, true⟩)])).core 0).tlbs.l2
      = [(0, some ⟨page, false, false⟩)] ∧
    ((after (.tlbiVa 0 1) (tables [(0, some ⟨page, false, false⟩)])).core 0).tlbs.l2 = [] ∧
    ((after (.tlbiVa 0 1) (tables [(0, some ⟨page, false, true⟩)])).core 0).tlbSkipped = 1 ∧
    (after (.tlbiBVa 0 1) (tables [])).net.length = 12 := by decide +kernel

/-- Witness of TlbResults: each TLBI at its level and below, with an entry; locks with stage 1 on, by a walk
and by an entry, and with both stages off. -/
theorem witness_tlb :
    runsWhere (tables [(0, some ⟨page, true, false⟩)]) { reads := tlbiReads 2 1 } (fun _ _ u =>
      decide (1 ≤ (u.core 0).level ∧ (u.core 0).level < 2) && !u.shep.hold &&
      (u.freeTxid (bankStation 0 0) 32).isSome) = true ∧
    runsWhere (sys0 lvlM 0 0) { reads := tlbiReads 5 1 } (fun _ _ u => decide (3 ≤ (u.core 0).level)) = true ∧
    runsWhere (sys0 lvlU 0 0) { reads := tlbiReads 4 1 } (fun k _ u =>
      (u.raise k { code := 0x02, tval := 0 }).isSome) = true ∧
    (∀ l2 ∈ [[], [(0, some (⟨page, false, true⟩ : L2Way))]],
      runsWhere (tables l2) { reads := [gIdx 1], writes := [gIdx 3] } (fun k _ u =>
        match u.lockWalk k false ((u.core 0).getG 1) with
        | .done key _ x => decide (1 ≤ (u.core 0).level ∧ (u.core 0).s1base.getLsbD 0 = true) &&
            (SMap.get none (x.core 0).tlbs.l2 key).isSome
        | _ => false) = true) ∧
    runsWhere (sys0 lvlK 0 0) { reads := [gIdx 1], writes := [gIdx 3] } (fun _ _ u =>
      decide ((u.core 0).s1base.getLsbD 0 = false ∧ (u.core 0).s2base.getLsbD 0 = false)) = true ∧
    [lvlK, lvlH].all (fun st => runsWhere ((tables).modCore 0 fun c =>
        { c with status := st, got := [(0xC0, some (.data 0 false))] })
      { reads := [gIdx 1], writes := [gIdx 3] } (fun k _ u =>
        match u.lockWalk k false ((u.core 0).getG 1) with
        | .fault e x => decide ((u.core 0).level = 2) || (x.raise k e).isSome
        | _ => false)) = true ∧
    [lvlK, lvlM].all (fun st => runsWhere (sys0 st (2 ^ 48) 0) { reads := [gIdx 1], writes := [gIdx 3] }
      (fun k _ u => decide (2 ^ 48 ≤ ((u.core 0).getG 1).toNat) &&
        (u.raise k { code := 0x04, fkind := 2, tval := (u.core 0).getG 1 }).isSome)) = true ∧
    (runsWhere (tables [(0, some ⟨page, false, true⟩)]) { reads := [gIdx 1] } (fun _ _ u =>
      decide (1 ≤ (u.core 0).level ∧ l2TlbFind (u.core 0).tlbs (u.core 0) 0 = some 0)) = true) ∧
    [({ reads := [gIdx 1], writes := [gIdx 3] } : Need), { reads := [gIdx 1] }].all (fun need =>
      runsWhere (sys0 lvlU 0 0) need (fun k _ u => decide ((u.core 0).level = 0) &&
        (u.raise k { code := 0x02, tval := 0 }).isSome)) = true := by decide +kernel

/-- Witness of FetchAndTranslationKeepState: a fetch from the prefetch queue, and a translation by a walk. -/
theorem witness_fetch :
    (match (with0 []).fetch ⟨0, 0, 0, true, false⟩ with
      | .ok _ => true
      | _ => false) = true ∧
    (match (tables).translate ⟨0, 0, 0, true, false⟩ .load 1 0x123 with
      | .ok pa _ _ _ _ => decide (pa = 0x123)
      | _ => false) = true := by decide +kernel

/-- A core whose arrays the checks of a window find in error: an entry in each TLB, locked and pinned or not. -/
def checked : State :=
  let s := withScratch (withOwned (tables [(0, some ⟨page, true, false⟩), (1, some ⟨page, false, false⟩)]))
  s.modCore 0 fun c => { c with
    tlbs := { c.tlbs with itlb := [(0, some { e := page, pin := true })], dtlb := [(0, some { e := page })] }
    l1i := { ways := [(256, some ⟨64, .s, true⟩)] } }

/-- What a window's checks found, on die C0 and slot 0. -/
def window (e : ArrayErr) : State := after (.beatRateWindow 0 0 ⟨10000, [e]⟩) checked

/-- R139, R158, R424, R425: the faulty copy goes, a locked entry stays, and an uncorrectable error in a dirty or
scratch word poisons it. -/
theorem test_array_errors :
    ((window (.l1i 64)).core 0).l1i.wayOf 64 = none ∧
    ((window (.l2tlb 0)).core 0).tlbs.l2.length = 2 ∧ ((window (.l2tlb 1)).core 0).tlbs.l2.length = 1 ∧
    ((window (.itlb 0)).core 0).tlbs.itlb.length = 1 ∧ ((window (.dtlb 0)).core 0).tlbs.dtlb = [] ∧
    ((window .check).core 0).halts = [.check] ∧
    SMap.get false (window (.scratch (BitVec.ofNat _ (scrBase / 8)) true)).poisWord (scrBase / 8) = true ∧
    (((window (.dc 128 true)).die 0).sub 128).st = .i := by decide +kernel

/-- Witness of ArrayErrorResults and AccountingEvents: the core of the slot, its entries, a clean line and a
dirty one, a scratch word. -/
theorem witness_array_errors :
    let s := checked
    s.lcAt 0 0 = some 0 ∧ (SMap.get none (s.core 0).tlbs.itlb 0).any (·.pin) = true ∧
    (SMap.get none (s.core 0).tlbs.dtlb 0).any (fun x => !x.pin) = true ∧
    (SMap.get none (s.core 0).tlbs.l2 0).any (·.lockI) = true ∧
    targetOf (8 * (scrBase / 8)) = .scratch ∧ scratchDie (8 * (scrBase / 8)) = 0 ∧
    s.scratchOk (8 * (scrBase / 8)) = true ∧ ((s.die 0).sub 128).st = .e ∧
    ((s.modDie 0 fun d => d.modSub 128 fun u => { u with st := .m }).die 0 |>.sub 128).st = .m := by
  decide +kernel

/-! Interrupts, pins and the range engine. -/

/-- An accessor of the secure world at M, and one at K of partition 5 of the normal world. -/
def accM : Accessor := ⟨3, true, 0, 0⟩
def accK : Accessor := ⟨1, false, 5, 0⟩

/-- A package where source 130 of die C0 is assigned to partition 5 of the normal world, and pending for
core 0. -/
def int0 : State :=
  { with0 [] with
    cp := [(cpAddr (intdStation 0) (0x2000 + 4 * 130), 0x405)]
    dies := [(0, { intd := { en := true, srcs := [(130, { en := true, pend := true, lc := 0 })] } })] }

theorem test_interrupt_words :
    ((after (.intdMsg 0 131 accM) int0).die 0).intd.dropCnt = 1 ∧
    (((after (.intdMsg 0 130 accK) int0).die 0).intd.src 130).pend = true ∧
    ((after (.intdMsg 0 127 accK) int0).die 0).intd.dropFlag = true ∧
    (((after (.enableClr (.shared 0 4) 4 accM) int0).die 0).intd.src 130).en = false ∧
    (((after (.enableClr (.shared 0 4) 2 accM) int0).die 0).intd.src 130).en = true ∧
    (((after (.pendClr (.shared 0 4) 4 accK) int0).die 0).intd.src 130).pend = false ∧
    (((after (.intdTargetWrite 0 130 0x701 accK) int0).die 0).intd.src 130).lc = 1 ∧
    ((after (.intOffer 0 130) int0).core 0).cii.offers = [(0, 130)] ∧
    ((after (.enableClr (.priv 0) 0xFFFFFFFF accM) int0).core 0).cii.en = 0x400 ∧
    ((after (.pendSet (.priv 0) 0x701 accM) int0).core 0).cii.pend = 1 ∧
    ((after (.enableSet (.priv 0) 3 accK) int0).core 0).cii.en = 0x403 := by decide +kernel

theorem test_sgi_and_eoi :
    ((after (.sgi 0 0x200) (sys0 lvlM 0 0)).core 0).cii.pend = 4 ∧
    ((after (.sgi 0 0x200) (sys0 lvlK 0 0)).core 0).cii.sgiDrop = true ∧
    ((after (.eoi 0 3) (sys0 lvlK 0 0 { cii := { stack := [⟨9, 3, none⟩], act := 8 } })).core 0).cii.act = 0 ∧
    ((after (.eoi 0 3) (sys0 lvlK 0 0)).core 0).cii.eoiErr = true ∧
    (after (.deadline 0 7) (with0 [])).tb = 7 := by decide +kernel

/-- Witness of InterruptDeliveryAndWords: an offer that stands and one that does not, a message of the owner,
one of another, one below 128, and sources that a writer may reach or not. -/
theorem witness_interrupts :
    (((int0.die 0).intd.src 130).lc.toNat = (0 : LC).val ∧ sharedId 130 = true ∧
      int0.offerable 0 0 130 = true ∧ (int0.core 0).cii.offers = []) ∧
    ({ int0 with dies := [(0, { intd := { srcs := [(130, { lc := 0 })] } })] } : State).offerable 0 0 130
      = false ∧
    (let o := int0.intdOwner 0 130
     accK.lvl ≠ 0 ∧ o.getLsbD 10 = true ∧ accK.world = o.getLsbD 9 ∧ accK.pid = o.extractLsb' 0 8) ∧
    (int0.intdOwner 0 131).getLsbD 10 = false ∧
    (int0.maySource 0 130 accK = true ∧ int0.maySource 0 131 accK = false ∧
      int0.maySource 0 1023 accM = true) ∧
    (accM.lvl = 3 ∧ accK.lc.toNat = (0 : LC).val ∧ accK.lvl ≠ 0) ∧
    (int0.advance 7).wakes 2 = false ∧
    (({ at0 { cii := { deadline := 5 } } with cp := [(pwrAddr 0x44, 2)] } : State).advance 7).wakes 2 = true := by
  decide +kernel

/-- Witness of SgiEoiAndPinResults. -/
theorem witness_sgi :
    ((sys0 lvlM 0 0).core 0).level ≠ 0 ∧ (0x200#32).toNat % 256 = (0 : LC).val ∧
    (((sys0 lvlM 0 0).core 0).accessor 0).lvl = 3 ∧
    ((((sys0 lvlK 0 0).core 0).accessor 0).lvl ≠ 3 ∧
      (((sys0 lvlK 0 0).core 0).accessor 0).world ≠ (((sys0 lvlK 0 0).core 0).cii.cfg 0).world) ∧
    ((sys0 lvlU 0 0).core 0).level = 0 ∧
    ((sys0 lvlK 0 0 { cii := { stack := [⟨9, 3, none⟩] } }).core 0).cii.stack = [⟨9, 3, none⟩] ∧
    ((sys0 lvlK 0 0 { cii := { stack := [⟨9, 130, some 0⟩] } }).core 0).cii.stack = [⟨9, 130, some 0⟩] := by
  decide +kernel

/-- A package whose serial units are open to partition 5 of the normal world, on, and as given. -/
def pins (rx tx : List Byte) (x : I2c) (g : Gpio) : State :=
  { with0 [] with
    cp := [(cpAddr (intdStation 0) (0x2000 + 4 * 64), 0x700), (servedOwner 0, 0x405),
           (servedOwner 1, 0x405), (servedOwner 2, 0x405), (servedOwner 3, 0x405)]
    uarts := [(1, { rx := rx, tx := tx, ctl := 0x1021E })]
    i2cs := [(0, x)], gpios := [(0, g), (31, g)] }

theorem test_pins :
    ((after (.uartRx 1 0x41 false) (pins [] [] {} {})).uart 1).rx = [0x41] ∧
    ((after (.uartRx 1 0x41 false) (pins (List.replicate 16 0) [] {} {})).uart 1).rxovr = true ∧
    ((after (.uartDataWrite 1 0x42 accK) (pins [] [] {} {})).uart 1).tx = [0x42] ∧
    ((after (.uartDataRead 1 accK) (pins [1, 2] [] {} {})).uart 1).rx = [2] ∧
    ((after (.uartDataRead 1 accM) (pins [1, 2] [] {} {})).uart 1).rx = [1, 2] ∧
    ((after (.uartTxDone 1) (pins [] [7] {} {})).uart 1).tx = [] ∧
    ((after (.i2cGo 0 0x2150 accK) (pins [] [] { ctl := 0x19C3 } {})).i2c 0).busy = true ∧
    ((after (.i2cGo 0 0x3150 accK) (pins [] [] { ctl := 0x19C3 } {})).i2c 0).badlen = true ∧
    ((after (.i2cDone 0 ⟨[5], false, false, false⟩) (pins [] [] { busy := true, cmd := 0x1D0 } {})).i2c
      0).buf.head? = some 5 ∧
    ((after (.gpioPinChange 31 true) (pins [] [] {} {})).gpio 31).pin = true ∧
    ((after (.gpioPinChange 0 true) (pins [] [] {} {})).net.map (·.addr.toNat)) = [64] := by decide +kernel

/-- Witness of the pin clauses. -/
theorem witness_pins :
    (let o := (pins [] [] {} {}).cpGet (servedOwner 1)
     accK.lvl ≠ 0 ∧ o.getLsbD 10 = true ∧ accK.world = o.getLsbD 9 ∧ accK.pid = o.extractLsb' 0 8 ∧
     accM.world ≠ o.getLsbD 9) ∧
    ((pins [] [] {} {}).uart 1).ctl.getLsbD 16 = true ∧ ((pins [] [] {} {}).uart 0).ctl.getLsbD 16 = false ∧
    ((0x2150#32).getLsbD 13 = true ∧ (0x2150#32).toNat / 2 ^ 8 % 32 = 1 ∧
      (0x3050#32).toNat / 2 ^ 8 % 32 = 16 ∧ (0x3150#32).toNat / 2 ^ 8 % 32 = 17 ∧
      ({ ctl := 0x19C3 } : I2c).ctl.getLsbD 12 = true) ∧
    (let s := pins [] [] {} {}
     (s.gpio 0).oe = false ∧ (s.gpio 0).pol = false ∧ s.shep.hold = false ∧
     s.cpField (pwrAddr 0x40) 0 1 = 0 ∧ bit (s.intdOwner 0 64) 10 = true) ∧
    ((pins [] [] {} { oe := true }).gpio 31).oe = true := by decide +kernel

/-- Die C0 with a range engine. -/
def rme0 (x : Rme) : State := { with0 [] with dies := [(0, { rme := x })] }

/-- A holder at H in the secure world. -/
def holder : RmeHolder := ⟨0, 0, 2, true⟩

/-- That holder as an accessor. -/
def accH : Accessor := ⟨2, true, 0, 0⟩

/-- Die C0 with a command of `holder` that runs over line 0, which a Pasture region opens to it. -/
def running (x : Rme) (secs : SMap Sector) : State :=
  { rme0 {} with
    dies := [(0, { rme := { x with holder := some holder, run := some holder, busy := true, limit := 0x3F }
                   secs := secs })]
    cp := [(cpAddr (mcStation 0) 0x1000, 0x5F)] }

/-- R147, R162: a line that LOCK holds, one that UNLOCK frees, and the CMO of a DOMAIN step. -/
theorem test_range_steps :
    (((after (.rmeLineStep 0) (running { op := 5 } [(2, { tag := some 0, subs := [(0, { st := .s })] })])).die
      0).sec 0 2).lock = true ∧
    (((after (.rmeLineStep 0) (running { op := 6 } [(2, { tag := some 0, lock := true })])).die 0).sec 0 2).lock
      = false ∧
    (after (.rmeLineStep 0) (running { op := 4, scope := true } [])).net.map (fun m => (m.kind, m.addr.toNat))
      = [(.cmo, 3)] ∧
    ((after (.rmeClean 0 0x121 accM) (rme0 {})).die 0).rme.run = some ⟨0, 0, 3, true⟩ := by decide +kernel

theorem test_range_engine :
    ((after (.rmeClaimReq 0 accH) (rme0 {})).die 0).rme.holder = some holder ∧
    ((after (.rmeClaimRel 0 accH) (rme0 { holder := some holder })).die 0).rme.holder = none ∧
    ((after (.rmeAbort 0 accH) (rme0 { holder := some holder, busy := true })).die 0).rme.err = 5 ∧
    ((after (.rmeClean 0 0x101 accH) (rme0 { holder := some holder, base := 0x40 })).die 0).rme.err = 2 ∧
    ((after (.rmeClean 0 0x101 accH) (rme0 { holder := some holder, limit := 0x40 })).die 0).rme.busy = true ∧
    ((after (.rmeZero 0 0x104 accH) (rme0 { holder := some holder })).die 0).rme.err = 1 ∧
    ((after (.rmeLock 0 0x125 accH) (rme0 { holder := some holder })).die 0).rme.err = 1 ∧
    ((after (.rmeInval 0 0x112 accK) (rme0 { holder := some ⟨0, 5, 1, false⟩ })).die 0).rme.err = 3 ∧
    ((after (.rmeComplete 0) (rme0 { busy := true, irq := true, next := 0x40 })).die 0).rme.done = true ∧
    (((after (.rmeComplete 0) (rme0 { busy := true, irq := true, next := 0x40 })).die 0).intd.src 32).pend
      = true := by decide +kernel

/-- Witness of RangeEngineResults: a holder, another, M; scopes and ranges inside and outside; a step of each
kind; an engine that completes and one that does not. -/
theorem witness_range_engine :
    (accH.lvl ≠ 0 ∧ accH.lvl ≠ 3 ∧ accM.lvl = 3 ∧ ({ holder := some holder } : Rme).heldBy accH = true ∧
      ({ holder := some holder } : Rme).heldBy accK = false ∧
      ({ holder := some holder } : Rme).mayProgram accH = true ∧
      ({ holder := some holder } : Rme).mayProgram accK = false) ∧
    (let s := running { op := 6 } [(2, { tag := some 0, lock := true })]
     (s.die 0).rme.run = some holder ∧ (s.die 0).wayOf 0 = some 2 ∧ (s.die 0).closed.getLsbD 2 = false ∧
     s.rmeOut 0 < 32) ∧
    (let s := running { op := 5 } [(2, { tag := some 0, subs := [(0, { st := .s })] })]
     let r := s.checkPasture (mcStation 0) 32 0 true 0 .r (intdStation 0)
     r.1 = true ∧ r.2.die 0 = s.die 0 ∧ (s.die 0).wayOf 0 = some 2 ∧ ((s.die 0).sub 0).st ≠ .i ∧
     (s.die 0).lockedIn 0 < r.2.lockMax 0) ∧
    (let s := running { op := 1, scope := true } []
     let r := s.checkPasture (mcStation 0) 32 0 true 0 .r (intdStation 0)
     r.1 = true ∧ r.2.die 0 = s.die 0 ∧ (r.2.freeTxid (bankOf 0 0) 32).isSome = true) ∧
    (let s := running { op := 1 } []
     (s.checkPasture (mcStation 0) 32 0 true 0 .r (intdStation 0)).1 = true ∧ (s.die 0).wayOf 0 = none) ∧
    (let s := { running { op := 1 } [] with cp := [] }
     let r := s.checkPasture (mcStation 0) 32 0 true 0 .r (intdStation 0)
     r.1 = false ∧ r.2.die 0 = s.die 0) ∧
    (rme0 { busy := true, next := 0x40 }).rmeOut 0 = 0 := by decide +kernel

/-! Homes, dies under snoops, and answers. -/

/-- A package whose home H0 accepts, whose Prism link of die C0 is up, and whose HBM one Pasture region opens
to all, with line 128 in the MSC as 0xAB. -/
def coh (h : Home := {}) (dt : SMap DtSec := []) : State :=
  { with0 [] with
    cp := [(cpAddr (homeStation 0) 0, 1), (cpAddr (mcStation 0) 0x1000, 0x5F),
           (cpAddr (mcStation 0) 0x100C, 0xFFFFFF), (cpAddr (hubPortStation 0) 0, 3)]
    homes := [(0, { h with msc := { ways := [(mscSet 128 * 16, some ⟨128, false, 0xAB, false⟩)] } })]
    dt := dt }

/-- Die C0's duplicate tags hold line 128 in state `c`. -/
def tagged (c : CState) : SMap DtSec := [(dtKey 0 (dcSet 128) 3, { tag := some 32, st := [(0, c)] })]

/-- A message from the bank of die C0 that serves line 128 to home H0, for that line. -/
def toHome (k : MsgKind) (low : Nat := 0) (data : Option Line := none) : Msg :=
  { kind := k, dest := homeStation 0, src := bankOf 0 128, s := true, addr := BitVec.ofNat 48 (0x2000 + low)
    bmask := fullMask, data := data }

/-- An entry of H0's table for a request of line 128. -/
def pending (k : MsgKind) (phase : Phase) : PEntry := { idx := 7, msg := toHome k, phase := phase }

/-- The message arrives at its station, in a state where `p` holds. -/
def arrives (s : State) (m : Msg) (p : State → Bool) : Bool :=
  let u := (s.recv m).passed m
  m.checks.isEmpty && !s.overtakes m && !s.linkWaits m && !s.isDown m.dest m.src && !u.stale m &&
    !u.slotFenced m.dest && p u

/-- What `arrives` says, in the words of the statements. -/
theorem arrives_of {s : State} {m : Msg} {p : State → Bool} (h : arrives s m p = true) :
    ∃ u, Arrives s m u ∧ p u = true := by
  simp only [arrives, Bool.and_eq_true, Bool.not_eq_true', List.isEmpty_iff] at h
  obtain ⟨⟨⟨⟨⟨⟨h1, h2⟩, h3⟩, h4⟩, h5⟩, h6⟩, h7⟩ := h
  exact ⟨_, ⟨h1, h2, h3, h4, rfl, h5, h6⟩, h7⟩

/-- The home takes the message. -/
def atHome (s : State) (m : Msg) (p : State → Bool) : Bool :=
  arrives s m fun u => u.accepts 0 && m.lowOk && !u.shep.hold && p u

/-- The messages sent, by kind, data and low address bits. -/
def sent (s : State) : List (MsgKind × Option Line × Nat) := s.net.map fun m => (m.kind, m.data, m.low)

theorem test_home_requests :
    sent (after (.rdOnce (toHome .rdOnce)) (coh)) = [(.readData, some 0xAB, 0)] ∧
    sent (after (.rdShared (toHome .rdShared 3)) (coh)) = [(.grantE, some 0xAB, 0)] ∧
    (after (.rdShared (toHome .rdShared 3)) (coh)).dtState 0 128 = .e ∧
    sent (after (.upgrade (toHome .upgrade 3)) (coh {} (tagged .s))) = [(.homeDone, none, 0)] ∧
    sent (after (.wrUnique (toHome .wrUnique 0 (some 0x77))) (coh)) = [(.homeDone, none, 0)] := by
  decide +kernel

theorem test_home_writes_and_snoops :
    (((after (.wrUnique (toHome .wrUnique 0 (some 0x77))) (coh)).home 0).msc.find 128).map (·.data)
      = some 0x77 ∧
    sent (after (.atomicAtHome (toHome .atomicAtHome 0 (some 5))) (coh)) = [(.atomicOld, some 0xAB, 0)] ∧
    (((after (.atomicAtHome (toHome .atomicAtHome 0 (some 5))) (coh)).home 0).msc.find 128).map (·.data)
      = some 0xB0 ∧
    (((after (.cmoZero (toHome .cmo 3)) (coh)).home 0).msc.find 128).map (·.data) = some 0 ∧
    sent (after (.rdUnique (toHome .rdUnique 3)) (coh {} [(dtKey 1 (dcSet 128) 3,
      { tag := some 32, st := [(0, .s)] })])) = [(.snpInval, none, 0)] ∧
    sent (after (.rdOnce (toHome .rdOnce)) (coh {} (tagged .e))) = [(.snpOnce, none, 0)] := by
  decide +kernel

theorem test_home_refusal_and_eviction :
    sent (after (.rdOnce (toHome .rdOnce)) { coh with cp := [(cpAddr (homeStation 0) 0, 1),
      (cpAddr (hubPortStation 0) 0, 3)] }) = [(.homeRefuse, none, 0)] ∧
    (after (.evict (toHome .evict)) (coh {} (tagged .e))).dtState 0 128 = .i ∧
    (after (.writeBack (toHome .writeBack 1 (some 9))) (coh {} (tagged .e))).dtState 0 128 = .e ∧
    (((after (.writeBack (toHome .writeBack 1 (some 9))) (coh {} (tagged .e))).home 0).msc.find 128).map
      (fun l => (l.data, l.dirty)) = some (9, true) ∧
    ((coh { table := [pending .rdShared .grant] } (tagged .e)).homeStop 0).accepts 0 = false ∧
    SMap.get false (after (.snoopTimeout 0 7 none) (coh { table := [pending .rdShared .grant] }
      (tagged .e))).poisLine 128 = true := by decide +kernel

/-- Witness of HomeRequestResults: a refused request, a second one for a line, every request of a line that
is free, an Upgrade of the only sharer, holders to snoop. -/
theorem witness_home_requests :
    atHome { coh with cp := [(cpAddr (homeStation 0) 0, 1), (cpAddr (hubPortStation 0) 0, 3)] }
      (toHome .rdOnce) (fun u =>
        let r := u.checkPasture (mcStation 0) 32 0x2000 true 0 .r (bankOf 0 128)
        u.mayTake 0 false && !r.1 && decide (r.2.home 0 = u.home 0) && !r.2.shep.hold) = true ∧
    atHome (coh { table := [pending .rdShared .grant] }) (toHome .rdOnce) (fun u =>
        u.mayTake 0 false && u.passes (mcStation 0) 32 0x2000 true 0 .r &&
        (u.home 0).table.all (fun e => decide (e.phase ≠ .queued)) &&
        (u.home 0).table.any fun e => e.msg.line == 128) = true ∧
    [(MsgKind.rdShared, 15), (.rdUnique, 0), (.rdOnce, 0), (.wrUnique, 0), (.atomicAtHome, 62), (.cmo, 0),
        (.cmo, 1), (.cmo, 2), (.cmo, 3)].all (fun x => atHome (coh) (toHome x.1 x.2 (some 1)) fun u =>
      u.mayTake 0 false && u.passes (mcStation 0) 32 0x2000 true 0 .r &&
      u.passes (mcStation 0) 32 0x2000 true 0 .w && (u.home 0).table.isEmpty && (u.home 0).held.isEmpty &&
      !u.mirrored 128 && (u.holders 128).isEmpty && ((u.home 0).msc.find 128).any fun l => !l.pois) = true ∧
    atHome (coh {} (tagged .s)) (toHome .upgrade 3) (fun u =>
      decide (u.holders 128 = [(0, .s)] ∧ dieOfStation (bankOf 0 128) = some 0)) = true ∧
    atHome (coh {} (tagged .e)) (toHome .rdOnce) (fun u => decide (u.dtState 0 128 = .e ∧
      Snooped (.rdOnce, 0) (some 0) 0 (u.dtState 0 128) ≠ none)) = true := by decide +kernel

/-- Witness of HomeCompletionResults: evictions that no snoop crosses, that one crosses, that are stale; the
answers, the last and not; GrantSeen; timers. -/
theorem witness_home_completions :
    [MsgKind.evict, .writeBack].all (fun k => atHome (coh {} (tagged .e)) (toHome k 0 (some 1)) fun u =>
      (u.home 0).stale.isEmpty && u.mayTakeEv 0 0 false && (u.home 0).table.isEmpty &&
      !u.mirrored 128) = true ∧
    atHome (coh { table := [{ pending .rdOnce (.snoop [0]) with holders := [(0, .e)] }] }) (toHome .evict)
      (fun u => u.mayTakeEv 0 0 false && (u.home 0).stale.isEmpty) = true ∧
    atHome (coh { stale := [(0, 0)] }) (toHome .writeBack 0 (some 1)) (fun u =>
      (u.home 0).stale.contains (0, (toHome .writeBack).txid)) = true ∧
    [[(0 : Die)], [0, 1]].all (fun left =>
      atHome (coh { table := [pending .rdOnce (.snoop left)] })
        { toHome .ansKeepData 0 (some 1) with txid := 7 } fun u =>
          decide ((u.home 0).table.find? (fun x => x.idx == 7) = some (pending .rdOnce (.snoop left)) ∧
            (u.home 0).table.filter (fun x => x.idx == 7) = [pending .rdOnce (.snoop left)] ∧
            (u.home 0).held = []) && !u.mirrored 128) = true ∧
    atHome (coh { table := [pending .rdShared .grant] }) (toHome .grantSeen) (fun u =>
      decide ((u.home 0).table.find? (fun x => x.phase == .grant && x.msg.src == bankOf 0 128 &&
        x.msg.txid == 0) = some (pending .rdShared .grant))) = true ∧
    (coh { table := [pending .rdOnce (.snoop [0])] }).accepts 0 = true ∧
    (((coh { table := [pending .rdOnce (.snoop [0])] }).home 0).table.find? fun x => x.idx == 7)
      = some (pending .rdOnce (.snoop [0])) := by decide +kernel

/-- A message to the bank of die C0 that serves line 128. -/
def toBank (k : MsgKind) (data : Option Line := none) : Msg :=
  { kind := k, dest := bankOf 0 128, src := homeStation 0, addr := 0x2000, data := data }

/-- Core 0 waits with an access of a kind, for which the bank has an open request `r`. -/
def waiting (a : AccKind) (sb : List SbEntry) (r : Req) : State :=
  { coh with reqs := [r]
             cores := [(0, { run := .started, pfq := List.replicate 8 none, sb := sb
                             access := some { kind := a, parts := [], leave := 0 } })] }

/-- A request of the bank. -/
def asked (k : MsgKind) (p : Purpose) (die : Option Die := none) (way : Nat := 0) : Req :=
  { msg := { kind := k, dest := homeStation 0, src := bankOf 0 128, s := true, addr := 0x2000 }, way := way
    die := die, purpose := p }

theorem test_die_answers :
    (after (.snpInval (toBank .snpInval)) { withOwned (with0 []) with cp := (coh).cp }).net.map (·.kind)
      = [.ansGone] ∧
    (((after (.snpShared (toBank .snpShared)) { withOwned (with0 []) with cp := (coh).cp }).die 0).sub 128).st
      = .s ∧
    (after (.snpOnce (toBank .snpOnce)) (coh)).net.map (·.kind) = [.ansGone] ∧
    ((after (.homeDone (toBank .homeDone))
      (waiting .cmo [{ entry 0x2000 8 1 with sent := true }] (asked .wrUnique (.drain 0)))).core 0).sb = [] ∧
    ((after (.homeRefuse (toBank .homeRefuse))
      (waiting .cmo [{ entry 0x2000 8 1 with sent := true }] (asked .wrUnique (.drain 0)))).core 0).sbErr
      = [⟨0x2000, 3⟩] ∧
    (((after (.grantE (toBank .grantE (some 0x2A)))
      (waiting .cmo [] (asked .rdShared (.prefetch 0) (some 0) 3))).die 0).sub 128).st = .e ∧
    (after (.grantS (toBank .grantS (some 0x2A)))
      (waiting .cmo [] (asked .rdShared (.prefetch 0) (some 0) 3))).net.map (·.kind) = [.grantSeen] := by
  decide +kernel

/-- An answer reaches its requester's transaction `r`. -/
def atRequester (s : State) (m : Msg) (r : Req) (p : State → Bool) : Bool :=
  arrives s m fun u => (unitKind m.dest).any (fun x => MsgKind.answers m.kind x) && (decide (0x30 ≤ m.kind.code) || m.lowOk) &&
    decide (m.dest ≠ foldStation) && decide (u.findReq m = some r) && p u

/-- Witness of DieAnswerResults: snoops of a line held and not; each answer to what its core waits for. -/
theorem witness_die_answers :
    [MsgKind.snpShared, .snpInval, .snpOnce].all (fun k =>
      arrives { withOwned (with0 []) with cp := (coh).cp } (toBank k) fun u =>
        decide (((u.die 0).sub 128).st = .e) && !u.shep.hold) = true ∧
    arrives (coh) (toBank .snpInval) (fun u => decide (((u.die 0).sub 128).st = .i) &&
      ((u.die 0).evOf 128).isNone) = true ∧
    (let r := asked .rdOnce (.access 0)
     [MsgKind.readData, .homeRefuse, .homePoison, .ncData, .ncErr, .ncPoison].all (fun k =>
      atRequester (waiting (.line false 128) [] r) (toBank k (some 1)) r fun u =>
        (u.asker 0).isSome && (u.core 0).access.any fun a => decide (a.kind = .line false 128)) = true) ∧
    (let r := asked .atomicAtHome (.access 0)
     atRequester (waiting (.atomic 0 3) [] r) (toBank .atomicOld (some 1)) r (fun u =>
        (u.core 0).access.any fun a => decide (a.kind = .atomic 0 3)) = true) ∧
    (let r := asked .cmo (.access 0)
     atRequester (waiting .cmo [] r) (toBank .homeDone) r (fun u =>
        (u.core 0).access.any fun a => decide (a.kind = .cmo)) = true) ∧
    (let r := asked .wrUnique (.drain 0)
     atRequester (waiting .cmo [{ entry 0x2000 8 1 with sent := true }] r) (toBank .homeDone) r (fun u =>
        (u.core 0).sb.any (·.sent)) = true) ∧
    (let r : Req := { asked .evict .evict (some 0) with msg := { toHome .evict with txid := 0x3F81 } }
     atRequester { waiting .cmo [] r with dies := [(0, { evb := [(0, some ⟨32, [(1, some ⟨1, false, true,
        true⟩)]⟩)] })] } { toBank .evictDone with txid := 0x3F81 } r (fun u =>
        (SMap.get none (u.die 0).evb 0).isSome) = true) ∧
    [0, 11].all (fun w =>
      let r := asked .tlbBcast (.access 0) none w
      atRequester (waiting (.bcast 12) [] r) (toBank .tlbAck) r fun u => (u.asker 0).isSome) = true ∧
    (let r := asked .intMsg .interrupt
     arrives (waiting .cmo [] r) (toBank .intAck) (fun u => decide (u.findReq (toBank .intAck) = some r))
       = true) ∧
    (let r := asked .rdShared (.prefetch 0) (some 0) 15
     [MsgKind.grantS, .grantE].all (fun k => atRequester (waiting .cmo [] r) (toBank k (some 1)) r fun u =>
       [0, 1, 2, 3, 4, 5, 6, 7, 8, 9, 10, 11, 12, 13, 14].all fun w =>
         decide (((u.die 0).sec (dcSet 128) w).tag ≠ some 32)) = true) := by decide +kernel

/-- A message from die C1 to a station of die C0, with both links up. -/
def fromC1 (k : MsgKind) (dest : Station) (a : Nat) (data : Option Line := none) (bytes : Nat := 8) : Msg :=
  { kind := k, dest := dest, src := slotStation 1 0, s := true, lvl := 3, addr := BitVec.ofNat 48 a
    bmask := 0xF, data := data, bytes := bytes }

/-- `s` with the links of both dies up. -/
def linked (s : State) : State :=
  { s with cp := (cpAddr (hubPortStation 0) 0, 3) :: (cpAddr (hubPortStation 1) 0, 3) :: s.cp }

/-- The address of a register of die C0's block. -/
def dieReg (off : Nat) : Nat := 0xF010000000 + off

theorem test_scratch_and_devices :
    (after (.scrWr (fromC1 .scrWr (bankStation 0 0) (scrBase + 64) (some 0xDDCCBBAA)))
      (linked (withScratch (with0 [])))).byte (scrBase + 66) = 0xCC ∧
    (after (.scrRd (fromC1 .scrRd (bankStation 0 0) scrBase none 64))
      (linked (withScratch (with0 [])))).net.map (fun m => (m.kind, m.data.map fun d => Line.byte d 8))
      = [(.ncData, some 0x11)] ∧
    (after (.scrRd (fromC1 .scrRd (bankStation 0 0) (scrBase + 2 ^ 21) none 64))
      (linked (withScratch (with0 [])))).net.map (·.kind) = [.ncErr] ∧
    (after (.devRd { fromC1 .devRd (intdStation 0) (dieReg 0x10) none 4 with lvl := 0 })
      (linked (with0 []))).net.map (·.kind) = [.ncErr] ∧
    (((after (.devWr (fromC1 .devWr (intdStation 0) (dieReg 0x12000) (some 1) 4))
      (linked (with0 []))).net).map (·.kind)) = [.ncErr] ∧
    (after (.intMsg { fromC1 .intMsg (intdStation 0) 130 with s := false, pid := 5 })
      (linked int0)).net.map (·.kind) = [.intAck] := by decide +kernel

/-- Witness of ScratchDeviceAndBroadcastResults. -/
theorem witness_scratch_and_devices :
    [MsgKind.scrWr, .scrRd].all (fun k =>
      arrives (linked (withScratch (with0 []))) (fromC1 k (bankStation 0 0) scrBase (some 1)) fun u =>
        decide (targetOf scrBase = .scratch ∧ scratchDie scrBase = 0) && u.scratchOk scrBase &&
        !u.shep.hold && !u.scratchPois scrBase 8 &&
        u.passes (dcsStation 0) 16 scrBase true 0 .w && u.passes (dcsStation 0) 16 scrBase true 0 .r) = true ∧
    arrives (linked (withScratch (with0 []))) (fromC1 .scrRd (bankStation 0 0) (scrBase + 2 ^ 21)) (fun u =>
      !u.scratchOk (scrBase + 2 ^ 21)) = true ∧
    arrives (linked (with0 [])) (fromC1 .devRd (intdStation 0) (dieReg 0) none 4) (fun u =>
      (unitKind (intdStation 0)).any (·.isDevice) &&
      (u.devRead (fromC1 .devRd (intdStation 0) (dieReg 0) none 4)).any fun x => !x.2.shep.hold) = true ∧
    arrives (linked (with0 [])) (fromC1 .devWr (intdStation 0) (dieReg 0) (some 1) 4) (fun u =>
      (u.devWrite (fromC1 .devWr (intdStation 0) (dieReg 0) (some 1) 4)).isSome) = true ∧
    arrives (linked (with0 [])) { fromC1 .devRd (intdStation 0) (dieReg 1) none 2 with lvl := 0 } (fun u =>
      !u.shep.hold) = true ∧
    arrives (linked int0) { fromC1 .intMsg (intdStation 0) 130 with s := false, pid := 5 } (fun u =>
      bit (u.intdOwner 0 130) 10) = true ∧
    [0x12, 0x13, 0x14, 0x15].all (fun a =>
      arrives (linked (with0 [])) (fromC1 .tlbBcast (diePortStation 0) a) fun _ => true) = true ∧
    arrives (linked (coh { table := [pending .rdShared .grant] })) (toHome .roleGone) (fun u =>
      ((u.home 0).table.find? fun e => e.phase == .grant && e.msg.src == bankOf 0 128 && e.msg.txid == 0)
        == some (pending .rdShared .grant)) = true := by decide +kernel

/-- Witness of RouteOrder, and what the command then answers. -/
theorem witness_route_order :
    (let x := toHome .evict
     let m := toHome .rdOnce
     x ≠ m ∧ x.src = m.src ∧ x.dest = m.dest ∧ x.vc = m.vc ∧
     (after (.rdOnce m) { coh with net := [x, m] }).net = [x, m] ∧
     (after (.evict x) { coh with net := [x, m] }).net.map (·.kind) = [.rdOnce, .evictDone]) := by
  decide +kernel

/-- What one check of a flit finds at home H0: a single-bit error or an uncorrectable word. -/
def flitCe : FlitCheck := { st := homeStation 0, data := false, ce := [2] }
def flitUe (data : Bool) : FlitCheck := { st := homeStation 0, data := data, ue := [(1, 0x0F)] }

/-- The bits CORR, UE_HDR, UE_DATA and BADCMD of H0's station, and CORR_COUNT. -/
def fabErr (s : State) : Nat × Nat :=
  (s.cpField (cpAddr (homeStation 0) 0xFF010) 0 4, s.cpField (cpAddr (homeStation 0) 0xFF010) 16 16)

/-- Home H0 with the detail slots of the fabric's reports full, so that a report only counts as merged. -/
def full : State :=
  { coh with cp := ([0x18, 0x19, 0x1A, 0x1B] : List Nat).map (fun k =>
    (cpAddr (homeStation 0) (0xF8000 + 32 * k), 0x80000000)) ++ (coh).cp }

/-- R180, R230, R233, R234: a corrected flit is served, a lost header is not, poisoned data goes on; a command that
a home does not take sets BADCMD. -/
theorem test_flits_and_commands :
    (let s := after (.rdOnce { toHome .rdOnce with checks := [flitCe] }) (full)
     sent s = [(.readData, some 0xAB, 0)] ∧ fabErr s = (1, 1)) ∧
    (let s := after (.rdOnce { toHome .rdOnce with checks := [flitUe false] }) (full)
     sent s = [] ∧ fabErr s = (2, 0)) ∧
    (let s := after (.wrUnique { toHome .wrUnique 0 (some 0x77) with checks := [flitUe true] }) (full)
     sent s = [(.homeDone, none, 0)] ∧ (((s.home 0).msc.find 128).map (·.pois)) = some true ∧
     fabErr s = (4, 0)) ∧
    (let s := after (.rdOnce (toHome (.other 0x0F))) (full)
     sent s = [] ∧ fabErr s = (8, 0)) ∧
    (let s := after (.scrRd (toHome .scrRd)) (full)
     sent s = [] ∧ fabErr s = (8, 0)) ∧
    sent (after (.rdOnce (toHome .rdShared)) { full with net := [toHome .rdShared] })
      = [(.rdShared, none, 0)] := by decide +kernel

/-- Witness of MessagesNotTaken and FlitCheckResults: messages at the end of their way that a station does not
serve, that are stale, that find their station down. -/
theorem witness_messages_not_taken :
    (let m := toHome .scrRd
     (coh).overtakes m = false ∧ (coh).linkWaits m = false ∧ (coh).isDown m.dest m.src = false ∧
     (unitKind m.dest).map (servedBy m.kind) = some false) ∧
    (let m := { toBank .homeDone with epoch := 1 }
     let u := ((coh).recv m).passed m
     (coh).isDown m.dest m.src = false ∧ u.slotFenced m.dest = false ∧
     (unitKind m.dest).map (servedBy m.kind) = some true ∧ u.stale m = true) ∧
    (let s := { coh with cp := [(cpAddr (homeStation 0) 0, 1), (cpAddr (hubPortStation 0) 0, 5)] }
     [MsgKind.snpInval, .scrRd, .homeDone, .tlbBcast].all (fun k =>
       !s.overtakes (toBank k) && !s.linkWaits (toBank k) && s.isDown (bankOf 0 128) (homeStation 0)) = true) ∧
    (toHome .wrUnique 0 (some 1)).flits = 2 ∧ poisonWords (flitUe true) false < 5 := by decide +kernel

/-- R182, R187: a snoop of a line that the eviction buffer holds is answered from there, naming the entry. -/
theorem test_snooped_eviction :
    (let ev : SMap (Option EvEntry) := [(2, some ⟨32, [(0, some ⟨0x5A, false, true, true⟩)]⟩)]
     let s := after (.snpInval (toBank .snpInval)) { coh with dies := [(0, { evb := ev })] }
     s.net.map (fun m => (m.kind, m.addr.toNat, m.data)) = [(.ansGoneData, 0x2000 + 34, some 0x5A)]) := by
  decide +kernel

/-! Regulation and the memory controllers. -/

/-- Core 0's regulator with a budget and a use, and requests held. -/
def regs (budget used : Nat) (held : List Msg) (shed : Bool := false) : State :=
  { with0 [] with cp := [(dcs0 0x200, BitVec.ofNat 32 budget), (dcs0 0x204, BitVec.ofNat 32 used)]
                  regHeld := held.map fun m => (.core 0, m), shed2 := shed }

theorem test_regulation :
    (after (.regWindowStart ⟨.core 0, 1000⟩) (regs 4 6 [])).cpField (dcs0 0x204) 0 18 = 2 ∧
    (after (.regWindowStart ⟨.core 0, 1000⟩) (regs 0 6 [])).cpField (dcs0 0x204) 0 18 = 0 ∧
    (after (.regWindowStart ⟨.core 0, 999⟩) (regs 4 6 [])).cpField (dcs0 0x204) 0 18 = 6 ∧
    (after (.regWindowStart ⟨.core 0, 1000⟩) (regs 4 4 [toHome .rdOnce])).net = [routed (toHome .rdOnce)] ∧
    ((regs 4 4 []).inject (.core 0) (toHome .rdOnce)).regHeld.length = 1 ∧
    ((regs 4 4 []).inject (.core 0) (toHome .evict)).cpField (dcs0 0x204) 0 18 = 5 ∧
    windowLevel 100 50 = 1 ∧ windowLevel 100 49 = 0 ∧ windowLevel 100 90 = 3 ∧ windowLevel 100 89 = 2 := by
  decide +kernel

/-- Witness of RegulationResults: a regulator that admits, one at its budget, one that is repaid below it and
one that is not; a measured class and one without requests; classes that fit. -/
theorem witness_regulation :
    (regs 4 3 []).regAddr (.core 0) = some (dcs0 0x200) ∧ chargedKind .rdOnce = true ∧
    (regs 4 3 []).admits (.core 0) (dcs0 0x200) 0 = true ∧ (regs 4 4 []).admits (.core 0) (dcs0 0x200) 0 = false ∧
    (regs 4 3 []).shep.hold = false ∧ (regs 4 3 []).shed2 = false ∧
    (regs 4 3 []).slotFenced (toHome .rdOnce).src = false ∧
    (regs 4 3 []).heldAhead (.core 0) (toHome .rdOnce) = false ∧
    (regs 4 3 [toHome .rdOnce]).heldAhead (.core 0) (toHome .rdOnce) = true ∧
    ((regs 4 7 []).advance 1000).tb.toNat % 1000 = 0 ∧ ((regs 4 7 []).advance 999).tb.toNat % 1000 ≠ 0 ∧
    (regs 4 7 [toHome .rdOnce]).cpField (dcs0 0x204) 0 18 - 4 < 4 ∧
    4 ≤ (regs 4 8 [toHome .rdOnce]).cpField (dcs0 0x204) 0 18 - 4 ∧
    ([⟨0, 15, 3⟩] : List Measure).find? (fun m => m.q = 0 && m.cls.toNat = 15) = some ⟨0, 15, 3⟩ ∧
    ([] : List Measure).find? (fun m => m.q = 0 && m.cls.toNat = 15) = none ∧
    classSum (committed State.reset 0) ≤ stackDeliverable State.reset 0 := by decide +kernel

/-- Controller MC0 with a pseudo-channel 0 and a home, serving. -/
def mc0 (p : Pc) (h : Home := {}) (m : Mc := {}) : State :=
  { with0 [] with mcs := [(0, { m with pcs := [(0, p)] })], homes := [(0, h)]
                  cp := [(cpAddr (homeStation 0) 0, 1)] }

/-- Line 16 lies in pseudo-channel 0, bank 0, row 0; line 1024 in row 1 (Table HBM-2). -/
theorem test_placement : pcOf 16 = 0 ∧ bankOfLine 16 = 0 ∧ rowOfLine 16 = 0 ∧ rowOfLine 1024 = 1 ∧
    pcOf 1024 = 0 ∧ bankOfLine 256 = 4 ∧ pcOf 4096 = 1 := by decide +kernel

/-- A RdOnce of line 16 that waits for its fill. -/
def fillEntry : PEntry :=
  { idx := 7, msg := { toHome .rdOnce with addr := 0x400 }, phase := .fill }

theorem test_memory_queues :
    (((after (.mcFillRequest 0 16 2) (mc0 {} { table := [{ fillEntry with msg := { fillEntry.msg with prio := 2 } }] })).mc 0).pc 0).reads = [{ line := 16, prio := 2 }] ∧
    (after (.mcFillRequest 0 16 0) (mc0 { writes := [{ line := 16, data := 0x55 }] } { table := [fillEntry] })).net.map
      (fun m => (m.kind, m.data)) = [(.readData, some 0x55)] ∧
    (((after (.mcWriteRequest 0 16 9 false false) (mc0 {})).mc 0).pc 0).writes = [{ line := 16, data := 9 }] ∧
    (((after (.mcReadIssue 0 0) (mc0 { reads := [⟨16, 0, 0, false, false⟩, ⟨1024, 1, 0, false, false⟩] })).mc
      0).pc 0).issued = [⟨1024, 1, 0, false, false⟩] ∧
    (((after (.mcReadIssue 0 0) (mc0 { reads := [⟨16, 0, 32, false, false⟩, ⟨1024, 1, 0, false, false⟩] })).mc
      0).pc 0).issued = [⟨16, 0, 32, false, false⟩] ∧
    (after (.mcWriteIssue 0 0) (mc0 { writes := [{ line := 16, data := 0x1122 }] })).byte 0x401 = 0x11 ∧
    (after (.mcReadData 0 0 ⟨[], []⟩) (mc0 { issued := [⟨16, 0, 0, false, false⟩] } { table := [fillEntry] })).net.map
      (fun m => (m.kind, m.data)) = [(.readData, some 0)] := by decide +kernel

theorem test_refresh_and_scrub :
    (((after (.refreshDue 0 0) (mc0 { debt := 3 })).mc 0).pc 0).debt = 4 ∧
    (((after (.refreshDue 0 0) (mc0 { debt := 3, reads := [⟨16, 0, 0, false, false⟩] })).mc 0).pc 0).debt = 4 ∧
    (after (.tempReadout 0 86) (mc0 {})).cpField (mcAddr 0 4) 0 1 = 1 ∧
    (after (.tempReadout 0 85) (mc0 {})).cpField (mcAddr 0 4) 0 1 = 0 ∧
    (((after (.scrubEarn 0 0) (mc0 { owed := 63, selfRef := true })).mc 0).pc 0).selfRef = false ∧
    (((after (.scrubRead 0 0) (mc0 { owed := 2, pos := 1 })).mc 0).pc 0).issued.map (·.line) = [16] ∧
    ((after (.keepEntry 0) (mc0 {})).mc 0).keep = true ∧
    (after (.keepExit 0) { mc0 {} {} { keep := true } with mem := [(0x400, 1)] }).mem = [] ∧
    ((after (.stackSelfRefresh 0) (mc0 {})).mc 0).cmdSr = true := by decide +kernel

/-- Witness of MemoryQueueResults and MemoryIssueResults. -/
theorem witness_memory_queues :
    ((mc0 {}).mc 0).holds 16 = false ∧ quadOf (64 * 16) = 0 ∧ ((mc0 {}).home 0).wout = [] ∧
    (let s := mc0 { writes := [{ line := 16, data := 0x55 }] } { table := [fillEntry] }
     s.cpField (mcAddr 0 0) 0 1 = 0 ∧ AwaitsFill s 0 16 fillEntry ∧ s.fillEntry 0 16 = some fillEntry ∧
     s.effPrio 0 fillEntry.msg = 0 ∧ s.accepts 0 = true ∧ s.fillBehind 0 16 (s.effPrio 0 fillEntry.msg) = false) ∧
    (mc0 {}).fillEntry 0 16 = none ∧
    ({ mc0 {} with cp := [(mcAddr 0 0, 1)] } : State).cpField (mcAddr 0 0) 0 1 = 1 ∧
    ((mc0 {} {} { cmdSr := true }).mc 0).holds 16 = true ∧
    (List.replicate 64 (⟨1024, 0, 0, false, false⟩ : McRead)).length = 64 ∧
    (let p : Pc := { reads := [⟨16, 0, 31, false, false⟩, ⟨1024, 0, 0, false, false⟩] }
     p.nextRead = some 0 ∧ p.reads[0]? = some ⟨16, 0, 31, false, false⟩) ∧
    (let p : Pc := { writes := [{ line := 16, data := 1 }] }
     p.nextWrite = some 0 ∧ p.writes[0]? = some { line := 16, data := 1 }) ∧
    (mc0 {}).regionAttr (mcStation 0) 32 (64 * 16) 7 = false ∧
    SMap.get false (mc0 {}).poisLine 16 = false := by
  unfold AwaitsFill; decide +kernel

/-- Witness of RefreshScrubAndKeepResults: idle and busy, below and at the limit, asleep, under shed, and at
and past the limit of a lap. -/
theorem witness_refresh_scrub_keep :
    (((mc0 {}).mc 0).cmdSr = false ∧ ((mc0 {}).mc 0).keep = false ∧ ((mc0 {}).home 0).wout = []) ∧
    0 < (mc0 {}).cpField (mcAddr 0 0x00C) 0 4 ∧
    ({ mc0 {} with cp := [(mcAddr 0 0x00C, 0x10)] } : State).cpField (mcAddr 0 0x00C) 4 1 = 1 ∧
    ({ mc0 {} with cp := [(mcAddr 0 0x00C, 0x10)] } : State).cpField (mcAddr 0 0x00C) 0 4 = 0 ∧
    (mc0 {}).segJoined 0 = false ∧ (mc0 {}).quiet = false ∧
    ({ mc0 {} with cp := [(pwrAddr 0, 1)] } : State).quiet = true ∧
    (mc0 {}).cpField (mcAddr 0 0x080) 0 1 = 1 ∧ 1 + 1 < pcLines ∧
    (let h := (mc0 {}).cpField (mcAddr 0 0x080) 16 8 * 3600000000000
     (((mc0 {}).mc 0).lapTime ((mc0 {}).advance (BitVec.ofNat 64 h)).tb).toNat ≤ h ∧
     h < (((mc0 {}).mc 0).lapTime ((mc0 {}).advance (BitVec.ofNat 64 (h + 1))).tb).toNat) ∧
    ((mc0 {} {} { cmdSr := true }).mc 0).cmdSr = true ∧ ((mc0 {} {} { keep := true }).mc 0).keep = true ∧
    (∃ p < 16, SMap.get 0 ((mc0 {} {} { keep := true }).mc 0).keepMask p ≠ 0xFFFF) ∧
    ({ mc0 {} with cp := [(mcAddr 0 4, 2)] } : State).cpField (mcAddr 0 4) 1 1 = 1 := by decide +kernel

/-- R211: a request ends a make-up at the refresh under way. HBM-4 X3: a bank is released as its fill ends. R218: an
uncorrectable beat poisons the line. -/
theorem test_make_up_fill_and_errors :
    (let y := ((after (.mcWriteRequest 0 16 9 false false)
      { mc0 { debt := 5, makeUp := some 0 } with tb := 400 }).mc 0).pc 0
     y.debt = 3 ∧ y.makeUp = none) ∧
    SMap.get 0 ((after (.keepFillDone ⟨0, some 3⟩) (mc0 {} {} { filling := [(0, 0xFFFF)] })).mc 0).filling 0
      = 0xFFF0 ∧
    SMap.get false (after (.mcReadData 0 0 ⟨[], [(2, 0x0F)]⟩)
      (mc0 { issued := [⟨16, 0, 0, false, false⟩] })).poisLine 16 = true := by decide +kernel

/-- R158: an uncorrectable error of the MSC takes a clean line out and writes a dirty one back poisoned. -/
theorem test_home_errors :
    (let s := after (.measWindowEnd 0 ⟨[], [.msc 128 true]⟩) (coh)
     (s.home 0).msc.find 128 = none ∧ (s.home 0).wout = []) ∧
    (let s := after (.measWindowEnd 0 ⟨[], [.msc 128 true]⟩)
       { coh with homes := [(0, { msc := { ways := [(mscSet 128 * 16, some ⟨128, true, 0xAB, false⟩)] } })] }
     (s.home 0).wout.map (fun w => (w.line, w.pois)) = [(128, true)]) := by decide +kernel

/-- Witness of HomeErrorResults, ReadDataResults and the clauses of RefreshResults on a busy pseudo-channel. -/
theorem witness_errors_and_refresh :
    (quadOf (64 * 128) = 0 ∧ ((coh).home 0).msc.find 128 = some ⟨128, false, 0xAB, false⟩ ∧
      (coh).cpField (cpAddr (homeStation 0) (0xF8000 + 32 * 0x0C)) 31 1 = 0) ∧
    (let s := mc0 { issued := [⟨16, 0, 0, false, false⟩] }
     s.regionAttr (mcStation 0) 32 (64 * 16) 7 = false ∧ SMap.get false s.poisLine 16 = false ∧
     (s.home 0).table = []) ∧
    SMap.get false ({ mc0 {} with poisLine := [(16, true)] } : State).poisLine 16 = true ∧
    (∀ n ∈ [0, 15], (n : Nat) < (mc0 {}).cpField (mcAddr 0 0x00C) 0 4 ∨
      (mc0 {}).cpField (mcAddr 0 0x00C) 0 4 ≤ n) ∧
    ((mc0 {}).mc 0).lapStart = 0 ∧ ({ owed := 1 } : Pc).making 0 = false := by decide +kernel

/-! Lasers, links and the sideband. -/

/-- A package with control-plane registers as given. -/
def withCp (cp : SMap Word32) : State := { with0 [] with cp := cp }

/-- The hub's port of die C0, and the die's own. -/
def hubPort : PortId := ⟨0, true⟩
def diePort : PortId := ⟨0, false⟩

/-- Both ports of die C0 in a state, the hub's with PRISM_NEG and a record. -/
def link (st : Nat) (x : Port := {}) (neg : Nat := 2 ^ 10) (more : SMap Word32 := []) : State :=
  { withCp ((portAddr hubPort 0, BitVec.ofNat 32 st) :: (portAddr hubPort 4, BitVec.ofNat 32 neg) ::
      more ++ [(portAddr diePort 0, BitVec.ofNat 32 st)]) with ports := [(portKey hubPort, x)] }

/-- Line powers with one line `p` tenths of a dB below nominal. -/
def powers (p : Nat) : List Nat := p :: List.replicate 35 0

/-- Lasers 0 and 1 lit, laser 0 feeding. -/
def lasers (x : Nat := 6) : State := withCp [(lsrAddr 0, BitVec.ofNat 32 x), (lsrAddr 4, 1)]

theorem test_lasers :
    (after .laserSwitchGo (lasers)).cpField (lsrAddr 0) 3 1 = 1 ∧
    (after .xfadeEnd (lasers 0xE)).feeding = 1 ∧
    (lasers).laserLit 0 = true ∧ (lasers).laserLit 1 = true ∧ (lasers 2).laserLit 1 = false := by
  decide +kernel

/-- Both ports of die C0 up, with a record each, the hub's first. -/
def ends (h d : Port) (st : Nat := 3) (more : SMap Word32 := []) : State :=
  { link st h (2 ^ 10) ((portAddr diePort 4, 2 ^ 10) :: more) with
    ports := [(portKey diePort, d), (portKey hubPort, h)] }

/-- The frames that the die's port sends to the hub's: as they are, or with the symbol 0 of wavelength 0 hit. -/
def clean : EdlFrame := {}
def hit : EdlFrame := { hits := [(0, 0, 3)] }

/-- R265, R269 to R271: a good frame of empty body at its number; an acknowledgement at the thirty-second; a frame with
an errored symbol asked for again. -/
theorem test_frames :
    (let x := (after (.frameReceive hubPort clean) (ends { rxSeq := 5, since := 31 } { txSeq := 5 })).port hubPort
     x.rxSeq = 6 ∧ x.since = 0 ∧ x.out = [{}]) ∧
    (let s := after (.frameReceive hubPort hit) (ends { rxSeq := 5 } { txSeq := 5 })
     (s.port hubPort).rxSeq = 5 ∧ (s.port hubPort).out = [{ nak := true }] ∧ s.retryWait hubPort = true ∧
     ((s.port diePort).buf.map (·.seq)) = [5]) := by decide +kernel

/-- R266: the first and the last bit pair of a wide frame, and of a narrow one. R258: the Gray code. -/
theorem test_lanes_of_bits :
    laneBit 0 0 = 0 ∧ laneBit 31 15 = 511 ∧ laneBit 15 31 = 511 ∧ laneBit 0 16 = 256 ∧
    [0, 1, 3, 2].map grayLevel = [0, 1, 2, 3] ∧ laneOfBit true 511 = 31 ∧ laneOfBit false 511 = 15 ∧
    (laneLevels true 0x2000B 0)[0]? = some 2 ∧ (laneLevels true 0x2000B 1)[0]? = some 3 := by decide +kernel

/-- A frame of sequence number `q` that was replayed `n` times. -/
def fr (q : Nat) (n : Nat := 0) : TxFrame := { seq := q, body := [], wide := true, replays := n }

/-- R269 to R271, R278: an acknowledgement frees, a NAK replays, the seventeenth loses the link. -/
theorem test_linkctl :
    (let c : LinkCtl := { ackSeq := 7, cred := [1, 0, 0, 0, 0, 0] }
     let x := (after (.linkctl hubPort c) (ends { buf := [fr 6, fr 7, fr 8], ctl := [c], credits := [0, 4] }
       {})).port hubPort
     x.buf = [fr 8] ∧ x.credits = [1, 4, 0, 0, 0, 0] ∧ x.ctl = []) ∧
    (let c : LinkCtl := { ackSeq := 5, nak := true }
     ((after (.linkctl hubPort c) (ends { buf := [fr 6, fr 7], ctl := [c] } {})).port hubPort).replay = [6, 7]) ∧
    (let c : LinkCtl := { ackSeq := 5, nak := true }
     (after (.linkctl hubPort c) (ends { buf := [fr 6 16], ctl := [c] } {} 3
       [(portAddr hubPort (0xF8000 + 32 * 0x22), 0x80000000)])).portState hubPort = 5) ∧
    ((ends { buf := [fr 6], replay := [6] } {}).nextFrame hubPort []).map (fun x => x.1.replays) = some 1 := by
  decide +kernel

/-- A lane signal that has arrived. -/
def sig (k : BitVec 4) (lane : BitVec 5) (wl : BitVec 6) : LinkCtl := { lsw := k, lane := lane, wl := wl }

/-- Table PRISM-5: the steps of a swap of lane 4 to wavelength 32, and a narrow change. -/
theorem test_lane_signals :
    (let s := after (.laneDown hubPort 4 0) (link 3)
     (s.port hubPort).swap.map (fun x => (x.lane, x.spare)) = some (4, 32) ∧
     (s.port hubPort).out.map (·.lsw) = [1]) ∧
    ((after (.lswDupReq diePort ⟨4, 32⟩) (ends {} { sigs := [sig 1 4 32] })).port diePort).dup
      = some { lane := 4, wl := 32 } ∧
    (let s := after (.laneLock hubPort 32)
       (ends { swap := some { lane := 4, spare := 32, down := true } } { dup := some { lane := 4, wl := 32 } })
     (s.port hubPort).out = [sig 2 4 0]) ∧
    (let s := after (.lswReady diePort ⟨4, 0⟩) (ends {} { sigs := [sig 2 4 0], dup := some { lane := 4, wl := 32 } })
     s.txMap diePort 4 = 32 ∧ (s.port diePort).out = [sig 3 4 0] ∧
     (s.port diePort).dup = some { lane := 4, wl := 4, moved := true }) ∧
    (after (.narrow 0 true) (link 3)).cpField (portAddr hubPort 0x00C) 0 1 = 1 ∧
    ((after (.narrow 0 true) (ends {} {})).port hubPort).out.map (·.lsw) = [4] ∧
    (after (.lswNarrow diePort ⟨0, 0⟩) (ends {} { sigs := [sig 4 0 0] })).portState diePort = 4 := by
  decide +kernel

theorem test_bring_up :
    (after (.siteBringUp 0) (link 0)).portState hubPort = 1 ∧
    (after (.hello 0 ⟨0, false⟩) (link 1)).sideband.length = 8 ∧
    (after (.result 0 true ⟨0x400, false⟩) (link 1)).portState diePort = 2 ∧
    (after (.result 0 false ⟨0x400, false⟩) (link 1)).sideband = [⟨0, true, 6, 0x400⟩] ∧
    (after (.refuse 0 ⟨3, false⟩) (link 1)).portState diePort = 6 ∧
    (after (.refuse 0 ⟨3, true⟩) (link 1)).portState diePort = 1 ∧
    (after (.trainingEnd 0 true (List.replicate 36 0)) (link 2)).sideband
      = [⟨0, false, 7, 0xFFFFFFFF⟩, ⟨0, false, 8, 0xF⟩] ∧
    (after (.trainingEnd 0 true (List.replicate 36 1)) (link 2 {} (2 ^ 10)
      [(portAddr hubPort (0xF8000 + 32 * 0x21), 0x80000000)])).portState hubPort = 6 ∧
    (after (.linkReady 0 ⟨true, true⟩) (link 2 { good := some 0 })).portState hubPort = 3 := by decide +kernel

/-- Witness of LaserResults: lit and not, feeding and not, samples at and past each limit. -/
theorem witness_lasers :
    ((lasers).advance 9).laserLit 0 = true ∧ ((lasers 2).advance 9).laserLit 1 = false ∧
    (powers 41).length = 36 ∧ (0 : Nat) = (lasers).feeding ∧ (1 : Nat) ≠ (lasers).feeding ∧
    (∃ p ∈ powers 41, 40 < p) ∧ (∀ p ∈ powers 40, p ≤ 40) ∧
    (∀ i < 36, laserFlag (lasers) 0x18 1 i = false) ∧
    (lasers).cpField (lsrAddr 0) 3 1 = 0 ∧ (lasers 0xE).cpField (lsrAddr 0) 3 1 = 1 ∧
    (lasers).laserLit (1 - (lasers).feeding) = true ∧ (lasers 2).laserLit (1 - (lasers 2).feeding) = false := by
  decide +kernel

/-- Witness of FrameResults: transmitters with a frame to replay, with a new one and with a full buffer; frames that
pass and that do not, before and at the thirty-second, waiting or not; a unit that fills a frame; LINKCTL units of
each outcome; ports that repeat a NAK and that do not. -/
theorem witness_frames :
    ([fr 6].find? (fun g => g.seq = 6) = some (fr 6) ∧ [fr 6].length < 256 ∧
      256 ≤ (List.replicate 256 (fr 6)).length) ∧
    (∀ f ∈ [clean, hit], ∃ fr u, ReadsFrame (ends { rxSeq := 5, since := 31 } { txSeq := 5 }) hubPort f fr
        (u.readFrame hubPort fr f.hits) u ∧
      (edlGood 5 (u.readFrame hubPort fr f.hits) = true ↔ f = clean) ∧ u.cpField (portAddr hubPort 0) 3 1 = 0) ∧
    (link (3 + 8)).portUp hubPort = true ∧ (link (3 + 8)).cpField (portAddr hubPort 0) 3 1 = 1 ∧
    (link 3).cpField (portAddr hubPort 0) 3 1 = 0 ∧ (link 5).portUp hubPort = false ∧
    (link 3 {} 0xFFFF0400).classRefused hubPort (toHome .rdOnce) = false ∧ (toHome .rdOnce).flits = 1 ∧
    (msgUnit (toHome .rdOnce)).length = 28 ∧
    (afterAck 5 [fr 6]).all (fun g => g.replays < 16) = true ∧
    (afterAck 5 [fr 6 16]).any (fun g => 16 ≤ g.replays) = true := by
  refine ⟨by decide +kernel, ?_, by decide +kernel⟩
  intro f hf
  have h : (ends { rxSeq := 5, since := 31 } { txSeq := 5 }).nextFrame diePort [] =
      some (((ends { rxSeq := 5, since := 31 } { txSeq := 5 }).nextFrame diePort []).getD (fr 0, State.reset)) := by
    decide +kernel
  fin_cases hf
  all_goals
    refine ⟨_, _, ⟨by decide +kernel, by decide +kernel, by decide +kernel, h, rfl⟩, by decide +kernel,
      by decide +kernel⟩

/-- Wavelengths 0 to 31 active, 32 to 35 spare or failed. -/
def active (spare : Nat) : SMap Word32 :=
  [(portAddr hubPort 0x0C0, 0x55555555), (portAddr hubPort 0x0C4, 0x55555555),
   (portAddr hubPort 0x0C8, BitVec.ofNat 32 spare)]

/-- Witness of ErrorWindowResults and LaneResults: windows that fill and that do not; a spare and none; a swap and a
change under way; each lane signal where it acts; a link that may go narrow. -/
theorem witness_lanes :
    (let s := link 3 {} (2 ^ 10) (active 0)
     let t := link 3 {} (2 ^ 10) (active 0xAA)
     s.portUp hubPort = true ∧ (s.port hubPort).swap = none ∧ (s.port hubPort).change = none ∧
     31 < s.lanes hubPort ∧ s.pickSpare hubPort = some 32 ∧ t.pickSpare hubPort = none ∧
     (t.port hubPort).stuck = false ∧ (link 4 { narrow := true }).lanes hubPort ≤ 16) ∧
    (1 < (link 3).cpField (portAddr hubPort 0x100) 0 16 ∧
      (link 3 {} 0 [(portAddr hubPort 0x100, 0x10001)]).cpField (portAddr hubPort 0x100) 0 16 ≤ 1) ∧
    (∀ k ∈ [1, 2, 3, 4, 5], ({ sigs := [sig k 4 32] } : Port).signal k ⟨4, 32⟩ = some (sig k 4 32)) ∧
    (let x : Swap := { lane := 4, spare := 32, down := true, locked := true }
     let s := ends { swap := some x } {}
     (s.port hubPort).swap = some x ∧ (s.port hubPort).change = none ∧ NoneWaits s 0 ∧
     s.rxMap hubPort 4 < 36 ∧ 32 ≠ s.rxMap hubPort 4 ∧
     ∀ j < 32, j ≠ 4 → s.rxMap hubPort j ≠ s.rxMap hubPort 4) ∧
    (let s := ends {} {}
     s.negWide hubPort = true ∧ NoneWaits s 0 ∧ s.linkIdle 0 = true ∧ (s.port hubPort).narrow = false ∧
     ∀ i < 16, s.rxMap hubPort (16 + i) < 36) ∧
    (let s := ends { change := some false } {}
     (s.port hubPort).change = some false ∧ NoneWaits s 0) ∧
    (let s := link 3 { buf := [fr 6] }
     (s.port hubPort).buf ≠ [] ∧ (s.port hubPort).stuck = false ∧ s.portUp hubPort = true) := by
  unfold NoneWaits; decide +kernel

/-- Witness of BringUpResults: fenced and not, HELLO awaited, words resent, a first and a
last capability word, echoes that agree and do not, enough good wavelengths and one too few. -/
theorem witness_bring_up :
    (link 0).fencedSite 0 = false ∧
    ({ link 0 with cp := [(cpAddr (routerStation 0 0) 4, BitVec.ofNat 32 (2 ^ siteOf 0))] } : State).fencedSite 0
      = true ∧
    (link 1).portState hubPort = 1 ∧ ((link 1).port hubPort).hello = false ∧
    (link 1).portState diePort = 1 ∧ (link 1).sideband = [] ∧
    SMap.get none ({ link 1 with sbLast := [(0, some ⟨0, false, 6, 1⟩)] } : State).sbLast 0
      = some ⟨0, false, 6, 1⟩ ∧
    SMap.get none ({ link 1 with sbLast := [(0, some ⟨0, false, 6, 1⟩)] } : State).sbLast 1 = none ∧
    ((link 1).port hubPort).caps ||| 2 ^ 0 ≠ 15 ∧
    (link 1).cpGet (portAddr hubPort 4) = 0x400 ∧ (link 1).cpGet (portAddr hubPort 4) ≠ 0x401 ∧
    (link 2).portState hubPort = 2 ∧ (link 2).negLanes hubPort = 32 ∧
    ((List.range 36).filter (goodWl (link 2) (List.replicate 4 1 ++ List.replicate 32 0))).length = 32 ∧
    ((List.range 36).filter (goodWl (link 2) (List.replicate 5 1 ++ List.replicate 31 0))).length = 31 ∧
    ((link 2 { peerHi := some 0 }).port hubPort).peerHi = some 0 ∧
    ((List.range 36).filter fun v => if v < 32 then (0xFFFFFFFF#32).getLsbD v else (0#32).getLsbD (v - 32)).length
      = 32 ∧
    ((link 2 { good := some 0 }).port hubPort).good.isSome = true := by decide +kernel

/-! The control plane. -/

/-- Core 0's package with the Shepherd's state and control-plane registers as given. -/
def shep (x : Shep) (cp : SMap Word32 := []) : State := { with0 [] with shep := x, cp := cp }

/-- A frame on the ring, sealed, and the state that holds it and `x`. -/
def onRing (f : Frame) (x : Shep := {}) (cp : SMap Word32 := []) : State :=
  shep { x with frames := [sealFrame f] } cp

/-- A READ and a WRITE of the lane control word of hub port 0 (Table PRISM-10: one RW bit at [0]). -/
def readF (seq : Nat) (a : Nat := 0x0600000C) : Frame :=
  sealFrame { op := 1, seq := BitVec.ofNat 16 seq, addr := BitVec.ofNat 32 a }
def writeF (seq : Nat) (a : Nat := 0x0600000C) (v : Nat := 1) : Frame :=
  sealFrame { op := 2, seq := BitVec.ofNat 16 seq, addr := BitVec.ofNat 32 a, data := BitVec.ofNat 32 v }

theorem test_register_writes :
    (after (.registerWrite 0x0600000C 1) (shep {})).cpField 0x0600000C 0 1 = 1 ∧
    (after (.registerWrite 0x0080000C 0xFFFFFFFF) (shep {})).cpGet 0x0080000C = 0x000A0018 ∧
    (after (.peakClear 8) { shep {} with homes := [(0, { peak := 7 })] }).home 0 = {} ∧
    (after (.railMinClear 0) (shep {} [(0x02080010, 0x2BC2BC)])).cpGet 0x02080010 = 0xFFF2BC ∧
    (SMap.get 0 (after (.counterLoRead 0x08000100) { shep {} with rtrBytes := [(0, 0x123456789ABC)] }).latchHi
      0x08000104) = 0x1234 ∧
    (after (.rtrBwWindowEnd 0x080 100000) { shep {} with rtrWin := [(0, 9)] }).cpGet 0x08000200 = 9 ∧
    ((after (.pmuClear 0) (at0 { pmu := { cnt := [(2, 7)] } })).core 0).pmu.cnt = [] := by decide +kernel

theorem test_ring :
    (after (.ringRead (readF 1)) (onRing (readF 1) {} [(0x0600000C, 1)])).shep.frames
      = [sealFrame { op := 3, seq := 1, addr := 0x0600000C, data := 1 }] ∧
    (after (.ringRead (readF 1 0x06C00000)) (onRing (readF 1 0x06C00000))).shep.frames.map
      (fun f => (f.op, f.status)) = [(3, 1)] ∧
    (after (.ringWrite (writeF 1)) (onRing (writeF 1))).cpGet 0x0600000C = 1 ∧
    (after (.ringWrite (writeF 1)) (onRing (writeF 1))).cpGet 0x060FF014 = 1 ∧
    (after (.ringRead { readF 1 with crc := 0 }) (shep { frames := [{ readF 1 with crc := 0 }] })).shep.frames
      = [] := by decide +kernel

/-- Witness of RegisterWriteResults: a RW and a RWL field, no register, a station that is off and one that is
armed, the last port counter, every rail's bound, a window's end. -/
theorem witness_register_writes :
    (regDesc 0x0600000C).isSome = true ∧ regDesc 0x0080000C = some [rwl 0 4 8, rwl 4 1 1, rwl 16 10 0x00A] ∧
    (shep {}).isOff (cpStation 0x0600000C) = false ∧ (shep {}).cpHeld (cpStation 0x0600000C) = false ∧
    unitKind (cpStation 0x0600000C) = some (.hubPort 0) ∧ regDesc 0x06000030 = none ∧
    (shep { heldUnits := [0x060] }).isOff (cpStation 0x0600000C) = true ∧
    (shep { commit := some { what := .other, req := none, entries := [], drainAt := 0, armed := [0x060] } }).cpHeld
      (cpStation 0x0600000C) = true ∧
    unitKind (cpStation 0x08000158) = some (.router 0) ∧ 0x08000158 % 2 ^ 20 = 0x100 + 8 * 11 ∧
    (shep {}).cpStatus 0x08000158 = 0 ∧
    cpStation 8 = homeStation 0 ∧ 8 % 2 ^ 20 = 8 ∧ (shep {}).isOff (cpStation 8) = false ∧
    (shep {}).isOff shepStation = false ∧
    100000 % (((shep {}).advance 100000).cpField (cpAddr 0x080 0x0F0) 0 10 + 1) * 1000 = 0 := by decide +kernel

/-- A station's last SEQ stands in 0xFF014: 1 of port 0. -/
def seen : SMap Word32 := [(0x060FF014, 1)]

/-- A commit of MC0's refresh word (all of it RWL), in phase `p`. -/
def commit0 (p : CPhase) (c : Commit := { what := .other, req := none, entries := [], drainAt := 0 }) : Shep :=
  { commit := some { c with entries := [(0x0080000C, 0x000A0019)], phase := p, stations := [0x008] } }

/-- Witness of RingResults, reads and any WRITE: a bad CRC, no station, the frames in turn, old and ahead, a
register, none, and a station that is off. -/
theorem witness_ring :
    Good (readF 2) 1 ∧ ¬ Good { readF 2 with crc := 0 } 1 ∧ Good (writeF 2) 2 ∧ ¬ Good (writeF 2) 1 ∧
    unitKind (cpStation (readF 1 0x06C00000).addr.toNat) = none ∧
    (unitKind (cpStation (readF 2).addr.toNat)).isSome = true ∧
    (shep {} seen).seqIs (readF 2) = .next ∧ (shep {} seen).seqIs (readF 1) = .old ∧
    (shep {} seen).seqIs (readF 3) = .ahead ∧ (shep {} seen).seqIs (readF 65474) = .old ∧
    (shep {} seen).seqIs (readF 65473) = .ahead ∧
    (shep {}).cpStatus (readF 2).addr.toNat = 0 ∧ (shep {}).cpStatus 0x06000030 = 1 ∧
    (shep { heldUnits := [0x060] }).cpStatus 0x0600000C = 3 ∧ (shep {}).armDue 0x060 = false := by
  unfold Good
  decide +kernel

/-- Witness of RingResults, WRITE: at an armed station, with no commit, and a slot with a report and none. -/
theorem witness_ring_write :
    (regDesc 0x0080000C).any (fun d => d.has (· == .rwl)) = true ∧
    (commit0 .arm).commit.isSome = true ∧ (shep {}).shep.cpJobs = [] ∧
    (shep (commit0 .arm { what := .other, req := none, entries := [], drainAt := 0, armed := [0x008] })).armedFor
      0x008 = true ∧
    (shep (commit0 .arm { what := .other, req := none, entries := [], drainAt := 0, armed := [0x008] })).armDue
      0x008 = false ∧ (shep (commit0 .arm)).armDue 0x008 = true ∧
    (shep (commit0 .arm)).cpStatus 0x0080000C = 0 ∧ (shep (commit0 .arm)).seqIs (writeF 1 0x0080000C) = .next ∧
    (shep {}).shep.commit = none ∧ (writeF 1).addr.toNat % 2 ^ 20 ≠ 0xFF014 ∧
    (regDesc (writeF 1).addr.toNat).any (fun d => d.all fun x => x.ty == .rw) = true ∧
    Good (sealFrame { op := 10 }) 0xA ∧ (shep {}).reports = [] := by
  unfold Good
  decide +kernel

/-- A COMMIT frame of a phase of the first commit. -/
def cf (ph : Nat) : Frame := sealFrame { op := 8, data := BitVec.ofNat 32 (1 + ph * 2 ^ 30) }

/-- A commit that has armed MC0, with the parts that change. -/
def armed0 (p : CPhase) (todo : List (Nat × Word32) := []) (left : List (BitVec 16 × Nat) := [])
    (shadows : SMap (Option Word32) := []) (acked : List Station := []) : Shep :=
  commit0 p { what := .other, req := none, entries := [], drainAt := 0, armed := [0x008], todo := todo
              left := left, shadows := shadows, acked := acked, switched := acked }

/-- A commit with entries to send. -/
def sends (es : List (Nat × Word32)) : Commit :=
  { what := .other, req := none, entries := [], drainAt := 0, todo := es }

/-- An acknowledgement of MC0 in a report slot. -/
def ack0 : Frame := sealFrame { op := 0xB, data := 0xC0080001 }

theorem test_commit_arms :
    (after .commitDrainEnd (shep (commit0 .drain))).shep.frames = [cf 0] ∧
    (after (.commitArm (cf 0)) (onRing (cf 0) (commit0 .arm))).shep.frames = [cf 1] ∧
    (after (.commitArm (cf 0)) (onRing (cf 0) (commit0 .arm (sends [(0x0080000C, 0x000A0019)])))).shep.frames.map
      (fun f => (f.op, f.addr, f.data, f.ringA)) =
      [(2, 0x0080000C, 0x000A0019, true), (2, 0x0080000C, 0x000A0019, false)] ∧
    (after (.writeReply (sealFrame { op := 4, seq := 1, addr := 0x0080000C }))
      (shep (armed0 .arm [] [(1, 0x0080000C)]))).shep.frames = [cf 1] ∧
    (after (.commitFire (cf 1)) (onRing (cf 1) (armed0 .fire))).shep.hold = true := by decide +kernel

theorem test_commit_switches :
    (after (.quiescentSwitch 0x008) (shep (armed0 .hold [] [] [(0x0080000C, some 0x000A0019)]))).cpGet 0x0080000C
      = 0x000A0019 ∧
    (after (.quiescentSwitch 0x008) (shep (armed0 .hold))).reports.map (·.data) = [0xC0080001] ∧
    (after (.report ack0) { onRing ack0 (armed0 .hold) with imageOnly := true }).shep.frames = [cf 2] ∧
    (after (.commitResume (cf 2)) (onRing (cf 2) (armed0 .hold [] [] [] [0x008]))).shep.cnum = 1 ∧
    (after (.commitResume (cf 2)) (onRing (cf 2) (armed0 .hold [] [] [] [0x008]))).shep.store
      = [(0x0080000C, some 0x000A0019)] ∧
    (after (.commitDisarm (cf 3)) (onRing (cf 3) (armed0 .disarm))).shep.commit = none := by decide +kernel

/-- Witness of CommitResults: the drain, ARM with and without entries to send, replies, FIRE. -/
theorem witness_commit_arms :
    ((shep (commit0 .drain)).drainAll [(0x0080000C, 0x000A0019)]).any (fun u => u.shep.commit.any fun c =>
      c.phase == .drain && u.setStations c == [0x008]) = true ∧
    (shep (commit0 .drain)).restarting = false ∧
    ([(0x0080000C, 0x000A0019)] : List (Nat × Word32)).all (shep {}).epochRests = true ∧
    ([(cpAddr (homeStation 0) 0xFF004, 1)] : List (Nat × Word32)).all
      (shep { epochAt := [(cpAddr (homeStation 0) 0xFF004, some 0)] }).epochRests = false ∧ (shep (commit0 .drain)).mir.cutFrom = none ∧
    Good (cf 0) 8 ∧ (cf 0).data.toNat = ((shep {}).shep.cnum + 1).toNat % 2 ^ 30 + 0 * 2 ^ 30 ∧
    (cf 3).data.toNat = ((shep {}).shep.cnum + 1).toNat % 2 ^ 30 + 3 * 2 ^ 30 ∧
    Good (sealFrame { op := 4, seq := 1, addr := 0x0080000C }) 4 ∧
    ([(1, 0x0080000C)] : List (BitVec 16 × Nat)).erase (1, 0x0080000C) = [] ∧
    ([(1, 0x0080000C), (2, 0x0080000C)] : List (BitVec 16 × Nat)).erase (1, 0x0080000C) ≠ [] := by
  unfold Good
  decide +kernel

/-- Witness of CommitResults: the switch, the acknowledgement, RESUME and DISARM, the missing one. -/
theorem witness_commit_switches :
    ((armed0 .hold [] [] [(0x0080000C, some 0x000A0019)]).commit.any fun c =>
      ((shep (armed0 .hold [] [] [(0x0080000C, some 0x000A0019)])).switchStation c 0x008).isSome) = true ∧
    unitKind 0x008 = some (.mc 0) ∧ cpStation 0x0080000C = 0x008 ∧ (regDesc 0x0080000C).isSome = true ∧
    Good ack0 0xB ∧ ack0.data = BitVec.ofNat 32 (0xC * 2 ^ 28 + 8 * 2 ^ 16 + (0 + 1) % 2 ^ 16) ∧
    ({ shep (armed0 .hold) with imageOnly := true }).shepUp = true ∧
    (armed0 .hold).due = [] ∧ (armed0 .hold).cds = false ∧
    (armed0 .hold [] [] [] [0x008]).commit.any (fun c => c.stations.all c.acked.contains) = true ∧
    (armed0 .hold).commit.any (fun c => !c.stations.all c.acked.contains) = true ∧
    (0 : Word).toNat + 20000 ≤ ((shep (armed0 .hold)).advance 20000).tb.toNat := by
  unfold Good
  decide +kernel

/-- A report of class MSC_CE (0x03) of MC0 whose detail slot is full. -/
def rep0 : Frame := sealFrame { op := 0xB, data := 0x10080300 }
def slot3 : Nat := cpAddr 0x008 (0xF8000 + 32 * 3)
def reported : State := { onRing rep0 {} [(slot3, 0x80020008), (slot3 + 4, 0x40)] with imageOnly := true }

theorem test_reports :
    (after (.report rep0) reported).shep.log.map (fun r => (r.cls, r.source, r.count, r.sev, r.loc))
      = [(3, 8, 3, 0, 0x40)] ∧
    bit ((after (.report rep0) reported).cpGet slot3) 31 = false ∧
    (after (.cpFrameTimeout ⟨writeF 1, 0x060⟩ true false) reported).shep.ringB = false ∧
    (after (.cpFrameTimeout ⟨writeF 1, 0x060⟩ false false) { shep { frames := [writeF 1] } with
      imageOnly := true }).shep.frames.map
      (fun f => (f.seq, f.ringA)) = [(1, true), (1, false)] ∧
    (after (.auditLatch ⟨250000, none⟩) { shep { booted := some 0 } with imageOnly := false }).cpField (fcAddr 0x010) 0 30
      = 1 ∧
    (after (.auditLatch ⟨250001, none⟩) { shep { booted := some 0 } with imageOnly := false }).cpField (fcAddr 0x010) 0 30
      = 0 := by decide +kernel

/-- A Fold context of one element that counts one in use, which its ring of one cannot hold. -/
def fullFold : State := { shep { booted := some 0 } with fold := { cache := [(0, some { ctx := ctxSet 0 6 36 12 1 })] } }

/-- Witness of ReportResults: reports of both classes, copies lost on either ring and on both. -/
theorem witness_reports :
    Good rep0 0xB ∧ reported.shepUp = true ∧ field rep0.data 28 4 = 1 ∧ rep0.data.extractLsb' 16 12 = 8 ∧
    field rep0.data 8 8 = 0x03 ∧ bit (reported.cpGet slot3) 31 = true ∧ (reported.wcCfg 0x03).1 = 0 ∧
    (reported.wcCfg 0x48).1 = 0 ∧ recordFor reported.shep.log 0x03 8 0 = none ∧
    reported.shep.ringA = true ∧ reported.shep.ringB = true ∧
    SMap.get 0 ({ reported.shep with resends := [(8, 2)] }).resends 8 < 3 ∧
    SMap.get 0 ({ reported.shep with resends := [(8, 3)] }).resends 8 = 3 ∧
    reported.cpField (cpAddr shepStation (0xF8000 + 32 * 0x28)) 31 1 = 0 ∧
    ((shep { booted := some 0 }).advance 250000).shepUp = true ∧
    ((shep { booted := some 0 }).advance 250000).auditOk = true ∧ (fullFold.advance 250000).auditOk = false ∧ (250000 : Word).toNat % 250000 = 0 := by
  unfold Good
  decide +kernel

/-- An announced instant at 1 us, under Shed-1 and not; a record that waits. -/
def due1 (shed : Nat) : State :=
  { shep {} [(0x02080000, BitVec.ofNat 32 shed)] with snap := { next := some 1 } }
def rec0 : SnapRec := ⟨1, 0, 1, 0, 0, [], false, false, 0⟩
def latched : State := { shep {} with snap := { num := 1, latch := [rec0] } }

theorem test_snapshots :
    (after (.snapshot (sealFrame { op := 9, data := 5 })) (shep {})).snap.next = some 5 ∧
    (after (.snapshotInstant 1000) (due1 1)).snap.num = 0 ∧
    (after (.snapshotInstant 1000) (due1 0x100)).snap.latch = [] ∧
    (after (.snapshotInstant 1001) (due1 0)).snap.next = some 1 ∧
    (after (.snapshotGather 1 0) latched).snap.recs = [rec0] := by decide +kernel

/-- Witness of SnapshotResults. -/
theorem witness_snapshots :
    Good (sealFrame { op := 9, data := 5 }) 9 ∧ ¬ Good { op := 9, data := 5 } 9 ∧
    (due1 0).snap.next = some (BitVec.ofNat 32 ((1000 : Word).toNat / 1000)) ∧ (1000 : Word).toNat % 1000 = 0 ∧
    ((due1 1).advance 1000).calm = true ∧ ((due1 0x100).advance 1000).calm = true ∧
    ((due1 0).advance 1000).calm = false ∧ (due1 0).snap.latch = [] ∧ latched.snap.turn = some (1, 1) ∧
    (latched.snap.latch.find? fun x => x.group = 1 && x.num = 1 && x.st == 0) = some rec0 := by
  unfold Good
  decide +kernel

/-! Reflection, the stop, resets, the Mirror pair, power. -/

/-- The Shepherd up, booted from slot A. -/
def up (cp : SMap Word32 := []) (x : Shep := {}) : State := shep { x with booted := some 0 } cp

/-- Core 0 with an open window of slot 0. -/
def win0 (w : Win) (tb : Word := 0) (beats : Nat := 0) : State :=
  { at0 { win := some w, beats := { next := beats } } with tb := tb, shep := { booted := some 0 } }

/-- A window of core 0 that the reserve in slot 3 of die C0 replays. -/
def replay0 (first : Option (Nat × BitVec 64 × Nat)) : State :=
  up [] { replays := [{ target := 0, res := 3, due := 1, first := first }]
          closed := [(0, some ⟨0, 5, 2 ^ 32 + 7, [], []⟩)] }

theorem test_reflection :
    (SMap.get none (after (.windowEnd 0 0) (win0 { slotNo := 0, beats0 := 0, icount := 9 } 64000)).shep.closed 0).any
      (fun x => x.icount = 9 && x.recs.length = 1) = true ∧
    ((after (.windowEnd 0 0) (win0 { slotNo := 0, beats0 := 0 } 63999)).core 0).win.isSome = true ∧
    (after (.replayClose 0 3 5 7) (replay0 none)).shep.replays = [] ∧
    (after (.replayClose 0 3 4 7) (replay0 none)).shep.replays
      = [{ target := 0, res := 16, due := 1, first := some (3, 4, 7) }] ∧
    (after (.replayClose 0 3 4 7) (replay0 none)).cpField (cpAddr shepStation 0x71044) 0 16 = 1 := by
  decide +kernel

/-- Witness of ReflectionResults: each limit of a window at and below it, and the replays. -/
theorem witness_reflection :
    AtLimit (win0 { slotNo := 0, beats0 := 0 } 64000) {} { slotNo := 0, beats0 := 0 } 0 ∧
    ¬ AtLimit (win0 { slotNo := 0, beats0 := 0 } 63999) {} { slotNo := 0, beats0 := 0 } 0 ∧
    AtLimit State.reset { beats := { next := 80001 } } { slotNo := 0, beats0 := 1 } 1 ∧
    ¬ AtLimit State.reset { beats := { next := 80000 } } { slotNo := 0, beats0 := 1 } 1 ∧
    AtLimit State.reset {} { slotNo := 0, beats0 := 0, recs := [⟨1, 32768, 0, []⟩] } 2 ∧
    ¬ AtLimit State.reset {} { slotNo := 0, beats0 := 0, recs := [⟨1, 32767, 0, []⟩] } 2 ∧
    AtLimit State.reset {} { slotNo := 0, beats0 := 0, sectors := List.replicate 512 7 } 3 ∧
    ¬ AtLimit State.reset {} { slotNo := 0, beats0 := 0, sectors := List.replicate 511 7 } 3 ∧
    ((win0 { slotNo := 0, beats0 := 0 }).core 0).access = none ∧
    Replays (replay0 none) 3 { target := 0, res := 3, due := 1 } ⟨0, 5, 2 ^ 32 + 7, [], []⟩ ∧
    (replay0 none).otherFor 0 3 = some 16 ∧
    Replays { replay0 none with place := [(0, none)] } 3 { target := 0, res := 3, due := 1 } ⟨0, 5, 2 ^ 32 + 7, [], []⟩ ∧
    { replay0 none with place := [(0, none)] }.otherFor 0 3 = none ∧
    Replays (replay0 (some (16, 4, 7))) 3 { target := 0, res := 3, due := 1, first := some (16, 4, 7) }
      ⟨0, 5, 2 ^ 32 + 7, [], []⟩ := by
  simp only [AtLimit, Replays]
  decide +kernel

/-- Die C0 with logical core 0 in slot 0 and the reserve in slot 3, its log and its link as reflection asks. -/
def turn0 : State :=
  { up [(cpAddr (hubPortStation 0) 4, 0x200), (dcs0 0x100, 0x1000), (cpAddr shepStation 0x71040, 15)]
      { lists := [(3, [0])], lcPart := [(0, some 1)], parts := [(1, some { world := false })] } with
    place := (0, some 0) :: (List.range 17).map fun i => (i + 1, none)
    slotSt := (List.range 12).flatMap fun d => [(20 * d + 3, some (if d = 0 then 1 else 2)), (20 * d + 16, some 2)] }

/-- Witness of ReflectionResults, a slot's start. -/
theorem witness_slot :
    (turn0.advance 128000).shepUp = true ∧ (turn0.advance 128000).cpField (pwrAddr 0) 0 3 < 2 ∧
    sameLists (turn0.advance 128000).shep.lists (turn0.advance 128000).buildLists = true ∧
    ((List.finRange 216).all fun l => ((turn0.advance 128000).core l).win.isNone) = true ∧
    ((turn0.advance 128000).core 0).run = .started ∧ ((turn0.advance 128000).partOf 0).isSome = true := by
  decide +kernel

theorem test_stop :
    (after (.safeN false) (up)).shep.cause = 5 ∧ (after (.safeN true) (up [] { safeIn := true })).shep.cds = false ∧
    (after (.heartbeatToggle 100000) (up [(fcAddr 0x010, 0x40000000)])).shep.heartbeat = true ∧
    (after (.heartbeatToggle 100000) (up)).shep.hbStop = true ∧
    (after (.coreBistDone 0 3 true) (up [] { bist := [3, 16] })).shep.bist = [16] := by decide +kernel

/-- A package in its restart. -/
def restarting0 (x : Shep := {}) : State := { up [] x with restarting := true }

/-- Witness of StopResults. -/
theorem witness_stop :
    (up).shep.safeIn = false ∧ (up).shepUp = true ∧ (up).inTransit = false ∧ (up).powerState = 0 ∧
    ((up [(fcAddr 0x010, 0x40000000)]).advance 100000).hbMay = true ∧ ((up).advance 100000).hbMay = false ∧
    (restarting0 { needBist := [239] }).shep.needBist = [11 * 20 + 19] ∧ (up).imageOnly = false ∧
    (restarting0).shepUp = true ∧ (restarting0).shep.owed = [] ∧ (restarting0).shep.resets = [] ∧ (restarting0).shep.due = [] ∧
    (restarting0 { safeIn := true }).shep.safeIn = true := by decide +kernel

theorem test_resets :
    (after (.supplyReset 4 1600) (up)).cpField (pwrAddr 0x04) 2 3 = 4 ∧
    (after (.supplyReset 5 1600) (up [] { flash := [(8, some 1)] })).shep.store = [(8, some 1)] ∧
    (after .storeWrite (up [] { store := [(8, some 1)] })).shep.flash = [(8, some 1)] ∧
    (after .vauxPowerUp { up [] { vauxOff := true } with tb := 5 }).tb = 0 ∧
    bootSlot { okA := false, okB := true } 0 = some 1 ∧ bootSlot { okA := true, okB := true } 1 = some 1 := by decide +kernel

/-- A partition reset under way. -/
def preset0 : State :=
  up [] { resets := [{ pid := 1, req := none, restart := [] }], parts := [(1, some { world := false, st := 1 })] }

/-- Witness of ResetResults. -/
theorem witness_resets :
    bootSlot { okA := true, okB := false } 1 = some 0 ∧ bootSlot { okA := false, okB := false } 0 = none ∧
    (shep { inReset := true } [(pwrAddr 0x04, 2)]).cpField (pwrAddr 0x04) 0 2 = 2 ∧
    (shep { vauxOff := true }).shep.vauxOff = true ∧ State.reset.shep.vauxOff = false ∧
    (preset0.shep.resets.find? fun y => y.pid = 1) = some { pid := 1, req := none, restart := [] } ∧
    ((up).advance 5).watched 4 = true ∧ (shep { inReset := true }).shep.vauxOff = false ∧
    SMap.get [] (up).shep.images 0 = [] ∧ SMap.get [] (up).shep.images 2 = [] ∧ preset0.partRest 1 = true ∧ preset0.part 1 = some { world := false, st := 1 } := by decide +kernel

/-- H0 accepts and MC0's Pasture opens HBM to all. -/
def hbm : SMap Word32 := (coh).cp

/-- A device that takes part in a pair: its role, its Mirror state, its MIR_STATUS.MISSED, its port's state. -/
def pair (role : Bool) (st : Nat) (miss : Nat := 0) (x : Mirror := {}) (more : SMap Word32 := []) : State :=
  { up ([(mirAddr 0, BitVec.ofNat 32 (1 + b2n role * 2 + 8 + 1000 * 2 ^ 8)),
      (mirAddr 4, BitVec.ofNat 32 (b2n role + st * 2 + 16 + miss * 32))] ++ more) with mir := x }

theorem test_mirror :
    (after (.hbMiss 50000) (pair false 2 18)).cpField (mirAddr 4) 5 5 = 19 ∧
    (after (.hbMiss 50000) (pair false 2 19)).mirState = 3 ∧
    (after .partnerFailure { pair false 2 with shep := { booted := some 0, mirFault := false } }).mirState = 4 ∧
    (after (.mirAck { code := 5, epoch := 7 }) (pair false 1)).mirAcked = 7 ∧
    (after (.mirLine { code := 1, epoch := 3, line := 9 }) (pair true 2)).half 3 = [{ code := 1, epoch := 3, line := 9 }] ∧
    (after (.mirEnd { code := 3, epoch := 3, data := [1, 0] }) (pair true 2 0 { staged := [(1, [{ code := 1, epoch := 3 }, { code := 1, epoch := 3 }])] })).half 3 = [] := by decide +kernel

/-- A mirrored page of logged lines that ships. -/
theorem test_ships :
    (after .epochShip (pair false 2 0 { shipping := some 1, ckpts := [{ code := 2, epoch := 1 }] })).mir.out
      = [{ code := 2, epoch := 1 }, { code := 3, epoch := 1, data := [0, 1] }] := by decide +kernel

/-- Witness of MirrorResults, the pair: a heartbeat that matches, the periods missed, the partner lost. -/
theorem witness_pair :
    (up).domState 57 = 0 ∧ (pair false 0).mirOn = true ∧ (pair false 0).mirLink = true ∧
    (pair false 0).mirState = 0 ∧ (pair false 0).mirSecondary = false ∧
    unitWord { code := 0, data := [1, 0, 1, BitVec.ofNat 64 7] } 3 = 7 ∧
    ((pair false 2 18).advance 50000).mirOn = true ∧ ((pair false 2 18).advance 50000).cpField (mirAddr 4) 5 5 < 19 ∧
    ((pair false 2 19).advance 50000).cpField (mirAddr 4) 5 5 = 19 ∧
    ((pair false 2 19).advance 50000).mirState ≠ 5 ∧ (pair false 1 ).mirState = 1 ∧ { pair false 1 with shep := { booted := some 0, mirFault := false } }.shep.mirFault = false ∧ (pair false 2).mirState = 2 ∧ (pair false 1).mirState = 1 := by decide +kernel

/-- Witness of MirrorResults, the cut: due, held back, reached. -/
theorem witness_cut :
    ((pair false 2).advance 1000000).mirSecondary = false ∧
    (1000000 : Word).toNat % (((pair false 2).advance 1000000).cpField (mirAddr 0) 8 14 * 1000) = 0 ∧
    ((pair false 2).advance 1000000).mirEpoch ≤ ((pair false 2).advance 1000000).mirAcked + 2 ∧
    ((pair false 2 0 { shipping := some 1 }).advance 1000000).mir.shipping.isSome = true ∧
    (pair false 2).shep.commit = none ∧
    { pair false 2 with shep := { booted := some 0, commit := some { what := .stage false, req := none, entries := [], drainAt := 0 } } }.shep.commit.isSome = true ∧
    ((pair false 2 0 { cutFrom := some 0 }).advance 7).cutReady = true ∧
    ((pair false 2 0 { cutFrom := some 0 }).home 3).eList = [] := by decide +kernel

/-- Witness of MirrorResults, the secondary: lines staged or of a base copy, an END that counts right and one that
does not, a base copy's end. -/
theorem witness_secondary :
    (pair true 2).receives = true ∧ (pair true 1 0 { base := true }).receives = true ∧
    (pair true 1 0 { base := true }).mir.base = true ∧
    ((pair true 1 0 { base := true } hbm).applyLine { code := 1 }).isSome = true ∧
    (linesOf [{ code := 1, epoch := 3 }, { code := 2, epoch := 3 }]).length = unitWord { code := 3, data := [1, 1] } 0 ∧
    (ckptsOf [{ code := 1, epoch := 3 }, { code := 2, epoch := 3 }]).length = unitWord { code := 3, data := [1, 1] } 1 ∧
    (((pair true 2).mirStage { code := 3, epoch := 3, data := [0, 0] }).applyHalf 3 []).isSome = true ∧
    (linesOf []).length ≠ unitWord { code := 3, data := [1, 0] } 0 ∧
    (0 : Nat) = unitWord { code := 4, data := [0, 0] } 0 ∧ 0 ≠ unitWord { code := 4, data := [1, 0] } 0 ∧
    (pair true 1 0 { base := true, baseEp := 3, baseGot := 5 }).mir.baseGot = unitWord { code := 4, data := [5, 0] } 0 := by decide +kernel

/-- A package with PWR_STATE.SHED and STATE as given. -/
def shed (stages : Nat) (st : Nat := 0) (x : Shep := {}) (more : SMap Word32 := []) : State :=
  up ((pwrAddr 0, BitVec.ofNat 32 (st + stages * 2 ^ 8)) :: more) x

theorem test_power :
    (after (.shedEngage 2 0 879 5) (up)).cpField (pwrAddr 0) 8 5 = 3 ∧
    (after (.shedEngage 2 0 880 5) (up)).cpField (pwrAddr 0) 8 5 = 0 ∧
    (after (.shedLift 2 5) (shed 3)).cpField (pwrAddr 0) 8 5 = 1 ∧
    (after (.thermtrip 120) (up)).shep.thermtrip = true ∧ (after (.thermtrip 119) (up)).shep.thermtrip = false ∧
    (after (.pmbAlert [0, 0, 1, 0, 0, 0]) (up)).shep.log.map (fun r => (r.cls, r.loc)) = [(0x58, 2)] ∧
    (after .scntAlarm { up with stValid := true, stAlarm := 5, stOffset := 5 }).stAlarm = 5 := by decide +kernel

/-- SCNT_ALARM has come, and a session whose certificate ends at 5 us. -/
def alarm (x : State) (now : Word) : State :=
  { x with stValid := true, stAlarm := 5, stOffset := now, tap := { sessions := [(0, some ⟨1, 0, none, 5⟩)] } }

/-- Witness of PowerResults: samples at and below a threshold, stages, wake events, alarms. -/
theorem witness_power :
    shedMv 0 1 = some 900 ∧ shedMv 5 1 = some 1720 ∧ ((up).advance 5).watched 5 = true ∧
    ((up).advance 5).watched 0 = true ∧ ((shed 15).advance 1000000).shed 4 = true ∧
    1000000 ≤ (((shed 15).advance 1000000).tb - 0).toNat ∧ ((shed 3).advance 5).shed 2 = true ∧
    ((shed 3).advance 5).shed 3 = false ∧ ((shed 3).advance 5).shed 5 = false ∧
    (up).wakes 1 = false ∧ (alarm (shed 0 2) 5).wakes 1 = true ∧ (alarm (shed 0 3) 5).wakes 1 = true ∧
    (alarm (shed 0 2) 5).powerState = 2 ∧ (alarm (shed 0 3) 5).powerState = 3 ∧
    (alarm (shed 0 8) 5).inTransit = true := by decide +kernel

/-- Witness of PowerResults: temperatures, readings, alerts of the last rail, times at and before their limit. -/
theorem witness_power_pins :
    120 ≤ (120 : BitVec 8).toInt ∧ (119 : BitVec 8).toInt < 120 ∧ (200 : BitVec 8).toInt < 120 ∧
    (List.replicate 18 0).length = 18 ∧ ([0, 0, 0, 0, 0, 1] : List (BitVec 16))[5]? ≠ some 0 ∧
    (∀ k < 5, ([0, 0, 0, 0, 0, 1] : List (BitVec 16))[k]? = some 0) ∧
    (alarm (up) 5).stAlarm.toNat ≤ (alarm (up) 5).stNow.toNat ∧
    (alarm (up) 5).stAlarmed = false ∧ { alarm (up) 5 with stAlarmed := true }.stAlarmed = true ∧
    (alarm (up) 4).stNow.toNat < (alarm (up) 4).stAlarm.toNat ∧
    (alarm (up) 5).session false = some ⟨1, 0, none, 5⟩ := by decide +kernel

/-! Commands of the Shepherd. -/

/-- A command packet of M on channel 0 of its mailbox: SEQ 1, with FLAGS and the buffers at address 0. -/
def mReq (op : Nat) (ps : List Nat := []) (flags : BitVec 8 := 0) (bufLen : Nat := 0) : ShepReq :=
  { chan := .mb .m 0, world := true, pid := 0, op := BitVec.ofNat 16 op
    length := BitVec.ofNat 16 (4 * ps.length), seq := 1, flags := flags, bufLen := BitVec.ofNat 32 bufLen
    params := ps.map (BitVec.ofNat 32) }

/-- The same from H of a world, and from the admin queue with a reply buffer. -/
def hReq (world : Bool) (op : Nat) (ps : List Nat := []) : ShepReq := { mReq op ps with chan := .mb .h 0, world := world }
def aReq (op : Nat) (ps : List Nat := []) : ShepReq := { mReq op ps 2 with chan := .admin, world := false }

/-- The admin queue with a slot that waits, its link up, and the PF that may issue requests. -/
def adm (s : State) : State :=
  { s with cp := (pcieAddr 0, 1) :: s.cp, pcie := { s.pcie with cfg := [(1, 0x00100006)] },
           fold := { s.fold with aq := { cfg := 9, sqTail := 1 } } }

/-- The packet stands submitted on its channel. -/
def sub (r : ShepReq) (s : State) : State :=
  match r.chan with
  | .mb mb ch => (s.modMbox (mbKey mb ch) fun m => { m with busy := true, run := some r }).modShep fun x =>
      { x with order := x.order ++ [r.chan] }
  | .admin => s

/-- The state that a submitted packet's command answers. -/
def does (c : ShepReq → Instr) (r : ShepReq) (s : State) : State := after (c r) (sub r s)

/-- The packet reaches its opcode's own work with no parameter buffer read, in a state where `p` holds. -/
def enters (o : OpSpec) (r : ShepReq) (s0 : State) (p : State → Bool := fun _ => true) : Bool :=
  let s := sub r s0
  s.shepUp && r.op = o.op && s.mayStart r && (!isAdmin r || s.busMaster pf) && r.seq = (s.lastOf r).1 + 1 && !s.restarting &&
  (!s.imageOnly || (isAdmin r && 0x0900 ≤ o.op.toNat && o.op.toNat ≤ 0x0902)) && o.allows r && o.lengthOk r &&
  r.flags.toNat < 4 && (!hasPbuf r || r.pbuf.toNat % 64 = 0) && (!hasRbuf r || r.rbuf.toNat % 64 = 0) &&
  (o.reply = 0 || hasRbuf r || (!isAdmin r && !o.rbuf && o.reply ≤ 480)) &&
  (isAdmin r || ((!hasPbuf r || s.bufOk r .r r.pbuf.toNat r.bufLen.toNat) &&
    (!hasRbuf r || s.bufOk r .w r.rbuf.toNat o.reply))) &&
  (o.pbuf || !hasPbuf r) && p (s.takeCmd r)

/-- What `enters` says, in the words of the statements. -/
theorem enters_of {o : OpSpec} {r : ShepReq} {s : State} {p : State → Bool} (h : enters o r s p = true) :
    Enters o r r (sub r s) ((sub r s).takeCmd r) ∧ p ((sub r s).takeCmd r) = true := by
  simp only [enters, Bool.and_eq_true, Bool.or_eq_true, Bool.not_eq_true', decide_eq_true_eq] at h
  obtain ⟨⟨⟨⟨⟨⟨⟨⟨⟨⟨⟨⟨⟨⟨⟨h1, h2⟩, h3⟩, hb⟩, h4⟩, h5⟩, h6⟩, h7⟩, h8⟩, h9⟩, h10⟩, h11⟩, h12⟩, h13⟩, h14⟩, h15⟩ := h
  refine ⟨⟨h1, h2, h3, fun ha => by simpa [ha] using hb, h4, h5, ?_, h7, h8, h9, ?_, ?_, ?_, ?_, ?_⟩, h15⟩
  · intro hi
    rcases h6 with h6 | h6
    · simp [hi] at h6
    · exact ⟨h6.1.1, h6.1.2, h6.2⟩
  · intro hp
    rcases h10 with h10 | h10
    · simp [hp] at h10
    · exact h10
  · intro hp
    rcases h11 with h11 | h11
    · simp [hp] at h11
    · exact h11
  · intro hr
    rcases h12 with (h12 | h12) | h12
    · omega
    · exact .inl h12
    · exact .inr ⟨h12.1.1, h12.1.2, h12.2⟩
  · intro ha
    rcases h13 with h13 | h13
    · simp [ha] at h13
    · refine ⟨fun hp => ?_, fun hp => ?_⟩
      · rcases h13.1 with h | h
        · simp [hp] at h
        · exact h
      · rcases h13.2 with h | h
        · simp [hp] at h
        · exact h
  · rw [if_pos (by simpa using h14)]
    exact ⟨rfl, rfl⟩

/-- Status and data of the last reply on M's channel 0. -/
def replied (s : State) : Option (Nat × List Word32) := (s.mbox 2).last.map fun p => (p.status.toNat, p.data)

/-- Core 0 at H and at M, as the mailboxes see it. -/
def whoH : Accessor := ⟨2, false, 5, 0⟩
def whoM : Accessor := ⟨3, true, 0, 0⟩

/-- A channel of H held by core 0, busy or not. -/
def held (busy : Bool) : State := up [] { mbs := [(0, { holder := holderOf whoH, busy := busy })] }

theorem test_mailbox :
    ((after (.mbClaimReq .h 0 whoH) (up)).mbox 0).holder = holderOf whoH ∧
    ((after (.mbClaimRel .h 0 whoH) (held true)).mbox 0).holder = holderOf whoH ∧
    ((after (.mbClaimRel .h 0 whoM) (held true)).mbox 0).holder = none ∧
    ((after (.mbGo .h 0 true whoH) (held false)).mbox 0).busy = true ∧
    ((after (.mbGo .h 0 true whoM) (held false)).mbox 0).busy = false ∧
    ((after (.mbClaimReq .h 0 whoH) (up)).mbox 0).fresh = true ∧
    ((after (.mbGo .h 0 true whoH)
      (up [] { mbs := [(0, { holder := holderOf whoH, fresh := true, reply := [(0, 9)] })] })).mbox 0).reply = [] ∧
    (after (.mbGo .h 0 true whoH) (held false)).shep.order = [.mb .h 0] := by decide +kernel

/-- Witness of MailboxResults. -/
theorem witness_mailbox :
    mbLevel .h whoH = true ∧ mbLevel .m whoM = true ∧ mbLevel .m whoH = false ∧ (up).shepUp = true ∧
    (holderOf whoH).isSome = true ∧ (holderOf { whoH with lc := 215 }).isSome = true ∧
    ((up).mbox 0).holder = none ∧ ((held false).mbox 0).holder = holderOf whoH ∧ ((held true).mbox 0).busy = true ∧
    ((held false).mbox 0).holder ≠ holderOf { whoH with lc := 1 } := by decide +kernel

/-- A channel that has answered SEQ 1 with `r`. -/
def stored (r : ShepReq) : State :=
  up [] { mbs := [(2, { lastSeq := 1, last := some ⟨r, 5, 0, [], 0, 0⟩ })] }

theorem test_entry :
    replied (does .infoVersion (mReq 0x0100) (stored (mReq 0x0100))) = some (5, []) ∧
    SMap.get 0 ((does .infoVersion { mReq 0x0100 with seq := 3 } (up)).mbox 2).reply 12 = 4 ∧
    ((does .powerState (hReq true 0x0401 [1]) (up)).mbox 0).last.map (·.status) = some 5 ∧
    replied (does .powerState (mReq 0x0401 [1]) (restarting0)) = some (8, []) ∧
    (does .infoVersion (aReq 0x0100) { adm (up) with pcie := {} }).fold.aq.error = true ∧
    replied (does .badOpcode (mReq 0x0FFF) (up)) = some (1, []) := by decide +kernel

/-- Witness of CommandEntry: a SEQ repeated, another and the next one, a restart, an issuer not listed. -/
theorem witness_entry :
    (sub (mReq 0x0100) (stored (mReq 0x0100))).mayStart (mReq 0x0100) = true ∧ ((stored (mReq 0x0100)).lastOf (mReq 0x0100)).1 = 1 ∧
    (((stored (mReq 0x0100)).lastOf (mReq 0x0100)).2.map (·.req)) = some (mReq 0x0100) ∧
    ((up).lastOf (mReq 0x0100)).1 = 0 ∧ (3 : Word32) ≠ 0 + 1 ∧ (sub (hReq false 0x0401) (up)).mayStart (hReq false 0x0401) = true ∧
    (adm (up)).mayStart (aReq 0x0401) = true ∧ ((adm (up)).lastOf (aReq 0x0401)).1 + 1 = 1 ∧ (adm (up)).busMaster pf = true ∧
    (up).mayStart (mReq 0x0100) = false ∧ { adm (up) with pcie := {} }.mayStart (aReq 0x0100) = true ∧
    { adm (up) with pcie := {} }.busMaster pf = false ∧ isAdmin (aReq 0x0100) = true ∧
    (sub (mReq 0x0401 [1]) (restarting0)).mayStart (mReq 0x0401 [1]) = true ∧
    (restarting0).restarting = true ∧ (restarting0).shepUp = true ∧ 0x0FFF ∉ opcodes := by decide +kernel

theorem test_information :
    replied (does .powerStatus (mReq 0x0402) (up [(pwrAddr 0x64, 7)])) = some (0, [0, 7, 0, 0]) ∧
    replied (does .certStatus (mReq 0x0802) (alarm (up) 0)) = some (0, [0, 0, 0, 0]) ∧
    ((does .certStatus (hReq false 0x0802) (alarm (up) 0)).mbox 0).last.map (·.data) = some [1, 0, 5, 0] ∧
    replied (does .stageStatus (mReq 0x0205 [1]) (up)) = some (0, [32, 0]) ∧
    replied (does .mirrorStatus (mReq 0x0600) (pair false 2)) = some (0, [4, 0, 0]) ∧
    replied (does .eventRead (mReq 0x0104 [8]) (up)) = some (3, []) := by decide +kernel

/-- Witness of InformationResults: each row by its issuer, with a buffer where the table asks for one. -/
theorem witness_information :
    (enters { op := 0x0100, reply := 68 } (mReq 0x0100) (up) && enters { op := 0x0101, reply := 192 } (mReq 0x0101) (up)
      && enters { op := 0x0102, reply := 864, rbuf := true } (aReq 0x0102) (adm (up))
      && enters { op := 0x0103, reply := 408 } (mReq 0x0103) (up)
      && enters { op := 0x0105, reply := 1024, rbuf := true } (aReq 0x0105) (adm (up))
      && enters { op := 0x0402, reply := 16 } (mReq 0x0402) (up)
      && enters { op := 0x0503, a := false, reply := 48 } (mReq 0x0503) (up)
      && enters { op := 0x0600, reply := 12 } (mReq 0x0600) (up)) = true ∧
    enters { op := 0x0104, words := some 1, reply := 64 * (param (mReq 0x0104 [7]) 0).toNat % 512 } (mReq 0x0104 [7])
      (up) (fun u => (u.replyBar (mReq 0x0104 [7]) (64 * 7)).isNone) = true ∧
    enters { op := 0x0104, words := some 1, reply := 64 * (param (mReq 0x0104 [8]) 0).toNat % 512 } (mReq 0x0104 [8])
      (up) = true ∧
    enters { op := 0x0802, a := false, sec := false, reply := 16 } (hReq false 0x0802) (alarm (up) 0)
      (fun u => (u.session false).isSome) = true ∧
    enters { op := 0x0205, a := false, words := some 1, reply := 8 } (mReq 0x0205 [1]) (up)
      (fun u => (u.stage true).isNone) = true := by decide +kernel

/-- Witness of InformationResults: FAULT_READ and CP_READ. -/
theorem witness_information_reads :
    enters { op := 0x0500, a := false, words := some 2, reply := 64 * 1 % 2 ^ 14, rbuf := true }
      (mReq 0x0500 [0, 1] 2) (up hbm) (fun u => (u.replyBar (mReq 0x0500 [0, 1] 2) 64).isNone) = true ∧
    enters { op := 0x0B00, words := some 2, reply := 4 } (mReq 0x0B00 [0x0600000C, 1]) (up)
      (fun u => (u.replyBar (mReq 0x0B00 [0x0600000C, 1]) 4).isNone && u.shep.cpJobs.isEmpty &&
        u.outstanding 0x060 == 0) = true ∧
    enters { op := 0x0B00, words := some 2, reply := 0 } (mReq 0x0B00 [0x0600000C, 0]) (up) = true ∧
    enters { op := 0x0B00, words := some 2, reply := 260 } (mReq 0x0B00 [0x0600000C, 65]) (up) = true := by decide +kernel

/-- A command of the Shepherd that waits for the answer of SEQ 1 from Prism port 0x060. -/
def asks (write : Bool) (words : Nat) : CpJob :=
  { req := mReq (if write then 0x0B01 else 0x0B00) [0x0600000C, 1], write := write, value := 1
    addr := 0x0600000C, words := words, seq := some 1, mask := false }
def awaits (write : Bool) (words : Nat) (f : Frame) : State :=
  up [] { cpJobs := [asks write words], frames := [f], mbs := [(2, { busy := true })] }
/-- Its answer, with a status. -/
def answer0 (op status : BitVec 4) : Frame :=
  sealFrame { op := op, status := status, seq := 1, addr := 0x0600000C, data := 7 }

theorem test_register_commands :
    (does .cpRead (mReq 0x0B00 [0x0600000C, 1]) (up)).shep.frames.map (fun f => (f.op, f.seq, f.addr, f.ringA))
      = [(1, 1, 0x0600000C, true), (1, 1, 0x0600000C, false)] ∧
    (does .cpWrite (mReq 0x0B01 [0x0600000C, 1]) (up)).shep.frames.map (fun f => (f.op, f.data, f.ringA))
      = [(2, 1, true), (2, 1, false)] ∧
    replied (after (.readReply (answer0 3 0)) (awaits false 1 (answer0 3 0))) = some (0, [7]) ∧
    (after (.readReply (answer0 3 0)) (awaits false 2 (answer0 3 0))).shep.frames.map (fun f => (f.op, f.addr))
      = [(1, 0x06000010), (1, 0x06000010)] ∧
    replied (after (.writeReply (answer0 4 0)) (awaits true 0 (answer0 4 0))) = some (0, []) ∧
    replied (after (.readReply (answer0 3 3)) (awaits false 1 (answer0 3 3))) = some (0x0C, []) := by decide +kernel

/-- Witness of RegisterCommandResults: an answer that gives the last word, one before the last, with a status. -/
theorem witness_register_commands :
    (awaits false 1 (answer0 3 0)).shep.cpJobs = [asks false 1] ∧ (awaits false 1 (answer0 3 0)).shep.commit = none ∧
    (asks false 1).seq = some (answer0 3 0).seq ∧ (asks false 1).addr = (answer0 3 0).addr.toNat ∧
    (answer0 3 0).dup = false ∧ Good (answer0 3 0) 3 ∧ Good (answer0 4 0) 4 ∧ Good (answer0 3 3) 3 ∧
    (answer0 3 3).status = 3 ∧ (asks true 0).write = true ∧
    ((asks false 1).got ++ [7]).length = (asks false 1).words ∧ ((asks false 2).got ++ [7]).length ≠ (asks false 2).words := by
  unfold Good
  decide +kernel

/-- M's stage with entries. -/
def staged (es : List SetEntry) (checked : Option Word32 := none) : State :=
  up [] { stages := [(1, some { chan := .mb .m 0, entries := es, checked := checked, last := 0 })] }

theorem test_stages :
    replied (does .stageOpen (mReq 0x0200) (up)) = some (0, [0]) ∧
    ((does .stageOpen (mReq 0x0200) (up)).stage true).isSome = true ∧
    replied (does .stageOpen (mReq 0x0200) (staged [])) = some (0x11, []) ∧
    replied (does .stageSet (mReq 0x0201 [1, 0x0080000C, 0x000A0019]) (staged [])) = some (0, [1]) ∧
    replied (does .stageSet (mReq 0x0201 [1, 0x00800010, 1]) (staged [])) = some (0x16, []) ∧
    (does .stageCommit (mReq 0x0203) (staged [(0x0080000C, 0x000A0019)] (some 0))).shep.commit.map (·.phase)
      = some .drain ∧
    ((does .stageAbort (mReq 0x0204) (staged [])).stage true).isNone = true ∧
    ((after (.stageIdleAbort true 10000000000) (staged [])).stage true).isNone = true ∧
    ((after (.stageIdleAbort true 9999999999) (staged [])).stage true).isSome = true := by decide +kernel

/-- Witness of StageResults: no stage and one, entries that pass and one that does not, checked and not. -/
theorem witness_stages :
    enters { op := 0x0200, a := false, reply := 4 } (mReq 0x0200) (up) (fun u => (u.stage true).isNone) = true ∧
    enters { op := 0x0200, a := false, reply := 4 } (mReq 0x0200) (staged []) (fun u => (u.stage true).isSome) = true ∧
    enters { op := 0x0201, a := false, words := none, reply := 4 } (mReq 0x0201 [1, 0x0080000C, 0x000A0019]) (staged [])
      (fun u => (u.firstBad [] [(0x0080000C, 0x000A0019)] (mReq 0x0201)).isNone &&
        (u.firstBad [] [(0x00800010, 1)] (mReq 0x0201)).isSome) = true ∧
    entriesAt (mReq 0x0201 [1, 0x0080000C, 0x000A0019]) 0 = [(0x0080000C, 0x000A0019)] ∧
    enters { op := 0x0203, a := false, reply := 20 } (mReq 0x0203) (staged [] (some 0))
      (fun u => u.shep.commit.isNone && u.shep.cnum == 0) = true ∧
    enters { op := 0x0204, a := false } (mReq 0x0204) (staged []) (fun u => !u.committing true) = true ∧
    enters { op := 0x0204, a := false } (hReq true 0x0204) (staged []) (fun u => (u.stage true).isSome) = true ∧
    ((staged []).advance 10000000000).committing true = false := by decide +kernel

/-- Witness of StageResults, STAGE_CHECK: a set that passes every test, and one of a refresh rate out of range. -/
theorem witness_check :
    enters { op := 0x0202, a := false, reply := 136 } (mReq 0x0202) (staged []) = true ∧
    ((staged []).checkSet [(0x0080000C, 0x000A0018)]).isNone = true ∧
    ((staged []).checkSet [(0x0080000C, 0x000A0019)]).map (·.status) = some 0x17 := by decide +kernel

/-- Partition 5, of the nonsecure world, with logical core 1. -/
def parted (st : BitVec 2) : State :=
  up [] { parts := [(5, some { world := false, st := st })], lcPart := [(1, some 5)] }

theorem test_partitions :
    (does .partCreate (mReq 0x0300 [0x105]) (up)).part 5 = some { world := true } ∧
    replied (does .partCreate (mReq 0x0300 [5]) (parted 0)) = some (0x50, []) ∧
    (does .partDelete (mReq 0x0301 [5]) (parted 2)).part 5 = none ∧
    replied (does .partDelete (mReq 0x0301 [5]) (parted 1)) = some (0x53, []) ∧
    ((does .partStart (mReq 0x0303 [5, 0x101, 0x1000, 1, 7, 0]) (parted 0)).core 1).pc = 0x100001000 ∧
    replied (does .partStart (mReq 0x0303 [5, 0x100, 0x1000, 1, 7, 0]) (parted 0)) = some (0x53, []) ∧
    (does .partStop (mReq 0x0304 [5]) (parted 1)).part 5 = some { world := false, st := 2 } := by decide +kernel

/-- Witness of PartitionResults. -/
theorem witness_partitions :
    enters { op := 0x0300, a := false, words := some 1 } (mReq 0x0300 [0x1FF]) (up) (fun u => (u.part 255).isNone) = true ∧
    enters { op := 0x0301, a := false, words := some 1 } (mReq 0x0301 [5]) (parted 2)
      (fun u => (u.part 5).isSome && !u.pidNamed 5) = true ∧
    enters { op := 0x0303, a := false, words := some 6 } (mReq 0x0303 [5, 0x101, 0, 0, 0, 0]) (parted 0)
      (fun u => (u.core 1).run == .stopped && (u.core 1).access.isNone && (u.core 0).run == .started) = true ∧
    enters { op := 0x0304, a := false, words := some 1 } (mReq 0x0304 [5]) (parted 1) = true ∧
    enters { op := 0x0305, a := false, words := some 1 } (mReq 0x0305 [5]) (parted 1)
      (fun u => (u.partHalt 5).partRest 5) = true ∧
    enters { op := 0x0302, a := false, words := some 3, reply := 8, maxBuf := 2 ^ 28, pbuf := true }
      (mReq 0x0302 [5, 0, 0] 1 512) (up hbm) = true := by decide +kernel

/-- The owner record of copy engine 0, and its last epoch increment at `t`. -/
def ceRec : Nat := cpAddr (ceStation 0) 0x100
def epochs (t : Word) : State := up [(ceRec, 0x400)] { epochAt := [((epochOf ceRec).1, some t)] }

/-- Witness of HandOverResults. -/
theorem witness_hand_over :
    unitRecord (param (mReq 0x0310 [3]) 0) = some ceRec ∧
    enters { op := 0x0310, words := some 1, reply := 4 } (mReq 0x0310 [3]) (epochs 0) (fun u => !u.epochFree ceRec) = true ∧
    enters { op := 0x0310, words := some 1, reply := 4 } (mReq 0x0310 [3]) (up [(ceRec, 0x400)])
      (fun u => u.epochFree ceRec && u.shep.commit.isNone) = true ∧
    mayHandOver (mReq 0x0310 [3]) ceRec false = true ∧ mayHandOver (hReq true 0x0310 [3]) ceRec true = false ∧
    ((epochs 0).advance 100000).epochFree ceRec = true ∧ ((epochs 0).advance 99999).epochFree ceRec = false ∧
    enters { op := 0x0311, words := none } (mReq 0x0311 [3, 0x405, 1]) (up) = true ∧
    unitSources ceRec = [48, 49] := by decide +kernel

/-- Group 0 owns QIDs 0 to 3, assigned to the nonsecure world and paused or not; a context of QID 0 in the cache. -/
def queue (c : Line) (pause : Nat := 0) : State :=
  { up ([(foldAddr 0x10000, 0x400000), (foldAddr 0x20000, BitVec.ofNat 32 (pause * 2 ^ 8)),
      (foldAddr 0x80000, 0x400)] ++ hbm) with fold := { cache := [(0, some { ctx := c })] } }

/-- A context word 0 of N = 16, source 128 and site 1: as QUEUE_CREATE gives it, and valid. -/
def ctxNew : Line := BitVec.ofNat 512 (4 * 2 ^ 12 + 128 * 2 ^ 50 + 2 ^ 46)
def ctxLive : Line := BitVec.ofNat 512 (1 + 4 * 2 ^ 12 + 3 * 2 ^ 16)

/-- A context that names vector 64, and group 1 of a VF with QIDs 0 to 3 of its own. -/
def ctxFar : Line := ctxNew + BitVec.ofNat 512 (64 * 2 ^ 35)
def queue1 : State :=
  { up ([(foldAddr 0x10008, 0x400000), (foldAddr 0x80004, 0x400)] ++ hbm) with
    fold := { cache := [(0, some { ctx := 0 })] } }

/-- Parameters of QUEUE_CREATE and QUEUE_CONFIG of QID 0 with `ctxNew`. -/
def newQueue (op : Nat) : ShepReq := mReq op ([0, 4 * 2 ^ 12, 128 * 2 ^ 18 + 2 ^ 14] ++ List.replicate 8 0)

theorem test_queue_commands :
    replied (does .queueCreate (newQueue 0x0320) (queue 0)) = some (0, []) ∧
    replied (does .queueCreate (newQueue 0x0320) (queue ctxLive)) = some (3, []) ∧
    replied (does .queueReset (mReq 0x0323 [0]) (queue ctxLive)) = some (0, [4]) ∧
    replied (does .queueEnable (mReq 0x0324 [0]) (queue 0)) = some (0x46, []) ∧
    replied (does .queueSave (mReq 0x0325 [0]) (queue ctxLive)) = some (0x44, []) ∧
    ((SMap.get none (does .queueDelete (mReq 0x0322 [0]) (queue ctxLive)).fold.cache 0).map fun w => ctxValid w.ctx)
      = some false ∧
    (does .groupPause (mReq 0x0330 [0]) (queue 0)).cpField (foldAddr 0x20000) 8 1 = 1 := by decide +kernel

/-- Witness of QueueCommandResults: the queue named, a new, a valid and an empty context. -/
theorem witness_queue :
    (queue 0).groupOf 0 = some 0 ∧ (queue 0).groupOf 3 = some 0 ∧ (queue 0).groupOf 4 = none ∧
    (queue 0).mayGroup (mReq 0x0320) 0 = true ∧ (queue 0).isOff foldStation = false ∧
    ((queue ctxLive).ctxOf 0).map (·.1) = some ctxLive ∧
    ctxParam (newQueue 0x0320) 1 10 = ctxNew ∧ ctxNew &&& ~~~ctxRw = 0 ∧ ctxLimits ctxNew = true ∧
    ctxValid 0 = false ∧ ctxValid ctxLive = true ∧ ctxEnable ctxLive = false ∧ (queue 0).pinFull 0 ctxNew = false ∧
    (queue ctxLive 1).quiesced 0 = true ∧ (queue ctxLive).quiesced 0 = false ∧
    ctxVector ctxNew 0 = true ∧ (queue1).groupOf 0 = some 1 ∧ (queue1).mayGroup (mReq 0x0320) 1 = true ∧
    ((queue1).ctxOf 0).map (·.1) = some 0 ∧ ctxVector (ctxFar) 1 = false ∧ ctxLimits ctxFar = true ∧
    ctxFar &&& ~~~ctxRw = 0 ∧ ctxParam (mReq 0x0320 [0, 4 * 2 ^ 12, 128 * 2 ^ 18 + 2 ^ 14 + 64 * 8]) 1 10 = ctxFar ∧
    ctxVector (ctxNew + BitVec.ofNat 512 (63 * 2 ^ 35)) 1 = true := by decide +kernel

/-- Witness of QueueCommandResults: the packets; RESTORE into a group with a queue; groups reached and not. -/
theorem witness_queue_packets :
    (enters { op := 0x0320, words := some 11 } (newQueue 0x0320) (queue 0)
      && enters { op := 0x0321, words := some 11 } (newQueue 0x0321) (queue ctxLive)
      && enters { op := 0x0322, words := some 1 } (mReq 0x0322 [0]) (queue ctxLive)
      && enters { op := 0x0323, words := some 1, reply := 4 } (mReq 0x0323 [0]) (queue ctxLive)
      && enters { op := 0x0324, words := some 1 } (mReq 0x0324 [0]) (queue ctxLive)
      && enters { op := 0x0325, words := some 1, reply := 68 } (mReq 0x0325 [0]) (queue ctxLive)) = true ∧
    (let r := mReq 0x0326 ([0, 4 * 2 ^ 12] ++ List.replicate 20 0 ++ [1 + 128 * 2 ^ 4])
     enters { op := 0x0326, words := some 23 } r (queue ctxLive) fun u =>
      let y := ctxRestore r 0
      ctxF y 6 36 12 = 0 && ctxF y 6 0 12 = ctxF y 5 0 12 && ctxF y 6 12 12 = ctxF y 5 0 12 &&
        ctxF y 6 24 12 = ctxF y 5 0 12 && ctxLimits y && (param r 22).toNat < 2 ^ 26 && !u.groupEmpty 0 &&
        u.ggen 0 = (param r 17).toNat && !u.pinFull ctxLive y) = true ∧
    (enters { op := 0x0330, words := some 1 } (mReq 0x0330 [1024]) (queue 0)
      && enters { op := 0x0331, words := some 1 } (mReq 0x0331 [0]) (queue 0)) = true ∧
    (queue 0).mayGroup (hReq true 0x0330 [0]) 0 = false := by decide +kernel

/-- The log of VF 1 with its first buffer in use, and ENABLE and the buffers' committed size. -/
def logging : State := up [(logAddr 1 0x18, 0xC01)]

theorem test_dirty_log :
    (does .dirtyLogSwap (mReq 0x0339 [1]) (logging)).cpField (logAddr 1 0x18) 1 1 = 1 ∧
    (does .dirtyLogStop (mReq 0x033A [1]) (logging)).shep.commit.map (·.entries)
      = some [(logAddr 1 0x18, 0xC00)] := by decide +kernel

/-- Witness of DirtyLogCommandResults: the first and the last VF. -/
theorem witness_dirty_log :
    logVf (mReq 0x0338 [1]) = some 1 ∧ logVf (mReq 0x0338 [1024]) = some 1024 ∧ logVf (mReq 0x0338 [0]) = none ∧
    enters { op := 0x0339, words := some 1, reply := 8 } (mReq 0x0339 [1]) (logging)
      (fun u => u.cpField (logAddr 1 0x18) 3 1 = 0 && ((u.logSwap 1).logSwapDone 1).isSome) = true ∧
    enters { op := 0x033A, words := some 1 } (mReq 0x033A [1]) (logging)
      (fun u => (u.checkSet [(logAddr 1 0x18, 0xC00)]).isNone && u.shep.commit.isNone) = true := by decide +kernel

theorem test_machine_commands :
    replied (does .powerDomain (mReq 0x0400 [63]) (up)) = some (3, []) ∧
    (does .powerDomain (mReq 0x0400 [0x238]) (up)).domState 56 = 2 ∧
    (does .powerState (mReq 0x0401 [1]) (up)).powerState = 1 ∧
    ((does .powerState (mReq 0x0401 [2]) (up)).core 0).halts = [.power] ∧
    replied (does .powerState (mReq 0x0401 [2]) (pair false 2)) = some (0x68, []) ∧
    (does .domainStop (mReq 0x0502) (up)).shep.cause = 5 ∧
    replied (does .faultAck (mReq 0x0501 [0]) (up)) = some (3, []) ∧
    ((does .coreSwap (mReq 0x0700 [0x20000]) (up)).core 0).halts = [.swap] := by decide +kernel

/-- A log of one record, of index 0. -/
def logged : State :=
  up [] { log := [{ cls := 3, source := 8, sev := 1, tFirst := 0, tLast := 0, loc := 0, d0 := 0, d1 := 0, reporters := 0
                    index := 0, cnum := 0 }] }

/-- A primary whose partner has been heard with the same digest. -/
def heard : State :=
  let p := pair false 4
  { p with mir := { partner := some { code := 0, data := [1, 0, 0, p.mirDigest.zeroExtend 64] } } }

/-- The configuration digest is a function of the control-plane registers. -/
theorem digest_cp (s : State) : s.mirDigest = State.mirDigest { State.reset with cp := s.cp } := rfl

theorem unit_word {e : Word} (d : Word32) : unitWord { code := 0, data := [1, 0, e, d.zeroExtend 64] } 3 = d.toNat := by
  simp only [unitWord, List.getElem?_cons_succ, List.getElem?_cons_zero, Option.getD_some, BitVec.truncate_eq_setWidth,
    BitVec.toNat_setWidth]
  have := d.isLt
  omega

/-- Witness of MachineCommandResults and MirrorResults: the partner's digest is the device's own. -/
theorem witness_heard :
    heard.mir.partner = some { code := 0, data := [1, 0, 0, (pair false 4).mirDigest.zeroExtend 64] } ∧
    unitWord { code := 0, data := [1, 0, 0, (pair false 4).mirDigest.zeroExtend 64] } 3 = heard.mirDigest.toNat := by
  refine ⟨rfl, ?_⟩
  rw [unit_word, digest_cp heard, digest_cp (pair false 4)]
  rfl

/-- Witness of MachineCommandResults: domains and power states. -/
theorem witness_domains :
    enters { op := 0x0400, a := false, words := some 1 } (mReq 0x0400 [0x139]) (up)
      (fun u => !u.shed 3 && !u.badDomain 57 1 && !u.domainBusy 57 && (u.domainOff 57).isSome) = true ∧
    enters { op := 0x0400, a := false, words := some 1 } (mReq 0x0400 [63]) (shed 7)
      (fun u => u.shed 3 && u.badDomain 63 0) = true ∧
    enters { op := 0x0400, a := false, words := some 1 } (hReq false 0x0400 [0x13E]) (up)
      (fun u => !u.shed 3 && u.usedBy 62 true) = true ∧ field (0x13E : Word32) 8 2 = 1 ∧
    (up [] { mLc := some 0 }).domainBusy 0 = true ∧ (up).badDomain 0 1 = false ∧
    enters { op := 0x0401, a := false, n := false, sec := false, words := some 1 } (mReq 0x0401 [3]) (up)
      (fun u => !u.shed 3 && u.mirState = 0 && !u.inTransit && u.powerState < 2) = true ∧
    (pair false 1).mirState = 1 ∧ (pair false 2).mirState = 2 := by decide +kernel

/-- Witness of MachineCommandResults: the other commands of M. -/
theorem witness_machine_commands :
    enters { op := 0x0501, a := false, n := false, sec := false, words := some 1 } (mReq 0x0501 [0]) (logged)
      (fun u => u.shep.log.any fun y => y.index = 0) = true ∧
    enters { op := 0x0502, a := false, n := false, sec := false } (mReq 0x0502) (up) (fun u => !u.shep.cds) = true ∧
    enters { op := 0x0702, a := false, n := false, sec := false, reply := 4 } (mReq 0x0702) (up) = true ∧
    enters { op := 0x0601, a := false, n := false, sec := false, words := some 1 } (mReq 0x0601 [1]) (up)
      (fun u => (u.checkSet [(mirAddr 0, setBit (u.cpGet (mirAddr 0)) 1 true)]).isNone && u.shep.commit.isNone) = true := by
  decide +kernel

/-- Witness of MachineCommandResults: the pair, lanes and swaps. -/
theorem witness_swaps :
    enters { op := 0x0602, a := false, n := false, sec := false } (mReq 0x0602) (heard)
      (fun u => u.mirOn && u.mirLink && !u.mirSecondary && u.mirState ≠ 5 && u.mir.cutFrom.isNone &&
        u.mir.partner.any fun y => unitWord y 0 % 2 = 1) = true ∧
    (up).mir.partner = none ∧
    enters { op := 0x0701, a := false, n := false, sec := false, words := some 1 } (mReq 0x0701 [0x4060]) (up)
      (fun u => (u.checkSet [(cpAddr 0x060 0x0D4, 0x24)]).isNone) = true ∧ portAt 0x060 = some ⟨0, true⟩ ∧
    enters { op := 0x0700, a := false, n := false, sec := false, words := some 1, reply := 4 } (mReq 0x0700 [0x20000])
      (up) (fun u => u.dieOf 0 == some 0 && u.chooseReserve 0 == some 3 && u.shep.commit.isNone) = true := by
  decide +kernel

/-- The memory-side cache of H0 holds line 0, so that a read of it meets no DRAM error. -/
def filled : State := { up hbm with homes := [(0, { msc := { ways := [(mscSet 0 * 16, some ⟨0, false, 0, false⟩)] } })] }

theorem test_trust :
    replied (does .certLoad (mReq 0x0800 [] 1 64) (filled)) = some (0x62, []) ∧
    replied (does .setSecureTime (mReq 0x0810 [9, 0]) (up)) = some (0, [9, 0]) ∧
    replied (does .setSecureTime (mReq 0x0810 [4, 0]) (alarm (up) 5)) = some (0x63, []) ∧
    replied (does .imageWrite (mReq 0x0900 [0, 0] 1 64) (up hbm)) = some (0x5A, []) ∧
    replied (does .imageWrite (mReq 0x0900 [1, 0] 1 64) (filled)) = some (0, []) ∧
    SMap.get 0 (does .imageActivate (mReq 0x0902 [3]) (up)).shep.active 1 = 1 ∧
    replied (does .imageConfirm (mReq 0x0903 [0, 1]) (up)) = some (0x59, []) ∧
    (does .imageConfirm (mReq 0x0903 [0, 2]) (up [] { fwSvn := 2 })).rollback 0 = 2 := by decide +kernel

/-- Witness of TrustResults: the packets, sessions, times, slots and counters. -/
theorem witness_trust :
    enters { op := 0x0800, a := false, sec := false, words := some 0, reply := 8, pbuf := true } (mReq 0x0800 [] 1 64)
      (up hbm) = true ∧
    enters { op := 0x0801, a := false, sec := false, words := some 1 } (hReq false 0x0801 [1]) (alarm (up) 0)
      (fun u => u.session false == some ⟨1, 0, none, 5⟩ && (u.session true).isNone) = true ∧
    enters { op := 0x0810, a := false, n := false, sec := false, words := some 2, reply := 8 } (mReq 0x0810 [4, 0])
      (alarm (up) 5) (fun u => u.stValid && 4 < u.stNow.toNat) = true ∧
    imageParam (mReq 0x0900 [3]) = some (1, 1) ∧ imageParam (mReq 0x0900 [4]) = none ∧
    enters { op := 0x0900, a := false, n := false, sec := false, words := some 2, pbuf := true } (mReq 0x0900 [0, 0] 1 64)
      (up hbm) (fun u => u.runningSlot 0 == some 0 && (u.runningSlot 1).isNone) = true ∧
    enters { op := 0x0901, n := false, sec := false, words := some 1, reply := 8 } (mReq 0x0901 [0]) (up) = true ∧
    enters { op := 0x0902, n := false, sec := false, words := some 1 } (mReq 0x0902 [3]) (up) = true ∧
    enters { op := 0x0903, a := false, n := false, sec := false, words := some 2 } (mReq 0x0903 [2, 64]) (up)
      (fun u => u.runningSvns 2 == [] && u.rollback 2 ≤ 64) = true ∧
    enters { op := 0x0904, a := false, n := false, sec := false, words := some 1, reply := 4 } (mReq 0x0904 [1]) (up)
      (fun u => u.shep.standby.isNone) = true := by decide +kernel

/-- A Shepherd image of no payload, of version 7, SVN 0 and key slot 0. -/
def image0 : SMap Byte := [(0, 0x41), (1, 0x5A), (2, 0x49), (3, 0x4D), (4, 1), (8, 7)]

/-- A firmware switch to slot B that waits for its gap. -/
def standby : State :=
  up [] { images := [(2, image0)], standby := some (mReq 0x0904 [1]), standbySlot := 1, auditDone := true }

/-- On a part whose hash of any bytes is 0 and whose signature check passes, what is left of an image's check. -/
theorem verifies {s : State} {type i : Nat} {b : List Byte} (hs : ∀ b, Config.sha384 b = List.replicate 12 0)
    (hv : ∀ k b g, Config.ecdsaVerify k b g = true)
    (h : (512 ≤ b.length && numAt b 0 4 = 0x4D495A41 && numAt b 4 2 = type && numAt b 6 1 < 4
      && (bytesAt b 0x200 (numAt b 0x10 4)).length = numAt b 0x10 4
      && List.replicate 12 0 = s.hashRegs (0x30000 + 0x30 * numAt b 6 1)
      && s.cpField (cpAddr shepStation 0x300F0) (numAt b 6 1) 1 = 0
      && bytesOf32 (List.replicate 12 0) = (List.range 12).flatMap (fun w => (bytesAt b (0x20 + 4 * w) 4).reverse)
      && s.rollback i ≤ numAt b 12 1) = true) : ∃ y, s.verifyImage type i b = .ok y := by
  simp only [Bool.and_eq_true, decide_eq_true_eq] at h
  obtain ⟨⟨⟨⟨⟨⟨⟨⟨h1, h2⟩, h3⟩, h4⟩, h5⟩, h6⟩, h7⟩, h8⟩, h9⟩ := h
  unfold State.verifyImage
  simp only [hs, hv, h1, h2, h3, h4, h5, h7, ← h6, ← h8]
  simp [Nat.not_lt.mpr h9]

/-- Witness of TrustResults, the images: on such a part slot B's image verifies. Slot A's has no header. -/
theorem witness_image (hs : ∀ b, Config.sha384 b = List.replicate 12 0) (hv : ∀ k b g, Config.ecdsaVerify k b g = true) :
    (∃ y, standby.flashImage 1 0 = .ok y) ∧ standby.shep.auditDone = true ∧
    ((standby.flashBytes 0 0).length = 512 ∧ numAt (standby.flashBytes 0 0) 0 4 ≠ 0x4D495A41) := by
  refine ⟨verifies hs hv ?_, rfl, ?_⟩ <;> decide +kernel

theorem test_snapshot_commands :
    SMap.get 1000000 (does .snapConfig (mReq 0x0A00 [10]) (up)).snap.period 1 = 10 ∧
    replied (does .snapConfig (mReq 0x0A00 [9]) (up)) = some (3, []) ∧
    replied (does .snapConfig (mReq 0x0A00 [1000001]) (up)) = some (3, []) := by decide +kernel

/-- Witness of SnapshotCommandResults. -/
theorem witness_snapshot_commands :
    enters { op := 0x0A00, a := false, words := some 1 } (mReq 0x0A00 [1000000]) (up) = true ∧
    (let s := { up hbm with snap := { recs := [rec0] } }
     let r := mReq 0x0A01 [1] 2
     enters { op := 0x0A01, a := false, words := some 1, reply := (s.snapBytes r 1).length, rbuf := true } r s fun u =>
      (u.replyBar r (u.snapBytes r 1).length).isNone && (u.snapBytes r 1).length = 64) = true ∧
    enters { op := 0x0B01, a := false, n := false, sec := false, words := some 2 } (mReq 0x0B01 [0x0600000C, 1]) (up)
      (fun u => !u.cpHeld 0x060 && u.shep.cpJobs.isEmpty && u.outstanding 0x060 == 0) = true ∧
    enters { op := 0x0B01, a := false, n := false, sec := false, words := some 2 } (mReq 0x0B01 [0x0080000C, 1])
      (up [] (armed0 .arm)) (fun u => u.cpHeld 0x008) = true := by decide +kernel

/-! Port A and the Fold. -/

/-- Port A with its link up, the PF's Bus Master and Memory Space Enable set, and one owned group. -/
def port (x : Pcie := {}) (cp : SMap Word32 := []) : State :=
  { up ([(foldAddr 0x10000, 0x400000), (foldAddr 0x80000, 0x400), (pcieAddr 0, 1)] ++ cp) with
    pcie := { x with cfg := [(1, 0x00100006)] }, devReady := true }

/-- A message of the host window from the Shepherd, or from copy engine 0 for partition 0. -/
def hostMsg (k : MsgKind) (src : Station := shepStation) (data : Option Line := none) : Msg :=
  { kind := k, dest := portAStation, src := src, txid := 9, addr := 0x10000000040, s := false, data := data
    bmask := 0xFF, bytes := 8 }

/-- The host Pasture open to all, and the PF mapped to partition 0. -/
def hostOpenTo : SMap Word32 :=
  [(pcieAddr 0x400, 0x800), (pcieAddr 0x1000, 0x7F), (pcieAddr 0x100C, 0xFFFFFFFF)]

/-- A frozen port. -/
def frozen0 : State := { port with cp := [(pcieAddr 0, 1), (pcieAddr 0x00C, 7)] }

/-- A read that waits for tag 0x100. -/
def waits : Pcie := { outs := [⟨0x100, 0, hostMsg .hostRd⟩] }

theorem test_host_window :
    (after (.hostRd (hostMsg .hostRd)) (port)).pcie.sent.map (fun x => (x.kind, x.tag, x.addr, x.bytes))
      = [(.memRead, 0x100, 0x40, 8)] ∧
    (after (.hostWr (hostMsg .hostWr shepStation (some 0x55))) (port)).pcie.sent.map (fun x => (x.kind, x.addr, x.data))
      = [(.memWrite, 0x40, [0x55, 0, 0, 0, 0, 0, 0, 0])] ∧
    (after (.completion { write := false, fn := 0, tag := 0x100, data := [7] }) (port waits)).net.map
      (fun m => (m.kind, m.txid, m.data)) = [(.ncData, 9, some 7)] ∧
    (after (.completion { write := false, fn := 0, tag := 0x100, status := 1 }) (port waits)).net.map (·.kind)
      = [.ncErr] ∧
    (after (.completionTimeout 0x100) (port waits)).net.map (·.kind) = [.ncErr] := by decide +kernel

/-- The request arrives at port A, in a state where `p` holds. -/
def atPort (s : State) (m : Msg) (p : State → Bool) : Bool :=
  m.dest == portAStation && arrives s m fun u => !u.shep.hold && p u

/-- A function may issue for it. -/
def mayIssue (u : State) (m : Msg) (f : Func) : Bool :=
  u.hostFn m == some f && u.busMaster f && u.fnOn f && !u.frozen && !u.perst

/-- Witness of HostWindowResults: a read and writes that pass, alone and joined to the last one; one for which no
function may issue; completions of a read that waits and of one that a freeze answered. -/
theorem witness_host_window :
    atPort (port) (hostMsg .hostRd) (fun u => mayIssue u (hostMsg .hostRd) 0 && u.freeTag == some 0x100) = true ∧
    atPort (port {} hostOpenTo) (hostMsg .hostWr (ceStation 0) (some 1)) (fun u =>
      let m := hostMsg .hostWr (ceStation 0) (some 1)
      u.passes portAStation 16 m.addr.toNat m.s m.pid .w && mayIssue u m 0 && (u.logMark 0 0x40 8).isSome &&
        HostTlp.joins { kind := .memWrite, fn := 0, addr := 0x38, data := List.replicate 8 0, src := ceStation 0 } 0 m
          0x40 8 (u.maxPayload 0)) = true ∧
    atPort { port with pcie := {} } (hostMsg .hostRd) (fun u => u.hostFn (hostMsg .hostRd) == some 0 && !u.busMaster 0)
      = true ∧
    (port).perst = false ∧ (port).dlUp = true ∧ (waits.outs.find? fun x => x.tag = 0x100).isSome = true ∧
    ((port waits).pcie.outs.find? fun x => x.tag = 0x3FF).isNone = true ∧ frozen0.frozen = true ∧
    (port).frozen = false ∧ frozen0.dlUp = true ∧ (port).shep.hold = false := by decide +kernel

/-- A configuration request, an aperture read and write of the PF's BAR2, which starts at 0. -/
def cfgReq (write : Bool) (a : Nat) (d : List Byte := []) : Tlp :=
  { write := write, fn := 0, tag := 3, addr := BitVec.ofNat 64 a, data := d }
def inReq (a : Nat) (bytes : Nat) (d : List Byte := []) : Tlp :=
  { write := !d.isEmpty, fn := 0, tag := 3, addr := BitVec.ofNat 64 a, bytes := bytes, be := 0xFF, data := d }

/-- Port A with an aperture at physical address 0, and a frozen one. -/
def apert : State := port {} [(pcieAddr 0x20000, 1)]

theorem test_inbound :
    (after (.configRequest (cfgReq false 4)) (port)).pcie.sent.map (fun x => (x.status, x.data))
      = [(0, [6, 0, 0x10, 0])] ∧
    (after (.configRequest (cfgReq false 4)) { port with devReady := false }).pcie.sent.map (·.status) = [2] ∧
    (after (.configRequest (cfgReq true 4 [2, 0, 0, 0])) (port)).cfg 0 4 = 0x00100002 ∧
    (after (.memoryRead (inReq 0x200000 64)) apert).reqs.map (fun r => (r.msg.kind, r.msg.addr)) = [(.rdOnce, 0x200000)] ∧
    (after (.memoryWrite (inReq 0x200008 2 [0x11, 0x22])) apert).reqs.map (fun r => (r.msg.kind, r.msg.bmask))
      = [(.wrUnique, 0x300)] ∧
    (after (.memoryRead (inReq 0 4)) frozen0).pcie.sent.map (·.status) = [1] ∧
    bit ((after (.messageTlp { write := true, fn := 0, tag := 0, msg := 1 })
      { port with pcie := { cfg := [(1, 0x00100006), (0x42, 0x100000)] } }).cfg 0 0x104) 20 = true ∧
    (after (.memoryWrite (inReq 0 4 [1])) frozen0).cpField (pcieAddr 0x010) 0 16 = 1 := by decide +kernel

/-- Witness of InboundResults: before READY and after, frozen, no BAR, the last byte of a line. -/
theorem witness_inbound :
    (port).devReady = true ∧ (port).fnOn 0 = true ∧ (port).fnOn 1 = false ∧ frozen0.frozen = true ∧
    frozen0.dlUp = true ∧ frozen0.perst = false ∧ (port).frozen = false ∧ (port).barOf (2 ^ 40) = none ∧
    apert.barOf 0x20003F = some (0, true, 0x20003F) ∧ apert.memOn 0 = true ∧ apert.aperture 0 = some 0 ∧
    bit (apert.grpOwner 0) 10 = true ∧ apert.freeTxid portAStation 2048 = some 0 ∧
    0x20003F % 64 + (inReq 0x20003F 1).bytes = 64 ∧ (port).hostOpen = true ∧ frozen0.hostOpen = false ∧
    apert.pcie.inq = [] ∧ apert.pcie.posted = [] ∧ apert.imageOnly = false ∧
    (inReq 0x20003F 1 [5]).data ≠ [] ∧ 0x20003F % 64 + (inReq 0x20003F 1 [5]).data.length ≤ 64 := by
  decide +kernel

theorem test_port_resets :
    (after .dlDown (port)).cpField (pcieAddr 0x00C) 1 3 = 3 ∧ (after .hotReset (port)).dlUp = false ∧
    (after .release frozen0).frozen = false ∧
    (after .release { frozen0 with restarting := true }).cpField (pcieAddr 0x00C) 10 1 = 1 := by decide +kernel

/-- Witness of PortResetResults. -/
theorem witness_port_resets :
    (up).dlUp = false ∧ (up).perst = false ∧ (up).domState 56 = 0 ∧ (port).isOff portAStation = false ∧
    (up [(pcieAddr 0, 0x200)]).perst = true ∧ bit ((up [(pwrAddr 0x44, 7)]).cpGet (pwrAddr 0x44)) 3 = false ∧
    ((frozen0.pcie.cfg.any fun e => e.1 % 1024 = 0x104 / 4) = false) ∧ frozen0.restarting = false ∧
    (0x20 : Word32) &&& ((port).cfg 0 0x10C ||| (port).cpGet (pcieAddr 0x008)) ≠ 0 ∧ (port).fnOn 1 = false := by
  decide +kernel

/-- The group's queue 0 with a context that runs: N = 16, GEN 3, SQ_TAIL 2 and the fields given. -/
def runsCtx (more : Line := 0) : Line := ctxLive ||| 2 ||| ctxSet 0 5 12 12 2 ||| more
def door (c : Line) (aq : AdminQ := {}) : State := { port with fold := { cache := [(0, some { ctx := c })], aq := aq } }

/-- A FOLD_DEVBELL word for QID 0: GEN and index. -/
def bell (gen i : Nat) : Word := BitVec.ofNat 64 (i * 2 ^ 24 + gen * 2 ^ 36)

/-- The owner of the group, and another partition. -/
def owner : Accessor := ⟨1, false, 0, 0⟩

/-- A field of the context of QID 0. -/
def ctx0 (s : State) (w lo n : Nat) : Nat := ctxF ((ctxNow s 0).getD 0) w lo n

theorem test_doorbells :
    ctx0 (after (.sqTailDoorbell 0 0 15) (door (runsCtx))) 5 12 12 = 15 ∧
    ctx0 (after (.sqTailDoorbell 0 0 16) (door (runsCtx))) 6 48 5 = 1 ∧
    ctx0 (after (.cqHeadDoorbell 0 0 1) (door (runsCtx))) 6 48 5 = 2 ∧
    (after (.sqTailDoorbell 0 4 0) (door (runsCtx))).cpField (foldAddr 0x018) 0 16 = 1 ∧
    (after (.adminSqDoorbell 15) (door 0 { cfg := 9 })).fold.aq.sqTail = 15 ∧
    (after (.adminSqDoorbell 16) (door 0 { cfg := 9 })).fold.aq.error = true ∧
    (after (.aqCfgWrite 9) (door 0)).fold.aq.ready = true ∧
    ctx0 (after (.workHead (bell 3 0) owner) (door (runsCtx))) 7 0 16 = 0 ∧
    ctx0 (after (.workHead (bell 2 0) owner) (door (runsCtx))) 7 0 16 = 1 ∧
    (after (.dcrTail (bell 3 0) { owner with pid := 1 }) (door (runsCtx))).cpField (foldAddr 0x018) 16 16 = 1 := by
  decide +kernel

/-- Witness of DoorbellResults: the host's doorbells in the ring and past it, of a queue and of none. -/
theorem witness_doorbells :
    (door (runsCtx)).frozen = false ∧ (door (runsCtx)).memOn 0 = true ∧ (door (runsCtx)).imageOnly = false ∧
    (door (runsCtx)).qCount 0 = 4 ∧ ((door (runsCtx)).ctxOf 0).map (·.1) = some (runsCtx) ∧
    ctxValid (runsCtx) = true ∧ ctxEnable (runsCtx) = true ∧ ctxError (runsCtx) = false ∧
    (port).powerState < 2 ∧ (port).inTransit = false ∧ (port).pcie.inq = [] ∧ (port).pcie.posted = [] ∧
    ctxN (runsCtx) = 16 ∧ ringDist 16 (ctxF (runsCtx) 5 24 12) 0 = 0 ∧
    ringDist 16 (ctxF (runsCtx) 5 24 12) 15 = 1 ∧ ringDist 16 0 (ctxF (runsCtx) 5 36 12) < ringDist 16 0 15 := by
  decide +kernel

/-- Witness of DoorbellResults: the admin queue, and the cores' doorbells by the owner, with an old GEN, by
another. -/
theorem witness_device_bells :
    (door 0 { cfg := 9 }).fold.aq.on = true ∧ (door 0 { cfg := 9 }).fold.aq.depth = 16 ∧ (door 0).fold.aq.on = false ∧
    (door 0 { cfg := 9, sqTail := 1 }).fold.aq.sqHead ≠ (door 0 { cfg := 9, sqTail := 1 }).fold.aq.sqTail ∧
    ringDist 16 0 0 ≤ ringDist 16 0 (door 0 { cfg := 9 }).fold.aq.cqHead ∧
    (after (.adminSqDoorbell 2) (door 0 { cfg := 9, sqTail := 1 })).shep.order = [.admin] ∧
    (after (.aqCfgWrite 8) (door 0 { cfg := 9, lastSeq := 4 })).fold.aq.lastSeq = 0 ∧
    (door (runsCtx)).isOff foldStation = false ∧ owner.lvl ≠ 0 ∧ field (bell 3 0) 0 20 = 0 ∧
    bit ((door (runsCtx)).grpOwner (ctxF (runsCtx) 0 24 11)) 10 = true ∧
    owner.world = bit ((door (runsCtx)).grpOwner 0) 9 ∧
    owner.pid = ((door (runsCtx)).grpOwner 0).extractLsb' 0 8 ∧ (bell 3 0).extractLsb' 36 8 = ctxGen (runsCtx) ∧
    (bell 2 0).extractLsb' 36 8 ≠ ctxGen (runsCtx) ∧ field (bell 3 0) 44 20 = 0 ∧
    ringDist 16 0 (ctxF (runsCtx) 6 12 12) ≤ ctxF (runsCtx) 6 36 12 := by decide +kernel

/-- A queue with an entry at the DCR, and one with a released completion. -/
def dcrCtx : Line := runsCtx (ctxSet 0 6 24 12 1)
def released : State :=
  { door (runsCtx) with fold := { (door (runsCtx)).fold with ready := [⟨0, 7, 0, false, false⟩] } }

theorem test_queue_engine :
    (after (.sqFetch 0) (door (runsCtx))).reqs.map (fun r => r.msg.kind) = [.hostRd] ∧
    ctx0 (after (.sqFetch 0) (door (runsCtx))) 6 36 12 = 1 ∧
    (after (.sqFetch 0) (door ctxLive)).reqs = [] ∧
    (after (.dcrRead 0) (door dcrCtx)).reqs.map (fun r => r.msg.kind) = [.rdOnce] ∧
    ctx0 (after (.dcrRead 0) (door dcrCtx)) 6 12 12 = 1 ∧
    (after (.cqWrite 0) released).reqs.map (fun r => r.msg.kind) = [.hostWr] := by decide +kernel

/-- Witness of QueueEngineResults: room for a fetch and none, a DCR entry, a completion released. -/
theorem witness_queue_engine :
    (door (runsCtx)).freeTxid foldStation 2048 = some 0 ∧ (door (runsCtx)).fold.fetches 0 < 8 ∧
    (door (runsCtx)).fold.inFlight (· == .fetch) < 512 ∧ (door (runsCtx)).groupPaused 0 = false ∧
    ctxF (runsCtx) 5 0 12 ≠ ctxF (runsCtx) 5 12 12 ∧ ctxF (runsCtx) 6 36 12 + ringDist 16 0 0 < 15 ∧
    ctxEnable ctxLive = false ∧ ctxF dcrCtx 6 12 12 ≠ ctxF dcrCtx 6 24 12 ∧
    (door dcrCtx).fold.hasOp 0 .dcr = false ∧ ctxF dcrCtx 0 3 1 = 0 ∧
    (released.fold.ready.find? fun x => x.qid.toNat = 0) = some ⟨0, 7, 0, false, false⟩ ∧
    released.fold.hasOp 0 .cq = false ∧ (door (runsCtx)).restarting = false ∧ (door (runsCtx)).fold.retry = [] ∧
    ((door (runsCtx)).foldWork.ctxOf 0).map (·.1) = some (runsCtx) ∧ (door (runsCtx)).isOff foldStation = false ∧
    ((door dcrCtx).foldWork.ctxOf 0).map (·.1) = some dcrCtx ∧ (door dcrCtx).fold.holding < 16384 ∧
    (released.foldWork.ctxOf 0).map (·.1) = some (runsCtx) ∧ released.frozen = false ∧ ctxEnable (runsCtx) = true := by decide +kernel

theorem test_context_port :
    ctx0 (after (.foldCtxpEnable 0) (door ctxLive)) 0 1 1 = 1 ∧ ctx0 (after (.foldCtxpDelete 0) (door ctxLive)) 0 0 1 = 0 ∧
    (after (.foldCtxpRead 0) (door (runsCtx))).cpGet (foldAddr 0x60040) = 0x34003 ∧
    (after (.logSwap 1) (logging)).cpField (logAddr 1 0x18) 3 1 = 1 ∧
    (after (.logSwapDone 1) (after (.logSwap 1) (logging))).cpField (logAddr 1 0x18) 3 1 = 0 := by decide +kernel

/-- Witness of ContextPortResults. -/
theorem witness_context_port :
    field (0x200000 : Word32) 0 20 = 0 ∧ ((door ctxLive).ctxOf 0).isSome = true ∧ (door ctxLive).isOff foldStation = false ∧
    (1 : Func).val ≠ 0 ∧ (logging).cpField (logAddr 1 0x18) 3 1 = 0 ∧
    (after (.logSwap 1) (logging)).cpField (logAddr 1 0x18) 3 1 = 1 ∧
    ((after (.logSwap 1) (logging)).logFlush 1 fun _ => true).isSome = true := by decide +kernel

/-! Loupes, test access, core debug. -/

/-- Loupe 0 asked for `n` slices. -/
def loupe0 (n : Nat) (more : SMap Word32 := []) (x : SMap Loupe := []) : State :=
  { withCp ((lpAddr 0 0x28, BitVec.ofNat 32 n) :: more) with loupes := x }

theorem test_loupes :
    (after (.traceEn 0 true) (loupe0 8)).cpGet (lpAddr 0 0x2C) = 1 ∧
    ((after (.traceEn 0 true) (loupe0 8)).loupe 0).slices = 8 ∧
    (after (.traceEn 0 false) (loupe0 8 [(lpAddr 0 0x2C, 1)])).cpGet (lpAddr 0 0x2C) = 0 ∧
    (after (.traceDataRead 0) (loupe0 1 [(lpAddr 0 0x30, 0xFFFF)])).cpField (lpAddr 0 0x30) 0 16 = 0 ∧
    (after (.lpClear 0) (loupe0 1 [] [(0, { slices := 3 })])).loupe 0 = {} := by decide +kernel

/-- Witness of LoupeResults: slices free, and none while two Loupes of the quadrant hold all sixteen. -/
theorem witness_loupes :
    (loupe0 8).domState 60 ≠ 1 ∧ (loupe0 8).cpField (lpAddr 0 0) 1 1 = 0 ∧ (loupe0 8).cpField (lpAddr 0 0x2C) 3 1 = 0 ∧
    ((loupe0 8).loupe 0).slices = 0 ∧ (loupe0 8).cpField (lpAddr 0 0x28) 0 4 = 8 ∧
    (loupe0 8).freeSlices (loupeQuad 0) 8 = some 0 ∧ (loupe0 1).freeSlices (loupeQuad 0) 1 = some 0 ∧
    (loupe0 1 [(lpAddr 1 0x2C, 0), (lpAddr 2 0x2C, 0x80)] [(1, { slices := 8 }), (2, { slices := 8 })]).freeSlices
      (loupeQuad 0) 1 = none := by decide +kernel

/-- A session of the nonsecure world with a scope, on core 0 as `c` says; `i` is selected. -/
def dbg (scope : BitVec 4) (i : BitVec 8) (c : Core := {}) (x : Tap := {}) : State :=
  { at0 c with tap := { x with instr := i, sessions := [(0, some ⟨1, scope, none, 5⟩)] } }

theorem test_tap :
    (after .idcode (dbg 0 0)).tap.data = 0x1A2167AB ∧ (after (.extest [true]) (dbg 0 0)).tap.cells = [true] ∧
    (after (.ijtagAccess false) (dbg 4 0)).tap.instr = 0x20 ∧ (after (.ijtagAccess false) (dbg 3 0)).tap.instr = 0xFF ∧
    (after (.coreDebug false) (dbg 1 0)).tap.instr = 0x10 ∧ (after (.coreDebug true) (dbg 1 0)).tap.instr = 0xFF := by
  decide +kernel

/-- Core 0 halted by debug in the nonsecure world, with values. -/
def rests : Core := { halts := [.debug], status := 0, pc := 0x1000, g := gs [7] }

/-- A session that reaches secure cores, core 0 halted; memory operations at `a`. -/
def dbgMem (a : Nat) (got : SMap (Option Ans) := []) : State :=
  dbg 2 0x10 { rests with status := 7, got := got } { addr := [(0, BitVec.ofNat 64 a)] }

theorem test_debug :
    ((after (.dbgHalt false 0) (dbg 1 0x10 { status := 0 })).core 0).halts = [.debug] ∧
    (after (.dbgRdreg false 0 1) (dbg 1 0x10 rests)).tap.data = 7 ∧
    (after (.dbgRdreg false 0 32) (dbg 1 0x10 rests)).tap.data = 0x1000 ∧
    (after (.dbgRdreg false 0 34) (dbg 1 0x10 rests)).tap.result = 1 ∧
    (after (.dbgRdreg false 0 1) (dbg 1 0x10 { status := 0 })).tap.result = 2 ∧
    (after (.dbgRdreg false 0 1) (dbg 1 0x10 { status := 7 })).tap.result = 1 ∧
    ((after (.dbgWrreg false 0 32 0x1003) (dbg 1 0x10 rests)).core 0).pc = 0x1000 ∧
    ((after (.dbgStep false 0) (dbg 1 0x10 rests)).core 0).step = true ∧
    (after (.dbgRdmem false 0) (dbgMem 0x1008 [(0x40, some (.data (0x55 * 2 ^ 64) false))])).tap.data = 0x55 ∧
    (after (.dbgWrmem false 0 9) (dbgMem 0x1008)).tap.result = 4 := by decide +kernel

/-- Witness of DebugResults: a core that the session reaches and one that it does not, running and halted. -/
theorem witness_debug :
    (dbg 1 0x10 rests).dbgAllowed false 0 = true ∧ (dbg 1 0x10 { status := 7 }).dbgAllowed false 0 = false ∧
    (dbg 1 0x10 rests).dbgAllowed true 0 = false ∧ (dbg 1 0xFF rests).tap.instr ≠ 0x10 ∧
    ((dbg 1 0x10 { status := 0 }).core 0).halts = [] ∧ ((dbg 1 0x10 rests).core 0).halts = [.debug] ∧
    ((dbg 1 0x10 rests).core 0).access = none ∧ ((dbg 1 0x10 rests).core 0).step = false ∧
    (dbg 1 0x10 rests { halted := [(false, 0)] }).tap.halted = [(false, 0)] ∧
    (dbg 1 0x10 rests).tap.halted = [] := by decide +kernel

/-- Witness of DebugResults: a load whose line has come, a store that starts and one that has drained. -/
theorem witness_debug_memory :
    (((dbgMem 0x1008 [(0x40, some (.data 5 false))]).asker 0).any fun k =>
      match (dbgMem 0x1008 [(0x40, some (.data 5 false))]).halves k .load
        ((dbgMem 0x1008 [(0x40, some (.data 5 false))]).dbgAddr 0) 8 with
      | .ok (p :: _) _ u => SMap.get none (u.core 0).got (p.pa / 64) == some (.data 5 false)
      | _ => false) = true ∧
    ((dbgMem 0x1008).core 0).sb = [] ∧ (dbgMem 0x1008).tap.store = none ∧
    (((dbgMem 0x1008).asker 0).any fun k => match (dbgMem 0x1008).halves k .store ((dbgMem 0x1008).dbgAddr 0) 8 with
      | .ok _ _ u => (u.core 0).sb == []
      | _ => false) = true ∧
    (dbg 1 0x10 rests { store := some (0, 0) }).tap.store = some (0, 0) := by decide +kernel

/-! The machine as a whole. -/

/-- A queue of two commands. -/
def awaiting : State := { State.reset with pending := [.dlUp, .release] }

theorem test_queue :
    (match step awaiting with | .next t => t.pending == [.release] && t.tb == 0 | _ => false) = true ∧
    (match step State.reset with | .next t => t.pending == [] && t.tb == 1 && t.cores == [] | _ => false) = true := by decide +kernel

/-- Witness of StepRunsFront and EmptyQueueTicks. -/
theorem witness_queue_of_commands : awaiting.pending = .dlUp :: [.release] ∧ State.reset.pending = [] := by decide +kernel

/-- A package with a byte in memory and a store issued to HBM. -/
def stored0 : State := { mc0 { writes := [{ line := 16, data := 0x1122 }] } with
  mem := [(0x400, 5)], pending := [.mcWriteIssue 0 0] }

theorem test_canonical :
    Safety.MemWf stored0 ∧ (match step stored0 with | .next t => t.mem == [(0x400, 0x22), (0x401, 0x11)] | _ => false)
      = true := by
  refine ⟨?_, ?_⟩
  · unfold Safety.MemWf; decide +kernel
  · decide +kernel

/-- Witness of MemoryStaysCanonical, CommandsLeaveTheQueue and TimeNeverTurnsBack: steps that store, that leave
a queue behind them, and that turn time on. -/
theorem witness_steps :
    (match step stored0 with | .next _ => true | _ => false) = true ∧
    (match exec .dlUp (awaiting.withPending [.release]) with | .next t => t.pending == [.release] | _ => false) = true ∧
    islandPower (.reflSlot 64000) = false ∧
    (match exec (.reflSlot 64000) State.reset with | .next t => t.tb == 64000 | _ => false) = true ∧
    islandPower .vauxLoss = true ∧ islandPower (.supplyReset 5 0) = true ∧ islandPower (.supplyReset 4 0) = false := by
  decide +kernel

/-- Regions of MC0 by place, first and last granule. -/
def regions (l : List (Nat × Nat × Nat)) : State :=
  withCp (l.flatMap fun x => let a := cpAddr (mcStation 0) (0x1000 + 16 * x.1)
    [(a, 0x107D), (a + 4, 5), (a + 8, BitVec.ofNat 32 x.2.1), (a + 12, BitVec.ofNat 32 x.2.2)])

/-- Witness of PastureChecks: in the region at both its ends, past them, in two regions at once, for another
partition's PID where the region names all, and for a permission that it does not grant. -/
theorem witness_pasture :
    (regions [(31, 2, 3)]).pasture (mcStation 0) 32 0x2000 true 5 .w = true ∧
    (regions [(31, 2, 3)]).pasture (mcStation 0) 32 0x3FFF true 5 .w = true ∧
    (regions [(31, 2, 3)]).pasture (mcStation 0) 32 0x1FFF true 5 .w = false ∧
    (regions [(31, 2, 3)]).pasture (mcStation 0) 32 0x4000 true 5 .w = false ∧
    (regions [(0, 2, 3), (1, 3, 4)]).pasture (mcStation 0) 32 0x3000 true 5 .w = false ∧
    (regions [(0, 2, 3), (1, 3, 4)]).pasture (mcStation 0) 32 0x2000 true 5 .w = true ∧
    (regions [(0, 2, 3)]).pasture (mcStation 0) 32 0x2000 true 9 .w = true ∧
    (regions [(0, 2, 3)]).pasture (mcStation 0) 32 0x2000 true 5 .r = false := by decide +kernel

/-! Well-formedness: each check accepts one command and refuses an ill-formed one. -/

/-- A message of home H0 with a kind, data and low address bits. -/
def wfMsg (k : MsgKind) (a : Nat := 0) (data : Option Line := none) (p : Bool := false) : Msg :=
  { kind := k, dest := 0, src := 0, addr := BitVec.ofNat 48 a, data := data, poisoned := p }

theorem smoke_messages :
    (Instr.rdShared (wfMsg .rdShared)).wellFormed = true ∧ (Instr.rdShared (wfMsg .rdUnique)).wellFormed = false ∧
    (Instr.writeBack (wfMsg .writeBack 0 (some 1))).wellFormed = true ∧
    (Instr.writeBack (wfMsg .writeBack)).wellFormed = false ∧
    (Instr.writeBack (wfMsg .writeBack 0 none true)).wellFormed = true ∧
    (Instr.cmoZero (wfMsg .cmo 3)).wellFormed = true ∧ (Instr.cmoZero (wfMsg .cmo 2)).wellFormed = false ∧
    (Instr.cmoClean (wfMsg .evict 0)).wellFormed = false := by decide +kernel

theorem smoke_frames_and_units :
    (Instr.ringRead { op := 1 }).wellFormed = true ∧ (Instr.ringRead { op := 2 }).wellFormed = false ∧
    (Instr.report { op := 11 }).wellFormed = true ∧ (Instr.reportSlot { op := 11 }).wellFormed = false ∧
    (Instr.hb { code := 0 }).wellFormed = true ∧ (Instr.mirLine { code := 2 }).wellFormed = false ∧
    (Instr.laserSample 0 0 (powers 0)).wellFormed = true ∧ (Instr.laserSample 0 0 [0]).wellFormed = false := by
  decide +kernel

theorem smoke_commands :
    (Instr.queueReset (mReq 0x0323)).wellFormed = true ∧ (Instr.queueReset (mReq 0x0021)).wellFormed = false ∧
    (Instr.cpWrite (mReq 0x0B01)).wellFormed = true ∧ (Instr.cpWrite (mReq 0x0B00)).wellFormed = false ∧
    (Instr.badOpcode (mReq 0x0021)).wellFormed = true ∧ (Instr.badOpcode (mReq 0x0323)).wellFormed = false := by
  decide +kernel

theorem smoke_host_requests :
    (Instr.configRequest (cfgReq false 4)).wellFormed = true ∧
    (Instr.configRequest { cfgReq false 4 with bytes := 8 }).wellFormed = false ∧
    (Instr.memoryRead (inReq 0 4096)).wellFormed = true ∧ (Instr.memoryRead (inReq 0 4097)).wellFormed = false ∧
    (Instr.memoryRead (inReq 0 4 [1])).wellFormed = false ∧ (Instr.memoryWrite (inReq 0 4 [1])).wellFormed = true ∧
    (Instr.memoryWrite (inReq 0 4)).wellFormed = false ∧
    (Instr.memoryWrite (inReq 0 4 (List.replicate 513 1))).wellFormed = false := by decide +kernel

/-- The word of ADDI g3, g1, 5, and two words that spell no instruction. -/
theorem smoke_words :
    (Instr.illegalEncoding 0 0).wellFormed = true ∧ (Instr.illegalEncoding 0 0x0400000E).wellFormed = true ∧
    (Instr.illegalEncoding 0 0x0C610005).wellFormed = false := by
  decide +kernel

end Sys2Proof.Tests
end

