-- ==== Sys2Proof/Proofs/Fields.lean ====
section
/-! SUPPORT. Fields of registers, the registers' tables, and a write over the control plane (R8, R29). -/

namespace Sys2Proof.Machine

/-! Bit fields. -/

theorem getLsbD_setField {n : Nat} (v : BitVec n) (lo w x i : Nat) :
    (setField v lo w x).getLsbD i =
      if lo ≤ i ∧ i < lo + w then decide (i < n) && x.testBit (i - lo) else v.getLsbD i := by
  have hm : ((2 ^ w - 1) <<< lo).testBit i = decide (lo ≤ i ∧ i < lo + w) := by
    rw [Nat.testBit_shiftLeft, Nat.testBit_two_pow_sub_one]
    by_cases h : lo ≤ i <;> simp [h]
    omega
  have hx : ((x % 2 ^ w) <<< lo).testBit i = (decide (lo ≤ i ∧ i < lo + w) && x.testBit (i - lo)) := by
    rw [Nat.testBit_shiftLeft, Nat.testBit_mod_two_pow]
    by_cases h : lo ≤ i
    · have : i - lo < w ↔ i < lo + w := by omega
      simp [h, this]
    · simp [h]
  simp only [setField, BitVec.getLsbD_or, BitVec.getLsbD_and, BitVec.getLsbD_not, BitVec.getLsbD_ofNat,
    hm, hx]
  by_cases hi : i < n
  · by_cases h : lo ≤ i ∧ i < lo + w <;> simp [hi, h]
  · have : v.getLsbD i = false := BitVec.getLsbD_of_ge _ _ (by omega)
    simp [hi, this]

/-- A field just replaced reads as its new value. -/
theorem field_setField_self {n : Nat} (v : BitVec n) {lo w : Nat} (x : Nat) (h : lo + w ≤ n) :
    field (setField v lo w x) lo w = x % 2 ^ w := by
  have key : (setField v lo w x).extractLsb' lo w = BitVec.ofNat w x := by
    apply BitVec.eq_of_getLsbD_eq
    intro i hi
    simp only [BitVec.getLsbD_extractLsb', getLsbD_setField, BitVec.getLsbD_ofNat, hi]
    have : lo + i < n := by omega
    simp [this, hi]
  rw [field, key, BitVec.toNat_ofNat]

/-- A field apart from the one replaced reads as before. -/
theorem field_setField_of_disjoint {n : Nat} (v : BitVec n) {lo w lo' w' : Nat} (x : Nat)
    (h : lo' + w' ≤ lo ∨ lo + w ≤ lo') : field (setField v lo w x) lo' w' = field v lo' w' := by
  have key : (setField v lo w x).extractLsb' lo' w' = v.extractLsb' lo' w' := by
    apply BitVec.eq_of_getLsbD_eq
    intro i hi
    simp only [BitVec.getLsbD_extractLsb', getLsbD_setField, hi]
    rw [if_neg (by omega)]
  rw [field, key, field]

theorem field_lt {n : Nat} (v : BitVec n) (lo w : Nat) : field v lo w < 2 ^ w := BitVec.isLt _

theorem field_one {n : Nat} (v : BitVec n) (i : Nat) : field v i 1 = b2n (bit v i) := by
  have h : v.extractLsb' i 1 = BitVec.ofBool (v.getLsbD i) := by
    apply BitVec.eq_of_getLsbD_eq
    intro j hj
    obtain rfl : j = 0 := by omega
    simp
  rw [field, h, bit, b2n, BitVec.toNat_ofBool]
  cases v.getLsbD i <;> rfl

/-! Registers as stored. -/

@[simp] theorem State.cpGet_cpSet_self (s : State) (a : Nat) (v : Word32) : (s.cpSet a v).cpGet a = v :=
  SMap.get_set_self ..

theorem State.cpGet_cpSet_of_ne (s : State) {a b : Nat} (v : Word32) (h : b ≠ a) :
    (s.cpSet a v).cpGet b = s.cpGet b := by
  unfold State.cpSet State.cpGet
  show SMap.get (cpReset b) (SMap.set (cpReset a) s.cp a v) b = _
  unfold SMap.set
  split
  · exact SMap.get_erase_of_ne _ _ h
  · exact SMap.get_insert_of_ne _ _ _ h

theorem State.cpField_cpSet_self (s : State) (a : Nat) (v : Word32) (lo w : Nat) :
    (s.cpSet a v).cpField a lo w = field v lo w := by rw [State.cpField, State.cpGet_cpSet_self]

theorem State.cpGet_cpSetField_of_ne (s : State) {a b : Nat} (lo w x : Nat) (h : b ≠ a) :
    (s.cpSetField a lo w x).cpGet b = s.cpGet b := State.cpGet_cpSet_of_ne _ _ h

theorem State.cpField_cpSetField_self (s : State) (a : Nat) {lo w : Nat} (x : Nat) (h : lo + w ≤ 32) :
    (s.cpSetField a lo w x).cpField a lo w = x % 2 ^ w := by
  rw [State.cpSetField, State.cpField_cpSet_self, field_setField_self _ _ h]

/-- Replacing a field of a register leaves every field apart from it, of whatever register. -/
theorem State.cpField_cpSetField_of_disjoint (s : State) (a b : Nat) {lo w lo' w' : Nat} (x : Nat)
    (h : lo' + w' ≤ lo ∨ lo + w ≤ lo') : (s.cpSetField a lo w x).cpField b lo' w' = s.cpField b lo' w' := by
  by_cases hb : b = a
  · subst hb
    rw [State.cpSetField, State.cpField_cpSet_self, field_setField_of_disjoint _ _ h, State.cpField]
  · rw [State.cpField, State.cpGet_cpSetField_of_ne _ _ _ _ hb, State.cpField]

theorem cpAddr_mod (st : Station) {off : Nat} (h : off < 2 ^ 20) : cpAddr st off % 2 ^ 20 = off := by
  unfold cpAddr; omega

/-! The fields of a register stand apart (Table SCOPE-4). -/

/-- The fields of a register ascend from bit `lo`, none meeting another, and fit its 32 bits. -/
def RegDesc.fits : Nat → RegDesc → Bool
  | lo, [] => decide (lo ≤ 32)
  | lo, f :: t => decide (lo ≤ f.lo) && RegDesc.fits (f.lo + f.w) t

theorem RegDesc.fits_cons {lo : Nat} {f : RegField} {t : RegDesc} :
    RegDesc.fits lo (f :: t) = true ↔ lo ≤ f.lo ∧ RegDesc.fits (f.lo + f.w) t = true := by
  simp [RegDesc.fits]

/-- Whatever register a table row gives, its fields fit. -/
def Fitting (o : Option RegDesc) : Bool := o.all (RegDesc.fits 0)

theorem fitting_orElse {o p : Option RegDesc} (ho : Fitting o = true) (hp : Fitting p = true) :
    Fitting (o <|> p) = true := by
  cases o with
  | none => exact hp
  | some d => exact ho

theorem fitting_ite {P : Prop} [Decidable P] {o p : Option RegDesc} (ho : Fitting o = true)
    (hp : Fitting p = true) : Fitting (if P then o else p) = true := by
  split
  · exact ho
  · exact hp

theorem mem_of_inTable {t : List (Nat × RegDesc)} {off : Nat} {d : RegDesc} (h : inTable t off = some d) :
    (off, d) ∈ t := by
  obtain ⟨r, hr, rfl⟩ := Option.map_eq_some_iff.1 h
  have hoff := List.find?_some hr
  simp only [decide_eq_true_eq] at hoff
  subst hoff
  exact List.mem_of_find?_eq_some hr

theorem fitting_inTable {t : List (Nat × RegDesc)} (h : t.all (fun r => r.2.fits 0) = true) (off : Nat) :
    Fitting (inTable t off) = true := by
  cases hd : inTable t off with
  | none => rfl
  | some d => exact List.all_eq_true.1 h _ (mem_of_inTable hd)

theorem fitting_pastureReg (n off : Nat) : Fitting (pastureReg n off) = true := by
  unfold pastureReg
  repeat' apply fitting_ite
  any_goals rfl
  split <;> rfl

theorem fitting_mcKeepReg (off : Nat) : Fitting (mcKeepReg off) = true := by
  unfold mcKeepReg
  repeat' apply fitting_ite
  all_goals rfl

theorem fitting_routerCount (off : Nat) : Fitting (routerCount off) = true := by
  unfold routerCount
  repeat' apply fitting_ite
  all_goals rfl

theorem fitting_intdOwnerReg (off : Nat) : Fitting (intdOwnerReg off) = true := by
  unfold intdOwnerReg
  repeat' apply fitting_ite
  all_goals rfl

theorem fitting_pclassReg (off : Nat) : Fitting (pclassReg off) = true := by
  unfold pclassReg
  repeat' apply fitting_ite
  all_goals rfl

theorem fitting_regulatorReg (base n off : Nat) : Fitting (regulatorReg base n off) = true := by
  unfold regulatorReg
  repeat' apply fitting_ite
  all_goals rfl

theorem fitting_regBlock (off : Nat) : Fitting (regBlock off) = true := by
  unfold regBlock
  extract_lets
  repeat' apply fitting_ite
  all_goals rfl

theorem fitting_fuseReg (off : Nat) : Fitting (fuseReg off) = true := by
  unfold fuseReg
  extract_lets
  repeat' apply fitting_ite
  all_goals rfl

theorem fitting_detailReg (k : UnitKind) (off : Nat) : Fitting (detailReg k off) = true := by
  unfold detailReg
  extract_lets
  repeat' apply fitting_ite
  all_goals rfl

theorem fitting_mirRegs (off : Nat) : Fitting (mirRegs off) = true := by
  unfold mirRegs
  repeat' apply fitting_ite
  all_goals rfl

theorem fitting_prismReg (n : Nat) (hub : Bool) (off : Nat) : Fitting (prismReg n hub off) = true := by
  unfold prismReg
  repeat' apply fitting_ite
  any_goals rfl
  cases hub <;> rfl

theorem fitting_portARegs (off : Nat) : Fitting (portARegs off) = true := by
  unfold portARegs
  repeat' apply fitting_ite
  all_goals rfl

theorem fitting_foldRegs (off : Nat) : Fitting (foldRegs off) = true := by
  unfold foldRegs
  repeat' apply fitting_ite
  any_goals rfl
  split <;> rfl

theorem fitting_fcRegs (off : Nat) : Fitting (fcRegs off) = true := by
  unfold fcRegs
  extract_lets
  repeat' apply fitting_ite
  all_goals rfl

theorem fitting_loupeRegs (k off : Nat) : Fitting (inTable (loupeRegs k) off) = true := by
  refine fitting_inTable ?_ off
  unfold loupeRegs; split_ifs <;> rfl

theorem fitting_ownerReg (ep : Bool) : Fitting (some (ownerReg ep)) = true := by cases ep <;> rfl

theorem fitting_unitReg (site : Nat) (k : UnitKind) (off : Nat) : Fitting (unitReg site k off) = true := by
  cases k with
  | slot => rfl
  | bank => rfl
  | intd => exact fitting_intdOwnerReg off
  | diePort => exact fitting_prismReg _ _ off
  | dcs =>
    exact fitting_orElse (fitting_inTable (by decide) off) (fitting_orElse (fitting_pastureReg _ off)
      (fitting_orElse (fitting_regulatorReg _ _ off) (fitting_pclassReg off)))
  | home => exact fitting_inTable (by decide) off
  | mc =>
    exact fitting_orElse (fitting_inTable (by decide) off)
      (fitting_orElse (fitting_mcKeepReg off) (fitting_pastureReg _ off))
  | fold =>
    exact fitting_orElse (fitting_foldRegs off) (fitting_orElse (fitting_regulatorReg _ _ off)
      (fitting_ite (fitting_ownerReg _) rfl))
  | portA =>
    exact fitting_orElse (fitting_portARegs off)
      (fitting_orElse (fitting_regulatorReg _ _ off) (fitting_pastureReg _ off))
  | mirror => exact fitting_mirRegs off
  | ce =>
    exact fitting_orElse (fitting_ite (fitting_ownerReg _) rfl)
      (fitting_orElse (fitting_regulatorReg _ _ off) (fitting_pastureReg _ off))
  | shepherd =>
    exact fitting_orElse (fitting_regBlock off) (fitting_orElse (fitting_fuseReg off)
      (fitting_orElse (fitting_inTable (by decide) off) (fitting_orElse (fitting_inTable (by decide) off)
        (fitting_orElse (fitting_fcRegs off) (fitting_ite (fitting_ownerReg _) rfl)))))
  | loupe k => exact fitting_orElse (fitting_loupeRegs k off) (fitting_ite (fitting_ownerReg _) rfl)
  | hubPort => exact fitting_prismReg _ _ off
  | router => exact fitting_orElse (fitting_inTable (by decide) off) (fitting_routerCount off)

theorem fitting_commonRegs (st off : Nat) : Fitting (inTable (commonRegs st) off) = true :=
  fitting_inTable rfl off

/-- The fields of every register stand apart. -/
theorem regDesc_fits {a : Nat} {d : RegDesc} (h : regDesc a = some d) : d.fits 0 = true := by
  have hall : Fitting (regDesc a) = true := by
    unfold regDesc
    dsimp only
    split
    · rfl
    · exact fitting_orElse (fitting_commonRegs _ _)
        (fitting_orElse (fitting_detailReg _ _) (fitting_unitReg _ _ _))
  rwa [h] at hall

/-! What a write leaves in a register (R8). -/

/-- One field's part of a write. -/
def RegField.write (f : RegField) (commit : Bool) (v w : Word32) : Word32 :=
  RegDesc.write [f] commit w v

theorem RegDesc.write_cons (f : RegField) (t : RegDesc) (commit : Bool) (old v : Word32) :
    RegDesc.write (f :: t) commit old v = RegDesc.write t commit (f.write commit v old) v := rfl

theorem RegField.field_write_of_disjoint (f : RegField) (commit : Bool) (v w : Word32) {lo n : Nat}
    (h : lo + n ≤ f.lo ∨ f.lo + f.w ≤ lo) : field (f.write commit v w) lo n = field w lo n := by
  unfold RegField.write RegDesc.write
  simp only [List.foldl_cons, List.foldl_nil]
  cases f.ty <;> dsimp only
  case rw => exact field_setField_of_disjoint _ _ h
  case rwl => split; exacts [field_setField_of_disjoint _ _ h, rfl]
  case w1c => split; exacts [field_setField_of_disjoint _ _ h, rfl]
  case w1s => split; exacts [field_setField_of_disjoint _ _ h, rfl]

theorem RegField.write_rw {f : RegField} (h : f.ty = .rw) (commit : Bool) (v w : Word32) :
    f.write commit v w = setField w f.lo f.w (field v f.lo f.w) := by
  simp [RegField.write, RegDesc.write, h]

theorem RegField.write_rwl {f : RegField} (h : f.ty = .rwl) (v w : Word32) : f.write false v w = w := by
  simp [RegField.write, RegDesc.write, h]

/-- A write leaves the bits below the fields. -/
theorem RegDesc.field_write_below {d : RegDesc} {lo : Nat} (hd : d.fits lo = true) (commit : Bool)
    (old v : Word32) {l n : Nat} (h : l + n ≤ lo) : field (d.write commit old v) l n = field old l n := by
  induction d generalizing lo old with
  | nil => rfl
  | cons f t ih =>
    obtain ⟨hlo, ht⟩ := RegDesc.fits_cons.1 hd
    rw [RegDesc.write_cons, ih ht _ (by omega), RegField.field_write_of_disjoint _ _ _ _ (by omega)]

theorem RegDesc.fits_le {d : RegDesc} {lo : Nat} (hd : d.fits lo = true) : lo ≤ 32 := by
  induction d generalizing lo with
  | nil => simpa [RegDesc.fits] using hd
  | cons f t ih =>
    obtain ⟨hlo, ht⟩ := RegDesc.fits_cons.1 hd
    have := ih ht
    omega

theorem RegDesc.le_of_mem {d : RegDesc} {lo : Nat} (hd : d.fits lo = true) {f : RegField} (hf : f ∈ d) :
    lo ≤ f.lo := by
  induction d generalizing lo with
  | nil => cases hf
  | cons g t ih =>
    obtain ⟨hlo, ht⟩ := RegDesc.fits_cons.1 hd
    rcases List.mem_cons.1 hf with rfl | hf
    · exact hlo
    · have := ih ht hf
      omega

/-- A direct write gives an RW field its bits of the value and leaves an RWL field. -/
theorem RegDesc.field_write {d : RegDesc} {lo : Nat} (hd : d.fits lo = true) (old v : Word32) {f : RegField}
    (hf : f ∈ d) :
    (f.ty = .rw → field (d.write false old v) f.lo f.w = field v f.lo f.w) ∧
    (f.ty = .rwl → field (d.write false old v) f.lo f.w = field old f.lo f.w) := by
  induction d generalizing lo old with
  | nil => cases hf
  | cons g t ih =>
    obtain ⟨-, ht⟩ := RegDesc.fits_cons.1 hd
    rw [RegDesc.write_cons]
    rcases List.mem_cons.1 hf with rfl | hf
    · rw [RegDesc.field_write_below ht _ _ _ (le_refl _)]
      refine ⟨fun h => ?_, fun h => ?_⟩
      · rw [RegField.write_rw h, field_setField_self _ _ (RegDesc.fits_le ht),
          Nat.mod_eq_of_lt (field_lt _ _ _)]
      · rw [RegField.write_rwl h]
    · refine ⟨(ih ht _ hf).1, fun h => ((ih ht _ hf).2 h).trans ?_⟩
      exact RegField.field_write_of_disjoint _ _ _ _ (Or.inr (RegDesc.le_of_mem ht hf))

end Sys2Proof.Machine

end

