-- ==== Sys2Proof/Proofs/Actions.lean ====
section
/-! SUPPORT. What a direct write does beside its fields leaves the register's RW and RWL fields (R8). -/

namespace Sys2Proof.Machine

/-! Reports and link changes leave PRISM_CTL, at 0x00C of its station. -/

@[simp] theorem State.orFree_cpGet (s : State) (w : Nat) (o : Option Nat) (a : Nat) :
    (s.orFree w o).2.cpGet a = s.cpGet a := by cases o <;> rfl

theorem State.cpGet_cpSet64_of_ne (s : State) {a b : Nat} (v : Word) (h : b ≠ a) (h' : b ≠ a + 4) :
    (s.cpSet64 a v).cpGet b = s.cpGet b := by
  rw [State.cpSet64, State.cpGet_cpSet_of_ne _ _ h', State.cpGet_cpSet_of_ne _ _ h]

theorem cpAddr_add (st : Station) (off k : Nat) : cpAddr st off + k = cpAddr st (off + k) := Nat.add_assoc ..

/-- The words of a station from `off` on are no register whose offset is below it. -/
theorem ne_cpAddr_add (st : Station) {a off k : Nat} (ha : a % 2 ^ 20 < off) (hk : off + k < 2 ^ 20) :
    a ≠ cpAddr st off + k := by
  intro h
  rw [h, cpAddr_add, cpAddr_mod _ hk] at ha
  exact absurd ha (by omega)

theorem State.cpGet_reports (s : State) (l : List Frame) (m : SMap Bool) (a : Nat) :
    ({ s with reports := l, slotCrit := m } : State).cpGet a = s.cpGet a := rfl

/-- A report changes its station's detail slot alone. -/
theorem State.report_cpGet (s : State) (st : Station) {cls : Nat} (source loc : Nat) (d0 d1 : Option Nat)
    (crit : Bool) {a : Nat} (hc : cls < 0x100) (ha : a % 2 ^ 20 < 0xF8000) :
    (s.report st cls source loc d0 d1 crit).cpGet a = s.cpGet a := by
  unfold State.report
  extract_lets b
  have hb : ∀ k < 32, a ≠ b + k := fun k hk => ne_cpAddr_add st (by omega) (by omega)
  clear_value b
  split
  · exact State.cpGet_cpSetField_of_ne _ _ _ _ (hb 0 (by omega))
  · split
    next x0 s1 e1 =>
    split
    next x1 s2 e2 =>
    extract_lets s3 s4 s5 s6 s7
    have h1 : s1.cpGet a = s.cpGet a := by rw [← State.orFree_cpGet s 64 d0 a, e1]
    have h2 : s2.cpGet a = s1.cpGet a := by rw [← State.orFree_cpGet s1 32 d1 a, e2]
    have h3 : s3.cpGet a = s2.cpGet a := State.cpGet_cpSet_of_ne _ _ (hb 0 (by omega))
    have h4 : s4.cpGet a = s3.cpGet a :=
      State.cpGet_cpSet64_of_ne _ _ (hb 4 (by omega)) (hb 8 (by omega))
    have h5 : s5.cpGet a = s4.cpGet a :=
      State.cpGet_cpSet64_of_ne _ _ (hb 12 (by omega)) (hb 16 (by omega))
    have h6 : s6.cpGet a = s5.cpGet a := State.cpGet_cpSet_of_ne _ _ (hb 20 (by omega))
    have h7 : s7.cpGet a = s6.cpGet a :=
      State.cpGet_cpSet64_of_ne _ _ (hb 24 (by omega)) (hb 28 (by omega))
    clear_value s3 s4 s5 s6 s7
    rw [State.cpGet_reports]
    exact ((((((h7.trans h6).trans h5).trans h4).trans h3).trans h2).trans h1)

@[simp] theorem State.modPort_cpGet (s : State) (p : PortId) (f : Port → Port) (a : Nat) :
    (s.modPort p f).cpGet a = s.cpGet a := rfl

@[simp] theorem State.sendCtl_cpGet (s : State) (p : PortId) (u : LinkCtl) (a : Nat) :
    (s.sendCtl p u).cpGet a = s.cpGet a := rfl

/-- The link state of a port stands at another offset than its PRISM_CTL. -/
theorem ne_portAddr_zero {a : Nat} (ha : a % 2 ^ 20 = 0xC) (p : PortId) : a ≠ portAddr p 0 := by
  intro h
  rw [h, portAddr, cpAddr_mod _ (by omega)] at ha
  omega

section
variable {a : Nat} (ha : a % 2 ^ 20 = 0xC)
include ha

theorem State.linkLost_cpGet (s : State) (p : PortId) : (s.linkLost p).cpGet a = s.cpGet a := by
  unfold State.linkLost
  split
  · rw [State.report_cpGet _ _ _ _ _ _ _ (by omega) (by omega), State.setPortState,
      State.cpGet_cpSetField_of_ne _ _ _ _ (ne_portAddr_zero ha _), State.setPortState,
      State.cpGet_cpSetField_of_ne _ _ _ _ (ne_portAddr_zero ha _)]
  · rfl

theorem State.swapping_cpGet (s : State) (p : PortId) (b : Bool) : (s.swapping p b).cpGet a = s.cpGet a := by
  rw [State.swapping, State.cpGet_cpSetField_of_ne _ _ _ _ (ne_portAddr_zero ha _),
    State.cpGet_cpSetField_of_ne _ _ _ _ (ne_portAddr_zero ha _)]

theorem State.beginLaneSwap_cpGet (s : State) (p : PortId) (lane : Nat) (down : Bool) :
    (s.beginLaneSwap p lane down).cpGet a = s.cpGet a := by
  unfold State.beginLaneSwap
  split
  · split
    · exact State.linkLost_cpGet ha s p
    · exact State.report_cpGet _ _ _ _ _ _ _ (by omega) (by omega)
  · rw [State.sendCtl_cpGet, State.swapping_cpGet ha, State.modPort_cpGet]

theorem State.startSwap_cpGet (s : State) (p : PortId) (lane : Nat) (down : Bool) :
    (s.startSwap p lane down).cpGet a = s.cpGet a := by
  unfold State.startSwap
  extract_lets x
  split_ifs
  · rfl
  · rfl
  · exact State.report_cpGet _ _ _ _ _ _ _ (by omega) (by omega)
  · exact State.beginLaneSwap_cpGet ha s p lane down

theorem State.takeSwaps_cpGet (n : Nat) (s : State) (p : PortId) :
    (State.takeSwaps n s p).cpGet a = s.cpGet a := by
  induction n generalizing s with
  | zero => rfl
  | succ n ih =>
    unfold State.takeSwaps
    split
    · rfl
    · dsimp only
      split
      · rw [State.startSwap_cpGet ha, State.modPort_cpGet]
      · rw [ih, State.startSwap_cpGet ha, State.modPort_cpGet]

theorem State.widenNext_cpGet (s : State) (p : PortId) : (s.widenNext p).cpGet a = s.cpGet a := by
  unfold State.widenNext
  split
  · exact State.beginLaneSwap_cpGet ha s p _ _
  · rfl

theorem State.beginChange_cpGet (s : State) (d : Die) (b : Bool) :
    (s.beginChange d b).cpGet a = s.cpGet a := by
  have hshort : ∀ (l : List PortId) (t : State),
      (l.foldl (fun s p => s.report (portStation p) 0x21 (portStation p).toNat) t).cpGet a = t.cpGet a := by
    intro l
    induction l with
    | nil => exact fun _ => rfl
    | cons p l ih => exact fun t => (ih _).trans (State.report_cpGet _ _ _ _ _ _ _ (by omega) (by omega))
  unfold State.beginChange
  extract_lets hub die both s' short
  have hboth : ∀ (f : Port → Port) (t : State), (both f t).cpGet a = t.cpGet a := fun _ _ => rfl
  have hs' : s'.cpGet a = s.cpGet a := rfl
  clear_value both s'
  split_ifs
  · rw [hboth, hs']
  · rw [State.sendCtl_cpGet, hboth, hs']
  · rw [State.widenNext_cpGet ha, State.widenNext_cpGet ha, hboth, hs']
  · rw [hshort, hboth, hs']

theorem State.settleLink_cpGet (s : State) (d : Die) : (s.settleLink d).cpGet a = s.cpGet a := by
  have hgo : ∀ (t : State) (p : PortId),
      (if (t.port p).swap.isNone && (t.port p).change.isNone then t.nextSwap p else t).cpGet a =
        t.cpGet a := by
    intro t p
    split
    · exact State.takeSwaps_cpGet ha _ t p
    · rfl
  unfold State.settleLink
  extract_lets s' go
  have hs' : s'.cpGet a = s.cpGet a := by
    unfold s'
    split
    · split
      · exact State.beginChange_cpGet ha s d _
      · rfl
    · rfl
  rw [← hs']
  exact (hgo _ _).trans (hgo _ _)

end

/-- PRISM_CTL.NARROW takes the bit written. -/
theorem State.cpField_setNarrow (s : State) (d : Die) (b : Bool) :
    (s.setNarrow d b).cpField (portAddr ⟨d, true⟩ 0xC) 0 1 = b2n b := by
  have hb : b2n b % 2 ^ 1 = b2n b := by cases b <;> rfl
  have hset := State.cpField_cpSetField_self s (portAddr ⟨d, true⟩ 0xC) (lo := 0) (w := 1) (b2n b) (by omega)
  unfold State.setNarrow
  extract_lets p s'
  split
  · have ha : portAddr ⟨d, true⟩ 0xC % 2 ^ 20 = 0xC := cpAddr_mod _ (by omega)
    rw [State.cpField, State.settleLink_cpGet ha, State.modPort_cpGet]
    exact hset.trans hb
  · exact hset.trans hb

/-! The actions. -/

/-- The fields whose bits a direct write sets or leaves. -/
def RegField.isRw (f : RegField) : Bool := f.ty == .rw || f.ty == .rwl

/-- No field of a register is of type RW or RWL. -/
def RegDesc.noRw (d : RegDesc) : Bool := d.all fun f => !f.isRw

theorem not_isRw_of_noRw {d : RegDesc} (h : d.noRw = true) {f : RegField} (hf : f ∈ d) : f.isRw = false := by
  simpa using List.all_eq_true.1 h f hf

theorem inTable_none {t : List (Nat × RegDesc)} {n off : Nat} (h : t.all (fun r => decide (r.1 < n)) = true)
    (hn : n ≤ off) : inTable t off = none := by
  cases hd : inTable t off with
  | none => rfl
  | some d =>
    have := List.all_eq_true.1 h _ (mem_of_inTable hd)
    simp only [decide_eq_true_eq] at this
    omega

theorem inTable_none_below {t : List (Nat × RegDesc)} {n off : Nat}
    (h : t.all (fun r => decide (n ≤ r.1)) = true) (hn : off < n) : inTable t off = none := by
  cases hd : inTable t off with
  | none => rfl
  | some d =>
    have := List.all_eq_true.1 h _ (mem_of_inTable hd)
    simp only [decide_eq_true_eq] at this
    omega

theorem inTable_commonRegs_none (st : Nat) {off : Nat} (h : off < 0xFF000) :
    inTable (commonRegs st) off = none := inTable_none_below rfl h

theorem detailReg_none (k : UnitKind) {off : Nat} (h : off < 0xF8000) : detailReg k off = none := by
  unfold detailReg
  rw [if_neg (by simp; omega)]

/-- Below the detail slots and the common registers stand the unit's own. -/
theorem regDesc_unit {a : Nat} {k : UnitKind} (hk : unitKind (cpStation a) = some k)
    (h : a % 2 ^ 20 < 0xF8000) :
    regDesc a = unitReg ((cpStation a).toNat / 256) k (a % 2 ^ 20) := by
  unfold regDesc
  change (match unitKind (cpStation a) with | none => _ | some _ => _) = _
  rw [hk]
  dsimp only
  rw [inTable_commonRegs_none _ (by omega), detailReg_none _ h]
  rfl

theorem ite_none {P : Prop} [Decidable P] {o p : Option RegDesc} (hP : ¬ P) (hp : p = none) :
    (if P then o else p) = none := by rw [if_neg hP, hp]

theorem orElse_none {o p : Option RegDesc} (ho : o = none) (hp : p = none) : (o <|> p) = none := by
  rw [ho, hp]; rfl

theorem fuseReg_none {off : Nat} (h : 0x30124 ≤ off) : fuseReg off = none := by
  unfold fuseReg
  extract_lets o
  have ho : 0x124 ≤ o := by omega
  clear_value o
  split
  · rfl
  repeat' apply ite_none
  all_goals grind

theorem regBlock_none {off : Nat} (h : 0x61000 ≤ off) : regBlock off = none := by
  unfold regBlock
  extract_lets o
  exact if_pos (by grind)

theorem fcRegs_none {off : Nat} (h : 0x72000 ≤ off) : fcRegs off = none := by
  unfold fcRegs
  extract_lets o
  exact if_pos (by grind)

section
variable {off : Nat} (h : 0xF8000 ≤ off)
include h

theorem pastureReg_none {n : Nat} (hn : n ≤ 32) : pastureReg n off = none := by
  unfold pastureReg
  repeat' apply ite_none
  all_goals grind

theorem regulatorReg_none {base n : Nat} (hn : base + 8 * n ≤ 0xF8000) : regulatorReg base n off = none := by
  unfold regulatorReg
  exact ite_none (by grind) rfl

theorem prismReg_none (n : Nat) (hub : Bool) : prismReg n hub off = none := by
  unfold prismReg
  repeat' apply ite_none
  all_goals grind

theorem mirRegs_none : mirRegs off = none := by
  unfold mirRegs
  repeat' apply ite_none
  all_goals grind

theorem portARegs_none : portARegs off = none := by
  unfold portARegs
  repeat' apply ite_none
  all_goals grind

theorem foldRegs_none : foldRegs off = none := by
  unfold foldRegs
  repeat' apply ite_none
  all_goals grind

theorem intdOwnerReg_none : intdOwnerReg off = none := by
  unfold intdOwnerReg
  exact ite_none (by grind) rfl

theorem mcKeepReg_none : mcKeepReg off = none := by
  unfold mcKeepReg
  exact ite_none (by grind) rfl

theorem routerCount_none : routerCount off = none := by
  unfold routerCount
  exact ite_none (by grind) (ite_none (by grind) rfl)

theorem pclassReg_none : pclassReg off = none := by
  unfold pclassReg
  exact ite_none (by grind) (ite_none (by omega) rfl)

/-- The units' own registers stand below the detail slots. -/
theorem unitReg_none (site : Nat) (k : UnitKind) : unitReg site k off = none := by
  have hlow : ∀ {t : List (Nat × RegDesc)}, t.all (fun r => decide (r.1 < 0xF8000)) = true →
      inTable t off = none := fun ht => inTable_none ht h
  cases k with
  | slot => rfl
  | bank => rfl
  | intd => exact intdOwnerReg_none h
  | diePort => exact prismReg_none h _ _
  | dcs =>
    exact orElse_none (hlow (by decide)) (orElse_none (pastureReg_none h (by omega))
      (orElse_none (regulatorReg_none h (by omega)) (pclassReg_none h)))
  | home => exact hlow (by decide)
  | mc =>
    exact orElse_none (hlow (by decide)) (orElse_none (mcKeepReg_none h) (pastureReg_none h (by omega)))
  | fold =>
    exact orElse_none (foldRegs_none h) (orElse_none (regulatorReg_none h (by omega))
      (ite_none (by grind) rfl))
  | portA =>
    exact orElse_none (portARegs_none h) (orElse_none (regulatorReg_none h (by omega))
      (pastureReg_none h (by omega)))
  | mirror => exact mirRegs_none h
  | ce =>
    exact orElse_none (ite_none (by grind) rfl) (orElse_none (regulatorReg_none h (by omega))
      (pastureReg_none h (by omega)))
  | shepherd =>
    exact orElse_none (regBlock_none (by omega)) (orElse_none (fuseReg_none (by omega))
      (orElse_none (hlow (by decide)) (orElse_none (hlow (by decide))
        (orElse_none (fcRegs_none (by omega)) (ite_none (by grind) rfl)))))
  | loupe k =>
    refine orElse_none (hlow ?_) (ite_none (by grind) rfl)
    unfold loupeRegs; split_ifs <;> rfl
  | hubPort => exact prismReg_none h _ _
  | router => exact orElse_none (hlow (by decide)) (routerCount_none h)

end

/-! What a write does beside its fields leaves the RW and RWL ones. -/

theorem RegDesc.noRw_of_isCount {d : RegDesc} (h : d.isCount = true) : d.noRw = true := by
  unfold RegDesc.isCount at h
  split at h
  · rename_i c f
    simp only [Bool.and_eq_true, beq_iff_eq] at h
    obtain ⟨⟨⟨⟨⟨hc, hf⟩, -⟩, -⟩, -⟩, -⟩ := h
    simp [RegDesc.noRw, RegField.isRw, hc, hf]
  · cases h

theorem regDesc_detail_noRw {a : Nat} {d : RegDesc} (hd : regDesc a = some d)
    (h : 0xF8000 ≤ a % 2 ^ 20) (h' : a % 2 ^ 20 < 0xFA000) : d.noRw = true := by
  unfold regDesc at hd
  dsimp only at hd
  split at hd
  · cases hd
  · rename_i k hk
    rw [inTable_commonRegs_none _ (by omega), unitReg_none h] at hd
    have hdet : detailReg k (a % 2 ^ 20) = some d := by simpa using hd
    unfold detailReg at hdet
    extract_lets c at hdet
    split_ifs at hdet
    · cases hdet; rfl
    · cases hdet; rfl

/-- A write of SWAP changes the fields ACTIVE and BUSY alone. -/
theorem State.cpField_logSwap (s : State) (v b : Nat) {lo w : Nat} (h : lo + w ≤ 1 ∨ 4 ≤ lo) :
    (s.logSwap v).cpField b lo w = s.cpField b lo w := by
  unfold State.logSwap
  extract_lets a s'
  have hs' : s'.cpField b lo w = s.cpField b lo w := rfl
  split
  · rfl
  · rw [State.cpField_cpSetField_of_disjoint _ _ _ _ (by omega),
      State.cpField_cpSetField_of_disjoint _ _ _ _ (by omega), hs']

/-- A cross-fade changes SWITCHING of the laser's status alone. -/
theorem State.cpField_xfade (s : State) (b : Nat) {lo w : Nat} (h : lo + w ≤ 3 ∨ 4 ≤ lo) :
    s.xfade.cpField b lo w = s.cpField b lo w := by
  unfold State.xfade
  split
  · exact State.cpField_cpSetField_of_disjoint _ _ _ _ (by omega)
  · rfl

theorem regDesc_portFreeze {a : Nat} {d : RegDesc} (hk : unitKind (cpStation a) = some .portA)
    (ho : a % 2 ^ 20 = 0xC) (hd : regDesc a = some d) : d.noRw = true := by
  rw [regDesc_unit hk (by omega), ho] at hd
  cases hd; rfl

theorem regDesc_ctxpCmd {a : Nat} {d : RegDesc} (hk : unitKind (cpStation a) = some .fold)
    (ho : a % 2 ^ 20 = 0x60000) (hd : regDesc a = some d) : d.noRw = true := by
  rw [regDesc_unit hk (by omega), ho] at hd
  cases hd; rfl

theorem regDesc_laserCtl {a : Nat} {d : RegDesc} (hk : unitKind (cpStation a) = some .shepherd)
    (ho : a % 2 ^ 20 = 0x40004) (hd : regDesc a = some d) : d = [rwl 0 1 1, wo 1 1] := by
  rw [regDesc_unit hk (by omega), ho] at hd
  cases hd; rfl

theorem regDesc_hubCtl {a n : Nat} {d : RegDesc} (hk : unitKind (cpStation a) = some (.hubPort n))
    (ho : a % 2 ^ 20 = 0xC) (hd : regDesc a = some d) : d = [rw 0 1] := by
  rw [regDesc_unit hk (by omega), ho] at hd
  cases hd; rfl

theorem regDesc_logCtl {a : Nat} {d : RegDesc} (hk : unitKind (cpStation a) = some .fold)
    (h : 0x40020 ≤ a % 2 ^ 20) (h' : a % 2 ^ 20 < 0x40000 + 32 * 1025) (ho : a % 2 ^ 20 % 32 = 24)
    (hd : regDesc a = some d) : d = [rwl 0 1, ro 1 1, wo 2 1, ro 3 1, w1c 4, rwl 8 5] := by
  rw [regDesc_unit hk (by omega)] at hd
  generalize a % 2 ^ 20 = off at *
  have hfold : foldRegs off = some [rwl 0 1, ro 1 1, wo 2 1, ro 3 1, w1c 4, rwl 8 5] := by
    unfold foldRegs
    iterate 9 rw [if_neg (by grind)]
    rw [if_pos (by grind), ho]
    rfl
  unfold unitReg at hd
  dsimp only at hd
  rw [hfold] at hd
  exact (Option.some.inj hd).symm

theorem regDesc_rail {a : Nat} {d : RegDesc} (hk : unitKind (cpStation a) = some .shepherd)
    (h : 0x80010 ≤ a % 2 ^ 20) (h' : a % 2 ^ 20 < 0x80028) (hd : regDesc a = some d) : d.noRw = true := by
  rw [regDesc_unit hk (by omega)] at hd
  generalize a % 2 ^ 20 = off at *
  have hlaser : inTable laserRegs off = none := inTable_none (n := 0x50000) (by decide) (by omega)
  have hpower : inTable pwrRegs off = some d := by
    unfold unitReg at hd
    dsimp only at hd
    rw [regBlock_none (by omega), fuseReg_none (by omega), hlaser, fcRegs_none (by omega),
      if_neg (by grind)] at hd
    simpa using hd
  have hrows : pwrRegs.all (fun r => decide (0x80010 ≤ r.1 ∧ r.1 < 0x80028 → r.2.noRw = true)) = true := by
    decide
  exact of_decide_eq_true (List.all_eq_true.1 hrows _ (mem_of_inTable hpower)) ⟨h, h'⟩

/-- What a direct write does beside its fields leaves each RW and RWL field, but for PRISM_CTL of a hub
port, whose NARROW it sets. -/
theorem State.cpField_cpAction (s : State) {a : Nat} {d : RegDesc} (old v : Word32) {f : RegField}
    (hd : regDesc a = some d) (hf : f ∈ d) (hrw : f.isRw = true)
    (hctl : ∀ n, unitKind (cpStation a) = some (.hubPort n) → a % 2 ^ 20 ≠ 0xC) :
    (s.cpAction a d old v).cpField a f.lo f.w = s.cpField a f.lo f.w := by
  have hno : d.noRw ≠ true := fun h => by simp [not_isRw_of_noRw h hf] at hrw
  unfold State.cpAction
  extract_lets st off
  split
  · exact absurd (RegDesc.noRw_of_isCount ‹_›) hno
  split
  · rename_i h
    simp only [Bool.and_eq_true, decide_eq_true_eq] at h
    exact absurd (regDesc_detail_noRw hd h.1.1 h.1.2) hno
  split
  case h_1 => split; (split <;> rfl); rfl
  case h_2 => split <;> rfl
  case h_3 hk =>
    split
    · rename_i h
      simp only [Bool.and_eq_true, decide_eq_true_eq] at h
      exact absurd (regDesc_portFreeze hk h.1 hd) hno
    · rfl
  case h_4 n hk =>
    split
    · rw [if_neg (hctl n hk)]
    · rfl
  case h_5 hk =>
    split
    · rename_i h
      simp only [Bool.and_eq_true, decide_eq_true_eq] at h
      obtain ⟨⟨hlo, hhi⟩, hoff⟩ := h
      obtain rfl := regDesc_logCtl hk hlo hhi hoff hd
      split
      · have hrows : ∀ f ∈ [rwl 0 1, ro 1 1, wo 2 1, ro 3 1, w1c 4, rwl 8 5],
            f.isRw = true → f.lo + f.w ≤ 1 ∨ 4 ≤ f.lo := by decide
        exact State.cpField_logSwap _ _ _ (hrows f hf hrw)
      · rfl
    · split
      · exact absurd (regDesc_ctxpCmd hk ‹_› hd) hno
      · rfl
  case h_6 hk =>
    split
    · rename_i h
      simp only [Bool.and_eq_true, decide_eq_true_eq] at h
      exact absurd (regDesc_rail hk h.1.1 h.1.2 hd) hno
    · split
      · rename_i h
        simp only [Bool.and_eq_true, decide_eq_true_eq] at h
        obtain rfl := regDesc_laserCtl hk h.1 hd
        have hrows : ∀ f ∈ [rwl 0 1 1, wo 1 1], f.isRw = true → f.lo + f.w ≤ 3 ∨ 4 ≤ f.lo := by decide
        exact State.cpField_xfade _ _ (hrows f hf hrw)
      · rfl
  case h_7 => rfl

/-! Direct writes. -/

/-- No register of a Loupe's window. -/
theorem State.cpDirect_plain (s : State) {a : Nat} (d : RegDesc) (v : Word32)
    (h : ∀ k, unitKind (cpStation a) ≠ some (.loupe k)) :
    s.cpDirect a d v = (s.cpSet a (d.write false (s.cpGet a) v)).cpAction a d (s.cpGet a) v := by
  unfold State.cpDirect
  dsimp only
  split
  · exact absurd ‹_› (h _)
  · rfl

theorem State.cpWriteWord_none (s : State) {a : Nat} (v : Word32) (h : regDesc a = none) :
    s.cpWriteWord a v = (1, s) := by
  unfold State.cpWriteWord; rw [h]

theorem State.cpWriteWord_off (s : State) {a : Nat} {d : RegDesc} (v : Word32) (hd : regDesc a = some d)
    (h : s.isOff (cpStation a) = true) : s.cpWriteWord a v = (3, s) := by
  unfold State.cpWriteWord; rw [hd]; exact if_pos h

theorem State.cpWriteWord_on (s : State) {a : Nat} {d : RegDesc} (v : Word32) (hd : regDesc a = some d)
    (h : s.isOff (cpStation a) = false) :
    s.cpWriteWord a v = (if d.refuses (s.cpGet a) v then 2 else 0, s.cpDirect a d v) := by
  unfold State.cpWriteWord
  rw [hd]
  exact if_neg (by rw [h]; decide)

/-- A 32-bit address is the offset it holds in the station it names. -/
theorem cpAddr_cpStation {a : Nat} (h : a < 2 ^ 32) : cpAddr (cpStation a) (a % 2 ^ 20) = a := by
  rw [cpAddr, cpStation, BitVec.toNat_ofNat, Nat.mod_eq_of_lt (by omega), Nat.div_add_mod']

theorem station_of_hubPort {st : Station} {n : Nat} (h : unitKind st = some (.hubPort n)) :
    n < 12 ∧ st = hubPortStation n := by
  unfold unitKind at h
  dsimp only at h
  generalize hsite : st.toNat / 256 = site at h
  generalize hunit : st.toNat % 256 = u at h
  simp only [ite_eq_iff, Option.some.injEq, reduceCtorEq, UnitKind.hubPort.injEq, and_false, false_or,
    or_false, Bool.and_eq_true, decide_eq_true_eq] at h
  have hst : st.toNat = 0x60 + n := by omega
  exact ⟨by omega, BitVec.eq_of_toNat_eq (by rw [hst, hubPortStation, BitVec.toNat_ofNat]; omega)⟩

theorem State.cpAction_hubCtl (s : State) {a n : Nat} (old v : Word32) (hn : n < 12)
    (hk : unitKind (cpStation a) = some (.hubPort n)) (ho : a % 2 ^ 20 = 0xC) :
    s.cpAction a [rw 0 1] old v = s.setNarrow ⟨n, hn⟩ (bit v 0) := by
  unfold State.cpAction
  extract_lets st off
  rw [if_neg (by decide), if_neg (by simp [off, ho])]
  rw [show unitKind st = some (.hubPort n) from hk]
  dsimp only
  rw [dif_pos hn, if_pos ho]

/-- A direct write sets each RW field to its bits of the value and leaves each RWL field. -/
theorem State.cpField_cpDirect (s : State) {a : Nat} {d : RegDesc} (v : Word32) {f : RegField}
    (hst : a < 2 ^ 32) (hd : regDesc a = some d) (hf : f ∈ d)
    (hp : ∀ k, unitKind (cpStation a) ≠ some (.loupe k)) :
    (f.ty = .rw → (s.cpDirect a d v).cpField a f.lo f.w = field v f.lo f.w) ∧
    (f.ty = .rwl → (s.cpDirect a d v).cpField a f.lo f.w = s.cpField a f.lo f.w) := by
  have hw := RegDesc.field_write (regDesc_fits hd) (s.cpGet a) v hf
  rw [State.cpDirect_plain s d v hp]
  by_cases hctl : ∃ n, unitKind (cpStation a) = some (.hubPort n) ∧ a % 2 ^ 20 = 0xC
  · obtain ⟨n, hk, ho⟩ := hctl
    obtain ⟨hn, hsta⟩ := station_of_hubPort hk
    have ha : portAddr ⟨⟨n, hn⟩, true⟩ 0xC = a := by
      rw [portAddr, portStation, if_pos rfl, ← hsta, ← ho, cpAddr_cpStation hst]
    obtain rfl := regDesc_hubCtl hk ho hd
    obtain rfl := List.mem_singleton.1 hf
    refine ⟨fun _ => ?_, fun h => by cases h⟩
    have hnarrow := State.cpField_setNarrow
      (s.cpSet a (RegDesc.write [rw 0 1] false (s.cpGet a) v)) ⟨n, hn⟩ (bit v 0)
    rw [ha] at hnarrow
    rw [State.cpAction_hubCtl _ _ _ hn hk ho]
    exact hnarrow.trans (field_one v 0).symm
  · have hact : f.isRw = true → _ := fun hrw =>
      State.cpField_cpAction (s.cpSet a (d.write false (s.cpGet a) v)) (s.cpGet a) v hd hf hrw
        fun n hn h => hctl ⟨n, hn, h⟩
    refine ⟨fun h => ?_, fun h => ?_⟩
    · rw [hact (by simp [RegField.isRw, h]), State.cpField_cpSet_self, hw.1 h]
    · rw [hact (by simp [RegField.isRw, h]), State.cpField_cpSet_self, hw.2 h, State.cpField]

end Sys2Proof.Machine

end

