-- ==== Sys2Proof/Proofs/RegisterWrites.lean ====
section
namespace Sys2Proof.Machine

open Sys2Proof.Claims

theorem State.cpStatus_eq_zero {s : State} {a : Nat} :
    s.cpStatus a = 0 ↔ (∃ d, regDesc a = some d) ∧ s.isOff (cpStation a) = false := by
  unfold State.cpStatus
  cases regDesc a with
  | none => simp
  | some d => cases s.isOff (cpStation a) <;> simp

/-! A register write over the control plane. -/

theorem registerWrite_sets_fields (a v : Word32) (s : State) {d : RegDesc} (hd : regDesc a.toNat = some d)
    (hon : s.isOff (cpStation a.toNat) = false) (hp : PlainStation a)
    (hh : s.cpHeld (cpStation a.toNat) = false) :
    Completes (.registerWrite a v) s fun w => ∀ f ∈ d,
      (f.ty = .rw → w.cpField a.toNat f.lo f.w = field v f.lo f.w) ∧
      (f.ty = .rwl → w.cpField a.toNat f.lo f.w = s.cpField a.toNat f.lo f.w) := by
  refine ⟨s.cpDirect a.toNat d v, ?_, fun f hf => State.cpField_cpDirect s v a.isLt hd hf hp⟩
  show execRegisterWrite a v s = _
  unfold execRegisterWrite
  rw [hh, State.cpWriteWord_on s v hd hon]
  rfl

theorem registerWrite_changes_nothing (a v : Word32) (s : State)
    (h : regDesc a.toNat = none ∨ s.isOff (cpStation a.toNat) = true ∨ s.cpHeld (cpStation a.toNat) = true) :
    exec (.registerWrite a v) s = .next s := by
  show execRegisterWrite a v s = _
  unfold execRegisterWrite
  split
  · rfl
  · rename_i hh
    cases hd : regDesc a.toNat with
    | none => rw [State.cpWriteWord_none s v hd]
    | some d =>
      obtain h | h | h := h
      · rw [hd] at h; cases h
      · rw [State.cpWriteWord_off s v hd h]
      · exact absurd h hh

/-! Counters and bounds. -/

theorem counterLoRead_latches (a : Word32) (s : State) {k i : Nat}
    (hk : unitKind (cpStation a.toNat) = some (.router k)) (hi : i < 12)
    (ho : a.toNat % 2 ^ 20 = 0x100 + 8 * i) (hs : s.cpStatus a.toNat = 0) :
    Completes (.counterLoRead a) s fun w =>
      SMap.get 0 w.latchHi (a.toNat + 4) =
        ((SMap.get 0 s.rtrBytes (12 * k + i)).extractLsb' 32 16).zeroExtend 32 ∧
      w.rtrBytes = s.rtrBytes ∧ w.cp = s.cp ∧ Apart s w := by
  have hidx : (a.toNat % 2 ^ 20 - 0x100) / 8 = i := by omega
  refine ⟨{ s with
      latchHi := SMap.set 0 s.latchHi (a.toNat + 4)
        (((SMap.get 0 s.rtrBytes (12 * k + i)).extractLsb' 32 16).zeroExtend 32) },
    ?_, SMap.get_set_self .., rfl, rfl, rfl, rfl⟩
  show execCounterLoRead a s = _
  unfold execCounterLoRead
  rw [if_pos hs]
  unfold State.cpRead
  rw [hk]
  dsimp only
  rw [if_neg (by omega), if_pos (by rw [ho]; simp; omega), hidx]

theorem unitKind_homeStation (q : Quad) : unitKind (homeStation q) = some (.home q.val) := by
  revert q; decide

theorem unitKind_dcsStation (d : Die) : unitKind (dcsStation d) = some .dcs := by
  revert d; decide

theorem dieOfStation_dcsStation (d : Die) : dieOfStation (dcsStation d) = some d := by
  revert d; decide

theorem State.home_modHome_self (s : State) (q : Quad) (f : Home → Home) :
    (s.modHome q f).home q = f (s.home q) := SMap.get_set_self ..

theorem State.die_modDie_self (s : State) (d : Die) (f : DieSt → DieSt) :
    (s.modDie d f).die d = f (s.die d) := SMap.get_set_self ..

theorem State.cpAction_homePeak (s : State) {a : Nat} (q : Quad) (old : Word32)
    (hst : cpStation a = homeStation q) (ho : a % 2 ^ 20 = 8) :
    s.cpAction a [ro 0 13, wo 16 1] old 0x10000 = s.modHome q fun h => { h with peak := h.inUse } := by
  unfold State.cpAction
  extract_lets st off
  rw [if_neg (by decide), if_neg (by simp [off, ho]), show unitKind st = some (.home q.val) from
    (congrArg unitKind hst).trans (unitKind_homeStation q)]
  dsimp only
  rw [if_pos (by simp [off, ho, bit])]
  congr 1
  exact Fin.ext (Nat.mod_eq_of_lt q.isLt)

theorem State.cpAction_diePeak (s : State) {a : Nat} (d : Die) (old : Word32)
    (hst : cpStation a = dcsStation d) (ho : a % 2 ^ 20 = 0x120) :
    s.cpAction a [ro 0 6, ro 8 6, wo 16 1] old 0x10000 =
      s.modDie d fun x => { x with evPeak := BitVec.ofNat 6 x.evUse } := by
  unfold State.cpAction
  extract_lets st off
  rw [if_neg (by decide), if_neg (by simp [off, ho]), show unitKind st = some .dcs from
    (congrArg unitKind hst).trans (unitKind_dcsStation d)]
  dsimp only
  rw [show dieOfStation st = some d from (congrArg dieOfStation hst).trans (dieOfStation_dcsStation d)]
  dsimp only
  rw [if_pos (by simp [off, ho, bit])]

theorem State.cpAction_rail (s : State) (rail : Fin 8) (hr : rail.val < 6) (old : Word32) :
    s.cpAction (pwrAddr (0x10 + 4 * rail.val)) [ro 0 12, ro 12 12 0xFFF, wo 24 1] old 0x1000000 =
      s.cpSetField (pwrAddr (0x10 + 4 * rail.val)) 12 12 0xFFF := by
  have hst : cpStation (pwrAddr (0x10 + 4 * rail.val)) = shepStation := by
    revert rail; decide
  have ho : pwrAddr (0x10 + 4 * rail.val) % 2 ^ 20 = 0x80010 + 4 * rail.val := by
    revert rail; decide
  unfold State.cpAction
  extract_lets st off
  rw [if_neg (by decide), if_neg (by simp [off, ho]; omega), show unitKind st = some .shepherd from
    congrArg unitKind hst]
  dsimp only
  rw [if_pos (by simp [off, ho, bit]; omega)]

theorem peakClear_home (a : Word32) (s : State) (q : Fin 4) (hst : cpStation a.toNat = homeStation q)
    (ho : a.toNat % 2 ^ 20 = 8) (hon : s.isOff (cpStation a.toNat) = false) :
    Completes (.peakClear a) s fun w =>
      (w.home q).peak = (s.home q).inUse ∧ (w.home q).table = (s.home q).table ∧ Apart s w := by
  have hk := (congrArg unitKind hst).trans (unitKind_homeStation q)
  have hd : regDesc a.toNat = some [ro 0 13, wo 16 1] := by rw [regDesc_unit hk (by omega), ho]; rfl
  have hp : ∀ k, unitKind (cpStation a.toNat) ≠ some (.loupe k) := fun k h => by rw [hk] at h; cases h
  refine ⟨s.cpDirect a.toNat [ro 0 13, wo 16 1] 0x10000, ?_, ?_⟩
  · show execPeakClear a s = _
    unfold execPeakClear
    dsimp only
    rw [hk]
    dsimp only
    rw [if_pos ho, State.cpWriteWord_on s _ hd hon]
  · beta_reduce
    rw [State.cpDirect_plain _ _ _ hp, State.cpAction_homePeak _ q _ hst ho, State.home_modHome_self]
    exact ⟨rfl, rfl, rfl, rfl⟩

theorem peakClear_die (a : Word32) (s : State) (d : Die) (hst : cpStation a.toNat = dcsStation d)
    (ho : a.toNat % 2 ^ 20 = 0x120) (hon : s.isOff (cpStation a.toNat) = false) :
    Completes (.peakClear a) s fun w =>
      (w.die d).evPeak.toNat = (s.die d).evUse % 2 ^ 6 ∧ (w.die d).evb = (s.die d).evb ∧ Apart s w := by
  have hk := (congrArg unitKind hst).trans (unitKind_dcsStation d)
  have hd : regDesc a.toNat = some [ro 0 6, ro 8 6, wo 16 1] := by
    rw [regDesc_unit hk (by omega), ho]; rfl
  have hp : ∀ k, unitKind (cpStation a.toNat) ≠ some (.loupe k) := fun k h => by rw [hk] at h; cases h
  refine ⟨s.cpDirect a.toNat [ro 0 6, ro 8 6, wo 16 1] 0x10000, ?_, ?_⟩
  · show execPeakClear a s = _
    unfold execPeakClear
    dsimp only
    rw [hk]
    dsimp only
    rw [if_pos ho, State.cpWriteWord_on s _ hd hon]
  · beta_reduce
    rw [State.cpDirect_plain _ _ _ hp, State.cpAction_diePeak _ d _ hst ho, State.die_modDie_self]
    exact ⟨BitVec.toNat_ofNat .., rfl, rfl, rfl⟩

theorem railMinClear_resets (rail : Fin 8) (s : State) (hr : rail.val < 6) (hon : s.isOff shepStation = false) :
    Completes (.railMinClear rail) s fun w =>
      w.cpField (pwrAddr (0x10 + 4 * rail.val)) 12 12 = 0xFFF ∧
      w.cpField (pwrAddr (0x10 + 4 * rail.val)) 0 12 = s.cpField (pwrAddr (0x10 + 4 * rail.val)) 0 12 ∧
      Apart s w := by
  have hst : cpStation (pwrAddr (0x10 + 4 * rail.val)) = shepStation := by revert rail; decide
  have hd : regDesc (pwrAddr (0x10 + 4 * rail.val)) = some [ro 0 12, ro 12 12 0xFFF, wo 24 1] := by
    revert rail; decide
  have hp : ∀ k, unitKind (cpStation (pwrAddr (0x10 + 4 * rail.val))) ≠ some (.loupe k) := by
    rw [hst]; intro k h; cases h
  generalize ha : pwrAddr (0x10 + 4 * rail.val) = a at *
  refine ⟨s.cpDirect a [ro 0 12, ro 12 12 0xFFF, wo 24 1] 0x1000000, ?_, ?_⟩
  · show execRailMinClear rail s = _
    unfold execRailMinClear
    rw [if_pos hr, ha, State.cpWriteWord_on s _ hd (by rw [hst, hon])]
  · beta_reduce
    rw [State.cpDirect_plain _ _ _ hp, ← ha, State.cpAction_rail _ rail hr, ha]
    refine ⟨State.cpField_cpSetField_self _ _ _ (by omega), ?_, rfl, rfl⟩
    rw [State.cpField_cpSetField_of_disjoint _ _ _ _ (by omega), State.cpField_cpSet_self, State.cpField]
    rfl

theorem pmuClear_counts (lc : LC) (s : State) : Completes (.pmuClear lc) s fun w =>
    (∀ i < 8, SMap.get 0 (w.core lc).pmu.cnt i = 0) ∧ (w.core lc).g = (s.core lc).g ∧ OnlyCore lc s w := by
  refine ⟨s.clearPmu lc, rfl, ?_⟩
  unfold State.clearPmu
  beta_reduce
  rw [State.core_modCore]
  exact ⟨fun _ _ => rfl, rfl, onlyCore_modCore s lc _⟩

/-- The flits of a port and direction move from the window's count to RTR_BW. -/
def State.moveFlits (st : Station) (k : Nat) (s : State) (i : Nat) : State :=
  let s := s.cpSet (cpAddr st (0x200 + 4 * i)) (BitVec.ofNat 32 (SMap.get 0 s.rtrWin (12 * k + i)))
  { s with rtrWin := SMap.set 0 s.rtrWin (12 * k + i) 0 }

theorem State.cpGet_rtrWin (s : State) (m : SMap Nat) (a : Nat) :
    ({ s with rtrWin := m } : State).cpGet a = s.cpGet a := rfl

theorem State.moveFlits_cpGet (st : Station) (k : Nat) (s : State) (i j : Nat) :
    (State.moveFlits st k s i).cpGet (cpAddr st (0x200 + 4 * j)) =
      if j = i then BitVec.ofNat 32 (SMap.get 0 s.rtrWin (12 * k + j))
      else s.cpGet (cpAddr st (0x200 + 4 * j)) := by
  unfold State.moveFlits
  extract_lets s'
  rw [State.cpGet_rtrWin]
  split
  · subst j; exact State.cpGet_cpSet_self ..
  · exact State.cpGet_cpSet_of_ne _ _ (by unfold cpAddr; omega)

theorem State.moveFlits_rtrWin (st : Station) (k : Nat) (s : State) (i j : Nat) :
    SMap.get 0 (State.moveFlits st k s i).rtrWin (12 * k + j) =
      if j = i then 0 else SMap.get 0 s.rtrWin (12 * k + j) := by
  unfold State.moveFlits
  extract_lets s'
  have hs' : s'.rtrWin = s.rtrWin := State.cpSet_rtrWin ..
  rw [← hs']
  clear_value s'
  by_cases h : j = i
  · subst h
    rw [if_pos rfl]
    exact SMap.get_set_self 0 s'.rtrWin (12 * k + j) 0
  · rw [if_neg h]
    exact SMap.get_set_of_ne 0 s'.rtrWin (k := 12 * k + i) 0 (by omega)

/-- After the first `n` moves the first `n` registers hold the counts and the counts are 0. -/
theorem State.moveFlits_range (st : Station) (k : Nat) (s : State) (n j : Nat) :
    ((List.range n).foldl (State.moveFlits st k) s).cpGet (cpAddr st (0x200 + 4 * j)) =
      (if j < n then BitVec.ofNat 32 (SMap.get 0 s.rtrWin (12 * k + j))
        else s.cpGet (cpAddr st (0x200 + 4 * j))) ∧
    SMap.get 0 ((List.range n).foldl (State.moveFlits st k) s).rtrWin (12 * k + j) =
      if j < n then 0 else SMap.get 0 s.rtrWin (12 * k + j) := by
  induction n with
  | zero => exact ⟨rfl, rfl⟩
  | succ n ih =>
    rw [List.range_succ, List.foldl_append, List.foldl_cons, List.foldl_nil, State.moveFlits_cpGet,
      State.moveFlits_rtrWin, ih.1, ih.2]
    by_cases h : j = n
    · subst h; simp
    · have : j < n + 1 ↔ j < n := by omega
      simp [h, this]

theorem rtrBwWindowEnd_takes_flits (st : Station) (t : Word) (s : State) {k : Nat}
    (hk : unitKind st = some (.router k))
    (ht : t.toNat % (((s.advance t).cpField (cpAddr st 0x0F0) 0 10 + 1) * 1000) = 0) :
    Completes (.rtrBwWindowEnd st t) s fun w => ∀ i < 12,
      w.cpGet (cpAddr st (0x200 + 4 * i)) = BitVec.ofNat 32 (SMap.get 0 s.rtrWin (12 * k + i)) ∧
      SMap.get 0 w.rtrWin (12 * k + i) = 0 := by
  refine ⟨(List.range 12).foldl (State.moveFlits st k) (s.advance t), ?_, fun i hi => ?_⟩
  · show execRtrBwWindowEnd st t s = _
    unfold execRtrBwWindowEnd
    dsimp only
    rw [hk]
    dsimp only
    rw [if_neg (not_not.2 ht)]
    rfl
  · have h := State.moveFlits_range st k (s.advance t) 12 i
    rw [if_pos hi, if_pos hi, State.advance_rtrWin] at h
    exact h

theorem registerWriteResults : RegisterWriteResults :=
  ⟨fun a v s _ hd hon hp hh => registerWrite_sets_fields a v s hd hon hp hh,
    fun a v s h => registerWrite_changes_nothing a v s h,
    fun a s _ _ hk hi ho hs => counterLoRead_latches a s hk hi ho hs,
    fun a s q hst ho hon => peakClear_home a s q hst ho hon,
    fun a s d hst ho hon => peakClear_die a s d hst ho hon,
    fun rail s hr hon => railMinClear_resets rail s hr hon,
    fun lc s => pmuClear_counts lc s,
    fun st t s _ hk ht => rtrBwWindowEnd_takes_flits st t s hk ht⟩

end Sys2Proof.Machine

end

