-- ==== Sys2Proof/Proofs/Rings.lean ====
section
namespace Sys2Proof.Machine

open Sys2Proof.Claims

theorem frameGood_iff {f : Frame} {op : BitVec 4} : frameGood f op = true ↔ Good f op := by
  simp [frameGood, Good]

theorem frameGood_eq_false {f : Frame} {op : BitVec 4} : frameGood f op = false ↔ ¬ Good f op := by
  rw [← frameGood_iff, Bool.not_eq_true]

/-- Where a station's last SEQ stands (R252). -/
def seqAddr (a : Word32) : Nat := cpAddr (cpStation a.toNat) 0xFF014

/-! How a station treats a frame. -/

section
variable {s : State} {f : Frame} {op : BitVec 4} (act : State → (BitVec 4 × Word32) × State)

theorem State.atStation_bad (h : ¬ Good f op) : s.atStation f op act = s.takeFrame f := by
  unfold State.atStation
  exact if_pos (by rw [frameGood_eq_false.2 h]; rfl)

theorem State.atStation_unassigned (h : Good f op) (hk : unitKind (cpStation f.addr.toNat) = none) :
    s.atStation f op act =
      (s.takeFrame f).putFrame { f with op := op + 2, status := 1, data := 0 } := by
  unfold State.atStation
  dsimp only
  rw [if_neg (by rw [frameGood_iff.2 h]; decide), if_pos (by rw [hk]; rfl)]

variable (h : Good f op) (hk : (unitKind (cpStation f.addr.toNat)).isSome = true)
include h hk

theorem State.atStation_ahead (hq : s.seqIs f = .ahead) : s.atStation f op act = s := by
  unfold State.atStation
  dsimp only
  rw [if_neg (by rw [frameGood_iff.2 h]; decide), if_neg (by rw [Option.isNone_iff_eq_none]; grind), hq]

theorem State.atStation_old (hq : s.seqIs f = .old) :
    s.atStation f op act = if f.dup then s else (s.takeFrame f).putFrame { f with dup := true } := by
  unfold State.atStation
  dsimp only
  rw [if_neg (by rw [frameGood_iff.2 h]; decide), if_neg (by rw [Option.isNone_iff_eq_none]; grind), hq]

theorem State.atStation_next (hq : s.seqIs f = .next) :
    s.atStation f op act =
      ((act (s.takeFrame f)).2.cpSetField (seqAddr f.addr) 0 16 f.seq.toNat).putFrame
        { f with op := op + 2, status := (act (s.takeFrame f)).1.1, data := (act (s.takeFrame f)).1.2 } := by
  unfold State.atStation
  dsimp only
  rw [if_neg (by rw [frameGood_iff.2 h]; decide), if_neg (by rw [Option.isNone_iff_eq_none]; grind), hq]
  rfl

end

/-! What the frame's leaving and its reply's coming leave. -/

theorem State.takeFrame_frames (s : State) (f : Frame) :
    (s.takeFrame f).shep.frames = s.shep.frames.erase f := rfl

theorem State.takeFrame_cp (s : State) (f : Frame) : (s.takeFrame f).cp = s.cp := State.modShep_cp ..

theorem State.takeFrame_apart (s : State) (f : Frame) : Apart s (s.takeFrame f) :=
  ⟨State.modShep_mem .., State.modShep_cores ..⟩

theorem State.putFrame_frames (s : State) (g : Frame) :
    (s.putFrame g).shep.frames = s.shep.frames ++ [sealFrame g] := rfl

theorem State.putFrame_cp (s : State) (g : Frame) : (s.putFrame g).cp = s.cp := State.modShep_cp ..

theorem State.putFrame_cpGet (s : State) (g : Frame) (a : Nat) : (s.putFrame g).cpGet a = s.cpGet a := by
  rw [State.cpGet, State.putFrame_cp, State.cpGet]

theorem State.putFrame_apart (s : State) (g : Frame) : Apart s (s.putFrame g) :=
  ⟨State.modShep_mem .., State.modShep_cores ..⟩

theorem apart_trans {s t u : State} (h : Apart s t) (h' : Apart t u) : Apart s u :=
  ⟨h'.1.trans h.1, h'.2.trans h.2⟩

theorem State.takeFrame_gone (s : State) (f : Frame) :
    FrameGone f s (s.takeFrame f) ∧ (s.takeFrame f).cp = s.cp ∧ Apart s (s.takeFrame f) :=
  ⟨s.takeFrame_frames f, s.takeFrame_cp f, s.takeFrame_apart f⟩

theorem State.putFrame_out (s : State) (f g : Frame) :
    FrameOut f g s ((s.takeFrame f).putFrame g) ∧ ((s.takeFrame f).putFrame g).cp = s.cp ∧
    Apart s ((s.takeFrame f).putFrame g) :=
  ⟨State.putFrame_frames .., (State.putFrame_cp ..).trans (s.takeFrame_cp f),
    apart_trans (s.takeFrame_apart f) (State.putFrame_apart ..)⟩

/-- `t` is `s` with the frame off the ring, as far as rings, memory and cores go. -/
def ActedOn (f : Frame) (s t : State) : Prop := FrameGone f s t ∧ Apart s t

/-- A frame acted on goes out as its reply, and its SEQ becomes the station's last (R252). -/
theorem replied {s t : State} {f : Frame} (g : Frame) (h : ActedOn f s t) :
    FrameOut f g s ((t.cpSetField (seqAddr f.addr) 0 16 f.seq.toNat).putFrame g) ∧
    lastSeq ((t.cpSetField (seqAddr f.addr) 0 16 f.seq.toNat).putFrame g) f.addr = f.seq.toNat ∧
    Apart s ((t.cpSetField (seqAddr f.addr) 0 16 f.seq.toNat).putFrame g) := by
  obtain ⟨hgone, hapart⟩ := h
  refine ⟨?_, ?_, apart_trans hapart (apart_trans ⟨State.cpSetField_mem .., State.cpSetField_cores ..⟩
    (State.putFrame_apart ..))⟩
  · rw [FrameOut, State.putFrame_frames, State.cpSetField_shep, hgone]
  · rw [lastSeq, State.cpField, State.putFrame_cpGet]
    exact (State.cpField_cpSetField_self t (seqAddr f.addr) (lo := 0) (w := 16) f.seq.toNat
      (by omega)).trans (Nat.mod_eq_of_lt f.seq.isLt)

/-! Reads. -/

theorem actedOn_takeFrame (s : State) (f : Frame) : ActedOn f s (s.takeFrame f) := ⟨s.takeFrame_frames f, s.takeFrame_apart f⟩

/-- `t` is `s` as far as rings, memory and cores go. -/
def Unrung (s t : State) : Prop := t.shep = s.shep ∧ t.mem = s.mem ∧ t.cores = s.cores

theorem ActedOn.of_unrung {f : Frame} {s t u : State} (h : ActedOn f s t) (hu : Unrung t u) : ActedOn f s u := by
  obtain ⟨hgone, hmem, hcores⟩ := h
  obtain ⟨hshep, hmem', hcores'⟩ := hu
  exact ⟨(congrArg Shep.frames hshep).trans hgone, hmem'.trans hmem, hcores'.trans hcores⟩

theorem Unrung.refl (s : State) : Unrung s s := ⟨rfl, rfl, rfl⟩

theorem Unrung.trans {s t u : State} (h : Unrung s t) (h' : Unrung t u) : Unrung s u :=
  ⟨h'.1.trans h.1, h'.2.1.trans h.2.1, h'.2.2.trans h.2.2⟩

theorem State.takeFree_unrung (s : State) (w : Nat) : Unrung s (s.takeFree w).2 := ⟨rfl, rfl, rfl⟩

theorem State.lpWord_unrung (s : State) (k : Nat) : Unrung s (s.lpWord k).2 := by
  unfold State.lpWord
  extract_lets i
  split
  · exact Unrung.refl s
  · exact State.takeFree_unrung s 64

theorem State.latchHi_unrung (s : State) (m : SMap Word32) : Unrung s { s with latchHi := m } := ⟨rfl, rfl, rfl⟩

theorem State.lpNext_unrung (s : State) (k : Nat) : Unrung s (s.lpNext k) :=
  ⟨State.cpSetField_shep .., State.cpSetField_mem .., State.cpSetField_cores ..⟩

theorem State.lpRead_unrung (s : State) (k off : Nat) (ctl : Bool) : Unrung s (s.lpRead k off ctl).2 := by
  unfold State.lpRead
  extract_lets a v
  clear_value a v
  split
  · exact Unrung.refl s
  split
  · split
    next w t e =>
    have ht : Unrung s t := by have := State.lpWord_unrung s k; rwa [e] at this
    dsimp only
    split
    · exact ht.trans (State.lpNext_unrung t k)
    · exact ht
  split
  · exact State.latchHi_unrung s _
  split <;> exact Unrung.refl s

theorem foldl_unrung {α β : Type} (step : α × State → β → α × State)
    (h : ∀ x i, Unrung x.2 (step x i).2) (l : List β) (x : α × State) : Unrung x.2 (l.foldl step x).2 := by
  induction l generalizing x with
  | nil => exact Unrung.refl _
  | cons i l ih => exact (h x i).trans (ih _)

theorem State.creditState_unrung (s : State) (r : Nat) : Unrung s (s.creditState r).2 := by
  unfold State.creditState
  refine foldl_unrung _ (fun x i => ?_) _ (0, s)
  split
  next v t =>
  split
  · split
    next b u e =>
    have hu : Unrung t u := by have := State.takeFree_unrung t 1; rwa [e] at this
    exact hu
  · exact Unrung.refl t

theorem State.cpRead_unrung (s : State) (a : Nat) : Unrung s (s.cpRead a).2 := by
  unfold State.cpRead
  extract_lets off
  split
  · split
    · exact State.lpRead_unrung s _ _ _
    · exact Unrung.refl s
  · split
    · exact State.creditState_unrung s _
    split
    · exact State.latchHi_unrung s _
    · exact Unrung.refl s
  · exact Unrung.refl s

theorem State.cpStatus_takeFrame (s : State) (f : Frame) (a : Nat) :
    (s.takeFrame f).cpStatus a = s.cpStatus a := rfl

/-- A READ at its station. -/
def readAct (a : Nat) (s : State) : (BitVec 4 × Word32) × State :=
  if s.cpStatus a = 0 then ((0, (s.cpRead a).1), (s.cpRead a).2) else ((s.cpStatus a, 0), s)

/-- A WRITE at its station. -/
def writeAct (f : Frame) (s : State) : (BitVec 4 × Word32) × State :=
  match regDesc f.addr.toNat, s.shep.commit with
  | some d, some c =>
    if s.cpStatus f.addr.toNat = 0 && s.armedFor (cpStation f.addr.toNat) && d.has (· == .rwl) then
      ((0, f.data), s.modShep fun x => { x with
        commit := some { c with shadows := SMap.set none c.shadows f.addr.toNat (some f.data) } })
    else (((s.cpWriteWord f.addr.toNat f.data).1, f.data), (s.cpWriteWord f.addr.toNat f.data).2)
  | _, _ => (((s.cpWriteWord f.addr.toNat f.data).1, f.data), (s.cpWriteWord f.addr.toNat f.data).2)

theorem exec_ringRead (f : Frame) (s : State) :
    exec (.ringRead f) s = .next (s.atStation f 1 (readAct f.addr.toNat)) := rfl

theorem exec_ringWrite (f : Frame) (s : State) :
    exec (.ringWrite f) s = if frameGood f 2 && s.armDue (cpStation f.addr.toNat) then .next s
      else .next (s.atStation f 2 (writeAct f)) := rfl

theorem exec_ringWrite_of_notDue (f : Frame) (s : State)
    (h : Good f 2 → s.armDue (cpStation f.addr.toNat) = false) :
    exec (.ringWrite f) s = .next (s.atStation f 2 (writeAct f)) := by
  rw [exec_ringWrite]
  refine if_neg ?_
  rw [Bool.and_eq_true, frameGood_iff]
  rintro ⟨hg, hd⟩
  rw [h hg] at hd
  cases hd

/-- A frame whose CRC fails is dropped. -/
theorem ring_bad {i : Instr} {f : Frame} {op : BitVec 4} {s : State}
    {act : State → (BitVec 4 × Word32) × State} (he : exec i s = .next (s.atStation f op act))
    (hg : ¬ Good f op) : Completes i s fun w => FrameGone f s w ∧ w.cp = s.cp ∧ Apart s w :=
  ⟨_, he.trans (by rw [State.atStation_bad act hg]), s.takeFrame_gone f⟩

/-- A good frame without a station, and one that its station has had or is not yet due. -/
theorem ring_notNext {i : Instr} {f : Frame} {op : BitVec 4} {s : State}
    {act : State → (BitVec 4 × Word32) × State} (he : exec i s = .next (s.atStation f op act))
    (hg : Good f op) :
    (unitKind (cpStation f.addr.toNat) = none → Completes i s fun w =>
      FrameOut f { f with op := f.op + 2, status := 1, data := 0 } s w ∧ w.cp = s.cp ∧ Apart s w) ∧
    ((unitKind (cpStation f.addr.toNat)).isSome = true →
      (s.seqIs f = .old → f.dup = false → Completes i s fun w =>
        FrameOut f { f with dup := true } s w ∧ w.cp = s.cp ∧ Apart s w) ∧
      (s.seqIs f = .old → f.dup = true → exec i s = .next s) ∧
      (s.seqIs f = .ahead → exec i s = .next s)) := by
  refine ⟨fun hk => ?_, fun hk => ⟨fun hq hd => ?_, fun hq hd => ?_, fun hq => ?_⟩⟩
  · rw [State.atStation_unassigned act hg hk, ← hg.2] at he
    exact ⟨_, he, State.putFrame_out s f _⟩
  · rw [State.atStation_old act hg hk hq, hd] at he
    exact ⟨_, he, State.putFrame_out s f _⟩
  · rw [he, State.atStation_old act hg hk hq, if_pos hd]
  · rw [he, State.atStation_ahead act hg hk hq]

/-- The station's next frame is acted on and comes back as its reply. -/
theorem ring_next {i : Instr} {f : Frame} {op : BitVec 4} {s t : State} {st : BitVec 4} {v : Word32}
    {act : State → (BitVec 4 × Word32) × State} (he : exec i s = .next (s.atStation f op act))
    (hg : Good f op) (hk : (unitKind (cpStation f.addr.toNat)).isSome = true) (hq : s.seqIs f = .next)
    (ha : act (s.takeFrame f) = ((st, v), t)) (ht : ActedOn f s t) :
    ∃ w, exec i s = .next w ∧
      w = (t.cpSetField (seqAddr f.addr) 0 16 f.seq.toNat).putFrame { f with op := op + 2, status := st, data := v } ∧
      FrameOut f { f with op := op + 2, status := st, data := v } s w ∧
      lastSeq w f.addr = f.seq.toNat ∧ Apart s w := by
  rw [State.atStation_next act hg hk hq, ha] at he
  exact ⟨_, he, rfl, replied _ ht⟩

theorem ringRead_next (f : Frame) (s : State) (hg : Good f 1)
    (hk : (unitKind (cpStation f.addr.toNat)).isSome = true) (hq : s.seqIs f = .next) :
    (s.cpStatus f.addr.toNat = 0 → Completes (.ringRead f) s fun w =>
      FrameOut f { f with op := 3, status := 0, data := ((s.takeFrame f).cpRead f.addr.toNat).1 } s w ∧
      lastSeq w f.addr = f.seq.toNat ∧ Apart s w) ∧
    (s.cpStatus f.addr.toNat ≠ 0 → Completes (.ringRead f) s fun w =>
      FrameOut f { f with op := 3, status := s.cpStatus f.addr.toNat, data := 0 } s w ∧
      lastSeq w f.addr = f.seq.toNat ∧ Apart s w) := by
  refine ⟨fun hs => ?_, fun hs => ?_⟩
  · have ha : readAct f.addr.toNat (s.takeFrame f) = _ := if_pos ((s.cpStatus_takeFrame f _).trans hs)
    obtain ⟨w, hw, -, hout⟩ := ring_next (exec_ringRead f s) hg hk hq ha
      ((actedOn_takeFrame s f).of_unrung (State.cpRead_unrung _ _))
    exact ⟨w, hw, hout⟩
  · have ha : readAct f.addr.toNat (s.takeFrame f) = _ :=
      if_neg (by rwa [State.cpStatus_takeFrame])
    obtain ⟨w, hw, -, hout⟩ := ring_next (exec_ringRead f s) hg hk hq ha (actedOn_takeFrame s f)
    exact ⟨w, hw, hout⟩

/-! Writes. -/

theorem State.cpWriteWord_refused (s : State) {a : Nat} (v : Word32) (h : s.cpStatus a ≠ 0) :
    s.cpWriteWord a v = (s.cpStatus a, s) := by
  cases hd : regDesc a with
  | none => rw [State.cpWriteWord_none s v hd, State.cpStatus, hd]; rfl
  | some d =>
    cases ho : s.isOff (cpStation a) with
    | false => exact absurd (State.cpStatus_eq_zero.2 ⟨⟨d, hd⟩, ho⟩) h
    | true => rw [State.cpWriteWord_off s v hd ho, State.cpStatus, hd, ho]; rfl

/-- A WRITE that loads no shadow is a direct write. -/
theorem writeAct_direct {f : Frame} {s : State}
    (h : s.cpStatus f.addr.toNat ≠ 0 ∨ s.shep.commit = none) :
    writeAct f s =
      (((s.cpWriteWord f.addr.toNat f.data).1, f.data), (s.cpWriteWord f.addr.toNat f.data).2) := by
  unfold writeAct
  split
  · next d c hd hc =>
    obtain h | h := h
    · rw [decide_eq_false h, if_neg (by simp)]
    · rw [hc] at h; cases h
  · rfl

/-- The commit with a word in the shadow of a register. -/
def Commit.shadowed (c : Commit) (f : Frame) : Commit :=
  { c with shadows := SMap.set none c.shadows f.addr.toNat (some f.data) }

/-- The state with a word in the shadow of a register. -/
def State.shadow (s : State) (c : Commit) (f : Frame) : State :=
  s.modShep fun x => { x with commit := some (c.shadowed f) }

theorem writeAct_armed {f : Frame} {s : State} {d : RegDesc} {c : Commit}
    (hd : regDesc f.addr.toNat = some d) (hl : d.has (· == .rwl) = true) (hs : s.cpStatus f.addr.toNat = 0)
    (hc : s.shep.commit = some c) (ha : s.armedFor (cpStation f.addr.toNat) = true) :
    writeAct f s = ((0, f.data), s.shadow c f) := by
  unfold writeAct
  rw [hd, hc]
  exact if_pos (by rw [hs, ha, hl]; rfl)

theorem State.shadow_actedOn {s t : State} {f : Frame} (c : Commit) (h : ActedOn f s t) :
    ActedOn f s (t.shadow c f) :=
  ⟨h.1, apart_trans h.2 ⟨State.modShep_mem .., State.modShep_cores ..⟩⟩

theorem ringWrite_refused (f : Frame) (s : State) (hg : Good f 2)
    (hk : (unitKind (cpStation f.addr.toNat)).isSome = true) (hq : s.seqIs f = .next)
    (hd : s.armDue (cpStation f.addr.toNat) = false) (hs : s.cpStatus f.addr.toNat ≠ 0) :
    Completes (.ringWrite f) s fun w =>
      FrameOut f { f with op := 4, status := s.cpStatus f.addr.toNat } s w ∧
      lastSeq w f.addr = f.seq.toNat ∧ Apart s w := by
  have hs' : (s.takeFrame f).cpStatus f.addr.toNat ≠ 0 := by rwa [State.cpStatus_takeFrame]
  have ha := writeAct_direct (Or.inl hs')
  rw [State.cpWriteWord_refused _ _ hs', State.cpStatus_takeFrame] at ha
  obtain ⟨w, hw, -, hout⟩ := ring_next (exec_ringWrite_of_notDue f s fun _ => hd) hg hk hq ha
    (actedOn_takeFrame s f)
  exact ⟨w, hw, hout⟩

theorem ringWrite_loads_shadow (f : Frame) (s : State) (hg : Good f 2)
    (hk : (unitKind (cpStation f.addr.toNat)).isSome = true) (hq : s.seqIs f = .next)
    (hdue : s.armDue (cpStation f.addr.toNat) = false) {d : RegDesc} {c : Commit}
    (hd : regDesc f.addr.toNat = some d) (hl : d.has (· == .rwl) = true) (hs : s.cpStatus f.addr.toNat = 0)
    (hc : s.shep.commit = some c) (ha : s.armedFor (cpStation f.addr.toNat) = true) :
    Completes (.ringWrite f) s fun w =>
      FrameOut f { f with op := 4, status := 0 } s w ∧ lastSeq w f.addr = f.seq.toNat ∧
      (∃ c', w.shep.commit = some c' ∧ SMap.get none c'.shadows f.addr.toNat = some f.data) ∧
      (∀ a, a ≠ cpAddr (cpStation f.addr.toNat) 0xFF014 → w.cpGet a = s.cpGet a) ∧ Apart s w := by
  have hact := writeAct_armed (s := s.takeFrame f) hd hl ((s.cpStatus_takeFrame f _).trans hs) hc ha
  obtain ⟨w, hw, hweq, hout, hseq, hapart⟩ := ring_next (exec_ringWrite_of_notDue f s fun _ => hdue) hg hk hq hact
    (State.shadow_actedOn c (actedOn_takeFrame s f))
  refine ⟨w, hw, hout, hseq, ⟨c.shadowed f, ?_,
    SMap.get_set_self none c.shadows _ (some f.data)⟩, fun a hne => ?_, hapart⟩
  · subst hweq; rfl
  · rw [hweq, State.putFrame_cpGet, State.cpGet_cpSetField_of_ne _ _ _ _ (show a ≠ seqAddr f.addr from hne)]
    rfl

theorem ringWrite_sets_fields (f : Frame) (s : State) (hg : Good f 2)
    (hk : (unitKind (cpStation f.addr.toNat)).isSome = true) (hq : s.seqIs f = .next)
    (hdue : s.armDue (cpStation f.addr.toNat) = false) {d : RegDesc}
    (hd : regDesc f.addr.toNat = some d) (hs : s.cpStatus f.addr.toNat = 0) (hc : s.shep.commit = none)
    (hp : PlainStation f.addr) (ho : f.addr.toNat % 2 ^ 20 ≠ 0xFF014) (hrw : ∀ x ∈ d, x.ty = .rw) :
    Completes (.ringWrite f) s fun w =>
      lastSeq w f.addr = f.seq.toNat ∧
      ∀ x ∈ d, w.cpField f.addr.toNat x.lo x.w = field f.data x.lo x.w := by
  have hon := (State.cpStatus_eq_zero.1 ((s.cpStatus_takeFrame f _).trans hs)).2
  have hact := writeAct_direct (f := f) (s := s.takeFrame f) (Or.inr hc)
  rw [State.cpWriteWord_on _ _ hd hon] at hact
  have he := exec_ringWrite_of_notDue f s fun _ => hdue
  rw [State.atStation_next (writeAct f) hg hk hq, hact] at he
  refine ⟨_, he, ?_, fun x hx => ?_⟩
  · rw [lastSeq, State.cpField, State.putFrame_cpGet]
    exact (State.cpField_cpSetField_self _ (seqAddr f.addr) (lo := 0) (w := 16) f.seq.toNat
      (by omega)).trans (Nat.mod_eq_of_lt f.seq.isLt)
  · have hne : f.addr.toNat ≠ seqAddr f.addr := fun h => ho (by rw [h, seqAddr, cpAddr_mod _ (by omega)])
    rw [State.cpField, State.putFrame_cpGet, State.cpGet_cpSetField_of_ne _ _ _ _ hne]
    exact (State.cpField_cpDirect (s.takeFrame f) f.data f.addr.isLt hd hx hp).1 (hrw x hx)

/-! Replies and reports. -/

/-- The state with a station's resends at an end. -/
def State.endResends (s : State) (st : Station) : State :=
  s.modShep fun x => { x with resends := SMap.set 0 x.resends st.toNat 0 }

theorem State.jobReply_idle {s : State} (f : Frame) (h : s.shep.cpJobs = []) :
    s.jobReply f = some (s.endResends (cpStation f.addr.toNat)) := by
  unfold State.jobReply
  extract_lets st s'
  have hs' : s'.shep.cpJobs = [] := h
  rw [hs']
  rfl

theorem State.feedJobs_idle {s : State} (h : s.shep.cpJobs = []) : s.feedJobs = s := by
  rw [State.feedJobs, h]; rfl

/-- With no commit under way a reply ends no entry of one. -/
theorem State.entryWritten_idle {s : State} (f : Frame) (h : s.shep.commit = none) :
    s.entryWritten f = s.modCommit fun c => { c with left := c.left.erase (f.seq, f.addr.toNat) } := by
  unfold State.entryWritten
  generalize ht : (s.modCommit fun c => { c with left := c.left.erase (f.seq, f.addr.toNat) }) = t
  have hc : t.shep.commit = none := by
    subst ht
    exact congrArg (Option.map _) h
  have hfeed : t.feedEntries = t := by unfold State.feedEntries; rw [hc]
  rw [hfeed]
  unfold State.tryFire
  rw [hc]

/-- A reply has left the ring and its station's resends are over. -/
def ReplyTaken (f : Frame) (s w : State) : Prop :=
  FrameGone f s w ∧ SMap.get 0 w.shep.resends (cpStation f.addr.toNat).toNat = 0 ∧ w.cp = s.cp ∧ Apart s w

theorem replyTaken_endResends (f : Frame) (s : State) :
    ReplyTaken f s ((s.takeFrame f).endResends (cpStation f.addr.toNat)) := by
  refine ⟨rfl, SMap.get_set_self 0 s.shep.resends _ 0, ?_, ?_, ?_⟩
  · exact (State.modShep_cp ..).trans (s.takeFrame_cp f)
  · exact (State.modShep_mem ..).trans (s.takeFrame_apart f).1
  · exact (State.modShep_cores ..).trans (s.takeFrame_apart f).2

theorem ReplyTaken.modCommit {f : Frame} {s w : State} (g : Commit → Commit) (h : ReplyTaken f s w) :
    ReplyTaken f s (w.modCommit g) := by
  obtain ⟨hgone, hres, hcp, hapart⟩ := h
  exact ⟨hgone, hres, (State.modShep_cp ..).trans hcp,
    apart_trans hapart ⟨State.modShep_mem .., State.modShep_cores ..⟩⟩

/-- A reply with a bad CRC, or one that has been round, is dropped. -/
theorem reply_dropped {f : Frame} {op : BitVec 4} (h : ¬ Good f op ∨ f.dup = true) :
    (!frameGood f op || f.dup) = true := by
  obtain h | h := h
  · rw [frameGood_eq_false.2 h]; rfl
  · rw [h, Bool.or_true]

theorem reply_taken {f : Frame} {op : BitVec 4} (h : Good f op) (hd : f.dup = false) :
    ¬ (!frameGood f op || f.dup) = true := by
  rw [frameGood_iff.2 h, hd]; decide

theorem readReply_dropped (f : Frame) (s : State) (h : ¬ Good f 3 ∨ f.dup = true) :
    exec (.readReply f) s = .next (s.takeFrame f) := by
  show execReadReply f s = _
  unfold execReadReply
  exact if_pos (reply_dropped h)

theorem writeReply_dropped (f : Frame) (s : State) (h : ¬ Good f 4 ∨ f.dup = true) :
    exec (.writeReply f) s = .next (s.takeFrame f) := by
  show execWriteReply f s = _
  unfold execWriteReply
  exact if_pos (reply_dropped h)

theorem readReply_taken (f : Frame) (s : State) (hg : Good f 3) (hd : f.dup = false)
    (hj : s.shep.cpJobs = []) : Completes (.readReply f) s (ReplyTaken f s) := by
  refine ⟨_, ?_, replyTaken_endResends f s⟩
  show execReadReply f s = _
  unfold execReadReply
  extract_lets rest
  rw [if_neg (reply_taken hg hd), State.jobReply_idle (s := rest) f hj, Option.map_some,
    State.feedJobs_idle (s := rest.endResends _) hj]
  rfl

theorem writeReply_taken (f : Frame) (s : State) (hg : Good f 4) (hd : f.dup = false)
    (hj : s.shep.cpJobs = []) (hc : s.shep.commit = none) :
    Completes (.writeReply f) s (ReplyTaken f s) := by
  have hentry := State.entryWritten_idle (s := (s.takeFrame f).endResends (cpStation f.addr.toNat)) f hc
  refine ⟨((s.takeFrame f).endResends (cpStation f.addr.toNat)).entryWritten f, ?_, ?_⟩
  · show execWriteReply f s = _
    unfold execWriteReply
    extract_lets rest
    rw [if_neg (reply_taken hg hd), State.jobReply_idle (s := rest) f hj, Option.map_some,
      State.feedJobs_idle (by rw [hentry]; exact hj)]
    rfl
  · rw [hentry]
    exact (replyTaken_endResends f s).modCommit _

theorem reportSlot_idle (f : Frame) (s : State) (hg : Good f 0xA) (hr : s.reports = []) :
    Completes (.reportSlot f) s fun w => FrameGone f s w ∧ w.reports = [] ∧ Apart s w := by
  refine ⟨s.takeFrame f, ?_, s.takeFrame_frames f, hr, s.takeFrame_apart f⟩
  show execReportSlot f s = _
  unfold execReportSlot
  dsimp only
  rw [if_neg (by rw [frameGood_iff.2 hg]; decide), hr]

theorem reportSlot_taken (f : Frame) (s : State) (hg : Good f 0xA) {r : Frame} {t : List Frame}
    (hr : s.reports = r :: t) :
    Completes (.reportSlot f) s fun w =>
      FrameOut f { r with ringA := f.ringA } s w ∧ w.reports = t ∧ Apart s w := by
  refine ⟨({ s.takeFrame f with reports := t } : State).putFrame { r with ringA := f.ringA }, ?_,
    State.putFrame_frames .., State.modShep_reports .., (State.modShep_mem ..).trans (s.takeFrame_apart f).1,
    (State.modShep_cores ..).trans (s.takeFrame_apart f).2⟩
  show execReportSlot f s = _
  unfold execReportSlot
  dsimp only
  rw [if_neg (by rw [frameGood_iff.2 hg]; decide), hr]

/-! The frames of the rings. -/

theorem ring_anyFrame : ∀ f' ∈ ([(.ringRead, 1), (.ringWrite, 2)] : List ((Frame → Instr) × BitVec 4)),
    ∀ (f : Frame) (s : State), (Good f f'.2 → f'.2 = 2 → s.armDue (cpStation f.addr.toNat) = false) →
    ∃ act, exec (f'.1 f) s = .next (s.atStation f f'.2 act) := by
  intro f' hf' f s hdue
  rcases List.mem_cons.1 hf' with rfl | hf'
  · exact ⟨_, exec_ringRead f s⟩
  · obtain rfl := List.mem_singleton.1 hf'
    exact ⟨_, exec_ringWrite_of_notDue f s fun hg => hdue hg rfl⟩

theorem ringResults : RingResults := by
  refine ⟨fun f' hf' f s => ⟨fun hg => ?_, fun hg hdue => ?_⟩, ringRead_next, ?_, ?_, ?_⟩
  · obtain ⟨act, he⟩ := ring_anyFrame f' hf' f s fun h => absurd h hg
    exact ring_bad he hg
  · obtain ⟨act, he⟩ := ring_anyFrame f' hf' f s fun _ => hdue
    exact ring_notNext he hg
  · exact fun f s hg hk hq hdue => ⟨ringWrite_refused f s hg hk hq hdue,
      fun d c hd hl hs hc ha => ringWrite_loads_shadow f s hg hk hq hdue hd hl hs hc ha,
      fun d hd hs hc hp ho hrw => ringWrite_sets_fields f s hg hk hq hdue hd hs hc hp ho hrw⟩
  · intro f' hf' f s
    rcases List.mem_cons.1 hf' with rfl | hf'
    · exact ⟨fun h => ⟨_, readReply_dropped f s h, s.takeFrame_frames f, rfl, s.takeFrame_cp f,
        s.takeFrame_apart f⟩, fun hg hd hj _ => readReply_taken f s hg hd hj⟩
    · obtain rfl := List.mem_singleton.1 hf'
      exact ⟨fun h => ⟨_, writeReply_dropped f s h, s.takeFrame_frames f, rfl, s.takeFrame_cp f,
        s.takeFrame_apart f⟩, fun hg hd hj hc => writeReply_taken f s hg hd hj hc⟩
  · exact fun f s hg => ⟨reportSlot_idle f s hg, fun r t hr => reportSlot_taken f s hg hr⟩

/-- Settles O32: a direct write leaves in each field what its type says (the fields of a register stand
apart, and no action beside the fields touches an RW or RWL one), and a frame at its station is dropped,
answered, passed on or acted on by its CRC and SEQ. -/
theorem controlPlaneResults : Obligations.ControlPlaneResults := ⟨registerWriteResults, ringResults⟩

theorem step_of_empty {s : State} (h : s.pending = []) : step s = .next s.tick := by
  unfold step
  rw [h]

/-- Settles O2: the tick advances reference time alone. -/
theorem emptyQueueTicks : Obligations.EmptyQueueTicks := fun _ h => step_of_empty h

end Sys2Proof.Machine

end

