-- ==== Sys2Proof/Proofs/Kept.lean ====
section
/-! SUPPORT. What every operation below a command leaves: TB_NOW and the queue. One rule per kind of answer. -/

namespace Sys2Proof.Machine

/-- What every operation below a command leaves: TB_NOW and the queue. -/
def State.kept (s : State) : Word × List Instr := (s.tb, s.pending)

@[simp] theorem State.kept_mk
    (pending free tb cores mem poisLine poisWord dies dt homes mcs mir ports sideband sbLast laserWait cp 
    net reqs place moves lastDie fuse slotSt beatRate beatBase beatSt evq evDropped denyAt reports slotCrit 
    regHeld shed2 reg0 uarts i2cs gpios rtrBytes rtrWin latchHi loupes trace snap tap stOffset stValid 
    stAlarm stAlarmed scntBase pcie fold devReady restarting imageOnly shep) :
    (State.mk
      pending free tb cores mem poisLine poisWord dies dt homes mcs mir ports sideband sbLast laserWait cp 
      net reqs place moves lastDie fuse slotSt beatRate beatBase beatSt evq evDropped denyAt reports slotCrit 
      regHeld shed2 reg0 uarts i2cs gpios rtrBytes rtrWin latchHi loupes trace snap tap stOffset stValid 
      stAlarm stAlarmed scntBase pcie fold devReady restarting imageOnly shep).kept
      = (tb, pending) := rfl

@[simp] theorem State.tb_pending (s : State) : (s.tb, s.pending) = s.kept := rfl

/-- TB_NOW and the queue after a command. -/
def Out.kept : Out → Option (Word × List Instr)
  | .next t => some t.kept
  | _ => none

@[simp] theorem Out.kept_next (t : State) : Out.kept (.next t) = some t.kept := rfl

/-! For each kind of answer: that the state it carries, if any, has TB_NOW and the queue `κ`. An operation
that gives a state has a rule `_kept`; one that gives another answer has a rule `_keeps`. -/

def Alloc.Keeps (κ : Word × List Instr) : Alloc → Prop
  | .way _ t => t.kept = κ
  | _ => True
def LineRead.Keeps (κ : Word × List Instr) : LineRead → Prop
  | .hit _ _ _ t => t.kept = κ
  | .bus t => t.kept = κ
  | .sent t => t.kept = κ
  | .busy => True
def Xlat.Keeps (κ : Word × List Instr) : Xlat → Prop
  | .ok _ _ _ _ t => t.kept = κ
  | .fault _ t => t.kept = κ
  | .sent t => t.kept = κ
  | .busy => True
def Walk.Keeps {α : Type} (κ : Word × List Instr) : Walk α → Prop
  | .done _ _ t => t.kept = κ
  | .fault _ t => t.kept = κ
  | .sent t => t.kept = κ
  | .busy => True
def Fetch.Keeps (κ : Word × List Instr) : Fetch → Prop
  | .ok t => t.kept = κ
  | .fault _ t => t.kept = κ
  | .sent t => t.kept = κ
  | .busy => True
def Fill.Keeps (κ : Word × List Instr) : Fill → Prop
  | .ok _ t => t.kept = κ
  | .sent t => t.kept = κ
  | .busy => True
def Gathered.Keeps (κ : Word × List Instr) : Gathered → Prop
  | .all _ t => t.kept = κ
  | .sent _ t => t.kept = κ
  | .busy => True
def Halves.Keeps (κ : Word × List Instr) : Halves → Prop
  | .ok _ _ t => t.kept = κ
  | .fault _ t => t.kept = κ
  | .sent t => t.kept = κ
  | .busy => True
def Drain.Keeps (κ : Word × List Instr) : Drain → Prop
  | .done _ _ t => t.kept = κ
  | .bus t => t.kept = κ
  | .sent t => t.kept = κ
  | .busy => True
def HubAns.Keeps {α : Type} (κ : Word × List Instr) : HubAns α → Prop
  | .busy => True
  | .refuse t => t.kept = κ
  | .poison t => t.kept = κ
  | .ok _ t => t.kept = κ
def ShepRes.Keeps (κ : Word × List Instr) : ShepRes → Prop
  | .done _ t _ _ => t.kept = κ
  | .later t => t.kept = κ
  | .wait => True

def OptKeeps (κ : Word × List Instr) : Option State → Prop
  | some t => t.kept = κ
  | none => True
def PairKeeps {α : Type} (κ : Word × List Instr) : Option (α × State) → Prop
  | some (_, t) => t.kept = κ
  | none => True
def OptOptKeeps (κ : Word × List Instr) : Option (Option State) → Prop
  | some o => OptKeeps κ o
  | none => True

/-! The rule of each form of an answer. -/

@[simp] theorem Alloc.keeps_way (κ) (w) (t : State) :
    Alloc.Keeps κ (Alloc.way w t) ↔ t.kept = κ := Iff.rfl
@[simp] theorem Alloc.keeps_full (κ) :
    Alloc.Keeps κ (Alloc.full) ↔ True := Iff.rfl
@[simp] theorem Alloc.keeps_noVictim (κ) :
    Alloc.Keeps κ (Alloc.noVictim) ↔ True := Iff.rfl
@[simp] theorem LineRead.keeps_hit (κ) (d p b) (t : State) :
    LineRead.Keeps κ (LineRead.hit d p b t) ↔ t.kept = κ := Iff.rfl
@[simp] theorem LineRead.keeps_bus (κ) (t : State) :
    LineRead.Keeps κ (LineRead.bus t) ↔ t.kept = κ := Iff.rfl
@[simp] theorem LineRead.keeps_sent (κ) (t : State) :
    LineRead.Keeps κ (LineRead.sent t) ↔ t.kept = κ := Iff.rfl
@[simp] theorem LineRead.keeps_busy (κ) :
    LineRead.Keeps κ (LineRead.busy) ↔ True := Iff.rfl
@[simp] theorem Xlat.keeps_ok (κ) (p m b w) (t : State) :
    Xlat.Keeps κ (Xlat.ok p m b w t) ↔ t.kept = κ := Iff.rfl
@[simp] theorem Xlat.keeps_fault (κ) (e) (t : State) :
    Xlat.Keeps κ (Xlat.fault e t) ↔ t.kept = κ := Iff.rfl
@[simp] theorem Xlat.keeps_sent (κ) (t : State) :
    Xlat.Keeps κ (Xlat.sent t) ↔ t.kept = κ := Iff.rfl
@[simp] theorem Xlat.keeps_busy (κ) :
    Xlat.Keeps κ (Xlat.busy) ↔ True := Iff.rfl
@[simp] theorem Walk.keeps_done {α : Type} (κ) (x : α) (w) (t : State) :
    Walk.Keeps κ (Walk.done x w t : Walk α) ↔ t.kept = κ := Iff.rfl
@[simp] theorem Walk.keeps_fault {α : Type} (κ) (e) (t : State) :
    Walk.Keeps κ (Walk.fault e t : Walk α) ↔ t.kept = κ := Iff.rfl
@[simp] theorem Walk.keeps_sent {α : Type} (κ) (t : State) :
    Walk.Keeps κ (Walk.sent t : Walk α) ↔ t.kept = κ := Iff.rfl
@[simp] theorem Walk.keeps_busy {α : Type} (κ) :
    Walk.Keeps κ (Walk.busy : Walk α) ↔ True := Iff.rfl
@[simp] theorem Fetch.keeps_ok (κ) (t : State) :
    Fetch.Keeps κ (Fetch.ok t) ↔ t.kept = κ := Iff.rfl
@[simp] theorem Fetch.keeps_fault (κ) (e) (t : State) :
    Fetch.Keeps κ (Fetch.fault e t) ↔ t.kept = κ := Iff.rfl
@[simp] theorem Fetch.keeps_sent (κ) (t : State) :
    Fetch.Keeps κ (Fetch.sent t) ↔ t.kept = κ := Iff.rfl
@[simp] theorem Fetch.keeps_busy (κ) :
    Fetch.Keeps κ (Fetch.busy) ↔ True := Iff.rfl
@[simp] theorem Fill.keeps_ok (κ) (q) (t : State) :
    Fill.Keeps κ (Fill.ok q t) ↔ t.kept = κ := Iff.rfl
@[simp] theorem Fill.keeps_sent (κ) (t : State) :
    Fill.Keeps κ (Fill.sent t) ↔ t.kept = κ := Iff.rfl
@[simp] theorem Fill.keeps_busy (κ) :
    Fill.Keeps κ (Fill.busy) ↔ True := Iff.rfl
@[simp] theorem Gathered.keeps_all (κ) (g) (t : State) :
    Gathered.Keeps κ (Gathered.all g t) ↔ t.kept = κ := Iff.rfl
@[simp] theorem Gathered.keeps_sent (κ) (g) (t : State) :
    Gathered.Keeps κ (Gathered.sent g t) ↔ t.kept = κ := Iff.rfl
@[simp] theorem Gathered.keeps_busy (κ) :
    Gathered.Keeps κ (Gathered.busy) ↔ True := Iff.rfl
@[simp] theorem Halves.keeps_ok (κ) (p w) (t : State) :
    Halves.Keeps κ (Halves.ok p w t) ↔ t.kept = κ := Iff.rfl
@[simp] theorem Halves.keeps_fault (κ) (e) (t : State) :
    Halves.Keeps κ (Halves.fault e t) ↔ t.kept = κ := Iff.rfl
@[simp] theorem Halves.keeps_sent (κ) (t : State) :
    Halves.Keeps κ (Halves.sent t) ↔ t.kept = κ := Iff.rfl
@[simp] theorem Halves.keeps_busy (κ) :
    Halves.Keeps κ (Halves.busy) ↔ True := Iff.rfl
@[simp] theorem Drain.keeps_done (κ) (b f) (t : State) :
    Drain.Keeps κ (Drain.done b f t) ↔ t.kept = κ := Iff.rfl
@[simp] theorem Drain.keeps_bus (κ) (t : State) :
    Drain.Keeps κ (Drain.bus t) ↔ t.kept = κ := Iff.rfl
@[simp] theorem Drain.keeps_sent (κ) (t : State) :
    Drain.Keeps κ (Drain.sent t) ↔ t.kept = κ := Iff.rfl
@[simp] theorem Drain.keeps_busy (κ) :
    Drain.Keeps κ (Drain.busy) ↔ True := Iff.rfl
@[simp] theorem HubAns.keeps_ok {α : Type} (κ) (x : α) (t : State) :
    HubAns.Keeps κ (HubAns.ok x t : HubAns α) ↔ t.kept = κ := Iff.rfl
@[simp] theorem HubAns.keeps_refuse {α : Type} (κ) (t : State) :
    HubAns.Keeps κ (HubAns.refuse t : HubAns α) ↔ t.kept = κ := Iff.rfl
@[simp] theorem HubAns.keeps_poison {α : Type} (κ) (t : State) :
    HubAns.Keeps κ (HubAns.poison t : HubAns α) ↔ t.kept = κ := Iff.rfl
@[simp] theorem HubAns.keeps_busy {α : Type} (κ) :
    HubAns.Keeps κ (HubAns.busy : HubAns α) ↔ True := Iff.rfl
@[simp] theorem ShepRes.keeps_done (κ) (n d e) (t : State) :
    ShepRes.Keeps κ (ShepRes.done n t d e) ↔ t.kept = κ := Iff.rfl
@[simp] theorem ShepRes.keeps_later (κ) (t : State) :
    ShepRes.Keeps κ (ShepRes.later t) ↔ t.kept = κ := Iff.rfl
@[simp] theorem ShepRes.keeps_wait (κ) :
    ShepRes.Keeps κ (ShepRes.wait) ↔ True := Iff.rfl
@[simp] theorem optKeeps_some (κ) (t : State) : OptKeeps κ (some t) ↔ t.kept = κ := Iff.rfl
@[simp] theorem optKeeps_none (κ) : OptKeeps κ none ↔ True := Iff.rfl
@[simp] theorem optOptKeeps_some (κ) (o : Option State) : OptOptKeeps κ (some o) ↔ OptKeeps κ o := Iff.rfl
@[simp] theorem pairKeeps_some {α : Type} (κ) (x : α) (t : State) : PairKeeps κ (some (x, t)) ↔ t.kept = κ := Iff.rfl
@[simp] theorem pairKeeps_none {α : Type} (κ) : PairKeeps κ (none : Option (α × State)) ↔ True := Iff.rfl

/-! What choices, folds and optional results keep, where their parts do. -/

theorem State.ite_kept {P : Prop} [Decidable P] {κ} {s t : State} (hs : s.kept = κ) (ht : t.kept = κ) :
    (if P then s else t).kept = κ := by
  split
  · exact hs
  · exact ht

theorem OptKeeps.ite {P : Prop} [Decidable P] {κ} {o p : Option State} (ho : OptKeeps κ o)
    (hp : OptKeeps κ p) : OptKeeps κ (if P then o else p) := by
  split
  · exact ho
  · exact hp

theorem State.foldl_kept {α : Type} {κ} {f : State → α → State} {s : State} (hs : s.kept = κ)
    (h : ∀ t x, t.kept = κ → (f t x).kept = κ) (l : List α) : (l.foldl f s).kept = κ := by
  induction l generalizing s with
  | nil => exact hs
  | cons x l ih => exact ih (h s x hs)

theorem OptKeeps.foldl {α : Type} {κ} {f : Option State → α → Option State} {o : Option State}
    (ho : OptKeeps κ o) (h : ∀ o x, OptKeeps κ o → OptKeeps κ (f o x)) (l : List α) :
    OptKeeps κ (l.foldl f o) := by
  induction l generalizing o with
  | nil => exact ho
  | cons x l ih => exact ih (h o x ho)

theorem pair_foldl_kept {α β : Type} {κ} {f : β × State → α → β × State} {p : β × State}
    (hp : p.2.kept = κ) (h : ∀ q x, q.2.kept = κ → (f q x).2.kept = κ) (l : List α) :
    (l.foldl f p).2.kept = κ := by
  induction l generalizing p with
  | nil => exact hp
  | cons x l ih => exact ih (h p x hp)

theorem OptKeeps.bind {κ} {o : Option State} {f : State → Option State} (ho : OptKeeps κ o)
    (h : ∀ t, t.kept = κ → OptKeeps κ (f t)) : OptKeeps κ (o.bind f) := by
  cases o with
  | none => trivial
  | some t => exact h t ho

theorem OptKeeps.map {κ} {o : Option State} {f : State → State} (ho : OptKeeps κ o)
    (h : ∀ t, t.kept = κ → (f t).kept = κ) : OptKeeps κ (o.map f) := by
  cases o with
  | none => trivial
  | some t => exact h t ho

theorem OptKeeps.bind_any {κ} {β : Type} {f : β → Option State} (h : ∀ x, OptKeeps κ (f x))
    (o : Option β) : OptKeeps κ (o.bind f) := by
  cases o with
  | none => trivial
  | some x => exact h x

theorem PairKeeps.foldl {α β : Type} {κ} {f : Option (β × State) → α → Option (β × State)}
    {o : Option (β × State)} (ho : PairKeeps κ o) (h : ∀ o x, PairKeeps κ o → PairKeeps κ (f o x))
    (l : List α) : PairKeeps κ (l.foldl f o) := by
  induction l generalizing o with
  | nil => exact ho
  | cons x l ih => exact ih (h o x ho)

theorem PairKeeps.bind {α β : Type} {κ} {o : Option (α × State)} {f : α × State → Option (β × State)}
    (ho : PairKeeps κ o) (h : ∀ p, p.2.kept = κ → PairKeeps κ (f p)) : PairKeeps κ (o.bind f) := by
  cases o with
  | none => trivial
  | some p => exact h p ho

theorem PairKeeps.map_any {α β : Type} {κ} {f : β → α × State} (h : ∀ x, (f x).2.kept = κ)
    (o : Option β) : PairKeeps κ (o.map f) := by
  cases o with
  | none => trivial
  | some x => exact h x

theorem PairKeeps.map {α : Type} {κ} {o : Option (α × State)} {f : α × State → State} (ho : PairKeeps κ o)
    (h : ∀ p, p.2.kept = κ → (f p).kept = κ) : OptKeeps κ (o.map f) := by
  cases o with
  | none => trivial
  | some p => exact h p ho

theorem PairKeeps.map_snd {α : Type} {κ} {o : Option (α × State)} (ho : PairKeeps κ o) :
    OptKeeps κ (o.map (·.2)) := by
  cases o with
  | none => trivial
  | some p => exact ho

theorem elim_kept {α : Type} {κ} {s : State} {f : α → State} (hs : s.kept = κ)
    (h : ∀ x, (f x).kept = κ) (o : Option α) : (o.elim s f).kept = κ := by
  cases o with
  | none => exact hs
  | some x => exact h x

theorem OptKeeps.getD {κ} {o : Option State} {s : State} (ho : OptKeeps κ o) (hs : s.kept = κ) :
    (o.getD s).kept = κ := by
  cases o with
  | none => exact hs
  | some t => exact ho

theorem PairKeeps.room {α : Type} {κ} {o : Option State} {F : State → Option (α × State)} (ho : OptKeeps κ o)
    (h : ∀ t, t.kept = κ → PairKeeps κ (F t)) :
    PairKeeps κ (match (generalizing := false) o with | none => none | some t => F t) := by
  cases o with
  | none => trivial
  | some t => exact h t ho

theorem ShepRes.keeps_ite {P : Prop} [Decidable P] {κ} {x y : ShepRes} (hx : x.Keeps κ) (hy : y.Keeps κ) :
    ShepRes.Keeps κ (if P then x else y) := by
  split
  · exact hx
  · exact hy

theorem PairKeeps.map_pair {α β : Type} {κ} {o : Option (α × State)} {f : α → β} (ho : PairKeeps κ o) :
    PairKeeps κ (o.map fun y => (f y.1, y.2)) := by
  cases o with
  | none => trivial
  | some y => exact ho

theorem Out.ite_kept {P : Prop} [Decidable P] {κ} {o p : Out} (ho : Out.kept o = some κ)
    (hp : Out.kept p = some κ) : Out.kept (if P then o else p) = some κ := by
  split
  · exact ho
  · exact hp

end Sys2Proof.Machine

end

