-- ==== Sys2Proof/Proofs/KeptCore.lean ====
section
/-! SUPPORT. What the core's commands leave: TB_NOW and the queue. -/

namespace Sys2Proof.Machine

@[simp] theorem State.setCore_kept (s : State) (lc c) :
    (s.setCore lc c).kept = s.kept := rfl

@[simp] theorem State.modCore_kept (s : State) (lc f) :
    (s.modCore lc f).kept = s.kept := rfl

theorem TlbEntry.give_keeps {s : State} {κ} (hs : s.kept = κ) {x c va walk r}
    (e : TlbEntry.give x c va walk s = r) : Xlat.Keeps κ r := by
  subst e
  simp [TlbEntry.give, hs]

theorem LineRead.ofAns_keeps {s : State} {κ} (hs : s.kept = κ) {a r}
    (e : LineRead.ofAns s a = r) : LineRead.Keeps κ r := by
  subst e
  unfold LineRead.ofAns
  split <;> exact hs

@[simp] theorem State.cpSet_kept (s : State) (a v) :
    (s.cpSet a v).kept = s.kept := rfl

@[simp] theorem State.cpSetField_kept (s : State) (a lo w x) :
    (s.cpSetField a lo w x).kept = s.kept := rfl

@[simp] theorem State.count16_kept (s : State) (a n) :
    (s.count16 a n).kept = s.kept := by
  unfold State.count16
  split <;> simp

theorem State.classFor_kept {s : State} {κ} (hs : s.kept = κ) {d pid want r}
    (e : s.classFor d pid want = r) : r.2.kept = κ := by
  subst e
  unfold State.classFor
  dsimp only
  split <;> simp [hs]

@[simp] theorem State.put_kept (s : State) (m) :
    (s.put m).kept = s.kept := rfl

@[simp] theorem State.send_kept (s : State) (m) :
    (s.send m).kept = s.kept := by
  unfold State.send
  split
  · rfl
  · split <;> simp

@[simp] theorem State.countAt_kept (s : State) (a lo w n) :
    (s.countAt a lo w n).kept = s.kept := rfl

@[simp] theorem State.letThrough_kept (s : State) (u a m) :
    (s.letThrough u a m).kept = s.kept := by
  unfold State.letThrough
  extract_lets s1 s2
  have hs1 : s1.kept = s.kept := State.countAt_kept ..
  have hs2 : s2.kept = s.kept := by unfold s2; split <;> exact hs1
  rw [State.send_kept, hs2]

@[simp] theorem State.inject_kept (s : State) (u m) :
    (s.inject u m).kept = s.kept := by
  unfold State.inject
  split
  · rw [State.send_kept]
  · split
    · rw [State.send_kept]
    · extract_lets never src
      have hsrc : src.kept = s.kept := State.cpSetField_kept ..
      split <;> simp [hsrc]

theorem State.bankReq_keeps {s : State} {κ} (hs : s.kept = κ) {d lc m way p r}
    (e : s.bankReq d lc m way p = r) : OptKeeps κ r := by
  subst e
  unfold State.bankReq
  extract_lets line st
  split
  · trivial
  · split
    rename_i cls s1 e
    have hs1 : s1.kept = κ := State.classFor_kept hs e
    extract_lets m1 s2
    have hs2 : s2.kept = κ := by unfold s2; rw [State.kept_mk, State.tb_pending, hs1]
    rw [optKeeps_some, State.inject_kept, hs2]

theorem State.waitDie_keeps {s : State} {κ} (hs : s.kept = κ) {a r}
    (e : s.waitDie a = r) : LineRead.Keeps κ r := by
  subst e
  unfold State.waitDie
  split <;> simp [hs]

@[simp] theorem State.setDie_kept (s : State) (d x) :
    (s.setDie d x).kept = s.kept := rfl

@[simp] theorem State.dropL1d_kept (s : State) (d sl line) :
    (s.dropL1d d sl line).kept = s.kept := by
  unfold State.dropL1d
  split <;> simp

@[simp] theorem State.deliverL1i_kept (s : State) (d sl line) :
    (s.deliverL1i d sl line).kept = s.kept := by
  unfold State.deliverL1i
  split <;> simp

@[simp] theorem State.modDie_kept (s : State) (d f) :
    (s.modDie d f).kept = s.kept := rfl

@[simp] theorem State.invalL1_kept (s : State) (d line keep) :
    (s.invalL1 d line keep).kept = s.kept := by
  unfold State.invalL1
  extract_lets u ds v s1 s2 mask
  have hs1 : s1.kept = s.kept :=
    State.foldl_kept rfl (fun s3 x hs3 => by rw [State.dropL1d_kept, hs3]) _
  have hs2 : s2.kept = s.kept :=
    State.foldl_kept hs1 (fun s3 x hs3 => by rw [State.deliverL1i_kept, hs3]) _
  rw [State.modDie_kept, hs2]

@[simp] theorem State.sendEvict_kept (s : State) (d line x3 y u cls p) :
    (s.sendEvict d line x3 y u cls p).kept = s.kept := by
  simp [State.sendEvict]

@[simp] theorem State.evictSector_kept (s : State) (d set w x4 u cls) :
    (s.evictSector d set w x4 u cls).kept = s.kept := by
  unfold State.evictSector
  extract_lets se bs old
  split
  · rfl
  · extract_lets s1 s2
    have hs1 : s1.kept = s.kept :=
      State.foldl_kept rfl (fun s3 x hs3 => by rw [State.invalL1_kept, hs3]) _
    have hs2 : s2.kept = s.kept := (State.modDie_kept ..).trans hs1
    exact State.foldl_kept hs2 (fun s3 x hs3 => by rw [State.sendEvict_kept, hs3]) _

theorem State.alloc_keeps {s : State} {κ} (hs : s.kept = κ) {d line u cls r}
    (e : s.alloc d line u cls = r) : Alloc.Keeps κ r := by
  subst e
  unfold State.alloc
  extract_lets x set mode usable free v elig w se
  split
  · exact hs
  · split
    · exact hs
    · split
      · trivial
      · split
        · trivial
        · split
          · rw [Alloc.keeps_way, State.setDie_kept, hs]
          · split <;> simp [hs]

@[simp] theorem State.missed_kept (s : State) (lc) :
    (s.missed lc).kept = s.kept := rfl

theorem State.askHome_keeps {s : State} {κ} (hs : s.kept = κ) {k line once p r}
    (e : s.askHome k line once p = r) : LineRead.Keeps κ r := by
  subst e
  unfold State.askHome
  extract_lets m sendOnce
  have hsendOnce : ∀ t0, t0.kept = κ → LineRead.Keeps κ (sendOnce t0) := by
    intro s1 hs1
    unfold sendOnce
    split
    · rename_i s2 e
      have hs2 : s2.kept = κ := State.bankReq_keeps hs1 e
      exact hs2
    · exact State.waitDie_keeps hs1 rfl
  split
  · exact State.waitDie_keeps hs rfl
  · split
    · apply hsendOnce
      exact hs
    · split
      · exact State.waitDie_keeps hs rfl
      · apply hsendOnce
        rw [State.missed_kept, State.count16_kept, hs]
      · rename_i w s1 e
        have hs1 : s1.kept = κ := State.alloc_keeps hs e
        extract_lets m1
        split
        · rename_i s2 e1
          have hs2 : s2.kept = κ := State.bankReq_keeps hs1 e1
          rw [LineRead.keeps_sent, State.missed_kept, hs2]
        · exact State.waitDie_keeps hs1 rfl

theorem State.takeBeats_kept {s : State} {κ} (hs : s.kept = κ) {r}
    (e : s.takeBeats = r) : r.2.kept = κ := by
  subst e
  simp [State.takeBeats, hs]

@[simp] theorem State.shareL1_kept (s : State) (d line keep) :
    (s.shareL1 d line keep).kept = s.kept := by
  unfold State.shareL1
  refine State.foldl_kept rfl (fun s1 x hs1 => ?_) _
  split <;> simp [hs1]

theorem State.readDc_keeps {s : State} {κ} (hs : s.kept = κ) {k line fixed p r}
    (e : s.readDc k line fixed p = r) : LineRead.Keeps κ r := by
  subst e
  unfold State.readDc
  extract_lets x
  split
  · extract_lets u
    split
    · exact State.askHome_keeps hs rfl
    · split
      · exact State.askHome_keeps hs rfl
      · split
        · split
          rename_i b s1 e
          have hs1 : s1.kept = κ := State.takeBeats_kept (by rw [State.shareL1_kept, hs]) e
          rw [LineRead.keeps_hit, State.modDie_kept, hs1]
        · rw [LineRead.keeps_hit, State.modDie_kept, hs]
  · exact State.askHome_keeps hs rfl

@[simp] theorem State.awaitLine_kept (s : State) (lc walk line) :
    (s.awaitLine lc walk line).kept = s.kept := rfl

@[simp] theorem State.regionsAfter_kept (s : State) (st) :
    (s.regionsAfter st).kept = s.kept := by
  unfold State.regionsAfter
  split
  · rfl
  · exact State.foldl_kept rfl (fun s1 x hs1 => by rw [State.cpSet_kept, hs1]) _

@[simp] theorem State.sendInt_kept (s : State) (m p) :
    (s.sendInt m p).kept = s.kept := by
  simp [State.sendInt]

@[simp] theorem State.raiseHub_kept (s : State) (st i) :
    (s.raiseHub st i).kept = s.kept := by
  unfold State.raiseHub
  split <;> simp

@[simp] theorem State.event_kept (s : State) (world x2) :
    (s.event world x2).kept = s.kept := by
  unfold State.event
  extract_lets k q e s1
  have hs1 : s1.kept = s.kept := by unfold s1; rw [State.kept_mk, State.tb_pending]
  split
  · rfl
  · split
    · exact hs1
    · split <;> simp [hs1]

@[simp] theorem State.pastureDeny_kept (s : State) (st n a world pid p src) :
    (s.pastureDeny st n a world pid p src).kept = s.kept := by
  unfold State.pastureDeny
  extract_lets k first s1 log s2 s3 recent
  have hs1 : s1.kept = s.kept := State.count16_kept ..
  have hs2 : s2.kept = s.kept := (State.cpSet_kept ..).trans hs1
  have hs3 : s3.kept = s.kept := by
    unfold s3
    split
    · exact hs1
    · rw [State.cpSet_kept, hs2]
  split
  · rw [State.event_kept, State.kept_mk, State.tb_pending, hs3]
  · exact hs3

theorem State.checkPasture_kept {s : State} {κ} (hs : s.kept = κ) {st n a world pid p src r}
    (e : s.checkPasture st n a world pid p src = r) : r.2.kept = κ := by
  subst e
  unfold State.checkPasture
  split
  · dsimp only
    exact hs
  · split
    · dsimp only
      exact hs
    · split
      · dsimp only
        exact hs
      · dsimp only
        rw [State.pastureDeny_kept, hs]

theorem State.readScratch_keeps {s : State} {κ} (hs : s.kept = κ) {k a bytes perm fixed r}
    (e : s.readScratch k a bytes perm fixed = r) : LineRead.Keeps κ r := by
  subst e
  unfold State.readScratch
  split
  · exact hs
  · split
    rename_i ok s1 e
    have hs1 : s1.kept = κ := State.checkPasture_kept hs e
    split <;> exact hs1

@[simp] theorem State.slotReq_kept (s : State) (k kind dest a bytes txid data mask lvl pid want p) :
    (s.slotReq k kind dest a bytes txid data mask lvl pid want p).kept = s.kept := by
  unfold State.slotReq
  extract_lets st txid1
  split
  rename_i cls s1 e
  have hs1 : s1.kept = s.kept := State.classFor_kept rfl e
  extract_lets m s2
  have hs2 : s2.kept = s.kept := by unfold s2; rw [State.kept_mk, State.tb_pending, hs1]
  rw [State.inject_kept, hs2]

@[simp] theorem State.askScratch_kept (s : State) (k a p) :
    (s.askScratch k a p).kept = s.kept := by
  simp [State.askScratch]

theorem State.walkRead_keeps {s : State} {κ} (hs : s.kept = κ) {k0 pa r}
    (e : s.walkRead k0 pa = r) : LineRead.Keeps κ r := by
  subst e
  unfold State.walkRead
  extract_lets line k
  split
  · exact LineRead.ofAns_keeps hs rfl
  · split
    · split
      · rename_i s1 e
        have hs1 : s1.kept = κ := State.readDc_keeps hs e
        rw [LineRead.keeps_sent, State.awaitLine_kept, hs1]
      · exact State.readDc_keeps hs rfl
    · split
      · exact State.readScratch_keeps hs rfl
      · split <;> simp [hs]
    · exact hs

theorem State.walk2_keeps {s : State} {κ} (hs : s.kept = κ) {k ipa code x4 n lvl base beats r}
    (e : s.walk2 k ipa code x4 n lvl base beats = r) : Walk.Keeps κ r := by
  induction n generalizing s k ipa code x4 lvl base beats r with
  | zero =>
    subst e
    rw [State.walk2]
    rw [Walk.keeps_fault]
    exact hs
  | succ n' ih =>
    subst e
    rw [State.walk2]
    split
    · rw [Walk.keeps_busy]
      trivial
    · rename_i s1 e
      have hs1 : s1.kept = κ := State.walkRead_keeps hs e
      rw [Walk.keeps_sent]
      exact hs1
    · rename_i s1 e
      have hs1 : s1.kept = κ := State.walkRead_keeps hs e
      rw [Walk.keeps_fault]
      exact hs1
    · rename_i d pois b s1 e
      have hs1 : s1.kept = κ := State.walkRead_keeps hs e
      split
      · rw [Walk.keeps_fault]
        exact hs1
      · split
        · rw [Walk.keeps_fault]
          exact hs1
        · rw [Walk.keeps_done]
          exact hs1
        · exact ih hs1 rfl

theorem State.tablePa_keeps {s : State} {κ} (hs : s.kept = κ) {k ipa lvl x4 beats r}
    (e : s.tablePa k ipa lvl x4 beats = r) : Walk.Keeps κ r := by
  subst e
  unfold State.tablePa
  extract_lets c tbl
  split
  · exact hs
  · split
    · trivial
    · rename_i s1 e
      have hs1 : s1.kept = κ := State.walk2_keeps hs e
      exact hs1
    · rename_i f s1 e
      have hs1 : s1.kept = κ := State.walk2_keeps hs e
      exact hs1
    · rename_i l b s1 e
      have hs1 : s1.kept = κ := State.walk2_keeps hs e
      repeat' split
      all_goals exact hs1

theorem State.walk1_keeps {s : State} {κ} (hs : s.kept = κ) {k va x3 n lvl base beats r}
    (e : s.walk1 k va x3 n lvl base beats = r) : Walk.Keeps κ r := by
  induction n generalizing s k va x3 lvl base beats r with
  | zero =>
    subst e
    rw [State.walk1]
    rw [Walk.keeps_fault]
    exact hs
  | succ n' ih =>
    subst e
    rw [State.walk1]
    split
    · rw [Walk.keeps_busy]
      trivial
    · rename_i s1 e
      have hs1 : s1.kept = κ := State.tablePa_keeps hs e
      rw [Walk.keeps_sent]
      exact hs1
    · rename_i f s1 e
      have hs1 : s1.kept = κ := State.tablePa_keeps hs e
      rw [Walk.keeps_fault]
      exact hs1
    · rename_i a beats1 s1 e
      have hs1 : s1.kept = κ := State.tablePa_keeps hs e
      split
      · rw [Walk.keeps_busy]
        trivial
      · rename_i s2 e1
        have hs2 : s2.kept = κ := State.walkRead_keeps hs1 e1
        rw [Walk.keeps_sent]
        exact hs2
      · rename_i s2 e1
        have hs2 : s2.kept = κ := State.walkRead_keeps hs1 e1
        rw [Walk.keeps_fault]
        exact hs2
      · rename_i d pois b s2 e1
        have hs2 : s2.kept = κ := State.walkRead_keeps hs1 e1
        split
        · rw [Walk.keeps_fault]
          exact hs2
        · split
          · rw [Walk.keeps_fault]
            exact hs2
          · rw [Walk.keeps_done]
            exact hs2
          · exact ih hs2 rfl

theorem State.walkBoth_keeps {s : State} {κ} (hs : s.kept = κ) {k acc lvls va x5 r}
    (e : s.walkBoth k acc lvls va x5 = r) : Walk.Keeps κ r := by
  subst e
  unfold State.walkBoth
  extract_lets c held b0 on1 on2 none1 r1
  have hr1 : Walk.Keeps κ r1 := by
    unfold r1
    split
    · exact State.walk1_keeps hs rfl
    · exact hs
  clear_value r1
  clear_value c held b0 on1 on2 none1
  split
  · trivial
  · split
    · trivial
    · rename_i s1
      have hs1 : s1.kept = κ := hr1
      exact hs1
    · rename_i s1
      have hs1 : s1.kept = κ := hr1
      exact hs1
    · rename_i s1
      have hs1 : s1.kept = κ := hr1
      extract_lets ipa r2 sz1
      have hr2 : Walk.Keeps κ r2 := by
        unfold r2
        split
        · exact State.walk2_keeps hs1 rfl
        · exact hs1
      clear_value r2
      clear_value ipa sz1
      split
      · exact hs1
      · split
        · trivial
        · rename_i s2
          have hs2 : s2.kept = κ := hr2
          exact hs2
        · rename_i s2
          have hs2 : s2.kept = κ := hr2
          exact hs2
        · rename_i s2
          have hs2 : s2.kept = κ := hr2
          extract_lets sz2 sz pa low
          clear_value sz2 sz pa low
          split <;> exact hs2

theorem State.translate_keeps {s : State} {κ} (hs : s.kept = κ) {k acc lvl va second check r}
    (e : s.translate k acc lvl va second check = r) : Xlat.Keeps κ r := by
  subst e
  unfold State.translate
  extract_lets c e fetch t va1 finish s1
  have hfinish : ∀ x0 x1 t2, t2.kept = κ → Xlat.Keeps κ (finish x0 x1 t2) := by
    intro x0 x1 s2 hs2
    unfold finish
    split
    · exact hs2
    · exact TlbEntry.give_keeps hs2 rfl
  have hs1 : s1.kept = κ := by unfold s1; split <;> simp [hs]
  split
  · exact hs
  · split
    · exact hs
    · split
      · exact hs
      · split
        · split
          · apply hfinish
            rw [State.modCore_kept, hs]
          · trivial
        · split
          · split
            · extract_lets pl t1 pin
              apply hfinish
              rw [State.modCore_kept, hs]
            · trivial
          · split
            · trivial
            · rename_i s2 e1
              have hs2 : s2.kept = κ := State.walkBoth_keeps hs1 e1
              exact hs2
            · rename_i f s2 e1
              have hs2 : s2.kept = κ := State.walkBoth_keeps hs1 e1
              exact hs2
            · rename_i x b s2 e1
              have hs2 : s2.kept = κ := State.walkBoth_keeps hs1 e1
              extract_lets t1
              split
              exact TlbEntry.give_keeps (by rw [State.modCore_kept, hs2]) rfl

theorem State.frameLines_keeps {s : State} {κ} (hs : s.kept = κ) {k lvl acc a r}
    (e : s.frameLines k lvl acc a = r) : Walk.Keeps κ r := by
  induction a generalizing s k lvl acc r with
  | nil =>
    subst e
    rw [State.frameLines]
    rw [Walk.keeps_done]
    exact hs
  | cons x l' ih =>
    subst e
    rw [State.frameLines]
    split
    · rw [Walk.keeps_busy]
      trivial
    · rename_i s1 e
      have hs1 : s1.kept = κ := State.translate_keeps hs e
      rw [Walk.keeps_sent]
      exact hs1
    · rename_i e s1 e1
      have hs1 : s1.kept = κ := State.translate_keeps hs e1
      rw [Walk.keeps_fault]
      exact hs1
    · rename_i pa mt ws b s1 e
      have hs1 : s1.kept = κ := State.translate_keeps hs e
      split
      · rename_i ps b1 s2 e1
        have hs2 : s2.kept = κ := ih hs1 e1
        rw [Walk.keeps_done]
        exact hs2
      · rename_i e1 s2 e2
        have hs2 : s2.kept = κ := ih hs1 e2
        rw [Walk.keeps_fault]
        exact hs2
      · rename_i s2 e1
        have hs2 : s2.kept = κ := ih hs1 e1
        rw [Walk.keeps_sent]
        exact hs2
      · rw [Walk.keeps_busy]
        trivial

theorem State.takeFree_kept {s : State} {κ} (hs : s.kept = κ) {w r}
    (e : s.takeFree w = r) : r.2.kept = κ := by
  subst e
  simp [State.takeFree, hs]

theorem State.orFree_kept {s : State} {κ} (hs : s.kept = κ) {w a r}
    (e : s.orFree w a = r) : r.2.kept = κ := by
  subst e
  unfold State.orFree
  split
  · dsimp only
    exact hs
  · exact State.takeFree_kept hs rfl

@[simp] theorem State.cpSet64_kept (s : State) (a v) :
    (s.cpSet64 a v).kept = s.kept := by
  unfold State.cpSet64
  rw [State.cpSet_kept, State.cpSet_kept]

@[simp] theorem State.report_kept (s : State) (st cls source loc d0 d1 crit) :
    (s.report st cls source loc d0 d1 crit).kept = s.kept := by
  unfold State.report
  extract_lets a w
  split
  · rw [State.countAt_kept]
  · split
    rename_i x0 s1 e
    have hs1 : s1.kept = s.kept := State.orFree_kept rfl e
    split
    rename_i x1 s2 e1
    have hs2 : s2.kept = s.kept := State.orFree_kept hs1 e1
    extract_lets s3 s4 s5 s6 s7
    have hs3 : s3.kept = s.kept := (State.cpSet_kept ..).trans hs2
    have hs4 : s4.kept = s.kept := (State.cpSet64_kept ..).trans hs3
    have hs5 : s5.kept = s.kept := (State.cpSet64_kept ..).trans hs4
    have hs6 : s6.kept = s.kept := (State.cpSet_kept ..).trans hs5
    have hs7 : s7.kept = s.kept := (State.cpSet64_kept ..).trans hs6
    rw [State.kept_mk, State.tb_pending, hs7]

@[simp] theorem State.coreStop_kept (s : State) (lc loc) :
    (s.coreStop lc loc).kept = s.kept := by
  unfold State.coreStop
  split <;> simp

@[simp] theorem State.modSrc_kept (s : State) (d i f) :
    (s.modSrc d i f).kept = s.kept := rfl

@[simp] theorem State.acknowledge_kept (s : State) (lc k) :
    (s.acknowledge lc k).kept = s.kept := by
  unfold State.acknowledge
  split <;> simp

theorem State.enterFrame_keeps {s : State} {κ} (hs : s.kept = κ) {k x2 sp scr r}
    (e : s.enterFrame k x2 sp scr = r) : OptKeeps κ r := by
  subst e
  unfold State.enterFrame
  extract_lets lc c c0 world st ws
  split
  · trivial
  · split
    · trivial
    · rename_i s1 e
      have hs1 : s1.kept = κ := State.frameLines_keeps (by rw [State.setCore_kept, hs]) e
      rw [optKeeps_some, State.modCore_kept, hs1]
    · rename_i e s1 e1
      have hs1 : s1.kept = κ := State.frameLines_keeps (by rw [State.setCore_kept, hs]) e1
      rw [optKeeps_some, State.coreStop_kept, State.modCore_kept, hs1]
    · rename_i ps walk s1 e
      have hs1 : s1.kept = κ := State.frameLines_keeps (by rw [State.setCore_kept, hs]) e
      extract_lets s2 s3
      have hs2 : s2.kept = κ := by unfold s2; split <;> simp [hs1]
      have hs3 : s3.kept = κ := (State.modCore_kept ..).trans hs2
      exact hs3

theorem State.enter_keeps {s : State} {κ} (hs : s.kept = κ) {k x2 r}
    (e : s.enter k x2 = r) : OptKeeps κ r := by
  subst e
  unfold State.enter
  extract_lets lc scr s1 c xsp sp ok
  have hs1 : s1.kept = κ := (State.modCore_kept ..).trans hs
  split
  · exact State.enterFrame_keeps hs1 rfl
  · split
    · rw [optKeeps_some, State.coreStop_kept, hs1]
    · split
      · exact State.enterFrame_keeps hs1 rfl
      · rw [optKeeps_some, State.coreStop_kept, hs1]

theorem State.raiseStoreBus_keeps {s : State} {κ} (hs : s.kept = κ) {k b r}
    (e : s.raiseStoreBus k b = r) : OptKeeps κ r := by
  subst e
  unfold State.raiseStoreBus
  exact State.enter_keeps hs rfl

theorem State.enterInterrupt_keeps {s : State} {κ} (hs : s.kept = κ) {k src tgt r}
    (e : s.enterInterrupt k src tgt = r) : OptKeeps κ r := by
  subst e
  unfold State.enterInterrupt
  exact State.enter_keeps hs rfl

theorem State.boundary_keeps {s : State} {κ} (hs : s.kept = κ) {k r}
    (e : s.boundary k = r) : OptOptKeeps κ r := by
  subst e
  unfold State.boundary
  split
  · rw [optOptKeeps_some]
    exact State.raiseStoreBus_keeps hs rfl
  · split
    · rw [optOptKeeps_some]
      exact State.enterInterrupt_keeps hs rfl
    · trivial

@[simp] theorem State.keepSector_kept (s : State) (k pa) :
    (s.keepSector k pa).kept = s.kept := by
  unfold State.keepSector
  split
  · rfl
  · extract_lets sec s1
    have hs1 : s1.kept = s.kept := State.modCore_kept ..
    split <;> simp [hs1]

@[simp] theorem State.fillL1i_kept (s : State) (d lc l) :
    (s.fillL1i d lc l).kept = s.kept := by
  unfold State.fillL1i
  extract_lets sl
  split
  extract_lets s1 s2
  have hs1 : s1.kept = s.kept := State.modCore_kept ..
  have hs2 : s2.kept = s.kept := by unfold s2; split <;> simp [hs1]
  rw [State.modDie_kept, hs2]

theorem fetchLine_keeps {κ} {k line install x3 a r}
    (ha : LineRead.Keeps κ a) (e : fetchLine k line install x3 a = r) : Fetch.Keeps κ r := by
  subst e
  unfold fetchLine
  split
  · trivial
  · rename_i s1
    have hs1 : s1.kept = κ := ha
    rw [Fetch.keeps_sent, State.awaitLine_kept, hs1]
  · rename_i s1
    have hs1 : s1.kept = κ := ha
    exact hs1
  · rename_i s1
    have hs1 : s1.kept = κ := ha
    extract_lets s2 s3
    have hs2 : s2.kept = κ := (State.modCore_kept ..).trans hs1
    have hs3 : s3.kept = κ := by unfold s3; split <;> simp [hs2]
    split <;> simp [hs1, hs3]

theorem State.fetchWord_keeps {s : State} {κ} (hs : s.kept = κ) {k0 pc r}
    (e : s.fetchWord k0 pc = r) : Fetch.Keeps κ r := by
  subst e
  unfold State.fetchWord
  extract_lets c k01 e
  clear_value c k01 e
  split
  · trivial
  · rename_i s1 e1
    have hs1 : s1.kept = κ := State.translate_keeps hs e1
    exact hs1
  · rename_i e1 s1 e2
    have hs1 : s1.kept = κ := State.translate_keeps hs e2
    exact hs1
  · rename_i pa mt ws b s1 e1
    have hs1 : s1.kept = κ := State.translate_keeps hs e1
    extract_lets s2 k line cached l1hit b1 w s3 r
    have hs2 : s2.kept = κ := (State.modCore_kept ..).trans hs1
    clear_value s2
    have hs3 : s3.kept = κ := (State.modCore_kept ..).trans hs2
    clear_value s3
    have hr : LineRead.Keeps κ r := by
      unfold r
      split
      · exact State.askHome_keeps hs3 rfl
      · exact State.readDc_keeps hs3 rfl
    clear_value r
    clear_value k line cached l1hit b1 w
    split
    · rw [Fetch.keeps_ok, State.keepSector_kept, State.modCore_kept, hs2]
    · split
      · trivial
      · split
        · refine fetchLine_keeps ?_ rfl
          exact LineRead.ofAns_keeps hs3 rfl
        · split
          · split
            · refine fetchLine_keeps ?_ rfl
              exact hr
            · refine fetchLine_keeps ?_ rfl
              exact State.askHome_keeps hs3 rfl
          · split
            · refine fetchLine_keeps ?_ rfl
              exact State.readScratch_keeps hs3 rfl
            · split <;> simp [hs3]
          · rw [Fetch.keeps_sent, State.awaitLine_kept, State.slotReq_kept, hs3]
          · exact hs3

theorem State.fetch_keeps {s : State} {κ} (hs : s.kept = κ) {k r}
    (e : s.fetch k = r) : Fetch.Keeps κ r := by
  subst e
  unfold State.fetch
  split
  · exact hs
  · exact hs
  · exact State.fetchWord_keeps hs rfl

theorem State.raise_keeps {s : State} {κ} (hs : s.kept = κ) {k x2 cost r}
    (e : s.raise k x2 cost = r) : OptKeeps κ r := by
  subst e
  unfold State.raise
  exact State.enter_keeps hs rfl

theorem State.issue_kept {s : State} {κ} (hs : s.kept = κ) {lc n body}
    (hbody : ∀ x0 x1 t2, t2.kept = κ → OptKeeps κ (body x0 x1 t2)) :
    Out.kept (s.issue lc n body) = some κ := by
  unfold State.issue
  split
  · exact congrArg some hs
  · split
    · exact congrArg some hs
    · split
      · rename_i r e
        have hr : OptKeeps κ r := State.boundary_keeps hs e
        exact congrArg some (OptKeeps.getD hr hs)
      · split
        · exact congrArg some hs
        · rename_i s1 e
          have hs1 : s1.kept = κ := State.fetch_keeps hs e
          exact congrArg some hs1
        · rename_i e s1 e1
          have hs1 : s1.kept = κ := State.fetch_keeps hs e1
          exact congrArg some (OptKeeps.getD (State.raise_keeps hs1 rfl) hs)
        · rename_i s1 e
          have hs1 : s1.kept = κ := State.fetch_keeps hs e
          refine congrArg some ?_
          refine OptKeeps.getD ?_ hs
          apply hbody
          rw [State.setCore_kept, hs1]

@[simp] theorem State.issueCore_kept (s : State) (lc n f) :
    Out.kept (s.issueCore lc n f) = some s.kept := by
  unfold State.issueCore
  exact State.issue_kept rfl
      fun x0 x1 s1 hs1 => by rw [optKeeps_some, State.modCore_kept, hs1]

@[simp] theorem State.scalar_kept (s : State) (lc rd src cost f) :
    Out.kept (s.scalar lc rd src cost f) = some s.kept := by
  unfold State.scalar
  rw [State.issueCore_kept]

@[simp] theorem State.aluImm_kept (s : State) (lc rd ra b f) :
    Out.kept (s.aluImm lc rd ra b f) = some s.kept := by
  unfold State.aluImm
  rw [State.scalar_kept]

@[simp] theorem execAddi_kept (s : State) (lc rd ra imm) :
    Out.kept (execAddi lc rd ra imm s) = some s.kept := by
  unfold execAddi
  rw [State.aluImm_kept]

@[simp] theorem execAndi_kept (s : State) (lc rd ra imm) :
    Out.kept (execAndi lc rd ra imm s) = some s.kept := by
  unfold execAndi
  rw [State.aluImm_kept]

@[simp] theorem execOri_kept (s : State) (lc rd ra imm) :
    Out.kept (execOri lc rd ra imm s) = some s.kept := by
  unfold execOri
  rw [State.aluImm_kept]

@[simp] theorem execXori_kept (s : State) (lc rd ra imm) :
    Out.kept (execXori lc rd ra imm s) = some s.kept := by
  unfold execXori
  rw [State.aluImm_kept]

@[simp] theorem execSlti_kept (s : State) (lc rd ra imm) :
    Out.kept (execSlti lc rd ra imm s) = some s.kept := by
  unfold execSlti
  rw [State.aluImm_kept]

@[simp] theorem execSltiu_kept (s : State) (lc rd ra imm) :
    Out.kept (execSltiu lc rd ra imm s) = some s.kept := by
  unfold execSltiu
  rw [State.aluImm_kept]

@[simp] theorem execSlli_kept (s : State) (lc rd ra n) :
    Out.kept (execSlli lc rd ra n s) = some s.kept := by
  unfold execSlli
  rw [State.scalar_kept]

@[simp] theorem execSrli_kept (s : State) (lc rd ra n) :
    Out.kept (execSrli lc rd ra n s) = some s.kept := by
  unfold execSrli
  rw [State.scalar_kept]

@[simp] theorem execSrai_kept (s : State) (lc rd ra n) :
    Out.kept (execSrai lc rd ra n s) = some s.kept := by
  unfold execSrai
  rw [State.scalar_kept]

@[simp] theorem execKset_kept (s : State) (lc rd imm) :
    Out.kept (execKset lc rd imm s) = some s.kept := by
  unfold execKset
  rw [State.scalar_kept]

@[simp] theorem execKsetu_kept (s : State) (lc rd imm) :
    Out.kept (execKsetu lc rd imm s) = some s.kept := by
  unfold execKsetu
  rw [State.scalar_kept]

@[simp] theorem execKapp_kept (s : State) (lc rd imm) :
    Out.kept (execKapp lc rd imm s) = some s.kept := by
  unfold execKapp
  rw [State.scalar_kept]

@[simp] theorem State.alu_kept (s : State) (lc rd ra rb cost f) :
    Out.kept (s.alu lc rd ra rb cost f) = some s.kept := by
  unfold State.alu
  rw [State.scalar_kept]

@[simp] theorem execAdd_kept (s : State) (lc rd ra rb) :
    Out.kept (execAdd lc rd ra rb s) = some s.kept := by
  unfold execAdd
  rw [State.alu_kept]

@[simp] theorem execSub_kept (s : State) (lc rd ra rb) :
    Out.kept (execSub lc rd ra rb s) = some s.kept := by
  unfold execSub
  rw [State.alu_kept]

@[simp] theorem execAnd_kept (s : State) (lc rd ra rb) :
    Out.kept (execAnd lc rd ra rb s) = some s.kept := by
  unfold execAnd
  rw [State.alu_kept]

@[simp] theorem execOr_kept (s : State) (lc rd ra rb) :
    Out.kept (execOr lc rd ra rb s) = some s.kept := by
  unfold execOr
  rw [State.alu_kept]

@[simp] theorem execXor_kept (s : State) (lc rd ra rb) :
    Out.kept (execXor lc rd ra rb s) = some s.kept := by
  unfold execXor
  rw [State.alu_kept]

@[simp] theorem execSll_kept (s : State) (lc rd ra rb) :
    Out.kept (execSll lc rd ra rb s) = some s.kept := by
  unfold execSll
  rw [State.alu_kept]

@[simp] theorem execSrl_kept (s : State) (lc rd ra rb) :
    Out.kept (execSrl lc rd ra rb s) = some s.kept := by
  unfold execSrl
  rw [State.alu_kept]

@[simp] theorem execSra_kept (s : State) (lc rd ra rb) :
    Out.kept (execSra lc rd ra rb s) = some s.kept := by
  unfold execSra
  rw [State.alu_kept]

@[simp] theorem execSlt_kept (s : State) (lc rd ra rb) :
    Out.kept (execSlt lc rd ra rb s) = some s.kept := by
  unfold execSlt
  rw [State.alu_kept]

@[simp] theorem execSltu_kept (s : State) (lc rd ra rb) :
    Out.kept (execSltu lc rd ra rb s) = some s.kept := by
  unfold execSltu
  rw [State.alu_kept]

@[simp] theorem execMin_kept (s : State) (lc rd ra rb) :
    Out.kept (execMin lc rd ra rb s) = some s.kept := by
  unfold execMin
  rw [State.alu_kept]

@[simp] theorem execMax_kept (s : State) (lc rd ra rb) :
    Out.kept (execMax lc rd ra rb s) = some s.kept := by
  unfold execMax
  rw [State.alu_kept]

@[simp] theorem execMinu_kept (s : State) (lc rd ra rb) :
    Out.kept (execMinu lc rd ra rb s) = some s.kept := by
  unfold execMinu
  rw [State.alu_kept]

@[simp] theorem execMaxu_kept (s : State) (lc rd ra rb) :
    Out.kept (execMaxu lc rd ra rb s) = some s.kept := by
  unfold execMaxu
  rw [State.alu_kept]

@[simp] theorem execAddw_kept (s : State) (lc rd ra rb) :
    Out.kept (execAddw lc rd ra rb s) = some s.kept := by
  unfold execAddw
  rw [State.alu_kept]

@[simp] theorem execSubw_kept (s : State) (lc rd ra rb) :
    Out.kept (execSubw lc rd ra rb s) = some s.kept := by
  unfold execSubw
  rw [State.alu_kept]

@[simp] theorem execSllw_kept (s : State) (lc rd ra rb) :
    Out.kept (execSllw lc rd ra rb s) = some s.kept := by
  unfold execSllw
  rw [State.alu_kept]

@[simp] theorem execSrlw_kept (s : State) (lc rd ra rb) :
    Out.kept (execSrlw lc rd ra rb s) = some s.kept := by
  unfold execSrlw
  rw [State.alu_kept]

@[simp] theorem execSraw_kept (s : State) (lc rd ra rb) :
    Out.kept (execSraw lc rd ra rb s) = some s.kept := by
  unfold execSraw
  rw [State.alu_kept]

@[simp] theorem execClz_kept (s : State) (lc rd ra) :
    Out.kept (execClz lc rd ra s) = some s.kept := by
  unfold execClz
  rw [State.scalar_kept]

@[simp] theorem execCtz_kept (s : State) (lc rd ra) :
    Out.kept (execCtz lc rd ra s) = some s.kept := by
  unfold execCtz
  rw [State.scalar_kept]

@[simp] theorem execPopc_kept (s : State) (lc rd ra) :
    Out.kept (execPopc lc rd ra s) = some s.kept := by
  unfold execPopc
  rw [State.scalar_kept]

@[simp] theorem execMul_kept (s : State) (lc rd ra rb) :
    Out.kept (execMul lc rd ra rb s) = some s.kept := by
  unfold execMul
  rw [State.alu_kept]

@[simp] theorem execMulh_kept (s : State) (lc rd ra rb) :
    Out.kept (execMulh lc rd ra rb s) = some s.kept := by
  unfold execMulh
  rw [State.alu_kept]

@[simp] theorem execMulhu_kept (s : State) (lc rd ra rb) :
    Out.kept (execMulhu lc rd ra rb s) = some s.kept := by
  unfold execMulhu
  rw [State.alu_kept]

@[simp] theorem execMulw_kept (s : State) (lc rd ra rb) :
    Out.kept (execMulw lc rd ra rb s) = some s.kept := by
  unfold execMulw
  rw [State.alu_kept]

@[simp] theorem execDiv_kept (s : State) (lc rd ra rb) :
    Out.kept (execDiv lc rd ra rb s) = some s.kept := by
  unfold execDiv
  rw [State.alu_kept]

@[simp] theorem execDivu_kept (s : State) (lc rd ra rb) :
    Out.kept (execDivu lc rd ra rb s) = some s.kept := by
  unfold execDivu
  rw [State.alu_kept]

@[simp] theorem execRem_kept (s : State) (lc rd ra rb) :
    Out.kept (execRem lc rd ra rb s) = some s.kept := by
  unfold execRem
  rw [State.alu_kept]

@[simp] theorem execRemu_kept (s : State) (lc rd ra rb) :
    Out.kept (execRemu lc rd ra rb s) = some s.kept := by
  unfold execRemu
  rw [State.alu_kept]

@[simp] theorem execDivw_kept (s : State) (lc rd ra rb) :
    Out.kept (execDivw lc rd ra rb s) = some s.kept := by
  unfold execDivw
  rw [State.alu_kept]

@[simp] theorem execDivuw_kept (s : State) (lc rd ra rb) :
    Out.kept (execDivuw lc rd ra rb s) = some s.kept := by
  unfold execDivuw
  rw [State.alu_kept]

@[simp] theorem execRemw_kept (s : State) (lc rd ra rb) :
    Out.kept (execRemw lc rd ra rb s) = some s.kept := by
  unfold execRemw
  rw [State.alu_kept]

@[simp] theorem execRemuw_kept (s : State) (lc rd ra rb) :
    Out.kept (execRemuw lc rd ra rb s) = some s.kept := by
  unfold execRemuw
  rw [State.alu_kept]

theorem State.trapWord_keeps {s : State} {κ} (hs : s.kept = κ) {k code w r}
    (e : s.trapWord k code w = r) : OptKeeps κ r := by
  subst e
  unfold State.trapWord
  exact State.raise_keeps hs rfl

@[simp] theorem execIllegalEncoding_kept (s : State) (lc w) :
    Out.kept (execIllegalEncoding lc w s) = some s.kept := by
  unfold execIllegalEncoding
  exact State.issue_kept rfl fun x0 x1 s1 hs1 => State.trapWord_keeps hs1 rfl

@[simp] theorem State.fillL1d_kept (s : State) (d lc l) :
    (s.fillL1d d lc l).kept = s.kept := by
  unfold State.fillL1d
  extract_lets sl
  split
  extract_lets s1 s2
  have hs1 : s1.kept = s.kept := State.modCore_kept ..
  have hs2 : s2.kept = s.kept := by unfold s2; split <;> simp [hs1]
  rw [State.modDie_kept, hs2]

theorem State.readPart_kept {s : State} {κ} (hs : s.kept = κ) {k0 p r}
    (e : s.readPart k0 p = r) : LineRead.Keeps κ r.1 := by
  subst e
  unfold State.readPart
  extract_lets lc c k line tgt s1 rd
  have hs1 : s1.kept = κ := (State.modCore_kept ..).trans hs
  clear_value s1
  clear_value lc c k line tgt rd
  split
  · dsimp only
    trivial
  · split
    · extract_lets x
      clear_value x
      split
      · dsimp only
        exact hs
      · dsimp only
        trivial
    · split
      · split
        · split
          · split
            · dsimp only
              rw [LineRead.keeps_hit, State.modCore_kept, hs]
            · dsimp only
              exact State.askHome_keeps hs rfl
          · split
            · rename_i d pois b s2 e
              have hs2 : s2.kept = κ := State.readDc_keeps hs1 e
              rw [LineRead.keeps_hit, State.fillL1d_kept, hs2]
            · dsimp only
              exact State.readDc_keeps hs1 rfl
        · dsimp only
          exact State.askHome_keeps hs rfl
      · split
        · dsimp only
          exact State.readScratch_keeps hs rfl
        · split
          · dsimp only
            exact hs
          · dsimp only
            rw [LineRead.keeps_sent, State.askScratch_kept, hs]
      · split
        · dsimp only
          exact hs
        · split
          · split
            · dsimp only
              exact hs
            · dsimp only
              exact hs
          · split
            · dsimp only
              exact hs
            · dsimp only
              rw [LineRead.keeps_sent, State.slotReq_kept, hs]
      · dsimp only
        rw [LineRead.keeps_sent, State.slotReq_kept, hs]
      · dsimp only
        exact hs

theorem State.gather_keeps {s : State} {κ} (hs : s.kept = κ) {k a a3 a4 r}
    (e : s.gather k a a3 a4 = r) : Gathered.Keeps κ r := by
  subst e
  induction a generalizing s a3 a4 with
  | nil => rw [State.gather]; exact hs
  | cons p ps ih =>
    cases a3 with
    | nil =>
      rw [State.gather]
      split
      · trivial
      · rename_i e; exact State.readPart_kept hs e
      · rename_i e; exact State.readPart_kept hs e
      · rename_i e; exact ih (State.readPart_kept hs e)
    | cons x xs =>
      rw [State.gather]
      split
      · exact hs
      · exact ih hs

theorem State.loadStep_keeps {s : State} {κ} (hs : s.kept = κ) {k a r}
    (e : s.loadStep k a = r) : OptKeeps κ r := by
  subst e
  unfold State.loadStep
  extract_lets c src m
  split
  · split
    · trivial
    · rw [optKeeps_some, State.setCore_kept, hs]
  · rename_i g s1 e
    have hs1 : s1.kept = κ := State.gather_keeps hs e
    rw [optKeeps_some, State.modCore_kept, hs1]
  · rename_i g s1 e
    have hs1 : s1.kept = κ := State.gather_keeps hs e
    extract_lets s2 w sbm l1 e1
    have hs2 : s2.kept = κ := (State.modCore_kept ..).trans hs1
    split
    · exact State.raise_keeps hs2 rfl
    · split
      · exact State.raise_keeps hs2 rfl
      · rw [optKeeps_some, State.modCore_kept, hs2]

theorem State.loadVia_keeps {s : State} {κ} (_ : s.kept = κ) {k t kind a r}
    (ha : Halves.Keeps κ a) (e : s.loadVia k t kind a = r) : OptKeeps κ r := by
  subst e
  unfold State.loadVia
  split
  · trivial
  · rename_i s1
    have hs1 : s1.kept = κ := ha
    exact hs1
  · rename_i s1
    have hs1 : s1.kept = κ := ha
    exact State.raise_keeps hs1 rfl
  · rename_i s1
    have hs1 : s1.kept = κ := ha
    split
    · trivial
    · exact State.loadStep_keeps hs1 rfl

theorem State.halves_keeps {s : State} {κ} (hs : s.kept = κ) {k acc va n r}
    (e : s.halves k acc va n = r) : Halves.Keeps κ r := by
  subst e
  unfold State.halves
  extract_lets lvl o unaligned n1 isDev va2
  split
  · trivial
  · rename_i s1 e
    have hs1 : s1.kept = κ := State.translate_keeps hs e
    exact hs1
  · rename_i e s1 e1
    have hs1 : s1.kept = κ := State.translate_keeps hs e1
    exact hs1
  · rename_i pa mt ws b s1 e
    have hs1 : s1.kept = κ := State.translate_keeps hs e
    extract_lets p
    split
    · exact hs1
    · split
      · exact hs1
      · split
        · trivial
        · rename_i s2 e1
          have hs2 : s2.kept = κ := State.translate_keeps hs1 e1
          exact hs2
        · rename_i e1 s2 e2
          have hs2 : s2.kept = κ := State.translate_keeps hs1 e2
          exact hs2
        · rename_i pa1 mt1 ws1 b1 s2 e1
          have hs2 : s2.kept = κ := State.translate_keeps hs1 e1
          split <;> exact hs2

@[simp] theorem State.load_kept (s : State) (lc n sext rd ra imm) :
    Out.kept (s.load lc n sext rd ra imm) = some s.kept := by
  unfold State.load
  exact State.issue_kept rfl
      fun x0 x1 s1 hs1 => State.loadVia_keeps hs1 (State.halves_keeps hs1 rfl) rfl

@[simp] theorem execLb_kept (s : State) (lc rd ra imm) :
    Out.kept (execLb lc rd ra imm s) = some s.kept := by
  unfold execLb
  rw [State.load_kept]

@[simp] theorem execLh_kept (s : State) (lc rd ra imm) :
    Out.kept (execLh lc rd ra imm s) = some s.kept := by
  unfold execLh
  rw [State.load_kept]

@[simp] theorem execLw_kept (s : State) (lc rd ra imm) :
    Out.kept (execLw lc rd ra imm s) = some s.kept := by
  unfold execLw
  rw [State.load_kept]

@[simp] theorem execLd_kept (s : State) (lc rd ra imm) :
    Out.kept (execLd lc rd ra imm s) = some s.kept := by
  unfold execLd
  rw [State.load_kept]

@[simp] theorem execLbu_kept (s : State) (lc rd ra imm) :
    Out.kept (execLbu lc rd ra imm s) = some s.kept := by
  unfold execLbu
  rw [State.load_kept]

@[simp] theorem execLhu_kept (s : State) (lc rd ra imm) :
    Out.kept (execLhu lc rd ra imm s) = some s.kept := by
  unfold execLhu
  rw [State.load_kept]

@[simp] theorem execLwu_kept (s : State) (lc rd ra imm) :
    Out.kept (execLwu lc rd ra imm s) = some s.kept := by
  unfold execLwu
  rw [State.load_kept]

theorem State.fillQueue_keeps {s : State} {κ} (hs : s.kept = κ) {k pc a a4 r}
    (e : s.fillQueue k pc a a4 = r) : Fill.Keeps κ r := by
  induction a generalizing s k pc a4 r with
  | zero =>
    subst e
    rw [State.fillQueue]
    rw [Fill.keeps_ok]
    exact hs
  | succ n' ih =>
    subst e
    rw [State.fillQueue]
    split
    · rw [Fill.keeps_ok]
      exact hs
    · split
      · rw [Fill.keeps_busy]
        trivial
      · rename_i s1 e
        have hs1 : s1.kept = κ := State.fetchWord_keeps hs e
        rw [Fill.keeps_sent]
        exact hs1
      · rename_i e s1 e1
        have hs1 : s1.kept = κ := State.fetchWord_keeps hs e1
        rw [Fill.keeps_ok]
        exact hs1
      · rename_i s1 e
        have hs1 : s1.kept = κ := State.fetchWord_keeps hs e
        exact ih hs1 rfl

theorem State.prefill_keeps {s : State} {κ} (hs : s.kept = κ) {k r}
    (e : s.prefill k = r) : Fill.Keeps κ r := by
  subst e
  unfold State.prefill
  exact State.fillQueue_keeps hs rfl

@[simp] theorem State.storeL1i_kept (s : State) (k line) :
    (s.storeL1i k line).kept = s.kept := by
  unfold State.storeL1i
  split <;> simp

theorem State.storeDone_keeps {s : State} {κ} (hs : s.kept = κ) {k ps data t walk vs r}
    (e : s.storeDone k ps data t walk vs = r) : OptKeeps κ r := by
  subst e
  unfold State.storeDone
  split
  · trivial
  · split
    · trivial
    · rename_i s1 e
      have hs1 : s1.kept = κ := State.prefill_keeps hs e
      exact hs1
    · rename_i words s1 e
      have hs1 : s1.kept = κ := State.prefill_keeps hs e
      extract_lets c n1 ents extra slot sbm s2
      have hs2 : s2.kept = κ := (State.modCore_kept ..).trans hs1
      exact State.foldl_kept hs2 (fun s3 x hs3 => by rw [State.storeL1i_kept, hs3]) _

theorem storeVia_keeps {κ} {k t data vs a r}
    (ha : Halves.Keeps κ a) (e : storeVia k t data vs a = r) : OptKeeps κ r := by
  subst e
  unfold storeVia
  split
  · trivial
  · rename_i s1
    have hs1 : s1.kept = κ := ha
    exact hs1
  · rename_i s1
    have hs1 : s1.kept = κ := ha
    exact State.raise_keeps hs1 rfl
  · rename_i s1
    have hs1 : s1.kept = κ := ha
    exact State.storeDone_keeps hs1 rfl

@[simp] theorem State.store_kept (s : State) (lc n rs ra imm) :
    Out.kept (s.store lc n rs ra imm) = some s.kept := by
  unfold State.store
  refine State.issue_kept rfl fun x0 x1 s1 hs1 => ?_
  refine storeVia_keeps ?_ rfl
  exact State.halves_keeps hs1 rfl

@[simp] theorem execSb_kept (s : State) (lc rs ra imm) :
    Out.kept (execSb lc rs ra imm s) = some s.kept := by
  unfold execSb
  rw [State.store_kept]

@[simp] theorem execSh_kept (s : State) (lc rs ra imm) :
    Out.kept (execSh lc rs ra imm s) = some s.kept := by
  unfold execSh
  rw [State.store_kept]

@[simp] theorem execSw_kept (s : State) (lc rs ra imm) :
    Out.kept (execSw lc rs ra imm s) = some s.kept := by
  unfold execSw
  rw [State.store_kept]

@[simp] theorem execSd_kept (s : State) (lc rs ra imm) :
    Out.kept (execSd lc rs ra imm s) = some s.kept := by
  unfold execSd
  rw [State.store_kept]

theorem State.drainAsk_keeps {s : State} {κ} (hs : s.kept = κ) {k x2 kind line way r}
    (e : s.drainAsk k x2 kind line way = r) : Drain.Keeps κ r := by
  subst e
  unfold State.drainAsk
  extract_lets whole m
  split
  · rename_i s1 e
    have hs1 : s1.kept = κ := State.bankReq_keeps hs e
    exact hs1
  · trivial

@[simp] theorem State.writeSub_kept (s : State) (d line data m) :
    (s.writeSub d line data m).kept = s.kept := rfl

theorem State.drainHbm_keeps {s : State} {κ} (hs : s.kept = κ) {k x2 r}
    (e : s.drainHbm k x2 = r) : Drain.Keeps κ r := by
  subst e
  unfold State.drainHbm
  extract_lets c line x own s1 u take others
  have hs1 : s1.kept = κ := (State.modCore_kept ..).trans hs
  have htake : ∀ t0, t0.kept = κ → (take t0).kept = κ := by
    intro s2 hs2
    unfold take
    rw [State.writeSub_kept, State.fillL1d_kept, hs2]
  split
  · split
    · trivial
    · exact State.drainAsk_keeps hs rfl
  · split
    · rw [Drain.keeps_done, State.writeSub_kept, hs1]
    · split
      · extract_lets s2
        have hs2 : s2.kept = κ := (State.modDie_kept ..).trans hs
        split
        · split
          · trivial
          · exact State.drainAsk_keeps hs rfl
        · split
          · split
            · split
              rename_i b s3 e
              have hs3 : s3.kept = κ := State.takeBeats_kept (by rw [State.invalL1_kept, hs2]) e
              rw [Drain.keeps_done]
              apply htake
              exact hs3
            · rw [Drain.keeps_done]
              apply htake
              exact hs2
          · split
            · trivial
            · split
              · exact State.drainAsk_keeps hs rfl
              · split
                · trivial
                · exact State.drainAsk_keeps (by rw [State.missed_kept, hs]) rfl
      · split
        · trivial
        · split
          · trivial
          · exact State.drainAsk_keeps (by rw [State.missed_kept, State.count16_kept, hs]) rfl
          · rename_i w s2 e
            have hs2 : s2.kept = κ := State.alloc_keeps hs e
            exact State.drainAsk_keeps (by rw [State.missed_kept, hs2]) rfl

@[simp] theorem State.scratchWord_kept (s : State) (w m v) :
    (s.scratchWord w m v).kept = s.kept := by
  unfold State.scratchWord
  split
  · rfl
  · repeat' split
    all_goals rfl

@[simp] theorem State.scratchWrite_kept (s : State) (line data m) :
    (s.scratchWrite line data m).kept = s.kept := by
  unfold State.scratchWrite
  extract_lets s1 d
  have hs1 : s1.kept = s.kept :=
    State.foldl_kept rfl (fun s2 x hs2 => by rw [State.scratchWord_kept, hs2]) _
  refine State.foldl_kept hs1 (fun s2 x hs2 => ?_) _
  split <;> simp [hs2]

theorem writeWords_keeps {s : State} {κ} (hs : s.kept = κ) {wr off n v bm r}
    (hwr : ∀ t0 x1 x2 x3, t0.kept = κ → OptKeeps κ (wr t0 x1 x2 x3)) (e : writeWords wr s off n v bm = r) :
    OptKeeps κ r := by
  subst e
  unfold writeWords
  split
  · split
    · trivial
    · rename_i s1 e
      have hs1 : OptKeeps κ (some s1) := by
        rw [← e]
        apply hwr
        exact hs
      replace hs1 : s1.kept = κ := hs1
      apply hwr
      exact hs1
  · apply hwr
    exact hs

@[simp] theorem State.eoi_kept (s : State) (lc id) :
    (s.eoi lc id).kept = s.kept := by
  unfold State.eoi
  extract_lets c src
  split
  · extract_lets x
    split
    · split <;> simp
    · rw [State.setCore_kept]
  · rw [State.setCore_kept]

@[simp] theorem State.sgi_kept (s : State) (lc n w) :
    (s.sgi lc n w).kept = s.kept := by
  unfold State.sgi
  extract_lets c f src
  split <;> rw [State.setCore_kept]

@[simp] theorem State.ciiWrite_kept (s : State) (lc off v m w) :
    (s.ciiWrite lc off v m w).kept = s.kept := by
  unfold State.ciiWrite
  extract_lets c x am b set two
  have hset : ∀ y, (set y).kept = s.kept := fun _ => rfl
  refine State.ite_kept ?_ (State.ite_kept (hset _) (State.ite_kept ?_ (State.ite_kept ?_
    (State.ite_kept (hset _) (State.ite_kept (hset _) (State.ite_kept (hset _) (State.ite_kept (hset _)
    (State.ite_kept (hset _) (State.ite_kept ?_ rfl)))))))))
  · exact State.ite_kept (State.eoi_kept ..) rfl
  · split
    · exact State.sgi_kept ..
    · rfl
  · exact State.ite_kept (hset _) rfl
  · exact State.ite_kept rfl (hset _)

@[simp] theorem State.coreRegWrite_kept (s : State) (lc off v m w) :
    (s.coreRegWrite lc off v m w).kept = s.kept := by
  unfold State.coreRegWrite
  extract_lets c b a a1 p p1 src i old e i1 x
  split
  · rw [State.setCore_kept]
  · split
    · split <;> simp
    · split
      · rw [State.setCore_kept]
      · split
        · rw [State.setCore_kept]
        · split
          · split <;> simp
          · split
            · rw [State.setCore_kept]
            · split
              · rw [State.setCore_kept]
              · split <;> simp

theorem State.windowWrite_keeps {s : State} {κ} (hs : s.kept = κ) {lc off v m w own r}
    (e : s.windowWrite lc off v m w own = r) : OptKeeps κ r := by
  subst e
  unfold State.windowWrite
  split
  · trivial
  · split <;> simp [hs]

theorem State.windowStore_keeps {s : State} {κ} (hs : s.kept = κ) {lc x2 r}
    (e : s.windowStore lc x2 = r) : OptKeeps κ r := by
  subst e
  unfold State.windowStore
  exact writeWords_keeps hs (fun s1 x1 x21 x3 hs1 => State.windowWrite_keeps hs1 rfl) rfl

theorem State.drainOne_keeps {s : State} {κ} (hs : s.kept = κ) {k0 x2 r}
    (e : s.drainOne k0 x2 = r) : Drain.Keeps κ r := by
  subst e
  unfold State.drainOne
  extract_lets k a req s1
  have hreq : ∀ x0 x1, Drain.Keeps κ (req x0 x1) := by
    intro x0 x1
    unfold req
    rw [Drain.keeps_sent, State.slotReq_kept, hs]
  have hs1 : s1.kept = κ := (State.modCore_kept ..).trans hs
  split
  · exact State.drainHbm_keeps hs rfl
  · split
    · rw [Drain.keeps_sent, State.slotReq_kept, hs1]
    · split
      · exact hs
      · split
        rename_i ok s2 e
        have hs2 : s2.kept = κ := State.checkPasture_kept hs e
        split <;> simp [hs2]
  · split
    · exact hs
    · split
      · split
        · rename_i s2 e
          have hs2 : s2.kept = κ := State.windowStore_keeps hs e
          exact hs2
        · exact hs
      · split
        · apply hreq
        · exact hs
  · apply hreq
  · exact hs

@[simp] theorem State.drained_kept (s : State) (lc beats fixed err) :
    (s.drained lc beats fixed err).kept = s.kept := rfl

@[simp] theorem execStoreDrain_kept (s : State) (lc) :
    Out.kept (execStoreDrain lc s) = some s.kept := by
  unfold execStoreDrain
  split
  · split
    · rfl
    · split
      · rw [Out.kept_next, State.modCore_kept]
      · rename_i b fixed s1 e
        have hs1 : s1.kept = s.kept := State.drainOne_keeps rfl e
        split
        · split
          rename_i b1 s2 e1
          have hs2 : s2.kept = s.kept := State.takeBeats_kept hs1 e1
          rw [Out.kept_next, State.drained_kept, hs2]
        · rw [Out.kept_next, State.drained_kept, hs1]
      · rename_i s1 e
        have hs1 : s1.kept = s.kept := State.drainOne_keeps rfl e
        rw [Out.kept_next, State.drained_kept, hs1]
      · rename_i s1 e
        have hs1 : s1.kept = s.kept := State.drainOne_keeps rfl e
        rw [Out.kept_next, State.modCore_kept, hs1]
  · rfl

@[simp] theorem execStoreBus_kept (s : State) (lc) :
    Out.kept (execStoreBus lc s) = some s.kept := by
  unfold execStoreBus
  split
  · split
    · exact congrArg some (OptKeeps.getD (State.raiseStoreBus_keeps rfl rfl) rfl)
    · rfl
  · rfl

@[simp] theorem execScratchLoadReturn_kept (s : State) (lc) :
    Out.kept (execScratchLoadReturn lc s) = some s.kept := rfl

@[simp] theorem State.branchIf_kept (s : State) (lc ra rb off p) :
    Out.kept (s.branchIf lc ra rb off p) = some s.kept := by
  unfold State.branchIf
  rw [State.issueCore_kept]

@[simp] theorem execBeq_kept (s : State) (lc ra rb off) :
    Out.kept (execBeq lc ra rb off s) = some s.kept := by
  unfold execBeq
  rw [State.branchIf_kept]

@[simp] theorem execBne_kept (s : State) (lc ra rb off) :
    Out.kept (execBne lc ra rb off s) = some s.kept := by
  unfold execBne
  rw [State.branchIf_kept]

@[simp] theorem execBlt_kept (s : State) (lc ra rb off) :
    Out.kept (execBlt lc ra rb off s) = some s.kept := by
  unfold execBlt
  rw [State.branchIf_kept]

@[simp] theorem execBge_kept (s : State) (lc ra rb off) :
    Out.kept (execBge lc ra rb off s) = some s.kept := by
  unfold execBge
  rw [State.branchIf_kept]

@[simp] theorem execBltu_kept (s : State) (lc ra rb off) :
    Out.kept (execBltu lc ra rb off s) = some s.kept := by
  unfold execBltu
  rw [State.branchIf_kept]

@[simp] theorem execBgeu_kept (s : State) (lc ra rb off) :
    Out.kept (execBgeu lc ra rb off s) = some s.kept := by
  unfold execBgeu
  rw [State.branchIf_kept]

@[simp] theorem execJ_kept (s : State) (lc off) :
    Out.kept (execJ lc off s) = some s.kept := by
  unfold execJ
  rw [State.issueCore_kept]

@[simp] theorem execJal_kept (s : State) (lc off) :
    Out.kept (execJal lc off s) = some s.kept := by
  unfold execJal
  rw [State.issueCore_kept]

@[simp] theorem execJalr_kept (s : State) (lc rd ra imm) :
    Out.kept (execJalr lc rd ra imm s) = some s.kept := by
  unfold execJalr
  rw [State.issueCore_kept]

@[simp] theorem State.vec_kept (s : State) (lc w legal occ dist reads dest f) :
    Out.kept (s.vec lc w legal occ dist reads dest f) = some s.kept := by
  unfold State.vec
  refine State.issue_kept rfl fun x0 x1 s1 hs1 => ?_
  split
  · rw [optKeeps_some, State.modCore_kept, hs1]
  · exact State.trapWord_keeps hs1 rfl

@[simp] theorem vintForm_kept (s : State) (lc op vfn vd va vb m et) :
    Out.kept (vintForm lc op vfn vd va vb m et s) = some s.kept := by
  unfold vintForm
  rw [State.vec_kept]

@[simp] theorem execVadd_kept (s : State) (lc vd va vb m et) :
    Out.kept (execVadd lc vd va vb m et s) = some s.kept := by
  unfold execVadd
  rw [vintForm_kept]

@[simp] theorem execVsub_kept (s : State) (lc vd va vb m et) :
    Out.kept (execVsub lc vd va vb m et s) = some s.kept := by
  unfold execVsub
  rw [vintForm_kept]

@[simp] theorem vbitForm_kept (s : State) (lc vfn vd va vb f) :
    Out.kept (vbitForm lc vfn vd va vb f s) = some s.kept := by
  unfold vbitForm
  rw [State.vec_kept]

@[simp] theorem execVand_kept (s : State) (lc vd va vb) :
    Out.kept (execVand lc vd va vb s) = some s.kept := by
  unfold execVand
  rw [vbitForm_kept]

@[simp] theorem execVor_kept (s : State) (lc vd va vb) :
    Out.kept (execVor lc vd va vb s) = some s.kept := by
  unfold execVor
  rw [vbitForm_kept]

@[simp] theorem execVxor_kept (s : State) (lc vd va vb) :
    Out.kept (execVxor lc vd va vb s) = some s.kept := by
  unfold execVxor
  rw [vbitForm_kept]

@[simp] theorem execVmin_kept (s : State) (lc vd va vb m et) :
    Out.kept (execVmin lc vd va vb m et s) = some s.kept := by
  unfold execVmin
  rw [vintForm_kept]

@[simp] theorem execVmax_kept (s : State) (lc vd va vb m et) :
    Out.kept (execVmax lc vd va vb m et s) = some s.kept := by
  unfold execVmax
  rw [vintForm_kept]

@[simp] theorem execVsll_kept (s : State) (lc vd va vb m et) :
    Out.kept (execVsll lc vd va vb m et s) = some s.kept := by
  unfold execVsll
  rw [vintForm_kept]

@[simp] theorem execVsrl_kept (s : State) (lc vd va vb m et) :
    Out.kept (execVsrl lc vd va vb m et s) = some s.kept := by
  unfold execVsrl
  rw [vintForm_kept]

@[simp] theorem execVsra_kept (s : State) (lc vd va vb m et) :
    Out.kept (execVsra lc vd va vb m et s) = some s.kept := by
  unfold execVsra
  rw [vintForm_kept]

@[simp] theorem vcmpForm_kept (s : State) (lc vfn legal pd va vb m et f) :
    Out.kept (vcmpForm lc vfn legal pd va vb m et f s) = some s.kept := by
  unfold vcmpForm
  rw [State.vec_kept]

@[simp] theorem execVcmpeq_kept (s : State) (lc pd va vb m et) :
    Out.kept (execVcmpeq lc pd va vb m et s) = some s.kept := by
  unfold execVcmpeq
  rw [vcmpForm_kept]

@[simp] theorem execVcmplt_kept (s : State) (lc pd va vb m et) :
    Out.kept (execVcmplt lc pd va vb m et s) = some s.kept := by
  unfold execVcmplt
  rw [vcmpForm_kept]

@[simp] theorem vfpForm_kept (s : State) (lc vfn occ dist op vd va vb m et) :
    Out.kept (vfpForm lc vfn occ dist op vd va vb m et s) = some s.kept := by
  unfold vfpForm
  rw [State.vec_kept]

@[simp] theorem execVfadd_kept (s : State) (lc vd va vb m et) :
    Out.kept (execVfadd lc vd va vb m et s) = some s.kept := by
  unfold execVfadd
  rw [vfpForm_kept]

@[simp] theorem execVfsub_kept (s : State) (lc vd va vb m et) :
    Out.kept (execVfsub lc vd va vb m et s) = some s.kept := by
  unfold execVfsub
  rw [vfpForm_kept]

@[simp] theorem execVfmul_kept (s : State) (lc vd va vb m et) :
    Out.kept (execVfmul lc vd va vb m et s) = some s.kept := by
  unfold execVfmul
  rw [vfpForm_kept]

@[simp] theorem execVfma_kept (s : State) (lc vd va vb m et) :
    Out.kept (execVfma lc vd va vb m et s) = some s.kept := by
  unfold execVfma
  rw [State.vec_kept]

@[simp] theorem execVfdiv_kept (s : State) (lc vd va vb m et) :
    Out.kept (execVfdiv lc vd va vb m et s) = some s.kept := by
  unfold execVfdiv
  rw [vfpForm_kept]

@[simp] theorem execVfsqrt_kept (s : State) (lc vd va m et) :
    Out.kept (execVfsqrt lc vd va m et s) = some s.kept := by
  unfold execVfsqrt
  rw [State.vec_kept]

@[simp] theorem execVfmin_kept (s : State) (lc vd va vb m et) :
    Out.kept (execVfmin lc vd va vb m et s) = some s.kept := by
  unfold execVfmin
  rw [vfpForm_kept]

@[simp] theorem execVfmax_kept (s : State) (lc vd va vb m et) :
    Out.kept (execVfmax lc vd va vb m et s) = some s.kept := by
  unfold execVfmax
  rw [vfpForm_kept]

@[simp] theorem execVfcmplt_kept (s : State) (lc pd va vb m et) :
    Out.kept (execVfcmplt lc pd va vb m et s) = some s.kept := by
  unfold execVfcmplt
  rw [vcmpForm_kept]

@[simp] theorem execVfcmpeq_kept (s : State) (lc pd va vb m et) :
    Out.kept (execVfcmpeq lc pd va vb m et s) = some s.kept := by
  unfold execVfcmpeq
  rw [vcmpForm_kept]

@[simp] theorem execVrsum_kept (s : State) (lc vd va m et) :
    Out.kept (execVrsum lc vd va m et s) = some s.kept := by
  unfold execVrsum
  rw [State.vec_kept]

@[simp] theorem vcvtForm_kept (s : State) (lc sel vd va x4 g n f) :
    Out.kept (vcvtForm lc sel vd va x4 g n f s) = some s.kept := by
  unfold vcvtForm
  rw [State.vec_kept]

@[simp] theorem execVcvtF32ToF64_kept (s : State) (lc vd va) :
    Out.kept (execVcvtF32ToF64 lc vd va s) = some s.kept := by
  unfold execVcvtF32ToF64
  rw [vcvtForm_kept]

@[simp] theorem execVcvtF64ToF32_kept (s : State) (lc vd va) :
    Out.kept (execVcvtF64ToF32 lc vd va s) = some s.kept := by
  unfold execVcvtF64ToF32
  rw [vcvtForm_kept]

@[simp] theorem execVcvtF32ToBf16_kept (s : State) (lc vd va) :
    Out.kept (execVcvtF32ToBf16 lc vd va s) = some s.kept := by
  unfold execVcvtF32ToBf16
  rw [vcvtForm_kept]

@[simp] theorem execVcvtBf16ToF32_kept (s : State) (lc vd va) :
    Out.kept (execVcvtBf16ToF32 lc vd va s) = some s.kept := by
  unfold execVcvtBf16ToF32
  rw [vcvtForm_kept]

@[simp] theorem execVcvtI32ToF32_kept (s : State) (lc vd va) :
    Out.kept (execVcvtI32ToF32 lc vd va s) = some s.kept := by
  unfold execVcvtI32ToF32
  rw [vcvtForm_kept]

@[simp] theorem execVcvtF32ToI32_kept (s : State) (lc vd va) :
    Out.kept (execVcvtF32ToI32 lc vd va s) = some s.kept := by
  unfold execVcvtF32ToI32
  rw [vcvtForm_kept]

@[simp] theorem vdotForm_kept (s : State) (lc vfn vd va vb m f) :
    Out.kept (vdotForm lc vfn vd va vb m f s) = some s.kept := by
  unfold vdotForm
  rw [State.vec_kept]

@[simp] theorem execVdot2Bf16_kept (s : State) (lc vd va vb m) :
    Out.kept (execVdot2Bf16 lc vd va vb m s) = some s.kept := by
  unfold execVdot2Bf16
  rw [vdotForm_kept]

@[simp] theorem execVdot4I8_kept (s : State) (lc vd va vb m) :
    Out.kept (execVdot4I8 lc vd va vb m s) = some s.kept := by
  unfold execVdot4I8
  rw [vdotForm_kept]

@[simp] theorem execVdot4U8s8_kept (s : State) (lc vd va vb m) :
    Out.kept (execVdot4U8s8 lc vd va vb m s) = some s.kept := by
  unfold execVdot4U8s8
  rw [vdotForm_kept]

theorem State.lineAccess_keeps {s : State} {κ} (hs : s.kept = κ) {k acc va r}
    (e : s.lineAccess k acc va = r) : Halves.Keeps κ r := by
  subst e
  unfold State.lineAccess
  split
  · exact hs
  · split
    · trivial
    · rename_i s1 e
      have hs1 : s1.kept = κ := State.translate_keeps hs e
      exact hs1
    · rename_i e s1 e1
      have hs1 : s1.kept = κ := State.translate_keeps hs e1
      exact hs1
    · rename_i pa mt ws b s1 e
      have hs1 : s1.kept = κ := State.translate_keeps hs e
      exact hs1

@[simp] theorem execVld_kept (s : State) (lc vd ra imm) :
    Out.kept (execVld lc vd ra imm s) = some s.kept := by
  unfold execVld
  exact State.issue_kept rfl
      fun x0 x1 s1 hs1 => State.loadVia_keeps hs1 (State.lineAccess_keeps hs1 rfl) rfl

@[simp] theorem execVst_kept (s : State) (lc vs ra imm) :
    Out.kept (execVst lc vs ra imm s) = some s.kept := by
  unfold execVst
  refine State.issue_kept rfl fun x0 x1 s1 hs1 => ?_
  refine storeVia_keeps ?_ rfl
  exact State.lineAccess_keeps hs1 rfl

@[simp] theorem execVmovg_kept (s : State) (lc rd va k) :
    Out.kept (execVmovg lc rd va k s) = some s.kept := by
  unfold execVmovg
  rw [State.vec_kept]

@[simp] theorem execVmovv_kept (s : State) (lc vd ra k) :
    Out.kept (execVmovv lc vd ra k s) = some s.kept := by
  unfold execVmovv
  rw [State.vec_kept]

@[simp] theorem execVbcast_kept (s : State) (lc vd ra et) :
    Out.kept (execVbcast lc vd ra et s) = some s.kept := by
  unfold execVbcast
  rw [State.vec_kept]

@[simp] theorem State.predOp_kept (s : State) (lc pd reads f) :
    Out.kept (s.predOp lc pd reads f) = some s.kept := by
  unfold State.predOp
  rw [State.issueCore_kept]

@[simp] theorem execPand_kept (s : State) (lc pd pa pb) :
    Out.kept (execPand lc pd pa pb s) = some s.kept := by
  unfold execPand
  rw [State.predOp_kept]

@[simp] theorem execPor_kept (s : State) (lc pd pa pb) :
    Out.kept (execPor lc pd pa pb s) = some s.kept := by
  unfold execPor
  rw [State.predOp_kept]

@[simp] theorem execPxor_kept (s : State) (lc pd pa pb) :
    Out.kept (execPxor lc pd pa pb s) = some s.kept := by
  unfold execPxor
  rw [State.predOp_kept]

@[simp] theorem execPnot_kept (s : State) (lc pd pa) :
    Out.kept (execPnot lc pd pa s) = some s.kept := by
  unfold execPnot
  rw [State.predOp_kept]

@[simp] theorem execPset_kept (s : State) (lc pd ra) :
    Out.kept (execPset lc pd ra s) = some s.kept := by
  unfold execPset
  rw [State.predOp_kept]

@[simp] theorem execPget_kept (s : State) (lc rd pa) :
    Out.kept (execPget lc rd pa s) = some s.kept := by
  unfold execPget
  rw [State.issueCore_kept]

@[simp] theorem execVectorStart_kept (s : State) (lc) :
    Out.kept (execVectorStart lc s) = some s.kept := rfl

@[simp] theorem State.atomic_kept (s : State) (lc op rd ra rb) :
    Out.kept (s.atomic lc op rd ra rb) = some s.kept := by
  unfold State.atomic
  extract_lets reads
  refine State.issue_kept rfl fun x0 x1 s1 hs1 => ?_
  extract_lets c va data
  split
  · exact State.raise_keeps hs1 rfl
  · split
    · trivial
    · rename_i s2 e
      have hs2 : s2.kept = s.kept := State.translate_keeps hs1 e
      exact hs2
    · rename_i e s2 e1
      have hs2 : s2.kept = s.kept := State.translate_keeps hs1 e1
      exact State.raise_keeps hs2 rfl
    · rename_i pa mt ws b s2 e
      have hs2 : s2.kept = s.kept := State.translate_keeps hs1 e
      extract_lets line m m1 w a
      split
      · exact State.raise_keeps hs2 rfl
      · split
        · trivial
        · split
          · trivial
          · rename_i s3 e1
            have hs3 : s3.kept = s.kept := State.bankReq_keeps hs2 e1
            rw [optKeeps_some, State.modCore_kept, hs3]

@[simp] theorem execAadd_kept (s : State) (lc rd ra rb) :
    Out.kept (execAadd lc rd ra rb s) = some s.kept := by
  unfold execAadd
  rw [State.atomic_kept]

@[simp] theorem execAswp_kept (s : State) (lc rd ra rb) :
    Out.kept (execAswp lc rd ra rb s) = some s.kept := by
  unfold execAswp
  rw [State.atomic_kept]

@[simp] theorem execAcas_kept (s : State) (lc rd ra rb) :
    Out.kept (execAcas lc rd ra rb s) = some s.kept := by
  unfold execAcas
  rw [State.atomic_kept]

@[simp] theorem execAmin_kept (s : State) (lc rd ra rb) :
    Out.kept (execAmin lc rd ra rb s) = some s.kept := by
  unfold execAmin
  rw [State.atomic_kept]

@[simp] theorem execAmax_kept (s : State) (lc rd ra rb) :
    Out.kept (execAmax lc rd ra rb s) = some s.kept := by
  unfold execAmax
  rw [State.atomic_kept]

@[simp] theorem execAminu_kept (s : State) (lc rd ra rb) :
    Out.kept (execAminu lc rd ra rb s) = some s.kept := by
  unfold execAminu
  rw [State.atomic_kept]

@[simp] theorem execAmaxu_kept (s : State) (lc rd ra rb) :
    Out.kept (execAmaxu lc rd ra rb s) = some s.kept := by
  unfold execAmaxu
  rw [State.atomic_kept]

@[simp] theorem execCrr_kept (s : State) (lc rd cr) :
    Out.kept (execCrr lc rd cr s) = some s.kept := by
  unfold execCrr
  extract_lets n w
  refine State.issue_kept rfl fun x0 x1 s1 hs1 => ?_
  extract_lets c
  split
  · exact State.trapWord_keeps hs1 rfl
  · split
    · exact State.trapWord_keeps hs1 rfl
    · rw [optKeeps_some, State.modCore_kept, hs1]

@[simp] theorem execCrw_kept (s : State) (lc cr ra) :
    Out.kept (execCrw lc cr ra s) = some s.kept := by
  unfold execCrw
  extract_lets n w
  refine State.issue_kept rfl fun x0 x1 s1 hs1 => ?_
  extract_lets c
  split
  · exact State.trapWord_keeps hs1 rfl
  · split
    · exact State.trapWord_keeps hs1 rfl
    · rw [optKeeps_some, State.modCore_kept, hs1]

@[simp] theorem State.call_kept (s : State) (lc code w allowed) :
    Out.kept (s.call lc code w allowed) = some s.kept := by
  unfold State.call
  refine State.issue_kept rfl fun x0 x1 s1 hs1 => ?_
  split
  · exact State.raise_keeps hs1 rfl
  · exact State.trapWord_keeps hs1 rfl

@[simp] theorem execKcall_kept (s : State) (lc nn) :
    Out.kept (execKcall lc nn s) = some s.kept := by
  unfold execKcall
  rw [State.call_kept]

@[simp] theorem execHcall_kept (s : State) (lc nn) :
    Out.kept (execHcall lc nn s) = some s.kept := by
  unfold execHcall
  rw [State.call_kept]

@[simp] theorem execMcall_kept (s : State) (lc nn) :
    Out.kept (execMcall lc nn s) = some s.kept := by
  unfold execMcall
  rw [State.call_kept]

@[simp] theorem execBrk_kept (s : State) (lc x1) :
    Out.kept (execBrk lc x1 s) = some s.kept := by
  unfold execBrk
  exact State.issue_kept rfl fun x0 x11 s1 hs1 => State.raise_keeps hs1 rfl

theorem State.eretDone_keeps {s : State} {κ} (hs : s.kept = κ) {k a v r}
    (e : s.eretDone k a v = r) : OptKeeps κ r := by
  subst e
  unfold State.eretDone
  extract_lets lc s1 c word epc est lvl w st ret room
  have hs1 : s1.kept = κ := (State.modCore_kept ..).trans hs
  have hret : ∀ t0, t0.kept = κ → OptKeeps κ (ret t0) := by
    intro s2 hs2
    unfold ret
    rw [optKeeps_some, State.modCore_kept, hs2]
  split
  · exact State.trapWord_keeps hs1 rfl
  · split
    · extract_lets ws s2
      have hs2 : s2.kept = κ := (State.acknowledge_kept ..).trans hs1
      split
      · apply hret
        exact hs1
      · split
        · trivial
        · rw [optKeeps_some, State.modCore_kept, hs2]
    · apply hret
      exact hs1

theorem State.eretStep_keeps {s : State} {κ} (hs : s.kept = κ) {k a r}
    (e : s.eretStep k a = r) : OptKeeps κ r := by
  subst e
  unfold State.eretStep
  split
  · split
    · trivial
    · rw [optKeeps_some, State.modCore_kept, hs]
  · rename_i g s1 e
    have hs1 : s1.kept = κ := State.gather_keeps hs e
    rw [optKeeps_some, State.modCore_kept, hs1]
  · rename_i g s1 e
    have hs1 : s1.kept = κ := State.gather_keeps hs e
    extract_lets e1 s2
    have hs2 : s2.kept = κ := (State.modCore_kept ..).trans hs1
    split
    · exact State.raise_keeps hs2 rfl
    · split
      · exact State.raise_keeps hs2 rfl
      · exact State.eretDone_keeps hs1 rfl

@[simp] theorem execEret_kept (s : State) (lc) :
    Out.kept (execEret lc s) = some s.kept := by
  unfold execEret
  refine State.issue_kept rfl fun x0 x1 s1 hs1 => ?_
  extract_lets c sp
  split
  · exact State.trapWord_keeps hs1 rfl
  · split
    · trivial
    · split
      · trivial
      · rename_i s2 e
        have hs2 : s2.kept = s.kept := State.frameLines_keeps hs1 e
        exact hs2
      · rename_i e s2 e1
        have hs2 : s2.kept = s.kept := State.frameLines_keeps hs1 e1
        exact State.raise_keeps hs2 rfl
      · rename_i ps walk s2 e
        have hs2 : s2.kept = s.kept := State.frameLines_keeps hs1 e
        extract_lets m w
        exact State.eretStep_keeps hs2 rfl

@[simp] theorem execWait_kept (s : State) (lc) :
    Out.kept (execWait lc s) = some s.kept := by
  unfold execWait
  refine State.issue_kept rfl fun x0 x1 s1 hs1 => ?_
  extract_lets s2 key
  have hs2 : s2.kept = s.kept := (State.modCore_kept ..).trans hs1
  split
  · exact State.trapWord_keeps hs1 rfl
  · rw [optKeeps_some]
    split <;> exact hs2

@[simp] theorem execWaitWake_kept (s : State) (lc) :
    Out.kept (execWaitWake lc s) = some s.kept := by
  unfold execWaitWake
  extract_lets c
  split <;> simp

@[simp] theorem execFenceSl_kept (s : State) (lc) :
    Out.kept (execFenceSl lc s) = some s.kept := by
  unfold execFenceSl
  rw [State.issueCore_kept]

@[simp] theorem execFenceAll_kept (s : State) (lc) :
    Out.kept (execFenceAll lc s) = some s.kept := by
  unfold execFenceAll
  refine State.issue_kept rfl fun x0 x1 s1 hs1 => ?_
  split <;> simp [hs1]

@[simp] theorem execIfence_kept (s : State) (lc) :
    Out.kept (execIfence lc s) = some s.kept := by
  unfold execIfence
  refine State.issue_kept rfl fun x0 x1 s1 hs1 => ?_
  extract_lets c
  split <;> simp [hs1]

theorem State.lockWalk_keeps {s : State} {κ} (hs : s.kept = κ) {k kindI va r}
    (e : s.lockWalk k kindI va = r) : Walk.Keeps κ r := by
  subst e
  unfold State.lockWalk
  extract_lets c acc e ok s1
  have hs1 : s1.kept = κ := by unfold s1; split <;> simp [hs]
  split
  · split
    · split <;> exact hs
    · trivial
  · split
    · trivial
    · rename_i s2 e1
      have hs2 : s2.kept = κ := State.walkBoth_keeps hs1 e1
      exact hs2
    · rename_i f s2 e1
      have hs2 : s2.kept = κ := State.walkBoth_keeps hs1 e1
      exact hs2
    · rename_i x b s2 e1
      have hs2 : s2.kept = κ := State.walkBoth_keeps hs1 e1
      split
      rw [Walk.keeps_done, State.modCore_kept, hs2]

@[simp] theorem execTlbl_kept (s : State) (lc rd ra kindI) :
    Out.kept (execTlbl lc rd ra kindI s) = some s.kept := by
  unfold execTlbl
  refine State.issue_kept rfl fun x0 x1 s1 hs1 => ?_
  extract_lets c va done fail
  have hdone : ∀ t0 x1 x2, t0.kept = s.kept → OptKeeps s.kept (done t0 x1 x2) := by
    intro s2 x11 x2 hs2
    unfold done
    rw [optKeeps_some, State.modCore_kept, hs2]
  have hfail : ∀ t0 x1, t0.kept = s.kept → OptKeeps s.kept (fail t0 x1) := by
    intro s2 x11 hs2
    unfold fail
    split
    · apply hdone
      exact hs2
    · exact State.raise_keeps hs2 rfl
  split
  · exact State.trapWord_keeps hs1 rfl
  · split
    · apply hfail
      exact hs1
    · split
      · apply hdone
        exact hs1
      · split
        · trivial
        · rename_i s2 e
          have hs2 : s2.kept = s.kept := State.lockWalk_keeps hs1 e
          exact hs2
        · rename_i f s2 e
          have hs2 : s2.kept = s.kept := State.lockWalk_keeps hs1 e
          apply hfail
          exact hs2
        · rename_i a beats s2 e
          have hs2 : s2.kept = s.kept := State.lockWalk_keeps hs1 e
          split
          apply hdone
          rw [State.modCore_kept, hs2]

@[simp] theorem execTlbu_kept (s : State) (lc ra kindI) :
    Out.kept (execTlbu lc ra kindI s) = some s.kept := by
  unfold execTlbu
  refine State.issue_kept rfl fun x0 x1 s1 hs1 => ?_
  extract_lets c va
  split
  · exact State.trapWord_keeps hs1 rfl
  · rw [optKeeps_some, State.modCore_kept, hs1]

@[simp] theorem State.tlbi_kept (s : State) (lc form lvl ra) :
    Out.kept (s.tlbi lc form lvl ra) = some s.kept := by
  unfold State.tlbi
  refine State.issue_kept rfl fun x0 x1 s1 hs1 => ?_
  extract_lets c r
  split
  · exact State.trapWord_keeps hs1 rfl
  · rw [optKeeps_some, State.modCore_kept, hs1]

@[simp] theorem execTlbiVa_kept (s : State) (lc ra) :
    Out.kept (execTlbiVa lc ra s) = some s.kept := by
  unfold execTlbiVa
  rw [State.tlbi_kept]

@[simp] theorem execTlbiAsid_kept (s : State) (lc) :
    Out.kept (execTlbiAsid lc s) = some s.kept := by
  unfold execTlbiAsid
  rw [State.tlbi_kept]

@[simp] theorem execTlbiPid_kept (s : State) (lc ra) :
    Out.kept (execTlbiPid lc ra s) = some s.kept := by
  unfold execTlbiPid
  rw [State.tlbi_kept]

@[simp] theorem execTlbiAll_kept (s : State) (lc) :
    Out.kept (execTlbiAll lc s) = some s.kept := by
  unfold execTlbiAll
  rw [State.tlbi_kept]

@[simp] theorem State.tlbiB_kept (s : State) (lc form lvl ra) :
    Out.kept (s.tlbiB lc form lvl ra) = some s.kept := by
  unfold State.tlbiB
  refine State.issue_kept rfl fun x0 x1 s1 hs1 => ?_
  extract_lets c r st a
  split
  · exact State.trapWord_keeps hs1 rfl
  · split
    · trivial
    · extract_lets msg m0 s2 s3
      have hs2 : s2.kept = s.kept := by unfold s2; rw [State.kept_mk, State.tb_pending, hs1]
      have hs3 : s3.kept = s.kept :=
        State.foldl_kept hs2 (fun s4 x hs4 => by rw [State.send_kept, hs4]) _
      rw [optKeeps_some, State.modCore_kept, hs3]

@[simp] theorem execTlbiBVa_kept (s : State) (lc ra) :
    Out.kept (execTlbiBVa lc ra s) = some s.kept := by
  unfold execTlbiBVa
  rw [State.tlbiB_kept]

@[simp] theorem execTlbiBAsid_kept (s : State) (lc) :
    Out.kept (execTlbiBAsid lc s) = some s.kept := by
  unfold execTlbiBAsid
  rw [State.tlbiB_kept]

@[simp] theorem execTlbiBPid_kept (s : State) (lc ra) :
    Out.kept (execTlbiBPid lc ra s) = some s.kept := by
  unfold execTlbiBPid
  rw [State.tlbiB_kept]

@[simp] theorem execTlbiBAll_kept (s : State) (lc) :
    Out.kept (execTlbiBAll lc s) = some s.kept := by
  unfold execTlbiBAll
  rw [State.tlbiB_kept]

@[simp] theorem State.lineOp_kept (s : State) (lc ra acc code) :
    Out.kept (s.lineOp lc ra acc code) = some s.kept := by
  unfold State.lineOp
  refine State.issue_kept rfl fun x0 x1 s1 hs1 => ?_
  extract_lets c va
  split
  · trivial
  · rename_i s2 e
    have hs2 : s2.kept = s.kept := State.translate_keeps hs1 e
    exact hs2
  · rename_i e s2 e1
    have hs2 : s2.kept = s.kept := State.translate_keeps hs1 e1
    exact State.raise_keeps hs2 rfl
  · rename_i pa mt ws b s2 e
    have hs2 : s2.kept = s.kept := State.translate_keeps hs1 e
    extract_lets sbm line m a
    split
    · rw [optKeeps_some, State.modCore_kept, hs2]
    · split
      · trivial
      · rename_i s3 e1
        have hs3 : s3.kept = s.kept := State.bankReq_keeps hs2 e1
        rw [optKeeps_some, State.modCore_kept, hs3]

@[simp] theorem execDclC_kept (s : State) (lc ra) :
    Out.kept (execDclC lc ra s) = some s.kept := by
  unfold execDclC
  rw [State.lineOp_kept]

@[simp] theorem execDclI_kept (s : State) (lc ra) :
    Out.kept (execDclI lc ra s) = some s.kept := by
  unfold execDclI
  rw [State.lineOp_kept]

@[simp] theorem execDclCi_kept (s : State) (lc ra) :
    Out.kept (execDclCi lc ra s) = some s.kept := by
  unfold execDclCi
  rw [State.lineOp_kept]

@[simp] theorem execDclZ_kept (s : State) (lc ra) :
    Out.kept (execDclZ lc ra s) = some s.kept := by
  unfold execDclZ
  refine State.issue_kept rfl fun x0 x1 s1 hs1 => ?_
  split
  · rename_i ps walk s2 e
    have hs2 : s2.kept = s.kept := State.lineAccess_keeps hs1 e
    refine OptKeeps.map (State.storeDone_keeps hs2 rfl) fun s3 hs3 => ?_
    split <;> simp [hs3]
  · refine storeVia_keeps ?_ rfl
    exact State.lineAccess_keeps hs1 rfl

@[simp] theorem execDpf_kept (s : State) (lc ra) :
    Out.kept (execDpf lc ra s) = some s.kept := by
  unfold execDpf
  refine State.issue_kept rfl fun x0 x1 s1 hs1 => ?_
  extract_lets c s2
  have hs2 : s2.kept = s.kept := by
    unfold s2
    split
    · extract_lets line u
      split
      · exact hs1
      · split
        · exact hs1
        · split
          · rename_i d pois beats s3 e
            have hs3 : s3.kept = s.kept := State.readDc_keeps hs1 e
            rw [State.fillL1d_kept, hs3]
          · rename_i s3 e
            have hs3 : s3.kept = s.kept := State.readDc_keeps hs1 e
            exact hs3
          · exact hs1
    · exact hs1
  rw [optKeeps_some, State.modCore_kept, hs2]

@[simp] theorem execIclI_kept (s : State) (lc ra) :
    Out.kept (execIclI lc ra s) = some s.kept := by
  unfold execIclI
  refine State.issue_kept rfl fun x0 x1 s1 hs1 => ?_
  extract_lets c finish
  have hfinish : ∀ x0 t1, t1.kept = s.kept → OptKeeps s.kept (finish x0 t1) := by
    intro x01 s2 hs2
    unfold finish
    rw [optKeeps_some, State.modCore_kept, hs2]
  split
  · trivial
  · rename_i s2 e
    have hs2 : s2.kept = s.kept := State.translate_keeps hs1 e
    exact hs2
  · rename_i e s2 e1
    have hs2 : s2.kept = s.kept := State.translate_keeps hs1 e1
    apply hfinish
    exact hs2
  · rename_i pa mt ws b s2 e
    have hs2 : s2.kept = s.kept := State.translate_keeps hs1 e
    apply hfinish
    rw [State.storeL1i_kept, hs2]

@[simp] theorem execL1iInvalidationApply_kept (s : State) (lc) :
    Out.kept (execL1iInvalidationApply lc s) = some s.kept := rfl

@[simp] theorem execAcctClear_kept (s : State) (lc) :
    Out.kept (execAcctClear lc s) = some s.kept := rfl

@[simp] theorem State.coreArrayCe_kept (s : State) (d slot) :
    (s.coreArrayCe d slot).kept = s.kept := by
  unfold State.coreArrayCe
  rw [State.report_kept]

end Sys2Proof.Machine

end

