-- ==== Sys2Proof/Proofs/KeptDie.lean ====
section
/-! SUPPORT. TB_NOW and the queue over the commands of the die: interrupts, events, devices, line copies. -/

namespace Sys2Proof.Machine

@[simp] theorem State.halt_kept (s : State) (lc h) :
    (s.halt lc h).kept = s.kept := rfl

@[simp] theorem State.coreCheck_kept (s : State) (d slot) :
    (s.coreCheck d slot).kept = s.kept := by
  unfold State.coreCheck
  extract_lets s1
  have hs1 : s1.kept = s.kept := State.report_kept ..
  split <;> simp [hs1]

@[simp] theorem State.slotTlbs_kept (s : State) (d slot f) :
    (s.slotTlbs d slot f).kept = s.kept := by
  unfold State.slotTlbs
  split <;> simp

@[simp] theorem State.dropSub_kept (s : State) (d line) :
    (s.dropSub d line).kept = s.kept := by
  unfold State.dropSub
  rw [State.modDie_kept, State.invalL1_kept]

theorem State.evictLine_keeps {s : State} {κ} (hs : s.kept = κ) {d line keepData u cls p r}
    (e : s.evictLine d line keepData u cls p = r) : OptKeeps κ r := by
  subst e
  unfold State.evictLine
  extract_lets x y old
  split
  · trivial
  · extract_lets s1
    have hs1 : s1.kept = κ := by unfold s1; rw [State.modDie_kept, State.invalL1_kept, hs]
    rw [optKeeps_some, State.sendEvict_kept, hs1]

@[simp] theorem State.dcStruck_kept (s : State) (d slot line) :
    (s.dcStruck d slot line).kept = s.kept := by
  unfold State.dcStruck
  extract_lets u s1 s2
  have hs1 : s1.kept = s.kept := State.report_kept ..
  have hs2 : s2.kept = s.kept := (State.modDie_kept ..).trans hs1
  split
  · rfl
  · split
    · rw [State.dropSub_kept, hs1]
    · split
      · exact OptKeeps.getD (State.evictLine_keeps hs2 rfl) hs2
      · exact hs2

@[simp] theorem State.scratchStruck_kept (s : State) (d word) :
    (s.scratchStruck d word).kept = s.kept := by
  unfold State.scratchStruck
  split <;> simp

@[simp] theorem State.arrayErr_kept (s : State) (d slot a) :
    (State.arrayErr d slot s a).kept = s.kept := by
  unfold State.arrayErr
  split
  · rw [State.coreArrayCe_kept]
  · rw [State.coreCheck_kept]
  · extract_lets s1
    have hs1 : s1.kept = s.kept := by unfold s1; split <;> simp
    rw [State.coreArrayCe_kept, hs1]
  · rw [State.coreArrayCe_kept, State.slotTlbs_kept]
  · rw [State.coreArrayCe_kept, State.slotTlbs_kept]
  · rw [State.coreArrayCe_kept, State.slotTlbs_kept]
  · extract_lets st
    split <;> simp
  · rw [State.report_kept]
  · split <;> simp

@[simp] theorem execBeatRateWindow_kept (s : State) (die slot win) :
    Out.kept (execBeatRateWindow die slot win s) = some (s.advance win.t).kept := by
  unfold execBeatRateWindow
  extract_lets key s1 st
  have hs1 : s1.kept = (s.advance win.t).kept :=
    State.foldl_kept rfl (fun s2 x hs2 => by rw [State.arrayErr_kept, hs2]) _
  split <;> exact congrArg some hs1

theorem State.takeInterrupt_kept {s : State} {κ} (hs : s.kept = κ) {A : Type} {lc} {enter : A → Cand → Nat
    → Option State} {k}
    (henter : ∀ x0 x1 x2, OptKeeps κ (enter x0 x1 x2)) : (s.takeInterrupt lc enter k).kept = κ := by
  unfold State.takeInterrupt
  split
  · split
    · exact OptKeeps.getD (henter ..) hs
    · exact hs
  · exact hs

@[simp] theorem execInterruptEntry_kept (s : State) (lc) :
    Out.kept (execInterruptEntry lc s) = some s.kept := by
  unfold execInterruptEntry
  exact congrArg some (State.takeInterrupt_kept rfl fun x0 x1 x2 => State.enterInterrupt_keeps rfl rfl)

@[simp] theorem execIntOffer_kept (s : State) (die src) :
    Out.kept (execIntOffer die src s) = some s.kept := by
  unfold execIntOffer
  extract_lets i t
  split
  · extract_lets lc
    split <;> simp
  · rfl

@[simp] theorem State.modShep_kept (s : State) (f) :
    (s.modShep f).kept = s.kept := rfl

@[simp] theorem State.domsBack_kept (s : State) :
    (s.domsBack).kept = s.kept := by
  unfold State.domsBack
  exact State.foldl_kept rfl (fun s1 x hs1 => by rw [State.cpSet_kept, hs1]) _

@[simp] theorem State.setMc_kept (s : State) (q x) :
    (s.setMc q x).kept = s.kept := rfl

@[simp] theorem State.modMc_kept (s : State) (q f) :
    (s.modMc q f).kept = s.kept := rfl

@[simp] theorem State.wakePcs_kept (s : State) :
    (s.wakePcs).kept = s.kept := by
  unfold State.wakePcs
  exact State.foldl_kept rfl (fun s1 x hs1 => by rw [State.modMc_kept, hs1]) _

@[simp] theorem State.modPc_kept (s : State) (q p f) :
    (s.modPc q p f).kept = s.kept := rfl

@[simp] theorem State.setMemLine_kept (s : State) (l v mask) :
    (s.setMemLine l v mask).kept = s.kept := rfl

@[simp] theorem State.stackWrite_kept (s : State) (line d pois) :
    (s.stackWrite line d pois).kept = s.kept := by
  unfold State.stackWrite
  split <;> simp

@[simp] theorem State.setHome_kept (s : State) (q x) :
    (s.setHome q x).kept = s.kept := rfl

@[simp] theorem State.modHome_kept (s : State) (q f) :
    (s.modHome q f).kept = s.kept := rfl

@[simp] theorem State.flushMsc_kept (s : State) (q) :
    (s.flushMsc q).kept = s.kept := by
  unfold State.flushMsc
  extract_lets s1 s2 s3
  have hs1 : s1.kept = s.kept := by
    unfold s1
    refine State.foldl_kept rfl (fun s4 x hs4 => ?_) _
    rw [State.modPc_kept]
    exact State.foldl_kept hs4 (fun s5 x1 hs5 => by rw [State.stackWrite_kept, hs5]) _
  have hs2 : s2.kept = s.kept :=
    State.foldl_kept hs1 (fun s4 x hs4 => by rw [State.stackWrite_kept, hs4]) _
  have hs3 : s3.kept = s.kept := by
    unfold s3
    refine State.foldl_kept hs2 (fun s4 x hs4 => ?_) _
    split
    · split <;> simp [hs4]
    · exact hs4
  rw [State.modHome_kept, hs3]

theorem State.freeErrs_kept {s : State} {κ} (hs : s.kept = κ) {r}
    (e : s.freeErrs = r) : r.2.kept = κ := by
  subst e
  unfold State.freeErrs
  split
  rename_i v s1 e
  have hs1 : s1.kept = κ := State.takeFree_kept hs e
  exact hs1

@[simp] theorem State.mcEvent_kept (s : State) (q i) :
    (s.mcEvent q i).kept = s.kept := by
  unfold State.mcEvent
  extract_lets a s1
  have hs1 : s1.kept = s.kept := State.cpSetField_kept ..
  split <;> simp [hs1]

@[simp] theorem State.mcCorrected_kept (s : State) (q line x) :
    (s.mcCorrected q line x).kept = s.kept := by
  unfold State.mcCorrected
  rw [State.report_kept, State.mcEvent_kept, State.countAt_kept]

@[simp] theorem State.mcUe_kept (s : State) (q line src beat synd crit stop) :
    (s.mcUe q line src beat synd crit stop).kept = s.kept := by
  unfold State.mcUe
  extract_lets s1 a s2
  have hs1 : s1.kept = s.kept := by unfold s1; rw [State.countAt_kept, State.mcEvent_kept]
  have hs2 : s2.kept = s.kept := by unfold s2; split <;> simp [hs1]
  rw [State.report_kept, hs2]

theorem State.stackRead_kept {s : State} {κ} (hs : s.kept = κ) {q line scrub err r}
    (e : s.stackRead q line scrub err = r) : r.2.kept = κ := by
  subst e
  unfold State.stackRead
  extract_lets bad s1 crit dirty
  have hs1 : s1.kept = κ :=
    State.foldl_kept hs (fun s2 x hs2 => by rw [State.mcCorrected_kept, hs2]) _
  clear_value s1
  clear_value bad crit dirty
  split
  · split
    · dsimp only
      exact hs
    · dsimp only
      rw [State.countAt_kept, State.mcEvent_kept, hs]
  · split
    · dsimp only
      exact hs1
    · extract_lets s2 queued s3
      have hs2 : s2.kept = κ := (State.mcUe_kept ..).trans hs1
      clear_value s2
      have hs3 : s3.kept = κ := by unfold s3; split <;> simp [hs2]
      clear_value s3
      clear_value queued
      split
      · dsimp only
        exact hs2
      · dsimp only
        exact hs3

@[simp] theorem State.mscPut_kept (s : State) (q l) :
    (s.mscPut q l).kept = s.kept := rfl

@[simp] theorem State.modEntry_kept (s : State) (q idx f) :
    (s.modEntry q idx f).kept = s.kept := rfl

@[simp] theorem State.noteMoved_kept (s : State) (q cls) :
    (s.noteMoved q cls).kept = s.kept := rfl

@[simp] theorem State.homeWrite_kept (s : State) (q line d pois) :
    (s.homeWrite q line d pois).kept = s.kept := rfl

@[simp] theorem State.mirTouch_kept (s : State) (line) :
    (s.mirTouch line).kept = s.kept := by
  unfold State.mirTouch
  extract_lets src s1 src1
  have hs1 : s1.kept = s.kept := by
    unfold s1
    split
    · split
      · split
        rfl
      · rfl
    · rfl
  split <;> simp [hs1]

@[simp] theorem State.setDt_kept (s : State) (d line c) :
    (s.setDt d line c).kept = s.kept := by
  unfold State.setDt
  extract_lets s1
  have hs1 : s1.kept = s.kept := by
    unfold s1
    refine State.foldl_kept rfl (fun s2 x hs2 => ?_) _
    extract_lets x1
    split <;> exact hs2
  split <;> simp [hs1]

@[simp] theorem State.applyEvict_kept (s : State) (q m) :
    (s.applyEvict q m).kept = s.kept := by
  unfold State.applyEvict
  extract_lets line s1 s2 s3 s4
  have hs1 : s1.kept = s.kept := by unfold s1; rw [State.noteMoved_kept, State.homeWrite_kept,
      State.mirTouch_kept]
  have hs2 : s2.kept = s.kept := by
    unfold s2
    split
    · split <;> simp [hs1]
    · rfl
  have hs3 : s3.kept = s.kept := by
    unfold s3
    split
    · split <;> simp [hs2]
    · exact hs2
  have hs4 : s4.kept = s.kept := (State.modHome_kept ..).trans hs3
  rw [State.send_kept, hs4]

@[simp] theorem State.applyHeld_kept (s : State) (q line) :
    (s.applyHeld q line).kept = s.kept := by
  unfold State.applyHeld
  split
  exact State.foldl_kept (by rw [State.modHome_kept]) (fun s1 x hs1 =>
      by rw [State.applyEvict_kept, hs1]) _

@[simp] theorem State.dropEntry_kept (s : State) (q idx) :
    (s.dropEntry q idx).kept = s.kept := rfl

@[simp] theorem State.grantDt_kept (s : State) (d line w c) :
    (s.grantDt d line w c).kept = s.kept := rfl

@[simp] theorem State.applyAfter_kept (s : State) (line l) :
    (s.applyAfter line l).kept = s.kept := by
  unfold State.applyAfter
  exact State.foldl_kept rfl (fun s1 x hs1 => by rw [State.setDt_kept, hs1]) _

@[simp] theorem State.complete_kept (s : State) (m k data low dies) :
    (s.complete m k data low dies).kept = s.kept := by
  unfold State.complete
  split <;> simp

@[simp] theorem State.notePeak_kept (s : State) (q n) :
    (s.notePeak q n).kept = s.kept := rfl

@[simp] theorem State.takeEntry_kept (s : State) (q m) :
    (s.takeEntry q m).kept = s.kept := by
  unfold State.takeEntry
  rw [State.notePeak_kept, State.modHome_kept]

@[simp] theorem State.noteE_kept (s : State) (q line) :
    (s.noteE q line).kept = s.kept := by
  unfold State.noteE
  extract_lets h s1
  have hs1 : s1.kept = s.kept := by
    unfold s1
    split
    · split <;> simp
    · rfl
  split <;> simp [hs1]

@[simp] theorem State.clearDt_kept (s : State) (line) :
    (s.clearDt line).kept = s.kept := by
  unfold State.clearDt
  exact State.foldl_kept rfl (fun s1 x hs1 => by rw [State.setDt_kept, hs1]) _

@[simp] theorem State.finish_kept (s : State) (q x2 data pois) :
    (s.finish q x2 data pois).kept = s.kept := by
  unfold State.finish
  extract_lets m line done waitSeen me write grant s1 s2 s3 s4
  have hdone : ∀ t0, t0.kept = s.kept → (done t0).kept = s.kept := by
    intro s5 hs5
    unfold done
    rw [State.dropEntry_kept, hs5]
  clear_value done
  have hwaitSeen : ∀ t0, t0.kept = s.kept → (waitSeen t0).kept = s.kept := by
    intro s5 hs5
    unfold waitSeen
    rw [State.modEntry_kept, hs5]
  clear_value waitSeen
  have hwrite : ∀ t0 x1 x2, t0.kept = s.kept → (write t0 x1 x2).kept = s.kept := by
    intro s5 x1 x21 hs5
    unfold write
    rw [State.noteMoved_kept, State.homeWrite_kept, hs5]
  clear_value write
  have hgrant : ∀ t0 x1, t0.kept = s.kept → (grant t0 x1).kept = s.kept := by
    intro s5 x1 hs5
    unfold grant
    clear_value me
    split <;> simp [hs5]
  clear_value grant
  have hs1 : s1.kept = s.kept := State.applyAfter_kept ..
  clear_value s1
  have hs2 : s2.kept = s.kept := by unfold s2; rw [State.clearDt_kept, State.complete_kept,
      State.mirTouch_kept, hs1]
  clear_value s2
  have hs3 : s3.kept = s.kept := by unfold s3; rw [State.complete_kept, State.mirTouch_kept, hs1]
  clear_value s3
  have hs4 : s4.kept = s.kept := (State.clearDt_kept ..).trans hs1
  clear_value s4
  clear_value m line me
  split
  · rw [State.modEntry_kept, hs1]
  · split
    · split
      · apply hdone
        rw [State.complete_kept, hs1]
      · split
        · apply hwaitSeen
          apply hgrant
          rw [State.complete_kept, hs1]
        · apply hwaitSeen
          rw [State.noteE_kept]
          apply hgrant
          rw [State.complete_kept, State.mirTouch_kept, hs1]
    · split
      · apply hdone
        rw [State.complete_kept, hs1]
      · apply hwaitSeen
        rw [State.noteE_kept]
        apply hgrant
        exact hs2
    · split
      · apply hdone
        rw [State.complete_kept, hs1]
      · apply hwaitSeen
        rw [State.noteE_kept]
        apply hgrant
        rw [State.clearDt_kept, hs3]
    · apply hdone
      split <;> rw [State.complete_kept, hs1]
    · split
      · apply hdone
        rw [State.complete_kept]
        apply hwrite
        rw [State.mirTouch_kept, hs4]
      · split
        · apply hdone
          rw [State.complete_kept, hs4]
        · apply hdone
          rw [State.complete_kept]
          apply hwrite
          rw [State.mirTouch_kept, hs4]
    · split
      · apply hdone
        rw [State.complete_kept, hs4]
      · split
        extract_lets s5
        have hs5 : s5.kept = s.kept := by
          unfold s5
          split
          · apply hwrite
            rw [State.mirTouch_kept, hs4]
          · exact hs4
        clear_value s5
        apply hdone
        rw [State.complete_kept, hs5]
    · split
      · apply hdone
        rw [State.complete_kept]
        apply hwrite
        rw [State.mirTouch_kept, State.clearDt_kept, hs1]
      · apply hdone
        rw [State.complete_kept, hs1]
    · apply hdone
      exact hs1

@[simp] theorem State.answered_kept (s : State) (q x2) :
    (s.answered q x2).kept = s.kept := by
  unfold State.answered
  extract_lets line s1 e
  have hs1 : s1.kept = s.kept := State.applyHeld_kept ..
  split
  · rw [State.finish_kept, hs1]
  · split
    · rw [State.finish_kept, hs1]
    · split <;> simp [hs1]

@[simp] theorem State.activate_kept (s : State) (q x2) :
    (s.activate q x2).kept = s.kept := by
  unfold State.activate
  extract_lets m line hs conv s1 e
  have hs1 : s1.kept = s.kept := by unfold s1; split <;> simp
  split
  extract_lets s2 s3
  have hs2 : s2.kept = s.kept := (State.modEntry_kept ..).trans hs1
  have hs3 : s3.kept = s.kept :=
    State.foldl_kept hs2 (fun s4 x hs4 => by rw [State.send_kept, hs4]) _
  split <;> simp [hs3]

@[simp] theorem State.runLine_kept (a3 : State) (q line a) :
    (State.runLine q line a a3).kept = a3.kept := by
  induction a generalizing a3 q line with
  | zero =>
    rw [State.runLine]
  | succ n' ih =>
    rw [State.runLine]
    split
    · split
      · rw [ih, State.activate_kept]
      · rfl
    · rfl

@[simp] theorem State.settleLine_kept (s : State) (q line) :
    (s.settleLine q line).kept = s.kept := by
  unfold State.settleLine
  rw [State.runLine_kept]

@[simp] theorem State.settleHome_kept (s : State) (q) :
    (s.settleHome q).kept = s.kept := by
  unfold State.settleHome
  exact State.foldl_kept rfl (fun s1 x hs1 => by rw [State.settleLine_kept, hs1]) _

@[simp] theorem State.fillArrived_kept (s : State) (q line d pois) :
    (s.fillArrived q line d pois).kept = s.kept := by
  unfold State.fillArrived
  split
  · rfl
  · extract_lets noalloc s1
    have hs1 : s1.kept = s.kept := by unfold s1; split <;> simp
    split <;> simp [hs1]

@[simp] theorem State.readBack_kept (s : State) (q x2 err) :
    (s.readBack q x2 err).kept = s.kept := by
  unfold State.readBack
  extract_lets line
  split
  · rename_i s1 e
    have hs1 : s1.kept = s.kept := State.stackRead_kept rfl e
    exact hs1
  · rename_i d pois s1 e
    have hs1 : s1.kept = s.kept := State.stackRead_kept rfl e
    extract_lets p high t
    split
    · rw [State.fillArrived_kept, hs1]
    · split <;> simp [hs1]

@[simp] theorem State.mcFinish_kept (s : State) (q) :
    (s.mcFinish q).kept = s.kept := by
  unfold State.mcFinish
  extract_lets s1
  have hs1 : s1.kept = s.kept := State.flushMsc_kept ..
  refine State.foldl_kept hs1 (fun s2 x hs2 => ?_) _
  extract_lets rs s3
  have hs3 : s3.kept = s.kept := (State.modPc_kept ..).trans hs2
  refine State.foldl_kept hs3 (fun s4 x1 hs4 => ?_) _
  split
  rename_i e s5 e1
  have hs5 : s5.kept = s.kept := State.freeErrs_kept hs4 e1
  rw [State.readBack_kept, hs5]

@[simp] theorem State.stackSleep_kept (s : State) (q) :
    (s.stackSleep q).kept = s.kept := by
  unfold State.stackSleep
  split <;> simp

@[simp] theorem State.stackWake_kept (s : State) (q) :
    (s.stackWake q).kept = s.kept := by
  unfold State.stackWake
  split <;> simp

@[simp] theorem State.settleStacks_kept (s : State) :
    (s.settleStacks).kept = s.kept := by
  unfold State.settleStacks
  refine State.foldl_kept rfl (fun s1 x hs1 => ?_) _
  split <;> simp [hs1]

@[simp] theorem State.eventBoth_kept (s : State) (x1) :
    (s.eventBoth x1).kept = s.kept := by
  unfold State.eventBoth
  rw [State.event_kept, State.event_kept]

@[simp] theorem State.rebuildLists_kept (s : State) :
    (s.rebuildLists).kept = s.kept := by
  unfold State.rebuildLists
  extract_lets s1
  have hs1 : s1.kept = s.kept := State.modShep_kept ..
  refine State.foldl_kept hs1 (fun s2 x hs2 => ?_) _
  extract_lets now
  split <;> simp [hs2]

@[simp] theorem State.guarantee_kept (s : State) (commit q) :
    (State.guarantee commit s q).kept = s.kept := by
  unfold State.guarantee
  split
  extract_lets da sh old l s1
  have hs1 : s1.kept = s.kept := State.cpSet_kept ..
  split
  extract_lets s2 short wasShort s3 s4 ev s5 s6
  have hs2 : s2.kept = s.kept :=
    State.foldl_kept hs1 (fun s7 x hs7 => by rw [State.cpSet_kept, hs7]) _
  have hs3 : s3.kept = s.kept := (State.cpSetField_kept ..).trans hs2
  have hs4 : s4.kept = s.kept := (State.cpSetField_kept ..).trans hs3
  have hs5 : s5.kept = s.kept := by unfold s5; split <;> simp [hs4]
  have hs6 : s6.kept = s.kept := by unfold s6; split <;> simp [hs5]
  split
  · exact hs4
  · split <;> simp [hs6]

@[simp] theorem State.guarantees_kept (s : State) :
    (s.guarantees).kept = s.kept := by
  unfold State.guarantees
  exact State.foldl_kept rfl (fun s1 x hs1 => by rw [State.guarantee_kept, hs1]) _

@[simp] theorem State.modPort_kept (s : State) (p f) :
    (s.modPort p f).kept = s.kept := rfl

@[simp] theorem State.sendCtl_kept (s : State) (p u) :
    (s.sendCtl p u).kept = s.kept := rfl

@[simp] theorem State.setPortState_kept (s : State) (p x) :
    (s.setPortState p x).kept = s.kept := by
  unfold State.setPortState
  rw [State.cpSetField_kept]

@[simp] theorem State.linkLost_kept (s : State) (p) :
    (s.linkLost p).kept = s.kept := by
  unfold State.linkLost
  split <;> simp

@[simp] theorem State.swapping_kept (s : State) (p b) :
    (s.swapping p b).kept = s.kept := by
  unfold State.swapping
  rw [State.cpSetField_kept, State.cpSetField_kept]

@[simp] theorem State.beginLaneSwap_kept (s : State) (p lane down) :
    (s.beginLaneSwap p lane down).kept = s.kept := by
  unfold State.beginLaneSwap
  split
  · split <;> simp
  · rw [State.sendCtl_kept, State.swapping_kept, State.modPort_kept]

@[simp] theorem State.widenNext_kept (s : State) (p) :
    (s.widenNext p).kept = s.kept := by
  unfold State.widenNext
  split <;> simp

@[simp] theorem State.beginChange_kept (s : State) (d b) :
    (s.beginChange d b).kept = s.kept := by
  unfold State.beginChange
  extract_lets hub die both s1 short
  have hboth : ∀ x0 t1, t1.kept = s.kept → (both x0 t1).kept = s.kept := by
    intro x0 s2 hs2
    unfold both
    rw [State.modPort_kept, State.modPort_kept, hs2]
  have hs1 : s1.kept = s.kept := State.modPort_kept ..
  split
  · apply hboth
    exact hs1
  · split
    · rw [State.sendCtl_kept]
      apply hboth
      exact hs1
    · split
      · rw [State.widenNext_kept, State.widenNext_kept]
        apply hboth
        exact hs1
      · refine State.foldl_kept ?_ (fun s2 x hs2 => by rw [State.report_kept, hs2]) _
        apply hboth
        exact hs1

@[simp] theorem State.startSwap_kept (s : State) (p lane down) :
    (s.startSwap p lane down).kept = s.kept := by
  unfold State.startSwap
  extract_lets x
  split
  · rw [State.modPort_kept]
  · split
    · split <;> simp
    · rw [State.beginLaneSwap_kept]

@[simp] theorem State.takeSwaps_kept (a1 : State) (a a2) :
    (State.takeSwaps a a1 a2).kept = a1.kept := by
  induction a generalizing a1 a2 with
  | zero =>
    rw [State.takeSwaps]
  | succ n' ih =>
    rw [State.takeSwaps]
    split
    · rfl
    · extract_lets s1
      have hs1 : s1.kept = a1.kept := by unfold s1; rw [State.startSwap_kept, State.modPort_kept]
      split
      · exact hs1
      · rw [ih, hs1]

@[simp] theorem State.nextSwap_kept (s : State) (p) :
    (s.nextSwap p).kept = s.kept := by
  unfold State.nextSwap
  rw [State.takeSwaps_kept]

@[simp] theorem State.settleLink_kept (s : State) (d) :
    (s.settleLink d).kept = s.kept := by
  unfold State.settleLink
  extract_lets s1 go
  have hs1 : s1.kept = s.kept := by
    unfold s1
    split
    · split <;> simp
    · rfl
  have hgo : ∀ t0 x1, t0.kept = s.kept → (go t0 x1).kept = s.kept := by
    intro s2 x1 hs2
    unfold go
    split <;> simp [hs2]
  apply hgo
  apply hgo
  exact hs1

@[simp] theorem State.setNarrow_kept (s : State) (d b) :
    (s.setNarrow d b).kept = s.kept := by
  unfold State.setNarrow
  extract_lets p s1
  have hs1 : s1.kept = s.kept := State.cpSetField_kept ..
  split
  · rw [State.settleLink_kept, State.modPort_kept, hs1]
  · exact hs1

@[simp] theorem State.widen_kept (s : State) :
    (s.widen).kept = s.kept := by
  unfold State.widen
  extract_lets s1
  have hs1 : s1.kept = s.kept :=
    State.foldl_kept rfl (fun s2 x hs2 => by rw [State.setNarrow_kept, hs2]) _
  rw [State.modShep_kept, hs1]

@[simp] theorem State.unhalt_kept (s : State) (lc h) :
    (s.unhalt lc h).kept = s.kept := rfl

@[simp] theorem State.unhaltAll_kept (s : State) (h) :
    (s.unhaltAll h).kept = s.kept := by
  unfold State.unhaltAll
  refine State.foldl_kept rfl (fun s1 x hs1 => ?_) _
  split <;> simp [hs1]

@[simp] theorem State.modMbox_kept (s : State) (k f) :
    (s.modMbox k f).kept = s.kept := rfl

@[simp] theorem State.modPcie_kept (s : State) (f) :
    (s.modPcie f).kept = s.kept := rfl

@[simp] theorem State.toHost_kept (s : State) (t) :
    (s.toHost t).kept = s.kept := rfl

@[simp] theorem State.modFold_kept (s : State) (f) :
    (s.modFold f).kept = s.kept := rfl

@[simp] theorem State.modAq_kept (s : State) (f) :
    (s.modAq f).kept = s.kept := rfl

@[simp] theorem State.msix_kept (s : State) (f v) :
    (s.msix f v).kept = s.kept := by
  unfold State.msix
  split
  · rfl
  · split <;> simp

@[simp] theorem State.putReply_kept (s : State) (x1 count) :
    (s.putReply x1 count).kept = s.kept := by
  unfold State.putReply
  split
  · extract_lets k irq bytes s1
    have hs1 : s1.kept = s.kept := State.modMbox_kept ..
    split <;> simp [hs1]
  · extract_lets a e s1 wrap s2 s3
    have hs1 : s1.kept = s.kept := State.toHost_kept ..
    have hs2 : s2.kept = s.kept := (State.modAq_kept ..).trans hs1
    have hs3 : s3.kept = s.kept := by unfold s3; split <;> simp [hs2]
    rw [State.msix_kept, hs3]

@[simp] theorem State.countFlits_kept (s : State) (k n) :
    (s.countFlits k n).kept = s.kept := rfl

@[simp] theorem State.lpCount_kept (s : State) (k off n) :
    (s.lpCount k off n).kept = s.kept := by
  unfold State.lpCount
  rw [State.cpSet64_kept]

@[simp] theorem State.setLoupe_kept (s : State) (k x) :
    (s.setLoupe k x).kept = s.kept := rfl

@[simp] theorem State.traceEntry_kept (s : State) (k m) :
    (s.traceEntry k m).kept = s.kept := by
  unfold State.traceEntry
  extract_lets x st cap widx base w0 put last
  split
  · rfl
  · split
    · rw [State.setLoupe_kept]
    · split
      extract_lets t s1 stop st1 st2
      have hs1 : s1.kept = s.kept := by unfold s1; rw [State.setLoupe_kept, State.kept_mk, State.tb_pending]
      rw [State.cpSet_kept, hs1]

@[simp] theorem State.examine_kept (s : State) (m path k) :
    (s.examine m path k).kept = s.kept := by
  unfold State.examine
  extract_lets ctl run s1
  have hs1 : s1.kept = s.kept := by unfold s1; split <;> simp
  split
  · rfl
  · split <;> simp [hs1]

@[simp] theorem State.passed_kept (s : State) (m) :
    (s.passed m).kept = s.kept := by
  unfold State.passed
  extract_lets path n s1
  have hs1 : s1.kept = s.kept :=
    State.foldl_kept rfl (fun s2 x hs2 =>
        by rw [State.countFlits_kept, State.countFlits_kept, hs2]) _
  split
  · exact hs1
  · exact State.foldl_kept hs1 (fun s2 x hs2 => by rw [State.examine_kept, hs2]) _

@[simp] theorem State.makeClean_kept (s : State) (d line) :
    (s.makeClean d line).kept = s.kept := by
  unfold State.makeClean
  extract_lets u s1
  have hs1 : s1.kept = s.kept := by
    unfold s1
    refine State.foldl_kept rfl (fun s2 x hs2 => ?_) _
    split <;> simp [hs2]
  rw [State.modDie_kept, hs1]

theorem State.snoopDie_kept {s : State} {κ} (hs : s.kept = κ) {d kind line low r}
    (e : s.snoopDie d kind line low = r) : r.2.kept = κ := by
  subst e
  unfold State.snoopDie
  extract_lets x u dirty dat gone s1 locked s2 s3 s4
  have hs1 : s1.kept = κ := by unfold s1; rw [State.modDie_kept, State.shareL1_kept, hs]
  have hs2 : s2.kept = κ := (State.count16_kept ..).trans hs
  have hs3 : s3.kept = κ := (State.dropSub_kept ..).trans hs
  have hs4 : s4.kept = κ := (State.modDie_kept ..).trans hs3
  split
  · split
    · dsimp only
      exact hs
    · split
      · dsimp only
        exact hs
      · dsimp only
        exact hs
  · split
    · dsimp only
      exact hs1
    · split
      · dsimp only
        rw [State.dropSub_kept, hs]
      · split
        · split
          · dsimp only
            rw [State.makeClean_kept, hs2]
          · dsimp only
            exact hs2
        · dsimp only
          exact hs4
    · split
      · dsimp only
        rw [State.makeClean_kept, hs]
      · dsimp only
        exact hs

@[simp] theorem State.snoopData_kept (s : State) (q line src d pois) :
    (s.snoopData q line src d pois).kept = s.kept := by
  unfold State.snoopData
  split <;> simp

@[simp] theorem State.dropEvict_kept (s : State) (q m) :
    (s.dropEvict q m).kept = s.kept := by
  unfold State.dropEvict
  rw [State.send_kept, State.count16_kept]

@[simp] theorem State.overtaken_kept (s : State) (q d line x4) :
    (s.overtaken q d line x4).kept = s.kept := by
  unfold State.overtaken
  extract_lets t
  split <;> simp

theorem State.hubSnoops_kept {s : State} {κ} (hs : s.kept = κ) {q line kind ds r}
    (e : s.hubSnoops q line kind ds = r) : r.2.kept = κ := by
  subst e
  unfold State.hubSnoops
  refine pair_foldl_kept ?_ (fun q1 x hq1 => ?_) _
  · dsimp only
    exact hs
  · split
    rename_i a s1 e
    have hs1 : ((a, s1)).2.kept = κ := by
      rw [← e]
      refine State.snoopDie_kept ?_ rfl
      exact hq1
    replace hs1 : s1.kept = κ := hs1
    extract_lets s2 s3
    have hs2 : s2.kept = κ := by unfold s2; split <;> simp [hs1]
    have hs3 : s3.kept = κ := by unfold s3; split <;> simp [hs2]
    exact hs3

theorem State.hubFill_keeps {s : State} {κ} (hs : s.kept = κ) {q line cls r}
    (e : s.hubFill q line cls = r) : PairKeeps κ r := by
  subst e
  unfold State.hubFill
  split
  · exact (State.modHome_kept ..).trans hs
  · extract_lets x p s0
    have hs0 : s0.kept = κ := (State.countAt_kept ..).trans hs
    split
    rename_i found s1 e1
    have hs1 : s1.kept = κ := by
      rw [show s1 = (found, s1).2 from rfl, ← e1]
      split
      · exact State.ite_kept ((State.countAt_kept ..).trans ((State.mcEvent_kept ..).trans hs0)) hs0
      · split
        rename_i e s2 e2
        have hs2 : s2.kept = κ := State.freeErrs_kept hs e2
        extract_lets t s3
        have hs3 : s3.kept = κ := (State.modPc_kept ..).trans hs2
        exact (State.modPc_kept ..).trans (State.stackRead_kept hs3 rfl)
    clear e1
    split
    · trivial
    · split
      · exact hs1
      · exact State.ite_kept hs1 ((State.mscPut_kept ..).trans hs1)

theorem State.hubWrite_keeps {s : State} {κ} (hs : s.kept = κ) {src world pid line d mask r}
    (e : s.hubWrite src world pid line d mask = r) : HubAns.Keeps κ r := by
  subst e
  unfold State.hubWrite
  extract_lets a q rq s1
  have hs1 : s1.kept = κ := by unfold s1; rw [State.notePeak_kept, State.passed_kept, hs]
  clear_value s1
  clear_value a q rq
  split
  · exact hs
  · split
    · trivial
    · split
      rename_i ok s2 e
      have hs2 : s2.kept = κ := State.checkPasture_kept hs1 e
      split
      · rw [HubAns.keeps_refuse, State.passed_kept, hs2]
      · split
        rename_i r s3 e1
        have hs3 : s3.kept = κ := State.hubSnoops_kept hs2 e1
        extract_lets s4 old
        have hs4 : s4.kept = κ := (State.clearDt_kept ..).trans hs3
        clear_value s4
        have hold : PairKeeps κ old := by
          unfold old
          split
          · exact hs4
          · split
            · exact hs4
            · exact State.hubFill_keeps hs4 rfl
        clear_value old
        split
        · trivial
        · rename_i s5
          have hs5 : s5.kept = κ := hold
          exact hs5
        · rename_i s5
          have hs5 : s5.kept = κ := hold
          split <;> simp [hs5]

theorem State.shepPut_keeps {s : State} {κ} (hs : s.kept = κ) {line d mask r}
    (e : s.shepPut line d mask = r) : HubAns.Keeps κ r := by
  subst e
  unfold State.shepPut
  split
  · rw [HubAns.keeps_ok, State.setMemLine_kept, hs]
  · exact State.hubWrite_keeps hs rfl

theorem State.shepWrite_keeps {s : State} {κ} (hs : s.kept = κ) {a a2 a3 r}
    (e : s.shepWrite a a2 a3 = r) : HubAns.Keeps κ r := by
  induction a2 generalizing s a a3 r with
  | zero =>
    subst e
    rw [State.shepWrite]
    rw [HubAns.keeps_ok]
    exact hs
  | succ n' ih =>
    subst e
    rw [State.shepWrite]
    split
    · rename_i x s1 e
      have hs1 : s1.kept = κ := State.shepPut_keeps hs e
      exact ih hs1 rfl
    · exact State.shepPut_keeps hs rfl

theorem State.answerShep_keeps {s : State} {κ} (hs : s.kept = κ) {x1 status data detail count r}
    (e : s.answerShep x1 status data detail count = r) : OptKeeps κ r := by
  subst e
  unfold State.answerShep
  extract_lets n rep
  split
  · rw [optKeeps_some, State.putReply_kept, hs]
  · split
    · rw [optKeeps_some, State.putReply_kept, State.toHost_kept, hs]
    · split
      · rename_i x s1 e
        have hs1 : s1.kept = κ := State.shepWrite_keeps hs e
        rw [optKeeps_some, State.putReply_kept, hs1]
      · trivial
      · rename_i s1 e
        have hs1 : s1.kept = κ := State.shepWrite_keeps hs e
        rw [optKeeps_some, State.putReply_kept, hs1]
      · rename_i s1 e
        have hs1 : s1.kept = κ := State.shepWrite_keeps hs e
        rw [optKeeps_some, State.putReply_kept, hs1]

@[simp] theorem State.leaveSleep_kept (s : State) :
    (s.leaveSleep).kept = s.kept := by
  unfold State.leaveSleep
  extract_lets p2 s1 s2 s3 s4 r s5
  have hs1 : s1.kept = s.kept := by unfold s1; split <;> simp
  clear_value s1
  have hs2 : s2.kept = s.kept := by unfold s2; rw [State.wakePcs_kept, State.cpSetField_kept,
      State.cpSetField_kept, hs1]
  clear_value s2
  have hs3 : s3.kept = s.kept := (State.settleStacks_kept ..).trans hs2
  clear_value s3
  have hs4 : s4.kept = s.kept := by
    unfold s4
    split
    · rw [State.rebuildLists_kept, State.guarantees_kept]
      split <;> simp [hs3]
    · exact hs2
  clear_value s4
  have hs5 : s5.kept = s.kept := by unfold s5; rw [State.modShep_kept, State.unhaltAll_kept, hs4]
  clear_value s5
  clear_value p2 r
  split
  · exact OptKeeps.getD (State.answerShep_keeps hs5 rfl) hs5
  · exact hs5

@[simp] theorem State.keepLeave_kept (s : State) (q) :
    (s.keepLeave q).kept = s.kept := by
  unfold State.keepLeave
  extract_lets x fill s1 s2
  have hs1 : s1.kept = s.kept := by unfold s1; rw [State.kept_mk, State.tb_pending]
  have hs2 : s2.kept = s.kept := by
    unfold s2
    split
    · exact hs1
    · rw [State.cpSetField_kept, hs1]
  split
  · rfl
  · rw [State.modMc_kept, hs2]

@[simp] theorem State.cfgClear_kept (s : State) (p) :
    (s.cfgClear p).kept = s.kept := rfl

@[simp] theorem State.cfgClearAll_kept (s : State) :
    (s.cfgClearAll).kept = s.kept := by
  unfold State.cfgClearAll
  rw [State.modPcie_kept, State.cfgClear_kept]

@[simp] theorem State.leaveP3_kept (s : State) :
    (s.leaveP3).kept = s.kept := by
  unfold State.leaveP3
  extract_lets gone s1 s2 s3 s4 s5
  have hs1 : s1.kept = s.kept :=
    State.foldl_kept rfl (fun s6 x hs6 => by rw [State.cpSetField_kept, hs6]) _
  clear_value s1
  have hs2 : s2.kept = s.kept :=
    State.foldl_kept (by rw [State.domsBack_kept, hs1]) (fun s6 x hs6 =>
        by rw [State.keepLeave_kept, hs6]) _
  clear_value s2
  have hs3 : s3.kept = s.kept := (State.cpSetField_kept ..).trans hs2
  clear_value s3
  have hs4 : s4.kept = s.kept := by unfold s4; split <;> exact hs3
  clear_value s4
  have hs5 : s5.kept = s.kept := by unfold s5; rw [State.modShep_kept, State.cpSetField_kept,
      State.cfgClearAll_kept, hs4]
  clear_value s5
  exact hs5

@[simp] theorem State.wakeUp_kept (s : State) :
    (s.wakeUp).kept = s.kept := by
  unfold State.wakeUp
  split
  · rw [State.modShep_kept]
  · split
    · rw [State.leaveSleep_kept]
    · split <;> simp

@[simp] theorem State.wokenBy_kept (s : State) (ev) :
    (s.wokenBy ev).kept = s.kept := by
  unfold State.wokenBy
  split <;> simp

@[simp] theorem execDeadline_kept (s : State) (x0 t) :
    Out.kept (execDeadline x0 t s) = some (s.advance t).kept := by
  unfold execDeadline
  rw [Out.kept_next, State.wokenBy_kept]

@[simp] theorem execSgi_kept (s : State) (lc w) :
    Out.kept (execSgi lc w s) = some s.kept := by
  unfold execSgi
  extract_lets c
  split <;> simp

@[simp] theorem execEoi_kept (s : State) (lc w) :
    Out.kept (execEoi lc w s) = some s.kept := by
  unfold execEoi
  extract_lets c
  split <;> simp

@[simp] theorem State.assertDie_kept (s : State) (d i) :
    (s.assertDie d i).kept = s.kept := rfl

@[simp] theorem State.intdMessage_kept (s : State) (d i world pid src) :
    (s.intdMessage d i world pid src).kept = s.kept := by
  unfold State.intdMessage
  extract_lets o owner hub
  split <;> simp

@[simp] theorem State.modSources_kept (s : State) (d k m f) :
    (s.modSources d k m f).kept = s.kept := rfl

@[simp] theorem State.pendSet_kept (s : State) (d k b) :
    (s.pendSet d k b).kept = s.kept := rfl

@[simp] theorem State.pendClr_kept (s : State) (d k b) :
    (s.pendClr d k b).kept = s.kept := rfl

theorem State.intdWrite_keeps {s : State} {κ} (hs : s.kept = κ) {d off v m w r}
    (e : s.intdWrite d off v m w = r) : OptKeeps κ r := by
  subst e
  unfold State.intdWrite
  extract_lets bm b my
  have hsrc : ∀ k b f, OptKeeps κ (some (s.modSources d k b f)) := fun k b f =>
    (State.modSources_kept ..).trans hs
  refine OptKeeps.ite trivial (OptKeeps.ite ?_ (OptKeeps.ite ?_ (OptKeeps.ite ?_ (OptKeeps.ite ?_
    (OptKeeps.ite (hsrc ..) (OptKeeps.ite (hsrc ..) (OptKeeps.ite ?_ (OptKeeps.ite ?_ (OptKeeps.ite ?_
    (OptKeeps.ite ?_ hs))))))))))
  · exact OptKeeps.ite trivial (OptKeeps.ite ((State.modDie_kept ..).trans hs) hs)
  · exact OptKeeps.ite ((State.intdMessage_kept ..).trans hs) hs
  · exact OptKeeps.ite ((State.modDie_kept ..).trans hs) hs
  · exact hsrc ..
  · exact (State.pendSet_kept ..).trans hs
  · exact (State.pendClr_kept ..).trans hs
  · refine State.foldl_kept hs (fun t j ht => State.ite_kept ?_ ht) _
    exact (State.modSrc_kept ..).trans ht
  · exact OptKeeps.ite ((State.modSrc_kept ..).trans hs) hs

@[simp] theorem execIntdMsg_kept (s : State) (die w who) :
    Out.kept (execIntdMsg die w who s) = some s.kept := by
  unfold execIntdMsg
  exact congrArg some (OptKeeps.getD (State.intdWrite_keeps rfl rfl) rfl)

@[simp] theorem State.intWordWrite_kept (s : State) (iw shared priv bits who) :
    (s.intWordWrite iw shared priv bits who).kept = s.kept := by
  unfold State.intWordWrite
  split
  · exact OptKeeps.getD (State.intdWrite_keeps rfl rfl) rfl
  · exact OptKeeps.getD (State.windowWrite_keeps rfl rfl) rfl

@[simp] theorem execEnableSet_kept (s : State) (iw bits who) :
    Out.kept (execEnableSet iw bits who s) = some s.kept := by
  unfold execEnableSet
  rw [Out.kept_next, State.intWordWrite_kept]

@[simp] theorem execEnableClr_kept (s : State) (iw bits who) :
    Out.kept (execEnableClr iw bits who s) = some s.kept := by
  unfold execEnableClr
  rw [Out.kept_next, State.intWordWrite_kept]

@[simp] theorem execPendSet_kept (s : State) (iw bits who) :
    Out.kept (execPendSet iw bits who s) = some s.kept := by
  unfold execPendSet
  rw [Out.kept_next, State.intWordWrite_kept]

@[simp] theorem execPendClr_kept (s : State) (iw bits who) :
    Out.kept (execPendClr iw bits who s) = some s.kept := by
  unfold execPendClr
  rw [Out.kept_next, State.intWordWrite_kept]

@[simp] theorem execIntdTargetWrite_kept (s : State) (die src w who) :
    Out.kept (execIntdTargetWrite die src w who s) = some s.kept := by
  unfold execIntdTargetWrite
  exact congrArg some (OptKeeps.getD (State.intdWrite_keeps rfl rfl) rfl)

@[simp] theorem State.setGpio_kept (s : State) (g x) :
    (s.setGpio g x).kept = s.kept := by
  unfold State.setGpio
  extract_lets old on s1
  have hs1 : s1.kept = s.kept := by unfold s1; rw [State.kept_mk, State.tb_pending]
  split <;> simp [hs1]

@[simp] theorem execGpioPinChange_kept (s : State) (pin level) :
    Out.kept (execGpioPinChange pin level s) = some s.kept := by
  unfold execGpioPinChange
  extract_lets x s1
  have hs1 : s1.kept = s.kept := State.setGpio_kept ..
  split
  · rfl
  · refine congrArg some ?_
    split <;> simp [hs1]

@[simp] theorem State.setUart_kept (s : State) (u x) :
    (s.setUart u x).kept = s.kept := rfl

@[simp] theorem execUartRx_kept (s : State) (u b frameErr) :
    Out.kept (execUartRx u b frameErr s) = some s.kept := by
  unfold execUartRx
  extract_lets x x1
  split <;> simp

theorem State.uartWrite_keeps {s : State} {κ} (hs : s.kept = κ) {u off v m r}
    (e : s.uartWrite u off v m = r) : OptKeeps κ r := by
  subst e
  unfold State.uartWrite
  split
  · rw [optKeeps_some]
    split <;> simp [hs]
  · split
    · rw [optKeeps_some, State.setUart_kept, hs]
    · split <;> simp [hs]

@[simp] theorem State.setI2c_kept (s : State) (i x) :
    (s.setI2c i x).kept = s.kept := rfl

theorem State.i2cWrite_keeps {s : State} {κ} (hs : s.kept = κ) {i off v m r}
    (e : s.i2cWrite i off v m = r) : OptKeeps κ r := by
  subst e
  unfold State.i2cWrite
  split
  · rw [optKeeps_some, State.setI2c_kept, hs]
  · split
    · rw [optKeeps_some]
      split <;> simp [hs]
    · split
      · rw [optKeeps_some, State.setI2c_kept, hs]
      · split <;> simp [hs]

@[simp] theorem State.gpioWrite_kept (s : State) (g v m) :
    (s.gpioWrite g v m).kept = s.kept := by
  simp [State.gpioWrite]

theorem State.pkgWrite_keeps {s : State} {κ} (hs : s.kept = κ) {off v bm who r}
    (e : s.pkgWrite off v bm who = r) : OptKeeps κ r := by
  subst e
  unfold State.pkgWrite
  extract_lets m u i g k
  split
  · split
    · exact State.uartWrite_keeps hs rfl
    · trivial
  · split
    · split
      · exact State.i2cWrite_keeps hs rfl
      · trivial
    · split
      · split <;> simp [hs]
      · split
        · split <;> simp [hs]
        · trivial

@[simp] theorem execUartDataWrite_kept (s : State) (u b who) :
    Out.kept (execUartDataWrite u b who s) = some s.kept := by
  unfold execUartDataWrite
  exact congrArg some (OptKeeps.getD (State.pkgWrite_keeps rfl rfl) rfl)

theorem State.uartRead_keeps {s : State} {κ} (hs : s.kept = κ) {u off r}
    (e : s.uartRead u off = r) : PairKeeps κ r := by
  subst e
  unfold State.uartRead
  split
  · rw [pairKeeps_some, State.setUart_kept, hs]
  · split
    · exact hs
    · split <;> simp [hs]

theorem State.pkgRead_keeps {s : State} {κ} (hs : s.kept = κ) {off who r}
    (e : s.pkgRead off who = r) : PairKeeps κ r := by
  subst e
  unfold State.pkgRead
  extract_lets u i g
  split
  · split
    · exact State.uartRead_keeps hs rfl
    · trivial
  · split
    · split
      · refine PairKeeps.map_any ?_ _
        intro x
        exact hs
      · trivial
    · split
      · split <;> simp [hs]
      · split
        · split <;> simp [hs]
        · trivial

@[simp] theorem execUartDataRead_kept (s : State) (u who) :
    Out.kept (execUartDataRead u who s) = some s.kept := by
  unfold execUartDataRead
  refine congrArg some ?_
  split
  · rename_i fst s1 e
    have hs1 : s1.kept = s.kept := State.pkgRead_keeps rfl e
    exact hs1
  · rfl

@[simp] theorem execI2cGo_kept (s : State) (u w who) :
    Out.kept (execI2cGo u w who s) = some s.kept := by
  unfold execI2cGo
  exact congrArg some (OptKeeps.getD (State.pkgWrite_keeps rfl rfl) rfl)

@[simp] theorem execI2cDone_kept (s : State) (u x1) :
    Out.kept (execI2cDone u x1 s) = some s.kept := by
  unfold execI2cDone
  extract_lets x n got
  split <;> simp

@[simp] theorem State.modRme_kept (s : State) (d f) :
    (s.modRme d f).kept = s.kept := rfl

@[simp] theorem execRmeClaimReq_kept (s : State) (die who) :
    Out.kept (execRmeClaimReq die who s) = some s.kept := rfl

@[simp] theorem execRmeClaimRel_kept (s : State) (die who) :
    Out.kept (execRmeClaimRel die who s) = some s.kept := rfl

@[simp] theorem execRmeClean_kept (s : State) (die w who) :
    Out.kept (execRmeClean die w who s) = some s.kept := rfl

@[simp] theorem execRmeInval_kept (s : State) (die w who) :
    Out.kept (execRmeInval die w who s) = some s.kept := rfl

@[simp] theorem execRmeCleanInval_kept (s : State) (die w who) :
    Out.kept (execRmeCleanInval die w who s) = some s.kept := rfl

@[simp] theorem execRmeZero_kept (s : State) (die w who) :
    Out.kept (execRmeZero die w who s) = some s.kept := rfl

@[simp] theorem execRmeLock_kept (s : State) (die w who) :
    Out.kept (execRmeLock die w who s) = some s.kept := rfl

@[simp] theorem execRmeUnlock_kept (s : State) (die w who) :
    Out.kept (execRmeUnlock die w who s) = some s.kept := rfl

@[simp] theorem execRmePrefetch_kept (s : State) (die w who) :
    Out.kept (execRmePrefetch die w who s) = some s.kept := rfl

theorem State.rmeReq_keeps {s : State} {κ} (hs : s.kept = κ) {d h kind line low way data pois r}
    (e : s.rmeReq d h kind line low way data pois = r) : OptKeeps κ r := by
  subst e
  unfold State.rmeReq
  extract_lets st
  split
  · trivial
  · split
    rename_i cls s1 e
    have hs1 : s1.kept = κ := State.classFor_kept hs e
    extract_lets m s2
    have hs2 : s2.kept = κ := by unfold s2; rw [State.kept_mk, State.tb_pending, hs1]
    rw [optKeeps_some, State.inject_kept, hs2]

theorem State.rmeFetch_keeps {s : State} {κ} (hs : s.kept = κ) {d h line w own r}
    (e : s.rmeFetch d h line w own = r) : OptKeeps κ r := by
  subst e
  unfold State.rmeFetch
  extract_lets x
  split
  · exact hs
  · split
    · trivial
    · exact State.rmeReq_keeps hs rfl

theorem State.rmeTake_keeps {s : State} {κ} (hs : s.kept = κ) {d h line lock r}
    (e : s.rmeTake d h line lock = r) : OptKeeps κ r := by
  subst e
  unfold State.rmeTake
  extract_lets x r set
  split
  · exact hs
  · split
    · trivial
    · rw [optKeeps_some]
      split <;> simp [hs]
    · rename_i w s1 e
      have hs1 : s1.kept = κ := State.alloc_keeps hs e
      extract_lets se se1 s2
      have hs2 : s2.kept = κ := by
        unfold s2
        split
        · exact hs1
        · split <;> simp [hs1]
      exact State.rmeFetch_keeps hs2 rfl

theorem State.cleanLine_keeps {s : State} {κ} (hs : s.kept = κ) {d h line r}
    (e : s.cleanLine d h line = r) : OptKeeps κ r := by
  subst e
  unfold State.cleanLine
  extract_lets u
  split
  · exact hs
  · split
    · trivial
    · rename_i s1 e
      have hs1 : s1.kept = κ := State.rmeReq_keeps hs e
      extract_lets s2
      have hs2 : s2.kept = κ := by
        unfold s2
        refine State.foldl_kept hs1 (fun s3 x hs3 => ?_) _
        split <;> simp [hs3]
      rw [optKeeps_some, State.modDie_kept, hs2]

theorem State.rmeLine_keeps {s : State} {κ} (hs : s.kept = κ) {d h line r}
    (e : s.rmeLine d h line = r) : OptKeeps κ r := by
  subst e
  unfold State.rmeLine
  extract_lets x r op sector set code s1
  have hs1 : s1.kept = κ := (State.modRme_kept ..).trans hs
  split
  · exact State.rmeReq_keeps hs rfl
  · split
    · exact State.rmeTake_keeps hs rfl
    · split
      · exact hs
      · extract_lets se u s2
        have hs2 : s2.kept = κ := by unfold s2; split <;> simp [hs]
        split
        · exact hs
        · split
          · rw [optKeeps_some, State.modDie_kept, hs]
          · split
            · exact State.cleanLine_keeps hs rfl
            · split
              · split
                · exact State.cleanLine_keeps hs1 rfl
                · exact hs1
              · split
                · exact hs2
                · exact State.evictLine_keeps hs2 rfl

@[simp] theorem State.rmeStep_kept (s : State) (d) :
    (s.rmeStep d).kept = s.kept := by
  unfold State.rmeStep
  extract_lets r a mc
  split
  · rfl
  · split
    · rfl
    · split
      rename_i ok s1 e
      have hs1 : ((ok, s1)).2.kept = s.kept := by
        rw [← e]
        split
        · dsimp only
        · exact State.checkPasture_kept rfl rfl
      replace hs1 : s1.kept = s.kept := hs1
      split
      · rw [State.modRme_kept, hs1]
      · split
        · rfl
        · rename_i s2 e1
          have hs2 : s2.kept = s.kept := State.rmeLine_keeps hs1 e1
          rw [State.modRme_kept, hs2]

@[simp] theorem execRmeLineStep_kept (s : State) (die) :
    Out.kept (execRmeLineStep die s) = some s.kept := by
  unfold execRmeLineStep
  rw [Out.kept_next, State.rmeStep_kept]

@[simp] theorem State.rmeComplete_kept (s : State) (d) :
    (s.rmeComplete d).kept = s.kept := by
  unfold State.rmeComplete
  extract_lets r s1
  have hs1 : s1.kept = s.kept := State.modRme_kept ..
  split
  · split <;> simp [hs1]
  · rfl

@[simp] theorem execRmeComplete_kept (s : State) (die) :
    Out.kept (execRmeComplete die s) = some s.kept := by
  unfold execRmeComplete
  rw [Out.kept_next, State.rmeComplete_kept]

@[simp] theorem execRmeAbort_kept (s : State) (die who) :
    Out.kept (execRmeAbort die who s) = some s.kept := rfl

@[simp] theorem State.setCfg_kept (s : State) (f off v) :
    (s.setCfg f off v).kept = s.kept := rfl

@[simp] theorem State.errMessage_kept (s : State) (f sev) :
    (s.errMessage f sev).kept = s.kept := rfl

@[simp] theorem State.pcieCorrected_kept (s : State) (f b) :
    (s.pcieCorrected f b).kept = s.kept := by
  unfold State.pcieCorrected
  extract_lets s1 s2
  have hs1 : s1.kept = s.kept := State.setCfg_kept ..
  have hs2 : s2.kept = s.kept := (State.setCfg_kept ..).trans hs1
  split <;> simp [hs2]

theorem State.checkFlit_kept {s : State} {κ} (hs : s.kept = κ) {c m r}
    (e : State.checkFlit c m s = r) : r.2.kept = κ := by
  subst e
  unfold State.checkFlit
  extract_lets a s1 s2 p
  have hs1 : s1.kept = κ := by
    unfold s1
    split
    · exact hs
    · rw [State.countAt_kept, State.cpSetField_kept, hs]
  have hs2 : s2.kept = κ := by
    unfold s2
    refine State.foldl_kept hs1 (fun s3 x hs3 => ?_) _
    extract_lets s4
    have hs4 : s4.kept = κ := (State.report_kept ..).trans hs3
    split
    · rw [State.pcieCorrected_kept, hs4]
    · exact hs4
  split
  · dsimp only
    exact hs2
  · split
    · dsimp only
      rw [State.report_kept, State.cpSetField_kept, hs2]
    · split
      · dsimp only
        exact hs2
      · split
        · dsimp only
          exact hs2
        · dsimp only
          rw [State.report_kept, State.cpSetField_kept, hs2]

theorem State.checkFlits_kept {a2 : State} {κ} (ha2 : a2.kept = κ) {a a1 r}
    (e : State.checkFlits a a1 a2 = r) : r.2.kept = κ := by
  induction a generalizing a2 a1 r with
  | nil =>
    subst e
    rw [State.checkFlits]
    exact ha2
  | cons x l' ih =>
    subst e
    rw [State.checkFlits]
    split
    · rename_i s1 e
      have hs1 : s1.kept = κ := State.checkFlit_kept ha2 e
      exact hs1
    · rename_i m s1 e
      have hs1 : s1.kept = κ := State.checkFlit_kept ha2 e
      exact ih hs1 rfl

@[simp] theorem State.recv_kept (s : State) (m) :
    (s.recv m).kept = s.kept := rfl

@[simp] theorem State.putNear_kept (s : State) (m) :
    (s.putNear m).kept = s.kept := by
  unfold State.putNear
  extract_lets hubSide src
  split <;> simp

@[simp] theorem State.endReq_kept (s : State) (x1) :
    (s.endReq x1).kept = s.kept := rfl

@[simp] theorem State.proxy_kept (s : State) (m) :
    (s.proxy m).kept = s.kept := by
  unfold State.proxy
  split
  · extract_lets src
    rw [State.putNear_kept]
  · extract_lets src
    rw [State.putNear_kept]
  · extract_lets src
    rw [State.putNear_kept]
  · extract_lets src
    rw [State.putNear_kept]
  · extract_lets src
    rw [State.putNear_kept]
  · extract_lets src
    rw [State.putNear_kept]
  · extract_lets src
    rw [State.putNear_kept]
  · rw [State.putNear_kept]
  · rw [State.putNear_kept]
  · rw [State.putNear_kept]
  · rw [State.putNear_kept]
  · rw [State.putNear_kept]
  · rw [State.putNear_kept]
  · rw [State.putNear_kept]
  · rw [State.putNear_kept]
  · rw [State.putNear_kept]
  · rw [State.putNear_kept]
  · split
    · exact elim_kept rfl (fun x => by rw [State.endReq_kept]) _
    · rfl

@[simp] theorem State.badCmd_kept (s : State) (m) :
    (s.badCmd m).kept = s.kept := by
  unfold State.badCmd
  rw [State.report_kept, State.cpSetField_kept]

end Sys2Proof.Machine

end

