-- ==== Sys2Proof/Proofs/KeptHome.lean ====
section
/-! SUPPORT. TB_NOW and the queue over the commands of the network and the home. -/

namespace Sys2Proof.Machine

@[simp] theorem State.dropStale_kept (s : State) (m) :
    (s.dropStale m).kept = s.kept := by
  unfold State.dropStale
  extract_lets s1 src s2 s3 s4
  have hs1 : s1.kept = s.kept := by unfold s1; split <;> simp
  have hs2 : s2.kept = s.kept := by unfold s2; split <;> exact hs1
  have hs3 : s3.kept = s.kept := (State.count16_kept ..).trans hs2
  have hs4 : s4.kept = s.kept := (State.countAt_kept ..).trans hs3
  rw [State.send_kept, hs4]

theorem State.deliver_kept {s : State} {κ} (hs : s.kept = κ) {m k ok f}
    (hf : ∀ x0 t1, t1.kept = κ → OptKeeps κ (f x0 t1)) :
    Out.kept (s.deliver m k ok f) = some κ := by
  unfold State.deliver
  extract_lets down
  split
  · exact congrArg some hs
  · split
    · rename_i s1 e
      have hs1 : s1.kept = κ := State.checkFlits_kept (by rw [State.passed_kept, State.recv_kept, hs]) e
      exact congrArg some hs1
    · rename_i m1 s1 e
      have hs1 : s1.kept = κ := State.checkFlits_kept (by rw [State.passed_kept, State.recv_kept, hs]) e
      split
      · rw [Out.kept_next, State.proxy_kept, hs1]
      · split
        · rw [Out.kept_next, State.badCmd_kept, hs1]
        · split
          · rw [Out.kept_next, State.badCmd_kept, hs1]
          · split
            · rw [Out.kept_next, State.dropStale_kept, hs1]
            · refine congrArg some ?_
              refine OptKeeps.getD ?_ hs
              apply hf
              exact hs1

theorem State.atHome_kept {s : State} {κ} (hs : s.kept = κ) {m k f}
    (hf : ∀ t0 x1, t0.kept = κ → OptKeeps κ (f t0 x1)) :
    Out.kept (s.atHome m k f) = some κ := by
  unfold State.atHome
  refine State.deliver_kept hs fun x0 s1 hs1 => ?_
  apply hf
  exact hs1

theorem State.homeRequest_keeps {s : State} {κ} (hs : s.kept = κ) {m r}
    (e : s.homeRequest m = r) : OptKeeps κ r := by
  subst e
  unfold State.homeRequest
  extract_lets q mc
  split
  · trivial
  · split
    · rw [optKeeps_some, State.badCmd_kept, hs]
    · split
      · trivial
      · split
        rename_i ok s1 e
        have hs1 : ((ok, s1)).2.kept = κ := by
          rw [← e]
          split
          · exact State.checkPasture_kept hs rfl
          · dsimp only
            exact hs
        replace hs1 : s1.kept = κ := hs1
        split <;> simp [hs1]

@[simp] theorem execRdShared_kept (s : State) (msg) :
    Out.kept (execRdShared msg s) = some s.kept := by
  unfold execRdShared
  exact State.atHome_kept rfl fun s1 x1 hs1 => State.homeRequest_keeps hs1 rfl

@[simp] theorem execRdUnique_kept (s : State) (msg) :
    Out.kept (execRdUnique msg s) = some s.kept := by
  unfold execRdUnique
  exact State.atHome_kept rfl fun s1 x1 hs1 => State.homeRequest_keeps hs1 rfl

@[simp] theorem execRdOnce_kept (s : State) (msg) :
    Out.kept (execRdOnce msg s) = some s.kept := by
  unfold execRdOnce
  exact State.atHome_kept rfl fun s1 x1 hs1 => State.homeRequest_keeps hs1 rfl

@[simp] theorem execWrUnique_kept (s : State) (msg) :
    Out.kept (execWrUnique msg s) = some s.kept := by
  unfold execWrUnique
  exact State.atHome_kept rfl fun s1 x1 hs1 => State.homeRequest_keeps hs1 rfl

@[simp] theorem execUpgrade_kept (s : State) (msg) :
    Out.kept (execUpgrade msg s) = some s.kept := by
  unfold execUpgrade
  exact State.atHome_kept rfl fun s1 x1 hs1 => State.homeRequest_keeps hs1 rfl

theorem State.homeEvict_keeps {s : State} {κ} (hs : s.kept = κ) {m r}
    (e : s.homeEvict m = r) : OptKeeps κ r := by
  subst e
  unfold State.homeEvict
  extract_lets q h
  split
  · trivial
  · split
    · rw [optKeeps_some, State.badCmd_kept, hs]
    · split
      · rw [optKeeps_some, State.badCmd_kept, hs]
      · split
        · rw [optKeeps_some, State.dropEvict_kept, State.modHome_kept, hs]
        · split
          · trivial
          · split <;> simp [hs]

@[simp] theorem execEvict_kept (s : State) (msg) :
    Out.kept (execEvict msg s) = some s.kept := by
  unfold execEvict
  exact State.atHome_kept rfl fun s1 x1 hs1 => State.homeEvict_keeps hs1 rfl

@[simp] theorem execWriteBack_kept (s : State) (msg) :
    Out.kept (execWriteBack msg s) = some s.kept := by
  unfold execWriteBack
  exact State.atHome_kept rfl fun s1 x1 hs1 => State.homeEvict_keeps hs1 rfl

@[simp] theorem execAtomicAtHome_kept (s : State) (msg) :
    Out.kept (execAtomicAtHome msg s) = some s.kept := by
  unfold execAtomicAtHome
  exact State.atHome_kept rfl fun s1 x1 hs1 => State.homeRequest_keeps hs1 rfl

@[simp] theorem State.cmoAtHome_kept (s : State) (msg code) :
    Out.kept (s.cmoAtHome msg code) = some s.kept := by
  unfold State.cmoAtHome
  split
  · rfl
  · exact State.atHome_kept rfl fun s1 x1 hs1 => State.homeRequest_keeps hs1 rfl

@[simp] theorem execCmoClean_kept (s : State) (msg) :
    Out.kept (execCmoClean msg s) = some s.kept := by
  unfold execCmoClean
  rw [State.cmoAtHome_kept]

@[simp] theorem execCmoInval_kept (s : State) (msg) :
    Out.kept (execCmoInval msg s) = some s.kept := by
  unfold execCmoInval
  rw [State.cmoAtHome_kept]

@[simp] theorem execCmoCleanInval_kept (s : State) (msg) :
    Out.kept (execCmoCleanInval msg s) = some s.kept := by
  unfold execCmoCleanInval
  rw [State.cmoAtHome_kept]

@[simp] theorem execCmoZero_kept (s : State) (msg) :
    Out.kept (execCmoZero msg s) = some s.kept := by
  unfold execCmoZero
  rw [State.cmoAtHome_kept]

@[simp] theorem State.bankSnoop_kept (s : State) (m) :
    (s.bankSnoop m).kept = s.kept := by
  unfold State.bankSnoop
  split
  · rw [State.badCmd_kept]
  · split
    · rw [State.badCmd_kept]
    · split
      rename_i a s1 e
      have hs1 : s1.kept = s.kept := State.snoopDie_kept rfl e
      rw [State.send_kept, hs1]

@[simp] theorem State.atBank_kept (s : State) (m k) :
    Out.kept (s.atBank m k) = some s.kept := by
  unfold State.atBank
  exact State.deliver_kept rfl
      fun x0 s1 hs1 => by rw [optKeeps_some, State.bankSnoop_kept, hs1]

@[simp] theorem execSnpShared_kept (s : State) (msg) :
    Out.kept (execSnpShared msg s) = some s.kept := by
  unfold execSnpShared
  rw [State.atBank_kept]

@[simp] theorem execSnpInval_kept (s : State) (msg) :
    Out.kept (execSnpInval msg s) = some s.kept := by
  unfold execSnpInval
  rw [State.atBank_kept]

@[simp] theorem execSnpOnce_kept (s : State) (msg) :
    Out.kept (execSnpOnce msg s) = some s.kept := by
  unfold execSnpOnce
  rw [State.atBank_kept]

theorem State.homeAnswer_keeps {s : State} {κ} (hs : s.kept = κ) {m c r}
    (e : s.homeAnswer m c = r) : OptKeeps κ r := by
  subst e
  unfold State.homeAnswer
  extract_lets q idx line
  split
  · exact hs
  · split
    · rw [optKeeps_some, State.badCmd_kept, hs]
    · split
      · split
        · extract_lets zero s1 s2 e s3
          have hs1 : s1.kept = κ := by
            unfold s1
            split
            · split <;> simp [hs]
            · exact hs
          have hs2 : s2.kept = κ := by unfold s2; split <;> simp [hs1]
          have hs3 : s3.kept = κ := (State.modEntry_kept ..).trans hs2
          split
          · exact hs
          · split <;> simp [hs3]
        · exact hs
      · exact hs

@[simp] theorem execAnsGone_kept (s : State) (msg) :
    Out.kept (execAnsGone msg s) = some s.kept := by
  unfold execAnsGone
  exact State.atHome_kept rfl fun s1 x1 hs1 => State.homeAnswer_keeps hs1 rfl

@[simp] theorem execAnsShared_kept (s : State) (msg) :
    Out.kept (execAnsShared msg s) = some s.kept := by
  unfold execAnsShared
  exact State.atHome_kept rfl fun s1 x1 hs1 => State.homeAnswer_keeps hs1 rfl

@[simp] theorem execAnsKeep_kept (s : State) (msg) :
    Out.kept (execAnsKeep msg s) = some s.kept := by
  unfold execAnsKeep
  exact State.atHome_kept rfl fun s1 x1 hs1 => State.homeAnswer_keeps hs1 rfl

@[simp] theorem execAnsGoneData_kept (s : State) (msg) :
    Out.kept (execAnsGoneData msg s) = some s.kept := by
  unfold execAnsGoneData
  exact State.atHome_kept rfl fun s1 x1 hs1 => State.homeAnswer_keeps hs1 rfl

@[simp] theorem execAnsSharedData_kept (s : State) (msg) :
    Out.kept (execAnsSharedData msg s) = some s.kept := by
  unfold execAnsSharedData
  exact State.atHome_kept rfl fun s1 x1 hs1 => State.homeAnswer_keeps hs1 rfl

@[simp] theorem execAnsKeepData_kept (s : State) (msg) :
    Out.kept (execAnsKeepData msg s) = some s.kept := by
  unfold execAnsKeepData
  exact State.atHome_kept rfl fun s1 x1 hs1 => State.homeAnswer_keeps hs1 rfl

theorem State.ctxRoom_keeps {s : State} {κ} (hs : s.kept = κ) {r}
    (e : s.ctxRoom = r) : OptKeeps κ r := by
  subst e
  unfold State.ctxRoom
  split
  · exact hs
  · split
    · exact hs
    · extract_lets drop
      have hdrop : ∀ t0, t0.kept = κ → (drop t0).kept = κ := by
        intro s1 hs1
        unfold drop
        rw [State.modFold_kept, hs1]
      split
      · rw [optKeeps_some]
        apply hdrop
        exact hs
      · split
        · trivial
        · rename_i x s1 e
          have hs1 : s1.kept = κ := State.hubWrite_keeps hs e
          rw [optKeeps_some]
          apply hdrop
          exact hs1
        · rename_i s1 e
          have hs1 : s1.kept = κ := State.hubWrite_keeps hs e
          rw [optKeeps_some]
          apply hdrop
          exact hs1
        · rename_i s1 e
          have hs1 : s1.kept = κ := State.hubWrite_keeps hs e
          rw [optKeeps_some]
          apply hdrop
          exact hs1

theorem State.hubRead_keeps {s : State} {κ} (hs : s.kept = κ) {src world pid line r}
    (e : s.hubRead src world pid line = r) : HubAns.Keeps κ r := by
  subst e
  unfold State.hubRead
  extract_lets a q rq s1 src1
  have hs1 : s1.kept = κ := by unfold s1; rw [State.notePeak_kept, State.passed_kept, hs]
  clear_value s1
  clear_value a q rq src1
  split
  · exact hs
  · split
    · trivial
    · split
      rename_i ok s2 e
      have hs2 : s2.kept = κ := State.checkPasture_kept hs1 e
      extract_lets inE
      clear_value inE
      split
      · rw [HubAns.keeps_refuse, State.passed_kept, hs2]
      · split
        rename_i r s3 e1
        have hs3 : s3.kept = κ := State.hubSnoops_kept hs2 e1
        extract_lets r1
        have hr1 : PairKeeps κ r1 := by
          unfold r1
          split
          · exact hs3
          · exact State.hubFill_keeps hs3 rfl
        clear_value r1
        split
        · trivial
        · rename_i s4
          have hs4 : s4.kept = κ := hr1
          exact hs4
        · rename_i s4
          have hs4 : s4.kept = κ := hr1
          split <;> simp [hs4]

theorem State.ctxOf_keeps {s : State} {κ} (hs : s.kept = κ) {q r}
    (e : s.ctxOf q = r) : PairKeeps κ r := by
  subst e
  unfold State.ctxOf
  split
  · exact (State.modFold_kept ..).trans hs
  · refine PairKeeps.room (State.ctxRoom_keeps hs rfl) fun t ht => ?_
    extract_lets s2
    have hs2 : s2.kept = κ := (State.countAt_kept ..).trans ht
    have ha : HubAns.Keeps κ (s2.hubRead foldStation true 0 (s2.ctxLine q)) := State.hubRead_keeps hs2 rfl
    generalize s2.hubRead foldStation true 0 (s2.ctxLine q) = x at ha
    cases x with
    | busy => trivial
    | refuse u => exact ha
    | poison u => exact ha
    | ok c u => exact (State.modFold_kept ..).trans ha

@[simp] theorem State.setCtx_kept (s : State) (q c) :
    (s.setCtx q c).kept = s.kept := rfl

@[simp] theorem State.queueEvent_kept (s : State) (grp code arg) :
    (s.queueEvent grp code arg).kept = s.kept := by
  unfold State.queueEvent
  rw [State.event_kept]

@[simp] theorem State.queueError_kept (s : State) (q c cause) :
    (s.queueError q c cause).kept = s.kept := by
  unfold State.queueError
  extract_lets s1 s2
  have hs1 : s1.kept = s.kept := State.setCtx_kept ..
  have hs2 : s2.kept = s.kept := (State.cpSet_kept ..).trans hs1
  split <;> simp [hs2]

theorem State.foldSend_keeps {s : State} {κ} (hs : s.kept = κ) {q c op m txid r}
    (e : s.foldSend q c op m txid = r) : OptKeeps κ r := by
  subst e
  unfold State.foldSend
  split <;> simp [hs]

theorem State.foldAnswer_keeps {s : State} {κ} (hs : s.kept = κ) {txid op m r}
    (e : s.foldAnswer txid op m = r) : OptKeeps κ r := by
  subst e
  unfold State.foldAnswer
  extract_lets s1 s2 q
  have hs1 : s1.kept = κ := (State.modFold_kept ..).trans hs
  have hs2 : s2.kept = κ := elim_kept hs1 (fun x => by rw [State.endReq_kept, hs1]) _
  split
  · exact hs2
  · split
    · trivial
    · rename_i c s3 e
      have hs3 : s3.kept = κ := State.ctxOf_keeps hs2 e
      extract_lets n err a o die e1 tail c1 c2 s4 rest s5
      have herr : ∀ x0, (err x0).kept = κ := by
        intro x0
        unfold err
        split <;> simp [hs3]
      have hs4 : s4.kept = κ := (State.setCtx_kept ..).trans hs3
      have hs5 : s5.kept = κ := (State.modFold_kept ..).trans hs4
      split
      · trivial
      · rw [optKeeps_some]
        split
        · exact OptKeeps.getD (State.foldSend_keeps hs3 rfl) hs3
        · apply herr
        · split
          · rw [State.modFold_kept, hs3]
          · apply herr
        · split <;> simp [hs3]
        · apply herr
        · split <;> simp [hs3]
        · apply herr
        · apply herr
        · split <;> simp [hs5]
        · split
          · split <;> simp [hs3]
          · apply herr

@[simp] theorem State.foldWork_kept (s : State) :
    (s.foldWork).kept = s.kept := by
  unfold State.foldWork
  refine State.foldl_kept rfl (fun s1 x hs1 => ?_) _
  split
  · split
    · exact OptKeeps.getD (State.foldAnswer_keeps hs1 rfl) hs1
    · exact hs1
  · exact hs1

@[simp] theorem State.foldSink_kept (s : State) (x1 m) :
    (s.foldSink x1 m).kept = s.kept := by
  unfold State.foldSink
  split <;> simp

@[simp] theorem State.dieWake_kept (s : State) (d) :
    (s.dieWake d).kept = s.kept := by
  unfold State.dieWake
  refine State.foldl_kept rfl (fun s1 x hs1 => ?_) _
  split
  · split
    rename_i b s2 e
    have hs2 : s2.kept = s.kept := State.takeBeats_kept hs1 e
    rw [State.modCore_kept, hs2]
  · exact hs1

@[simp] theorem State.install_kept (s : State) (d w line st data world) :
    (s.install d w line st data world).kept = s.kept := rfl

@[simp] theorem State.dropAccess_kept (s : State) (lc) :
    (s.dropAccess lc).kept = s.kept := rfl

@[simp] theorem State.accessAnswer_kept (s : State) (lc ans fill) :
    (s.accessAnswer lc ans fill).kept = s.kept := by
  unfold State.accessAnswer
  split
  · split
    rename_i b s1 e
    have hs1 : s1.kept = s.kept := State.takeBeats_kept rfl e
    extract_lets a read e1 s2 fail b1
    have hread : ∀ t0, t0.kept = s.kept → (read t0).kept = s.kept := by
      intro s3 hs3
      unfold read
      split
      · rw [State.fillL1d_kept, hs3]
      · exact hs3
    have hs2 : s2.kept = s.kept := (State.dropAccess_kept ..).trans hs1
    have hfail : ∀ x0, (fail x0).kept = s.kept := by
      intro x0
      unfold fail
      exact OptKeeps.getD (State.raise_keeps hs2 rfl) hs2
    split
    · extract_lets s3
      have hs3 : s3.kept = s.kept := (State.modCore_kept ..).trans hs1
      split
      · split
        · exact hs3
        · rw [State.fillL1i_kept, hs3]
      · exact hs3
    · refine OptKeeps.getD ?_ (by rw [State.dropAccess_kept, hs1])
      refine State.loadStep_keeps ?_ rfl
      apply hread
      exact hs1
    · refine OptKeeps.getD ?_ (by rw [State.dropAccess_kept, hs1])
      refine State.loadStep_keeps ?_ rfl
      apply hread
      exact hs1
    · refine OptKeeps.getD ?_ (by rw [State.dropAccess_kept, hs1])
      refine State.eretStep_keeps ?_ rfl
      apply hread
      exact hs1
    · split
      · rw [State.modCore_kept, hs1]
      · apply hfail
    · split
      · rw [State.modCore_kept, hs1]
      · apply hfail
    · rw [State.modCore_kept, hs1]
    · exact hs1
  · rfl

@[simp] theorem State.storeOwned_kept (s : State) (k x2 line) :
    (s.storeOwned k x2 line).kept = s.kept := by
  unfold State.storeOwned
  rw [State.writeSub_kept, State.fillL1d_kept, State.invalL1_kept]

@[simp] theorem State.drainAnswer_kept (s : State) (lc x2 m) :
    (s.drainAnswer lc x2 m).kept = s.kept := by
  unfold State.drainAnswer
  split
  · split
    · rfl
    · split
      rename_i b s1 e
      have hs1 : s1.kept = s.kept := State.takeBeats_kept rfl e
      extract_lets owned err s2
      have hs2 : s2.kept = s.kept := by unfold s2; split <;> simp [hs1]
      rw [State.drained_kept, hs2]
  · rfl

@[simp] theorem State.evictAnswer_kept (s : State) (d txid) :
    (s.evictAnswer d txid).kept = s.kept := rfl

@[simp] theorem State.engineAnswer_kept (s : State) (d x2 m) :
    (s.engineAnswer d x2 m).kept = s.kept := by
  unfold State.engineAnswer
  split
  · rw [State.modRme_kept]
  · split <;> simp
  · rw [State.modRme_kept]
  · rfl

@[simp] theorem State.ncReply_kept (s : State) (m k data) :
    (s.ncReply m k data).kept = s.kept := by
  simp [State.ncReply]

@[simp] theorem State.cutOff_kept (s : State) (m) :
    (s.cutOff m).kept = s.kept := by
  unfold State.cutOff
  split <;> simp

@[simp] theorem State.voidInbound_kept (s : State) (p) :
    (s.voidInbound p).kept = s.kept := rfl

@[simp] theorem State.freeze_kept (s : State) (cause errBit) :
    (s.freeze cause errBit).kept = s.kept := by
  unfold State.freeze
  extract_lets a w s1 s2
  have hs1 : s1.kept = s.kept := State.cpSet_kept ..
  have hs2 : s2.kept = s.kept :=
    State.foldl_kept hs1 (fun s3 x hs3 => by rw [State.ncReply_kept, State.cutOff_kept, hs3]) _
  split <;> simp [hs2]

@[simp] theorem State.pcieError_kept (s : State) (f b hdr adv) :
    (s.pcieError f b hdr adv).kept = s.kept := by
  unfold State.pcieError
  extract_lets masked first s1 s2 s3 fatal s4 s5 on s6
  have hs1 : s1.kept = s.kept := State.setCfg_kept ..
  have hs2 : s2.kept = s.kept := by unfold s2; split <;> simp [hs1]
  have hs3 : s3.kept = s.kept := by
    unfold s3
    split
    · refine State.foldl_kept hs2 (fun s7 x hs7 => ?_) _
      split
      rename_i x1 s8 e
      have hs8 : s8.kept = s.kept := State.takeFree_kept hs7 e
      rw [State.setCfg_kept, hs8]
    · exact hs2
  have hs4 : s4.kept = s.kept := by unfold s4; split <;> simp [hs3]
  have hs5 : s5.kept = s.kept := (State.setCfg_kept ..).trans hs4
  have hs6 : s6.kept = s.kept := by
    unfold s6
    split
    · rw [State.pcieCorrected_kept, hs4]
    · split <;> simp [hs5]
  split
  · rw [State.freeze_kept, hs6]
  · split <;> simp [hs6]

@[simp] theorem State.hostCpl_kept (s : State) (f tag status data addr ep) :
    (s.hostCpl f tag status data addr ep).kept = s.kept := rfl

@[simp] theorem State.readDone_kept (s : State) (x1) :
    (s.readDone x1).kept = s.kept := by
  unfold State.readDone
  split
  · rfl
  · split
    · rw [State.pcieError_kept, State.hostCpl_kept]
    · refine State.foldl_kept rfl (fun s1 x hs1 => ?_) _
      split <;> simp [hs1]

theorem State.fnSend_keeps {s : State} {κ} (hs : s.kept = κ) {f m r}
    (e : s.fnSend f m = r) : PairKeeps κ r := by
  subst e
  unfold State.fnSend
  split <;> simp [hs]

theorem State.sendLine_keeps {s : State} {κ} (hs : s.kept = κ) {f pa mask d r}
    (e : s.sendLine f pa mask d = r) : OptKeeps κ r := by
  subst e
  unfold State.sendLine
  split
  · trivial
  · rename_i t s1 e
    have hs1 : s1.kept = κ := State.fnSend_keeps hs e
    rw [optKeeps_some, State.modPcie_kept, hs1]

theorem State.doorbellRead_keeps {s : State} {κ} (hs : s.kept = κ) {f k cqHead r}
    (e : s.doorbellRead f k cqHead = r) : PairKeeps κ r := by
  subst e
  unfold State.doorbellRead
  split
  · exact hs
  · split
    · trivial
    · rename_i c s1 e
      have hs1 : s1.kept = κ := State.ctxOf_keeps hs e
      exact hs1

theorem State.bar0Get_keeps {s : State} {κ} (hs : s.kept = κ) {f off r}
    (e : s.bar0Get f off = r) : PairKeeps κ r := by
  subst e
  unfold State.bar0Get
  extract_lets m b v
  split
  · exact hs
  · split
    · exact hs
    · split
      · exact hs
      · split
        · exact State.doorbellRead_keeps hs rfl
        · exact hs

@[simp] theorem State.msixPending_kept (s : State) :
    (s.msixPending).kept = s.kept := by
  unfold State.msixPending
  refine State.foldl_kept rfl (fun s1 x hs1 => ?_) _
  split <;> simp [hs1]

@[simp] theorem State.dropDoorbell_kept (s : State) :
    (s.dropDoorbell).kept = s.kept := rfl

@[simp] theorem State.adminError_kept (s : State) (cause) :
    (s.adminError cause).kept = s.kept := by
  unfold State.adminError
  rw [State.cpSet_kept, State.modAq_kept]

@[simp] theorem State.adminDoorbell_kept (s : State) (v cq) :
    (s.adminDoorbell v cq).kept = s.kept := by
  unfold State.adminDoorbell
  extract_lets a old order src
  split
  · rw [State.dropDoorbell_kept]
  · repeat' split
    all_goals simp

theorem State.hostDoorbell_keeps {s : State} {κ} (hs : s.kept = κ) {f k v cqHead r}
    (e : s.hostDoorbell f k v cqHead = r) : OptKeeps κ r := by
  subst e
  unfold State.hostDoorbell
  extract_lets q
  split
  · rw [optKeeps_some, State.dropDoorbell_kept, hs]
  · split
    · trivial
    · rename_i c s1 e
      have hs1 : s1.kept = κ := State.ctxOf_keeps hs e
      extract_lets n tail
      split
      · rw [optKeeps_some, State.dropDoorbell_kept, hs1]
      · repeat' split
        all_goals simp [hs1]

theorem State.bar0Word_keeps {s : State} {κ} (hs : s.kept = κ) {f off v r}
    (e : s.bar0Word f off v = r) : OptKeeps κ r := by
  subst e
  unfold State.bar0Word
  extract_lets m i k d w b
  split
  · rw [optKeeps_some, State.msixPending_kept, State.modPcie_kept, hs]
  · split
    · rw [optKeeps_some, State.modAq_kept, hs]
    · split
      · rw [optKeeps_some, State.adminDoorbell_kept, hs]
      · split
        · exact State.hostDoorbell_keeps hs rfl
        · exact hs

theorem State.bar0Bytes_keeps {s : State} {κ} (hs : s.kept = κ) {f off be data a r}
    (e : s.bar0Bytes f off be data a = r) : OptKeeps κ r := by
  induction a generalizing s f off be data r with
  | zero =>
    subst e
    rw [State.bar0Bytes]
    rw [optKeeps_some]
    exact hs
  | succ n' ih =>
    subst e
    rw [State.bar0Bytes]
    split
    · trivial
    · rename_i s1 e
      have hs1 : s1.kept = κ := ih hs e
      extract_lets m o
      split
      · rw [optKeeps_some]
        exact hs1
      · split
        · trivial
        · rename_i t s2 e1
          have hs2 : s2.kept = κ := State.bar0Get_keeps hs1 e1
          exact State.bar0Word_keeps hs2 rfl

theorem State.sendRead_keeps {s : State} {κ} (hs : s.kept = κ) {f pa bytes tag r}
    (e : s.sendRead f pa bytes tag = r) : OptKeeps κ r := by
  subst e
  unfold State.sendRead
  extract_lets first n r
  have hr : PairKeeps κ r := by
    refine PairKeeps.foldl ((pairKeeps_some ..).2 hs) (fun o i ho => PairKeeps.bind ho fun x hx => ?_) _
    split
    · trivial
    · rename_i t s1 e1
      exact State.fnSend_keeps hx e1
  exact PairKeeps.map hr fun x hx => (State.modPcie_kept ..).trans hx

theorem State.inboundStep_keeps {s : State} {κ} (hs : s.kept = κ) {op r}
    (e : s.inboundStep op = r) : OptKeeps κ r := by
  subst e
  unfold State.inboundStep
  split
  · rename_i f pa m d
    generalize e : s.sendLine f pa m d = x
    exact OptKeeps.ite (State.sendLine_keeps hs e) trivial
  · exact OptKeeps.ite (State.bar0Bytes_keeps hs rfl) trivial
  · refine OptKeeps.ite trivial (PairKeeps.map ?_ fun x hx => ?_)
    · refine PairKeeps.foldl ((pairKeeps_some ..).2 hs) (fun o i ho => PairKeeps.bind ho fun x hx => ?_) _
      generalize e : x.2.bar0Get _ _ = y
      exact PairKeeps.map_pair (f := fun b => x.1 ++ natToBytes 4 b) (State.bar0Get_keeps hx e)
    · exact elim_kept hx (fun t => (State.hostCpl_kept ..).trans hx) _
  · exact OptKeeps.ite (State.sendRead_keeps hs rfl) trivial

@[simp] theorem State.inboundRun_kept (a1 : State) (a) :
    (State.inboundRun a a1).kept = a1.kept := by
  induction a generalizing a1 with
  | zero =>
    rw [State.inboundRun]
  | succ n' ih =>
    rw [State.inboundRun]
    split
    · rfl
    · split
      · rfl
      · rename_i s1 e
        have hs1 : s1.kept = a1.kept := State.inboundStep_keeps rfl e
        rw [ih, State.modPcie_kept, hs1]

@[simp] theorem State.portAnswer_kept (s : State) (txid f m) :
    (s.portAnswer txid f m).kept = s.kept := by
  unfold State.portAnswer
  extract_lets s1 x s2
  have hs1 : s1.kept = s.kept := State.modPcie_kept ..
  have hs2 : s2.kept = s.kept := by
    unfold s2
    split
    · split <;> simp [hs1]
    · split
      · rfl
      · extract_lets line r
        split <;> simp
  rw [State.inboundRun_kept, hs2]

@[simp] theorem State.answer_kept (s : State) (m) :
    (s.answer m).kept = s.kept := by
  unfold State.answer
  split
  · rfl
  · extract_lets s1 line seen s2 s3 granted s4 l1
    have hs1 : s1.kept = s.kept := elim_kept rfl (fun x => by rw [State.dieWake_kept]) _
    have hs2 : s2.kept = s.kept := by unfold s2; split <;> simp [hs1]
    have hs3 : s3.kept = s.kept := by unfold s3; split <;> simp [hs2]
    have hs4 : s4.kept = s.kept := by
      unfold s4
      split
      · split
        · rw [State.install_kept, hs3]
        · split <;> simp [hs3]
      · exact hs3
    split
    · rw [State.foldSink_kept]
    · split
      · split <;> simp [hs4]
      · rw [State.drainAnswer_kept, hs4]
      · split <;> simp [hs4]
      · rw [State.engineAnswer_kept, hs4]
      · split <;> simp [hs4]
      · exact hs4
      · exact hs4
      · exact hs4
      · split <;> simp [hs4]

@[simp] theorem State.atRequester_kept (s : State) (m k) :
    Out.kept (s.atRequester m k) = some s.kept := by
  unfold State.atRequester
  refine State.deliver_kept rfl fun x0 s1 hs1 => ?_
  rw [optKeeps_some]
  split <;> simp [hs1]

@[simp] theorem execGrantS_kept (s : State) (msg) :
    Out.kept (execGrantS msg s) = some s.kept := by
  unfold execGrantS
  rw [State.atRequester_kept]

@[simp] theorem execGrantE_kept (s : State) (msg) :
    Out.kept (execGrantE msg s) = some s.kept := by
  unfold execGrantE
  rw [State.atRequester_kept]

@[simp] theorem execReadData_kept (s : State) (msg) :
    Out.kept (execReadData msg s) = some s.kept := by
  unfold execReadData
  rw [State.atRequester_kept]

@[simp] theorem execHomeDone_kept (s : State) (msg) :
    Out.kept (execHomeDone msg s) = some s.kept := by
  unfold execHomeDone
  rw [State.atRequester_kept]

@[simp] theorem execAtomicOld_kept (s : State) (msg) :
    Out.kept (execAtomicOld msg s) = some s.kept := by
  unfold execAtomicOld
  rw [State.atRequester_kept]

@[simp] theorem execHomeRefuse_kept (s : State) (msg) :
    Out.kept (execHomeRefuse msg s) = some s.kept := by
  unfold execHomeRefuse
  rw [State.atRequester_kept]

@[simp] theorem execHomePoison_kept (s : State) (msg) :
    Out.kept (execHomePoison msg s) = some s.kept := by
  unfold execHomePoison
  rw [State.atRequester_kept]

@[simp] theorem execEvictDone_kept (s : State) (msg) :
    Out.kept (execEvictDone msg s) = some s.kept := by
  unfold execEvictDone
  rw [State.atRequester_kept]

theorem State.homeSeen_keeps {s : State} {κ} (hs : s.kept = κ) {m r}
    (e : s.homeSeen m = r) : OptKeeps κ r := by
  subst e
  unfold State.homeSeen
  extract_lets q
  split
  · exact hs
  · split
    · rw [optKeeps_some, State.badCmd_kept, hs]
    · split <;> simp [hs]

@[simp] theorem execGrantSeen_kept (s : State) (msg) :
    Out.kept (execGrantSeen msg s) = some s.kept := by
  unfold execGrantSeen
  exact State.atHome_kept rfl fun s1 x1 hs1 => State.homeSeen_keeps hs1 rfl

@[simp] theorem State.mcDiscard_kept (s : State) (q) :
    (s.mcDiscard q).kept = s.kept := rfl

@[simp] theorem State.poisonLine_kept (s : State) (q line) :
    (s.poisonLine q line).kept = s.kept := by
  unfold State.poisonLine
  extract_lets s1 p n src
  have hs1 : s1.kept = s.kept := State.modHome_kept ..
  clear_value s1
  have hsrc : src.kept = s.kept := (State.setMemLine_kept ..).trans hs1
  clear_value src
  split
  · exact hsrc
  · rw [State.modMc_kept, State.countAt_kept, hs1]

@[simp] theorem State.homeStop_kept (s : State) (q) :
    (s.homeStop q).kept = s.kept := by
  unfold State.homeStop
  extract_lets s1 lines s2 s3
  have hs1 : s1.kept = s.kept := State.cpSetField_kept ..
  have hs2 : s2.kept = s.kept := (State.mcDiscard_kept ..).trans hs1
  have hs3 : s3.kept = s.kept :=
    State.foldl_kept hs2 (fun s4 x hs4 => by rw [State.poisonLine_kept, hs4]) _
  split
  · rfl
  · rw [State.cpSetField_kept, hs3]

@[simp] theorem execSnoopTimeout_kept (s : State) (q entry die) :
    Out.kept (execSnoopTimeout q entry die s) = some s.kept := by
  unfold execSnoopTimeout
  split
  · rfl
  · split
    · rfl
    · split
      · split <;> simp
      · rw [Out.kept_next, State.report_kept, State.homeStop_kept]
      · rfl

@[simp] theorem State.scratchServe_kept (s : State) (m) :
    (s.scratchServe m).kept = s.kept := by
  unfold State.scratchServe
  extract_lets a perm src
  split
  · rw [State.send_kept]
  · split
    · rw [State.send_kept]
    · split
      rename_i ok s1 e
      have hs1 : s1.kept = s.kept := State.checkPasture_kept rfl e
      split
      · rw [State.send_kept, hs1]
      · split
        · rw [State.send_kept, State.scratchWrite_kept, hs1]
        · split <;> rw [State.send_kept, hs1]

@[simp] theorem State.atScratch_kept (s : State) (m k) :
    Out.kept (s.atScratch m k) = some s.kept := by
  unfold State.atScratch
  exact State.deliver_kept rfl
      fun x0 s1 hs1 => by rw [optKeeps_some, State.scratchServe_kept, hs1]

@[simp] theorem execScrRd_kept (s : State) (msg) :
    Out.kept (execScrRd msg s) = some s.kept := by
  unfold execScrRd
  rw [State.atScratch_kept]

@[simp] theorem execScrWr_kept (s : State) (msg) :
    Out.kept (execScrWr msg s) = some s.kept := by
  unfold execScrWr
  rw [State.atScratch_kept]

theorem State.lpWord_kept {s : State} {κ} (hs : s.kept = κ) {k r}
    (e : s.lpWord k = r) : r.2.kept = κ := by
  subst e
  unfold State.lpWord
  extract_lets i
  split
  · dsimp only
    exact hs
  · exact State.takeFree_kept hs rfl

@[simp] theorem State.lpNext_kept (s : State) (k) :
    (s.lpNext k).kept = s.kept := by
  unfold State.lpNext
  rw [State.cpSetField_kept]

theorem State.lpRead_kept {s : State} {κ} (hs : s.kept = κ) {k off ctl r}
    (e : s.lpRead k off ctl = r) : r.2.kept = κ := by
  subst e
  unfold State.lpRead
  split
  · dsimp only
    exact hs
  · split
    · split
      rename_i w s1 e
      have hs1 : s1.kept = κ := State.lpWord_kept hs e
      dsimp only
      split <;> simp [hs1]
    · split
      · dsimp only
        exact hs
      · split
        · dsimp only
          exact hs
        · dsimp only
          exact hs

theorem readState_keeps {s : State} {κ} (hs : s.kept = κ) {rd off n r}
    (hrd : ∀ t0 x1, t0.kept = κ → PairKeeps κ (rd t0 x1)) (e : readState rd s off n = r) : PairKeeps κ r := by
  subst e
  unfold readState
  split
  · trivial
  · rename_i t s1 e
    have hs1 : PairKeeps κ (some (t, s1)) := by
      rw [← e]
      apply hrd
      exact hs
    replace hs1 : s1.kept = κ := hs1
    split
    · split
      · trivial
      · rename_i t1 s2 e1
        have hs2 : PairKeeps κ (some (t1, s2)) := by
          rw [← e1]
          apply hrd
          exact hs1
        replace hs2 : s2.kept = κ := hs2
        exact hs2
    · exact hs1

theorem State.loupeDev_keeps {s : State} {κ} (hs : s.kept = κ) {off n who r}
    (e : s.loupeDev off n who = r) : PairKeeps κ r := by
  subst e
  rw [State.loupeDev]
  cases s.loupeAt off who with
  | none => trivial
  | some x =>
    obtain ⟨k, o⟩ := x
    have hword : (s.lpWord k).2.kept = κ := State.lpWord_kept hs rfl
    have hread : ∀ (t : State) o, t.kept = κ → (t.lpRead k o false).2.kept = κ :=
      fun t o ht => State.lpRead_kept ht rfl
    dsimp only
    split
    · exact (State.lpNext_kept ..).trans hword
    · refine readState_keeps hs (fun t o ht => ?_) rfl
      split
      · trivial
      · exact hread t o ht

theorem State.hubDevRead_keeps {s : State} {κ} (hs : s.kept = κ) {off n who r}
    (e : s.hubDevRead off n who = r) : PairKeeps κ r := by
  subst e
  unfold State.hubDevRead
  split
  · refine PairKeeps.map_any ?_ _
    intro x
    exact hs
  · split
    · split <;> simp [hs]
    · split
      · split <;> simp [hs]
      · split
        · split <;> simp [hs]
        · split
          · exact State.loupeDev_keeps hs rfl
          · split
            · split <;> simp [hs]
            · exact readState_keeps hs (fun s1 x1 hs1 => State.pkgRead_keeps hs1 rfl) rfl

theorem State.devRead_keeps {s : State} {κ} (hs : s.kept = κ) {m r}
    (e : s.devRead m = r) : PairKeeps κ r := by
  subst e
  unfold State.devRead
  extract_lets who
  split
  · trivial
  · split
    · refine PairKeeps.map_any ?_ _
      intro x
      exact hs
    · refine PairKeeps.map_any ?_ _
      intro x
      exact hs
    · exact State.hubDevRead_keeps hs rfl
    · trivial

@[simp] theorem execDevRd_kept (s : State) (msg) :
    Out.kept (execDevRd msg s) = some s.kept := by
  unfold execDevRd
  refine State.deliver_kept rfl fun x0 s1 hs1 => ?_
  split
  · rename_i fst s2 e
    have hs2 : s2.kept = s.kept := State.devRead_keeps hs1 e
    rw [optKeeps_some, State.send_kept, hs2]
  · rw [optKeeps_some, State.send_kept, hs1]

theorem State.rmeWrite_keeps {s : State} {κ} (hs : s.kept = κ) {d off v m w r}
    (e : s.rmeWrite d off v m w = r) : OptKeeps κ r := by
  subst e
  unfold State.rmeWrite
  extract_lets r bm b lo hi set r1 r2 r3
  have hset : ∀ y, OptKeeps κ (set y) := fun _ => (State.modRme_kept ..).trans hs
  have hmay : ∀ (c : Prop) [Decidable c] y, OptKeeps κ (if c then set y else some s) :=
    fun _ _ y => OptKeeps.ite (hset y) hs
  exact OptKeeps.ite trivial (OptKeeps.ite (hset _) (OptKeeps.ite (hmay ..) (OptKeeps.ite (hmay ..)
    (OptKeeps.ite (hmay ..) (OptKeeps.ite (hmay ..) (OptKeeps.ite (hmay ..) (OptKeeps.ite (hmay ..)
    (OptKeeps.ite (hset _) hs))))))))

theorem State.dieWrite_keeps {s : State} {κ} (hs : s.kept = κ) {d off v bm who r}
    (e : s.dieWrite d off v bm who = r) : OptKeeps κ r := by
  subst e
  unfold State.dieWrite
  split
  · exact State.intdWrite_keeps hs rfl
  · split
    · exact State.rmeWrite_keeps hs rfl
    · trivial

@[simp] theorem State.mbGo_kept (s : State) (mb ch irq who) :
    (s.mbGo mb ch irq who).kept = s.kept := by
  unfold State.mbGo
  extract_lets k
  split <;> simp

theorem State.mbWrite_keeps {s : State} {κ} (hs : s.kept = κ) {off v bm who r}
    (e : s.mbWrite off v bm who = r) : OptKeeps κ r := by
  subst e
  unfold State.mbWrite
  split
  extract_lets k o low s1
  have hs1 : s1.kept = κ := by unfold s1; split <;> simp [hs]
  split
  · trivial
  · split
    · exact hs
    · split
      · rw [optKeeps_some]
        split <;> simp [hs1]
      · split
        · rw [optKeeps_some]
          split <;> simp [hs]
        · split
          · rw [optKeeps_some]
            split <;> simp [hs]
          · split
            · rw [optKeeps_some]
              split <;> simp [hs]
            · exact hs

@[simp] theorem State.lpStop_kept (s : State) (k) :
    (s.lpStop k).kept = s.kept := by
  unfold State.lpStop
  rw [State.cpSetField_kept, State.cpSetField_kept]

@[simp] theorem State.lpReset_kept (s : State) (k) :
    (s.lpReset k).kept = s.kept := by
  unfold State.lpReset
  extract_lets s1 s2 st s3 src
  have hs1 : s1.kept = s.kept := State.lpStop_kept ..
  have hs2 : s2.kept = s.kept := by unfold s2; rw [State.cpSet64_kept, State.cpSet64_kept, hs1]
  have hs3 : s3.kept = s.kept := by unfold s3; rw [State.cpSetField_kept, State.cpSetField_kept,
      State.cpSetField_kept, hs2]
  rw [State.setLoupe_kept, hs3]

@[simp] theorem State.lpArm_kept (s : State) (k) :
    (s.lpArm k).kept = s.kept := by
  unfold State.lpArm
  extract_lets st x c n run
  clear_value st x c n run
  split
  · rfl
  · split
    · rw [State.cpSetField_kept]
    · extract_lets s1
      have hs1 : s1.kept = s.kept := by unfold s1; rw [State.cpSetField_kept, State.cpSetField_kept,
          State.cpSetField_kept]
      clear_value s1
      rw [State.setLoupe_kept, hs1]

@[simp] theorem State.lpWrite_kept (s : State) (k off v) :
    (s.lpWrite k off v).kept = s.kept := by
  unfold State.lpWrite
  extract_lets a s1 s2
  have hs1 : s1.kept = s.kept := by unfold s1; split <;> simp
  have hs2 : s2.kept = s.kept := by unfold s2; rw [State.cpSetField_kept, State.cpSetField_kept, hs1]
  split
  · rfl
  · split
    · split <;> simp [hs2]
    · rw [State.cpSet_kept]

theorem State.loupePut_keeps {s : State} {κ} (hs : s.kept = κ) {off v bm who r}
    (e : s.loupePut off v bm who = r) : OptKeeps κ r := by
  subst e
  rw [State.loupePut]
  cases s.loupeAt off who with
  | none => trivial
  | some x =>
    obtain ⟨k, o⟩ := x
    have hput : ∀ o v, (s.lpWrite k o v).kept = κ := fun _ _ => (State.lpWrite_kept ..).trans hs
    exact OptKeeps.ite (State.ite_kept (hput ..) hs) (OptKeeps.ite (State.ite_kept (hput ..) hs) (hput ..))

theorem State.devBell_keeps {s : State} {κ} (hs : s.kept = κ) {w who r}
    (e : s.devBell w who = r) : PairKeeps κ r := by
  subst e
  unfold State.devBell
  extract_lets q i work
  split
  · exact hs
  · split
    · trivial
    · rename_i c s1 e
      have hs1 : s1.kept = κ := State.ctxOf_keeps hs e
      extract_lets g o n head bad
      split
      · rw [pairKeeps_some, State.countAt_kept, hs1]
      · split
        · rw [pairKeeps_some, State.countAt_kept, State.setCtx_kept, hs1]
        · split
          · exact hs1
          · split <;> simp [hs1]

theorem State.hubDevWrite_keeps {s : State} {κ} (hs : s.kept = κ) {off n v bm who r}
    (e : s.hubDevWrite off n v bm who = r) : PairKeeps κ r := by
  subst e
  unfold State.hubDevWrite
  extract_lets out
  have hout : ∀ x0, OptKeeps κ x0 → PairKeeps κ (out x0) := by
    intro x0 hs1
    unfold out
    split
    · rename_i s1
      have hs1 : s1.kept = κ := hs1
      exact hs1
    · exact hs
  split
  · apply hout
    exact writeWords_keeps hs (fun s1 x1 x2 x3 hs1 => State.mbWrite_keeps hs1 rfl) rfl
  · split
    · apply hout
      exact writeWords_keeps hs (fun s1 x1 x2 x3 hs1 => State.loupePut_keeps hs1 rfl) rfl
    · split
      · split
        · exact State.devBell_keeps hs rfl
        · exact hs
      · apply hout
        exact writeWords_keeps hs (fun s1 x1 x2 x3 hs1 => State.pkgWrite_keeps hs1 rfl) rfl

theorem State.devWrite_keeps {s : State} {κ} (hs : s.kept = κ) {m r}
    (e : s.devWrite m = r) : PairKeeps κ r := by
  subst e
  unfold State.devWrite
  extract_lets who out
  have hout : ∀ x0, OptKeeps κ x0 → PairKeeps κ (out x0) := by
    intro x0 hs1
    unfold out
    split
    · rename_i s1
      have hs1 : s1.kept = κ := hs1
      exact hs1
    · exact hs
  split
  · exact hs
  · split
    · exact hs
    · split
      · apply hout
        exact writeWords_keeps hs (fun s1 x1 x2 x3 hs1 => State.windowWrite_keeps hs1 rfl) rfl
      · apply hout
        exact writeWords_keeps hs (fun s1 x1 x2 x3 hs1 => State.dieWrite_keeps hs1 rfl) rfl
      · exact State.hubDevWrite_keeps hs rfl
      · exact hs

@[simp] theorem execDevWr_kept (s : State) (msg) :
    Out.kept (execDevWr msg s) = some s.kept := by
  unfold execDevWr
  refine State.deliver_kept rfl fun x0 s1 hs1 => ?_
  split
  · rename_i ok s2 e
    have hs2 : s2.kept = s.kept := State.devWrite_keeps hs1 e
    rw [optKeeps_some, State.send_kept, hs2]
  · trivial

theorem State.atPortA_kept {s : State} {κ} (hs : s.kept = κ) {m k f}
    (hf : ∀ x0 t1, t1.kept = κ → OptKeeps κ (f x0 t1)) :
    Out.kept (s.atPortA m k f) = some κ := by
  unfold State.atPortA
  refine State.deliver_kept hs fun x0 s1 hs1 => ?_
  apply hf
  exact hs1

@[simp] theorem State.sendMwr_kept (s : State) (f m a data) :
    (s.sendMwr f m a data).kept = s.kept := by
  unfold State.sendMwr
  split
  · split <;> simp
  · rw [State.toHost_kept]

theorem State.logFlushLine_keeps {s : State} {κ} (hs : s.kept = κ) {w r}
    (e : s.logFlushLine w = r) : OptKeeps κ r := by
  subst e
  unfold State.logFlushLine
  extract_lets o
  split
  · trivial
  · rename_i x s1 e
    have hs1 : s1.kept = κ := State.hubWrite_keeps hs e
    exact hs1
  · rename_i s1 e
    have hs1 : s1.kept = κ := State.hubWrite_keeps hs e
    exact hs1
  · rename_i s1 e
    have hs1 : s1.kept = κ := State.hubWrite_keeps hs e
    exact hs1

theorem State.logLine_keeps {s : State} {κ} (hs : s.kept = κ) {v line r}
    (e : s.logLine v line = r) : PairKeeps κ r := by
  subst e
  unfold State.logLine
  split
  · rw [pairKeeps_some, State.modFold_kept, hs]
  · extract_lets room
    have hroom : OptKeeps κ room := by
      unfold room
      split
      · exact hs
      · split
        · exact hs
        · exact OptKeeps.map (State.logFlushLine_keeps hs rfl)
              fun s1 hs1 => by rw [State.modFold_kept, hs1]
    clear_value room
    split
    · trivial
    · rename_i s1
      have hs1 : s1.kept = κ := hroom
      extract_lets o
      clear_value o
      split
      · trivial
      · rename_i d s2 e
        have hs2 : s2.kept = κ := State.hubRead_keeps hs1 e
        exact hs2
      · rename_i s2 e
        have hs2 : s2.kept = κ := State.hubRead_keeps hs1 e
        exact hs2
      · rename_i s2 e
        have hs2 : s2.kept = κ := State.hubRead_keeps hs1 e
        exact hs2

theorem State.logPage_keeps {s : State} {κ} (hs : s.kept = κ) {v page r}
    (e : s.logPage v page = r) : OptKeeps κ r := by
  subst e
  unfold State.logPage
  extract_lets first ovf i line b
  have hovf : ∀ t0, t0.kept = κ → (ovf t0).kept = κ := by
    intro s1 hs1
    unfold ovf
    rw [State.cpSetField_kept, hs1]
  split
  · rw [optKeeps_some]
    apply hovf
    exact hs
  · split
    · trivial
    · rename_i s1 e
      have hs1 : s1.kept = κ := State.logLine_keeps hs e
      rw [optKeeps_some]
      apply hovf
      exact hs1
    · rename_i w s1 e
      have hs1 : s1.kept = κ := State.logLine_keeps hs e
      extract_lets s2
      have hs2 : s2.kept = κ := by unfold s2; split <;> simp [hs1]
      rw [optKeeps_some, State.modFold_kept, hs2]

theorem State.logMark_keeps {s : State} {κ} (hs : s.kept = κ) {v a n r}
    (e : s.logMark v a n = r) : OptKeeps κ r := by
  subst e
  unfold State.logMark
  split
  · exact hs
  · refine OptKeeps.foldl ?_ (fun o x ho => OptKeeps.bind ho
        fun s1 hs1 => State.logPage_keeps hs1 rfl) _
    exact hs

theorem State.hostWindow_keeps {s : State} {κ} (hs : s.kept = κ) {m wr r}
    (e : s.hostWindow m wr = r) : OptKeeps κ r := by
  subst e
  unfold State.hostWindow
  extract_lets a
  split
  rename_i ok s1 e
  have hs1 : s1.kept = κ := State.checkPasture_kept hs e
  extract_lets refuse h
  have hrefuse : OptKeeps κ refuse := by
    unfold refuse
    rw [optKeeps_some, State.ncReply_kept, State.countAt_kept, hs1]
  split
  · rw [optKeeps_some, State.ncReply_kept, hs1]
  · split
    · exact hrefuse
    · split
      · rw [optKeeps_some, State.ncReply_kept, State.countAt_kept, State.cutOff_kept, hs1]
      · split
        · exact hrefuse
        · split
          · split
            extract_lets h1
            exact OptKeeps.map (State.logMark_keeps hs1 rfl)
                fun s2 hs2 => by rw [State.ncReply_kept, State.sendMwr_kept, hs2]
          · split <;> simp [hs1]

@[simp] theorem execHostRd_kept (s : State) (msg) :
    Out.kept (execHostRd msg s) = some s.kept := by
  unfold execHostRd
  exact State.atPortA_kept rfl fun x0 s1 hs1 => State.hostWindow_keeps hs1 rfl

@[simp] theorem execHostWr_kept (s : State) (msg) :
    Out.kept (execHostWr msg s) = some s.kept := by
  unfold execHostWr
  exact State.atPortA_kept rfl fun x0 s1 hs1 => State.hostWindow_keeps hs1 rfl

@[simp] theorem execNcData_kept (s : State) (msg) :
    Out.kept (execNcData msg s) = some s.kept := by
  unfold execNcData
  rw [State.atRequester_kept]

@[simp] theorem execNcAck_kept (s : State) (msg) :
    Out.kept (execNcAck msg s) = some s.kept := by
  unfold execNcAck
  rw [State.atRequester_kept]

@[simp] theorem execNcErr_kept (s : State) (msg) :
    Out.kept (execNcErr msg s) = some s.kept := by
  unfold execNcErr
  rw [State.atRequester_kept]

@[simp] theorem execNcPoison_kept (s : State) (msg) :
    Out.kept (execNcPoison msg s) = some s.kept := by
  unfold execNcPoison
  rw [State.atRequester_kept]

@[simp] theorem execIntMsg_kept (s : State) (msg) :
    Out.kept (execIntMsg msg s) = some s.kept := by
  unfold execIntMsg
  refine State.deliver_kept rfl fun x0 s1 hs1 => ?_
  split <;> simp [hs1]

@[simp] theorem execIntAck_kept (s : State) (msg) :
    Out.kept (execIntAck msg s) = some s.kept := by
  unfold execIntAck
  exact State.deliver_kept rfl
      fun x0 s1 hs1 => by rw [optKeeps_some, State.answer_kept, hs1]

@[simp] theorem execTlbBcast_kept (s : State) (msg) :
    Out.kept (execTlbBcast msg s) = some s.kept := by
  unfold execTlbBcast
  refine State.deliver_kept rfl fun x0 s1 hs1 => ?_
  extract_lets form f
  split
  · rw [optKeeps_some, State.badCmd_kept, hs1]
  · split
    · extract_lets cores
      rw [optKeeps_some]
      rw [State.send_kept]
      exact State.foldl_kept hs1 (fun s2 x hs2 => by rw [State.modCore_kept, hs2]) _
    · exact hs1

@[simp] theorem execTlbAck_kept (s : State) (msg) :
    Out.kept (execTlbAck msg s) = some s.kept := by
  unfold execTlbAck
  rw [State.atRequester_kept]

@[simp] theorem execRoleGone_kept (s : State) (msg) :
    Out.kept (execRoleGone msg s) = some s.kept := by
  unfold execRoleGone
  refine State.deliver_kept rfl fun x0 s1 hs1 => ?_
  extract_lets s2 q
  have hs2 : s2.kept = s.kept := (State.countAt_kept ..).trans hs1
  split
  · split
    · extract_lets line s3
      have hs3 : s3.kept = s.kept := by unfold s3; split <;> simp [hs2]
      rw [optKeeps_some, State.settleHome_kept, State.settleLine_kept, State.dropEntry_kept, hs3]
    · exact hs2
  · exact hs2

@[simp] theorem State.heldBeats_kept (s : State) (u) :
    (s.heldBeats u).kept = s.kept := by
  unfold State.heldBeats
  split
  · split
    rename_i b s1 e
    have hs1 : s1.kept = s.kept := State.takeBeats_kept rfl e
    split <;> simp [hs1]
  · rfl

@[simp] theorem State.admitHeld_kept (a3 : State) (u a a2) :
    (State.admitHeld u a a2 a3).kept = a3.kept := by
  induction a2 generalizing a3 u a with
  | nil =>
    rw [State.admitHeld]
  | cons x l' ih =>
    rw [State.admitHeld]
    split
    · rw [ih]
    · split
      · rw [ih, State.letThrough_kept, State.heldBeats_kept, State.kept_mk, State.tb_pending]
      · split
        · rw [ih]
        · rfl

@[simp] theorem execRegWindowStart_kept (s : State) (win) :
    Out.kept (execRegWindowStart win s) = some (s.advance win.t).kept := by
  unfold execRegWindowStart
  extract_lets s1
  have hs1 : s1.kept = (s.advance win.t).kept := rfl
  split
  · exact congrArg some hs1
  · extract_lets budget s2
    have hs2 : s2.kept = (s.advance win.t).kept := by unfold s2; split <;> simp [hs1]
    split <;> simp [hs1, hs2]

@[simp] theorem State.measured_kept (s : State) (t q meas) :
    (s.measured t q meas).kept = s.kept := by
  unfold State.measured
  split
  · rw [State.cpSet_kept]
  · split
    rename_i x s1 e
    have hs1 : s1.kept = s.kept := State.takeFree_kept rfl e
    rw [State.cpSet_kept, hs1]

@[simp] theorem State.mscStruck_kept (s : State) (q line) :
    (s.mscStruck q line).kept = s.kept := by
  unfold State.mscStruck
  split <;> simp

@[simp] theorem State.homeErr_kept (s : State) (a) :
    (s.homeErr a).kept = s.kept := by
  unfold State.homeErr
  split
  · rw [State.report_kept]
  · split <;> simp
  · split <;> simp

@[simp] theorem execMeasWindowEnd_kept (s : State) (t win) :
    Out.kept (execMeasWindowEnd t win s) = some (s.advance t).kept := by
  unfold execMeasWindowEnd
  refine congrArg some ?_
  refine State.foldl_kept (State.foldl_kept rfl (fun s1 x hs1 => by rw [State.homeErr_kept,
      hs1]) _) (fun s1 x hs1 => ?_) _
  rw [State.modHome_kept]
  exact State.foldl_kept hs1 (fun s2 x1 hs2 => by rw [State.measured_kept, hs2]) _

@[simp] theorem execGuaranteeRecompute_kept (s : State) :
    Out.kept (execGuaranteeRecompute s) = some s.kept := by
  unfold execGuaranteeRecompute
  rw [Out.kept_next, State.guarantees_kept]

theorem State.mcFill_keeps {s : State} {κ} (hs : s.kept = κ) {q line r}
    (e : s.mcFill q line = r) : OptKeeps κ r := by
  subst e
  unfold State.mcFill
  extract_lets x p t drainMode s1
  have hs1 : s1.kept = κ := (State.countAt_kept ..).trans hs
  refine OptKeeps.bind_any ?_ _
  intro x1
  extract_lets prio
  split
  · trivial
  · split
    · extract_lets s2
      have hs2 : s2.kept = κ := by
        unfold s2
        split
        · rw [State.countAt_kept, State.mcEvent_kept, hs1]
        · exact hs1
      split
      · rw [optKeeps_some, State.modPc_kept, hs]
      · rw [optKeeps_some, State.fillArrived_kept, hs2]
    · rw [optKeeps_some, State.modPc_kept, hs]

@[simp] theorem execMcFillRequest_kept (s : State) (q line prio) :
    Out.kept (execMcFillRequest q line prio s) = some s.kept := by
  unfold execMcFillRequest
  split
  · exact congrArg some (OptKeeps.getD (State.mcFill_keeps rfl rfl) rfl)
  · rfl

theorem State.mcWrite_keeps {s : State} {κ} (hs : s.kept = κ) {q line d pois classed r}
    (e : s.mcWrite q line d pois classed = r) : OptKeeps κ r := by
  subst e
  unfold State.mcWrite
  extract_lets x p own merge s1 s2 high t s3 crit
  have hs1 : s1.kept = κ := (State.modHome_kept ..).trans hs
  have hs2 : s2.kept = κ := by
    unfold s2
    split
    · rw [State.countAt_kept, hs1]
    · exact hs1
  have hs3 : s3.kept = κ := (State.modPc_kept ..).trans hs2
  split
  · trivial
  · split
    · split
      rename_i b s4 e
      have hs4 : s4.kept = κ := State.takeFree_kept hs3 e
      split
      rename_i y s5 e1
      have hs5 : s5.kept = κ := State.takeFree_kept hs4 e1
      rw [optKeeps_some, State.mcUe_kept, hs5]
    · exact hs3

end Sys2Proof.Machine

end

