-- ==== Sys2Proof/Proofs/KeptMemory.lean ====
section
/-! SUPPORT. TB_NOW and the queue over the commands of the memory controller, links and ports. -/

namespace Sys2Proof.Machine

@[simp] theorem execMcWriteRequest_kept (s : State) (q line data pois classed) :
    Out.kept (execMcWriteRequest q line data pois classed s) = some s.kept := by
  unfold execMcWriteRequest
  exact congrArg some (OptKeeps.getD (State.mcWrite_keeps rfl rfl) rfl)

@[simp] theorem execMcReadIssue_kept (s : State) (q pc) :
    Out.kept (execMcReadIssue q pc s) = some s.kept := by
  unfold execMcReadIssue
  extract_lets x p
  split
  · split <;> simp
  · rfl

@[simp] theorem State.issueWrite_kept (s : State) (q pc i) :
    (s.issueWrite q pc i).kept = s.kept := by
  unfold State.issueWrite
  split <;> simp

@[simp] theorem execMcWriteIssue_kept (s : State) (q pc) :
    Out.kept (execMcWriteIssue q pc s) = some s.kept := by
  unfold execMcWriteIssue
  extract_lets x
  split
  · split <;> simp
  · rfl

@[simp] theorem execMcReadData_kept (s : State) (q pc err) :
    Out.kept (execMcReadData q pc err s) = some s.kept := by
  unfold execMcReadData
  split <;> simp

@[simp] theorem execRefreshDue_kept (s : State) (q pc) :
    Out.kept (execRefreshDue q pc s) = some s.kept := by
  unfold execRefreshDue
  extract_lets x p
  split
  · rfl
  · split
    · rw [Out.kept_next, State.modPc_kept]
    · split
      · rw [Out.kept_next, State.modPc_kept]
      · rw [Out.kept_next, State.modPc_kept, State.mcEvent_kept, State.count16_kept]

@[simp] theorem execSelfRefreshEntry_kept (s : State) (q pc) :
    Out.kept (execSelfRefreshEntry q pc s) = some s.kept := by
  unfold execSelfRefreshEntry
  extract_lets x p
  split <;> simp

@[simp] theorem execTempReadout_kept (s : State) (q temp) :
    Out.kept (execTempReadout q temp s) = some s.kept := by
  unfold execTempReadout
  extract_lets a s1 hot
  have hs1 : s1.kept = s.kept := State.cpSetField_kept ..
  split
  · rfl
  · split
    · rw [Out.kept_next, State.mcEvent_kept, State.cpSetField_kept, hs1]
    · split
      · rw [Out.kept_next, State.mcEvent_kept, State.cpSetField_kept, hs1]
      · exact congrArg some hs1

@[simp] theorem execScrubEarn_kept (s : State) (q pc) :
    Out.kept (execScrubEarn q pc s) = some s.kept := by
  unfold execScrubEarn
  extract_lets x
  split
  · rw [Out.kept_next, State.modPc_kept]
  · split <;> simp

@[simp] theorem State.lapBegin_kept (s : State) (q) :
    (s.lapBegin q).kept = s.kept := by
  unfold State.lapBegin
  extract_lets s1 s2
  have hs1 : s1.kept = s.kept := State.cpSet64_kept ..
  have hs2 : s2.kept = s.kept :=
    State.foldl_kept hs1 (fun s3 x hs3 => by rw [State.modPc_kept, hs3]) _
  rw [State.modMc_kept, hs2]

@[simp] theorem State.lapEnd_kept (s : State) (q) :
    (s.lapEnd q).kept = s.kept := by
  unfold State.lapEnd
  extract_lets x s1
  have hs1 : s1.kept = s.kept := State.cpSet64_kept ..
  split
  · rw [State.lapBegin_kept, State.cpSetField_kept, hs1]
  · rfl

@[simp] theorem execScrubRead_kept (s : State) (q pc) :
    Out.kept (execScrubRead q pc s) = some s.kept := by
  unfold execScrubRead
  extract_lets x p r
  split <;> simp

@[simp] theorem execLapOverdue_kept (s : State) (q t) :
    Out.kept (execLapOverdue q t s) = some (s.advance t).kept := by
  unfold execLapOverdue
  extract_lets s1 a limit
  have hs1 : s1.kept = (s.advance t).kept := rfl
  split
  · rw [Out.kept_next, State.report_kept, State.mcEvent_kept, State.cpSetField_kept, hs1]
  · exact congrArg some hs1

@[simp] theorem execStackSelfRefresh_kept (s : State) (q) :
    Out.kept (execStackSelfRefresh q s) = some s.kept := by
  unfold execStackSelfRefresh
  rw [Out.kept_next, State.stackSleep_kept]

@[simp] theorem execStackSelfRefreshExit_kept (s : State) (q) :
    Out.kept (execStackSelfRefreshExit q s) = some s.kept := by
  unfold execStackSelfRefreshExit
  rw [Out.kept_next, State.stackWake_kept]

@[simp] theorem State.keepEnter_kept (s : State) (q) :
    (s.keepEnter q).kept = s.kept := by
  unfold State.keepEnter
  split <;> simp

@[simp] theorem execKeepEntry_kept (s : State) (q) :
    Out.kept (execKeepEntry q s) = some s.kept := by
  unfold execKeepEntry
  rw [Out.kept_next, State.keepEnter_kept]

@[simp] theorem execKeepExit_kept (s : State) (q) :
    Out.kept (execKeepExit q s) = some s.kept := by
  unfold execKeepExit
  rw [Out.kept_next, State.keepLeave_kept]

@[simp] theorem State.bankFilled_kept (s : State) (q b) :
    (s.bankFilled q b).kept = s.kept := rfl

@[simp] theorem State.keepFilled_kept (s : State) (q) :
    (s.keepFilled q).kept = s.kept := by
  unfold State.keepFilled
  split
  · rfl
  · rw [State.mcEvent_kept, State.modMc_kept, State.cpSetField_kept]

@[simp] theorem execKeepFillDone_kept (s : State) (fill) :
    Out.kept (execKeepFillDone fill s) = some s.kept := by
  unfold execKeepFillDone
  split <;> simp

@[simp] theorem State.setLaserBits_kept (s : State) (l off m) :
    (s.setLaserBits l off m).kept = s.kept := by
  unfold State.setLaserBits
  rw [State.cpSet_kept, State.cpSet_kept]

@[simp] theorem State.setWl_kept (s : State) (p w x) :
    (s.setWl p w x).kept = s.kept := by
  unfold State.setWl
  extract_lets s1
  have hs1 : s1.kept = s.kept := State.cpSetField_kept ..
  rw [State.cpSetField_kept, hs1]

@[simp] theorem State.darken_kept (s : State) (m) :
    (s.darken m).kept = s.kept := by
  unfold State.darken
  extract_lets port
  have hport : ∀ t0 x1, t0.kept = s.kept → (port t0 x1).kept = s.kept := by
    intro s1 x1 hs1
    unfold port
    extract_lets s2
    have hs2 : s2.kept = s.kept := by
      unfold s2
      refine State.foldl_kept hs1 (fun s3 x hs3 => ?_) _
      split <;> simp [hs3]
    split
    · exact hs1
    · refine State.foldl_kept hs2 (fun s3 x hs3 => ?_) _
      split <;> simp [hs3]
  refine State.foldl_kept rfl (fun s1 x hs1 => ?_) _
  apply hport
  apply hport
  exact hs1

@[simp] theorem State.laserChange_kept (s : State) :
    (s.laserChange).kept = s.kept := by
  simp [State.laserChange]

@[simp] theorem State.xfade_kept (s : State) :
    (s.xfade).kept = s.kept := by
  unfold State.xfade
  split <;> simp

@[simp] theorem execLaserSample_kept (s : State) (t laser powers) :
    Out.kept (execLaserSample t laser powers s) = some (s.advance t).kept := by
  unfold execLaserSample
  extract_lets s1 l below weak0 fail0 weak fail s2 s3 s4 other
  have hs1 : s1.kept = (s.advance t).kept := rfl
  have hs2 : s2.kept = (s.advance t).kept := by unfold s2; rw [State.setLaserBits_kept,
      State.setLaserBits_kept, hs1]
  have hs3 : s3.kept = (s.advance t).kept := by unfold s3; split <;> simp [hs2]
  have hs4 : s4.kept = (s.advance t).kept := by unfold s4; split <;> simp [hs3]
  split
  · exact congrArg some hs1
  · split
    · exact congrArg some hs4
    · split
      · rw [Out.kept_next, State.laserChange_kept, hs4]
      · split
        · rw [Out.kept_next, State.darken_kept, hs4]
        · split <;> simp [hs4]

@[simp] theorem execLaserSwitchGo_kept (s : State) :
    Out.kept (execLaserSwitchGo s) = some s.kept := by
  unfold execLaserSwitchGo
  rw [Out.kept_next, State.xfade_kept]

@[simp] theorem execXfadeEnd_kept (s : State) :
    Out.kept (execXfadeEnd s) = some s.kept := by
  unfold execXfadeEnd
  split <;> simp

@[simp] theorem execStandbyNominal_kept (s : State) :
    Out.kept (execStandbyNominal s) = some s.kept := rfl

theorem State.nextUnit_kept {s : State} {κ} (hs : s.kept = κ) {t checks r}
    (e : s.nextUnit t checks = r) : r.2.2.kept = κ := by
  subst e
  unfold State.nextUnit
  extract_lets x
  split
  · extract_lets u
    rw [State.modPort_kept, hs]
  · split
    · dsimp only
      exact hs
    · split
      · rename_i s1 e
        have hs1 : s1.kept = κ := State.checkFlits_kept hs e
        exact hs1
      · rename_i m s1 e
        have hs1 : s1.kept = κ := State.checkFlits_kept hs e
        extract_lets s2
        have hs2 : s2.kept = κ := by unfold s2; rw [State.kept_mk, State.tb_pending, hs1]
        rw [State.modPort_kept, hs2]

@[simp] theorem State.unitSent_kept (s : State) (t) :
    (s.unitSent t).kept = s.kept := rfl

theorem State.fillBody_kept {a4 : State} {κ} (ha4 : a4.kept = κ) {t a a2 a3 r}
    (e : State.fillBody t a a2 a3 a4 = r) : r.2.kept = κ := by
  induction a generalizing a4 t a2 a3 r with
  | zero =>
    subst e
    rw [State.fillBody]
    exact ha4
  | succ n' ih =>
    subst e
    rw [State.fillBody]
    extract_lets s1
    have hs1 : s1.kept = κ := by unfold s1; rw [State.modPort_kept, ha4]
    split
    · dsimp only
      exact ha4
    · split
      · split
        · rename_i fst s2 e
          have hs2 : s2.kept = κ := State.nextUnit_kept ha4 e
          exact hs2
        · rename_i u checks s2 e
          have hs2 : s2.kept = κ := State.nextUnit_kept ha4 e
          exact ih (by rw [State.modPort_kept, hs2]) rfl
      · refine ih ?_ rfl
        split
        · rw [State.unitSent_kept, hs1]
        · exact hs1

theorem State.newFrame_keeps {s : State} {κ} (hs : s.kept = κ) {t checks r}
    (e : s.newFrame t checks = r) : PairKeeps κ r := by
  subst e
  unfold State.newFrame
  extract_lets x
  split
  · trivial
  · split
    rename_i body s1 e
    have hs1 : s1.kept = κ := State.fillBody_kept hs e
    extract_lets fr
    rw [pairKeeps_some, State.modPort_kept, hs1]

theorem State.nextFrame_keeps {s : State} {κ} (hs : s.kept = κ) {t checks r}
    (e : s.nextFrame t checks = r) : PairKeeps κ r := by
  subst e
  unfold State.nextFrame
  extract_lets x
  split
  · extract_lets f s1
    have hs1 : s1.kept = κ := (State.modPort_kept ..).trans hs
    rw [pairKeeps_some, State.cpSetField_kept, State.countAt_kept, hs1]
  · exact State.newFrame_keeps hs rfl

@[simp] theorem State.prismEvent_kept (s : State) (p) :
    (s.prismEvent p).kept = s.kept := by
  unfold State.prismEvent
  split <;> simp

@[simp] theorem State.charge_kept (s : State) (p w) :
    (s.charge p w).kept = s.kept := by
  unfold State.charge
  extract_lets a cfg t now start fresh s1 bits s2 s3 fs s4
  have hs1 : s1.kept = s.kept := by unfold s1; split <;> simp
  have hs2 : s2.kept = s.kept := by unfold s2; rw [State.cpSetField_kept, State.countAt_kept,
      State.cpSetField_kept, hs1]
  have hs3 : s3.kept = s.kept := by unfold s3; rw [State.prismEvent_kept, State.report_kept, hs2]
  have hs4 : s4.kept = s.kept := (State.modPort_kept ..).trans hs3
  split
  · rw [State.cpSetField_kept, hs1]
  · split
    · split <;> simp [hs4]
    · exact hs4

@[simp] theorem State.chargeKept_kept (s : State) (p k good) :
    (s.chargeKept p k good).kept = s.kept := by
  unfold State.chargeKept
  refine State.foldl_kept rfl (fun s1 x hs1 => ?_) _
  split <;> simp [hs1]

@[simp] theorem State.linkDeliver_kept (s : State) (p m m') :
    (s.linkDeliver p m m').kept = s.kept := by
  unfold State.linkDeliver
  extract_lets s1
  have hs1 : s1.kept = s.kept := State.sendCtl_kept ..
  split
  · rw [State.proxy_kept, State.countAt_kept, State.kept_mk, State.tb_pending, hs1]
  · exact hs1

@[simp] theorem State.unitArrived_kept (s : State) (p u) :
    (s.unitArrived p u).kept = s.kept := by
  unfold State.unitArrived
  extract_lets kind c
  split
  · rw [State.modPort_kept]
  · split
    · split <;> simp
    · rfl

@[simp] theorem State.takeUnits_kept (a1 : State) (a a2) :
    (State.takeUnits a a1 a2).kept = a1.kept := by
  induction a generalizing a1 a2 with
  | zero =>
    rw [State.takeUnits]
  | succ n' ih =>
    rw [State.takeUnits]
    split
    · rfl
    · split
      · rfl
      · rw [ih, State.unitArrived_kept, State.modPort_kept]

@[simp] theorem State.linkGood_kept (s : State) (p bits) :
    (s.linkGood p bits).kept = s.kept := by
  unfold State.linkGood
  extract_lets s1 n s2 s3
  have hs1 : s1.kept = s.kept := by
    unfold s1
    split
    · split
      · rw [State.chargeKept_kept]
      · rfl
    · rfl
  have hs2 : s2.kept = s.kept := by unfold s2; rw [State.modPort_kept, State.cpSetField_kept, hs1]
  have hs3 : s3.kept = s.kept := by
    unfold s3
    split
    · rw [State.sendCtl_kept, hs2]
    · exact hs2
  rw [State.takeUnits_kept, hs3]

@[simp] theorem State.linkBad_kept (s : State) (p fr bits) :
    (s.linkBad p fr bits).kept = s.kept := by
  unfold State.linkBad
  split
  · split <;> simp
  · rw [State.sendCtl_kept, State.modPort_kept, State.cpSetField_kept]

@[simp] theorem execFrameReceive_kept (s : State) (port f) :
    Out.kept (execFrameReceive port f s) = some s.kept := by
  unfold execFrameReceive
  split
  · rfl
  · split
    · rfl
    · rename_i fr s1 e
      have hs1 : s1.kept = s.kept := State.nextFrame_keeps rfl e
      refine congrArg some ?_
      split <;> simp [hs1]

@[simp] theorem execNakRepeat_kept (s : State) (port) :
    Out.kept (execNakRepeat port s) = some s.kept := by
  unfold execNakRepeat
  split <;> simp

@[simp] theorem execLinkctl_kept (s : State) (port w) :
    Out.kept (execLinkctl port w s) = some s.kept := by
  unfold execLinkctl
  extract_lets s1 x
  have hs1 : s1.kept = s.kept := State.modPort_kept ..
  split
  · rfl
  · refine congrArg some ?_
    split <;> simp [hs1]

theorem State.onSignal_kept {s : State} {κ} (hs : s.kept = κ) {p k w f}
    (hf : ∀ t0, t0.kept = κ → (f t0).kept = κ) :
    Out.kept (s.onSignal p k w f) = some κ := by
  unfold State.onSignal
  split
  · split
    · refine congrArg some ?_
      apply hf
      rw [State.modPort_kept, hs]
    · exact congrArg some hs
  · exact congrArg some hs

@[simp] theorem execLswDupReq_kept (s : State) (port w) :
    Out.kept (execLswDupReq port w s) = some s.kept := by
  unfold execLswDupReq
  exact State.onSignal_kept rfl fun s1 hs1 => by rw [State.modPort_kept, hs1]

@[simp] theorem execLswReady_kept (s : State) (port w) :
    Out.kept (execLswReady port w s) = some s.kept := by
  unfold execLswReady
  refine State.onSignal_kept rfl fun s1 hs1 => ?_
  extract_lets j old
  split
  · extract_lets s2
    have hs2 : s2.kept = s.kept := (State.cpSet_kept ..).trans hs1
    rw [State.prismEvent_kept, State.sendCtl_kept, State.modPort_kept, hs2]
  · split <;> simp [hs1]

@[simp] theorem State.readyWide_kept (s : State) (p) :
    (s.readyWide p).kept = s.kept := by
  unfold State.readyWide
  split <;> simp

@[simp] theorem State.swapDone_kept (s : State) (p w) :
    (s.swapDone p w).kept = s.kept := by
  unfold State.swapDone
  extract_lets old s1 s2 s3 la n s4 s5 mend src s6 s7
  have hs1 : s1.kept = s.kept := State.cpSet_kept ..
  have hs2 : s2.kept = s.kept := (State.setWl_kept ..).trans hs1
  have hs3 : s3.kept = s.kept := by unfold s3; split <;> simp [hs2]
  have hs4 : s4.kept = s.kept := (State.cpSet_kept ..).trans hs3
  have hs5 : s5.kept = s.kept := by unfold s5; rw [State.prismEvent_kept, State.swapping_kept,
      State.modPort_kept, hs4]
  have hs6 : s6.kept = s.kept := by unfold s6; rw [State.kept_mk, State.tb_pending, hs5]
  have hs7 : s7.kept = s.kept := (State.event_kept ..).trans hs6
  split <;> simp [hs7]

@[simp] theorem execLswSwitch_kept (s : State) (port w) :
    Out.kept (execLswSwitch port w s) = some s.kept := by
  unfold execLswSwitch
  refine State.onSignal_kept rfl fun s1 hs1 => ?_
  split <;> simp [hs1]

@[simp] theorem State.darkLane_kept (s : State) (p j) :
    (s.darkLane p j).kept = s.kept := by
  unfold State.darkLane
  split <;> simp

@[simp] theorem State.rxNarrow_kept (s : State) (p) :
    (s.rxNarrow p).kept = s.kept := by
  unfold State.rxNarrow
  rw [State.setPortState_kept, State.modPort_kept]
  exact State.foldl_kept rfl (fun s1 x hs1 => by rw [State.darkLane_kept, hs1]) _

@[simp] theorem execLswNarrow_kept (s : State) (port w) :
    Out.kept (execLswNarrow port w s) = some s.kept := by
  unfold execLswNarrow
  refine State.onSignal_kept rfl fun s1 hs1 => ?_
  extract_lets s2
  have hs2 : s2.kept = s.kept := (State.rxNarrow_kept ..).trans hs1
  split
  · exact hs1
  · rw [State.settleLink_kept]
    split
    · exact hs2
    · rw [State.sendCtl_kept, hs2]

@[simp] theorem State.rxWide_kept (s : State) (p) :
    (s.rxWide p).kept = s.kept := by
  unfold State.rxWide
  extract_lets s1
  have hs1 : s1.kept = s.kept :=
    State.foldl_kept rfl (fun s2 x hs2 => by rw [State.setWl_kept, hs2]) _
  rw [State.setPortState_kept, State.modPort_kept, hs1]

@[simp] theorem execLswWide_kept (s : State) (port w) :
    Out.kept (execLswWide port w s) = some s.kept := by
  unfold execLswWide
  refine State.onSignal_kept rfl fun s1 hs1 => ?_
  split <;> simp [hs1]

@[simp] theorem execLaneLock_kept (s : State) (port wl) :
    Out.kept (execLaneLock port wl s) = some s.kept := by
  unfold execLaneLock
  refine congrArg some ?_
  split
  · rw [State.sendCtl_kept, State.modPort_kept]
  · split <;> simp

@[simp] theorem execLaneDown_kept (s : State) (port lane x2) :
    Out.kept (execLaneDown port lane x2 s) = some s.kept := by
  unfold execLaneDown
  split <;> simp

@[simp] theorem execLinkLost_kept (s : State) (port) :
    Out.kept (execLinkLost port s) = some s.kept := by
  unfold execLinkLost
  split <;> simp

@[simp] theorem execNarrow_kept (s : State) (die on) :
    Out.kept (execNarrow die on s) = some s.kept := by
  unfold execNarrow
  rw [Out.kept_next, State.setNarrow_kept]

@[simp] theorem State.bringUp_kept (s : State) (d) :
    (s.bringUp d).kept = s.kept := by
  unfold State.bringUp
  extract_lets k s1 one
  have hs1 : s1.kept = s.kept := State.cpSetField_kept ..
  have hone : ∀ t0 x1, t0.kept = s.kept → (one t0 x1).kept = s.kept := by
    intro s2 x1 hs2
    unfold one
    extract_lets s3 s4 s5
    have hs3 : s3.kept = s.kept := by unfold s3; rw [State.kept_mk, State.tb_pending, hs2]
    have hs4 : s4.kept = s.kept :=
      State.foldl_kept hs3 (fun s6 x hs6 => by rw [State.cpSet_kept, hs6]) _
    have hs5 : s5.kept = s.kept :=
      State.foldl_kept hs4 (fun s6 x hs6 => by rw [State.cpSet_kept, hs6]) _
    rw [State.cpSet_kept, State.cpSet_kept, hs5]
  split
  · rfl
  · apply hone
    apply hone
    exact hs1

@[simp] theorem execSiteBringUp_kept (s : State) (die) :
    Out.kept (execSiteBringUp die s) = some s.kept := by
  unfold execSiteBringUp
  rw [Out.kept_next, State.bringUp_kept]

@[simp] theorem State.sbRecv_kept (s : State) (w) :
    (s.sbRecv w).kept = s.kept := rfl

theorem State.sbTake_kept {s : State} {κ} (hs : s.kept = κ) {w par f}
    (hf : ∀ t0, t0.kept = κ → Out.kept (f t0) = some κ) :
    Out.kept (s.sbTake w par f) = some κ := by
  unfold State.sbTake
  split <;> simp [hs, hf]

@[simp] theorem State.sbSend_kept (s : State) (w) :
    (s.sbSend w).kept = s.kept := rfl

@[simp] theorem State.sendCaps_kept (s : State) (p) :
    (s.sendCaps p).kept = s.kept := by
  unfold State.sendCaps
  exact State.foldl_kept rfl (fun s1 x hs1 => by rw [State.sbSend_kept, hs1]) _

@[simp] theorem execHello_kept (s : State) (die w) :
    Out.kept (execHello die w s) = some s.kept := by
  unfold execHello
  refine State.sbTake_kept rfl fun s1 hs1 => ?_
  split <;> simp [hs1]

@[simp] theorem State.fence_kept (s : State) (d) :
    (s.fence d).kept = s.kept := by
  unfold State.fence
  extract_lets s1
  have hs1 : s1.kept = s.kept := by unfold s1; rw [State.setPortState_kept, State.setPortState_kept]
  exact State.foldl_kept hs1 (fun s2 x hs2 => by rw [State.cpSetField_kept, hs2]) _

@[simp] theorem State.refuseSite_kept (s : State) (d rule) :
    (s.refuseSite d rule).kept = s.kept := by
  unfold State.refuseSite
  rw [State.sbSend_kept, State.fence_kept]

@[simp] theorem execHelloTimeout_kept (s : State) (die) :
    Out.kept (execHelloTimeout die s) = some s.kept := by
  unfold execHelloTimeout
  split
  · split
    rename_i cls s1 e
    have hs1 : s1.kept = s.kept := State.takeFree_kept rfl e
    rw [Out.kept_next, State.refuseSite_kept, hs1]
  · rfl

@[simp] theorem State.capsDone_kept (s : State) (p) :
    (s.capsDone p).kept = s.kept := by
  unfold State.capsDone
  extract_lets peer mine agent neg out keep
  have hkeep : ∀ t0, t0.kept = s.kept → (keep t0).kept = s.kept := by
    intro s1 hs1
    unfold keep
    rw [State.cpSet_kept, State.cpSet_kept, hs1]
  split
  · split
    · rw [State.refuseSite_kept]
    · rw [State.sbSend_kept]
      apply hkeep
      rfl
  · apply hkeep
    rfl

@[simp] theorem State.cap_kept (s : State) (d toHub i w) :
    (s.cap d toHub i w).kept = s.kept := by
  unfold State.cap
  extract_lets p s1 got first s2
  have hs1 : s1.kept = s.kept := State.cpSet_kept ..
  have hs2 : s2.kept = s.kept := (State.modPort_kept ..).trans hs1
  split
  · rfl
  · split <;> simp [hs2]

@[simp] theorem execCap0_kept (s : State) (die toHub w) :
    Out.kept (execCap0 die toHub w s) = some s.kept := by
  unfold execCap0
  exact State.sbTake_kept rfl fun s1 hs1 => by rw [Out.kept_next, State.cap_kept, hs1]

@[simp] theorem execCap1_kept (s : State) (die toHub w) :
    Out.kept (execCap1 die toHub w s) = some s.kept := by
  unfold execCap1
  exact State.sbTake_kept rfl fun s1 hs1 => by rw [Out.kept_next, State.cap_kept, hs1]

@[simp] theorem execCap2_kept (s : State) (die toHub w) :
    Out.kept (execCap2 die toHub w s) = some s.kept := by
  unfold execCap2
  exact State.sbTake_kept rfl fun s1 hs1 => by rw [Out.kept_next, State.cap_kept, hs1]

@[simp] theorem execCap3_kept (s : State) (die toHub w) :
    Out.kept (execCap3 die toHub w s) = some s.kept := by
  unfold execCap3
  exact State.sbTake_kept rfl fun s1 hs1 => by rw [Out.kept_next, State.cap_kept, hs1]

@[simp] theorem execResult_kept (s : State) (die toHub w) :
    Out.kept (execResult die toHub w s) = some s.kept := by
  unfold execResult
  refine State.sbTake_kept rfl fun s1 hs1 => ?_
  extract_lets p
  split
  · exact congrArg some hs1
  · split
    · rw [Out.kept_next, State.sbSend_kept, State.cpSet_kept, hs1]
    · split
      · rw [Out.kept_next, State.setPortState_kept, State.setPortState_kept, hs1]
      · split
        rename_i cls s2 e
        have hs2 : s2.kept = s.kept := State.takeFree_kept hs1 e
        rw [Out.kept_next, State.refuseSite_kept, hs2]

@[simp] theorem execRefuse_kept (s : State) (die w) :
    Out.kept (execRefuse die w s) = some s.kept := by
  unfold execRefuse
  exact State.sbTake_kept rfl
      fun s1 hs1 => by rw [Out.kept_next, State.setPortState_kept, hs1]

@[simp] theorem State.fenceDark_kept (s : State) (p) :
    (s.fenceDark p).kept = s.kept := by
  simp [State.fenceDark]

@[simp] theorem execTrainingEnd_kept (s : State) (die toHub counts) :
    Out.kept (execTrainingEnd die toHub counts s) = some s.kept := by
  unfold execTrainingEnd
  extract_lets p good
  split
  · rfl
  · split
    · rw [Out.kept_next, State.fenceDark_kept]
    · extract_lets s1 s2 s3
      have hs1 : s1.kept = s.kept :=
        State.foldl_kept rfl (fun s4 x hs4 => by rw [State.setWl_kept, hs4]) _
      have hs2 : s2.kept = s.kept :=
        State.foldl_kept hs1 (fun s4 x hs4 => by rw [State.cpSet_kept, hs4]) _
      have hs3 : s3.kept = s.kept := (State.modPort_kept ..).trans hs2
      rw [Out.kept_next, State.sbSend_kept, State.sbSend_kept, hs3]

@[simp] theorem State.trained_kept (s : State) (p) :
    (s.trained p).kept = s.kept := by
  unfold State.trained
  split
  · extract_lets good
    split
    · rw [State.fenceDark_kept]
    · extract_lets s1
      have hs1 : s1.kept = s.kept :=
        State.foldl_kept rfl (fun s2 x hs2 => by rw [State.cpSet_kept, hs2]) _
      rw [State.sbSend_kept, State.modPort_kept, hs1]
  · rfl

@[simp] theorem execTrainLo_kept (s : State) (die toHub w) :
    Out.kept (execTrainLo die toHub w s) = some s.kept := by
  unfold execTrainLo
  refine State.sbTake_kept rfl fun s1 hs1 => ?_
  split <;> simp [hs1]

@[simp] theorem execTrainHi_kept (s : State) (die toHub w) :
    Out.kept (execTrainHi die toHub w s) = some s.kept := by
  unfold execTrainHi
  refine State.sbTake_kept rfl fun s1 hs1 => ?_
  split <;> simp [hs1]

@[simp] theorem execLinkReady_kept (s : State) (die w) :
    Out.kept (execLinkReady die w s) = some s.kept := by
  unfold execLinkReady
  refine State.sbTake_kept rfl fun s1 hs1 => ?_
  split <;> simp [hs1]

@[simp] theorem execSidebandResend_kept (s : State) (die) :
    Out.kept (execSidebandResend die s) = some s.kept := by
  unfold execSidebandResend
  extract_lets again
  have hagain : ∀ t0 x1, t0.kept = s.kept → (again t0 x1).kept = s.kept := by
    intro s1 x1 hs1
    unfold again
    repeat' split
    all_goals exact hs1
  split
  · refine congrArg some ?_
    apply hagain
    apply hagain
    rfl
  · rfl

@[simp] theorem State.takeFrame_kept (s : State) (f) :
    (s.takeFrame f).kept = s.kept := rfl

@[simp] theorem State.putFrame_kept (s : State) (f) :
    (s.putFrame f).kept = s.kept := rfl

theorem State.atStation_kept {s : State} {κ} (hs : s.kept = κ) {f op act}
    (hact : ∀ t0, t0.kept = κ → (act t0).2.kept = κ) :
    (s.atStation f op act).kept = κ := by
  unfold State.atStation
  extract_lets rest a
  have hrest : rest.kept = κ := (State.takeFrame_kept ..).trans hs
  have hput : ∀ g, (rest.putFrame g).kept = κ := fun _ => (State.putFrame_kept ..).trans hrest
  refine State.ite_kept hrest (State.ite_kept (hput _) ?_)
  split
  · exact hs
  · exact State.ite_kept hs (hput _)
  · exact (State.putFrame_kept ..).trans ((State.cpSetField_kept ..).trans (hact rest hrest))

theorem State.creditState_kept {s : State} {κ} (hs : s.kept = κ) {x1 r}
    (e : s.creditState x1 = r) : r.2.kept = κ := by
  subst e
  unfold State.creditState
  refine pair_foldl_kept ?_ (fun q x hq => ?_) _
  · dsimp only
    exact hs
  · split
    rename_i s1
    have hs1 : s1.kept = κ := hq
    split
    · split
      rename_i b s2 e
      have hs2 : s2.kept = κ := State.takeFree_kept hs1 e
      exact hs2
    · dsimp only
      exact hs1

theorem State.cpRead_kept {s : State} {κ} (hs : s.kept = κ) {a r}
    (e : s.cpRead a = r) : r.2.kept = κ := by
  subst e
  unfold State.cpRead
  extract_lets off
  split
  · split
    · exact State.lpRead_kept hs rfl
    · dsimp only
      exact hs
  · extract_lets t
    split
    · exact State.creditState_kept hs rfl
    · split
      · dsimp only
        exact hs
      · dsimp only
        exact hs
  · dsimp only
    exact hs

@[simp] theorem execRingRead_kept (s : State) (f) :
    Out.kept (execRingRead f s) = some s.kept := by
  unfold execRingRead
  refine congrArg some ?_
  refine State.atStation_kept rfl fun s1 hs1 => ?_
  extract_lets a
  split
  · split
    rename_i v s2 e
    have hs2 : s2.kept = s.kept := State.cpRead_kept hs1 e
    exact hs2
  · dsimp only
    exact hs1

@[simp] theorem State.releaseFreeze_kept (s : State) :
    (s.releaseFreeze).kept = s.kept := by
  unfold State.releaseFreeze
  extract_lets a nf left
  split
  · rfl
  · split <;> simp

@[simp] theorem State.logSwap_kept (s : State) (v) :
    (s.logSwap v).kept = s.kept := by
  unfold State.logSwap
  extract_lets a s1
  have hs1 : s1.kept = s.kept := State.modFold_kept ..
  split <;> simp [hs1]

@[simp] theorem State.setCtxpData_kept (s : State) (c) :
    (s.setCtxpData c).kept = s.kept := by
  unfold State.setCtxpData
  exact State.foldl_kept rfl (fun s1 x hs1 => by rw [State.cpSet_kept, hs1]) _

@[simp] theorem State.resetQueue_kept (s : State) (q c) :
    (s.resetQueue q c).kept = s.kept := by
  simp [State.resetQueue]

theorem State.ctxp_keeps {s : State} {κ} (hs : s.kept = κ) {op q d r}
    (e : s.ctxp op q d = r) : OptKeeps κ r := by
  subst e
  unfold State.ctxp
  split
  · trivial
  · rename_i c s1 e
    have hs1 : s1.kept = κ := State.ctxOf_keeps hs e
    rw [optKeeps_some]
    split <;> simp [hs1]

@[simp] theorem State.cpAction_kept (s : State) (a d old v) :
    (s.cpAction a d old v).kept = s.kept := by
  unfold State.cpAction
  extract_lets st off
  split
  · split
    · split <;> simp
    · rfl
  · split
    · split <;> simp
    · split
      · split
        · split <;> simp
        · rfl
      · split <;> simp
      · split <;> simp
      · split
        · split <;> simp
        · rfl
      · split
        · split <;> simp
        · split
          · exact OptKeeps.getD (State.ctxp_keeps rfl rfl) rfl
          · rfl
      · split
        · rw [State.cpSetField_kept]
        · split <;> simp
      · rfl

end Sys2Proof.Machine

end

