-- ==== Sys2Proof/Proofs/KeptControl.lean ====
section
/-! SUPPORT. TB_NOW and the queue over the commands of the control plane and the always-on island. -/

namespace Sys2Proof.Machine

@[simp] theorem State.cpDirect_kept (s : State) (a d v) :
    (s.cpDirect a d v).kept = s.kept := by
  unfold State.cpDirect
  extract_lets off
  split
  · split <;> simp
  · rw [State.cpAction_kept, State.cpSet_kept]

theorem State.cpWriteWord_kept {s : State} {κ} (hs : s.kept = κ) {a v r}
    (e : s.cpWriteWord a v = r) : r.2.kept = κ := by
  subst e
  unfold State.cpWriteWord
  split
  · dsimp only
    exact hs
  · split
    · dsimp only
      exact hs
    · dsimp only
      rw [State.cpDirect_kept, hs]

@[simp] theorem execRingWrite_kept (s : State) (f) :
    Out.kept (execRingWrite f s) = some s.kept := by
  unfold execRingWrite
  split
  · rfl
  · refine congrArg some ?_
    refine State.atStation_kept rfl fun s1 hs1 => ?_
    extract_lets a
    split
    · split
      · dsimp only
        rw [State.modShep_kept, hs1]
      · split
        rename_i cls s2 e
        have hs2 : s2.kept = s.kept := State.cpWriteWord_kept hs1 e
        exact hs2
    · split
      rename_i cls s2 e
      have hs2 : s2.kept = s.kept := State.cpWriteWord_kept hs1 e
      exact hs2

@[simp] theorem State.sendFrame_kept (s : State) (f) :
    (s.sendFrame f).kept = s.kept := by
  unfold State.sendFrame
  extract_lets s1
  have hs1 : s1.kept = s.kept := by unfold s1; split <;> simp
  split <;> simp [hs1]

@[simp] theorem State.feedJob_kept (s : State) (j) :
    (s.feedJob j).kept = s.kept := by
  unfold State.feedJob
  extract_lets st n
  split <;> simp

@[simp] theorem State.feedJobs_kept (s : State) :
    (s.feedJobs).kept = s.kept := by
  unfold State.feedJobs
  exact State.foldl_kept rfl (fun s1 x hs1 => by rw [State.feedJob_kept, hs1]) _

theorem State.jobReply_keeps {s : State} {κ} (hs : s.kept = κ) {f r}
    (e : s.jobReply f = r) : OptKeeps κ r := by
  subst e
  unfold State.jobReply
  extract_lets st s1
  have hs1 : s1.kept = κ := (State.modShep_kept ..).trans hs
  split
  · exact hs1
  · extract_lets rest got j
    have hrest : rest.kept = κ := (State.modShep_kept ..).trans hs1
    split
    · exact State.answerShep_keeps hrest rfl
    · split
      · exact State.answerShep_keeps hrest rfl
      · split
        · exact State.answerShep_keeps hrest rfl
        · rw [optKeeps_some, State.modShep_kept, hs1]

@[simp] theorem execReadReply_kept (s : State) (f) :
    Out.kept (execReadReply f s) = some s.kept := by
  unfold execReadReply
  extract_lets rest
  have hrest : rest.kept = s.kept := State.takeFrame_kept ..
  split
  · exact congrArg some hrest
  · refine congrArg some ?_
    refine OptKeeps.getD ?_ ?_
    · refine OptKeeps.map ?_ ?_
      · exact State.jobReply_keeps hrest rfl
      · intro s1 hs1
        rw [State.feedJobs_kept, hs1]
    · rfl

@[simp] theorem State.commitFrame_kept (s : State) (ph) :
    (s.commitFrame ph).kept = s.kept := rfl

@[simp] theorem State.modCommit_kept (s : State) (f) :
    (s.modCommit f).kept = s.kept := rfl

@[simp] theorem State.tryFire_kept (s : State) :
    (s.tryFire).kept = s.kept := by
  unfold State.tryFire
  split
  · split <;> simp
  · rfl

@[simp] theorem State.sendEntry_kept (s : State) (x1) :
    (s.sendEntry x1).kept = s.kept := by
  simp [State.sendEntry]

@[simp] theorem State.feedEntries_kept (s : State) :
    (s.feedEntries).kept = s.kept := by
  unfold State.feedEntries
  split
  · rfl
  · refine State.foldl_kept rfl (fun s1 x hs1 => ?_) _
    split <;> simp [hs1]

@[simp] theorem State.entryWritten_kept (s : State) (f) :
    (s.entryWritten f).kept = s.kept := by
  unfold State.entryWritten
  rw [State.tryFire_kept, State.feedEntries_kept, State.modCommit_kept]

@[simp] theorem execWriteReply_kept (s : State) (f) :
    Out.kept (execWriteReply f s) = some s.kept := by
  unfold execWriteReply
  extract_lets rest
  have hrest : rest.kept = s.kept := State.takeFrame_kept ..
  split
  · exact congrArg some hrest
  · refine congrArg some ?_
    refine OptKeeps.getD ?_ ?_
    · refine OptKeeps.map ?_ ?_
      · exact State.jobReply_keeps hrest rfl
      · intro s1 hs1
        rw [State.feedJobs_kept, State.entryWritten_kept, hs1]
    · rfl

@[simp] theorem execCommitArm_kept (s : State) (f) :
    Out.kept (execCommitArm f s) = some s.kept := by
  unfold execCommitArm
  extract_lets rest
  have hrest : rest.kept = s.kept := State.takeFrame_kept ..
  split
  · split <;> simp [hrest]
  · exact congrArg some hrest

@[simp] theorem State.tryResume_kept (s : State) :
    (s.tryResume).kept = s.kept := by
  unfold State.tryResume
  split
  · split <;> simp
  · rfl

@[simp] theorem execCommitFire_kept (s : State) (f) :
    Out.kept (execCommitFire f s) = some s.kept := by
  unfold execCommitFire
  extract_lets rest s1
  have hrest : rest.kept = s.kept := State.takeFrame_kept ..
  have hs1 : s1.kept = s.kept := (State.modShep_kept ..).trans hrest
  split
  · split <;> simp [hs1, hrest]
  · exact congrArg some hrest

@[simp] theorem State.storeEntries_kept (s : State) (es) :
    (s.storeEntries es).kept = s.kept := rfl

@[simp] theorem State.endHold_kept (s : State) :
    (s.endHold).kept = s.kept := by
  unfold State.endHold
  extract_lets held s1
  have hs1 : s1.kept = s.kept := State.modShep_kept ..
  exact State.foldl_kept hs1 (fun s2 x hs2 => by rw [State.put_kept, hs2]) _

@[simp] theorem State.markDomains_kept (s : State) :
    (s.markDomains).kept = s.kept := rfl

@[simp] theorem State.admitAll_kept (s : State) :
    (s.admitAll).kept = s.kept := by
  unfold State.admitAll
  refine State.foldl_kept rfl (fun s1 x hs1 => ?_) _
  split <;> simp [hs1]

@[simp] theorem State.shedCore_kept (s : State) (lc) :
    (s.shedCore lc).kept = s.kept := by
  unfold State.shedCore
  split
  · rw [State.halt_kept]
  · split <;> simp

@[simp] theorem State.shedCores_kept (s : State) :
    (s.shedCores).kept = s.kept := by
  unfold State.shedCores
  exact State.foldl_kept rfl (fun s1 x hs1 => by rw [State.shedCore_kept, hs1]) _

@[simp] theorem State.shedStacks_kept (s : State) :
    (s.shedStacks).kept = s.kept := by
  unfold State.shedStacks
  split <;> simp

@[simp] theorem State.releaseHeld_kept (s : State) :
    (s.releaseHeld).kept = s.kept := rfl

@[simp] theorem State.setMirState_kept (s : State) (x) :
    (s.setMirState x).kept = s.kept := by
  unfold State.setMirState
  split <;> simp

@[simp] theorem State.commitEffect_kept (s : State) (c) :
    (s.commitEffect c).kept = s.kept := by
  unfold State.commitEffect
  split
  · rw [State.modShep_kept]
  · rw [State.unhalt_kept]
  · split <;> simp
  · rfl

@[simp] theorem State.withEntries_kept (s : State) (es) :
    (s.withEntries es).kept = s.kept := by
  unfold State.withEntries
  refine State.foldl_kept rfl (fun s1 x hs1 => ?_) _
  split <;> simp [hs1]

@[simp] theorem State.committed_kept (s : State) :
    (s.committed).kept = s.kept := by
  unfold State.committed
  rw [State.withEntries_kept]

@[simp] theorem State.startDrain_kept (s : State) (es) :
    (s.startDrain es).kept = s.kept := by
  unfold State.startDrain
  extract_lets n
  have hn : n.kept = s.kept := State.withEntries_kept ..
  refine State.foldl_kept rfl (fun s1 x hs1 => ?_) _
  extract_lets old new taken
  split <;> simp [hs1]

@[simp] theorem State.startCommit_kept (s : State) (what req es) :
    (s.startCommit what req es).kept = s.kept := by
  simp [State.startCommit]

@[simp] theorem State.abandon_kept (s : State) (lc) :
    (s.abandon lc).kept = s.kept := by
  simp [State.abandon]

@[simp] theorem State.beginSwap_kept (s : State) (lc k req) :
    (s.beginSwap lc k req).kept = s.kept := by
  simp [State.beginSwap]

@[simp] theorem State.moveOff_kept (s : State) (lc) :
    (s.moveOff lc).kept = s.kept := by
  unfold State.moveOff
  split
  · split <;> simp
  · rfl

@[simp] theorem State.startOwn_kept (s : State) (a) :
    (s.startOwn a).kept = s.kept := by
  unfold State.startOwn
  split
  · split <;> simp
  · rw [State.moveOff_kept]
  · split <;> simp

@[simp] theorem State.startDue_kept (s : State) :
    (s.startDue).kept = s.kept := by
  unfold State.startDue
  refine State.foldl_kept rfl (fun s1 x hs1 => ?_) _
  split <;> simp [hs1]

theorem State.answerCommit_keeps {s : State} {κ} (hs : s.kept = κ) {c status data r}
    (e : s.answerCommit c status data = r) : OptKeeps κ r := by
  subst e
  unfold State.answerCommit
  split
  · exact hs
  · exact State.answerShep_keeps hs rfl

theorem State.finishCommit_keeps {s : State} {κ} (hs : s.kept = κ) {c r}
    (e : s.finishCommit c = r) : OptKeeps κ r := by
  subst e
  unfold State.finishCommit
  extract_lets s1 s2 s3
  have hs1 : s1.kept = κ := by unfold s1; rw [State.storeEntries_kept, State.endHold_kept, hs]
  have hs2 : s2.kept = κ := (State.modShep_kept ..).trans hs1
  have hs3 : s3.kept = κ := by
    unfold s3
    rw [State.markDomains_kept, State.admitAll_kept, State.shedCores_kept, State.rebuildLists_kept]
    exact State.foldl_kept (by rw [State.shedStacks_kept, State.commitEffect_kept, hs2]) (fun s4 x hs4 =>
        by rw [State.guarantee_kept, hs4]) _
  exact OptKeeps.map (State.answerCommit_keeps hs3 rfl)
      fun s4 hs4 => by rw [State.startDue_kept, hs4]

@[simp] theorem execCommitResume_kept (s : State) (f) :
    Out.kept (execCommitResume f s) = some s.kept := by
  unfold execCommitResume
  extract_lets rest
  have hrest : rest.kept = s.kept := State.takeFrame_kept ..
  split
  · split
    · exact congrArg some (OptKeeps.getD (State.finishCommit_keeps hrest rfl) rfl)
    · exact congrArg some hrest
  · exact congrArg some hrest

@[simp] theorem State.endDrain_kept (s : State) :
    (s.endDrain).kept = s.kept := by
  unfold State.endDrain
  exact State.foldl_kept rfl (fun s1 x hs1 => by rw [State.modDie_kept, hs1]) _

@[simp] theorem State.dropCommit_kept (s : State) :
    (s.dropCommit).kept = s.kept := by
  unfold State.dropCommit
  rw [State.endDrain_kept, State.modShep_kept]

theorem State.commitOver_keeps {s : State} {κ} (hs : s.kept = κ) {c r}
    (e : s.commitOver c = r) : OptKeeps κ r := by
  subst e
  unfold State.commitOver
  extract_lets s1
  have hs1 : s1.kept = κ := by unfold s1; split <;> simp [hs]
  exact OptKeeps.map (State.answerCommit_keeps (by rw [State.dropCommit_kept, hs1]) rfl)
      fun s2 hs2 => by rw [State.startDue_kept, hs2]

@[simp] theorem execCommitDisarm_kept (s : State) (f) :
    Out.kept (execCommitDisarm f s) = some s.kept := by
  unfold execCommitDisarm
  extract_lets rest
  have hrest : rest.kept = s.kept := State.takeFrame_kept ..
  split
  · split
    · exact congrArg some (OptKeeps.getD (State.commitOver_keeps hrest rfl) rfl)
    · exact congrArg some hrest
  · exact congrArg some hrest

@[simp] theorem State.emptyL1_kept (s : State) (lc) :
    (s.emptyL1 lc).kept = s.kept := by
  unfold State.emptyL1
  extract_lets c sl s1
  have hs1 : s1.kept = s.kept := by
    unfold s1
    split
    · rfl
    · extract_lets clear
      have hclear : ∀ t0 x1, t0.kept = s.kept → (clear t0 x1).kept = s.kept := by
        intro s2 x1 hs2
        unfold clear
        rw [State.modDie_kept, hs2]
      refine State.foldl_kept rfl (fun s2 x hs2 => ?_) _
      split
      · apply hclear
        exact hs2
      · exact hs2
  rw [State.modCore_kept, hs1]

@[simp] theorem State.beatReset_kept (s : State) (p) :
    (s.beatReset p).kept = s.kept := rfl

@[simp] theorem State.repaired_kept (s : State) (p) :
    (s.repaired p).kept = s.kept := rfl

@[simp] theorem State.remap_kept (s : State) (lc new) :
    (s.remap lc new).kept = s.kept := by
  unfold State.remap
  extract_lets old s1 b s2 s3 s4 m st s5
  have hs1 : s1.kept = s.kept := by unfold s1; rw [State.modCore_kept, State.emptyL1_kept]
  clear_value s1
  have hs2 : s2.kept = s.kept := by
    unfold s2
    clear_value old
    split
    · exact hs1
    · extract_lets a s6 s7 m1
      have hs6 : s6.kept = s.kept := by unfold s6; rw [State.cpSet_kept, State.cpSet_kept, hs1]
      clear_value s6
      have hs7 : s7.kept = s.kept := by unfold s7; rw [State.cpSet_kept, State.cpSet_kept, hs6]
      clear_value s7
      clear_value a m1
      rw [State.modShep_kept, hs7]
  clear_value s2
  have hs3 : s3.kept = s.kept := (State.beatReset_kept ..).trans hs2
  clear_value s3
  have hs4 : s4.kept = s.kept := by
    unfold s4
    clear_value old
    split <;> simp [hs3]
  clear_value s4
  have hs5 : s5.kept = s.kept := (State.modShep_kept ..).trans hs4
  clear_value s5
  clear_value old b m st
  exact hs5

@[simp] theorem State.loseCore_kept (s : State) (lc) :
    (s.loseCore lc).kept = s.kept := by
  unfold State.loseCore
  split <;> simp

@[simp] theorem State.retireSlot_kept (s : State) (p) :
    (s.retireSlot p).kept = s.kept := by
  unfold State.retireSlot
  split <;> simp

@[simp] theorem State.resetQueues_kept (s : State) (base a) :
    (s.resetQueues base a).kept = s.kept := by
  induction a generalizing s base with
  | zero =>
    rw [State.resetQueues]
  | succ n' ih =>
    rw [State.resetQueues]
    split
    · rw [State.resetQueue_kept, ih]
    · rw [ih]

@[simp] theorem State.resetGroup_kept (s : State) (f) :
    (s.resetGroup f).kept = s.kept := by
  simp [State.resetGroup]

@[simp] theorem State.resetServed_kept (s : State) (u) :
    (s.resetServed u).kept = s.kept := by
  unfold State.resetServed
  split
  · rw [State.setUart_kept]
  · split
    · rw [State.setI2c_kept]
    · split <;> simp

@[simp] theorem State.clearSource_kept (s : State) (d i) :
    (s.clearSource d i).kept = s.kept := rfl

@[simp] theorem State.clearSources_kept (s : State) (a) :
    (s.clearSources a).kept = s.kept := by
  unfold State.clearSources
  refine State.foldl_kept rfl (fun s1 x hs1 => ?_) _
  refine State.foldl_kept hs1 (fun s2 x1 hs2 => ?_) _
  split <;> simp [hs2]

@[simp] theorem State.lpHandOver_kept (s : State) (k) :
    (s.lpHandOver k).kept = s.kept := by
  unfold State.lpHandOver
  exact State.foldl_kept (by rw [State.lpReset_kept]) (fun s1 x hs1 =>
      by rw [State.cpSet_kept, hs1]) _

@[simp] theorem State.resetCe_kept (s : State) (st) :
    (s.resetCe st).kept = s.kept := by
  unfold State.resetCe
  extract_lets s1 held s2
  have hs1 : s1.kept = s.kept := State.cpSet_kept ..
  have hs2 : s2.kept = s.kept :=
    State.foldl_kept (by rw [State.kept_mk, State.tb_pending, hs1]) (fun s3 x hs3 =>
        by rw [State.proxy_kept, hs3]) _
  refine State.foldl_kept hs2 (fun s3 x hs3 => ?_) _
  extract_lets a s4
  have hs4 : s4.kept = s.kept := (State.cpSetField_kept ..).trans hs3
  rw [State.modShep_kept, hs4]

@[simp] theorem State.resetUnit_kept (s : State) (a) :
    (s.resetUnit a).kept = s.kept := by
  unfold State.resetUnit
  extract_lets off i
  split
  · rw [State.resetGroup_kept]
  · rw [State.resetServed_kept, State.clearSources_kept]
  · rw [State.lpHandOver_kept]
  · rw [State.resetCe_kept, State.clearSources_kept]
  · split
    · split <;> simp
    · rfl
  · rfl

@[simp] theorem State.dropL1iRange_kept (s : State) (d lo hi) :
    (s.dropL1iRange d lo hi).kept = s.kept := by
  unfold State.dropL1iRange
  refine State.foldl_kept rfl (fun s1 x hs1 => ?_) _
  extract_lets ls
  split <;> simp [hs1]

@[simp] theorem State.waysChanged_kept (s : State) (d old new) :
    (s.waysChanged d old new).kept = s.kept := by
  unfold State.waysChanged
  extract_lets base s1 s2 gone s3
  have hs1 : s1.kept = s.kept := by
    unfold s1
    refine State.foldl_kept rfl (fun s4 x hs4 => ?_) _
    extract_lets inside s5
    have hs5 : s5.kept = s.kept := by unfold s5; rw [State.kept_mk, State.tb_pending, hs4]
    rw [State.dropL1iRange_kept, hs5]
  have hs2 : s2.kept = s.kept := by
    unfold s2
    split
    · exact State.foldl_kept hs1 (fun s4 x hs4 => by rw [State.abandon_kept, hs4]) _
    · exact hs1
  have hs3 : s3.kept = s.kept := by unfold s3; rw [State.kept_mk, State.tb_pending, hs2]
  rw [State.modDie_kept, hs3]

theorem State.logFlush_keeps {s : State} {κ} (hs : s.kept = κ) {v p r}
    (e : s.logFlush v p = r) : OptKeeps κ r := by
  subst e
  unfold State.logFlush
  refine OptKeeps.foldl ?_ ?_ _
  · rw [optKeeps_some]
    exact hs
  · intro o x ho
    refine OptKeeps.bind ?_ ?_
    · exact ho
    · intro s1 hs1
      refine OptKeeps.map ?_ ?_
      · exact State.logFlushLine_keeps hs1 rfl
      · intro s2 hs2
        rw [State.modFold_kept, hs2]

@[simp] theorem State.mirConfigured_kept (s : State) :
    (s.mirConfigured).kept = s.kept := by
  unfold State.mirConfigured
  extract_lets cfg s1
  have hs1 : s1.kept = s.kept := by unfold s1; split <;> simp
  split <;> simp [hs1]

@[simp] theorem State.remark_kept (s : State) :
    (s.remark).kept = s.kept := by
  unfold State.remark
  refine State.foldl_kept rfl (fun s1 x hs1 => ?_) _
  extract_lets a
  split
  rw [State.modMc_kept, hs1]

theorem State.switched_keeps {s : State} {κ} (hs : s.kept = κ) {o a r}
    (e : s.switched o a = r) : OptKeeps κ r := by
  subst e
  unfold State.switched
  extract_lets off old new rose s1 s2 s3 r v s4
  have hs1 : s1.kept = κ := by unfold s1; split <;> simp [hs]
  have hs2 : s2.kept = κ := by unfold s2; split <;> simp [hs1]
  have hs3 : s3.kept = κ := by
    unfold s3
    split
    · split <;> simp [hs2, hs1]
    · exact hs1
  have hs4 : s4.kept = κ := by unfold s4; split <;> exact hs3
  split
  · rw [optKeeps_some]
    split
    · exact State.foldl_kept hs3 (fun s5 x hs5 => by rw [State.cpSet_kept, hs5]) _
    · exact hs3
  · split
    · split
      · rw [optKeeps_some, State.waysChanged_kept, hs3]
      · split
        · split <;> simp [hs3]
        · exact hs3
    · exact hs3
  · split
    · split
      · exact State.logFlush_keeps hs3 rfl
      · split <;> simp [hs3]
    · exact hs3
  · split <;> simp [hs3]
  · rw [optKeeps_some]
    split <;> simp [hs3]
  · split <;> simp [hs3]
  · split
    · split
      · rw [optKeeps_some, State.cpSet_kept, State.startSwap_kept, hs3]
      · split <;> simp [hs3]
    · split
      · rw [optKeeps_some]
        split <;> simp [hs4]
      · exact hs3
  · exact hs3

theorem State.switchStation_keeps {s : State} {κ} (hs : s.kept = κ) {c st r}
    (e : s.switchStation c st = r) : OptKeeps κ r := by
  subst e
  unfold State.switchStation
  extract_lets es o s1 s2
  have ho : o.kept = κ := hs
  have hs1 : s1.kept = κ := (State.withEntries_kept ..).trans hs
  have hs2 : s2.kept = κ := by
    unfold s2
    split
    · split <;> simp [hs1]
    · split <;> simp [hs1]
    · exact hs1
  split
  · trivial
  · refine OptKeeps.foldl ?_ (fun o1 x ho1 => OptKeeps.bind ho1
        fun s3 hs3 => State.switched_keeps hs3 rfl) _
    exact hs2

@[simp] theorem State.commitAck_kept (s : State) (st) :
    (s.commitAck st).kept = s.kept := rfl

@[simp] theorem execQuiescentSwitch_kept (s : State) (st) :
    Out.kept (execQuiescentSwitch st s) = some s.kept := by
  unfold execQuiescentSwitch
  split
  · split
    · split
      · rfl
      · rename_i s1 e
        have hs1 : s1.kept = s.kept := State.switchStation_keeps rfl e
        rw [Out.kept_next, State.commitAck_kept, State.modCommit_kept, hs1]
    · rfl
  · rfl

theorem State.flushSub_keeps {s : State} {κ} (hs : s.kept = κ) {d line r}
    (e : s.flushSub d line = r) : OptKeeps κ r := by
  subst e
  unfold State.flushSub
  extract_lets u s1
  have hs1 : s1.kept = κ := by unfold s1; rw [State.setDt_kept, State.dropSub_kept, hs]
  split
  · exact hs
  · split
    · trivial
    · split <;> simp [hs1]

theorem State.flushRange_keeps {s : State} {κ} (hs : s.kept = κ) {x1 r}
    (e : s.flushRange x1 = r) : OptKeeps κ r := by
  subst e
  unfold State.flushRange
  extract_lets inside busy
  split
  · trivial
  · refine OptKeeps.foldl ?_ ?_ _
    · rw [optKeeps_some]
      exact hs
    · intro o x ho
      refine OptKeeps.bind ?_ ?_
      · exact ho
      · intro s1 hs1
        refine OptKeeps.foldl ?_ ?_ _
        · rw [optKeeps_some]
          exact hs1
        · intro o1 x2 ho1
          refine OptKeeps.bind ?_ ?_
          · exact ho1
          · intro s2 hs2
            refine OptKeeps.map ?_ ?_
            · exact State.flushSub_keeps hs2 rfl
            · intro s3 hs3
              rw [State.modDie_kept, hs3]

@[simp] theorem State.drainsDone_kept (s : State) (n) :
    (s.drainsDone n).kept = s.kept := by
  unfold State.drainsDone
  refine State.foldl_kept rfl (fun s1 x hs1 => ?_) _
  split <;> simp [hs1]

theorem State.flushWay_keeps {s : State} {κ} (hs : s.kept = κ) {d key r}
    (e : s.flushWay d key = r) : OptKeeps κ r := by
  subst e
  unfold State.flushWay
  extract_lets se
  split
  · exact hs
  · extract_lets o
    have ho : OptKeeps κ o := by
      unfold o
      refine OptKeeps.foldl ?_ (fun o1 x ho1 => OptKeeps.bind ho1
          fun s1 hs1 => State.flushSub_keeps hs1 rfl) _
      exact hs
    split
    · trivial
    · refine OptKeeps.map ho fun s1 hs1 => ?_
      extract_lets s2
      have hs2 : s2.kept = κ := by unfold s2; split <;> simp [hs1]
      rw [State.modDie_kept, hs2]

@[simp] theorem State.unlockExcess_kept (s : State) (d limit set) :
    (s.unlockExcess d limit set).kept = s.kept := by
  unfold State.unlockExcess
  extract_lets locked extra s1
  have hs1 : s1.kept = s.kept :=
    State.foldl_kept rfl (fun s2 x hs2 => by rw [State.modDie_kept, hs2]) _
  rw [State.count16_kept, hs1]

theorem State.drainDie_keeps {s : State} {κ} (hs : s.kept = κ) {new d r}
    (e : s.drainDie new d = r) : OptKeeps κ r := by
  subst e
  unfold State.drainDie
  extract_lets old taken o
  have ho : OptKeeps κ o := by
    unfold o
    refine OptKeeps.foldl ?_ (fun o1 x ho1 => ?_) _
    · exact hs
    · refine OptKeeps.bind ho1 fun s1 hs1 => ?_
      split
      · exact State.flushWay_keeps hs1 rfl
      · exact hs1
  refine OptKeeps.map ho fun s1 hs1 => ?_
  split
  · exact State.foldl_kept hs1 (fun s2 x hs2 => by rw [State.unlockExcess_kept, hs2]) _
  · exact hs1

theorem State.drainAll_keeps {s : State} {κ} (hs : s.kept = κ) {es r}
    (e : s.drainAll es = r) : OptKeeps κ r := by
  subst e
  unfold State.drainAll
  extract_lets n ranges o
  have hn : n.kept = κ := (State.withEntries_kept ..).trans hs
  have ho : OptKeeps κ o := by
    unfold o
    refine OptKeeps.foldl ?_ (fun o1 x ho1 => OptKeeps.bind ho1
        fun s1 hs1 => State.flushRange_keeps hs1 rfl) _
    exact hs
  refine OptKeeps.map ?_ fun s1 hs1 => by rw [State.drainsDone_kept, hs1]
  refine OptKeeps.foldl ho (fun o1 x ho1 => ?_) _
  refine OptKeeps.bind ho1 fun s1 hs1 => ?_
  split
  · exact hs1
  · exact State.drainDie_keeps hs1 rfl

@[simp] theorem State.armCommit_kept (s : State) (c) :
    (s.armCommit c).kept = s.kept := by
  unfold State.armCommit
  extract_lets sts todo s1
  have hs1 : s1.kept = s.kept := State.modCommit_kept ..
  split <;> simp [hs1]

@[simp] theorem execCommitDrainEnd_kept (s : State) :
    Out.kept (execCommitDrainEnd s) = some s.kept := by
  unfold execCommitDrainEnd
  split
  · rfl
  · extract_lets rest
    split
    · rfl
    · split
      · rfl
      · split
        · rfl
        · rename_i s1 e
          have hs1 : s1.kept = s.kept := State.drainAll_keeps rfl e
          rw [Out.kept_next, State.armCommit_kept, hs1]

@[simp] theorem State.stopRecord_kept (s : State) (cause st txid addr q) :
    (s.stopRecord cause st txid addr q).kept = s.kept := by
  unfold State.stopRecord
  extract_lets a own s1
  have hs1 : s1.kept = s.kept := State.cpSet_kept ..
  rw [State.cpSet64_kept, hs1]

@[simp] theorem State.abortStages_kept (s : State) (failed) :
    (s.abortStages failed).kept = s.kept := by
  unfold State.abortStages
  refine State.foldl_kept rfl (fun s1 x hs1 => ?_) _
  split <;> simp [hs1]

@[simp] theorem State.stopCommit_kept (s : State) :
    (s.stopCommit).kept = s.kept := by
  unfold State.stopCommit
  split
  · rfl
  · extract_lets sent s1 st
    have hs1 : s1.kept = s.kept := by unfold s1; split <;> simp
    rw [State.modShep_kept, State.endDrain_kept, hs1]

@[simp] theorem State.pins_kept (s : State) :
    (s.pins).kept = s.kept := rfl

@[simp] theorem State.haltWhere_kept (s : State) (h p) :
    (s.haltWhere h p).kept = s.kept := by
  unfold State.haltWhere
  refine State.foldl_kept rfl (fun s1 x hs1 => ?_) _
  split <;> simp [hs1]

@[simp] theorem State.cds_kept (s : State) (cause st txid addr) :
    (s.cds cause st txid addr).kept = s.kept := by
  unfold State.cds
  extract_lets s1 failed s2 s3 s4
  have hs1 : s1.kept = s.kept :=
    State.foldl_kept rfl (fun s5 x hs5 =>
        by rw [State.homeStop_kept, State.stopRecord_kept, hs5]) _
  have hs2 : s2.kept = s.kept := by unfold s2; rw [State.abortStages_kept, State.stopCommit_kept, hs1]
  have hs3 : s3.kept = s.kept := by unfold s3; rw [State.pcieError_kept, State.freeze_kept, hs2]
  have hs4 : s4.kept = s.kept := (State.modShep_kept ..).trans hs3
  split
  · rfl
  · rw [State.pins_kept, State.haltWhere_kept, State.kept_mk, State.tb_pending, hs4]

@[simp] theorem execCommitAckTimeout_kept (s : State) :
    Out.kept (execCommitAckTimeout s) = some s.kept := by
  unfold execCommitAckTimeout
  split
  · split <;> simp
  · rfl

@[simp] theorem execSnapshot_kept (s : State) (f) :
    Out.kept (execSnapshot f s) = some s.kept := by
  unfold execSnapshot
  split <;> simp

@[simp] theorem State.latchGroup_kept (s : State) (t g) :
    (State.latchGroup t s g).kept = s.kept := by
  unfold State.latchGroup
  split <;> simp

@[simp] theorem execSnapshotInstant_kept (s : State) (t) :
    Out.kept (execSnapshotInstant t s) = some (s.advance t).kept := by
  unfold execSnapshotInstant
  extract_lets s1 src s2 src1 s3
  have hs1 : s1.kept = (s.advance t).kept := rfl
  have hs2 : s2.kept = (s.advance t).kept := by unfold s2; rw [State.kept_mk, State.tb_pending, hs1]
  have hs3 : s3.kept = (s.advance t).kept := by unfold s3; rw [State.kept_mk, State.tb_pending, hs2]
  split
  · split
    · exact congrArg some hs2
    · exact congrArg some (State.foldl_kept hs3 (fun s4 x hs4 => by rw [State.latchGroup_kept, hs4]) _)
  · exact congrArg some hs1

@[simp] theorem execSnapshotGather_kept (s : State) (group st) :
    Out.kept (execSnapshotGather group st s) = some s.kept := by
  unfold execSnapshotGather
  extract_lets x
  split
  · rfl
  · split
    · rfl
    · split
      · rfl
      · extract_lets left
        rfl

@[simp] theorem execReportSlot_kept (s : State) (f) :
    Out.kept (execReportSlot f s) = some s.kept := by
  unfold execReportSlot
  extract_lets rest
  have hrest : rest.kept = s.kept := State.takeFrame_kept ..
  split
  · exact congrArg some hrest
  · split <;> simp [hrest]

@[simp] theorem State.wcRoom_kept (s : State) :
    (s.wcRoom).kept = s.kept := by
  unfold State.wcRoom
  extract_lets l old
  split <;> simp

theorem State.countWindow_kept {s : State} {κ} (hs : s.kept = κ) {cls key r}
    (e : s.countWindow cls key = r) : r.2.kept = κ := by
  subst e
  unfold State.countWindow
  extract_lets k mine w s1
  have hs1 : s1.kept = κ := (State.wcRoom_kept ..).trans hs
  split
  · exact hs
  · cases List.find? mine s.shep.wcs with
    | none => exact (State.modShep_kept ..).trans ((State.modShep_kept ..).trans hs1)
    | some w => exact (State.modShep_kept ..).trans hs

@[simp] theorem State.modLog_kept (s : State) (f) :
    (s.modLog f).kept = s.kept := rfl

@[simp] theorem State.freezeLoupes_kept (s : State) :
    (s.freezeLoupes).kept = s.kept := by
  unfold State.freezeLoupes
  refine State.foldl_kept rfl (fun s1 x hs1 => ?_) _
  split
  · rw [State.cpSetField_kept, State.lpStop_kept, hs1]
  · exact hs1

@[simp] theorem State.addRecord_kept (s : State) (x1) :
    (s.addRecord x1).kept = s.kept := by
  unfold State.addRecord
  extract_lets idx r
  split
  · rw [State.count16_kept]
  · extract_lets s1 s2
    have hs1 : s1.kept = s.kept := by unfold s1; rw [State.cpSet_kept, State.modShep_kept]
    have hs2 : s2.kept = s.kept := by unfold s2; split <;> simp [hs1]
    rw [State.pins_kept]
    split <;> simp [hs2]

@[simp] theorem State.removeFor_kept (s : State) (st) :
    (s.removeFor st).kept = s.kept := by
  unfold State.removeFor
  split <;> rw [State.modShep_kept]

@[simp] theorem State.partHalt_kept (s : State) (p) :
    (s.partHalt p).kept = s.kept := by
  unfold State.partHalt
  refine State.foldl_kept rfl (fun s1 x hs1 => ?_) _
  split <;> simp [hs1]

@[simp] theorem State.beginReset_kept (s : State) (x) :
    (s.beginReset x).kept = s.kept := by
  simp [State.beginReset]

@[simp] theorem State.retest_kept (s : State) (lc) :
    (s.retest lc).kept = s.kept := by
  unfold State.retest
  split <;> simp

@[simp] theorem State.react_kept (s : State) (lc) :
    (s.react lc).kept = s.kept := by
  unfold State.react
  extract_lets p r run s1 s2 s3
  have hs1 : s1.kept = s.kept := by unfold s1; split <;> simp
  have hs2 : s2.kept = s.kept := by unfold s2; split <;> simp [hs1]
  have hs3 : s3.kept = s.kept := by unfold s3; split <;> simp
  split
  · rw [State.retest_kept, hs2]
  · split
    · rw [State.retest_kept, State.unhalt_kept]
    · split <;> simp [hs3]

@[simp] theorem State.enqueue_kept (s : State) (d) :
    (s.enqueue d).kept = s.kept := by
  unfold State.enqueue
  rw [State.startDue_kept, State.modShep_kept]

@[simp] theorem State.stageSwap_kept (s : State) (st w) :
    (s.stageSwap st w).kept = s.kept := by
  unfold State.stageSwap
  split
  · rfl
  · split
    · split <;> simp
    · rfl

@[simp] theorem State.classAction_kept (s : State) (cls source loc d0 crit) :
    (s.classAction cls source loc d0 crit).kept = s.kept := by
  unfold State.classAction
  extract_lets src again s1 s2
  have hs1 : s1.kept = s.kept := State.modShep_kept ..
  have hs2 : s2.kept = s.kept := by unfold s2; split <;> simp [hs1]
  split
  · rw [State.cds_kept, hs2]
  · split
    · split <;> simp
    · split
      · rw [State.cds_kept, State.removeFor_kept]
      · split
        · rw [State.cds_kept, State.removeFor_kept]
        · split
          · rw [State.cds_kept]
            split <;> simp
          · split
            · rw [State.cds_kept]
            · repeat' split
              all_goals simp

@[simp] theorem State.swapCore_kept (s : State) (lc) :
    (s.swapCore lc).kept = s.kept := by
  unfold State.swapCore
  split <;> simp

@[simp] theorem State.onFill_kept (s : State) (cls source) :
    (s.onFill cls source).kept = s.kept := by
  unfold State.onFill
  split
  · split <;> simp
  · split
    · split <;> simp
    · split
      · split <;> simp
      · rfl

@[simp] theorem State.collect_kept (s : State) (rep cls source merged loc d0 d1 t crit) :
    (s.collect rep cls source merged loc d0 d1 t crit).kept = s.kept := by
  unfold State.collect
  split
  rename_i ok s1 e
  have hs1 : s1.kept = s.kept := State.countWindow_kept rfl e
  extract_lets sev0 sev b s2 was s3 s4
  have hs2 : s2.kept = s.kept := by unfold s2; split <;> simp [hs1]
  have hs3 : s3.kept = s.kept := (State.classAction_kept ..).trans hs2
  have hs4 : s4.kept = s.kept := by unfold s4; split <;> simp [hs3]
  rw [State.pins_kept]
  split <;> simp [hs4]

@[simp] theorem State.readSlot_kept (s : State) (rep cls) :
    (s.readSlot rep cls).kept = s.kept := by
  unfold State.readSlot
  extract_lets a w crit loc d0 d1 t s1
  have hs1 : s1.kept = s.kept := State.cpSet_kept ..
  split <;> simp [hs1]

@[simp] theorem State.ackArrived_kept (s : State) (st num) :
    (s.ackArrived st num).kept = s.kept := by
  unfold State.ackArrived
  split
  · split <;> simp
  · rfl

@[simp] theorem execReport_kept (s : State) (f) :
    Out.kept (execReport f s) = some s.kept := by
  unfold execReport
  extract_lets rest st
  have hrest : rest.kept = s.kept := State.takeFrame_kept ..
  split
  · exact congrArg some hrest
  · split <;> simp [hrest]

@[simp] theorem State.loseFrame_kept (s : State) (f ringA) :
    (s.loseFrame f ringA).kept = s.kept := rfl

theorem State.cancelCommit_keeps {s : State} {κ} (hs : s.kept = κ) {c status r}
    (e : s.cancelCommit c status = r) : OptKeeps κ r := by
  subst e
  unfold State.cancelCommit
  extract_lets c1
  split
  · rw [optKeeps_some, State.commitFrame_kept, State.modCommit_kept, hs]
  · exact State.commitOver_keeps hs rfl

theorem State.unreachable_keeps {s : State} {κ} (hs : s.kept = κ) {st r}
    (e : s.unreachable st = r) : OptKeeps κ r := by
  subst e
  unfold State.unreachable
  refine OptKeeps.foldl ?_ (fun o x ho => ?_) _
  · exact hs
  · refine OptKeeps.bind ho fun s1 hs1 => ?_
    split
    · exact hs1
    · exact State.answerShep_keeps (by rw [State.modShep_kept, hs1]) rfl

@[simp] theorem execCpFrameTimeout_kept (s : State) (late backA backB) :
    Out.kept (execCpFrameTimeout late backA backB s) = some s.kept := by
  unfold execCpFrameTimeout
  extract_lets f st n s1 s11 s12 out
  have hs1 : s1.kept = s.kept := by unfold s1; rw [State.modShep_kept, State.loseFrame_kept]
  have hs11 : s11.kept = s.kept := by unfold s11; rw [State.loseFrame_kept, State.loseFrame_kept]
  have hs12 : s12.kept = s.kept := by unfold s12; rw [State.report_kept, State.modShep_kept, hs11]
  have hout : ∀ t0, t0.kept = s.kept → OptKeeps s.kept (out t0) := by
    intro s2 hs2
    unfold out
    split
    · split
      · exact State.cancelCommit_keeps hs2 rfl
      · exact hs2
    · exact hs2
  split
  · rfl
  · split
    · split <;> simp [hs1]
    · split
      · rw [Out.kept_next, State.sendFrame_kept, State.modShep_kept, hs11]
      · refine congrArg some ?_
        refine OptKeeps.getD ?_ rfl
        refine OptKeeps.bind (State.unreachable_keeps hs12 rfl) fun s2 hs2 => ?_
        apply hout
        exact hs2

@[simp] theorem State.auditFails_kept (s : State) (no st) :
    (s.auditFails no st).kept = s.kept := by
  unfold State.auditFails
  rw [State.cds_kept, State.report_kept, State.cpSetField_kept]

end Sys2Proof.Machine

end

