-- ==== Sys2Proof/Proofs/KeptPackage.lean ====
section
/-! SUPPORT. TB_NOW and the queue over the commands of the package: resets, rails, sheds, PCIe. -/

namespace Sys2Proof.Machine

@[simp] theorem execAuditLatch_kept (s : State) (a) :
    Out.kept (execAuditLatch a s) = some (s.advance a.t).kept := by
  unfold execAuditLatch
  extract_lets s1 r s2
  have hs1 : s1.kept = (s.advance a.t).kept := rfl
  have hs2 : s2.kept = (s.advance a.t).kept := (State.cpSetField_kept ..).trans hs1
  split
  · exact congrArg some hs1
  · split
    · rw [Out.kept_next, State.auditFails_kept, hs2]
    · split <;> simp [hs2]

@[simp] theorem State.closeWindow_kept (s : State) (lc) :
    (s.closeWindow lc).kept = s.kept := by
  unfold State.closeWindow
  extract_lets c
  split
  · rfl
  · extract_lets sig close x
    rw [State.modShep_kept, State.modCore_kept]

@[simp] theorem State.letGo_kept (s : State) (d sectors) :
    (s.letGo d sectors).kept = s.kept := by
  unfold State.letGo
  exact State.foldl_kept rfl (fun s1 x hs1 => by rw [State.modDie_kept, hs1]) _

@[simp] theorem State.freeWindow_kept (s : State) (lc sectors) :
    (s.freeWindow lc sectors).kept = s.kept := by
  unfold State.freeWindow
  split <;> simp

@[simp] theorem State.duty_kept (s : State) (res l i) :
    (s.duty res l i).kept = s.kept := by
  unfold State.duty
  refine State.foldl_kept rfl (fun s1 x hs1 => ?_) _
  split
  · extract_lets s2
    have hs2 : s2.kept = s.kept := by unfold s2; rw [State.countAt_kept, State.freeWindow_kept, hs1]
    split
    · exact hs1
    · split <;> simp [hs2, hs1]
  · exact hs1

@[simp] theorem State.openWindow_kept (s : State) (lc i) :
    (s.openWindow lc i).kept = s.kept := by
  unfold State.openWindow
  split <;> simp

@[simp] theorem State.dropReqs_kept (s : State) (lc) :
    (s.dropReqs lc).kept = s.kept := rfl

@[simp] theorem State.coreReset_kept (s : State) (lc) :
    (s.coreReset lc).kept = s.kept := by
  unfold State.coreReset
  extract_lets s1 s2
  have hs1 : s1.kept = s.kept := by unfold s1; rw [State.dropReqs_kept, State.emptyL1_kept]
  have hs2 : s2.kept = s.kept := by unfold s2; split <;> simp [hs1]
  rw [State.modCore_kept, hs2]

@[simp] theorem State.startBist_kept (s : State) (lc) :
    (s.startBist lc).kept = s.kept := by
  unfold State.startBist
  split <;> simp

@[simp] theorem State.target_kept (s : State) (res l i) :
    (s.target res l i).kept = s.kept := by
  unfold State.target
  extract_lets front lc s1
  have hs1 : s1.kept = s.kept := by
    unfold s1
    clear_value front
    split <;> simp
  clear_value s1
  clear_value front lc
  split
  · exact hs1
  · extract_lets c
    clear_value c
    split
    · exact hs1
    · split
      · rw [State.openWindow_kept, hs1]
      · split <;> simp [hs1]

@[simp] theorem execReflSlot_kept (s : State) (t) :
    Out.kept (execReflSlot t s) = some (s.advance t).kept := by
  unfold execReflSlot
  extract_lets s1 i s2 s3 s4 lists s5
  have hs1 : s1.kept = (s.advance t).kept := rfl
  have hs2 : s2.kept = (s.advance t).kept := by unfold s2; split <;> simp [hs1]
  have hs3 : s3.kept = (s.advance t).kept := by
    unfold s3
    refine State.foldl_kept hs2 (fun s6 x hs6 => ?_) _
    split <;> simp [hs6]
  have hs4 : s4.kept = (s.advance t).kept := by
    unfold s4
    refine State.foldl_kept hs3 (fun s6 x hs6 => ?_) _
    split
    · split
      · split <;> simp [hs6]
      · exact hs6
    · exact hs6
  have hs5 : s5.kept = (s.advance t).kept :=
    State.foldl_kept hs4 (fun s6 x hs6 => by rw [State.duty_kept, hs6]) _
  split
  · exact congrArg some hs1
  · exact congrArg some (State.foldl_kept hs5 (fun s6 x hs6 => by rw [State.target_kept, hs6]) _)

@[simp] theorem execWindowEnd_kept (s : State) (lc why) :
    Out.kept (execWindowEnd lc why s) = some s.kept := by
  unfold execWindowEnd
  extract_lets c
  split
  · rfl
  · extract_lets reached
    split <;> simp

@[simp] theorem State.endReplay_kept (s : State) (x1) :
    (s.endReplay x1).kept = s.kept := by
  unfold State.endReplay
  split <;> simp

@[simp] theorem State.charged_kept (s : State) (target lc k) :
    (s.charged target lc k).kept = s.kept := by
  unfold State.charged
  split <;> rw [State.report_kept]

@[simp] theorem execReplayClose_kept (s : State) (die slot sig icount) :
    Out.kept (execReplayClose die slot sig icount s) = some s.kept := by
  unfold execReplayClose
  extract_lets k
  split
  · rfl
  · split
    · rw [Out.kept_next, State.endReplay_kept]
    · extract_lets agrees s1 s2
      have hs1 : s1.kept = s.kept := by unfold s1; split <;> simp
      have hs2 : s2.kept = s.kept := (State.endReplay_kept ..).trans hs1
      split
      · split
        · rw [Out.kept_next, State.endReplay_kept, hs1]
        · split
          · rw [Out.kept_next, State.charged_kept, State.endReplay_kept, hs1]
          · extract_lets r2
            rw [Out.kept_next, State.modShep_kept, hs1]
      · split
        · rw [Out.kept_next, State.charged_kept, hs2]
        · split <;> simp [hs2]

@[simp] theorem State.safePin_kept (s : State) (level) :
    (s.safePin level).kept = s.kept := by
  unfold State.safePin
  extract_lets was s1
  have hs1 : s1.kept = s.kept := State.modShep_kept ..
  split <;> simp [hs1]

@[simp] theorem execSafeN_kept (s : State) (level) :
    Out.kept (execSafeN level s) = some s.kept := by
  unfold execSafeN
  split <;> simp

@[simp] theorem execHeartbeatToggle_kept (s : State) (t) :
    Out.kept (execHeartbeatToggle t s) = some (s.advance t).kept := by
  unfold execHeartbeatToggle
  extract_lets s1
  have hs1 : s1.kept = (s.advance t).kept := rfl
  split
  · exact congrArg some hs1
  · split <;> rw [Out.kept_next, State.modShep_kept, hs1]

@[simp] theorem State.bootFw_kept (s : State) (slot) :
    (s.bootFw slot).kept = s.kept := by
  simp [State.bootFw]

@[simp] theorem execLockstepMismatch_kept (s : State) :
    Out.kept (execLockstepMismatch s) = some s.kept := by
  unfold execLockstepMismatch
  extract_lets s1 s2 ran
  have hs1 : s1.kept = s.kept := State.cds_kept ..
  have hs2 : s2.kept = s.kept := (State.modShep_kept ..).trans hs1
  split
  · rfl
  · split <;> simp [hs2]

@[simp] theorem State.restartHome_kept (s : State) (q) :
    (s.restartHome q).kept = s.kept := by
  unfold State.restartHome
  rw [State.modHome_kept, State.mcFinish_kept]

@[simp] theorem State.clearDomain_kept (s : State) :
    (s.clearDomain).kept = s.kept := by
  unfold State.clearDomain
  extract_lets s1 cores src src1 src2
  have hs1 : s1.kept = s.kept :=
    State.foldl_kept rfl (fun s2 x hs2 => by rw [State.restartHome_kept, hs2]) _
  clear_value s1
  clear_value cores src src1 src2
  exact hs1

@[simp] theorem State.mapAway_kept (s : State) (lc k) :
    (s.mapAway lc k).kept = s.kept := by
  unfold State.mapAway
  split <;> simp

@[simp] theorem State.fenceFor_kept (s : State) (d) :
    (s.fenceFor d).kept = s.kept := by
  unfold State.fenceFor
  extract_lets s1
  have hs1 : s1.kept = s.kept := State.fence_kept ..
  exact State.foldl_kept hs1 (fun s2 x hs2 => by rw [State.mapAway_kept, hs2]) _

@[simp] theorem State.applyStore_kept (s : State) :
    (s.applyStore).kept = s.kept := by
  simp [State.applyStore]

@[simp] theorem State.freeMboxes_kept (s : State) (p) :
    (s.freeMboxes p).kept = s.kept := rfl

@[simp] theorem State.partsStopped_kept (s : State) :
    (s.partsStopped).kept = s.kept := rfl

@[simp] theorem State.resetAllQueues_kept (s : State) :
    (s.resetAllQueues).kept = s.kept := by
  unfold State.resetAllQueues
  exact State.foldl_kept rfl (fun s1 x hs1 => by rw [State.resetGroup_kept, hs1]) _

@[simp] theorem State.startCore_kept (s : State) (lc lvl world pid pc g1) :
    (s.startCore lc lvl world pid pc g1).kept = s.kept := by
  simp [State.startCore]

@[simp] theorem State.startM_kept (s : State) :
    (s.startM).kept = s.kept := by
  unfold State.startM
  split
  · rfl
  · split
    · extract_lets lc
      split
      · rfl
      · split
        rename_i x0 s1 e
        have hs1 : s1.kept = s.kept := State.takeFree_kept rfl e
        extract_lets s2
        have hs2 : s2.kept = s.kept := (State.startCore_kept ..).trans hs1
        rw [State.modShep_kept, hs2]
    · rfl

@[simp] theorem State.restartSteps_kept (s : State) :
    (s.restartSteps).kept = s.kept := by
  unfold State.restartSteps
  extract_lets s1 resets owed s2 s3 s4 s5 s6 s7 s8 s9 s10 s11
  have hs1 : s1.kept = s.kept := by unfold s1; split <;> simp
  have hs2 : s2.kept = s.kept := (State.clearDomain_kept ..).trans hs1
  have hs3 : s3.kept = s.kept := by unfold s3; split <;> simp [hs2]
  have hs4 : s4.kept = s.kept := (State.applyStore_kept ..).trans hs3
  have hs5 : s5.kept = s.kept := by
    unfold s5
    refine State.foldl_kept hs4 (fun s12 x hs12 => ?_) _
    split <;> simp [hs12]
  have hs6 : s6.kept = s.kept :=
    State.foldl_kept hs5 (fun s12 x hs12 => by rw [State.cpSetField_kept, hs12]) _
  have hs7 : s7.kept = s.kept := by
    unfold s7
    rw [State.modFold_kept]
    refine State.foldl_kept hs6 (fun s12 x hs12 => ?_) _
    exact OptKeeps.getD (State.logFlushLine_keeps hs12 rfl) hs12
  have hs8 : s8.kept = s.kept := by unfold s8; rw [State.freeMboxes_kept, State.partsStopped_kept,
      State.resetAllQueues_kept, hs7]
  have hs9 : s9.kept = s.kept := by unfold s9; rw [State.modShep_kept, State.cpSet_kept, hs8]
  have hs10 : s10.kept = s.kept := by unfold s10; rw [State.markDomains_kept, State.rebuildLists_kept,
      State.guarantees_kept, State.kept_mk, State.tb_pending, hs9]
  have hs11 : s11.kept = s.kept := by unfold s11; rw [State.pins_kept, State.startM_kept, hs10]
  rw [State.startDue_kept]
  refine State.foldl_kept hs11 (fun s12 x hs12 => ?_) _
  exact OptKeeps.getD (State.answerShep_keeps hs12 rfl) hs12

@[simp] theorem execDomainRestart_kept (s : State) :
    Out.kept (execDomainRestart s) = some s.kept := by
  unfold execDomainRestart
  split <;> simp

@[simp] theorem State.modMir_kept (s : State) (f) :
    (s.modMir f).kept = s.kept := rfl

@[simp] theorem State.mirFault_kept (s : State) (severe) :
    (s.mirFault severe).kept = s.kept := by
  unfold State.mirFault
  rw [State.report_kept]

@[simp] theorem State.startBase_kept (s : State) :
    (s.startBase).kept = s.kept := by
  unfold State.startBase
  rw [State.modMir_kept, State.setMirState_kept]

@[simp] theorem State.pairUp_kept (s : State) (held) :
    (s.pairUp held).kept = s.kept := by
  unfold State.pairUp
  split
  · rw [State.setMirState_kept]
  · split <;> simp

@[simp] theorem State.judge_kept (s : State) (u) :
    (s.judge u).kept = s.kept := by
  unfold State.judge
  extract_lets w theirs st same x s1 mine
  have hs1 : s1.kept = s.kept := by unfold s1; split <;> simp
  split
  · split
    · rw [State.mirFault_kept, hs1]
    · split <;> simp [hs1]
  · split
    · rw [State.pairUp_kept]
    · split
      · rw [State.startBase_kept]
      · split <;> simp

@[simp] theorem execHb_kept (s : State) (u) :
    Out.kept (execHb u s) = some s.kept := by
  unfold execHb
  split <;> simp

@[simp] theorem State.mirSend_kept (s : State) (u) :
    (s.mirSend u).kept = s.kept := rfl

theorem State.applyLine_keeps {s : State} {κ} (hs : s.kept = κ) {u r}
    (e : s.applyLine u = r) : OptKeeps κ r := by
  subst e
  unfold State.applyLine
  extract_lets line
  split
  · trivial
  · rename_i x s1 e
    have hs1 : s1.kept = κ := State.hubWrite_keeps hs e
    extract_lets s2
    have hs2 : s2.kept = κ := (State.modMir_kept ..).trans hs1
    rw [optKeeps_some]
    split <;> simp [hs2]
  · rename_i s1 e
    have hs1 : s1.kept = κ := State.hubWrite_keeps hs e
    exact hs1
  · rename_i s1 e
    have hs1 : s1.kept = κ := State.hubWrite_keeps hs e
    exact hs1

theorem State.applyHalf_keeps {s : State} {κ} (hs : s.kept = κ) {epoch half r}
    (e : s.applyHalf epoch half = r) : OptKeeps κ r := by
  subst e
  unfold State.applyHalf
  refine OptKeeps.map ?_ fun s1 hs1 => ?_
  · refine OptKeeps.foldl ?_ (fun o x ho => OptKeeps.bind ho
        fun s1 hs1 => State.applyLine_keeps hs1 rfl) _
    exact hs
  · extract_lets s2 s3
    have hs2 : s2.kept = κ := (State.modMir_kept ..).trans hs1
    have hs3 : s3.kept = κ := by unfold s3; rw [State.cpSet_kept, State.cpSet_kept, hs2]
    rw [State.mirSend_kept, hs3]

@[simp] theorem State.partCore_kept (s : State) (lc) :
    (s.partCore lc).kept = s.kept := by
  simp [State.partCore]

@[simp] theorem State.partSources_kept (s : State) (p) :
    (s.partSources p).kept = s.kept := by
  unfold State.partSources
  refine State.foldl_kept rfl (fun s1 x hs1 => ?_) _
  refine State.foldl_kept hs1 (fun s2 x1 hs2 => ?_) _
  extract_lets i o
  split <;> simp [hs2]

@[simp] theorem State.setPart_kept (s : State) (p v) :
    (s.setPart p v).kept = s.kept := rfl

@[simp] theorem State.partReset_kept (s : State) (p) : (s.partReset p).kept = s.kept := by
  refine (congrArg State.kept (congrFun (congrFun (by delta State.partReset; exact rfl) s) p)).trans ?_
  extract_lets s1 s2
  have hs1 : s1.kept = s.kept :=
    State.foldl_kept rfl (fun t x ht => (State.partCore_kept ..).trans ht) _
  have hs2 : s2.kept = s.kept :=
    (State.freeMboxes_kept ..).trans ((State.partSources_kept ..).trans hs1)
  split
  · exact (State.setPart_kept ..).trans hs2
  · exact hs2

@[simp] theorem State.loadCkpt_kept (s : State) (u) :
    (s.loadCkpt u).kept = s.kept := by
  unfold State.loadCkpt
  split
  · extract_lets lc pid s1 s2 src s3 s4
    have hs1 : s1.kept = s.kept := by
      unfold s1
      split
      · split <;> simp
      · rfl
    have hs2 : s2.kept = s.kept := by unfold s2; rw [State.dropReqs_kept, State.emptyL1_kept, hs1]
    have hs3 : s3.kept = s.kept := (State.modCore_kept ..).trans hs2
    have hs4 : s4.kept = s.kept := (State.modShep_kept ..).trans hs3
    split
    · rfl
    · split <;> simp [hs4]
  · rfl

theorem State.takeover_keeps {s : State} {κ} (hs : s.kept = κ) {r}
    (e : s.takeover = r) : OptKeeps κ r := by
  subst e
  unfold State.takeover
  extract_lets o
  have ho : OptKeeps κ o := by
    unfold o
    split
    · exact State.applyHalf_keeps hs rfl
    · exact hs
  refine OptKeeps.map ho fun s1 hs1 => ?_
  extract_lets s2 s3 s4 s5
  have hs2 : s2.kept = κ := (State.modMir_kept ..).trans hs1
  have hs3 : s3.kept = κ :=
    State.foldl_kept hs2 (fun s6 x hs6 => by rw [State.loadCkpt_kept, hs6]) _
  have hs4 : s4.kept = κ := (State.cpSet_kept ..).trans hs3
  have hs5 : s5.kept = κ := by unfold s5; rw [State.setMirState_kept, State.cpSetField_kept, hs4]
  rw [State.mirFault_kept, State.modMir_kept, hs5]

@[simp] theorem State.tryTakeover_kept (s : State) :
    (s.tryTakeover).kept = s.kept := by
  unfold State.tryTakeover
  exact OptKeeps.getD (State.takeover_keeps rfl rfl) rfl

@[simp] theorem execHbSend_kept (s : State) (t) :
    Out.kept (execHbSend t s) = some (s.advance t).kept := by
  unfold execHbSend
  extract_lets s1 s2
  have hs1 : s1.kept = (s.advance t).kept := rfl
  have hs2 : s2.kept = (s.advance t).kept := by unfold s2; split <;> simp [hs1]
  split
  · exact congrArg some hs1
  · refine congrArg some ?_
    split <;> simp [hs2]

@[simp] theorem State.partnerLost_kept (s : State) (pin) :
    (s.partnerLost pin).kept = s.kept := by
  unfold State.partnerLost
  extract_lets x s1 s2
  have hs1 : s1.kept = s.kept := State.modMir_kept ..
  have hs2 : s2.kept = s.kept := by unfold s2; rw [State.cpSet_kept, State.unhaltAll_kept, hs1]
  split
  · split
    · rw [State.mirFault_kept, State.setMirState_kept]
    · split <;> simp
  · split
    · split <;> rw [State.setMirState_kept, hs2]
    · rfl

@[simp] theorem execHbMiss_kept (s : State) (t) :
    Out.kept (execHbMiss t s) = some (s.advance t).kept := by
  unfold execHbMiss
  extract_lets s1 n s2
  have hs1 : s1.kept = (s.advance t).kept := rfl
  have hs2 : s2.kept = (s.advance t).kept := (State.cpSetField_kept ..).trans hs1
  split
  · exact congrArg some hs1
  · refine congrArg some ?_
    split <;> simp [hs2]

@[simp] theorem execPartnerFailure_kept (s : State) :
    Out.kept (execPartnerFailure s) = some s.kept := by
  unfold execPartnerFailure
  split <;> simp

@[simp] theorem execMirrorLinkDown_kept (s : State) :
    Out.kept (execMirrorLinkDown s) = some s.kept := rfl

@[simp] theorem State.shareLine_kept (s : State) (line) :
    (s.shareLine line).kept = s.kept := by
  unfold State.shareLine
  refine State.foldl_kept rfl (fun s1 x hs1 => ?_) _
  split
  · split
    rename_i a s2 e
    have hs2 : s2.kept = s.kept := State.snoopDie_kept hs1 e
    extract_lets s3
    have hs3 : s3.kept = s.kept := by unfold s3; split <;> simp [hs2]
    rw [State.setDt_kept, hs3]
  · exact hs1

@[simp] theorem State.cutSwitch_kept (s : State) (start) :
    (s.cutSwitch start).kept = s.kept := by
  unfold State.cutSwitch
  extract_lets s1 k s2 cks s3 s4
  have hs1 : s1.kept = s.kept :=
    State.foldl_kept rfl (fun s5 x hs5 =>
        State.foldl_kept hs5 (fun s6 x1 hs6 => by rw [State.shareLine_kept, hs6]) _) _
  have hs2 : s2.kept = s.kept := by unfold s2; split <;> simp [hs1]
  have hs3 : s3.kept = s.kept := (State.modMir_kept ..).trans hs2
  have hs4 : s4.kept = s.kept := by unfold s4; rw [State.cpSet_kept, State.cpSet_kept, hs3]
  rw [State.tryFire_kept, State.cpSetField_kept, State.unhaltAll_kept, hs4]

@[simp] theorem State.cutHalt_kept (s : State) :
    (s.cutHalt).kept = s.kept := by
  unfold State.cutHalt
  rw [State.modMir_kept, State.haltWhere_kept]

@[simp] theorem execCut_kept (s : State) (t) :
    Out.kept (execCut t s) = some (s.advance t).kept := by
  unfold execCut
  extract_lets s1 k x due
  have hs1 : s1.kept = (s.advance t).kept := rfl
  split
  · split <;> simp [hs1]
  · split
    · exact congrArg some hs1
    · split
      · exact congrArg some hs1
      · split
        · rw [Out.kept_next, State.count16_kept, hs1]
        · split <;> simp [hs1]

@[simp] theorem execEpochShip_kept (s : State) :
    Out.kept (execEpochShip s) = some s.kept := by
  unfold execEpochShip
  split
  · rfl
  · extract_lets pages units last s1
    have hs1 : s1.kept = s.kept := State.modMir_kept ..
    split <;> simp [hs1]

@[simp] theorem State.mirStage_kept (s : State) (u) :
    (s.mirStage u).kept = s.kept := rfl

@[simp] theorem execMirLine_kept (s : State) (u) :
    Out.kept (execMirLine u s) = some s.kept := by
  unfold execMirLine
  split
  · rfl
  · split
    · split
      · rename_i s1 e
        have hs1 : s1.kept = s.kept := State.applyLine_keeps rfl e
        rw [Out.kept_next, State.modMir_kept, hs1]
      · rfl
    · rw [Out.kept_next, State.mirStage_kept]

@[simp] theorem execCkpt_kept (s : State) (u) :
    Out.kept (execCkpt u s) = some s.kept := by
  unfold execCkpt
  split <;> simp

@[simp] theorem execMirEnd_kept (s : State) (u) :
    Out.kept (execMirEnd u s) = some s.kept := by
  unfold execMirEnd
  extract_lets h
  split
  · rfl
  · split
    · split
      · rename_i s1 e
        have hs1 : s1.kept = s.kept := State.applyHalf_keeps (by rw [State.mirStage_kept]) e
        refine congrArg some ?_
        split <;> simp [hs1]
      · rfl
    · rw [Out.kept_next, State.startBase_kept, State.mirFault_kept, State.modMir_kept]

@[simp] theorem execBaseEnd_kept (s : State) (u) :
    Out.kept (execBaseEnd u s) = some s.kept := by
  unfold execBaseEnd
  extract_lets h
  split
  · rfl
  · repeat' split
    all_goals simp

@[simp] theorem execMirAck_kept (s : State) (u) :
    Out.kept (execMirAck u s) = some s.kept := by
  unfold execMirAck
  extract_lets s1 s2
  have hs1 : s1.kept = s.kept := State.cpSet_kept ..
  have hs2 : s2.kept = s.kept := by unfold s2; split <;> simp [hs1]
  split <;> simp [hs2]

@[simp] theorem State.traceGap_kept (s : State) :
    (s.traceGap).kept = s.kept := by
  unfold State.traceGap
  refine State.foldl_kept rfl (fun s1 x hs1 => ?_) _
  split <;> simp [hs1]

@[simp] theorem State.forfeit_kept (s : State) :
    (s.forfeit).kept = s.kept := by
  unfold State.forfeit
  exact State.foldl_kept rfl (fun s1 x hs1 =>
      State.foldl_kept hs1 (fun s2 x1 hs2 => by rw [State.modPc_kept, hs2]) _) _

@[simp] theorem State.narrowAll_kept (s : State) :
    (s.narrowAll).kept = s.kept := by
  unfold State.narrowAll
  refine State.foldl_kept rfl (fun s1 x hs1 => ?_) _
  split
  · rw [State.modShep_kept, State.setNarrow_kept, hs1]
  · exact hs1

@[simp] theorem State.stageOn_kept (s : State) (n) :
    (s.stageOn n).kept = s.kept := by
  unfold State.stageOn
  extract_lets s1
  have hs1 : s1.kept = s.kept := State.cpSetField_kept ..
  split
  · rfl
  · split <;> simp [hs1]

@[simp] theorem State.engage_kept (s : State) (stage rail mv crossings) :
    (s.engage stage rail mv crossings).kept = s.kept := by
  unfold State.engage
  extract_lets dip dip1 s1
  have hs1 : s1.kept = s.kept := State.modShep_kept ..
  exact State.foldl_kept hs1 (fun s2 x hs2 => by rw [State.stageOn_kept, hs2]) _

@[simp] theorem State.railSample_kept (s : State) (rail mv) :
    (s.railSample rail mv).kept = s.kept := by
  simp [State.railSample]

@[simp] theorem State.writeFlash_kept (s : State) :
    (s.writeFlash).kept = s.kept := by
  unfold State.writeFlash
  rw [State.cpSetField_kept, State.modShep_kept]

@[simp] theorem execShedEngage_kept (s : State) (stage rail mv t) :
    Out.kept (execShedEngage stage rail mv t s) = some (s.advance t).kept := by
  unfold execShedEngage
  extract_lets s1 s2
  have hs1 : s1.kept = (s.advance t).kept := rfl
  have hs2 : s2.kept = (s.advance t).kept := by unfold s2; rw [State.engage_kept, State.railSample_kept, hs1]
  split
  · exact congrArg some hs1
  · split
    · exact congrArg some hs1
    · refine congrArg some ?_
      split <;> simp [hs2]

@[simp] theorem execShed5Delay_kept (s : State) (t) :
    Out.kept (execShed5Delay t s) = some (s.advance t).kept := by
  unfold execShed5Delay
  extract_lets s1
  have hs1 : s1.kept = (s.advance t).kept := rfl
  split
  · split <;> simp [hs1]
  · exact congrArg some hs1

@[simp] theorem State.ownRecord_kept (s : State) (cls source sev loc d0 d1) :
    (s.ownRecord cls source sev loc d0 d1).kept = s.kept := by
  unfold State.ownRecord
  split
  rename_i x0 s1 e
  have hs1 : s1.kept = s.kept := State.orFree_kept rfl e
  split
  rename_i x01 s2 e1
  have hs2 : s2.kept = s.kept := State.orFree_kept hs1 e1
  rw [State.addRecord_kept, hs2]

@[simp] theorem State.dipOver_kept (s : State) (d) :
    (s.dipOver d).kept = s.kept := by
  unfold State.dipOver
  extract_lets last s1 s2
  have hs1 : s1.kept = s.kept := by unfold s1; rw [State.count16_kept, State.cpSet64_kept]
  have hs2 : s2.kept = s.kept := (State.modShep_kept ..).trans hs1
  rw [State.ownRecord_kept, hs2]

@[simp] theorem execShedLift_kept (s : State) (stage t) :
    Out.kept (execShedLift stage t s) = some (s.advance t).kept := by
  unfold execShedLift
  extract_lets s1 n s2 s3
  have hs1 : s1.kept = (s.advance t).kept := rfl
  clear_value s1
  have hs2 : s2.kept = (s.advance t).kept := (State.cpSetField_kept ..).trans hs1
  clear_value s2
  have hs3 : s3.kept = (s.advance t).kept := by
    unfold s3
    clear_value n
    split
    · exact hs2
    · rw [State.admitAll_kept, State.kept_mk, State.tb_pending, hs2]
    · rw [State.shedCores_kept, hs2]
    · rw [State.modShep_kept]
      split <;> simp [hs2]
    · rw [State.guarantees_kept, State.settleStacks_kept, hs2]
  clear_value s3
  clear_value n
  split
  · exact congrArg some hs1
  · split <;> simp [hs3]

@[simp] theorem State.coldReset_kept (s : State) (cause rail) :
    (s.coldReset cause rail).kept = s.kept := rfl

theorem execSupplyReset_kept (s : State) (rail mv) (h : rail.val ≠ 5) :
    Out.kept (execSupplyReset rail mv s) = some s.kept := by
  unfold execSupplyReset
  split
  · rfl
  · exact congrArg some ((State.cpSetField_kept ..).trans ((State.cpSetField_kept ..).trans
        (State.coldReset_kept ..)))

@[simp] theorem State.repairMscs_kept (s : State) (b) :
    (s.repairMscs b).kept = s.kept := by
  unfold State.repairMscs
  exact State.foldl_kept rfl (fun s1 x hs1 => by rw [State.cpSetField_kept, hs1]) _

@[simp] theorem State.firstClasses_kept (s : State) :
    (s.firstClasses).kept = s.kept := by
  unfold State.firstClasses
  extract_lets s1
  have hs1 : s1.kept = s.kept := by unfold s1; rw [State.storeEntries_kept, State.withEntries_kept]
  split
  · rfl
  · rw [State.modShep_kept, hs1]

@[simp] theorem State.repairDies_kept (s : State) (b) :
    (s.repairDies b).kept = s.kept := by
  unfold State.repairDies
  exact State.foldl_kept rfl (fun s1 x hs1 => by rw [State.cpSetField_kept, hs1]) _

@[simp] theorem State.boot_kept (s : State) (b) :
    (s.boot b).kept = s.kept := by
  unfold State.boot
  extract_lets s1
  have hs1 : s1.kept = s.kept := State.repairMscs_kept ..
  split
  · rw [State.pins_kept, State.modShep_kept, State.kept_mk, State.tb_pending, hs1]
  · extract_lets s2 s3 s4 s5 s6 s7 s8 s9 cause s10
    have hs2 : s2.kept = s.kept := by unfold s2; rw [State.modShep_kept, State.bootFw_kept, hs1]
    have hs3 : s3.kept = s.kept := by
      unfold s3
      split
      · rw [State.modShep_kept, hs2]
      · exact hs2
    have hs4 : s4.kept = s.kept := by unfold s4; rw [State.firstClasses_kept, State.withEntries_kept, hs3]
    have hs5 : s5.kept = s.kept := (State.mirConfigured_kept ..).trans hs4
    have hs6 : s6.kept = s.kept :=
      State.foldl_kept hs5 (fun s11 x hs11 => by rw [State.lapBegin_kept, hs11]) _
    have hs7 : s7.kept = s.kept :=
      State.foldl_kept (by rw [State.repairDies_kept, hs6]) (fun s11 x hs11 =>
          by rw [State.bringUp_kept, hs11]) _
    have hs8 : s8.kept = s.kept :=
      State.foldl_kept hs7 (fun s11 x hs11 => by rw [State.cpSetField_kept, hs11]) _
    have hs9 : s9.kept = s.kept := by unfold s9; rw [State.markDomains_kept, State.rebuildLists_kept,
        State.guarantees_kept, State.kept_mk, State.tb_pending, hs8]
    have hs10 : s10.kept = s.kept := by
      unfold s10
      split
      · rw [State.ownRecord_kept, hs9]
      · exact hs9
    rw [State.pins_kept, State.startM_kept, hs10]

@[simp] theorem execPorN_kept (s : State) (b) :
    Out.kept (execPorN b s) = some s.kept := by
  unfold execPorN
  split
  · rfl
  · split <;> simp

@[simp] theorem execWake_kept (s : State) (ev) :
    Out.kept (execWake ev s) = some s.kept := by
  unfold execWake
  split <;> simp

@[simp] theorem execThermtrip_kept (s : State) (temp) :
    Out.kept (execThermtrip temp s) = some s.kept := by
  unfold execThermtrip
  split <;> simp

@[simp] theorem State.railRecords_kept (s : State) (l) :
    (s.railRecords l).kept = s.kept := by
  unfold State.railRecords
  exact State.foldl_kept rfl (fun s1 x hs1 => by rw [State.ownRecord_kept, hs1]) _

@[simp] theorem execPmbusPoll_kept (s : State) (readings) :
    Out.kept (execPmbusPoll readings s) = some s.kept := by
  unfold execPmbusPoll
  split <;> simp

@[simp] theorem execPmbAlert_kept (s : State) (status) :
    Out.kept (execPmbAlert status s) = some s.kept := by
  unfold execPmbAlert
  split <;> simp

@[simp] theorem execStoreWrite_kept (s : State) :
    Out.kept (execStoreWrite s) = some s.kept := by
  unfold execStoreWrite
  split <;> simp

@[simp] theorem State.partRestart_kept (s : State) (p l) :
    (s.partRestart p l).kept = s.kept := by
  unfold State.partRestart
  split
  · rfl
  · extract_lets s1
    have hs1 : s1.kept = s.kept := by
      unfold s1
      refine State.foldl_kept rfl (fun s2 x hs2 => ?_) _
      split <;> simp [hs2]
    split <;> simp [hs1]

@[simp] theorem execPartitionReset_kept (s : State) (pid) :
    Out.kept (execPartitionReset pid s) = some s.kept := by
  unfold execPartitionReset
  split
  · rfl
  · extract_lets s1 s11
    have hs1 : s1.kept = s.kept := State.modShep_kept ..
    have hs11 : s11.kept = s.kept := by unfold s11; rw [State.partRestart_kept, State.partReset_kept, hs1]
    split
    · rfl
    · split
      · exact congrArg some hs11
      · exact congrArg some (OptKeeps.getD (State.answerShep_keeps hs11 rfl) rfl)

@[simp] theorem execScntAlarm_kept (s : State) :
    Out.kept (execScntAlarm s) = some s.kept := by
  unfold execScntAlarm
  split <;> simp

@[simp] theorem State.closeSession_kept (s : State) (w) :
    (s.closeSession w).kept = s.kept := by
  unfold State.closeSession
  extract_lets mine s1 src
  have hs1 : s1.kept = s.kept :=
    State.foldl_kept rfl (fun s2 x hs2 => by rw [State.modCore_kept, State.unhalt_kept, hs2]) _
  exact hs1

@[simp] theorem execCertExpiry_kept (s : State) (world) :
    Out.kept (execCertExpiry world s) = some s.kept := by
  unfold execCertExpiry
  split
  · split <;> simp
  · rfl

@[simp] theorem State.bar0Earlier_kept (s : State) (p) :
    (s.bar0Earlier p).kept = s.kept := by
  unfold State.bar0Earlier
  extract_lets s1
  have hs1 : s1.kept = s.kept := by
    unfold s1
    refine State.foldl_kept rfl (fun s2 x hs2 => ?_) _
    split
    · split
      · exact OptKeeps.getD (State.bar0Bytes_keeps hs2 rfl) hs2
      · exact hs2
    · exact hs2
  rw [State.modPcie_kept, hs1]

@[simp] theorem State.flr_kept (s : State) (f) :
    (s.flr f).kept = s.kept := by
  unfold State.flr
  extract_lets one mine s1 s2
  have hone : ∀ t0 x1, t0.kept = s.kept → (one t0 x1).kept = s.kept := by
    intro s3 x1 hs3
    unfold one
    extract_lets s4 a mine1 held s5
    have hs4 : s4.kept = s.kept := (State.resetGroup_kept ..).trans hs3
    have hs5 : s5.kept = s.kept :=
      State.foldl_kept (by rw [State.kept_mk, State.tb_pending, hs4]) (fun s6 x hs6 =>
          by rw [State.proxy_kept, hs6]) _
    rw [State.cpSet_kept, hs5]
  have hs1 : s1.kept = s.kept := by unfold s1; rw [State.voidInbound_kept, State.bar0Earlier_kept]
  have hs2 : s2.kept = s.kept := by
    unfold s2
    refine State.foldl_kept hs1 (fun s3 x hs3 => ?_) _
    apply hone
    exact hs3
  split
  · rw [State.modAq_kept, State.cfgClear_kept, hs2]
  · rw [State.cfgClear_kept]
    apply hone
    exact hs1

@[simp] theorem State.cfgWrite_kept (s : State) (f off v be) :
    (s.cfgWrite f off v be).kept = s.kept := by
  unfold State.cfgWrite
  extract_lets m isPf b s1 old w n n1 s2 s3
  have hs1 : s1.kept = s.kept := by unfold s1; split <;> simp
  have hs2 : s2.kept = s.kept := State.setCfg_kept ..
  have hs3 : s3.kept = s.kept := by unfold s3; split <;> simp [hs2]
  split
  · split <;> simp [hs1]
  · split
    · rw [State.flr_kept, hs3]
    · split <;> simp [hs3]

@[simp] theorem execConfigRequest_kept (s : State) (t) :
    Out.kept (execConfigRequest t s) = some s.kept := by
  unfold execConfigRequest
  split
  · rfl
  · split
    · rw [Out.kept_next, State.hostCpl_kept]
    · split
      · rw [Out.kept_next, State.pcieError_kept, State.hostCpl_kept]
      · split <;> simp

@[simp] theorem State.inboundErr_kept (s : State) (f t ca) :
    (s.inboundErr f t ca).kept = s.kept := by
  unfold State.inboundErr
  split <;> simp

@[simp] theorem State.inbound_kept (s : State) (ops) :
    (s.inbound ops).kept = s.kept := by
  simp [State.inbound]

@[simp] theorem State.memoryTlp_kept (s : State) (t) :
    (s.memoryTlp t).kept = s.kept := by
  unfold State.memoryTlp
  extract_lets a n
  split
  · rfl
  · split
    · split <;> simp
    · split
      · rw [State.inboundErr_kept]
      · split
        · rw [State.pcieError_kept]
        · split
          · rw [State.inboundErr_kept]
          · split
            · split
              · rw [State.inboundErr_kept]
              · split
                · rw [State.inboundErr_kept]
                · split
                  · rfl
                  · split <;> rw [State.inbound_kept]
            · split
              · rw [State.inboundErr_kept]
              · split <;> rw [State.inbound_kept]

@[simp] theorem execMemoryRead_kept (s : State) (t) :
    Out.kept (execMemoryRead t s) = some s.kept := by
  unfold execMemoryRead
  rw [Out.kept_next, State.memoryTlp_kept]

@[simp] theorem execMemoryWrite_kept (s : State) (t) :
    Out.kept (execMemoryWrite t s) = some s.kept := by
  unfold execMemoryWrite
  extract_lets hit s1
  have hs1 : s1.kept = s.kept := State.memoryTlp_kept ..
  refine congrArg some ?_
  split <;> simp [hs1]

@[simp] theorem execMessageTlp_kept (s : State) (t) :
    Out.kept (execMessageTlp t s) = some s.kept := by
  unfold execMessageTlp
  split <;> simp

@[simp] theorem execCompletion_kept (s : State) (t) :
    Out.kept (execCompletion t s) = some s.kept := by
  unfold execCompletion
  split
  · rfl
  · split
    · extract_lets s1
      have hs1 : s1.kept = s.kept := State.modPcie_kept ..
      split
      · rw [Out.kept_next, State.ncReply_kept, hs1]
      · split <;> simp [hs1]
    · split <;> simp

@[simp] theorem execCompletionTimeout_kept (s : State) (tag) :
    Out.kept (execCompletionTimeout tag s) = some s.kept := by
  unfold execCompletionTimeout
  split <;> simp

@[simp] theorem State.linkDown_kept (s : State) :
    (s.linkDown).kept = s.kept := by
  unfold State.linkDown
  rw [State.cfgClearAll_kept, State.cpSetField_kept, State.voidInbound_kept, State.freeze_kept]

@[simp] theorem execDlDown_kept (s : State) :
    Out.kept (execDlDown s) = some s.kept := by
  unfold execDlDown
  split <;> simp

@[simp] theorem execHotReset_kept (s : State) :
    Out.kept (execHotReset s) = some s.kept := by
  unfold execHotReset
  split <;> simp

@[simp] theorem State.perstReset_kept (s : State) :
    (s.perstReset).kept = s.kept := by
  unfold State.perstReset
  extract_lets s1
  have hs1 : s1.kept = s.kept := by unfold s1; rw [State.cpSetField_kept, State.linkDown_kept]
  split
  · exact hs1
  · rw [State.modAq_kept, State.resetAllQueues_kept, hs1]

@[simp] theorem execPerstN_kept (s : State) (level) :
    Out.kept (execPerstN level s) = some s.kept := by
  unfold execPerstN
  extract_lets was s1
  have hs1 : s1.kept = s.kept := State.cpSetField_kept ..
  split
  · refine congrArg some ?_
    split <;> simp [hs1]
  · split <;> simp [hs1]

@[simp] theorem execFlr_kept (s : State) (fn) :
    Out.kept (execFlr fn s) = some s.kept := by
  unfold execFlr
  split <;> simp

@[simp] theorem execRelease_kept (s : State) :
    Out.kept (execRelease s) = some s.kept := by
  unfold execRelease
  rw [Out.kept_next, State.releaseFreeze_kept]

@[simp] theorem State.hostBar0_kept (s : State) (f off v) :
    (s.hostBar0 f off v).kept = s.kept := by
  unfold State.hostBar0
  split
  · rfl
  · split
    · rw [State.countAt_kept]
    · split <;> simp

@[simp] theorem State.bar0Woken_kept (s : State) (f off v) :
    (s.bar0Woken f off v).kept = s.kept := by
  unfold State.bar0Woken
  extract_lets hit s1
  have hs1 : s1.kept = s.kept := State.hostBar0_kept ..
  split <;> simp [hs1]

@[simp] theorem execSqTailDoorbell_kept (s : State) (fn k v) :
    Out.kept (execSqTailDoorbell fn k v s) = some s.kept := by
  unfold execSqTailDoorbell
  rw [Out.kept_next, State.bar0Woken_kept]

@[simp] theorem execCqHeadDoorbell_kept (s : State) (fn k v) :
    Out.kept (execCqHeadDoorbell fn k v s) = some s.kept := by
  unfold execCqHeadDoorbell
  rw [Out.kept_next, State.bar0Woken_kept]

@[simp] theorem execAqCfgWrite_kept (s : State) (w) :
    Out.kept (execAqCfgWrite w s) = some s.kept := by
  unfold execAqCfgWrite
  rw [Out.kept_next, State.bar0Woken_kept]

@[simp] theorem execWorkHead_kept (s : State) (w who) :
    Out.kept (execWorkHead w who s) = some s.kept := by
  unfold execWorkHead
  refine congrArg some ?_
  refine OptKeeps.getD ?_ rfl
  refine PairKeeps.map_snd ?_
  exact State.devBell_keeps rfl rfl

@[simp] theorem execDcrTail_kept (s : State) (w who) :
    Out.kept (execDcrTail w who s) = some s.kept := by
  unfold execDcrTail
  refine congrArg some ?_
  refine OptKeeps.getD ?_ rfl
  refine PairKeeps.map_snd ?_
  exact State.devBell_keeps rfl rfl

theorem State.sendFetch_keeps {s : State} {κ} (hs : s.kept = κ) {q c i r}
    (e : s.sendFetch q c i = r) : OptKeeps κ r := by
  subst e
  unfold State.sendFetch
  generalize e : State.foldSend _ _ _ _ _ _ = x
  exact State.foldSend_keeps hs e

theorem State.sqFetch_keeps {s : State} {κ} (hs : s.kept = κ) {q r}
    (e : s.sqFetch q = r) : OptKeeps κ r := by
  subst e
  unfold State.sqFetch
  split
  · trivial
  · rename_i c s1 e
    have hs1 : s1.kept = κ := State.ctxOf_keeps hs e
    extract_lets n g head out ok go
    split
    · split
      · exact hs1
      · refine OptKeeps.map ?_ ?_
        · generalize e : State.sendFetch _ _ _ _ = x
          exact State.sendFetch_keeps hs1 e
        · intro s2 hs2
          rw [State.modFold_kept, hs2]
    · split
      · exact hs1
      · refine OptKeeps.map ?_ ?_
        · generalize e : State.sendFetch _ _ _ _ = x
          exact State.sendFetch_keeps hs1 e
        · intro s2 hs2
          rw [State.setCtx_kept, hs2]

@[simp] theorem execSqFetch_kept (s : State) (qid) :
    Out.kept (execSqFetch qid s) = some s.kept := by
  unfold execSqFetch
  split
  · rfl
  · refine congrArg some ?_
    refine OptKeeps.getD ?_ ?_
    · exact State.sqFetch_keeps (by rw [State.foldWork_kept]) rfl
    · rw [State.foldWork_kept]

theorem State.dcrRead_keeps {s : State} {κ} (hs : s.kept = κ) {q r}
    (e : s.dcrRead q = r) : OptKeeps κ r := by
  subst e
  unfold State.dcrRead
  split
  · trivial
  · rename_i c s1 e
    have hs1 : s1.kept = κ := State.ctxOf_keeps hs e
    extract_lets n head hold a op
    split
    · exact hs1
    · refine OptKeeps.map ?_ ?_
      · generalize e : State.foldSend _ _ _ _ _ _ = x
        exact State.foldSend_keeps hs1 e
      · intro s2 hs2
        rw [State.setCtx_kept, hs2]

@[simp] theorem execDcrRead_kept (s : State) (qid) :
    Out.kept (execDcrRead qid s) = some s.kept := by
  unfold execDcrRead
  split
  · rfl
  · refine congrArg some ?_
    refine OptKeeps.getD ?_ ?_
    · exact State.dcrRead_keeps (by rw [State.foldWork_kept]) rfl
    · rw [State.foldWork_kept]

theorem State.cqWrite_keeps {s : State} {κ} (hs : s.kept = κ) {q r}
    (e : s.cqWrite q = r) : OptKeeps κ r := by
  subst e
  unfold State.cqWrite
  split
  · trivial
  · rename_i c s1 e
    have hs1 : s1.kept = κ := State.ctxOf_keeps hs e
    split
    · exact hs1
    · extract_lets g slot a x
      split
      · exact hs1
      · generalize e : State.foldSend _ _ _ _ _ _ = x
        exact State.foldSend_keeps hs1 e

@[simp] theorem execCqWrite_kept (s : State) (qid) :
    Out.kept (execCqWrite qid s) = some s.kept := by
  unfold execCqWrite
  split
  · rfl
  · refine congrArg some ?_
    refine OptKeeps.getD ?_ ?_
    · exact State.cqWrite_keeps (by rw [State.foldWork_kept]) rfl
    · rw [State.foldWork_kept]

@[simp] theorem State.ctxpCmd_kept (s : State) (op w) :
    Out.kept (s.ctxpCmd op w) = some s.kept := by
  unfold State.ctxpCmd
  split
  · rfl
  · exact congrArg some (OptKeeps.getD (State.ctxp_keeps rfl rfl) rfl)

@[simp] theorem execFoldCtxpRead_kept (s : State) (w) :
    Out.kept (execFoldCtxpRead w s) = some s.kept := by
  unfold execFoldCtxpRead
  rw [State.ctxpCmd_kept]

@[simp] theorem execFoldCtxpConfig_kept (s : State) (w) :
    Out.kept (execFoldCtxpConfig w s) = some s.kept := by
  unfold execFoldCtxpConfig
  rw [State.ctxpCmd_kept]

@[simp] theorem execFoldCtxpCreate_kept (s : State) (w) :
    Out.kept (execFoldCtxpCreate w s) = some s.kept := by
  unfold execFoldCtxpCreate
  rw [State.ctxpCmd_kept]

@[simp] theorem execFoldCtxpDelete_kept (s : State) (w) :
    Out.kept (execFoldCtxpDelete w s) = some s.kept := by
  unfold execFoldCtxpDelete
  rw [State.ctxpCmd_kept]

@[simp] theorem execFoldCtxpReset_kept (s : State) (w) :
    Out.kept (execFoldCtxpReset w s) = some s.kept := by
  unfold execFoldCtxpReset
  rw [State.ctxpCmd_kept]

@[simp] theorem execFoldCtxpEnable_kept (s : State) (w) :
    Out.kept (execFoldCtxpEnable w s) = some s.kept := by
  unfold execFoldCtxpEnable
  rw [State.ctxpCmd_kept]

@[simp] theorem execFoldCtxpRestore_kept (s : State) (w) :
    Out.kept (execFoldCtxpRestore w s) = some s.kept := by
  unfold execFoldCtxpRestore
  rw [State.ctxpCmd_kept]

@[simp] theorem execLogSwap_kept (s : State) (fn) :
    Out.kept (execLogSwap fn s) = some s.kept := by
  unfold execLogSwap
  split <;> simp

theorem State.logSwapDone_keeps {s : State} {κ} (hs : s.kept = κ) {v r}
    (e : s.logSwapDone v = r) : OptKeeps κ r := by
  subst e
  unfold State.logSwapDone
  extract_lets a b n
  split
  · exact hs
  · exact OptKeeps.map (State.logFlush_keeps hs rfl)
        fun s1 hs1 => by rw [State.cpSet_kept, State.cpSetField_kept, hs1]

@[simp] theorem execLogSwapDone_kept (s : State) (fn) :
    Out.kept (execLogSwapDone fn s) = some s.kept := by
  unfold execLogSwapDone
  split
  · rfl
  · exact congrArg some (OptKeeps.getD (State.logSwapDone_keeps rfl rfl) rfl)

@[simp] theorem execMbClaimReq_kept (s : State) (mb ch who) :
    Out.kept (execMbClaimReq mb ch who s) = some s.kept := by
  unfold execMbClaimReq
  split <;> simp

@[simp] theorem execMbClaimRel_kept (s : State) (mb ch who) :
    Out.kept (execMbClaimRel mb ch who s) = some s.kept := by
  unfold execMbClaimRel
  split <;> simp

@[simp] theorem execMbGo_kept (s : State) (mb ch irq who) :
    Out.kept (execMbGo mb ch irq who s) = some s.kept := by
  unfold execMbGo
  split <;> simp

@[simp] theorem execAdminSqDoorbell_kept (s : State) (v) :
    Out.kept (execAdminSqDoorbell v s) = some s.kept := by
  unfold execAdminSqDoorbell
  rw [Out.kept_next, State.bar0Woken_kept]

@[simp] theorem execAdminCqDoorbell_kept (s : State) (v) :
    Out.kept (execAdminCqDoorbell v s) = some s.kept := by
  unfold execAdminCqDoorbell
  rw [Out.kept_next, State.bar0Woken_kept]

@[simp] theorem State.takeCmd_kept (s : State) (x1) :
    (s.takeCmd x1).kept = s.kept := by
  unfold State.takeCmd
  split <;> simp

@[simp] theorem State.refuseCmd_kept (s : State) (x1 status count) :
    Out.kept (s.refuseCmd x1 status count) = some s.kept := by
  unfold State.refuseCmd
  exact congrArg some (OptKeeps.getD (State.answerShep_keeps (by rw [State.takeCmd_kept]) rfl) rfl)

theorem State.shepRead_keeps {s : State} {κ} (hs : s.kept = κ) {a a2 r}
    (e : s.shepRead a a2 = r) : HubAns.Keeps κ r := by
  subst e
  induction a2 generalizing s a with
  | zero => exact hs
  | succ n ih =>
    rw [State.shepRead]
    have hone : HubAns.Keeps κ (if targetOf (64 * a) = Target.scratch then
        if (List.range 8).any fun i => SMap.get false s.poisWord (8 * a + i) then HubAns.poison s
        else .ok (s.memLine a) s
      else s.hubRead shepStation true 0 a) := by
      split
      · split
        · exact hs
        · exact hs
      · exact State.hubRead_keeps hs rfl
    generalize (if targetOf (64 * a) = Target.scratch then
        if (List.range 8).any fun i => SMap.get false s.poisWord (8 * a + i) then HubAns.poison s
        else .ok (s.memLine a) s
      else s.hubRead shepStation true 0 a) = one at *
    split
    · trivial
    · exact hone
    · exact hone
    · have hl := fun m => ih (s := _) (a := m) hone
      split
      · rename_i e1; have := hl (a + 1); rwa [e1] at this
      · exact hl _

theorem State.pbufBytes_keeps {s : State} {κ} (hs : s.kept = κ) {x1 r}
    (e : s.pbufBytes x1 = r) : HubAns.Keeps κ r := by
  subst e
  unfold State.pbufBytes
  extract_lets n
  split
  · exact hs
  · split
    · rename_i l s1 e
      have hs1 : s1.kept = κ := State.shepRead_keeps hs e
      exact hs1
    · trivial
    · rename_i s1 e
      have hs1 : s1.kept = κ := State.shepRead_keeps hs e
      exact hs1
    · rename_i s1 e
      have hs1 : s1.kept = κ := State.shepRead_keeps hs e
      exact hs1

theorem State.shepRun_kept {s : State} {κ} (hs : s.kept = κ) {o x2 body}
    (hbody : ∀ x0 t1, t1.kept = κ → ShepRes.Keeps κ (body x0 t1)) :
    Out.kept (s.shepRun o x2 body) = some κ := by
  have href : ∀ n c, Out.kept (s.refuseCmd x2 n c) = some κ := fun n c =>
    (State.refuseCmd_kept ..).trans (congrArg some hs)
  unfold State.shepRun
  refine Out.ite_kept (congrArg some hs) (Out.ite_kept ?_ ?_)
  · exact congrArg some ((State.adminError_kept ..).trans ((State.countAt_kept ..).trans hs))
  generalize s.lastOf x2 = l
  obtain ⟨last, stored⟩ := l
  refine Out.ite_kept ?_ (Out.ite_kept (href ..) ?_)
  · cases stored with
    | none => exact href ..
    | some rep => exact congrArg some ((State.putReply_kept ..).trans ((State.takeCmd_kept ..).trans hs))
  extract_lets image s1 full
  have hs1 : s1.kept = κ := (State.takeCmd_kept ..).trans hs
  clear_value s1 image
  have hfull : HubAns.Keeps κ full := by
    unfold full
    split
    · exact hs1
    · split
      · exact (State.pbufBytes_keeps hs1 ‹_› :)
      · trivial
      · exact (State.pbufBytes_keeps hs1 ‹_› :)
      · exact (State.pbufBytes_keeps hs1 ‹_› :)
  clear_value full
  refine Out.ite_kept (href ..) (Out.ite_kept (href ..) (Out.ite_kept (href ..) (Out.ite_kept (href ..)
    (Out.ite_kept (href ..) (Out.ite_kept (href ..) (Out.ite_kept (href ..) ?_))))))
  cases full with
  | busy => exact congrArg some hs
  | refuse t => exact (State.refuseCmd_kept ..).trans (congrArg some hfull)
  | poison t => exact (State.refuseCmd_kept ..).trans (congrArg some hfull)
  | ok r t =>
    have ht := hbody r t hfull
    dsimp only
    generalize body r t = res at ht
    cases res with
    | wait => exact congrArg some hs
    | later u => exact congrArg some ht
    | done st u data detail => exact congrArg some (OptKeeps.getD (State.answerShep_keeps ht rfl) hs)

theorem ShepRes.ok_keeps {s : State} {κ} (hs : s.kept = κ) {data r}
    (e : ShepRes.ok s data = r) : ShepRes.Keeps κ r := by
  subst e
  simp [ShepRes.ok, hs]

@[simp] theorem execInfoVersion_kept (s : State) (x0) :
    Out.kept (execInfoVersion x0 s) = some s.kept := by
  unfold execInfoVersion
  refine State.shepRun_kept rfl fun x01 s1 hs1 => ?_
  exact ShepRes.ok_keeps hs1 rfl

@[simp] theorem execInfoSlots_kept (s : State) (x0) :
    Out.kept (execInfoSlots x0 s) = some s.kept := by
  unfold execInfoSlots
  exact State.shepRun_kept rfl fun x01 s1 hs1 => ShepRes.ok_keeps hs1 rfl

@[simp] theorem execInfoCoreMap_kept (s : State) (x0) :
    Out.kept (execInfoCoreMap x0 s) = some s.kept := by
  unfold execInfoCoreMap
  exact State.shepRun_kept rfl fun x01 s1 hs1 => ShepRes.ok_keeps hs1 rfl

@[simp] theorem execInfoDistance_kept (s : State) (x0) :
    Out.kept (execInfoDistance x0 s) = some s.kept := by
  unfold execInfoDistance
  exact State.shepRun_kept rfl fun x01 s1 hs1 => ShepRes.ok_keeps hs1 rfl

theorem ShepRes.status_keeps {s : State} {κ} (hs : s.kept = κ) {n r}
    (e : ShepRes.status n s = r) : ShepRes.Keeps κ r := by
  subst e
  simp [ShepRes.status, hs]

end Sys2Proof.Machine

end

