-- ==== Sys2Proof/Proofs/KeptShepherd.lean ====
section
/-! SUPPORT. TB_NOW and the queue over the Shepherd's commands. -/

namespace Sys2Proof.Machine

theorem State.withReply_keeps {s : State} {κ} (hs : s.kept = κ) {x1 n res r}
    (hres : ShepRes.Keeps κ res) (e : s.withReply x1 n res = r) : ShepRes.Keeps κ r := by
  subst e
  unfold State.withReply
  split
  · exact ShepRes.status_keeps hs rfl
  · exact hres

@[simp] theorem execEventRead_kept (s : State) (x0) :
    Out.kept (execEventRead x0 s) = some s.kept := by
  unfold execEventRead
  refine State.shepRun_kept ?_ ?_
  · rfl
  · intro x01 s1 hs1
    extract_lets n k q b
    split
    · exact ShepRes.status_keeps hs1 rfl
    · refine State.withReply_keeps ?_ ?_ rfl
      · exact hs1
      · exact hs1

@[simp] theorem execInfoParts_kept (s : State) (x0) :
    Out.kept (execInfoParts x0 s) = some s.kept := by
  unfold execInfoParts
  exact State.shepRun_kept rfl fun x01 s1 hs1 => ShepRes.ok_keeps hs1 rfl

@[simp] theorem State.setStage_kept (s : State) (w v) :
    (s.setStage w v).kept = s.kept := rfl

@[simp] theorem execStageOpen_kept (s : State) (x0) :
    Out.kept (execStageOpen x0 s) = some s.kept := by
  unfold execStageOpen
  refine State.shepRun_kept rfl fun x01 s1 hs1 => ?_
  split
  · exact ShepRes.status_keeps hs1 rfl
  · exact ShepRes.ok_keeps (by rw [State.setStage_kept, hs1]) rfl

theorem State.onStage_keeps {s : State} {κ} (hs : s.kept = κ) {x1 f r}
    (hf : ∀ x0, ShepRes.Keeps κ (f x0)) (e : s.onStage x1 f = r) : ShepRes.Keeps κ r := by
  subst e
  unfold State.onStage
  split
  · exact ShepRes.status_keeps hs rfl
  · split
    · exact ShepRes.status_keeps hs rfl
    · apply hf

@[simp] theorem execStageSet_kept (s : State) (x0) :
    Out.kept (execStageSet x0 s) = some s.kept := by
  unfold execStageSet
  refine State.shepRun_kept rfl fun x01 s1 hs1 => ?_
  extract_lets n new
  split
  · exact ShepRes.status_keeps hs1 rfl
  · split
    · exact ShepRes.status_keeps hs1 rfl
    · refine State.onStage_keeps hs1 (fun x02 => ?_) rfl
      split
      · rw [ShepRes.keeps_done, State.setStage_kept, hs1]
      · extract_lets es
        exact ShepRes.ok_keeps (by rw [State.setStage_kept, hs1]) rfl

@[simp] theorem execStageCheck_kept (s : State) (x0) :
    Out.kept (execStageCheck x0 s) = some s.kept := by
  unfold execStageCheck
  refine State.shepRun_kept rfl fun x01 s1 hs1 => ?_
  refine State.onStage_keeps hs1 (fun x02 => ?_) rfl
  split
  · rw [ShepRes.keeps_done, State.setStage_kept, hs1]
  · exact ShepRes.ok_keeps (by rw [State.setStage_kept, hs1]) rfl

@[simp] theorem execStageCommit_kept (s : State) (x0) :
    Out.kept (execStageCommit x0 s) = some s.kept := by
  unfold execStageCommit
  refine State.shepRun_kept rfl fun x01 s1 hs1 => ?_
  refine State.onStage_keeps hs1 (fun x02 => ?_) rfl
  extract_lets bad
  clear_value bad
  split
  · rw [ShepRes.keeps_done, State.setStage_kept, hs1]
  · split <;> simp [hs1]

@[simp] theorem execStageAbort_kept (s : State) (x0) :
    Out.kept (execStageAbort x0 s) = some s.kept := by
  unfold execStageAbort
  refine State.shepRun_kept rfl fun x01 s1 hs1 => ?_
  extract_lets w
  split
  · exact ShepRes.status_keeps hs1 rfl
  · split
    · exact ShepRes.status_keeps hs1 rfl
    · split
      · split
        · split
          · split
            · rename_i s2 e
              have hs2 : s2.kept = s.kept := State.cancelCommit_keeps (by rw [State.setStage_kept, hs1]) e
              exact ShepRes.ok_keeps hs2 rfl
            · trivial
          · trivial
        · trivial
      · exact ShepRes.ok_keeps (by rw [State.setStage_kept, hs1]) rfl

@[simp] theorem execStageIdleAbort_kept (s : State) (world t) :
    Out.kept (execStageIdleAbort world t s) = some (s.advance t).kept := by
  unfold execStageIdleAbort
  extract_lets s1
  have hs1 : s1.kept = (s.advance t).kept := rfl
  split
  · exact congrArg some hs1
  · split <;> simp [hs1]

@[simp] theorem execStageStatus_kept (s : State) (x0) :
    Out.kept (execStageStatus x0 s) = some s.kept := by
  unfold execStageStatus
  refine State.shepRun_kept rfl fun x01 s1 hs1 => ?_
  extract_lets w
  split
  · exact ShepRes.status_keeps hs1 rfl
  · split
    · exact ShepRes.ok_keeps hs1 rfl
    · extract_lets ch
      exact ShepRes.ok_keeps hs1 rfl

@[simp] theorem execPartCreate_kept (s : State) (x0) :
    Out.kept (execPartCreate x0 s) = some s.kept := by
  unfold execPartCreate
  refine State.shepRun_kept rfl fun x01 s1 hs1 => ?_
  extract_lets p w
  split
  · exact ShepRes.status_keeps hs1 rfl
  · split
    · exact ShepRes.status_keeps hs1 rfl
    · split
      · exact ShepRes.status_keeps hs1 rfl
      · exact ShepRes.ok_keeps (by rw [State.setPart_kept, hs1]) rfl

@[simp] theorem execPartDelete_kept (s : State) (x0) :
    Out.kept (execPartDelete x0 s) = some s.kept := by
  unfold execPartDelete
  refine State.shepRun_kept rfl fun x01 s1 hs1 => ?_
  split
  · exact ShepRes.status_keeps hs1 rfl
  · split
    · exact ShepRes.status_keeps hs1 rfl
    · exact ShepRes.ok_keeps (by rw [State.modShep_kept, State.setPart_kept, hs1]) rfl

theorem State.shepStore_keeps {s : State} {κ} (hs : s.kept = κ) {a b r}
    (e : s.shepStore a b = r) : HubAns.Keeps κ r := by
  subst e
  unfold State.shepStore
  extract_lets head write0 rest
  have hwrite0 : HubAns.Keeps κ write0 := by
    unfold write0
    split
    · exact hs
    · exact State.shepPut_keeps hs rfl
  clear_value write0
  clear_value head rest
  split
  · rename_i s1
    have hs1 : s1.kept = κ := hwrite0
    exact State.shepWrite_keeps hs1 rfl
  · exact hwrite0

@[simp] theorem execPartImageLoad_kept (s : State) (x0) :
    Out.kept (execPartImageLoad x0 s) = some s.kept := by
  unfold execPartImageLoad
  refine State.shepRun_kept rfl fun x01 s1 hs1 => ?_
  split
  · exact ShepRes.status_keeps hs1 rfl
  · split
    · trivial
    · rename_i s2 e
      have hs2 : s2.kept = s.kept := State.pbufBytes_keeps hs1 e
      exact ShepRes.status_keeps hs2 rfl
    · rename_i s2 e
      have hs2 : s2.kept = s.kept := State.pbufBytes_keeps hs1 e
      exact ShepRes.status_keeps hs2 rfl
    · rename_i b s2 e
      have hs2 : s2.kept = s.kept := State.pbufBytes_keeps hs1 e
      split
      · exact ShepRes.status_keeps hs1 rfl
      · extract_lets a
        split
        · exact ShepRes.status_keeps hs1 rfl
        · split
          · trivial
          · rename_i s3 e1
            have hs3 : s3.kept = s.kept := State.shepStore_keeps hs2 e1
            exact ShepRes.status_keeps hs3 rfl
          · rename_i s3 e1
            have hs3 : s3.kept = s.kept := State.shepStore_keeps hs2 e1
            exact ShepRes.status_keeps hs3 rfl
          · rename_i x s3 e1
            have hs3 : s3.kept = s.kept := State.shepStore_keeps hs2 e1
            exact ShepRes.ok_keeps (by rw [State.setPart_kept, hs3]) rfl

@[simp] theorem execPartStart_kept (s : State) (x0) :
    Out.kept (execPartStart x0 s) = some s.kept := by
  unfold execPartStart
  refine State.shepRun_kept rfl fun x01 s1 hs1 => ?_
  split
  · exact ShepRes.status_keeps hs1 rfl
  · extract_lets lvl q
    split
    · extract_lets lc s2
      have hs2 : s2.kept = s.kept := (State.modShep_kept ..).trans hs1
      split
      · exact ShepRes.status_keeps hs1 rfl
      · split
        · exact ShepRes.status_keeps hs1 rfl
        · split
          · exact ShepRes.status_keeps hs1 rfl
          · split
            · trivial
            · exact ShepRes.ok_keeps (by rw [State.setPart_kept, State.startCore_kept, hs2]) rfl
    · exact ShepRes.status_keeps hs1 rfl

@[simp] theorem execPartStop_kept (s : State) (x0) :
    Out.kept (execPartStop x0 s) = some s.kept := by
  unfold execPartStop
  refine State.shepRun_kept rfl fun x01 s1 hs1 => ?_
  split
  · exact ShepRes.status_keeps hs1 rfl
  · extract_lets s2
    have hs2 : s2.kept = s.kept :=
      State.foldl_kept hs1 (fun s3 x hs3 => by rw [State.modCore_kept, hs3]) _
    exact ShepRes.ok_keeps (by rw [State.setPart_kept, hs2]) rfl

@[simp] theorem execPartReset_kept (s : State) (x0) :
    Out.kept (execPartReset x0 s) = some s.kept := by
  unfold execPartReset
  refine State.shepRun_kept rfl fun x01 s1 hs1 => ?_
  split
  · exact ShepRes.status_keeps hs1 rfl
  · extract_lets h
    have hh : h.kept = s.kept := (State.partHalt_kept ..).trans hs1
    split
    · trivial
    · split
      · exact ShepRes.ok_keeps (by rw [State.partReset_kept, hh]) rfl
      · rw [ShepRes.keeps_later, State.beginReset_kept, hs1]

theorem State.commitOwn_keeps {s : State} {κ} (hs : s.kept = κ) {x1 what es r}
    (e : s.commitOwn x1 what es = r) : ShepRes.Keeps κ r := by
  subst e
  unfold State.commitOwn
  split
  · exact hs
  · split <;> simp [hs]

theorem State.release_keeps {s : State} {κ} (hs : s.kept = κ) {x1 a r}
    (e : s.release x1 a = r) : ShepRes.Keeps κ r := by
  subst e
  unfold State.release
  exact State.commitOwn_keeps hs rfl

@[simp] theorem execUnitRelease_kept (s : State) (x0) :
    Out.kept (execUnitRelease x0 s) = some s.kept := by
  unfold execUnitRelease
  refine State.shepRun_kept rfl fun x01 s1 hs1 => ?_
  split
  · exact ShepRes.status_keeps hs1 rfl
  · extract_lets o
    split
    · exact ShepRes.status_keeps hs1 rfl
    · split
      · exact State.release_keeps hs1 rfl
      · rw [ShepRes.keeps_later, State.modShep_kept, hs1]

@[simp] theorem execUnitAssign_kept (s : State) (x0) :
    Out.kept (execUnitAssign x0 s) = some s.kept := by
  unfold execUnitAssign
  refine State.shepRun_kept rfl fun x01 s1 hs1 => ?_
  extract_lets v site more
  split
  · exact ShepRes.status_keeps hs1 rfl
  · split
    · exact ShepRes.status_keeps hs1 rfl
    · extract_lets srcs own sources
      split
      · exact ShepRes.status_keeps hs1 rfl
      · split
        · exact ShepRes.status_keeps hs1 rfl
        · split
          · exact hs1
          · exact State.commitOwn_keeps hs1 rfl

theorem State.onQueue_keeps {s : State} {κ} (hs : s.kept = κ) {x1 f r}
    (hf : ∀ x0 x1 t2, t2.kept = κ → ShepRes.Keeps κ (f x0 x1 t2)) (e : s.onQueue x1 f = r) : ShepRes.Keeps
    κ r := by
  subst e
  unfold State.onQueue
  extract_lets q
  split
  · exact ShepRes.status_keeps hs rfl
  · split
    · exact ShepRes.status_keeps hs rfl
    · split
      · exact ShepRes.status_keeps hs rfl
      · split
        · exact ShepRes.status_keeps hs rfl
        · split
          · trivial
          · rename_i c s1 e
            have hs1 : s1.kept = κ := State.ctxOf_keeps hs e
            apply hf
            exact hs1

theorem State.foldVector_keeps {s : State} {κ} (hs : s.kept = κ) {r}
    (e : s.foldVector = r) : ShepRes.Keeps κ r := by
  subst e
  unfold State.foldVector
  split
  rename_i y s1 e
  have hs1 : s1.kept = κ := State.takeFree_kept hs e
  exact ShepRes.status_keeps hs1 rfl

@[simp] theorem execQueueCreate_kept (s : State) (x0) :
    Out.kept (execQueueCreate x0 s) = some s.kept := by
  refine State.shepRun_kept rfl fun c t ht => State.onQueue_keeps ht (fun q c u hu => ?_) rfl
  generalize (u.groupOf q).getD 0 = g
  have hst : ∀ n, ShepRes.Keeps s.kept (ShepRes.status n u) := fun n => ShepRes.status_keeps hu rfl
  exact ShepRes.keeps_ite (hst _) (ShepRes.keeps_ite (State.foldVector_keeps hu rfl) (ShepRes.keeps_ite
      (hst _)
    (ShepRes.ok_keeps ((State.setCtx_kept ..).trans hu) rfl)))

@[simp] theorem execQueueConfig_kept (s : State) (x0) :
    Out.kept (execQueueConfig x0 s) = some s.kept := by
  refine State.shepRun_kept rfl fun c t ht => State.onQueue_keeps ht (fun q c u hu => ?_) rfl
  generalize (u.groupOf q).getD 0 = g
  have hst : ∀ n, ShepRes.Keeps s.kept (ShepRes.status n u) := fun n => ShepRes.status_keeps hu rfl
  exact ShepRes.keeps_ite (hst _) (ShepRes.keeps_ite (hst _) (ShepRes.keeps_ite (State.foldVector_keeps hu
      rfl)
    (ShepRes.keeps_ite (hst _) (ShepRes.ok_keeps ((State.setCtx_kept ..).trans hu) rfl))))

theorem State.onValid_keeps {s : State} {κ} (hs : s.kept = κ) {x1 f r}
    (hf : ∀ x0 x1 t2, t2.kept = κ → ShepRes.Keeps κ (f x0 x1 t2)) (e : s.onValid x1 f = r) : ShepRes.Keeps
    κ r := by
  subst e
  unfold State.onValid
  refine State.onQueue_keeps hs (fun x0 x11 s1 hs1 => ?_) rfl
  split
  · apply hf
    exact hs1
  · exact ShepRes.status_keeps hs1 rfl

@[simp] theorem execQueueDelete_kept (s : State) (x0) :
    Out.kept (execQueueDelete x0 s) = some s.kept := by
  unfold execQueueDelete
  refine State.shepRun_kept rfl fun x01 s1 hs1 => ?_
  exact State.onValid_keeps hs1 (fun x02 x1 s2 hs2 =>
      ShepRes.ok_keeps (by rw [State.setCtx_kept, hs2]) rfl) rfl

@[simp] theorem execQueueReset_kept (s : State) (x0) :
    Out.kept (execQueueReset x0 s) = some s.kept := by
  unfold execQueueReset
  refine State.shepRun_kept rfl fun x01 s1 hs1 => ?_
  exact State.onValid_keeps hs1 (fun x02 x1 s2 hs2 =>
      ShepRes.ok_keeps (by rw [State.resetQueue_kept, hs2]) rfl) rfl

@[simp] theorem execQueueEnable_kept (s : State) (x0) :
    Out.kept (execQueueEnable x0 s) = some s.kept := by
  unfold execQueueEnable
  refine State.shepRun_kept rfl fun x01 s1 hs1 => ?_
  exact State.onValid_keeps hs1 (fun x02 x1 s2 hs2 =>
      ShepRes.ok_keeps (by rw [State.setCtx_kept, hs2]) rfl) rfl

@[simp] theorem execQueueSave_kept (s : State) (x0) :
    Out.kept (execQueueSave x0 s) = some s.kept := by
  unfold execQueueSave
  refine State.shepRun_kept rfl fun x01 s1 hs1 => ?_
  refine State.onValid_keeps hs1 (fun x02 x1 s2 hs2 => ?_) rfl
  extract_lets g
  split
  · exact ShepRes.status_keeps hs2 rfl
  · exact ShepRes.ok_keeps hs2 rfl

@[simp] theorem execQueueRestore_kept (s : State) (x0) :
    Out.kept (execQueueRestore x0 s) = some s.kept := by
  unfold execQueueRestore
  refine State.shepRun_kept rfl fun x01 s1 hs1 => ?_
  refine State.onQueue_keeps hs1 (fun x02 x1 s2 hs2 => ?_) rfl
  extract_lets g c i s3
  have hs3 : s3.kept = s.kept := by unfold s3; split <;> simp [hs2]
  clear_value s3
  clear_value g c i
  split
  · exact ShepRes.status_keeps hs2 rfl
  · split
    · exact ShepRes.status_keeps hs2 rfl
    · split
      · exact State.foldVector_keeps hs2 rfl
      · split
        · exact ShepRes.status_keeps hs2 rfl
        · exact ShepRes.ok_keeps (by rw [State.setCtx_kept, hs3]) rfl

theorem State.groupPause_keeps {s : State} {κ} (hs : s.kept = κ) {x1 v r}
    (e : s.groupPause x1 v = r) : ShepRes.Keeps κ r := by
  subst e
  unfold State.groupPause
  extract_lets g
  split
  · exact ShepRes.status_keeps hs rfl
  · split
    · exact ShepRes.status_keeps hs rfl
    · split
      · exact ShepRes.status_keeps hs rfl
      · exact ShepRes.ok_keeps (by rw [State.cpSetField_kept, hs]) rfl

@[simp] theorem execGroupPause_kept (s : State) (x0) :
    Out.kept (execGroupPause x0 s) = some s.kept := by
  unfold execGroupPause
  exact State.shepRun_kept rfl fun x01 s1 hs1 => State.groupPause_keeps hs1 rfl

@[simp] theorem execGroupResume_kept (s : State) (x0) :
    Out.kept (execGroupResume x0 s) = some s.kept := by
  unfold execGroupResume
  exact State.shepRun_kept rfl fun x01 s1 hs1 => State.groupPause_keeps hs1 rfl

theorem State.zeroLines_keeps {s : State} {κ} (hs : s.kept = κ) {a a2 r}
    (e : s.zeroLines a a2 = r) : HubAns.Keeps κ r := by
  induction a2 generalizing s a r with
  | zero =>
    subst e
    rw [State.zeroLines]
    rw [HubAns.keeps_ok]
    exact hs
  | succ n' ih =>
    subst e
    rw [State.zeroLines]
    split
    · rename_i x s1 e
      have hs1 : s1.kept = κ := State.shepPut_keeps hs e
      exact ih hs1 rfl
    · exact State.shepPut_keeps hs rfl

@[simp] theorem execDirtyLogStart_kept (s : State) (x0) :
    Out.kept (execDirtyLogStart x0 s) = some s.kept := by
  unfold execDirtyLogStart
  refine State.shepRun_kept rfl fun x01 s1 hs1 => ?_
  split
  · exact ShepRes.status_keeps hs1 rfl
  · extract_lets es ctl n zero
    have hzero : ∀ t0 x1, t0.kept = s.kept → HubAns.Keeps s.kept (zero t0 x1) := by
      intro s2 x1 hs2
      unfold zero
      exact State.zeroLines_keeps hs2 rfl
    split
    · exact ShepRes.status_keeps hs1 rfl
    · split
      · exact ShepRes.status_keeps hs1 rfl
      · split
        · exact ShepRes.status_keeps hs1 rfl
        · split
          · exact hs1
          · split
            · trivial
            · split
              · rename_i x s2 e
                have hs2 : HubAns.Keeps s.kept (HubAns.ok x s2) := by
                  rw [← e]
                  apply hzero
                  exact hs1
                replace hs2 : s2.kept = s.kept := hs2
                split
                · rename_i x1 s3 e1
                  have hs3 : HubAns.Keeps s.kept (HubAns.ok x1 s3) := by
                    rw [← e1]
                    apply hzero
                    exact hs2
                  replace hs3 : s3.kept = s.kept := hs3
                  rw [ShepRes.keeps_later, State.startCommit_kept, hs3]
                · trivial
                · exact ShepRes.status_keeps hs1 rfl
              · trivial
              · exact ShepRes.status_keeps hs1 rfl

@[simp] theorem execDirtyLogSwap_kept (s : State) (x0) :
    Out.kept (execDirtyLogSwap x0 s) = some s.kept := by
  unfold execDirtyLogSwap
  refine State.shepRun_kept rfl fun x01 s1 hs1 => ?_
  split
  · exact ShepRes.status_keeps hs1 rfl
  · split
    · exact ShepRes.status_keeps hs1 rfl
    · split
      · trivial
      · split
        · trivial
        · rename_i s2 e
          have hs2 : s2.kept = s.kept := State.logSwapDone_keeps (by rw [State.logSwap_kept, hs1]) e
          exact ShepRes.ok_keeps hs2 rfl

@[simp] theorem execDirtyLogStop_kept (s : State) (x0) :
    Out.kept (execDirtyLogStop x0 s) = some s.kept := by
  unfold execDirtyLogStop
  refine State.shepRun_kept rfl fun x01 s1 hs1 => ?_
  split
  · exact ShepRes.status_keeps hs1 rfl
  · split
    · exact ShepRes.status_keeps hs1 rfl
    · exact State.commitOwn_keeps hs1 rfl

@[simp] theorem State.setDom_kept (s : State) (k x) :
    (s.setDom k x).kept = s.kept := rfl

@[simp] theorem State.domainOn_kept (s : State) (k) :
    (s.domainOn k).kept = s.kept := by
  unfold State.domainOn
  extract_lets mine s1 s2 s3
  have hs1 : s1.kept = s.kept := by unfold s1; rw [State.kept_mk, State.tb_pending]
  have hs2 : s2.kept = s.kept := (State.withEntries_kept ..).trans hs1
  have hs3 : s3.kept = s.kept := (State.setDom_kept ..).trans hs2
  split
  · rfl
  · split
    · split
      · rw [State.bringUp_kept, hs3]
      · split <;> simp [hs3]
    · split <;> exact hs3

theorem State.dieCacheOff_keeps {s : State} {κ} (hs : s.kept = κ) {d r}
    (e : s.dieCacheOff d = r) : OptKeeps κ r := by
  subst e
  unfold State.dieCacheOff
  split
  · trivial
  · refine OptKeeps.map ?_ fun s1 hs1 => ?_
    · refine OptKeeps.foldl ?_ (fun o x ho => OptKeeps.bind ho
          fun s1 hs1 => State.flushWay_keeps hs1 rfl) _
      exact hs
    · extract_lets s2
      have hs2 : s2.kept = κ := by unfold s2; rw [State.kept_mk, State.tb_pending, hs1]
      rw [State.modDie_kept, hs2]

theorem State.foldWriteBack_keeps {s : State} {κ} (hs : s.kept = κ) {r}
    (e : s.foldWriteBack = r) : OptKeeps κ r := by
  subst e
  unfold State.foldWriteBack
  extract_lets s1 s2
  have hs1 : OptKeeps κ s1 := by
    unfold s1
    refine OptKeeps.foldl ?_ (fun o x ho => OptKeeps.bind ho
        fun s3 hs3 => State.logFlushLine_keeps hs3 rfl) _
    exact hs
  have hs2 : OptKeeps κ s2 := by
    unfold s2
    refine OptKeeps.bind hs1 fun s3 hs3 => ?_
    refine OptKeeps.foldl ?_ (fun o x ho => ?_) _
    · exact hs3
    · refine OptKeeps.bind ho fun s4 hs4 => ?_
      split
      · split
        · split
          · rename_i x1 s5 e
            have hs5 : s5.kept = κ := State.hubWrite_keeps hs4 e
            exact hs5
          · trivial
          · rename_i s5 e
            have hs5 : s5.kept = κ := State.hubWrite_keeps hs4 e
            exact hs5
          · rename_i s5 e
            have hs5 : s5.kept = κ := State.hubWrite_keeps hs4 e
            exact hs5
        · exact hs4
      · exact hs4
  exact OptKeeps.map hs2 fun s3 hs3 => by rw [State.modFold_kept, hs3]

theorem State.drainDomain_keeps {s : State} {κ} (hs : s.kept = κ) {k r}
    (e : s.drainDomain k = r) : OptKeeps κ r := by
  subst e
  unfold State.drainDomain
  split
  · extract_lets d l s1
    have hs1 : s1.kept = κ := by unfold s1; rw [State.setPortState_kept, State.setPortState_kept, hs]
    split
    · split
      · exact State.foldl_kept hs (fun s2 x hs2 => by rw [State.coreReset_kept, hs2]) _
      · trivial
    · split
      · exact State.dieCacheOff_keeps hs rfl
      · rw [optKeeps_some, State.modDie_kept, hs1]
  · extract_lets s1 ce held s2
    have hs1 : s1.kept = κ :=
      State.foldl_kept hs (fun s3 x hs3 => by rw [State.lpHandOver_kept, hs3]) _
    have hs2 : s2.kept = κ :=
      State.foldl_kept (by rw [State.kept_mk, State.tb_pending, hs]) (fun s3 x hs3 =>
          by rw [State.proxy_kept, hs3]) _
    split
    · rw [optKeeps_some, State.linkDown_kept, hs]
    · split
      · rw [optKeeps_some, State.cpSetField_kept, hs]
      · split
        · rw [optKeeps_some, State.cpSetField_kept, hs]
        · split
          · rw [optKeeps_some, State.kept_mk, State.tb_pending, hs1]
          · split
            · split
              · trivial
              · exact State.foldWriteBack_keeps hs2 rfl
            · exact hs

theorem State.domainOff_keeps {s : State} {κ} (hs : s.kept = κ) {k r}
    (e : s.domainOff k = r) : OptKeeps κ r := by
  subst e
  unfold State.domainOff
  split
  · exact hs
  · refine OptKeeps.map (State.drainDomain_keeps hs rfl) fun s1 hs1 => ?_
    extract_lets s2
    have hs2 : s2.kept = κ := (State.setDom_kept ..).trans hs1
    split <;> simp [hs2]

@[simp] theorem State.domainClock_kept (s : State) (k stop) :
    (s.domainClock k stop).kept = s.kept := by
  unfold State.domainClock
  extract_lets s1
  have hs1 : s1.kept = s.kept := State.setDom_kept ..
  split
  · rfl
  · split
    · rw [State.guarantees_kept, State.settleStacks_kept, hs1]
    · split
      · exact hs1
      · split
        · split <;> simp [hs1]
        · rw [State.cpSetField_kept, hs1]

@[simp] theorem execPowerDomain_kept (s : State) (x0) :
    Out.kept (execPowerDomain x0 s) = some s.kept := by
  unfold execPowerDomain
  refine State.shepRun_kept rfl fun x01 s1 hs1 => ?_
  extract_lets k what
  clear_value k what
  split
  · trivial
  · split
    · exact ShepRes.status_keeps (by rw [State.event_kept, State.raiseHub_kept, hs1]) rfl
    · split
      · exact ShepRes.status_keeps hs1 rfl
      · split
        · exact ShepRes.status_keeps hs1 rfl
        · split
          · exact ShepRes.status_keeps hs1 rfl
          · split
            · exact ShepRes.ok_keeps (by rw [State.domainOn_kept, hs1]) rfl
            · split
              · rename_i s2 e
                have hs2 : s2.kept = s.kept := State.domainOff_keeps hs1 e
                exact ShepRes.ok_keeps hs2 rfl
              · trivial
            · exact ShepRes.ok_keeps (by rw [State.domainClock_kept, hs1]) rfl
            · exact ShepRes.ok_keeps (by rw [State.domainClock_kept, hs1]) rfl

@[simp] theorem State.asleep_kept (s : State) :
    (s.asleep).kept = s.kept := by
  unfold State.asleep
  split <;> simp

@[simp] theorem State.saveDoms_kept (s : State) :
    (s.saveDoms).kept = s.kept := rfl

@[simp] theorem State.intoP2_kept (s : State) :
    (s.intoP2).kept = s.kept := by
  unfold State.intoP2
  extract_lets s1 s2 s3
  have hs1 : s1.kept = s.kept :=
    State.foldl_kept rfl (fun s4 x hs4 => by rw [State.modCore_kept, State.emptyL1_kept, hs4]) _
  have hs2 : s2.kept = s.kept := by unfold s2; rw [State.wakePcs_kept, State.narrowAll_kept,
      State.saveDoms_kept, hs1]
  have hs3 : s3.kept = s.kept :=
    State.foldl_kept hs2 (fun s4 x hs4 => by rw [State.setDom_kept, hs4]) _
  rw [State.traceGap_kept, State.guarantees_kept, State.settleStacks_kept, State.cpSetField_kept,
      State.cpSetField_kept, hs3]

theorem State.cachesBack_keeps {s : State} {κ} (hs : s.kept = κ) {r}
    (e : s.cachesBack = r) : OptKeeps κ r := by
  subst e
  unfold State.cachesBack
  refine OptKeeps.foldl ?_ (fun o x ho => ?_) _
  · exact hs
  · refine OptKeeps.bind ho fun s1 hs1 => ?_
    split
    · trivial
    · refine OptKeeps.foldl ?_ (fun o1 x1 ho1 => OptKeeps.bind ho1
          fun s2 hs2 => State.flushWay_keeps hs2 rfl) _
      exact hs1

theorem State.intoP3_keeps {s : State} {κ} (hs : s.kept = κ) {r}
    (e : s.intoP3 = r) : OptKeeps κ r := by
  subst e
  unfold State.intoP3
  refine OptKeeps.map ?_ fun s1 hs1 => ?_
  · exact OptKeeps.bind (State.cachesBack_keeps hs rfl)
        fun s1 hs1 => State.foldWriteBack_keeps hs1 rfl
  · extract_lets s2 s3 s4 s5 s6 s7
    have hs2 : s2.kept = κ :=
      State.foldl_kept hs1 (fun s8 x hs8 =>
          by rw [State.modHome_kept, State.keepEnter_kept, hs8]) _
    have hs3 : s3.kept = κ := by unfold s3; rw [State.saveDoms_kept, State.writeFlash_kept,
        State.closeSession_kept, State.closeSession_kept, hs2]
    have hs4 : s4.kept = κ := by unfold s4; rw [State.cpSetField_kept, State.cpSetField_kept,
        State.linkDown_kept, hs3]
    have hs5 : s5.kept = κ :=
      State.foldl_kept hs4 (fun s8 x hs8 => by rw [State.setDom_kept, hs8]) _
    have hs6 : s6.kept = κ := (State.modShep_kept ..).trans hs5
    have hs7 : s7.kept = κ := by unfold s7; rw [State.cpSetField_kept, State.cpSetField_kept, hs6]
    rw [State.kept_mk, State.tb_pending, hs7]

@[simp] theorem execPowerState_kept (s0 : State) (x0) :
    Out.kept (execPowerState x0 s0) = some s0.kept := by
  unfold execPowerState
  refine State.shepRun_kept rfl fun x01 s1 hs1 => ?_
  extract_lets n q s2
  have hs2 : s2.kept = s0.kept := by unfold s2; rw [State.wakePcs_kept, State.cpSetField_kept,
      State.modShep_kept, hs1]
  split
  · exact ShepRes.status_keeps hs1 rfl
  · split
    · trivial
    · split
      · split
        · trivial
        · refine ShepRes.ok_keeps ?_ rfl
          split
          · rw [State.traceGap_kept, State.forfeit_kept, hs2]
          · exact hs2
      · split
        · exact ShepRes.status_keeps hs1 rfl
        · split
          · split
            · trivial
            · rw [ShepRes.keeps_later, State.cpSetField_kept, State.haltWhere_kept]
          · split
            · trivial
            · split
              · rw [ShepRes.keeps_later, State.asleep_kept, State.intoP2_kept, State.modShep_kept, hs1]
              · split
                · rename_i s3 e
                  have hs3 : s3.kept = s0.kept := State.intoP3_keeps hs1 e
                  rw [ShepRes.keeps_later, State.asleep_kept, hs3]
                · trivial

@[simp] theorem execPowerStatus_kept (s : State) (x0) :
    Out.kept (execPowerStatus x0 s) = some s.kept := by
  unfold execPowerStatus
  exact State.shepRun_kept rfl fun x01 s1 hs1 => ShepRes.ok_keeps hs1 rfl

@[simp] theorem execFaultRead_kept (s : State) (x0) :
    Out.kept (execFaultRead x0 s) = some s.kept := by
  unfold execFaultRead
  refine State.shepRun_kept rfl fun x01 s1 hs1 => ?_
  extract_lets i n l b
  split
  · exact ShepRes.status_keeps hs1 rfl
  · exact State.withReply_keeps hs1 (ShepRes.ok_keeps hs1 rfl) rfl

@[simp] theorem execFaultAck_kept (s : State) (x0) :
    Out.kept (execFaultAck x0 s) = some s.kept := by
  unfold execFaultAck
  refine State.shepRun_kept rfl fun x01 s1 hs1 => ?_
  extract_lets i
  split
  · exact ShepRes.ok_keeps (by rw [State.pins_kept, State.modLog_kept, hs1]) rfl
  · exact ShepRes.status_keeps hs1 rfl

@[simp] theorem execDomainStop_kept (s : State) (x0) :
    Out.kept (execDomainStop x0 s) = some s.kept := by
  unfold execDomainStop
  exact State.shepRun_kept rfl
      fun x01 s1 hs1 => ShepRes.ok_keeps (by rw [State.cds_kept, hs1]) rfl

@[simp] theorem execCoverageRead_kept (s : State) (x0) :
    Out.kept (execCoverageRead x0 s) = some s.kept := by
  unfold execCoverageRead
  exact State.shepRun_kept rfl fun x01 s1 hs1 => ShepRes.ok_keeps hs1 rfl

@[simp] theorem execMirrorStatus_kept (s : State) (x0) :
    Out.kept (execMirrorStatus x0 s) = some s.kept := by
  unfold execMirrorStatus
  exact State.shepRun_kept rfl fun x01 s1 hs1 => ShepRes.ok_keeps hs1 rfl

@[simp] theorem execMirrorRole_kept (s : State) (x0) :
    Out.kept (execMirrorRole x0 s) = some s.kept := by
  unfold execMirrorRole
  refine State.shepRun_kept rfl fun x01 s1 hs1 => ?_
  split
  · exact ShepRes.status_keeps hs1 rfl
  · split
    · exact ShepRes.status_keeps hs1 rfl
    · exact State.commitOwn_keeps hs1 rfl

@[simp] theorem execMirrorResync_kept (s : State) (x0) :
    Out.kept (execMirrorResync x0 s) = some s.kept := by
  unfold execMirrorResync
  refine State.shepRun_kept rfl fun x01 s1 hs1 => ?_
  extract_lets heard
  split
  · exact ShepRes.status_keeps hs1 rfl
  · exact ShepRes.ok_keeps (by rw [State.startBase_kept, hs1]) rfl

@[simp] theorem execCoreSwap_kept (s : State) (x0) :
    Out.kept (execCoreSwap x0 s) = some s.kept := by
  unfold execCoreSwap
  refine State.shepRun_kept rfl fun x01 s1 hs1 => ?_
  extract_lets p site slot k
  clear_value p site slot k
  split
  · extract_lets lc
    clear_value lc
    split
    · exact ShepRes.status_keeps hs1 rfl
    · split
      · exact ShepRes.status_keeps hs1 rfl
      · extract_lets choice
        clear_value choice
        split
        · exact ShepRes.status_keeps hs1 rfl
        · split <;> simp [hs1]
  · exact ShepRes.status_keeps hs1 rfl

@[simp] theorem execWlSwap_kept (s : State) (x0) :
    Out.kept (execWlSwap x0 s) = some s.kept := by
  unfold execWlSwap
  refine State.shepRun_kept rfl fun x01 s1 hs1 => ?_
  extract_lets p st
  split
  · exact ShepRes.status_keeps hs1 rfl
  · split
    · exact ShepRes.status_keeps hs1 rfl
    · exact State.commitOwn_keeps hs1 rfl

@[simp] theorem execLaserSwitch_kept (s : State) (x0) :
    Out.kept (execLaserSwitch x0 s) = some s.kept := by
  unfold execLaserSwitch
  refine State.shepRun_kept rfl fun x01 s1 hs1 => ?_
  extract_lets s2
  have hs2 : s2.kept = s.kept := (State.xfade_kept ..).trans hs1
  exact ShepRes.ok_keeps hs2 rfl

@[simp] theorem execCertLoad_kept (s : State) (x0) :
    Out.kept (execCertLoad x0 s) = some s.kept := by
  unfold execCertLoad
  refine State.shepRun_kept rfl fun x01 s1 hs1 => ?_
  split
  · trivial
  · rename_i s2 e
    have hs2 : s2.kept = s.kept := State.pbufBytes_keeps hs1 e
    exact ShepRes.status_keeps hs2 rfl
  · rename_i s2 e
    have hs2 : s2.kept = s.kept := State.pbufBytes_keeps hs1 e
    exact ShepRes.status_keeps hs2 rfl
  · rename_i b s2 e
    have hs2 : s2.kept = s.kept := State.pbufBytes_keeps hs1 e
    split
    · exact ShepRes.status_keeps hs2 rfl
    · extract_lets w s3 src s4
      have hs3 : s3.kept = s.kept := (State.closeSession_kept ..).trans hs2
      have hs4 : s4.kept = s.kept := by unfold s4; rw [State.kept_mk, State.tb_pending, hs3]
      exact ShepRes.ok_keeps hs4 rfl

@[simp] theorem execCertClose_kept (s : State) (x0) :
    Out.kept (execCertClose x0 s) = some s.kept := by
  unfold execCertClose
  refine State.shepRun_kept rfl fun x01 s1 hs1 => ?_
  split
  · split
    · exact ShepRes.ok_keeps (by rw [State.closeSession_kept, hs1]) rfl
    · exact ShepRes.status_keeps hs1 rfl
  · exact ShepRes.status_keeps hs1 rfl

@[simp] theorem execCertStatus_kept (s : State) (x0) :
    Out.kept (execCertStatus x0 s) = some s.kept := by
  unfold execCertStatus
  refine State.shepRun_kept rfl fun x01 s1 hs1 => ?_
  split <;> exact ShepRes.ok_keeps hs1 rfl

@[simp] theorem execSetSecureTime_kept (s : State) (x0) :
    Out.kept (execSetSecureTime x0 s) = some s.kept := by
  unfold execSetSecureTime
  refine State.shepRun_kept rfl fun x01 s1 hs1 => ?_
  extract_lets t scnt s2 now
  have hs2 : s2.kept = s.kept := by unfold s2; rw [State.kept_mk, State.tb_pending, hs1]
  split
  · exact ShepRes.status_keeps hs1 rfl
  · exact ShepRes.ok_keeps hs2 rfl

@[simp] theorem execImageWrite_kept (s : State) (x0) :
    Out.kept (execImageWrite x0 s) = some s.kept := by
  unfold execImageWrite
  refine State.shepRun_kept rfl fun x01 s1 hs1 => ?_
  split
  · exact ShepRes.status_keeps hs1 rfl
  · split
    · exact ShepRes.status_keeps hs1 rfl
    · split
      · trivial
      · rename_i s2 e
        have hs2 : s2.kept = s.kept := State.pbufBytes_keeps hs1 e
        exact ShepRes.status_keeps hs2 rfl
      · rename_i s2 e
        have hs2 : s2.kept = s.kept := State.pbufBytes_keeps hs1 e
        exact ShepRes.status_keeps hs2 rfl
      · rename_i b s2 e
        have hs2 : s2.kept = s.kept := State.pbufBytes_keeps hs1 e
        exact ShepRes.ok_keeps (by rw [State.modShep_kept, hs2]) rfl

@[simp] theorem execImageVerify_kept (s : State) (x0) :
    Out.kept (execImageVerify x0 s) = some s.kept := by
  unfold execImageVerify
  refine State.shepRun_kept rfl fun x01 s1 hs1 => ?_
  split
  · exact ShepRes.status_keeps hs1 rfl
  · split
    · exact ShepRes.status_keeps hs1 rfl
    · exact ShepRes.ok_keeps hs1 rfl

@[simp] theorem execImageActivate_kept (s : State) (x0) :
    Out.kept (execImageActivate x0 s) = some s.kept := by
  unfold execImageActivate
  refine State.shepRun_kept rfl fun x01 s1 hs1 => ?_
  split
  · exact ShepRes.status_keeps hs1 rfl
  · exact ShepRes.ok_keeps (by rw [State.modShep_kept, hs1]) rfl

@[simp] theorem execImageConfirm_kept (s : State) (x0) :
    Out.kept (execImageConfirm x0 s) = some s.kept := by
  unfold execImageConfirm
  refine State.shepRun_kept rfl fun x01 s1 hs1 => ?_
  extract_lets i svn
  split
  · exact ShepRes.status_keeps hs1 rfl
  · split
    · exact ShepRes.status_keeps hs1 rfl
    · exact ShepRes.ok_keeps (by rw [State.cpSet64_kept, hs1]) rfl

@[simp] theorem execFwSwitch_kept (s : State) (x0) :
    Out.kept (execFwSwitch x0 s) = some s.kept := by
  unfold execFwSwitch
  refine State.shepRun_kept rfl fun x01 s1 hs1 => ?_
  extract_lets slot
  split
  · exact ShepRes.status_keeps hs1 rfl
  · split
    · trivial
    · split
      · exact ShepRes.status_keeps hs1 rfl
      · rw [ShepRes.keeps_later, State.modShep_kept, hs1]

@[simp] theorem execSwitchGap_kept (s : State) :
    Out.kept (execSwitchGap s) = some s.kept := by
  unfold execSwitchGap
  split
  · rfl
  · extract_lets slot s1
    have hs1 : s1.kept = s.kept := State.modShep_kept ..
    split
    · rfl
    · split
      rename_i b s2 e
      have hs2 : s2.kept = s.kept := State.takeFree_kept hs1 e
      split
      · extract_lets s11
        have hs11 : s11.kept = s.kept := (State.modShep_kept ..).trans hs2
        exact congrArg some (OptKeeps.getD (State.answerShep_keeps hs11 rfl) rfl)
      · exact congrArg some (OptKeeps.getD (State.answerShep_keeps hs2 rfl) rfl)

@[simp] theorem execSnapConfig_kept (s : State) (x0) :
    Out.kept (execSnapConfig x0 s) = some s.kept := by
  unfold execSnapConfig
  refine State.shepRun_kept rfl fun x01 s1 hs1 => ?_
  extract_lets n src
  split
  · exact ShepRes.status_keeps hs1 rfl
  · exact ShepRes.ok_keeps (by rw [State.kept_mk, State.tb_pending, hs1]) rfl

@[simp] theorem execSnapRead_kept (s : State) (x0) :
    Out.kept (execSnapRead x0 s) = some s.kept := by
  refine State.shepRun_kept rfl fun c t ht => ?_
  have hst : ∀ n, ShepRes.Keeps s.kept (ShepRes.status n t) := fun n => ShepRes.status_keeps ht rfl
  exact ShepRes.keeps_ite (hst _) (ShepRes.keeps_ite (hst _)
    (State.withReply_keeps ht (ShepRes.ok_keeps (by rw [State.kept_mk, State.tb_pending, ht]) rfl) rfl))

@[simp] theorem State.startJob_kept (s : State) (j) :
    (s.startJob j).kept = s.kept := by
  unfold State.startJob
  rw [State.feedJobs_kept, State.modShep_kept]

@[simp] theorem execCpRead_kept (s : State) (x0) :
    Out.kept (execCpRead x0 s) = some s.kept := by
  unfold execCpRead
  refine State.shepRun_kept rfl fun x01 s1 hs1 => ?_
  extract_lets n
  split
  · exact ShepRes.status_keeps hs1 rfl
  · refine State.withReply_keeps ?_ ?_ rfl
    · exact hs1
    · rw [ShepRes.keeps_later, State.startJob_kept, hs1]

@[simp] theorem execCpWrite_kept (s : State) (x0) :
    Out.kept (execCpWrite x0 s) = some s.kept := by
  unfold execCpWrite
  refine State.shepRun_kept rfl fun x01 s1 hs1 => ?_
  extract_lets a
  split <;> simp [hs1]

@[simp] theorem execBadOpcode_kept (s : State) (x0) :
    Out.kept (execBadOpcode x0 s) = some s.kept := by
  unfold execBadOpcode
  split
  · rfl
  · exact State.shepRun_kept rfl fun x01 s1 hs1 => ShepRes.status_keeps hs1 rfl

@[simp] theorem State.clearPmu_kept (s : State) (lc) :
    (s.clearPmu lc).kept = s.kept := rfl

@[simp] theorem execPmuClear_kept (s : State) (lc) :
    Out.kept (execPmuClear lc s) = some s.kept := rfl

@[simp] theorem execCounterLoRead_kept (s : State) (a) :
    Out.kept (execCounterLoRead a s) = some s.kept := by
  unfold execCounterLoRead
  split
  · exact congrArg some (State.cpRead_kept rfl rfl)
  · rfl

@[simp] theorem execPeakClear_kept (s : State) (a) :
    Out.kept (execPeakClear a s) = some s.kept := by
  unfold execPeakClear
  extract_lets off
  split
  · split
    · exact congrArg some (State.cpWriteWord_kept rfl rfl)
    · rfl
  · split
    · exact congrArg some (State.cpWriteWord_kept rfl rfl)
    · rfl
  · rfl

@[simp] theorem execRailMinClear_kept (s : State) (rail) :
    Out.kept (execRailMinClear rail s) = some s.kept := by
  unfold execRailMinClear
  split
  · exact congrArg some (State.cpWriteWord_kept rfl rfl)
  · rfl

@[simp] theorem execLpClear_kept (s : State) (k) :
    Out.kept (execLpClear k s) = some s.kept := by
  unfold execLpClear
  split <;> simp

@[simp] theorem execTraceEn_kept (s : State) (k on) :
    Out.kept (execTraceEn k on s) = some s.kept := by
  unfold execTraceEn
  split
  · rfl
  · refine congrArg some ?_
    split <;> simp

@[simp] theorem execTraceDataRead_kept (s : State) (k) :
    Out.kept (execTraceDataRead k s) = some s.kept := by
  unfold execTraceDataRead
  split
  · rfl
  · refine congrArg some ?_
    rw [State.lpNext_kept]
    exact State.lpWord_kept rfl rfl

@[simp] theorem State.select_kept (s : State) (code world isOpen) :
    (s.select code world isOpen).kept = s.kept := rfl

@[simp] theorem execExtest_kept (s : State) (cells) :
    Out.kept (execExtest cells s) = some s.kept := by
  simp [execExtest]

@[simp] theorem execSamplePreload_kept (s : State) (cells) :
    Out.kept (execSamplePreload cells s) = some s.kept := by
  simp [execSamplePreload]

@[simp] theorem execIdcode_kept (s : State) :
    Out.kept (execIdcode s) = some s.kept := by
  simp [execIdcode]

@[simp] theorem execIjtagAccess_kept (s : State) (world) :
    Out.kept (execIjtagAccess world s) = some s.kept := rfl

@[simp] theorem execBypass_kept (s : State) :
    Out.kept (execBypass s) = some s.kept := rfl

@[simp] theorem State.dbgResult_kept (s : State) (x1 data) :
    (s.dbgResult x1 data).kept = s.kept := rfl

theorem State.dbgOp_kept {s : State} {κ} (hs : s.kept = κ) {world lc f}
    (hf : ∀ t0, t0.kept = κ → (f t0).kept = κ) :
    Out.kept (s.dbgOp world lc f) = some κ := by
  unfold State.dbgOp
  split
  · exact congrArg some hs
  · split
    · rw [Out.kept_next, State.dbgResult_kept, hs]
    · refine congrArg some ?_
      apply hf
      exact hs

@[simp] theorem execDbgStatus_kept (s : State) (world lc) :
    Out.kept (execDbgStatus world lc s) = some s.kept := by
  unfold execDbgStatus
  refine State.dbgOp_kept rfl fun s1 hs1 => ?_
  rw [State.dbgResult_kept, hs1]

@[simp] theorem execDbgHalt_kept (s : State) (world lc) :
    Out.kept (execDbgHalt world lc s) = some s.kept := by
  unfold execDbgHalt
  refine State.dbgOp_kept rfl fun s1 hs1 => ?_
  extract_lets s2 src s3
  have hs2 : s2.kept = s.kept := by unfold s2; rw [State.halt_kept, State.abandon_kept, hs1]
  have hs3 : s3.kept = s.kept := by unfold s3; split <;> exact hs2
  rw [State.dbgResult_kept, hs3]

@[simp] theorem execDbgResume_kept (s : State) (world lc) :
    Out.kept (execDbgResume world lc s) = some s.kept := by
  unfold execDbgResume
  refine State.dbgOp_kept rfl fun s1 hs1 => ?_
  extract_lets l src s2 s3
  have hs2 : s2.kept = s.kept := by unfold s2; rw [State.kept_mk, State.tb_pending, hs1]
  have hs3 : s3.kept = s.kept := by unfold s3; split <;> simp [hs2]
  split <;> simp [hs1, hs3]

theorem State.dbgHaltedOp_kept {s : State} {κ} (hs : s.kept = κ) {world lc f}
    (hf : ∀ t0, t0.kept = κ → (f t0).kept = κ) :
    Out.kept (s.dbgHaltedOp world lc f) = some κ := by
  unfold State.dbgHaltedOp
  refine State.dbgOp_kept hs fun s1 hs1 => ?_
  split
  · rw [State.dbgResult_kept, hs1]
  · split
    · rw [State.dbgResult_kept, hs1]
    · apply hf
      exact hs1

@[simp] theorem execDbgStep_kept (s : State) (world lc) :
    Out.kept (execDbgStep world lc s) = some s.kept := by
  unfold execDbgStep
  refine State.dbgHaltedOp_kept rfl fun s1 hs1 => ?_
  split <;> simp [hs1]

@[simp] theorem execDbgRdreg_kept (s : State) (world lc reg) :
    Out.kept (execDbgRdreg world lc reg s) = some s.kept := by
  unfold execDbgRdreg
  refine State.dbgHaltedOp_kept rfl fun s1 hs1 => ?_
  extract_lets c n
  split
  · rw [State.dbgResult_kept, hs1]
  · repeat' split
    all_goals rw [State.dbgResult_kept, hs1]

@[simp] theorem execDbgWrreg_kept (s : State) (world lc reg data) :
    Out.kept (execDbgWrreg world lc reg data s) = some s.kept := by
  unfold execDbgWrreg
  refine State.dbgHaltedOp_kept rfl fun s1 hs1 => ?_
  split <;> simp [hs1]

@[simp] theorem execDbgSetaddr_kept (s : State) (world lc a) :
    Out.kept (execDbgSetaddr world lc a s) = some s.kept := by
  unfold execDbgSetaddr
  refine State.dbgOp_kept rfl fun s1 hs1 => ?_
  extract_lets src s2
  have hs2 : s2.kept = s.kept := by unfold s2; rw [State.kept_mk, State.tb_pending, hs1]
  rw [State.dbgResult_kept, hs2]

@[simp] theorem State.dbgMemEnd_kept (s : State) (lc x2 data) :
    (s.dbgMemEnd lc x2 data).kept = s.kept := by
  unfold State.dbgMemEnd
  split <;> simp

@[simp] theorem execDbgRdmem_kept (s : State) (world lc) :
    Out.kept (execDbgRdmem world lc s) = some s.kept := by
  unfold execDbgRdmem
  refine State.dbgHaltedOp_kept rfl fun s1 hs1 => ?_
  split
  · rw [State.dbgResult_kept, hs1]
  · split
    · rw [State.dbgResult_kept, hs1]
    · rename_i s2 e
      have hs2 : s2.kept = s.kept := State.halves_keeps hs1 e
      rw [State.dbgResult_kept, hs2]
    · rename_i e s2 e1
      have hs2 : s2.kept = s.kept := State.halves_keeps hs1 e1
      rw [State.dbgMemEnd_kept, hs2]
    · rename_i ps walk s2 e
      have hs2 : s2.kept = s.kept := State.halves_keeps hs1 e
      split
      · rw [State.dbgResult_kept, hs2]
      · extract_lets line give
        have hgive : ∀ t0 x1 x2, t0.kept = s.kept → (give t0 x1 x2).kept = s.kept := by
          intro s3 x1 x2 hs3
          unfold give
          split <;> rw [State.dbgMemEnd_kept, hs3]
        split
        · apply hgive
          exact hs2
        · rw [State.dbgMemEnd_kept, hs2]
        · split
          · rename_i d pois beats s3 e1
            have hs3 : LineRead.Keeps s.kept (LineRead.hit d pois beats s3) := by
              rw [← e1]
              exact State.readPart_kept hs2 rfl
            replace hs3 : s3.kept = s.kept := hs3
            apply hgive
            exact hs3
          · rename_i s3 e1
            have hs3 : LineRead.Keeps s.kept (LineRead.bus s3) := by
              rw [← e1]
              exact State.readPart_kept hs2 rfl
            replace hs3 : s3.kept = s.kept := hs3
            rw [State.dbgMemEnd_kept, hs3]
          · rename_i s3 e1
            have hs3 : LineRead.Keeps s.kept (LineRead.sent s3) := by
              rw [← e1]
              exact State.readPart_kept hs2 rfl
            replace hs3 : s3.kept = s.kept := hs3
            rw [State.dbgResult_kept, State.awaitLine_kept, hs3]
          · rw [State.dbgResult_kept, hs2]

@[simp] theorem execDbgWrmem_kept (s : State) (world lc data) :
    Out.kept (execDbgWrmem world lc data s) = some s.kept := by
  unfold execDbgWrmem
  refine State.dbgHaltedOp_kept rfl fun s1 hs1 => ?_
  extract_lets c n
  split
  · rw [State.dbgResult_kept, hs1]
  · extract_lets bad s2 src s3
    have hs2 : s2.kept = s.kept := (State.modCore_kept ..).trans hs1
    have hs3 : s3.kept = s.kept := by unfold s3; rw [State.kept_mk, State.tb_pending, hs2]
    split <;> simp [hs1, hs3]
  · split
    · rw [State.dbgResult_kept, hs1]
    · split
      · rw [State.dbgResult_kept, hs1]
      · rename_i s2 e
        have hs2 : s2.kept = s.kept := State.halves_keeps hs1 e
        rw [State.dbgResult_kept, hs2]
      · rename_i e s2 e1
        have hs2 : s2.kept = s.kept := State.halves_keeps hs1 e1
        rw [State.dbgMemEnd_kept, hs2]
      · rename_i ps walk s2 e
        have hs2 : s2.kept = s.kept := State.halves_keeps hs1 e
        extract_lets s3 s4 src s5
        have hs3 : s3.kept = s.kept := (State.abandon_kept ..).trans hs2
        have hs4 : s4.kept = s.kept := (State.modCore_kept ..).trans hs3
        have hs5 : s5.kept = s.kept := by unfold s5; rw [State.kept_mk, State.tb_pending, hs4]
        rw [State.dbgResult_kept, hs5]

@[simp] theorem execRegisterWrite_kept (s : State) (a v) :
    Out.kept (execRegisterWrite a v s) = some s.kept := by
  unfold execRegisterWrite
  split
  · rfl
  · exact congrArg some (State.cpWriteWord_kept rfl rfl)

@[simp] theorem execDlUp_kept (s : State) :
    Out.kept (execDlUp s) = some s.kept := by
  unfold execDlUp
  split
  · rfl
  · split
    rename_i b s1 e
    have hs1 : s1.kept = s.kept := State.takeFree_kept rfl e
    split
    rename_i b1 s2 e1
    have hs2 : s2.kept = s.kept := State.takeFree_kept hs1 e1
    extract_lets s3
    have hs3 : s3.kept = s.kept := (State.cpSetField_kept ..).trans hs2
    rw [Out.kept_next, State.cpSetField_kept, State.cpSetField_kept, hs3]

@[simp] theorem execMirrorLinkUp_kept (s : State) :
    Out.kept (execMirrorLinkUp s) = some s.kept := by
  unfold execMirrorLinkUp
  split <;> simp

@[simp] theorem execSupplyResetRelease_kept (s : State) (b) :
    Out.kept (execSupplyResetRelease b s) = some s.kept := by
  unfold execSupplyResetRelease
  split <;> simp

@[simp] theorem execRtrBwWindowEnd_kept (s : State) (st t) :
    Out.kept (execRtrBwWindowEnd st t s) = some (s.advance t).kept := by
  unfold execRtrBwWindowEnd
  extract_lets s1
  have hs1 : s1.kept = (s.advance t).kept := rfl
  split
  · split
    · exact congrArg some hs1
    · refine congrArg some ?_
      refine State.foldl_kept hs1 (fun s2 x hs2 => ?_) _
      extract_lets s3
      have hs3 : s3.kept = (s.advance t).kept := (State.cpSet_kept ..).trans hs2
      rw [State.kept_mk, State.tb_pending, hs3]
  · exact congrArg some hs1

@[simp] theorem execCoreBistDone_kept (s : State) (die slot pass) :
    Out.kept (execCoreBistDone die slot pass s) = some s.kept := by
  unfold execCoreBistDone
  extract_lets k s1 s2
  have hs1 : s1.kept = s.kept := State.modShep_kept ..
  have hs2 : s2.kept = s.kept := State.modShep_kept ..
  split
  · split
    · exact congrArg some hs1
    · split <;> simp [hs1]
  · split
    · split
      · exact congrArg some hs2
      · split <;> simp [hs2]
    · rfl

@[simp] theorem execCoreDebug_kept (s : State) (world) :
    Out.kept (execCoreDebug world s) = some s.kept := rfl

@[simp] theorem execUartTxDone_kept (s : State) (u) :
    Out.kept (execUartTxDone u s) = some s.kept := by
  unfold execUartTxDone
  extract_lets x
  split <;> simp

@[simp] theorem execUnitReleaseDelay_kept (s : State) (unit t) :
    Out.kept (execUnitReleaseDelay unit t s) = some (s.advance t).kept := by
  unfold execUnitReleaseDelay
  extract_lets s1
  have hs1 : s1.kept = (s.advance t).kept := rfl
  split
  · exact congrArg some hs1
  · extract_lets s11
    have hs11 : s11.kept = (s.advance t).kept := (State.modShep_kept ..).trans hs1
    split
    · exact congrArg some hs1
    · split
      · exact congrArg some hs1
      · rename_i s2 e
        have hs2 : s2.kept = (s.advance t).kept := State.release_keeps hs11 e
        exact congrArg some hs2
      · rename_i st s2 data detail e
        have hs2 : s2.kept = (s.advance t).kept := State.release_keeps hs11 e
        exact congrArg some (OptKeeps.getD (State.answerShep_keeps hs2 rfl) hs1)

end Sys2Proof.Machine

end

