-- ==== Sys2Proof/Proofs/TimeNeverTurnsBack.lean ====
section
namespace Sys2Proof.Machine

/-- The command ends in a state with the same queue, whose TB_NOW is not before that of `s`. -/
def Out.NotBefore (s : State) (o : Out) : Prop :=
  ∃ now : Word, s.tb ≤ now ∧ Out.kept o = some (now, s.pending)

theorem Out.notBefore_of_kept {s : State} {o : Out} (h : Out.kept o = some s.kept) : Out.NotBefore s o :=
  ⟨s.tb, BitVec.le_refl _, h⟩

/-- A command that comes due advances reference time and leaves TB_NOW alone otherwise. -/
theorem Out.notBefore_of_advance {s : State} {t : Word} {o : Out}
    (h : Out.kept o = some (s.advance t).kept) : Out.NotBefore s o :=
  ⟨(s.advance t).tb, BitVec.le_def.2 (s.advance_tb t ▸ Nat.le_max_left ..),
    h.trans (congrArg (fun q => some ((s.advance t).tb, q)) (s.advance_pending t))⟩

/-- Every command but the island's power leaves the queue and does not turn TB_NOW back: those that come due at an
instant advance reference time to it, all others leave it. -/
theorem exec_notBefore (i : Instr) (s : State) (h : Claims.islandPower i = false) :
    Out.NotBefore s (exec i s) := by
  cases i with
  | vauxLoss => cases h
  | vauxPowerUp => cases h
  | supplyReset rail mv => exact Out.notBefore_of_kept (execSupplyReset_kept s rail mv (of_decide_eq_false h))
  | lapOverdue => exact Out.notBefore_of_advance (execLapOverdue_kept ..)
  | beatRateWindow => exact Out.notBefore_of_advance (execBeatRateWindow_kept ..)
  | regWindowStart => exact Out.notBefore_of_advance (execRegWindowStart_kept ..)
  | measWindowEnd => exact Out.notBefore_of_advance (execMeasWindowEnd_kept ..)
  | laserSample => exact Out.notBefore_of_advance (execLaserSample_kept ..)
  | rtrBwWindowEnd => exact Out.notBefore_of_advance (execRtrBwWindowEnd_kept ..)
  | stageIdleAbort => exact Out.notBefore_of_advance (execStageIdleAbort_kept ..)
  | unitReleaseDelay => exact Out.notBefore_of_advance (execUnitReleaseDelay_kept ..)
  | snapshotInstant => exact Out.notBefore_of_advance (execSnapshotInstant_kept ..)
  | heartbeatToggle => exact Out.notBefore_of_advance (execHeartbeatToggle_kept ..)
  | auditLatch => exact Out.notBefore_of_advance (execAuditLatch_kept ..)
  | reflSlot => exact Out.notBefore_of_advance (execReflSlot_kept ..)
  | cut => exact Out.notBefore_of_advance (execCut_kept ..)
  | hbSend => exact Out.notBefore_of_advance (execHbSend_kept ..)
  | hbMiss => exact Out.notBefore_of_advance (execHbMiss_kept ..)
  | shedEngage => exact Out.notBefore_of_advance (execShedEngage_kept ..)
  | shed5Delay => exact Out.notBefore_of_advance (execShed5Delay_kept ..)
  | shedLift => exact Out.notBefore_of_advance (execShedLift_kept ..)
  | deadline lc t => exact Out.notBefore_of_advance (execDeadline_kept s lc t)
  | _ => exact Out.notBefore_of_kept (by simp [exec])

/-- Settles O60: a command acts on TB_NOW only by reaching the instant it comes due at (`exec_notBefore`), and
reference time that advances is never before the present one. -/
theorem timeNeverTurnsBack : Obligations.TimeNeverTurnsBack := by
  unfold Obligations.TimeNeverTurnsBack
  intro i s t hi ht
  obtain ⟨now, hnow, hout⟩ := exec_notBefore i s hi
  rw [ht, Out.kept_next, Option.some.injEq] at hout
  rwa [show t.tb = now from congrArg Prod.fst hout]

end Sys2Proof.Machine

end

