-- ==== Sys2Proof/Proofs/InterruptRegisters.lean ====
section
/-! SUPPORT. The registers of interrupts: what the masks of a word name, what a change of a distributor's
sources does to each source, and what a write of a word is (R127, R131 to R134, R136). -/

namespace Sys2Proof.Machine

open Sys2Proof.Claims

/-! Masks built bit by bit. -/

theorem getLsbD_setBit_true (m : BitVec 32) (j i : Nat) (hi : i < 32) :
    (setBit m j true).getLsbD i = (decide (i = j) || m.getLsbD i) := by
  rw [setBit, getLsbD_setField]
  by_cases h : i = j
  · subst h; simp [hi]
  · rw [if_neg (by omega)]; simp [h]

/-- A mask of the bits that pass a test has bit `i` where `i` passes it. -/
theorem getLsbD_foldl_setBit (p : Nat → Bool) (n i : Nat) (hi : i < 32) :
    ((List.range n).foldl (fun (m : BitVec 32) j => if p j then setBit m j true else m) 0).getLsbD i =
      (decide (i < n) && p i) := by
  induction n with
  | zero => simp
  | succ n ih =>
    rw [List.range_succ, List.foldl_append, List.foldl_cons, List.foldl_nil]
    by_cases h : i = n
    · subst h
      cases hp : p i
      · simpa [hp] using ih
      · simp [getLsbD_setBit_true _ _ _ hi]
    · have hlt : i < n + 1 ↔ i < n := by omega
      cases p n
      · simpa [hlt] using ih
      · simpa [hlt, h, getLsbD_setBit_true _ _ _ hi] using ih

theorem State.getLsbD_sourceMask (s : State) (d : Die) (k : Nat) (w : Accessor) {j : Nat} (hj : j < 32) :
    (s.sourceMask d k w).getLsbD j = (sharedId (32 * k + j) && s.maySource d (32 * k + j) w) := by
  rw [State.sourceMask, getLsbD_foldl_setBit _ _ _ hj]
  simp [hj]

theorem Cii.getLsbD_accessMask (x : Cii) (w : Accessor) {i : Nat} (hi : i < 32) :
    (x.accessMask w).getLsbD i = x.mayAccess i w := by
  rw [Cii.accessMask, getLsbD_foldl_setBit _ _ _ hi]
  simp [hi]

/-- A word written with all four of its bytes is written whole. -/
theorem and_ofNat_maskOf_four (b : Word32) : BitVec.ofNat 32 b.toNat &&& BitVec.ofNat 32 (maskOf 4 15) = b := by
  rw [BitVec.ofNat_toNat, BitVec.setWidth_eq]
  exact BitVec.and_allOnes

/-! Sources of a distributor. -/

theorem Intd.src_modSrc (x : Intd) (i j : Nat) (f : IntSrc → IntSrc) :
    (x.modSrc i f).src j = if j = i then f (x.src i) else x.src j := by
  by_cases h : j = i
  · subst h
    rw [if_pos rfl]
    exact SMap.get_set_self ..
  · rw [if_neg h]
    show SMap.get (IntSrc.reset j) (SMap.set (IntSrc.reset i) x.srcs i (f (x.src i))) j = _
    unfold SMap.set
    split
    · exact SMap.get_erase_of_ne _ _ h
    · exact SMap.get_insert_of_ne _ _ _ h

/-- The sources of word `k` that a mask names are changed, each once, and no others. -/
theorem Intd.src_foldl_modSrc (x : Intd) (k : Nat) (m : BitVec 32) (f : Nat → IntSrc → IntSrc) (n i : Nat) :
    ((List.range n).foldl (fun y j => if bit m j then y.modSrc (32 * k + j) (f j) else y) x).src i =
      if 32 * k ≤ i ∧ i < 32 * k + n ∧ bit m (i - 32 * k) = true then f (i - 32 * k) (x.src i)
      else x.src i := by
  induction n with
  | zero => rw [if_neg (by omega)]; rfl
  | succ n ih =>
    rw [List.range_succ, List.foldl_append, List.foldl_cons, List.foldl_nil]
    by_cases h : i = 32 * k + n
    · subst h
      rw [if_neg (by omega)] at ih
      cases hb : bit m n <;> simp [hb, Intd.src_modSrc, ih]
    · have hlt : i < 32 * k + (n + 1) ↔ i < 32 * k + n := by omega
      simp only [hlt, ← ih]
      split
      · rw [Intd.src_modSrc, if_neg h]
      · rfl

theorem Intd.en_foldl_modSrc (x : Intd) (k : Nat) (m : BitVec 32) (f : Nat → IntSrc → IntSrc) (l : List Nat) :
    (l.foldl (fun y j => if bit m j then y.modSrc (32 * k + j) (f j) else y) x).en = x.en := by
  induction l generalizing x with
  | nil => rfl
  | cons j t ih =>
    rw [List.foldl_cons, ih]
    split <;> rfl

theorem onlySources_imp {d : Die} {ids : Nat → Bool} {p q : Nat → IntSrc → IntSrc → Prop} {s w : State}
    (h : OnlySources d ids p s w) (hpq : ∀ i a b, p i a b → q i a b) : OnlySources d ids q s w :=
  ⟨fun i hi => hpq _ _ _ (h.1 i hi), h.2⟩

theorem onlySources_modSrc (s : State) (d : Die) (n : Nat) (f : IntSrc → IntSrc) :
    OnlySources d (· == n) (fun _ a b => b = f a) s (s.modSrc d n f) := by
  have hsrc : ∀ i, ((s.modSrc d n f).die d).intd.src i =
      if i = n then f ((s.die d).intd.src n) else (s.die d).intd.src i := fun i => by
    rw [State.modSrc, State.die_modDie, Intd.src_modSrc]
  refine ⟨fun i hi => ?_, fun i hi => ?_, ?_, fun e he => State.die_modDie_of_ne _ _ he, rfl, rfl⟩
  · obtain rfl : i = n := by simpa using hi
    rw [hsrc, if_pos rfl]
  · rw [hsrc, if_neg (by simpa using hi)]
  · rw [State.modSrc, State.die_modDie]; rfl

/-- The sources that a write of word `k` reaches are those of the word that its mask names. -/
theorem reached_iff (s : State) (d : Die) (k : Nat) (bits : Word32) (who : Accessor) (i : Nat) :
    reached s d k bits who i = true ↔ 32 * k ≤ i ∧ i < 32 * k + 32 ∧
      bit (s.sourceMask d k who &&& bits) (i - 32 * k) = true := by
  by_cases h : 32 * k ≤ i ∧ i < 32 * k + 32
  · obtain ⟨j, rfl⟩ := Nat.exists_eq_add_of_le h.1
    have hj : j < 32 := by omega
    simp only [reached, bit, show (32 * k + j) / 32 = k by omega, show (32 * k + j) % 32 = j by omega,
      Nat.add_sub_cancel_left, BitVec.getLsbD_and, State.getLsbD_sourceMask _ _ _ _ hj, beq_self_eq_true,
      Bool.true_and, Bool.and_eq_true]
    tauto
  · have hk : i / 32 ≠ k := by omega
    simp only [reached, beq_eq_false_iff_ne.2 hk, Bool.false_and, Bool.false_eq_true, false_iff]
    tauto

/-- A change of the sources of word `k` that a writer names and may access changes these and no others. -/
theorem onlySources_modSources (s : State) (d : Die) (k : Nat) (bits : Word32) (who : Accessor)
    (f : Nat → IntSrc → IntSrc) :
    OnlySources d (reached s d k bits who) (fun i a b => b = f i a) s
      (s.modSources d k (s.sourceMask d k who &&& bits) fun j => f (32 * k + j)) := by
  have hsrc := Intd.src_foldl_modSrc (s.die d).intd k (s.sourceMask d k who &&& bits) (fun j => f (32 * k + j)) 32
  refine ⟨fun i hi => ?_, fun i hi => ?_, ?_, fun e he => State.die_modDie_of_ne _ _ he, rfl, rfl⟩
  · have hm := (reached_iff s d k bits who i).1 hi
    rw [State.modSources, State.die_modDie, hsrc, if_pos hm, Nat.add_sub_cancel' hm.1]
  · rw [State.modSources, State.die_modDie, hsrc, if_neg fun h => by simp [(reached_iff ..).2 h] at hi]
  · rw [State.modSources, State.die_modDie]
    exact Intd.en_foldl_modSrc ..

/-! A distributor's words. -/

/-- A read that has a value whether or not `P` holds has one. -/
theorem isNone_ite {α : Type} {P : Prop} [Decidable P] {o p : Option α} (ho : P → o.isNone = false)
    (hp : ¬ P → p.isNone = false) : (if P then o else p).isNone = false := by
  split
  · exact ho ‹_›
  · exact hp ‹_›

/-- From K or above the set and clear words and the targets of sources 32 and up are assigned (Table INT-3). -/
theorem State.intdRead_assigned (s : State) (d : Die) {off : Nat} {w : Accessor} (hw : w.lvl ≠ 0)
    (h4 : off % 4 = 0)
    (ho : (off % 0x80 ≠ 0 ∧ 0x100 ≤ off ∧ off < 0x400) ∨ (0x1080 ≤ off ∧ off < 0x2000)) :
    (s.intdRead d off w).isNone = false := by
  unfold State.intdRead
  extract_lets x vec pend
  have skip : ∀ {P : Prop} [Decidable P] {v : Word32} {o : Option Word32}, (¬ P → o.isNone = false) →
      (if P then some v else o).isNone = false := fun h => isNone_ite (fun _ => rfl) h
  refine isNone_ite (fun h => absurd h hw) fun _ => skip fun _ => skip fun _ => skip fun _ => skip fun _ =>
    isNone_ite (fun h => absurd h4 h) fun _ => skip fun h080 => skip fun h100 => skip fun h180 =>
    skip fun h200 => skip fun h280 => skip fun h300 => skip fun h380 => skip fun _ => skip fun h1000 => ?_
  simp only [Bool.and_eq_true, decide_eq_true_eq] at h080 h100 h180 h200 h280 h300 h380 h1000
  omega

/-- What a set or clear word of the distributor, told by the offset `base` of its array, does to a source `i`
that the write reaches (R132, R133, Tables INT-3, INT-5, INT-6). -/
def State.wordEffect (s : State) (d : Die) (base i : Nat) (r : IntSrc) : IntSrc :=
  if base = 0x100 then { r with en := true }
  else if base = 0x180 then { r with en := false }
  else if base = 0x280 then if r.level || !s.canPend d i then r else { r with pend := true }
  else if r.level then r else { r with pend := false }

theorem State.intdWrite_setClear (s : State) (d : Die) {base k : Nat}
    (hb : base = 0x100 ∨ base = 0x180 ∨ base = 0x280 ∨ base = 0x300) (hk : 1 ≤ k) (hk' : k < 32)
    (bits : Word32) {who : Accessor} (hw : who.lvl ≠ 0) :
    s.intdWrite d (base + 4 * k) bits.toNat 15 who =
      some (s.modSources d k (s.sourceMask d k who &&& bits) fun j => s.wordEffect d base (32 * k + j)) := by
  have hread := s.intdRead_assigned d hw (off := base + 4 * k) (by omega) (.inl (by omega))
  unfold State.intdWrite
  extract_lets bm b my
  have hbits : b = bits := and_ofNat_maskOf_four bits
  have hmy : my base = s.sourceMask d k who := by
    show s.sourceMask d ((base + 4 * k - base) / 4) who = _
    rw [show (base + 4 * k - base) / 4 = k by omega]
  have hword : (base + 4 * k - base) / 4 = k := by omega
  clear_value b my
  simp only [Bool.and_eq_true, decide_eq_true_eq, hread, Bool.false_eq_true, if_false]
  iterate 4 rw [if_neg (by omega)]
  obtain rfl | rfl | rfl | rfl := hb
  · rw [if_pos (by omega), hmy, hbits, hword]; rfl
  · rw [if_neg (by omega), if_pos (by omega), hmy, hbits, hword]; rfl
  · iterate 2 rw [if_neg (by omega)]
    rw [if_pos (by omega), hmy, hbits, hword]; rfl
  · iterate 3 rw [if_neg (by omega)]
    rw [if_pos (by omega), hmy, hbits, hword]; rfl

theorem State.intdWrite_msg (s : State) (d : Die) (v : Nat) {who : Accessor} (hw : who.lvl ≠ 0) :
    s.intdWrite d 8 v 15 who = some (s.intdMessage d (v % 1024) who.world who.pid none) := by
  have hread : (s.intdRead d 8 who).isNone = false := by
    rw [State.intdRead, if_neg hw]; rfl
  rw [State.intdWrite]
  extract_lets bm b my
  rw [hread]
  rfl

/-- Of a word no longer than 32 bits a full mask keeps nothing. -/
theorem mergeBits_full {old v : Nat} (ho : old < 2 ^ 32) (hv : v < 2 ^ 32) :
    mergeBits old v (maskOf 4 15) = v := by
  have hm : maskOf 4 15 = 2 ^ 32 - 1 := rfl
  have key : (BitVec.ofNat 64 old &&& ~~~(BitVec.ofNat 64 (2 ^ 32 - 1))) |||
      (BitVec.ofNat 64 v &&& BitVec.ofNat 64 (2 ^ 32 - 1)) = BitVec.ofNat 64 v := by
    apply BitVec.eq_of_getLsbD_eq
    intro i hi
    simp only [BitVec.getLsbD_or, BitVec.getLsbD_and, BitVec.getLsbD_not, BitVec.getLsbD_ofNat, hi,
      decide_true, Bool.true_and, Nat.testBit_two_pow_sub_one]
    by_cases h : i < 32
    · simp [h]
    · have hp : 2 ^ 32 ≤ 2 ^ i := Nat.pow_le_pow_right (by omega) (by omega)
      simp [h, Nat.testBit_lt_two_pow (ho.trans_le hp), Nat.testBit_lt_two_pow (hv.trans_le hp)]
  rw [mergeBits, hm, key, BitVec.toNat_ofNat]
  exact Nat.mod_eq_of_lt (hv.trans (by decide))

theorem IntSrc.targetWord_lt (r : IntSrc) : r.targetWord < 2 ^ 32 := by
  have hb : ∀ b, b2n b ≤ 1 := by decide
  have hlc := r.lc.isLt
  have hlvl := r.lvl.isLt
  have hworld := hb (r.world || r.lvl == 3)
  have hlevel := hb r.level
  unfold IntSrc.targetWord
  omega

/-- INTD_TARGET_i written: each field takes its bits of the word, LEVEL of a GPIO source alone (Table INT-7). -/
theorem IntSrc.setTarget_word (r : IntSrc) (i : Nat) (v : Word32) :
    r.setTarget i v.toNat =
      { r with
        lc := v.extractLsb' 0 8, lvl := v.extractLsb' 8 2, world := v.getLsbD 10,
        level := if 64 ≤ i ∧ i ≤ 95 then v.getLsbD 11 else r.level } := by
  have hbit : ∀ j, decide (v.toNat / 2 ^ j % 2 = 1) = v.getLsbD j := fun j =>
    Nat.testBit_eq_decide_div_mod_eq.symm
  simp only [IntSrc.setTarget, hbit, Bool.and_eq_true, decide_eq_true_eq, BitVec.extractLsb',
    Nat.shiftRight_eq_div_pow, Nat.pow_zero, Nat.div_one]

theorem State.intdWrite_target (s : State) (d : Die) (i : BitVec 10) (v : Word32) {who : Accessor}
    (hi : 32 ≤ i.toNat) (hw : who.lvl ≠ 0) :
    s.intdWrite d (0x1000 + 4 * i.toNat) v.toNat 15 who =
      some (if s.maySource d i.toNat who then s.modSrc d i.toNat (·.setTarget i.toNat v.toNat) else s) := by
  have hlt := i.isLt
  have hread := s.intdRead_assigned d hw (off := 0x1000 + 4 * i.toNat) (by omega) (.inr (by omega))
  have hmerge : ∀ r : IntSrc, mergeBits r.targetWord v.toNat (maskOf 4 15) = v.toNat := fun r =>
    mergeBits_full r.targetWord_lt v.isLt
  unfold State.intdWrite
  extract_lets bm b my k j n
  have hsrc : n = i.toNat := by omega
  simp only [Bool.and_eq_true, decide_eq_true_eq, hread, Bool.false_eq_true, if_false]
  iterate 9 rw [if_neg (by omega)]
  rw [if_pos (by omega), hsrc]
  simp only [show bm = maskOf 4 15 from rfl, hmerge]
  split <;> rfl

/-! The words of a core interface. -/

theorem onlyCii_setCore (s : State) (lc : LC) (x : Cii) :
    OnlyCii lc s (s.setCore lc { s.core lc with cii := x }) x := by
  refine ⟨onlyCore_modCore s lc fun c => { c with cii := x }, ?_⟩
  simp only [State.core_setCore, and_self]

theorem getLsbD_privBits {i : Nat} (hi : i < 32) : privBits.getLsbD i = decide (i < 12) := by
  revert i; decide

theorem getLsbD_levelBits {i : Nat} (hi : i < 32) :
    levelBits.getLsbD i = (decide (8 ≤ i) && decide (i ≤ 10)) := by
  revert i; decide

/-- An accessor at K or above through the core's own window, or M through another, writes the set and clear words of
an interface whole (R136, Tables INT-9, INT-11). -/
theorem State.windowWrite_setClear (s : State) (lc : LC) {off : Nat}
    (ho : off = 0x2034 ∨ off = 0x2038 ∨ off = 0x2044 ∨ off = 0x2048) (v : Nat) {who : Accessor} {own : Bool}
    (hw : who.lvl ≠ 0) (hr : who.lvl = 3 ∨ own = true) :
    s.windowWrite lc off v 15 who own = some (s.ciiWrite lc off v (maskOf 4 15) who) := by
  have hreg : ∃ x, s.coreReg lc off who = some x := by
    obtain rfl | rfl | rfl | rfl := ho <;> exact ⟨_, rfl⟩
  have hword : s.windowWord lc off who = some (off, false) := by
    obtain ⟨x, hx⟩ := hreg
    rw [State.windowWord, hx]
  have hright : s.windowRight lc off who own true = true := by
    rw [State.windowRight, if_neg hw]
    obtain hr | hr := hr <;> obtain rfl | rfl | rfl | rfl := ho <;> simp [hr]
  have hcii : ∀ m, s.coreRegWrite lc off v m who = s.ciiWrite lc off v m who := by
    obtain rfl | rfl | rfl | rfl := ho <;> exact fun _ => rfl
  rw [State.windowWrite, hword]
  simp only [hright, if_true, Bool.false_eq_true, if_false, Nat.mul_one, hcii]
  rfl

/-- The four set and clear words of an interface: sources that do not exist, bit 10 of the enable word, and the
pending bits of sources 8 to 10 keep their values (Table INT-11). -/
theorem State.ciiWrite_setClear (s : State) (lc : LC) (bits : Word32) (who : Accessor) :
    let x := (s.core lc).cii
    let hit := bits &&& x.accessMask who
    let write := fun off y =>
      s.ciiWrite lc off bits.toNat (maskOf 4 15) who = s.setCore lc { s.core lc with cii := y }
    write 0x2034 { x with pend := x.pend ||| (hit &&& privBits &&& ~~~levelBits) } ∧
    write 0x2038 { x with pend := x.pend &&& ~~~(hit &&& ~~~levelBits) } ∧
    write 0x2044 (x.setEn (x.en ||| hit)) ∧
    write 0x2048 (x.setEn (x.en &&& ~~~hit)) := by
  intro x hit write
  have hb := and_ofNat_maskOf_four bits
  refine ⟨?_, ?_, ?_, ?_⟩ <;> simp only [write, State.ciiWrite, hb] <;> rfl

theorem Cii.getLsbD_setEn (x : Cii) (v : BitVec 32) {i : Nat} (hi : i < 12) :
    (x.setEn v).en.getLsbD i = (decide (i = 10) || v.getLsbD i) := by
  have h10 : ∀ i < 12, BitVec.getLsbD (0x400 : BitVec 32) i = decide (i = 10) := by decide
  have hpriv : privBits.getLsbD i = true := by rw [getLsbD_privBits (by omega), decide_eq_true hi]
  rw [Cii.setEn, BitVec.getLsbD_or, BitVec.getLsbD_and, hpriv, h10 i hi, Bool.and_true, Bool.or_comm]

end Sys2Proof.Machine

end

