-- ==== Sys2Proof/Proofs/InterruptDelivery.lean ====
section
namespace Sys2Proof.Machine

open Sys2Proof.Claims

/-! Offers, the deadline, and messages. -/

theorem offerResults : OfferResults := by
  intro d i s lc hlc x
  have hexec : exec (.intOffer d i) s =
      if sharedId i.toNat && s.offerable lc d i.toNat && !(x.cii.offers.contains (d, i.toNat)) then
        .next (s.modCore lc fun c => { c with cii := { c.cii with offers := c.cii.offers ++ [(d, i.toNat)] } })
      else .next s := by
    have hlt : ((s.die d).intd.src i.toNat).lc.toNat < 216 := hlc ▸ lc.isLt
    have hto : (⟨((s.die d).intd.src i.toNat).lc.toNat, hlt⟩ : LC) = lc := Fin.ext hlc
    show execIntOffer d i s = _
    unfold execIntOffer
    extract_lets n t
    rw [dif_pos hlt, hto]
  refine ⟨fun hshared hoff hnew => ⟨_, ?_, onlyCii_setCore s lc _⟩, fun hoff => ?_⟩
  · rw [hexec, if_pos (by simp [hshared, hoff, hnew])]
    rfl
  · rw [hexec, if_neg (by simp [hoff])]

theorem deadlineResults : DeadlineResults := by
  refine ⟨fun lc t s hwake => ?_, fun lc t s hwake => ⟨s.advance t, ?_, s.advance_tb t, ?_, ?_, ?_⟩⟩
  · show execDeadline lc t s = _
    rw [execDeadline, State.wokenBy, if_pos hwake]
  · show execDeadline lc t s = _
    rw [execDeadline, State.wokenBy, if_neg (by simp [hwake])]
  · exact State.advance_cores s t
  · exact State.advance_mem s t
  · have hcore : (s.advance t).core lc = s.core lc := by
      rw [State.core, State.advance_cores, State.core]
    simp [State.privPending, hcore, State.advance_tb]

/-- A message from a register write makes an edge source among the message sources pending for the owner that
INTD_OWNER names, and is else dropped and counted (R127). -/
theorem State.intdMessage_write (s : State) (d : Die) {i : Nat} (hi : i < 1024) (world : Bool) (pid : BitVec 8) :
    let o := s.intdOwner d i
    s.intdMessage d i world pid none =
      if 128 ≤ i ∧ o.getLsbD 10 = true ∧ world = o.getLsbD 9 ∧
          (o.getLsbD 8 = true ∨ pid = o.extractLsb' 0 8) then
        s.assertDie d i
      else s.modDie d fun x => { x with intd := { x.intd with
        dropCnt := BitVec.ofNat 16 (Nat.min 0xFFFF (x.intd.dropCnt.toNat + 1)), dropFlag := true } } := by
  intro o
  have hcnt : ∀ n, satAdd 0xFFFF n 1 = Nat.min 0xFFFF (n + 1) := fun n => by
    show satAdd 0xFFFF n 1 = min 0xFFFF (n + 1)
    unfold satAdd
    split <;> omega
  have hsrc : (none == some (hubOwner i)) = false := rfl
  simp only [State.intdMessage, hcnt, hsrc, bit, hi, Bool.and_false, Bool.or_false, Bool.and_eq_true,
    Bool.or_eq_true, decide_eq_true_eq, beq_iff_eq, and_true, and_assoc]
  rfl

theorem intdMsgResults : IntdMsgResults := by
  intro d w0 who s hw i o owns
  have hmsg := s.intdMessage_write d (Nat.mod_lt _ (by decide) : i < 1024) who.world who.pid
  have hexec : exec (.intdMsg d w0 who) s = .next (s.intdMessage d i who.world who.pid none) := by
    show execIntdMsg d w0 who s = _
    rw [execIntdMsg, State.intdWrite_msg s d _ hw]
    rfl
  refine ⟨fun h128 howns => ⟨_, hexec, ?_⟩, fun hdrop => ⟨_, hexec, ?_⟩⟩
  · rw [hmsg, if_pos ⟨h128, howns⟩]
    exact onlySources_modSrc ..
  · rw [hmsg, if_neg fun h => hdrop.elim (Nat.not_lt.2 h.1) fun hno => hno h.2]
    refine ⟨?_, fun e he => State.die_modDie_of_ne _ _ he, rfl, rfl⟩
    rw [State.die_modDie]

/-! Words. -/

theorem exec_enableSet (iw : IntWord) (bits : Word32) (who : Accessor) (s : State) :
    exec (.enableSet iw bits who) s = .next (s.intWordWrite iw 0x100 0x2044 bits who) := rfl

theorem exec_enableClr (iw : IntWord) (bits : Word32) (who : Accessor) (s : State) :
    exec (.enableClr iw bits who) s = .next (s.intWordWrite iw 0x180 0x2048 bits who) := rfl

theorem exec_pendSet (iw : IntWord) (bits : Word32) (who : Accessor) (s : State) :
    exec (.pendSet iw bits who) s = .next (s.intWordWrite iw 0x280 0x2034 bits who) := rfl

theorem exec_pendClr (iw : IntWord) (bits : Word32) (who : Accessor) (s : State) :
    exec (.pendClr iw bits who) s = .next (s.intWordWrite iw 0x300 0x2038 bits who) := rfl

/-- A set or clear word of a distributor written. -/
theorem sharedWord_completes {i : Instr} {s : State} {d : Die} {k : Fin 32} {bits : Word32} {who : Accessor}
    {base priv : Nat} (he : exec i s = .next (s.intWordWrite (.shared d k) base priv bits who))
    (hb : base = 0x100 ∨ base = 0x180 ∨ base = 0x280 ∨ base = 0x300) (hk : 1 ≤ k.val) (hw : who.lvl ≠ 0) :
    Completes i s (OnlySources d (reached s d k.val bits who) (fun i a b => b = s.wordEffect d base i a) s) := by
  refine ⟨_, he, ?_⟩
  rw [State.intWordWrite, State.intdWrite_setClear s d hb hk k.isLt bits hw]
  exact onlySources_modSources ..

/-- A set or clear word of a core interface written, by one who may write the interface (R136). -/
theorem privWord_next {i : Instr} {s : State} {lc : LC} {bits : Word32} {who : Accessor} {shared off : Nat}
    {y : Cii} (he : exec i s = .next (s.intWordWrite (.priv lc) shared off bits who))
    (ho : off = 0x2034 ∨ off = 0x2038 ∨ off = 0x2044 ∨ off = 0x2048) (hw : who.lvl ≠ 0)
    (hr : who.lvl = 3 ∨ who.lc.toNat = lc.val)
    (hy : s.ciiWrite lc off bits.toNat (maskOf 4 15) who = s.setCore lc { s.core lc with cii := y }) :
    exec i s = .next (s.setCore lc { s.core lc with cii := y }) := by
  rw [he, State.intWordWrite, State.windowWrite_setClear s lc ho _ hw (hr.imp_right decide_eq_true), hy]
  rfl

/-- The enable word of an interface takes `v` in the sources that exist, and keeps bit 10. -/
theorem enableWord_completes {i : Instr} {s : State} {lc : LC} {x : Cii} {v : BitVec 32} {f : Nat → Bool}
    (he : exec i s = .next (s.setCore lc { s.core lc with cii := x.setEn v }))
    (hf : ∀ i < 12, v.getLsbD i = f i) :
    Completes i s fun w => OnlyCii lc s w { x with en := (w.core lc).cii.en } ∧
      ∀ i < 12, (w.core lc).cii.en.getLsbD i = (decide (i = 10) || f i) := by
  refine ⟨_, he, ?_, fun i hi => ?_⟩
  · rw [State.core_setCore]
    exact onlyCii_setCore ..
  · rw [State.core_setCore, ← hf i hi]
    exact Cii.getLsbD_setEn x v hi

/-- The pending word of an interface takes `v`. -/
theorem pendWord_completes {i : Instr} {s : State} {lc : LC} {x : Cii} {v : BitVec 32} {n : Nat} {f : Nat → Bool}
    (he : exec i s = .next (s.setCore lc { s.core lc with cii := { x with pend := v } }))
    (hf : ∀ i < n, v.getLsbD i = f i) :
    Completes i s fun w => OnlyCii lc s w { x with pend := (w.core lc).cii.pend } ∧
      ∀ i < n, (w.core lc).cii.pend.getLsbD i = f i := by
  refine ⟨_, he, ?_, fun i hi => ?_⟩
  · rw [State.core_setCore]
    exact onlyCii_setCore ..
  · rw [State.core_setCore]
    exact hf i hi

/-- Within the sources that exist, the bits reached are those that the word names and its writer may access. -/
theorem getLsbD_and_accessMask (x : Cii) (bits : Word32) (who : Accessor) {i : Nat} (hi : i < 12) :
    (bits &&& x.accessMask who).getLsbD i = privReached x bits who i := by
  rw [BitVec.getLsbD_and, Cii.getLsbD_accessMask _ _ (by omega), privReached, decide_eq_true hi, Bool.true_and]

theorem getLsbD_pendSet (x : Cii) (bits : Word32) (who : Accessor) {i : Nat} (hi : i < 32) :
    (x.pend ||| (bits &&& x.accessMask who &&& privBits &&& ~~~levelBits)).getLsbD i =
      (x.pend.getLsbD i || (privReached x bits who i && !(decide (8 ≤ i) && decide (i ≤ 10)))) := by
  rw [BitVec.getLsbD_or, BitVec.getLsbD_and, BitVec.getLsbD_and, BitVec.getLsbD_not, getLsbD_privBits hi,
    getLsbD_levelBits hi, decide_eq_true hi, Bool.true_and]
  by_cases h12 : i < 12
  · rw [getLsbD_and_accessMask x bits who h12, decide_eq_true h12, Bool.and_true]
  · simp [privReached, h12]

theorem getLsbD_pendClr (x : Cii) (bits : Word32) (who : Accessor) {i : Nat} (hi : i < 12) :
    (x.pend &&& ~~~(bits &&& x.accessMask who &&& ~~~levelBits)).getLsbD i =
      (x.pend.getLsbD i && !(privReached x bits who i && !(decide (8 ≤ i) && decide (i ≤ 10)))) := by
  have h32 : i < 32 := by omega
  rw [BitVec.getLsbD_and, BitVec.getLsbD_not, BitVec.getLsbD_and, BitVec.getLsbD_not,
    getLsbD_and_accessMask x bits who hi, getLsbD_levelBits h32, decide_eq_true h32, Bool.true_and, Bool.true_and]

theorem exec_intdTargetWrite (d : Die) (i : BitVec 10) (v : Word32) {who : Accessor} (s : State)
    (hi : 32 ≤ i.toNat) (hw : who.lvl ≠ 0) :
    exec (.intdTargetWrite d i v who) s =
      .next (if s.maySource d i.toNat who then s.modSrc d i.toNat (·.setTarget i.toNat v.toNat) else s) := by
  show execIntdTargetWrite d i v who s = _
  rw [execIntdTargetWrite, State.intdWrite_target s d i v hi hw]
  rfl

theorem interruptWordWrites : InterruptWordWrites := by
  refine ⟨?_, ?_, ?_⟩
  · intro d k bits who s hk hw hit
    obtain ⟨w, he, hsrc⟩ := sharedWord_completes (exec_pendSet (.shared d k) bits who s) (by decide) hk hw
    refine ⟨sharedWord_completes (exec_enableSet ..) (by decide) hk hw,
      sharedWord_completes (exec_enableClr ..) (by decide) hk hw,
      ⟨w, he, onlySources_imp hsrc fun i a b hab => hab.trans ?_⟩,
      sharedWord_completes (exec_pendClr ..) (by decide) hk hw⟩
    simp [State.wordEffect]
  · intro lc bits who s hw hr x hit
    obtain ⟨hpendSet, hpendClr, hset, hclr⟩ := s.ciiWrite_setClear lc bits who
    have hbit : ∀ i < 12, (bits &&& x.accessMask who).getLsbD i = hit i := fun i hi =>
      getLsbD_and_accessMask x bits who hi
    refine ⟨?_, ?_, pendWord_completes (privWord_next (exec_pendSet ..) (by decide) hw hr hpendSet) fun i hi =>
      getLsbD_pendSet x bits who hi, pendWord_completes (privWord_next (exec_pendClr ..) (by decide) hw hr hpendClr)
        fun i hi => getLsbD_pendClr x bits who hi⟩
    · simp only [Bool.or_assoc]
      refine enableWord_completes (privWord_next (exec_enableSet ..) (by decide) hw hr hset) fun i hi => ?_
      rw [BitVec.getLsbD_or, hbit i hi, Bool.or_comm]
    · refine enableWord_completes (privWord_next (exec_enableClr ..) (by decide) hw hr hclr) fun i hi => ?_
      rw [BitVec.getLsbD_and, BitVec.getLsbD_not, hbit i hi, decide_eq_true (by omega), Bool.true_and]
  · intro d i v who s hi hw
    have hexec := exec_intdTargetWrite d i v s hi hw
    refine ⟨fun hmay => ⟨_, hexec, ?_⟩, fun hno => by rw [hexec, if_neg (by simp [hno])]⟩
    rw [if_pos hmay]
    exact onlySources_imp (onlySources_modSrc ..) fun _ a b hab => hab.trans (a.setTarget_word _ v)

/-- Settles O19: an offer appends to the target's interface alone, reference time reaches a deadline or wakes, a
message and each register word act on the sources that they reach and leave the others. -/
theorem interruptDeliveryAndWords : Obligations.InterruptDeliveryAndWords :=
  ⟨offerResults, deadlineResults, intdMsgResults, interruptWordWrites⟩

end Sys2Proof.Machine

end

