-- ==== Sys2Proof/Proofs/ResetValues.lean ====
section
namespace Sys2Proof.Machine

open Sys2Proof.Claims

theorem State.core_reset (lc : LC) : State.reset.core lc = {} := rfl

theorem Core.getG_default (r : Reg) : ({} : Core).getG r = 0 := by
  unfold Core.getG
  split <;> rfl

/-- Settles O57: the records that reset leaves are their defaults, the registers their tables' Reset columns. -/
theorem resetValues : Obligations.ResetValues := by
  refine ⟨fun lc => ?_, fun q => ?_, fun d => ?_, fun _ => ⟨rfl, rfl⟩, rfl, rfl, rfl, memWf_reset⟩
  · rw [State.core_reset]
    exact ⟨rfl, fun _ => ⟨rfl, rfl, rfl⟩, rfl, rfl, rfl, rfl, rfl, rfl, rfl, rfl,
      fun r => ⟨Core.getG_default r, rfl⟩, fun _ => rfl⟩
  · revert q
    decide
  · revert d
    decide

end Sys2Proof.Machine
end

