-- ==== Sys2Proof/Proofs/ControlRegisters.lean ====
section
namespace Sys2Proof.Machine

open Sys2Proof.Claims

/-! A scalar result of a core that leaves S. -/

theorem scalarResult_modCore (u : State) (lc : LC) (rd : Reg) (t cost : Nat) (f : Core → Word) :
    ScalarResult lc rd (f (u.core lc)) u
      (u.modCore lc fun c => (c.result rd (f c) t cost).retire (c.pc + 4) cost) := by
  refine ⟨onlyCore_modCore _ _ _, ?_⟩
  rw [State.core_modCore]
  generalize u.core lc = c
  refine ⟨by simp [KeepsSystem], by simp [KeepsV], ⟨fun hr => ?_, Core.getG_zero _, fun r hr => ?_⟩, by simp⟩
  all_goals rw [Core.getG_congr (Core.retire_g _ _ _), Core.getG_congr (Core.result_g _ _ _ _ _)]
  · exact Core.getG_setG_self _ _ _ hr
  · exact Core.getG_setG_of_ne _ _ hr

/-! The registers of Table ISA-2 as the model holds them. -/

theorem crForm_number : ∀ f ∈ crForms, (BitVec.ofNat 12 f.n).toNat = f.n := by decide

theorem crForm_levels : ∀ f ∈ crForms, crLevels f.n = some (f.rd, f.wr) := by decide

theorem crLevels_none {n : Nat} (h : ∀ f ∈ crForms, f.n ≠ n) : crLevels n = none := by
  simp only [crForms, List.forall_mem_cons, ne_comm (b := n)] at h
  simp [crLevels, h]

theorem Core.getCr_crForm (c : Core) : ∀ f ∈ crForms, c.getCr f.n = f.get c := by
  simp [crForms, Core.getCr, bank]

theorem Core.crForm_setCr (c : Core) (v : Word) :
    ∀ f ∈ crForms, f.get (c.setCr f.n v) = (f.get c &&& f.keep) ||| (v &&& f.set) := by
  simp [crForms, Core.setCr, bank, maskedWrite, vflagsMask]

theorem Core.crForm_setCr_of_ne (c : Core) (v : Word) :
    ∀ f ∈ crForms, ∀ h ∈ crForms, h.n ≠ f.n → h.get (c.setCr f.n v) = h.get c := by
  simp [crForms, Core.setCr, bank, SMap.get_set_of_ne]

theorem Core.crForm_retire_flush (c : Core) (pc' : Word) (cost : Nat) :
    ∀ f ∈ crForms, f.get (c.retire pc' cost).flush = f.get c := by
  simp [crForms, bank]

@[simp] theorem Core.setCr_g (c : Core) (n : Nat) (v : Word) : (c.setCr n v).g = c.g := by
  simp only [Core.setCr, apply_ite Core.g, ite_self]

@[simp] theorem Core.setCr_v (c : Core) (n : Nat) (v : Word) : (c.setCr n v).v = c.v := by
  simp only [Core.setCr, apply_ite Core.v, ite_self]

@[simp] theorem Core.setCr_p (c : Core) (n : Nat) (v : Word) : (c.setCr n v).p = c.p := by
  simp only [Core.setCr, apply_ite Core.p, ite_self]

@[simp] theorem Core.setCr_sb (c : Core) (n : Nat) (v : Word) : (c.setCr n v).sb = c.sb := by
  simp only [Core.setCr, apply_ite Core.sb, ite_self]

@[simp] theorem Core.setCr_tlbs (c : Core) (n : Nat) (v : Word) : (c.setCr n v).tlbs = c.tlbs := by
  simp only [Core.setCr, apply_ite Core.tlbs, ite_self]

@[simp] theorem Core.setCr_cii (c : Core) (n : Nat) (v : Word) : (c.setCr n v).cii = c.cii := by
  simp only [Core.setCr, apply_ite Core.cii, ite_self]

/-! CRR. -/

section
variable {s u : State} {lc : LC} {rd : Reg} {cr : BitVec 12} {k : Asker} {t : Nat}

theorem exec_crr_read (h : Runs s lc { writes := [gIdx rd], vIdle := decide (cr.toNat = 8) } k t u)
    {r w : Nat} (hl : crLevels cr.toNat = some (r, w)) (hr : r ≤ (u.core lc).level) :
    exec (.crr lc rd cr) s =
      .next (u.modCore lc fun c => (c.result rd (c.getCr cr.toNat) t 1).retire (c.pc + 4) 1) :=
  by
  show execCrr lc rd cr s = _
  simp only [execCrr]
  exact issue_next h _ (by simp [hl, Nat.not_lt.2 hr])

theorem exec_crr_priv (h : Runs s lc { writes := [gIdx rd], vIdle := decide (cr.toNat = 8) } k t u)
    {r w : Nat} (hl : crLevels cr.toNat = some (r, w)) (hr : (u.core lc).level < r) {x : State}
    (hx : u.trapWord k 0x02 (encY rd 0 0 cr.toNat) = some x) : exec (.crr lc rd cr) s = .next x :=
  by
  show execCrr lc rd cr s = _
  simp only [execCrr]
  exact issue_next h _ (by simpa [hl, hr] using hx)

theorem exec_crr_illegal (h : Runs s lc { writes := [gIdx rd], vIdle := decide (cr.toNat = 8) } k t u)
    (hl : crLevels cr.toNat = none) {x : State}
    (hx : u.trapWord k 0x01 (encY rd 0 0 cr.toNat) = some x) : exec (.crr lc rd cr) s = .next x :=
  by
  show execCrr lc rd cr s = _
  simp only [execCrr]
  exact issue_next h _ (by simpa [hl] using hx)

end

/-! CRW. -/

section
variable {s u : State} {lc : LC} {ra : Reg} {cr : BitVec 12} {k : Asker} {t : Nat}

theorem exec_crw_write
    (h : Runs s lc { reads := [gIdx ra], vIdle := decide (cr.toNat = 8) || decide (cr.toNat = 9) } k t u)
    {r w : Nat} (hl : crLevels cr.toNat = some (r, w)) (hw : w ≤ (u.core lc).level) :
    exec (.crw lc cr ra) s =
      .next (u.modCore lc fun c => ((c.setCr cr.toNat (c.getG ra)).retire (c.pc + 4) 4).flush) :=
  by
  show execCrw lc cr ra s = _
  simp only [execCrw]
  exact issue_next h _ (by simp [hl, Nat.not_lt.2 hw])

theorem exec_crw_priv
    (h : Runs s lc { reads := [gIdx ra], vIdle := decide (cr.toNat = 8) || decide (cr.toNat = 9) } k t u)
    {r w : Nat} (hl : crLevels cr.toNat = some (r, w)) (hw : (u.core lc).level < w) {x : State}
    (hx : u.trapWord k 0x02 (encY 0 ra 1 cr.toNat) = some x) : exec (.crw lc cr ra) s = .next x :=
  by
  show execCrw lc cr ra s = _
  simp only [execCrw]
  exact issue_next h _ (by simpa [hl, hw] using hx)

theorem exec_crw_illegal
    (h : Runs s lc { reads := [gIdx ra], vIdle := decide (cr.toNat = 8) || decide (cr.toNat = 9) } k t u)
    (hl : crLevels cr.toNat = none) {x : State}
    (hx : u.trapWord k 0x01 (encY 0 ra 1 cr.toNat) = some x) : exec (.crw lc cr ra) s = .next x :=
  by
  show execCrw lc cr ra s = _
  simp only [execCrw]
  exact issue_next h _ (by simpa [hl] using hx)

end

theorem crForm_not_vflags {cr : BitVec 12} (h : ∀ f ∈ crForms, f.n ≠ cr.toNat) :
    cr.toNat ≠ 8 ∧ cr.toNat ≠ 9 := by
  simp only [crForms, List.forall_mem_cons, ne_comm (b := cr.toNat)] at h
  simp [h]

theorem crr_crForm {f : CrForm} (hf : f ∈ crForms) (lc : LC) (rd : Reg) (s : State) (k : Asker) (t : Nat)
    (u : State) (h : Runs s lc { writes := [gIdx rd], vIdle := decide (f.n = 8) } k t u) :
    (f.rd ≤ (u.core lc).level →
      Completes (.crr lc rd (BitVec.ofNat 12 f.n)) s (ScalarResult lc rd (f.get (u.core lc)) u)) ∧
    (∀ x, (u.core lc).level < f.rd →
      u.raise k { code := 0x02, tval := (encY rd 0 0 f.n).zeroExtend 64 } = some x →
      exec (.crr lc rd (BitVec.ofNat 12 f.n)) s = .next x) := by
  have hn := crForm_number f hf
  have hl : crLevels (BitVec.ofNat 12 f.n).toNat = some (f.rd, f.wr) := by
    rw [hn, crForm_levels f hf]
  rw [← hn] at h
  constructor
  · intro hr
    refine ⟨_, exec_crr_read h hl hr, ?_⟩
    have := scalarResult_modCore u lc rd t 1 (·.getCr (BitVec.ofNat 12 f.n).toNat)
    rwa [hn, Core.getCr_crForm _ f hf, ← hn] at this
  · intro x hr hx
    exact exec_crr_priv h hl hr (by rwa [hn])

theorem crw_crForm {f : CrForm} (hf : f ∈ crForms) (lc : LC) (ra : Reg) (s : State) (k : Asker) (t : Nat)
    (u : State) (h : Runs s lc { reads := [gIdx ra], vIdle := decide (f.n = 8) || decide (f.n = 9) } k t u) :
    (f.wr ≤ (u.core lc).level → Completes (.crw lc (BitVec.ofNat 12 f.n) ra) s fun w =>
      let c := u.core lc
      let d := w.core lc
      OnlyCore lc u w ∧ d.pc = c.pc + 4 ∧ f.get d = (f.get c &&& f.keep) ||| (c.getG ra &&& f.set) ∧
      (∀ h ∈ crForms, h.n ≠ f.n → h.get d = h.get c) ∧ d.g = c.g ∧ d.v = c.v ∧ d.p = c.p ∧
      d.sb = c.sb ∧ d.tlbs = c.tlbs ∧ d.cii = c.cii ∧ d.pfq = []) ∧
    (∀ x, (u.core lc).level < f.wr →
      u.raise k { code := 0x02, tval := (encY 0 ra 1 f.n).zeroExtend 64 } = some x →
      exec (.crw lc (BitVec.ofNat 12 f.n) ra) s = .next x) := by
  have hn := crForm_number f hf
  have hl : crLevels (BitVec.ofNat 12 f.n).toNat = some (f.rd, f.wr) := by
    rw [hn, crForm_levels f hf]
  rw [← hn] at h
  constructor
  · intro hw
    refine ⟨_, exec_crw_write h hl hw, onlyCore_modCore _ _ _, ?_⟩
    simp only [State.core_modCore, hn]
    generalize u.core lc = c
    refine ⟨rfl, ?_, fun e he hne => ?_, ?_⟩
    · rw [Core.crForm_retire_flush _ _ _ f hf, Core.crForm_setCr c _ f hf]
    · rw [Core.crForm_retire_flush _ _ _ e he, Core.crForm_setCr_of_ne c _ f hf e he hne]
    · simp [Core.flush]
  · intro x hw hx
    exact exec_crw_priv h hl hw (by rwa [hn])

/-- Settles O12: a register of Table ISA-2 by its form, any other number by `crLevels_none`. -/
theorem controlRegisterResults : Obligations.ControlRegisterResults := by
  refine ⟨fun f hf => crr_crForm hf, fun f hf => crw_crForm hf, fun cr lc r s k t u x hcr => ?_⟩
  obtain ⟨h8, h9⟩ := crForm_not_vflags hcr
  constructor
  · intro h hx
    exact exec_crr_illegal (by simpa [h8] using h) (crLevels_none hcr) hx
  · intro h hx
    exact exec_crw_illegal (by simpa [h8, h9] using h) (crLevels_none hcr) hx

end Sys2Proof.Machine
end

