-- ==== Sys2Proof/Proofs/FetchFrame.lean ====
section
namespace Sys2Proof.Machine

open Sys2Proof.Claims

/-! What a program sees: its cores, memory, messages, time and the queue. -/

theorem sameProgram_refl (c : Core) : SameProgram c c := by simp [SameProgram]

theorem sameProgram_trans {c d e : Core} (h : SameProgram c d) (h' : SameProgram d e) : SameProgram c e := by
  simp_all [SameProgram]

/-- No program sees a difference between `s` and `f`. -/
def Unseen (s f : State) : Prop :=
  (∀ l, SameProgram (s.core l) (f.core l)) ∧ f.mem = s.mem ∧ f.poisLine = s.poisLine ∧
  f.poisWord = s.poisWord ∧ f.net = s.net ∧ f.reqs = s.reqs ∧ f.tb = s.tb ∧ f.pending = s.pending

theorem Unseen.refl (s : State) : Unseen s s :=
  ⟨fun _ => sameProgram_refl _, rfl, rfl, rfl, rfl, rfl, rfl, rfl⟩

theorem Unseen.trans {s t u : State} (h : Unseen s t) (h' : Unseen t u) : Unseen s u := by
  obtain ⟨hc, hm, hpl, hpw, hn, hr, htb, hp⟩ := h
  obtain ⟨hc', hm', hpl', hpw', hn', hr', htb', hp'⟩ := h'
  exact ⟨fun l => sameProgram_trans (hc l) (hc' l), hm'.trans hm, hpl'.trans hpl, hpw'.trans hpw, hn'.trans hn,
    hr'.trans hr, htb'.trans htb, hp'.trans hp⟩

theorem Unseen.modCore {s t : State} (h : Unseen s t) (lc : LC) {f : Core → Core}
    (hf : ∀ c, SameProgram c (f c)) : Unseen s (t.modCore lc f) := by
  refine h.trans ⟨fun l => ?_, rfl, rfl, rfl, rfl, rfl, rfl, rfl⟩
  by_cases hl : l = lc
  · subst hl
    rw [State.core_modCore]
    exact hf _
  · rw [State.core_modCore_of_ne _ _ hl]
    exact sameProgram_refl _

theorem Unseen.modDie {s t : State} (h : Unseen s t) (d : Die) (f : DieSt → DieSt) : Unseen s (t.modDie d f) :=
  h.trans ⟨fun _ => sameProgram_refl _, rfl, rfl, rfl, rfl, rfl, rfl, rfl⟩

theorem Unseen.takeBeats {s t : State} (h : Unseen s t) : Unseen s t.takeBeats.2 :=
  h.trans ⟨fun _ => sameProgram_refl _, rfl, rfl, rfl, rfl, rfl, rfl, rfl⟩

theorem Unseen.foldl {α : Type} {f : State → α → State} {s t : State} (h : Unseen s t)
    (hf : ∀ t x, Unseen s t → Unseen s (f t x)) (l : List α) : Unseen s (l.foldl f t) := by
  induction l generalizing t with
  | nil => exact h
  | cons x l ih => exact ih (hf t x h)

/-! Answers that succeed at once. An operation takes any state that looks like `s`. -/

def LineRead.HitUnseen (s : State) : LineRead → Prop
  | .hit _ _ _ f => Unseen s f
  | _ => True

def Walk.DoneUnseen {α : Type} (s : State) : Walk α → Prop
  | .done _ _ f => Unseen s f
  | _ => True

def Xlat.OkUnseen (s : State) : Xlat → Prop
  | .ok _ _ _ _ f => Unseen s f
  | _ => True

def Fetch.OkUnseen (s : State) : Fetch → Prop
  | .ok f => Unseen s f
  | _ => True

/-! Reads of lines. -/

section
variable {s t : State}

theorem State.waitDie_unseen (p : Purpose) : (t.waitDie p).HitUnseen s := by
  unfold State.waitDie
  split <;> trivial

/-- A request to a home never answers at once. -/
theorem State.askHome_unseen (k : Asker) (line : Nat) (once : Bool) (p : Purpose) :
    (t.askHome k line once p).HitUnseen s := by
  unfold State.askHome
  extract_lets m sendOnce
  have hsend : ∀ t, (sendOnce t).HitUnseen s := by
    intro t
    unfold sendOnce
    split
    · trivial
    · exact State.waitDie_unseen p
  split
  · exact State.waitDie_unseen p
  · split
    · exact hsend _
    · split
      · exact State.waitDie_unseen p
      · exact hsend _
      · extract_lets m
        split
        · trivial
        · exact State.waitDie_unseen p

theorem State.shareL1_unseen (h : Unseen s t) (d : Die) (line : Nat) (keep : Option Nat) :
    Unseen s (t.shareL1 d line keep) := by
  unfold State.shareL1
  refine Unseen.foldl h (fun t i h => ?_) _
  split
  · refine h.modCore _ fun c => ?_
    split <;> exact sameProgram_refl _
  · exact h

theorem State.readDc_unseen (h : Unseen s t) (k : Asker) (line fixed : Nat) (p : Purpose) :
    (t.readDc k line fixed p).HitUnseen s := by
  unfold State.readDc
  extract_lets x
  split
  · extract_lets u
    split
    · exact State.askHome_unseen k line false p
    · split
      · exact State.askHome_unseen k line true p
      · split
        · exact ((State.shareL1_unseen h ..).takeBeats).modDie _ _
        · exact h.modDie _ _
  · exact State.askHome_unseen k line false p

theorem State.checkPasture_pass {st : Station} {n a : Nat} {world : Bool} {pid : BitVec 8} {p : Perm}
    {src : Station} (h : (t.checkPasture st n a world pid p src).1 = true) :
    (t.checkPasture st n a world pid p src).2 = t := by
  unfold State.checkPasture at h ⊢
  split_ifs at h ⊢ <;> trivial

theorem State.readScratch_unseen (h : Unseen s t) (k : Asker) (a bytes : Nat) (perm : Perm) (fixed : Nat) :
    (t.readScratch k a bytes perm fixed).HitUnseen s := by
  unfold State.readScratch
  split
  · trivial
  · split
    rename_i ok t' e
    split
    · rename_i hok
      have ht : t' = t := by
        have := State.checkPasture_pass (by rw [e]; exact hok)
        rwa [e] at this
      exact ht ▸ h
    · trivial

theorem LineRead.ofAns_unseen (h : Unseen s t) (a : Ans) : (LineRead.ofAns t a).HitUnseen s := by
  cases a
  · exact h
  · trivial

theorem State.walkRead_unseen (h : Unseen s t) (k : Asker) (pa : Nat) : (t.walkRead k pa).HitUnseen s := by
  unfold State.walkRead
  extract_lets line k
  split
  · exact LineRead.ofAns_unseen h _
  · split
    · split
      · trivial
      · exact State.readDc_unseen h ..
    · split
      · exact State.readScratch_unseen h ..
      · split <;> trivial
    · trivial

/-! Walks. -/

theorem State.walk2_unseen (h : Unseen s t) (k : Asker) (ipa code : Nat) (e : Exc) (n lvl base beats : Nat) :
    (t.walk2 k ipa code e n lvl base beats).DoneUnseen s := by
  induction n generalizing t lvl base beats with
  | zero =>
    rw [State.walk2]
    trivial
  | succ n ih =>
    rw [State.walk2]
    have hr := State.walkRead_unseen h k (base + 8 * tblIdx ipa lvl)
    split
    · trivial
    · trivial
    · trivial
    · rename_i hit
      rw [hit] at hr
      split
      · trivial
      · split
        · trivial
        · exact hr
        · exact ih hr ..

theorem State.tablePa_unseen (h : Unseen s t) (k : Asker) (ipa lvl : Nat) (e : Exc) (beats : Nat) :
    (t.tablePa k ipa lvl e beats).DoneUnseen s := by
  unfold State.tablePa
  extract_lets c tbl
  have hw := State.walk2_unseen h k ipa 0x07 { e with tipa := tbl } 4 0 (tblBase c.s2base) beats
  split
  · exact h
  · split
    · trivial
    · trivial
    · trivial
    · rename_i done
      rw [done] at hw
      split
      · trivial
      · split
        · trivial
        · exact hw

theorem State.walk1_unseen (h : Unseen s t) (k : Asker) (va : Nat) (e : Exc) (n lvl base beats : Nat) :
    (t.walk1 k va e n lvl base beats).DoneUnseen s := by
  induction n generalizing t lvl base beats with
  | zero =>
    rw [State.walk1]
    trivial
  | succ n ih =>
    rw [State.walk1]
    have ht := State.tablePa_unseen h k (base + 8 * tblIdx va lvl) lvl e beats
    split
    · trivial
    · trivial
    · trivial
    · rename_i a _ t' done
      rw [done] at ht
      have hr := State.walkRead_unseen ht k a
      split
      · trivial
      · trivial
      · trivial
      · rename_i hit
        rw [hit] at hr
        split
        · trivial
        · split
          · trivial
          · exact hr
          · exact ih hr ..

theorem State.walkBoth_unseen (h : Unseen s t) (k : Asker) (acc : AccType) (lvls : List Nat) (va : Nat) (e : Exc) :
    (t.walkBoth k acc lvls va e).DoneUnseen s := by
  unfold State.walkBoth
  extract_lets c held b0 on1 on2 none1 r1
  have h1 : r1.DoneUnseen s := by
    unfold r1
    split
    · exact State.walk1_unseen h ..
    · exact h
  clear_value r1 c held b0 on1 on2 none1
  split
  · trivial
  · split
    · trivial
    · trivial
    · trivial
    · extract_lets ipa r2 sz1
      have h2 : r2.DoneUnseen s := by
        unfold r2
        split
        · exact State.walk2_unseen h1 ..
        · exact h1
      clear_value r2 ipa sz1
      split
      · trivial
      · split
        · trivial
        · trivial
        · trivial
        · extract_lets
          split
          · trivial
          · exact h2

/-! Translation. -/

theorem State.translate_unseen (h : Unseen s t) (k : Asker) (acc : AccType) (lvl : Nat) (va : Word)
    (second check : Bool) : (t.translate k acc lvl va second check).OkUnseen s := by
  have htlbs : ∀ {t' : State} (f : Core → Tlbs), Unseen s t' →
      Unseen s (t'.modCore k.lc fun c => { c with tlbs := f c }) := fun f ht =>
    ht.modCore _ fun c => by simp [SameProgram]
  unfold State.translate
  extract_lets c e fetch tl va' finish t1
  have hfinish : ∀ x walk t', Unseen s t' → (finish x walk t').OkUnseen s := by
    intro x walk t' ht
    unfold finish
    split
    · trivial
    · exact ht
  have h1 : Unseen s t1 := by
    unfold t1
    split
    · exact h.modCore _ fun c => by simp [SameProgram]
    · exact h
  have hw := State.walkBoth_unseen h1 k acc (if check then [lvl] else []) va' e
  split
  · exact h
  · split
    · trivial
    · split
      · exact h
      · split
        · split
          · exact hfinish _ _ _ (htlbs _ h)
          · trivial
        · split
          · split
            · exact hfinish _ _ _ (htlbs _ h)
            · trivial
          · split
            · trivial
            · trivial
            · trivial
            · rename_i done
              rw [done] at hw
              exact htlbs _ hw

/-! Fetch. -/

theorem sameProgram_charge (c : Core) (ib sb l1 pfq walk : Nat) : SameProgram c (c.charge ib sb l1 pfq walk) := by
  simp [SameProgram]

theorem State.keepSector_unseen (h : Unseen s t) (k : Asker) (pa : Nat) : Unseen s (t.keepSector k pa) := by
  unfold State.keepSector
  split
  · exact h
  · extract_lets sec t'
    split
    · exact h
    · exact (h.modCore _ fun c => by simp [SameProgram]).modDie _ _

theorem State.fillL1i_unseen (h : Unseen s t) (d : Die) (lc : LC) (l : L1Line) : Unseen s (t.fillL1i d lc l) := by
  unfold State.fillL1i
  extract_lets sl
  split
  extract_lets t1 t2
  have h1 : Unseen s t1 := h.modCore _ fun c => by simp [SameProgram]
  have h2 : Unseen s t2 := by
    unfold t2
    split
    · exact h1.modDie _ _
    · exact h1
  exact h2.modDie _ _

theorem fetchLine_unseen {r : LineRead} (hr : r.HitUnseen s) (k : Asker) (line : Nat) (install : Bool) (e : Exc) :
    (fetchLine k line install e r).OkUnseen s := by
  unfold fetchLine
  split
  · trivial
  · trivial
  · trivial
  · rename_i t'
    have hr : Unseen s t' := hr
    extract_lets t1 t2
    have h1 : Unseen s t1 := hr.modCore _ fun c =>
      sameProgram_trans (by simp [SameProgram]) (sameProgram_charge ..)
    have h2 : Unseen s t2 := by
      unfold t2
      split
      · exact State.fillL1i_unseen h1 ..
      · exact h1
    split
    · trivial
    · exact State.keepSector_unseen h2 ..

theorem State.fetchWord_unseen (h : Unseen s t) (k : Asker) (pc : Word) : (t.fetchWord k pc).OkUnseen s := by
  unfold State.fetchWord
  extract_lets c k0 e
  have hx := State.translate_unseen h k0 .fetch c.level pc false true
  split
  · trivial
  · trivial
  · trivial
  · rename_i tx done
    rw [done] at hx
    replace hx : Unseen s tx := hx
    extract_lets t1 k line cached l1hit b w t2 r
    have h1 : Unseen s t1 := Unseen.modCore hx _ fun c => sameProgram_charge c ..
    clear_value t1
    have h2 : Unseen s t2 := Unseen.modCore h1 _ fun c => sameProgram_charge c ..
    have hr : r.HitUnseen s := by
      unfold r
      split
      · exact State.askHome_unseen ..
      · exact State.readDc_unseen h2 ..
    clear_value r t2 c
    clear_value k line cached l1hit b w
    split
    · exact State.keepSector_unseen (h1.modCore _ fun c => by simp [SameProgram]) ..
    · split
      · trivial
      · split
        · exact fetchLine_unseen (LineRead.ofAns_unseen h2 _) ..
        · split
          · split
            · exact fetchLine_unseen hr ..
            · exact fetchLine_unseen (State.askHome_unseen ..) ..
          · split
            · exact fetchLine_unseen (State.readScratch_unseen h2 ..) ..
            · split <;> trivial
          · trivial
          · trivial

theorem State.fetch_unseen (h : Unseen s t) (k : Asker) : (t.fetch k).OkUnseen s := by
  unfold State.fetch
  split
  · exact h
  · trivial
  · exact State.fetchWord_unseen h ..

end

/-- Settles O55: each read, walk, translation and fetch that answers at once changes caches, TLBs and counts. -/
theorem fetchAndTranslationKeepState : Obligations.FetchAndTranslationKeepState := by
  rintro s f k (hf | ⟨acc, lvl, va, pa, mt, ws, walk, hx⟩)
  · have h := State.fetch_unseen (Unseen.refl s) k
    rwa [hf] at h
  · have h := State.translate_unseen (Unseen.refl s) k acc lvl va false true
    rwa [hx] at h

end Sys2Proof.Machine
end

