-- ==== Sys2Proof/Proofs/CoreEffects.lean ====
section
/-! SUPPORT. What the scoreboard writes of a core, the words of a line, and fault reports leave as they were. -/

namespace Sys2Proof.Machine

open Sys2Proof.Claims

/-! Results that reach registers from V and from scratch loads (R100, R102). -/

/-- `d` is `c` but for registers, vector flags and beats. -/
def Core.SameButResults (c d : Core) : Prop :=
  ∃ g v p f b, d = { c with g := g, v := v, p := p, vflags := f, beats := b }

theorem Core.SameButResults.refl (c : Core) : c.SameButResults c := ⟨_, _, _, _, _, rfl⟩

theorem Core.SameButResults.trans {c d e : Core} (h : c.SameButResults d) (h' : d.SameButResults e) :
    c.SameButResults e := by
  obtain ⟨_, _, _, _, _, rfl⟩ := h
  obtain ⟨_, _, _, _, _, rfl⟩ := h'
  exact ⟨_, _, _, _, _, rfl⟩

theorem Core.SameButResults.foldl {α : Type} {f : Core → α → Core} (hf : ∀ (c : Core) x, c.SameButResults (f c x))
    (l : List α) (c : Core) : c.SameButResults (l.foldl f c) := by
  induction l generalizing c with
  | nil => exact .refl c
  | cons x l ih => exact (hf c x).trans (ih _)

theorem Core.put_results (c : Core) (i : Nat) (x : Line) : c.SameButResults (c.put i x) := by
  unfold Core.put Core.setG Core.setV Core.setP
  split_ifs <;> exact ⟨_, _, _, _, _, rfl⟩

theorem Core.SameButResults.withFlags {c d : Core} (h : c.SameButResults d) (f : Word) :
    c.SameButResults { d with vflags := f } := h.trans ⟨_, _, _, _, _, rfl⟩

theorem Core.SameButResults.withBeats {c d : Core} (h : c.SameButResults d) (b : Beats) :
    c.SameButResults { d with beats := b } := h.trans ⟨_, _, _, _, _, rfl⟩

theorem Core.vWrite_results (c : Core) (e : VEntry) : c.SameButResults (c.vWrite e) :=
  (c.put_results e.dest e.value).withFlags _

theorem Core.settle_results (c : Core) : c.SameButResults c.settle :=
  ((Core.SameButResults.foldl Core.vWrite_results _ c).withBeats _).trans
    ((Core.SameButResults.foldl (fun c (e : ScrLoad) => c.put_results e.dest e.value) _ _).withBeats _)

@[simp] theorem Core.settle_pc (c : Core) : c.settle.pc = c.pc := by
  obtain ⟨_, _, _, _, _, h⟩ := c.settle_results
  rw [h]
@[simp] theorem Core.settle_status (c : Core) : c.settle.status = c.status := by
  obtain ⟨_, _, _, _, _, h⟩ := c.settle_results
  rw [h]
@[simp] theorem Core.settle_sb (c : Core) : c.settle.sb = c.sb := by
  obtain ⟨_, _, _, _, _, h⟩ := c.settle_results
  rw [h]

@[simp] theorem Core.settle_level (c : Core) : c.settle.level = c.level := by simp [Core.level]

@[simp] theorem Core.settle_world (c : Core) : c.settle.world = c.world := by simp [Core.world]

theorem Core.level_lt (c : Core) : c.level < 4 := field_lt ..

/-! Beats, counts and the reflection log. -/

/-- `d` is `c` but for beats, counts and the reflection window. -/
def Core.SameButCounts (c d : Core) : Prop :=
  ∃ b a p w, d = { c with beats := b, acct := a, pmu := p, win := w }

theorem Core.SameButCounts.trans {c d e : Core} (h : c.SameButCounts d) (h' : d.SameButCounts e) :
    c.SameButCounts e := by
  obtain ⟨_, _, _, _, rfl⟩ := h
  obtain ⟨_, _, _, _, rfl⟩ := h'
  exact ⟨_, _, _, _, rfl⟩

theorem Core.count_counts (c : Core) (ev n : Nat) : c.SameButCounts (c.count ev n) := by
  unfold Core.count
  split <;> exact ⟨_, _, _, _, rfl⟩

theorem Core.charge_counts (c : Core) (ib sb l1 pfq walk : Nat) :
    c.SameButCounts (c.charge ib sb l1 pfq walk) := by
  unfold Core.charge
  extract_lets n d
  have hd : c.SameButCounts d :=
    (c.count_counts 1 n).trans <| (Core.count_counts _ 2 ib).trans <| (Core.count_counts _ 4 sb).trans <|
    (Core.count_counts _ 5 l1).trans <| (Core.count_counts _ 6 pfq).trans <| (Core.count_counts _ 7 walk).trans <|
    Core.count_counts _ 0x024 _
  exact hd.trans ⟨_, _, _, _, rfl⟩

theorem Core.logRec_counts (c : Core) (kind len : Nat) (data : List Word) :
    c.SameButCounts (c.logRec kind len data) := by
  unfold Core.logRec
  split <;> exact ⟨_, _, _, _, rfl⟩

/-! Words of a line. -/

theorem toNat_foldr_words_lt (ws : List Word) :
    ws.foldr (fun w n => w.toNat + 2 ^ 64 * n) 0 < 2 ^ (64 * ws.length) := by
  induction ws with
  | nil => simp
  | cons w ws ih =>
    have hw := w.isLt
    rw [List.foldr_cons, List.length_cons, Nat.mul_succ, Nat.pow_add]
    omega

theorem word_foldr_words (ws : List Word) (i : Nat) (hi : i < ws.length) :
    ws.foldr (fun w n => w.toNat + 2 ^ 64 * n) 0 / 2 ^ (64 * i) % 2 ^ 64 = ws[i].toNat := by
  induction ws generalizing i with
  | nil => exact absurd hi (Nat.not_lt_zero i)
  | cons w ws ih =>
    have hw := w.isLt
    cases i with
    | zero =>
      rw [List.foldr_cons, Nat.mul_zero, Nat.pow_zero, Nat.div_one, Nat.add_mul_mod_self_left, Nat.mod_eq_of_lt hw]
      rfl
    | succ i =>
      rw [List.foldr_cons, Nat.mul_succ, Nat.add_comm (64 * i), Nat.pow_add, ← Nat.div_div_eq_div_mul,
        Nat.add_mul_div_left _ _ (Nat.two_pow_pos 64), Nat.div_eq_of_lt hw, Nat.zero_add,
        ih i (by simpa using hi)]
      rfl

/-- Word `i` of a line of eight words is the word that was put there. -/
theorem extractLsb'_lineOfWords (ws : List Word) (hl : ws.length = 8) (i : Nat) (hi : i < ws.length) :
    (lineOfWords ws).extractLsb' (64 * i) 64 = ws[i] := by
  have hlt := toNat_foldr_words_lt ws
  rw [hl] at hlt
  apply BitVec.eq_of_toNat_eq
  rw [BitVec.extractLsb'_toNat, lineOfWords, BitVec.toNat_ofNat, Nat.mod_eq_of_lt hlt, Nat.shiftRight_eq_div_pow,
    word_foldr_words ws i hi]

theorem words_lineOfWords (ws : List Word) (hl : ws.length = 8) :
    ((List.range 8).map fun i => (lineOfWords ws).extractLsb' (64 * i) 64) = ws := by
  apply List.ext_getElem
  · simp [hl]
  · intro i hi hi'
    simpa using extractLsb'_lineOfWords ws hl i hi'

/-! Fault reports. -/

/-- A report fills registers of its station and the report frames, and uses free values (R418, R419). -/
theorem State.report_only (s : State) (st : Station) (cls source loc : Nat) (d0 d1 : Option Nat) (crit : Bool) :
    ∃ n m r l, s.report st cls source loc d0 d1 crit =
      { s with free := n, cp := m, reports := r, slotCrit := l } := by
  have horFree : ∀ (s : State) w o, ∃ n, (s.orFree w o).2 = { s with free := n } := by
    intro s w o
    cases o <;> exact ⟨_, rfl⟩
  unfold State.report
  extract_lets a
  split
  · exact ⟨_, _, _, _, rfl⟩
  · obtain ⟨n, hn⟩ := horFree s 64 d0
    split
    rename_i x0 s1 e0
    rw [e0] at hn
    replace hn : s1 = _ := hn
    obtain ⟨n', hn'⟩ := horFree s1 32 d1
    split
    rename_i x1 s2 e1
    rw [e1] at hn'
    replace hn' : s2 = _ := hn'
    rw [hn', hn]
    exact ⟨_, _, _, _, rfl⟩

section
variable (s : State) (st : Station) (cls source loc : Nat) (d0 d1 : Option Nat) (crit : Bool)

@[simp] theorem State.report_cores : (s.report st cls source loc d0 d1 crit).cores = s.cores := by
  obtain ⟨_, _, _, _, h⟩ := s.report_only st cls source loc d0 d1 crit
  rw [h]

@[simp] theorem State.report_dies : (s.report st cls source loc d0 d1 crit).dies = s.dies := by
  obtain ⟨_, _, _, _, h⟩ := s.report_only st cls source loc d0 d1 crit
  rw [h]

@[simp] theorem State.report_mem : (s.report st cls source loc d0 d1 crit).mem = s.mem := by
  obtain ⟨_, _, _, _, h⟩ := s.report_only st cls source loc d0 d1 crit
  rw [h]

@[simp] theorem State.report_poisWord : (s.report st cls source loc d0 d1 crit).poisWord = s.poisWord := by
  obtain ⟨_, _, _, _, h⟩ := s.report_only st cls source loc d0 d1 crit
  rw [h]

@[simp] theorem State.report_core (lc : LC) : (s.report st cls source loc d0 d1 crit).core lc = s.core lc := by
  rw [State.core, State.report_cores, State.core]

end

theorem State.asker_lc {s : State} {lc : LC} {k : Asker} (h : s.asker lc = some k) : k.lc = lc := by
  unfold State.asker at h
  split at h
  · contradiction
  · cases h
    rfl

end Sys2Proof.Machine
end

