-- ==== Sys2Proof/Proofs/ExceptionEntry.lean ====
section
namespace Sys2Proof.Machine

open Sys2Proof.Claims

/-! The frame (Table CORE-15). -/

/-- Every line of a translated frame is a whole line. -/
theorem State.frameLines_bytes {s x : State} {k : Asker} {lvl walk : Nat} {acc : AccType} {vas : List Word}
    {ps : List Part} (h : s.frameLines k lvl acc vas = .done ps walk x) : ∀ p ∈ ps, p.bytes = 64 := by
  induction vas generalizing s ps walk with
  | nil =>
    cases h
    simp
  | cons va vas ih =>
    rw [State.frameLines] at h
    split at h <;> try contradiction
    split at h <;> try contradiction
    rename_i hrest
    cases h
    exact List.forall_mem_cons.2 ⟨rfl, ih hrest⟩

/-- The three store-buffer entries of a frame of the words `ws`, made by core `b` as stores of level `tgt`. -/
def frameEntries (b : Core) (tgt : Nat) (ps : List Part) (ws : List Word) : List SbEntry :=
  (ps.zip [ws.take 8, (ws.drop 8).take 8, ws.drop 16]).map fun x => storeEntry b tgt x.1 (lineOfWords x.2)

section
variable {b : Core} {tgt : Nat} {ps : List Part} {ws : List Word}

theorem frameEntries_length (hps : ps.length = 3) : (frameEntries b tgt ps ws).length = 3 := by
  simp [frameEntries, hps]

theorem frameEntries_places (hps : ps.length = 3) (hb : ∀ p ∈ ps, p.bytes = 64) (ht : tgt < 4) :
    (frameEntries b tgt ps ws).map (fun e => (e.pa, e.bytes, e.level.toNat, e.s)) =
      ps.map fun p => (BitVec.ofNat 64 p.pa, 64, tgt, p.s) := by
  obtain ⟨p, q, r, rfl⟩ := List.length_eq_three.1 hps
  simp only [List.forall_mem_cons] at hb
  obtain ⟨hp, hq, hr, -⟩ := hb
  simp [frameEntries, storeEntry, hp, hq, hr, Nat.mod_eq_of_lt ht]

theorem frameEntries_words (hps : ps.length = 3) (hws : ws.length = 24) :
    ((frameEntries b tgt ps ws).flatMap fun e => (List.range 8).map fun i => e.data.extractLsb' (64 * i) 64) =
      ws := by
  obtain ⟨p, q, r, rfl⟩ := List.length_eq_three.1 hps
  have h1 := words_lineOfWords (ws.take 8) (by simp [hws])
  have h2 := words_lineOfWords ((ws.drop 8).take 8) (by simp [hws])
  have h3 := words_lineOfWords (ws.drop 16) (by simp [hws])
  simp only [frameEntries, storeEntry, List.zip_cons_cons, List.zip_nil_right, List.map_cons, List.map_nil,
    List.flatMap_cons, List.flatMap_nil, List.append_nil, h1, h2, h3]
  rw [← List.drop_drop (i := 8) (j := 8), List.take_append_drop, List.take_append_drop]

/-- Word `8 * i + j` of the frame is word `j` of entry `i`. -/
theorem frameEntries_word (hps : ps.length = 3) (hws : ws.length = 24) {i j : Nat} (hi : i < 3) (hj : j < 8) :
    ((frameEntries b tgt ps ws)[i]?.map fun e => e.data.extractLsb' (64 * j) 64) = ws[8 * i + j]? := by
  obtain ⟨p, q, r, rfl⟩ := List.length_eq_three.1 hps
  have hw : 8 * i + j < ws.length := by omega
  rw [List.getElem?_eq_getElem hw]
  match i, hi with
  | 0, _ => simp [frameEntries, storeEntry, extractLsb'_lineOfWords (ws.take 8) (by simp [hws]) j (by simp [hws, hj])]
  | 1, _ =>
    simp [frameEntries, storeEntry,
      extractLsb'_lineOfWords ((ws.drop 8).take 8) (by simp [hws]) j (by simp [hws, hj])]
  | 2, _ =>
    simp [frameEntries, storeEntry,
      extractLsb'_lineOfWords (ws.drop 16) (by simp [hws]) j (by simp [hws]; omega)]

end

/-! Entry once the frame is translated (Table CORE-16). -/

/-- The source that an entry acknowledges is acknowledged (R122). -/
def State.ackedBy (x : State) (lc : LC) (e : Entry) : State :=
  match e.ack with
  | some a => x.acknowledge lc a
  | none => x

/-- What entry `e` of core `c` leaves, from state `y` once its frame of parts `ps` at `sp` is translated and its
source is acknowledged. -/
def FramePushed (lc : LC) (e : Entry) (sp : Word) (ps : List Part) (c : Core) (y w : State) : Prop :=
  let b := y.core lc
  let d := w.core lc
  d.sb = b.sb ++ frameEntries b e.tgt ps (frameWords c e.epc e.cause e.tval e.tipa) ∧
  d.xsp = SMap.set 0 b.xsp e.tgt sp ∧ d.status = entryStatus e.tgt c.world ∧
  d.pc = (bank b.vbar e.tgt &&& ~~~0xFF#64) + BitVec.ofNat 64 e.off ∧ d.g = b.g ∧ KeepsV b d ∧
  d.cii = b.cii ∧ d.sbErr = (if e.bus then b.sbErr.drop 1 else b.sbErr) ∧ d.access = none ∧
  d.inWait = false ∧ w.mem = y.mem

theorem entryStatus_eq (tgt : Nat) (world : Bool) :
    BitVec.ofNat 64 (tgt + 4 * b2n (tgt = 3 || world)) = entryStatus tgt world := by
  unfold entryStatus b2n
  split <;> split <;> simp_all

/-- What an entry counts and records in its core: its beats, its event, its instruction where that retires, and
its record of the reflection log. -/
def Core.entryCounted (c : Core) (e : Entry) (ib sb l1 walk : Nat) : Core :=
  let c := (c.charge ib sb l1 0 walk).count e.ev 1
  let c := if e.done then c.count 3 1 else c
  match e.ack with
  | some a => c.logRec 4 1 [BitVec.ofNat 64 (a.id * 256)]
  | none => if e.bus then c.logRec 4 1 [1] else c

theorem Core.entryCounted_counts (c : Core) (e : Entry) (ib sb l1 walk : Nat) :
    c.SameButCounts (c.entryCounted e ib sb l1 walk) := by
  unfold Core.entryCounted
  extract_lets d d'
  have hd : c.SameButCounts d := (c.charge_counts ..).trans (Core.count_counts ..)
  have hd' : c.SameButCounts d' := by
    unfold d'
    split
    · exact hd.trans (Core.count_counts ..)
    · exact hd
  split
  · exact hd'.trans (Core.logRec_counts ..)
  · split
    · exact hd'.trans (Core.logRec_counts ..)
    · exact hd'

theorem State.enterFrame_pushes {s x : State} {k : Asker} {e : Entry} {sp : Word} {ps : List Part} {walk : Nat}
    (scr : Nat) (hroom : (s.core k.lc).sb.length ≤ 5)
    (hmap : (s.setCore k.lc { s.core k.lc with status := entryStatus e.tgt (s.core k.lc).world }).frameLines
      k e.tgt .store [sp, sp + 64, sp + 128] = .done ps walk x) :
    ∃ w, s.enterFrame k e sp scr = some w ∧
      FramePushed k.lc e sp ps (s.core k.lc) (x.ackedBy k.lc e) w := by
  have hr : ¬ (s.core k.lc).sbRoom < 3 := by unfold Core.sbRoom; omega
  unfold State.enterFrame
  simp only [hr, if_false, entryStatus_eq, hmap]
  refine ⟨(x.ackedBy k.lc e).modCore k.lc fun c =>
    let room := c.roomWait c.beats.next 3
    let d := ({ c with status := (s.core k.lc).status } : Core).entryCounted e (14 + e.cost)
      (e.sb + max room.1 (scr - room.2)) (e.l1 + room.2) (e.walk + walk)
    { d with
      sb := d.sb ++ frameEntries c e.tgt ps (frameWords (s.core k.lc) e.epc e.cause e.tval e.tipa)
      xsp := SMap.set 0 d.xsp e.tgt sp
      status := entryStatus e.tgt (s.core k.lc).world
      pc := (SMap.get 0 d.vbar e.tgt &&& ~~~0xFF#64) + BitVec.ofNat 64 e.off
      sbErr := if e.bus then d.sbErr.drop 1 else d.sbErr
      inWait := false, access := none, pfq := [], got := [], step := false }, rfl, ?_⟩
  generalize x.ackedBy k.lc e = y
  unfold FramePushed
  simp only [State.core_modCore, State.modCore_mem]
  generalize y.core k.lc = b
  obtain ⟨_, _, _, _, h⟩ := Core.entryCounted_counts { b with status := (s.core k.lc).status } e (14 + e.cost)
    (e.sb + max (b.roomWait b.beats.next 3).1 (scr - (b.roomWait b.beats.next 3).2))
    (e.l1 + (b.roomWait b.beats.next 3).2) (e.walk + walk)
  rw [h]
  exact ⟨rfl, rfl, trivial, rfl, rfl, ⟨rfl, rfl, rfl⟩, rfl, rfl, trivial, trivial, trivial⟩

/-- An entry that acknowledges no source leaves what Table CORE-16 says. -/
theorem entered_of_pushed {lc : LC} {e : Entry} {ps : List Part} {c : Core} {x w : State} (hack : e.ack = none)
    (hps : ps.length = 3) (hb : ∀ p ∈ ps, p.bytes = 64) (ht : e.tgt < 4)
    (h : FramePushed lc e (bank c.xsp e.tgt - 192) ps c (x.ackedBy lc e) w) :
    Entered lc e.tgt e.off e.epc e.cause e.tval e.tipa ps c x w ∧
      (w.core lc).sbErr = if e.bus then (x.core lc).sbErr.drop 1 else (x.core lc).sbErr := by
  rw [State.ackedBy, hack] at h
  obtain ⟨hsb, hxsp, hstatus, hpc, hg, hv, -, herr, hacc, hwait, hmem⟩ := h
  refine ⟨⟨⟨_, hsb, frameEntries_places hps hb ht, frameEntries_words hps rfl⟩, ?_, fun l hl => ?_, hstatus, hpc, hg,
    hv, hacc, hwait, hmem⟩, herr⟩
  · rw [hxsp]
    exact SMap.get_set_self ..
  · rw [hxsp]
    exact SMap.get_set_of_ne _ _ _ hl

/-! Whether the frame fits (R68). -/

theorem frameFits_iff (c : Core) (l : Nat) :
    FrameFits c l ↔ (decide (192 ≤ (SMap.get 0 c.xsp l).toNat) &&
      decide ((SMap.get 0 c.xlim l).toNat ≤ (SMap.get 0 c.xsp l).toNat - 192)) = true := by
  simp only [FrameFits, bank, Bool.and_eq_true, decide_eq_true_eq]
  omega

section
variable {s : State} {k : Asker} {e : Entry}

theorem State.enter_fits (h : FrameFits (s.core k.lc).settle e.tgt) :
    s.enter k e = (s.modCore k.lc Core.settle).enterFrame k e (bank (s.core k.lc).settle.xsp e.tgt - 192)
      (s.core k.lc).entryWait := by
  rw [frameFits_iff] at h
  simp only [State.enter, State.core_modCore]
  rw [if_pos h]

theorem State.enter_stops (h : ¬ FrameFits (s.core k.lc).settle e.tgt)
    (hm : e.tgt = 3 ∨ ¬ FrameFits (s.core k.lc).settle 3) :
    s.enter k e = some ((s.modCore k.lc Core.settle).coreStop k.lc (bank (s.core k.lc).settle.xsp e.tgt - 192)) := by
  rw [frameFits_iff] at h
  rw [frameFits_iff] at hm
  simp only [State.enter, State.core_modCore]
  rw [if_neg h]
  split
  · rfl
  · rename_i h3
    rw [if_neg (hm.resolve_left h3)]

theorem State.enter_stackLimit (h : ¬ FrameFits (s.core k.lc).settle e.tgt) (hm : e.tgt ≠ 3)
    (h3 : FrameFits (s.core k.lc).settle 3) :
    s.enter k e = (s.modCore k.lc Core.settle).enterFrame k
      { e with tgt := 3, off := 0x100, cause := 0x14, tval := bank (s.core k.lc).settle.xsp e.tgt - 192, tipa := 0
               ack := none, ev := 0x016 } (bank (s.core k.lc).settle.xsp 3 - 192) (s.core k.lc).entryWait := by
  rw [frameFits_iff] at h h3
  simp only [State.enter, State.core_modCore]
  rw [if_neg h, if_neg hm, if_pos h3]

/-- An entry without a source to acknowledge, whose frame fits, is translated and has room, is made. -/
theorem State.enter_entered {ps : List Part} {walk : Nat} {x : State} (hack : e.ack = none) (ht : e.tgt < 4)
    (hfit : FrameFits (s.core k.lc).settle e.tgt) (hroom : (s.core k.lc).sb.length ≤ 5) (hps : ps.length = 3)
    (hmap : FrameMapped k e.tgt ps walk (s.modCore k.lc Core.settle) x) :
    ∃ w, s.enter k e = some w ∧
      Entered k.lc e.tgt e.off e.epc e.cause e.tval e.tipa ps (s.core k.lc).settle x w ∧
      (w.core k.lc).sbErr = if e.bus then (x.core k.lc).sbErr.drop 1 else (x.core k.lc).sbErr := by
  unfold FrameMapped at hmap
  rw [State.enter_fits hfit]
  have hp := State.enterFrame_pushes (s := s.modCore k.lc Core.settle) (s.core k.lc).entryWait
    (by simpa using hroom) hmap
  rw [State.core_modCore] at hp
  obtain ⟨w, hw, hpush⟩ := hp
  exact ⟨w, hw, entered_of_pushed hack hps (State.frameLines_bytes hmap) ht hpush⟩

end

/-! Synchronous exceptions (R64, R69). -/

theorem routeOf_eq (code lvl : Nat) : routeOf code lvl = max (fixedLevel code) lvl := by
  unfold routeOf fixedLevel
  simp only [List.mem_cons, List.not_mem_nil, or_false]
  congr 1
  split_ifs <;> simp_all <;> omega

theorem Exc.cause_sync (e : Exc) : e.cause false = causeWord e := by
  simp [Exc.cause, causeWord, b2n]

theorem routed_lt (code : Nat) (c : Core) : max (fixedLevel code) c.level < 4 := by
  have := c.level_lt
  unfold fixedLevel
  split_ifs <;> omega

/-- An exception that can be entered is taken, whatever its instruction costs (R67). -/
theorem State.raise_taken {s x : State} {k : Asker} {e : Exc} {ps : List Part} {walk : Nat} (cost : Nat)
    (h : CanTake k e ps walk s x) : ∃ w, s.raise k e cost = some w ∧ TakesExc k e ps s x w := by
  obtain ⟨hfit, hroom, hps, hmap⟩ := h
  simp only [State.core_modCore, Core.settle_level, Core.settle_sb] at hfit hroom hmap
  rw [← routeOf_eq] at hfit hmap
  obtain ⟨w, hw, hent, -⟩ := State.enter_entered
    (e := { tgt := routeOf e.code (s.core k.lc).level, ev := 0x016, cost := cost, done := e.next, sb := e.sb
            l1 := e.l1, walk := e.walk
            off := if (s.core k.lc).level < routeOf e.code (s.core k.lc).level then 0 else 0x40
            cause := e.cause false, tval := e.tval, tipa := e.tipa
            epc := if e.next then (s.core k.lc).pc + 4 else (s.core k.lc).pc })
    rfl (by rw [routeOf_eq]; exact routed_lt ..) hfit hroom hps hmap
  refine ⟨w, hw, ?_⟩
  unfold TakesExc
  simp only [Core.settle_level, Core.settle_pc, ← routeOf_eq, ← Exc.cause_sync]
  exact hent

theorem exceptionEntry : ExceptionEntry := fun _ _ _ _ _ _ h => State.raise_taken 0 h

/-! The core that stops (R68). -/

theorem State.coreStop_stops (s : State) (lc : LC) (loc : Word) :
    let d := (s.coreStop lc loc).core lc
    let c := s.core lc
    d.halts = c.halts ++ [.stackLimit] ∧ d.ready = false ∧ d.sb = c.sb ∧ d.g = c.g ∧ d.pc = c.pc ∧
    d.status = c.status ∧ (s.coreStop lc loc).mem = s.mem := by
  unfold State.coreStop
  extract_lets s' d c
  have hs' : s'.core lc = s.core lc ∧ s'.mem = s.mem := by
    unfold s'
    split <;> simp
  have hd : d = { c with halts := c.halts ++ [.stackLimit], step := false } := by
    simp only [d, c, State.core_modCore, hs'.1]
  rw [hd]
  exact ⟨rfl, by simp [Core.ready], rfl, rfl, rfl, rfl, hs'.2⟩

theorem stackLimit : StackLimit := by
  intro s k e s0 c tgt hno
  have hc : c = (s.core k.lc).settle := State.core_modCore ..
  have htgt : tgt = routeOf e.code (s.core k.lc).level := by simp [tgt, hc, routeOf_eq]
  rw [hc, htgt] at hno
  constructor
  · intro ps walk x hm h3 hroom hps hmap
    rw [hc] at h3 hroom ⊢
    rw [htgt] at hm ⊢
    unfold FrameMapped at hmap
    simp only [s0, State.core_modCore] at hmap
    have hp := State.enterFrame_pushes (s := s0) (k := k)
      (e := { tgt := 3, off := 0x100, cause := 0x14, epc := if e.next then (s.core k.lc).pc + 4 else (s.core k.lc).pc
              tval := bank (s.core k.lc).settle.xsp (routeOf e.code (s.core k.lc).level) - 192, ev := 0x016
              done := e.next, sb := e.sb, l1 := e.l1, walk := e.walk })
      (s.core k.lc).entryWait (by simpa [s0] using hroom) (by simpa only [s0, State.core_modCore] using hmap)
    rw [State.core_modCore] at hp
    obtain ⟨w, hw, hpush⟩ := hp
    refine ⟨w, (State.enter_stackLimit hno hm h3).trans hw, ?_⟩
    rw [Core.settle_pc]
    exact (entered_of_pushed rfl hps (State.frameLines_bytes hmap) (show 3 < 4 by decide) hpush).1
  · intro hm
    rw [hc, htgt] at hm
    refine ⟨_, State.enter_stops hno hm, ?_⟩
    have hstop := (s.modCore k.lc Core.settle).coreStop_stops k.lc
      (bank (s.core k.lc).settle.xsp (routeOf e.code (s.core k.lc).level) - 192)
    exact hstop

/-- Settles O13: entry by what `enterFrame` pushes, the stack limit by the two ways in which a frame does not fit. -/
theorem exceptionEntryAndStackLimit : Obligations.ExceptionEntryAndStackLimit := ⟨exceptionEntry, stackLimit⟩

end Sys2Proof.Machine
end

