-- ==== Sys2Proof/Proofs/CallsAndInterrupts.lean ====
section
namespace Sys2Proof.Machine

open Sys2Proof.Claims

/-! Calls and traps (Table ISA-17). -/

section
variable {s u x : State} {lc : LC} {k : Asker} {t walk : Nat} {ps : List Part}

/-- A command whose body raises an exception that can be taken, at whatever cost, takes it. -/
theorem completes_taken {i : Instr} {need : Need} {body : Asker → Nat → State → Option State} {e : Exc}
    {cost : Nat} (hi : exec i s = s.issue lc need body) (h : Runs s lc need k t u)
    (hb : body k t u = u.raise k e cost) (he : CanTake k e ps walk u x) :
    Completes i s (TakesExc k e ps u x) := by
  obtain ⟨w, hw, hp⟩ := State.raise_taken cost he
  exact ⟨w, hi.trans (issue_next h body (hb.trans hw)), hp⟩

theorem call_taken {i : Instr} {code : Nat} {w : Word32} {allowed : Nat → Bool}
    (hi : exec i s = s.call lc code w allowed) (h : Runs s lc {} k t u)
    (ha : allowed (u.core lc).level = true) (he : CanTake k { code := code, next := true } ps walk u x) :
    Completes i s (TakesExc k { code := code, next := true } ps u x) :=
  completes_taken hi h (if_pos ha) he

theorem call_refused {i : Instr} {code : Nat} {w : Word32} {allowed : Nat → Bool}
    (hi : exec i s = s.call lc code w allowed) (h : Runs s lc {} k t u)
    (ha : allowed (u.core lc).level = false) (he : CanTake k { code := 0x02, tval := w.zeroExtend 64 } ps walk u x) :
    Completes i s (TakesExc k { code := 0x02, tval := w.zeroExtend 64 } ps u x) :=
  completes_taken hi h (if_neg (by simp [ha])) he

end

theorem exec_kcall (lc : LC) (nn : BitVec 8) (s : State) :
    exec (.kcall lc nn) s = s.call lc 0x10 (encY 0 0 2 nn.toNat) (· ≤ 1) := rfl

theorem exec_hcall (lc : LC) (nn : BitVec 8) (s : State) :
    exec (.hcall lc nn) s = s.call lc 0x11 (encY 0 0 2 (0x100 + nn.toNat)) (· == 1) := rfl

theorem exec_mcall (lc : LC) (nn : BitVec 8) (s : State) :
    exec (.mcall lc nn) s = s.call lc 0x12 (encY 0 0 2 (0x200 + nn.toNat)) (fun l => l = 1 || l = 2) := rfl

theorem exec_brk (lc : LC) (nn : BitVec 8) (s : State) :
    exec (.brk lc nn) s = s.issue lc {} fun k _ s => s.raise k { code := 0x13 } 1 := rfl

theorem exec_illegalEncoding (lc : LC) (w : Word32) (s : State) :
    exec (.illegalEncoding lc w) s =
      s.issue lc {} fun k _ s => s.raise k { code := 0x01, tval := w.zeroExtend 64 } := rfl

theorem callsAndTraps : CallsAndTraps := by
  intro lc nn word s k t u ps walk x h lvl call priv
  have hlvl : lvl < 4 := (u.core lc).level_lt
  refine ⟨fun hl he => ?_, fun hl he => ?_, fun hl he => ?_, fun he => ?_, fun he => ?_, fun hl he => ?_,
    fun hl he => ?_, fun hl he => ?_⟩
  · exact call_taken (exec_kcall lc nn s) h (decide_eq_true hl) he
  · exact call_taken (exec_hcall lc nn s) h (beq_iff_eq.2 hl) he
  · exact call_taken (exec_mcall lc nn s) h (by simpa using hl) he
  · exact completes_taken (exec_brk lc nn s) h rfl he
  · exact completes_taken (exec_illegalEncoding lc word s) h rfl he
  · exact call_refused (exec_kcall lc nn s) h (decide_eq_false (Nat.not_le.2 hl)) he
  · exact call_refused (exec_hcall lc nn s) h (beq_eq_false_iff_ne.2 hl) he
  · exact call_refused (exec_mcall lc nn s) h (by simp; omega) he

/-! STORE_BUS (R70). -/

theorem exec_storeBus {lc : LC} {s : State} {k : Asker} {b : BusErr} {rest : List BusErr}
    (hk : s.asker lc = some k) (hready : (s.core lc).ready = true) (hb : (s.core lc).sbErr = b :: rest) :
    exec (.storeBus lc) s = .next ((s.raiseStoreBus k b).getD s) := by
  show execStoreBus lc s = _
  simp only [execStoreBus, hk, hb, hready, if_true]

theorem storeBus_cause (anyway : Prop) [Decidable anyway] :
    Exc.cause { code := 0x0C } (decide anyway) = if anyway then 0x200C else 0x0C := by
  by_cases h : anyway <;> simp [Exc.cause, b2n, h]

theorem storeBus_enters (lc : LC) (s : State) (k : Asker) (b : BusErr) (rest : List BusErr) (ps : List Part)
    (walk : Nat) (x : State) (hk : s.asker lc = some k) (hready : (s.core lc).ready = true)
    (hb : (s.core lc).sbErr = b :: rest) :
    let s0 := s.modCore lc Core.settle
    let c := s0.core lc
    let want := if b.level.toNat ≤ 1 then 1 else b.level.toNat
    let tgt := max want c.level
    FrameFits c tgt → c.sb.length ≤ 5 → ps.length = 3 → FrameMapped k tgt ps walk s0 x →
    Completes (.storeBus lc) s fun w =>
      Entered lc tgt 0xC0 c.pc (if want < c.level then 0x200C else 0x0C) b.addr 0 ps c x w ∧
      (w.core lc).sbErr = (x.core lc).sbErr.drop 1 := by
  intro s0 c want tgt hfit hroom hps hmap
  cases State.asker_lc hk
  have hc : c = (s.core k.lc).settle := State.core_modCore ..
  have htgt : tgt = max want (s.core k.lc).level := by simp [tgt, hc]
  have hlt : tgt < 4 := by
    have := (s.core k.lc).level_lt
    have := b.level.isLt
    rw [htgt]
    simp only [want]
    split_ifs <;> omega
  rw [hc] at hfit hroom ⊢
  obtain ⟨w, hw, hent, herr⟩ := State.enter_entered
    (e := { ev := 0x016, bus := true, tgt := tgt, off := 0xC0, epc := (s.core k.lc).pc, tval := b.addr
            cause := Exc.cause { code := 0x0C } (want < (s.core k.lc).level) })
    rfl hlt hfit (by simpa using hroom) hps hmap
  refine ⟨w, ?_, ?_, herr⟩
  · rw [exec_storeBus hk hready hb]
    have hraise : s.raiseStoreBus k b = some w := by
      rw [htgt] at hw
      exact hw
    rw [hraise]
    rfl
  · rw [storeBus_cause] at hent
    simpa using hent

/-! Interrupts (R119, R122). -/

theorem exec_interruptEntry {lc : LC} {s : State} {k : Asker} {src : Cand} {tgt : Nat}
    (hk : s.asker lc = some k) (hready : (s.core lc).ready = true) (herr : (s.core lc).sbErr = [])
    (hdue : s.due lc = some (src, tgt)) :
    exec (.interruptEntry lc) s = .next ((s.enterInterrupt k src tgt).getD s) := by
  show execInterruptEntry lc s = _
  simp [execInterruptEntry, State.takeInterrupt, hk, hdue, hready, herr]

theorem getLsbD_setBit_self {n : Nat} (v : BitVec n) {i : Nat} (b : Bool) (hi : i < n) :
    (setBit v i b).getLsbD i = b := by
  rw [setBit, getLsbD_setField, if_pos (by omega)]
  cases b <;> simp [hi]

/-- Acknowledging a source changes its core's interface and the source alone (R122). -/
theorem State.core_acknowledge (s : State) (lc : LC) (a : Cand) :
    ∃ x : Cii, (s.acknowledge lc a).core lc = { s.core lc with cii := x } ∧
      x.stack = ⟨BitVec.ofNat 8 a.prio, a.id, a.die⟩ :: (s.core lc).cii.stack ∧
      (a.die = none → a.id < 32 → x.act.getLsbD a.id = true ∧ x.pend.getLsbD a.id = false) := by
  unfold State.acknowledge
  extract_lets push
  split
  · refine ⟨_, State.core_modCore .., rfl, fun _ hid => ?_⟩
    exact ⟨getLsbD_setBit_self _ true hid, getLsbD_setBit_self _ false hid⟩
  · rename_i d hd
    exact ⟨push (s.core lc).cii, (State.core_modDie ..).trans (State.core_modCore ..), rfl,
      fun hn => absurd (hn.symm.trans hd) nofun⟩

theorem frameWords_epc (c : Core) (epc cause tval : Word) (tipa : Nat) :
    (frameWords c epc cause tval tipa)[15]? = some epc := rfl

theorem frameWords_cause (c : Core) (epc cause tval : Word) (tipa : Nat) :
    (frameWords c epc cause tval tipa)[17]? = some cause := rfl

theorem State.acknowledge_mem (s : State) (lc : LC) (a : Cand) : (s.acknowledge lc a).mem = s.mem := by
  unfold State.acknowledge
  split <;> rfl

theorem interrupt_enters (lc : LC) (s : State) (k : Asker) (src : Cand) (tgt : Nat) (ps : List Part) (walk : Nat)
    (x : State) (hk : s.asker lc = some k) (hready : (s.core lc).ready = true) (herr : (s.core lc).sbErr = [])
    (hdue : s.due lc = some (src, tgt)) :
    let s0 := s.modCore lc Core.settle
    let c := s0.core lc
    FrameFits c tgt → c.sb.length ≤ 5 → ps.length = 3 → FrameMapped k tgt ps walk s0 x →
    Completes (.interruptEntry lc) s fun w =>
      let d := w.core lc
      (∀ l, l ≠ tgt → bank d.xsp l = bank (x.core lc).xsp l) ∧ bank d.xsp tgt = bank c.xsp tgt - 192 ∧
      d.status = entryStatus tgt c.world ∧
      d.pc = (bank (x.core lc).vbar tgt &&& ~~~0xFF#64) + 0x80 ∧ d.g = (x.core lc).g ∧
      w.mem = x.mem ∧
      d.cii.stack = ⟨BitVec.ofNat 8 src.prio, src.id, src.die⟩ :: (x.core lc).cii.stack ∧
      (src.die = none → src.id < 32 → d.cii.act.getLsbD src.id = true ∧
        d.cii.pend.getLsbD src.id = false) ∧
      (∃ es, d.sb = (x.core lc).sb ++ es ∧ es.length = 3 ∧
        (es[2]?.map fun e => e.data.extractLsb' 64 64) = some (BitVec.ofNat 64 (2 ^ 63 + src.id)) ∧
        (es[1]?.map fun e => e.data.extractLsb' 448 64) = some c.pc) := by
  intro s0 c hfit hroom hps hmap
  cases State.asker_lc hk
  have hc : c = (s.core k.lc).settle := State.core_modCore ..
  rw [hc] at hfit hroom ⊢
  have hp := State.enterFrame_pushes (s := s0) (k := k) (sp := bank (s.core k.lc).settle.xsp tgt - 192) (ps := ps)
    (e := { ev := 0x030, tgt := tgt, off := 0x80, cause := BitVec.ofNat 64 (2 ^ 63 + src.id)
            epc := (s.core k.lc).pc, ack := some src })
    (s.core k.lc).entryWait (by simpa [s0] using hroom)
    (by unfold FrameMapped at hmap; simpa only [s0, State.core_modCore] using hmap)
  rw [State.core_modCore] at hp
  obtain ⟨w, hw, hsb, hxsp, hstatus, hpc, hg, -, hcii, -, -, -, hmem⟩ := hp
  obtain ⟨i, hi, hstack, hact⟩ := x.core_acknowledge k.lc src
  simp only [State.ackedBy, hi] at hsb hxsp hstatus hpc hg hcii hmem
  refine ⟨w, ?_, fun l hl => ?_, ?_, hstatus, hpc, hg, hmem.trans (x.acknowledge_mem k.lc src), ?_, ?_, _, hsb,
    frameEntries_length hps, ?_, ?_⟩
  · rw [exec_interruptEntry hk hready herr hdue]
    have henter : s.enterInterrupt k src tgt = some w := (State.enter_fits hfit).trans hw
    rw [henter]
    rfl
  · rw [hxsp]
    exact SMap.get_set_of_ne _ _ _ hl
  · rw [hxsp]
    exact SMap.get_set_self ..
  · rw [hcii, hstack]
  · rwa [hcii]
  · exact (frameEntries_word hps rfl (i := 2) (j := 1) (by decide) (by decide)).trans (frameWords_cause ..)
  · rw [Core.settle_pc]
    exact (frameEntries_word hps rfl (i := 1) (j := 7) (by decide) (by decide)).trans (frameWords_epc ..)

/-- Settles O14: calls and traps take their exception; STORE_BUS and interrupts enter through `State.enter`. -/
theorem callsTrapsAndAsynchronousEntry : Obligations.CallsTrapsAndAsynchronousEntry :=
  ⟨callsAndTraps, storeBus_enters, interrupt_enters⟩

end Sys2Proof.Machine
end

