-- ==== Sys2Proof/Proofs/ExceptionReturn.lean ====
section
namespace Sys2Proof.Machine

open Sys2Proof.Claims

/-! The registers that a return writes. -/

theorem Core.getG_foldl_setG (c : Core) (f : Nat → Word) (n : Nat) (hn : n ≤ 15) (r : Reg) :
    ((List.range n).foldl (fun c i => c.setG (BitVec.ofNat 5 (i + 1)) (f i)) c).getG r =
      if r ≠ 0 ∧ r.toNat ≤ n then f (r.toNat - 1) else c.getG r := by
  induction n with
  | zero =>
    rw [if_neg fun h => h.1 (BitVec.eq_of_toNat_eq (Nat.le_zero.1 h.2))]
    rfl
  | succ n ih =>
    rw [List.range_succ, List.foldl_append, List.foldl_cons, List.foldl_nil, Core.getG_setG, ih (by omega)]
    have hr : r = BitVec.ofNat 5 (n + 1) ↔ r.toNat = n + 1 := by
      rw [← BitVec.toNat_inj, BitVec.toNat_ofNat, Nat.mod_eq_of_lt (by omega)]
    by_cases h0 : r = 0
    · subst h0
      rw [if_pos rfl, if_neg fun h => h.1 rfl, Core.getG_zero]
    · rw [if_neg h0]
      by_cases hlast : r.toNat = n + 1
      · rw [if_pos (hr.2 hlast), if_pos ⟨h0, hlast.le⟩, hlast]
        rfl
      · have hle : r.toNat ≤ n + 1 ↔ r.toNat ≤ n := by omega
        rw [if_neg (mt hr.1 hlast)]
        simp only [hle]

theorem Core.foldl_setG_only (c : Core) (f : Nat → Word) (l : List Nat) :
    ∃ g, l.foldl (fun c i => c.setG (BitVec.ofNat 5 (i + 1)) (f i)) c = { c with g := g } := by
  induction l generalizing c with
  | nil => exact ⟨_, rfl⟩
  | cons i l ih =>
    obtain ⟨g, hg⟩ := ih (c.setG (BitVec.ofNat 5 (i + 1)) (f i))
    rw [List.foldl_cons, hg]
    unfold Core.setG
    split <;> exact ⟨_, rfl⟩

/-- What a return makes of its core, from the frame `v` that was read (R71). -/
def Core.returned (c : Core) (a : Access) (v : Nat) : Core :=
  let est := frameWord v 16
  let lvl := field est 0 2
  let c := (List.range 15).foldl (fun c i => c.setG (BitVec.ofNat 5 (i + 1)) (frameWord v i)) c
  let c := c.charge 0 a.sbm a.l1 0 a.walk
  let sp := SMap.set 0 c.xsp c.level (SMap.get 0 c.xsp c.level + 192)
  let c := { c with xsp := sp }
  let c := (List.range 3).foldl (fun c i => c.logRec 3 5
    (0 :: (List.range 8).map fun j => frameWord v (8 * i + j))) c
  { (c.retire (frameWord v 15 &&& ~~~3#64) 12).flush with
    status := BitVec.ofNat 64 (lvl + 4 * b2n (bit est 2 || lvl = 3) + 8 * b2n (bit est 3)) }

theorem Core.SameButCounts.refl (c : Core) : c.SameButCounts c := ⟨_, _, _, _, rfl⟩

theorem Core.SameButCounts.foldl {α : Type} {f : Core → α → Core} (hf : ∀ (c : Core) x, c.SameButCounts (f c x))
    (l : List α) (c : Core) : c.SameButCounts (l.foldl f c) := by
  induction l generalizing c with
  | nil => exact .refl c
  | cons x l ih => exact (hf c x).trans (ih _)

theorem Core.retire_counts (c : Core) (pc' : Word) (cost : Nat) :
    ∃ d, c.SameButCounts d ∧ (c.retire pc' cost).flush = { d with pc := pc', got := [], pfq := [], step := false } :=
  ⟨{ (c.charge cost 0 0 0 0).count 3 1 with
      win := (c.charge cost 0 0 0 0).win.map fun w => { w with icount := w.icount + 1 } },
    ((c.charge_counts ..).trans (Core.count_counts ..)).trans ⟨_, _, _, _, rfl⟩, rfl⟩

/-- A return changes registers, counts, the stack pointer of its level, pc, status and what was fetched. -/
theorem Core.returned_only (c : Core) (a : Access) (v : Nat) :
    ∃ g b ac p w, c.returned a v = { c with
      g := g, beats := b, acct := ac, pmu := p, win := w
      xsp := SMap.set 0 c.xsp c.level (SMap.get 0 c.xsp c.level + 192)
      pc := frameWord v 15 &&& ~~~3#64, got := [], pfq := [], step := false
      status := BitVec.ofNat 64 (field (frameWord v 16) 0 2 +
        4 * b2n (bit (frameWord v 16) 2 || field (frameWord v 16) 0 2 = 3) + 8 * b2n (bit (frameWord v 16) 3)) } ∧
      ∀ r, Core.getG { c with g := g } r =
        if r ≠ 0 ∧ r.toNat ≤ 15 then frameWord v (r.toNat - 1) else c.getG r := by
  have hregs := c.getG_foldl_setG (frameWord v) 15 (by decide)
  obtain ⟨g, hg⟩ := c.foldl_setG_only (frameWord v) (List.range 15)
  rw [hg] at hregs
  unfold Core.returned
  extract_lets est lvl e1 e2 sp e3 e4 e6
  obtain ⟨_, _, _, _, h2⟩ : e1.SameButCounts e2 := e1.charge_counts ..
  obtain ⟨_, _, _, _, h4⟩ : e3.SameButCounts e4 := Core.SameButCounts.foldl (fun c i => c.logRec_counts ..) _ _
  obtain ⟨e5, ⟨_, _, _, _, h5⟩, hret⟩ := e4.retire_counts (frameWord v 15 &&& ~~~3#64) 12
  have h3 : e3 = { e2 with xsp := SMap.set 0 e2.xsp e2.level (SMap.get 0 e2.xsp e2.level + 192) } := rfl
  have h1 : e1 = { c with g := g } := hg
  have h6 : e6 = _ := hret
  rw [h6, h5, h4, h3, h2, h1]
  exact ⟨g, _, _, _, _, rfl, hregs⟩

theorem Core.returned_fields (c : Core) (a : Access) (v : Nat) :
    let d := c.returned a v
    let est := frameWord v 16
    let lvl := field est 0 2
    (∀ i < 15, d.getG (BitVec.ofNat 5 (i + 1)) = frameWord v i) ∧
    (∀ r : Reg, 16 ≤ r.toNat → d.getG r = c.getG r) ∧
    d.pc = frameWord v 15 &&& ~~~3#64 ∧
    d.status = BitVec.ofNat 64 (lvl + (if est.getLsbD 2 || lvl == 3 then 4 else 0) +
      if est.getLsbD 3 then 8 else 0) ∧
    bank d.xsp c.level = bank c.xsp c.level + 192 ∧
    (∀ l, l ≠ c.level → bank d.xsp l = bank c.xsp l) ∧
    d.vbar = c.vbar ∧ d.xlim = c.xlim ∧ KeepsV c d ∧ d.sb = c.sb ∧ d.cii = c.cii := by
  obtain ⟨g, _, _, _, _, h, hregs⟩ := c.returned_only a v
  intro d est lvl
  have hd : d = _ := h
  have hget : ∀ r, d.getG r = Core.getG { c with g := g } r := fun r => by
    rw [hd]
    rfl
  refine ⟨fun i hi => ?_, fun r hr => ?_, ?_, ?_, ?_, fun l hl => ?_, ?_⟩
  · have hn : (BitVec.ofNat 5 (i + 1)).toNat = i + 1 := by simp; omega
    have h0 : BitVec.ofNat 5 (i + 1) ≠ 0 := fun h0 => by simp [h0] at hn
    rw [hget, hregs, if_pos ⟨h0, by omega⟩, hn]
    rfl
  · rw [hget, hregs, if_neg (by omega)]
  · rw [hd]
  · have hb : (bit est 2 || decide (lvl = 3)) = (est.getLsbD 2 || lvl == 3) := rfl
    have hstatus : d.status = BitVec.ofNat 64 (lvl + 4 * b2n (bit est 2 || lvl = 3) + 8 * b2n (bit est 3)) := by
      rw [hd]
    rw [hstatus, hb, bit]
    unfold b2n
    congr 2
    · split <;> rfl
    · split <;> rfl
  · rw [hd]
    exact SMap.get_set_self ..
  · rw [hd]
    exact SMap.get_set_of_ne _ _ _ hl
  · rw [hd]
    exact ⟨rfl, rfl, ⟨rfl, rfl, rfl⟩, rfl, rfl⟩

/-! The frame that was read (R71, R126). -/

/-- The core takes `src` in the place of its return: a tail-chain (R126). -/
def Core.tailChained (c : Core) (a : Access) (v : Nat) (p : Part) (src : Cand) (room : Nat × Nat) : Core :=
  let ws := [frameWord v 16, BitVec.ofNat 64 (2 ^ 63 + src.id), 0, 0, frameWord v 20, frameWord v 21,
             frameWord v 22, frameWord v 23]
  let c := (c.charge 5 (a.sbm + room.1) (a.l1 + room.2) 0 a.walk).count 0x031 1
  { c.flush with
    sb := c.sb ++ [storeEntry c c.level p (lineOfWords ws)]
    status := c.status &&& ~~~8#64
    pc := (SMap.get 0 c.vbar c.level &&& ~~~0xFF#64) + 0x80 }

theorem Core.tailChained_fields (c : Core) (a : Access) (v : Nat) (p : Part) (src : Cand) (room : Nat × Nat)
    (hp : p.bytes = 64) :
    let d := c.tailChained a v p src room
    (∃ e, d.sb = c.sb ++ [e] ∧ e.pa = BitVec.ofNat 64 p.pa ∧ e.bytes = 64 ∧
      e.data.extractLsb' 0 64 = frameWord v 16 ∧ e.data.extractLsb' 64 64 = BitVec.ofNat 64 (2 ^ 63 + src.id) ∧
      e.data.extractLsb' 128 64 = 0 ∧ e.data.extractLsb' 192 64 = 0) ∧
    d.g = c.g ∧ d.xsp = c.xsp ∧ d.status = c.status &&& ~~~8#64 ∧
    d.pc = (bank c.vbar c.level &&& ~~~0xFF#64) + 0x80 := by
  unfold Core.tailChained
  extract_lets ws d _ d'
  obtain ⟨_, _, _, _, h⟩ : c.SameButCounts d := (c.charge_counts ..).trans (Core.count_counts ..)
  have hw := fun i (hi : i < 8) => extractLsb'_lineOfWords ws rfl i hi
  clear_value d
  subst h
  exact ⟨⟨_, rfl, rfl, hp, hw 0 (by decide), hw 1 (by decide), hw 2 (by decide), hw 3 (by decide)⟩, rfl, rfl, rfl, rfl⟩

theorem State.tailChain_fields (z : State) (lc : LC) (a : Access) (v : Nat) (p : Part) (src : Cand)
    (room : Nat × Nat) (hp : p.bytes = 64) :
    let w := (z.acknowledge lc src).modCore lc (·.tailChained a v p src room)
    let d := w.core lc
    let b := z.core lc
    (∃ e, d.sb = b.sb ++ [e] ∧ e.pa = BitVec.ofNat 64 p.pa ∧ e.bytes = 64 ∧
      e.data.extractLsb' 0 64 = frameWord v 16 ∧ e.data.extractLsb' 64 64 = BitVec.ofNat 64 (2 ^ 63 + src.id) ∧
      e.data.extractLsb' 128 64 = 0 ∧ e.data.extractLsb' 192 64 = 0) ∧
    d.g = b.g ∧ d.xsp = b.xsp ∧ d.status = b.status &&& ~~~8#64 ∧ w.mem = z.mem ∧
    d.pc = (bank b.vbar b.level &&& ~~~0xFF#64) + 0x80 := by
  intro w d b
  obtain ⟨i, hi, -⟩ := z.core_acknowledge lc src
  have hd : d = ({ b with cii := i } : Core).tailChained a v p src room :=
    (State.core_modCore ..).trans (congrArg (·.tailChained a v p src room) hi)
  obtain ⟨hsb, hg, hxsp, hstatus, hpc⟩ := ({ b with cii := i } : Core).tailChained_fields a v p src room hp
  rw [hd]
  exact ⟨hsb, hg, hxsp, hstatus, z.acknowledge_mem lc src, hpc⟩

section
variable {s z : State} {k : Asker} {a : Access} {v : Nat}

/-- Whether the frame may be returned to from core `b` (R71). -/
def MayReturn (b : Core) (v : Nat) : Prop :=
  field (frameWord v 16) 0 2 ≤ b.level ∧ ((frameWord v 16).getLsbD 2 = b.world ∨ b.level = 3)

/-- The source that would be taken at once after the return (R126). -/
def State.takenAfter (z : State) (lc : LC) (v : Nat) : Option (Cand × Nat) :=
  let est := frameWord v 16
  let lvl := field est 0 2
  z.takenAt lc (z.core lc) lvl (est.getLsbD 2 || lvl == 3) (est.getLsbD 3)

theorem mayReturn_iff (b : Core) (v : Nat) :
    MayReturn b v ↔ ¬ (decide (b.level < field (frameWord v 16) 0 2) ||
      (bit (frameWord v 16) 2 != b.world && decide (b.level ≠ 3))) = true := by
  simp only [MayReturn, bit, Bool.or_eq_true, Bool.and_eq_true, decide_eq_true_eq, bne_iff_ne, not_or,
    not_lt, not_and_or, not_not]

theorem State.eretDone_refused (hz : z = s.modCore k.lc fun c => { c with access := none })
    (h : ¬ MayReturn (z.core k.lc) v) : s.eretDone k a v = z.trapWord k 0x02 (encY 0 0 3 0) := by
  rw [mayReturn_iff, not_not] at h
  subst hz
  exact if_pos h

theorem State.eretDone_returns (hz : z = s.modCore k.lc fun c => { c with access := none })
    (h : MayReturn (z.core k.lc) v) (hno : ∀ src, z.takenAfter k.lc v ≠ some (src, (z.core k.lc).level)) :
    s.eretDone k a v = some (z.modCore k.lc (·.returned a v)) := by
  rw [mayReturn_iff] at h
  subst hz
  refine (if_neg h).trans ?_
  split
  · rename_i src tgt p htaken _
    rw [if_pos]
    · rfl
    · rintro rfl
      exact hno src htaken
  · rfl

theorem State.eretDone_tailChains (hz : z = s.modCore k.lc fun c => { c with access := none })
    (h : MayReturn (z.core k.lc) v) {src : Cand} {p : Part}
    (htaken : z.takenAfter k.lc v = some (src, (z.core k.lc).level)) (hp : a.parts[2]? = some p)
    (hroom : (z.core k.lc).sb.length < 8) :
    s.eretDone k a v = some ((z.acknowledge k.lc src).modCore k.lc
      (·.tailChained a v p src ((z.core k.lc).roomWait (z.core k.lc).beats.next 1))) := by
  rw [mayReturn_iff] at h
  subst hz
  have hr : (State.core (s.modCore k.lc fun c => { c with access := none }) k.lc).sbRoom ≠ 0 := by
    unfold Core.sbRoom
    omega
  refine (if_neg h).trans ?_
  split
  · rename_i htaken' hp'
    cases htaken.symm.trans htaken'
    cases hp.symm.trans hp'
    rw [if_neg (not_not.2 rfl), if_neg hr]
    rfl
  · rename_i hno
    exact absurd hp (hno _ _ _ htaken)

theorem State.eretStep_reads {x y : State} {g : Gather} (hgot : a.got = []) (h : Reads x k a.parts g y) :
    x.eretStep k a = y.eretDone k { a with l1 := a.l1 + g.l1 } g.val := by
  obtain ⟨hg, hbus, hpois⟩ := h
  simp only [State.eretStep, hgot, hg, hbus, hpois, Bool.false_eq_true, if_false]

end

/-! The instruction. -/

section
variable {s u x y : State} {lc : LC} {k : Asker} {t walk : Nat} {ps : List Part} {g : Gather}

theorem exec_eret_atU (h : Runs s lc { writes := eretWrites } k t u) (hl : (u.core lc).level = 0)
    (hx : u.raise k { code := 0x02, tval := (encY 0 0 3 0).zeroExtend 64 } = some x) :
    exec (.eret lc) s = .next x := by
  show execEret lc s = _
  unfold execEret
  exact issue_next h _ ((if_pos hl).trans hx)

/-- The access that ERET makes to read the frame `ps`. -/
def eretAccess (c : Core) (ps : List Part) (t walk : Nat) : Access :=
  let m := t + 2 + walk
  let w := waitDrains m (c.beats.upTo (eretWaits ps))
  { kind := .eret, parts := ps, leave := t, walk := walk, l1 := w.1 + w.2, sbm := c.mWait m - (w.1 + w.2) }

theorem exec_eret_reads (h : Runs s lc { writes := eretWrites } k t u) (hl : (u.core lc).level ≠ 0)
    (he : (u.core lc).eoiWaits = false)
    (hf : u.frameLines k (u.core lc).level .load
      [bank (u.core lc).xsp (u.core lc).level, bank (u.core lc).xsp (u.core lc).level + 64,
       bank (u.core lc).xsp (u.core lc).level + 128] = .done ps walk x)
    (hr : Reads x k ps g y) {w : State}
    (hw : y.eretDone k { eretAccess (u.core lc) ps t walk with
      l1 := (eretAccess (u.core lc) ps t walk).l1 + g.l1 } g.val = some w) : exec (.eret lc) s = .next w := by
  show execEret lc s = _
  unfold execEret
  refine issue_next h _ ?_
  simp only [hl, he, if_false, Bool.false_eq_true]
  unfold bank at hf
  rw [hf]
  exact (State.eretStep_reads (a := eretAccess (u.core lc) ps t walk) rfl hr).trans hw

end

/-- Settles O15: the frame is read, and `eretDone` refuses it, returns to it or chains to the next interrupt. -/
theorem exceptionReturn : Obligations.ExceptionReturn := by
  refine ⟨fun lc s k t u x h hl hx => exec_eret_atU h hl hx, ?_⟩
  intro lc s k t u ps walk x g y h c sp hl he hf hr hps z b est lvl world
  cases State.asker_lc h.1
  have hz : z = y.modCore k.lc fun c => { c with access := none } := rfl
  refine ⟨fun hmay => ⟨fun hno => ?_, fun src p htaken hp hroom => ?_⟩, fun v hmay hv => ?_⟩
  · refine ⟨z.modCore k.lc (·.returned _ g.val),
      exec_eret_reads h hl he hf hr (State.eretDone_returns hz hmay hno), onlyCore_modCore .., ?_⟩
    rw [State.core_modCore]
    exact b.returned_fields _ g.val
  · have hbytes : p.bytes = 64 := State.frameLines_bytes hf p (List.mem_of_getElem? hp)
    exact ⟨_, exec_eret_reads h hl he hf hr (State.eretDone_tailChains hz hmay htaken hp hroom),
      z.tailChain_fields k.lc _ g.val p src _ hbytes⟩
  · exact exec_eret_reads h hl he hf hr ((State.eretDone_refused hz hmay).trans hv)

end Sys2Proof.Machine
end

