-- ==== Sys2Proof/Proofs/Traffic.lean ====
section
/-! SUPPORT. What sending a request leaves as it was: memory, dies, and all that programs see of their cores. -/

namespace Sys2Proof.Machine

open Sys2Proof.Claims

/-! Requests on their way. -/

/-- `t` is `s` but for stored registers, messages on their way or held, and the regulators' last admissions. -/
def State.SameButTraffic (s t : State) : Prop :=
  ∃ cp net shep held r0, t = { s with cp := cp, net := net, shep := shep, regHeld := held, reg0 := r0 }

theorem State.SameButTraffic.refl (s : State) : s.SameButTraffic s := ⟨_, _, _, _, _, rfl⟩

theorem State.SameButTraffic.trans {s t u : State} (h : s.SameButTraffic t) (h' : t.SameButTraffic u) :
    s.SameButTraffic u := by
  obtain ⟨_, _, _, _, _, rfl⟩ := h
  obtain ⟨_, _, _, _, _, rfl⟩ := h'
  exact ⟨_, _, _, _, _, rfl⟩

theorem State.send_traffic (s : State) (m : Msg) : s.SameButTraffic (s.send m) := by
  unfold State.send
  split
  · exact .refl s
  · split <;> exact ⟨_, _, _, _, _, rfl⟩

theorem State.letThrough_traffic (s : State) (u : RegUnit) (a : Nat) (m : Msg) :
    s.SameButTraffic (s.letThrough u a m) := by
  unfold State.letThrough
  extract_lets s1 s2
  have h2 : s.SameButTraffic s2 := by
    unfold s2
    split <;> exact ⟨_, _, _, _, _, rfl⟩
  exact h2.trans (s2.send_traffic m)

theorem State.inject_traffic (s : State) (u : RegUnit) (m : Msg) : s.SameButTraffic (s.inject u m) := by
  unfold State.inject
  split
  · exact s.send_traffic m
  · split
    · exact s.send_traffic m
    · extract_lets
      split
      · exact s.letThrough_traffic ..
      · exact ⟨_, _, _, _, _, rfl⟩

theorem State.count16_traffic (s : State) (a n : Nat) : s.SameButTraffic (s.count16 a n) := by
  unfold State.count16
  split
  · exact .refl s
  · exact ⟨_, _, _, _, _, rfl⟩

theorem State.classFor_traffic (s : State) (d : Die) (pid : BitVec 8) (want : BitVec 4) :
    s.SameButTraffic (s.classFor d pid want).2 := by
  unfold State.classFor
  extract_lets
  dsimp only
  split
  · exact .refl s
  · exact s.count16_traffic ..

/-- A request of a bank is put behind those whose answers are awaited; it keeps what it asks and for whom, and its
sending changes no more than traffic. -/
theorem State.bankReq_sends {s t : State} {d : Die} {lc : LC} {m : Msg} {way : Nat} {p : Purpose}
    (h : s.bankReq d lc m way p = some t) :
    ∃ r : Req, ({ s with reqs := s.reqs ++ [r] } : State).SameButTraffic t ∧ r.purpose = p ∧
      r.msg.kind = m.kind ∧ r.msg.addr = m.addr ∧ r.msg.data = m.data ∧ r.msg.s = m.s ∧ r.msg.dest = m.dest ∧
      r.msg.pid = m.pid := by
  unfold State.bankReq at h
  extract_lets line st at h
  split at h
  · contradiction
  · split at h
    rename_i cls s1 hcls
    extract_lets m1 s2 at h
    cases h
    obtain ⟨_, _, _, _, _, h1⟩ : s.SameButTraffic s1 := by
      have hc := s.classFor_traffic d m.pid m.tclass
      rwa [hcls] at hc
    refine ⟨{ msg := m1, way := way, die := some d, purpose := p },
      State.SameButTraffic.trans ?_ (s2.inject_traffic (.core lc) m1), rfl, rfl, rfl, rfl, rfl, rfl, rfl⟩
    unfold s2
    rw [h1]
    exact ⟨_, _, _, _, _, rfl⟩

theorem State.bankReq_isSome {s : State} {d : Die} {lc : LC} {m : Msg} {way : Nat} {p : Purpose}
    (h : (s.freeTxid (bankOf d (m.addr.toNat / 64)) 32).isSome = true) :
    ∃ t, s.bankReq d lc m way p = some t := by
  unfold State.bankReq
  extract_lets line st
  split
  · simp_all [st, line]
  · exact ⟨_, rfl⟩

/-! Requests that a die makes for a program, and the room that it makes for their answers. -/

/-- Between `s` and `t` memory and what programs see of their cores are the same. -/
def ProgramsKept (s t : State) : Prop :=
  (∀ l, SameProgram (s.core l) (t.core l)) ∧ t.mem = s.mem

theorem ProgramsKept.refl (s : State) : ProgramsKept s s := ⟨fun _ => sameProgram_refl _, rfl⟩

theorem ProgramsKept.trans {s t u : State} (h : ProgramsKept s t) (h' : ProgramsKept t u) : ProgramsKept s u :=
  ⟨fun l => sameProgram_trans (h.1 l) (h'.1 l), h'.2.trans h.2⟩

theorem Unseen.programsKept {s t : State} (h : Unseen s t) : ProgramsKept s t := ⟨h.1, h.2.1⟩

theorem State.SameButTraffic.programsKept {s t : State} (h : s.SameButTraffic t) : ProgramsKept s t := by
  obtain ⟨_, _, _, _, _, rfl⟩ := h
  exact .refl s

section
variable {s t : State}

theorem ProgramsKept.modCore (h : ProgramsKept s t) (lc : LC) {f : Core → Core} (hf : ∀ c, SameProgram c (f c)) :
    ProgramsKept s (t.modCore lc f) := h.trans ((Unseen.refl t).modCore lc hf).programsKept

theorem ProgramsKept.modDie (h : ProgramsKept s t) (d : Die) (f : DieSt → DieSt) : ProgramsKept s (t.modDie d f) := h

theorem ProgramsKept.foldl {α : Type} {f : State → α → State} (h : ProgramsKept s t)
    (hf : ∀ t x, ProgramsKept s t → ProgramsKept s (f t x)) (l : List α) : ProgramsKept s (l.foldl f t) := by
  induction l generalizing t with
  | nil => exact h
  | cons x l ih => exact ih (hf t x h)

theorem State.bankReq_programs (h : ProgramsKept s t) {d : Die} {lc : LC} {m : Msg} {way : Nat} {p : Purpose}
    {u : State} (hu : t.bankReq d lc m way p = some u) : ProgramsKept s u := by
  obtain ⟨r, htraffic, -⟩ := State.bankReq_sends hu
  exact ProgramsKept.trans h htraffic.programsKept

theorem State.dropL1d_programs (h : ProgramsKept s t) (d : Die) (sl line : Nat) :
    ProgramsKept s (t.dropL1d d sl line) := by
  unfold State.dropL1d
  split
  · exact h.modCore _ fun c => by simp [SameProgram]
  · exact h

theorem State.deliverL1i_programs (h : ProgramsKept s t) (d : Die) (sl line : Nat) :
    ProgramsKept s (t.deliverL1i d sl line) := by
  unfold State.deliverL1i
  split
  · exact h.modCore _ fun c => by simp [SameProgram]
  · exact h

theorem State.invalL1_programs (h : ProgramsKept s t) (d : Die) (line : Nat) (keep : Option Nat) :
    ProgramsKept s (t.invalL1 d line keep) := by
  unfold State.invalL1
  extract_lets u ds is t1 t2 mask
  have h1 : ProgramsKept s t1 := h.foldl (fun t i h => State.dropL1d_programs h ..) _
  exact (ProgramsKept.foldl h1 (fun t i h => State.deliverL1i_programs h ..) is).modDie _ _

theorem State.sendEvict_traffic (d : Die) (line e : Nat) (y : EvSub) (u : RegUnit) (cls : BitVec 4) (p : Purpose) :
    ∃ r : Req, ({ t with reqs := t.reqs ++ [r] } : State).SameButTraffic (t.sendEvict d line e y u cls p) := by
  unfold State.sendEvict
  extract_lets m
  exact ⟨_, State.inject_traffic ..⟩

theorem State.sendEvict_programs (h : ProgramsKept s t) (d : Die) (line e : Nat) (y : EvSub) (u : RegUnit)
    (cls : BitVec 4) (p : Purpose) : ProgramsKept s (t.sendEvict d line e y u cls p) := by
  obtain ⟨r, hr⟩ := State.sendEvict_traffic (t := t) d line e y u cls p
  exact ProgramsKept.trans h hr.programsKept

theorem State.evictSector_programs (h : ProgramsKept s t) (d : Die) (set w e : Nat) (u : RegUnit) (cls : BitVec 4) :
    ProgramsKept s (t.evictSector d set w e u cls) := by
  unfold State.evictSector
  extract_lets se
  split
  · exact h
  · extract_lets t1 t2
    have h1 : ProgramsKept s t1 := h.foldl (fun t i h => State.invalL1_programs h ..) _
    have h2 : ProgramsKept s t2 := h1.modDie _ _
    exact h2.foldl (fun t i h => State.sendEvict_programs h ..) _

/-- What an allocation leaves as it was, where it finds a way. -/
def Alloc.Kept (s : State) : Alloc → Prop
  | .way _ t => ProgramsKept s t
  | _ => True

theorem State.alloc_programs (h : ProgramsKept s t) (d : Die) (line : Nat) (u : RegUnit) (cls : BitVec 4) :
    (t.alloc d line u cls).Kept s := by
  unfold State.alloc
  extract_lets x set mode usable free
  split
  · exact h
  · split
    · exact h
    · split
      · trivial
      · split
        · trivial
        · split
          · exact h
          · split
            · trivial
            · exact State.evictSector_programs h ..

/-- What a read of a line leaves as it was, where it answers at once or sends a request. -/
def LineRead.Kept (s : State) : LineRead → Prop
  | .hit _ _ _ t => ProgramsKept s t
  | .sent t => ProgramsKept s t
  | _ => True

/-- A prefetch asks a home without holding its core. -/
theorem State.askHome_prefetch_programs (h : ProgramsKept s t) (k : Asker) (line : Nat) (once : Bool) (lc : LC) :
    (t.askHome k line once (.prefetch lc)).Kept s := by
  unfold State.askHome
  extract_lets m sendOnce
  have hsend : ∀ t, ProgramsKept s t → (sendOnce t).Kept s := by
    intro t h
    unfold sendOnce
    split
    · rename_i hu
      exact State.bankReq_programs h hu
    · trivial
  split
  · trivial
  · split
    · exact hsend t h
    · have ha := State.alloc_programs h k.die line (.core k.lc) (t.classOf k.die m.pid m.tclass)
      split
      · trivial
      · refine hsend _ (ProgramsKept.modCore ?_ _ fun c => by simp [SameProgram])
        exact h.trans (State.count16_traffic ..).programsKept
      · rename_i hw
        rw [hw] at ha
        extract_lets m
        split
        · rename_i hu
          exact (State.bankReq_programs ha hu).modCore _ fun c => by simp [SameProgram]
        · trivial

theorem State.readDc_prefetch_programs (h : ProgramsKept s t) (k : Asker) (line fixed : Nat) (lc : LC) :
    (t.readDc k line fixed (.prefetch lc)).Kept s := by
  unfold State.readDc
  extract_lets x
  split
  · extract_lets u
    split
    · exact State.askHome_prefetch_programs h ..
    · split
      · exact State.askHome_prefetch_programs h ..
      · split
        · have hs := (State.shareL1_unseen (Unseen.refl t) k.die line (some k.slot)).takeBeats
          exact (h.trans hs.programsKept).modDie _ _
        · exact h
  · exact State.askHome_prefetch_programs h ..

theorem State.fillL1d_unseen (h : Unseen s t) (d : Die) (lc : LC) (l : L1Line) : Unseen s (t.fillL1d d lc l) := by
  unfold State.fillL1d
  extract_lets sl
  split
  extract_lets t1 t2
  have h1 : Unseen s t1 := h.modCore _ fun c => by simp [SameProgram]
  have h2 : Unseen s t2 := by
    unfold t2
    split
    · exact h1.modDie _ _
    · exact h1
  exact h2.modDie _ _

end

end Sys2Proof.Machine
end

