-- ==== Sys2Proof/Proofs/WaitsAndFences.lean ====
section
namespace Sys2Proof.Machine

open Sys2Proof.Claims

/-! WAIT (R84). -/

section
variable {s u : State} {lc : LC} {k : Asker} {t : Nat}

theorem exec_wait_atU {x : State} (h : Runs s lc {} k t u) (hl : (u.core lc).level = 0)
    (hx : u.raise k { code := 0x02, tval := (encY 0 0 3 1).zeroExtend 64 } = some x) :
    exec (.wait lc) s = .next x := by
  show execWait lc s = _
  unfold execWait
  exact issue_next h _ ((if_pos hl).trans hx)

/-- The core stops at the next instruction; the mark of its accounting window may change. -/
theorem exec_wait_stops (h : Runs s lc {} k t u) (hl : (u.core lc).level ≠ 0) :
    ∃ b, exec (.wait lc) s =
      .next { u.modCore lc fun c => { c with inWait := true, pc := c.pc + 4, got := [] } with beatSt := b } := by
  show ∃ b, execWait lc s = _
  unfold execWait
  by_cases hb : SMap.get 0 u.beatSt (k.die.val * 20 + k.slot) = 2
  · exact ⟨_, issue_next h _ ((if_neg hl).trans (congrArg some (if_pos hb)))⟩
  · exact ⟨_, issue_next h _ ((if_neg hl).trans (congrArg some (if_neg hb)))⟩

/-- An instruction whose body has to wait is given again from the same state. -/
theorem issue_waits {n : Need} (h : Runs s lc n k t u) (body : Asker → Nat → State → Option State)
    (hb : body k t u = none) : s.issue lc n body = .next s := by
  obtain ⟨h1, h2, h3, h4, f, h5, rfl, rfl⟩ := h
  rw [State.issue_runs body h1 h2 h3 h4 h5, hb]
  rfl

end

theorem waitResults : WaitResults := by
  refine ⟨fun lc s k t u h => ⟨fun hl => ?_, fun x hl hx => exec_wait_atU h hl hx⟩,
    fun lc s hw hh hr => ⟨fun hdue => ?_, fun hdue herr => ?_⟩⟩
  · obtain ⟨b, hb⟩ := exec_wait_stops h hl
    refine ⟨_, hb, ?_⟩
    have hcore : ∀ v : State, State.core { v with beatSt := b } lc = v.core lc := fun _ => rfl
    simp only [hcore, State.core_modCore]
    simp [Core.ready, KeepsV]
  · refine ⟨s.modCore lc fun c => (({ c with inWait := false } : Core).logRec 4 1 [2]).retire c.pc 4, ?_,
      onlyCore_modCore .., ?_⟩
    · show execWaitWake lc s = _
      have hgo : ((s.due lc).isSome || !(s.core lc).sbErr.isEmpty) = true := by simpa using hdue
      simp only [execWaitWake, hw, hh, hr, hgo]
      rfl
    · rw [State.core_modCore]
      simp [KeepsV]
  · show execWaitWake lc s = _
    simp [execWaitWake, hdue, herr]

/-! The fences (R42, R54, R101). -/

/-- What FENCE.SL does to its core when it leaves S at beat `t`. -/
def Core.fencedSl (t : Nat) (c : Core) : Core :=
  let d := c.charge 0 (c.mWait (t + 2)) 0 0 0
  let b := { d.beats with past := d.beats.past.map fun x => { x with old := true } }
  { ({ d with beats := b } : Core).retire (d.pc + 4) 1 with fence := d.sb.length }

/-- What FENCE.ALL and IFENCE do to their core, at `cost` beats. -/
def Core.fencedAll (t cost : Nat) (c : Core) : Core := (c.fenceWait t).retire ((c.fenceWait t).pc + 4) cost

section
variable {s u : State} {lc : LC} {k : Asker} {t : Nat}

theorem exec_fenceSl (h : Runs s lc {} k t u) : exec (.fenceSl lc) s = .next (u.modCore lc (Core.fencedSl t)) :=
  issueCore_next h fun t c => c.fencedSl t

theorem exec_fenceAll (h : Runs s lc {} k t u) (hsb : (u.core lc).sb = []) :
    exec (.fenceAll lc) s = .next (u.modCore lc (Core.fencedAll t 1)) := by
  show execFenceAll lc s = _
  unfold execFenceAll
  exact issue_next h _ (if_neg (by simp [hsb]))

theorem exec_fenceAll_waits (h : Runs s lc {} k t u) (hsb : (u.core lc).sb ≠ []) :
    exec (.fenceAll lc) s = .next s := by
  show execFenceAll lc s = _
  unfold execFenceAll
  exact issue_waits h _ (if_pos (by simpa using hsb))

theorem exec_ifence (h : Runs s lc {} k t u) (hsb : (u.core lc).sb = []) (hpend : (u.core lc).l1iPend = []) :
    exec (.ifence lc) s = .next (u.modCore lc fun c => (c.fencedAll t 4).flush) := by
  show execIfence lc s = _
  unfold execIfence
  exact issue_next h _ (if_neg (by simp [hsb, hpend]))

theorem exec_ifence_waits (h : Runs s lc {} k t u) (hsb : (u.core lc).sb ≠ []) : exec (.ifence lc) s = .next s := by
  show execIfence lc s = _
  unfold execIfence
  exact issue_waits h _ (if_pos (by simp [hsb]))

end

/-- A fence that has completed: the next instruction, the registers and the store buffer as they were. -/
def FencePassed (c d : Core) : Prop :=
  KeepsV c d ∧ d.g = c.g ∧ d.pc = c.pc + 4 ∧ d.sb = c.sb ∧ d.status = c.status ∧ d.l1i = c.l1i

theorem Core.fencedSl_passed (t : Nat) (c : Core) :
    FencePassed c (c.fencedSl t) ∧ (c.fencedSl t).fence = c.sb.length := by
  simp [Core.fencedSl, FencePassed, KeepsV]

theorem Core.fencedAll_passed (t cost : Nat) (c : Core) : FencePassed c (c.fencedAll t cost) := by
  simp [Core.fencedAll, Core.fenceWait, FencePassed, KeepsV]

theorem fenceResults : FenceResults := by
  intro lc s k t u h c next
  have hnext : ∀ f : Core → Core, FencePassed c (f c) → next (u.modCore lc f) := by
    intro f hf
    have hcore : (u.modCore lc f).core lc = f c := State.core_modCore ..
    simp only [next, hcore]
    exact ⟨onlyCore_modCore .., hf⟩
  refine ⟨⟨_, exec_fenceSl h, hnext _ (c.fencedSl_passed t).1, ?_⟩,
    fun hsb => ⟨_, exec_fenceAll h hsb, hnext _ (c.fencedAll_passed t 1)⟩,
    fun hsb hpend => ⟨_, exec_ifence h hsb hpend, hnext _ (c.fencedAll_passed t 4), ?_⟩,
    fun hsb => ⟨exec_fenceAll_waits h hsb, exec_ifence_waits h hsb⟩⟩
  · rw [State.core_modCore]
    exact (c.fencedSl_passed t).2
  · rw [State.core_modCore]
    rfl

/-! Accounting (Tables CORE-6 and CORE-7). -/

theorem acctClear_clears (lc : LC) (s : State) : Completes (.acctClear lc) s fun w =>
    let a := (w.core lc).acct
    OnlyCore lc s w ∧ a.elapsed = 0 ∧ a.ibeats = 0 ∧ a.stallSb = 0 ∧ a.stallL1 = 0 ∧ a.stallPfq = 0 ∧
    a.stallWalk = 0 ∧ a.freeze = (s.core lc).acct.freeze := by
  refine ⟨s.modCore lc fun c => { c with acct := c.acct.clear }, rfl, onlyCore_modCore .., ?_⟩
  rw [State.core_modCore]
  exact ⟨rfl, rfl, rfl, rfl, rfl, rfl, rfl⟩

/-- What a window of a slot leaves where a core runs in the slot. -/
theorem exec_beatRateWindow {die : Die} {slot : Slot} {win : ArrayWindow} {s v : State} {lc : LC}
    (hv : win.found.foldl (State.arrayErr die slot) (s.advance win.t) = v) (hlc : v.lcAt die slot.val = some lc) :
    let key := die.val * 20 + slot.val
    let now := BitVec.ofNat 64 (v.core lc).beats.next
    let n := now - SMap.get 0 v.beatBase key
    let st := SMap.get 0 v.beatSt key
    exec (.beatRateWindow die slot win) s = .next { v with
      beatRate := SMap.set 0 v.beatRate key
        (if st = 0 then 0 else BitVec.ofNat 64 (n.toNat % 2 ^ 32 + if st = 2 then 2 ^ 32 else 0))
      beatBase := SMap.set 0 v.beatBase key now
      beatSt := SMap.set 0 v.beatSt key
        (if (v.core lc).run == .started && !(v.core lc).inWait then 2 else 1) } := by
  subst hv
  show execBeatRateWindow die slot win s = _
  simp only [execBeatRateWindow, hlc]

theorem accountingEvents : AccountingEvents := by
  refine ⟨acctClear_clears, ?_⟩
  intro die slot t found s lc v hlc key beats
  refine ⟨_, exec_beatRateWindow (win := ⟨t, found⟩) rfl hlc, rfl, rfl, rfl, fun h => ?_, fun h => ?_, fun h => ?_,
    SMap.get_set_self ..⟩
  · rw [SMap.get_set_self, h]
    rfl
  · rw [SMap.get_set_self, h]
    rfl
  · rw [SMap.get_set_self, h]
    rfl

end Sys2Proof.Machine
end

