-- ==== Sys2Proof/Proofs/ArrayErrors.lean ====
section
namespace Sys2Proof.Machine

open Sys2Proof.Claims

/-! Sub-blocks of a die cache. -/

theorem Sector.sub_setSub (x : Sector) (b : Nat) (v : Sub) : (x.setSub b v).sub b = v := SMap.get_set_self ..

theorem DieSt.sec_setSec (x : DieSt) (set w : Nat) (v : Sector) : (x.setSec set w v).sec set w = v :=
  SMap.get_set_self ..

/-- A sector that keeps its tag leaves every line in its way. -/
theorem DieSt.wayOf_setSec (x : DieSt) {set w : Nat} {v : Sector} (hv : v.tag = (x.sec set w).tag) (line : Nat) :
    (x.setSec set w v).wayOf line = x.wayOf line := by
  have htag : ∀ i, ((x.setSec set w v).sec (dcSet line) i).tag = (x.sec (dcSet line) i).tag := by
    intro i
    by_cases h : dcSet line * 16 + i = set * 16 + w
    · simp only [DieSt.sec, DieSt.setSec, h, SMap.get_set_self]
      exact hv
    · simp only [DieSt.sec, DieSt.setSec, SMap.get_set_of_ne _ _ _ h]
  unfold DieSt.wayOf
  simp only [htag]

theorem DieSt.wayOf_modSub (x : DieSt) (l line : Nat) (f : Sub → Sub) : (x.modSub l f).wayOf line = x.wayOf line := by
  unfold DieSt.modSub
  split
  · refine x.wayOf_setSec ?_ line
    rfl
  · rfl

/-- A line that the die cache holds takes the change. -/
theorem DieSt.sub_modSub (x : DieSt) {line w : Nat} (h : x.wayOf line = some w) (f : Sub → Sub) :
    (x.modSub line f).sub line = f (x.sub line) := by
  have hw := x.wayOf_modSub line line f
  rw [h] at hw
  unfold DieSt.sub
  rw [h, hw]
  simp only [DieSt.modSub, h, DieSt.sec_setSec, Sector.sub_setSub]

theorem DieSt.wayOf_of_valid {x : DieSt} {line : Nat} (h : (x.sub line).st ≠ .i) : ∃ w, x.wayOf line = some w := by
  unfold DieSt.sub at h
  split at h
  · exact ⟨_, ‹_›⟩
  · exact absurd rfl h

theorem DieSt.sub_invalid {x : DieSt} {line : Nat} (h : x.wayOf line = none) : (x.sub line).st = .i := by
  unfold DieSt.sub
  rw [h]

/-- After a change that makes every sub-block invalid, the line is invalid. -/
theorem DieSt.sub_modSub_invalid (x : DieSt) (line : Nat) {f : Sub → Sub} (hf : ∀ u, (f u).st = .i) :
    ((x.modSub line f).sub line).st = .i := by
  cases h : x.wayOf line with
  | some w =>
    rw [x.sub_modSub h]
    exact hf _
  | none => exact DieSt.sub_invalid ((x.wayOf_modSub line line f).trans h)

theorem DieSt.sub_putEv (x : DieSt) (e : Nat) (v : EvEntry) (line : Nat) : (x.putEv e v).sub line = x.sub line := rfl

/-! What a check finds (R139, R158, R424, R425, Table CACHE-5). -/

theorem State.advance_only (s : State) (t : Word) : ∃ b, s.advance t = { s with tb := b } := by
  unfold State.advance
  split <;> exact ⟨_, rfl⟩

theorem State.report_programs (s : State) (st : Station) (cls source loc : Nat) (d0 d1 : Option Nat) (crit : Bool) :
    ProgramsKept s (s.report st cls source loc d0 d1 crit) := by
  obtain ⟨_, _, _, _, h⟩ := s.report_only st cls source loc d0 d1 crit
  rw [h]
  exact .refl s

@[simp] theorem State.report_die (s : State) (st : Station) (cls source loc : Nat) (d0 d1 : Option Nat) (crit : Bool)
    (d : Die) : (s.report st cls source loc d0 d1 crit).die d = s.die d := by
  rw [State.die, State.report_dies, State.die]

@[simp] theorem State.report_lcAt (s : State) (st : Station) (cls source loc : Nat) (d0 d1 : Option Nat) (crit : Bool)
    (d : Die) (sl : Nat) : (s.report st cls source loc d0 d1 crit).lcAt d sl = s.lcAt d sl := by
  obtain ⟨_, _, _, _, h⟩ := s.report_only st cls source loc d0 d1 crit
  rw [h]
  rfl

/-- `w` has the cores, die caches and memory of `v`. -/
def SameArrays (v w : State) : Prop :=
  w.cores = v.cores ∧ w.dies = v.dies ∧ w.mem = v.mem ∧ w.poisWord = v.poisWord

theorem SameArrays.core {v w : State} (h : SameArrays v w) (lc : LC) : w.core lc = v.core lc := by
  rw [State.core, h.1, State.core]

theorem SameArrays.die {v w : State} (h : SameArrays v w) (d : Die) : w.die d = v.die d := by
  rw [State.die, h.2.1, State.die]

theorem State.lcAt_modDie (s : State) (d e : Die) (f : DieSt → DieSt) (sl : Nat) :
    (s.modDie d f).lcAt e sl = s.lcAt e sl := rfl

/-- A window in which the checks found the one error `e` leaves its effect and marks of the accounting window. -/
theorem exec_beatRateWindow_found (die : Die) (slot : Slot) (t : Word) (s : State) (e : ArrayErr) :
    ∃ b w, exec (.beatRateWindow die slot ⟨t, [e]⟩) s = .next w ∧
      SameArrays (State.arrayErr die slot { s with tb := b } e) w := by
  obtain ⟨b, hb⟩ := s.advance_only t
  refine ⟨b, ?_⟩
  rw [← hb]
  show ∃ w, execBeatRateWindow die slot ⟨t, [e]⟩ s = _ ∧ _
  unfold execBeatRateWindow
  simp only [List.foldl_cons, List.foldl_nil]
  split <;> exact ⟨_, rfl, rfl, rfl, rfl, rfl⟩

section
variable {die : Die} {slot : Slot} {s : State} {lc : LC}

/-- A core is undisturbed by what a check found. -/
def Undisturbed (c d : Core) : Prop := d.g = c.g ∧ d.pc = c.pc ∧ d.status = c.status ∧ d.sb = c.sb

theorem ProgramsKept.undisturbed {v : State} (h : ProgramsKept s v) (lc : LC) :
    Undisturbed (s.core lc) (v.core lc) := by
  obtain ⟨-, -, -, hg, -, -, hpc, hst, -, -, -, -, -, -, -, -, -, hsb, -⟩ := h.1 lc
  exact ⟨hg, hpc, hst, hsb⟩

/-- A claim about an error found holds where it holds of every state with the arrays that the error leaves. -/
theorem completes_found {e : ArrayErr} {P : State → Prop} (t : Word) (lc : LC)
    (hv : ∀ b w, SameArrays (State.arrayErr die slot { s with tb := b } e) w →
      P w ∧ Undisturbed (s.core lc) (w.core lc)) :
    Completes (.beatRateWindow die slot ⟨t, [e]⟩) s fun w => P w ∧ Undisturbed (s.core lc) (w.core lc) := by
  obtain ⟨b, w, hw, hsame⟩ := exec_beatRateWindow_found die slot t s e
  exact ⟨w, hw, hv b w hsame⟩

theorem State.coreArrayCe_arrays (v : State) : SameArrays v (v.coreArrayCe die slot) :=
  ⟨by simp [State.coreArrayCe], by simp [State.coreArrayCe], by simp [State.coreArrayCe], by simp [State.coreArrayCe]⟩

theorem SameArrays.trans {u v w : State} (h : SameArrays u v) (h' : SameArrays v w) : SameArrays u w := by
  obtain ⟨hc, hd, hm, hp⟩ := h
  obtain ⟨hc', hd', hm', hp'⟩ := h'
  exact ⟨hc'.trans hc, hd'.trans hd, hm'.trans hm, hp'.trans hp⟩

theorem SameArrays.undisturbed {v w : State} (h : SameArrays v w) (hv : Undisturbed (s.core lc) (v.core lc)) :
    Undisturbed (s.core lc) (w.core lc) := by rwa [h.core]

theorem corrected_found (t : Word) (lc : LC) :
    Completes (.beatRateWindow die slot ⟨t, [.corrected]⟩) s fun w =>
      (w.cores = s.cores ∧ w.dies = s.dies ∧ w.mem = s.mem) ∧ Undisturbed (s.core lc) (w.core lc) := by
  refine completes_found t lc fun b w h => ?_
  have h := (State.coreArrayCe_arrays _).trans h
  have ⟨hcores, hdies, hmem, _⟩ := h
  exact ⟨⟨hcores, hdies, hmem⟩, h.undisturbed ⟨rfl, rfl, rfl, rfl⟩⟩

theorem check_found (t : Word) (hlc : s.lcAt die slot.val = some lc) :
    Completes (.beatRateWindow die slot ⟨t, [.check]⟩) s fun w =>
      (.check ∈ (w.core lc).halts ∧ (∀ h ∈ (s.core lc).halts, h ∈ (w.core lc).halts)) ∧
      Undisturbed (s.core lc) (w.core lc) := by
  refine completes_found t lc fun b w h => ?_
  have hcore : w.core lc = if (s.core lc).halts.contains .check then s.core lc
      else { s.core lc with halts := (s.core lc).halts ++ [.check] } := by
    have hat : State.lcAt { s with tb := b } die slot.val = some lc := hlc
    rw [h.core]
    simp only [State.arrayErr, State.coreCheck, State.report_lcAt, hat, State.halt, State.core_modCore,
      State.report_core]
    rfl
  rw [hcore]
  split
  · rename_i hin
    exact ⟨⟨by simpa using hin, fun _ h => h⟩, rfl, rfl, rfl, rfl⟩
  · exact ⟨⟨by simp, fun _ h => by simp [h]⟩, rfl, rfl, rfl, rfl⟩

/-- An error that its slot's core takes by a change of L1I or TLBs. -/
theorem core_found {e : ArrayErr} {f : Core → Core} {P : Core → SMap Byte → Prop} (t : Word)
    (he : ∀ b, SameArrays (State.modCore { s with tb := b } lc f) (State.arrayErr die slot { s with tb := b } e))
    (hf : Undisturbed (s.core lc) (f (s.core lc))) (hP : P (f (s.core lc)) s.mem) :
    Completes (.beatRateWindow die slot ⟨t, [e]⟩) s fun w =>
      P (w.core lc) w.mem ∧ Undisturbed (s.core lc) (w.core lc) := by
  refine completes_found t lc fun b w h => ?_
  have h := (he b).trans h
  have hcore : w.core lc = f (s.core lc) := (h.core lc).trans (State.core_modCore ..)
  obtain ⟨-, -, hmem, -⟩ := h
  rw [hcore, hmem]
  exact ⟨hP, hf⟩

theorem l1i_arrays (hlc : s.lcAt die slot.val = some lc) (line : BitVec 42) (b : Word) :
    SameArrays (State.modCore { s with tb := b } lc fun c => { c with l1i := c.l1i.drop line.toNat })
      (State.arrayErr die slot { s with tb := b } (.l1i line)) := by
  have hat : State.lcAt { s with tb := b } die slot.val = some lc := hlc
  simp only [State.arrayErr, hat]
  exact State.coreArrayCe_arrays _

theorem slotTlbs_arrays (hlc : s.lcAt die slot.val = some lc) (f : Tlbs → Tlbs) (b : Word) :
    SameArrays (State.modCore { s with tb := b } lc fun c => { c with tlbs := f c.tlbs })
      ((State.slotTlbs { s with tb := b } die slot f).coreArrayCe die slot) := by
  have hat : State.lcAt { s with tb := b } die slot.val = some lc := hlc
  simp only [State.slotTlbs, hat]
  exact State.coreArrayCe_arrays _

theorem Tlbs.l1_setL1 (x : Tlbs) (kindI : Bool) (l : SMap (Option L1TlbWay)) : (x.setL1 kindI l).l1 kindI = l := by
  cases kindI <;> rfl

theorem Tlbs.parityL1_get (x : Tlbs) (kindI : Bool) {i : Nat} {w : L1TlbWay}
    (h : SMap.get none (x.l1 kindI) i = some w) :
    SMap.get none ((x.parityL1 kindI i).l1 kindI) i = if w.pin then some w else none := by
  simp only [Tlbs.parityL1, h]
  split
  · exact h
  · rw [Tlbs.l1_setL1, SMap.get_set_self]

theorem Tlbs.parityL2_get (x : Tlbs) {i : Nat} {w : L2Way} (h : SMap.get none x.l2 i = some w) :
    SMap.get none (x.parityL2 i).l2 i = if w.lockI || w.lockD then some w else none := by
  simp only [Tlbs.parityL2, h]
  split
  · exact h
  · exact SMap.get_set_self none x.l2 i none

theorem scratch_found (t : Word) (lc : LC) {word : BitVec 45} (htgt : targetOf (8 * word.toNat) = .scratch)
    (hdie : scratchDie (8 * word.toNat) = die) (hok : s.scratchOk (8 * word.toNat) = true) :
    Completes (.beatRateWindow die slot ⟨t, [.scratch word true]⟩) s fun w =>
      (SMap.get false w.poisWord word.toNat = true ∧ w.mem = s.mem) ∧ Undisturbed (s.core lc) (w.core lc) := by
  refine completes_found t lc fun b w h => ?_
  have hok' : State.scratchOk { s with tb := b } (8 * word.toNat) = true := hok
  have hv : SameArrays { s with tb := b, poisWord := SMap.set false s.poisWord word.toNat true }
      (State.arrayErr die slot { s with tb := b } (.scratch word true)) := by
    simp only [State.arrayErr, State.scratchStruck, htgt, hdie, hok', SameArrays]
    simp
  have h := hv.trans h
  have ⟨_, _, hmem, hpois⟩ := h
  refine ⟨⟨?_, hmem⟩, h.undisturbed ⟨rfl, rfl, rfl, rfl⟩⟩
  rw [hpois]
  exact SMap.get_set_self false s.poisWord word.toNat true

theorem State.dropSub_programs {v : State} (h : ProgramsKept s v) (d : Die) (line : Nat) :
    ProgramsKept s (v.dropSub d line) :=
  (State.invalL1_programs h ..).modDie _ _

theorem State.dropSub_invalid (v : State) (d : Die) (line : Nat) : (((v.dropSub d line).die d).sub line).st = .i := by
  unfold State.dropSub
  rw [State.die_modDie]
  exact DieSt.sub_modSub_invalid _ _ fun _ => rfl

theorem State.dcStruck_clean {v : State} {line : Nat}
    (hst : ((v.die die).sub line).st = .s ∨ ((v.die die).sub line).st = .e) :
    ProgramsKept v (v.dcStruck die slot line) ∧ (((v.dcStruck die slot line).die die).sub line).st = .i := by
  have hi : ((v.die die).sub line).st ≠ .i := by rcases hst with h | h <;> simp [h]
  have hm : ((v.die die).sub line).st ≠ .m := by rcases hst with h | h <;> simp [h]
  simp only [State.dcStruck, if_neg hi, if_pos hm]
  exact ⟨State.dropSub_programs (State.report_programs ..) .., State.dropSub_invalid ..⟩

theorem State.evictLine_programs {v u : State} (h : ProgramsKept s v) {d : Die} {line : Nat} {keep : Bool}
    {r : RegUnit} {cls : BitVec 4} {p : Purpose} (hu : v.evictLine d line keep r cls p = some u) :
    ProgramsKept s u := by
  unfold State.evictLine at hu
  extract_lets x at hu
  split at hu
  · contradiction
  · cases hu
    exact State.sendEvict_programs ((State.invalL1_programs h ..).modDie _ _) ..

theorem State.sendEvict_die (v : State) (d : Die) (line e : Nat) (y : EvSub) (u : RegUnit) (cls : BitVec 4)
    (p : Purpose) (d' : Die) : (v.sendEvict d line e y u cls p).die d' = v.die d' := by
  obtain ⟨r, _, _, _, _, _, h⟩ := State.sendEvict_traffic (t := v) d line e y u cls p
  rw [h]
  rfl

theorem State.evictLine_invalid {v u : State} {d : Die} {line : Nat} {keep : Bool} {r : RegUnit} {cls : BitVec 4}
    {p : Purpose} (hu : v.evictLine d line keep r cls p = some u) : ((u.die d).sub line).st = .i := by
  unfold State.evictLine at hu
  extract_lets x at hu
  split at hu
  · contradiction
  · cases hu
    rw [State.sendEvict_die, State.die_modDie, DieSt.sub_putEv]
    exact DieSt.sub_modSub_invalid _ _ fun _ => rfl

/-- A dirty sub-block that was struck: marked as poisoned, and reported. -/
def State.dcMarked (v : State) (d : Die) (line : Nat) : State :=
  (v.report (bankOf d line) 0x09 (bankOf d line).toNat (64 * line)).modDie d fun x =>
    x.modSub line fun u => { u with pois := true }

theorem State.dcMarked_programs (v : State) (d : Die) (line : Nat) : ProgramsKept v (v.dcMarked d line) :=
  (State.report_programs ..).modDie _ _

theorem State.dcMarked_lcAt (v : State) (d : Die) (line sl : Nat) : (v.dcMarked d line).lcAt d sl = v.lcAt d sl := by
  rw [State.dcMarked, State.lcAt_modDie, State.report_lcAt]

theorem State.dcMarked_pois (v : State) {d : Die} {line w : Nat} (hw : (v.die d).wayOf line = some w) :
    (((v.dcMarked d line).die d).sub line).pois = true := by
  rw [State.dcMarked, State.die_modDie, State.report_die, DieSt.sub_modSub _ hw]

theorem State.dcStruck_of_dirty {v : State} {line : Nat} (hlc : v.lcAt die slot.val = some lc)
    (hi : ((v.die die).sub line).st ≠ .i) (hst : ((v.die die).sub line).st = .m) :
    v.dcStruck die slot line =
      ((v.dcMarked die line).evictLine die line true (.core lc) 0 .evict).getD (v.dcMarked die line) := by
  rw [← v.dcMarked_lcAt die line] at hlc
  unfold State.dcStruck
  extract_lets u v1 v2
  rw [if_neg hi, if_neg (not_not.2 hst)]
  replace hlc : v2.lcAt die slot.val = some lc := hlc
  rw [hlc]
  rfl

theorem State.dcStruck_dirty {v : State} {line : Nat} (hlc : v.lcAt die slot.val = some lc)
    (hst : ((v.die die).sub line).st = .m) :
    ProgramsKept v (v.dcStruck die slot line) ∧
      ((((v.dcStruck die slot line).die die).sub line).st = .i ∨
        (((v.dcStruck die slot line).die die).sub line).pois = true) := by
  have hi : ((v.die die).sub line).st ≠ .i := by simp [hst]
  obtain ⟨w, hw⟩ := DieSt.wayOf_of_valid hi
  rw [State.dcStruck_of_dirty hlc hi hst]
  cases hev : (v.dcMarked die line).evictLine die line true (.core lc) 0 .evict with
  | some u => exact ⟨State.evictLine_programs (v.dcMarked_programs die line) hev, .inl (State.evictLine_invalid hev)⟩
  | none => exact ⟨v.dcMarked_programs die line, .inr (v.dcMarked_pois hw)⟩

theorem dc_found (t : Word) (lc : LC) {line : BitVec 42} {P : Sub → Prop}
    (hP : ∀ b, let v := State.dcStruck { s with tb := b } die slot line.toNat
      ProgramsKept { s with tb := b } v ∧ P ((v.die die).sub line.toNat)) :
    Completes (.beatRateWindow die slot ⟨t, [.dc line true]⟩) s fun w =>
      P ((w.die die).sub line.toNat) ∧ Undisturbed (s.core lc) (w.core lc) := by
  refine completes_found t lc fun b w h => ?_
  obtain ⟨hkept, hp⟩ := hP b
  rw [h.die]
  exact ⟨hp, h.undisturbed (hkept.undisturbed lc)⟩

end

theorem arrayErrorResults : ArrayErrorResults := by
  intro die slot t s lc hlc c found
  refine ⟨corrected_found t lc, check_found t hlc, fun line => ?_, fun i x hx => ?_, fun i x hx => ?_, fun i x hx => ?_,
    fun word htgt hdie hok => scratch_found t lc htgt hdie hok, fun line hst => ?_, fun line hst => ?_⟩
  · exact core_found (P := fun d mem => d.l1i = c.l1i.drop line.toNat ∧ mem = s.mem) t (l1i_arrays hlc line)
      ⟨rfl, rfl, rfl, rfl⟩ ⟨rfl, rfl⟩
  · exact core_found (P := fun d _ => SMap.get none d.tlbs.itlb i = if x.pin then some x else none) t
      (slotTlbs_arrays hlc _) ⟨rfl, rfl, rfl, rfl⟩ (c.tlbs.parityL1_get true hx)
  · exact core_found (P := fun d _ => SMap.get none d.tlbs.dtlb i = if x.pin then some x else none) t
      (slotTlbs_arrays hlc _) ⟨rfl, rfl, rfl, rfl⟩ (c.tlbs.parityL1_get false hx)
  · exact core_found (P := fun d _ => SMap.get none d.tlbs.l2 i = if x.lockI || x.lockD then some x else none) t
      (slotTlbs_arrays hlc _) ⟨rfl, rfl, rfl, rfl⟩ (c.tlbs.parityL2_get hx)
  · exact dc_found (P := fun u => u.st = .i) t lc fun b => State.dcStruck_clean hst
  · exact dc_found (P := fun u => u.st = .i ∨ u.pois = true) t lc fun b => State.dcStruck_dirty hlc hst

/-- Settles O16: waits and fences by what their core becomes, array errors by what each leaves of cores and caches. -/
theorem waitFenceAndAccountingResults : Obligations.WaitFenceAndAccountingResults :=
  ⟨waitResults, fenceResults, accountingEvents, arrayErrorResults⟩

end Sys2Proof.Machine
end

