-- ==== Sys2Proof/Proofs/Stores.lean ====
section
namespace Sys2Proof.Machine

open Sys2Proof.Claims

/-! Bytes of a line. -/

/-- The bytes of a line from where they were placed. -/
theorem Line.bytes_place {o n x : Nat} (ho : o + n ≤ 64) (hx : x < 2 ^ (8 * n)) :
    Line.bytes (Line.place o x) o n = x := by
  have hpow : 2 ^ (8 * n) * 2 ^ (8 * o) ≤ 2 ^ 512 := by
    rw [← Nat.pow_add]
    exact Nat.pow_le_pow_right (by decide) (by omega)
  have hlt : x <<< (8 * o) < 2 ^ 512 := by
    rw [Nat.shiftLeft_eq]
    exact lt_of_lt_of_le (Nat.mul_lt_mul_of_pos_right hx (Nat.two_pow_pos _)) hpow
  rw [Line.bytes, Line.place, BitVec.toNat_ofNat, Nat.mod_eq_of_lt hlt, Nat.shiftLeft_shiftRight,
    Nat.mod_eq_of_lt hx]

theorem Line.bytes_lt (l : Line) (o n : Nat) : Line.bytes l o n < 2 ^ (8 * n) := Nat.mod_lt _ (Nat.two_pow_pos _)

/-! The parts of an access (R55 to R57). -/

/-- An access of `n` bytes is one part, or two parts that share its bytes. -/
def PartsOf (ps : List Part) (n : Nat) : Prop :=
  (∃ p, ps = [p] ∧ p.bytes = n) ∨ ∃ p q, ps = [p, q] ∧ p.bytes + q.bytes = n

theorem State.halves_parts {s s1 : State} {k : Asker} {acc : AccType} {va : Word} {n walk : Nat} {ps : List Part}
    (h : s.halves k acc va n = .ok ps walk s1) : PartsOf ps n := by
  unfold State.halves at h
  extract_lets lvl o unaligned n1 isDev at h
  have hn1 : n1 ≤ n := by
    unfold n1
    split <;> omega
  split at h <;> try contradiction
  split at h <;> try contradiction
  extract_lets p at h
  split at h
  · rename_i heq
    cases h
    exact .inl ⟨p, rfl, heq⟩
  · split at h <;> try contradiction
    split at h <;> try contradiction
    cases h
    exact .inr ⟨_, _, rfl, Nat.add_sub_cancel' hn1⟩

theorem State.lineAccess_parts {s s1 : State} {k : Asker} {acc : AccType} {va : Word} {walk : Nat} {ps : List Part}
    (h : s.lineAccess k acc va = .ok ps walk s1) : ∃ p, ps = [p] ∧ p.bytes = 64 := by
  unfold State.lineAccess at h
  split at h <;> try contradiction
  split at h <;> try contradiction
  cases h
  exact ⟨_, rfl, rfl⟩

/-! Entries of the store buffer (R49, R55, R59). -/

/-- The entries that core `c` makes of a store of `data`, one for each part. -/
def partEntries (c : Core) (ps : List Part) (data : Nat) : List SbEntry :=
  ps.zipIdx.map fun x => storeEntry c c.level x.1 (Line.place (x.1.pa % 64)
    (data / 2 ^ (8 * (if x.2 = 0 then 0 else ps.head?.elim 0 (·.bytes))) % 2 ^ (8 * x.1.bytes)))

section
variable {c : Core} {ps : List Part} {data n : Nat}

theorem storeEntry_bytes {p : Part} {x lvl : Nat} (hp : p.pa % 64 + p.bytes ≤ 64 ∧ p.pa < 2 ^ 48)
    (hx : x < 2 ^ (8 * p.bytes)) :
    let e := storeEntry c lvl p (Line.place (p.pa % 64) x)
    e.pa.toNat = p.pa ∧ Line.bytes e.data (e.pa.toNat % 64) e.bytes = x := by
  have hpa : (BitVec.ofNat 64 p.pa).toNat = p.pa := by
    rw [BitVec.toNat_ofNat]
    omega
  refine ⟨hpa, ?_⟩
  simp only [storeEntry, hpa]
  exact Line.bytes_place hp.1 hx

theorem partEntries_value (hps : PartsOf ps n) (hin : WithinLines ps) :
    storedValue (partEntries c ps data) = data % 2 ^ (8 * n) := by
  have hbytes : ∀ p ∈ ps, ∀ x, Line.bytes (storeEntry c c.level p (Line.place (p.pa % 64) (x % 2 ^ (8 * p.bytes)))).data
      ((storeEntry c c.level p (Line.place (p.pa % 64) (x % 2 ^ (8 * p.bytes)))).pa.toNat % 64) p.bytes =
      x % 2 ^ (8 * p.bytes) :=
    fun p hp x => (storeEntry_bytes (hin p hp) (Nat.mod_lt _ (Nat.two_pow_pos _))).2
  rcases hps with ⟨p, rfl, hn⟩ | ⟨p, q, rfl, hn⟩
  · have hp := hbytes p (by simp) data
    rw [← hn]
    simpa [partEntries, storedValue, storeEntry] using hp
  · have hp := hbytes p (by simp) data
    have hq := hbytes q (by simp) (data / 2 ^ (8 * p.bytes))
    rw [← hn, Nat.mul_add, Nat.pow_add, Nat.mod_mul, ← hp, ← hq]
    simp [partEntries, storedValue, storeEntry]

theorem partEntries_places (hin : WithinLines ps) :
    (partEntries c ps data).map (fun e => (e.pa.toNat, e.bytes, e.s, e.mtype)) =
      ps.map fun p => (p.pa, p.bytes, p.s, p.mtype) := by
  apply List.ext_getElem
  · simp [partEntries]
  · intro i hi hi'
    have hp := hin (ps[i]'(by simpa using hi')) (List.getElem_mem _)
    have hpa : (BitVec.ofNat 64 (ps[i]'(by simpa using hi')).pa).toNat = (ps[i]'(by simpa using hi')).pa := by
      rw [BitVec.toNat_ofNat]
      omega
    simp only [partEntries, List.getElem_map, List.getElem_zipIdx, storeEntry, hpa]

theorem partEntries_maker {e : SbEntry} (he : e ∈ partEntries c ps data) :
    e.level.toNat = c.level ∧ e.pid = c.pid ∧ e.sent = false := by
  obtain ⟨x, -, rfl⟩ := List.mem_map.1 he
  have hl := c.level_lt
  refine ⟨?_, rfl, rfl⟩
  simp only [storeEntry, BitVec.toNat_ofNat]
  omega

end

/-! A store that leaves W (R40, R49, R59). -/

/-- Where V is asked for nothing, no more than the beats change. -/
theorem Core.dispatch_nothing (c : Core) (t occ d : Nat) (reads : List Nat) :
    ∃ b, c.dispatch t occ d reads 64 0 0 = { c with beats := b } ∧ b.scr = c.beats.scr := by
  unfold Core.dispatch
  extract_lets start b1 b2 e
  split
  · refine ⟨b2, ?_, rfl⟩
    have hv : c.vWrite e = c := by simp [Core.vWrite, Core.put, Core.setG, orFlags, e]
    show { c.vWrite e with beats := b2 } = _
    rw [hv]
  · exact ⟨_, rfl, rfl⟩

theorem Core.logStore_counts (c : Core) (pa bytes data : Nat) : c.SameButCounts (c.logStore pa bytes data) := by
  unfold Core.logStore
  split <;> exact ⟨_, _, _, _, rfl⟩

/-- What the instruction of a store makes of its core: the beats `sbm`, `l1` and `walk` of its waits, its entries, and
the words of the completed fill. -/
def Core.stored (c : Core) (ents : List SbEntry) (q : List (Option Exc)) (t sbm l1 walk extra : Nat)
    (vs : Option Reg) : Core :=
  let c := c.charge 0 sbm l1 0 walk
  let c := ((c.retire (c.pc + 4) (1 + extra)).count 0x012 1).count 0x013 extra
  let c := match vs with
    | some r => (c.dispatch t 1 1 [vIdx r] 64 0 0).count 0x014 1
    | none => c
  let c := ents.foldl (fun c e => c.logStore e.pa.toNat e.bytes
    (Line.bytes e.data (e.pa.toNat % 64) e.bytes)) c
  { c with sb := c.sb ++ ents, pfq := q }

theorem Core.stored_fields (c : Core) (ents : List SbEntry) (q : List (Option Exc)) (t sbm l1 walk extra : Nat)
    (vs : Option Reg) :
    let d := c.stored ents q t sbm l1 walk extra vs
    d.sb = c.sb ++ ents ∧ d.pc = c.pc + 4 ∧ d.pfq = q ∧ d.g = c.g ∧ KeepsV c d ∧ d.status = c.status ∧
      d.access = c.access := by
  unfold Core.stored
  extract_lets c1 c2 c3 c4 d
  obtain ⟨_, _, _, _, h4⟩ : c3.SameButCounts c4 :=
    Core.SameButCounts.foldl (fun c (e : SbEntry) => c.logStore_counts e.pa.toNat e.bytes
      (Line.bytes e.data (e.pa.toNat % 64) e.bytes)) ents c3
  have h3 : ∃ b p, c3 = { c2 with beats := b, pmu := p } := by
    unfold c3
    cases vs with
    | none => exact ⟨_, _, rfl⟩
    | some r =>
      obtain ⟨b, hb, -⟩ := c2.dispatch_nothing t 1 1 [vIdx r]
      dsimp only
      rw [hb]
      unfold Core.count
      split <;> exact ⟨_, _, rfl⟩
  obtain ⟨_, _, h3⟩ := h3
  simp only [d, h4, h3, KeepsV]
  simp [c2, c1]

theorem State.storeL1i_core (s : State) (k : Asker) (line : Nat) :
    ∃ x, (s.storeL1i k line).core k.lc = { s.core k.lc with l1i := x } := by
  unfold State.storeL1i
  split
  · exact ⟨_, rfl⟩
  · exact ⟨_, (State.core_modDie ..).trans (State.core_modCore ..)⟩

theorem State.storeL1i_mem (s : State) (k : Asker) (line : Nat) : (s.storeL1i k line).mem = s.mem := by
  unfold State.storeL1i
  split <;> rfl

theorem State.storeL1i_foldl (s : State) (k : Asker) (ps : List Part) :
    (∃ x, (ps.foldl (fun s p => s.storeL1i k (p.pa / 64)) s).core k.lc = { s.core k.lc with l1i := x }) ∧
      (ps.foldl (fun s p => s.storeL1i k (p.pa / 64)) s).mem = s.mem := by
  induction ps generalizing s with
  | nil => exact ⟨⟨_, rfl⟩, rfl⟩
  | cons p ps ih =>
    obtain ⟨⟨x, hx⟩, hm⟩ := ih (s.storeL1i k (p.pa / 64))
    obtain ⟨y, hy⟩ := s.storeL1i_core k (p.pa / 64)
    rw [hy] at hx
    exact ⟨⟨x, hx⟩, hm.trans (s.storeL1i_mem k (p.pa / 64))⟩

section
variable {s s1 s2 u w : State} {lc : LC} {k : Asker} {ps : List Part} {q : List (Option Exc)} {n data t walk : Nat}

/-- Once the fill of the prefetch queue is completed, a store with room makes its entries. -/
theorem State.storeDone_stored (vs : Option Reg) (hroom : ps.length ≤ (s1.core k.lc).sbRoom)
    (hq : s1.prefill k = .ok q s2) :
    let c := s2.core k.lc
    let slot := c.roomWait t ps.length
    s1.storeDone k ps data t walk vs = some (ps.foldl (fun s p => s.storeL1i k (p.pa / 64))
      (s2.modCore k.lc (·.stored (partEntries c ps data) q t (c.mWait (t + slot.1 + slot.2 + 2 + walk) + slot.1) slot.2
        walk (ps.length - 1) vs))) := by
  unfold State.storeDone
  rw [if_neg (Nat.not_lt.2 hroom), hq]
  rfl

theorem State.storeDone_result (vs : Option Reg) (hps : PartsOf ps n) (hin : WithinLines ps)
    (hroom : ps.length ≤ (s1.core k.lc).sbRoom) (hq : s1.prefill k = .ok q s2) :
    ∃ w, s1.storeDone k ps data t walk vs = some w ∧ StoreResult k.lc ps (data % 2 ^ (8 * n)) q s2 w ∧
      (w.core k.lc).access = (s2.core k.lc).access := by
  refine ⟨_, State.storeDone_stored vs hroom hq, ?_⟩
  set entries := partEntries (s2.core k.lc) ps data with hentries
  generalize (s2.core k.lc).mWait _ + _ = sbm
  generalize (Core.roomWait _ _ _).2 = l1
  obtain ⟨⟨x, hx⟩, hm⟩ := State.storeL1i_foldl
    (s2.modCore k.lc (·.stored entries q t sbm l1 walk (ps.length - 1) vs)) k ps
  obtain ⟨hsb, hpc, hpfq, hg, hv, hst, hacc⟩ := (s2.core k.lc).stored_fields entries q t sbm l1 walk (ps.length - 1) vs
  rw [State.core_modCore] at hx
  refine ⟨⟨entries, ?_, partEntries_value hps hin, partEntries_places hin, fun e he => partEntries_maker he, ?_⟩, ?_⟩
  · rw [hx]
    exact hsb
  · rw [hx]
    exact ⟨hpc, hpfq, hg, hv, hst, hm⟩
  · rw [hx]
    exact hacc

/-- A store through parts that were translated leaves its entries. -/
theorem storeVia_completes {i : Instr} {need : Need} {body : Asker → Nat → State → Option State} (vs : Option Reg)
    (hi : exec i s = s.issue lc need body) (h : Runs s lc need k t u)
    (hb : body k t u = storeVia k t data vs (.ok ps walk s1)) (hps : PartsOf ps n) (hin : WithinLines ps)
    (hroom : ps.length ≤ (s1.core lc).sbRoom) (hq : s1.prefill k = .ok q s2) :
    Completes i s (StoreResult lc ps (data % 2 ^ (8 * n)) q s2) := by
  cases State.asker_lc h.1
  obtain ⟨w, hw, hres, -⟩ := State.storeDone_result (data := data) (t := t) (walk := walk) vs hps hin hroom hq
  exact ⟨w, hi.trans (issue_next h body (hb.trans hw)), hres⟩

theorem store_completes {i : Instr} {rs ra : Reg} {imm : BitVec 16} (hi : exec i s = s.store lc n rs ra imm)
    (h : Runs s lc { reads := [gIdx rs, gIdx ra] } k t u)
    (hh : u.halves k .store ((u.core lc).getG ra + imm.signExtend 64) n = .ok ps walk s1) (hin : WithinLines ps)
    (hroom : ps.length ≤ (s1.core lc).sbRoom) (hq : s1.prefill k = .ok q s2) :
    Completes i s (StoreResult lc ps (((u.core lc).getG rs).toNat % 2 ^ (8 * n)) q s2) :=
  storeVia_completes none hi h (congrArg (storeVia k t ((u.core lc).getG rs).toNat none) hh) (State.halves_parts hh)
    hin hroom hq

end

theorem storeResults : StoreResults := by
  intro e he lc rs ra imm s k t u ps walk s1 q s2 h hh hin hroom hq
  simp only [storeForms, List.mem_cons, List.not_mem_nil, or_false] at he
  rcases he with rfl | rfl | rfl | rfl
  all_goals exact store_completes rfl h hh hin hroom hq

end Sys2Proof.Machine
end

