-- ==== Sys2Proof/Proofs/Loads.lean ====
section
namespace Sys2Proof.Machine

open Sys2Proof.Claims

/-! What the parts of an access give (R59). -/

/-- The bytes of some parts. -/
def bytesOf (ps : List Part) : Nat := (ps.map (·.bytes)).sum

theorem PartsOf.bytesOf {ps : List Part} {n : Nat} (h : PartsOf ps n) : bytesOf ps = n := by
  rcases h with ⟨p, rfl, rfl⟩ | ⟨p, q, rfl, rfl⟩ <;> simp [Machine.bytesOf]

/-- An answer with data lengthens what was gathered by the bytes of its part. -/
theorem Gather.add_data_lt {g : Gather} (hg : g.val < 2 ^ (8 * g.at')) (p : Part) (d : Line) (pois : Bool) (b : Nat)
    (scr : Bool) :
    let g' := g.add p (.data d pois) b scr
    g'.val < 2 ^ (8 * g'.at') ∧ g'.at' = g.at' + p.bytes := by
  refine ⟨?_, rfl⟩
  have hb := Line.bytes_lt d (p.pa % 64) p.bytes
  calc g.val + Line.bytes d (p.pa % 64) p.bytes * 2 ^ (8 * g.at')
      < (1 + Line.bytes d (p.pa % 64) p.bytes) * 2 ^ (8 * g.at') := by
        rw [Nat.add_mul, Nat.one_mul]
        exact Nat.add_lt_add_right hg _
    _ ≤ 2 ^ (8 * p.bytes) * 2 ^ (8 * g.at') := Nat.mul_le_mul_right _ (by omega)
    _ = 2 ^ (8 * (g.at' + p.bytes)) := by rw [← Nat.pow_add, Nat.mul_add, Nat.add_comm]

/-- What was read without a bus error has the bytes of its parts. -/
theorem State.gather_lt {s w : State} {k : Asker} {ps : List Part} {g0 g : Gather}
    (h : s.gather k ps [] g0 = .all g w) (hbus : g.bus = false) (hg0 : g0.val < 2 ^ (8 * g0.at')) :
    g.val < 2 ^ (8 * (g0.at' + bytesOf ps)) := by
  induction ps generalizing s g0 with
  | nil =>
    rw [State.gather] at h
    cases h
    simpa [bytesOf] using hg0
  | cons p ps ih =>
    rw [State.gather] at h
    split at h
    · contradiction
    · contradiction
    · cases h
      contradiction
    · rename_i d pois b t scr _
      obtain ⟨hlt, hat⟩ := Gather.add_data_lt hg0 p d pois b scr
      have := ih h hlt
      rwa [hat, Nat.add_assoc] at this

/-! Extension of a loaded value (R99). -/

theorem extend_eq {n v : Nat} (sext : Bool) (hv : v < 2 ^ (8 * n)) : extend n sext v = extended n sext v := by
  cases sext with
  | true => rfl
  | false =>
    apply BitVec.eq_of_toNat_eq
    simp only [extend, extended, Bool.false_eq_true, if_false, BitVec.toNat_ofNat, BitVec.toNat_setWidth,
      Nat.mod_eq_of_lt hv]

/-! Completion of a load (R93, R99, R100). -/

@[simp] theorem Beats.setReady_scr (b : Beats) (i t : Nat) : (b.setReady i t).scr = b.scr := by
  unfold Beats.setReady
  split_ifs <;> rfl

@[simp] theorem Beats.setReady_vq (b : Beats) (i t : Nat) : (b.setReady i t).vq = b.vq := by
  unfold Beats.setReady
  split_ifs <;> rfl

@[simp] theorem Core.retire_beats (c : Core) (pc' : Word) (cost : Nat) :
    (c.retire pc' cost).beats = { c.beats with next := c.beats.next + cost } := by
  simp [Core.retire]

theorem keepsSystem_trans {c d e : Core} (h : KeepsSystem c d) (h' : KeepsSystem d e) : KeepsSystem c e := by
  simp_all [KeepsSystem]

theorem keepsSystem_beats (c : Core) (b : Beats) : KeepsSystem c { c with beats := b } := by simp [KeepsSystem]

theorem Core.result_keepsSystem (c : Core) (rd : Reg) (x : Word) (t d : Nat) : KeepsSystem c (c.result rd x t d) := by
  simp [KeepsSystem]

theorem Core.result_writesG (c : Core) (rd : Reg) (x : Word) (t d : Nat) : WritesG rd x c (c.result rd x t d) := by
  refine ⟨fun hr => ?_, Core.getG_zero _, fun r hr => ?_⟩
  · rw [Core.getG_congr (Core.result_g ..), Core.getG_setG_self _ _ _ hr]
  · rw [Core.getG_congr (Core.result_g ..), Core.getG_setG_of_ne _ _ hr]

theorem Core.result_scr (c : Core) (rd : Reg) (x : Word) (t d : Nat) : (c.result rd x t d).beats.scr = c.beats.scr := by
  simp [Core.result]

/-- What a read in M makes of its core before its value goes to a register: its waits and its cost are counted, and
its record enters the reflection log. -/
def Core.loadPassed (c : Core) (sbm l1 walk extra kind len : Nat) (data : List Word) : Core :=
  let c := c.charge 0 sbm l1 0 walk
  (((c.retire (c.pc + 4) (1 + extra)).count 0x011 1).count 0x013 extra).logRec kind len data

theorem Core.loadPassed_fields (c : Core) (sbm l1 walk extra kind len : Nat) (data : List Word) :
    let d := c.loadPassed sbm l1 walk extra kind len data
    KeepsSystem c d ∧ KeepsV c d ∧ d.g = c.g ∧ d.pc = c.pc + 4 ∧ d.beats.scr = c.beats.scr ∧
      d.beats.vq = c.beats.vq ∧ d.beats.vFree = c.beats.vFree := by
  simp [Core.loadPassed, KeepsSystem, KeepsV]

/-- What a scalar load writes, or leaves to its return. -/
def LoadWritten (rd : Reg) (x : Word) (scr : Bool) (c d : Core) : Prop :=
  KeepsSystem c d ∧ KeepsV c d ∧ d.pc = c.pc + 4 ∧
  (scr = false → WritesG rd x c d ∧ d.beats.scr = c.beats.scr) ∧
  (scr = true → d.g = c.g ∧ ∃ e, d.beats.scr = c.beats.scr ++ [e] ∧ e.dest = gIdx rd ∧ e.value = x.zeroExtend 512)

theorem Core.loadDone_scalar (c : Core) (bytes : Nat) (sext : Bool) (rd : Reg) (split : Bool)
    (leave sbm l1 walk v : Nat) (scr : Bool) :
    LoadWritten rd (extend bytes sext v) scr c (c.loadDone (.load bytes sext rd) split leave sbm l1 walk v scr) := by
  let p := c.loadPassed sbm l1 walk (if split then 1 else 0) 2 1 [BitVec.ofNat 64 v]
  obtain ⟨hsys, hv, hg, hpc, hscr, -, -⟩ :=
    c.loadPassed_fields sbm l1 walk (if split then 1 else 0) 2 1 [BitVec.ofNat 64 v]
  change KeepsSystem c p at hsys
  cases scr with
  | false =>
    obtain ⟨hrd, h0, hother⟩ := p.result_writesG rd (extend bytes sext v) leave
      (2 + (if split then 1 else 0) + (sbm + l1 + walk))
    change LoadWritten rd (extend bytes sext v) false c (p.result rd (extend bytes sext v) leave
      (2 + (if split then 1 else 0) + (sbm + l1 + walk)))
    refine ⟨keepsSystem_trans hsys (p.result_keepsSystem ..), ?_, ?_, fun _ => ⟨⟨hrd, h0, fun r hr => ?_⟩, ?_⟩, nofun⟩
    · simpa [KeepsV] using hv
    · rw [Core.result_pc]
      exact hpc
    · exact (hother r hr).trans (Core.getG_congr hg r)
    · rw [Core.result_scr]
      exact hscr
  | true =>
    have hd : ∃ b e, c.loadDone (.load bytes sext rd) split leave sbm l1 walk v true = { p with beats := b } ∧
        b.scr = p.beats.scr ++ [e] ∧ e.dest = gIdx rd ∧ e.value = (extend bytes sext v).zeroExtend 512 :=
      ⟨_, _, rfl, congrArg (· ++ _) (Beats.setReady_scr ..), rfl, rfl⟩
    obtain ⟨b, e, hd, hb, hdest, hvalue⟩ := hd
    rw [hd]
    exact ⟨keepsSystem_trans hsys (keepsSystem_beats p b), hv, hpc, nofun,
      fun _ => ⟨hg, e, hb.trans (congrArg (· ++ [e]) hscr), hdest, hvalue⟩⟩

/-! A load whose parts are all read (R93). -/

section
variable {s u s1 s2 : State} {lc : LC} {k : Asker} {t walk : Nat} {ps : List Part} {g : Gather}

/-- A read in M that meets no bus error and no poison completes. -/
theorem State.loadStep_reads {a : Access} (hgot : a.got = []) (h : Reads s1 k a.parts g s2) :
    ∃ sbm l1, s1.loadStep k a = some ((s2.modCore k.lc fun c => { c with access := none }).modCore k.lc fun c =>
      c.loadDone a.kind (a.parts.length = 2) a.leave sbm l1 a.walk g.val g.scr) := by
  obtain ⟨hg, hbus, hpois⟩ := h
  unfold State.loadStep
  rw [hgot, hg]
  simp only [hbus, hpois, Bool.false_eq_true, if_false]
  exact ⟨_, _, rfl⟩

/-- An instruction that reads through parts that were translated completes as its kind of access does. -/
theorem loadVia_completes {i : Instr} {need : Need} {kind : AccKind} {body : Asker → Nat → State → Option State}
    {P : Core → Core → Prop} (hi : exec i s = s.issue lc need body) (h : Runs s lc need k t u)
    (hb : body k t u = u.loadVia k t kind (.ok ps walk s1)) (hf : (u.core lc).fence = 0) (hr : Reads s1 k ps g s2)
    (hP : ∀ (c : Core) sbm l1, P ({ c with access := none } : Core)
      (Core.loadDone { c with access := none } kind (ps.length = 2) t sbm l1 walk g.val g.scr)) :
    Completes i s fun w => OnlyCore lc s2 w ∧ P ({ s2.core lc with access := none } : Core) (w.core lc) := by
  cases State.asker_lc h.1
  obtain ⟨sbm, l1, hstep⟩ := State.loadStep_reads (a := { kind := kind, parts := ps, leave := t, walk := walk }) rfl hr
  refine ⟨(s2.modCore k.lc fun c => { c with access := none }).modCore k.lc fun c =>
      c.loadDone kind (ps.length = 2) t sbm l1 walk g.val g.scr,
    hi.trans (issue_next h body (hb.trans ?_)), ⟨fun l hl => ?_, rfl⟩, ?_⟩
  · simp only [State.loadVia, hf, Nat.lt_irrefl, if_false]
    exact hstep
  · rw [State.core_modCore_of_ne _ _ hl, State.core_modCore_of_ne _ _ hl]
  · rw [State.core_modCore, State.core_modCore]
    exact hP ..

theorem load_completes {i : Instr} {n : Nat} {sext : Bool} {rd ra : Reg} {imm : BitVec 16}
    (hi : exec i s = s.load lc n sext rd ra imm) (h : Runs s lc { reads := [gIdx ra], writes := [gIdx rd] } k t u)
    (hf : (u.core lc).fence = 0)
    (hh : u.halves k .load ((u.core lc).getG ra + imm.signExtend 64) n = .ok ps walk s1) (hr : Reads s1 k ps g s2) :
    Completes i s fun w => OnlyCore lc s2 w ∧
      LoadWritten rd (extended n sext g.val) g.scr { s2.core lc with access := none } (w.core lc) := by
  have hlt : g.val < 2 ^ (8 * n) := by
    have := State.gather_lt hr.1 hr.2.1 (by decide)
    rwa [(State.halves_parts hh).bytesOf, Nat.zero_add] at this
  rw [← extend_eq sext hlt]
  exact loadVia_completes (P := LoadWritten rd (extend n sext g.val) g.scr) hi h
    (congrArg (u.loadVia k t (.load n sext rd)) hh) hf hr fun _ _ _ => Core.loadDone_scalar ..

end

theorem loadResults : LoadResults := by
  intro e he lc rd ra imm s k t u ps walk s1 g s2 h hf hh hr
  simp only [loadForms, List.mem_cons, List.not_mem_nil, or_false] at he
  rcases he with rfl | rfl | rfl | rfl | rfl | rfl | rfl
  all_goals exact load_completes rfl h hf hh hr

/-! What a part of a load reads (R50, R99, R152). -/

section
variable {s x : State} {k : Asker} {p : Part}

/-- A part that is answered at once is read. -/
theorem reads_of_readPart {d : Line} {b : Nat} {scr : Bool} (h : s.readPart k p = (.hit d false b x, scr)) :
    ∃ g, Reads s k [p] g x ∧ g.scr = scr ∧ g.val = Line.bytes d (p.pa % 64) p.bytes := by
  refine ⟨(({} : Gather).add p (.data d false) b scr), ⟨?_, rfl, rfl⟩, Bool.false_or _, ?_⟩
  · simp only [State.gather, h]
  · simp [Gather.add]

/-- The entry of the store buffer that supplies a part, or keeps it waiting: the youngest that overlaps it. -/
def State.forwardOf (s : State) (k : Asker) (p : Part) : Option SbEntry :=
  (s.core k.lc).sb.reverse.find? fun e => e.overlaps p.pa p.bytes

theorem readPart_forwards {e : SbEntry} (hdev : p.device = false) (hf : s.forwardOf k p = some e)
    (hlo : e.pa.toNat ≤ p.pa) (hhi : p.pa + p.bytes ≤ e.pa.toNat + e.bytes) (hmt : e.mtype ≠ .device) :
    s.readPart k p = (.hit (Line.place (p.pa % 64)
      (Line.bytes e.data (e.pa.toNat % 64 + (p.pa - e.pa.toNat)) p.bytes)) false 0 s, false) := by
  unfold State.forwardOf at hf
  simp only [State.readPart, hdev, hf, hlo, hhi]
  simpa using hmt

theorem readPart_l1d {w : Nat} {l : L1Line} (htgt : targetOf p.pa = .hbm) (hmt : p.mtype = .cacheable)
    (hf : s.forwardOf k p = none) (hw : (s.core k.lc).l1d.wayOf (p.pa / 64) = some w)
    (hl : (s.core k.lc).l1d.find (p.pa / 64) = some l) (hworld : l.world = p.s) :
    s.readPart k p = (.hit ((s.die k.die).sub (p.pa / 64)).data ((s.die k.die).sub (p.pa / 64)).pois 0
      (s.modCore k.lc fun c => { c with l1d := c.l1d.touch (p.pa / 64) w }), false) := by
  have hdev : p.device = false := by simp [Part.device, htgt, hmt]
  unfold State.forwardOf at hf
  simp only [State.readPart, hdev, hf, htgt, hmt, hw, hl, hworld]
  simp

theorem readPart_scratch (htgt : targetOf p.pa = .scratch) (hdie : scratchDie p.pa = k.die)
    (hf : s.forwardOf k p = none) (hdev : p.device = true → ∀ e ∈ (s.core k.lc).sb, e.mtype ≠ .device)
    (hok : s.scratchOk p.pa = true)
    (hpass : s.passes (dcsStation k.die) 16 p.pa p.s (s.core k.lc).pid .r = true) :
    s.readPart k p = (.hit (s.memLine (p.pa / 64)) (s.scratchPois p.pa p.bytes) 0 s, true) := by
  have hgo : (p.device && (s.core k.lc).sb.any fun e => e.mtype == .device) = false := by
    rw [Bool.and_eq_false_iff, or_iff_not_imp_left, Bool.not_eq_false]
    simpa using hdev
  have hcheck : ∀ src, s.checkPasture (dcsStation k.die) 16 p.pa p.s (s.core k.lc).pid .r src = (true, s) := by
    intro src
    unfold State.checkPasture
    simp [hpass]
  unfold State.forwardOf at hf
  simp only [State.readPart, hgo, hf, htgt, hdie, State.readScratch, hok, hcheck]
  simp

end

/-! Bytes of memory. -/

theorem readBytes_lt (m : SMap Byte) (n a : Nat) : readBytes m n a < 256 ^ n := by
  induction n generalizing a with
  | zero => simp [readBytes]
  | succ n ih =>
    have hb := (SMap.get 0 m a).isLt
    have := ih (a + 1)
    rw [readBytes, Nat.pow_succ]
    omega

theorem readBytes_digit (m : SMap Byte) (n a i : Nat) (hi : i < n) :
    readBytes m n a / 256 ^ i % 256 = (SMap.get 0 m (a + i)).toNat := by
  induction n generalizing a i with
  | zero => omega
  | succ n ih =>
    have hb := (SMap.get 0 m a).isLt
    rw [readBytes]
    cases i with
    | zero =>
      rw [Nat.pow_zero, Nat.div_one, Nat.add_mul_mod_self_left, Nat.mod_eq_of_lt hb]
      rfl
    | succ i =>
      rw [Nat.pow_succ', ← Nat.div_div_eq_div_mul, Nat.add_mul_div_left _ _ (by decide), Nat.div_eq_of_lt hb,
        Nat.zero_add, ih (a + 1) i (by omega), Nat.add_right_comm, Nat.add_assoc]

/-- A byte of the bytes of a line is a byte of the line. -/
theorem Line.bytes_digit (l : Line) {o n i : Nat} (hi : i < n) :
    Line.bytes l o n / 2 ^ (8 * i) % 256 = l.toNat / 256 ^ (o + i) % 256 := by
  have h256 : ∀ j, 2 ^ (8 * j) = 256 ^ j := fun j => by rw [Nat.pow_mul]
  obtain ⟨j, rfl⟩ := Nat.exists_eq_add_of_lt hi
  rw [Line.bytes, Nat.shiftRight_eq_div_pow, h256, h256, h256, show i + j + 1 = i + (j + 1) by omega,
    Nat.pow_add 256 i, Nat.mod_mul_right_div_self, Nat.div_div_eq_div_mul, ← Nat.pow_add, Nat.pow_succ']
  exact Nat.mod_mul_right_mod ..

theorem memLine_digit (s : State) {a i n : Nat} (hin : a % 64 + n ≤ 64) (hi : i < n) :
    Line.bytes (s.memLine (a / 64)) (a % 64) n / 2 ^ (8 * i) % 256 = (s.byte (a + i)).toNat := by
  have hlt : readBytes s.mem 64 (64 * (a / 64)) < 2 ^ 512 := lt_of_lt_of_eq (readBytes_lt ..) (Nat.pow_mul 2 8 64).symm
  have ha : 64 * (a / 64) + (a % 64 + i) = a + i := by omega
  rw [Line.bytes_digit _ hi, State.memLine, BitVec.toNat_ofNat, Nat.mod_eq_of_lt hlt,
    readBytes_digit _ _ _ _ (by omega), ha, State.byte]

theorem loadSources : LoadSources := by
  intro s k p hin hne c forward
  refine ⟨fun e hdev hf hlo hhi hmt he => ?_, fun w l htgt hmt hf hw hl hworld hpois => ?_,
    fun htgt hdie hf hdev hok hpass hpois => ?_⟩
  · obtain ⟨g, hg, hscr, hval⟩ := reads_of_readPart (readPart_forwards hdev hf hlo hhi hmt)
    exact ⟨g, hg, hscr, hval.trans (Line.bytes_place hin (Line.bytes_lt ..))⟩
  · have hread := readPart_l1d htgt hmt hf hw hl hworld
    rw [hpois] at hread
    obtain ⟨g, hg, hscr, hval⟩ := reads_of_readPart hread
    exact ⟨g, _, hg, hscr, hval⟩
  · have hread := readPart_scratch htgt hdie hf hdev hok hpass
    rw [hpois] at hread
    obtain ⟨g, hg, hscr, hval⟩ := reads_of_readPart hread
    refine ⟨g, _, hg, hscr, fun i hi => ?_⟩
    rw [hval]
    exact memLine_digit s hin hi

/-- Settles O8: results by what `loadDone` does to its core, sources by the branches of `readPart`. -/
theorem loadResultsAndSources : Obligations.LoadResultsAndSources := ⟨loadResults, loadSources⟩

end Sys2Proof.Machine
end

