-- ==== Sys2Proof/Proofs/VectorMemory.lean ====
section
namespace Sys2Proof.Machine

open Sys2Proof.Claims

/-! VLD (R102, R107). -/

theorem Core.SameButResults.keepsSystem {c d : Core} (h : c.SameButResults d) : KeepsSystem c d := by
  obtain ⟨_, _, _, _, _, rfl⟩ := h
  simp [KeepsSystem]

theorem Core.SameButResults.pc {c d : Core} (h : c.SameButResults d) : d.pc = c.pc := by
  obtain ⟨_, _, _, _, _, rfl⟩ := h
  rfl

theorem Core.put_vIdx (c : Core) (vd : Reg) (x : Line) : c.put (vIdx vd) x = c.setV vd x := by
  have hlt : vIdx vd < 32 := vd.isLt
  have hvd : BitVec.ofNat 5 (vIdx vd) = vd := by rw [vIdx, BitVec.ofNat_toNat, BitVec.setWidth_eq]
  rw [Core.put, if_pos hlt, hvd]

theorem Core.setV_writesNumber (c : Core) (vd : Reg) (x : Line) : WritesNumber (vIdx vd) x c (c.setV vd x) := by
  have hlt : vIdx vd < 32 := vd.isLt
  refine ⟨fun r => ?_, fun r => ?_, fun r => ?_⟩
  · rw [Core.getV_setV]
    simp [vIdx, BitVec.toNat_inj]
  · rw [if_neg (by omega)]
    rfl
  · rw [if_neg (by omega)]
    exact Core.getG_congr (Core.setV_g ..) r

/-- V takes an instruction with a vector result and no flags: it starts where V is free, and else is queued. -/
def DispatchedV (t : Nat) (vd : Reg) (x : Line) (c d : Core) : Prop :=
  KeepsSystem c d ∧ d.pc = c.pc ∧
  (c.beats.vFree ≤ t → WritesNumber (vIdx vd) x c d ∧ d.beats.vq = c.beats.vq) ∧
  (t < c.beats.vFree → d.g = c.g ∧ KeepsV c d ∧
    ∃ e, d.beats.vq = c.beats.vq ++ [e] ∧ e.dest = vIdx vd ∧ e.value = x)

theorem Core.dispatch_dispatchedV (c : Core) (t occ dist : Nat) (reads : List Nat) (vd : Reg) (x : Line) :
    DispatchedV t vd x c (c.dispatch t occ dist reads (vIdx vd) x 0) := by
  unfold Core.dispatch
  extract_lets start b1 b2 e
  have hvq : b2.vq = c.beats.vq := Beats.setReady_vq ..
  by_cases hfree : c.beats.vFree ≤ t
  · have hd : c.SameButResults { c.vWrite e with beats := b2 } := (c.vWrite_results e).withBeats b2
    rw [if_pos (max_eq_left hfree)]
    refine ⟨hd.keepsSystem, hd.pc, fun _ => ⟨?_, hvq⟩, fun h => absurd hfree (Nat.not_le.2 h)⟩
    have hw := c.setV_writesNumber vd x
    rw [← Core.put_vIdx] at hw
    exact hw
  · rw [if_neg fun h => hfree (max_eq_left_iff.1 h)]
    exact ⟨keepsSystem_beats .., rfl, fun h => absurd h hfree, fun _ => ⟨rfl, ⟨rfl, rfl, rfl⟩, e,
      congrArg (· ++ [e]) hvq, rfl, rfl⟩⟩

/-- What VLD writes, queues in V, or leaves to its return. -/
def VectorLoaded (t : Nat) (vd : Reg) (x : Line) (scr : Bool) (c d : Core) : Prop :=
  KeepsSystem c d ∧ d.pc = c.pc + 4 ∧
  (scr = false → c.beats.vFree ≤ t → WritesNumber (vIdx vd) x c d ∧ d.beats.vq = c.beats.vq) ∧
  (scr = false → t < c.beats.vFree → d.g = c.g ∧ KeepsV c d ∧
    ∃ e, d.beats.vq = c.beats.vq ++ [e] ∧ e.dest = vIdx vd ∧ e.value = x) ∧
  (scr = true → d.g = c.g ∧ KeepsV c d ∧
    ∃ e, d.beats.scr = c.beats.scr ++ [e] ∧ e.dest = vIdx vd ∧ e.value = x)

theorem writesNumber_of_kept {dest : Nat} {x : Line} {b c d : Core} (hg : c.g = b.g) (hv : KeepsV b c)
    (h : WritesNumber dest x c d) : WritesNumber dest x b d := by
  obtain ⟨hv, hp, -⟩ := hv
  obtain ⟨h1, h2, h3⟩ := h
  refine ⟨fun r => ?_, fun r => ?_, fun r => ?_⟩
  · rw [h1, Core.getV, hv, Core.getV]
  · rw [h2, Core.getP, hp, Core.getP]
  · rw [h3, Core.getG_congr hg]

theorem keepsV_trans {b c d : Core} (h : KeepsV b c) (h' : KeepsV c d) : KeepsV b d := by
  simp_all [KeepsV]

theorem Core.loadDone_vector (c : Core) (vd : Reg) (split : Bool) (t sbm l1 walk v : Nat) (scr : Bool) :
    VectorLoaded t vd (BitVec.ofNat 512 v) scr c (c.loadDone (.vload vd) split t sbm l1 walk v scr) := by
  let p := c.loadPassed sbm l1 walk (if split then 1 else 0) 3 5
    (0 :: (List.range 8).map fun i => BitVec.ofNat 64 (v / 2 ^ (64 * i)))
  let q := p.count 0x014 1
  obtain ⟨hsys, hv, hg, hpc, hscr, hvq, hfree⟩ := c.loadPassed_fields sbm l1 walk (if split then 1 else 0) 3 5
    (0 :: (List.range 8).map fun i => BitVec.ofNat 64 (v / 2 ^ (64 * i)))
  have hqsys : KeepsSystem c q := keepsSystem_trans hsys (by simp [q, p, KeepsSystem])
  have hqv : KeepsV c q := keepsV_trans hv (by simp [q, p, KeepsV])
  have hqg : q.g = c.g := (Core.count_g ..).trans hg
  have hqpc : q.pc = c.pc + 4 := (Core.count_pc ..).trans hpc
  have hqb : q.beats = p.beats := Core.count_beats ..
  cases scr with
  | false =>
    obtain ⟨hdsys, hdpc, hnow, hlater⟩ := q.dispatch_dispatchedV t 1 (3 + (sbm + l1 + walk)) [] vd (BitVec.ofNat 512 v)
    change VectorLoaded t vd (BitVec.ofNat 512 v) false c
      (q.dispatch t 1 (3 + (sbm + l1 + walk)) [] (vIdx vd) (BitVec.ofNat 512 v) 0)
    rw [hqb] at hnow hlater
    refine ⟨keepsSystem_trans hqsys hdsys, hdpc.trans hqpc, fun _ h => ?_, fun _ h => ?_, nofun⟩
    · obtain ⟨hw, hq⟩ := hnow (hfree.le.trans h)
      exact ⟨writesNumber_of_kept hqg hqv hw, hq.trans hvq⟩
    · obtain ⟨hdg, hdv, e, hq, he⟩ := hlater (h.trans_eq hfree.symm)
      exact ⟨hdg.trans hqg, keepsV_trans hqv hdv, e, hq.trans (congrArg (· ++ [e]) hvq), he⟩
  | true =>
    have hd : ∃ b e, c.loadDone (.vload vd) split t sbm l1 walk v true =
          Core.dispatch { q with beats := b } t 1 (9 + (sbm + l1 + walk)) [] 64 0 0 ∧
        b.scr = q.beats.scr ++ [e] ∧ e.dest = vIdx vd ∧ e.value = BitVec.ofNat 512 v :=
      ⟨_, _, rfl, congrArg (· ++ _) (Beats.setReady_scr ..), rfl, rfl⟩
    obtain ⟨b, e, hd, hb, hdest, hvalue⟩ := hd
    obtain ⟨b', hb', hscr'⟩ := Core.dispatch_nothing { q with beats := b } t 1 (9 + (sbm + l1 + walk)) []
    rw [hd, hb']
    refine ⟨keepsSystem_trans hqsys (keepsSystem_beats q b'), hqpc, nofun, nofun, fun _ => ⟨hqg, hqv, e, ?_, hdest,
      hvalue⟩⟩
    rw [hqb] at hb
    exact hscr'.trans (hb.trans (congrArg (· ++ [e]) hscr))

section
variable {s u s1 s2 x : State} {lc : LC} {k : Asker} {t walk : Nat} {ps : List Part} {g : Gather}
  {q : List (Option Exc)} {vd vs ra : Reg} {imm : BitVec 16}

theorem vld_completes (h : Runs s lc { reads := [gIdx ra], writes := [vIdx vd], vec := true } k t u)
    (hf : (u.core lc).fence = 0)
    (hl : u.lineAccess k .load ((u.core lc).getG ra + imm.signExtend 64) = .ok ps walk s1) (hr : Reads s1 k ps g s2) :
    Completes (.vld lc vd ra imm) s fun w => OnlyCore lc s2 w ∧
      VectorLoaded t vd (BitVec.ofNat 512 g.val) g.scr { s2.core lc with access := none } (w.core lc) :=
  loadVia_completes (P := VectorLoaded t vd (BitVec.ofNat 512 g.val) g.scr)
    (show exec (.vld lc vd ra imm) s = s.issue lc { reads := [gIdx ra], writes := [vIdx vd], vec := true } fun k t s =>
      s.loadVia k t (.vload vd) (s.lineAccess k .load (effAddr (s.core lc) ra imm)) from rfl) h
    (congrArg (u.loadVia k t (.vload vd)) hl) hf hr fun _ _ _ => Core.loadDone_vector ..

theorem lineAccess_unaligned {acc : AccType} {va : Word} (hva : va.toNat % 64 ≠ 0) :
    u.lineAccess k acc va = .fault { code := 0x09, tval := va } u := if_pos hva

theorem vld_unaligned (h : Runs s lc { reads := [gIdx ra], writes := [vIdx vd], vec := true } k t u)
    (hva : ((u.core lc).getG ra + imm.signExtend 64).toNat % 64 ≠ 0)
    (hx : u.raise k { code := 0x09, tval := (u.core lc).getG ra + imm.signExtend 64 } = some x) :
    exec (.vld lc vd ra imm) s = .next x :=
  issue_next h (fun k t s => s.loadVia k t (.vload vd) (s.lineAccess k .load (effAddr (s.core lc) ra imm)))
    ((congrArg (u.loadVia k t (.vload vd)) (lineAccess_unaligned hva)).trans hx)

/-! VST and DCL.Z (R107, R113). -/

theorem vst_completes (h : Runs s lc { reads := [gIdx ra, vIdx vs], vec := true } k t u)
    (hl : u.lineAccess k .store ((u.core lc).getG ra + imm.signExtend 64) = .ok ps walk s1) (hin : WithinLines ps)
    (hroom : 1 ≤ (s1.core lc).sbRoom) (hq : s1.prefill k = .ok q s2) :
    Completes (.vst lc vs ra imm) s (StoreResult lc ps ((u.core lc).getV vs).toNat q s2) := by
  obtain ⟨p, rfl, hp⟩ := State.lineAccess_parts hl
  have hst := storeVia_completes (some vs)
    (show exec (.vst lc vs ra imm) s = s.issue lc { reads := [gIdx ra, vIdx vs], vec := true } fun k t s =>
      storeVia k t ((s.core lc).getV vs).toNat (some vs) (s.lineAccess k .store (effAddr (s.core lc) ra imm)) from rfl)
    h (congrArg (storeVia k t ((u.core lc).getV vs).toNat (some vs)) hl) (.inl ⟨p, rfl, hp⟩) hin hroom hq
  rwa [Nat.mod_eq_of_lt ((u.core lc).getV vs).isLt] at hst

theorem vst_unaligned (h : Runs s lc { reads := [gIdx ra, vIdx vs], vec := true } k t u)
    (hva : ((u.core lc).getG ra + imm.signExtend 64).toNat % 64 ≠ 0)
    (hx : u.raise k { code := 0x09, tval := (u.core lc).getG ra + imm.signExtend 64 } = some x) :
    exec (.vst lc vs ra imm) s = .next x :=
  issue_next h
    (fun k t s => storeVia k t ((s.core lc).getV vs).toNat (some vs)
      (s.lineAccess k .store (effAddr (s.core lc) ra imm)))
    ((congrArg (storeVia k t ((u.core lc).getV vs).toNat (some vs)) (lineAccess_unaligned hva)).trans hx)

theorem storeResult_charge {v : Nat} {w : State} (ib : Nat) (h : StoreResult lc ps v q u w) :
    StoreResult lc ps v q u (w.modCore lc fun c => c.charge ib 0 0 0 0) := by
  obtain ⟨es, hsb, hv, hplace, hmaker, hpc, hpfq, hg, ⟨hkv, hkp, hkf⟩, hst, hm⟩ := h
  refine ⟨es, ?_, hv, hplace, hmaker, ?_⟩
  · simpa using hsb
  · simp only [State.core_modCore, KeepsV, State.modCore_mem, Core.charge_pc, Core.charge_pfq, Core.charge_g,
      Core.charge_v, Core.charge_p, Core.charge_vflags, Core.charge_status]
    exact ⟨hpc, hpfq, hg, ⟨hkv, hkp, hkf⟩, hst, hm⟩

theorem dclZ_completes (h : Runs s lc { reads := [gIdx ra] } k t u)
    (hl : u.lineAccess k .store ((u.core lc).getG ra &&& ~~~0x3F#64) = .ok ps walk s1) (hin : WithinLines ps)
    (hroom : 1 ≤ (s1.core lc).sbRoom) (hq : s1.prefill k = .ok q s2) :
    Completes (.dclZ lc ra) s (StoreResult lc ps 0 q s2) := by
  cases State.asker_lc h.1
  obtain ⟨p, rfl, hp⟩ := State.lineAccess_parts hl
  obtain ⟨w, hw, hres, -⟩ := State.storeDone_result (data := 0) (t := t) (walk := walk) none (.inl ⟨p, rfl, hp⟩) hin
    hroom hq
  rw [Nat.zero_mod] at hres
  refine ⟨if (w.core k.lc).access.isSome then w else w.modCore k.lc fun c => c.charge 1 0 0 0 0, ?_, ?_⟩
  · show execDclZ k.lc ra s = _
    unfold execDclZ
    refine issue_next h _ ?_
    have hl' : u.lineAccess k .store (lineAddr ((u.core k.lc).getG ra)) = .ok [p] walk s1 := hl
    simp only [hl', hw, Option.map_some]
  · split
    · exact hres
    · exact storeResult_charge 1 hres

end

theorem vectorMemoryResults : VectorMemoryResults := by
  refine ⟨?_, ?_, ?_, ?_, ?_⟩
  · intro lc vd ra imm s k t u ps walk s1 g s2 h hf hl hr
    exact vld_completes h hf hl hr
  · intro lc vs ra imm s k t u ps walk s1 q s2 h hl hin hroom hq
    exact vst_completes h hl hin hroom hq
  · intro lc ra s k t u ps walk s1 q s2 h hl hin hroom hq
    exact dclZ_completes h hl hin hroom hq
  · intro lc vd ra imm s k t u x h va hva hx
    exact vld_unaligned h hva hx
  · intro lc vs ra imm s k t u x h va hva hx
    exact vst_unaligned h hva hx

/-- Settles O9: stores by the entries that `storeDone` makes, VLD by what V does with its value. -/
theorem storeResultsAndFrames : Obligations.StoreResultsAndFrames := ⟨storeResults, vectorMemoryResults⟩

end Sys2Proof.Machine
end

