-- ==== Sys2Proof/Proofs/Drains.lean ====
section
namespace Sys2Proof.Machine

open Sys2Proof.Claims

/-! Bytes of scratch (R152). -/

/-- Byte `8 * i + j` of a line, from the line's word `i`. -/
theorem Line.byte_of_bytes (l : Line) {o i : Nat} (hi : i < 8) :
    BitVec.ofNat 8 (Line.bytes l o 8 / 256 ^ i) = Line.byte l (o + i) := by
  have hd := Line.bytes_digit l (o := o) hi
  have h256 : ∀ j, 2 ^ (8 * j) = 256 ^ j := fun j => by rw [Nat.pow_mul]
  rw [h256] at hd
  apply BitVec.eq_of_toNat_eq
  rw [BitVec.toNat_ofNat, Line.byte, BitVec.extractLsb'_toNat, Nat.shiftRight_eq_div_pow, h256]
  exact hd

section
variable {s : State} {w line : Nat}

/-- A word of scratch without poison takes the bytes that its mask selects. -/
theorem State.scratchWord_byte (m : BitVec 8) (v : Nat) (hp : SMap.get false s.poisWord w = false) (a : Nat) :
    (s.scratchWord w m v).byte a =
      if 8 * w ≤ a ∧ a < 8 * w + 8 ∧ m.getLsbD (a - 8 * w) = true then BitVec.ofNat 8 (v / 256 ^ (a - 8 * w))
      else s.byte a := by
  have hwrite : SMap.get 0 (writeBytes s.mem 8 (8 * w) m.toNat v) a =
      if 8 * w ≤ a ∧ a < 8 * w + 8 ∧ m.getLsbD (a - 8 * w) = true then BitVec.ofNat 8 (v / 256 ^ (a - 8 * w))
      else s.byte a := by
    by_cases ha : 8 * w ≤ a ∧ a < 8 * w + 8
    · obtain ⟨j, rfl⟩ := Nat.exists_eq_add_of_le ha.1
      have hbit : m.getLsbD j = true ↔ m.toNat / 2 ^ j % 2 = 1 := by
        rw [BitVec.getLsbD, Nat.testBit_eq_decide_div_mod_eq, decide_eq_true_eq]
      rw [writeBytes_get_inside _ _ _ _ _ _ (by omega), Nat.add_sub_cancel_left]
      simp only [hbit, State.byte]
      congr 1
      simp
      omega
    · rw [writeBytes_get_outside _ _ _ _ _ _ (by omega), if_neg fun h => ha ⟨h.1, h.2.1⟩, State.byte]
  unfold State.scratchWord
  split
  · rename_i h0
    simp [h0]
  · split
    · rename_i _ h255
      rw [← hwrite, h255]
      rfl
    · rw [← hwrite, hp]
      rfl

theorem State.scratchWord_pois (m : BitVec 8) (v i : Nat) (hp : SMap.get false s.poisWord i = false) :
    SMap.get false (s.scratchWord w m v).poisWord i = false := by
  unfold State.scratchWord
  split_ifs
  · exact hp
  · show SMap.get false (SMap.set false s.poisWord w false) i = false
    rw [SMap.get_set]
    split
    · rfl
    · exact hp
  · exact hp
  · exact hp

theorem State.scratchWord_cores (m : BitVec 8) (v : Nat) : (s.scratchWord w m v).cores = s.cores := by
  unfold State.scratchWord
  split_ifs <;> rfl

/-- The first `n` words of a line of scratch are written. -/
def State.scratchWords (s : State) (line : Nat) (data : Line) (m : BitVec 64) (n : Nat) : State :=
  (List.range n).foldl (fun s i =>
    s.scratchWord (line * 8 + i) (m.extractLsb' (8 * i) 8) (Line.bytes data (8 * i) 8)) s

theorem State.scratchWords_succ (data : Line) (m : BitVec 64) (n : Nat) :
    s.scratchWords line data m (n + 1) = (s.scratchWords line data m n).scratchWord (line * 8 + n)
      (m.extractLsb' (8 * n) 8) (Line.bytes data (8 * n) 8) := by
  simp [State.scratchWords, List.range_succ]

theorem State.scratchWords_cores (data : Line) (m : BitVec 64) (n : Nat) :
    (s.scratchWords line data m n).cores = s.cores := by
  induction n with
  | zero => rfl
  | succ n ih => rw [State.scratchWords_succ, State.scratchWord_cores, ih]

theorem State.scratchWords_pois (data : Line) (m : BitVec 64) (n i : Nat)
    (hp : SMap.get false s.poisWord i = false) :
    SMap.get false (s.scratchWords line data m n).poisWord i = false := by
  induction n with
  | zero => exact hp
  | succ n ih =>
    rw [State.scratchWords_succ]
    exact State.scratchWord_pois _ _ _ ih

theorem State.scratchWords_byte (data : Line) (m : BitVec 64) (n : Nat) (hn : n ≤ 8)
    (hp : ∀ i < 8, SMap.get false s.poisWord (line * 8 + i) = false) (a : Nat) :
    (s.scratchWords line data m n).byte a =
      if 64 * line ≤ a ∧ a < 64 * line + 8 * n ∧ m.getLsbD (a - 64 * line) = true then
        Line.byte data (a - 64 * line) else s.byte a := by
  induction n with
  | zero =>
    rw [if_neg (by omega)]
    rfl
  | succ n ih =>
    have hpn := State.scratchWords_pois (line := line) data m n (line * 8 + n) (hp n (by omega))
    rw [State.scratchWords_succ, State.scratchWord_byte _ _ hpn, ih (by omega)]
    by_cases ha : 8 * (line * 8 + n) ≤ a ∧ a < 8 * (line * 8 + n) + 8
    · obtain ⟨j, rfl⟩ := Nat.exists_eq_add_of_le ha.1
      have hj : j < 8 := by omega
      have hbyte : Line.byte data (8 * n + j) = BitVec.ofNat 8 (Line.bytes data (8 * n) 8 / 256 ^ j) :=
        (Line.byte_of_bytes data hj).symm
      have hoff : 8 * (line * 8 + n) + j - 64 * line = 8 * n + j := by omega
      have hbit : (m.extractLsb' (8 * n) 8).getLsbD j = m.getLsbD (8 * n + j) := by
        simp [hj]
      rw [hoff, hbyte, Nat.add_sub_cancel_left, hbit]
      have hlo : 64 * line ≤ 8 * (line * 8 + n) + j := by omega
      have hhi : 8 * (line * 8 + n) + j < 64 * line + 8 * (n + 1) := by omega
      have hnot : ¬ 8 * (line * 8 + n) + j < 64 * line + 8 * n := by omega
      simp [ha, hlo, hhi, hnot]
    · rw [if_neg fun h => ha ⟨h.1, h.2.1⟩]
      congr 1
      apply propext
      constructor
      · rintro ⟨h1, h2, h3⟩
        exact ⟨h1, by omega, h3⟩
      · rintro ⟨h1, h2, h3⟩
        exact ⟨h1, by omega, h3⟩

theorem State.scratchWrite_programs (data : Line) (m : BitVec 64) :
    ProgramsKept (s.scratchWords line data m 8) (s.scratchWrite line data m) := by
  unfold State.scratchWrite
  refine ProgramsKept.foldl (.refl _) (fun t lc h => ?_) _
  split
  · exact h.modCore _ fun c => by simp [SameProgram]
  · exact h

/-- A write of a line of scratch changes the bytes that its mask selects. -/
theorem State.scratchWrite_byte (data : Line) (m : BitVec 64)
    (hp : ∀ i < 8, SMap.get false s.poisWord (line * 8 + i) = false) (a : Nat) :
    (s.scratchWrite line data m).byte a =
      if 64 * line ≤ a ∧ a < 64 * line + 64 ∧ m.getLsbD (a - 64 * line) = true then
        Line.byte data (a - 64 * line) else s.byte a := by
  rw [State.byte, (State.scratchWrite_programs data m).2]
  exact State.scratchWords_byte data m 8 le_rfl hp a

end

/-- The mask of an entry that lies in its line selects its bytes. -/
theorem SbEntry.mask_getLsbD {e : SbEntry} (hin : e.pa.toNat % 64 + e.bytes ≤ 64) {j : Nat} (hj : j < 64) :
    e.mask.getLsbD j = true ↔ e.pa.toNat % 64 ≤ j ∧ j < e.pa.toNat % 64 + e.bytes := by
  unfold SbEntry.mask
  split
  · rw [fullMask, BitVec.getLsbD_allOnes, decide_eq_true_eq]
    omega
  · rw [byteMask, BitVec.getLsbD_ofNat, Nat.testBit_shiftLeft, Nat.testBit_two_pow_sub_one]
    simp only [Bool.and_eq_true, decide_eq_true_eq]
    omega

/-! The drain of the oldest entry (R49, R70). -/

section
variable {s x : State} {lc : LC} {k : Asker} {e : SbEntry} {rest : List SbEntry}

theorem State.drained_oldest (beats : Nat) (fixed err : Bool) (h : (x.core lc).sb = e :: rest) :
    let w := x.drained lc beats fixed err
    (w.core lc).sb = rest ∧
      (w.core lc).sbErr = (if err then (x.core lc).sbErr ++ [⟨e.va, e.level⟩] else (x.core lc).sbErr) ∧
      w.mem = x.mem ∧ w.dies = x.dies := by
  simp only [State.drained, State.core_modCore, h]
  exact ⟨trivial, trivial, rfl, rfl⟩

/-- An entry whose drain is performed leaves the buffer. -/
theorem storeDrain_done {beats : Nat} {fixed : Bool} (hk : s.asker lc = some k) (hsb : (s.core lc).sb = e :: rest)
    (hsent : e.sent = false) (hd : s.drainOne k e = .done beats fixed x) (hx : (x.core lc).sb = e :: rest) :
    Completes (.storeDrain lc) s fun w =>
      (w.core lc).sb = rest ∧ (w.core lc).sbErr = (x.core lc).sbErr ∧ w.mem = x.mem ∧ w.dies = x.dies := by
  by_cases hwait : e.waited = true
  · refine ⟨x.takeBeats.2.drained lc (x.takeBeats.1 + beats) false false, ?_, ?_⟩
    · show execStoreDrain lc s = _
      simp only [execStoreDrain, hk, hsb, hsent, hd, hwait, Bool.false_eq_true, if_false, if_true]
    · exact State.drained_oldest (x := x.takeBeats.2) _ false false hx
  · refine ⟨x.drained lc beats fixed false, ?_, State.drained_oldest beats fixed false hx⟩
    show execStoreDrain lc s = _
    simp only [execStoreDrain, hk, hsb, hsent, hd, hwait, Bool.false_eq_true, if_false]

/-- An entry whose drain meets a bus error is kept for STORE_BUS. -/
theorem storeDrain_bus (hk : s.asker lc = some k) (hsb : (s.core lc).sb = e :: rest) (hsent : e.sent = false)
    (hd : s.drainOne k e = .bus s) :
    Completes (.storeDrain lc) s fun w =>
      (w.core lc).sb = rest ∧ (w.core lc).sbErr = (s.core lc).sbErr ++ [⟨e.va, e.level⟩] ∧ w.mem = s.mem := by
  obtain ⟨hrest, herr, hmem, -⟩ := State.drained_oldest (x := s) (lc := lc) 0 true true hsb
  refine ⟨s.drained lc 0 true true, ?_, hrest, herr, hmem⟩
  show execStoreDrain lc s = _
  simp only [execStoreDrain, hk, hsb, hsent, hd, Bool.false_eq_true, if_false]

theorem State.drainOne_scratch (htgt : targetOf e.pa.toNat = .scratch) (hdie : scratchDie e.pa.toNat = k.die)
    (hok : s.scratchOk e.pa.toNat = true)
    (hpass : s.passes (dcsStation k.die) 16 e.pa.toNat e.s e.pid .w = true) :
    s.drainOne k e = .done 3 true (s.scratchWrite (e.pa.toNat / 64) e.data e.mask) := by
  have hcheck : ∀ src, s.checkPasture (dcsStation k.die) 16 e.pa.toNat e.s e.pid .w src = (true, s) := by
    intro src
    unfold State.checkPasture
    simp [hpass]
  simp only [State.drainOne, htgt, hdie, hok, hcheck]
  simp

theorem drainWritesScratch : DrainWritesScratch := by
  intro lc s k e rest hk hsb hsent htgt hdie hok hpass hin hne hsize hpois
  have hkept := State.scratchWrite_programs (s := s) (line := e.pa.toNat / 64) e.data e.mask
  have hcore : ∀ l, State.core (s.scratchWords (e.pa.toNat / 64) e.data e.mask 8) l = s.core l := fun l => by
    rw [State.core, State.scratchWords_cores, State.core]
  have hsame := hkept.1 lc
  rw [hcore] at hsame
  obtain ⟨-, -, -, -, -, -, -, -, -, -, -, -, -, -, -, -, -, hsb', hsbErr', -⟩ := hsame
  obtain ⟨w, hw, hrest, herr, hmem, -⟩ := storeDrain_done hk hsb hsent
    (State.drainOne_scratch htgt hdie hok hpass) (hsb'.trans hsb)
  refine ⟨w, hw, hrest, herr.trans hsbErr', fun a => ?_⟩
  rw [State.byte, hmem]
  refine (State.scratchWrite_byte e.data e.mask (fun i hi => hpois i hi) a).trans ?_
  by_cases ha : 64 * (e.pa.toNat / 64) ≤ a ∧ a < 64 * (e.pa.toNat / 64) + 64
  · have hbit := SbEntry.mask_getLsbD hin (j := a - 64 * (e.pa.toNat / 64)) (by omega)
    have hiff : (64 * (e.pa.toNat / 64) ≤ a ∧ a < 64 * (e.pa.toNat / 64) + 64 ∧
        e.mask.getLsbD (a - 64 * (e.pa.toNat / 64)) = true) ↔ e.pa.toNat ≤ a ∧ a < e.pa.toNat + e.bytes := by
      rw [hbit]
      omega
    by_cases hmine : e.pa.toNat ≤ a ∧ a < e.pa.toNat + e.bytes
    · have hoff : a - 64 * (e.pa.toNat / 64) = e.pa.toNat % 64 + (a - e.pa.toNat) := by omega
      rw [if_pos (hiff.2 hmine), if_pos hmine, hoff]
    · rw [if_neg (mt hiff.1 hmine), if_neg hmine]
  · rw [if_neg fun h => ha ⟨h.1, h.2.1⟩, if_neg (by omega)]

/-- The entry's bytes are merged into the die cache's copy of a line that its core owns (Table CACHE-2). -/
def State.ownedWrite (s : State) (k : Asker) (e : SbEntry) : State :=
  (s.modCore k.lc fun c => { c with l1d := (c.l1d.fill ⟨e.pa.toNat / 64, .m, e.s⟩).1 }).writeSub k.die
    (e.pa.toNat / 64) e.data e.mask

theorem State.ownedWrite_sb : ((s.ownedWrite k e).core k.lc).sb = (s.core k.lc).sb := by
  rw [State.ownedWrite, State.writeSub, State.core_modDie, State.core_modCore]

theorem State.ownedWrite_sub {wy : Nat} (hwy : (s.die k.die).wayOf (e.pa.toNat / 64) = some wy) :
    let old := (s.die k.die).sub (e.pa.toNat / 64)
    ((s.ownedWrite k e).die k.die).sub (e.pa.toNat / 64) =
      { old with st := .m, data := Line.merge old.data e.data e.mask } := by
  rw [State.ownedWrite, State.writeSub, State.die_modDie]
  exact DieSt.sub_modSub _ hwy _

theorem State.drainOne_owned {l : L1Line} (htgt : targetOf e.pa.toNat = .hbm) (hmt : e.mtype = .cacheable)
    (hl : (s.core k.lc).l1d.find (e.pa.toNat / 64) = some l) (hst : l.st = .e ∨ l.st = .m) (hworld : l.world = e.s) :
    s.drainOne k e = .done 1 true (s.ownedWrite k e) := by
  simp only [State.drainOne, htgt, State.drainHbm, hmt, hl]
  rcases hst with h | h <;> simp [h, hworld, State.ownedWrite]

theorem drainWritesOwnedLine : DrainWritesOwnedLine := by
  refine ⟨fun lc s k e rest l wy hk hsb hsent htgt hmt hl hst hworld hwy => ?_,
    fun lc s k e rest hk hsb hsent htgt => ?_⟩
  · cases State.asker_lc hk
    obtain ⟨w, hw, hrest, -, hmem, hdies⟩ := storeDrain_done hk hsb hsent
      (State.drainOne_owned htgt hmt hl hst hworld) (State.ownedWrite_sb.trans hsb)
    have hdie : w.die k.die = (s.ownedWrite k e).die k.die := by rw [State.die, hdies, State.die]
    have hsub := (congrArg (·.sub (e.pa.toNat / 64)) hdie).trans (State.ownedWrite_sub hwy)
    exact ⟨w, hw, hrest, hmem, congrArg Sub.st hsub, congrArg Sub.data hsub⟩
  · refine storeDrain_bus hk hsb hsent ?_
    simp only [State.drainOne, htgt]

end

/-- Settles O10: scratch byte by byte through its masked words, an owned line by the merge of its sub-block. -/
theorem drainResults : Obligations.DrainResults := ⟨drainWritesScratch, drainWritesOwnedLine⟩

end Sys2Proof.Machine
end

