-- ==== Sys2Proof/Proofs/AtomicsAndLines.lean ====
section
namespace Sys2Proof.Machine

open Sys2Proof.Claims

/-! Requests to a home that hold their core in M (R93, R109, R113). -/

section
variable {s u s1 t1 x : State} {lc : LC} {k : Asker} {t walk : Nat} {rd ra rb : Reg}

theorem awaitsHome_of_bankReq {d : Die} {m : Msg} {way line low : Nat} {a : Access}
    (hb : s1.bankReq d lc m way (.access lc) = some t1) (haddr : m.addr = BitVec.ofNat 48 (64 * line + low))
    (hdest : m.dest = homeOfLine line) (hlow : low < 64) :
    AwaitsHome lc a.kind m.kind (64 * line + low) m.data m.s m.pid s1
      (t1.modCore lc fun c => { c with access := some a }) := by
  obtain ⟨r, ⟨_, _, _, _, _, ht⟩, hp, hkind, hra, hdata, hs, hd, hpid⟩ := State.bankReq_sends hb
  have hline : (64 * line + low) / 64 = line := by omega
  unfold AwaitsHome
  rw [State.core_modCore, hline, ht]
  refine ⟨⟨a, rfl, rfl⟩, ⟨r, ?_, hkind, hra.trans haddr, hdata, hs, hd.trans hdest, hpid, hp⟩, rfl, rfl, rfl⟩
  exact List.mem_append_right _ (List.mem_singleton_self r)

/-- A line of HBM names its own bank by the address of a request. -/
theorem line_of_requestAddr {pa low : Nat} (htgt : targetOf pa = .hbm) (hlow : low < 64) :
    (BitVec.ofNat 48 (64 * (pa / 64) + low)).toNat / 64 = pa / 64 := by
  have hpa : pa < 0x1000000000 := by
    by_contra h
    unfold targetOf at htgt
    rw [if_neg h] at htgt
    split_ifs at htgt
  rw [BitVec.toNat_ofNat]
  omega

/-! Far atomics (R53, R56, R109). -/

theorem atomic_misaligned {i : Instr} {op : AtomicOp} (hi : exec i s = s.atomic lc op rd ra rb)
    (h : Runs s lc { reads := [gIdx ra, gIdx rb] ++ if op = .cas then [gIdx rd] else [], writes := [gIdx rd] } k t u)
    (hva : ((u.core lc).getG ra).toNat % 8 ≠ 0)
    (hx : u.raise k { code := 0x09, tval := (u.core lc).getG ra } = some x) : exec i s = .next x := by
  rw [hi]
  unfold State.atomic
  exact issue_next h _ ((if_pos hva).trans hx)

/-- The request that a far atomic of core `c` sends to the home. -/
def atomicMsg (c : Core) (op : AtomicOp) (rd rb : Reg) (pa : Nat) (ws : Bool) : Msg :=
  { kind := .atomicAtHome, dest := homeOfLine (pa / 64), src := 0, s := ws, tclass := c.tclass.extractLsb' 0 4
    pid := c.pid, addr := BitVec.ofNat 48 (pa / 8 * 8 + op.code)
    data := some (Line.place 0 ((c.getG rb).toNat + if op = .cas then (c.getG rd).toNat * 2 ^ 64 else 0)) }

/-- The access in which core `c` waits for its far atomic. -/
def atomicAccess (c : Core) (op : AtomicOp) (rd ra : Reg) (pa : Nat) (mt : MemType) (ws : Bool) (t walk : Nat) :
    Access :=
  let w := waitDrains (t + 2 + walk) c.beats.past
  { kind := .atomic op.code rd, parts := [⟨c.getG ra, pa, 8, mt, ws⟩], leave := t
    sbm := c.mWait (t + 2 + walk) - (w.1 + w.2), l1 := w.1 + w.2, walk := walk }

section
variable {i : Instr} {op : AtomicOp} {pa : Nat} {mt : MemType} {ws : Bool}

theorem exec_atomic_sends (hi : exec i s = s.atomic lc op rd ra rb)
    (h : Runs s lc { reads := [gIdx ra, gIdx rb] ++ if op = .cas then [gIdx rd] else [], writes := [gIdx rd] } k t u)
    (hva : ((u.core lc).getG ra).toNat % 8 = 0)
    (hx : u.translate k .atomic (u.core lc).level ((u.core lc).getG ra) = .ok pa mt ws walk s1)
    (htgt : targetOf pa = .hbm) (hmt : mt = .cacheable) (hsb : (u.core lc).sb = [])
    (hb : s1.bankReq k.die lc (atomicMsg (u.core lc) op rd rb pa ws) 0 (.access lc) = some t1) :
    exec i s = .next (t1.modCore lc fun c =>
      { c with access := some (atomicAccess (u.core lc) op rd ra pa mt ws t walk) }) := by
  have hgo : ¬ (decide (targetOf pa ≠ .hbm) || decide (mt ≠ .cacheable)) = true := by simp [htgt, hmt]
  have hempty : ¬ (!(u.core lc).sb.isEmpty) = true := by simp [hsb]
  unfold atomicMsg at hb
  rw [hi]
  unfold State.atomic
  refine issue_next h _ ?_
  dsimp only
  rw [if_neg (not_not.2 hva), hx]
  dsimp only
  rw [if_neg hgo, if_neg hempty, hb]
  rfl

theorem atomic_goesHome (hi : exec i s = s.atomic lc op rd ra rb)
    (h : Runs s lc { reads := [gIdx ra, gIdx rb] ++ if op = .cas then [gIdx rd] else [], writes := [gIdx rd] } k t u)
    (hva : ((u.core lc).getG ra).toNat % 8 = 0)
    (hx : u.translate k .atomic (u.core lc).level ((u.core lc).getG ra) = .ok pa mt ws walk s1)
    (htgt : targetOf pa = .hbm) (hmt : mt = .cacheable) (hsb : (u.core lc).sb = [])
    (hfree : (s1.freeTxid (bankOf k.die (pa / 64)) 32).isSome = true) :
    Completes i s (AwaitsHome lc (.atomic op.code rd) .atomicAtHome (pa / 8 * 8 + op.code)
      (some (BitVec.ofNat 512 (((u.core lc).getG rb).toNat +
        if op = .cas then ((u.core lc).getG rd).toNat * 2 ^ 64 else 0))) ws (u.core lc).pid s1) := by
  have hcode : op.code < 8 := by cases op <;> decide
  have haddr : pa / 8 * 8 + op.code = 64 * (pa / 64) + (pa / 8 % 8 * 8 + op.code) := by omega
  have hlow : pa / 8 % 8 * 8 + op.code < 64 := by omega
  have hm : (atomicMsg (u.core lc) op rd rb pa ws).addr =
      BitVec.ofNat 48 (64 * (pa / 64) + (pa / 8 % 8 * 8 + op.code)) := congrArg (BitVec.ofNat 48) haddr
  have hbank : (atomicMsg (u.core lc) op rd rb pa ws).addr.toNat / 64 = pa / 64 := by
    rw [hm, line_of_requestAddr htgt hlow]
  rw [← hbank] at hfree
  obtain ⟨t1, ht1⟩ := State.bankReq_isSome (lc := lc) (way := 0) (p := .access lc) hfree
  refine ⟨_, exec_atomic_sends hi h hva hx htgt hmt hsb ht1, ?_⟩
  rw [haddr]
  exact awaitsHome_of_bankReq (a := atomicAccess (u.core lc) op rd ra pa mt ws t walk) ht1 hm rfl hlow

end

/-! DCL.C, DCL.I and DCL.CI (R113). -/

section
variable {i : Instr} {acc : AccType} {code pa : Nat} {mt : MemType} {ws : Bool}

/-- The request that a cache-line operation of core `c` sends to the home. -/
def cmoMsg (c : Core) (code pa : Nat) (ws : Bool) : Msg :=
  { kind := .cmo, dest := homeOfLine (pa / 64), src := 0, s := ws, pid := c.pid, tclass := c.tclass.extractLsb' 0 4
    addr := BitVec.ofNat 48 (pa / 64 * 64 + code) }

theorem exec_lineOp_sends (hi : exec i s = s.lineOp lc ra acc code) (h : Runs s lc { reads := [gIdx ra] } k t u)
    (hx : u.translate k acc (u.core lc).level ((u.core lc).getG ra &&& ~~~0x3F#64) = .ok pa mt ws walk s1)
    (htgt : targetOf pa = .hbm)
    (hb : s1.bankReq k.die lc (cmoMsg (u.core lc) code pa ws) 0 (.access lc) = some t1) :
    ∃ a : Access, a.kind = .cmo ∧ exec i s = .next (t1.modCore lc fun c => { c with access := some a }) := by
  refine ⟨{ kind := .cmo, parts := [⟨(u.core lc).getG ra &&& ~~~0x3F#64, pa, 64, mt, ws⟩], leave := t
            sbm := (u.core lc).mWait (t + 2 + walk), walk := walk }, rfl, ?_⟩
  unfold cmoMsg at hb
  rw [hi]
  unfold State.lineOp
  refine issue_next h _ ?_
  dsimp only [lineAddr]
  rw [hx]
  dsimp only
  rw [if_neg (not_not.2 htgt), hb]

theorem lineOp_goesHome (hi : exec i s = s.lineOp lc ra acc code) (h : Runs s lc { reads := [gIdx ra] } k t u)
    (hx : u.translate k acc (u.core lc).level ((u.core lc).getG ra &&& ~~~0x3F#64) = .ok pa mt ws walk s1)
    (htgt : targetOf pa = .hbm) (hfree : (s1.freeTxid (bankOf k.die (pa / 64)) 32).isSome = true) (hcode : code < 64) :
    Completes i s (AwaitsHome lc .cmo .cmo (pa / 64 * 64 + code) none ws (u.core lc).pid s1) := by
  have hm : (cmoMsg (u.core lc) code pa ws).addr = BitVec.ofNat 48 (64 * (pa / 64) + code) :=
    congrArg (fun n => BitVec.ofNat 48 (n + code)) (Nat.mul_comm ..)
  have hbank : (cmoMsg (u.core lc) code pa ws).addr.toNat / 64 = pa / 64 := by
    rw [hm, line_of_requestAddr htgt hcode]
  rw [← hbank] at hfree
  obtain ⟨t1, ht1⟩ := State.bankReq_isSome (lc := lc) (way := 0) (p := .access lc) hfree
  obtain ⟨a, ha, hexec⟩ := exec_lineOp_sends hi h hx htgt ht1
  refine ⟨_, hexec, ?_⟩
  rw [Nat.mul_comm, ← ha]
  exact awaitsHome_of_bankReq ht1 hm rfl hcode

/-- Outside HBM a cache-line operation retires. -/
theorem lineOp_retires (hi : exec i s = s.lineOp lc ra acc code) (h : Runs s lc { reads := [gIdx ra] } k t u)
    (hx : u.translate k acc (u.core lc).level ((u.core lc).getG ra &&& ~~~0x3F#64) = .ok pa mt ws walk s1)
    (htgt : targetOf pa ≠ .hbm) :
    Completes i s fun w =>
      OnlyCore lc s1 w ∧ KeepsSystem (s1.core lc) (w.core lc) ∧ (w.core lc).g = (s1.core lc).g ∧
      (w.core lc).pc = (s1.core lc).pc + 4 := by
  refine ⟨s1.modCore lc fun c =>
    let c := c.charge 0 ((u.core lc).mWait (t + 2 + walk)) 0 0 walk
    c.retire (c.pc + 4) 2, ?_, onlyCore_modCore .., ?_⟩
  · rw [hi]
    unfold State.lineOp
    refine issue_next h _ ?_
    dsimp only [lineAddr]
    rw [hx]
    exact if_pos htgt
  · rw [State.core_modCore]
    simp [KeepsSystem]

end

/-! DPF and ICL.I (R42, R113, R141). -/

/-- An instruction that runs leaves what its body leaves, of which `P` holds. -/
theorem issue_next_exists {need : Need} {f : State → State} {P : State → Prop} (h : Runs s lc need k t u)
    (body : Asker → Nat → State → Option State) (hb : ∃ v, body k t u = some (f v) ∧ P v) :
    ∃ v, s.issue lc need body = .next (f v) ∧ P v := by
  obtain ⟨v, hv, hp⟩ := hb
  exact ⟨v, issue_next h body hv, hp⟩

/-- A prefetch changes no more than what programs do not see. -/
theorem exec_dpf (h : Runs s lc { reads := [gIdx ra] } k t u) :
    ∃ v, exec (.dpf lc ra) s = .next (v.modCore lc fun c => c.retire (c.pc + 4) 2) ∧ ProgramsKept u v := by
  show ∃ v, execDpf lc ra s = _ ∧ _
  unfold execDpf
  refine issue_next_exists (f := fun v => v.modCore lc fun c => c.retire (c.pc + 4) 2) h _ ⟨_, rfl, ?_⟩
  dsimp only
  split
  · split
    · exact .refl u
    · split
      · exact .refl u
      · rename_i pa ws _ _ _
        have hr := State.readDc_prefetch_programs (ProgramsKept.refl u) { k with s := ws } (pa / 64) 0 lc
        split
        · rename_i heq
          rw [heq] at hr
          exact ProgramsKept.trans hr (State.fillL1d_unseen (.refl _) ..).programsKept
        · rename_i heq
          rw [heq] at hr
          exact hr
        · exact .refl u
  · exact .refl u

theorem L1.drop_of_find_none {x : L1} {line : Nat} (h : x.find line = none) : x.drop line = x := by
  cases hw : x.wayOf line with
  | none => simp only [L1.drop, hw]
  | some w =>
    have hfound := List.find?_some hw
    simp only [L1.find, hw] at h
    simp only [h] at hfound
    contradiction

theorem State.storeL1i_drops (s : State) (k : Asker) (line : Nat) :
    (s.storeL1i k line).core k.lc = { s.core k.lc with l1i := (s.core k.lc).l1i.drop line } := by
  unfold State.storeL1i
  split
  · rename_i h
    rw [L1.drop_of_find_none h]
  · exact (State.core_modDie ..).trans (State.core_modCore ..)

theorem exec_iclI {pa : Nat} {mt : MemType} {ws : Bool} (h : Runs s lc { reads := [gIdx ra] } k t u)
    (hx : u.translate k .load (u.core lc).level ((u.core lc).getG ra &&& ~~~0x3F#64) false false
      = .ok pa mt ws walk s1) :
    exec (.iclI lc ra) s = .next ((s1.storeL1i k (pa / 64)).modCore lc fun c =>
      let c := c.charge 0 (c.mWait (t + 2 + walk)) 0 0 walk
      c.retire (c.pc + 4) 2) := by
  show execIclI lc ra s = _
  unfold execIclI
  refine issue_next h _ ?_
  dsimp only [lineAddr]
  rw [hx]

theorem iclI_drops {pa : Nat} {mt : MemType} {ws : Bool} (h : Runs s lc { reads := [gIdx ra] } k t u)
    (hx : u.translate k .load (u.core lc).level ((u.core lc).getG ra &&& ~~~0x3F#64) false false
      = .ok pa mt ws walk s1) :
    Completes (.iclI lc ra) s fun w =>
      (w.core lc).l1i = (s1.core lc).l1i.drop (pa / 64) ∧ (w.core lc).g = (s1.core lc).g ∧
      (w.core lc).pc = (s1.core lc).pc + 4 ∧ w.mem = s1.mem := by
  cases State.asker_lc h.1
  refine ⟨_, exec_iclI h hx, ?_⟩
  simp only [State.core_modCore, State.storeL1i_drops, State.modCore_mem, State.storeL1i_mem]
  simp

end

theorem exec_l1iInvalidationApply {s : State} {lc : LC} {line : Nat} {rest : List Nat}
    (h : (s.core lc).l1iPend = line :: rest) :
    Completes (.l1iInvalidationApply lc) s fun w =>
      OnlyCore lc s w ∧ (w.core lc).l1iPend = rest ∧ (w.core lc).l1i = (s.core lc).l1i.drop line ∧
      (w.core lc).pc = (s.core lc).pc ∧ (w.core lc).g = (s.core lc).g := by
  refine ⟨_, rfl, onlyCore_modCore .., ?_⟩
  rw [State.core_modCore, h]
  exact ⟨rfl, rfl, rfl, rfl⟩

/-! The claims. -/

theorem AtomicOp.code_eq_two (op : AtomicOp) : op.code = 2 ↔ op = .cas := by cases op <;> decide

/-- Each far atomic is one of the model's operations, by its code. -/
theorem atomicForms_op {e : (LC → Reg → Reg → Reg → Instr) × Nat} (he : e ∈ atomicForms) :
    ∃ op : AtomicOp, e.2 = op.code ∧ ∀ lc rd ra rb s, exec (e.1 lc rd ra rb) s = s.atomic lc op rd ra rb := by
  simp only [atomicForms, List.mem_cons, List.not_mem_nil, or_false] at he
  rcases he with rfl | rfl | rfl | rfl | rfl | rfl | rfl
  · exact ⟨.add, rfl, fun _ _ _ _ _ => rfl⟩
  · exact ⟨.swap, rfl, fun _ _ _ _ _ => rfl⟩
  · exact ⟨.cas, rfl, fun _ _ _ _ _ => rfl⟩
  · exact ⟨.min, rfl, fun _ _ _ _ _ => rfl⟩
  · exact ⟨.max, rfl, fun _ _ _ _ _ => rfl⟩
  · exact ⟨.minu, rfl, fun _ _ _ _ _ => rfl⟩
  · exact ⟨.maxu, rfl, fun _ _ _ _ _ => rfl⟩

theorem atomicsGoHome : AtomicsGoHome := by
  intro e he lc rd ra rb s k t u h
  obtain ⟨op, hcode, hexec⟩ := atomicForms_op he
  simp only [hcode, op.code_eq_two] at h ⊢
  exact ⟨fun pa mt ws walk s1 hva hx htgt hmt hsb hfree =>
      atomic_goesHome (hexec lc rd ra rb s) h hva hx htgt hmt hsb hfree,
    fun x hva hx => atomic_misaligned (hexec lc rd ra rb s) h hva hx⟩

theorem lineOpForms_op {e : (LC → Reg → Instr) × AccType × Nat} (he : e ∈ lineOpForms) :
    e.2.2 < 64 ∧ ∀ lc ra s, exec (e.1 lc ra) s = s.lineOp lc ra e.2.1 e.2.2 := by
  simp only [lineOpForms, List.mem_cons, List.not_mem_nil, or_false] at he
  rcases he with rfl | rfl | rfl
  all_goals exact ⟨by decide, fun _ _ _ => rfl⟩

theorem lineOperationsGoHome : LineOperationsGoHome := by
  intro e he lc ra s k t u h c pa mt ws walk s1 hx
  obtain ⟨hcode, hexec⟩ := lineOpForms_op he
  exact ⟨fun htgt hfree => lineOp_goesHome (hexec lc ra s) h hx htgt hfree hcode,
    fun htgt => lineOp_retires (hexec lc ra s) h hx htgt⟩

theorem prefetchAndL1i : PrefetchAndL1i := by
  refine ⟨fun lc ra s k t u h => ?_, fun lc ra s k t u pa mt ws walk s1 h hx => iclI_drops h hx,
    fun lc s line rest h => exec_l1iInvalidationApply h⟩
  obtain ⟨v, hv, hcores, hmem⟩ := exec_dpf h
  refine ⟨_, hv, ?_⟩
  obtain ⟨hg, hpc, hst, hsb⟩ := (ProgramsKept.undisturbed ⟨hcores, hmem⟩ lc : Undisturbed (u.core lc) (v.core lc))
  rw [State.core_modCore, State.modCore_mem]
  simp [hg, hpc, hst, hsb, hmem]

/-- Settles O11: atomics and line operations by the request they send, the rest by what programs do not see. -/
theorem atomicAndLineOperationResults : Obligations.AtomicAndLineOperationResults :=
  ⟨atomicsGoHome, lineOperationsGoHome, prefetchAndL1i⟩

end Sys2Proof.Machine
end

