-- ==== Sys2Proof/Proofs/WordLayout.lean ====
section
namespace Sys2Proof.Machine

/-! Fields of a word as digits of its number (Table ISA-6). -/

theorem field_toNat (w : Word32) (lo n : Nat) : field w lo n = w.toNat / 2 ^ lo % 2 ^ n := by
  rw [field, BitVec.extractLsb'_toNat, Nat.shiftRight_eq_div_pow]

theorem regAt_toNat (w : Word32) (lo : Nat) : (regAt w lo).toNat = field w lo 5 := rfl

theorem field_low_split (w : Word32) (lo n m : Nat) :
    field w lo (n + m) = field w (lo + n) m * 2 ^ n + field w lo n := by
  rw [field_toNat, field_toNat, field_toNat, Nat.pow_add, Nat.mod_mul, Nat.pow_add, Nat.div_div_eq_div_mul,
    Nat.mul_comm, Nat.add_comm]

/-- `w` has operation `op`, register fields `r1` and `r2`, and the number `low` in its low half. -/
def Laid (w : Word32) (op : Nat) (r1 r2 : Reg) (low : Nat) : Prop :=
  w.toNat = ((op * 32 + r1.toNat) * 32 + r2.toNat) * 2 ^ 16 + low ∧ low < 2 ^ 16

namespace Laid
variable {w v : Word32} {op low : Nat} {r1 r2 : Reg}

theorem of_fields (hop : field w 26 6 = op) (h1 : regAt w 21 = r1) (h2 : regAt w 16 = r2)
    (hlow : field w 0 16 = low) : Laid w op r1 r2 low := by
  subst hop h1 h2 hlow
  have hw := w.isLt
  simp only [Laid, regAt_toNat, field_toNat]
  omega

theorem unique (hw : Laid w op r1 r2 low) (hv : Laid v op r1 r2 low) : v = w :=
  BitVec.eq_of_toNat_eq (hv.1.trans hw.1.symm)

section
variable (h : Laid w op r1 r2 low)
include h

theorem op_eq : field w 26 6 = op := by
  obtain ⟨h, hlow⟩ := h
  have hw := w.isLt
  have h1 := r1.isLt
  have h2 := r2.isLt
  rw [field_toNat]
  omega

theorem field_r1 : field w 21 5 = r1.toNat := by
  obtain ⟨h, hlow⟩ := h
  have h1 := r1.isLt
  have h2 := r2.isLt
  rw [field_toNat]
  omega

theorem field_r2 : field w 16 5 = r2.toNat := by
  obtain ⟨h, hlow⟩ := h
  have h2 := r2.isLt
  rw [field_toNat]
  omega

theorem reg1 : regAt w 21 = r1 := BitVec.eq_of_toNat_eq h.field_r1

theorem reg2 : regAt w 16 = r2 := BitVec.eq_of_toNat_eq h.field_r2

theorem field_low {lo n : Nat} (hn : lo + n ≤ 16) : field w lo n = low / 2 ^ lo % 2 ^ n := by
  obtain ⟨h, -⟩ := h
  have hpow : (2 : Nat) ^ 16 = 2 ^ lo * (2 ^ n * 2 ^ (16 - lo - n)) := by
    rw [← Nat.pow_add, ← Nat.pow_add]
    congr 1
    omega
  rw [field_toNat, h, hpow, Nat.add_comm, Nat.mul_left_comm, Nat.add_mul_div_left _ _ (Nat.two_pow_pos lo),
    Nat.mul_left_comm, Nat.add_mul_mod_self_left]

theorem reg3 : regAt w 11 = BitVec.ofNat 5 (low / 2 ^ 11) := by
  apply BitVec.eq_of_toNat_eq
  rw [regAt_toNat, h.field_low (by decide), BitVec.toNat_ofNat]

theorem extract {lo n : Nat} (hn : lo + n ≤ 16) : w.extractLsb' lo n = BitVec.ofNat n (low / 2 ^ lo) := by
  apply BitVec.eq_of_toNat_eq
  rw [BitVec.toNat_ofNat, ← h.field_low hn, field]

end

end Laid

/-! The words of each format. -/

section
variable (op : BitVec 6) (r1 r2 r3 : Reg)

theorem toNat_append_add {m n : Nat} (x : BitVec m) (y : BitVec n) : (x ++ y).toNat = x.toNat * 2 ^ n + y.toNat := by
  rw [BitVec.toNat_append, ← Nat.shiftLeft_add_eq_or_of_lt y.isLt, Nat.shiftLeft_eq]

theorem laid_encR (fn : BitVec 11) :
    Laid (encR op r1 r2 r3 fn) op.toNat r1 r2 (r3.toNat * 2 ^ 11 + fn.toNat) := by
  have h3 := r3.isLt
  have hfn := fn.isLt
  refine ⟨?_, by omega⟩
  simp only [encR, toNat_append_add]
  omega

theorem laid_encI (imm : BitVec 16) : Laid (encI op r1 r2 imm) op.toNat r1 r2 imm.toNat := by
  refine ⟨?_, imm.isLt⟩
  simp only [encI, toNat_append_add]
  rfl

theorem laid_encShift (kind : BitVec 10) (n : BitVec 6) :
    Laid (encShift r1 r2 kind n) 0x09 r1 r2 (kind.toNat * 2 ^ 6 + n.toNat) := by
  have hk := kind.isLt
  have hn := n.isLt
  refine ⟨?_, by omega⟩
  simp only [encShift, toNat_append_add, BitVec.reduceToNat]
  omega

/-- The number of a mask in bits [10:7] of a word of format V. -/
def maskCode (m : Option PReg) : Nat := b2n m.isSome * 2 ^ 3 + m.elim 0 (·.toNat)

theorem maskCode_lt (m : Option PReg) : maskCode m < 2 ^ 4 := by
  cases m with
  | none => decide
  | some p =>
    have hp := p.isLt
    simp only [maskCode, Option.isSome_some, b2n, if_true, Option.elim_some]
    omega

theorem laid_encV {op vfn : Nat} (hop : op < 64) (hvfn : vfn < 32) (m : Option PReg) (et : BitVec 2) :
    Laid (encV op r1 r2 r3 m et vfn) op r1 r2
      (((r3.toNat * 2 ^ 4 + maskCode m) * 2 ^ 2 + et.toNat) * 2 ^ 5 + vfn) := by
  have h1 := r1.isLt
  have h2 := r2.isLt
  have h3 := r3.isLt
  have hm := maskCode_lt m
  have het := et.isLt
  refine ⟨?_, by omega⟩
  rw [encV, BitVec.toNat_ofNat]
  simp only [maskCode] at hm ⊢
  omega

theorem laid_encY {sop arg : Nat} (hsop : sop < 16) (harg : arg < 2 ^ 12) :
    Laid (encY r1 r2 sop arg) 0x38 r1 r2 (sop * 2 ^ 12 + arg) := by
  have h1 := r1.isLt
  have h2 := r2.isLt
  refine ⟨?_, by omega⟩
  rw [encY, BitVec.toNat_ofNat]
  omega

end

/-! Formats R and I: what the decoder reads of a word, and the word from what it reads. -/

section
variable (op : BitVec 6) (r1 r2 r3 : Reg) (fn : BitVec 11) (imm : BitVec 16)

@[simp] theorem op_encR : field (encR op r1 r2 r3 fn) 26 6 = op.toNat := (laid_encR ..).op_eq
@[simp] theorem reg1_encR : regAt (encR op r1 r2 r3 fn) 21 = r1 := (laid_encR ..).reg1
@[simp] theorem reg2_encR : regAt (encR op r1 r2 r3 fn) 16 = r2 := (laid_encR ..).reg2
@[simp] theorem reg3_encR : regAt (encR op r1 r2 r3 fn) 11 = r3 := by
  have hfn := fn.isLt
  rw [(laid_encR ..).reg3, show (r3.toNat * 2 ^ 11 + fn.toNat) / 2 ^ 11 = r3.toNat by omega, BitVec.ofNat_toNat,
    BitVec.setWidth_eq]
@[simp] theorem fn_encR : field (encR op r1 r2 r3 fn) 0 11 = fn.toNat := by
  have hfn := fn.isLt
  rw [(laid_encR ..).field_low (by decide)]
  omega

@[simp] theorem op_encI : field (encI op r1 r2 imm) 26 6 = op.toNat := (laid_encI ..).op_eq
@[simp] theorem reg1_encI : regAt (encI op r1 r2 imm) 21 = r1 := (laid_encI ..).reg1
@[simp] theorem reg2_encI : regAt (encI op r1 r2 imm) 16 = r2 := (laid_encI ..).reg2
@[simp] theorem field_reg2_encI : field (encI op r1 r2 imm) 16 5 = r2.toNat := (laid_encI ..).field_r2
@[simp] theorem imm_encI : (encI op r1 r2 imm).extractLsb' 0 16 = imm := by
  rw [(laid_encI ..).extract (by decide), Nat.pow_zero, Nat.div_one, BitVec.ofNat_toNat, BitVec.setWidth_eq]

end

section
variable {w : Word32} {op : BitVec 6} {r1 r2 r3 : Reg}

theorem encR_eq {fn : BitVec 11} (hop : field w 26 6 = op.toNat) (h1 : regAt w 21 = r1) (h2 : regAt w 16 = r2)
    (h3 : regAt w 11 = r3) (hfn : field w 0 11 = fn.toNat) : encR op r1 r2 r3 fn = w := by
  refine (Laid.of_fields hop h1 h2 ?_).unique (laid_encR ..)
  rw [field_low_split w 0 11 5, hfn, ← h3]
  rfl

theorem encI_eq {imm : BitVec 16} (hop : field w 26 6 = op.toNat) (h1 : regAt w 21 = r1) (h2 : regAt w 16 = r2)
    (himm : w.extractLsb' 0 16 = imm) : encI op r1 r2 imm = w :=
  (Laid.of_fields hop h1 h2 (congrArg BitVec.toNat himm)).unique (laid_encI ..)

end

/-! Shifts by an immediate and format J. -/

section
variable (op : BitVec 6) (r1 r2 : Reg) (kind : BitVec 10) (n : BitVec 6) (off : BitVec 26)

@[simp] theorem op_encShift : field (encShift r1 r2 kind n) 26 6 = 0x09 := (laid_encShift ..).op_eq
@[simp] theorem reg1_encShift : regAt (encShift r1 r2 kind n) 21 = r1 := (laid_encShift ..).reg1
@[simp] theorem reg2_encShift : regAt (encShift r1 r2 kind n) 16 = r2 := (laid_encShift ..).reg2
@[simp] theorem kind_encShift : field (encShift r1 r2 kind n) 6 10 = kind.toNat := by
  have hk := kind.isLt
  have hn := n.isLt
  rw [(laid_encShift ..).field_low (by decide)]
  omega
@[simp] theorem amount_encShift : (encShift r1 r2 kind n).extractLsb' 0 6 = n := by
  have hn := n.isLt
  apply BitVec.eq_of_toNat_eq
  rw [(laid_encShift ..).extract (by decide), BitVec.toNat_ofNat]
  omega

@[simp] theorem op_encJ : field (encJ op off) 26 6 = op.toNat := by
  have hop := op.isLt
  have hoff := off.isLt
  rw [field_toNat, encJ, toNat_append_add]
  omega
@[simp] theorem off_encJ : (encJ op off).extractLsb' 0 26 = off := BitVec.extractLsb'_append_eq_right

end

section
variable {w : Word32} {op : BitVec 6} {r1 r2 : Reg}

theorem encShift_eq {kind : BitVec 10} {n : BitVec 6} (hop : field w 26 6 = 0x09) (h1 : regAt w 21 = r1)
    (h2 : regAt w 16 = r2) (hkind : field w 6 10 = kind.toNat) (hn : w.extractLsb' 0 6 = n) :
    encShift r1 r2 kind n = w := by
  refine (Laid.of_fields hop h1 h2 ?_).unique (laid_encShift ..)
  rw [field_low_split w 0 6 10, ← hn, Nat.zero_add, hkind]
  rfl

theorem encJ_eq {off : BitVec 26} (hop : field w 26 6 = op.toNat) (hoff : w.extractLsb' 0 26 = off) :
    encJ op off = w := by
  have hlow := field_low_split w 0 26 6
  rw [field, BitVec.extractLsb'_eq_self, Nat.zero_add, hop, field, hoff] at hlow
  exact BitVec.eq_of_toNat_eq ((toNat_append_add op off).trans hlow.symm)

end

/-! Format V: masks and predicate registers. -/

@[simp] theorem asReg_toNat (p : PReg) : (asReg p).toNat = p.toNat := by
  have hp := p.isLt
  rw [asReg, BitVec.toNat_setWidth]
  omega

@[simp] theorem asReg_lt (p : PReg) : asReg p < 8#5 := by
  rw [BitVec.lt_def, asReg_toNat]
  exact p.isLt

theorem predAt_toNat (w : Word32) (lo : Nat) : (predAt w lo).toNat = (regAt w lo).toNat % 8 := by
  have h : (predAt w lo).toNat = field w lo 3 := rfl
  rw [h, regAt_toNat, field_toNat, field_toNat]
  omega

theorem predAt_of_regAt {w : Word32} {lo : Nat} {p : PReg} (h : regAt w lo = asReg p) : predAt w lo = p := by
  apply BitVec.eq_of_toNat_eq
  rw [predAt_toNat, h, asReg_toNat, Nat.mod_eq_of_lt p.isLt]

theorem asReg_predAt {w : Word32} {lo : Nat} (h : regAt w lo < 8) : asReg (predAt w lo) = regAt w lo := by
  apply BitVec.eq_of_toNat_eq
  rw [asReg_toNat, predAt_toNat]
  exact Nat.mod_eq_of_lt h

theorem regAt_lt_of_field {w : Word32} (h : field w 24 2 = 0) : regAt w 21 < 8 := by
  rw [BitVec.lt_def, regAt_toNat, field_low_split w 21 3 2, h]
  exact (Nat.zero_mul _).symm ▸ (Nat.zero_add _).symm ▸ field_lt w 21 3

/-- M and pm of a word whose mask the decoder accepts. -/
theorem field_mask {w : Word32} (h : maskOk w = true) : field w 7 4 = maskCode (maskAt w) := by
  rw [field_low_split w 7 3 1, field_one]
  cases hb : bit w 10 with
  | true =>
    rw [maskAt, if_pos hb]
    rfl
  | false =>
    have hpm : field w 7 3 = 0 := by simpa [maskOk, hb] using h
    rw [maskAt, if_neg (by simp [hb]), hpm]
    rfl

theorem field_noMask {w : Word32} (h : noMask w = true) : field w 7 4 = maskCode none := by
  simpa [noMask, maskCode, b2n] using h

section
variable (r1 r2 r3 : Reg) (m : Option PReg) (et : BitVec 2) {op vfn : Nat}

@[simp] theorem op_encV (hop : op < 64) (hvfn : vfn < 32) : field (encV op r1 r2 r3 m et vfn) 26 6 = op :=
  (laid_encV r1 r2 r3 hop hvfn m et).op_eq
@[simp] theorem reg1_encV (hop : op < 64) (hvfn : vfn < 32) : regAt (encV op r1 r2 r3 m et vfn) 21 = r1 :=
  (laid_encV r1 r2 r3 hop hvfn m et).reg1
@[simp] theorem reg2_encV (hop : op < 64) (hvfn : vfn < 32) : regAt (encV op r1 r2 r3 m et vfn) 16 = r2 :=
  (laid_encV r1 r2 r3 hop hvfn m et).reg2
@[simp] theorem reg3_encV (hop : op < 64) (hvfn : vfn < 32) : regAt (encV op r1 r2 r3 m et vfn) 11 = r3 := by
  have hm := maskCode_lt m
  have het := et.isLt
  have h3 := r3.isLt
  apply BitVec.eq_of_toNat_eq
  rw [(laid_encV r1 r2 r3 hop hvfn m et).reg3, BitVec.toNat_ofNat]
  omega
@[simp] theorem vfn_encV (hop : op < 64) (hvfn : vfn < 32) : field (encV op r1 r2 r3 m et vfn) 0 5 = vfn := by
  rw [(laid_encV r1 r2 r3 hop hvfn m et).field_low (by decide)]
  omega
@[simp] theorem et_encV (hop : op < 64) (hvfn : vfn < 32) : (encV op r1 r2 r3 m et vfn).extractLsb' 5 2 = et := by
  have het := et.isLt
  apply BitVec.eq_of_toNat_eq
  rw [(laid_encV r1 r2 r3 hop hvfn m et).extract (by decide), BitVec.toNat_ofNat]
  omega
theorem field_mask_encV (hop : op < 64) (hvfn : vfn < 32) :
    field (encV op r1 r2 r3 m et vfn) 7 4 = maskCode m := by
  have hm := maskCode_lt m
  have het := et.isLt
  rw [(laid_encV r1 r2 r3 hop hvfn m et).field_low (by decide)]
  omega
theorem bit_mask_encV (hop : op < 64) (hvfn : vfn < 32) : bit (encV op r1 r2 r3 m et vfn) 10 = m.isSome := by
  have h := field_mask_encV r1 r2 r3 m et hop hvfn
  have hpm := field_lt (encV op r1 r2 r3 m et vfn) 7 3
  rw [field_low_split _ 7 3 1, field_one] at h
  cases m with
  | none =>
    cases hb : bit (encV op r1 r2 r3 none et vfn) 10 with
    | true => simp [hb, maskCode, b2n] at h
    | false => rfl
  | some p =>
    cases hb : bit (encV op r1 r2 r3 (some p) et vfn) 10 with
    | true => rfl
    | false =>
      simp only [hb, maskCode, b2n, Option.isSome_some, Bool.false_eq_true, if_false, if_true, Option.elim_some] at h
      omega

theorem predAt_mask_encV (p : PReg) (hop : op < 64) (hvfn : vfn < 32) :
    predAt (encV op r1 r2 r3 (some p) et vfn) 7 = p := by
  have h := field_mask_encV r1 r2 r3 (some p) et hop hvfn
  rw [field_low_split _ 7 3 1, field_one, bit_mask_encV _ _ _ _ _ hop hvfn, maskCode] at h
  exact BitVec.eq_of_toNat_eq (Nat.add_left_cancel h)

@[simp] theorem maskAt_encV (hop : op < 64) (hvfn : vfn < 32) : maskAt (encV op r1 r2 r3 m et vfn) = m := by
  rw [maskAt, bit_mask_encV _ _ _ _ _ hop hvfn]
  cases m with
  | none => rfl
  | some p => exact (if_pos rfl).trans (congrArg some (predAt_mask_encV r1 r2 r3 et p hop hvfn))

@[simp] theorem maskOk_encV (hop : op < 64) (hvfn : vfn < 32) : maskOk (encV op r1 r2 r3 m et vfn) = true := by
  cases m with
  | some p => simp [maskOk, bit_mask_encV r1 r2 r3 (some p) et hop hvfn]
  | none =>
    have h := field_mask_encV r1 r2 r3 none et hop hvfn
    rw [field_low_split _ 7 3 1] at h
    simp [maskOk, (Nat.eq_zero_of_add_eq_zero h).2]

@[simp] theorem noMask_encV (hop : op < 64) (hvfn : vfn < 32) : noMask (encV op r1 r2 r3 none et vfn) = true := by
  simp [noMask, field_mask_encV r1 r2 r3 none et hop hvfn, maskCode, b2n]

end

section
variable (p : PReg) (r1 r2 r3 : Reg) (m : Option PReg) (et : BitVec 2) {op vfn : Nat}

@[simp] theorem pred1_encV (hop : op < 64) (hvfn : vfn < 32) : predAt (encV op (asReg p) r2 r3 m et vfn) 21 = p :=
  predAt_of_regAt (reg1_encV _ _ _ _ _ hop hvfn)
@[simp] theorem pred2_encV (hop : op < 64) (hvfn : vfn < 32) : predAt (encV op r1 (asReg p) r3 m et vfn) 16 = p :=
  predAt_of_regAt (reg2_encV _ _ _ _ _ hop hvfn)
@[simp] theorem pred3_encV (hop : op < 64) (hvfn : vfn < 32) : predAt (encV op r1 r2 (asReg p) m et vfn) 11 = p :=
  predAt_of_regAt (reg3_encV _ _ _ _ _ hop hvfn)
@[simp] theorem field_pred_encV (hop : op < 64) (hvfn : vfn < 32) :
    field (encV op (asReg p) r2 r3 m et vfn) 24 2 = 0 := by
  have hp := p.isLt
  have h := (laid_encV (asReg p) r2 r3 hop hvfn m et).field_r1
  rw [field_low_split _ 21 3 2, asReg_toNat] at h
  simp only [Nat.reduceAdd] at h
  omega

end

theorem encV_eq {w : Word32} {op vfn : Nat} {r1 r2 r3 : Reg} {m : Option PReg} {et : BitVec 2}
    (hop : field w 26 6 = op) (hvfn : field w 0 5 = vfn) (h1 : regAt w 21 = r1) (h2 : regAt w 16 = r2)
    (h3 : regAt w 11 = r3) (hm : field w 7 4 = maskCode m) (het : w.extractLsb' 5 2 = et) :
    encV op r1 r2 r3 m et vfn = w := by
  have hop64 : op < 64 := hop ▸ field_lt w 26 6
  have hvfn32 : vfn < 32 := hvfn ▸ field_lt w 0 5
  refine (Laid.of_fields hop h1 h2 ?_).unique (laid_encV r1 r2 r3 hop64 hvfn32 m et)
  rw [field_low_split w 0 5 11, field_low_split w (0 + 5) 2 9, field_low_split w (0 + 5 + 2) 4 5, hvfn, ← h3, ← het]
  simp only [Nat.zero_add, Nat.reduceAdd, hm]
  rfl

/-! Format Y. -/

section
variable (r1 r2 : Reg) {sop arg : Nat}

@[simp] theorem op_encY (hsop : sop < 16) (harg : arg < 2 ^ 12) : field (encY r1 r2 sop arg) 26 6 = 0x38 :=
  (laid_encY r1 r2 hsop harg).op_eq
@[simp] theorem reg1_encY (hsop : sop < 16) (harg : arg < 2 ^ 12) : regAt (encY r1 r2 sop arg) 21 = r1 :=
  (laid_encY r1 r2 hsop harg).reg1
@[simp] theorem reg2_encY (hsop : sop < 16) (harg : arg < 2 ^ 12) : regAt (encY r1 r2 sop arg) 16 = r2 :=
  (laid_encY r1 r2 hsop harg).reg2
@[simp] theorem sop_encY (hsop : sop < 16) (harg : arg < 2 ^ 12) : field (encY r1 r2 sop arg) 12 4 = sop := by
  rw [(laid_encY r1 r2 hsop harg).field_low (by decide)]
  omega
@[simp] theorem arg_encY (hsop : sop < 16) (harg : arg < 2 ^ 12) : field (encY r1 r2 sop arg) 0 12 = arg := by
  rw [(laid_encY r1 r2 hsop harg).field_low (by decide)]
  omega
theorem crNumber_encY (hsop : sop < 16) (n : BitVec 12) : (encY r1 r2 sop n.toNat).extractLsb' 0 12 = n :=
  BitVec.eq_of_toNat_eq (arg_encY r1 r2 hsop n.isLt)

variable {kind : Nat} (nn : BitVec 8)

theorem callKind_encY (hsop : sop < 16) (hkind : kind < 16) :
    field (encY r1 r2 sop (kind * 256 + nn.toNat)) 8 4 = kind := by
  have hnn := nn.isLt
  rw [(laid_encY r1 r2 hsop (by omega)).field_low (by decide)]
  omega
theorem callNumber_encY (hsop : sop < 16) (hkind : kind < 16) :
    (encY r1 r2 sop (kind * 256 + nn.toNat)).extractLsb' 0 8 = nn := by
  have hnn := nn.isLt
  apply BitVec.eq_of_toNat_eq
  rw [(laid_encY r1 r2 hsop (by omega)).extract (by decide), BitVec.toNat_ofNat]
  omega

end

theorem encY_eq {w : Word32} {sop arg : Nat} {r1 r2 : Reg} (hop : field w 26 6 = 0x38) (hsop : field w 12 4 = sop)
    (harg : field w 0 12 = arg) (h1 : regAt w 21 = r1) (h2 : regAt w 16 = r2) : encY r1 r2 sop arg = w := by
  have hsop16 : sop < 16 := hsop ▸ field_lt w 12 4
  have harg12 : arg < 2 ^ 12 := harg ▸ field_lt w 0 12
  refine (Laid.of_fields hop h1 h2 ?_).unique (laid_encY r1 r2 hsop16 harg12)
  rw [field_low_split w 0 12 4, harg, Nat.zero_add, hsop]

end Sys2Proof.Machine
end

