-- ==== Sys2Proof/Proofs/Encodings.lean ====
section
namespace Sys2Proof.Machine

open Sys2Proof.Claims

/-! From a word to its instruction and back (R91): each decoder answers only what encodes to the word. -/

section
variable {lc : LC} {w : Word32} {i j : Instr}

theorem wordOf_of_aluOf (h : aluOf lc w = some i) : wordOf i = some w := by
  unfold aluOf at h
  extract_lets rd ra rb at h
  split at h
  case h_20 | h_21 | h_22 =>
    obtain ⟨hrb, hi⟩ := Option.ite_none_right_eq_some.1 h
    cases hi
    exact congrArg some (encR_eq (by assumption) rfl rfl hrb (by assumption))
  case h_35 => cases h
  all_goals
    cases h
    exact congrArg some (encR_eq (by assumption) rfl rfl rfl (by assumption))

theorem wordOf_of_wordOpOf (h : wordOpOf lc w = some i) : wordOf i = some w := by
  unfold wordOpOf at h
  extract_lets r1 r2 r3 imm off at h
  split at h
  case h_7 =>
    split at h
    case h_4 => cases h
    all_goals
      cases h
      exact congrArg some (encShift_eq (by assumption) rfl rfl (by assumption) rfl)
  case h_8 =>
    split at h
    case h_4 => cases h
    all_goals
      rename_i hr2
      cases h
      exact congrArg some (encI_eq (by assumption) rfl (BitVec.eq_of_toNat_eq hr2) rfl)
  case h_20 =>
    split at h
    case h_8 => cases h
    all_goals
      cases h
      exact congrArg some (encR_eq (by assumption) rfl rfl rfl (by assumption))
  case h_27 | h_28 =>
    cases h
    exact congrArg some (encJ_eq (by assumption) rfl)
  case h_32 => cases h
  all_goals
    cases h
    exact congrArg some (encI_eq (by assumption) rfl rfl rfl)

/-- A guarded answer was given under its guard. -/
theorem of_guarded {b : Bool} (h : (if b then some j else none) = some i) : b = true ∧ j = i := by simpa using h

theorem wordOf_of_vectorOf (hop : field w 26 6 = 0x30) (h : vectorOf lc w = some i) : wordOf i = some w := by
  unfold vectorOf at h
  extract_lets vd va vb pd m et only toP at h
  split at h
  case h_3 | h_4 | h_5 =>
    obtain ⟨hb, rfl⟩ := of_guarded h
    simp only [Bool.and_eq_true, decide_eq_true_eq] at hb
    obtain ⟨hm, het⟩ := hb
    exact congrArg some (encV_eq hop (by assumption) rfl rfl rfl (field_noMask hm) het)
  case h_11 | h_12 =>
    obtain ⟨hb, rfl⟩ := of_guarded h
    simp only [Bool.and_eq_true, decide_eq_true_eq] at hb
    obtain ⟨hm, hpd⟩ := hb
    exact congrArg some (encV_eq hop (by assumption) (asReg_predAt (regAt_lt_of_field hpd)).symm rfl rfl
      (field_mask hm) rfl)
  case h_21 | h_22 =>
    obtain ⟨hb, rfl⟩ := of_guarded h
    simp only [Bool.and_eq_true, decide_eq_true_eq] at hb
    obtain ⟨⟨hm, -⟩, hpd⟩ := hb
    exact congrArg some (encV_eq hop (by assumption) (asReg_predAt (regAt_lt_of_field hpd)).symm rfl rfl
      (field_mask hm) rfl)
  case h_18 | h_23 =>
    obtain ⟨hb, rfl⟩ := of_guarded h
    simp only [Bool.and_eq_true, decide_eq_true_eq] at hb
    obtain ⟨⟨hm, -⟩, hvb⟩ := hb
    exact congrArg some (encV_eq hop (by assumption) rfl rfl hvb (field_mask hm) rfl)
  case h_24 =>
    obtain ⟨hb, hsel⟩ := Option.ite_none_right_eq_some.1 h
    simp only [Bool.and_eq_true, decide_eq_true_eq] at hb
    obtain ⟨hm, het⟩ := hb
    split at hsel
    case h_7 => cases hsel
    all_goals
      rename_i hvb
      cases hsel
      exact congrArg some (encV_eq hop (by assumption) rfl rfl (BitVec.eq_of_toNat_eq hvb) (field_noMask hm) het)
  case h_25 | h_26 | h_27 =>
    obtain ⟨hb, rfl⟩ := of_guarded h
    simp only [Bool.and_eq_true, decide_eq_true_eq] at hb
    obtain ⟨hm, het⟩ := hb
    exact congrArg some (encV_eq hop (by assumption) rfl rfl rfl (field_mask hm) het)
  case h_28 => cases h
  case h_1 | h_2 | h_6 | h_7 | h_8 | h_9 | h_10 =>
    obtain ⟨hm, rfl⟩ := of_guarded h
    exact congrArg some (encV_eq hop (by assumption) rfl rfl rfl (field_mask hm) rfl)
  all_goals
    obtain ⟨hb, rfl⟩ := of_guarded h
    have hm := (Bool.and_eq_true_iff.1 hb).1
    exact congrArg some (encV_eq hop (by assumption) rfl rfl rfl (field_mask hm) rfl)

theorem wordOf_of_moveOf (hop : field w 26 6 = 0x33) (h : moveOf lc w = some i) : wordOf i = some w := by
  unfold moveOf at h
  extract_lets r1 r2 r3 et p1 p2 p3 only at h
  have of_only {b : Bool} {j : Instr} (h : only b j = some i) : field w 7 4 = maskCode none ∧ b = true ∧ j = i := by
    obtain ⟨hb, hj⟩ := of_guarded h
    obtain ⟨hb, hm⟩ := Bool.and_eq_true_iff.1 hb
    exact ⟨field_noMask hm, hb, hj⟩
  split at h
  case h_10 => cases h
  all_goals
    obtain ⟨hm, hb, rfl⟩ := of_only h
    simp only [Bool.and_eq_true, decide_eq_true_eq] at hb
  case h_1 | h_2 =>
    obtain ⟨het, h3⟩ := hb
    exact congrArg some (encV_eq hop (by assumption) rfl rfl (asReg_predAt h3).symm hm het)
  case h_3 => exact congrArg some (encV_eq hop (by assumption) rfl rfl hb hm rfl)
  case h_4 | h_5 | h_6 =>
    obtain ⟨⟨⟨het, h1⟩, h2⟩, h3⟩ := hb
    exact congrArg some (encV_eq hop (by assumption) (asReg_predAt h1).symm (asReg_predAt h2).symm
      (asReg_predAt h3).symm hm het)
  case h_7 =>
    obtain ⟨⟨⟨het, h1⟩, h2⟩, h3⟩ := hb
    exact congrArg some (encV_eq hop (by assumption) (asReg_predAt h1).symm (asReg_predAt h2).symm h3 hm het)
  case h_8 =>
    obtain ⟨⟨het, h1⟩, h3⟩ := hb
    exact congrArg some (encV_eq hop (by assumption) (asReg_predAt h1).symm rfl h3 hm het)
  case h_9 =>
    obtain ⟨⟨het, h2⟩, h3⟩ := hb
    exact congrArg some (encV_eq hop (by assumption) rfl (asReg_predAt h2).symm h3 hm het)

theorem wordOf_of_tlbOf (hop : field w 26 6 = 0x38) (hsop : field w 12 4 = 0x5)
    (h : tlbOf lc (regAt w 21) (regAt w 16) (field w 0 12) = some i) : wordOf i = some w := by
  unfold tlbOf at h
  extract_lets only at h
  split at h
  case h_1 | h_2 =>
    cases h
    exact congrArg some (encY_eq hop hsop (by assumption) rfl rfl)
  case h_13 => cases h
  all_goals
    obtain ⟨hb, rfl⟩ := of_guarded h
    simp only [Bool.and_eq_true, decide_eq_true_eq] at hb
  case h_6 | h_8 | h_10 | h_12 => exact congrArg some (encY_eq hop hsop (by assumption) hb.1 hb.2)
  all_goals exact congrArg some (encY_eq hop hsop (by assumption) hb rfl)

/-- arg12 of a call: the kind above the eight bits of its number. -/
theorem call_arg {kind : Nat} (h : field w 8 4 = kind) : field w 0 12 = kind * 256 + (w.extractLsb' 0 8).toNat := by
  rw [field_low_split w 0 8 4, Nat.zero_add, h]
  rfl

theorem wordOf_of_systemOf (hop : field w 26 6 = 0x38) (h : systemOf lc w = some i) : wordOf i = some w := by
  unfold systemOf at h
  extract_lets r1 r2 arg nn only at h
  split at h
  case h_1 =>
    obtain ⟨hb, rfl⟩ := of_guarded h
    simp only [Bool.and_eq_true, decide_eq_true_eq] at hb
    exact congrArg some (encY_eq hop (by assumption) rfl rfl hb.1)
  case h_2 =>
    obtain ⟨hb, rfl⟩ := of_guarded h
    simp only [Bool.and_eq_true, decide_eq_true_eq] at hb
    exact congrArg some (encY_eq hop (by assumption) rfl hb.1 rfl)
  case h_3 =>
    split at h
    case h_5 => cases h
    all_goals
      rename_i hkind
      obtain ⟨hb, rfl⟩ := of_guarded h
      simp only [Bool.and_eq_true, decide_eq_true_eq] at hb
      exact congrArg some (encY_eq hop (by assumption) (by simp [call_arg hkind, nn]) hb.1 hb.2)
  case h_4 =>
    dsimp only [arg] at h
    split at h
    case h_3 => cases h
    all_goals
      obtain ⟨hb, rfl⟩ := of_guarded h
      simp only [Bool.and_eq_true, decide_eq_true_eq] at hb
      exact congrArg some (encY_eq hop (by assumption) (by assumption) hb.1 hb.2)
  case h_5 =>
    dsimp only [arg] at h
    split at h
    case h_4 => cases h
    all_goals
      obtain ⟨hb, rfl⟩ := of_guarded h
      simp only [Bool.and_eq_true, decide_eq_true_eq] at hb
      exact congrArg some (encY_eq hop (by assumption) (by assumption) hb.1 hb.2)
  case h_6 => exact wordOf_of_tlbOf hop (by assumption) h
  case h_7 =>
    dsimp only [arg] at h
    split at h
    case h_7 => cases h
    all_goals
      obtain ⟨hb, rfl⟩ := of_guarded h
      exact congrArg some (encY_eq hop (by assumption) (by assumption) (of_decide_eq_true hb) rfl)
  case h_8 => cases h

theorem wordOf_of_instrOf (h : instrOf lc w = some i) : wordOf i = some w := by
  unfold instrOf at h
  split at h
  case h_1 | h_2 => exact wordOf_of_aluOf h
  case h_3 => exact wordOf_of_vectorOf (by assumption) h
  case h_4 => exact wordOf_of_moveOf (by assumption) h
  case h_5 => exact wordOf_of_systemOf (by assumption) h
  case h_6 => exact wordOf_of_wordOpOf h

end

/-! From an instruction to its word and back (R89, R90). -/

/-- The calls by the kind in bits [11:8] of arg12 (Table ISA-17). -/
def callOf (lc : LC) (nn : BitVec 8) : Nat → Option Instr
  | 0 => some (.kcall lc nn)
  | 1 => some (.hcall lc nn)
  | 2 => some (.mcall lc nn)
  | 3 => some (.brk lc nn)
  | _ => none

theorem instrOf_call (lc : LC) {kind : Nat} (h : kind < 4) (nn : BitVec 8) :
    instrOf lc (encY 0 0 0x2 (kind * 256 + nn.toNat)) = callOf lc nn kind := by
  have hnn := nn.isLt
  have harg : kind * 256 + nn.toNat < 4096 := by omega
  have hkind : kind < 16 := by omega
  simp [instrOf, systemOf, harg, callKind_encY, callNumber_encY, hkind, callOf] <;> rfl

theorem crLevels_isSome {n : BitVec 12} (h : ∃ f ∈ crForms, f.n = n.toNat) : (crLevels n.toNat).isSome = true := by
  obtain ⟨f, hf, hn⟩ := h
  rw [← hn, crForm_levels f hf]
  rfl

theorem instrOf_wordOf (i : Instr) (w : Word32) (h : wordOf i = some w) (he : Encodable i) :
    ∃ lc, instrOf lc w = some i := by
  cases i
  case add | sub | and | or | xor | sll | srl | sra | slt | sltu | min | max | minu | maxu | addw | subw | sllw | srlw
      | sraw | clz | ctz | popc | mul | mulh | mulhu | mulw | div | divu | rem | remu | divw | divuw | remw | remuw =>
    obtain rfl := Option.some.inj h
    simp [instrOf, aluOf]
  case addi | andi | ori | xori | slti | sltiu | slli | srli | srai | kset | ksetu | kapp | lb | lh | lw | ld | lbu
      | lhu | lwu | sb | sh | sw | sd | aadd | aswp | acas | amin | amax | aminu | amaxu | beq | bne | blt | bge | bltu | bgeu
      | j | jal | jalr | vld | vst =>
    obtain rfl := Option.some.inj h
    simp [instrOf, wordOpOf]
  case vadd | vsub | vand | vor | vxor | vmin | vmax | vsll | vsrl | vsra | vcmpeq | vcmplt | vcvtF32ToF64
      | vcvtF64ToF32 | vcvtF32ToBf16 | vcvtBf16ToF32 | vcvtI32ToF32 | vcvtF32ToI32 | vdot2Bf16 | vdot4I8 | vdot4U8s8 =>
    obtain rfl := Option.some.inj h
    simp [instrOf, vectorOf]
  case vfadd | vfsub | vfmul | vfma | vfdiv | vfsqrt | vfmin | vfmax | vfcmplt | vfcmpeq | vrsum =>
    obtain rfl := Option.some.inj h
    have het : _ ≤ 1#2 := he
    simp [instrOf, vectorOf, het]
  case vmovg | vmovv | vbcast | pand | por | pxor | pnot | pset | pget =>
    obtain rfl := Option.some.inj h
    simp [instrOf, moveOf]
  case crr lc rd n | crw lc n ra =>
    obtain rfl := Option.some.inj h
    simp [instrOf, systemOf, n.isLt, crNumber_encY, crLevels_isSome he]
  case kcall lc nn =>
    obtain rfl := Option.some.inj h
    exact ⟨lc, by simpa [callOf] using instrOf_call lc (kind := 0) (by decide) nn⟩
  case hcall lc nn =>
    obtain rfl := Option.some.inj h
    exact ⟨lc, by simpa [callOf] using instrOf_call lc (kind := 1) (by decide) nn⟩
  case mcall lc nn =>
    obtain rfl := Option.some.inj h
    exact ⟨lc, by simpa [callOf] using instrOf_call lc (kind := 2) (by decide) nn⟩
  case brk lc nn =>
    obtain rfl := Option.some.inj h
    exact ⟨lc, by simpa [callOf] using instrOf_call lc (kind := 3) (by decide) nn⟩
  case tlbl lc rd ra k | tlbu lc ra k =>
    obtain rfl := Option.some.inj h
    cases k <;> simp [instrOf, systemOf, tlbOf, b2n]
  case tlbiVa | tlbiAsid | tlbiPid | tlbiAll | tlbiBVa | tlbiBAsid | tlbiBPid | tlbiBAll =>
    obtain rfl := Option.some.inj h
    simp [instrOf, systemOf, tlbOf]
  case eret | wait | fenceSl | fenceAll | ifence | dclC | dclI | dclCi | dclZ | dpf | iclI =>
    obtain rfl := Option.some.inj h
    simp [instrOf, systemOf]
  all_goals exact absurd h.symm (Option.some_ne_none w)
/-- Settles O54: an instruction by its format's word, a word by the fields that its decoder reads. -/
theorem wordsAndInstructionsAgree : Obligations.WordsAndInstructionsAgree :=
  ⟨instrOf_wordOf, fun _ _ _ => wordOf_of_instrOf⟩

end Sys2Proof.Machine
end

