-- ==== Sys2Proof/Proofs/IntegerInstructions.lean ====
section
namespace Sys2Proof.Machine

open Sys2Proof.Claims

/-! What the integer operations compute, in the words of Tables ISA-8 and ISA-9. -/

theorem ofBool_slt (a b : Word) : ofBool (a.slt b) = if a.toInt < b.toInt then 1 else 0 := by
  simp [ofBool, BitVec.slt_iff_toInt_lt]

theorem ofBool_ult (a b : Word) : ofBool (a.ult b) = if a.toNat < b.toNat then 1 else 0 := by
  simp [ofBool, BitVec.ult_iff_toNat_lt]

theorem minS_eq (a b : Word) : minS a b = if a.toInt < b.toInt then a else b := by
  simp only [minS, BitVec.slt_iff_toInt_lt]

theorem maxS_eq (a b : Word) : maxS a b = if a.toInt < b.toInt then b else a := by
  simp only [maxS, BitVec.slt_iff_toInt_lt]

theorem minU_eq (a b : Word) : minU a b = if a.toNat < b.toNat then a else b := by
  simp only [minU, BitVec.ult_iff_toNat_lt]

theorem maxU_eq (a b : Word) : maxU a b = if a.toNat < b.toNat then b else a := by
  simp only [maxU, BitVec.ult_iff_toNat_lt]

/-- imm16 keeps its signed value when it is extended. -/
theorem ofBool_slt_sextImm (a : Word) (i : BitVec 16) :
    ofBool (a.slt (sextImm i)) = if a.toInt < i.toInt then 1 else 0 := by
  rw [ofBool_slt, sextImm, BitVec.toInt_signExtend_of_le (by decide)]

/-! Counts of bits. -/

theorem leadingZeros_clz (a : Word) : LeadingZeros a (if a = 0 then 64 else 63 - Nat.log2 a.toNat) := by
  by_cases h : a = 0
  · subst h
    simp [LeadingZeros]
  · have hne : a.toNat ≠ 0 := fun e => h (BitVec.eq_of_toNat_eq e)
    have hlog : Nat.log2 a.toNat < 64 := (Nat.log2_lt hne).2 a.isLt
    rw [if_neg h]
    refine ⟨by omega, fun i hi => ?_, fun _ => ?_⟩
    · exact Nat.testBit_lt_two_pow (Nat.lt_log2_self.trans_le (Nat.pow_le_pow_right (by decide) (by omega)))
    · rw [show 63 - (63 - Nat.log2 a.toNat) = Nat.log2 a.toNat by omega]
      exact Nat.testBit_log2 hne

/-- `trailingZeros` counts the zeros below the lowest set bit of the `n` bits that it looks at. -/
theorem trailingZeros_spec (n x : Nat) :
    trailingZeros n x ≤ n ∧ (∀ i < trailingZeros n x, x.testBit i = false) ∧
      (trailingZeros n x < n → x.testBit (trailingZeros n x) = true) := by
  induction n generalizing x with
  | zero => simp [trailingZeros]
  | succ n ih =>
    obtain ⟨hle, hzero, hone⟩ := ih (x / 2)
    unfold trailingZeros
    by_cases hx : x % 2 = 1
    · simp [hx]
    · rw [if_neg hx, Nat.add_comm]
      refine ⟨by omega, fun i hi => ?_, fun h => ?_⟩
      · cases i with
        | zero => simpa using hx
        | succ i => rw [Nat.testBit_succ]; exact hzero i (by omega)
      · rw [Nat.testBit_succ]; exact hone (by omega)

theorem popcount_eq_length (n x : Nat) : popcount n x = ((List.range n).filter x.testBit).length := by
  induction n generalizing x with
  | zero => rfl
  | succ n ih =>
    have hsucc : x.testBit ∘ Nat.succ = (x / 2).testBit := funext fun i => Nat.testBit_succ x i
    rw [popcount, ih, List.range_succ_eq_map, List.filter_cons, List.filter_map, hsucc]
    rcases Nat.mod_two_eq_zero_or_one x with h | h <;> simp [h, Nat.add_comm]

/-! Integer instructions that run (R96). -/

/-- A form of a register-register instruction is the ALU's, with an operation that computes `f`. -/
def AluForm (form : LC → Reg → Reg → Reg → Instr) (f : Word → Word → Word) : Prop :=
  ∃ cost g, (∀ a b, g a b = f a b) ∧ ∀ lc rd ra rb s, exec (form lc rd ra rb) s = s.alu lc rd ra rb cost g

theorem aluForm_integerForms : ∀ e ∈ integerForms, AluForm e.1 e.2 := by
  simp only [integerForms, List.forall_mem_cons, List.not_mem_nil, false_imp_iff, implies_true, and_true]
  refine ⟨?add, ?sub, ?and, ?or, ?xor, ?sll, ?srl, ?sra, ?slt, ?sltu, ?min, ?max, ?minu, ?maxu, ?addw, ?subw,
    ?sllw, ?srlw, ?sraw, ?mul, ?mulh, ?mulhu, ?mulw⟩
  case slt => exact ⟨1, _, ofBool_slt, fun _ _ _ _ _ => rfl⟩
  case sltu => exact ⟨1, _, ofBool_ult, fun _ _ _ _ _ => rfl⟩
  case min => exact ⟨1, _, minS_eq, fun _ _ _ _ _ => rfl⟩
  case max => exact ⟨1, _, maxS_eq, fun _ _ _ _ _ => rfl⟩
  case minu => exact ⟨1, _, minU_eq, fun _ _ _ _ _ => rfl⟩
  case maxu => exact ⟨1, _, maxU_eq, fun _ _ _ _ _ => rfl⟩
  case mul | mulh | mulhu | mulw => exact ⟨3, _, fun _ _ => rfl, fun _ _ _ _ _ => rfl⟩
  all_goals exact ⟨1, _, fun _ _ => rfl, fun _ _ _ _ _ => rfl⟩

section
variable {s u : State} {lc : LC} {rd ra rb : Reg} {k : Asker} {t : Nat}

/-- A scalar instruction with sources `src` completes with what its function gives. -/
theorem scalar_completes {i : Instr} {src : List Reg} {cost : Nat} {f : Core → Word} {x : Word}
    (hi : exec i s = s.scalar lc rd src cost f)
    (h : Runs s lc { reads := src.map gIdx, writes := [gIdx rd] } k t u) (hx : f (u.core lc) = x) :
    Completes i s (ScalarResult lc rd x u) := by
  obtain ⟨w, hw, hres⟩ := scalar_next h cost f
  exact ⟨w, hi.trans hw, hx ▸ hres⟩

theorem alu_completes {form : LC → Reg → Reg → Reg → Instr} {f : Word → Word → Word} (hf : AluForm form f)
    (h : Runs s lc { reads := [gIdx ra, gIdx rb], writes := [gIdx rd] } k t u) :
    Completes (form lc rd ra rb) s (ScalarResult lc rd (f ((u.core lc).getG ra) ((u.core lc).getG rb)) u) := by
  obtain ⟨cost, g, hg, hexec⟩ := hf
  exact scalar_completes (src := [ra, rb]) (hexec lc rd ra rb s) h (hg _ _)

end

theorem integerRegisterResults : IntegerRegisterResults :=
  fun e he _ _ _ _ _ _ _ _ h => alu_completes (aluForm_integerForms e he) h

theorem integerImmediateResults : IntegerImmediateResults := by
  refine ⟨?_, ?_, ?_⟩
  · simp only [immediateForms, List.forall_mem_cons, List.not_mem_nil, false_imp_iff, implies_true, and_true]
    refine ⟨?addi, ?andi, ?ori, ?xori, ?slti, ?sltiu⟩
    case slti => exact fun lc rd ra imm s k t u h => scalar_completes (src := [ra]) rfl h (ofBool_slt_sextImm _ _)
    case sltiu => exact fun lc rd ra imm s k t u h => scalar_completes (src := [ra]) rfl h (ofBool_ult _ _)
    all_goals exact fun lc rd ra imm s k t u h => scalar_completes (src := [ra]) rfl h rfl
  · simp only [shiftForms, List.forall_mem_cons, List.not_mem_nil, false_imp_iff, implies_true, and_true]
    refine ⟨?slli, ?srli, ?srai⟩
    all_goals exact fun lc rd ra n s k t u h => scalar_completes (src := [ra]) rfl h rfl
  · simp only [constantForms, List.forall_mem_cons, List.not_mem_nil, false_imp_iff, implies_true, and_true]
    refine ⟨?kset, ?ksetu, ?kapp⟩
    case kapp => exact fun lc rd imm s k t u h => scalar_completes (src := [rd]) rfl (by simpa using h) rfl
    all_goals exact fun lc rd imm s k t u h => scalar_completes (src := []) rfl (by simpa using h) rfl

theorem integerCountResults : IntegerCountResults := by
  simp only [IntegerCountResults, countForms, List.forall_mem_cons, List.not_mem_nil, false_imp_iff, implies_true,
    and_true]
  refine ⟨?clz, ?ctz, ?popc⟩
  case clz => exact fun lc rd ra s k t u h => ⟨_, leadingZeros_clz _, scalar_completes (src := [ra]) rfl h rfl⟩
  case ctz => exact fun lc rd ra s k t u h => ⟨_, trailingZeros_spec 64 _, scalar_completes (src := [ra]) rfl h rfl⟩
  case popc =>
    exact fun lc rd ra s k t u h => ⟨_, popcount_eq_length 64 _, scalar_completes (src := [ra]) rfl h rfl⟩

/-- Settles O3: each form by what its operation computes. -/
theorem integerResults : Obligations.IntegerResults :=
  ⟨integerRegisterResults, integerImmediateResults, integerCountResults⟩

/-! Divisions (R97). -/

theorem divides_divS {w : Nat} (a b : BitVec w) : Divides true false a b (divS a b) := by
  refine ⟨fun h => by simp [divS, h], nofun, fun h _ ha hb => ?_, fun h _ hover => ?_⟩
  all_goals
    have hdiv : divS a b = a.sdiv b := by
      rw [divS, if_neg h]
      apply BitVec.eq_of_toInt_eq
      rw [BitVec.toInt_ofInt, BitVec.toInt_sdiv]
    rw [hdiv]
  · rw [ha, hb, ← BitVec.neg_one_eq_allOnes, BitVec.intMin_sdiv_neg_one]
    rfl
  · refine BitVec.toInt_sdiv_of_ne_or_ne a b ?_
    rw [BitVec.neg_one_eq_allOnes]
    tauto

theorem divides_remS {w : Nat} (a b : BitVec w) : Divides true true a b (remS a b) := by
  have hrem (h : b ≠ 0) : (remS a b).toInt = a.toInt.tmod b.toInt := by
    rw [remS, if_neg h, ← BitVec.toInt_srem, BitVec.ofInt_toInt]
  refine ⟨fun h => by simp [remS, h], nofun, fun h _ ha hb => ?_, fun h _ _ => hrem h⟩
  apply BitVec.eq_of_toInt_eq
  have hw : 0 < w := Nat.pos_of_ne_zero fun hw => h (by subst hw; exact BitVec.eq_nil b)
  rw [hrem h, hb, BitVec.toInt_allOnes, if_pos hw, Int.tmod_neg, Int.tmod_one, if_pos rfl]
  exact BitVec.toInt_zero.symm

theorem divides_divU {w : Nat} (a b : BitVec w) : Divides false false a b (divU a b) := by
  refine ⟨fun h => by simp [divU, h], fun h _ => ?_, nofun, nofun⟩
  rw [divU, if_neg h, BitVec.toNat_ofNat]
  exact Nat.mod_eq_of_lt ((Nat.div_le_self ..).trans_lt a.isLt)

theorem divides_remU {w : Nat} (a b : BitVec w) : Divides false true a b (remU a b) := by
  refine ⟨fun h => by simp [remU, h], fun h _ => ?_, nofun, nofun⟩
  rw [remU, if_neg h, BitVec.toNat_ofNat]
  exact Nat.mod_eq_of_lt ((Nat.mod_le ..).trans_lt a.isLt)

/-- A division of `w`-bit operands that are the low bits of its registers. -/
theorem division_completes {w : Nat} {sgn rem : Bool} {form : LC → Reg → Reg → Reg → Instr}
    {f : BitVec w → BitVec w → BitVec w} (hf : ∀ a b, Divides sgn rem a b (f a b))
    (hform : AluForm form fun a b => (f (a.truncate w) (b.truncate w)).signExtend 64)
    {lc : LC} {rd ra rb : Reg} {s : State} {k : Asker} {t : Nat} {u : State}
    (h : Runs s lc { reads := [gIdx ra, gIdx rb], writes := [gIdx rd] } k t u) :
    ∃ x : BitVec w, Divides sgn rem (((u.core lc).getG ra).truncate w) (((u.core lc).getG rb).truncate w) x ∧
      Completes (form lc rd ra rb) s (ScalarResult lc rd (x.signExtend 64) u) :=
  ⟨_, hf _ _, alu_completes hform h⟩

/-- At 64 bits nothing is cut off and nothing extended. -/
theorem aluForm_of_width {form : LC → Reg → Reg → Reg → Instr} {cost : Nat} {f : Word → Word → Word}
    (h : ∀ lc rd ra rb s, exec (form lc rd ra rb) s = s.alu lc rd ra rb cost f) :
    AluForm form fun a b => (f (a.truncate 64) (b.truncate 64)).signExtend 64 :=
  ⟨cost, f, fun a b => by simp, h⟩

/-- Settles O4: each form by the operation that it is, at its width. -/
theorem divisionResults : Obligations.DivisionResults := by
  simp only [Obligations.DivisionResults, divisionForms, List.forall_mem_cons, List.not_mem_nil, false_imp_iff,
    implies_true, and_true]
  refine ⟨?div, ?divu, ?rem, ?remu, ?divw, ?divuw, ?remw, ?remuw⟩ <;> intro lc rd ra rb s k t u h
  case div => exact division_completes divides_divS (aluForm_of_width (cost := 20) fun _ _ _ _ _ => rfl) h
  case divu => exact division_completes divides_divU (aluForm_of_width (cost := 20) fun _ _ _ _ _ => rfl) h
  case rem => exact division_completes divides_remS (aluForm_of_width (cost := 20) fun _ _ _ _ _ => rfl) h
  case remu => exact division_completes divides_remU (aluForm_of_width (cost := 20) fun _ _ _ _ _ => rfl) h
  case divw => exact division_completes divides_divS ⟨12, _, fun _ _ => rfl, fun _ _ _ _ _ => rfl⟩ h
  case divuw => exact division_completes divides_divU ⟨12, _, fun _ _ => rfl, fun _ _ _ _ _ => rfl⟩ h
  case remw => exact division_completes divides_remS ⟨12, _, fun _ _ => rfl, fun _ _ _ _ _ => rfl⟩ h
  case remuw => exact division_completes divides_remU ⟨12, _, fun _ _ => rfl, fun _ _ _ _ _ => rfl⟩ h

end Sys2Proof.Machine
end

