-- ==== Sys2Proof/Proofs/Branches.lean ====
section
namespace Sys2Proof.Machine

open Sys2Proof.Claims

/-! Branches and jumps (Table ISA-10). -/

section
variable {s u : State} {lc : LC} {ra rb rd : Reg} {off : BitVec 16} {k : Asker} {t : Nat}

theorem onlyCore_setCore (u : State) (lc : LC) (c : Core) : OnlyCore lc u (u.setCore lc c) :=
  onlyCore_modCore u lc fun _ => c

theorem jumps_branch (u : State) (lc : LC) (pc' : Word) :
    Jumps lc none pc' u (u.setCore lc ((u.core lc).branch pc')) := by
  refine ⟨onlyCore_setCore .., ?_⟩
  rw [State.core_setCore]
  exact ⟨by simp [KeepsSystem], by simp [KeepsV], Core.branch_pc .., Core.getG_congr (Core.branch_g ..)⟩

theorem jumps_retire (u : State) (lc : LC) (pc' : Word) (cost : Nat) :
    Jumps lc none pc' u (u.setCore lc ((u.core lc).retire pc' cost)) := by
  refine ⟨onlyCore_setCore .., ?_⟩
  rw [State.core_setCore]
  exact ⟨by simp [KeepsSystem], by simp [KeepsV], rfl, Core.getG_congr (Core.retire_g ..)⟩

theorem jumps_link (u : State) (lc : LC) (rd : Reg) (x : Word) (t d : Nat) (pc' : Word) :
    Jumps lc (some (rd, x)) pc' u (u.setCore lc (((u.core lc).result rd x t d).branch pc')) := by
  refine ⟨onlyCore_setCore .., ?_⟩
  rw [State.core_setCore]
  generalize u.core lc = c
  refine ⟨by simp [KeepsSystem], by simp [KeepsV], Core.branch_pc .., fun hr => ?_, Core.getG_zero _, fun r hr => ?_⟩
  all_goals rw [Core.getG_congr (Core.branch_g ..), Core.getG_congr (Core.result_g ..)]
  · exact Core.getG_setG_self _ _ _ hr
  · exact Core.getG_setG_of_ne _ _ hr

/-- A conditional branch whose test `p` decides the condition `P` of its table. -/
theorem branchIf_completes {i : Instr} {p : Word → Word → Bool} {P : Word → Word → Prop}
    (hi : exec i s = s.branchIf lc ra rb off p) (hp : ∀ a b, p a b = true ↔ P a b)
    (h : Runs s lc { reads := [gIdx ra, gIdx rb] } k t u) :
    Completes i s fun w =>
      (P ((u.core lc).getG ra) ((u.core lc).getG rb) →
        Jumps lc none ((u.core lc).pc + off.signExtend 64 * 4) u w) ∧
      (¬ P ((u.core lc).getG ra) ((u.core lc).getG rb) → Jumps lc none ((u.core lc).pc + 4) u w) := by
  refine ⟨_, hi.trans (issueCore_next h _), ?_⟩
  rw [← hp, State.modCore]
  cases p ((u.core lc).getG ra) ((u.core lc).getG rb) with
  | true => exact ⟨fun _ => jumps_branch u lc _, fun hn => absurd rfl hn⟩
  | false => exact ⟨nofun, fun _ => jumps_retire u lc _ 1⟩

end

theorem bge_iff (a b : Word) : (!a.slt b) = true ↔ b.toInt ≤ a.toInt := by simp [BitVec.slt_eq_decide]

theorem bgeu_iff (a b : Word) : (!a.ult b) = true ↔ b.toNat ≤ a.toNat := by simp [BitVec.ult_eq_decide]

theorem branchResults : BranchResults := by
  simp only [BranchResults, branchForms, List.forall_mem_cons, List.not_mem_nil, false_imp_iff, implies_true, and_true]
  refine ⟨?beq, ?bne, ?blt, ?bge, ?bltu, ?bgeu⟩ <;> intro lc ra rb off s k t u h
  case beq => exact branchIf_completes (p := fun a b => a == b) rfl (fun _ _ => beq_iff_eq) h
  case bne => exact branchIf_completes (p := fun a b => a != b) rfl (fun _ _ => bne_iff_ne) h
  case blt => exact branchIf_completes (p := fun a b => a.slt b) rfl (fun _ _ => BitVec.slt_iff_toInt_lt) h
  case bge => exact branchIf_completes (p := fun a b => !a.slt b) rfl bge_iff h
  case bltu => exact branchIf_completes (p := fun a b => a.ult b) rfl (fun _ _ => BitVec.ult_iff_toNat_lt) h
  case bgeu => exact branchIf_completes (p := fun a b => !a.ult b) rfl bgeu_iff h

theorem exec_j (lc : LC) (off : BitVec 26) (s : State) :
    exec (.j lc off) s = s.issueCore lc {} fun _ c => c.branch (target c.pc off) := rfl

theorem exec_jal (lc : LC) (off : BitVec 26) (s : State) :
    exec (.jal lc off) s = s.issueCore lc { writes := [gIdx 31] } fun t c =>
      (c.result 31 (c.pc + 4) t 1).branch (target c.pc off) := rfl

theorem exec_jalr (lc : LC) (rd ra : Reg) (imm : BitVec 16) (s : State) :
    exec (.jalr lc rd ra imm) s = s.issueCore lc { reads := [gIdx ra], writes := [gIdx rd] } fun t c =>
      (c.result rd (c.pc + 4) t 1).branch (effAddr c ra imm &&& ~~~3#64) := rfl

theorem jumpResults : JumpResults := by
  refine ⟨fun lc off s k t u h => ?_, fun lc off s k t u h => ?_, fun lc rd ra imm s k t u h => ?_⟩
  · exact ⟨_, (exec_j lc off s).trans (issueCore_next h _), jumps_branch u lc _⟩
  · exact ⟨_, (exec_jal lc off s).trans (issueCore_next h _), jumps_link u lc 31 _ t 1 _⟩
  · exact ⟨_, (exec_jalr lc rd ra imm s).trans (issueCore_next h _), jumps_link u lc rd _ t 1 _⟩

/-- Settles O5: a branch taken or not, a jump with or without a link. -/
theorem branchAndJumpResults : Obligations.BranchAndJumpResults := ⟨branchResults, jumpResults⟩

end Sys2Proof.Machine
end

