-- ==== Sys2Proof/Proofs/VectorElements.lean ====
section
namespace Sys2Proof.Machine

open Sys2Proof.Claims

/-! Elements of a vector register (Table ISA-1). -/

theorem elem_eq_field (e : Nat) (v : Line) (i : Nat) : elem e v i = field v (e * i) e := by
  rw [elem, field, BitVec.extractLsb'_toNat]

theorem elem_lt (e : Nat) (v : Line) (i : Nat) : elem e v i < 2 ^ e := Nat.mod_lt _ (Nat.two_pow_pos e)

theorem packElems_lt (e : Nat) (l : List Nat) : packElems e l < 2 ^ (e * l.length) := by
  induction l with
  | nil => exact Nat.one_pos
  | cons x l ih =>
    have hx : x % 2 ^ e < 2 ^ e := Nat.mod_lt _ (Nat.two_pow_pos e)
    rw [packElems, List.length_cons, Nat.mul_succ, Nat.add_comm (e * l.length), Nat.pow_add]
    calc x % 2 ^ e + 2 ^ e * packElems e l < 2 ^ e * (packElems e l + 1) := by rw [Nat.mul_succ]; omega
      _ ≤ 2 ^ e * 2 ^ (e * l.length) := Nat.mul_le_mul_left _ ih

theorem packElems_digit (e : Nat) (l : List Nat) (i : Nat) (hi : i < l.length) :
    packElems e l / 2 ^ (e * i) % 2 ^ e = l[i] % 2 ^ e := by
  induction l generalizing i with
  | nil => exact absurd hi (Nat.not_lt_zero i)
  | cons x l ih =>
    cases i with
    | zero =>
      rw [packElems, Nat.mul_zero, Nat.pow_zero, Nat.div_one, Nat.add_mul_mod_self_left, Nat.mod_mod]
      rfl
    | succ i =>
      have hx : x % 2 ^ e / 2 ^ e = 0 := Nat.div_eq_of_lt (Nat.mod_lt _ (Nat.two_pow_pos e))
      rw [packElems, Nat.mul_succ, Nat.add_comm (e * i), Nat.pow_add, ← Nat.div_div_eq_div_mul,
        Nat.add_mul_div_left _ _ (Nat.two_pow_pos e), hx, Nat.zero_add, ih i (by simpa using hi)]
      rfl

/-- Element `i` of a register that was packed from elements is the `i`-th of them. -/
theorem elem_packElems {e : Nat} {l : List Nat} (hl : e * l.length ≤ 512) {i : Nat} (hi : i < l.length) :
    elem e (BitVec.ofNat 512 (packElems e l)) i = l[i] % 2 ^ e := by
  have hlt : packElems e l < 2 ^ 512 := (packElems_lt e l).trans_le (Nat.pow_le_pow_right (by decide) hl)
  rw [elem, BitVec.toNat_ofNat, Nat.mod_eq_of_lt hlt, Nat.shiftRight_eq_div_pow, packElems_digit e l i hi]

theorem elem_packElems_range {e : Nat} (f : Nat → Nat) {i : Nat} (hi : i < 512 / e) :
    elem e (BitVec.ofNat 512 (packElems e ((List.range (512 / e)).map f))) i = f i % 2 ^ e := by
  have hlen : ((List.range (512 / e)).map f).length = 512 / e := by simp
  rw [elem_packElems (by rw [hlen]; exact Nat.mul_div_le 512 e) (hlen.symm ▸ hi)]
  simp

/-! Bits of a predicate register (R85). -/

theorem testBit_packBits (l : List Bool) (i : Nat) : (packBits l).testBit i = l.getD i false := by
  induction l generalizing i with
  | nil => simp [packBits]
  | cons b l ih =>
    have hb : packBits (b :: l) = Nat.bit b (packBits l) := by
      rw [packBits, Nat.bit_val, Nat.add_comm]
      cases b <;> rfl
    cases i with
    | zero => rw [hb, Nat.testBit_bit_zero]; rfl
    | succ i => rw [hb, Nat.testBit_bit_succ, ih]; rfl

/-! Flags of several elements (R105). -/

theorem getLsbD_joinFlags (l : List VFlags) (j : Nat) :
    (joinFlags l).getLsbD j = true ↔ ∃ fl ∈ l, fl.getLsbD j = true := by
  induction l with
  | nil => simp [joinFlags]
  | cons fl l ih => simp [joinFlags, ih]

theorem joinFlags_eq_zero {l : List VFlags} (h : ∀ fl ∈ l, fl = 0) : joinFlags l = 0 := by
  induction l with
  | nil => rfl
  | cons fl l ih =>
    rw [joinFlags, h fl (List.mem_cons_self ..), ih fun x hx => h x (List.mem_cons_of_mem _ hx)]
    rfl

/-- What the elements of an operation raise, where an element that is masked out raises nothing. -/
theorem maskedFlags_joinFlags {α : Type} (n : Nat) (mask : Option Word) (f : Nat → α × VFlags) (d : Nat → α) :
    MaskedFlags n mask (joinFlags (((List.range n).map fun i => if active mask i then f i else (d i, 0)).map (·.2)))
      (fun i => (f i).2) := by
  intro j
  rw [getLsbD_joinFlags]
  simp only [List.map_map, List.mem_map, List.mem_range, Function.comp_apply, exists_exists_and_eq_and]
  refine exists_congr fun i => and_congr_right fun _ => ?_
  cases active mask i <;> simp

/-! Operations element by element, and comparisons bit by bit (R104, R105). -/

theorem maskedElements_mapElems (e : Nat) (mask : Option Word) (old : Line) (f : Nat → Nat × VFlags) :
    MaskedElements e mask old (mapElems e mask old f).1 (fun i => (f i).1) := by
  intro i hi
  simp only [mapElems, List.map_map]
  rw [elem_packElems_range _ hi, Function.comp_apply]
  split
  · rfl
  · exact Nat.mod_eq_of_lt (elem_lt ..)

theorem mapElems_flags_zero (e : Nat) (mask : Option Word) (old : Line) (f : Nat → Nat) :
    (mapElems e mask old fun i => (f i, 0)).2 = 0 := by
  refine joinFlags_eq_zero fun fl hfl => ?_
  simp only [List.map_map, List.mem_map, Function.comp_apply] at hfl
  obtain ⟨i, -, rfl⟩ := hfl
  split <;> rfl

theorem maskedBits_mapBits {e : Nat} (he : 512 / e ≤ 64) (mask : Option Word) (f : Nat → Bool × VFlags) :
    MaskedBits e mask ((mapBits e mask f).1.zeroExtend 512) (fun i => (f i).1 = true) := by
  intro i
  have hbit : (mapBits e mask f).1.getLsbD i =
      (decide (i < 64) && decide (i < 512 / e) && (active mask i && (f i).1)) := by
    rw [mapBits, BitVec.getLsbD_ofNat, testBit_packBits]
    by_cases hi : i < 512 / e
    · cases h : active mask i <;> simp [List.getD, hi, h]
    · simp [List.getD, hi]
  rw [BitVec.getLsbD_setWidth, hbit]
  simp only [Bool.and_eq_true, decide_eq_true_eq]
  constructor
  · rintro ⟨-, ⟨-, hi⟩, h⟩
    exact ⟨hi, h⟩
  · rintro ⟨hi, h⟩
    exact ⟨by omega, ⟨by omega, hi⟩, h⟩

theorem maskedFlags_mapBits (e : Nat) (mask : Option Word) (f : Nat → Bool × VFlags) :
    MaskedFlags (512 / e) mask (mapBits e mask f).2 (fun i => (f i).2) :=
  maskedFlags_joinFlags _ mask f fun _ => false

theorem mapBits_flags_zero (e : Nat) (mask : Option Word) (f : Nat → Bool) :
    (mapBits e mask fun i => (f i, 0)).2 = 0 := by
  refine joinFlags_eq_zero fun fl hfl => ?_
  simp only [List.map_map, List.mem_map, Function.comp_apply] at hfl
  obtain ⟨i, -, rfl⟩ := hfl
  split <;> rfl

theorem etBits_elements (et : BitVec 2) : 512 / etBits et ≤ 64 := by
  revert et
  decide

/-! The integer operations of Table ISA-12. -/

/-- The arithmetic shift of an element divides its signed value, rounding down. -/
theorem toNat_sshiftRight_ofNat (e a n : Nat) :
    ((BitVec.ofNat e a).sshiftRight n).toNat = (signed e a / 2 ^ n % 2 ^ e).toNat := by
  rw [← BitVec.ofInt_toInt (x := (BitVec.ofNat e a).sshiftRight n), BitVec.toInt_sshiftRight, BitVec.toNat_ofInt,
    Int.shiftRight_eq_div_pow, signed]
  norm_cast

/-- `f` is what the integer operation `op` makes of two elements, as far as it is written. -/
def IntegerElement (op : VIntOp) (f : Nat → Nat → Nat → Nat) : Prop := ∀ e a b, vintElem op e a b = f e a b

theorem integerElement_sll : IntegerElement .sll fun e a b => a * 2 ^ (b % e) % 2 ^ e :=
  fun e a b => by rw [vintElem, Nat.shiftLeft_eq]

theorem integerElement_srl : IntegerElement .srl fun e a b => a / 2 ^ (b % e) :=
  fun e a b => Nat.shiftRight_eq_div_pow a (b % e)

theorem integerElement_sra : IntegerElement .sra fun e a b => (signed e a / 2 ^ (b % e) % 2 ^ e).toNat :=
  fun e a b => toNat_sshiftRight_ofNat e a (b % e)

theorem maskedElements_vint {op : VIntOp} {f : Nat → Nat → Nat → Nat} (hf : IntegerElement op f) (e : Nat)
    (mask : Option Word) (a b old : Line) :
    MaskedElements e mask old (vint op e mask a b old).1 (fun i => f e (elem e a i) (elem e b i)) := by
  obtain rfl : f = vintElem op := funext fun e => funext fun a => funext fun b => (hf e a b).symm
  exact maskedElements_mapElems e mask old fun i => (vintElem op e (elem e a i) (elem e b i), 0)

theorem vint_flags_zero (op : VIntOp) (e : Nat) (mask : Option Word) (a b old : Line) :
    (vint op e mask a b old).2 = 0 := mapElems_flags_zero ..

theorem maskedBits_vcmp {lt : Bool} {P : Nat → Nat → Nat → Prop} (et : BitVec 2) (mask : Option Word) (a b : Line)
    (hP : ∀ e x y, (if lt then decide (signed e x < signed e y) else x == y) = true ↔ P e x y) :
    MaskedBits (etBits et) mask ((vcmp lt (etBits et) mask a b).1.zeroExtend 512)
      (fun i => P (etBits et) (elem (etBits et) a i) (elem (etBits et) b i)) := by
  intro i
  change _ ↔ _ ∧ _ ∧ P (etBits et) (elem (etBits et) a i) (elem (etBits et) b i)
  rw [← hP]
  exact maskedBits_mapBits (etBits_elements et) mask _ i

theorem vcmp_flags_zero (lt : Bool) (e : Nat) (mask : Option Word) (a b : Line) : (vcmp lt e mask a b).2 = 0 :=
  mapBits_flags_zero ..

/-! Moves (Table ISA-15). -/

theorem elem_vmovv (old : Line) (k : BitVec 3) (x : Word) {i : Nat} (hi : i < 8) :
    elem 64 (vmovv old k x) i = if i = k.toNat then x.toNat else elem 64 old i := by
  have hk := k.isLt
  rw [elem_eq_field, elem_eq_field, vmovv]
  by_cases h : i = k.toNat
  · rw [if_pos h, h, field_setField_self _ _ (by omega), Nat.mod_eq_of_lt x.isLt]
  · rw [if_neg h, field_setField_of_disjoint _ _ (by omega)]

theorem elem_vbcast (et : BitVec 2) (x : Word) {i : Nat} (hi : i < 512 / etBits et) :
    elem (etBits et) (vbcast et x) i = x.toNat % 2 ^ etBits et := elem_packElems_range _ hi

end Sys2Proof.Machine
end

