-- ==== Sys2Proof/Proofs/VectorInstructions.lean ====
section
namespace Sys2Proof.Machine

open Sys2Proof.Claims

/-! Registers by number (R102). -/

/-- `n` numbers a vector, predicate or general register. -/
def RegNumber (n : Nat) : Prop := n < 40 ∨ (64 ≤ n ∧ n < 96)

theorem regNumber_vIdx (r : Reg) : RegNumber (vIdx r) := .inl (Nat.lt_trans r.isLt (by decide))

theorem regNumber_pIdx (r : PReg) : RegNumber (pIdx r) := .inl (Nat.add_lt_add_left r.isLt 32)

theorem regNumber_gIdx (r : Reg) : RegNumber (gIdx r) := .inr ⟨Nat.le_add_right .., Nat.add_lt_add_left r.isLt 64⟩

theorem Core.setP_writesNumber (c : Core) (pd : PReg) (x : Line) :
    WritesNumber (pIdx pd) x c (c.setP pd (x.truncate 64)) := by
  have hpd := pd.isLt
  refine ⟨fun r => ?_, fun r => ?_, fun r => ?_⟩
  · have hr := r.isLt
    rw [if_neg (by unfold pIdx; omega)]
    rfl
  · rw [Core.getP_setP]
    simp [pIdx, BitVec.toNat_inj]
  · rw [if_neg (by unfold pIdx; omega)]
    exact Core.getG_congr (Core.setP_g ..) r

theorem Core.setG_writesNumber (c : Core) (rd : Reg) (x : Line) :
    WritesNumber (gIdx rd) x c (c.setG rd (x.truncate 64)) := by
  refine ⟨fun r => ?_, fun r => ?_, fun r => ?_⟩
  · have hr := r.isLt
    rw [if_neg (by unfold gIdx; omega), Core.getV, Core.setG_v, Core.getV]
  · have hr := r.isLt
    rw [if_neg (by unfold gIdx; omega), Core.getP, Core.setG_p, Core.getP]
  · rw [Core.getG_setG]
    by_cases h0 : r = 0
    · subst h0
      rfl
    · have hr : 64 + r.toNat = gIdx rd ↔ r = rd := by simp [gIdx, BitVec.toNat_inj]
      rw [if_neg h0, if_congr (and_iff_right h0 |>.trans hr) rfl rfl]

/-- A write by number writes that register and no other. -/
theorem Core.put_writesNumber (c : Core) {n : Nat} (hn : RegNumber n) (x : Line) : WritesNumber n x c (c.put n x) := by
  unfold RegNumber at hn
  unfold Core.put
  split
  · have hidx : vIdx (BitVec.ofNat 5 n) = n := by rw [vIdx, BitVec.toNat_ofNat]; omega
    have hw := c.setV_writesNumber (BitVec.ofNat 5 n) x
    rwa [hidx] at hw
  · split
    · have hidx : pIdx (BitVec.ofNat 3 (n - 32)) = n := by rw [pIdx, BitVec.toNat_ofNat]; omega
      have hw := c.setP_writesNumber (BitVec.ofNat 3 (n - 32)) x
      rwa [hidx] at hw
    · have hidx : gIdx (BitVec.ofNat 5 (n - 64)) = n := by rw [gIdx, BitVec.toNat_ofNat]; omega
      have hw := c.setG_writesNumber (BitVec.ofNat 5 (n - 64)) x
      rwa [hidx] at hw

theorem Core.put_vflags (c : Core) (n : Nat) (x : Line) : (c.put n x).vflags = c.vflags := by
  unfold Core.put
  split_ifs <;> simp

/-- A write by number is seen through what later leaves the registers alone. -/
theorem writesNumber_of_same {n : Nat} {x : Line} {c d d' : Core} (h : WritesNumber n x c d) (hg : d'.g = d.g)
    (hv : d'.v = d.v) (hp : d'.p = d.p) : WritesNumber n x c d' := by
  obtain ⟨h1, h2, h3⟩ := h
  refine ⟨fun r => ?_, fun r => ?_, fun r => ?_⟩
  · rw [Core.getV, hv]; exact h1 r
  · rw [Core.getP, hp]; exact h2 r
  · rw [Core.getG_congr hg]; exact h3 r

/-! Dispatch to V (R102). -/

theorem Core.SameButResults.pfq {c d : Core} (h : c.SameButResults d) : d.pfq = c.pfq := by
  obtain ⟨_, _, _, _, _, rfl⟩ := h
  rfl

theorem Core.retire_pfq (c : Core) (pc' : Word) (cost : Nat) : (c.retire pc' cost).pfq = c.pfq.drop 1 := by
  simp only [Core.retire, Core.charge_pfq]

/-- V has taken an instruction at beat `t`: it starts in that beat where V is free, and else enters the queue. -/
def Dispatched (t dest : Nat) (x : Line) (fl : VFlags) (c d : Core) : Prop :=
  c.SameButResults d ∧
  (c.beats.vFree ≤ t → d.beats.vq = c.beats.vq ∧ WritesNumber dest x c d ∧
    d.vflags = c.vflags ||| fl.zeroExtend 64) ∧
  (t < c.beats.vFree → d.g = c.g ∧ KeepsV c d ∧
    ∃ e, d.beats.vq = c.beats.vq ++ [e] ∧ e.start = c.beats.vFree ∧ e.dest = dest ∧ e.value = x ∧ e.flags = fl)

theorem Core.dispatch_dispatched (c : Core) (t occ dist : Nat) (reads : List Nat) {dest : Nat}
    (hdest : RegNumber dest) (x : Line) (fl : VFlags) :
    Dispatched t dest x fl c (c.dispatch t occ dist reads dest x fl) := by
  unfold Core.dispatch
  extract_lets start b1 b2 e
  have hvq : b2.vq = c.beats.vq := Beats.setReady_vq ..
  by_cases hfree : c.beats.vFree ≤ t
  · rw [if_pos (max_eq_left hfree)]
    exact ⟨(c.vWrite_results e).withBeats b2,
      fun _ => ⟨hvq, writesNumber_of_same (c.put_writesNumber hdest x) rfl rfl rfl,
        rfl⟩,
      fun h => absurd hfree (Nat.not_le.2 h)⟩
  · rw [if_neg fun h => hfree (max_eq_left_iff.1 h)]
    exact ⟨(Core.SameButResults.refl c).withBeats _, fun h => absurd h hfree, fun h => ⟨rfl, ⟨rfl, rfl, rfl⟩, e,
      congrArg (· ++ [e]) hvq, max_eq_right h.le, rfl, rfl, rfl⟩⟩

/-- The retirement of an instruction that V has taken. -/
theorem vectorResult_of_dispatched {lc : LC} {t dest : Nat} {x : Line} {fl : VFlags} {u : State} {d : Core}
    (h : Dispatched t dest x fl (u.core lc) d) :
    VectorResult lc t dest x fl u (u.setCore lc ((d.retire ((u.core lc).pc + 4) 1).count 0x014 1)) := by
  refine ⟨onlyCore_setCore .., ?_⟩
  rw [State.core_setCore]
  generalize u.core lc = c at h
  obtain ⟨hsame, hnow, hlater⟩ := h
  refine ⟨keepsSystem_trans hsame.keepsSystem (by simp [KeepsSystem]), by simp, ?_, fun hfree => ?_, fun hbusy => ?_⟩
  · rw [Core.count_pfq, Core.retire_pfq, hsame.pfq]
  · obtain ⟨hvq, hw, hfl⟩ := hnow hfree
    exact ⟨by simp [hvq], writesNumber_of_same hw (by simp) (by simp) (by simp), by simp [hfl]⟩
  · obtain ⟨hg, ⟨hv, hp, hf⟩, e, hvq, he⟩ := hlater hbusy
    exact ⟨by simp [hg], by simp [KeepsV, hv, hp, hf], e, by simp [hvq], he⟩

/-- A vector instruction of allowed fields, which `f` computes, is taken by V. -/
theorem vec_completes {i : Instr} {s u : State} {lc : LC} {word : Word32} {legal : Bool} {occ dist : Nat}
    {reads : List Nat} {dest : Nat} {f : Core → Line × VFlags} {k : Asker} {t : Nat}
    (hi : exec i s = s.vec lc word legal occ dist reads dest f) (hlegal : legal = true) (hdest : RegNumber dest)
    (h : Runs s lc { reads := reads, writes := [dest], vec := true } k t u) :
    Completes i s (VectorResult lc t dest (f (u.core lc)).1 (f (u.core lc)).2 u) :=
  ⟨_, hi.trans (issue_next h _ (if_pos hlegal)),
    vectorResult_of_dispatched ((u.core lc).dispatch_dispatched t occ dist reads hdest _ _)⟩

/-! The integer vector operations and the bitwise ones. -/

theorem vintForm_completes {i : Instr} {s u : State} {lc : LC} {op : VIntOp} {f : Nat → Nat → Nat → Nat} {vfn : Nat}
    {vd va vb : Reg} {m : Option PReg} {et : BitVec 2} {k : Asker} {t : Nat}
    (hf : IntegerElement op f) (hi : exec i s = vintForm lc op vfn vd va vb m et s)
    (h : Runs s lc { reads := [vIdx va, vIdx vb] ++ maskReads m ++ if m.isSome then [vIdx vd] else [],
                     writes := [vIdx vd], vec := true } k t u) :
    ∃ x, MaskedElements (etBits et) (m.map (u.core lc).getP) ((u.core lc).getV vd) x
        (fun i => f (etBits et) (elem (etBits et) ((u.core lc).getV va) i)
          (elem (etBits et) ((u.core lc).getV vb) i)) ∧
      Completes i s (VectorResult lc t (vIdx vd) x 0 u) := by
  refine ⟨_, maskedElements_vint hf _ _ _ _ _, ?_⟩
  have hv := vec_completes hi rfl (regNumber_vIdx vd) h
  rwa [vint_flags_zero] at hv

theorem vbitForm_completes {i : Instr} {s u : State} {lc : LC} {vfn : Nat} {vd va vb : Reg} {f : Line → Line → Line}
    {k : Asker} {t : Nat} (hi : exec i s = vbitForm lc vfn vd va vb f s)
    (h : Runs s lc { reads := [vIdx va, vIdx vb], writes := [vIdx vd], vec := true } k t u) :
    Completes i s (VectorResult lc t (vIdx vd) (f ((u.core lc).getV va) ((u.core lc).getV vb)) 0 u) :=
  vec_completes hi rfl (regNumber_vIdx vd) h

theorem vectorIntegerResults : VectorIntegerResults := by
  constructor
  · simp only [vectorIntegerForms, List.forall_mem_cons, List.not_mem_nil, false_imp_iff, implies_true, and_true]
    refine ⟨?vadd, ?vsub, ?vmin, ?vmax, ?vsll, ?vsrl, ?vsra⟩ <;> intro lc vd va vb m et s k t u h
    case vadd => exact vintForm_completes (op := .add) (vfn := 0x00) (fun _ _ _ => rfl) rfl h
    case vsub => exact vintForm_completes (op := .sub) (vfn := 0x01) (fun _ _ _ => rfl) rfl h
    case vmin => exact vintForm_completes (op := .min) (vfn := 0x05) (fun _ _ _ => rfl) rfl h
    case vmax => exact vintForm_completes (op := .max) (vfn := 0x06) (fun _ _ _ => rfl) rfl h
    case vsll => exact vintForm_completes (vfn := 0x07) integerElement_sll rfl h
    case vsrl => exact vintForm_completes (vfn := 0x08) integerElement_srl rfl h
    case vsra => exact vintForm_completes (vfn := 0x09) integerElement_sra rfl h
  · simp only [vectorBitForms, List.forall_mem_cons, List.not_mem_nil, false_imp_iff, implies_true, and_true]
    refine ⟨?vand, ?vor, ?vxor⟩ <;> intro lc vd va vb s k t u h
    case vand => exact vbitForm_completes (vfn := 0x02) (f := (· &&& ·)) rfl h
    case vor => exact vbitForm_completes (vfn := 0x03) (f := (· ||| ·)) rfl h
    case vxor => exact vbitForm_completes (vfn := 0x04) (f := (· ^^^ ·)) rfl h

/-! The comparisons. -/

theorem vcmpForm_completes {i : Instr} {s u : State} {lc : LC} {vfn : Nat} {legal : Bool} {pd : PReg} {va vb : Reg}
    {m : Option PReg} {et : BitVec 2} {f : Core → Word × VFlags} {k : Asker} {t : Nat}
    (hi : exec i s = vcmpForm lc vfn legal pd va vb m et f s) (hlegal : legal = true)
    (h : Runs s lc { reads := [vIdx va, vIdx vb] ++ maskReads m, writes := [pIdx pd], vec := true } k t u) :
    Completes i s (VectorResult lc t (pIdx pd) ((f (u.core lc)).1.zeroExtend 512) (f (u.core lc)).2 u) :=
  vec_completes hi hlegal (regNumber_pIdx pd) h

theorem vcmp_completes {i : Instr} {s u : State} {lc : LC} {vfn : Nat} {pd : PReg} {va vb : Reg} {m : Option PReg}
    {et : BitVec 2} {lt : Bool} {P : Nat → Nat → Nat → Prop} {k : Asker} {t : Nat}
    (hi : exec i s = vcmpForm lc vfn true pd va vb m et
      (fun c => vcmp lt (etBits et) (maskVal c m) (c.getV va) (c.getV vb)) s)
    (hP : ∀ e x y, (if lt then decide (signed e x < signed e y) else x == y) = true ↔ P e x y)
    (h : Runs s lc { reads := [vIdx va, vIdx vb] ++ maskReads m, writes := [pIdx pd], vec := true } k t u) :
    ∃ x, MaskedBits (etBits et) (m.map (u.core lc).getP) x
        (fun i => P (etBits et) (elem (etBits et) ((u.core lc).getV va) i)
          (elem (etBits et) ((u.core lc).getV vb) i)) ∧
      Completes i s (VectorResult lc t (pIdx pd) x 0 u) := by
  refine ⟨_, maskedBits_vcmp et _ _ _ hP, ?_⟩
  have hv := vcmpForm_completes hi rfl h
  rwa [vcmp_flags_zero] at hv

theorem vfcmp_completes {i : Instr} {s u : State} {lc : LC} {vfn : Nat} {pd : PReg} {va vb : Reg} {m : Option PReg}
    {et : BitVec 2} {op : Fmt → VCtl → Nat → Nat → Bool × VFlags} {k : Asker} {t : Nat}
    (hi : exec i s = vcmpForm lc vfn (fpEt et) pd va vb m et
      (fun c => vfcmp op et (VCtl.of c.vctl) (maskVal c m) (c.getV va) (c.getV vb)) s) (het : et.toNat ≤ 1)
    (h : Runs s lc { reads := [vIdx va, vIdx vb] ++ maskReads m, writes := [pIdx pd], vec := true } k t u) :
    let r := fun i => op (fmtOf et) (VCtl.of (u.core lc).vctl) (elem (etBits et) ((u.core lc).getV va) i)
      (elem (etBits et) ((u.core lc).getV vb) i)
    ∃ x fl, MaskedBits (etBits et) (m.map (u.core lc).getP) x (fun i => (r i).1 = true) ∧
      MaskedFlags (512 / etBits et) (m.map (u.core lc).getP) fl (fun i => (r i).2) ∧
      Completes i s (VectorResult lc t (pIdx pd) x fl u) :=
  ⟨_, _, maskedBits_mapBits (etBits_elements et) _ _, maskedFlags_mapBits _ _ _,
    vcmpForm_completes hi (decide_eq_true het) h⟩

theorem vectorCompareResults : VectorCompareResults := by
  constructor
  · simp only [vectorCompareForms, List.forall_mem_cons, List.not_mem_nil, false_imp_iff, implies_true, and_true]
    refine ⟨?vcmpeq, ?vcmplt⟩ <;> intro lc pd va vb m et s k t u h
    case vcmpeq => exact vcmp_completes (vfn := 0x0A) (lt := false) rfl (fun _ _ _ => beq_iff_eq) h
    case vcmplt => exact vcmp_completes (vfn := 0x0B) (lt := true) rfl (fun _ _ _ => decide_eq_true_iff) h
  · simp only [vectorFloatCompareForms, List.forall_mem_cons, List.not_mem_nil, false_imp_iff, implies_true, and_true]
    refine ⟨?vfcmplt, ?vfcmpeq⟩ <;> intro lc pd va vb m et s k t u het h
    case vfcmplt => exact vfcmp_completes (vfn := 0x18) (op := fcmplt) rfl het h
    case vfcmpeq => exact vfcmp_completes (vfn := 0x19) (op := fcmpeq) rfl het h

/-! Moves and predicate operations (Table ISA-15). -/

theorem predOp_completes {i : Instr} {s u : State} {lc : LC} {pd : PReg} {reads : List Nat} {f : Core → Word}
    {k : Asker} {t : Nat} (hi : exec i s = s.predOp lc pd reads f)
    (h : Runs s lc { reads := reads, writes := [pIdx pd] } k t u) :
    Completes i s (PredicateResult lc pd (f (u.core lc)) u) := by
  refine ⟨_, hi.trans (issueCore_next h _), onlyCore_modCore .., ?_⟩
  rw [State.core_modCore]
  generalize u.core lc = c
  have hp (q : PReg) : (((c.resultP pd (f c) t 1).retire (c.pc + 4) 1).getP q) = (c.setP pd (f c)).getP q := by
    rw [Core.getP, Core.retire_p, Core.resultP_p, Core.getP]
  refine ⟨by simp [KeepsSystem], rfl, ?_, by simp, by simp, by simp, ?_, fun q hq => ?_⟩
  · rw [Core.retire_pfq, Core.resultP_pfq]
  · rw [hp, Core.getP_setP, if_pos rfl]
  · rw [hp, Core.getP_setP, if_neg hq]

theorem exec_vmovg (lc : LC) (rd va : Reg) (n : BitVec 3) (s : State) :
    exec (.vmovg lc rd va n) s = s.vec lc (encV 0x33 rd va (asReg n) none 0 0x00) true 1 2 [vIdx va] (gIdx rd)
      fun c => (BitVec.ofNat 512 (elem 64 (c.getV va) n.toNat), 0) := rfl

theorem exec_vmovv (lc : LC) (vd ra : Reg) (n : BitVec 3) (s : State) :
    exec (.vmovv lc vd ra n) s = s.vec lc (encV 0x33 vd ra (asReg n) none 0 0x01) true 1 2 [gIdx ra, vIdx vd] (vIdx vd)
      fun c => (vmovv (c.getV vd) n (c.getG ra), 0) := rfl

theorem exec_vbcast (lc : LC) (vd ra : Reg) (et : BitVec 2) (s : State) :
    exec (.vbcast lc vd ra et) s = s.vec lc (encV 0x33 vd ra 0 none et 0x02) true 1 2 [gIdx ra] (vIdx vd)
      fun c => (vbcast et (c.getG ra), 0) := rfl

theorem exec_pget (lc : LC) (rd : Reg) (pa : PReg) (s : State) :
    exec (.pget lc rd pa) s = s.issueCore lc { reads := [pIdx pa], writes := [gIdx rd] } fun t c =>
      (c.result rd (c.getP pa) t 1).retire (c.pc + 4) 1 := rfl

theorem vectorMoveResults : VectorMoveResults := by
  refine ⟨?vmovg, ?vmovv, ?vbcast, ?logic, ?pnot, ?pset, ?pget⟩
  case vmovg =>
    intro lc rd va n s k t u h
    exact vec_completes (exec_vmovg lc rd va n s) rfl (regNumber_gIdx rd) h
  case vmovv =>
    intro lc vd ra n s k t u h
    exact ⟨_, fun i hi => elem_vmovv _ _ _ hi, vec_completes (exec_vmovv lc vd ra n s) rfl (regNumber_vIdx vd) h⟩
  case vbcast =>
    intro lc vd ra et s k t u h
    exact ⟨_, fun i hi => elem_vbcast _ _ hi, vec_completes (exec_vbcast lc vd ra et s) rfl (regNumber_vIdx vd) h⟩
  case logic =>
    simp only [predicateForms, List.forall_mem_cons, List.not_mem_nil, false_imp_iff, implies_true, and_true]
    refine ⟨?pand, ?por, ?pxor⟩ <;> intro lc pd pa pb s k t u h
    case pand => exact predOp_completes (f := fun c => c.getP pa &&& c.getP pb) rfl h
    case por => exact predOp_completes (f := fun c => c.getP pa ||| c.getP pb) rfl h
    case pxor => exact predOp_completes (f := fun c => c.getP pa ^^^ c.getP pb) rfl h
  case pnot => exact fun lc pd pa s k t u h => predOp_completes (f := fun c => ~~~(c.getP pa)) rfl h
  case pset => exact fun lc pd ra s k t u h => predOp_completes (f := fun c => c.getG ra) rfl h
  case pget =>
    intro lc rd pa s k t u h
    exact ⟨_, (exec_pget lc rd pa s).trans (issueCore_next h _),
      scalarResult_modCore u lc rd t 1 (fun c => c.getP pa)⟩

/-! What V and scratch loads write later (R100, R102). -/

section
variable {s : State} {lc : LC}

theorem exec_vectorStart {e : VEntry} {rest : List VEntry} (hq : (s.core lc).beats.vq = e :: rest) :
    exec (.vectorStart lc) s = .next (s.setCore lc
      (if e.start ≤ (s.core lc).beats.next || !(s.core lc).ready then
        { (s.core lc).vWrite e with beats := { (s.core lc).beats with vq := rest } } else s.core lc)) := by
  show execVectorStart lc s = _
  rw [execVectorStart, State.modCore, hq]

theorem exec_scratchLoadReturn {e : ScrLoad} {rest : List ScrLoad} (hq : (s.core lc).beats.scr = e :: rest) :
    exec (.scratchLoadReturn lc) s = .next (s.setCore lc
      (if e.returns ≤ (s.core lc).beats.next || !(s.core lc).ready then
        { (s.core lc).put e.dest e.value with beats := { (s.core lc).beats with scr := rest } } else s.core lc)) := by
  show execScratchLoadReturn lc s = _
  rw [execScratchLoadReturn, State.modCore, hq]

/-- The test of a beat that V or a scratch load waits for. -/
theorem due_of {beat next : Nat} {ready : Bool} (h : beat ≤ next ∨ ready = false) :
    (decide (beat ≤ next) || !ready) = true := by simpa using h

theorem not_due_of {beat next : Nat} {ready : Bool} (hready : ready = true) (h : next < beat) :
    ¬ (decide (beat ≤ next) || !ready) = true := by simpa [hready] using h

/-- A core written back as it stands leaves every core as it is. -/
theorem core_setCore_core (s : State) (lc : LC) : (s.setCore lc (s.core lc)).core = s.core := by
  funext l
  by_cases hl : l = lc
  · rw [hl, State.core_setCore]
  · rw [State.core_setCore_of_ne _ _ hl]

theorem vectorStart_due {e : VEntry} {rest : List VEntry} (hq : (s.core lc).beats.vq = e :: rest)
    (hdest : RegNumber e.dest) (hdue : e.start ≤ (s.core lc).beats.next ∨ (s.core lc).ready = false) :
    Completes (.vectorStart lc) s fun w =>
      OnlyCore lc s w ∧ KeepsSystem (s.core lc) (w.core lc) ∧ (w.core lc).pc = (s.core lc).pc ∧
      (w.core lc).beats = { (s.core lc).beats with vq := rest } ∧
      WritesNumber e.dest e.value (s.core lc) (w.core lc) ∧
      (w.core lc).vflags = (s.core lc).vflags ||| e.flags.zeroExtend 64 := by
  refine ⟨_, exec_vectorStart hq, onlyCore_setCore .., ?_⟩
  rw [State.core_setCore, if_pos (due_of hdue)]
  have hsame := ((s.core lc).vWrite_results e).withBeats { (s.core lc).beats with vq := rest }
  exact ⟨hsame.keepsSystem, hsame.pc, rfl,
    writesNumber_of_same ((s.core lc).put_writesNumber hdest e.value) rfl rfl rfl, rfl⟩

theorem scratchLoadReturn_due {e : ScrLoad} {rest : List ScrLoad} (hq : (s.core lc).beats.scr = e :: rest)
    (hdest : RegNumber e.dest) (hdue : e.returns ≤ (s.core lc).beats.next ∨ (s.core lc).ready = false) :
    Completes (.scratchLoadReturn lc) s fun w =>
      OnlyCore lc s w ∧ KeepsSystem (s.core lc) (w.core lc) ∧ (w.core lc).pc = (s.core lc).pc ∧
      (w.core lc).beats = { (s.core lc).beats with scr := rest } ∧
      WritesNumber e.dest e.value (s.core lc) (w.core lc) ∧ (w.core lc).vflags = (s.core lc).vflags := by
  refine ⟨_, exec_scratchLoadReturn hq, onlyCore_setCore .., ?_⟩
  rw [State.core_setCore, if_pos (due_of hdue)]
  have hsame := ((s.core lc).put_results e.dest e.value).withBeats { (s.core lc).beats with scr := rest }
  exact ⟨hsame.keepsSystem, hsame.pc, rfl,
    writesNumber_of_same ((s.core lc).put_writesNumber hdest e.value) rfl rfl rfl, Core.put_vflags ..⟩

end

theorem vectorStartAndScratchReturn : VectorStartAndScratchReturn := by
  refine ⟨fun lc s e rest hq hdest hdue => vectorStart_due hq hdest hdue,
    fun lc s e rest hq hdest hdue => scratchLoadReturn_due hq hdest hdue,
    fun lc s e rest hq hready hearly => ⟨_, exec_vectorStart hq, ?_⟩,
    fun lc s e rest hq hready hearly => ⟨_, exec_scratchLoadReturn hq, ?_⟩⟩
  all_goals
    rw [if_neg (not_due_of hready hearly)]
    exact core_setCore_core s lc

/-- Settles O6: each form by what V makes of it, the later writes by the beat that they wait for. -/
theorem vectorIntegerAndMoveResults : Obligations.VectorIntegerAndMoveResults :=
  ⟨vectorIntegerResults, vectorCompareResults, vectorMoveResults, vectorStartAndScratchReturn⟩

end Sys2Proof.Machine
end

