-- ==== Sys2Proof/Proofs/InterruptSelection.lean ====
section
namespace Sys2Proof.Machine

open Sys2Proof.Claims

/-! The order of sources (R118). -/

/-- `a` goes before `b` or is on a par with it: its priority value is lower, or is the same and its ID is not above
`b`'s. -/
def Cand.Before (a b : Cand) : Prop := a.prio < b.prio ∨ (a.prio = b.prio ∧ a.id ≤ b.id)

theorem Cand.Before.refl (a : Cand) : a.Before a := .inr ⟨rfl, le_rfl⟩

theorem Cand.Before.trans {a b c : Cand} (hab : a.Before b) (hbc : b.Before c) : a.Before c := by
  unfold Cand.Before at *
  omega

theorem Cand.best_eq_or (a b : Cand) : a.best b = a ∨ a.best b = b := by
  unfold Cand.best
  split
  · exact .inl rfl
  · exact .inr rfl

theorem Cand.best_before (a b : Cand) : (a.best b).Before a ∧ (a.best b).Before b := by
  unfold Cand.best
  split
  next h => exact ⟨.refl a, by simpa [Cand.Before] using h⟩
  next h =>
    refine ⟨?_, .refl b⟩
    simp only [Bool.or_eq_true, Bool.and_eq_true, decide_eq_true_eq] at h
    unfold Cand.Before
    omega

theorem selectCand_eq_none {l : List Cand} (h : selectCand l = none) : l = [] := by
  cases l with
  | nil => rfl
  | cons a t =>
    rw [selectCand] at h
    split at h <;> cases h

/-- The source selected is one of those that compete and goes before each of them. -/
theorem selectCand_least {l : List Cand} {k : Cand} (h : selectCand l = some k) :
    k ∈ l ∧ ∀ x ∈ l, k.Before x := by
  induction l generalizing k with
  | nil => cases h
  | cons a t ih =>
    rw [selectCand] at h
    split at h
    next hnone =>
      cases h
      rw [selectCand_eq_none hnone]
      exact ⟨List.mem_singleton_self a, fun x hx => List.mem_singleton.1 hx ▸ .refl a⟩
    next b hsome =>
      cases h
      obtain ⟨hmem, hbefore⟩ := ih hsome
      obtain ⟨ha, hb⟩ := a.best_before b
      refine ⟨?_, List.forall_mem_cons.2 ⟨ha, fun x hx => hb.trans (hbefore x hx)⟩⟩
      obtain hbest | hbest := a.best_eq_or b
      · rw [hbest]; exact List.mem_cons_self
      · rw [hbest]; exact List.mem_cons_of_mem a hmem

/-! What may be taken (R119 to R121). -/

/-- What may be taken in a world goes to M, is of that world, or is WORLD_CALL. -/
theorem State.takeable_world {s : State} {lc : LC} {c : Core} {world : Bool} {k : Cand}
    (h : k ∈ s.takeable lc c world) : k.lvl = 3 ∨ k.world = world ∨ k.id = 10 := by
  have hfree : k ∈ (s.cands lc c).filter (fun k => !k.held world) → k.lvl = 3 ∨ k.world = world := fun hk => by
    simpa [Cand.held, or_iff_not_imp_left] using (List.mem_filter.1 hk).2
  unfold State.takeable at h
  extract_lets l at h
  split at h
  · obtain hk | hk := List.mem_append.1 h
    · exact (hfree hk).imp_right .inl
    · cases List.mem_singleton.1 hk
      exact .inr (.inr rfl)
  · exact (hfree h).imp_right .inl

theorem State.teff_of_lvl_three (s : State) (pid : BitVec 8) {k : Cand} (h : k.lvl = 3) : s.teff pid k = 3 := by
  rw [State.teff, if_pos h]

/-- What a source taken has passed: it is the one selected, its group beats the running priority's, and its
effective level is above the core's, or at it with IE = 1. -/
theorem State.takenAt_eq_some {s : State} {lc : LC} {c : Core} {lvl : Nat} {world ie : Bool} {k : Cand} {t : Nat}
    (h : s.takenAt lc c lvl world ie = some (k, t)) :
    selectCand (s.takeable lc c world) = some k ∧ t = s.teff c.pid k ∧ k.prio / 16 < c.cii.runPri / 16 ∧
      (lvl < t ∨ (lvl = t ∧ ie = true)) := by
  unfold State.takenAt at h
  split at h
  · cases h
  · next b hsel =>
    dsimp only at h
    split at h
    · next hpass =>
      cases h
      simp only [Bool.and_eq_true, Bool.or_eq_true, decide_eq_true_eq] at hpass
      exact ⟨hsel, rfl, hpass.1, hpass.2.imp_right (.imp_left Eq.symm)⟩
    · cases h

/-- Settles O18: the source due is the one that `selectCand` finds least, and has passed what `State.takenAt` asks. -/
theorem interruptSelection : Obligations.InterruptSelection := by
  intro s lc src tgt hdue c
  obtain ⟨hsel, rfl, hgroup, hlevel⟩ := State.takenAt_eq_some hdue
  obtain ⟨hmem, hbefore⟩ := selectCand_least hsel
  exact ⟨hmem, hbefore, hgroup, hlevel, s.teff_of_lvl_three _,
    fun hlvl => (State.takeable_world hmem).resolve_left hlvl⟩

end Sys2Proof.Machine
end

