-- ==== Sys2Proof/Proofs/SgiAndEoi.lean ====
section
namespace Sys2Proof.Machine

open Sys2Proof.Claims

/-! A bit of a word set or cleared. -/

theorem getLsbD_setBit {n : Nat} (v : BitVec n) (i j : Nat) (b : Bool) :
    (setBit v i b).getLsbD j = if j = i then decide (j < n) && b else v.getLsbD j := by
  rw [setBit, getLsbD_setField]
  by_cases h : j = i
  · subst h
    rw [if_pos (by omega), if_pos rfl]
    cases b <;> simp
  · rw [if_neg (by omega), if_neg h]

theorem getLsbD_one_shiftLeft {n : Nat} (i j : Nat) :
    (1#n <<< i).getLsbD j = (decide (j < n) && decide (j = i)) := by
  rw [← BitVec.twoPow_eq, BitVec.getLsbD_twoPow]
  by_cases h : j = i
  · subst h; simp
  · simp [h, Ne.symm h]

theorem setBit_true {n : Nat} (v : BitVec n) (i : Nat) : setBit v i true = v ||| (1#n <<< i) := by
  apply BitVec.eq_of_getLsbD_eq
  intro j hj
  rw [getLsbD_setBit, BitVec.getLsbD_or, getLsbD_one_shiftLeft]
  by_cases h : j = i
  · subst h; simp [hj]
  · simp [h]

theorem setBit_false {n : Nat} (v : BitVec n) (i : Nat) : setBit v i false = v &&& ~~~(1#n <<< i) := by
  apply BitVec.eq_of_getLsbD_eq
  intro j hj
  rw [getLsbD_setBit, BitVec.getLsbD_and, BitVec.getLsbD_not, getLsbD_one_shiftLeft]
  by_cases h : j = i
  · subst h; simp [hj]
  · simp [h, hj]

/-! CII_SGI (R137). -/

theorem exec_sgi {lc t : LC} {w0 : Word32} {s : State} (hlvl : (s.core lc).level ≠ 0) (ht : w0.toNat % 256 = t.val) :
    exec (.sgi lc w0) s = .next (s.sgi t (w0.toNat / 256 % 8) ((s.core lc).accessor lc)) := by
  have hlt : w0.toNat % 256 < 216 := ht ▸ t.isLt
  have hto : (⟨w0.toNat % 256, hlt⟩ : LC) = t := Fin.ext ht
  show execSgi lc w0 s = _
  unfold execSgi
  extract_lets c
  rw [if_neg hlvl, State.ciiWrite]
  extract_lets
  rw [if_neg (by decide), if_neg (by decide), if_pos rfl, dif_pos ⟨by decide, hlt⟩, hto]

/-- Who may send an SGI: M, or one of the source's world at H or of the core's partition. -/
theorem State.sgi_eq (s : State) (t : LC) (n : Nat) (who : Accessor) :
    s.sgi t n who =
      if who.lvl = 3 ∨ (who.world = ((s.core t).cii.cfg n).world ∧ (who.lvl = 2 ∨ who.pid = (s.core t).pid)) then
        s.setCore t { s.core t with cii := { (s.core t).cii with pend := (s.core t).cii.pend ||| (1#32 <<< n) } }
      else s.setCore t { s.core t with cii := { (s.core t).cii with sgiDrop := true } } := by
  simp only [State.sgi, setBit_true, Bool.or_eq_true, Bool.and_eq_true, decide_eq_true_eq]

/-! CII_EOI (R123). -/

theorem exec_eoi {lc : LC} {w0 : Word32} {s : State} (hlvl : (s.core lc).level ≠ 0) :
    exec (.eoi lc w0) s = .next (s.eoi lc (w0.toNat % 1024)) := by
  show execEoi lc w0 s = _
  unfold execEoi
  extract_lets c
  rw [if_neg hlvl]
  rfl

theorem State.eoi_private {s : State} {lc : LC} {e : RunPri} {rest : List RunPri}
    (hstack : (s.core lc).cii.stack = e :: rest) (hdie : e.die = none) :
    s.eoi lc e.id = s.setCore lc { s.core lc with cii := { (s.core lc).cii with
      stack := rest, act := (s.core lc).cii.act &&& ~~~(1#32 <<< e.id) } } := by
  simp only [State.eoi, hstack, hdie, if_true, setBit_false]

theorem State.eoi_shared {s : State} {lc : LC} {e : RunPri} {rest : List RunPri} {d : Die}
    (hstack : (s.core lc).cii.stack = e :: rest) (hdie : e.die = some d) :
    s.eoi lc e.id = (s.setCore lc { s.core lc with cii := { (s.core lc).cii with stack := rest } }).modSrc d e.id
      fun r => { r with act := false } := by
  simp only [State.eoi, hstack, hdie, if_true]

theorem State.eoi_other {s : State} {lc : LC} {id : Nat}
    (h : ∀ e, (s.core lc).cii.stack.head? = some e → e.id ≠ id) :
    s.eoi lc id = s.setCore lc { s.core lc with cii := { (s.core lc).cii with eoiErr := true } } := by
  unfold State.eoi
  extract_lets c
  split
  next e rest hstack => rw [if_neg (h e (by rw [hstack]; rfl))]
  next => rfl

theorem sgiAndEoiResults : SgiAndEoiResults := by
  refine ⟨?_, ?_, fun _ _ _ hlvl => ⟨if_pos hlvl, if_pos hlvl⟩⟩
  · intro lc t w0 s hlvl ht who n c ok
    refine ⟨fun hok => ⟨_, exec_sgi hlvl ht, ?_⟩, fun hno => ⟨_, exec_sgi hlvl ht, ?_⟩⟩
    · rw [State.sgi_eq, if_pos hok]
      exact onlyCii_setCore ..
    · rw [State.sgi_eq, if_neg hno]
      exact onlyCii_setCore ..
  · intro lc w0 s hlvl c id
    have hexec : exec (.eoi lc w0) s = .next (s.eoi lc id) := exec_eoi hlvl
    refine ⟨fun e rest hstack hid hdie _ => ⟨_, hexec, ?_⟩, fun e rest d hstack hid hdie => ⟨_, hexec, ?_⟩,
      fun hother => ⟨_, hexec, ?_⟩⟩
    · rw [← hid, State.eoi_private hstack hdie]
      exact onlyCii_setCore ..
    · rw [← hid, State.eoi_shared hstack hdie]
      have hcore := State.core_setCore s lc { c with cii := { c.cii with stack := rest } }
      obtain ⟨hact, hsame, -⟩ := onlySources_modSrc
        (s.setCore lc { c with cii := { c.cii with stack := rest } }) d e.id fun r => { r with act := false }
      exact ⟨congrArg Core.cii hcore, (congrArg Core.g hcore).trans rfl, hact e.id (beq_self_eq_true _),
        fun i hi => hsame i (beq_false_of_ne hi), rfl⟩
    · rw [State.eoi_other hother]
      exact onlyCii_setCore ..

end Sys2Proof.Machine
end

