-- ==== Sys2Proof/Proofs/PinUnits.lean ====
section
namespace Sys2Proof.Machine

open Sys2Proof.Claims

/-! The units and their owners (R322, R323). -/

theorem State.servedOk_iff (s : State) (u : Nat) (who : Accessor) : s.servedOk u who = true ↔ Served s u who := by
  simp only [State.servedOk, ownerAccepts, Served, bit, Bool.and_eq_true, Bool.or_eq_true, decide_eq_true_eq,
    beq_iff_eq, and_assoc]

@[simp] theorem State.uart_setUart (s : State) (u : Nat) (x : Uart) : (s.setUart u x).uart u = x :=
  SMap.get_set_self ..

@[simp] theorem State.i2c_setI2c (s : State) (i : Nat) (x : I2c) : (s.setI2c i x).i2c i = x :=
  SMap.get_set_self ..

/-! Their windows in the hub block: UART `u` and controller `i` answer to whom their owner records accept. -/

theorem State.pkgRead_uart (s : State) (u : Fin 2) {off : Nat} (ho : off < 0x40) (who : Accessor) :
    s.pkgRead (0x9000 + 0x40 * u.val + off) who = if s.servedOk u.val who then s.uartRead u.val off else none := by
  have hu := u.isLt
  unfold State.pkgRead
  extract_lets n
  have hn : n = u.val := by omega
  rw [if_pos (by simp; omega), hn, show (0x9000 + 0x40 * u.val + off) % 0x40 = off by omega]

theorem State.pkgWrite_uart (s : State) (u : Fin 2) {off : Nat} (ho : off < 0x40) (v : Nat) (bm : BitVec 4)
    (who : Accessor) :
    s.pkgWrite (0x9000 + 0x40 * u.val + off) v bm who =
      if s.servedOk u.val who then s.uartWrite u.val off v (maskOf 4 bm.toNat) else none := by
  have hu := u.isLt
  unfold State.pkgWrite
  extract_lets m n
  have hn : n = u.val := by omega
  rw [if_pos (by simp; omega), hn, show (0x9000 + 0x40 * u.val + off) % 0x40 = off by omega]

theorem State.pkgWrite_i2c (s : State) (i : Fin 2) {off : Nat} (ho : off < 0x40) (v : Nat) (bm : BitVec 4)
    (who : Accessor) :
    s.pkgWrite (0x9100 + 0x40 * i.val + off) v bm who =
      if s.servedOk (2 + i.val) who then s.i2cWrite i.val off v (maskOf 4 bm.toNat) else none := by
  have hi := i.isLt
  unfold State.pkgWrite
  extract_lets m _ n
  have hn : n = i.val := by omega
  rw [if_neg (by simp; omega), if_pos (by simp; omega), hn,
    show (0x9100 + 0x40 * i.val + off) % 0x40 = off by omega]

/-! UARTs (R522). -/

theorem exec_uartRx {u : Fin 2} {b : Byte} {fe : Bool} {s : State} (hon : (s.uart u.val).ctl.getLsbD 16 = true) :
    let x := s.uart u.val
    exec (.uartRx u b fe) s = .next (s.setUart u.val
      { x with rx := if x.rx.length < 16 then x.rx ++ [b] else x.rx,
               rxovr := x.rxovr || decide (16 ≤ x.rx.length), frame := x.frame || fe }) := by
  intro x
  show execUartRx u b fe s = _
  unfold execUartRx
  extract_lets y
  rw [if_neg (by simpa [bit] using hon)]
  by_cases hroom : x.rx.length < 16
  · simp [y, x, hroom, Nat.not_le.2 hroom]
  · simp [y, x, hroom, Nat.not_lt.1 hroom]

theorem exec_uartTxDone {u : Fin 2} {s : State} (hon : (s.uart u.val).ctl.getLsbD 16 = true) :
    exec (.uartTxDone u) s = .next (s.setUart u.val { s.uart u.val with tx := (s.uart u.val).tx.drop 1 }) :=
  if_pos hon

theorem Uart.queue_eq (x : Uart) (b : Byte) :
    x.queue b = { x with tx := if x.tx.length < 16 then x.tx ++ [b] else x.tx,
                         txovr := x.txovr || decide (16 ≤ x.tx.length) } := by
  unfold Uart.queue
  split
  next h => simp [Nat.not_le.2 h]
  next h => simp [Nat.not_lt.1 h]

/-- A write of UART_DATA that carries its low byte queues that byte. -/
theorem State.uartWrite_data (s : State) (u : Nat) (b : Byte) :
    s.uartWrite u 0 b.toNat (maskOf 4 1) = some (s.setUart u ((s.uart u).queue b)) := by
  have hb : (BitVec.ofNat 32 b.toNat &&& BitVec.ofNat 32 (maskOf 4 1)).truncate 8 = b := by
    revert b; decide
  exact congrArg (fun x => some (s.setUart u ((s.uart u).queue x))) hb

theorem exec_uartDataWrite (u : Fin 2) (b : Byte) (who : Accessor) (s : State) :
    exec (.uartDataWrite u b who) s =
      .next (if s.servedOk u.val who then s.setUart u.val ((s.uart u.val).queue b) else s) := by
  show execUartDataWrite u b who s = _
  have hwrite := s.pkgWrite_uart u (off := 0) (by decide) b.toNat 1 who
  rw [Nat.add_zero] at hwrite
  rw [execUartDataWrite, hwrite, show maskOf 4 (1 : BitVec 4).toNat = maskOf 4 1 from rfl, State.uartWrite_data]
  split <;> rfl

theorem exec_uartDataRead (u : Fin 2) (who : Accessor) (s : State) :
    exec (.uartDataRead u who) s =
      .next (if s.servedOk u.val who then
        s.setUart u.val { s.uart u.val with rx := (s.uart u.val).rx.drop 1 } else s) := by
  show execUartDataRead u who s = _
  have hread := s.pkgRead_uart u (off := 0) (by decide) who
  rw [Nat.add_zero] at hread
  rw [execUartDataRead, hread]
  cases s.servedOk u.val who <;> rfl

/-! I2C controllers (R522). -/

/-- I2C_CMD written whole: with GO it asks for a transfer. -/
theorem State.i2cWrite_cmd (s : State) (i : Nat) (c : Word32) :
    s.i2cWrite i 4 c.toNat (maskOf 4 15) =
      some (if c.getLsbD 13 then s.setI2c i ((s.i2c i).go c.toNat) else s) := by
  unfold State.i2cWrite
  extract_lets x b
  have hb : b = c := and_ofNat_maskOf_four c
  rw [if_neg (by decide), if_pos rfl, hb]
  rfl

theorem exec_i2cGo (u : Fin 2) (c : Word32) (who : Accessor) (s : State) :
    exec (.i2cGo u c who) s =
      .next (if s.servedOk (2 + u.val) who ∧ c.getLsbD 13 = true then
        s.setI2c u.val ((s.i2c u.val).go c.toNat) else s) := by
  show execI2cGo u c who s = _
  have hwrite := s.pkgWrite_i2c u (off := 4) (by decide) c.toNat 15 who
  rw [show 0x9100 + 0x40 * u.val + 4 = 0x9104 + 0x40 * u.val by omega,
    show maskOf 4 (15 : BitVec 4).toNat = maskOf 4 15 from rfl, State.i2cWrite_cmd] at hwrite
  rw [execI2cGo, hwrite]
  by_cases hok : s.servedOk (2 + u.val) who <;> simp [hok]

theorem exec_i2cDone {u : Fin 2} {r : I2cResult} {s : State} (hbusy : (s.i2c u.val).busy = true) :
    let x := s.i2c u.val
    let got := r.data.take (x.cmd.toNat / 2 ^ 8 % 32)
    exec (.i2cDone u r) s = .next (s.setI2c u.val { x with
      busy := false, done := true, nack := x.nack || r.nack, arb := x.arb || r.arbLost
      buf := if x.cmd.getLsbD 7 then got ++ x.buf.drop got.length else x.buf }) := by
  intro x got
  have hn : field x.cmd 8 5 = x.cmd.toNat / 2 ^ 8 % 32 := by
    rw [field, BitVec.extractLsb'_toNat, Nat.shiftRight_eq_div_pow]
  show execI2cDone u r s = _
  rw [execI2cDone, if_neg (by simp [hbusy])]
  dsimp only
  rw [show s.i2c u.val = x from rfl, hn]
  rfl

/-- GO in a controller that does not transfer (R522, Table PKG-10). -/
theorem I2c.go_of_idle {x : I2c} (hidle : x.busy = false) (c : Word32) :
    x.go c.toNat =
      if c.toNat / 2 ^ 8 % 32 = 0 ∨ 16 < c.toNat / 2 ^ 8 % 32 then { x with badlen := true }
      else if x.ctl.getLsbD 12 then { x with busy := true, cmd := c.truncate 13 } else x := by
  simp only [I2c.go, hidle, Bool.false_eq_true, if_false, Bool.or_eq_true, decide_eq_true_eq, bit]
  rfl

/-! GPIO pins (R476, R522). -/

/-- The Shepherd's station is no core slot (R257). -/
theorem State.slotFenced_shep (s : State) : s.slotFenced shepStation = false := by
  have hhub : dieOfStation shepStation = none := by decide
  rw [State.slotFenced, hhub]

theorem State.send_unheld (s : State) (m : Msg) (hopen : s.slotFenced m.src = false) (hhold : s.shep.hold = false) :
    s.send m = s.put m := by
  rw [State.send, if_neg (by simp [hopen]), if_neg (by simp [hhold])]

@[simp] theorem routed_kind (m : Msg) : (routed m).kind = m.kind := by
  unfold routed Msg.sealed
  split <;> rfl

@[simp] theorem routed_addr (m : Msg) : (routed m).addr = m.addr := by
  unfold routed Msg.sealed
  split <;> rfl

/-- The Shepherd raises its source that some die is assigned by an interrupt message that names it (R116, R127). -/
theorem State.raiseHub_sends {s : State} {i : Nat} {d : Die} (hd : bit (s.intdOwner d i) 10 = true)
    (hhold : s.shep.hold = false) :
    ∃ r m, s.raiseHub shepStation i = { s with reqs := s.reqs ++ [r], net := s.net ++ [m] } ∧ m.kind = .intMsg ∧
      m.addr = BitVec.ofNat 48 i := by
  obtain ⟨e, he⟩ : ∃ e, (List.finRange 12).find? (fun d => bit (s.intdOwner d i) 10) = some e :=
    Option.isSome_iff_exists.1 (List.find?_isSome.2 ⟨d, List.mem_finRange d, hd⟩)
  rw [State.raiseHub, he]
  dsimp only
  rw [State.sendInt, State.send_unheld]
  · exact ⟨_, _, rfl, routed_kind _, routed_addr _⟩
  · exact State.slotFenced_shep _
  · exact hhold

theorem State.setGpio_off (s : State) (g : Nat) {x : Gpio} (h : x.pin = x.pol) :
    s.setGpio g x = { s with gpios := SMap.set {} s.gpios g x } := by
  unfold State.setGpio
  extract_lets old on s'
  rw [if_neg (by simp [on, h])]

theorem State.setGpio_edge (s : State) (g : Nat) {x : Gpio} (hon : x.pin ≠ x.pol) (hedge : x.pin ≠ (s.gpio g).pin) :
    s.setGpio g x = ({ s with gpios := SMap.set {} s.gpios g x } : State).raiseHub shepStation (64 + g) := by
  unfold State.setGpio
  extract_lets old on s'
  rw [if_pos (by simp [on, old, hon, hedge])]

theorem State.gpio_of_gpios {s w : State} {g : Nat} {x : Gpio} (h : w.gpios = SMap.set {} s.gpios g x) :
    w.gpio g = x := by
  rw [State.gpio, h]
  exact SMap.get_set_self ..

theorem exec_gpioPinChange {p : Fin 32} {level : Bool} {s : State} (hin : (s.gpio p.val).oe = false) :
    let u := s.setGpio p.val { s.gpio p.val with pin := level }
    exec (.gpioPinChange p level) s =
      .next (if u.cpField (pwrAddr 0x40) p.val 1 = 1 ∧ level ≠ (s.gpio p.val).pol then u.wakeUp else u) := by
  intro u
  show execGpioPinChange p level s = _
  unfold execGpioPinChange
  extract_lets x v
  rw [if_neg (by simp [x, hin])]
  simp only [Bool.and_eq_true, decide_eq_true_eq, bne_iff_ne]
  rfl

theorem pinChange_off {p : Fin 32} {level : Bool} {s : State} (hin : (s.gpio p.val).oe = false)
    (hoff : level = (s.gpio p.val).pol) :
    Completes (.gpioPinChange p level) s fun w =>
      w.gpio p.val = { s.gpio p.val with pin := level } ∧ w.net = s.net ∧ w.cores = s.cores ∧ w.mem = s.mem := by
  refine ⟨_, exec_gpioPinChange hin, ?_⟩
  rw [if_neg fun h => h.2 hoff, State.setGpio_off _ _ hoff]
  exact ⟨State.gpio_of_gpios rfl, rfl, rfl, rfl⟩

theorem pinChange_edge {p : Fin 32} {level : Bool} {s : State} (hin : (s.gpio p.val).oe = false)
    (hon : level ≠ (s.gpio p.val).pol) (hedge : (s.gpio p.val).pin ≠ level) (hhold : s.shep.hold = false)
    (hsleep : s.cpField (pwrAddr 0x40) p.val 1 = 0) {d : Die} (hd : bit (s.intdOwner d (64 + p.val)) 10 = true) :
    Completes (.gpioPinChange p level) s fun w =>
      w.gpio p.val = { s.gpio p.val with pin := level } ∧ w.mem = s.mem ∧
      ∃ m, w.net = s.net ++ [m] ∧ m.kind = .intMsg ∧ m.addr = BitVec.ofNat 48 (64 + p.val) := by
  obtain ⟨r, m, hsend, hkind, haddr⟩ := State.raiseHub_sends
    (s := { s with gpios := SMap.set {} s.gpios p.val { s.gpio p.val with pin := level } }) hd hhold
  refine ⟨_, exec_gpioPinChange hin, ?_⟩
  rw [State.setGpio_edge _ _ hon hedge.symm, hsend, if_neg]
  · exact ⟨State.gpio_of_gpios rfl, rfl, m, rfl, hkind, haddr⟩
  · exact fun h => Nat.zero_ne_one (hsleep.symm.trans h.1)

/-! The claims. -/

theorem pinResults : PinResults := by
  refine ⟨?_, ?_, ?_, ?_, ?_⟩
  · intro u b fe s x
    exact ⟨fun hon => ⟨_, exec_uartRx hon, State.uart_setUart .., rfl, rfl⟩,
      fun hoff => if_pos (by rw [bit, hoff]; rfl),
      fun hon => ⟨_, exec_uartTxDone hon, State.uart_setUart .., rfl, rfl⟩⟩
  · intro u b who s x
    rw [← s.servedOk_iff u.val who]
    refine ⟨fun hok => ⟨⟨_, exec_uartDataWrite .., ?_⟩, ⟨_, exec_uartDataRead .., ?_⟩⟩,
      fun hno => ⟨?_, ?_⟩⟩
    · rw [if_pos hok, Uart.queue_eq]
      exact ⟨State.uart_setUart .., rfl, rfl⟩
    · rw [if_pos hok]
      exact ⟨State.uart_setUart .., rfl, rfl⟩
    · rw [exec_uartDataWrite, if_neg hno]
    · rw [exec_uartDataRead, if_neg hno]
  · intro u c who s hok x n
    have hexec := exec_i2cGo u c who s
    refine ⟨fun hgo hidle h1 h16 hen => ⟨_, hexec, ?_⟩, fun hgo hidle hlen => ⟨_, hexec, ?_⟩⟩
    · rw [if_pos ⟨(s.servedOk_iff ..).2 hok, hgo⟩, I2c.go_of_idle hidle, if_neg (by omega), if_pos hen]
      exact ⟨State.i2c_setI2c .., rfl⟩
    · rw [if_pos ⟨(s.servedOk_iff ..).2 hok, hgo⟩, I2c.go_of_idle hidle, if_pos hlen]
      exact ⟨State.i2c_setI2c .., rfl⟩
  · intro u r s hbusy
    refine ⟨_, exec_i2cDone hbusy, ?_⟩
    dsimp only
    rw [State.i2c_setI2c]
    exact ⟨rfl, rfl, rfl, rfl, fun hwrite => if_neg (ne_true_of_eq_false hwrite), fun hread => if_pos hread⟩
  · intro p level s x
    exact ⟨pinChange_off, fun hin hon hedge hhold hsleep d hd => pinChange_edge hin hon hedge hhold hsleep hd,
      fun hout => if_pos hout⟩

/-- Settles O20: SGI and EOI by what each branch makes of the interface, the units by what their commands store. -/
theorem sgiEoiAndPinResults : Obligations.SgiEoiAndPinResults := ⟨sgiAndEoiResults, pinResults⟩

end Sys2Proof.Machine
end

