-- ==== Sys2Proof/Proofs/RangeEngine.lean ====
section
namespace Sys2Proof.Machine

open Sys2Proof.Claims

/-! The engine of a die changed. -/

theorem State.die_modRme (s : State) (d : Die) (f : Rme → Rme) :
    (s.modRme d f).die d = { s.die d with rme := f (s.die d).rme } := State.die_modDie ..

theorem State.secs_modRme (s : State) (d : Die) (f : Rme → Rme) : ((s.modRme d f).die d).secs = (s.die d).secs := by
  rw [State.die_modRme]

theorem State.rme_modRme (s : State) (d : Die) (f : Rme → Rme) : ((s.modRme d f).die d).rme = f (s.die d).rme := by
  rw [State.die_modRme]

theorem State.sec_modRme (s : State) (d : Die) (f : Rme → Rme) (set w : Nat) :
    ((s.modRme d f).die d).sec set w = (s.die d).sec set w := by
  rw [State.die_modRme]
  rfl

theorem onlyRme_modRme (s : State) (d : Die) (f : Rme → Rme) : OnlyRme d s (s.modRme d f) (f (s.die d).rme) := by
  refine ⟨s.rme_modRme d f, s.secs_modRme d f, ?_, fun e he => State.die_modDie_of_ne _ _ he, rfl, rfl, rfl⟩
  rw [State.die_modRme]

theorem State.modRme_congr {s : State} {d : Die} {f g : Rme → Rme} (h : f (s.die d).rme = g (s.die d).rme) :
    s.modRme d f = s.modRme d g :=
  congrArg (fun x => s.setDie d { s.die d with rme := x }) h

/-- A command that changes an engine alone leaves what the change makes of it. -/
theorem completes_modRme {i : Instr} {s : State} {d : Die} {f : Rme → Rme} {x : Rme}
    (hexec : exec i s = .next (s.modRme d f)) (hx : f (s.die d).rme = x) :
    Completes i s fun w => OnlyRme d s w x := ⟨_, hexec, hx ▸ onlyRme_modRme s d f⟩

/-! Claims, releases and aborts (R159, R160, R166). -/

section
variable {x : Rme} {who : Accessor}

theorem holderOf_core (h : who.lc.toNat < 216) :
    holderOf who = some ⟨⟨who.lc.toNat, h⟩, who.pid, who.lvl, who.world⟩ := dif_pos h

theorem Rme.claim_free (hlvl : who.lvl ≠ 0) (hfree : x.holder = none) :
    x.claim who = { x with holder := holderOf who } := if_pos (by simpa [hfree] using hlvl)

theorem Rme.claim_held (hheld : x.holder ≠ none) : x.claim who = x := if_neg (by simp [hheld])

theorem Rme.release_holder (hlvl : who.lvl ≠ 3) (hheld : x.heldBy who = true) (hidle : x.busy = false) :
    x.release who = { x with holder := none } := by
  rw [Rme.release, if_neg hlvl, if_pos (by simp [hheld, hidle])]

theorem Rme.release_refused (hlvl : who.lvl ≠ 3) (hno : x.heldBy who = false ∨ x.busy = true) :
    x.release who = x := by
  rw [Rme.release, if_neg hlvl, if_neg (by rcases hno with h | h <;> simp [h])]

theorem Rme.release_m (hlvl : who.lvl = 3) :
    x.release who = { x with holder := none, err := if x.busy = true ∧ x.err = 0 then 5 else x.err } := by
  simp [Rme.release, hlvl]

theorem Rme.abort_running (hmay : x.mayProgram who = true) (hbusy : x.busy = true) (herr : x.err = 0) :
    x.abort who = { x with err := 5 } := if_pos (by simp [hmay, hbusy, herr])

theorem Rme.abort_refused (hno : x.mayProgram who = false ∨ x.busy = false) : x.abort who = x :=
  if_neg (by rcases hno with h | h <;> simp [h])

end

theorem rangeEngineClaims : RangeEngineClaims := by
  intro d who s x
  have hreq : exec (.rmeClaimReq d who) s = .next (s.modRme d (·.claim who)) := rfl
  have hrel : exec (.rmeClaimRel d who) s = .next (s.modRme d (·.release who)) := rfl
  have habort : exec (.rmeAbort d who) s = .next (s.modRme d (·.abort who)) := rfl
  refine ⟨fun h hlvl hfree => completes_modRme hreq ?_, fun hheld => completes_modRme hreq (Rme.claim_held hheld),
    fun hlvl hheld hidle => completes_modRme hrel (Rme.release_holder hlvl hheld hidle),
    fun hlvl hno => completes_modRme hrel (Rme.release_refused hlvl hno),
    fun hlvl => completes_modRme hrel (Rme.release_m hlvl),
    fun hmay hbusy herr => completes_modRme habort (Rme.abort_running hmay hbusy herr),
    fun hno => completes_modRme habort (Rme.abort_refused hno)⟩
  rw [Rme.claim_free hlvl hfree, holderOf_core h]

/-! Launches (R160, R161, Table CACHE-12). -/

/-- The operations of RME_CMD are 1 to 7, and each command launches its own. -/
theorem rmeForms_launch {f : (Die → Word32 → Accessor → Instr) × Nat} (hf : f ∈ rmeForms) :
    1 ≤ f.2 ∧ f.2 ≤ 7 ∧ ∀ d v who s, exec (f.1 d v who) s = .next (s.modRme d (·.launch f.2 v who)) := by
  simp only [rmeForms, List.mem_cons, List.not_mem_nil, or_false] at hf
  rcases hf with rfl | rfl | rfl | rfl | rfl | rfl | rfl
  all_goals exact ⟨by decide, by decide, fun _ _ _ _ => rfl⟩

theorem rmeScopes_iff {op : Nat} (h1 : 1 ≤ op) (h7 : op ≤ 7) (domain : Bool) :
    (if domain then (rmeScopes op).2 else (rmeScopes op).1) = true ↔ ScopeAllowed op domain := by
  unfold ScopeAllowed
  obtain rfl | rfl | rfl | rfl | rfl | rfl | rfl :
    op = 1 ∨ op = 2 ∨ op = 3 ∨ op = 4 ∨ op = 5 ∨ op = 6 ∨ op = 7 := by omega
  all_goals cases domain <;> decide

/-- The engine's range ascends and lies in HBM. -/
def Rme.InHbm (x : Rme) : Prop := x.base.toNat ≤ x.limit.toNat ∧ x.limit.toNat < 0x1000000000

/-- The engine's holder is below H. -/
def Rme.HeldLow (x : Rme) : Prop := ∃ h, x.holder = some h ∧ h.lvl.toNat < 2

theorem Rme.inHbm_iff (x : Rme) :
    (x.limit < x.base || 0x1000000000 ≤ x.base.toNat || 0x1000000000 ≤ x.limit.toNat) = true ↔ ¬ x.InHbm := by
  simp only [Rme.InHbm, Bool.or_eq_true, decide_eq_true_eq, BitVec.lt_def]
  omega

/-- The refusal of a launch, its holder's level taken apart from the holder. -/
theorem Rme.refusal_eq (x : Rme) (op : Nat) (force scope : Bool) :
    x.refusal op force scope =
      if !(if scope then (rmeScopes op).2 else (rmeScopes op).1) then 1
      else if x.limit < x.base || 0x1000000000 ≤ x.base.toNat || 0x1000000000 ≤ x.limit.toNat then 2
      else if force && x.holder.any (fun h => decide (h.lvl.toNat < 2)) then 3
      else 0 := by
  unfold Rme.refusal
  cases x.holder <;> rfl

theorem Rme.forcedLow_iff (x : Rme) (force : Bool) :
    (force && x.holder.any fun h => decide (h.lvl.toNat < 2)) = true ↔ force = true ∧ x.HeldLow := by
  unfold Rme.HeldLow
  cases x.holder <;> simp

section
variable {x : Rme} {op : Nat} {force scope : Bool}

theorem Rme.refusal_scope (h1 : 1 ≤ op) (h7 : op ≤ 7) (hscope : ¬ ScopeAllowed op scope) :
    x.refusal op force scope = 1 := by
  rw [← rmeScopes_iff h1 h7] at hscope
  rw [Rme.refusal_eq]
  exact if_pos (by simpa using hscope)

/-- A launch within its scopes is refused for its range, else for FORCE. -/
theorem Rme.refusal_of_scope (h1 : 1 ≤ op) (h7 : op ≤ 7) (hscope : ScopeAllowed op scope) :
    (¬ x.InHbm → x.refusal op force scope = 2) ∧
    (x.InHbm → force = true ∧ x.HeldLow → x.refusal op force scope = 3) ∧
    (x.InHbm → ¬ (force = true ∧ x.HeldLow) → x.refusal op force scope = 0) := by
  rw [← rmeScopes_iff h1 h7] at hscope
  rw [Rme.refusal_eq, if_neg (by simpa using hscope)]
  refine ⟨fun hout => if_pos (x.inHbm_iff.2 hout), fun hin hforce => ?_, fun hin hforce => ?_⟩
  · rw [if_neg (mt x.inHbm_iff.1 (not_not.2 hin)), if_pos ((x.forcedLow_iff force).2 hforce)]
  · rw [if_neg (mt x.inHbm_iff.1 (not_not.2 hin)), if_neg (mt (x.forcedLow_iff force).1 hforce)]

end

/-- The engine after a launch that is taken, with refusal `r`, 0 where it starts. -/
def Rme.launched (x : Rme) (op : Nat) (v : Word32) (who : Accessor) (r : Nat) : Rme :=
  { x with
    run := x.holder <|> holderOf who, op := BitVec.ofNat 4 op, force := bit v 4, scope := bit v 5
    own := bit v 6, irq := bit v 7, tclass := v.extractLsb' 8 4, err := BitVec.ofNat 3 r
    walk := r = 0 && !bit v 5 && 0x2000000 < x.limit.toNat + 64 - x.base.toNat
    next := x.base.truncate 48, skips := [], lastFail := none
    done := if r ≠ 0 then true else x.done, busy := if r ≠ 0 then x.busy else true }

theorem Rme.launch_taken {x : Rme} {who : Accessor} (hmay : x.mayProgram who = true) (hidle : x.busy = false)
    (op : Nat) (v : Word32) :
    x.launch op v who = x.launched op v who (x.refusal op (bit v 4) (bit v 5)) := by
  unfold Rme.launch Rme.launched
  rw [if_neg (by simp [hmay, hidle])]
  dsimp only
  split <;> rfl

theorem Rme.launch_ignored {x : Rme} {who : Accessor} (h : x.mayProgram who = false ∨ x.busy = true) (op : Nat)
    (v : Word32) : x.launch op v who = x := if_pos (by rcases h with h | h <;> simp [h])

/-- What a launch of operation `op` that is taken leaves of the engine, beside BUSY, DONE and PROGRESS. -/
def LaunchedAs (d : Die) (op : Nat) (v : Word32) (who : Accessor) (s : State) (err : BitVec 3) (w : State) : Prop :=
  let x := (s.die d).rme
  let y := (w.die d).rme
  OnlyRme d s w y ∧ y.holder = x.holder ∧ y.op.toNat = op ∧ y.force = v.getLsbD 4 ∧
  y.scope = v.getLsbD 5 ∧ y.own = v.getLsbD 6 ∧ y.irq = v.getLsbD 7 ∧
  y.tclass = v.extractLsb' 8 4 ∧ y.err = err ∧ y.base = x.base ∧ y.limit = x.limit ∧
  (∀ h, x.holder = some h → y.run = some h) ∧
  (∀ h : who.lc.toNat < 216, x.holder = none →
    y.run = some ⟨⟨who.lc.toNat, h⟩, who.pid, who.lvl, who.world⟩)

theorem launchedAs_modRme (s : State) (d : Die) {op : Nat} (hop : op ≤ 7) (v : Word32) (who : Accessor) (r : Nat) :
    LaunchedAs d op v who s (BitVec.ofNat 3 r) (s.modRme d fun x => x.launched op v who r) := by
  unfold LaunchedAs
  extract_lets x y
  have hy : y = x.launched op v who r := s.rme_modRme d _
  rw [hy]
  refine ⟨onlyRme_modRme .., rfl, ?_, rfl, rfl, rfl, rfl, rfl, rfl, rfl, rfl, fun h hheld => ?_, fun h hfree => ?_⟩
  · exact (BitVec.toNat_ofNat ..).trans (Nat.mod_eq_of_lt (by omega))
  · simp [Rme.launched, hheld]
  · simp [Rme.launched, hfree, holderOf_core h]

section
variable {i : Instr} {d : Die} {s : State} {op : Nat} {v : Word32} {who : Accessor}
  (hexec : exec i s = .next (s.modRme d (·.launch op v who))) (hop : op ≤ 7)
  (hmay : (s.die d).rme.mayProgram who = true) (hidle : (s.die d).rme.busy = false)
include hexec hop hmay hidle

/-- A launch that is taken leaves the engine launched with its refusal. -/
theorem completes_launch {r : Nat} (hr : (s.die d).rme.refusal op (bit v 4) (bit v 5) = r) :
    Completes i s fun w => LaunchedAs d op v who s (BitVec.ofNat 3 r) w ∧
      (w.die d).rme = (s.die d).rme.launched op v who r := by
  have hsame : s.modRme d (·.launch op v who) = s.modRme d fun x => x.launched op v who r := by
    refine State.modRme_congr ?_
    rw [Rme.launch_taken hmay hidle, hr]
  exact ⟨_, hsame ▸ hexec, launchedAs_modRme s d hop v who r, State.rme_modRme ..⟩

theorem completes_launch_refused {r : Nat} (hr : (s.die d).rme.refusal op (bit v 4) (bit v 5) = r) (h0 : r ≠ 0) :
    Completes i s fun w => LaunchedAs d op v who s (BitVec.ofNat 3 r) w ∧ (w.die d).rme.busy = false ∧
      (w.die d).rme.done = true := by
  obtain ⟨w, hw, hset, hrme⟩ := completes_launch hexec hop hmay hidle hr
  refine ⟨w, hw, hset, ?_, ?_⟩
  · rw [hrme]
    exact (if_pos h0).trans hidle
  · rw [hrme]
    exact if_pos h0

theorem completes_launch_started (hr : (s.die d).rme.refusal op (bit v 4) (bit v 5) = 0)
    (hin : (s.die d).rme.InHbm) :
    Completes i s fun w => LaunchedAs d op v who s 0 w ∧ (w.die d).rme.busy = true ∧
      (w.die d).rme.next.toNat = (s.die d).rme.base.toNat := by
  obtain ⟨w, hw, hset, hrme⟩ := completes_launch hexec hop hmay hidle hr
  obtain ⟨hle, hlt⟩ := hin
  refine ⟨w, hw, hset, ?_, ?_⟩
  · rw [hrme]
    rfl
  · rw [hrme]
    exact (BitVec.toNat_setWidth ..).trans (Nat.mod_eq_of_lt (by omega))

end

theorem rangeEngineLaunch : RangeEngineLaunch := by
  intro f hf d v who s x op inHbm low set
  obtain ⟨h1, h7, hexec⟩ := rmeForms_launch hf
  replace hexec := hexec d v who s
  refine ⟨fun hmay hidle => ⟨fun hscope hin hlow => ?_, fun hscope => ?_, fun hscope hout => ?_,
    fun hscope hin hlow => ?_⟩, fun hno => completes_modRme hexec (Rme.launch_ignored hno ..)⟩
  · obtain ⟨-, -, hstart⟩ := Rme.refusal_of_scope (x := x) (force := bit v 4) h1 h7 hscope
    exact completes_launch_started hexec h7 hmay hidle (hstart hin hlow) hin
  · exact completes_launch_refused hexec h7 hmay hidle (Rme.refusal_scope h1 h7 hscope) (by decide)
  · obtain ⟨hrange, -, -⟩ := Rme.refusal_of_scope (x := x) (force := bit v 4) h1 h7 hscope
    exact completes_launch_refused hexec h7 hmay hidle (hrange hout) (by decide)
  · obtain ⟨-, hforce, -⟩ := Rme.refusal_of_scope (x := x) (force := bit v 4) h1 h7 hscope
    exact completes_launch_refused hexec h7 hmay hidle (hforce hin hlow) (by decide)

/-! Line steps (R147, R162, R165). -/

/-- The engine of die `d` may process its next line, for holder `h`. -/
structure EngineRuns (s : State) (d : Die) (h : RmeHolder) : Prop where
  run : (s.die d).rme.run = some h
  busy : (s.die d).rme.busy = true
  err : (s.die d).rme.err = 0
  next : (s.die d).rme.next.toNat ≤ (s.die d).rme.limit.toNat
  out : s.rmeOut d < 32

/-- What the Pasture of the memory of the engine's next line answers. -/
def State.rmeAsk (s : State) (d : Die) (h : RmeHolder) : Bool × State :=
  let a := (s.die d).rme.next.toNat
  match (s.die d).rme.perm with
  | none => (true, s)
  | some p => s.checkPasture (mcStation (quadOf a)) 32 a h.world h.pid p (intdStation d)

section
variable {s s1 : State} {d : Die} {h : RmeHolder}

theorem State.rmeStep_refused (hr : EngineRuns s d h) (hask : s.rmeAsk d h = (false, s1)) :
    s.rmeStep d = s1.modRme d fun r => { r with err := 4 } := by
  obtain ⟨hrun, hbusy, herr, hnext, hout⟩ := hr
  revert hask
  unfold State.rmeStep State.rmeAsk
  simp only [hrun]
  rw [if_neg (by simp [hbusy, herr]; omega)]
  cases (s.die d).rme.perm with
  | none => exact fun hask => absurd (congrArg Prod.fst hask) Bool.noConfusion
  | some p =>
    intro hask
    simp only [hask]
    rfl

theorem State.rmeStep_next (hr : EngineRuns s d h) (hask : s.rmeAsk d h = (true, s1)) {t : State}
    (hline : s1.rmeLine d h ((s.die d).rme.next.toNat / 64) = some t) :
    s.rmeStep d = t.modRme d fun r => { r with next := r.next + 64 } := by
  obtain ⟨hrun, hbusy, herr, hnext, hout⟩ := hr
  revert hask
  unfold State.rmeStep State.rmeAsk
  simp only [hrun]
  rw [if_neg (by simp [hbusy, herr]; omega)]
  cases (s.die d).rme.perm with
  | none =>
    rintro ⟨⟩
    simp only [hline]
    rfl
  | some p =>
    intro hask
    simp only [hask, hline]
    rfl

/-- The engine has moved on by a line, of 64 B. -/
theorem exec_rmeLineStep_next (hr : EngineRuns s d h) (hask : s.rmeAsk d h = (true, s1)) {t : State}
    (hline : s1.rmeLine d h ((s.die d).rme.next.toNat / 64) = some t) :
    exec (.rmeLineStep d) s = .next (t.modRme d fun r => { r with next := r.next + 64 }) :=
  congrArg Host.Outcome.next (State.rmeStep_next hr hask hline)

theorem State.rmeAsk_of_perm {p : Perm} (hp : (s.die d).rme.perm = some p) :
    s.rmeAsk d h = s.checkPasture (mcStation (quadOf (s.die d).rme.next.toNat)) 32 (s.die d).rme.next.toNat h.world
      h.pid p (intdStation d) := by
  unfold State.rmeAsk
  rw [hp]

theorem State.rmeAsk_of_none (hp : (s.die d).rme.perm = none) : s.rmeAsk d h = (true, s) := by
  unfold State.rmeAsk
  rw [hp]

end

section
variable {x : Rme}

theorem Rme.perm_of_cmo (h1 : 1 ≤ x.op.toNat) (h4 : x.op.toNat ≤ 4) :
    x.perm = some (if x.op = 2 ∨ x.op = 4 then .w else .r) := by
  unfold Rme.perm
  generalize x.op = op at *
  revert op
  generalize x.own = own
  revert own
  decide

theorem Rme.perm_of_lock (h : x.op = 5) : x.perm = some (if x.own then .w else .r) := by
  unfold Rme.perm
  rw [h]
  rfl

theorem Rme.perm_of_unlock (h : x.op = 6) : x.perm = none := by
  unfold Rme.perm
  rw [h]
  rfl

theorem Rme.perm_of_clean (h : x.op = 1) : x.perm = some .r := by
  unfold Rme.perm
  rw [h]
  rfl

end

section
variable {s : State} {d : Die} {h : RmeHolder} {line : Nat}

theorem State.SameButTraffic.die {s t : State} (h : s.SameButTraffic t) (d : Die) : t.die d = s.die d := by
  obtain ⟨_, _, _, _, _, rfl⟩ := h
  rfl

theorem State.SameButTraffic.mem {s t : State} (h : s.SameButTraffic t) : t.mem = s.mem := by
  obtain ⟨_, _, _, _, _, rfl⟩ := h
  rfl

theorem State.SameButTraffic.reqs {s t : State} (h : s.SameButTraffic t) : t.reqs = s.reqs := by
  obtain ⟨_, _, _, _, _, rfl⟩ := h
  rfl

/-- A request of the engine is put behind those whose answers are awaited, under the identity of its holder. -/
theorem State.rmeReq_sends {t : Nat} (ht : s.freeTxid (bankOf d line) 32 = some t) {kind : MsgKind} {low way : Nat}
    {data : Option Line} {pois : Bool} {v : State} (hv : s.rmeReq d h kind line low way data pois = some v) :
    ∃ r : Req, ({ s with reqs := s.reqs ++ [r] } : State).SameButTraffic v ∧ r.purpose = .engine d ∧
      r.msg.kind = kind ∧ r.msg.dest = homeOfLine line ∧ r.msg.txid = BitVec.ofNat 14 t ∧ r.msg.s = h.world ∧
      r.msg.pid = h.pid ∧ r.msg.addr = BitVec.ofNat 48 (line * 64 + low) := by
  unfold State.rmeReq at hv
  extract_lets st at hv
  split at hv
  · contradiction
  · rename_i t' ht'
    cases (show s.freeTxid st 32 = some t from ht).symm.trans ht'
    split at hv
    rename_i cls s1 hcls
    extract_lets m s2 at hv
    cases hv
    obtain ⟨_, _, _, _, _, h1⟩ : s.SameButTraffic s1 := by
      have hc := s.classFor_traffic d h.pid (s.die d).rme.tclass
      rwa [hcls] at hc
    refine ⟨{ msg := m, way := way, die := some d, purpose := .engine d },
      State.SameButTraffic.trans ?_ (s2.inject_traffic (.core h.lc) m), rfl, rfl, rfl, rfl, rfl, rfl, rfl⟩
    unfold s2
    rw [h1]
    exact ⟨_, _, _, _, _, rfl⟩

theorem State.rmeReq_isSome (hfree : (s.freeTxid (bankOf d line) 32).isSome = true) (kind : MsgKind) (low way : Nat)
    (data : Option Line) (pois : Bool) : ∃ v, s.rmeReq d h kind line low way data pois = some v := by
  obtain ⟨t, ht⟩ := Option.isSome_iff_exists.1 hfree
  unfold State.rmeReq
  extract_lets st
  rw [show s.freeTxid st 32 = some t from ht]
  exact ⟨_, rfl⟩

theorem State.rmeLine_domain (hscope : (s.die d).rme.scope = true) :
    s.rmeLine d h line = s.rmeReq d h .cmo line
      ((if (s.die d).rme.op.toNat = 4 then 3 else (s.die d).rme.op.toNat - 1) + 4 * b2n (s.die d).rme.force) 0 none
      false := by
  unfold State.rmeLine
  exact if_pos hscope

/-- A step of CLEAN on a line that the die cache does not hold does nothing. -/
theorem State.rmeLine_clean_absent (hscope : (s.die d).rme.scope = false) (hop : (s.die d).rme.op = 1)
    (hway : (s.die d).wayOf line = none) : s.rmeLine d h line = some s := by
  unfold State.rmeLine
  simp [hscope, hop, hway]

/-- A step of UNLOCK clears the lock of the sector. -/
theorem State.rmeLine_unlock {way : Nat} (hscope : (s.die d).rme.scope = false) (hop : (s.die d).rme.op = 6)
    (hway : (s.die d).wayOf line = some way) (hopen : (s.die d).closed.getLsbD way = false) :
    s.rmeLine d h line = some (s.modDie d fun x =>
      x.setSec (dcSet line) way { (s.die d).sec (dcSet line) way with lock := false }) := by
  unfold State.rmeLine
  simp [hscope, hop, hway, hopen]

theorem State.rmeLine_lock (hscope : (s.die d).rme.scope = false) (hop : (s.die d).rme.op = 5) :
    s.rmeLine d h line = s.rmeTake d h line true := by
  unfold State.rmeLine
  simp [hscope, hop]

theorem DieSt.tag_of_wayOf {x : DieSt} {way : Nat} (h : x.wayOf line = some way) :
    (x.sec (dcSet line) way).tag = some (line / 4) := by
  simpa using List.find?_some h

/-- A line that the die cache holds has its way. -/
theorem State.alloc_held {way : Nat} (hway : (s.die d).wayOf line = some way) (u : RegUnit) (cls : BitVec 4) :
    s.alloc d line u cls = .way way s := by
  unfold State.alloc
  simp [hway]

/-- A line that the die cache holds is not fetched. -/
theorem State.rmeFetch_valid (hvalid : ((s.die d).sub line).st ≠ .i) (w : Nat) (own : Bool) :
    s.rmeFetch d h line w own = some s := if_pos hvalid

theorem Sector.eq_of_lock {x : Sector} (h : x.lock = true) : x = { x with lock := true } := by
  rw [← h]

/-- A sector that keeps its tag and its sub-blocks leaves the data of every line. -/
theorem DieSt.sub_setSec_of_subs (x : DieSt) {set w : Nat} {v : Sector} (hv : v.tag = (x.sec set w).tag)
    (hs : v.subs = (x.sec set w).subs) (l : Nat) : (x.setSec set w v).sub l = x.sub l := by
  have hsubs : ∀ i, ((x.setSec set w v).sec (dcSet l) i).subs = (x.sec (dcSet l) i).subs := by
    intro i
    by_cases h : dcSet l * 16 + i = set * 16 + w
    · simp only [DieSt.sec, DieSt.setSec, h, SMap.get_set_self]
      exact hs
    · simp only [DieSt.sec, DieSt.setSec, SMap.get_set_of_ne _ _ _ h]
  unfold DieSt.sub
  rw [x.wayOf_setSec hv]
  simp only [Sector.sub, hsubs]

/-- A LOCK of a line that the die cache holds, in an open way of a set whose limit allows it, sets the sector's
lock. -/
theorem State.rmeTake_lock {way : Nat} (hway : (s.die d).wayOf line = some way)
    (hopen : (s.die d).closed.getLsbD way = false) (hvalid : ((s.die d).sub line).st ≠ .i)
    (hroom : ((s.die d).sec (dcSet line) way).lock = true ∨ (s.die d).lockedIn (dcSet line) < s.lockMax d) :
    ∃ v : State, s.rmeTake d h line true = some v ∧ (v.die d).rme = (s.die d).rme ∧
      (v.die d).sec (dcSet line) way = { (s.die d).sec (dcSet line) way with lock := true } ∧
      v.net = s.net ∧ v.mem = s.mem := by
  have htag := DieSt.tag_of_wayOf hway
  have hstay : ¬ ((s.die d).wayOf line).any (fun w => (s.die d).closed.getLsbD w) = true := by simp [hway, hopen]
  unfold State.rmeTake
  extract_lets x r set
  rw [if_neg hstay, State.alloc_held hway]
  dsimp only
  rw [if_pos htag]
  by_cases hlock : ((s.die d).sec set way).lock = true
  · rw [if_pos (by simp [hlock]), State.rmeFetch_valid hvalid]
    exact ⟨s, rfl, rfl, Sector.eq_of_lock hlock, rfl, rfl⟩
  · rw [if_neg (by simp [hlock]), if_pos (hroom.resolve_left hlock), State.rmeFetch_valid]
    · refine ⟨_, rfl, ?_, ?_, rfl, rfl⟩
      · rw [State.die_modDie]
        rfl
      · rw [State.die_modDie, DieSt.sec_setSec]
    · have hsub := (s.die d).sub_setSec_of_subs (set := set) (w := way)
        (v := { (s.die d).sec set way with lock := true }) rfl rfl line
      rwa [State.die_modDie, hsub]

end

/-! What a line step leaves. -/

section
variable {s s1 : State} {d : Die} {h : RmeHolder} (hr : EngineRuns s d h) (hask : s.rmeAsk d h = (true, s1))
  (hdie : s1.die d = s.die d)
include hr hask hdie

/-- A line step of DOMAIN scope sends the home of the line a CMO, and moves on. -/
theorem lineStep_domain {t : Nat} :
    let x := (s.die d).rme
    let line := x.next.toNat / 64
    x.scope = true → s1.freeTxid (bankOf d line) 32 = some t →
    Completes (.rmeLineStep d) s fun w =>
      (w.die d).rme = { x with next := x.next + 64 } ∧ (w.die d).secs = (s.die d).secs ∧
      w.mem = s1.mem ∧ ∃ r ∈ w.reqs, r.purpose = .engine d ∧ r.msg.kind = .cmo ∧
        r.msg.dest = homeOfLine line ∧ r.msg.txid = BitVec.ofNat 14 t ∧ r.msg.s = h.world ∧
        r.msg.pid = h.pid ∧ r.msg.addr = BitVec.ofNat 48 (64 * line +
          (if x.op = 4 then 3 else x.op.toNat - 1) + if x.force then 4 else 0) := by
  intro x line hscope hfree
  have hx : (s1.die d).rme = x := congrArg DieSt.rme hdie
  obtain ⟨v, hv⟩ := State.rmeReq_isSome (h := h) (Option.isSome_iff_exists.2 ⟨t, hfree⟩) .cmo
    ((if x.op.toNat = 4 then 3 else x.op.toNat - 1) + 4 * b2n x.force) 0 none false
  have hline : s1.rmeLine d h line = some v := by
    rw [State.rmeLine_domain (hx ▸ hscope), hx, hv]
  obtain ⟨r, hsame, hpurpose, hkind, hdest, htxid, hs, hpid, haddr⟩ := State.rmeReq_sends hfree hv
  have hvdie : v.die d = s.die d := (hsame.die d).trans hdie
  refine ⟨_, exec_rmeLineStep_next hr hask hline, ?_, ?_, hsame.mem, r, ?_, hpurpose, hkind, hdest, htxid, hs, hpid, ?_⟩
  · rw [State.rme_modRme, hvdie]
  · rw [State.secs_modRme, hvdie]
  · exact hsame.reqs ▸ List.mem_append_right _ (List.mem_singleton_self r)
  · have hzero : x.op.toNat = 4 ↔ x.op = 4 := BitVec.toNat_inj (y := 4)
    simp only [haddr, hzero, ← Nat.add_assoc, Nat.mul_comm line]
    cases x.force <;> rfl

/-- A line step of LOCK on a line that the die cache holds sets the sector's lock, and moves on. -/
theorem lineStep_lock {way : Nat} :
    let x := (s.die d).rme
    let line := x.next.toNat / 64
    x.scope = false → x.op = 5 → (s.die d).wayOf line = some way → (s.die d).closed.getLsbD way = false →
    ((s.die d).sub line).st ≠ .i →
    ((s.die d).sec (dcSet line) way).lock = true ∨ (s.die d).lockedIn (dcSet line) < s1.lockMax d →
    Completes (.rmeLineStep d) s fun w =>
      (w.die d).rme = { x with next := x.next + 64 } ∧
      ((w.die d).sec (dcSet line) way) = { (s.die d).sec (dcSet line) way with lock := true } ∧
      w.net = s1.net ∧ w.mem = s1.mem := by
  intro x line hscope hop hway hopen hvalid hroom
  rw [← hdie] at hway hopen hvalid hroom
  have hx : (s1.die d).rme = x := congrArg DieSt.rme hdie
  obtain ⟨v, hv, hrme, hsec, hnet, hmem⟩ := State.rmeTake_lock (h := h) hway hopen hvalid hroom
  have hline : s1.rmeLine d h line = some v := by
    rw [State.rmeLine_lock (hx ▸ hscope) (hx ▸ hop), hv]
  refine ⟨_, exec_rmeLineStep_next hr hask hline, ?_, ?_, hnet, hmem⟩
  · rw [State.rme_modRme, hrme, hx]
  · rw [State.sec_modRme, hsec, hdie]

/-- A line step of CLEAN on a line that the die cache does not hold only moves on. -/
theorem lineStep_clean_absent :
    let x := (s.die d).rme
    x.scope = false → x.op = 1 → (s.die d).wayOf (x.next.toNat / 64) = none →
    Completes (.rmeLineStep d) s fun w =>
      (w.die d).rme = { x with next := x.next + 64 } ∧ (w.die d).secs = (s.die d).secs ∧
      w.net = s1.net ∧ w.mem = s1.mem := by
  intro x hscope hop hway
  rw [← hdie] at hway
  have hx : (s1.die d).rme = x := congrArg DieSt.rme hdie
  have hline := State.rmeLine_clean_absent (h := h) (hx ▸ hscope) (hx ▸ hop) hway
  refine ⟨_, exec_rmeLineStep_next hr hask hline, ?_, ?_, rfl, rfl⟩
  · rw [State.rme_modRme, hx]
  · rw [State.secs_modRme, hdie]

end

section
variable {s : State} {d : Die} {h : RmeHolder}

/-- A line step of UNLOCK clears the sector's lock, and moves on. -/
theorem lineStep_unlock (hr : EngineRuns s d h) {way : Nat} :
    let x := (s.die d).rme
    let line := x.next.toNat / 64
    x.scope = false → x.op = 6 → (s.die d).wayOf line = some way → (s.die d).closed.getLsbD way = false →
    Completes (.rmeLineStep d) s fun w =>
      (w.die d).rme = { x with next := x.next + 64 } ∧
      ((w.die d).sec (dcSet line) way) = { (s.die d).sec (dcSet line) way with lock := false } ∧
      w.cores = s.cores ∧ w.net = s.net ∧ w.mem = s.mem := by
  intro x line hscope hop hway hopen
  have hask : s.rmeAsk d h = (true, s) := State.rmeAsk_of_none (Rme.perm_of_unlock hop)
  refine ⟨_, exec_rmeLineStep_next hr hask (State.rmeLine_unlock hscope hop hway hopen), ?_, ?_, rfl, rfl, rfl⟩
  · rw [State.rme_modRme, State.die_modDie]
    rfl
  · rw [State.sec_modRme, State.die_modDie, DieSt.sec_setSec]

/-- A line that the Pasture refuses stops the command at the line. -/
theorem lineStep_refused (hr : EngineRuns s d h) {s1 : State} (hask : s.rmeAsk d h = (false, s1))
    (hdie : s1.die d = s.die d) :
    Completes (.rmeLineStep d) s fun w =>
      (w.die d).rme = { (s.die d).rme with err := 4 } ∧ (w.die d).secs = (s.die d).secs ∧ w.mem = s1.mem := by
  refine ⟨_, congrArg Host.Outcome.next (State.rmeStep_refused hr hask), ?_, ?_, rfl⟩
  · rw [State.rme_modRme, hdie]
  · rw [State.secs_modRme, hdie]

end

/-! Completion (R166). -/

section
variable {s : State} {d : Die}

theorem State.rmeComplete_eq (s : State) (d : Die) :
    s.rmeComplete d =
      if (s.die d).rme.busy = true ∧ s.rmeOut d = 0 ∧
          ((s.die d).rme.err ≠ 0 ∨ (s.die d).rme.limit.toNat < (s.die d).rme.next.toNat) then
        let t := s.modRme d fun r => { r with busy := false, done := true }
        if (s.die d).rme.irq then t.assertDie d 32 else t
      else s := by
  simp only [State.rmeComplete, Bool.and_eq_true, Bool.or_eq_true, decide_eq_true_eq, and_assoc]

/-- The engine after its completion, and its source as RME_DONE leaves it where it is asked for. -/
theorem rmeComplete_completes (hbusy : (s.die d).rme.busy = true) (hout : s.rmeOut d = 0)
    (hend : (s.die d).rme.err ≠ 0 ∨ (s.die d).rme.limit.toNat < (s.die d).rme.next.toNat) :
    Completes (.rmeComplete d) s fun w =>
      (w.die d).rme = { (s.die d).rme with busy := false, done := true } ∧
      ((s.die d).rme.irq = true → ((w.die d).intd.src 32).pend =
        (((s.die d).intd.src 32).pend || !((s.die d).intd.src 32).level)) ∧
      ((s.die d).rme.irq = false → (w.die d).intd = (s.die d).intd) ∧ w.cores = s.cores ∧ w.mem = s.mem := by
  refine ⟨_, congrArg Host.Outcome.next ((s.rmeComplete_eq d).trans (if_pos ⟨hbusy, hout, hend⟩)), ?_⟩
  dsimp only
  have hdie := s.die_modRme d fun r => { r with busy := false, done := true }
  by_cases hirq : (s.die d).rme.irq = true
  · rw [if_pos hirq, State.assertDie, State.modSrc, State.die_modDie, hdie]
    refine ⟨rfl, fun _ => ?_, fun h => absurd hirq (by simp [h]), rfl, rfl⟩
    rw [Intd.src_modSrc, if_pos rfl]
  · rw [if_neg hirq, hdie]
    exact ⟨rfl, fun h => absurd h hirq, fun _ => rfl, rfl, rfl⟩

theorem rmeComplete_waits (hno : (s.die d).rme.busy = false ∨ s.rmeOut d ≠ 0 ∨
      ((s.die d).rme.err = 0 ∧ (s.die d).rme.next.toNat ≤ (s.die d).rme.limit.toNat)) :
    exec (.rmeComplete d) s = .next s := by
  refine congrArg Host.Outcome.next ((s.rmeComplete_eq d).trans (if_neg ?_))
  rintro ⟨hbusy, hout, hend⟩
  rcases hno with h | h | ⟨herr, hnext⟩
  · simp [hbusy] at h
  · exact h hout
  · rcases hend with he | he
    · exact he herr
    · omega

end

theorem rangeEngineProgress : RangeEngineProgress := by
  refine ⟨?_, fun d s => ⟨rmeComplete_completes, rmeComplete_waits⟩⟩
  intro d s h x line hrun hbusy herr hnext hout passes
  have hr : EngineRuns s d h := ⟨hrun, hbusy, herr, hnext, hout⟩
  have hask : ∀ {p ok s1}, x.perm = some p → passes p ok s1 → s.rmeAsk d h = (ok, s1) :=
    fun hp hpass => (State.rmeAsk_of_perm hp).trans hpass.1
  refine ⟨fun s1 t hscope h1 h4 hpass => ?_, fun s1 way hscope hop hpass => ?_,
    fun way => lineStep_unlock hr, fun s1 hscope hop hway hpass => ?_, fun s1 hop hpass => ?_⟩
  · exact lineStep_domain hr (hask (Rme.perm_of_cmo h1 h4) hpass) hpass.2 hscope
  · exact lineStep_lock hr (hask (Rme.perm_of_lock hop) hpass) hpass.2 hscope hop
  · exact lineStep_clean_absent hr (hask (Rme.perm_of_clean hop) hpass) hpass.2 hscope hop hway
  · exact lineStep_refused hr (hask (Rme.perm_of_clean hop) hpass) hpass.2

/-- Settles O21: claims and launches by what they make of the engine, steps and completion by what the line or the
engine's end leaves. -/
theorem rangeEngineResults : Obligations.RangeEngineResults :=
  ⟨rangeEngineClaims, rangeEngineLaunch, rangeEngineProgress⟩

end Sys2Proof.Machine
end

