-- ==== Sys2Proof/Proofs/HomeParts.lean ====
section
/-! SUPPORT. The parts of a home: duplicate tags, the MSC, memory's copy of a line, the table's rest. -/

namespace Sys2Proof.Machine

open Sys2Proof.Claims

/-! Duplicate tags (R176, R177). -/

theorem dcSet_lt (line : Nat) : dcSet line < 8192 := Nat.mod_lt _ (by decide)

/-- Ways of a set of the duplicate tags have keys of their own. -/
theorem dtKey_inj {d e : Die} {set v w : Nat} (_ : set < 8192) (hv : v < 16) (hw : w < 16)
    (h : dtKey d set v = dtKey e set w) : d = e ∧ v = w := by
  have hd : d.val = e.val := by
    unfold dtKey at h
    omega
  unfold dtKey at h
  exact ⟨Fin.ext hd, by omega⟩

/-- A line's state is set in way `w` of die `d`, where its tag is there. -/
def State.tagWay (d : Die) (line : Nat) (c : CState) (s : State) (w : Nat) : State :=
  let x := s.dtSec d (dcSet line) w
  if x.tag = some (line / 4) then
    { s with dt := SMap.set {} s.dt (dtKey d (dcSet line) w) { x with st := SMap.set CState.i x.st (line % 4) c } }
  else s

theorem State.setDt_eq (s : State) (d : Die) (line : Nat) (c : CState) :
    s.setDt d line c =
      if c = .e then (List.range 16).foldl (State.tagWay d line c) s
      else ((List.range 16).foldl (State.tagWay d line c) s).modHome (quadOf (64 * line)) fun h =>
        { h with eList := h.eList.filter (· ≠ line) } := rfl

theorem State.dtSec_tagWay (s : State) (d : Die) (line : Nat) (c : CState) {v : Nat} (hv : v < 16) (e : Die) {w : Nat}
    (hw : w < 16) :
    (s.tagWay d line c v).dtSec e (dcSet line) w =
      if e = d ∧ w = v ∧ (s.dtSec d (dcSet line) w).tag = some (line / 4) then
        { s.dtSec d (dcSet line) w with st := SMap.set CState.i (s.dtSec d (dcSet line) w).st (line % 4) c }
      else s.dtSec e (dcSet line) w := by
  unfold State.tagWay
  extract_lets x
  by_cases htag : x.tag = some (line / 4)
  · rw [if_pos htag]
    by_cases hk : e = d ∧ w = v
    · obtain ⟨rfl, rfl⟩ := hk
      rw [if_pos ⟨rfl, rfl, htag⟩]
      exact SMap.get_set_self ..
    · rw [if_neg fun h => hk ⟨h.1, h.2.1⟩]
      exact SMap.get_set_of_ne _ _ _ fun h => hk (dtKey_inj (dcSet_lt line) hw hv h)
  · rw [if_neg htag, if_neg]
    rintro ⟨-, rfl, h⟩
    exact htag h

theorem State.dtSec_foldl_tagWay (s : State) (d : Die) (line : Nat) (c : CState) {n : Nat} (hn : n ≤ 16) (e : Die)
    {w : Nat} (hw : w < 16) :
    ((List.range n).foldl (State.tagWay d line c) s).dtSec e (dcSet line) w =
      if e = d ∧ w < n ∧ (s.dtSec d (dcSet line) w).tag = some (line / 4) then
        { s.dtSec d (dcSet line) w with st := SMap.set CState.i (s.dtSec d (dcSet line) w).st (line % 4) c }
      else s.dtSec e (dcSet line) w := by
  induction n generalizing e with
  | zero => rw [if_neg (by omega)]; rfl
  | succ n ih =>
    rw [List.range_succ, List.foldl_append, List.foldl_cons, List.foldl_nil, State.dtSec_tagWay _ _ _ _ (by omega) _ hw]
    by_cases h : w = n
    · subst h
      simp only [ih (by omega), Nat.lt_irrefl, false_and, and_false, if_false, true_and, Nat.lt_succ_self]
    · rw [if_neg fun hc => h hc.2.1, ih (by omega)]
      simp only [show w < n + 1 ↔ w < n by omega]

theorem State.tagWay_only (s : State) (d : Die) (line : Nat) (c : CState) (w : Nat) :
    ∃ dt, s.tagWay d line c w = { s with dt := dt } := by
  unfold State.tagWay
  extract_lets x
  split <;> exact ⟨_, rfl⟩

/-- `t` is `s` but for duplicate tags and E lists. -/
def State.SameButTags (s t : State) : Prop :=
  ∃ dt homes, t = { s with dt := dt, homes := homes } ∧ ∀ q, t.home q = { s.home q with eList := (t.home q).eList }

theorem State.setDt_tags (s : State) (d : Die) (line : Nat) (c : CState) : s.SameButTags (s.setDt d line c) := by
  have hfold : ∀ n, ∃ dt, (List.range n).foldl (State.tagWay d line c) s = { s with dt := dt } := by
    intro n
    induction n with
    | zero => exact ⟨_, rfl⟩
    | succ n ih =>
      obtain ⟨dt, h⟩ := ih
      rw [List.range_succ, List.foldl_append, List.foldl_cons, List.foldl_nil, h]
      exact State.tagWay_only ..
  obtain ⟨dt, h⟩ := hfold 16
  rw [State.setDt_eq, h]
  split
  · exact ⟨_, _, rfl, fun _ => rfl⟩
  · refine ⟨_, _, rfl, fun q => ?_⟩
    by_cases hq : q = quadOf (64 * line)
    · subst hq
      rw [State.home_modHome]
      rfl
    · rw [State.home_modHome_of_ne _ _ hq]
      rfl

/-- What a way of the duplicate tags says of a line. -/
def DtSec.holds (x : DtSec) (line : Nat) : Option CState :=
  if x.tag = some (line / 4) && SMap.get CState.i x.st (line % 4) ≠ .i then some (SMap.get CState.i x.st (line % 4))
  else none

theorem State.dtState_eq (s : State) (d : Die) (line : Nat) :
    s.dtState d line = ((List.range 16).filterMap fun w => (s.dtSec d (dcSet line) w).holds line).head?.getD .i := by
  unfold State.dtState DtSec.holds
  dsimp only

theorem State.dtSec_congr {s t : State} (h : t.dt = s.dt) (d : Die) (set w : Nat) :
    t.dtSec d set w = s.dtSec d set w := by rw [State.dtSec, h, State.dtSec]

theorem State.dtSec_setDt_i (s : State) (d : Die) (line : Nat) (e : Die) {w : Nat} (hw : w < 16) :
    (s.setDt d line .i).dtSec e (dcSet line) w =
      if e = d ∧ w < 16 ∧ (s.dtSec d (dcSet line) w).tag = some (line / 4) then
        { s.dtSec d (dcSet line) w with st := SMap.set CState.i (s.dtSec d (dcSet line) w).st (line % 4) .i }
      else s.dtSec e (dcSet line) w := by
  rw [State.setDt_eq, if_neg (by decide), State.dtSec_congr (State.modHome_dt ..)]
  exact State.dtSec_foldl_tagWay s d line .i (Nat.le_refl 16) e hw

/-- After a line's tags of a die are set to I, the die holds it no more, and the other dies as before. -/
theorem State.dtState_setDt_i (s : State) (d : Die) (line : Nat) (e : Die) :
    (s.setDt d line .i).dtState e line = if e = d then .i else s.dtState e line := by
  have hways : ∀ w ∈ List.range 16, ((s.setDt d line .i).dtSec e (dcSet line) w).holds line =
      if e = d then none else (s.dtSec e (dcSet line) w).holds line := fun w hw => by
    have hw := List.mem_range.1 hw
    rw [s.dtSec_setDt_i d line e hw]
    by_cases h : e = d
    · subst h
      rw [if_pos rfl]
      by_cases htag : (s.dtSec e (dcSet line) w).tag = some (line / 4)
      · simp [DtSec.holds, hw, htag]
      · simp [DtSec.holds, htag]
    · rw [if_neg fun hc => h hc.1, if_neg h]
  rw [State.dtState_eq, State.dtState_eq, List.filterMap_congr hways]
  by_cases h : e = d
  · simp [h]
  · simp only [if_neg h]

theorem State.dtState_congr {s t : State} (h : t.dt = s.dt) (d : Die) (line : Nat) :
    t.dtState d line = s.dtState d line := by
  simp only [State.dtState_eq, State.dtSec_congr h]

/-! The MSC (R155, R156). -/

/-- Whether a way of an MSC holds a line. -/
def Msc.holds (x : Msc) (line w : Nat) : Bool :=
  (SMap.get none x.ways (mscSet line * 16 + w)).any fun l => l.line == line

theorem Msc.wayOf_eq (x : Msc) (line : Nat) : x.wayOf line = (List.range 16).find? (x.holds line) := by
  unfold Msc.wayOf
  congr 1
  funext w
  unfold Msc.holds
  cases SMap.get none x.ways (mscSet line * 16 + w) <;> rfl

theorem Msc.wayOf_eq_some_iff (x : Msc) (line w : Nat) :
    x.wayOf line = some w ↔ w < 16 ∧ x.holds line w = true ∧ ∀ v < w, x.holds line v = false := by
  rw [x.wayOf_eq, List.find?_range_eq_some]
  simp only [Bool.not_eq_true', List.mem_range]
  tauto

theorem Msc.wayOf_eq_none_iff (x : Msc) (line : Nat) : x.wayOf line = none ↔ ∀ v < 16, x.holds line v = false := by
  rw [x.wayOf_eq, List.find?_eq_none]
  simp

theorem Msc.find_eq (x : Msc) (line : Nat) :
    x.find line = (x.wayOf line).bind fun w => SMap.get none x.ways (mscSet line * 16 + w) := by
  unfold Msc.find
  cases x.wayOf line <;> rfl

theorem Msc.find_touch (x : Msc) (l w line : Nat) : (x.touch l w).find line = x.find line := rfl

/-- The line that is found has the number sought. -/
theorem Msc.line_of_find {x : Msc} {line : Nat} {l : MscLine} (h : x.find line = some l) :
    l.line = line ∧ ∃ w, x.wayOf line = some w ∧ SMap.get none x.ways (mscSet line * 16 + w) = some l := by
  rw [x.find_eq] at h
  obtain ⟨w, hw, hl⟩ := Option.bind_eq_some_iff.1 h
  obtain ⟨-, hholds, -⟩ := (x.wayOf_eq_some_iff line w).1 hw
  rw [Msc.holds, hl] at hholds
  exact ⟨by simpa using hholds, w, hw, hl⟩

/-- A line entered in a way below which no way of its set holds it is found there. -/
theorem Msc.find_set {x : Msc} {l : MscLine} {w : Nat} (hw : w < 16) (hfirst : ∀ v < w, x.holds l.line v = false) :
    ({ x with ways := SMap.set none x.ways (mscSet l.line * 16 + w) (some l) } : Msc).find l.line = some l := by
  have hget : SMap.get none (SMap.set none x.ways (mscSet l.line * 16 + w) (some l)) (mscSet l.line * 16 + w)
      = some l := SMap.get_set_self ..
  rw [Msc.find_eq, (Msc.wayOf_eq_some_iff _ _ w).2 ⟨hw, ?_, fun v hv => ?_⟩]
  · exact hget
  · rw [Msc.holds, hget]
    simp
  · rw [← hfirst v hv, Msc.holds, Msc.holds, SMap.get_set_of_ne _ _ _ (by omega)]

/-- The walk of a pseudo-LRU tree ends at one of its ways. -/
theorem plruPick_lt (bits : Nat) (elig : Nat → Bool) (n node base : Nat) :
    plruPick bits elig n node base < base + 2 ^ n := by
  induction n generalizing node base with
  | zero => simp [plruPick]
  | succ n ih =>
    unfold plruPick
    extract_lets half lo hi
    have hhalf : half = 2 ^ n := rfl
    rw [Nat.pow_succ]
    split
    · have h := ih (2 * node) base
      omega
    · have h := ih (2 * node + 1) (base + half)
      omega

/-- A line entered into an MSC is found there. -/
theorem Msc.find_put (x : Msc) (l : MscLine) : (x.put l).1.find l.line = some l := by
  unfold Msc.put
  extract_lets set w old
  rw [Msc.find_touch]
  suffices hw : w < 16 ∧ ∀ v < w, x.holds l.line v = false from Msc.find_set hw.1 hw.2
  cases hway : x.wayOf l.line with
  | some v =>
    have hv : w = v := by simp only [w, hway]
    obtain ⟨hlt, -, hfirst⟩ := (x.wayOf_eq_some_iff _ v).1 hway
    exact hv ▸ ⟨hlt, hfirst⟩
  | none =>
    have hnone := (x.wayOf_eq_none_iff _).1 hway
    have hlt : w < 16 := by
      simp only [w, hway]
      split
      · exact List.mem_range.1 (List.mem_of_find?_eq_some ‹_›)
      · exact plruPick_lt _ _ 4 1 0
    exact ⟨hlt, fun v hv => hnone v (by omega)⟩

end Sys2Proof.Machine
end

