-- ==== Sys2Proof/Proofs/HomeErrors.lean ====
section
namespace Sys2Proof.Machine

open Sys2Proof.Claims

/-! The memory copy of a line, and a line poisoned (R183, R195). -/

/-- Whether the memory copy of a line is poisoned, by the place that has it. -/
theorem State.memCopy_pois (s : State) (line : Nat) :
    (s.memCopy line).2 =
      let q := quadOf (64 * line)
      (((s.home q).msc.find line).map (·.pois)).getD
        ((((s.home q).wout.reverse.find? fun w => w.line == line).map (·.pois)).getD
          (((((s.mc q).pc (pcOf line)).writes.reverse.find? fun w => w.line == line).map (·.pois)).getD
            (SMap.get false s.poisLine line))) := by
  unfold State.memCopy
  extract_lets q h
  have hh : s.home q = h := rfl
  rw [hh]
  cases h.msc.find line with
  | some l => rfl
  | none =>
    cases h.wout.reverse.find? fun w => w.line == line with
    | some w => rfl
    | none => cases ((s.mc q).pc (pcOf line)).writes.reverse.find? fun w => w.line == line <;> rfl

/-- A line of an MSC marked as poisoned. -/
def Msc.poison (x : Msc) (line : Nat) : Msc :=
  match x.wayOf line, x.find line with
  | some w, some l => { x with ways := SMap.set none x.ways (mscSet line * 16 + w) (some { l with pois := true }) }
  | _, _ => x

theorem Msc.poison_of_find {x : Msc} {line w : Nat} {l : MscLine} (hw : x.wayOf line = some w)
    (hl : x.find line = some l) :
    x.poison line = { x with ways := SMap.set none x.ways (mscSet line * 16 + w) (some { l with pois := true }) } := by
  unfold Msc.poison
  rw [hw, hl]

theorem Msc.poison_of_absent {x : Msc} {line : Nat} (h : x.find line = none) : x.poison line = x := by
  unfold Msc.poison
  rw [h]
  split
  · contradiction
  · rfl

/-- The line marked is found marked. -/
theorem Msc.find_poison_self (x : Msc) (line : Nat) :
    (x.poison line).find line = (x.find line).map fun l => { l with pois := true } := by
  cases hl : x.find line with
  | none => rw [Msc.poison_of_absent hl, hl]; rfl
  | some l =>
    obtain ⟨hline, w, hw, -⟩ := Msc.line_of_find hl
    obtain ⟨hlt, -, hfirst⟩ := (x.wayOf_eq_some_iff line w).1 hw
    rw [Msc.poison_of_find hw hl]
    subst hline
    exact Msc.find_set (l := { l with pois := true }) hlt hfirst

theorem find?_any_bind {α β : Type} (g : α → Option β) (p : β → Bool) (l : List α) :
    (l.find? fun a => (g a).any p).bind g = l.findSome? fun a => (g a).filter p := by
  induction l with
  | nil => rfl
  | cons a l ih =>
    rw [List.find?_cons, List.findSome?_cons]
    cases hg : g a with
    | none => simpa using ih
    | some b => cases hp : p b <;> simp [hg, hp, Option.filter, ih]

/-- What is found of a line depends on the ways that hold it alone. -/
theorem Msc.find_eq_findSome (x : Msc) (line : Nat) :
    x.find line = (List.range 16).findSome? fun w =>
      (SMap.get none x.ways (mscSet line * 16 + w)).filter fun l => l.line == line := by
  rw [x.find_eq, x.wayOf_eq]
  exact find?_any_bind ..

/-- Marking a line leaves what is found of the others. -/
theorem Msc.find_poison_of_ne (x : Msc) {l line : Nat} (h : line ≠ l) : (x.poison l).find line = x.find line := by
  cases hl : x.find l with
  | none => rw [Msc.poison_of_absent hl]
  | some y =>
    obtain ⟨hline, w, hw, hget⟩ := Msc.line_of_find hl
    rw [Msc.poison_of_find hw hl]
    have hways : ∀ k, (SMap.get none (SMap.set none x.ways (mscSet l * 16 + w) (some { y with pois := true })) k).filter
        (fun z => z.line == line) = (SMap.get none x.ways k).filter fun z => z.line == line := by
      intro k
      by_cases hk : k = mscSet l * 16 + w
      · subst hk
        rw [SMap.get_set_self, hget]
        simp [Option.filter, hline, Ne.symm h]
      · rw [SMap.get_set_of_ne _ _ _ hk]
    rw [Msc.find_eq_findSome, Msc.find_eq_findSome]
    simp only [hways]

/-- A queued write of a line after the line is poisoned (R205). -/
def McWrite.poison (line : Nat) (w : McWrite) : McWrite :=
  if w.line = line then { w with data := 0, pois := true, scrub := false } else w

/-- A write that a controller has of a line, after another or the same line is poisoned. -/
theorem find?_map_poison (l line : Nat) (ws : List McWrite) :
    ((ws.map (McWrite.poison l)).reverse.find? fun w => w.line == line).map (·.pois) =
      (ws.reverse.find? fun w => w.line == line).map fun w => if line = l then true else w.pois := by
  have hline : ∀ w, (McWrite.poison l w).line = w.line := fun w => by
    unfold McWrite.poison
    split <;> rfl
  rw [← List.map_reverse, List.find?_map]
  simp only [Function.comp_def, hline, Option.map_map]
  cases h : ws.reverse.find? fun w => w.line == line with
  | none => rfl
  | some w =>
    have hw : w.line = line := by simpa using List.find?_some h
    simp only [Option.map_some, McWrite.poison, hw]
    split <;> rfl

/-- The writes on their way after a line's are taken out. -/
theorem find?_filter_wout (l line : Nat) (ws : List WrOut) :
    ((ws.filter fun w => w.line ≠ l).reverse.find? fun w => w.line == line) =
      if line = l then none else ws.reverse.find? fun w => w.line == line := by
  rw [← List.filter_reverse, List.find?_filter]
  by_cases h : line = l
  · subst h
    rw [if_pos rfl, List.find?_eq_none]
    simp
  · rw [if_neg h]
    congr 1
    funext w
    by_cases hw : w.line = line
    · simp [hw, h]
    · simp [hw]

section
variable (s : State) (q : Quad) (l : Nat)

/-- A home after a line of its quadrant is poisoned. -/
def Home.poison (h : Home) (line : Nat) : Home :=
  { h with msc := h.msc.poison line, wout := h.wout.filter fun w => w.line ≠ line }

/-- The writes of the line that a controller has queued. -/
def State.writesOf (s : State) (q : Quad) (line : Nat) : List McWrite :=
  ((s.mc q).pc (pcOf line)).writes.filter fun w => w.line == line

theorem State.poisonLine_eq : s.poisonLine q l =
    let t := s.modHome q fun h => h.poison l
    if (s.writesOf q l).length = 0 then
      { t.setMemLine l 0 fullMask with poisLine := SMap.set false s.poisLine l true }
    else (t.countAt (cpAddr (mcStation q) 0x0C4) 0 32 (s.writesOf q l).length).modMc q fun x =>
      { x with pcs := SMap.set {} x.pcs (pcOf l) { (s.mc q).pc (pcOf l) with
        writes := ((s.mc q).pc (pcOf l)).writes.map (McWrite.poison l) } } := by
  unfold State.poisonLine
  rfl

theorem State.home_congr {s t : State} (h : t.homes = s.homes) (q : Quad) : t.home q = s.home q := by
  rw [State.home, h, State.home]

theorem State.mc_congr {s t : State} (h : t.mcs = s.mcs) (q : Quad) : t.mc q = s.mc q := by
  rw [State.mc, h, State.mc]

theorem State.poisonLine_home : (s.poisonLine q l).home q = (s.home q).poison l := by
  refine (State.home_congr (s := s.modHome q fun h => h.poison l) ?_ q).trans (State.home_modHome ..)
  rw [State.poisonLine_eq]
  dsimp only
  split
  · rw [State.setMemLine_homes]
  · rw [State.modMc_homes]
    rfl

/-- Every queued write of the line is replaced by a poisoned one. -/
theorem State.poisonLine_writes (p : Nat) : (((s.poisonLine q l).mc q).pc p).writes =
    if p = pcOf l then ((s.mc q).pc p).writes.map (McWrite.poison l) else ((s.mc q).pc p).writes := by
  rw [State.poisonLine_eq]
  dsimp only
  split
  · rename_i h0
    have hsame : ((s.mc q).pc (pcOf l)).writes.map (McWrite.poison l) = ((s.mc q).pc (pcOf l)).writes := by
      rw [List.length_eq_zero_iff, State.writesOf, List.filter_eq_nil_iff] at h0
      refine (List.map_congr_left fun w hw => if_neg ?_).trans (List.map_id _)
      simpa using h0 w hw
    rw [State.mc_congr (s := s)]
    · split
      · rename_i hp
        rw [hp, hsame]
      · rfl
    · rw [State.setMemLine_mcs]
      rfl
  · rw [State.mc_modMc]
    by_cases hp : p = pcOf l
    · subst hp
      rw [if_pos rfl]
      exact congrArg Pc.writes (SMap.get_set_self ..)
    · rw [if_neg hp]
      exact congrArg Pc.writes (SMap.get_set_of_ne _ _ _ hp)

/-- Where no write of the line is queued, the stack's copy is marked. -/
theorem State.poisonLine_poisLine : (s.poisonLine q l).poisLine =
    if (s.writesOf q l).length = 0 then SMap.set false s.poisLine l true else s.poisLine := by
  rw [State.poisonLine_eq]
  dsimp only
  split
  · rfl
  · rfl

theorem State.poisonLine_cp : (s.poisonLine q l).cp =
    if (s.writesOf q l).length = 0 then s.cp
    else (s.countAt (cpAddr (mcStation q) 0x0C4) 0 32 (s.writesOf q l).length).cp := by
  rw [State.poisonLine_eq]
  dsimp only
  split
  · rw [State.setMemLine_cp]
    rfl
  · rfl

/-- A line of the quadrant that is poisoned has its memory copy poisoned, wherever that is. -/
theorem State.memCopy_poisonLine_self (hq : quadOf (64 * l) = q) : ((s.poisonLine q l).memCopy l).2 = true := by
  rw [State.memCopy_pois]
  dsimp only
  rw [hq, State.poisonLine_home, State.poisonLine_writes, if_pos rfl, State.poisonLine_poisLine, find?_map_poison]
  unfold Home.poison State.writesOf
  dsimp only
  rw [Msc.find_poison_self, find?_filter_wout, if_pos rfl]
  cases (s.home q).msc.find l with
  | some y => rfl
  | none =>
    cases hw : ((s.mc q).pc (pcOf l)).writes.reverse.find? fun w => w.line == l with
    | some w => simp
    | none =>
      have hnone : ((s.mc q).pc (pcOf l)).writes.filter (fun w => w.line == l) = [] := by
        rw [List.filter_eq_nil_iff]
        exact fun w h => List.find?_eq_none.1 hw w (List.mem_reverse.2 h)
      simp [hnone]

/-- The poisoning of a line leaves poisoned what was. -/
theorem State.memCopy_poisonLine_keeps {line : Nat} (hq : quadOf (64 * line) = q) (h : (s.memCopy line).2 = true) :
    ((s.poisonLine q l).memCopy line).2 = true := by
  by_cases hl : line = l
  · subst hl
    exact s.memCopy_poisonLine_self q line hq
  · rw [State.memCopy_pois] at h ⊢
    dsimp only at h ⊢
    rw [hq] at h ⊢
    have hwrites : ((((s.poisonLine q l).mc q).pc (pcOf line)).writes.reverse.find? fun w => w.line == line).map (·.pois)
        = (((s.mc q).pc (pcOf line)).writes.reverse.find? fun w => w.line == line).map (·.pois) := by
      rw [State.poisonLine_writes]
      split
      · simp only [find?_map_poison, if_neg hl]
      · rfl
    have hstack : SMap.get false (s.poisonLine q l).poisLine line = SMap.get false s.poisLine line := by
      rw [State.poisonLine_poisLine]
      split
      · exact SMap.get_set_of_ne _ _ _ hl
      · rfl
    rw [hwrites, hstack, State.poisonLine_home]
    unfold Home.poison
    dsimp only
    rwa [Msc.find_poison_of_ne _ hl, find?_filter_wout, if_neg hl]

end

/-! A home that stops (R194, R195). -/

theorem State.cpGet_congr {s t : State} (h : t.cp = s.cp) (a : Nat) : t.cpGet a = s.cpGet a := by
  rw [State.cpGet, h, State.cpGet]

theorem State.accepts_congr {s t : State} {q : Quad}
    (h : t.cpGet (cpAddr (homeStation q) 0) = s.cpGet (cpAddr (homeStation q) 0)) : t.accepts q = s.accepts q := by
  unfold State.accepts State.cpField
  rw [h]

/-- A station's first word is none of its later ones, nor of another station's. -/
theorem cpAddr_zero_ne (st st' : Station) {off : Nat} (h0 : off ≠ 0) (h : off < 2 ^ 20) : cpAddr st 0 ≠ cpAddr st' off := by
  intro he
  have h1 := cpAddr_mod st (off := 0) (by decide)
  rw [he, cpAddr_mod _ h] at h1
  exact h0 h1

theorem State.accepts_cpSetField (s : State) (q : Quad) (st : Station) {off : Nat} (lo w x : Nat) (h0 : off ≠ 0)
    (h : off < 2 ^ 20) : (s.cpSetField (cpAddr st off) lo w x).accepts q = s.accepts q :=
  State.accepts_congr (State.cpGet_cpSetField_of_ne _ _ _ _ (cpAddr_zero_ne _ _ h0 h))

theorem State.accepts_poisonLine (s : State) (q : Quad) (l : Nat) : (s.poisonLine q l).accepts q = s.accepts q := by
  refine State.accepts_congr ?_
  by_cases h0 : (s.writesOf q l).length = 0
  · exact State.cpGet_congr (by rw [State.poisonLine_cp, if_pos h0]) _
  · rw [State.cpGet_congr (s := s.countAt (cpAddr (mcStation q) 0x0C4) 0 32 (s.writesOf q l).length)
      (by rw [State.poisonLine_cp, if_neg h0])]
    exact State.cpGet_cpSetField_of_ne _ _ _ _ (cpAddr_zero_ne _ _ (by decide) (by decide))

theorem State.accepts_foldl_poisonLine (s : State) (q : Quad) (lines : List Nat) :
    (lines.foldl (fun s l => s.poisonLine q l) s).accepts q = s.accepts q := by
  induction lines generalizing s with
  | nil => rfl
  | cons l lines ih => rw [List.foldl_cons, ih, State.accepts_poisonLine]

/-- Of lines poisoned in turn, each stays poisoned. -/
theorem State.memCopy_foldl_poisonLine (s : State) (q : Quad) {lines : List Nat} {line : Nat}
    (hq : quadOf (64 * line) = q) (h : line ∈ lines ∨ (s.memCopy line).2 = true) :
    ((lines.foldl (fun s l => s.poisonLine q l) s).memCopy line).2 = true := by
  induction lines generalizing s with
  | nil => simpa using h
  | cons l lines ih =>
    refine ih (s.poisonLine q l) ?_
    rcases h with h | h
    · rcases List.mem_cons.1 h with rfl | h
      · exact .inr (s.memCopy_poisonLine_self q line hq)
      · exact .inl h
    · exact .inr (s.memCopy_poisonLine_keeps q l hq h)

theorem State.quadOf_of_mem_eLines {s : State} {q : Quad} {line : Nat} (h : line ∈ s.eLines q) :
    quadOf (64 * line) = q := by
  rw [State.eLines, List.mem_dedup, List.mem_flatMap] at h
  obtain ⟨e, -, he⟩ := h
  split at he
  · obtain ⟨b, -, hb⟩ := List.mem_filterMap.1 he
    dsimp only at hb
    split_ifs at hb with hc
    cases hb
    simp only [Bool.and_eq_true, decide_eq_true_eq] at hc
    exact hc.2
  · simp at he

/-- The memory copy of a line lies in homes, controllers and the stack. -/
theorem State.memCopy_congr {s t : State} (hh : t.homes = s.homes) (hm : t.mcs = s.mcs) (hp : t.poisLine = s.poisLine)
    (line : Nat) : (t.memCopy line).2 = (s.memCopy line).2 := by
  rw [State.memCopy_pois, State.memCopy_pois, hp]
  simp only [State.home_congr hh, State.mc_congr hm]

theorem State.mcDiscard_cp (s : State) (q : Quad) : (s.mcDiscard q).cp = s.cp := rfl

/-- A home that stops takes no more entries, and the lines that some die may hold newer than memory are poisoned. -/
theorem State.homeStop_stops {s : State} {q : Quad} (hacc : s.accepts q = true) :
    (s.homeStop q).accepts q = false ∧ ∀ line ∈ s.eLines q, ((s.homeStop q).memCopy line).2 = true := by
  unfold State.homeStop
  rw [if_neg (by simp [hacc])]
  extract_lets s1 lines s2 s3
  refine ⟨?_, fun line hline => ?_⟩
  · rw [State.accepts_cpSetField _ _ _ _ _ _ (by decide) (by decide), State.accepts_foldl_poisonLine,
      State.accepts_congr (s := s1) (t := s2) (State.cpGet_congr (s1.mcDiscard_cp q) _), State.accepts,
      State.cpField_cpSetField_self _ _ _ (by decide)]
    rfl
  · rw [State.memCopy_congr (State.cpSetField_homes ..) (State.cpSetField_mcs ..) (State.cpSetField_poisLine ..)]
    refine State.memCopy_foldl_poisonLine s2 q (State.quadOf_of_mem_eLines hline) (.inl ?_)
    have he : s1.eLines q = s.eLines q := by
      unfold State.eLines
      rw [State.cpSetField_dt]
    rw [List.mem_dedup, List.mem_append, he]
    exact .inl hline

/-- A report leaves what a home takes and the memory copies of lines. -/
theorem State.report_stops (s : State) (q : Quad) (st : Station) {cls : Nat} (hcls : cls < 0x100)
    (source loc : Nat) (d0 d1 : Option Nat) (crit : Bool) :
    (s.report st cls source loc d0 d1 crit).accepts q = s.accepts q ∧
    ∀ line, ((s.report st cls source loc d0 d1 crit).memCopy line).2 = (s.memCopy line).2 := by
  refine ⟨State.accepts_congr (State.report_cpGet _ _ _ _ _ _ _ hcls (by rw [cpAddr_mod _ (by decide)]; decide)), ?_⟩
  obtain ⟨_, _, _, _, h⟩ := s.report_only st cls source loc d0 d1 crit
  rw [h]
  exact fun line => State.memCopy_congr rfl rfl rfl line

theorem exec_snoopTimeout {q : Quad} {entry : Nat} {s : State} {e : PEntry} (hacc : s.accepts q = true)
    (he : (s.home q).table.find? (fun x => x.idx == entry) = some e) :
    (∀ d left, e.phase = .snoop left → d ∈ left → exec (.snoopTimeout q entry (some d)) s =
      .next ((s.homeStop q).report (homeStation q) 0x30 (bankOf d e.msg.line).toNat (64 * e.msg.line)
        (some (q.val * 4096 + entry)))) ∧
    (e.phase = .grant → exec (.snoopTimeout q entry none) s =
      .next ((s.homeStop q).report (homeStation q) 0x31 e.msg.src.toNat (64 * e.msg.line) (some e.msg.txid.toNat))) := by
  have hgo : ¬ (!s.accepts q) = true := by simp [hacc]
  refine ⟨fun d left hphase hd => ?_, fun hphase => ?_⟩
  · show execSnoopTimeout q entry (some d) s = _
    simp only [execSnoopTimeout, hgo, he, hphase]
    exact if_pos (List.contains_iff_mem.2 hd)
  · show execSnoopTimeout q entry none s = _
    simp only [execSnoopTimeout, hgo, he, hphase]
    rfl

theorem homeTimeout : HomeTimeout := by
  intro q entry s e hacc he stops
  obtain ⟨hsnoop, hgrant⟩ := exec_snoopTimeout hacc he
  have hstops : ∀ cls < 0x100, ∀ source loc d0,
      stops ((s.homeStop q).report (homeStation q) cls source loc d0) := by
    intro cls hcls source loc d0
    obtain ⟨haccepts, hcopy⟩ := (s.homeStop q).report_stops q (homeStation q) hcls source loc d0 none false
    obtain ⟨hno, hpois⟩ := State.homeStop_stops hacc
    exact ⟨haccepts.trans hno, fun line hline => (hcopy line).trans (hpois line hline)⟩
  exact ⟨fun d left hphase hd => ⟨_, hsnoop d left hphase hd, hstops _ (by decide) ..⟩,
    fun hphase => ⟨_, hgrant hphase, hstops _ (by decide) ..⟩⟩

/-! What a home finds in its arrays (R158, R179, Table CACHE-5). -/

/-- A report to a free detail slot sends a frame to the collector (R418, R419). -/
theorem State.report_sends {s : State} {st : Station} {cls : Nat}
    (hfree : s.cpField (cpAddr st (0xF8000 + 32 * cls)) 31 1 = 0) (source loc : Nat) (d0 d1 : Option Nat)
    (crit : Bool) : ∃ r, (s.report st cls source loc d0 d1 crit).reports = s.reports ++ [r] ∧ r.op = 0xB := by
  have horFree : ∀ (s : State) w o, (s.orFree w o).2.reports = s.reports := fun s w o => by cases o <;> rfl
  unfold State.report
  extract_lets a
  rw [if_neg (by rw [hfree]; decide)]
  split
  rename_i x0 s1 e0
  split
  rename_i x1 s2 e1
  have h0 := horFree s 64 d0
  have h1 := horFree s1 32 d1
  rw [e0] at h0
  rw [e1] at h1
  extract_lets s3 s4 s5 s6 s7
  have h7 : s7.reports = s.reports :=
    calc s7.reports = s6.reports := State.cpSet64_reports ..
      _ = s5.reports := State.cpSet_reports ..
      _ = s4.reports := State.cpSet64_reports ..
      _ = s3.reports := State.cpSet64_reports ..
      _ = s2.reports := State.cpSet_reports ..
      _ = s.reports := h1.trans h0
  clear_value s7
  exact ⟨_, congrArg (· ++ [_]) h7, rfl⟩

/-- The memory, messages and tags that an error of a home leaves. -/
def SameAround (s w : State) : Prop := w.cores = s.cores ∧ w.mem = s.mem ∧ w.net = s.net ∧ w.dt = s.dt

theorem State.report_around (s : State) (st : Station) (cls source loc : Nat) (d0 d1 : Option Nat) (crit : Bool) :
    SameAround s (s.report st cls source loc d0 d1 crit) ∧
      (s.report st cls source loc d0 d1 crit).homes = s.homes := by
  obtain ⟨_, _, _, _, h⟩ := s.report_only st cls source loc d0 d1 crit
  rw [h]
  exact ⟨⟨rfl, rfl, rfl, rfl⟩, rfl⟩

/-- Reference time that a command has reached is reached once. -/
theorem State.advance_of_tb {s w : State} {t : Word} (h : w.tb = (s.advance t).tb) : w.advance t = w := by
  have ht := s.advance_tb t
  rw [← h] at ht
  refine if_neg ?_
  rw [BitVec.lt_def]
  omega

/-- A window in which the homes' checks found one error is one without after the error's effect. -/
theorem exec_measWindowEnd_found (t : Word) (s : State) (e : HomeErr) :
    exec (.measWindowEnd t ⟨[], [e]⟩) s = exec (.measWindowEnd t {}) (State.homeErr (s.advance t) e) := by
  have h : (State.homeErr (s.advance t) e).advance t = State.homeErr (s.advance t) e :=
    State.advance_of_tb (congrArg Prod.fst (State.homeErr_kept (s.advance t) e))
  show execMeasWindowEnd t ⟨[], [e]⟩ s = execMeasWindowEnd t {} _
  unfold execMeasWindowEnd
  dsimp only [List.foldl_cons, List.foldl_nil]
  rw [h]

/-- An uncorrectable error takes a line out of the MSC, and sends a dirty one to the stack marked poisoned. -/
theorem State.mscStruck_takes {s : State} {q : Quad} {line : Nat} {l : MscLine} (hl : (s.home q).msc.find line = some l) :
    SameAround s (s.mscStruck q line) ∧
    (∃ i, (s.home q).msc.wayOf line = some i ∧
      SMap.get none ((s.mscStruck q line).home q).msc.ways (mscSet line * 16 + i) = none) ∧
    ((s.mscStruck q line).home q).table = (s.home q).table ∧
    ((s.mscStruck q line).home q).wout = (s.home q).wout ++ if l.dirty then [⟨l.line, l.data, true, l.pois⟩] else [] := by
  obtain ⟨hline, i, hi, -⟩ := Msc.line_of_find hl
  unfold State.mscStruck
  rw [hi, hl]
  dsimp only
  obtain ⟨haround, hhomes⟩ := State.report_around (s.modHome q fun h => { h with
      msc := { h.msc with ways := SMap.set none h.msc.ways (mscSet line * 16 + i) none }
      wout := if l.dirty then h.wout ++ [⟨line, l.data, true, l.pois⟩] else h.wout })
    (homeStation q) 0x0B (homeStation q).toNat (64 * line) none none false
  refine ⟨haround, ?_⟩
  rw [State.home_congr hhomes, State.home_modHome]
  refine ⟨⟨i, rfl, SMap.get_set_self none (s.home q).msc.ways _ none⟩, rfl, ?_⟩
  rw [hline]
  cases l.dirty
  · exact (List.append_nil _).symm
  · rfl

theorem homeErrorResults : HomeErrorResults := by
  intro t s found
  have hreport : ∀ st cls source loc, SameAround s (s.report st cls source loc) ∧
      (s.report st cls source loc).homes = s.homes := fun _ _ _ _ => State.report_around ..
  refine ⟨exec_measWindowEnd_found t s, fun q line l hq hl => ?_, fun line => ?_, fun q die set way ue => ?_⟩
  · have hstruck : State.homeErr s (.msc line true) = s.mscStruck q line.toNat := by
      simp only [State.homeErr, hq, if_true]
    obtain ⟨haround, htakes⟩ := State.mscStruck_takes hl
    rw [← hstruck] at haround htakes
    exact ⟨htakes, haround⟩
  · obtain ⟨haround, hhomes⟩ := hreport (homeStation (quadOf (64 * line.toNat))) 0x0A _ (64 * line.toNat)
    exact ⟨hhomes, haround⟩
  · obtain ⟨haround, hhomes⟩ := hreport (homeStation q) (if ue then 0x0D else 0x0C) (dcsStation die).toNat
      (16 * set.toNat + way.val)
    exact ⟨⟨hhomes, fun hfree => State.report_sends hfree ..⟩, haround⟩

end Sys2Proof.Machine
end

