-- ==== Sys2Proof/Proofs/HomeMessages.lean ====
section
namespace Sys2Proof.Machine

open Sys2Proof.Claims

/-! A message arrives at a home, and a home's answers. -/

theorem quadOfHome_homeStation (q : Quad) : quadOfHome (homeStation q) = q := by
  revert q
  decide

theorem State.slotFenced_home (s : State) (q : Quad) : s.slotFenced (homeStation q) = false := by
  have hhub : dieOfStation (homeStation q) = none := by
    revert q
    decide
  rw [State.slotFenced, hhub]

/-- A message that arrives at a home is handled there. -/
theorem atHome_next {s u : State} {q : Quad} {m : Msg} {k : MsgKind} (h : AtHome s q m k u)
    (f : State → Msg → Option State) : s.atHome m k f = .next ((f u m).getD s) := by
  obtain ⟨hkind, hdest, ⟨hchecks, hover, hlinks, hdown, hu, hstale, -⟩, -, -⟩ := h
  have hbare : m.bare = m := by
    cases m
    cases hchecks
    rfl
  unfold State.atHome State.deliver
  rw [if_neg (by simp [hkind, hover, hlinks]), hchecks, hbare, ← hu]
  rw [hdest] at hdown
  simp [State.checkFlits, hdest, hdown, unitKind_homeStation, hkind, hstale, UnitKind.isHome]

/-- A command that handles a message at a home completes with what the handling leaves. -/
theorem completes_atHome {i : Instr} {s u w : State} {q : Quad} {m : Msg} {k : MsgKind} {f : State → Msg → Option State}
    {P : State → Prop} (hexec : exec i s = s.atHome m k f) (h : AtHome s q m k u) (hf : f u m = some w) (hP : P w) :
    Completes i s P :=
  ⟨w, by rw [hexec, atHome_next h, hf]; rfl, hP⟩

/-- A home's answer goes out, whatever is held back (R409). -/
theorem State.send_answer (s : State) {q : Quad} {a : Msg} (hsrc : a.src = homeStation q) (hk : holdKind a.kind = false) :
    s.send a = s.put a := by
  rw [State.send, hsrc, if_neg (by simp [State.slotFenced_home]), if_neg (by simp [hk])]

/-- An answer to `m` that is put on the fabric is the answer sent. -/
theorem answered_put {m : Msg} {k : MsgKind} {data : Option Line} {low : Nat} {u s w : State} (t : BitVec 4)
    (dies : BitVec 12) (hs : s.net = u.net)
    (hw : w.net = (s.put { replyTo m k with addr := BitVec.ofNat 48 (m.line * 64 + low), data := data
                                            tclass := t, dies := dies }).net) :
    Answered m k data low u w :=
  ⟨_, hw.trans (congrArg (· ++ _) hs), rfl, rfl, rfl, rfl, rfl, rfl, rfl⟩

/-! Evictions (Table COH-10, R188). -/

section
variable {s : State} {q : Quad} {m : Msg} {d : Die}

/-- The acknowledgement of an eviction goes out. -/
theorem State.evictDone_sent (hdest : m.dest = homeStation q) : s.send (evictDone m) = s.put (evictDone m) :=
  s.send_answer (q := q) hdest rfl

theorem answered_evictDone {u w : State} (hs : s.net = u.net) (hw : w.net = (s.put (evictDone m)).net) :
    Answered m .evictDone none 0 u w := by
  refine answered_put (s := s) 0 0 hs ?_
  rw [hw, evictDone, Nat.mul_comm]
  rfl

/-- Where the handling of an eviction begins: its home takes entries, and it comes from die `d`. -/
structure EvictArrives (s : State) (q : Quad) (m : Msg) (d : Die) : Prop where
  dest : m.dest = homeStation q
  accepts : s.accepts q = true
  low : m.lowOk = true
  die : dieOfStation m.src = some d

theorem State.homeEvict_stale (h : EvictArrives s q m d) (hstale : (d, m.txid) ∈ (s.home q).stale) :
    s.homeEvict m =
      some ((s.modHome q fun h => { h with stale := h.stale.erase (d, m.txid) }).dropEvict q m) := by
  obtain ⟨hdest, hacc, hlow, hdie⟩ := h
  unfold State.homeEvict
  simp only [hdest, quadOfHome_homeStation, hacc, hlow, hdie]
  exact if_pos (List.contains_iff_mem.2 hstale)

/-- A snoop of the line's entry awaits the die's answer, or has had it. -/
def Crossed (s : State) (q : Quad) (m : Msg) (d : Die) : Prop :=
  ∃ e ∈ (s.home q).table, e.msg.line = m.line ∧ (∃ l, e.phase = .snoop l) ∧ ∃ x ∈ e.holders, x.1 = d

theorem State.homeEvict_fresh (h : EvictArrives s q m d) (hstale : (d, m.txid) ∉ (s.home q).stale)
    (hmay : s.mayTakeEv q d m.hi = true) :
    (Crossed s q m d → s.homeEvict m =
      some ((s.modHome q fun h => { h with held := h.held ++ [m] }).notePeak q 0)) ∧
    (¬ Crossed s q m d → s.homeEvict m = some ((s.notePeak q 1).applyEvict q m)) := by
  obtain ⟨hdest, hacc, hlow, hdie⟩ := h
  unfold State.homeEvict
  simp only [hdest, quadOfHome_homeStation, hacc, hlow, hdie]
  rw [if_neg (by decide), if_neg (by decide), if_neg (by simpa using hstale), if_neg (by simp [hmay])]
  refine ⟨fun hcross => if_pos ?_, fun hcross => if_neg ?_⟩
  · obtain ⟨e, he, hline, ⟨l, hphase⟩, x, hx, hxd⟩ := hcross
    refine List.any_eq_true.2 ⟨e, he, ?_⟩
    rw [hphase]
    simpa [hline] using ⟨x.2, by rw [← hxd]; exact hx⟩
  · intro hany
    obtain ⟨e, he, hboth⟩ := List.any_eq_true.1 hany
    rw [Bool.and_eq_true] at hboth
    refine hcross ⟨e, he, by simpa using hboth.1, ?_⟩
    have hsnoop := hboth.2
    split at hsnoop
    · rename_i l hphase
      obtain ⟨x, hx, hxd⟩ := List.any_eq_true.1 hsnoop
      exact ⟨⟨l, hphase⟩, x, hx, by simpa using hxd⟩
    · contradiction

/-- What an eviction that is applied leaves of the entries of its line, and its acknowledgement. -/
def State.evicted (s : State) (q : Quad) (m : Msg) : State :=
  (s.modHome q fun h => { h with table := h.table.map fun e =>
    if e.msg.line = m.line then { e with after := e.after.filter fun x => some x.1 ≠ dieOfStation m.src }
    else e }).send (evictDone m)

theorem State.evicted_leaves (hdest : m.dest = homeStation q) :
    Answered m .evictDone none 0 s (s.evicted q m) ∧ (s.evicted q m).dt = s.dt ∧ (s.evicted q m).mem = s.mem ∧
      ((s.evicted q m).home q).msc = (s.home q).msc := by
  unfold State.evicted
  rw [State.evictDone_sent hdest]
  refine ⟨answered_evictDone rfl rfl, rfl, rfl, ?_⟩
  rw [State.home_congr (State.put_homes ..), State.home_modHome]

theorem State.mirTouch_unmirrored {line : Nat} (h : s.mirrored line = false) : s.mirTouch line = s :=
  if_pos (by simp [h])

/-- An Evict takes the line out of its sender's tags. -/
theorem State.applyEvict_evict (hkind : m.kind = .evict) (hdie : dieOfStation m.src = some d) :
    s.applyEvict q m = (s.setDt d m.line .i).evicted q m := by
  unfold State.applyEvict
  simp [hkind, hdie, State.evicted]

/-- A WriteBack enters its data in the MSC; one with KEEP leaves the sender's tags. -/
theorem State.applyEvict_writeBack {x : Line} (hkind : m.kind = .writeBack) (hdie : dieOfStation m.src = some d)
    (hdata : m.data = some x) (hpois : m.poisoned = false) (hmir : s.mirrored m.line = false) :
    s.applyEvict q m =
      let t := (s.homeWrite q m.line x false).noteMoved q m.tclass
      (if m.low = 1 then t else t.setDt d m.line .i).evicted q m := by
  unfold State.applyEvict
  simp [hkind, hdie, hdata, hpois, State.mirTouch_unmirrored hmir, State.evicted]

end

theorem exec_evict (m : Msg) (s : State) : exec (.evict m) s = s.atHome m .evict State.homeEvict := rfl
theorem exec_writeBack (m : Msg) (s : State) : exec (.writeBack m) s = s.atHome m .writeBack State.homeEvict := rfl

section
variable {s u : State} {q : Quad} {m : Msg} {d : Die}

theorem evictArrives_of_atHome {k : MsgKind} (h : AtHome s q m k u) (hdie : dieOfStation m.src = some d) :
    EvictArrives u q m d := by
  obtain ⟨-, hdest, -, hacc, hlow⟩ := h
  exact ⟨hdest, hacc, hlow, hdie⟩

theorem State.homeWrite_finds (s : State) (q : Quad) (line : Nat) (x : Line) (pois : Bool) :
    ((s.homeWrite q line x pois).home q).msc.find line = some ⟨line, true, x, pois⟩ := by
  unfold State.homeWrite State.mscPut
  rw [State.home_modHome]
  exact Msc.find_put (s.home q).msc ⟨line, true, x, pois⟩

theorem State.noteMoved_msc (s : State) (q : Quad) (t : BitVec 4) :
    ((s.noteMoved q t).home q).msc = (s.home q).msc := by
  unfold State.noteMoved
  rw [State.home_modHome]

/-- Setting a die's tags changes no MSC, nor what is on the fabric or in memory. -/
theorem State.setDt_keeps (s : State) (d : Die) (line : Nat) (c : CState) :
    (s.setDt d line c).net = s.net ∧ (s.setDt d line c).mem = s.mem ∧
      ((s.setDt d line c).home q).msc = (s.home q).msc := by
  obtain ⟨dt, homes, ht, hhome⟩ := s.setDt_tags d line c
  refine ⟨by rw [ht], by rw [ht], ?_⟩
  rw [hhome q]

/-- The count of stale evictions dropped. -/
theorem State.count16_counts (s : State) (a : Nat) :
    (s.count16 a 1).cpField a 0 16 = min 0xFFFF (s.cpField a 0 16 + 1) := by
  have hlt : s.cpField a 0 16 < 2 ^ 16 := field_lt ..
  rw [State.count16, if_neg (by decide), State.cpField_cpSetField_of_disjoint _ _ _ _ (by omega),
    State.cpField_cpSetField_self _ _ _ (by omega), satAdd]
  split <;> omega

/-- A count changes nothing but its register. -/
theorem State.count16_around (s : State) (a : Nat) :
    (s.count16 a 1).homes = s.homes ∧ (s.count16 a 1).net = s.net ∧ (s.count16 a 1).dt = s.dt := by
  rw [State.count16, if_neg (by decide)]
  exact ⟨rfl, rfl, rfl⟩

theorem State.cpField_congr {s t : State} (h : t.cp = s.cp) (a lo w : Nat) : t.cpField a lo w = s.cpField a lo w := by
  rw [State.cpField, State.cpGet_congr h, State.cpField]

/-- An Evict that is applied. -/
theorem evictApplied (h : EvictArrives u q m d) (hkind : m.kind = .evict) :
    let w := (u.notePeak q 1).applyEvict q m
    Answered m .evictDone none 0 u w ∧ w.dtState d m.line = .i ∧
      (∀ e, e ≠ d → w.dtState e m.line = u.dtState e m.line) ∧ w.mem = u.mem := by
  extract_lets w
  let t := (u.notePeak q 1).setDt d m.line .i
  have hw : w = t.evicted q m := State.applyEvict_evict hkind h.die
  obtain ⟨hnet, hmem, -⟩ := (u.notePeak q 1).setDt_keeps (q := q) d m.line .i
  obtain ⟨⟨a, ha, hans⟩, hdt, hmem', -⟩ := State.evicted_leaves (s := t) h.dest
  have htags : ∀ e, w.dtState e m.line = if e = d then .i else u.dtState e m.line := fun e => by
    rw [hw, State.dtState_congr hdt, State.dtState_setDt_i]
    rfl
  refine ⟨⟨a, ?_, hans⟩, ?_, fun e he => ?_, ?_⟩
  · rw [hw, ha, hnet]
    rfl
  · rw [htags, if_pos rfl]
  · rw [htags, if_neg he]
  · rw [hw, hmem', hmem]
    rfl

/-- A WriteBack that is applied. -/
theorem writeBackApplied {x : Line} (h : EvictArrives u q m d) (hkind : m.kind = .writeBack)
    (hdata : m.data = some x) (hpois : m.poisoned = false) (hmir : u.mirrored m.line = false) :
    let w := (u.notePeak q 1).applyEvict q m
    Answered m .evictDone none 0 u w ∧
      w.dtState d m.line = (if m.low = 1 then u.dtState d m.line else .i) ∧
      (∃ y, (w.home q).msc.find m.line = some y ∧ y.data = x ∧ y.dirty = true) ∧ w.mem = u.mem := by
  extract_lets w
  let v := ((u.notePeak q 1).homeWrite q m.line x false).noteMoved q m.tclass
  let t := if m.low = 1 then v else v.setDt d m.line .i
  have hw : w = t.evicted q m := State.applyEvict_writeBack hkind h.die hdata hpois hmir
  have hfind : (v.home q).msc.find m.line = some ⟨m.line, true, x, false⟩ := by
    rw [State.noteMoved_msc, State.homeWrite_finds]
  have ht : t.net = u.net ∧ t.mem = u.mem ∧ (t.home q).msc = (v.home q).msc ∧
      t.dtState d m.line = if m.low = 1 then u.dtState d m.line else .i := by
    by_cases hlow : m.low = 1
    · rw [show t = v from if_pos hlow, if_pos hlow]
      exact ⟨rfl, rfl, rfl, rfl⟩
    · rw [show t = v.setDt d m.line .i from if_neg hlow, if_neg hlow]
      obtain ⟨hnet, hmem, hmsc⟩ := v.setDt_keeps (q := q) d m.line .i
      exact ⟨hnet, hmem, hmsc, by rw [State.dtState_setDt_i, if_pos rfl]⟩
  obtain ⟨hnet, hmem, hmsc, htags⟩ := ht
  obtain ⟨⟨a, ha, hans⟩, hdt, hmem', hmsc'⟩ := State.evicted_leaves (s := t) h.dest
  refine ⟨⟨a, ?_, hans⟩, ?_, ⟨⟨m.line, true, x, false⟩, ?_, rfl, rfl⟩, ?_⟩
  · rw [hw, ha, hnet]
  · rw [hw, State.dtState_congr hdt, htags]
  · rw [hw, hmsc', hmsc, hfind]
  · rw [hw, hmem', hmem]

/-- A stale eviction is dropped, counted and acknowledged (R188). -/
theorem staleDropped (h : EvictArrives u q m d) :
    let w := (u.modHome q fun h => { h with stale := h.stale.erase (d, m.txid) }).dropEvict q m
    Answered m .evictDone none 0 u w ∧ (w.home q).stale = (u.home q).stale.erase (d, m.txid) ∧ w.dt = u.dt ∧
      (w.home q).msc = (u.home q).msc ∧
      w.cpField (cpAddr (homeStation q) 0x010) 0 16 = min 0xFFFF (u.cpField (cpAddr (homeStation q) 0x010) 0 16 + 1) := by
  extract_lets w
  let v := u.modHome q fun h => { h with stale := h.stale.erase (d, m.txid) }
  let t := v.count16 (cpAddr (homeStation q) 0x010) 1
  have hw : w = t.put (evictDone m) := State.evictDone_sent h.dest
  obtain ⟨hhomes, hnet, hdt⟩ : t.homes = v.homes ∧ t.net = v.net ∧ t.dt = v.dt := v.count16_around _
  have hhome : w.home q = { u.home q with stale := (u.home q).stale.erase (d, m.txid) } := by
    rw [hw, State.home_congr (State.put_homes ..), State.home_congr hhomes, State.home_modHome]
  refine ⟨answered_evictDone (s := t) hnet (by rw [hw]), by rw [hhome], by rw [hw, State.put_dt, hdt]; rfl,
    by rw [hhome], ?_⟩
  rw [State.cpField_congr (s := t) (by rw [hw]; exact State.put_cp ..), v.count16_counts,
    State.cpField_congr (State.modHome_cp ..)]

/-- An eviction that crosses a snoop is held, and nothing else happens. -/
theorem evictHeld :
    let w := (u.modHome q fun h => { h with held := h.held ++ [m] }).notePeak q 0
    (w.home q).held = (u.home q).held ++ [m] ∧ w.net = u.net ∧ w.dt = u.dt := by
  refine ⟨?_, rfl, rfl⟩
  rw [State.notePeak, State.home_modHome, State.home_modHome]

end

theorem homeEvictions : HomeEvictions := by
  intro q m s u d hdie crosses home drops counted
  have harr : ∀ {k}, home k → EvictArrives u q m d := fun h => evictArrives_of_atHome h hdie
  refine ⟨fun hstale hmay hcross hmir hpois => ⟨fun h => ?_, fun x h hdata => ?_⟩,
    fun hstale hmay hcross => ⟨fun h => ?_, fun h => ?_⟩, fun hstale => ⟨fun h => ?_, fun h => ?_⟩⟩
  · exact completes_atHome (exec_evict m s) h ((State.homeEvict_fresh (harr h) hstale hmay).2 hcross)
      (evictApplied (harr h) h.1)
  · exact completes_atHome (exec_writeBack m s) h ((State.homeEvict_fresh (harr h) hstale hmay).2 hcross)
      (writeBackApplied (harr h) h.1 hdata hpois hmir)
  · exact completes_atHome (exec_evict m s) h ((State.homeEvict_fresh (harr h) hstale hmay).1 hcross) evictHeld
  · exact completes_atHome (exec_writeBack m s) h ((State.homeEvict_fresh (harr h) hstale hmay).1 hcross) evictHeld
  · exact completes_atHome (exec_evict m s) h (State.homeEvict_stale (harr h) hstale) (staleDropped (harr h))
  · exact completes_atHome (exec_writeBack m s) h (State.homeEvict_stale (harr h) hstale) (staleDropped (harr h))

end Sys2Proof.Machine
end

