-- ==== Sys2Proof/Proofs/HomeAnswers.lean ====
section
/-! SUPPORT. Snoop answers and GrantSeen at a home (R182, R183). -/

namespace Sys2Proof.Machine

open Sys2Proof.Claims

/-- A snoop answer of die `d` arrives for entry `e`, not a CMO's, which waits for the dies `left` and for `d` too. -/
structure AnswerArrives (s : State) (q : Quad) (m : Msg) (d : Die) (e : PEntry) (left : List Die) : Prop where
  dest : m.dest = homeStation q
  accepts : s.accepts q = true
  lowOk : m.lowOk = true
  low : m.low = 0
  clean : m.poisoned = false
  die : dieOfStation m.src = some d
  finds : (s.home q).table.find? (fun x => x.idx == m.txid.toNat % 4096) = some e
  phase : e.phase = .snoop left
  awaited : d ∈ left
  line : e.msg.line = m.line
  noCmo : e.msg.kind ≠ .cmo

/-- An entry after the answer of die `d`: what the die keeps, the data it brought, the dies still awaited. -/
def PEntry.answeredBy (e : PEntry) (d : Die) (c : Option CState) (data : Option Line) (left : List Die) : PEntry :=
  { e with
    after := e.after ++ c.toList.map fun c => (d, c)
    data := data.or e.data
    pois := !data.isSome && e.pois
    phase := .snoop (left.filter (· ≠ d)) }

/-- Data that an answer brought enters the MSC. -/
def State.takeData (s : State) (q : Quad) (line : Nat) : Option Line → State
  | some x => s.homeWrite q line x false
  | none => s

/-- The home's state after an answer is entered, before the entry goes on. -/
def State.noteAnswer (s : State) (q : Quad) (m : Msg) (e : PEntry) : State :=
  (s.takeData q m.line m.data).modEntry q e.idx fun _ => e

section
variable {s u : State} {q : Quad} {m : Msg} {d : Die} {e : PEntry} {left : List Die}

theorem AnswerArrives.idx (h : AnswerArrives u q m d e left) : m.txid.toNat % 4096 = e.idx :=
  (by simpa using List.find?_some h.finds : e.idx = _).symm

theorem AnswerArrives.mem (h : AnswerArrives u q m d e left) : e ∈ (u.home q).table :=
  List.mem_of_find?_eq_some h.finds

/-- An answer is entered; after the last one the entry goes on. -/
theorem State.homeAnswer_eq (h : AnswerArrives u q m d e left) (c : Option CState) :
    u.homeAnswer m c =
      let e' := e.answeredBy d c m.data left
      let t := u.noteAnswer q m e'
      if (left.filter (· ≠ d)).isEmpty then some (((t.answered q e').settleLine q m.line).settleHome q)
      else some t := by
  have hidx := h.idx
  obtain ⟨hdest, hacc, hlowOk, hlow, hpois, hdie, hfind, hphase, hmem, hline, hcmo⟩ := h
  unfold State.homeAnswer
  simp only [hdest, quadOfHome_homeStation, hacc, hlowOk, hdie, hfind, hphase, hpois, hlow]
  rw [if_neg (by decide), if_neg (by decide), if_neg (by simp [hmem, hline])]
  have hzero : (e.msg.kind == .cmo) = false := beq_false_of_ne hcmo
  cases hdata : m.data with
  | none =>
    cases c <;> simp [State.noteAnswer, State.takeData, PEntry.answeredBy, hdata, hidx]
  | some x =>
    cases c <;>
      simp [State.noteAnswer, State.takeData, State.snoopData, PEntry.answeredBy, hdata, hidx, hzero]

theorem State.noteAnswer_around (s : State) (q : Quad) (m : Msg) (e : PEntry) :
    (s.noteAnswer q m e).net = s.net ∧ (s.noteAnswer q m e).dt = s.dt ∧ (s.noteAnswer q m e).mem = s.mem ∧
      (s.noteAnswer q m e).mirrored = s.mirrored := by
  unfold State.noteAnswer State.takeData
  cases m.data <;> exact ⟨rfl, rfl, rfl, rfl⟩

theorem State.takeData_home (s : State) (q : Quad) (line : Nat) (data : Option Line) :
    ((s.takeData q line data).home q).table = (s.home q).table ∧
      ((s.takeData q line data).home q).held = (s.home q).held := by
  cases data with
  | none => exact ⟨rfl, rfl⟩
  | some x =>
    unfold State.takeData State.homeWrite State.mscPut
    rw [State.home_modHome]
    exact ⟨rfl, rfl⟩

/-- An entry's answer changes that entry of the table; data that came is in the MSC. -/
theorem State.noteAnswer_home (s : State) (q : Quad) (m : Msg) (e : PEntry) :
    ((s.noteAnswer q m e).home q).table = ((s.home q).table.map fun x => if x.idx = e.idx then e else x) ∧
      ((s.noteAnswer q m e).home q).held = (s.home q).held ∧
      ∀ x, m.data = some x → ((s.noteAnswer q m e).home q).msc.find m.line = some ⟨m.line, true, x, false⟩ := by
  obtain ⟨htable, hheld⟩ := s.takeData_home q m.line m.data
  unfold State.noteAnswer State.modEntry
  rw [State.home_modHome, htable]
  refine ⟨rfl, hheld, fun x hx => ?_⟩
  rw [hx]
  exact s.homeWrite_finds ..

/-! An entry that goes on where nothing is queued. -/

theorem State.settleLine_idle (h : ∀ y ∈ (s.home q).table, y.phase ≠ .queued) (line : Nat) :
    s.settleLine q line = s := by
  unfold State.settleLine State.runLine
  split
  · exact if_neg (h _ (List.mem_of_find?_eq_some ‹_›))
  · rfl

theorem State.settleHome_idle (h : ∀ y ∈ (s.home q).table, y.phase ≠ .queued) : s.settleHome q = s := by
  have hnone : ((s.home q).table.filter fun e => e.phase = .queued) = [] := by
    simpa [List.filter_eq_nil_iff] using h
  rw [State.settleHome, hnone, List.foldl_nil]

/-- Where no eviction of the line is held, none is applied. -/
theorem State.applyHeld_none {line : Nat} (h : ∀ y ∈ (s.home q).held, y.line ≠ line) :
    s.applyHeld q line = s.modHome q fun x => { x with held := (s.home q).held } := by
  have hnow : ((s.home q).held.filter fun y => y.line = line) = [] := by simpa [List.filter_eq_nil_iff] using h
  have hlater : ((s.home q).held.filter fun y => !decide (y.line = line)) = (s.home q).held := by
    simpa [List.filter_eq_self] using h
  unfold State.applyHeld
  rw [List.partition_eq_filter_filter]
  simp only [hnow, List.foldl_nil]
  congr 1
  funext x
  exact congrArg (fun l => ({ x with held := l } : Home)) hlater

/-- A RdOnce whose data is there is answered with it, and its entry ends (Table COH-7). -/
theorem State.finish_rdOnce (hkind : e.msg.kind = .rdOnce) (hafter : e.after = [])
    (hmir : s.mirrored e.msg.line = false) (x : Line) :
    s.finish q e x false = (s.complete e.msg .readData (some x)).dropEntry q e.idx := by
  unfold State.finish
  simp [hkind, hafter, State.applyAfter, State.mirBlocked, hmir]

/-- A read completed with data. -/
theorem State.complete_readData (hdest : e.msg.dest = homeStation q) (x : Line) :
    let w := s.complete e.msg .readData (some x)
    Answered e.msg .readData (some x) 0 s w ∧ w.dt = s.dt ∧ (w.home q).table = (s.home q).table := by
  extract_lets w
  have hw : w = (s.noteMoved q e.msg.tclass).put { replyTo e.msg .readData with
      addr := BitVec.ofNat 48 (e.msg.line * 64 + 0), data := some x, tclass := e.msg.tclass, dies := 0 } := by
    unfold w State.complete
    rw [hdest, quadOfHome_homeStation]
    exact State.send_answer _ hdest rfl
  refine ⟨answered_put (s := s.noteMoved q e.msg.tclass) _ _ rfl (by rw [hw]), by rw [hw]; rfl, ?_⟩
  rw [hw, State.home_congr (State.put_homes ..), State.noteMoved, State.home_modHome]

/-- Putting an entry in its own place leaves the others. -/
theorem filter_map_entry (e : PEntry) (l : List PEntry) :
    ((l.map fun y => if y.idx = e.idx then e else y).filter fun y => y.idx ≠ e.idx) = l.filter fun y => y.idx ≠ e.idx := by
  induction l with
  | nil => rfl
  | cons y ys ih =>
    rw [List.map_cons]
    by_cases h : y.idx = e.idx
    · rw [if_pos h, List.filter_cons_of_neg (by simp), List.filter_cons_of_neg (by simp [h]), ih]
    · rw [if_neg h, List.filter_cons_of_pos (by simp [h]), List.filter_cons_of_pos (by simp [h]), ih]

/-- An entry put in its own place is found there. -/
theorem find?_map_entry (e : PEntry) {l : List PEntry} (h : ∃ y ∈ l, y.idx = e.idx) :
    ((l.map fun y => if y.idx = e.idx then e else y).find? fun y => y.idx == e.idx) = some e := by
  induction l with
  | nil => simp at h
  | cons y ys ih =>
    rw [List.map_cons]
    by_cases hy : y.idx = e.idx
    · rw [if_pos hy, List.find?_cons_of_pos (by simp)]
    · rw [if_neg hy, List.find?_cons_of_neg (by simpa using hy)]
      exact ih (by simpa [hy] using h)

theorem State.dropEntry_table (s : State) (q : Quad) (i : Nat) :
    ((s.dropEntry q i).home q).table = (s.home q).table.filter fun y => y.idx ≠ i := by
  rw [State.dropEntry, State.home_modHome]

/-- After the last answer a RdOnce with data is completed and its entry ends. -/
theorem State.answered_rdOnce {x : Line} (hkind : e.msg.kind = .rdOnce) (hafter : e.after = []) (hdata : e.data = some x)
    (hpois : e.pois = false) (hmir : s.mirrored e.msg.line = false)
    (hheld : ∀ y ∈ (s.home q).held, y.line ≠ e.msg.line)
    (hfind : ((s.home q).table.find? fun y => y.idx == e.idx) = some e) :
    s.answered q e =
      (State.complete (s.modHome q fun h => { h with held := (s.home q).held }) e.msg .readData (some x)).dropEntry q
        e.idx := by
  have hneeds : e.needsData = true := by
    unfold PEntry.needsData
    rw [hkind]
  unfold State.answered
  simp only [State.applyHeld_none hheld, State.home_modHome, hfind, Option.getD_some, hneeds, hdata, hpois]
  exact State.finish_rdOnce hkind hafter (by exact hmir) x

/-- While other dies are awaited, an answer is entered and the entry waits on. -/
theorem answerWaits (h : AnswerArrives u q m d e left) (c : Option CState) (hmore : ∃ d', d' ∈ left ∧ d' ≠ d) :
    ∃ w, u.homeAnswer m c = some w ∧
      (∃ e' ∈ (w.home q).table, e'.msg = e.msg ∧ e'.phase = .snoop (left.filter (· ≠ d)) ∧
        e'.after = e.after ++ (c.toList.map fun c => (d, c))) ∧
      (∀ x, m.data = some x → ∃ y, (w.home q).msc.find m.line = some y ∧ y.data = x) ∧
      w.net = u.net ∧ w.dt = u.dt ∧ w.mem = u.mem := by
  let e' := e.answeredBy d c m.data left
  obtain ⟨htable, -, hmsc⟩ := u.noteAnswer_home q m e'
  obtain ⟨hnet, hdt, hmem, -⟩ := u.noteAnswer_around q m e'
  have hleft : ¬ (left.filter (· ≠ d)).isEmpty := by simpa using hmore
  refine ⟨_, (State.homeAnswer_eq h c).trans (if_neg hleft), ⟨e', ?_, rfl, rfl, rfl⟩, fun x hx => ⟨_, hmsc x hx, rfl⟩,
    hnet, hdt, hmem⟩
  rw [htable]
  exact List.mem_map.2 ⟨e, h.mem, if_pos rfl⟩

/-- After the last answer a RdOnce is answered with the data that the answer brought. -/
theorem lastAnswer_rdOnce {x : Line} (h : AnswerArrives u q m d e left) (hlast : ∀ d' ∈ left, d' = d)
    (hdata : m.data = some x) (hkind : e.msg.kind = .rdOnce) (hafter : e.after = []) (hdest : e.msg.dest = homeStation q)
    (hidle : ∀ y ∈ (u.home q).table, y.phase ≠ .queued) (hheld : ∀ y ∈ (u.home q).held, y.line ≠ m.line)
    (hmir : u.mirrored m.line = false) :
    ∃ w, u.homeAnswer m none = some w ∧ Answered e.msg .readData (some x) 0 u w ∧ w.dt = u.dt ∧
      (w.home q).table = (u.home q).table.filter fun y => y.idx ≠ e.idx := by
  let e' := e.answeredBy d none m.data left
  let t := u.noteAnswer q m e'
  let v := t.modHome q fun h => { h with held := (t.home q).held }
  let z := (v.complete e.msg .readData (some x)).dropEntry q e.idx
  obtain ⟨htable, hheld', -⟩ := u.noteAnswer_home q m e'
  obtain ⟨hnet, hdt, -, hmir'⟩ := u.noteAnswer_around q m e'
  have hz : t.answered q e' = z := by
    refine State.answered_rdOnce hkind ?_ ?_ ?_ ?_ ?_ ?_
    · simp [e', PEntry.answeredBy, hafter]
    · simp [e', PEntry.answeredBy, hdata]
    · simp [e', PEntry.answeredBy, hdata]
    · rw [hmir']
      exact h.line ▸ hmir
    · rw [hheld']
      exact h.line ▸ hheld
    · rw [htable]
      exact find?_map_entry e' ⟨e, h.mem, rfl⟩
  obtain ⟨⟨a, ha, hans⟩, hdt', htable'⟩ := State.complete_readData (s := v) hdest x
  have hends : (z.home q).table = (u.home q).table.filter fun y => y.idx ≠ e.idx := by
    rw [State.dropEntry_table, htable', State.home_modHome, htable]
    exact filter_map_entry e' _
  have hidle' : ∀ y ∈ (z.home q).table, y.phase ≠ .queued := fun y hy =>
    hidle y (List.mem_of_mem_filter (hends ▸ hy))
  refine ⟨z, ?_, ⟨a, ha.trans (congrArg (· ++ [a]) hnet), hans⟩, hdt'.trans hdt, hends⟩
  rw [State.homeAnswer_eq h none, if_pos (by simpa using hlast), hz, State.settleLine_idle hidle',
    State.settleHome_idle hidle']

/-- GrantSeen ends the entry. -/
theorem grantSeen_ends (hdest : m.dest = homeStation q) (hacc : u.accepts q = true) (hlow : m.lowOk = true)
    (hfind : (u.home q).table.find? (fun x => x.phase == .grant && x.msg.src == m.src && x.msg.txid == m.txid) = some e)
    (hidle : ∀ y ∈ (u.home q).table, y.phase ≠ .queued) :
    u.homeSeen m = some (u.dropEntry q e.idx) ∧
      ((u.dropEntry q e.idx).home q).table = (u.home q).table.filter fun y => y.idx ≠ e.idx := by
  have htable := u.dropEntry_table q e.idx
  have hidle' : ∀ y ∈ ((u.dropEntry q e.idx).home q).table, y.phase ≠ .queued := fun y hy =>
    hidle y (List.mem_of_mem_filter (htable ▸ hy))
  refine ⟨?_, htable⟩
  unfold State.homeSeen
  simp only [hdest, quadOfHome_homeStation, hacc, hlow, hfind]
  rw [if_neg (by decide), if_neg (by decide), State.settleLine_idle hidle', State.settleHome_idle hidle']

theorem exec_answer {f : (Msg → Instr) × MsgKind × Bool × Option CState} (hf : f ∈ answerForms) (m : Msg) (s : State) :
    exec (f.1 m) s = s.atHome m f.2.1 fun s m => s.homeAnswer m f.2.2.2 := by
  simp only [answerForms, List.mem_cons, List.not_mem_nil, or_false] at hf
  obtain rfl | rfl | rfl | rfl | rfl | rfl := hf <;> rfl

end

theorem homeAnswers : HomeAnswers := by
  refine ⟨fun f hf q m s u d e left hat hdie hlow hpois _ hfind _ hphase hmem hline hcmo hdest => ?_,
    fun q m s u e hat hfind hidle => ?_⟩
  · obtain ⟨-, hmdest, -, hacc, hlowOk⟩ := id hat
    have harr : AnswerArrives u q m d e left :=
      ⟨hmdest, hacc, hlowOk, hlow, hpois, hdie, hfind, hphase, hmem, hline, hcmo⟩
    refine ⟨fun hmore => ?_, fun x hlast hdata hkind hafter hkeep hidle hheld hmir => ?_⟩
    · obtain ⟨w, hw, hwaits⟩ := answerWaits harr f.2.2.2 hmore
      exact completes_atHome (exec_answer hf m s) hat hw hwaits
    · obtain ⟨w, hw, hends⟩ := lastAnswer_rdOnce harr hlast hdata hkind hafter hdest hidle hheld hmir
      exact completes_atHome (exec_answer hf m s) hat (by rw [hkeep]; exact hw) hends
  · obtain ⟨-, hmdest, -, hacc, hlowOk⟩ := id hat
    obtain ⟨hw, htable⟩ := grantSeen_ends hmdest hacc hlowOk hfind hidle
    exact completes_atHome (f := State.homeSeen) rfl hat hw ⟨htable, rfl, rfl, rfl⟩

/-- Settles O23: each message and timer of a home is one update of its table, tags, MSC and fabric. -/
theorem homeCompletionResults : Obligations.HomeCompletionResults :=
  ⟨homeEvictions, homeAnswers, homeTimeout, homeErrorResults⟩

end Sys2Proof.Machine
end

