-- ==== Sys2Proof/Proofs/FlitChecks.lean ====
section
/-! SUPPORT. The error register of a station, 0xFF010, under reports; what a check of a flit leaves (R230, R233). -/

namespace Sys2Proof.Machine

open Sys2Proof.Claims

/-! Errors that a station notes and reports. -/

/-- `t` is `s` but for stored registers, reports and what port A signals. -/
def State.SameButErrors (s t : State) : Prop :=
  ∃ n cp r l p, t = { s with free := n, cp := cp, reports := r, slotCrit := l, pcie := p }

section
variable {s t u : State}

theorem State.SameButErrors.refl (s : State) : s.SameButErrors s := ⟨_, _, _, _, _, rfl⟩

theorem State.SameButErrors.trans (h : s.SameButErrors t) (h' : t.SameButErrors u) : s.SameButErrors u := by
  obtain ⟨_, _, _, _, _, rfl⟩ := h
  obtain ⟨_, _, _, _, _, rfl⟩ := h'
  exact ⟨_, _, _, _, _, rfl⟩

theorem State.SameButErrors.around (h : s.SameButErrors t) : SameUnits s t ∧ t.net = s.net ∧ t.reqs = s.reqs := by
  obtain ⟨_, _, _, _, _, rfl⟩ := h
  exact ⟨⟨rfl, rfl, rfl⟩, rfl, rfl⟩

end

section
variable (s : State)

theorem State.cpSetField_errors (a lo w x : Nat) : s.SameButErrors (s.cpSetField a lo w x) := ⟨_, _, _, _, _, rfl⟩

theorem State.report_errors (st : Station) (cls source loc : Nat) (d0 d1 : Option Nat) (crit : Bool) :
    s.SameButErrors (s.report st cls source loc d0 d1 crit) := by
  obtain ⟨_, _, _, _, h⟩ := s.report_only st cls source loc d0 d1 crit
  rw [h]
  exact ⟨_, _, _, _, _, rfl⟩

theorem State.pcieCorrected_errors (f : Func) (b : Nat) :
    s.SameButErrors (s.pcieCorrected f b) ∧ (s.pcieCorrected f b).cp = s.cp := by
  unfold State.pcieCorrected
  extract_lets s1 s2
  split <;> exact ⟨⟨_, _, _, _, _, rfl⟩, rfl⟩

/-- A report fills a detail slot: the error registers of stations stay. -/
theorem State.report_errorReg (st st' : Station) {cls : Nat} (hcls : cls < 0x100) (source loc : Nat)
    (d0 d1 : Option Nat) (crit : Bool) :
    (s.report st cls source loc d0 d1 crit).cpGet (cpAddr st' 0xFF010) = s.cpGet (cpAddr st' 0xFF010) := by
  unfold State.report
  extract_lets b
  have hb : ∀ k < 32, cpAddr st' 0xFF010 ≠ b + k := fun k hk h => by
    have hlow := congrArg (· % 2 ^ 20) h
    simp only [b, cpAddr_add, cpAddr_mod st' (off := 0xFF010) (by decide),
      cpAddr_mod st (off := 0xF8000 + 32 * cls + k) (by omega)] at hlow
    omega
  clear_value b
  split
  · exact State.cpGet_cpSetField_of_ne _ _ _ _ (hb 0 (by omega))
  · dsimp only
    rw [State.cpGet_reports, State.cpGet_cpSet64_of_ne _ _ (hb 24 (by omega)) (hb 28 (by omega)),
      State.cpGet_cpSet_of_ne _ _ (hb 20 (by omega)),
      State.cpGet_cpSet64_of_ne _ _ (hb 12 (by omega)) (hb 16 (by omega)),
      State.cpGet_cpSet64_of_ne _ _ (hb 4 (by omega)) (hb 8 (by omega)),
      State.cpGet_cpSet_of_ne _ _ (show _ ≠ b from hb 0 (by omega)), State.orFree_cpGet, State.orFree_cpGet]

/-- A bit of a station's error register that is set and then reported. -/
theorem State.report_errorField (st st' : Station) {cls : Nat} (hcls : cls < 0x100) (source loc : Nat)
    (d0 d1 : Option Nat) (crit : Bool) (lo w : Nat) :
    (s.report st cls source loc d0 d1 crit).cpField (cpAddr st' 0xFF010) lo w =
      s.cpField (cpAddr st' 0xFF010) lo w := by
  rw [State.cpField, s.report_errorReg st st' hcls, State.cpField]

end

/-! One check of a flit. -/

/-- A single-bit error that a check corrected is reported, and at port A signalled to the host (R230, R350). -/
def State.reportCorrected (c : FlitCheck) (s : State) : State :=
  let s := s.report c.st 0x18 c.st.toNat
  if c.st = portAStation then s.pcieCorrected pf 14 else s

/-- The single-bit errors that a check found are counted. -/
def State.countCorrected (c : FlitCheck) (s : State) : State :=
  if c.ce.isEmpty then s
  else (s.cpSetField (cpAddr c.st 0xFF010) 0 1 1).countAt (cpAddr c.st 0xFF010) 16 16 c.ce.length

/-- The single-bit errors that a check found are counted and reported. -/
def State.corrected (c : FlitCheck) (s : State) : State :=
  c.ce.foldl (fun s _ => s.reportCorrected c) (s.countCorrected c)

section
variable (c : FlitCheck) (m : Msg) (s : State)

theorem State.checkFlit_eq : State.checkFlit c m s =
    let t := s.corrected c
    let noted := fun (i cls loc : Nat) => (t.cpSetField (cpAddr c.st 0xFF010) i 1 1).report c.st cls c.st.toNat loc
    if c.ue.isEmpty then (some m, t)
    else if !c.data then (none, noted 1 0x1A 0)
    else if m.flits = 1 then (some m, t)
    else (some { m with poisoned := true, data := some 0 },
      if 5 ≤ poisonWords c m.poisoned then t else noted 2 0x19 m.addr.toNat) := by
  unfold State.checkFlit
  extract_lets
  split_ifs <;> rfl

theorem State.reportCorrected_leaves :
    s.SameButErrors (s.reportCorrected c) ∧
      (s.reportCorrected c).cpGet (cpAddr c.st 0xFF010) = s.cpGet (cpAddr c.st 0xFF010) := by
  have herr := s.report_errors c.st 0x18 c.st.toNat 0 none none false
  have hreg := s.report_errorReg c.st c.st (cls := 0x18) (by decide) c.st.toNat 0 none none false
  unfold State.reportCorrected
  extract_lets t
  split
  · obtain ⟨hp, hcp⟩ := t.pcieCorrected_errors pf 14
    exact ⟨herr.trans hp, (State.cpGet_congr hcp _).trans hreg⟩
  · exact ⟨herr, hreg⟩

/-- The reports of a check leave the count that it made. -/
theorem State.corrected_leaves :
    s.SameButErrors (s.corrected c) ∧
      (s.corrected c).cpGet (cpAddr c.st 0xFF010) = (s.countCorrected c).cpGet (cpAddr c.st 0xFF010) := by
  have hcount : s.SameButErrors (s.countCorrected c) := by
    unfold State.countCorrected
    split
    · exact .refl s
    · exact (s.cpSetField_errors ..).trans (State.cpSetField_errors ..)
  have hfold : ∀ (l : List (Fin 8)) (t : State), let w := l.foldl (fun t _ => t.reportCorrected c) t
      t.SameButErrors w ∧ w.cpGet (cpAddr c.st 0xFF010) = t.cpGet (cpAddr c.st 0xFF010) := by
    intro l
    induction l with
    | nil => exact fun t => ⟨.refl t, rfl⟩
    | cons x l ih =>
      intro t
      obtain ⟨herr, hreg⟩ := t.reportCorrected_leaves c
      obtain ⟨herr', hreg'⟩ := ih (t.reportCorrected c)
      exact ⟨herr.trans herr', hreg'.trans hreg⟩
  obtain ⟨herr, hreg⟩ := hfold c.ce (s.countCorrected c)
  exact ⟨hcount.trans herr, hreg⟩

/-- The count of corrected errors in a station's error register saturates; CORR is set by the first. -/
theorem State.countCorrected_counts :
    (s.countCorrected c).cpField (cpAddr c.st 0xFF010) 16 16 =
        min 0xFFFF (s.cpField (cpAddr c.st 0xFF010) 16 16 + c.ce.length) ∧
      (c.ce ≠ [] → (s.countCorrected c).cpField (cpAddr c.st 0xFF010) 0 1 = 1) := by
  have hlt : s.cpField (cpAddr c.st 0xFF010) 16 16 < 2 ^ 16 := field_lt ..
  unfold State.countCorrected
  split
  · rename_i hnone
    rw [List.isEmpty_iff] at hnone
    rw [hnone, List.length_nil]
    exact ⟨by omega, fun h => absurd rfl h⟩
  · unfold State.countAt
    rw [State.cpField_cpSetField_self _ _ _ (by decide),
      State.cpField_cpSetField_of_disjoint _ _ _ _ (.inr (by decide)),
      State.cpField_cpSetField_of_disjoint _ _ _ _ (.inl (by decide)), State.cpField_cpSetField_self _ _ _ (by decide),
      satAdd]
    refine ⟨?_, fun _ => rfl⟩
    split <;> omega

/-- An error bit of a station set after its corrected errors were counted, and reported. -/
theorem State.noted_errors (t : State) (i : Nat) {cls : Nat} (hcls : cls < 0x100) (loc : Nat) :
    let a := cpAddr c.st 0xFF010
    let w := (t.cpSetField a i 1 1).report c.st cls c.st.toNat loc
    t.SameButErrors w ∧ (i < 16 → w.cpField a 16 16 = t.cpField a 16 16) ∧ (0 < i → w.cpField a 0 1 = t.cpField a 0 1) ∧
      (i < 16 → w.cpField a i 1 = 1) := by
  intro a w
  have hreg : ∀ lo n, w.cpField a lo n = (t.cpSetField a i 1 1).cpField a lo n := fun lo n =>
    State.report_errorField _ c.st c.st hcls ..
  refine ⟨(t.cpSetField_errors a i 1 1).trans (State.report_errors ..), fun h => ?_, fun h => ?_, fun h => ?_⟩
  · rw [hreg, State.cpField_cpSetField_of_disjoint _ _ _ _ (.inr (by omega))]
  · rw [hreg, State.cpField_cpSetField_of_disjoint _ _ _ _ (.inl (by omega))]
  · rw [hreg, State.cpField_cpSetField_self _ _ _ (by omega)]
    rfl

end

/-- `w` is `s` but for errors, and the single-bit errors that the check found are counted with CORR (R230). -/
def FlitChecked (c : FlitCheck) (s w : State) : Prop :=
  s.SameButErrors w ∧
    w.cpField (cpAddr c.st 0xFF010) 16 16 = min 0xFFFF (s.cpField (cpAddr c.st 0xFF010) 16 16 + c.ce.length) ∧
    (c.ce ≠ [] → w.cpField (cpAddr c.st 0xFF010) 0 1 = 1)

section
variable (c : FlitCheck) (m : Msg) (s : State)

/-- A check leaves errors noted and reported, whatever it finds. -/
theorem State.checkFlit_leaves : FlitChecked c s (State.checkFlit c m s).2 := by
  obtain ⟨herr, hreg⟩ := s.corrected_leaves c
  obtain ⟨hcount, hcorr⟩ := s.countCorrected_counts c
  have hsame : FlitChecked c s (s.corrected c) := by
    unfold FlitChecked State.cpField
    rw [hreg]
    exact ⟨herr, hcount, hcorr⟩
  rw [State.checkFlit_eq]
  extract_lets t noted
  have hnoted : ∀ i cls loc, 0 < i → i < 16 → cls < 0x100 → FlitChecked c s (noted i cls loc) :=
    fun i cls loc h0 h16 hcls => by
      obtain ⟨herr, hcount, hcorr⟩ := hsame
      obtain ⟨herr', hcount', hcorr', -⟩ := State.noted_errors c t i hcls loc
      exact ⟨herr.trans herr', (hcount' h16).trans hcount, fun h => (hcorr' h0).trans (hcorr h)⟩
  split_ifs
  · exact hsame
  · exact hnoted 1 0x1A 0 (by decide) (by decide) (by decide)
  · exact hsame
  · exact hsame
  · exact hnoted 2 0x19 m.addr.toNat (by decide) (by decide) (by decide)

/-- A header with an uncorrectable word is lost, and UE_HDR is set (R230). -/
theorem State.checkFlit_header (hdata : c.data = false) (hue : c.ue ≠ []) :
    (State.checkFlit c m s).1 = none ∧ (State.checkFlit c m s).2.cpField (cpAddr c.st 0xFF010) 1 1 = 1 := by
  rw [State.checkFlit_eq]
  extract_lets t noted
  rw [if_neg (by simpa using hue), if_pos (by simp [hdata])]
  obtain ⟨-, -, -, hset⟩ := State.noted_errors c t 1 (cls := 0x1A) (by decide) 0
  exact ⟨rfl, hset (by decide)⟩

/-- A data flit with an uncorrectable word goes on poisoned; UE_DATA tells one that was not sent poisoned (R233). -/
theorem State.checkFlit_data (hdata : c.data = true) (hue : c.ue ≠ []) (hflits : m.flits = 2) :
    (State.checkFlit c m s).1 = some { m with poisoned := true, data := some 0 } ∧
      (poisonWords c m.poisoned < 5 → (State.checkFlit c m s).2.cpField (cpAddr c.st 0xFF010) 2 1 = 1) := by
  rw [State.checkFlit_eq]
  extract_lets t noted
  rw [if_neg (by simpa using hue), if_neg (by simp [hdata]), if_neg (by omega)]
  refine ⟨rfl, fun hfew => ?_⟩
  rw [if_neg (by omega)]
  obtain ⟨-, -, -, hset⟩ := State.noted_errors c t 2 (cls := 0x19) (by decide) m.addr.toNat
  exact hset (by decide)

theorem State.checkFlit_clean (hue : c.ue = []) : (State.checkFlit c m s).1 = some m := by
  rw [State.checkFlit_eq]
  simp [hue]

end

/-! What routers and Loupes note of a message that passes. -/

/-- `t` is `s` but for the counts of routers and Loupes, and the traces. -/
def State.SameButWatched (s t : State) : Prop :=
  ∃ b w l c r, t = { s with rtrBytes := b, rtrWin := w, loupes := l, cp := c, trace := r }

theorem State.SameButWatched.refl (s : State) : s.SameButWatched s := ⟨_, _, _, _, _, rfl⟩

theorem State.SameButWatched.trans {s t u : State} (h : s.SameButWatched t) (h' : t.SameButWatched u) :
    s.SameButWatched u := by
  obtain ⟨_, _, _, _, _, rfl⟩ := h
  obtain ⟨_, _, _, _, _, rfl⟩ := h'
  exact ⟨_, _, _, _, _, rfl⟩

theorem State.SameButWatched.foldl {α : Type} {f : State → α → State} (hf : ∀ (t : State) x, t.SameButWatched (f t x))
    (l : List α) (s : State) : s.SameButWatched (l.foldl f s) := by
  induction l generalizing s with
  | nil => exact .refl s
  | cons x l ih => exact (hf s x).trans (ih (f s x))

theorem State.cpSet_watched (s : State) (a : Nat) (v : Word32) : s.SameButWatched (s.cpSet a v) := ⟨_, _, _, _, _, rfl⟩

theorem State.setLoupe_watched (s : State) (k : Nat) (x : Loupe) : s.SameButWatched (s.setLoupe k x) :=
  ⟨_, _, _, _, _, rfl⟩

theorem State.countFlits_watched (s : State) (k n : Nat) : s.SameButWatched (s.countFlits k n) := ⟨_, _, _, _, _, rfl⟩

theorem State.traceEntry_watched (s : State) (k : Nat) (m : Msg) : s.SameButWatched (s.traceEntry k m) := by
  unfold State.traceEntry
  extract_lets x st cap widx base w0 put last
  split
  · exact .refl s
  · split
    · exact s.setLoupe_watched ..
    · split
      extract_lets t s1 stop st1 st2
      have h1 : s.SameButWatched s1 := .trans ⟨_, _, _, _, _, rfl⟩ (State.setLoupe_watched ..)
      exact h1.trans (s1.cpSet_watched ..)

theorem State.lpCount_watched (s : State) (k off n : Nat) : s.SameButWatched (s.lpCount k off n) :=
  (s.cpSet_watched ..).trans (State.cpSet_watched ..)

theorem State.examine_watched (s : State) (m : Msg) (path : List Hop) (k : Nat) :
    s.SameButWatched (s.examine m path k) := by
  unfold State.examine
  extract_lets ctl run t
  have ht : s.SameButWatched t := by
    unfold t
    split
    · exact (s.lpCount_watched ..).trans (State.lpCount_watched ..)
    · exact .refl s
  split
  · exact .refl s
  · split
    · exact ht.trans (t.traceEntry_watched k m)
    · exact .refl s

theorem State.passed_watched (s : State) (m : Msg) : s.SameButWatched (s.passed m) := by
  unfold State.passed
  extract_lets path n t
  have ht : s.SameButWatched t := .foldl (fun t _ => (t.countFlits_watched ..).trans (State.countFlits_watched ..)) ..
  split
  · exact ht
  · exact ht.trans (.foldl (fun t k => t.examine_watched m path k) ..)

theorem State.passed_around (s : State) (m : Msg) :
    SameUnits s (s.passed m) ∧ (s.passed m).net = s.net ∧ (s.passed m).reqs = s.reqs := by
  obtain ⟨_, _, _, _, _, h⟩ := s.passed_watched m
  rw [h]
  exact ⟨⟨rfl, rfl, rfl⟩, rfl, rfl⟩

end Sys2Proof.Machine
end

