-- ==== Sys2Proof/Proofs/FabricDelivery.lean ====
section
namespace Sys2Proof.Machine

open Sys2Proof.Claims

/-! The commands of messages all deliver. -/

/-- A message form's command, given message `m`: the message of another CMO is left, every other one is delivered to
the units that the tables address it to. -/
structure Delivers (f : (Msg → Instr) × MsgKind × Option Nat) (m : Msg) (s : State) : Prop where
  leaves : ∀ c, m.kind = f.2.1 → f.2.2 = some c → m.low % 4 ≠ c → exec (f.1 m) s = .next s
  takes : (∀ c, m.kind = f.2.1 → f.2.2 = some c → m.low % 4 = c) →
    ∃ ok g, (∀ x, ok x = servedBy f.2.1 x) ∧ exec (f.1 m) s = s.deliver m f.2.1 ok g

section
variable {m : Msg} {s : State} {i : Msg → Instr} {k : MsgKind}

theorem delivers_plain (h : ∃ ok g, (∀ x, ok x = servedBy k x) ∧ exec (i m) s = s.deliver m k ok g) :
    Delivers (i, k, none) m s :=
  ⟨fun _ _ h => absurd h (by simp), fun _ => h⟩

theorem delivers_cmo {c : Nat} (h : exec (i m) s = s.cmoAtHome m c) : Delivers (i, .cmo, some c) m s := by
  refine ⟨fun d hkind hd hlow => ?_, fun hlow =>
    ⟨UnitKind.isHome, fun m s => s.homeRequest m, fun x => by cases x <;> rfl, ?_⟩⟩
  · cases hd
    exact h.trans (if_pos ⟨hkind, hlow⟩)
  · exact h.trans (if_neg fun hc => hc.2 (hlow c hc.1 rfl))

theorem delivers_of_messageForm {f : (Msg → Instr) × MsgKind × Option Nat} (hf : f ∈ messageForms) (m : Msg)
    (s : State) : Delivers f m s := by
  simp only [messageForms, List.mem_cons, List.not_mem_nil, or_false] at hf
  rcases hf with rfl | rfl | rfl | rfl | rfl | rfl | rfl | rfl | rfl | rfl | rfl | rfl | rfl | rfl | rfl | rfl | rfl |
    rfl | rfl | rfl | rfl | rfl | rfl | rfl | rfl | rfl | rfl | rfl | rfl | rfl | rfl | rfl | rfl | rfl | rfl | rfl |
    rfl | rfl | rfl | rfl | rfl | rfl | rfl | rfl | rfl
  -- the requests and evictions before the CMOs, the four CMOs, and the rest of the two tables
  iterate 8
    · exact delivers_plain ⟨_, _, fun x => by cases x <;> rfl, rfl⟩
  iterate 4
    · exact delivers_cmo rfl
  iterate 33
    · exact delivers_plain ⟨_, _, fun x => by cases x <;> rfl, rfl⟩

theorem messageForms_listed : ∀ f ∈ messageForms, unlisted f.2.1 = false := by decide

end

/-! What becomes of a message at the end of its way. -/

theorem Msg.bare_of_noChecks {m : Msg} (h : m.checks = []) : m.bare = m := by
  cases m
  cases h
  rfl

section
variable {s : State} {m : Msg} {k : MsgKind} {ok : UnitKind → Bool} {g : Msg → State → Option State}

theorem State.deliver_otherKind (hkind : m.kind ≠ k) (hlisted : unlisted m.kind = false) :
    s.deliver m k ok g = .next s := by
  unfold State.deliver
  exact if_pos (by simp [hkind, hlisted])

section
variable (hover : s.overtakes m = false) (hlinks : s.linkWaits m = false)
include hover hlinks

/-- What a message asks for is not done where its header is lost (R230). -/
theorem State.deliver_lostHeader {c : FlitCheck} {rest : List FlitCheck} (hkind : m.kind = k)
    (hchecks : m.checks = c :: rest) (hdata : c.data = false) (hue : c.ue ≠ []) :
    s.deliver m k ok g = .next (State.checkFlit c m.bare ((s.recv m).passed m.bare)).2 := by
  obtain ⟨hlost, -⟩ := State.checkFlit_header c m.bare ((s.recv m).passed m.bare) hdata hue
  unfold State.deliver
  rw [if_neg (by simp [hkind, hover, hlinks]), hchecks, State.checkFlits]
  generalize State.checkFlit c m.bare ((s.recv m).passed m.bare) = r at hlost ⊢
  obtain ⟨_, w⟩ := r
  cases hlost
  rfl

variable (hchecks : m.checks = [])
include hchecks

theorem State.deliver_down (hkind : m.kind = k) (hdown : s.isDown m.dest m.src = true) :
    s.deliver m k ok g = .next (((s.recv m).passed m).proxy m) := by
  unfold State.deliver
  rw [if_neg (by simp [hkind, hover, hlinks]), hchecks, Msg.bare_of_noChecks hchecks]
  exact if_pos hdown

variable (hdown : s.isDown m.dest m.src = false)
include hdown

/-- A command that its station does not take is dropped (R180, R234). -/
theorem State.deliver_badCmd
    (hbad : (m.kind = k ∧ ∀ x, unitKind m.dest = some x → ok x = false) ∨ (m.kind ≠ k ∧ unlisted m.kind = true)) :
    s.deliver m k ok g = .next (((s.recv m).passed m).badCmd m) := by
  have hgo : ¬ ((m.kind ≠ k && !unlisted m.kind) || s.overtakes m || s.linkWaits m) = true := by
    obtain ⟨hkind, -⟩ | ⟨-, hcode⟩ := hbad
    · simp [hkind, hover, hlinks]
    · simp [hcode, hover, hlinks]
  unfold State.deliver
  rw [if_neg hgo, hchecks, Msg.bare_of_noChecks hchecks]
  dsimp only [State.checkFlits]
  rw [if_neg (by simp [hdown])]
  cases hunit : unitKind m.dest with
  | none => rfl
  | some x =>
    refine if_pos ?_
    obtain ⟨-, hno⟩ | ⟨hkind, -⟩ := hbad
    · simp [hno x hunit]
    · simp [hkind]

/-- An answer of another role epoch is dropped (R247). -/
theorem State.deliver_stale (hkind : m.kind = k) {x : UnitKind} (hunit : unitKind m.dest = some x) (hok : ok x = true)
    (hstale : ((s.recv m).passed m).stale m = true) :
    s.deliver m k ok g = .next (((s.recv m).passed m).dropStale m) := by
  unfold State.deliver
  rw [if_neg (by simp [hkind, hover, hlinks]), hchecks, Msg.bare_of_noChecks hchecks]
  dsimp only [State.checkFlits]
  rw [if_neg (by simp [hdown]), hunit]
  dsimp only
  rw [if_neg (by simp [hkind, hok]), if_pos hstale]

end
end

/-! A command dropped, a stale answer dropped, and an answer on behalf of a station that is down. -/

theorem cpAddr_ne (st st' : Station) {a b : Nat} (ha : a < 2 ^ 20) (hb : b < 2 ^ 20) (h : a ≠ b) :
    cpAddr st a ≠ cpAddr st' b := fun he => h (by rw [← cpAddr_mod st ha, he, cpAddr_mod _ hb])

/-- The header of a message stays as it enters the fabric. -/
theorem routed_header (m : Msg) : (routed m).kind = m.kind ∧ (routed m).dest = m.dest ∧ (routed m).src = m.src ∧
    (routed m).txid = m.txid ∧ (routed m).epoch = m.epoch := by
  unfold routed Msg.sealed
  split <;> exact ⟨rfl, rfl, rfl, rfl, rfl⟩

section
variable (s : State) (m : Msg)

theorem State.badCmd_drops :
    SameUnits s (s.badCmd m) ∧ (s.badCmd m).net = s.net ∧ (s.badCmd m).reqs = s.reqs ∧
      (s.badCmd m).cpField (cpAddr m.dest 0xFF010) 3 1 = 1 := by
  have herr : s.SameButErrors (s.badCmd m) := (s.cpSetField_errors ..).trans (State.report_errors ..)
  obtain ⟨hunits, hnet, hreqs⟩ := herr.around
  refine ⟨hunits, hnet, hreqs, ?_⟩
  rw [State.badCmd, State.report_errorField _ _ _ (by decide), State.cpField_cpSetField_self _ _ _ (by decide)]
  rfl

/-- The transaction and the buffer that an answer was for are free (R247). -/
def State.freed (s : State) (m : Msg) : State :=
  let t := (s.findReq m).elim s s.endReq
  if m.dest = foldStation then
    { t with fold := { t.fold with ops := SMap.set none t.fold.ops m.txid.toNat none } }
  else t

/-- A stale answer and the RoleGone for it are counted in registers `a` and `b` (R247, R248). -/
def State.countStale (s : State) (a b : Nat) : State := (s.count16 a 1).countAt b 0 16 1

/-- The RoleGone for a stale answer (R248). -/
def roleGoneFor (m : Msg) : Msg :=
  { kind := .roleGone, dest := m.src, src := m.dest, txid := m.txid, epoch := m.epoch, addr := m.addr, prio := m.prio }

/-- A stale answer dropped where registers `a` and `b` count it and its RoleGone. -/
def State.dropStaleAt (s : State) (m : Msg) (a b : Nat) : State :=
  ((s.freed m).countStale a b).send (roleGoneFor m)

theorem State.dropStale_eq : s.dropStale m = s.dropStaleAt m (cpAddr m.dest 0xFF008) (cpAddr m.dest 0xFF00C) := by
  unfold State.dropStale State.dropStaleAt State.freed
  cases s.findReq m <;> rfl

theorem State.freed_leaves : SameUnits s (s.freed m) ∧ (s.freed m).net = s.net ∧ (s.freed m).cp = s.cp ∧
    (s.freed m).reqs = (s.findReq m).elim s.reqs s.reqs.erase := by
  unfold State.freed
  extract_lets t
  have ht : SameUnits s t ∧ t.net = s.net ∧ t.cp = s.cp ∧
      t.reqs = (s.findReq m).elim s.reqs s.reqs.erase := by
    unfold t
    cases s.findReq m <;> exact ⟨⟨rfl, rfl, rfl⟩, rfl, rfl, rfl⟩
  split <;> exact ht

theorem State.slotFenced_congr {s t : State}
    (h : ∀ d, t.cpGet (cpAddr (dcsStation d) 0x130) = s.cpGet (cpAddr (dcsStation d) 0x130)) (st : Station) :
    t.slotFenced st = s.slotFenced st := by
  unfold State.slotFenced
  split
  · rw [h]
  · rfl

theorem State.countStale_leaves {a b : Nat} (hne : a ≠ b) :
    SameUnits s (s.countStale a b) ∧ (s.countStale a b).net = s.net ∧ (s.countStale a b).reqs = s.reqs ∧
      (∀ c, c ≠ a → c ≠ b → (s.countStale a b).cpGet c = s.cpGet c) ∧
      (s.countStale a b).cpField a 0 16 = min 0xFFFF (s.cpField a 0 16 + 1) := by
  have hfirst : s.count16 a 1 = (s.cpSetField a 0 16 (satAdd 0xFFFF (s.cpField a 0 16) 1)).cpSetField a 16 1 1 :=
    if_neg (by decide)
  have hother : ∀ c, c ≠ b → (s.countStale a b).cpGet c = (s.count16 a 1).cpGet c :=
    fun c hc => State.cpGet_cpSetField_of_ne _ _ _ _ hc
  refine ⟨?_, ?_, ?_, fun c ha hb => ?_, ?_⟩
  · rw [State.countStale, hfirst]
    exact ⟨rfl, rfl, rfl⟩
  · rw [State.countStale, hfirst]
    rfl
  · rw [State.countStale, hfirst]
    rfl
  · rw [hother c hb, hfirst, State.cpGet_cpSetField_of_ne _ _ _ _ ha, State.cpGet_cpSetField_of_ne _ _ _ _ ha]
  · rw [State.cpField, hother a hne]
    exact s.count16_counts a

/-- A stale answer ends its transaction and is counted, and RoleGone goes back. -/
theorem State.dropStaleAt_leaves {a b : Nat} (hne : a ≠ b)
    (hfences : ∀ d, cpAddr (dcsStation d) 0x130 ≠ a ∧ cpAddr (dcsStation d) 0x130 ≠ b)
    (hopen : s.slotFenced m.dest = false) :
    SameUnits s (s.dropStaleAt m a b) ∧ (s.dropStaleAt m a b).reqs = (s.findReq m).elim s.reqs s.reqs.erase ∧
      (s.dropStaleAt m a b).net = s.net ++ [routed (roleGoneFor m)] ∧
      (s.dropStaleAt m a b).cpField a 0 16 = min 0xFFFF (s.cpField a 0 16 + 1) := by
  obtain ⟨⟨hcores, hdies, hmem⟩, hnet, hcp, hreqs⟩ := s.freed_leaves m
  obtain ⟨⟨hcores', hdies', hmem'⟩, hnet', hreqs', hother, hcount⟩ := (s.freed m).countStale_leaves hne
  have hreg : ∀ d, ((s.freed m).countStale a b).cpGet (cpAddr (dcsStation d) 0x130) =
      s.cpGet (cpAddr (dcsStation d) 0x130) := fun d => by
    obtain ⟨ha, hb⟩ := hfences d
    exact (hother _ ha hb).trans (State.cpGet_congr hcp _)
  have hfenced : ((s.freed m).countStale a b).slotFenced m.dest = false := (State.slotFenced_congr hreg _).trans hopen
  have hput : s.dropStaleAt m a b = ((s.freed m).countStale a b).put (roleGoneFor m) := by
    rw [State.dropStaleAt, State.send, if_neg (by simp [roleGoneFor, hfenced]),
      if_neg (by simp [roleGoneFor, holdKind])]
  rw [hput]
  refine ⟨⟨hcores'.trans hcores, hdies'.trans hdies, hmem'.trans hmem⟩, hreqs'.trans hreqs,
    congrArg (· ++ _) (hnet'.trans hnet), ?_⟩
  rw [State.cpField_congr (State.put_cp ..), hcount, State.cpField_congr hcp]

theorem State.dropStale_leaves (hopen : s.slotFenced m.dest = false) :
    SameUnits s (s.dropStale m) ∧ (s.dropStale m).reqs = (s.findReq m).elim s.reqs s.reqs.erase ∧
      (s.dropStale m).net = s.net ++ [routed (roleGoneFor m)] ∧
      (s.dropStale m).cpField (cpAddr m.dest 0xFF008) 0 16 =
        min 0xFFFF (s.cpField (cpAddr m.dest 0xFF008) 0 16 + 1) := by
  rw [State.dropStale_eq]
  have hfences : ∀ d, cpAddr (dcsStation d) 0x130 ≠ cpAddr m.dest 0xFF008 ∧
      cpAddr (dcsStation d) 0x130 ≠ cpAddr m.dest 0xFF00C := fun d =>
    ⟨cpAddr_ne _ _ (by decide) (by decide) (by decide), cpAddr_ne _ _ (by decide) (by decide) (by decide)⟩
  exact s.dropStaleAt_leaves m (cpAddr_ne _ _ (by decide) (by decide) (by decide)) hfences hopen

/-- A message put near a station that is down, or at the station itself, goes out with its header. -/
theorem State.putNear_puts (a : Msg) : ∃ y, s.putNear a = { s with net := s.net ++ [y] } ∧
    y.kind = a.kind ∧ y.dest = a.dest ∧ y.src = a.src ∧ y.txid = a.txid ∧ y.epoch = a.epoch := by
  have hheader := routed_header a
  unfold State.putNear
  extract_lets hubSide
  split
  · exact ⟨_, rfl, hheader⟩
  · exact ⟨_, rfl, hheader⟩

/-- The answer on behalf of a station that is down: a home's refusal names the line. -/
def proxyAnswer (m : Msg) (k : MsgKind) : Msg :=
  if k = .homeRefuse then { replyTo m k with addr := BitVec.ofNat 48 (m.addr.toNat / 64 * 64) } else replyTo m k

theorem State.proxy_eq : s.proxy m = (downAnswer m.kind).elim
    (if m.kind.isAnswer then (s.findReq m).elim s s.endReq else s) (fun k => s.putNear (proxyAnswer m k)) := by
  unfold State.proxy
  cases m.kind <;> rfl

theorem State.proxy_answers {k : MsgKind} (h : downAnswer m.kind = some k) :
    SameUnits s (s.proxy m) ∧ (s.proxy m).reqs = s.reqs ∧ ∃ y, (s.proxy m).net = s.net ++ [y] ∧ y.kind = k ∧
      y.dest = m.src ∧ y.src = m.dest ∧ y.txid = m.txid ∧ y.epoch = m.epoch := by
  obtain ⟨y, hput, hheader⟩ := s.putNear_puts (proxyAnswer m k)
  have hanswer : (proxyAnswer m k).kind = k ∧ (proxyAnswer m k).dest = m.src ∧ (proxyAnswer m k).src = m.dest ∧
      (proxyAnswer m k).txid = m.txid ∧ (proxyAnswer m k).epoch = m.epoch := by
    unfold proxyAnswer
    split <;> exact ⟨rfl, rfl, rfl, rfl, rfl⟩
  rw [State.proxy_eq, h, Option.elim_some, hput]
  refine ⟨⟨rfl, rfl, rfl⟩, rfl, y, rfl, ?_⟩
  obtain ⟨h1, h2, h3, h4, h5⟩ := hheader
  obtain ⟨g1, g2, g3, g4, g5⟩ := hanswer
  exact ⟨h1.trans g1, h2.trans g2, h3.trans g3, h4.trans g4, h5.trans g5⟩

/-- An answer to a station that is down is sunk, which ends its transaction (R243). -/
theorem State.proxy_sinks (h : downAnswer m.kind = none) :
    SameUnits s (s.proxy m) ∧ (s.proxy m).net = s.net ∧
      (s.proxy m).reqs = (s.findReq m).elim s.reqs fun r => if m.kind.isAnswer then s.reqs.erase r else s.reqs := by
  rw [State.proxy_eq, h, Option.elim_none]
  split
  · cases s.findReq m <;> exact ⟨⟨rfl, rfl, rfl⟩, rfl, rfl⟩
  · cases s.findReq m <;> exact ⟨⟨rfl, rfl, rfl⟩, rfl, rfl⟩

end

/-! The statements. -/

theorem messagesNotTaken : MessagesNotTaken := by
  intro f hf m s u hchecks hu
  subst hu
  obtain ⟨hleaves, htakes⟩ := delivers_of_messageForm hf m s
  have htaken : Reaches s m f → ∃ ok g, (∀ x, ok x = servedBy f.2.1 x) ∧ exec (f.1 m) s = s.deliver m f.2.1 ok g :=
    fun ⟨_, hlow, _⟩ => htakes fun c _ => hlow c
  refine ⟨fun hkind hlisted => ?_, fun c hkind hcmo hcode hlow => hleaves c (hkind.trans hcmo.symm) hcode hlow,
    fun hover hlinks hup hbad => ?_, fun hreach hup hopen hserved hstale => ?_, fun hreach hdown => ?_⟩
  · obtain ⟨ok, g, -, hexec⟩ := htakes fun _ h => absurd h hkind
    have hcode : unlisted m.kind = false := by
      unfold unlisted
      split
      · exact absurd ‹_› (hlisted _)
      · rfl
    exact hexec.trans (State.deliver_otherKind hkind hcode)
  · have hlisted : ∀ c, m.kind = .other c → m.kind ≠ f.2.1 ∧ unlisted m.kind = true := fun c hc => by
      refine ⟨fun hkind => ?_, by rw [hc]; rfl⟩
      have hform := messageForms_listed f hf
      rw [← hkind, hc] at hform
      contradiction
    obtain ⟨ok, g, hok, hexec⟩ := htakes fun c hkind => hbad.elim (fun ⟨⟨_, hlow, _⟩, _⟩ => hlow c)
      fun ⟨d, hd⟩ => absurd hkind (hlisted d hd).1
    obtain ⟨hunits, hnet, hreqs, hset⟩ := State.badCmd_drops ((s.recv m).passed m) m
    refine ⟨_, hexec.trans (State.deliver_badCmd hover hlinks hchecks hup ?_), hnet, hreqs, hunits, hset⟩
    obtain ⟨⟨hkind, -⟩, hno⟩ | ⟨d, hd⟩ := hbad
    · exact .inl ⟨hkind, fun x hx => (hok x).trans (hkind ▸ hno x hx)⟩
    · exact .inr (hlisted d hd)
  · obtain ⟨ok, g, hok, hexec⟩ := htaken hreach
    obtain ⟨hkind, -, hover, hlinks⟩ := hreach
    obtain ⟨x, hunit, hx⟩ := hserved
    obtain ⟨hunits, hreqs, hnet, hcount⟩ := State.dropStale_leaves _ m hopen
    obtain ⟨hykind, hydest, hysrc, hytxid, hyepoch⟩ := routed_header (roleGoneFor m)
    have hserves : ok x = true := (hok x).trans (hkind ▸ hx)
    refine ⟨_, hexec.trans (State.deliver_stale hover hlinks hchecks hup hkind hunit hserves hstale), hunits, ?_,
      ⟨_, hnet, hykind, hydest, hysrc, hytxid, hyepoch⟩, hcount⟩
    rw [hreqs]
    cases State.findReq _ m <;> rfl
  · obtain ⟨ok, g, -, hexec⟩ := htaken hreach
    obtain ⟨hkind, -, hover, hlinks⟩ := hreach
    have hproxy := hexec.trans (State.deliver_down hover hlinks hchecks hkind hdown)
    cases hanswer : downAnswer m.kind with
    | some k =>
      obtain ⟨hunits, hrest⟩ := State.proxy_answers ((s.recv m).passed m) m hanswer
      exact ⟨_, hproxy, hunits, hrest⟩
    | none =>
      obtain ⟨hunits, hnet, hreqs⟩ := State.proxy_sinks ((s.recv m).passed m) m hanswer
      refine ⟨_, hproxy, hunits, hnet, ?_⟩
      rw [hreqs]
      cases State.findReq _ m <;> rfl

theorem flitCheckResults : FlitCheckResults := by
  refine ⟨fun f hf m s c rest hreach hchecks hdata hue => ?_, fun c m s => ?_⟩
  · obtain ⟨hkind, hlow, hover, hlinks⟩ := hreach
    obtain ⟨ok, g, -, hexec⟩ := (delivers_of_messageForm hf m s).takes fun c _ => hlow c
    obtain ⟨⟨hcores, hdies, hmem⟩, hnet, hreqs⟩ := (s.recv m).passed_around m.bare
    obtain ⟨herr, -⟩ := State.checkFlit_leaves c m.bare ((s.recv m).passed m.bare)
    obtain ⟨⟨hcores', hdies', hmem'⟩, hnet', hreqs'⟩ := herr.around
    obtain ⟨-, hset⟩ := State.checkFlit_header c m.bare ((s.recv m).passed m.bare) hdata hue
    exact ⟨_, hexec.trans (State.deliver_lostHeader hover hlinks hkind hchecks hdata hue), hnet'.trans hnet,
      hreqs'.trans hreqs, ⟨hcores'.trans hcores, hdies'.trans hdies, hmem'.trans hmem⟩, hset⟩
  · intro r count
    obtain ⟨herr, hcount, hcorr⟩ := State.checkFlit_leaves c m s
    obtain ⟨hunits, hnet, -⟩ := herr.around
    exact ⟨hunits, hnet, hcount, hcorr, State.checkFlit_clean c m s, State.checkFlit_data c m s⟩

/-- Settles O53: every command of a message is one delivery, whose branches leave, drop, answer for or lose it. -/
theorem fabricDeliveryResults : Obligations.FabricDeliveryResults := ⟨messagesNotTaken, flitCheckResults⟩

end Sys2Proof.Machine
end

