-- ==== Sys2Proof/Proofs/StrayUpgrade.lean ====
section
namespace Sys2Proof.Machine

open Sys2Proof.Claims

/-! An Upgrade at a home of another quadrant than its line's. Home H0 has line 2^28, the first of quadrant 1, clean in
its MSC, but the memory copy whose poison an Upgrade asks for (R185) is that of the line's own quadrant. -/

/-- H0 takes entries, its Pasture lets requests of the secure world pass, die C0 alone shares the line, and the
stack's copy of the line is poisoned. -/
def strayState : State :=
  { State.reset with
    cp := [(cpAddr (homeStation 0) 0, 1), (cpAddr (mcStation 0) 0x1000, 0x5F),
           (cpAddr (mcStation 0) 0x100C, 0xFFFFFF)]
    homes := [(0, { msc := { ways := [(0, some ⟨2 ^ 28, false, 0, false⟩)] } })]
    dt := [(dtKey 0 0 0, { tag := some (2 ^ 26), st := [(0, .s)] })]
    poisLine := [(2 ^ 28, true)] }

/-- The sharer's bank asks H0 for the line in E. -/
def strayUpgrade : Msg :=
  { kind := .upgrade, dest := homeStation 0, src := bankOf 0 (2 ^ 28), s := true, addr := BitVec.ofNat 48 (2 ^ 34) }

/-- The state in which H0 takes the Upgrade. -/
def strayTaken : State := (strayState.recv strayUpgrade).passed strayUpgrade

/-- The messages on the fabric after a command, by kind. -/
def sentKinds : Out → List MsgKind
  | .next w => w.net.map (·.kind)
  | _ => []

theorem strayUpgrade_homePoison : sentKinds (exec (.upgrade strayUpgrade) strayState) = [.homePoison] := by
  decide +kernel

theorem strayUpgrade_atHome : AtHome strayState 0 strayUpgrade .upgrade strayTaken := by
  have harrives : strayState.overtakes strayUpgrade = false ∧ strayState.linkWaits strayUpgrade = false ∧
      strayState.isDown strayUpgrade.dest strayUpgrade.src = false ∧ strayTaken.stale strayUpgrade = false ∧
      strayTaken.slotFenced strayUpgrade.dest = false ∧ strayTaken.accepts 0 = true ∧
      strayUpgrade.lowOk = true := by decide +kernel
  obtain ⟨hover, hlinks, hdown, hstale, hopen, haccepts, hlow⟩ := harrives
  exact ⟨rfl, rfl, ⟨rfl, hover, hlinks, hdown, rfl, hstale, hopen⟩, haccepts, hlow⟩

theorem strayUpgrade_pastureLets : PastureLets strayTaken 0 strayUpgrade := by
  intro p hp
  have hpasses : strayTaken.passes (mcStation 0) 32 (64 * strayUpgrade.line) strayUpgrade.s strayUpgrade.pid .w
      = true := by decide +kernel
  have hperm : homePerm strayUpgrade = some .w := by decide
  rw [hperm] at hp
  cases hp
  exact hpasses

theorem strayUpgrade_lineFree : LineFree strayTaken 0 strayUpgrade.line := by
  have hidle : (strayTaken.home 0).table = [] ∧ (strayTaken.home 0).held = [] ∧
      strayTaken.mirrored strayUpgrade.line = false := by decide +kernel
  obtain ⟨htable, hheld, hmirrored⟩ := hidle
  refine ⟨?_, ?_, hmirrored⟩
  · simp [htable]
  · simp [hheld]

/-- Nothing in the statement asks that the home be the one of the line's quadrant. -/
theorem not_homeServes : ¬ HomeServes := by
  intro h
  have hline : strayTaken.mayTake 0 strayUpgrade.hi = true ∧
      (strayTaken.home 0).msc.find strayUpgrade.line = some ⟨2 ^ 28, false, 0, false⟩ ∧
      strayTaken.holders strayUpgrade.line = [(0, .s)] ∧ strayTaken.net = [] := by decide +kernel
  obtain ⟨hmay, hfind, hholders, hnet⟩ := hline
  obtain ⟨-, hupgrade⟩ := h 0 strayUpgrade strayState strayTaken _ hmay strayUpgrade_pastureLets strayUpgrade_lineFree
    hfind rfl
  obtain ⟨w, hexec, ⟨a, hsent, hkind, -⟩, -⟩ := hupgrade 0 (by decide) hholders strayUpgrade_atHome
  have hdone : sentKinds (exec (.upgrade strayUpgrade) strayState) = [.homeDone] := by
    rw [hexec, sentKinds, hsent, hnet, List.nil_append, List.map_singleton, hkind]
  rw [strayUpgrade_homePoison] at hdone
  exact absurd hdone (by decide)

/-- Refutes O22: an Upgrade of the only sharer is answered HomePoison by a home that is not its line's, where the
line's own quadrant has a poisoned memory copy; the statement's hypotheses do not tie the line to the home. -/
theorem not_homeRequestResults : ¬ Obligations.HomeRequestResults := fun ⟨_, hserves, _⟩ => not_homeServes hserves

end Sys2Proof.Machine
end

