-- ==== Sys2Proof/Proofs/PseudoChannels.lean ====
section
/-! SUPPORT. A pseudo-channel changed, its refresh debt, and what a controller's events and reports leave (R199 to
R225). -/

namespace Sys2Proof.Machine

open Sys2Proof.Claims

/-! One pseudo-channel changed. -/

section
variable (s : State) (q : Quad) (p : Nat) (f : Pc → Pc)

theorem State.mc_modPc : (s.modPc q p f).mc q =
    { s.mc q with pcs := SMap.set {} (s.mc q).pcs p (f ((s.mc q).pc p)) } := State.mc_modMc ..

theorem State.pc_modPc (j : Nat) :
    ((s.modPc q p f).mc q).pc j = if j = p then f ((s.mc q).pc p) else (s.mc q).pc j := by
  rw [State.mc_modPc]
  exact SMap.get_set ..

@[simp] theorem State.pc_modPc_self : ((s.modPc q p f).mc q).pc p = f ((s.mc q).pc p) := by
  rw [State.pc_modPc, if_pos rfl]

@[simp] theorem State.modPc_cp : (s.modPc q p f).cp = s.cp := rfl
@[simp] theorem State.modPc_mem : (s.modPc q p f).mem = s.mem := rfl
@[simp] theorem State.modPc_net : (s.modPc q p f).net = s.net := rfl
@[simp] theorem State.modPc_homes : (s.modPc q p f).homes = s.homes := rfl
@[simp] theorem State.modPc_cores : (s.modPc q p f).cores = s.cores := rfl
@[simp] theorem State.modPc_poisLine : (s.modPc q p f).poisLine = s.poisLine := rfl

@[simp] theorem State.modPc_byte (a : Nat) : (s.modPc q p f).byte a = s.byte a := rfl

theorem onlyPc_modPc : OnlyPc q p s (s.modPc q p f) (f ((s.mc q).pc p)) :=
  ⟨s.pc_modPc_self q p f, fun j hj => (s.pc_modPc q p f j).trans (if_neg hj), fun _ hk => State.mc_modMc_of_ne _ _ hk,
    by rw [s.mc_modPc], by rw [s.mc_modPc], rfl, rfl, rfl⟩

end

/-! Refresh debt (R211). -/

section
variable (p : Pc) (t : Word)

/-- Refreshes of a make-up that have ended change the debt and the make-up alone. -/
theorem Pc.repaid_eq : ∃ m, p.repaid t = { p with debt := owedAt p t, makeUp := m } := by
  obtain ⟨reads, issued, writes, drain, rows, debt, makeUp⟩ := p
  cases makeUp <;> exact ⟨_, rfl⟩

/-- A request that arrives leaves of a make-up what is still owed behind the refresh under way. -/
theorem Pc.interrupt_eq : p.interrupt t =
    { p with debt := if p.makeUp.isSome then owedAt p t - 1 else p.debt, makeUp := none } := by
  obtain ⟨reads, issued, writes, drain, rows, debt, makeUp⟩ := p
  cases makeUp with
  | none => rfl
  | some a =>
    unfold Pc.interrupt Pc.repaid owedAt
    dsimp only
    generalize (t - a).toNat / 350 = n
    have hmin : Nat.min debt n = min debt n := rfl
    by_cases hleft : min debt n < debt
    · simp only [hmin, if_pos hleft, Option.isSome_some, if_true]
    · have hended : debt - min debt n = 0 := by omega
      simp only [hmin, if_neg hleft, hended]
      rfl

/-- What follows a request that has left a queue changes no queue. -/
theorem Pc.rest_queues : (p.rest t).reads = p.reads ∧ (p.rest t).issued = p.issued ∧ (p.rest t).writes = p.writes := by
  unfold Pc.rest Pc.calm Pc.scrubSleep
  split <;> split <;> exact ⟨rfl, rfl, rfl⟩

theorem Pc.busy_iff : p.busy = true ↔ Waiting p := by
  unfold Pc.busy Waiting
  simp [or_assoc]

end

/-! Counts. -/

theorem satAdd_eq_min (top x n : Nat) : satAdd top x n = min top (x + n) := by
  unfold satAdd
  split <;> omega

theorem satCount_eq (w old n : Nat) : satCount w old n = min (2 ^ w - 1) (old + n) := rfl

theorem satCount_lt (w old n : Nat) : satCount w old n < 2 ^ w := by
  have hpos : 0 < 2 ^ w := Nat.two_pow_pos w
  have hle : satCount w old n ≤ 2 ^ w - 1 := Nat.min_le_left ..
  omega

/-- A count advances and stops at its largest value. -/
theorem State.cpField_countAt (s : State) (a : Nat) {lo w : Nat} (n : Nat) (h : lo + w ≤ 32) :
    (s.countAt a lo w n).cpField a lo w = satCount w (s.cpField a lo w) n := by
  rw [State.countAt, State.cpField_cpSetField_self _ _ _ h, satAdd_eq_min]
  exact Nat.mod_eq_of_lt (satCount_lt ..)

/-- A count that has advanced once for each of `n` and then once more. -/
theorem satCount_succ (w old n : Nat) : satCount w (satCount w old 1) n = satCount w old (n + 1) := by
  unfold satCount
  simp only [Nat.min_def]
  split_ifs <;> omega

theorem State.cpField_of_cpGet {s t : State} {a : Nat} (h : t.cpGet a = s.cpGet a) (lo w : Nat) :
    t.cpField a lo w = s.cpField a lo w := by rw [State.cpField, h, State.cpField]

theorem mcAddr_mod (q : Quad) {off : Nat} (h : off < 2 ^ 20) : mcAddr q off % 2 ^ 20 = off := cpAddr_mod _ h

theorem mcAddr_ne (q : Quad) {off off' : Nat} (h : off ≠ off') : mcAddr q off ≠ mcAddr q off' := by
  unfold mcAddr cpAddr
  omega

/-! Events and reports of a controller (R217 to R220, R225). -/

/-- `t` is `s` but for stored registers, event and report records, messages and free values. -/
def State.SameButRecords (s t : State) : Prop :=
  ∃ n cp net reqs shep evq ev r l, t =
    { s with free := n, cp := cp, net := net, reqs := reqs, shep := shep, evq := evq, evDropped := ev
             reports := r, slotCrit := l }

section
variable {s t u : State}

theorem State.SameButRecords.refl (s : State) : s.SameButRecords s := ⟨_, _, _, _, _, _, _, _, _, rfl⟩

theorem State.SameButRecords.trans (h : s.SameButRecords t) (h' : t.SameButRecords u) : s.SameButRecords u := by
  obtain ⟨_, _, _, _, _, _, _, _, _, rfl⟩ := h
  obtain ⟨_, _, _, _, _, _, _, _, _, rfl⟩ := h'
  exact ⟨_, _, _, _, _, _, _, _, _, rfl⟩

/-- Records are apart from homes, controllers, memory, poison marks and cores. -/
theorem State.SameButRecords.apart (h : s.SameButRecords t) :
    t.homes = s.homes ∧ t.mcs = s.mcs ∧ t.mem = s.mem ∧ t.poisLine = s.poisLine ∧ t.cores = s.cores ∧ t.tb = s.tb := by
  obtain ⟨_, _, _, _, _, _, _, _, _, rfl⟩ := h
  exact ⟨rfl, rfl, rfl, rfl, rfl, rfl⟩

end

theorem State.cpSetField_records (s : State) (a lo w x : Nat) : s.SameButRecords (s.cpSetField a lo w x) :=
  ⟨_, _, _, _, _, _, _, _, _, rfl⟩

theorem State.countAt_records (s : State) (a lo w n : Nat) : s.SameButRecords (s.countAt a lo w n) :=
  s.cpSetField_records ..

theorem State.report_records (s : State) (st : Station) (cls source loc : Nat) (d0 d1 : Option Nat) (crit : Bool) :
    s.SameButRecords (s.report st cls source loc d0 d1 crit) := by
  obtain ⟨_, _, _, _, h⟩ := s.report_only st cls source loc d0 d1 crit
  rw [h]
  exact ⟨_, _, _, _, _, _, _, _, _, rfl⟩

theorem State.send_records (s : State) (m : Msg) : s.SameButRecords (s.send m) ∧ (s.send m).cp = s.cp := by
  unfold State.send
  split
  · exact ⟨.refl s, rfl⟩
  · split <;> exact ⟨⟨_, _, _, _, _, _, _, _, _, rfl⟩, rfl⟩

theorem State.raiseHub_records (s : State) (st : Station) (i : Nat) :
    s.SameButRecords (s.raiseHub st i) ∧ (s.raiseHub st i).cp = s.cp := by
  unfold State.raiseHub
  split
  · exact ⟨.refl s, rfl⟩
  · unfold State.sendInt
    extract_lets m
    obtain ⟨hsame, hcp⟩ := State.send_records { s with reqs := s.reqs ++ [({ msg := m, purpose := .interrupt } : Req)] } m
    exact ⟨State.SameButRecords.trans ⟨_, _, _, _, _, _, _, _, _, rfl⟩ hsame, hcp⟩

theorem State.event_records (s : State) (world : Bool) (e : EventRec) :
    s.SameButRecords (s.event world e) ∧ (s.event world e).cp = s.cp := by
  unfold State.event
  extract_lets k ev e' s1
  split
  · exact ⟨⟨_, _, _, _, _, _, _, _, _, rfl⟩, rfl⟩
  · have hs1 : s.SameButRecords s1 := ⟨_, _, _, _, _, _, _, _, _, rfl⟩
    split
    · exact ⟨hs1, rfl⟩
    · split
      · obtain ⟨hsame, hcp⟩ := s1.raiseHub_records shepStation 42
        exact ⟨hs1.trans hsame, hcp⟩
      · exact ⟨hs1, rfl⟩

/-- An event of a controller writes no register but MC_EVENT. -/
theorem State.mcEvent_records (s : State) (q : Quad) (i : Nat) :
    s.SameButRecords (s.mcEvent q i) ∧ ∀ a, a ≠ mcAddr q 0x0A0 → (s.mcEvent q i).cpGet a = s.cpGet a := by
  unfold State.mcEvent
  extract_lets a s1
  split
  · exact ⟨.refl s, fun _ _ => rfl⟩
  · obtain ⟨hsame, hcp⟩ := s1.event_records true { code := 0x0060, subj := BitVec.ofNat 8 q.val, arg := s1.cpGet a }
    exact ⟨(s.cpSetField_records ..).trans hsame,
      fun b hb => (State.cpGet_congr hcp b).trans (State.cpGet_cpSetField_of_ne _ _ _ _ hb)⟩

/-- The registers that an error of memory does not change: those below MC_EVENT and those between the controllers'
counters and the detail slots. -/
def ApartFromErrors (a : Nat) : Prop := a % 2 ^ 20 < 0x0A0 ∨ (0x100 ≤ a % 2 ^ 20 ∧ a % 2 ^ 20 < 0xF8000)

theorem ApartFromErrors.ne {a : Nat} (h : ApartFromErrors a) (q : Quad) {off : Nat} (hlo : 0x0A0 ≤ off)
    (hhi : off < 0x100) : a ≠ mcAddr q off := by
  rintro rfl
  rw [ApartFromErrors, mcAddr_mod q (by omega)] at h
  omega

end Sys2Proof.Machine
end

