-- ==== Sys2Proof/Proofs/RefreshAndScrub.lean ====
section
/-! SUPPORT. Refresh, idle self-refresh and the temperature (R210 to R212); the scrubber (R222 to R224). -/

namespace Sys2Proof.Machine

open Sys2Proof.Claims

/-! Refresh (R211). -/

section
variable {s : State} {q : Quad} {pc : Fin 16}

theorem refreshDue_serving (h : Serving s q) (hawake : ((s.mc q).pc pc.val).selfRef = false) :
    ¬ (((s.mc q).pc pc.val).selfRef || (s.mc q).cmdSr || (s.mc q).keep) = true := by
  obtain ⟨hsr, hkeep⟩ := h
  simp [hsr, hkeep, hawake]

theorem refreshDue_idle (h : Serving s q) (hawake : ((s.mc q).pc pc.val).selfRef = false)
    (hidle : ¬ Waiting ((s.mc q).pc pc.val)) : exec (.refreshDue q pc) s = .next (s.modPc q pc.val fun p =>
      { p.repaid s.tb with debt := (p.repaid s.tb).debt + 1, makeUp := (p.repaid s.tb).makeUp <|> some s.tb
                           rows := [] }) := by
  show execRefreshDue q pc s = _
  unfold execRefreshDue
  dsimp only
  rw [if_neg (refreshDue_serving h hawake), if_pos (by simpa [← Pc.busy_iff] using hidle)]

theorem refreshDue_waiting (h : Serving s q) (hawake : ((s.mc q).pc pc.val).selfRef = false)
    (hwait : Waiting ((s.mc q).pc pc.val)) : exec (.refreshDue q pc) s =
      if ((s.mc q).pc pc.val).debt < s.cpField (mcAddr q 0x00C) 0 4 then
        .next (s.modPc q pc.val fun p => { p with debt := p.debt + 1 })
      else .next (((s.count16 (mcAddr q 0x010) 1).mcEvent q 5).modPc q pc.val fun p => { p with rows := [] }) := by
  show execRefreshDue q pc s = _
  unfold execRefreshDue
  dsimp only
  rw [if_neg (refreshDue_serving h hawake), if_neg (by simpa [← Pc.busy_iff] using hwait)]

theorem State.count16_records (s : State) (a : Nat) : s.SameButRecords (s.count16 a 1) := by
  rw [State.count16, if_neg (by decide)]
  exact (s.cpSetField_records ..).trans (State.cpSetField_records ..)

/-- A refresh that is forced is counted. -/
theorem forcedRefresh_counts :
    let w := ((s.count16 (mcAddr q 0x010) 1).mcEvent q 5).modPc q pc.val fun p => { p with rows := [] }
    (w.mc q).pc pc.val = { (s.mc q).pc pc.val with rows := [] } ∧ w.mem = s.mem ∧
      w.cpField (mcAddr q 0x010) 0 16 = satCount 16 (s.cpField (mcAddr q 0x010) 0 16) 1 := by
  obtain ⟨hevent, hreg⟩ := (s.count16 (mcAddr q 0x010) 1).mcEvent_records q 5
  obtain ⟨-, hmcs, hmem, -⟩ := ((s.count16_records (mcAddr q 0x010)).trans hevent).apart
  refine ⟨?_, (State.modPc_mem ..).trans hmem, ?_⟩
  · rw [State.pc_modPc_self, State.mc_congr hmcs]
  · rw [State.cpField_congr (State.modPc_cp ..), State.cpField_of_cpGet (hreg _ (mcAddr_ne q (by decide))),
      State.count16_counts, satCount_eq]
    rfl

/-- A pseudo-channel that may sleep and has nothing to do enters self-refresh (R212). -/
theorem exec_selfRefreshEntry (h : Serving s q) (hidle : Idle ((s.mc q).pc pc.val))
    (hmay : s.cpField (mcAddr q 0x00C) 4 1 = 1) : exec (.selfRefreshEntry q pc) s =
      .next (s.modPc q pc.val fun p => { p with selfRef := true, debt := 0, makeUp := none, rows := [] }) := by
  obtain ⟨hsr, hkeep⟩ := h
  obtain ⟨hreads, hissued, hwrites⟩ := hidle
  exact if_pos (by simp [hmay, hreads, hissued, hwrites, hsr, hkeep])

end

/-! The temperature (R210). -/

/-- HOT set or cleared in the register of the temperature, and the event of its change. -/
theorem State.setHot (s : State) (q : Quad) (x : Nat) (hx : x < 2) :
    let w := (s.cpSetField (mcAddr q 4) 0 1 x).mcEvent q 4
    w.cpField (mcAddr q 4) 8 8 = s.cpField (mcAddr q 4) 8 8 ∧ w.cpField (mcAddr q 4) 0 1 = x ∧ w.mcs = s.mcs ∧
      w.mem = s.mem := by
  obtain ⟨hevent, hreg⟩ := (s.cpSetField (mcAddr q 4) 0 1 x).mcEvent_records q 4
  obtain ⟨-, hmcs, hmem, -⟩ := ((s.cpSetField_records (mcAddr q 4) 0 1 x).trans hevent).apart
  have hfield := State.cpField_of_cpGet (hreg (mcAddr q 4) (mcAddr_ne q (by decide)))
  refine ⟨?_, ?_, hmcs, hmem⟩
  · rw [hfield, State.cpField_cpSetField_of_disjoint _ _ _ _ (by omega)]
  · rw [hfield, State.cpField_cpSetField_self _ _ _ (by omega)]
    exact Nat.mod_eq_of_lt hx

theorem tempReadout_results (q : Quad) (temp : BitVec 8) (s : State) (hseg : s.segJoined q = false) :
    Completes (.tempReadout q temp) s fun w => w.cpField (mcAddr q 4) 8 8 = temp.toNat ∧
      w.cpField (mcAddr q 4) 0 1 =
        (if 85 < temp.toInt then 1 else if temp.toInt ≤ 80 then 0 else s.cpField (mcAddr q 4) 0 1) ∧
      w.mcs = s.mcs ∧ w.mem = s.mem := by
  let t := s.cpSetField (mcAddr q 4) 8 8 temp.toNat
  have htemp : t.cpField (mcAddr q 4) 8 8 = temp.toNat := by
    rw [State.cpField_cpSetField_self _ _ _ (by omega)]
    exact Nat.mod_eq_of_lt temp.isLt
  have hhot : t.cpField (mcAddr q 4) 0 1 = s.cpField (mcAddr q 4) 0 1 :=
    State.cpField_cpSetField_of_disjoint _ _ _ _ (by omega)
  have hbit : s.cpField (mcAddr q 4) 0 1 < 2 := field_lt ..
  have hexec : exec (.tempReadout q temp) s =
      if !decide (t.cpField (mcAddr q 4) 0 1 = 1) && 85 < temp.toInt then
        .next ((t.cpSetField (mcAddr q 4) 0 1 1).mcEvent q 4)
      else if decide (t.cpField (mcAddr q 4) 0 1 = 1) && temp.toInt ≤ 80 then
        .next ((t.cpSetField (mcAddr q 4) 0 1 0).mcEvent q 4)
      else .next t := by
    show execTempReadout q temp s = _
    unfold execTempReadout
    rw [if_neg (by simp [hseg])]
  rw [hhot] at hexec
  have hset : ∀ x < 2, let w := (t.cpSetField (mcAddr q 4) 0 1 x).mcEvent q 4
      w.cpField (mcAddr q 4) 8 8 = temp.toNat ∧ w.cpField (mcAddr q 4) 0 1 = x ∧ w.mcs = s.mcs ∧ w.mem = s.mem := by
    intro x hx
    obtain ⟨hkeeps, hx, hmcs, hmem⟩ := t.setHot q x hx
    exact ⟨hkeeps.trans htemp, hx, hmcs.trans (State.cpSetField_mcs ..), hmem.trans (State.cpSetField_mem ..)⟩
  unfold Completes
  rw [hexec]
  split
  · rename_i hrise
    simp only [Bool.and_eq_true, decide_eq_true_eq] at hrise
    refine ⟨_, rfl, ?_⟩
    rw [if_pos hrise.2]
    exact hset 1 (by decide)
  · rename_i hrise
    split
    · rename_i hfall
      simp only [Bool.and_eq_true, decide_eq_true_eq] at hfall
      refine ⟨_, rfl, ?_⟩
      rw [if_neg (by omega), if_pos hfall.2]
      exact hset 0 (by decide)
    · rename_i hfall
      simp only [Bool.and_eq_true, Bool.not_eq_true', decide_eq_true_eq, decide_eq_false_iff_not] at hrise hfall
      refine ⟨_, rfl, htemp, hhot.trans ?_, State.cpSetField_mcs .., State.cpSetField_mem ..⟩
      split_ifs <;> omega

theorem refreshResults : RefreshResults := by
  refine ⟨?_, tempReadout_results⟩
  intro q pc s p limit
  refine ⟨fun hserve hawake hidle => ?_, fun hserve hawake hwait hdebt => ?_,
    fun hserve hawake hwait hdebt => ?_, fun hserve hidle hmay => ?_⟩
  · obtain ⟨m, hm⟩ := p.repaid_eq s.tb
    refine ⟨_, refreshDue_idle hserve hawake hidle, _, onlyPc_modPc .., ?_⟩
    rw [show ((s.mc q).pc pc.val).repaid s.tb = _ from hm]
    exact ⟨rfl, by cases m <;> rfl, rfl, rfl⟩
  · exact ⟨_, (refreshDue_waiting hserve hawake hwait).trans (if_pos hdebt), onlyPc_modPc ..⟩
  · exact ⟨_, (refreshDue_waiting hserve hawake hwait).trans (if_neg (Nat.not_lt.2 hdebt)), forcedRefresh_counts⟩
  · exact ⟨_, exec_selfRefreshEntry hserve hidle hmay, onlyPc_modPc ..⟩

/-! The scrubber (R222 to R224). -/

section
variable {s : State} {q : Quad} {pc : Fin 16}

theorem scrubEarn_quiet (h : s.quiet = true) :
    exec (.scrubEarn q pc) s = .next (s.modPc q pc.val fun p => { p with owed := 0 }) := if_pos h

/-- A pseudo-channel that earns a scrub read owes at most 64, and wakes at 64. -/
def Pc.earn (p : Pc) : Pc :=
  if min 64 (p.owed + 1) = 64 && p.selfRef then
    { p with owed := min 64 (p.owed + 1), selfRef := false, scrubWake := true }
  else { p with owed := min 64 (p.owed + 1) }

theorem Pc.earn_owes (p : Pc) :
    p.earn.owed = Nat.min 64 (p.owed + 1) ∧ p.earn.selfRef = (p.selfRef && decide (Nat.min 64 (p.owed + 1) ≠ 64)) := by
  have hmin : Nat.min 64 (p.owed + 1) = min 64 (p.owed + 1) := rfl
  unfold Pc.earn
  by_cases hfull : min 64 (p.owed + 1) = 64 <;> cases hsr : p.selfRef <;> simp [hmin, hfull]

theorem scrubEarn_active (hquiet : s.quiet = false) (hon : s.cpField (mcAddr q 0x080) 0 1 = 1) (h : Serving s q) :
    exec (.scrubEarn q pc) s = .next (s.modPc q pc.val Pc.earn) := by
  obtain ⟨hsr, hkeep⟩ := h
  show execScrubEarn q pc s = _
  unfold execScrubEarn
  dsimp only
  rw [if_neg (by simp [hquiet]), if_neg (by simp [hon, hsr, hkeep])]
  rfl

/-- A lap does not end while a pseudo-channel has lines to read. -/
theorem State.lapEnd_running {p : Nat} (hp : p < 16) (h : ((s.mc q).pc p).pos < pcLines) : s.lapEnd q = s := by
  unfold State.lapEnd
  refine if_neg fun hall => ?_
  have hlast := List.all_eq_true.1 hall p (List.mem_range.2 hp)
  simp only [decide_eq_true_eq] at hlast
  omega

theorem exec_scrubRead (hquiet : s.quiet = false) (hon : s.cpField (mcAddr q 0x080) 0 1 = 1) (h : Serving s q)
    (hidle : Idle ((s.mc q).pc pc.val)) (howed : 0 < ((s.mc q).pc pc.val).owed)
    (hdrain : ((s.mc q).pc pc.val).drain = false) (hawake : ((s.mc q).pc pc.val).selfRef = false)
    (hmaking : ((s.mc q).pc pc.val).making s.tb = false) (hpos : ((s.mc q).pc pc.val).pos + 1 < pcLines) :
    exec (.scrubRead q pc) s = .next (s.modPc q pc.val fun p => { p with
      issued := [{ line := scrubLine q pc.val ((s.mc q).pc pc.val).pos, prio := 0, scrub := true }],
      owed := p.owed - 1, pos := p.pos + 1 }) := by
  obtain ⟨hsr, hkeep⟩ := h
  obtain ⟨hreads, hissued, hwrites⟩ := hidle
  show execScrubRead q pc s = _
  unfold execScrubRead
  dsimp only
  rw [if_neg, State.lapEnd_running pc.isLt]
  · rw [State.pc_modPc_self]
    exact hpos
  · simp [hquiet, hon, hsr, hkeep, hreads, hissued, hwrites, hdrain, hawake, hmaking]
    omega

/-- A lap past its limit is marked, once. -/
theorem State.lapMarked (s : State) (q : Quad) :
    let w := ((s.cpSetField (mcAddr q 0x084) 31 1 1).mcEvent q 3).report (mcStation q) 0x03 (mcStation q).toNat
    w.cpField (mcAddr q 0x084) 31 1 = 1 ∧ w.mem = s.mem ∧ w.cores = s.cores := by
  let t := s.cpSetField (mcAddr q 0x084) 31 1 1
  obtain ⟨hevent, hreg⟩ := t.mcEvent_records q 3
  have hreport := (t.mcEvent q 3).report_records (mcStation q) 0x03 (mcStation q).toNat 0 none none false
  obtain ⟨-, -, hmem, -, hcores, -⟩ := (((s.cpSetField_records ..).trans hevent).trans hreport).apart
  refine ⟨?_, hmem, hcores⟩
  have hslot : mcAddr q 0x084 % 2 ^ 20 < 0xF8000 := by rw [mcAddr_mod q (by decide)]; decide
  rw [State.cpField_of_cpGet (State.report_cpGet _ _ _ _ _ _ _ (by decide) hslot),
    State.cpField_of_cpGet (hreg _ (mcAddr_ne q (by decide))), State.cpField_cpSetField_self _ _ _ (by decide)]
  rfl

theorem State.advance_apart (s : State) (t : Word) :
    (s.advance t).cp = s.cp ∧ (s.advance t).mem = s.mem ∧ (s.advance t).cores = s.cores ∧
      (s.advance t).mcs = s.mcs := by
  unfold State.advance
  split <;> exact ⟨rfl, rfl, rfl, rfl⟩

theorem exec_lapOverdue (q : Quad) (t : Word) (s : State) : exec (.lapOverdue q t) s =
    if s.cpField (mcAddr q 0x080) 16 8 * 3600000000000 < ((s.mc q).lapTime (s.advance t).tb).toNat &&
        s.cpField (mcAddr q 0x084) 31 1 = 0 then
      .next ((((s.advance t).cpSetField (mcAddr q 0x084) 31 1 1).mcEvent q 3).report (mcStation q) 0x03
        (mcStation q).toNat)
    else .next (s.advance t) := by
  obtain ⟨hcp, -, -, hmcs⟩ := s.advance_apart t
  rw [← State.mc_congr hmcs q, ← State.cpField_congr hcp, ← State.cpField_congr hcp]
  rfl

end

theorem scrubResults : ScrubResults := by
  constructor
  · intro q pc s p on
    refine ⟨fun hquiet => ?_, fun hquiet hon hserve => ?_,
      fun hquiet hon hserve hidle howed hdrain hawake hmaking hpos => ?_⟩
    · exact ⟨_, scrubEarn_quiet hquiet, onlyPc_modPc ..⟩
    · have honly := onlyPc_modPc s q pc.val Pc.earn
      refine ⟨_, scrubEarn_active hquiet hon hserve, ?_⟩
      dsimp only
      rw [State.pc_modPc_self]
      exact ⟨honly, p.earn_owes⟩
    · exact ⟨_, exec_scrubRead hquiet hon hserve hidle howed hdrain hawake hmaking hpos, onlyPc_modPc ..⟩
  · intro q t s hours lap
    refine ⟨fun hover => ?_, fun hunder => ?_⟩
    · obtain ⟨hcp, hmem, hcores, -⟩ := s.advance_apart t
      unfold Completes
      rw [exec_lapOverdue]
      split
      · obtain ⟨hmark, hmem', hcores'⟩ := (s.advance t).lapMarked q
        exact ⟨_, rfl, hmark, hmem'.trans hmem, hcores'.trans hcores⟩
      · rename_i hmarked
        have hbit : s.cpField (mcAddr q 0x084) 31 1 < 2 := field_lt ..
        simp only [Bool.and_eq_true, decide_eq_true_eq, not_and] at hmarked
        have hone := hmarked hover
        refine ⟨_, rfl, ?_, hmem, hcores⟩
        rw [State.cpField_congr hcp]
        omega
    · obtain ⟨hcp, hmem, -⟩ := s.advance_apart t
      refine ⟨_, (exec_lapOverdue q t s).trans (if_neg ?_), hcp, hmem, s.advance_tb t⟩
      simp only [Bool.and_eq_true, decide_eq_true_eq, not_and]
      intro hover
      exact absurd hunder (Nat.not_le.2 hover)

end Sys2Proof.Machine
end

