-- ==== Sys2Proof/Proofs/SelfRefreshAndKeep.lean ====
section
/-! SUPPORT. Commanded self-refresh and Keep (R213 to R215, Table HBM-4). -/

namespace Sys2Proof.Machine

open Sys2Proof.Claims

/-- Each of the first `n` entries of a map changed in turn. -/
theorem SMap.get_foldl_set {α : Type} [DecidableEq α] (d : α) (g : Nat → α → α) (m : SMap α) (n k : Nat) :
    SMap.get d ((List.range n).foldl (fun m p => SMap.set d m p (g p (SMap.get d m p))) m) k =
      if k < n then g k (SMap.get d m k) else SMap.get d m k := by
  induction n with
  | zero => rfl
  | succ n ih =>
    rw [List.range_succ, List.foldl_append, List.foldl_cons, List.foldl_nil, SMap.get_set]
    by_cases hk : k = n
    · subst hk
      rw [if_pos rfl, if_pos (Nat.lt_succ_self k), ih, if_neg (Nat.lt_irrefl k)]
    · rw [if_neg hk, ih]
      simp only [show k < n + 1 ↔ k < n by omega]

/-! The requests of an idle controller finish (R213, Table HBM-4 step E2). -/

/-- `t` is `s` but for the pseudo-channels of controller `q`, in which no request waits. -/
def State.OnlyIdlePcs (q : Quad) (s t : State) : Prop :=
  ∃ m, t = { s with mcs := m } ∧ (t.mc q).cmdSr = (s.mc q).cmdSr ∧ (t.mc q).keep = (s.mc q).keep ∧
    ∀ p, Idle ((t.mc q).pc p)

section
variable {s t : State} {q : Quad}

theorem State.OnlyIdlePcs.refl (h : ∀ p, Idle ((s.mc q).pc p)) : State.OnlyIdlePcs q s s := ⟨_, rfl, rfl, rfl, h⟩

theorem State.OnlyIdlePcs.modPc (h : State.OnlyIdlePcs q s t) (p : Nat) {f : Pc → Pc} (hf : ∀ x, Idle x → Idle (f x)) :
    State.OnlyIdlePcs q s (t.modPc q p f) := by
  obtain ⟨m, ht, hsr, hkeep, hidle⟩ := h
  refine ⟨(t.modPc q p f).mcs, by rw [ht]; rfl, ?_, ?_, fun j => ?_⟩
  · rw [State.mc_modPc, ← hsr]
  · rw [State.mc_modPc, ← hkeep]
  · rw [State.pc_modPc]
    split
    · exact hf _ (hidle p)
    · exact hidle j

theorem State.OnlyIdlePcs.foldl (h : State.OnlyIdlePcs q s t) {f : State → Nat → State}
    (hf : ∀ t p, State.OnlyIdlePcs q s t → State.OnlyIdlePcs q s (f t p)) (l : List Nat) :
    State.OnlyIdlePcs q s (l.foldl f t) := by
  induction l generalizing t with
  | nil => exact h
  | cons p l ih => exact ih (hf t p h)

theorem idle_emptied {x : Pc} (h : Idle x) :
    Idle { x with writes := [], drain := false, reads := x.reads.map fun r => { r with waits := false } } := by
  obtain ⟨hreads, hissued, -⟩ := h
  exact ⟨by rw [hreads]; rfl, hissued, rfl⟩

theorem foldl_idle {α β : Type} {f : α → β → α} {a : α} {l : List β} (h : ∀ x ∈ l, f a x = a) : l.foldl f a = a := by
  induction l with
  | nil => rfl
  | cons x l ih =>
    obtain ⟨hx, hl⟩ := List.forall_mem_cons.1 h
    rw [List.foldl_cons, hx, ih hl]

/-- A home whose MSC and writes on their way are all in the stack. -/
def Home.Written (h : Home) : Prop :=
  h.wout = [] ∧ ∀ e ∈ h.msc.ways, ∀ l, e.2 = some l → l.dirty = false

/-- Where nothing is to be written, a flush changes the home alone. -/
theorem State.flushMsc_idle (hidle : ∀ p, Idle ((s.mc q).pc p)) (hhome : (s.home q).Written) :
    ∃ f t, State.OnlyIdlePcs q s t ∧ s.flushMsc q = t.modHome q f := by
  obtain ⟨hwout, hclean⟩ := hhome
  unfold State.flushMsc
  extract_lets s1 s2 s3
  have h1 : State.OnlyIdlePcs q s s1 := by
    refine (State.OnlyIdlePcs.refl hidle).foldl (fun t p ht => ?_) _
    obtain ⟨-, -, -, -, hempty⟩ := id ht
    obtain ⟨-, -, hwrites⟩ := hempty p
    dsimp only
    rw [hwrites]
    exact ht.modPc p fun _ => idle_emptied
  have hhome1 : s1.home q = s.home q := by
    obtain ⟨_, h, -⟩ := h1
    exact State.home_congr (by rw [h]) q
  clear_value s1
  have h2 : s2 = s1 := by
    unfold s2
    rw [hhome1, hwout]
    rfl
  have h3 : s3 = s1 := by
    unfold s3
    rw [h2, hhome1]
    refine foldl_idle fun e he => ?_
    cases hline : e.2 with
    | none => rfl
    | some l => exact if_neg (by rw [hclean e he l hline]; decide)
  rw [h3]
  exact ⟨_, s1, h1, rfl⟩

theorem idle_finished {x : Pc} (h : Idle x) :
    Idle { x with
      reads := [], issued := [], debt := 0, makeUp := none, rows := [], selfRef := false, scrubWake := false } :=
  ⟨rfl, rfl, h.2.2⟩

/-- Where no request waits, the controller's finish leaves memory and registers as they were. -/
theorem State.mcFinish_idle (hidle : ∀ p, Idle ((s.mc q).pc p)) (hhome : (s.home q).Written) :
    ((s.mcFinish q).mc q).cmdSr = (s.mc q).cmdSr ∧ ((s.mcFinish q).mc q).keep = (s.mc q).keep ∧
      (s.mcFinish q).mem = s.mem ∧ (s.mcFinish q).poisLine = s.poisLine ∧ (s.mcFinish q).net = s.net ∧
      (s.mcFinish q).cores = s.cores ∧ (s.mcFinish q).cp = s.cp := by
  obtain ⟨f, t, ⟨m, ht, hsr, hkeep, hempty⟩, hflush⟩ := State.flushMsc_idle hidle hhome
  have hmcs : (t.modHome q f).mcs = t.mcs := State.modHome_mcs ..
  have hstart : State.OnlyIdlePcs q (t.modHome q f) (t.modHome q f) :=
    .refl fun p => by rw [State.mc_congr hmcs]; exact hempty p
  have hfinish : State.OnlyIdlePcs q (t.modHome q f) (s.mcFinish q) := by
    unfold State.mcFinish
    rw [hflush]
    refine hstart.foldl (fun u p hu => ?_) _
    obtain ⟨-, -, -, -, hempty⟩ := id hu
    obtain ⟨hreads, hissued, -⟩ := hempty p
    dsimp only
    rw [hissued, hreads]
    exact hu.modPc p fun _ => idle_finished
  obtain ⟨m', hw, hsr', hkeep', -⟩ := hfinish
  rw [State.mc_congr hmcs] at hsr' hkeep'
  refine ⟨hsr'.trans hsr, hkeep'.trans hkeep, ?_⟩
  rw [hw, ht]
  exact ⟨rfl, rfl, rfl, rfl, rfl⟩

theorem Mc.pause_flags (x : Mc) (t : Word) : (x.pause t).cmdSr = x.cmdSr ∧ (x.pause t).keep = x.keep := by
  unfold Mc.pause
  split <;> exact ⟨rfl, rfl⟩

/-- A stack enters commanded self-refresh (R213). -/
theorem stackSelfRefresh_enters (h : Serving s q) (hidle : ∀ p, Idle ((s.mc q).pc p)) (hhome : (s.home q).Written) :
    Completes (.stackSelfRefresh q) s fun w => (w.mc q).cmdSr = true ∧ (w.mc q).keep = false ∧ w.mem = s.mem ∧
      w.poisLine = s.poisLine ∧ w.net = s.net ∧ w.cores = s.cores := by
  obtain ⟨hsr, hkeep⟩ := h
  obtain ⟨-, hkeeps, hmem, hpois, hnet, hcores, -⟩ := State.mcFinish_idle hidle hhome
  have hsleep : s.stackSleep q = (s.mcFinish q).modMc q fun x => { x.pause s.tb with cmdSr := true } :=
    if_neg (by simp [hsr, hkeep])
  obtain ⟨-, hpause⟩ := ((s.mcFinish q).mc q).pause_flags s.tb
  refine ⟨_, congrArg Host.Outcome.next hsleep, ?_, ?_, (State.modMc_mem ..).trans hmem,
    (State.modMc_poisLine ..).trans hpois, (State.modMc_net ..).trans hnet, (State.modMc_cores ..).trans hcores⟩
  · rw [State.mc_modMc]
  · rw [State.mc_modMc]
    dsimp only
    rw [hpause, hkeeps, hkeep]

/-- The banks of a pseudo-channel that its MC_KEEP_MASK retains (Table HBM-4). -/
def State.retained (s : State) (q : Quad) (p : Nat) : BitVec 16 :=
  (s.cpGet (mcAddr q (0x040 + 4 * p))).extractLsb' 0 16

/-- A controller enters Keep with the masks of its registers (R214). -/
theorem keepEntry_enters (h : Serving s q) (hidle : ∀ p, Idle ((s.mc q).pc p)) (hhome : (s.home q).Written) :
    Completes (.keepEntry q) s fun w => (w.mc q).keep = true ∧ (w.mc q).cmdSr = false ∧
      (∀ p < 16, SMap.get 0 (w.mc q).keepMask p = (s.cpGet (mcAddr q (0x040 + 4 * p))).extractLsb' 0 16) ∧
      w.mem = s.mem := by
  obtain ⟨hsr, hkeep⟩ := h
  obtain ⟨hsleeps, -, hmem, -, -, -, hcp⟩ := State.mcFinish_idle hidle hhome
  let u := s.mcFinish q
  have hkeeps : s.keepEnter q = u.modMc q fun x => { x.pause u.tb with
      keep := true
      keepMask := (List.range 16).foldl (fun m p => SMap.set 0 m p (u.retained q p)) [] } := if_neg (by simp [hkeep])
  obtain ⟨hpause, -⟩ := (u.mc q).pause_flags u.tb
  refine ⟨_, congrArg Host.Outcome.next hkeeps, ?_, ?_, fun p hp => ?_, (State.modMc_mem ..).trans hmem⟩
  · rw [State.mc_modMc]
  · rw [State.mc_modMc]
    dsimp only
    rw [hpause, hsleeps, hsr]
  · rw [State.mc_modMc]
    have hget := SMap.get_foldl_set 0 (fun p _ => u.retained q p) [] 16 p
    rw [if_pos hp] at hget
    dsimp only
    rw [hget, State.retained, State.cpGet_congr hcp]

/-- The command is withdrawn. -/
theorem stackSelfRefreshExit_leaves (h : (s.mc q).cmdSr = true) : Completes (.stackSelfRefreshExit q) s fun w =>
    (w.mc q).cmdSr = false ∧ w.mem = s.mem ∧ w.cores = s.cores := by
  have hwake : s.stackWake q =
      s.modMc q fun x => { (if x.keep then x else x.unpause s.tb) with cmdSr := false } := if_pos h
  refine ⟨_, congrArg Host.Outcome.next hwake, ?_, State.modMc_mem .., State.modMc_cores ..⟩
  rw [State.mc_modMc]

/-! Leaving Keep, and the zero fill (R215, Table HBM-4). -/

/-- A byte whose bank was retained, or that is not the controller's. -/
def Mc.Kept (x : Mc) (q : Quad) (a : Nat) : Prop :=
  targetOf a ≠ .hbm ∨ quadOf a ≠ q ∨ (SMap.get 0 x.keepMask (pcOf (a / 64))).getLsbD (bankOfLine (a / 64)) = true

theorem Mc.lost_eq_false_iff (x : Mc) (q : Quad) (a : Nat) : x.lost q a = false ↔ x.Kept q a := by
  unfold Mc.lost Mc.Kept
  cases SMap.get 0 x.keepMask (pcOf (a / 64)) |>.getLsbD (bankOfLine (a / 64)) <;> simp [imp_iff_not_or]

/-- The banks that a zero fill covers, by pseudo-channel. -/
def Mc.toFill (x : Mc) : SMap (BitVec 16) :=
  (List.range 16).foldl (fun m p => SMap.set (0 : BitVec 16) m p (~~~(SMap.get 0 x.keepMask p))) []

theorem Mc.toFill_nonempty {x : Mc} (h : ∃ p < 16, SMap.get 0 x.keepMask p ≠ 0xFFFF) : x.toFill.isEmpty = false := by
  obtain ⟨p, hp, hmask⟩ := h
  have hget : SMap.get 0 x.toFill p = ~~~(SMap.get 0 x.keepMask p) :=
    (SMap.get_foldl_set (0 : BitVec 16) (fun p _ => ~~~(SMap.get 0 x.keepMask p)) [] 16 p).trans (if_pos hp)
  rw [List.isEmpty_eq_false_iff]
  intro hempty
  rw [hempty, SMap.get_nil] at hget
  exact hmask ((BitVec.not_eq_comm.1 hget.symm).trans (by decide))

/-- The state with the bytes and poison marks of the banks lost read as they do after. -/
def State.forgetLost (s : State) (q : Quad) : State :=
  { s with mem := s.mem.filter fun e => !(s.mc q).lost q e.1
           poisLine := s.poisLine.filter fun e => !(s.mc q).lost q (64 * e.1) }

/-- KEEP_FILL sets where a bank is to be filled. -/
def State.fillMarked (s : State) (q : Quad) : State :=
  if (s.mc q).toFill.isEmpty then s.forgetLost q else (s.forgetLost q).cpSetField (mcAddr q 4) 1 1 1

theorem State.keepLeave_eq (h : (s.mc q).keep = true) : s.keepLeave q =
    (s.fillMarked q).modMc q fun x => { (if x.cmdSr then x else x.unpause (s.fillMarked q).tb) with
      keep := false, keepMask := [], filling := (s.mc q).toFill } := if_neg (by simp [h])

theorem keepExit_leaves (h : (s.mc q).keep = true) : Completes (.keepExit q) s fun w =>
    (w.mc q).keep = false ∧ (∀ e ∈ w.mem, (s.mc q).Kept q e.1 ∧ e ∈ s.mem) ∧
      (∀ e ∈ s.mem, (s.mc q).Kept q e.1 → e ∈ w.mem) ∧
      ((∃ p < 16, SMap.get 0 (s.mc q).keepMask p ≠ 0xFFFF) → w.cpField (mcAddr q 4) 1 1 = 1) := by
  have hmem : (s.keepLeave q).mem = s.mem.filter fun e => !(s.mc q).lost q e.1 := by
    rw [State.keepLeave_eq h, State.modMc_mem, State.fillMarked]
    split <;> rfl
  refine ⟨s.keepLeave q, rfl, ?_, fun e he => ?_, fun e he hkept => ?_, fun hlost => ?_⟩
  · rw [State.keepLeave_eq h, State.mc_modMc]
  · rw [hmem, List.mem_filter, Bool.not_eq_true', Mc.lost_eq_false_iff] at he
    exact ⟨he.2, he.1⟩
  · rw [hmem, List.mem_filter, Bool.not_eq_true', Mc.lost_eq_false_iff]
    exact ⟨he, hkept⟩
  · rw [State.keepLeave_eq h, State.cpField_congr (State.modMc_cp ..), State.fillMarked, Mc.toFill_nonempty hlost]
    exact State.cpField_cpSetField_self _ _ _ (by decide)

/-- The zero fill of a bank releases it and those below on every pseudo-channel. -/
theorem keepFillDone_bank (s : State) (q : Quad) (b : Fin 16) : Completes (.keepFillDone ⟨q, some b⟩) s fun w =>
    w.mem = s.mem ∧ w.cores = s.cores ∧ w.cp = s.cp ∧ ∀ p < 16, ∀ i < 16,
      (SMap.get 0 (w.mc q).filling p).getLsbD i =
        (decide (b.val < i) && (SMap.get 0 (s.mc q).filling p).getLsbD i) := by
  refine ⟨s.bankFilled q b, rfl, State.modMc_mem .., State.modMc_cores .., State.modMc_cp .., fun p hp i hi => ?_⟩
  have hget := SMap.get_foldl_set 0 (fun _ m => m &&& ~~~(BitVec.ofNat 16 (2 ^ (b.val + 1) - 1))) (s.mc q).filling 16 p
  rw [if_pos hp] at hget
  unfold State.bankFilled
  rw [State.mc_modMc]
  dsimp only
  rw [hget]
  rw [BitVec.getLsbD_and, BitVec.getLsbD_not, BitVec.getLsbD_ofNat, Nat.testBit_two_pow_sub_one, Bool.and_comm]
  congr 1
  by_cases hb : b.val < i
  · simp [hi, hb, Nat.not_lt.2 (Nat.succ_le_of_lt hb)]
  · simp [hi, hb, Nat.lt_succ_of_le (Nat.not_lt.1 hb)]

/-- The zero fill of the stack ends. -/
theorem keepFillDone_stack (h : s.cpField (mcAddr q 4) 1 1 = 1) : Completes (.keepFillDone ⟨q, none⟩) s fun w =>
    w.cpField (mcAddr q 4) 1 1 = 0 ∧ (w.mc q).filling = [] ∧ w.mem = s.mem ∧ w.cores = s.cores := by
  let t := (s.cpSetField (mcAddr q 4) 1 1 0).modMc q fun x => { x with filling := [] }
  obtain ⟨hsame, hreg⟩ := t.mcEvent_records q 6
  obtain ⟨-, hmcs, hmem, -, hcores, -⟩ := hsame.apart
  have hfilled : s.keepFilled q = t.mcEvent q 6 := if_neg (by rw [h]; decide)
  refine ⟨_, congrArg Host.Outcome.next hfilled, ?_, ?_, hmem.trans ?_, hcores.trans ?_⟩
  · rw [State.cpField_of_cpGet (hreg _ (mcAddr_ne q (by decide))), State.cpField_congr (State.modMc_cp ..),
      State.cpField_cpSetField_self _ _ _ (by decide)]
    rfl
  · rw [State.mc_congr hmcs, State.mc_modMc]
  · exact (State.modMc_mem ..).trans (State.cpSetField_mem ..)
  · exact (State.modMc_cores ..).trans (State.cpSetField_cores ..)

end

theorem selfRefreshAndKeep : SelfRefreshAndKeep := fun q s =>
  ⟨fun hserve hidle hwout hclean => ⟨stackSelfRefresh_enters hserve hidle ⟨hwout, hclean⟩,
    keepEntry_enters hserve hidle ⟨hwout, hclean⟩⟩,
  stackSelfRefreshExit_leaves, keepExit_leaves, keepFillDone_bank s q, keepFillDone_stack⟩

/-- Settles O29: each event of refresh, scrubbing, self-refresh and Keep is one change of its pseudo-channel or
controller. -/
theorem refreshScrubAndKeepResults : Obligations.RefreshScrubAndKeepResults :=
  ⟨refreshResults, scrubResults, selfRefreshAndKeep⟩

end Sys2Proof.Machine
end

