-- ==== Sys2Proof/Proofs/Fills.lean ====
section
/-! SUPPORT. A fill that reaches a RdOnce at its home (R156, Table COH-7), after whatever records the controller made. -/

namespace Sys2Proof.Machine

open Sys2Proof.Claims

/-! Registers that a home reads while it completes a fill. -/

section
variable {s t : State} (h : ∀ a, ApartFromErrors a → t.cpGet a = s.cpGet a)
include h

theorem State.accepts_apart (q : Quad) : t.accepts q = s.accepts q :=
  State.accepts_congr (h _ (.inl (by rw [cpAddr_mod _ (by decide)]; decide)))

/-- The registers of a station's 32 regions are read as before (Table WLD-4). -/
theorem State.cpGet_region (st : Station) {off : Nat} (hlo : 0x1000 ≤ off) (hhi : off < 0x1200) :
    t.cpGet (cpAddr st off) = s.cpGet (cpAddr st off) :=
  h _ (.inr (by rw [cpAddr_mod _ (by omega)]; omega))

theorem State.regionAttr_apart (st : Station) (a i : Nat) : t.regionAttr st 32 a i = s.regionAttr st 32 a i := by
  have hat : t.regionAt st 32 a = s.regionAt st 32 a := by
    refine List.find?_congr fun r hr => ?_
    have hr := List.mem_range.1 hr
    unfold State.regionMatches
    dsimp only
    rw [cpAddr_add, cpAddr_add, State.cpField_of_cpGet (State.cpGet_region h st (by omega) (by omega)),
      State.cpGet_region h st (by omega) (by omega), State.cpGet_region h st (by omega) (by omega)]
  unfold State.regionAttr
  rw [hat]
  cases hfound : s.regionAt st 32 a with
  | none => rfl
  | some r =>
    have hr : r < 32 := List.mem_range.1 (List.mem_of_find?_eq_some hfound)
    dsimp only
    rw [State.cpField_of_cpGet (State.cpGet_region h st (by omega) (by omega))]

theorem State.mirrored_apart (line : Nat) : t.mirrored line = s.mirrored line := by
  have hctl : t.cpGet (mirAddr 0) = s.cpGet (mirAddr 0) :=
    h _ (.inl (by rw [mirAddr, cpAddr_mod _ (by decide)]; decide))
  unfold State.mirrored
  rw [State.regionAttr_apart h, State.cpField_of_cpGet hctl]

/-- A home awaits a fill as before. -/
theorem awaitsFill_apart (hhomes : t.homes = s.homes) {q : Quad} {line : Nat} {e : PEntry}
    (hawaits : AwaitsFill s q line e) : AwaitsFill t q line e := by
  unfold AwaitsFill at hawaits ⊢
  rwa [State.home_congr hhomes, State.mirrored_apart h, State.accepts_apart h]

end

theorem State.mirrored_congr {s t : State} (h : t.cp = s.cp) (line : Nat) : t.mirrored line = s.mirrored line :=
  State.mirrored_apart (fun a _ => State.cpGet_congr h a) line

/-! The completion. -/

/-- What a completion of a home's entry leaves as it was. -/
def State.SameButCompletion (q : Quad) (s w : State) : Prop :=
  (w.home q).table = (s.home q).table ∧ w.cp = s.cp ∧ w.mem = s.mem ∧ w.mcs = s.mcs

/-- A completion goes out to the requester. -/
theorem State.complete_sends (s : State) {q : Quad} {m : Msg} {k : MsgKind} (hdest : m.dest = homeStation q)
    (hk : holdKind k = false) (data : Option Line) (low : Nat) (dies : BitVec 12) :
    Answered m k data low s (s.complete m k data low dies) ∧
      s.SameButCompletion q (s.complete m k data low dies) := by
  let u := if data.isSome then s.noteMoved (quadOfHome m.dest) m.tclass else s
  have hu : s.SameButCompletion q u ∧ u.net = s.net := by
    unfold u
    split
    · rw [hdest, quadOfHome_homeStation]
      exact ⟨⟨by rw [State.noteMoved, State.home_modHome], rfl, rfl, rfl⟩, rfl⟩
    · exact ⟨⟨rfl, rfl, rfl, rfl⟩, rfl⟩
  obtain ⟨⟨htable, hcp, hmem, hmcs⟩, hnet⟩ := hu
  have hw : s.complete m k data low dies = u.put { replyTo m k with
      addr := BitVec.ofNat 48 (m.line * 64 + low), data := data, tclass := m.tclass, dies := dies } :=
    State.send_answer _ hdest hk
  rw [hw]
  exact ⟨answered_put _ _ hnet rfl, by rw [State.home_congr (State.put_homes ..), htable],
    (State.put_cp ..).trans hcp, (State.put_mem ..).trans hmem, (State.put_mcs ..).trans hmcs⟩

section
variable {s : State} {q : Quad} {line : Nat} {e : PEntry}

theorem line_of_awaitsFill (h : AwaitsFill s q line e) : e.msg.line = line := by
  have hfound := List.find?_some h.1
  simp only [Bool.and_eq_true, beq_iff_eq] at hfound
  exact hfound.1

/-- The state once the MSC has taken a fill, unless MSC_CTL forbids it for the class of its request (R156). -/
def State.fillCached (s : State) (q : Quad) (e : PEntry) (l : MscLine) : State :=
  if bit (s.cpGet (cpAddr (homeStation q) 0x800)) e.msg.tclass.toNat then s else s.mscPut q l

theorem State.fillCached_leaves (l : MscLine) :
    s.SameButCompletion q (s.fillCached q e l) ∧ (s.fillCached q e l).net = s.net := by
  unfold State.fillCached
  split
  · exact ⟨⟨rfl, rfl, rfl, rfl⟩, rfl⟩
  · unfold State.mscPut
    exact ⟨⟨by rw [State.home_modHome], State.modHome_cp .., State.modHome_mem .., State.modHome_mcs ..⟩,
      State.modHome_net ..⟩

/-- What a RdOnce is answered: the line, or that it is poisoned (Table COH-7). -/
def fillAnswer (x : Line) (pois : Bool) : MsgKind × Option Line := if pois then (.homePoison, none) else (.readData, some x)

theorem State.finish_fill (hkind : e.msg.kind = .rdOnce) (hafter : e.after = []) (hmir : s.mirrored e.msg.line = false)
    (x : Line) (pois : Bool) : s.finish q e x pois =
      (s.complete e.msg (fillAnswer x pois).1 (fillAnswer x pois).2).dropEntry q e.idx := by
  cases pois with
  | false => exact State.finish_rdOnce hkind hafter hmir x
  | true =>
    unfold State.finish
    simp [hkind, hafter, State.applyAfter, State.mirBlocked, hmir, fillAnswer]

theorem State.dropEntry_leaves (i : Nat) :
    (s.dropEntry q i).cp = s.cp ∧ (s.dropEntry q i).mem = s.mem ∧ (s.dropEntry q i).mcs = s.mcs ∧
      (s.dropEntry q i).net = s.net :=
  ⟨State.modHome_cp .., State.modHome_mem .., State.modHome_mcs .., State.modHome_net ..⟩

/-- A fill answers the RdOnce that waits for it, and the entry ends. -/
theorem fillArrived_answers (h : AwaitsFill s q line e) (x : Line) (pois : Bool) :
    let w := s.fillArrived q line x pois
    Answered e.msg (fillAnswer x pois).1 (fillAnswer x pois).2 0 s w ∧
      (w.home q).table = (s.home q).table.filter (fun y => y.idx ≠ e.idx) ∧ w.cp = s.cp ∧ w.mem = s.mem ∧
      w.mcs = s.mcs := by
  have hline := line_of_awaitsFill h
  obtain ⟨hfind, hkind, hdest, hafter, hidle, hmir, hacc⟩ := h
  let u := s.fillCached q e ⟨line, false, x, pois⟩
  let v := u.complete e.msg (fillAnswer x pois).1 (fillAnswer x pois).2
  let z := v.dropEntry q e.idx
  obtain ⟨⟨htable, hcp, hmem, hmcs⟩, hnet⟩ : s.SameButCompletion q u ∧ u.net = s.net := State.fillCached_leaves _
  have hhold : holdKind (fillAnswer x pois).1 = false := by cases pois <;> rfl
  obtain ⟨⟨a, hsent, hans⟩, htable', hcp', hmem', hmcs'⟩ :=
    u.complete_sends hdest hhold (fillAnswer x pois).2 0 0
  have hends : (z.home q).table = (s.home q).table.filter fun y => y.idx ≠ e.idx := by
    rw [State.dropEntry_table, htable', htable]
  have hidle' : ∀ y ∈ (z.home q).table, y.phase ≠ .queued := fun y hy =>
    hidle y (List.mem_of_mem_filter (hends ▸ hy))
  obtain ⟨hcpz, hmemz, hmcsz, hnetz⟩ : z.cp = v.cp ∧ z.mem = v.mem ∧ z.mcs = v.mcs ∧ z.net = v.net :=
    State.dropEntry_leaves _
  have hmir' : u.mirrored e.msg.line = false := by rw [State.mirrored_congr hcp, hline, hmir]
  have hw : s.fillArrived q line x pois = z := by
    unfold State.fillArrived
    rw [hfind]
    dsimp only
    rw [if_neg (by simp [hacc])]
    show ((u.finish q e x pois).settleLine q line).settleHome q = z
    rw [State.finish_fill hkind hafter hmir' x pois, State.settleLine_idle hidle', State.settleHome_idle hidle']
  rw [hw]
  exact ⟨⟨a, hnetz.trans (hsent.trans (congrArg (· ++ [a]) hnet)), hans⟩, hends, hcpz.trans (hcp'.trans hcp),
    hmemz.trans (hmem'.trans hmem), hmcsz.trans (hmcs'.trans hmcs)⟩

/-- A fill with clean data answers the RdOnce with it. -/
theorem fillArrived_readOnce (h : AwaitsFill s q line e) (x : Line) :
    FillsReadOnce q line e x s (s.fillArrived q line x false) := by
  obtain ⟨⟨a, hsent, hkind, hdest, -, htxid, -, hdata, haddr⟩, hends, -, hmem, -⟩ := fillArrived_answers h x false
  rw [line_of_awaitsFill h] at haddr
  exact ⟨⟨a, hsent, hkind, hdest, htxid, hdata, haddr⟩, hends, hmem⟩

/-- Where no entry waits for a line, its fill changes nothing. -/
theorem fillArrived_unawaited (h : ∀ e ∈ (s.home q).table, e.phase = .fill → e.msg.line ≠ line) (x : Line) (pois : Bool) :
    s.fillArrived q line x pois = s := by
  have hnone : (s.home q).table.find? (fun e => e.msg.line == line && e.phase == .fill) = none := by
    rw [List.find?_eq_none]
    intro e he hboth
    simp only [Bool.and_eq_true, beq_iff_eq] at hboth
    exact h e he hboth.2 hboth.1
  unfold State.fillArrived
  rw [hnone]

end

end Sys2Proof.Machine
end

