-- ==== Sys2Proof/Proofs/MemoryQueues.lean ====
section
/-! SUPPORT. Fill requests and writes at a controller's queues (R202 to R211, R221, R299). -/

namespace Sys2Proof.Machine

open Sys2Proof.Claims

/-! Fill requests. -/

/-- Whether the fill of an entry waits at its home: for the stack, for a write on its way, for a credit of the read
queue, for its home, or behind a fill of higher priority. -/
def State.fillWaits (s : State) (q : Quad) (line : Nat) (e : PEntry) : Bool :=
  (s.mc q).holds line || quadOf (64 * line) ≠ q || (s.home q).wout.any (fun w => w.line == line)
    || 64 ≤ ((s.mc q).pc (pcOf line)).reads.length + ((s.mc q).pc (pcOf line)).issued.length || !s.accepts q
    || s.fillBehind q line (s.effPrio q e.msg)

section
variable {s : State} {q : Quad} {line : Nat} {e : PEntry}

theorem State.fillWaits_eq_false_iff : s.fillWaits q line e = false ↔
    s.accepts q = true ∧ s.fillBehind q line (s.effPrio q e.msg) = false ∧ (s.mc q).holds line = false ∧
      quadOf (64 * line) = q ∧ (∀ w ∈ (s.home q).wout, w.line ≠ line) ∧
      ((s.mc q).pc (pcOf line)).reads.length + ((s.mc q).pc (pcOf line)).issued.length < 64 := by
  unfold State.fillWaits
  simp only [Bool.or_eq_false_iff, decide_eq_false_iff_not, List.any_eq_false, beq_iff_eq, Bool.not_eq_false',
    not_not, Nat.not_le]
  tauto

theorem State.mcFill_waits (hentry : s.fillEntry q line = some e) (h : s.fillWaits q line e = true) :
    s.mcFill q line = none := by
  unfold State.mcFill
  rw [hentry]
  exact if_pos h

/-- A fill joins the read queue where no write of its line is queued. -/
theorem State.mcFill_queues (hentry : s.fillEntry q line = some e) (h : s.fillWaits q line e = false)
    (hnone : ((s.mc q).pc (pcOf line)).writes.reverse.find? (fun w => w.line == line) = none) :
    s.mcFill q line = some (s.modPc q (pcOf line) fun p => { p.interrupt s.tb with
      reads := p.reads ++ [{ line := line, prio := s.effPrio q e.msg }], selfRef := false }) := by
  have hgo : ¬ s.fillWaits q line e = true := by rw [h]; decide
  unfold State.mcFill
  rw [hentry, Option.bind_some]
  refine (if_neg hgo).trans ?_
  rw [hnone]

/-- Under DRAIN a fill waits on the queued write of its line (R208). -/
theorem State.mcFill_drains {v : McWrite} (hentry : s.fillEntry q line = some e) (h : s.fillWaits q line e = false)
    (hsome : ((s.mc q).pc (pcOf line)).writes.reverse.find? (fun w => w.line == line) = some v)
    (hdrain : s.cpField (mcAddr q 0) 0 1 = 1) :
    s.mcFill q line = some (s.modPc q (pcOf line) fun p => { p.interrupt s.tb with
      reads := p.reads ++ [{ line := line, prio := s.effPrio q e.msg, waits := true }]
      writes := p.writes.map fun w => if w == v then { w with dep := true } else w
      selfRef := false }) := by
  have hgo : ¬ s.fillWaits q line e = true := by rw [h]; decide
  unfold State.mcFill
  rw [hentry, Option.bind_some]
  refine (if_neg hgo).trans ?_
  rw [hsome]
  exact if_pos hdrain

/-- Under FORWARD a fill is served from the queued write of its line, and counted (R207). -/
theorem State.mcFill_forwards {v : McWrite} (hentry : s.fillEntry q line = some e) (h : s.fillWaits q line e = false)
    (hsome : ((s.mc q).pc (pcOf line)).writes.reverse.find? (fun w => w.line == line) = some v)
    (hforward : s.cpField (mcAddr q 0) 0 1 = 0) (hpois : v.pois = false) :
    s.mcFill q line = some ((s.countAt (mcAddr q 0x0C0) 0 32 1).fillArrived q line v.data v.pois) := by
  have hgo : ¬ s.fillWaits q line e = true := by rw [h]; decide
  unfold State.mcFill
  rw [hentry, Option.bind_some]
  refine (if_neg hgo).trans ?_
  rw [hsome]
  refine (if_neg (by rw [hforward]; decide)).trans ?_
  dsimp only
  rw [if_neg (by rw [hpois]; decide)]

/-- A count of a controller is no register that its home reads. -/
theorem State.countAt_apart (s : State) (q : Quad) {off : Nat} (lo w n : Nat) (hlo : 0x0A0 ≤ off) (hhi : off < 0x100)
    {a : Nat} (ha : ApartFromErrors a) : (s.countAt (mcAddr q off) lo w n).cpGet a = s.cpGet a :=
  State.cpGet_cpSetField_of_ne _ _ _ _ (ha.ne q hlo hhi)

/-- A fill served from a queued write answers the RdOnce with that write's data. -/
theorem forwarded_readOnce (h : AwaitsFill s q line e) (x : Line) :
    FillsReadOnce q line e x s ((s.countAt (mcAddr q 0x0C0) 0 32 1).fillArrived q line x false) := by
  let t := s.countAt (mcAddr q 0x0C0) 0 32 1
  have hawaits : AwaitsFill t q line e :=
    awaitsFill_apart (fun _ ha => s.countAt_apart q _ _ _ (by decide) (by decide) ha) (State.cpSetField_homes ..) h
  obtain ⟨⟨a, hsent, hans⟩, hends, hmem⟩ := fillArrived_readOnce hawaits x
  refine ⟨⟨a, hsent.trans (congrArg (· ++ [a]) (State.cpSetField_net ..)), hans⟩, hends.trans ?_,
    hmem.trans (State.cpSetField_mem ..)⟩
  rw [show t.home q = s.home q from State.home_congr (State.cpSetField_homes ..) q]

end

theorem exec_mcFillRequest {s : State} {q : Quad} {l : BitVec 42} {e : PEntry} {pr : BitVec 2}
    (hentry : s.fillEntry q l.toNat = some e) (hprio : s.effPrio q e.msg = pr) :
    exec (.mcFillRequest q l pr) s = .next ((s.mcFill q l.toNat).getD s) :=
  if_pos (by simp [hentry, hprio])

theorem exec_mcFillRequest_other {s : State} {q : Quad} {l : BitVec 42} {pr : BitVec 2}
    (h : ∀ e, s.fillEntry q l.toNat = some e → s.effPrio q e.msg ≠ pr) : exec (.mcFillRequest q l pr) s = .next s :=
  if_neg (by simpa [Option.any_eq_true] using h)

theorem fillRequestResults : FillRequestResults := by
  intro q l pr s line p prio ready
  have hgo : ∀ {e}, ready e → s.fillWaits q line e = false := fun ⟨_, _, h⟩ => State.fillWaits_eq_false_iff.2 h
  have hexec : ∀ {e w}, ready e → s.mcFill q line = some w → exec (.mcFillRequest q l pr) s = .next w := by
    intro e w ⟨hentry, hprio, _⟩ hw
    rw [exec_mcFillRequest hentry hprio, hw, Option.getD_some]
  refine ⟨fun e he hnone => ?_, fun e v he hsome => ⟨fun hdrain => ?_, fun hforward hpois hawaits => ?_⟩, fun hno => ?_⟩
  · refine ⟨_, hexec he (State.mcFill_queues he.1 (hgo he) ?_), _, onlyPc_modPc .., ?_⟩
    · rw [List.find?_eq_none]
      simpa using hnone
    · rw [Pc.interrupt_eq]
      exact ⟨rfl, rfl, rfl, rfl, rfl, ⟨rfl, rfl⟩, State.modPc_homes ..⟩
  · refine ⟨_, hexec he (State.mcFill_drains he.1 (hgo he) hsome hdrain), ?_, State.modPc_mem .., State.modPc_net ..,
      State.modPc_homes ..⟩
    rw [State.pc_modPc_self]
  · refine ⟨_, hexec he (State.mcFill_forwards he.1 (hgo he) hsome hforward hpois), ?_⟩
    rw [hpois]
    exact forwarded_readOnce hawaits v.data
  · by_cases hentry : ∃ e, s.fillEntry q line = some e ∧ prio e = pr
    · obtain ⟨e, hentry, hprio⟩ := hentry
      have hwaits : s.fillWaits q line e = true := by
        rw [← Bool.not_eq_false]
        exact fun hgo => hno ⟨e, hentry, hprio, State.fillWaits_eq_false_iff.1 hgo⟩
      rw [exec_mcFillRequest hentry hprio, State.mcFill_waits hentry hwaits, Option.getD_none]
    · exact exec_mcFillRequest_other fun e he hprio => hentry ⟨e, he, hprio⟩

/-! Writes. -/

/-- A write on its way is taken out as it reaches its controller. -/
def State.writeCame (s : State) (q : Quad) (line : Nat) : State :=
  s.modHome q fun h =>
    match h.wout.find? fun w => w.line == line with
    | some w => { h with wout := h.wout.erase w }
    | none => h

theorem State.writeCame_apart (s : State) (q : Quad) (line : Nat) :
    (s.writeCame q line).mcs = s.mcs ∧ (s.writeCame q line).cores = s.cores ∧ (s.writeCame q line).mem = s.mem ∧
      (s.writeCame q line).net = s.net ∧ (s.writeCame q line).cp = s.cp :=
  ⟨State.modHome_mcs .., State.modHome_cores .., State.modHome_mem .., State.modHome_net .., State.modHome_cp ..⟩

section
variable {s : State} {q : Quad} {line : Nat} {x : Line} {classed : Bool}

/-- A write is taken where the stack serves it and the write queue has room for it. -/
def State.takesWrite (s : State) (q : Quad) (line : Nat) : Prop :=
  (s.mc q).holds line = false ∧ quadOf (64 * line) = q ∧ (∀ w ∈ ((s.mc q).pc (pcOf line)).writes, w.scrub = false) ∧
    ((s.mc q).pc (pcOf line)).writes.length < 64

theorem State.takesWrite.go (h : s.takesWrite q line) : ¬ ((s.mc q).holds line || quadOf (64 * line) ≠ q
    || 64 ≤ ((s.mc q).pc (pcOf line)).writes.length) = true := by
  obtain ⟨hholds, hquad, -, hroom⟩ := h
  simp [hholds, hquad, hroom]

/-- A write finds none of the scrubber's to replace. -/
theorem State.takesWrite.own (h : s.takesWrite q line) :
    (((s.mc q).pc (pcOf line)).writes.filter fun w => !(w.scrub && w.line == line)) =
      ((s.mc q).pc (pcOf line)).writes := by
  obtain ⟨-, -, hown, -⟩ := h
  rw [List.filter_eq_self]
  exact fun w hw => by simp [hown w hw]

/-- A write of a line that has none queued joins the write queue. -/
theorem State.mcWrite_queues (h : s.takesWrite q line) (hnew : ∀ w ∈ ((s.mc q).pc (pcOf line)).writes, w.line ≠ line) :
    s.mcWrite q line x false classed = some ((s.writeCame q line).modPc q (pcOf line) fun p =>
      ({ p.interrupt s.tb with writes := ((s.mc q).pc (pcOf line)).writes, selfRef := false } : Pc).enqueue
        (s.cpField (mcAddr q 0) 8 6) { line := line, data := x }) := by
  unfold State.mcWrite
  dsimp only
  rw [if_neg h.go, h.own]
  have hmerge : (((s.mc q).pc (pcOf line)).writes.any fun w => w.line == line && !w.dep) = false := by
    rw [List.any_eq_false]
    exact fun w hw => by simp [hnew w hw]
  rw [hmerge]
  rfl

/-- A write of a line that has one queued on which no read depends takes its place, and is counted. -/
theorem State.mcWrite_merges (h : s.takesWrite q line)
    (hold : ∃ w ∈ ((s.mc q).pc (pcOf line)).writes, w.line = line ∧ w.dep = false) :
    s.mcWrite q line x false classed =
      some (((s.writeCame q line).countAt (mcAddr q 0x0C4) 0 32 1).modPc q (pcOf line) fun p =>
        { p.interrupt s.tb with
          writes := ((s.mc q).pc (pcOf line)).writes.map fun w =>
            if w.line = line && !w.dep then { w with data := x, pois := false } else w
          selfRef := false }) := by
  unfold State.mcWrite
  dsimp only
  rw [if_neg h.go, h.own]
  have hmerge : (((s.mc q).pc (pcOf line)).writes.any fun w => w.line == line && !w.dep) = true := by
    obtain ⟨w, hw, hline, hdep⟩ := hold
    exact List.any_eq_true.2 ⟨w, hw, by simp [hline, hdep]⟩
  rw [hmerge]
  rfl

/-- What changes one pseudo-channel of a state that differs in homes and registers changes that one alone. -/
theorem onlyPc_congr {s t w : State} {q : Quad} {p : Nat} {y : Pc} (h : OnlyPc q p t w y) (hmcs : t.mcs = s.mcs)
    (hcores : t.cores = s.cores) (hmem : t.mem = s.mem) (hnet : t.net = s.net) : OnlyPc q p s w y := by
  unfold OnlyPc at h ⊢
  simpa only [State.mc_congr hmcs, hcores, hmem, hnet] using h

end

theorem exec_mcWriteRequest {s w : State} {q : Quad} {l : BitVec 42} {x : Line} {pois classed : Bool}
    (h : s.mcWrite q l.toNat x pois classed = some w) : exec (.mcWriteRequest q l x pois classed) s = .next w := by
  show execMcWriteRequest q l x pois classed s = _
  rw [execMcWriteRequest, h, Option.getD_some]

theorem writeRequestResults : WriteRequestResults := by
  intro q l x classed s line p ready
  obtain ⟨hmcs, hcores, hmem, hnet, hcp⟩ := s.writeCame_apart q line
  refine ⟨fun hready hnew => ?_, fun v hready hv hline hdep => ?_, fun hfull => ?_⟩
  · have hcame : ((s.writeCame q line).mc q).pc (pcOf line) = p := by rw [State.mc_congr hmcs]
    refine ⟨_, exec_mcWriteRequest (State.mcWrite_queues hready hnew), _,
      onlyPc_congr (onlyPc_modPc ..) hmcs hcores hmem hnet, ?_⟩
    rw [hcame, Pc.interrupt_eq]
    exact ⟨rfl, rfl, rfl, rfl, rfl, ⟨rfl, rfl⟩, by simp [Pc.enqueue, p, line]⟩
  · refine ⟨_, exec_mcWriteRequest (State.mcWrite_merges hready ⟨v, hv, hline, hdep⟩), ?_, ?_,
      (State.modPc_mem ..).trans ((State.cpSetField_mem ..).trans hmem)⟩
    · rw [State.pc_modPc_self]
      simp [p, line]
    · rw [State.cpField_congr (State.modPc_cp ..), State.cpField_countAt _ _ _ (by decide),
        State.cpField_congr hcp]
  · have hwaits : s.mcWrite q line x false classed = none := by
      unfold State.mcWrite
      exact if_pos (by simp [p] at hfull; simp [hfull])
    show execMcWriteRequest q l x false classed s = _
    rw [execMcWriteRequest, hwaits, Option.getD_none]

/-- Settles O27: a fill or a write is one change of its pseudo-channel, an answer of its home, or waits. -/
theorem memoryQueueResults : Obligations.MemoryQueueResults := ⟨fillRequestResults, writeRequestResults⟩

end Sys2Proof.Machine
end

