-- ==== Sys2Proof/Proofs/MemoryIssue.lean ====
section
/-! SUPPORT. Which read and which write a pseudo-channel issues, and what that leaves (R203 to R205, R208). -/

namespace Sys2Proof.Machine

open Sys2Proof.Claims

/-! The first of a list that passes a test, in the order of places. -/

/-- The places of a list rise along it. -/
theorem pairwise_zipIdx {α : Type} (l : List α) : l.zipIdx.Pairwise fun x y => x.2 < y.2 := by
  have h := List.pairwise_lt_range' (s := 0) (n := l.length)
  rw [← List.zipIdx_map_snd, List.pairwise_map] at h
  exact h

/-- What is found of a list in order of places passes, and none before it does. -/
theorem of_find?_places {α : Type} {l : List (α × Nat)} {f : α × Nat → Bool} {x : α × Nat}
    (hl : l.Pairwise fun x y => x.2 < y.2) (h : l.find? f = some x) :
    x ∈ l ∧ f x = true ∧ ∀ y ∈ l, y.2 < x.2 → f y = false := by
  obtain ⟨hx, as, bs, rfl, has⟩ := List.find?_eq_some_iff_append.1 h
  refine ⟨by simp, hx, fun y hy hlt => ?_⟩
  obtain ⟨-, hbs, -⟩ := List.pairwise_append.1 hl
  rcases List.mem_append.1 hy with hy | hy
  · simpa using has y hy
  · rcases List.mem_cons.1 hy with rfl | hy
    · exact absurd hlt (Nat.lt_irrefl _)
    · exact absurd ((List.pairwise_cons.1 hbs).1 y hy) (Nat.lt_asymm hlt)

/-- The first of a list in order of places. -/
theorem of_head?_places {α : Type} {l : List (α × Nat)} {x : α × Nat} (hl : l.Pairwise fun x y => x.2 < y.2)
    (h : l.head? = some x) : x ∈ l ∧ ∀ y ∈ l, ¬ y.2 < x.2 := by
  obtain ⟨t, rfl⟩ := List.head?_eq_some_iff.1 h
  refine ⟨List.mem_cons_self, fun y hy hlt => ?_⟩
  rcases List.mem_cons.1 hy with rfl | hy
  · exact Nat.lt_irrefl _ hlt
  · exact Nat.lt_asymm hlt ((List.pairwise_cons.1 hl).1 y hy)

theorem le_foldl_max {α : Type} (f : α → Nat) (l : List α) (m : Nat) :
    m ≤ l.foldl (fun m x => max m (f x)) m ∧ ∀ x ∈ l, f x ≤ l.foldl (fun m x => max m (f x)) m := by
  induction l generalizing m with
  | nil => simp
  | cons y l ih =>
    obtain ⟨hm, hl⟩ := ih (max m (f y))
    rw [List.foldl_cons]
    refine ⟨by omega, fun x hx => ?_⟩
    rcases List.mem_cons.1 hx with rfl | hx
    · omega
    · exact hl x hx

/-! The read that is issued next (R203). -/

/-- The reads that wait on no write, with their places. -/
def Pc.candidates (p : Pc) : List (McRead × Nat) := p.reads.zipIdx.filter fun x => !x.1.waits

section
variable {p : Pc}

theorem Pc.mem_candidates {x : McRead × Nat} : x ∈ p.candidates ↔ p.reads[x.2]? = some x.1 ∧ x.1.waits = false := by
  rw [Pc.candidates, List.mem_filter, List.mem_zipIdx_iff_getElem?, Bool.not_eq_true']

theorem Pc.candidates_places : p.candidates.Pairwise fun x y => x.2 < y.2 := (pairwise_zipIdx _).filter _

theorem Pc.candidate_of_mem {r : McRead} (hr : r ∈ p.reads) (hwaits : r.waits = false) :
    ∃ j, (r, j) ∈ p.candidates := by
  obtain ⟨j, hj⟩ := List.mem_iff_getElem?.1 hr
  exact ⟨j, Pc.mem_candidates.2 ⟨hj, hwaits⟩⟩

theorem Pc.candidate_of_mem_take {r : McRead} {i : Nat} (hr : r ∈ p.reads.take i) (hwaits : r.waits = false) :
    ∃ j < i, (r, j) ∈ p.candidates := by
  obtain ⟨j, hj, hget⟩ := List.mem_take_iff_getElem.1 hr
  exact ⟨j, by omega, Pc.mem_candidates.2 ⟨by rw [← hget, List.getElem?_eq_getElem], hwaits⟩⟩

/-- Candidate `x` goes before the others: by its age, or by priority, open row and place. -/
def Pc.GoesFirst (p : Pc) (x : McRead × Nat) : Prop :=
  x ∈ p.candidates ∧ (x.1.passed < 32 → ∀ y ∈ p.candidates, y.1.passed < 32 ∧ y.1.prio.toNat ≤ x.1.prio.toNat ∧
    (y.1.prio = x.1.prio → (p.rowHit y.1.line = true → p.rowHit x.1.line = true) ∧
      (y.2 < x.2 → p.rowHit y.1.line = false ∧ p.rowHit x.1.line = true)))

theorem Pc.nextRead_goesFirst {i : Nat} (h : p.nextRead = some i) : ∃ x, x.2 = i ∧ p.GoesFirst x := by
  unfold Pc.nextRead at h
  change (match p.candidates.find? _ with | some x => _ | none => _) = _ at h
  split at h
  · rename_i x hold
    obtain ⟨hx, hage, -⟩ := of_find?_places Pc.candidates_places hold
    exact ⟨x, Option.some.inj h, hx, fun hyoung => absurd (of_decide_eq_true hage) (Nat.not_le.2 hyoung)⟩
  · rename_i hyoung
    extract_lets top c at h
    have hage : ∀ y ∈ p.candidates, y.1.passed < 32 := by simpa using List.find?_eq_none.1 hyoung
    have hle : ∀ y ∈ p.candidates, y.1.prio.toNat ≤ top := (le_foldl_max _ _ 0).2
    have hplaces : c.Pairwise fun x y => x.2 < y.2 := Pc.candidates_places.filter _
    have hmem : ∀ {y}, y ∈ c ↔ y ∈ p.candidates ∧ y.1.prio.toNat = top := by
      intro y
      rw [show c = p.candidates.filter _ from rfl, List.mem_filter, decide_eq_true_eq]
    split at h
    · rename_i x hopen
      obtain ⟨hx, hhit, hbefore⟩ := of_find?_places hplaces hopen
      obtain ⟨hcand, htop⟩ := hmem.1 hx
      refine ⟨x, Option.some.inj h, hcand, fun _ y hy => ⟨hage y hy, htop ▸ hle y hy, fun hprio => ⟨fun _ => hhit,
        fun hlt => ⟨hbefore y (hmem.2 ⟨hy, by rw [hprio, htop]⟩) hlt, hhit⟩⟩⟩⟩
    · rename_i hclosed
      obtain ⟨x, hhead, hi⟩ := Option.map_eq_some_iff.1 h
      obtain ⟨hx, hfirst⟩ := of_head?_places hplaces hhead
      obtain ⟨hcand, htop⟩ := hmem.1 hx
      refine ⟨x, hi, hcand, fun _ y hy => ⟨hage y hy, htop ▸ hle y hy, fun hprio => ?_⟩⟩
      have hy : y ∈ c := hmem.2 ⟨hy, by rw [hprio, htop]⟩
      exact ⟨fun hhit => absurd hhit (List.find?_eq_none.1 hclosed y hy), fun hlt => absurd hlt (hfirst y hy)⟩

/-- The read that goes next, by its place (R203). -/
theorem Pc.nextRead_chosen {i : Nat} {r : McRead} (h : p.nextRead = some i) (hr : p.reads[i]? = some r) :
    r.waits = false ∧
    (r.passed < 32 → (∀ x ∈ p.reads, x.waits = false → x.passed < 32 ∧ x.prio.toNat ≤ r.prio.toNat ∧
        (x.prio = r.prio → p.rowHit x.line = true → p.rowHit r.line = true)) ∧
      (∀ x ∈ p.reads.take i, x.waits = false → x.prio = r.prio →
        p.rowHit x.line = false ∧ p.rowHit r.line = true)) := by
  obtain ⟨⟨r', j⟩, rfl, hcand, hfirst⟩ := Pc.nextRead_goesFirst h
  obtain ⟨hget, hwaits⟩ := Pc.mem_candidates.1 hcand
  obtain rfl : r' = r := Option.some.inj (hget.symm.trans hr)
  refine ⟨hwaits, fun hyoung => ⟨fun x hx hfree => ?_, fun x hx hfree hprio => ?_⟩⟩
  · obtain ⟨k, hk⟩ := Pc.candidate_of_mem hx hfree
    obtain ⟨hage, hle, hrow⟩ := hfirst hyoung _ hk
    exact ⟨hage, hle, fun hprio => (hrow hprio).1⟩
  · obtain ⟨k, hlt, hk⟩ := Pc.candidate_of_mem_take hx hfree
    obtain ⟨-, -, hrow⟩ := hfirst hyoung _ hk
    exact (hrow hprio).2 hlt

/-- The reads before a place count a pass, and the one at the place leaves. -/
theorem eraseIdx_passed (l : List McRead) {i : Nat} (hi : i < l.length) :
    (l.zipIdx.map fun x => if x.2 < i then { x.1 with passed := x.1.passed + 1 } else x.1).eraseIdx i =
      (l.take i).map (fun x => { x with passed := x.passed + 1 }) ++ l.drop (i + 1) := by
  have hlen : ((l.take i).map fun x => ({ x with passed := x.passed + 1 } : McRead)).length = i := by simp; omega
  refine List.ext_getElem? fun j => ?_
  rw [List.getElem?_eraseIdx]
  by_cases hj : j < i
  · rw [if_pos hj, List.getElem?_append_left (by rwa [hlen])]
    cases hget : l[j]? <;> simp [hj, hget]
  · rw [if_neg hj, List.getElem?_append_right (by omega), hlen, List.getElem?_drop,
      show i + 1 + (j - i) = j + 1 by omega]
    cases hget : l[j + 1]? <;> simp [hget]
    omega

theorem Pc.issueRead_issues {i : Nat} {r : McRead} (hr : p.reads[i]? = some r) :
    (p.issueRead i).issued = p.issued ++ [r] ∧ (p.issueRead i).rowHit r.line = true ∧
      (p.issueRead i).reads =
        (p.reads.take i).map (fun x => { x with passed := x.passed + 1 }) ++ p.reads.drop (i + 1) ∧
      (p.issueRead i).writes = p.writes := by
  obtain ⟨hi, -⟩ := List.getElem?_eq_some_iff.1 hr
  unfold Pc.issueRead
  rw [hr]
  refine ⟨rfl, ?_, eraseIdx_passed _ hi, rfl⟩
  unfold Pc.rowHit Pc.openRow
  rw [SMap.get_set_self]
  exact beq_self_eq_true _

/-! The write that is issued next (R204, R205, R208). -/

/-- The writes that no older read of their line holds back, with their places. -/
def Pc.freeWrites (p : Pc) : List (McWrite × Nat) := p.writes.zipIdx.filter fun x => !p.olderRead x.1.line

theorem Pc.mem_freeWrites {x : McWrite × Nat} :
    x ∈ p.freeWrites ↔ p.writes[x.2]? = some x.1 ∧ p.olderRead x.1.line = false := by
  rw [Pc.freeWrites, List.mem_filter, List.mem_zipIdx_iff_getElem?, Bool.not_eq_true']

/-- A write goes where a read depends on it, in a drain, or while no read waits. -/
theorem Pc.nextWrite_free {i : Nat} (h : p.nextWrite = some i) : ∃ x ∈ p.freeWrites, x.2 = i ∧
    (x.1.dep = true ∨ p.drain = true ∨ (p.reads = [] ∧ ∀ y ∈ p.issued, y.scrub = true)) := by
  unfold Pc.nextWrite at h
  change (match p.freeWrites.find? _ with | some x => _ | none => _) = _ at h
  split at h
  · rename_i x hdep
    exact ⟨x, List.mem_of_find?_eq_some hdep, Option.some.inj h, .inl (by simpa using List.find?_some hdep)⟩
  · split at h
    · rename_i hmay
      have hmay : p.drain = true ∨ (p.reads = [] ∧ ∀ y ∈ p.issued, y.scrub = true) := by simpa using hmay
      change (match p.freeWrites.find? _ with | some x => _ | none => _) = _ at h
      split at h
      · rename_i x hopen
        exact ⟨x, List.mem_of_find?_eq_some hopen, Option.some.inj h, .inr hmay⟩
      · obtain ⟨x, hhead, hi⟩ := Option.map_eq_some_iff.1 h
        exact ⟨x, List.mem_of_mem_head? hhead, hi, .inr hmay⟩
    · contradiction

/-- The write that goes next: what lets it go, and the reads that it does not pass. -/
theorem Pc.nextWrite_chosen {i : Nat} {v : McWrite} (h : p.nextWrite = some i) (hv : p.writes[i]? = some v) :
    (v.dep = true ∨ p.drain = true ∨ (p.reads = [] ∧ ∀ x ∈ p.issued, x.scrub = true)) ∧
      ∀ x ∈ p.reads ++ p.issued, x.line = v.line → x.waits = true := by
  obtain ⟨⟨v', j⟩, hfree, rfl, hmay⟩ := Pc.nextWrite_free h
  obtain ⟨hget, holder⟩ := Pc.mem_freeWrites.1 hfree
  obtain rfl : v' = v := Option.some.inj (hget.symm.trans hv)
  refine ⟨hmay, fun x hx hline => ?_⟩
  have hnone := List.any_eq_false.1 holder x hx
  simpa [hline] using hnone

end

/-! A line of the stack written (R218). -/

theorem testBit_fullMask {j : Nat} (hj : j < 64) : fullMask.toNat / 2 ^ j % 2 = 1 := by
  have hbit : fullMask.toNat.testBit j = true := by
    rw [fullMask, BitVec.toNat_allOnes, Nat.testBit_two_pow_sub_one]
    exact decide_eq_true hj
  rwa [Nat.testBit_eq_decide_div_mod_eq, decide_eq_true_eq] at hbit

theorem State.byte_setMemLine (s : State) (line : Nat) (x : Line) (k : BitVec 64) (a : Nat) :
    (s.setMemLine line x k).byte a = SMap.get 0 (writeBytes s.mem 64 (64 * line) k.toNat x.toNat) a := rfl

/-- A whole line written gives each of its bytes and leaves the others. -/
theorem State.byte_setMemLine_full (s : State) (line : Nat) (x : Line) :
    (∀ j < 64, (s.setMemLine line x fullMask).byte (64 * line + j) = x.extractLsb' (8 * j) 8) ∧
      ∀ a, a < 64 * line ∨ 64 * line + 64 ≤ a → (s.setMemLine line x fullMask).byte a = s.byte a := by
  refine ⟨fun j hj => ?_, fun a ha => ?_⟩
  case refine_2 => rw [State.byte_setMemLine, writeBytes_get_outside 64 s.mem _ _ _ a ha, State.byte]
  rw [State.byte_setMemLine, writeBytes_get_inside 64 s.mem _ _ _ j hj, if_pos (testBit_fullMask hj)]
  apply BitVec.eq_of_toNat_eq
  rw [BitVec.toNat_ofNat, BitVec.extractLsb'_toNat, Nat.shiftRight_eq_div_pow, Nat.pow_mul]

/-- A line written to the stack: its bytes, zeros where it is poisoned, and its mark. -/
theorem State.stackWrite_line (s : State) (line : Nat) (x : Line) (pois : Bool) :
    (∀ j < 64, (s.stackWrite line x pois).byte (64 * line + j) = if pois then 0 else x.extractLsb' (8 * j) 8) ∧
    (∀ a, a < 64 * line ∨ 64 * line + 64 ≤ a → (s.stackWrite line x pois).byte a = s.byte a) ∧
    SMap.get false (s.stackWrite line x pois).poisLine line = pois := by
  obtain ⟨hin, hout⟩ := s.byte_setMemLine_full line (if pois then 0 else x)
  refine ⟨fun j hj => (hin j hj).trans ?_, hout, SMap.get_set_self ..⟩
  cases pois with
  | false => rfl
  | true => exact BitVec.extractLsb'_zero ..

/-- A line written to the stack changes memory and poison marks alone. -/
theorem State.stackWrite_apart (s : State) (line : Nat) (x : Line) (pois : Bool) :
    (s.stackWrite line x pois).mcs = s.mcs ∧ (s.stackWrite line x pois).homes = s.homes ∧
      (s.stackWrite line x pois).cp = s.cp ∧ (s.stackWrite line x pois).cores = s.cores ∧
      (s.stackWrite line x pois).net = s.net := ⟨rfl, rfl, rfl, rfl, rfl⟩

section
variable {s : State} {q : Quad} {pc : Fin 16} {i : Nat}

theorem exec_mcReadIssue (h : Serving s q) (hdrain : ((s.mc q).pc pc.val).drain = false)
    (hawake : ((s.mc q).pc pc.val).selfRef = false) (hnext : ((s.mc q).pc pc.val).nextRead = some i) :
    exec (.mcReadIssue q pc) s = .next (s.modPc q pc.val fun p => p.issueRead i) := by
  obtain ⟨hsr, hkeep⟩ := h
  show execMcReadIssue q pc s = _
  unfold execMcReadIssue
  dsimp only
  rw [hnext]
  exact if_neg (by simp [hdrain, hawake, hsr, hkeep])

theorem exec_mcWriteIssue (h : Serving s q) (hnext : ((s.mc q).pc pc.val).nextWrite = some i) :
    exec (.mcWriteIssue q pc) s = .next (s.issueWrite q pc.val i) := by
  obtain ⟨hsr, hkeep⟩ := h
  show execMcWriteIssue q pc s = _
  unfold execMcWriteIssue
  dsimp only
  rw [hnext]
  exact if_neg (by simp [hsr, hkeep])

/-- A write that is issued leaves its queue, and its line is in the stack. -/
theorem State.issueWrite_writes {v : McWrite} (hv : ((s.mc q).pc pc.val).writes[i]? = some v) :
    ∃ f : Pc → Pc, s.issueWrite q pc.val i = (s.stackWrite v.line v.data v.pois).modPc q pc.val f ∧
      ∀ p, (f p).writes = p.writes.eraseIdx i := by
  unfold State.issueWrite
  rw [hv]
  refine ⟨_, rfl, fun p => ?_⟩
  dsimp only
  rw [(Pc.rest_queues ..).2.2]

end

theorem issueResults : IssueResults := by
  refine ⟨fun q pc s i r => ?_, fun q pc s i v => ?_⟩
  · intro p hserve hdrain hawake hnext hr
    obtain ⟨hwaits, hfirst⟩ := Pc.nextRead_chosen hnext hr
    refine ⟨hwaits, hfirst, _, exec_mcReadIssue hserve hdrain hawake hnext, ?_⟩
    dsimp only
    rw [State.pc_modPc_self]
    obtain ⟨hissued, hrow, hreads, hwrites⟩ := p.issueRead_issues hr
    exact ⟨hissued, hrow, hreads, hwrites, State.modPc_mem .., State.modPc_cores .., State.modPc_net ..⟩
  · intro p hserve hnext hv
    obtain ⟨hmay, hpasses⟩ := Pc.nextWrite_chosen hnext hv
    obtain ⟨f, hissue, hqueue⟩ := State.issueWrite_writes (q := q) (pc := pc) hv
    obtain ⟨hmcs, -, -, hcores, hnet⟩ := s.stackWrite_apart v.line v.data v.pois
    obtain ⟨hin, hout, hpois⟩ := s.stackWrite_line v.line v.data v.pois
    refine ⟨hmay, hpasses, _, (exec_mcWriteIssue hserve hnext).trans (congrArg _ hissue), ?_,
      fun j hj => (State.modPc_byte ..).trans (hin j hj), fun a ha => (State.modPc_byte ..).trans (hout a ha), ?_,
      (State.modPc_cores ..).trans hcores, (State.modPc_net ..).trans hnet⟩
    · rw [State.pc_modPc_self, hqueue, State.mc_congr hmcs]
    · rw [State.modPc_poisLine, hpois]

end Sys2Proof.Machine
end

