-- ==== Sys2Proof/Proofs/ReadData.lean ====
section
/-! SUPPORT. The data that comes back from the stack for a fill, and the errors found in it (R216 to R220). -/

namespace Sys2Proof.Machine

open Sys2Proof.Claims

/-! Errors noted. -/

/-- `t` is `s` with errors of memory recorded, counted and reported. -/
def State.Noted (s t : State) : Prop := s.SameButRecords t ∧ ∀ a, ApartFromErrors a → t.cpGet a = s.cpGet a

section
variable {s t u : State}

theorem State.Noted.refl (s : State) : s.Noted s := ⟨.refl s, fun _ _ => rfl⟩

theorem State.Noted.trans (h : s.Noted t) (h' : t.Noted u) : s.Noted u :=
  ⟨h.1.trans h'.1, fun a ha => (h'.2 a ha).trans (h.2 a ha)⟩

theorem State.mcEvent_noted (s : State) (q : Quad) (i : Nat) : s.Noted (s.mcEvent q i) := by
  obtain ⟨hsame, hreg⟩ := s.mcEvent_records q i
  exact ⟨hsame, fun a ha => hreg a (ha.ne q (by decide) (by decide))⟩

theorem State.countAt_noted (s : State) (q : Quad) {off : Nat} (lo w n : Nat) (hlo : 0x0A0 ≤ off) (hhi : off < 0x100) :
    s.Noted (s.countAt (mcAddr q off) lo w n) :=
  ⟨s.countAt_records .., fun _ ha => s.countAt_apart q lo w n hlo hhi ha⟩

theorem State.report_noted (s : State) (st : Station) {cls : Nat} (source loc : Nat) (d0 d1 : Option Nat) (crit : Bool)
    (hcls : cls < 0x100) : s.Noted (s.report st cls source loc d0 d1 crit) := by
  refine ⟨s.report_records .., fun a ha => State.report_cpGet s st source loc d0 d1 crit hcls ?_⟩
  unfold ApartFromErrors at ha
  omega

/-- A report leaves the counts of a controller. -/
theorem State.report_mcAddr (s : State) (st : Station) {cls : Nat} (source loc : Nat) (d0 d1 : Option Nat) (crit : Bool)
    (hcls : cls < 0x100) (q : Quad) {off : Nat} (hoff : off < 0x100) :
    (s.report st cls source loc d0 d1 crit).cpGet (mcAddr q off) = s.cpGet (mcAddr q off) :=
  State.report_cpGet s st source loc d0 d1 crit hcls (by rw [mcAddr_mod q (by omega)]; omega)

end

/-! Corrected beats (R217). -/

section
variable (s : State) (q : Quad) (line : Nat)

theorem State.mcCorrected_eq (x : Fin 8 × Fin 72) : ∃ d0 d1, s.mcCorrected q line x =
    ((s.countAt (mcAddr q 0x0A4) 0 32 1).mcEvent q 0).report (mcStation q) 0x01 (mcStation q).toNat (64 * line) d0 d1 := by
  unfold State.mcCorrected
  extract_lets d
  exact ⟨_, _, rfl⟩

theorem State.mcCorrected_noted (x : Fin 8 × Fin 72) : s.Noted (s.mcCorrected q line x) := by
  obtain ⟨d0, d1, h⟩ := s.mcCorrected_eq q line x
  rw [h]
  exact ((s.countAt_noted q _ _ _ (by decide) (by decide)).trans (State.mcEvent_noted ..)).trans
    (State.report_noted _ _ _ _ _ _ _ (by decide))

/-- Of a controller's counts a corrected beat advances its own. -/
theorem State.mcCorrected_cpGet (x : Fin 8 × Fin 72) {off : Nat} (hoff : off < 0x100) (hevent : off ≠ 0x0A0) :
    (s.mcCorrected q line x).cpGet (mcAddr q off) = (s.countAt (mcAddr q 0x0A4) 0 32 1).cpGet (mcAddr q off) := by
  obtain ⟨d0, d1, h⟩ := s.mcCorrected_eq q line x
  rw [h, State.report_mcAddr _ _ _ _ _ _ _ (by decide) q hoff, (State.mcEvent_records _ q 0).2 _ (mcAddr_ne q hevent)]

theorem State.mcCorrected_counts (x : Fin 8 × Fin 72) : (s.mcCorrected q line x).cpField (mcAddr q 0x0A4) 0 32 =
    satCount 32 (s.cpField (mcAddr q 0x0A4) 0 32) 1 := by
  rw [State.cpField_of_cpGet (s.mcCorrected_cpGet q line x (by decide) (by decide)),
    State.cpField_countAt _ _ _ (by decide)]

/-- A corrected beat leaves the count of those that cannot be corrected. -/
theorem State.mcCorrected_ueCount (x : Fin 8 × Fin 72) :
    (s.mcCorrected q line x).cpGet (mcAddr q 0x0A8) = s.cpGet (mcAddr q 0x0A8) := by
  rw [s.mcCorrected_cpGet q line x (by decide) (by decide), State.countAt,
    State.cpGet_cpSetField_of_ne _ _ _ _ (mcAddr_ne q (by decide))]

/-- The state once each beat of a list has been corrected. -/
def State.correctedAll (l : List (Fin 8 × Fin 72)) : State := l.foldl (fun s x => s.mcCorrected q line x) s

variable {s}

/-- Each corrected beat is noted and counted, and none counts as one that cannot be corrected. -/
theorem State.correctedAll_notes (l : List (Fin 8 × Fin 72)) :
    s.Noted (s.correctedAll q line l) ∧
      (s.correctedAll q line l).cpField (mcAddr q 0x0A4) 0 32 =
        satCount 32 (s.cpField (mcAddr q 0x0A4) 0 32) l.length ∧
      (s.correctedAll q line l).cpGet (mcAddr q 0x0A8) = s.cpGet (mcAddr q 0x0A8) := by
  induction l generalizing s with
  | nil =>
    refine ⟨.refl s, ?_, rfl⟩
    have hlt : s.cpField (mcAddr q 0x0A4) 0 32 < 2 ^ 32 := field_lt ..
    rw [State.correctedAll, List.foldl_nil, satCount_eq, List.length_nil]
    omega
  | cons x l ih =>
    obtain ⟨hnoted, hcount, hue⟩ := ih (s := s.mcCorrected q line x)
    refine ⟨(s.mcCorrected_noted q line x).trans hnoted, hcount.trans ?_, hue.trans (s.mcCorrected_ueCount q line x)⟩
    rw [State.mcCorrected_counts, satCount_succ, List.length_cons]

end

/-! A beat that cannot be corrected (R219, R220). -/

section
variable (s : State) (q : Quad) (line src beat synd : Nat) (crit stop : Bool)

theorem State.cpSet64_records (a : Nat) (x : Word) : s.SameButRecords (s.cpSet64 a x) :=
  ⟨_, _, _, _, _, _, _, _, _, rfl⟩

/-- MC_UE_LOG takes an error where it is free. -/
def State.logUe (x : Word) : State :=
  if s.cpField (mcAddr q 0x0B0) 0 1 = 1 then s else s.cpSet64 (mcAddr q 0x0B0) x

theorem State.logUe_records (x : Word) : s.SameButRecords (s.logUe q x) := by
  unfold State.logUe
  split
  · exact .refl s
  · exact s.cpSet64_records ..

theorem State.logUe_cpGet (x : Word) {a : Nat} (h : a ≠ mcAddr q 0x0B0) (h' : a ≠ mcAddr q 0x0B4) :
    (s.logUe q x).cpGet a = s.cpGet a := by
  unfold State.logUe
  split
  · rfl
  · exact State.cpGet_cpSet64_of_ne _ _ h (by rwa [mcAddr, cpAddr_add])

theorem State.logUe_noted (x : Word) : s.Noted (s.logUe q x) :=
  ⟨s.logUe_records q x, fun _ ha => s.logUe_cpGet q x (ha.ne q (by decide) (by decide))
    (ha.ne q (by decide) (by decide))⟩

theorem State.mcUe_eq : ∃ x, s.mcUe q line src beat synd crit stop =
    (((s.mcEvent q 1).countAt (mcAddr q 0x0A8) 0 16 1).logUe q x).report (mcStation q) 0x02 (mcStation q).toNat
      (64 * line) none none stop := by
  unfold State.mcUe State.logUe
  extract_lets t a
  exact ⟨_, rfl⟩

theorem State.mcUe_noted : s.Noted (s.mcUe q line src beat synd crit stop) := by
  obtain ⟨x, h⟩ := s.mcUe_eq q line src beat synd crit stop
  rw [h]
  exact (((s.mcEvent_noted q 1).trans (State.countAt_noted _ q _ _ _ (by decide) (by decide))).trans
    (State.logUe_noted _ q _)).trans (State.report_noted _ _ _ _ _ _ _ (by decide))

theorem State.mcUe_counts : (s.mcUe q line src beat synd crit stop).cpField (mcAddr q 0x0A8) 0 16 =
    satCount 16 (s.cpField (mcAddr q 0x0A8) 0 16) 1 := by
  obtain ⟨x, h⟩ := s.mcUe_eq q line src beat synd crit stop
  have hlog := State.logUe_cpGet ((s.mcEvent q 1).countAt (mcAddr q 0x0A8) 0 16 1) q x
    (mcAddr_ne q (off := 0x0A8) (by decide)) (mcAddr_ne q (by decide))
  have hevent := (s.mcEvent_records q 1).2 (mcAddr q 0x0A8) (mcAddr_ne q (by decide))
  rw [h, State.cpField_of_cpGet (State.report_mcAddr _ _ _ _ _ _ _ (by decide) q (by decide)),
    State.cpField_of_cpGet hlog, State.cpField_countAt _ _ _ (by decide), State.cpField_of_cpGet hevent]

end

/-! A read of the stack for a fill. -/

/-- The beats of a line that cannot be corrected, with what the check found. -/
def badBeats (pois : Bool) (err : BeatErrs) : List (Fin 8 × BitVec 8) :=
  (List.finRange 8).filterMap fun i => (beatSynd pois err i).map fun y => (i, y)

section
variable {err : BeatErrs}

theorem badBeats_clean (h : err.ue = []) : badBeats false err = [] := by
  simp [badBeats, beatSynd, h]

theorem badBeats_poisoned (h : err.ue = []) :
    badBeats true err = (List.finRange 8).map fun i => (i, 0xF0) := by
  simp [badBeats, beatSynd, h]

/-- Of a line not poisoned, the beats that cannot be corrected are some that the check found. -/
theorem badBeats_found {x : Fin 8 × BitVec 8} (h : x ∈ badBeats false err) : x ∈ err.ue := by
  obtain ⟨i, -, hi⟩ := List.mem_filterMap.1 h
  unfold beatSynd at hi
  split at hi
  · rename_i y hy
    have hplace : y.1 = i := by simpa using List.find?_some hy
    obtain rfl : (i, y.2) = x := by simpa using hi
    rw [← hplace]
    exact List.mem_of_find?_eq_some hy
  · simp at hi

theorem badBeats_ne_nil (h : err.ue ≠ []) : badBeats false err ≠ [] := by
  obtain ⟨x, hx⟩ := List.exists_mem_of_ne_nil _ h
  obtain ⟨y, hy⟩ : ∃ y, err.ue.find? (fun z => z.1 == x.1) = some y :=
    Option.isSome_iff_exists.1 (List.find?_isSome.2 ⟨x, hx, beq_self_eq_true _⟩)
  refine List.ne_nil_of_mem (a := (x.1, y.2)) (List.mem_filterMap.2 ⟨x.1, List.mem_finRange _, ?_⟩)
  rw [beatSynd, hy]
  rfl

end

section
variable {s : State} {q : Quad} {line : Nat} {err : BeatErrs}

/-- A clean line is given as it stands, its corrected beats noted. -/
theorem State.stackRead_clean (hue : err.ue = []) (hclean : SMap.get false s.poisLine line = false) :
    s.stackRead q line false err = (some (s.memLine line, false), s.correctedAll q line err.single) := by
  have hmem : (s.correctedAll q line err.single).memLine line = s.memLine line := by
    obtain ⟨⟨hsame, -⟩, -⟩ := State.correctedAll_notes (s := s) q line err.single
    obtain ⟨-, -, hmem, -⟩ := hsame.apart
    rw [State.memLine, hmem, State.memLine]
  have hall : (err.single.filter fun x => !(badBeats false err).any fun y => y.1 == x.1) = err.single := by
    rw [badBeats_clean hue]
    exact List.filter_eq_self.2 fun _ _ => rfl
  unfold State.stackRead
  rw [hclean]
  extract_lets bad t
  have hbad : bad = [] := badBeats_clean hue
  have ht : t = s.correctedAll q line err.single := congrArg (s.correctedAll q line) hall
  clear_value bad t
  subst hbad
  rw [if_neg (by decide), ht]
  exact congrArg (fun x => (some (x, false), s.correctedAll q line err.single)) hmem

/-- A line that is poisoned is given as such, and counted. -/
theorem State.stackRead_poisoned (hue : err.ue = []) (hpois : SMap.get false s.poisLine line = true) :
    s.stackRead q line false err = (some (0, true), (s.mcEvent q 2).countAt (mcAddr q 0x0A8) 16 16 1) := by
  unfold State.stackRead
  rw [hpois]
  extract_lets bad
  have hbad : bad = (List.finRange 8).map fun i => (i, 0xF0) := badBeats_poisoned hue
  clear_value bad
  subst hbad
  rw [if_pos (by decide)]
  exact if_neg (by decide)

/-- A beat that cannot be corrected poisons a line that is not critical, and is counted. -/
theorem State.stackRead_uncorrectable (hue : err.ue ≠ []) (hfound : ∀ x ∈ err.ue, x.2 ≠ 0xF0)
    (hclean : SMap.get false s.poisLine line = false) (hcrit : s.regionAttr (mcStation q) 32 (64 * line) 7 = false)
    (hwrites : ∀ v ∈ ((s.mc q).pc (pcOf line)).writes, v.line ≠ line) :
    ∃ l beat synd, s.stackRead q line false err = (some (0, true),
      ((s.correctedAll q line l).mcUe q line 0 beat synd false false).stackWrite line 0 true) := by
  have hfew : ¬ 5 ≤ ((badBeats false err).filter fun x => x.2 = 0xF0).length := by
    rw [List.filter_eq_nil_iff.2 fun x hx => by simpa using hfound x (badBeats_found hx)]
    decide
  unfold State.stackRead
  rw [hclean]
  extract_lets bad t crit dirty
  have hfew : ¬ 5 ≤ (bad.filter fun x => x.2 = 0xF0).length := hfew
  obtain ⟨⟨beat, synd⟩, more, hbad⟩ : ∃ x more, bad = x :: more := List.exists_cons_of_ne_nil (badBeats_ne_nil hue)
  obtain ⟨l, ht⟩ : ∃ l, t = s.correctedAll q line l := ⟨_, rfl⟩
  obtain ⟨⟨hsame, hreg⟩, -, -⟩ := State.correctedAll_notes (s := s) q line l
  rw [← ht] at hsame hreg
  have hcrit : crit = false := (State.regionAttr_apart hreg ..).trans hcrit
  have hdirty : dirty = false := Bool.false_and _
  clear_value dirty crit t bad
  subst hbad hcrit hdirty
  rw [if_neg hfew]
  dsimp only
  obtain ⟨hsame', -⟩ := t.mcUe_noted q line 0 beat.val synd.toNat false false
  obtain ⟨-, hmcs, -⟩ := (hsame.trans hsame').apart
  have hqueued : (((t.mcUe q line 0 beat.val synd.toNat false false).mc q).pc (pcOf line)).writes.any
      (fun w => w.line == line) = false := by
    rw [State.mc_congr hmcs, List.any_eq_false]
    simpa using hwrites
  refine ⟨l, beat.val, synd.toNat, ?_⟩
  rw [← ht]
  refine (if_neg (by decide)).trans ?_
  change (_, if List.any (((t.mcUe q line 0 beat.val synd.toNat false false).mc q).pc (pcOf line)).writes _ = true
    then _ else _) = _
  rw [hqueued]
  rfl

end

/-! The data of a fill. -/

section
variable {s : State} {q : Quad} {pc : Nat} {rest : List McRead}

/-- The state once an issued read has left its queue. -/
def State.readLeft (s : State) (q : Quad) (pc : Nat) (rest : List McRead) : State :=
  s.modPc q pc fun p => { p with issued := rest }

/-- A read that leaves its queue leaves the queued writes. -/
theorem State.readLeft_writes (j : Nat) : (((s.readLeft q pc rest).mc q).pc j).writes = ((s.mc q).pc j).writes := by
  rw [State.readLeft, State.pc_modPc]
  split
  · rename_i h
    rw [h]
  · rfl

theorem State.readLeft_cpGet (a : Nat) : (s.readLeft q pc rest).cpGet a = s.cpGet a :=
  State.cpGet_congr (State.modPc_cp ..) a

theorem State.readLeft_awaitsFill {line : Nat} {e : PEntry} (h : AwaitsFill s q line e) :
    AwaitsFill (s.readLeft q pc rest) q line e :=
  awaitsFill_apart (fun a _ => State.readLeft_cpGet a) (State.modPc_homes ..) h

end

section
variable {s : State} {q : Quad} {pc : Fin 16} {r : McRead} {rest : List McRead} {err : BeatErrs}

/-- What a read of the stack gives reaches the home; then the pseudo-channel goes on. -/
theorem exec_mcReadData (hissued : ((s.mc q).pc pc.val).issued = r :: rest) (hfill : r.scrub = false) {x : Line}
    {pois : Bool} {t : State}
    (hread : (s.readLeft q pc.val rest).stackRead q r.line false err = (some (x, pois), t)) :
    ∃ f : Pc → Pc, exec (.mcReadData q pc err) s = .next ((t.fillArrived q r.line x pois).modPc q pc.val f) ∧
      ∀ p, (f p).issued = p.issued := by
  have hback : (s.readLeft q pc.val rest).readBack q r err = t.fillArrived q r.line x pois := by
    unfold State.readBack
    dsimp only
    rw [hfill, hread]
    rfl
  refine ⟨fun p => p.rest (s.readLeft q pc.val rest).tb, ?_, fun p => (Pc.rest_queues ..).2.1⟩
  show execMcReadData q pc err s = _
  unfold execMcReadData
  rw [hissued]
  exact congrArg (fun u : State => Host.Outcome.next (u.modPc q pc.val fun p => p.rest (s.readLeft q pc.val rest).tb)) hback

/-- A read that leaves its queue changes its pseudo-channel alone. -/
theorem State.readLeft_apart : (s.readLeft q pc.val rest).mem = s.mem ∧
    (s.readLeft q pc.val rest).poisLine = s.poisLine ∧ (s.readLeft q pc.val rest).net = s.net ∧
    (s.readLeft q pc.val rest).homes = s.homes :=
  ⟨State.modPc_mem .., State.modPc_poisLine .., State.modPc_net .., State.modPc_homes ..⟩

theorem State.readLeft_issued : ((s.readLeft q pc.val rest).mc q).pc pc.val =
    { (s.mc q).pc pc.val with issued := rest } := State.pc_modPc_self ..

/-- A clean line that comes back for a RdOnce (R216, R217). -/
theorem readData_clean {e : PEntry} (hissued : ((s.mc q).pc pc.val).issued = r :: rest) (hfill : r.scrub = false)
    (hawaits : AwaitsFill s q r.line e) (hue : err.ue = []) (hclean : SMap.get false s.poisLine r.line = false) :
    Completes (.mcReadData q pc err) s fun w =>
      (err.single = [] → FillsReadOnce q r.line e (s.memLine r.line) s w) ∧
      (∃ a ∈ w.net, a.kind = .readData ∧ a.dest = e.msg.src ∧ a.txid = e.msg.txid ∧
        a.data = some (s.memLine r.line)) ∧ w.mem = s.mem ∧
      ((w.mc q).pc pc.val).issued = rest ∧
      w.cpField (mcAddr q 0x0A4) 0 32 = satCount 32 (s.cpField (mcAddr q 0x0A4) 0 32) err.single.length := by
  let u := s.readLeft q pc.val rest
  let t := u.correctedAll q r.line err.single
  obtain ⟨hmem, hpois, hnet, hhomes⟩ : u.mem = s.mem ∧ u.poisLine = s.poisLine ∧ u.net = s.net ∧ u.homes = s.homes :=
    State.readLeft_apart
  have hread : u.stackRead q r.line false err = (some (s.memLine r.line, false), t) := by
    rw [State.stackRead_clean hue (by rw [hpois, hclean]), State.memLine, hmem, State.memLine]
  obtain ⟨f, hexec, hkeeps⟩ := exec_mcReadData hissued hfill hread
  obtain ⟨⟨hsame, hreg⟩, hcount, -⟩ := State.correctedAll_notes (s := u) q r.line err.single
  obtain ⟨hhomes', hmcs', hmem', -⟩ : t.homes = u.homes ∧ t.mcs = u.mcs ∧ t.mem = u.mem ∧ _ := hsame.apart
  have hawaits' : AwaitsFill t q r.line e := awaitsFill_apart hreg hhomes' (State.readLeft_awaitsFill hawaits)
  obtain ⟨⟨a, hsent, hkind, hdest, -, htxid, -, hdata, -⟩, -, hcp, -, hmcs⟩ :=
    fillArrived_answers hawaits' (s.memLine r.line) false
  obtain ⟨⟨b, hone⟩, hends, hkept⟩ := fillArrived_readOnce hawaits' (s.memLine r.line)
  refine ⟨_, hexec, fun hnone => ?_, ⟨a, ?_, hkind, hdest, htxid, hdata⟩, ?_, ?_, ?_⟩
  · have ht : t.net = s.net := by
      rw [← hnet]
      exact congrArg (fun l => (u.correctedAll q r.line l).net) hnone
    refine ⟨⟨b, ?_⟩, ?_, ?_⟩
    · rwa [State.modPc_net, ← ht]
    · rw [State.home_congr (State.modPc_homes ..), hends, State.home_congr (hhomes'.trans hhomes)]
    · exact (State.modPc_mem ..).trans (hkept.trans (hmem'.trans hmem))
  · rw [State.modPc_net, hsent]
    exact List.mem_append_right _ List.mem_cons_self
  · exact (State.modPc_mem ..).trans (hkept.trans (hmem'.trans hmem))
  · rw [State.pc_modPc_self, hkeeps, State.mc_congr (hmcs.trans hmcs'), State.readLeft_issued]
  · rw [State.cpField_congr ((State.modPc_cp ..).trans hcp), hcount,
      State.cpField_of_cpGet (State.readLeft_cpGet _)]

/-- A line that comes back poisoned for a RdOnce (R218). -/
theorem readData_poisoned {e : PEntry} (hissued : ((s.mc q).pc pc.val).issued = r :: rest) (hfill : r.scrub = false)
    (hawaits : AwaitsFill s q r.line e) (hue : err.ue = []) (hpoisoned : SMap.get false s.poisLine r.line = true) :
    Completes (.mcReadData q pc err) s fun w =>
      (∃ a ∈ w.net, a.kind = .homePoison ∧ a.dest = e.msg.src ∧ a.txid = e.msg.txid) ∧ w.mem = s.mem ∧
      w.cpField (mcAddr q 0x0A8) 16 16 = satCount 16 (s.cpField (mcAddr q 0x0A8) 16 16) 1 := by
  let u := s.readLeft q pc.val rest
  let t := (u.mcEvent q 2).countAt (mcAddr q 0x0A8) 16 16 1
  obtain ⟨hmem, hpois, -⟩ : u.mem = s.mem ∧ u.poisLine = s.poisLine ∧ _ := State.readLeft_apart
  have hread : u.stackRead q r.line false err = (some (0, true), t) :=
    State.stackRead_poisoned hue (by rw [hpois, hpoisoned])
  obtain ⟨f, hexec, -⟩ := exec_mcReadData hissued hfill hread
  obtain ⟨hsame, hreg⟩ : u.Noted t := (u.mcEvent_noted q 2).trans (State.countAt_noted _ q _ _ _ (by decide) (by decide))
  obtain ⟨hhomes', -, hmem', -⟩ := hsame.apart
  have hawaits' : AwaitsFill t q r.line e := awaitsFill_apart hreg hhomes' (State.readLeft_awaitsFill hawaits)
  obtain ⟨⟨a, hsent, hkind, hdest, -, htxid, -⟩, -, hcp, hkept, -⟩ := fillArrived_answers hawaits' 0 true
  refine ⟨_, hexec, ⟨a, ?_, hkind, hdest, htxid⟩, ?_, ?_⟩
  · rw [State.modPc_net, hsent]
    exact List.mem_append_right _ List.mem_cons_self
  · exact (State.modPc_mem ..).trans (hkept.trans (hmem'.trans hmem))
  · rw [State.cpField_congr ((State.modPc_cp ..).trans hcp), State.cpField_countAt _ _ _ (by decide),
      State.cpField_of_cpGet ((u.mcEvent_records q 2).2 _ (mcAddr_ne q (by decide))),
      State.cpField_of_cpGet (State.readLeft_cpGet _)]

/-- A beat that cannot be corrected, of a line that is not critical and that no entry awaits (R219, R220). -/
theorem readData_uncorrectable (hissued : ((s.mc q).pc pc.val).issued = r :: rest) (hfill : r.scrub = false)
    (hue : err.ue ≠ []) (hfound : ∀ x ∈ err.ue, x.2 ≠ 0xF0) (hclean : SMap.get false s.poisLine r.line = false)
    (hcrit : s.regionAttr (mcStation q) 32 (64 * r.line) 7 = false)
    (hwrites : ∀ v ∈ ((s.mc q).pc (pcOf r.line)).writes, v.line ≠ r.line)
    (hunawaited : ∀ e ∈ (s.home q).table, e.phase = .fill → e.msg.line ≠ r.line) :
    Completes (.mcReadData q pc err) s fun w =>
      SMap.get false w.poisLine r.line = true ∧ (∀ j < 64, w.byte (64 * r.line + j) = 0) ∧
      (∀ a, a < 64 * r.line ∨ 64 * r.line + 64 ≤ a → w.byte a = s.byte a) ∧
      w.cpField (mcAddr q 0x0A8) 0 16 = satCount 16 (s.cpField (mcAddr q 0x0A8) 0 16) 1 := by
  let u := s.readLeft q pc.val rest
  obtain ⟨hmem, hpois, -, hhomes⟩ : u.mem = s.mem ∧ u.poisLine = s.poisLine ∧ u.net = s.net ∧ u.homes = s.homes :=
    State.readLeft_apart
  have hcrit' : u.regionAttr (mcStation q) 32 (64 * r.line) 7 = false :=
    (State.regionAttr_apart (fun a _ => State.readLeft_cpGet a) ..).trans hcrit
  obtain ⟨l, beat, synd, hread⟩ := State.stackRead_uncorrectable (s := u) (q := q) hue hfound (by rw [hpois, hclean])
    hcrit' (by rwa [State.readLeft_writes])
  let v := (u.correctedAll q r.line l).mcUe q r.line 0 beat synd false false
  let w := v.stackWrite r.line 0 true
  obtain ⟨f, hexec, -⟩ := exec_mcReadData hissued hfill (t := w) hread
  have hcount : v.cpField (mcAddr q 0x0A8) 0 16 = satCount 16 (s.cpField (mcAddr q 0x0A8) 0 16) 1 := by
    obtain ⟨-, -, hue⟩ := State.correctedAll_notes (s := u) q r.line l
    rw [State.mcUe_counts, State.cpField_of_cpGet hue, State.cpField_of_cpGet (State.readLeft_cpGet _)]
  obtain ⟨hnoted, -⟩ : u.Noted v := (State.correctedAll_notes q r.line l).1.trans (State.mcUe_noted ..)
  obtain ⟨hhomes', -, hmem', -⟩ := hnoted.apart
  obtain ⟨hin, hout, hmark⟩ := v.stackWrite_line r.line 0 true
  obtain ⟨-, hhomes'', hcp, -⟩ := v.stackWrite_apart r.line 0 true
  have hw : w.fillArrived q r.line 0 true = w := fillArrived_unawaited
    (by rwa [State.home_congr (hhomes''.trans (hhomes'.trans hhomes))]) 0 true
  rw [hw] at hexec
  refine ⟨_, hexec, ?_, fun j hj => (State.modPc_byte ..).trans (hin j hj), fun a ha => ?_, ?_⟩
  · rw [State.modPc_poisLine, hmark]
  · rw [State.modPc_byte, hout a ha, State.byte, hmem', hmem, State.byte]
  · rw [State.cpField_congr ((State.modPc_cp ..).trans hcp), hcount]

end

theorem readDataResults : ReadDataResults := by
  intro q pc s r rest err hissued hfill
  exact ⟨fun e hawaits hue hclean => readData_clean hissued hfill hawaits hue hclean,
    fun e hawaits hue hpoisoned => readData_poisoned hissued hfill hawaits hue hpoisoned,
    fun hue hfound hclean hcrit hwrites hunawaited =>
      readData_uncorrectable hissued hfill hue hfound hclean hcrit hwrites hunawaited⟩

/-- Settles O28: the choice of a read and of a write, a line written to the stack, and a line read from it with its
errors noted before its fill reaches the home. -/
theorem memoryIssueResults : Obligations.MemoryIssueResults := ⟨issueResults, readDataResults⟩

end Sys2Proof.Machine
end
